-- ==== Sys2Proof/Word.lean ====
section
/-! DEFINITION. The word types of the Titrum Q8 (spec/01 R18, R19; spec/00 R8). -/

namespace Sys2Proof

/-- A byte of memory. -/
abbrev Byte := BitVec 8

/-- A vector register (R18). -/
abbrev Word := BitVec 32

/-- A uniform register (R19), a special register (R24), an address or a control-window register (R452). -/
abbrev Dword := BitVec 64

/-- An instruction word (R53). -/
abbrev InstrWord := BitVec 96

end Sys2Proof
end

