-- ==== Sys2Proof/Config.lean ====
section
/-! DEFINITION. What an implementation fixes and the values the spec leaves open: every one is an
opaque constant, so no proof can see a value of it. -/

namespace Sys2Proof.Config

/-- The n-th UNDEFINED value of a run (spec/00 R9). Each use advances `State.freeN`, so two uses
are unrelated. Free value: notes/assumptions/2. -/
opaque freeValue : Nat → BitVec 64

/-- A free choice of the machine where a rule allows several outcomes (spec/02 R66). -/
opaque freeChoice : Nat → Bool

/-- The data byte of memory that nothing has written (spec/11 R322): of the host (0), of peers (1), or
of the device since its reset number `which - 2`. Free value: notes/assumptions/5. -/
opaque powerOnByte : (which addr : Nat) → BitVec 8

/-- The check code that the same granule holds (spec/11 R322). -/
opaque powerOnCode : (epoch granule : Nat) → BitVec 8

/-- The special functions of spec/03 R92: operation number, type code and input bits to result
bits, the same on every Q8. Only the cases R92 states exactly are fixed by the model. -/
opaque approx : (op ty : Nat) → BitVec 64 → BitVec 64

/-- Fused values of spec/17 R460: trip temperature in degrees C. -/
opaque ttrip : BitVec 8

/-- Fused value of spec/17 R460: highest core voltage, in units of 4 mV. -/
opaque vmax : BitVec 8

/-- Fused and strapped enables of the link ports (spec/17 R460): bits 0-3 host, 4-19 peer. -/
opaque lken : BitVec 20

/-- Whether the part is the module TQ8-M (spec/17 R450, R460): PMAX 2,600 W, else 2,400 W. -/
opaque isModule : Bool

/-- Fused rollback counter at power-on (spec/17 R464 MGSTAT.RBK). -/
opaque fusedRbk : BitVec 7

/-- Serial number of the part (spec/17 R464). -/
opaque serial : BitVec 64

/-- SM3 of a byte string, named by spec/17 R461 and given by another standard. -/
opaque sm3 : List (BitVec 8) → BitVec 256

/-- SM2 verification (spec/17 R461, R462): public key, signed bytes, signature. -/
opaque sm2Verify : (pub : BitVec 512) → (msg : List (BitVec 8)) → (sig : BitVec 512) → Bool

/-- SM2 signature with the fused device key (spec/17 R464). -/
opaque sm2Sign : BitVec 256 → BitVec 512

/-- The device public key (spec/17 R464). -/
opaque devicePub : BitVec 512

/-- Whether a key digest is one of the four fused digests and not revoked (spec/17 R462 step 2). -/
opaque keyFused : BitVec 256 → Bool

/-- The ROM's own digest (spec/17 R463). -/
opaque romDigest : BitVec 256

/-- Temperature of stack `n` that SENSORS reports at a sample (spec/17 R464). -/
opaque stackTemp : (sample n : Nat) → BitVec 8

/-- What the debugger's or save area's hardware-owned bytes hold (spec/16 R433, R499; spec/12 R353). -/
opaque ownedByte : (block offset : Nat) → BitVec 8

/-- The space code of the tile store in a fault record (spec/16 R426 gives the field, not the code). -/
opaque tileSpace : BitVec 3

/-- Results the spec does not state for a RISC-V routine core operation whose value the RISC-V
standard leaves open. -/
opaque rvOpen : Nat → BitVec 64

end Sys2Proof.Config
end

