-- ==== Sys2Proof/Syntax.lean ====
section
/-! DEFINITION. The instructions of the Titrum Q8 and the events of its machinery, one constructor
per row of spec/opcode_table.json. Instruction fields follow spec/02 R53 to R61 and the encoding
tables of spec/04 to spec/08; events carry the data that selects and describes them. -/

namespace Sys2Proof

/-! ## Types, registers and operands -/

/-- Element types (spec/02 R61). -/
inductive Ty
  | none | i8 | i16 | i32 | i64 | n8 | n16 | n32 | n64 | b32 | b64
  | f16 | bf16 | f32 | f64 | e5m2 | e4m3 | e2m1 | e8m0 | mx8e4 | mx8e5 | mx4
  | f16x2 | bf16x2 | e4m3x4 | e5m2x4 | i8x4 | n8x4
  deriving DecidableEq, Repr

/-- Special registers (spec/01 R24). -/
inductive SReg
  | lane | tid | wave | crew | task | core | cluster | die | wavew | pix | fflags | mode | mfmt
  | tick | helper | rngk | rngkh | rngc | rngch
  | loopN (n : Fin 4) | lendN (n : Fin 4)
  | ctx | priv | vbase
  deriving DecidableEq, Repr

/-- Operands (spec/02 R59). -/
inductive Opd
  | v (n : Fin 256)
  | s (n : Fin 512)
  | k (n : Fin 16)
  | q (n : Fin 16)
  | j (n : Fin 8)
  | sr (r : SReg)
  | zero
  deriving DecidableEq, Repr

/-- Guard and switch marker, common to every instruction (spec/02 R53). -/
structure Head where
  sw : Bool
  g : Fin 16
  gn : Bool
  deriving DecidableEq, Repr

/-- Rounding selection of the modifier word (spec/02 R55): `dyn` takes %mode.RM. -/
inductive Rm
  | dyn | rne | rtz | rdn | rup | rna | rsr
  deriving DecidableEq, Repr

/-- The modifier word, less its C field (spec/02 R55). -/
structure Modifier where
  msk : Fin 16
  mz : Bool
  rm : Rm
  sat : Bool
  deriving DecidableEq, Repr

/-- A source that is a register or a 32-bit immediate (spec/05 R128, spec/04 R123). -/
inductive Src32
  | reg (o : Opd)
  | imm (x : BitVec 32)
  deriving DecidableEq, Repr

/-- A source that is a register or a 22-bit immediate, in a form with a third source (R128). -/
inductive Src22
  | reg (o : Opd)
  | imm (x : BitVec 22)
  deriving DecidableEq, Repr

/-- Comparisons of scmp and cmp (spec/04 R124, spec/05 R130). -/
inductive CmpOp
  | eq | ne | lt | le | gt | ge
  deriving DecidableEq, Repr

/-- Comparisons of fcmp (spec/05 R138). -/
inductive FcmpOp
  | eq | ne | lt | le | gt | ge | un | ord
  deriving DecidableEq, Repr

/-- Address spaces (spec/06 R157). -/
inductive Space
  | glob | crew | cluster | bcast
  deriving DecidableEq, Repr

/-- Scopes (spec/06 R163, spec/09 R265). -/
inductive Scope
  | wave | crew | core | clu | die | dev | sys
  deriving DecidableEq, Repr

/-! ## Instruction shapes -/

/-- d, a, b of a vector instruction without a third source (spec/05 R128). -/
structure VBin where
  h : Head
  mod : Option Modifier
  ty : Ty
  d : Opd
  a : Opd
  b : Src32
  deriving DecidableEq, Repr

/-- d, a, b, c of a vector instruction with a third source and an immediate form (R128). -/
structure VTer where
  h : Head
  mod : Option Modifier
  ty : Ty
  d : Opd
  a : Opd
  b : Src22
  c : Opd
  deriving DecidableEq, Repr

/-- d, a, b, c with no immediate form (lop3, fdot). -/
structure VTri where
  h : Head
  mod : Option Modifier
  ty : Ty
  d : Opd
  a : Opd
  b : Opd
  c : Opd
  deriving DecidableEq, Repr

/-- d, a of a unary vector instruction. -/
structure VUn where
  h : Head
  mod : Option Modifier
  ty : Ty
  d : Opd
  a : Opd
  deriving DecidableEq, Repr

/-- mov: the immediate replaces A (R128). -/
structure VMov where
  h : Head
  mod : Option Modifier
  ty : Ty
  d : Opd
  a : Src32
  deriving DecidableEq, Repr

/-- addc and subb (spec/05 R131). -/
structure VCarry where
  h : Head
  mod : Option Modifier
  ty : Ty
  d : Opd
  kout : Fin 16
  a : Opd
  b : Opd
  c : Opd
  deriving DecidableEq, Repr

/-- The forms of cvt (spec/05 R141). -/
inductive CvtForm
  | scalar
  | pair (b : Opd)
  | half (hi : Bool) (b : Opd)
  | unpack (idx : Fin 4)
  | repack
  deriving DecidableEq, Repr

/-- cvt (spec/05 R141). -/
structure Cvt where
  h : Head
  mod : Option Modifier
  dty : Ty
  sty : Ty
  d : Opd
  a : Opd
  form : CvtForm
  deriving DecidableEq, Repr

/-- Partner selection of qswp (spec/05 R145). -/
inductive QDir
  | h | v | d | b (n : Fin 4)
  deriving DecidableEq, Repr

/-- Source lane selection of shfl (spec/05 R146). -/
inductive ShflOp
  | idx | up | down | xor
  deriving DecidableEq, Repr

/-- shfl (spec/05 R146): `kout` receives the validity bits, 0 for none. -/
structure Shfl where
  h : Head
  mod : Option Modifier
  ty : Ty
  d : Opd
  a : Opd
  b : Src32
  kout : Fin 16
  deriving DecidableEq, Repr

/-- Predicates of vote (spec/05 R147). -/
inductive VoteOp
  | any | all | ballot | eq
  deriving DecidableEq, Repr

/-- Operations of scan and wred (spec/05 R148). -/
inductive ScanOp
  | add | min | max | and | or | xor
  deriving DecidableEq, Repr

/-- Operations of kop (spec/05 R151). -/
inductive KopOp
  | and | or | xor | andn | not | mov
  deriving DecidableEq, Repr

/-- Forms of kset (spec/05 R154). -/
inductive KsetOp
  | nz | one | clr | lane
  deriving DecidableEq, Repr

/-- d, a, b of a mask instruction (spec/05 R151). -/
structure KBin where
  h : Head
  mod : Option Modifier
  d : Opd
  a : Opd
  b : Opd
  deriving DecidableEq, Repr

/-- d, a of a mask instruction (spec/05 R152 to R154). -/
structure KUn where
  h : Head
  mod : Option Modifier
  d : Opd
  a : Opd
  deriving DecidableEq, Repr

/-- Condition of br (spec/04 R101). -/
inductive BrCond
  | always
  | nz (a : Opd)
  | z (a : Opd)
  deriving DecidableEq, Repr

/-- Count of loop (spec/04 R104). -/
inductive LoopCount
  | reg (a : Opd)
  | imm (n : BitVec 12)
  deriving DecidableEq, Repr

/-- sysc (spec/04 R114). -/
structure Sysc where
  h : Head
  d : Opd
  a : Opd
  b : Opd
  narg : BitVec 4
  nrep : BitVec 2
  deriving DecidableEq, Repr

/-- Fields of mode (spec/04 R121): a field is `some` when its write enable is set. -/
structure ModeFields where
  rm : Option (BitVec 3)
  z16 : Option Bool
  z32 : Option Bool
  z64 : Option Bool
  deriving DecidableEq, Repr

/-- d, a, b of a uniform instruction (spec/04 R123). -/
structure UBin where
  h : Head
  ty : Ty
  d : Opd
  a : Opd
  b : Src32
  deriving DecidableEq, Repr

/-- Forms of sli (spec/04 R124). -/
inductive SliOp
  | sx | zx | hi
  deriving DecidableEq, Repr

/-- Counts of spop (spec/04 R124). -/
inductive SpopOp
  | popc | clz | ctz
  deriving DecidableEq, Repr

/-- sld and sst (spec/04 R125): `r` is the destination or the data. -/
structure UMem where
  h : Head
  ty : Ty
  sp : Space
  r : Opd
  a : Opd
  off : BitVec 32
  deriving DecidableEq, Repr

/-- ld and st (spec/06 R163): `r` is the destination or the data; `ord` is the acquire or release
scope. -/
structure Mem where
  h : Head
  mod : Option Modifier
  ty : Ty
  sp : Space
  ord : Option Scope
  nt : Bool
  r : Opd
  a : Opd
  off : BitVec 32
  deriving DecidableEq, Repr

/-- st.sy (spec/06 R166). -/
structure MemSy where
  h : Head
  mod : Option Modifier
  ty : Ty
  sp : Space
  ord : Option Scope
  nt : Bool
  r : Opd
  a : Opd
  c : Opd
  off : BitVec 22
  deriving DecidableEq, Repr

/-- ldx and stc (spec/06 R167): `r` the first data register, `c` the first predicate, `cnt` stc's
count destination. -/
structure Expand where
  h : Head
  ty : Ty
  sp : Space
  r : Opd
  a : Opd
  c : Opd
  cnt : Opd
  n : BitVec 7
  deriving DecidableEq, Repr

/-- Operations of swp and itx (spec/06 R170). -/
inductive SwpOp
  | copy | add | sub | mul | min | max | fma | and | or | xor
  deriving DecidableEq, Repr

/-- swp and itx operands (spec/06 R170, R173); `n` is zero for itx. -/
structure Sweep where
  h : Head
  ty : Ty
  d : Opd
  a : Opd
  b : Opd
  n : BitVec 12
  deriving DecidableEq, Repr

/-- itld and itst (spec/06 R175): `r` is the iterator record. -/
structure ItMem where
  h : Head
  sp : Space
  r : Opd
  a : Opd
  off : BitVec 32
  deriving DecidableEq, Repr

/-- Operations of atom, red and redx (spec/06 R176). -/
inductive AtomOp
  | add | min | max | and | or | xor | exch | cas | cas128 | inc | dec
  deriving DecidableEq, Repr

/-- Orderings with their scope (spec/06 R176). -/
inductive Ord
  | rlx
  | acq (s : Scope)
  | rel (s : Scope)
  | ar (s : Scope)
  deriving DecidableEq, Repr

/-- atom and redx operands (spec/06 R176). -/
structure Atom where
  h : Head
  ty : Ty
  sp : Space
  ord : Ord
  d : Opd
  a : Opd
  b : Opd
  c : Opd
  off : BitVec 22
  deriving DecidableEq, Repr

/-- red operands (spec/06 R176). -/
structure Red where
  h : Head
  ty : Ty
  sp : Space
  ord : Ord
  a : Opd
  b : Opd
  off : BitVec 32
  deriving DecidableEq, Repr

/-- Kinds of fence (spec/06 R180). -/
inductive FenceKind
  | ar | acq | rel | sc
  deriving DecidableEq, Repr

/-- Kinds of bar (spec/06 R184). -/
inductive BarKind
  | arrive | wait | sync
  deriving DecidableEq, Repr

/-- Identifier and count of bar (spec/06 R183). -/
inductive BarSrc
  | reg (a b : Opd)
  | imm (id : BitVec 5) (count : BitVec 11)
  deriving DecidableEq, Repr

/-- cadd and cwait (spec/06 R183): space global or crew. -/
structure Ctr where
  h : Head
  crew : Bool
  scope : Scope
  a : Opd
  b : Src32
  deriving DecidableEq, Repr

/-- syarm, sywait, chwait operands (spec/06 R183): `flag` is NOTIFY or ANY. -/
structure SyncOp where
  h : Head
  flag : Bool
  a : Opd
  b : Src32
  deriving DecidableEq, Repr

/-- Kinds of queue register (spec/06 R192). -/
inductive QKind
  | spad | mec | spl | syc | xin
  deriving DecidableEq, Repr

/-- Source of mfmt (spec/07 R196). -/
inductive MfmtSrc
  | reg (a : Opd)
  | imm (x : BitVec 22)
  deriving DecidableEq, Repr

/-- mma and mmac (spec/07 R196): shape fields as encoded. -/
structure Mma where
  h : Head
  tok : Bool
  d : Opd
  a : Opd
  b : Opd
  m : BitVec 6
  n : BitVec 6
  k : BitVec 8
  tag : BitVec 12
  deriving DecidableEq, Repr

/-- tld, tst, tzro, wbinv (spec/07 R196); `a` is v0 where the form has no A. -/
structure TileMove where
  h : Head
  tok : Bool
  d : Opd
  a : Opd
  len : BitVec 13
  tag : BitVec 12
  deriving DecidableEq, Repr

/-- wbld (spec/07 R196, R219). -/
structure Wbld where
  h : Head
  tok : Bool
  crew : Bool
  d : Opd
  a : Opd
  tag : BitVec 12
  deriving DecidableEq, Repr

/-- wbinv (spec/07 R220): a range, or `none` for `.all`. -/
structure Wbinv where
  h : Head
  tok : Bool
  range : Option (Opd × BitVec 13)
  tag : BitVec 12
  deriving DecidableEq, Repr

/-- mdrn (spec/07 R196, R222). -/
structure Mdrn where
  h : Head
  tok : Bool
  crew : Bool
  scl : Bool
  clr : Bool
  rm : Rm
  sat : Bool
  ty : Ty
  d : Opd
  a : Opd
  b : Opd
  m : BitVec 6
  n : BitVec 6
  tag : BitVec 12
  deriving DecidableEq, Repr

/-- vmm (spec/07 R225). -/
structure Vmm where
  h : Head
  acc : Bool
  ty : Ty
  d : Opd
  a : Opd
  b : Opd
  k : BitVec 7
  n : BitVec 7
  deriving DecidableEq, Repr

/-- Level of a sampler form (spec/08 R231, R234). -/
inductive Lod
  | lz
  | ll (c : Opd)
  | lb (c : Opd)
  deriving DecidableEq, Repr

/-- Filters (spec/08 R231). -/
inductive Filt
  | lin | pt | sto
  deriving DecidableEq, Repr

/-- smpl, smpg and latf (spec/08 R231). `n` is NRES, or latf's registers minus one; unused for smpg. -/
structure Smpl where
  h : Head
  ty : Ty
  lod : Lod
  d : Opd
  a : Opd
  b : Opd
  n : BitVec 4
  ncrd : BitVec 2
  ox : BitVec 4
  oy : BitVec 4
  deriving DecidableEq, Repr

/-- Fields hitld reads (spec/08 R249). -/
inductive HitField
  | kind | t | bary | id | geo
  deriving DecidableEq, Repr

/-- Planes vbld reads (spec/08 R250). -/
inductive VbField
  | id | dep | qm
  deriving DecidableEq, Repr

/-- Forms of rngset (spec/08 R255). -/
inductive RngSet
  | key | ctr | seed
  deriving DecidableEq, Repr

/-- Value of rngadv (spec/08 R256). -/
inductive RngAdv
  | reg (a : Opd)
  | imm (x : BitVec 32)
  deriving DecidableEq, Repr

/-! ## Data of events -/

/-- A thread by its place: core 0 to 511, wave slot 0 to 127, lane 0 to 63 (spec/01 R14, R16). -/
structure ThreadRef where
  core : Nat
  wslot : Nat
  lane : Nat
  deriving DecidableEq, Repr

/-- Fields of a command packet that its kind uses (spec/12 R330). -/
structure Packet where
  irq : Bool
  pseq : BitVec 32
  addr : BitVec 64
  value : BitVec 64
  deriving DecidableEq, Repr

/-- Who makes a control-window access (spec/17 R453, R466). -/
inductive Agent
  | host | user | turnip
  deriving DecidableEq, Repr

/-- What a peer part asks of this part (spec/10 R306). -/
inductive PeerOp
  | read (size : Nat)
  | write (size : Nat) (data : BitVec 64)
  | atom (op : AtomOp) (ty : Ty) (b c : BitVec 128)
  | tenq
  deriving DecidableEq, Repr

/-! ## Instructions and events -/

/-- One constructor per row of spec/opcode_table.json, in the table's order. -/
inductive Instr
  -- control (spec/04)
  | nop (h : Head)
  | br (h : Head) (c : BrCond) (disp : BitVec 32)
  | bri (h : Head) (a : Opd)
  | call (h : Head) (d : Opd) (disp : BitVec 32)
  | calli (h : Head) (d a : Opd)
  | ret (h : Head) (a : Opd)
  | loop (h : Head) (c : LoopCount) (e : BitVec 20)
  | loopPop (h : Head)
  | exit (h : Head)
  | cont (h : Head) (disp : BitVec 32)
  | yield (h : Head)
  | park (h : Head) (c : Src32)
  | parkTimeout (t : ThreadRef)
  | sysc (x : Sysc)
  | syscWait (x : Sysc)
  | trap (h : Head) (code : BitVec 32)
  | brk (h : Head) (code : BitVec 32)
  | rdsr (h : Head) (d : Opd) (r : SReg)
  | wrsr (h : Head) (r : SReg) (a : Opd)
  | mode (h : Head) (f : ModeFields)
  | join (h : Head) (a : Opd)
  | tenq (h : Head) (a : Opd)
  -- uniform (spec/04)
  | sadd (x : UBin) | ssub (x : UBin) | smul (x : UBin) | smulh (x : UBin)
  | sdiv (x : UBin) | srem (x : UBin) | sand (x : UBin) | sor (x : UBin) | sxor (x : UBin)
  | sshl (x : UBin) | sshr (x : UBin) | ssra (x : UBin) | smin (x : UBin) | smax (x : UBin)
  | smov (h : Head) (d a : Opd)
  | sli (h : Head) (o : SliOp) (d : Opd) (x : BitVec 32)
  | scmp (o : CmpOp) (x : UBin)
  | ssel (h : Head) (d a b c : Opd)
  | sbfe (h : Head) (ty : Ty) (d a : Opd) (start : BitVec 6) (len : BitVec 7)
  | spop (h : Head) (o : SpopOp) (ty : Ty) (d a : Opd)
  | sld (x : UMem)
  | sst (x : UMem)
  -- vector integer (spec/05)
  | add (x : VBin) | sub (x : VBin) | mul (x : VBin) | mulh (x : VBin)
  | mad (x : VTer)
  | div (x : VBin) | rem (x : VBin)
  | addc (x : VCarry) | subb (x : VCarry)
  | and (x : VBin) | or (x : VBin) | xor (x : VBin)
  | lop3 (lut : BitVec 8) (x : VTri)
  | shl (x : VBin) | shr (x : VBin) | sra (x : VBin)
  | rot (right : Bool) (x : VBin)
  | min (x : VBin) | max (x : VBin)
  | abs (x : VUn) | popc (x : VUn) | clz (x : VUn) | ctz (x : VUn) | brev (x : VUn)
  | bfe (x : VBin)
  | bfi (x : VTer)
  | sel (x : VTer)
  | cmp (o : CmpOp) (x : VBin)
  | mov (x : VMov)
  | dot4 (mix : Bool) (x : VTer)
  -- floating point (spec/05)
  | fadd (x : VBin) | fsub (x : VBin) | fmul (x : VBin)
  | fma (neg sub : Bool) (x : VTer)
  | fmin (nan : Bool) (x : VBin) | fmax (nan : Bool) (x : VBin)
  | fcmp (o : FcmpOp) (x : VBin)
  | fclass (mask : BitVec 10) (x : VUn)
  | fdiv (x : VBin)
  | fsqrt (x : VUn)
  | frcp (x : VUn) | frsq (x : VUn) | fex2 (x : VUn) | flg2 (x : VUn)
  | fsin (x : VUn) | fcos (x : VUn)
  | frnd (x : VUn)
  | fscl (x : VBin)
  | cvt (x : Cvt)
  | fdot (mix : Bool) (x : VTri)
  -- cross-lane and mask (spec/05)
  | qswp (o : QDir) (x : VUn)
  | shfl (o : ShflOp) (x : Shfl)
  | vote (o : VoteOp) (x : VUn)
  | kop (o : KopOp) (x : KBin)
  | kcnt (total : Bool) (x : KUn)
  | kfst (hi : Bool) (x : KUn)
  | scan (o : ScanOp) (ex : Bool) (x : VUn)
  | wred (o : ScanOp) (x : VUn)
  | reord (desc : Bool) (x : VTri)
  | kset (o : KsetOp) (x : KUn)
  -- memory (spec/06)
  | ld (x : Mem)
  | st (x : Mem)
  | stSy (x : MemSy)
  | countedArrival (n : Nat)
  | ldx (x : Expand)
  | stc (x : Expand)
  | swp (o : SwpOp) (x : Sweep)
  | itx (o : SwpOp) (x : Sweep)
  | itld (x : ItMem)
  | itst (x : ItMem)
  | atom (o : AtomOp) (x : Atom)
  | red (o : AtomOp) (x : Red)
  | redx (o : AtomOp) (x : Atom)
  | fence (h : Head) (k : FenceKind) (s : Scope)
  | pref (h : Head) (llc : Bool) (a : Opd) (off : BitVec 32)
  | sealRegion (h : Head) (a b : Opd)
  | unsealRegion (h : Head) (a b : Opd)
  -- synchronisation (spec/06)
  | bar (h : Head) (k : BarKind) (x : BarSrc)
  | cadd (x : Ctr)
  | cwait (x : Ctr)
  | cwaitSatisfied (t : ThreadRef)
  | syarm (x : SyncOp)
  | sywait (x : SyncOp)
  | chwait (x : SyncOp)
  | chtst (d : Opd) (x : SyncOp)
  | qbind (h : Head) (k : QKind) (d a : Opd)
  | qfree (h : Head) (d : Opd)
  | qpoll (h : Head) (space : Bool) (d a : Opd)
  -- matrix (spec/07)
  | mfmt (h : Head) (x : MfmtSrc)
  | mma (x : Mma)
  | mmac (x : Mma)
  | mmacBlock (task : Nat)
  | tld (x : TileMove)
  | tst (x : TileMove)
  | trow (h : Head) (frm : Bool) (t r : Opd) (n : BitVec 7)
  | tzro (x : TileMove)
  | wbld (x : Wbld)
  | wbinv (x : Wbinv)
  | mdrn (x : Mdrn)
  | vmm (x : Vmm)
  | mbst (h : Head) (hold : BitVec 12)
  | opfence (h : Head)
  | kmma (h : Head) (b4 : Bool) (d a b : Opd)
  | engineCommandDone (crew : Nat)
  | enginePowerStep (core : Nat)
  -- sampling, tracing, random (spec/08)
  | smpl (f : Filt) (x : Smpl)
  | smpg (ch : Fin 4) (x : Smpl)
  | smpq (h : Head) (lod : Bool) (d a b : Opd) (ncrd : BitVec 2)
  | latf (f : Filt) (x : Smpl)
  | wcpin (h : Head) (unpin : Bool) (a : Opd)
  | wcinv (h : Head) (tag : Option Opd)
  | trace (h : Head) (any cull : Bool) (a b : Opd) (disp : BitVec 32)
  | rayWalkEnd (cluster n : Nat)
  | hitld (h : Head) (f : HitField) (d : Opd)
  | vbld (h : Head) (f : VbField) (d a b : Opd) (sample : BitVec 3)
  | rng (h : Head) (unif : Bool) (d : Opd) (n : BitVec 2)
  | rngset (h : Head) (o : RngSet) (a : Opd)
  | rngadv (h : Head) (x : RngAdv)
  | rngget (h : Head) (ctr : Bool) (d : Opd)
  | resultLand (core wslot pos : Nat)
  -- command processor and scheduler (spec/12)
  | sqtailDoorbell (q : Nat) (val : BitVec 64)
  | nopPacket (q : Nat) (p : Packet)
  | submit (q : Nat) (p : Packet)
  | wait (q : Nat) (p : Packet)
  | waitSatisfied (q : Nat)
  | signal (q : Nat) (p : Packet)
  | signalPerform (q : Nat)
  | fencePacket (q : Nat) (p : Packet)
  | taskPlace (task : Nat)
  | placementAgeLimit (task : Nat)
  | balancerMove (task die : Nat)
  | copyInChunk (task entry chunk : Nat)
  | taskRetire (task : Nat)
  | regroupWaveLaunch (cluster n : Nat)
  | regroupTimeout (cluster n : Nat)
  | timeSliceExpiry (ctx : Nat)
  | contextRestore (ctx : Nat)
  | watchdogExpiry (q : Nat)
  | clusterGate (cluster : Nat)
  -- memory system and links (spec/10)
  | mergeGroupClose (n : Nat)
  | msinvGo (val : BitVec 64)
  | invalidationDone
  | rmsecCommit (val : BitVec 64)
  | linkTimeout (core wslot pos : Nat)
  | linkDown (port : Nat)
  | linkErrorCompletion (core wslot pos : Nat)
  | hostRecall (line : Nat)
  -- faults, calls and contexts (spec/16, spec/04, spec/12)
  | fqackResolve (ctx : Nat) (seq : BitVec 31)
  | fqackAbort (ctx : Nat) (seq : BitVec 31)
  | replyDoorbell (ctx : Nat) (val : BitVec 64)
  | contextResident (ctx : Nat) (val : BitVec 64)
  | contextRelease (ctx : Nat) (val : BitVec 64)
  -- Fennel log (spec/13)
  | flctlEn (ctx : Nat) (val : BitVec 64)
  | flctlRpl (ctx : Nat) (val : BitVec 64)
  | flctlEnd (ctx : Nat) (val : BitVec 64)
  | fltailWrite (ctx : Nat) (val : BitVec 64)
  | flheadWrite (ctx : Nat) (val : BitVec 64)
  | replayDisc (ctx : Nat)
  -- debug (spec/16)
  | halt | haltctx | resume | resumectx | step | stepc | cancel
  | debugWindowAccess (write : Option (BitVec 64))
  | cpbpGo (n : Fin 4) (val : BitVec 64)
  | stopTick
  | snapctlSw (val : BitVec 64)
  | snapshotLatch
  | traceSample (die : Nat)
  | ccinjGo (core : Nat) (val : BitVec 64)
  -- rasteriser and copy engines (spec/14, spec/15)
  | rqtailDoorbell (cluster : Nat) (val : BitVec 64)
  | rasterJob (cluster : Nat)
  | cjtailDoorbell (die : Nat) (val : BitVec 64)
  | copyJobStart (die : Nat)
  | cemove (die engine : Nat) (val : BitVec 64)
  | cesync (die engine : Nat) (rd : Fin 32)
  | transferDone (die engine n : Nat)
  | ecall (die engine : Nat)
  | ebreak (die engine : Nat)
  | copyJobTimeout (die engine : Nat)
  | rtslotLoad (die slot : Nat) (val : BitVec 64)
  -- power and management (spec/17)
  | throttleSample (hot : List Nat) (avg : Nat)
  | thermalTrip (die temp : Nat)
  | thermalShutdown (die temp : Nat)
  | powerOn
  | pkrstWrite (by' : Agent) (val : BitVec 64)
  | attest | loadslot | stagefw | sensors
  | mailboxComplete
  | registerWrite (by' : Agent) (off : Nat) (val : BitVec 64)
  | rv64gcInstruction (die engine : Nat) (w : BitVec 32)
  | fqtailWrite (ctx : Nat) (val : BitVec 64)
  | cqtailWrite (ctx : Nat) (base : Bool) (val : BitVec 64)
  | linkTraining (port : Nat)
  | peerRequest (ctx : Nat) (addr : BitVec 64) (op : PeerOp)
  deriving DecidableEq, Repr

end Sys2Proof
end

