-- ==== Sys2Proof/WellFormed.lean ====
section
/-! DEFINITION. Which instructions the encodings of spec/02 and spec/04 to spec/08 admit:
`fieldsOk` holds the checks that fault ILLEGAL_FIELD, `operandsOk` those that fault
ILLEGAL_OPERAND (spec/02 R51 step 5). Limits a kernel header declares are checked at fetch. -/

namespace Sys2Proof

/-! ## Element types (spec/02 R61) -/

namespace Ty

/-- Bits of an element; 0 for `none` and for block types. -/
def bits : Ty → Nat
  | i8 | n8 | e5m2 | e4m3 | e8m0 => 8
  | i16 | n16 | f16 | bf16 => 16
  | i32 | n32 | b32 | f32 | f16x2 | bf16x2 | e4m3x4 | e5m2x4 | i8x4 | n8x4 => 32
  | i64 | n64 | b64 | f64 => 64
  | e2m1 => 4
  | none | mx8e4 | mx8e5 | mx4 => 0

/-- Types that occupy an even-odd pair (R18). -/
def wide (t : Ty) : Bool := t.bits == 64

/-- Registers of a v operand. -/
def regs (t : Ty) : Nat := if t.wide then 2 else 1

def signed : Ty → Bool
  | i8 | i16 | i32 | i64 | i8x4 => true
  | _ => false

/-- INT of spec/05 R130. -/
def isInt : Ty → Bool
  | i8 | i16 | i32 | i64 | n8 | n16 | n32 | n64 => true
  | _ => false

/-- W4 of spec/05 R130. -/
def isW4 : Ty → Bool
  | i32 | i64 | n32 | n64 => true
  | _ => false

/-- PK of spec/05 R130. -/
def isPk : Ty → Bool
  | i8x4 | n8x4 => true
  | _ => false

def isB : Ty → Bool
  | b32 | b64 => true
  | _ => false

/-- FS of spec/05 R135. -/
def isFS : Ty → Bool
  | f16 | bf16 | f32 | f64 => true
  | _ => false

def isF2 : Ty → Bool
  | f16x2 | bf16x2 => true
  | _ => false

/-- FT of spec/05 R135. -/
def isFT (t : Ty) : Bool := t.isFS || t.isF2

def isF4 : Ty → Bool
  | e4m3x4 | e5m2x4 => true
  | _ => false

/-- Types of spec/06 R164. -/
def isMem (t : Ty) : Bool := t.bits ≥ 8 && t != e8m0

/-- Types of spec/06 R167. -/
def isExpand (t : Ty) : Bool := t.isW4 || t.isB || t == f32 || t == f64

/-- Integer and floating types of the additive rows of R148 and R176. -/
def isAdd (t : Ty) : Bool := t.isW4 || t == f32 || t == f64

/-- Scalar types of cvt (R141). -/
def isScalar (t : Ty) : Bool :=
  t.isInt || t.isB || t.isFS || t == e5m2 || t == e4m3 || t == e2m1 || t == e8m0

end Ty

/-! ## Operand classes (spec/02 R59) -/

namespace Opd

def isV : Opd → Bool
  | v _ => true
  | _ => false

def isS : Opd → Bool
  | s _ => true
  | _ => false

def isK : Opd → Bool
  | k _ => true
  | _ => false

/-- A mask register that may be written (R21). -/
def isKd : Opd → Bool
  | k n => n != 0
  | _ => false

def isQ : Opd → Bool
  | q _ => true
  | _ => false

def isJ : Opd → Bool
  | j _ => true
  | _ => false

def isZero : Opd → Bool
  | zero => true
  | _ => false

/-- The code 0x000 of an unused field (R58). -/
def unused (o : Opd) : Bool := o == .v 0

/-- A v register whose number is a multiple of `al`; other classes hold (R18). -/
def aligned (al : Nat) : Opd → Bool
  | v n => n.val % al == 0
  | _ => true

/-- A v or s register whose number is a multiple of 4, the first of the four of cas128 (spec/06 R176). -/
def quad : Opd → Bool
  | v n => n.val % 4 == 0
  | s n => n.val % 4 == 0
  | _ => false

/-- v (even when wide), s or zero. -/
def vsz (wide : Bool) (o : Opd) : Bool :=
  (o.isV || o.isS || o.isZero) && o.aligned (if wide then 2 else 1)

/-- v (even when wide) or zero. -/
def vz (wide : Bool) (o : Opd) : Bool :=
  (o.isV || o.isZero) && o.aligned (if wide then 2 else 1)

def sz (o : Opd) : Bool := o.isS || o.isZero

def vs (o : Opd) : Bool := o.isV || o.isS

end Opd

/-- Registers that hold 64 bits (R24). -/
def SReg.wide : SReg → Bool
  | lane | tid | wave | crew | core | cluster | die | wavew => false
  | _ => true

/-- Thread scope (R24). -/
def SReg.perThread : SReg → Bool
  | lane | tid | pix | rngk | rngkh | rngc | rngch | loopN _ | lendN _ => true
  | _ => false

/-! ## Sources -/

namespace Src32

def isImm : Src32 → Bool
  | imm _ => true
  | reg _ => false

/-- The register class test, true of an immediate. -/
def ok (p : Opd → Bool) : Src32 → Bool
  | reg o => p o
  | imm _ => true

/-- Unused high bits of a 16-bit floating immediate are zero (R128). -/
def fitsF (t : Ty) : Src32 → Bool
  | reg _ => true
  | imm x => (t != .f16 && t != .bf16) || x.toNat < 65536

end Src32

namespace Src22

def isImm : Src22 → Bool
  | imm _ => true
  | reg _ => false

def ok (p : Opd → Bool) : Src22 → Bool
  | reg o => p o
  | imm _ => true

/-- R128: packed floating types have no 22-bit immediate; f16 and bf16 use 16 bits of it. -/
def fitsF (t : Ty) : Src22 → Bool
  | reg _ => true
  | imm x => !t.isF2 && ((t != .f16 && t != .bf16) || x.toNat < 65536)

end Src22

/-- Modifier word against what the instruction allows (R56, R128). -/
def modOk (rounds sats imm : Bool) : Option Modifier → Bool
  | none => true
  | some m => !imm && (rounds || m.rm == .dyn) && (sats || !m.sat)

/-! ## Field checks by shape -/

def VBin.fieldsOk (x : VBin) (tys : Ty → Bool) (rounds sats : Bool) : Bool :=
  tys x.ty && modOk rounds sats x.b.isImm x.mod

/-- Floating form with an immediate of the type. -/
def VBin.fieldsOkF (x : VBin) (tys : Ty → Bool) (rounds sats : Bool) : Bool :=
  x.fieldsOk tys rounds sats && x.b.fitsF x.ty

def VTer.fieldsOk (x : VTer) (tys : Ty → Bool) (rounds sats : Bool) : Bool :=
  tys x.ty && modOk rounds sats x.b.isImm x.mod

def VTri.fieldsOk (x : VTri) (tys : Ty → Bool) (rounds sats : Bool) : Bool :=
  tys x.ty && modOk rounds sats false x.mod

def VUn.fieldsOk (x : VUn) (tys : Ty → Bool) (rounds sats : Bool) : Bool :=
  tys x.ty && modOk rounds sats false x.mod

/-- cvt forms that exist (R141). -/
def Cvt.fieldsOk (x : Cvt) : Bool :=
  match x.form with
  | .scalar => x.dty.isScalar && x.sty.isScalar &&
      (!(x.dty.isB || x.sty.isB) || x.dty.bits == x.sty.bits)
  | .pair _ => x.dty.isF2 && x.sty == .f32
  | .half _ _ => x.dty.isF4 && (x.sty == .f32 || x.sty == .f16 || x.sty == .bf16)
  | .unpack i => x.dty == .f32 && ((x.sty.isF2 && i.val < 2) || x.sty.isF4)
  | .repack => (x.dty == .bf16x2 && x.sty == .f16x2) || (x.dty == .f16x2 && x.sty == .bf16x2)

/-- RM and SAT of scan and wred (R148). -/
def scanOk (o : ScanOp) (x : VUn) : Bool :=
  match o with
  | .add => if x.ty.isW4 then modOk false true false x.mod
            else (x.ty == .f32 || x.ty == .f64) && modOk true false false x.mod
  | .min | .max => x.ty.isAdd && modOk false false false x.mod
  | .and | .or | .xor => x.ty.isB && modOk false false false x.mod

/-- Operations and types of swp and itx (R170). -/
def SwpOp.takes (o : SwpOp) (t : Ty) : Bool :=
  match o with
  | .copy => t.isW4 || t.isFS || t.isB
  | .add | .sub | .mul | .min | .max => t.isW4 || t.isFS
  | .fma => t.isFS
  | .and | .or | .xor => t.isB

/-- Operations and types of atom (R176). -/
def AtomOp.atomTakes (o : AtomOp) (t : Ty) : Bool :=
  match o with
  | .add | .min | .max => t.isAdd
  | .and | .or | .xor | .exch | .cas => t.isB
  | .cas128 => t == .b64
  | .inc | .dec => t == .n32 || t == .n64

/-- Operations and types of red and redx (R176). -/
def AtomOp.redTakes (o : AtomOp) (t : Ty) : Bool :=
  match o with
  | .add | .min | .max => t.isAdd || t == .f16 || t == .bf16
  | .and | .or | .xor => t.isB
  | _ => false

/-- Destination types of mdrn that some accumulator type admits (R196, R222). -/
def Ty.isDrain : Ty → Bool
  | .f64 | .f32 | .f16 | .bf16 | .e5m2 | .e4m3 | .e2m1 | .mx8e4 | .mx8e5 | .mx4
  | .i32 | .i16 | .i8 => true
  | _ => false

/-- Elements of one register of a vmm input (R225), 0 for a type it does not take. -/
def Ty.perReg : Ty → Nat
  | .f32 => 1
  | .f16x2 | .bf16x2 => 2
  | .e4m3x4 | .e5m2x4 => 4
  | _ => 0

/-- Length fields of tld, tst, tzro and wbinv (R196). -/
def lenOk (n : BitVec 13) : Bool := 1 ≤ n.toNat && n.toNat ≤ 4096

def Lod.reg? : Lod → Option Opd
  | .lz => none
  | .ll c | .lb c => some c

/-- The checks that fault ILLEGAL_FIELD (spec/02 R55 to R58 and the encoding tables). vote.eq with TY = 0x00 and a k
register A, where both this cause and R147's ILLEGAL_OPERAND would do, is refused here (notes/assumptions/20). -/
def Instr.fieldsOk : Instr → Bool
  | .loop _ _ e => e != 0
  | .sysc x => x.narg.toNat ≤ 8 && (x.nrep == 1 || x.nrep == 2) && (x.narg != 0 || x.a.unused)
  | .syscWait x => x.narg.toNat ≤ 8 && (x.nrep == 1 || x.nrep == 2) && (x.narg != 0 || x.a.unused)
  | .mode _ f => (f.rm.isSome || f.z16.isSome || f.z32.isSome || f.z64.isSome)
      && f.rm != some 0 && f.rm != some 7
  | .sadd x | .ssub x | .smul x | .smulh x | .sdiv x | .srem x | .smin x | .smax x => x.ty.isW4
  | .sand x | .sor x | .sxor x | .sshl x | .sshr x => x.ty.isB
  | .ssra x => x.ty == .i32 || x.ty == .i64
  | .scmp _ x => x.ty.isW4
  | .sbfe _ ty _ _ _ len => (ty == .n64 || ty == .i64) && 1 ≤ len.toNat && len.toNat ≤ 64
  | .spop _ _ ty _ _ => ty.isB
  | .sld x => x.ty.isW4 || x.ty == .b64
  | .sst x => (x.ty.isW4 || x.ty == .b64) && x.sp != .bcast
  | .add x | .sub x | .mul x => x.fieldsOk (fun t => t.isInt || t.isPk) false true
  | .mulh x | .rem x => x.fieldsOk Ty.isW4 false false
  | .div x => x.fieldsOk Ty.isW4 false true
  | .mad x => x.fieldsOk Ty.isW4 false true
  | .addc x | .subb x => (x.ty == .n32 || x.ty == .n64) && modOk false false false x.mod
  | .and x | .or x | .xor x | .shl x | .shr x => x.fieldsOk Ty.isB false false
  | .lop3 _ x => x.fieldsOk Ty.isB false false
  | .sra x => x.fieldsOk (fun t => t == .i32 || t == .i64) false false
  | .rot _ x => x.fieldsOk Ty.isB false false
  | .min x | .max x => x.fieldsOk (fun t => t.isInt || t.isPk) false false
  | .abs x => x.fieldsOk Ty.signed false true
  | .popc x | .clz x | .ctz x | .brev x => x.fieldsOk Ty.isB false false
  | .bfe x => x.fieldsOk Ty.isW4 false false
  | .bfi x => x.fieldsOk Ty.isB false false
  | .sel x => x.fieldsOk Ty.isB false false
  | .cmp _ x => x.fieldsOk Ty.isInt false false
  | .mov x => x.ty.isB && modOk false false x.a.isImm x.mod
  | .dot4 _ x => x.fieldsOk Ty.isPk false true
  | .fadd x | .fsub x | .fmul x => x.fieldsOkF Ty.isFT true true
  | .fma _ _ x => x.fieldsOk Ty.isFT true true && x.b.fitsF x.ty
  | .fmin _ x | .fmax _ x => x.fieldsOkF Ty.isFT false false
  | .fcmp _ x => x.fieldsOkF Ty.isFS false false
  | .fclass m x => m != 0 && x.fieldsOk Ty.isFS false false
  | .fdiv x => x.fieldsOkF Ty.isFS true true
  | .fscl x => x.fieldsOk Ty.isFS true true
  | .fsqrt x => x.fieldsOk Ty.isFS true false
  | .frcp x | .frsq x => x.fieldsOk (fun t => t.isFS && t != .bf16) false false
  | .fex2 x | .flg2 x | .fsin x | .fcos x =>
      x.fieldsOk (fun t => t == .f16 || t == .f32) false false
  | .frnd x => x.fieldsOk Ty.isFT true false
  | .cvt x => x.fieldsOk && modOk true true false x.mod
  | .fdot mix x => x.fieldsOk (fun t => t.isF2 || t.isF4) true true && !(mix && x.ty.isF2)
  | .qswp _ x => x.fieldsOk Ty.isB false false
  | .shfl _ x => x.ty.isB && modOk false false x.b.isImm x.mod
  | .vote o x => x.fieldsOk (fun t => t == .b32 || (t == .none && o != .eq)) false false
  | .kop o x => modOk false false false x.mod && (!(o == .not || o == .mov) || x.b.unused)
  | .kcnt total x => modOk false false false x.mod && (total || !x.d.isS)
  | .kfst _ x => modOk false false false x.mod
  | .scan o _ x | .wred o x => scanOk o x
  | .reord _ x => x.fieldsOk (fun t => t == .n32 || t == .i32) false false && x.c.unused
  | .kset o x => modOk false false false x.mod && (!(o == .one || o == .clr) || x.a.unused)
  | .ld x => x.ty.isMem && modOk false false (x.off != 0) x.mod
  | .st x => x.ty.isMem && x.sp != .bcast && modOk false false (x.off != 0) x.mod
  | .stSy x => x.ty.isMem && (x.sp == .crew || x.sp == .cluster)
      && modOk false false (x.off != 0) x.mod
  | .ldx x => x.ty.isExpand && x.sp != .bcast && 1 ≤ x.n.toNat && x.n.toNat ≤ 64 && x.cnt.unused
  | .stc x => x.ty.isExpand && x.sp != .bcast && 1 ≤ x.n.toNat && x.n.toNat ≤ 64
  | .swp o x => o.takes x.ty && (o != .copy || x.b.unused)
  | .itx o x => o.takes x.ty && x.n == 0 && (o != .copy || x.b.unused)
  | .itld x | .itst x => x.sp != .bcast
  | .atom o x => o.atomTakes x.ty && x.sp != .bcast && ((o == .cas || o == .cas128) || x.c.unused)
  | .red o x => o.redTakes x.ty && x.sp != .bcast
      && (match x.ord with | .rlx | .rel _ => true | _ => false)
      && (!(o == .add && !x.ty.isW4) || x.sp == .glob)
  | .redx o x => o.redTakes x.ty && (x.sp == .crew || x.sp == .cluster) && x.ord == .rlx && x.d.unused
  | .bar _ .wait (.reg _ b) => b.unused
  | .bar _ .wait (.imm _ c) => c == 0
  | .qbind _ k _ a => k == .spad || a.unused
  | .tld x | .tst x => lenOk x.len
  | .tzro x => lenOk x.len && x.a.unused
  | .trow _ _ _ _ n => 1 ≤ n.toNat && n.toNat ≤ 64
  | .wbinv x => match x.range with
      | none => true
      | some (_, n) => lenOk n
  | .mdrn x => x.ty.isDrain
  | .vmm x => x.ty.perReg != 0 && 1 ≤ x.k.toNat && x.k.toNat ≤ 64 && 1 ≤ x.n.toNat
      && x.n.toNat ≤ 64 && x.k.toNat % x.ty.perReg == 0
  | .smpl _ x => (x.ty == .f32 && x.n.toNat < 8) || (x.ty == .f16x2 && x.n.toNat < 4)
  | .smpg _ x => x.ty == .f32 && x.n == 0
  | .smpq _ lod _ _ _ n => lod || n == 0
  | .latf _ x => (x.ty == .f32 || x.ty == .f16x2) && x.ncrd == 0
  | _ => true

/-! ## Operand checks -/

def VBin.operandsOk (x : VBin) : Bool :=
  x.d.vz x.ty.wide && x.a.vsz x.ty.wide && x.b.ok (Opd.vsz x.ty.wide)

/-- A comparison: D is a mask register or zero (R133, R138). -/
def VBin.operandsOkK (x : VBin) : Bool :=
  (x.d.isKd || x.d.isZero) && x.a.vsz x.ty.wide && x.b.ok (Opd.vsz x.ty.wide)

def VTer.operandsOk (x : VTer) : Bool :=
  x.d.vz x.ty.wide && x.a.vsz x.ty.wide && x.b.ok (Opd.vsz x.ty.wide) && x.c.vsz x.ty.wide

def VTri.operandsOk (x : VTri) : Bool :=
  x.d.vz x.ty.wide && x.a.vsz x.ty.wide && x.b.vsz x.ty.wide && x.c.vsz x.ty.wide

def VUn.operandsOk (x : VUn) : Bool := x.d.vz x.ty.wide && x.a.vsz x.ty.wide

def VCarry.operandsOk (x : VCarry) : Bool :=
  x.d.vz x.ty.wide && x.a.vsz x.ty.wide && x.b.vsz x.ty.wide && (x.c.isK || x.c.isZero)

def UBin.operandsOk (x : UBin) : Bool := x.d.isS && x.a.sz && x.b.ok Opd.sz

/-- Address operands (R157). -/
def addrOk (sp : Space) (a : Opd) : Bool :=
  match sp with
  | .glob => a.vsz true
  | .crew | .cluster => a.vsz false
  | .bcast => a.sz

/-- 128-bit sources of rngset and rngadv (R232). -/
def src128Ok : Opd → Bool
  | .v _ => true
  | .s n => n.val != 63 && n.val != 511
  | _ => false

def Smpl.operandsOk (x : Smpl) : Bool :=
  x.a.isV && x.b.isS && (match x.lod.reg? with | none => true | some c => c.vs)

/-- The checks that fault ILLEGAL_OPERAND (R59, R18, R21, R25 and the operand columns). -/
def Instr.operandsOk : Instr → Bool
  | .br _ (.nz a) _ | .br _ (.z a) _ => a.isS
  | .bri _ a | .ret _ a => a.vs
  | .call _ d _ => d.vs || d.isZero
  | .calli _ d a => (d.vs || d.isZero) && a.vs
  | .loop _ (.reg a) _ => a.vs
  | .park _ c => c.ok Opd.isS
  | .sysc x => x.d.isQ && (x.narg == 0 || x.a.isV) && x.b.sz
  | .syscWait x => x.d.isV && (x.narg == 0 || x.a.isV) && x.b.sz
  | .rdsr _ d r => d.vs && d.aligned (if r.wide then 2 else 1)
  | .wrsr _ r a => a.vs && a.aligned (if r.wide then 2 else 1) && (r.perThread || a.isS)
  | .join _ a => a.isK
  | .tenq _ a => a.vs && a.aligned 2
  | .sadd x | .ssub x | .smul x | .smulh x | .sdiv x | .srem x | .sand x | .sor x | .sxor x
  | .sshl x | .sshr x | .ssra x | .smin x | .smax x => x.operandsOk
  | .smov _ d a => (d.isS || d.isKd) && (a.sz || a.isK)
  | .sli _ _ d _ => d.isS
  | .scmp _ x => (x.d.isS || x.d.isKd) && x.a.sz && x.b.ok Opd.sz
  | .ssel _ d a b c => d.isS && a.sz && b.sz && c.sz
  | .sbfe _ _ d a _ _ | .spop _ _ _ d a => d.isS && a.sz
  | .sld x => x.r.isS && x.a.sz
  | .sst x => x.r.sz && x.a.sz
  | .add x | .sub x | .mul x | .mulh x | .div x | .rem x | .and x | .or x | .xor x | .shl x
  | .shr x | .sra x | .rot _ x | .min x | .max x | .bfe x => x.operandsOk
  | .mad x | .bfi x | .dot4 _ x | .fma _ _ x => x.operandsOk
  | .addc x | .subb x => x.operandsOk
  | .lop3 _ x | .fdot _ x => x.operandsOk
  | .abs x | .brev x | .fsqrt x | .frcp x | .frsq x | .fex2 x | .flg2 x | .fsin x | .fcos x
  | .frnd x | .qswp _ x | .scan _ _ x => x.operandsOk
  | .popc x | .clz x | .ctz x => x.d.vz false && x.a.vsz x.ty.wide
  | .sel x => x.d.vz x.ty.wide && x.a.vsz x.ty.wide && x.b.ok (Opd.vsz x.ty.wide)
      && (x.c.vs || x.c.isK)
  | .cmp _ x | .fcmp _ x => x.operandsOkK
  | .mov x => (x.d.vz x.ty.wide || x.d.isQ) && x.a.ok (fun o => o.vsz x.ty.wide || o.isQ)
  | .fadd x | .fsub x | .fmul x | .fmin _ x | .fmax _ x | .fdiv x => x.operandsOk
  | .fclass _ x => (x.d.isKd || x.d.isZero) && x.a.vsz x.ty.wide
  | .fscl x => x.d.vz x.ty.wide && x.a.vsz x.ty.wide && x.b.ok (Opd.vsz false)
  | .cvt x => x.d.vz x.dty.wide && x.a.vsz x.sty.wide && (match x.form with
      | .pair b | .half _ b => b.vsz x.sty.wide
      | _ => true)
  | .shfl _ x => x.d.vz x.ty.wide && x.a.vsz x.ty.wide && x.b.ok (Opd.vsz false)
  | .vote o x => (if x.ty == .none then x.a.isK else x.a.isV) && (match o with
      | .ballot => x.d.isS || x.d.vz true
      | _ => x.d.vs || x.d.isKd || x.d.isZero)
  | .kop o x => (x.d.isKd || x.d.sz) && (x.a.isK || x.a.isS)
      && (o == .not || o == .mov || x.b.isK || x.b.isS)
  | .kcnt _ x | .kfst _ x => x.d.vsz false && (x.a.isK || x.a.isS)
  | .wred _ x => (x.d.vz x.ty.wide || x.d.isS) && x.a.vsz x.ty.wide
  | .reord _ x => x.d.vz false && x.a.isV && x.b.isV
  | .kset o x => (x.d.isKd || x.d.isZero) && (match o with
      | .nz => x.a.vs
      | .lane => x.a.isS
      | .one | .clr => true)
  | .ld x => x.r.vz x.ty.wide && addrOk x.sp x.a
  | .st x => x.r.isV && x.r.aligned x.ty.regs && addrOk x.sp x.a
  | .stSy x => x.r.isV && x.r.aligned x.ty.regs && addrOk x.sp x.a && x.c.isS
  | .ldx x => x.r.isV && x.r.aligned x.ty.regs && x.a.sz && x.c.isV
  | .stc x => x.r.isV && x.r.aligned x.ty.regs && x.a.sz && x.c.isV && x.cnt.sz
  | .swp o x => x.d.sz && x.a.sz && (o == .copy || x.b.sz)
  | .itx o x => x.d.isJ && x.a.isJ && (o == .copy || x.b.isJ || x.b.isZero)
  | .itld x | .itst x => x.r.isJ && addrOk x.sp x.a
  | .atom o x => addrOk x.sp x.a &&
      (if o == .cas128 then
        (x.d.isV || x.d.isZero) && x.d.aligned 4 && (x.b.quad || x.b.isZero) && x.c.quad
       else x.d.vz x.ty.wide && x.b.vsz x.ty.wide
          && (o != .cas || (x.c.vs && x.c.aligned x.ty.regs)))
  | .red _ x => addrOk x.sp x.a && x.b.vsz x.ty.wide
  | .redx _ x => addrOk x.sp x.a && x.b.vsz x.ty.wide && x.c.isS
  | .pref _ _ a _ => a.vsz true
  | .sealRegion _ a b | .unsealRegion _ a b => a.isS && b.isS
  | .bar _ .wait (.reg a _) => a.isS
  | .bar _ _ (.reg a b) => a.isS && b.isS
  | .cadd x | .cwait x => x.a.isS && x.b.ok Opd.isS
  | .syarm x | .sywait x | .chwait x => x.a.isS && x.b.ok Opd.isS
  | .chtst d x => (d.isKd || d.isS) && x.a.isS && x.b.ok Opd.isS
  | .qbind _ k d a => d.isQ && (k != .spad || a.isS)
  | .qfree _ d => d.isQ
  | .qpoll _ _ d a => d.vs && a.isQ
  | .mfmt _ (.reg a) => a.isS
  | .mma x | .mmac x => x.d.isS && x.a.isS && x.b.isS
  | .tld x | .tst x => x.d.isS && x.a.isS
  | .tzro x => x.d.isS
  | .trow _ _ t r _ => t.isS && r.isV
  | .wbld x => x.d.isS && x.a.isS
  | .wbinv x => match x.range with
      | none => true
      | some (a, _) => a.isS
  | .mdrn x => x.d.isS && x.a.isS && x.b.sz
  | .vmm x => x.d.isV && x.a.isV && x.b.isV
  | .kmma _ _ d a b => d.isV && a.isV && b.isS
  | .smpl _ x => (x.d.isV || x.d.isQ) && x.operandsOk
  | .smpg _ x | .latf _ x => x.d.isV && x.operandsOk
  | .smpq _ lod d a b _ => d.isV && b.isS && (if lod then a.isV else a.vsz false)
  | .wcpin _ _ a => a.isS
  | .wcinv _ (some a) => a.isS
  | .trace _ _ _ a b _ => a.isV && b.isS
  | .hitld _ f d => d.isV && (f != .id || d.aligned 2)
  | .vbld _ f d a b _ => d.isV && (f != .id || d.aligned 2) && a.isV && b.isS
  | .rng _ _ d _ | .rngget _ _ d => d.isV
  | .rngset _ o a => if o == .seed then a.vs && a.aligned 2 else src128Ok a
  | .rngadv _ (.reg a) => a.isZero || src128Ok a
  | _ => true

/-- An instruction its word can hold: no ILLEGAL_FIELD and no ILLEGAL_OPERAND. -/
def Instr.WellFormed (i : Instr) : Bool := i.fieldsOk && i.operandsOk

end Sys2Proof
end

