-- ==== Sys2Proof/Decode.lean ====
section
/-! DEFINITION. Reading and writing instruction words (spec/02 R53 to R61, R68 and the encoding
tables of spec/04 to spec/08), the uses an instruction makes of its registers, and the decoding of
fetch lines. Events have no word: notes/assumptions/6. -/

namespace Sys2Proof

/-! ## The instruction word (R53) -/

/-- The fields of R53. -/
structure Fields where
  op : BitVec 8
  sw : Bool
  xm : Bool
  g : BitVec 4
  gn : Bool
  rsv : Bool
  d : BitVec 10
  a : BitVec 10
  b : BitVec 10
  fn : BitVec 6
  ty : BitVec 6
  ax : BitVec 6
  tail : BitVec 32
  deriving DecidableEq, Repr

/-- The fields of a word. -/
def Fields.unpack (w : InstrWord) : Fields :=
  { op := w.extractLsb' 0 8, sw := w.getLsbD 8, xm := w.getLsbD 9, g := w.extractLsb' 10 4,
    gn := w.getLsbD 14, rsv := w.getLsbD 15, d := w.extractLsb' 16 10, a := w.extractLsb' 26 10,
    b := w.extractLsb' 36 10, fn := w.extractLsb' 46 6, ty := w.extractLsb' 52 6,
    ax := w.extractLsb' 58 6, tail := w.extractLsb' 64 32 }

/-- The word of the fields. -/
def Fields.pack (f : Fields) : InstrWord :=
  f.tail ++ f.ax ++ f.ty ++ f.fn ++ f.b ++ f.a ++ f.d ++ BitVec.ofBool f.rsv ++ BitVec.ofBool f.gn
    ++ f.g ++ BitVec.ofBool f.xm ++ BitVec.ofBool f.sw ++ f.op

/-! ## Codes -/

/-- Special registers by code (R24), none where reserved. -/
def SReg.ofCode : Nat → Option SReg
  | 0x340 => some .lane | 0x341 => some .tid | 0x342 => some .wave | 0x343 => some .crew
  | 0x344 => some .task | 0x345 => some .core | 0x346 => some .cluster | 0x347 => some .die
  | 0x348 => some .wavew | 0x349 => some .pix | 0x34A => some .fflags | 0x34B => some .mode
  | 0x34C => some .mfmt | 0x34D => some .tick | 0x34E => some .helper
  | 0x350 => some .rngk | 0x351 => some .rngkh | 0x352 => some .rngc | 0x353 => some .rngch
  | 0x358 => some (.loopN 0) | 0x359 => some (.loopN 1) | 0x35A => some (.loopN 2)
  | 0x35B => some (.loopN 3)
  | 0x35C => some (.lendN 0) | 0x35D => some (.lendN 1) | 0x35E => some (.lendN 2)
  | 0x35F => some (.lendN 3)
  | 0x370 => some .ctx | 0x371 => some .priv | 0x372 => some .vbase
  | _ => none

/-- Codes of special registers (R24). -/
def SReg.code : SReg → Nat
  | .lane => 0x340 | .tid => 0x341 | .wave => 0x342 | .crew => 0x343 | .task => 0x344
  | .core => 0x345 | .cluster => 0x346 | .die => 0x347 | .wavew => 0x348 | .pix => 0x349
  | .fflags => 0x34A | .mode => 0x34B | .mfmt => 0x34C | .tick => 0x34D | .helper => 0x34E
  | .rngk => 0x350 | .rngkh => 0x351 | .rngc => 0x352 | .rngch => 0x353
  | .loopN n => 0x358 + n | .lendN n => 0x35C + n
  | .ctx => 0x370 | .priv => 0x371 | .vbase => 0x372

/-- Operands by code (R59), none where reserved. -/
def Opd.ofCode? (c : Nat) : Option Opd :=
  if c < 0x100 then some (.v (Fin.ofNat 256 c))
  else if c < 0x300 then some (.s (Fin.ofNat 512 (c - 0x100)))
  else if c < 0x310 then some (.k (Fin.ofNat 16 (c - 0x300)))
  else if c < 0x320 then some (.q (Fin.ofNat 16 (c - 0x310)))
  else if c < 0x328 then some (.j (Fin.ofNat 8 (c - 0x320)))
  else if c = 0x3FF then some .zero
  else (SReg.ofCode c).map .sr

/-- Codes of operands (R59). -/
def Opd.code : Opd → Nat
  | .v n => n
  | .s n => 0x100 + n
  | .k n => 0x300 + n
  | .q n => 0x310 + n
  | .j n => 0x320 + n
  | .sr r => r.code
  | .zero => 0x3FF

/-- The operand of a code; a reserved code is refused by `codesOk` and reads as a special register,
which no operand column lists. -/
def opd (c : BitVec 10) : Opd := (Opd.ofCode? c.toNat).getD (.sr .lane)

def Opd.bits (o : Opd) : BitVec 10 := BitVec.ofNat 10 o.code

/-- Element types by code (R61). -/
def Ty.ofCode? : Nat → Option Ty
  | 0x00 => some .none | 0x01 => some .i8 | 0x02 => some .i16 | 0x03 => some .i32
  | 0x04 => some .i64 | 0x05 => some .n8 | 0x06 => some .n16 | 0x07 => some .n32
  | 0x08 => some .n64 | 0x09 => some .b32 | 0x0A => some .b64
  | 0x10 => some .f16 | 0x11 => some .bf16 | 0x12 => some .f32 | 0x13 => some .f64
  | 0x14 => some .e5m2 | 0x15 => some .e4m3 | 0x16 => some .e2m1 | 0x17 => some .e8m0
  | 0x18 => some .mx8e4 | 0x19 => some .mx8e5 | 0x1A => some .mx4
  | 0x1B => some .f16x2 | 0x1C => some .bf16x2 | 0x1D => some .e4m3x4 | 0x1E => some .e5m2x4
  | 0x1F => some .i8x4 | 0x20 => some .n8x4
  | _ => Option.none

/-- Codes of element types (R61). -/
def Ty.code : Ty → Nat
  | .none => 0x00 | .i8 => 0x01 | .i16 => 0x02 | .i32 => 0x03 | .i64 => 0x04 | .n8 => 0x05
  | .n16 => 0x06 | .n32 => 0x07 | .n64 => 0x08 | .b32 => 0x09 | .b64 => 0x0A
  | .f16 => 0x10 | .bf16 => 0x11 | .f32 => 0x12 | .f64 => 0x13 | .e5m2 => 0x14 | .e4m3 => 0x15
  | .e2m1 => 0x16 | .e8m0 => 0x17 | .mx8e4 => 0x18 | .mx8e5 => 0x19 | .mx4 => 0x1A
  | .f16x2 => 0x1B | .bf16x2 => 0x1C | .e4m3x4 => 0x1D | .e5m2x4 => 0x1E | .i8x4 => 0x1F
  | .n8x4 => 0x20

def tyOf (c : BitVec 6) : Ty := (Ty.ofCode? c.toNat).getD .none

def Ty.bits6 (t : Ty) : BitVec 6 := BitVec.ofNat 6 t.code

/-- Rounding selections of the modifier word and of mdrn (R55, R196); 7 is reserved. -/
def Rm.ofCode : Nat → Option Rm
  | 0 => some .dyn | 1 => some .rne | 2 => some .rtz | 3 => some .rdn | 4 => some .rup
  | 5 => some .rna | 6 => some .rsr | _ => none

def Rm.code : Rm → Nat
  | .dyn => 0 | .rne => 1 | .rtz => 2 | .rdn => 3 | .rup => 4 | .rna => 5 | .rsr => 6

def Scope.ofCode : Nat → Option Scope
  | 0 => some .wave | 1 => some .crew | 2 => some .core | 3 => some .clu | 4 => some .die
  | 5 => some .dev | 6 => some .sys | _ => none

def Scope.code : Scope → Nat
  | .wave => 0 | .crew => 1 | .core => 2 | .clu => 3 | .die => 4 | .dev => 5 | .sys => 6

def Space.ofCode : Nat → Option Space
  | 0 => some .glob | 1 => some .crew | 2 => some .cluster | 3 => some .bcast | _ => none

def Space.code : Space → Nat
  | .glob => 0 | .crew => 1 | .cluster => 2 | .bcast => 3

def CmpOp.ofCode : Nat → Option CmpOp
  | 0 => some .eq | 1 => some .ne | 2 => some .lt | 3 => some .le | 4 => some .gt | 5 => some .ge
  | _ => none

def CmpOp.code : CmpOp → Nat
  | .eq => 0 | .ne => 1 | .lt => 2 | .le => 3 | .gt => 4 | .ge => 5

def FcmpOp.ofCode : Nat → Option FcmpOp
  | 0 => some .eq | 1 => some .ne | 2 => some .lt | 3 => some .le | 4 => some .gt | 5 => some .ge
  | 6 => some .un | 7 => some .ord | _ => none

def FcmpOp.code : FcmpOp → Nat
  | .eq => 0 | .ne => 1 | .lt => 2 | .le => 3 | .gt => 4 | .ge => 5 | .un => 6 | .ord => 7

def ScanOp.ofCode : Nat → Option ScanOp
  | 0 => some .add | 1 => some .min | 2 => some .max | 3 => some .and | 4 => some .or
  | 5 => some .xor | _ => none

def ScanOp.code : ScanOp → Nat
  | .add => 0 | .min => 1 | .max => 2 | .and => 3 | .or => 4 | .xor => 5

def SwpOp.ofCode : Nat → Option SwpOp
  | 0 => some .copy | 1 => some .add | 2 => some .sub | 3 => some .mul | 4 => some .min
  | 5 => some .max | 6 => some .fma | 7 => some .and | 8 => some .or | 9 => some .xor | _ => none

def SwpOp.code : SwpOp → Nat
  | .copy => 0 | .add => 1 | .sub => 2 | .mul => 3 | .min => 4 | .max => 5 | .fma => 6
  | .and => 7 | .or => 8 | .xor => 9

def AtomOp.ofCode : Nat → Option AtomOp
  | 0 => some .add | 1 => some .min | 2 => some .max | 3 => some .and | 4 => some .or
  | 5 => some .xor | 6 => some .exch | 7 => some .cas | 8 => some .cas128 | 9 => some .inc
  | 10 => some .dec | _ => none

def AtomOp.code : AtomOp → Nat
  | .add => 0 | .min => 1 | .max => 2 | .and => 3 | .or => 4 | .xor => 5 | .exch => 6 | .cas => 7
  | .cas128 => 8 | .inc => 9 | .dec => 10

def KopOp.ofCode : Nat → Option KopOp
  | 0 => some .and | 1 => some .or | 2 => some .xor | 3 => some .andn | 4 => some .not
  | 5 => some .mov | _ => none

def KopOp.code : KopOp → Nat
  | .and => 0 | .or => 1 | .xor => 2 | .andn => 3 | .not => 4 | .mov => 5

def VoteOp.ofCode : Nat → Option VoteOp
  | 0 => some .any | 1 => some .all | 2 => some .ballot | 3 => some .eq | _ => none

def VoteOp.code : VoteOp → Nat
  | .any => 0 | .all => 1 | .ballot => 2 | .eq => 3

def KsetOp.ofCode : Nat → Option KsetOp
  | 0 => some .nz | 1 => some .one | 2 => some .clr | 3 => some .lane | _ => none

def KsetOp.code : KsetOp → Nat
  | .nz => 0 | .one => 1 | .clr => 2 | .lane => 3

def ShflOp.ofCode : Nat → Option ShflOp
  | 0 => some .idx | 1 => some .up | 2 => some .down | 3 => some .xor | _ => none

def ShflOp.code : ShflOp → Nat
  | .idx => 0 | .up => 1 | .down => 2 | .xor => 3

def QKind.ofCode : Nat → Option QKind
  | 1 => some .spad | 2 => some .mec | 3 => some .spl | 4 => some .syc | 5 => some .xin | _ => none

def QKind.code : QKind → Nat
  | .spad => 1 | .mec => 2 | .spl => 3 | .syc => 4 | .xin => 5

def FenceKind.ofCode : Nat → Option FenceKind
  | 0 => some .ar | 1 => some .acq | 2 => some .rel | 3 => some .sc | _ => none

def FenceKind.code : FenceKind → Nat
  | .ar => 0 | .acq => 1 | .rel => 2 | .sc => 3

def BarKind.ofCode : Nat → Option BarKind
  | 0 => some .arrive | 1 => some .wait | 2 => some .sync | _ => none

def BarKind.code : BarKind → Nat
  | .arrive => 0 | .wait => 1 | .sync => 2

def SliOp.ofCode : Nat → Option SliOp
  | 0 => some .sx | 1 => some .zx | 2 => some .hi | _ => none

def SliOp.code : SliOp → Nat
  | .sx => 0 | .zx => 1 | .hi => 2

def SpopOp.ofCode : Nat → Option SpopOp
  | 0 => some .popc | 1 => some .clz | 2 => some .ctz | _ => none

def SpopOp.code : SpopOp → Nat
  | .popc => 0 | .clz => 1 | .ctz => 2

def HitField.ofCode : Nat → Option HitField
  | 0 => some .kind | 1 => some .t | 2 => some .bary | 3 => some .id | 4 => some .geo | _ => none

def HitField.code : HitField → Nat
  | .kind => 0 | .t => 1 | .bary => 2 | .id => 3 | .geo => 4

def VbField.ofCode : Nat → Option VbField
  | 0 => some .id | 1 => some .dep | 2 => some .qm | _ => none

def VbField.code : VbField → Nat
  | .id => 0 | .dep => 1 | .qm => 2

def RngSet.ofCode : Nat → Option RngSet
  | 0 => some .key | 1 => some .ctr | 2 => some .seed | _ => none

def RngSet.code : RngSet → Nat
  | .key => 0 | .ctr => 1 | .seed => 2

def Filt.ofCode : Nat → Option Filt
  | 0 => some .lin | 1 => some .pt | 2 => some .sto | _ => none

def Filt.code : Filt → Nat
  | .lin => 0 | .pt => 1 | .sto => 2

/-! ## Reading fields -/

namespace Fields

def head (f : Fields) : Head := { sw := f.sw, g := f.g.toFin, gn := f.gn }

/-- Operand code C: bits [73:64], or [81:72] of a modifier word (R54, R55). -/
def c (f : Fields) : BitVec 10 := if f.xm then f.tail.extractLsb' 8 10 else f.tail.extractLsb' 0 10

/-- The 22-bit immediate (R54), zero under a modifier word. -/
def imm22 (f : Fields) : BitVec 22 := if f.xm then 0 else f.tail.extractLsb' 10 22

/-- The 32-bit immediate (R54), zero under a modifier word. -/
def imm32 (f : Fields) : BitVec 32 := if f.xm then 0 else f.tail

/-- AX[4], the immediate bit of R128. -/
def ibit (f : Fields) : Bool := f.ax.getLsbD 4

def mod (f : Fields) : Option Modifier :=
  if f.xm then
    some { msk := (f.tail.extractLsb' 0 4).toFin, mz := f.tail.getLsbD 4,
           rm := (Rm.ofCode (f.tail.extractLsb' 5 3).toNat).getD .dyn, sat := f.tail.getLsbD 18 }
  else none

/-- Reserved bits of the modifier word and its RM (R55, R56). -/
def modRaw (f : Fields) : Bool :=
  !f.xm || (f.tail.extractLsb' 19 13 == 0 && (f.tail.extractLsb' 5 3).toNat != 7)

def src32 (f : Fields) : Src32 := if f.ibit then .imm f.imm32 else .reg (opd f.b)

def src22 (f : Fields) : Src22 := if f.ibit then .imm f.imm22 else .reg (opd f.b)

/-- TAIL where the form has no third source: all used by an immediate, else zero but for the
modifier word, whose C is then zero. -/
def tail2 (f : Fields) (imm : Bool) : Bool :=
  if f.xm then f.c == 0 && f.modRaw else imm || f.tail == 0

/-- TAIL where the form has a third source. -/
def tail3 (f : Fields) (imm : Bool) : Bool :=
  if f.xm then f.modRaw else imm || f.tail.extractLsb' 10 22 == 0

/-- The operand fields a form does not use hold 0x000 (R58). -/
def zeroD (f : Fields) : Bool := f.d == 0
def zeroA (f : Fields) : Bool := f.a == 0
def zeroB (f : Fields) : Bool := f.b == 0

/-- An immediate replaces B (R128). -/
def immB (f : Fields) (i : Bool) : Bool := !i || f.zeroB

end Fields

/-- What a word's fields say: the instruction, whether every field the form does not use is zero and
FN, TY, AX are listed (R58), and whether TAIL holds an operand code C. -/
structure Parsed where
  instr : Instr
  raw : Bool
  hasC : Bool := false

/-! ### Shapes -/

def tyRaw (f : Fields) : Bool := (Ty.ofCode? f.ty.toNat).isSome

def vbin (f : Fields) : VBin :=
  { h := f.head, mod := f.mod, ty := tyOf f.ty, d := opd f.d, a := opd f.a, b := f.src32 }

def vbinRaw (f : Fields) : Bool :=
  tyRaw f && (f.ax == 0 || f.ax == 0x10) && f.immB f.ibit && f.tail2 f.ibit

def vter (f : Fields) : VTer :=
  { h := f.head, mod := f.mod, ty := tyOf f.ty, d := opd f.d, a := opd f.a, b := f.src22,
    c := opd f.c }

def vterRaw (f : Fields) : Bool :=
  tyRaw f && (f.ax == 0 || f.ax == 0x10) && f.immB f.ibit && f.tail3 f.ibit

def vtri (f : Fields) : VTri :=
  { h := f.head, mod := f.mod, ty := tyOf f.ty, d := opd f.d, a := opd f.a, b := opd f.b,
    c := opd f.c }

def vun (f : Fields) : VUn :=
  { h := f.head, mod := f.mod, ty := tyOf f.ty, d := opd f.d, a := opd f.a }

def vunRaw (f : Fields) : Bool := tyRaw f && f.zeroB && f.tail2 false

def vcarry (f : Fields) : VCarry :=
  { h := f.head, mod := f.mod, ty := tyOf f.ty, d := opd f.d, kout := (f.ax.extractLsb' 0 4).toFin,
    a := opd f.a, b := opd f.b, c := opd f.c }

def kbin (f : Fields) : KBin :=
  { h := f.head, mod := f.mod, d := opd f.d, a := opd f.a, b := opd f.b }

def kun (f : Fields) : KUn := { h := f.head, mod := f.mod, d := opd f.d, a := opd f.a }

/-- sadd to ssra, smin, smax and scmp: AX[0] is the immediate bit (R123). -/
def ubin (f : Fields) : UBin :=
  { h := f.head, ty := tyOf f.ty, d := opd f.d, a := opd f.a,
    b := if f.ax.getLsbD 0 then .imm f.tail else .reg (opd f.b) }

def ubinRaw (f : Fields) : Bool :=
  tyRaw f && f.ax.extractLsb' 1 5 == 0 && f.immB (f.ax.getLsbD 0)
    && (f.ax.getLsbD 0 || f.tail == 0)

/-- Space in AX[2:0] and scope in AX[5:3]. -/
def spaceOf (f : Fields) : Space := (Space.ofCode (f.ax.extractLsb' 0 3).toNat).getD .glob
def spaceRaw (f : Fields) : Bool := (Space.ofCode (f.ax.extractLsb' 0 3).toNat).isSome
def scopeOf (f : Fields) : Scope := (Scope.ofCode (f.ax.extractLsb' 3 3).toNat).getD .wave
def scopeRaw (f : Fields) : Bool := (Scope.ofCode (f.ax.extractLsb' 3 3).toNat).isSome
def noScope (f : Fields) : Bool := f.ax.extractLsb' 3 3 == 0

/-- ORD of ld and st: FN[1:0] (R163). -/
def memOrd (f : Fields) : Option Scope := if f.fn.getLsbD 0 then some (scopeOf f) else none
def memOrdRaw (f : Fields) : Bool :=
  !f.fn.getLsbD 1 && (if f.fn.getLsbD 0 then scopeRaw f else noScope f)

def memOf (f : Fields) (r : Opd) : Mem :=
  { h := f.head, mod := f.mod, ty := tyOf f.ty, sp := spaceOf f, ord := memOrd f,
    nt := f.fn.getLsbD 2, r := r, a := opd f.a, off := f.imm32 }

def expandOf (f : Fields) (r cnt : Opd) : Expand :=
  { h := f.head, ty := tyOf f.ty, sp := spaceOf f, r := r, a := opd f.a, c := opd f.c, cnt := cnt,
    n := f.tail.extractLsb' 10 7 }

def expandRaw (f : Fields) : Bool :=
  tyRaw f && f.fn == 0 && spaceRaw f && noScope f && f.tail.extractLsb' 17 15 == 0

/-- Ordering of atom, red and redx: FN[5:4] (R176). -/
def ordOf (f : Fields) : Ord :=
  match (f.fn.extractLsb' 4 2).toNat with
  | 1 => .acq (scopeOf f)
  | 2 => .rel (scopeOf f)
  | 3 => .ar (scopeOf f)
  | _ => .rlx
def ordRaw (f : Fields) : Bool := if f.fn.extractLsb' 4 2 == 0 then noScope f else scopeRaw f

def atomOpOf (f : Fields) : AtomOp := (AtomOp.ofCode (f.fn.extractLsb' 0 4).toNat).getD .add
def atomOpRaw (f : Fields) : Bool := (AtomOp.ofCode (f.fn.extractLsb' 0 4).toNat).isSome

def atomOf (f : Fields) : Atom :=
  { h := f.head, ty := tyOf f.ty, sp := spaceOf f, ord := ordOf f, d := opd f.d, a := opd f.a,
    b := opd f.b, c := opd f.c, off := f.tail.extractLsb' 10 22 }

def atomRaw (f : Fields) : Bool := tyRaw f && spaceRaw f && atomOpRaw f && ordRaw f

/-- Synchronisation operand B: FN[5] is the immediate bit (R183). -/
def syncB (f : Fields) : Src32 := if f.fn.getLsbD 5 then .imm f.tail else .reg (opd f.b)
def syncBRaw (f : Fields) : Bool :=
  f.immB (f.fn.getLsbD 5) && (f.fn.getLsbD 5 || f.tail == 0)

def ctrOf (f : Fields) : Ctr :=
  { h := f.head, crew := f.ax.getLsbD 0, scope := scopeOf f, a := opd f.a, b := syncB f }

def ctrRaw (f : Fields) : Bool :=
  f.zeroD && f.fn.extractLsb' 0 5 == 0 && f.ty == 0 && f.ax.extractLsb' 1 2 == 0 && scopeRaw f
    && syncBRaw f

def syncOf (f : Fields) : SyncOp :=
  { h := f.head, flag := f.fn.getLsbD 0, a := opd f.a, b := syncB f }

def syncRaw (f : Fields) : Bool :=
  f.fn.extractLsb' 1 4 == 0 && f.ty == 0 && f.ax == 0 && syncBRaw f

def mmaOf (f : Fields) : Mma :=
  { h := f.head, tok := f.ax.getLsbD 0, d := opd f.d, a := opd f.a, b := opd f.b,
    m := f.tail.extractLsb' 0 6, n := f.tail.extractLsb' 6 6, k := f.tail.extractLsb' 12 8,
    tag := f.tail.extractLsb' 20 12 }

def mmaRaw (f : Fields) : Bool := f.fn == 0 && f.ty == 0 && f.ax.extractLsb' 1 5 == 0

def tileOf (f : Fields) : TileMove :=
  { h := f.head, tok := f.ax.getLsbD 0, d := opd f.d, a := opd f.a, len := f.tail.extractLsb' 0 13,
    tag := f.tail.extractLsb' 20 12 }

def tileRaw (f : Fields) : Bool :=
  f.fn == 0 && f.ty == 0 && f.ax.extractLsb' 1 5 == 0 && f.zeroB && f.tail.extractLsb' 13 7 == 0

/-- LODS in FN[3:2] (R231). -/
def lodOf (f : Fields) : Lod :=
  match (f.fn.extractLsb' 2 2).toNat with
  | 1 => .ll (opd f.c)
  | 2 => .lb (opd f.c)
  | _ => .lz
def lodRaw (f : Fields) : Bool :=
  f.fn.extractLsb' 2 2 != 3 && (f.fn.extractLsb' 2 2 != 0 || f.c == 0)

def smplOf (f : Fields) (n : BitVec 4) (ncrd : BitVec 2) : Smpl :=
  { h := f.head, ty := tyOf f.ty, lod := lodOf f, d := opd f.d, a := opd f.a, b := opd f.b,
    n := n, ncrd := ncrd, ox := f.tail.extractLsb' 10 4, oy := f.tail.extractLsb' 14 4 }

def smplRaw (f : Fields) : Bool :=
  tyRaw f && lodRaw f && f.fn.extractLsb' 4 2 == 0 && f.tail.extractLsb' 18 14 == 0

def filtOf (f : Fields) : Filt := (Filt.ofCode (f.fn.extractLsb' 0 2).toNat).getD .lin
def filtRaw (f : Fields) : Bool := (Filt.ofCode (f.fn.extractLsb' 0 2).toNat).isSome

/-- Every field but OP, head, D, A, B is zero. -/
def plain (f : Fields) : Bool := f.fn == 0 && f.ty == 0 && f.ax == 0 && f.tail == 0

/-! ### Opcode rows (R68) -/

/-- Opcodes 0x00 to 0x0F (R100). -/
def parse0 (f : Fields) (lo : Nat) : Option Parsed :=
  let h := f.head
  let noOps := f.zeroD && f.zeroA && f.zeroB
  let z := f.fn == 0 && f.ty == 0 && f.ax == 0
  match lo with
  | 0x1 => some ⟨.nop h, noOps && plain f, false⟩
  | 0x2 =>
    let raw := f.zeroD && f.zeroB && f.ty == 0 && f.ax == 0
    match f.fn.toNat with
    | 0 => some ⟨.br h .always f.tail, raw && f.zeroA, false⟩
    | 1 => some ⟨.br h (.nz (opd f.a)) f.tail, raw, false⟩
    | 2 => some ⟨.br h (.z (opd f.a)) f.tail, raw, false⟩
    | _ => some ⟨.nop h, false, false⟩
  | 0x3 => some ⟨.bri h (opd f.a), f.zeroD && f.zeroB && plain f, false⟩
  | 0x4 => some ⟨.call h (opd f.d) f.tail, f.zeroA && f.zeroB && z, false⟩
  | 0x5 => some ⟨.calli h (opd f.d) (opd f.a), f.zeroB && plain f, false⟩
  | 0x6 => some ⟨.ret h (opd f.a), f.zeroD && f.zeroB && plain f, false⟩
  | 0x7 =>
    let raw := f.zeroD && f.zeroB && f.ty == 0
    match f.fn.toNat with
    | 0 =>
      let i := f.ax.getLsbD 0
      some ⟨.loop h (if i then .imm (f.tail.extractLsb' 20 12) else .reg (opd f.a))
              (f.tail.extractLsb' 0 20),
        raw && f.ax.extractLsb' 1 5 == 0
          && (if i then f.zeroA else f.tail.extractLsb' 20 12 == 0), false⟩
    | 1 => some ⟨.loopPop h, raw && f.zeroA && f.ax == 0 && f.tail == 0, false⟩
    | _ => some ⟨.nop h, false, false⟩
  | 0x8 => some ⟨.exit h, noOps && plain f, false⟩
  | 0x9 => some ⟨.cont h f.tail, noOps && z, false⟩
  | 0xA => some ⟨.yield h, noOps && plain f, false⟩
  | 0xB =>
    let i := f.ax.getLsbD 0
    some ⟨.park h (if i then .imm f.tail else .reg (opd f.a)),
      f.zeroD && f.zeroB && f.fn == 0 && f.ty == 0 && f.ax.extractLsb' 1 5 == 0
        && (if i then f.zeroA else f.tail == 0), false⟩
  | 0xC =>
    let x : Sysc := { h := h, d := opd f.d, a := opd f.a, b := opd f.b,
                      narg := f.tail.extractLsb' 0 4, nrep := f.tail.extractLsb' 4 2 }
    let raw := f.ty == 0 && f.ax == 0 && f.tail.extractLsb' 6 26 == 0
    match f.fn.toNat with
    | 0 => some ⟨.sysc x, raw, false⟩
    | 1 => some ⟨.syscWait x, raw, false⟩
    | _ => some ⟨.nop h, false, false⟩
  | 0xD => some ⟨.trap h f.tail, noOps && z, false⟩
  | 0xE => some ⟨.brk h f.tail, noOps && z, false⟩
  | 0xF =>
    match opd f.a with
    | .sr r => some ⟨.rdsr h (opd f.d) r, f.zeroB && plain f, false⟩
    | _ => some ⟨.bri h .zero, f.zeroB && plain f, false⟩
  | _ => none

/-- Fields of mode (R121). -/
def modeOf (f : Fields) : ModeFields :=
  { rm := if f.tail.getLsbD 6 then some (f.tail.extractLsb' 0 3) else none
    z16 := if f.tail.getLsbD 7 then some (f.tail.getLsbD 3) else none
    z32 := if f.tail.getLsbD 8 then some (f.tail.getLsbD 4) else none
    z64 := if f.tail.getLsbD 9 then some (f.tail.getLsbD 5) else none }

def modeRaw (f : Fields) : Bool :=
  f.tail.extractLsb' 10 22 == 0 && (f.tail.getLsbD 6 || f.tail.extractLsb' 0 3 == 0)
    && (f.tail.getLsbD 7 || !f.tail.getLsbD 3) && (f.tail.getLsbD 8 || !f.tail.getLsbD 4)
    && (f.tail.getLsbD 9 || !f.tail.getLsbD 5)

/-- Opcodes 0x10 to 0x1F (R100). -/
def parse1 (f : Fields) (lo : Nat) : Option Parsed :=
  let h := f.head
  match lo with
  | 0x0 =>
    match opd f.d with
    | .sr r => some ⟨.wrsr h r (opd f.a), f.zeroB && plain f, false⟩
    | _ => some ⟨.bri h .zero, f.zeroB && plain f, false⟩
  | 0x1 => some ⟨.mode h (modeOf f), f.zeroD && f.zeroA && f.zeroB && f.fn == 0 && f.ty == 0
             && f.ax == 0 && modeRaw f, false⟩
  | 0x2 => some ⟨.join h (opd f.a), f.zeroD && f.zeroB && plain f, false⟩
  | 0x3 => some ⟨.tenq h (opd f.a), f.zeroD && f.zeroB && plain f, false⟩
  | _ => none

/-- Opcodes 0x20 to 0x2F (R124). -/
def parse2 (f : Fields) (lo : Nat) : Option Parsed :=
  let h := f.head
  let u := fun (mk : UBin → Instr) => some (Parsed.mk (mk (ubin f)) (ubinRaw f && f.fn == 0) false)
  match lo with
  | 0x0 => u .sadd | 0x1 => u .ssub | 0x2 => u .smul | 0x3 => u .smulh
  | 0x4 => u .sdiv | 0x5 => u .srem | 0x6 => u .sand | 0x7 => u .sor | 0x8 => u .sxor
  | 0x9 => u .sshl | 0xA => u .sshr | 0xB => u .ssra | 0xC => u .smin | 0xD => u .smax
  | 0xE => some ⟨.smov h (opd f.d) (opd f.a),
      f.zeroB && f.fn == 0 && f.ty == 0x0A && f.ax == 0 && f.tail == 0, false⟩
  | 0xF => some ⟨.sli h ((SliOp.ofCode f.fn.toNat).getD .sx) (opd f.d) f.tail,
      (SliOp.ofCode f.fn.toNat).isSome && f.zeroA && f.zeroB && f.ty == 0x0A && f.ax == 0, false⟩
  | _ => none

/-- sld and sst (R125). -/
def umemOf (f : Fields) (r : Opd) : UMem :=
  { h := f.head, ty := tyOf f.ty, sp := spaceOf f, r := r, a := opd f.a, off := f.tail }

/-- Opcodes 0x30 to 0x3F (R124, R125). -/
def parse3 (f : Fields) (lo : Nat) : Option Parsed :=
  let h := f.head
  let mraw := tyRaw f && f.fn == 0 && spaceRaw f && noScope f
  match lo with
  | 0x0 => some ⟨.scmp ((CmpOp.ofCode f.fn.toNat).getD .eq) (ubin f),
      ubinRaw f && (CmpOp.ofCode f.fn.toNat).isSome, false⟩
  | 0x1 => some ⟨.ssel h (opd f.d) (opd f.a) (opd f.b) (opd f.c),
      f.fn == 0 && f.ty == 0x0A && f.ax == 0 && f.tail.extractLsb' 10 22 == 0, true⟩
  | 0x2 => some ⟨.sbfe h (tyOf f.ty) (opd f.d) (opd f.a) (f.tail.extractLsb' 0 6)
        (f.tail.extractLsb' 6 7),
      tyRaw f && f.zeroB && f.fn == 0 && f.ax == 0 && f.tail.extractLsb' 13 19 == 0, false⟩
  | 0x3 => some ⟨.spop h ((SpopOp.ofCode f.fn.toNat).getD .popc) (tyOf f.ty) (opd f.d) (opd f.a),
      tyRaw f && (SpopOp.ofCode f.fn.toNat).isSome && f.zeroB && f.ax == 0 && f.tail == 0, false⟩
  | 0x4 => some ⟨.sld (umemOf f (opd f.d)), mraw && f.zeroB, false⟩
  | 0x5 => some ⟨.sst (umemOf f (opd f.b)), mraw && f.zeroD, false⟩
  | _ => none

/-- Opcodes 0x40 to 0x4F (R130). -/
def parse4 (f : Fields) (lo : Nat) : Option Parsed :=
  let vb := fun (mk : VBin → Instr) => some (Parsed.mk (mk (vbin f)) (vbinRaw f && f.fn == 0) false)
  let vc := fun (mk : VCarry → Instr) => some (Parsed.mk (mk (vcarry f))
    (tyRaw f && f.fn == 0 && f.ax.extractLsb' 4 2 == 0 && f.tail3 false) true)
  match lo with
  | 0x0 => vb .add | 0x1 => vb .sub | 0x2 => vb .mul | 0x3 => vb .mulh
  | 0x4 => some ⟨.mad (vter f), vterRaw f && f.fn == 0, true⟩
  | 0x5 => vb .div | 0x6 => vb .rem
  | 0x7 => vc .addc | 0x8 => vc .subb
  | 0x9 => vb .and | 0xA => vb .or | 0xB => vb .xor
  | 0xC => some ⟨.lop3 (f.ax.extractLsb' 0 2 ++ f.fn) (vtri f),
      tyRaw f && f.ax.extractLsb' 2 4 == 0 && f.tail3 false, true⟩
  | 0xD => vb .shl | 0xE => vb .shr | 0xF => vb .sra
  | _ => none

/-- Opcodes 0x50 to 0x5F (R130). -/
def parse5 (f : Fields) (lo : Nat) : Option Parsed :=
  let vb := fun (mk : VBin → Instr) => some (Parsed.mk (mk (vbin f)) (vbinRaw f && f.fn == 0) false)
  let vu := fun (mk : VUn → Instr) =>
    some (Parsed.mk (mk (vun f)) (vunRaw f && f.fn == 0 && f.ax == 0) false)
  let vt := fun (mk : VTer → Instr) => some (Parsed.mk (mk (vter f)) (vterRaw f && f.fn == 0) true)
  let fn01 := f.fn.extractLsb' 1 5 == 0
  match lo with
  | 0x0 => some ⟨.rot (f.fn.getLsbD 0) (vbin f), vbinRaw f && fn01, false⟩
  | 0x1 => vb .min | 0x2 => vb .max
  | 0x3 => vu .abs | 0x4 => vu .popc | 0x5 => vu .clz | 0x6 => vu .ctz | 0x7 => vu .brev
  | 0x8 => vb .bfe | 0x9 => vt .bfi | 0xA => vt .sel
  | 0xB => some ⟨.cmp ((CmpOp.ofCode f.fn.toNat).getD .eq) (vbin f),
      vbinRaw f && (CmpOp.ofCode f.fn.toNat).isSome, false⟩
  | 0xC => some ⟨.mov { h := f.head, mod := f.mod, ty := tyOf f.ty, d := opd f.d,
                        a := if f.ibit then .imm f.imm32 else .reg (opd f.a) },
      tyRaw f && f.fn == 0 && (f.ax == 0 || f.ax == 0x10) && f.zeroB && (!f.ibit || f.zeroA)
        && f.tail2 f.ibit, false⟩
  | 0xD => some ⟨.dot4 (f.fn.getLsbD 0) (vter f), vterRaw f && fn01, true⟩
  | _ => none

/-- Opcodes 0x60 to 0x6F (R135). -/
def parse6 (f : Fields) (lo : Nat) : Option Parsed :=
  let vb := fun (mk : VBin → Instr) => some (Parsed.mk (mk (vbin f)) (vbinRaw f && f.fn == 0) false)
  let vu := fun (mk : VUn → Instr) =>
    some (Parsed.mk (mk (vun f)) (vunRaw f && f.fn == 0 && f.ax == 0) false)
  let fn01 := f.fn.extractLsb' 1 5 == 0
  match lo with
  | 0x0 => vb .fadd | 0x1 => vb .fsub | 0x2 => vb .fmul
  | 0x3 => some ⟨.fma (f.fn.getLsbD 1) (f.fn.getLsbD 0) (vter f),
      vterRaw f && f.fn.extractLsb' 2 4 == 0, true⟩
  | 0x4 => some ⟨.fmin (f.fn.getLsbD 0) (vbin f), vbinRaw f && fn01, false⟩
  | 0x5 => some ⟨.fmax (f.fn.getLsbD 0) (vbin f), vbinRaw f && fn01, false⟩
  | 0x6 => some ⟨.fcmp ((FcmpOp.ofCode f.fn.toNat).getD .eq) (vbin f),
      vbinRaw f && (FcmpOp.ofCode f.fn.toNat).isSome, false⟩
  | 0x7 => some ⟨.fclass (f.ax.extractLsb' 0 4 ++ f.fn) (vun f),
      vunRaw f && f.ax.extractLsb' 4 2 == 0, false⟩
  | 0x8 => vb .fdiv
  | 0x9 => vu .fsqrt | 0xA => vu .frcp | 0xB => vu .frsq | 0xC => vu .fex2 | 0xD => vu .flg2
  | 0xE => vu .fsin | 0xF => vu .fcos
  | _ => none

/-- The form of cvt its two types select (R141), with the AX and B its row uses. -/
def cvtForm (f : Fields) (d s : Ty) : CvtForm × Bool :=
  if d.isScalar && s.isScalar then (.scalar, f.zeroB && f.ax == 0)
  else if d.isF2 && s == .f32 then (.pair (opd f.b), f.ax == 0)
  else if d.isF4 then (.half (f.ax.getLsbD 0) (opd f.b), f.ax.extractLsb' 1 5 == 0)
  else if d == .f32 then
    (.unpack (f.ax.extractLsb' 0 2).toFin, f.zeroB && f.ax.extractLsb' 2 4 == 0)
  else (.repack, f.zeroB && f.ax == 0)

/-- Opcodes 0x70 to 0x7F (R135, R141, R142). -/
def parse7 (f : Fields) (lo : Nat) : Option Parsed :=
  match lo with
  | 0x0 => some ⟨.frnd (vun f), vunRaw f && f.fn == 0 && f.ax == 0, false⟩
  | 0x1 => some ⟨.fscl (vbin f), vbinRaw f && f.fn == 0, false⟩
  | 0x2 =>
    let c := cvtForm f (tyOf f.ty) (tyOf f.fn)
    some ⟨.cvt { h := f.head, mod := f.mod, dty := tyOf f.ty, sty := tyOf f.fn, d := opd f.d,
                 a := opd f.a, form := c.1 },
      tyRaw f && (Ty.ofCode? f.fn.toNat).isSome && c.2 && f.tail2 false, false⟩
  | 0x3 => some ⟨.fdot (f.fn.getLsbD 0) (vtri f),
      tyRaw f && f.fn.extractLsb' 1 5 == 0 && f.ax == 0 && f.tail3 false, true⟩
  | _ => none

/-- Partner of qswp (R145). -/
def qdirOf (f : Fields) : QDir :=
  match f.fn.toNat with
  | 0 => .h | 1 => .v | 2 => .d | _ => .b (f.ax.extractLsb' 0 2).toFin

/-- Opcodes 0x80 to 0x8F (R145 to R154). -/
def parse8 (f : Fields) (lo : Nat) : Option Parsed :=
  let kraw := f.ty == 0 && f.ax == 0 && f.tail2 false
  match lo with
  | 0x0 => some ⟨.qswp (qdirOf f) (vun f), vunRaw f && f.fn.toNat ≤ 3
      && f.ax.extractLsb' 2 4 == 0 && (f.fn == 3 || f.ax == 0), false⟩
  | 0x1 => some ⟨.shfl ((ShflOp.ofCode f.fn.toNat).getD .idx)
        { h := f.head, mod := f.mod, ty := tyOf f.ty, d := opd f.d, a := opd f.a, b := f.src32,
          kout := (f.ax.extractLsb' 0 4).toFin },
      tyRaw f && (ShflOp.ofCode f.fn.toNat).isSome && !f.ax.getLsbD 5 && f.immB f.ibit
        && f.tail2 f.ibit, false⟩
  | 0x2 => some ⟨.vote ((VoteOp.ofCode f.fn.toNat).getD .any) (vun f),
      vunRaw f && (VoteOp.ofCode f.fn.toNat).isSome && f.ax == 0, false⟩
  | 0x3 => some ⟨.kop ((KopOp.ofCode f.fn.toNat).getD .and) (kbin f),
      (KopOp.ofCode f.fn.toNat).isSome && kraw, false⟩
  | 0x4 => some ⟨.kcnt (f.fn.getLsbD 0) (kun f), f.fn.extractLsb' 1 5 == 0 && kraw && f.zeroB, false⟩
  | 0x5 => some ⟨.kfst (f.fn.getLsbD 0) (kun f), f.fn.extractLsb' 1 5 == 0 && kraw && f.zeroB, false⟩
  | 0x6 => some ⟨.scan ((ScanOp.ofCode (f.fn.extractLsb' 0 3).toNat).getD .add) (f.fn.getLsbD 3)
        (vun f),
      vunRaw f && (ScanOp.ofCode (f.fn.extractLsb' 0 3).toNat).isSome && f.fn.extractLsb' 4 2 == 0
        && f.ax == 0, false⟩
  | 0x7 => some ⟨.wred ((ScanOp.ofCode (f.fn.extractLsb' 0 3).toNat).getD .add) (vun f),
      vunRaw f && (ScanOp.ofCode (f.fn.extractLsb' 0 3).toNat).isSome && f.fn.extractLsb' 3 3 == 0
        && f.ax == 0, false⟩
  | 0x8 => some ⟨.reord (f.fn.getLsbD 0) { vtri f with c := .v 0 },
      tyRaw f && f.fn.extractLsb' 1 5 == 0 && f.ax == 0 && f.tail2 false, false⟩
  | 0x9 => some ⟨.kset ((KsetOp.ofCode f.fn.toNat).getD .nz) (kun f),
      (KsetOp.ofCode f.fn.toNat).isSome && kraw && f.zeroB, false⟩
  | _ => none

/-- Opcodes 0x90 to 0x9F (R163 to R182). -/
def parse9 (f : Fields) (lo : Nat) : Option Parsed :=
  let h := f.head
  match lo with
  | 0x0 => some ⟨.ld (memOf f (opd f.d)), tyRaw f && spaceRaw f && memOrdRaw f
      && f.fn.extractLsb' 3 3 == 0 && f.zeroB && f.tail2 true, false⟩
  | 0x1 =>
    let raw := tyRaw f && spaceRaw f && memOrdRaw f && f.fn.extractLsb' 4 2 == 0 && f.zeroD
    if f.fn.getLsbD 3 then
      some ⟨.stSy { h := h, mod := f.mod, ty := tyOf f.ty, sp := spaceOf f, ord := memOrd f,
                    nt := f.fn.getLsbD 2, r := opd f.b, a := opd f.a, c := opd f.c,
                    off := f.imm22 },
        raw && f.tail3 true, true⟩
    else some ⟨.st (memOf f (opd f.b)), raw && f.tail2 true, false⟩
  | 0x2 => some ⟨.ldx (expandOf f (opd f.d) (.v 0)), expandRaw f && f.zeroB, true⟩
  | 0x3 => some ⟨.stc (expandOf f (opd f.b) (opd f.d)), expandRaw f, true⟩
  | 0x4 => some ⟨.swp ((SwpOp.ofCode f.fn.toNat).getD .copy)
        { h := h, ty := tyOf f.ty, d := opd f.d, a := opd f.a, b := opd f.b,
          n := f.tail.extractLsb' 0 12 },
      (SwpOp.ofCode f.fn.toNat).isSome && tyRaw f && f.ax == 0 && f.tail.extractLsb' 12 20 == 0,
      false⟩
  | 0x5 => some ⟨.itx ((SwpOp.ofCode f.fn.toNat).getD .copy)
        { h := h, ty := tyOf f.ty, d := opd f.d, a := opd f.a, b := opd f.b, n := 0 },
      (SwpOp.ofCode f.fn.toNat).isSome && tyRaw f && f.ax == 0 && f.tail == 0, false⟩
  | 0x6 => some ⟨.itld { h := h, sp := spaceOf f, r := opd f.d, a := opd f.a, off := f.tail },
      f.zeroB && f.fn == 0 && f.ty == 0 && spaceRaw f && noScope f, false⟩
  | 0x7 => some ⟨.itst { h := h, sp := spaceOf f, r := opd f.b, a := opd f.a, off := f.tail },
      f.zeroD && f.fn == 0 && f.ty == 0 && spaceRaw f && noScope f, false⟩
  | 0x8 => some ⟨.atom (atomOpOf f) (atomOf f), atomRaw f, true⟩
  | 0x9 => some ⟨.red (atomOpOf f)
        { h := h, ty := tyOf f.ty, sp := spaceOf f, ord := ordOf f, a := opd f.a, b := opd f.b,
          off := f.tail }, atomRaw f && f.zeroD, false⟩
  | 0xA => some ⟨.redx (atomOpOf f) (atomOf f), atomRaw f, true⟩
  | 0xB => some ⟨.fence h ((FenceKind.ofCode f.fn.toNat).getD .ar) (scopeOf f),
      (FenceKind.ofCode f.fn.toNat).isSome && f.zeroD && f.zeroA && f.zeroB && f.ty == 0
        && f.ax.extractLsb' 0 3 == 0 && scopeRaw f && f.tail == 0, false⟩
  | 0xC => some ⟨.pref h (f.fn.getLsbD 0) (opd f.a) f.tail,
      f.zeroD && f.zeroB && f.fn.extractLsb' 1 5 == 0 && f.ty == 0 && f.ax == 0, false⟩
  | 0xD => some ⟨.sealRegion h (opd f.a) (opd f.b), f.zeroD && plain f, false⟩
  | 0xE => some ⟨.unsealRegion h (opd f.a) (opd f.b), f.zeroD && plain f, false⟩
  | _ => none

/-- Opcodes 0xA0 to 0xAF (R183). -/
def parseA (f : Fields) (lo : Nat) : Option Parsed :=
  let h := f.head
  match lo with
  | 0x0 =>
    let i := f.fn.getLsbD 5
    some ⟨.bar h ((BarKind.ofCode (f.fn.extractLsb' 0 2).toNat).getD .arrive)
        (if i then .imm (f.tail.extractLsb' 0 5) (f.tail.extractLsb' 5 11)
         else .reg (opd f.a) (opd f.b)),
      (BarKind.ofCode (f.fn.extractLsb' 0 2).toNat).isSome && f.fn.extractLsb' 2 3 == 0 && f.zeroD
        && f.ty == 0 && f.ax == 0
        && (if i then f.zeroA && f.zeroB && f.tail.extractLsb' 16 16 == 0 else f.tail == 0), false⟩
  | 0x1 => some ⟨.cadd (ctrOf f), ctrRaw f, false⟩
  | 0x2 => some ⟨.cwait (ctrOf f), ctrRaw f, false⟩
  | 0x3 => some ⟨.syarm (syncOf f), syncRaw f && f.zeroD, false⟩
  | 0x4 => some ⟨.sywait (syncOf f), syncRaw f && f.zeroD && !f.fn.getLsbD 0, false⟩
  | 0x5 => some ⟨.chwait (syncOf f), syncRaw f && f.zeroD, false⟩
  | 0x6 => some ⟨.chtst (opd f.d) (syncOf f), syncRaw f, false⟩
  | 0x7 => some ⟨.qbind h ((QKind.ofCode f.fn.toNat).getD .spad) (opd f.d) (opd f.a),
      (QKind.ofCode f.fn.toNat).isSome && f.zeroB && f.ty == 0 && f.ax == 0 && f.tail == 0, false⟩
  | 0x8 => some ⟨.qfree h (opd f.d), f.zeroA && f.zeroB && plain f, false⟩
  | 0x9 => some ⟨.qpoll h (f.fn.getLsbD 0) (opd f.d) (opd f.a),
      f.zeroB && f.fn.extractLsb' 1 5 == 0 && f.ty == 0 && f.ax == 0 && f.tail == 0, false⟩
  | _ => none

/-- Opcodes 0xB0 to 0xBF (R196). -/
def parseB (f : Fields) (lo : Nat) : Option Parsed :=
  let h := f.head
  match lo with
  | 0x0 =>
    let i := f.ax.getLsbD 0
    some ⟨.mfmt h (if i then .imm (f.tail.extractLsb' 0 22) else .reg (opd f.a)),
      f.zeroD && f.zeroB && f.fn == 0 && f.ty == 0 && f.ax.extractLsb' 1 5 == 0
        && (if i then f.zeroA && f.tail.extractLsb' 22 10 == 0 else f.tail == 0), false⟩
  | 0x1 => some ⟨.mma (mmaOf f), mmaRaw f, false⟩
  | 0x2 => some ⟨.mmac (mmaOf f), mmaRaw f, false⟩
  | 0x3 => some ⟨.tld (tileOf f), tileRaw f, false⟩
  | 0x4 => some ⟨.tst (tileOf f), tileRaw f, false⟩
  | 0x5 =>
    let frm := f.fn.getLsbD 0
    some ⟨.trow h frm (opd f.a) (if frm then opd f.d else opd f.b) (f.tail.extractLsb' 0 7),
      f.fn.extractLsb' 1 5 == 0 && f.ty == 0x09 && f.ax == 0 && f.tail.extractLsb' 7 25 == 0
        && (if frm then f.zeroB else f.zeroD), false⟩
  | 0x6 => some ⟨.tzro (tileOf f), tileRaw f, false⟩
  | 0x7 => some ⟨.wbld { h := h, tok := f.ax.getLsbD 0, crew := f.ax.getLsbD 1, d := opd f.d,
                         a := opd f.a, tag := f.tail.extractLsb' 20 12 },
      f.zeroB && f.fn == 0 && f.ty == 0 && f.ax.extractLsb' 2 4 == 0
        && f.tail.extractLsb' 0 20 == 0, false⟩
  | 0x8 =>
    let all := f.fn.getLsbD 0
    some ⟨.wbinv { h := h, tok := f.ax.getLsbD 0,
                   range := if all then none else some (opd f.a, f.tail.extractLsb' 0 13),
                   tag := f.tail.extractLsb' 20 12 },
      f.zeroD && f.zeroB && f.fn.extractLsb' 1 5 == 0 && f.ty == 0 && f.ax.extractLsb' 1 5 == 0
        && f.tail.extractLsb' 13 7 == 0 && (!all || (f.zeroA && f.tail.extractLsb' 0 13 == 0)),
      false⟩
  | 0x9 => some ⟨.mdrn { h := h, tok := f.ax.getLsbD 0, crew := f.ax.getLsbD 1,
                         scl := f.fn.getLsbD 0, clr := f.fn.getLsbD 1,
                         rm := (Rm.ofCode (f.fn.extractLsb' 2 3).toNat).getD .dyn,
                         sat := f.fn.getLsbD 5, ty := tyOf f.ty, d := opd f.d, a := opd f.a,
                         b := opd f.b, m := f.tail.extractLsb' 0 6, n := f.tail.extractLsb' 6 6,
                         tag := f.tail.extractLsb' 20 12 },
      tyRaw f && (Rm.ofCode (f.fn.extractLsb' 2 3).toNat).isSome && f.ax.extractLsb' 2 4 == 0
        && f.tail.extractLsb' 12 8 == 0, false⟩
  | 0xA => some ⟨.vmm { h := h, acc := f.fn.getLsbD 0, ty := tyOf f.ty, d := opd f.d, a := opd f.a,
                        b := opd f.b, k := f.tail.extractLsb' 0 7, n := f.tail.extractLsb' 7 7 },
      tyRaw f && f.fn.extractLsb' 1 5 == 0 && f.ax == 0 && f.tail.extractLsb' 14 18 == 0, false⟩
  | 0xB => some ⟨.mbst h (f.tail.extractLsb' 0 12),
      f.zeroD && f.zeroA && f.zeroB && f.fn == 0 && f.ty == 0 && f.ax == 0
        && f.tail.extractLsb' 12 20 == 0, false⟩
  | 0xC => some ⟨.opfence h, f.zeroD && f.zeroA && f.zeroB && plain f, false⟩
  | 0xD => some ⟨.kmma h (f.fn.getLsbD 0) (opd f.d) (opd f.a) (opd f.b),
      f.fn.extractLsb' 1 5 == 0 && f.ty == 0x1D && f.ax == 0 && f.tail == 0, false⟩
  | _ => none

/-- Opcodes 0xC0 to 0xCF (R231). -/
def parseC (f : Fields) (lo : Nat) : Option Parsed :=
  let h := f.head
  let ax2 := f.ax.extractLsb' 3 2
  match lo with
  | 0x0 => some ⟨.smpl (filtOf f) (smplOf f (0#1 ++ f.ax.extractLsb' 0 3) ax2),
      smplRaw f && filtRaw f && !f.ax.getLsbD 5, true⟩
  | 0x1 => some ⟨.smpg (f.fn.extractLsb' 0 2).toFin (smplOf f 0 ax2),
      smplRaw f && f.ax.extractLsb' 0 3 == 0 && !f.ax.getLsbD 5, true⟩
  | 0x2 =>
    let lod := f.fn.getLsbD 0
    some ⟨.smpq h lod (opd f.d) (opd f.a) (opd f.b) ax2,
      f.fn.extractLsb' 1 5 == 0 && f.ty == (if lod then 0x12 else 0x07) && f.tail == 0
        && f.ax.extractLsb' 0 3 == 0 && !f.ax.getLsbD 5, false⟩
  | 0x3 => some ⟨.latf (filtOf f) (smplOf f (f.ax.extractLsb' 0 4) 0),
      smplRaw f && filtRaw f && f.ax.extractLsb' 4 2 == 0, true⟩
  | 0x4 => some ⟨.wcpin h (f.fn.getLsbD 0) (opd f.a),
      f.zeroD && f.zeroB && f.fn.extractLsb' 1 5 == 0 && f.ty == 0 && f.ax == 0 && f.tail == 0,
      false⟩
  | 0x5 =>
    let all := f.fn.getLsbD 0
    some ⟨.wcinv h (if all then none else some (opd f.a)),
      f.zeroD && f.zeroB && f.fn.extractLsb' 1 5 == 0 && f.ty == 0 && f.ax == 0 && f.tail == 0
        && (!all || f.zeroA), false⟩
  | 0x6 => some ⟨.trace h (f.fn.getLsbD 0) (f.fn.getLsbD 1) (opd f.a) (opd f.b) f.tail,
      f.zeroD && f.fn.extractLsb' 2 4 == 0 && f.ty == 0 && f.ax == 0, false⟩
  | 0x7 => some ⟨.hitld h ((HitField.ofCode f.fn.toNat).getD .kind) (opd f.d),
      (HitField.ofCode f.fn.toNat).isSome && f.zeroA && f.zeroB && f.ty == 0 && f.ax == 0
        && f.tail == 0, false⟩
  | 0x8 => some ⟨.vbld h ((VbField.ofCode f.fn.toNat).getD .id) (opd f.d) (opd f.a) (opd f.b)
        (f.ax.extractLsb' 0 3),
      (VbField.ofCode f.fn.toNat).isSome && f.ty == 0 && f.ax.extractLsb' 3 3 == 0 && f.tail == 0,
      false⟩
  | 0x9 => some ⟨.rng h (f.fn.getLsbD 0) (opd f.d) (f.ax.extractLsb' 0 2),
      f.fn.extractLsb' 1 5 == 0 && f.zeroA && f.zeroB
        && f.ty == (if f.fn.getLsbD 0 then 0x12 else 0x09) && f.ax.extractLsb' 2 4 == 0
        && f.tail == 0, false⟩
  | 0xA => some ⟨.rngset h ((RngSet.ofCode f.fn.toNat).getD .key) (opd f.a),
      (RngSet.ofCode f.fn.toNat).isSome && f.zeroD && f.zeroB && f.ty == 0 && f.ax == 0
        && f.tail == 0, false⟩
  | 0xB =>
    let i := f.ax.getLsbD 0
    some ⟨.rngadv h (if i then .imm f.tail else .reg (opd f.a)),
      f.zeroD && f.zeroB && f.fn == 0 && f.ty == 0 && f.ax.extractLsb' 1 5 == 0
        && (if i then f.zeroA else f.tail == 0), false⟩
  | 0xC => some ⟨.rngget h (f.fn.getLsbD 0) (opd f.d),
      f.fn.extractLsb' 1 5 == 0 && f.zeroA && f.zeroB && f.ty == 0 && f.ax == 0 && f.tail == 0,
      false⟩
  | _ => none

/-- The opcode map (R68); none where unassigned. -/
def parse (f : Fields) : Option Parsed :=
  let lo := f.op.toNat % 16
  match f.op.toNat / 16 with
  | 0x0 => parse0 f lo
  | 0x1 => parse1 f lo
  | 0x2 => parse2 f lo
  | 0x3 => parse3 f lo
  | 0x4 => parse4 f lo
  | 0x5 => parse5 f lo
  | 0x6 => parse6 f lo
  | 0x7 => parse7 f lo
  | 0x8 => parse8 f lo
  | 0x9 => parse9 f lo
  | 0xA => parseA f lo
  | 0xB => parseB f lo
  | 0xC => parseC f lo
  | _ => none

/-- Opcodes that accept the modifier word (R56). -/
def acceptsXm (op : Nat) : Bool :=
  (0x40 ≤ op && op ≤ 0x5D) || (0x60 ≤ op && op ≤ 0x73) || (0x80 ≤ op && op ≤ 0x91)

/-- The U/C class of pairs (R46); every other assigned opcode is V/M/E. -/
def isUC (op : Nat) : Bool := (0x01 ≤ op && op ≤ 0x13) || (0x20 ≤ op && op ≤ 0x35)

/-- Why a word does not decode (R51 step 5). -/
inductive Undecoded
  | opcode | field | operand
  deriving DecidableEq, Repr

/-- No operand field holds a reserved code (R59). -/
def codesOk (f : Fields) (hasC : Bool) : Bool :=
  (Opd.ofCode? f.d.toNat).isSome && (Opd.ofCode? f.a.toNat).isSome
    && (Opd.ofCode? f.b.toNat).isSome && (!hasC || (Opd.ofCode? f.c.toNat).isSome)

/-- Decoding of the fields in the order of R51 step 5. -/
def decodeFields (f : Fields) : Except Undecoded Instr :=
  match parse f with
  | none => .error .opcode
  | some p =>
    if f.rsv || (f.xm && !acceptsXm f.op.toNat) || !p.raw || !p.instr.fieldsOk then .error .field
    else if !codesOk f p.hasC || !p.instr.operandsOk then .error .operand
    else .ok p.instr

/-- The instruction of a word, on any word. -/
def decode (w : InstrWord) : Except Undecoded Instr := decodeFields (.unpack w)

/-- The instruction whose bits are w, by the numbering of the opcode table: bit 0 is the least significant bit
of the first byte (R42), and every bit above the low `nbits` is 0. -/
def decodeTableWord (nbits w : Nat) : Option Instr :=
  match decode (BitVec.ofNat 96 (w % 2 ^ nbits)) with
  | .ok i => some i
  | .error _ => none

/-! ## Writing words (the encoder) -/

namespace Fields

/-- A word with an opcode and a head, every other field zero. -/
def base (op : BitVec 8) (h : Head) : Fields :=
  { op := op, sw := h.sw, xm := false, g := BitVec.ofNat 4 h.g, gn := h.gn, rsv := false, d := 0,
    a := 0, b := 0, fn := 0, ty := 0, ax := 0, tail := 0 }

/-- The modifier word with operand code C (R55). -/
def withMod (f : Fields) (m : Option Modifier) (c : BitVec 10) : Fields :=
  match m with
  | none => f
  | some m =>
    { f with xm := true,
             tail := (0 : BitVec 13) ++ BitVec.ofBool m.sat ++ c ++ BitVec.ofNat 3 m.rm.code
                       ++ BitVec.ofBool m.mz ++ BitVec.ofNat 4 m.msk }

/-- A third source without a modifier word (R54). -/
def withC (f : Fields) (c : BitVec 10) (imm : BitVec 22) : Fields := { f with tail := imm ++ c }

end Fields

/-- A flag in the low bit of a field. -/
def boolBits (n : Nat) (b : Bool) : BitVec n := BitVec.ofNat n b.toNat

def encVBin (op : BitVec 8) (fn : BitVec 6) (x : VBin) : Fields :=
  let f := { Fields.base op x.h with d := x.d.bits, a := x.a.bits, fn := fn, ty := x.ty.bits6 }
  match x.b with
  | .reg o => ({ f with b := o.bits }).withMod x.mod 0
  | .imm i => { f with ax := 0x10, tail := i }

def encVTer (op : BitVec 8) (fn : BitVec 6) (x : VTer) : Fields :=
  let f := { Fields.base op x.h with d := x.d.bits, a := x.a.bits, fn := fn, ty := x.ty.bits6 }
  match x.b with
  | .reg o => (({ f with b := o.bits }).withC x.c.bits 0).withMod x.mod x.c.bits
  | .imm i => ({ f with ax := 0x10 }).withC x.c.bits i

def encVTri (op : BitVec 8) (fn ax : BitVec 6) (x : VTri) : Fields :=
  (({ Fields.base op x.h with
        d := x.d.bits, a := x.a.bits, b := x.b.bits, fn := fn,
        ty := x.ty.bits6, ax := ax }).withC x.c.bits 0).withMod x.mod x.c.bits

def encVUn (op : BitVec 8) (fn ax : BitVec 6) (x : VUn) : Fields :=
  ({ Fields.base op x.h with
       d := x.d.bits, a := x.a.bits, fn := fn, ty := x.ty.bits6,
       ax := ax }).withMod x.mod 0

def encVCarry (op : BitVec 8) (x : VCarry) : Fields :=
  (({ Fields.base op x.h with
        d := x.d.bits, a := x.a.bits, b := x.b.bits, ty := x.ty.bits6,
        ax := BitVec.ofNat 6 x.kout }).withC x.c.bits 0).withMod x.mod x.c.bits

def encUBin (op : BitVec 8) (fn : BitVec 6) (x : UBin) : Fields :=
  let f := { Fields.base op x.h with d := x.d.bits, a := x.a.bits, fn := fn, ty := x.ty.bits6 }
  match x.b with
  | .reg o => { f with b := o.bits }
  | .imm i => { f with ax := 1, tail := i }

/-- AX of an address space and a scope. -/
def axOf (sp : Space) (sc : Nat) : BitVec 6 := BitVec.ofNat 6 (sp.code + 8 * sc)

def ordScope : Option Scope → Nat
  | none => 0
  | some s => s.code

def Ord.code : Ord → Nat
  | .rlx => 0 | .acq _ => 1 | .rel _ => 2 | .ar _ => 3

def Ord.scope : Ord → Nat
  | .rlx => 0 | .acq s | .rel s | .ar s => s.code

def encMem (op : BitVec 8) (x : Mem) (d b : BitVec 10) : Fields :=
  ({ Fields.base op x.h with
      d := d, a := x.a.bits, b := b, ty := x.ty.bits6, ax := axOf x.sp (ordScope x.ord),
      fn := BitVec.ofNat 6 (x.ord.isSome.toNat + 4 * x.nt.toNat), tail := x.off }).withMod x.mod 0

def encAtom (op : BitVec 8) (o : AtomOp) (x : Atom) : Fields :=
  ({ Fields.base op x.h with
      d := x.d.bits, a := x.a.bits, b := x.b.bits, ty := x.ty.bits6, ax := axOf x.sp x.ord.scope,
      fn := BitVec.ofNat 6 (o.code + 16 * x.ord.code) }).withC x.c.bits x.off

def encSync (f : Fields) (b : Src32) : Fields :=
  match b with
  | .reg o => { f with b := o.bits }
  | .imm i => { f with fn := f.fn ||| 0x20, tail := i }

def encMma (op : BitVec 8) (x : Mma) : Fields :=
  { Fields.base op x.h with d := x.d.bits, a := x.a.bits, b := x.b.bits, ax := boolBits 6 x.tok,
                            tail := x.tag ++ x.k ++ x.n ++ x.m }

def encTile (op : BitVec 8) (x : TileMove) : Fields :=
  { Fields.base op x.h with d := x.d.bits, a := x.a.bits, ax := boolBits 6 x.tok,
                            tail := x.tag ++ (0 : BitVec 7) ++ x.len }

def Lod.code : Lod → Nat
  | .lz => 0 | .ll _ => 1 | .lb _ => 2

def Lod.bits (l : Lod) : BitVec 10 :=
  match l.reg? with
  | none => 0
  | some c => c.bits

def encSmpl (op : BitVec 8) (fn : Nat) (ax : BitVec 6) (x : Smpl) : Fields :=
  { Fields.base op x.h with
      d := x.d.bits, a := x.a.bits, b := x.b.bits, ty := x.ty.bits6, ax := ax,
      fn := BitVec.ofNat 6 (fn + 4 * x.lod.code),
      tail := (0 : BitVec 14) ++ x.oy ++ x.ox ++ x.lod.bits }

/-- AX[4:3] of sampler forms. -/
def axCrd (n : BitVec 2) : BitVec 6 := BitVec.ofNat 6 (8 * n.toNat)

def optBit (o : Option Bool) : BitVec 1 := BitVec.ofBool (o.getD false)

/-- The fields of a lane instruction; none for an event. -/
def encodeFields : Instr → Option Fields
  | .nop h => some (.base 0x01 h)
  | .br h c disp => some (match c with
      | .always => { Fields.base 0x02 h with tail := disp }
      | .nz a => { Fields.base 0x02 h with a := a.bits, fn := 1, tail := disp }
      | .z a => { Fields.base 0x02 h with a := a.bits, fn := 2, tail := disp })
  | .bri h a => some { Fields.base 0x03 h with a := a.bits }
  | .call h d disp => some { Fields.base 0x04 h with d := d.bits, tail := disp }
  | .calli h d a => some { Fields.base 0x05 h with d := d.bits, a := a.bits }
  | .ret h a => some { Fields.base 0x06 h with a := a.bits }
  | .loop h c e => some (match c with
      | .reg a => { Fields.base 0x07 h with a := a.bits, tail := (0 : BitVec 12) ++ e }
      | .imm n => { Fields.base 0x07 h with ax := 1, tail := n ++ e })
  | .loopPop h => some { Fields.base 0x07 h with fn := 1 }
  | .exit h => some (.base 0x08 h)
  | .cont h disp => some { Fields.base 0x09 h with tail := disp }
  | .yield h => some (.base 0x0A h)
  | .park h c => some (match c with
      | .reg a => { Fields.base 0x0B h with a := a.bits }
      | .imm n => { Fields.base 0x0B h with ax := 1, tail := n })
  | .sysc x => some { Fields.base 0x0C x.h with
      d := x.d.bits, a := x.a.bits, b := x.b.bits, tail := (0 : BitVec 26) ++ x.nrep ++ x.narg }
  | .syscWait x => some { Fields.base 0x0C x.h with
      d := x.d.bits, a := x.a.bits, b := x.b.bits, fn := 1,
      tail := (0 : BitVec 26) ++ x.nrep ++ x.narg }
  | .trap h c => some { Fields.base 0x0D h with tail := c }
  | .brk h c => some { Fields.base 0x0E h with tail := c }
  | .rdsr h d r => some { Fields.base 0x0F h with d := d.bits, a := (Opd.sr r).bits }
  | .wrsr h r a => some { Fields.base 0x10 h with d := (Opd.sr r).bits, a := a.bits }
  | .mode h m => some { Fields.base 0x11 h with
      tail := (0 : BitVec 22) ++ BitVec.ofBool m.z64.isSome ++ BitVec.ofBool m.z32.isSome
        ++ BitVec.ofBool m.z16.isSome ++ BitVec.ofBool m.rm.isSome ++ optBit m.z64 ++ optBit m.z32
        ++ optBit m.z16 ++ m.rm.getD 0 }
  | .join h a => some { Fields.base 0x12 h with a := a.bits }
  | .tenq h a => some { Fields.base 0x13 h with a := a.bits }
  | .sadd x => some (encUBin 0x20 0 x) | .ssub x => some (encUBin 0x21 0 x)
  | .smul x => some (encUBin 0x22 0 x) | .smulh x => some (encUBin 0x23 0 x)
  | .sdiv x => some (encUBin 0x24 0 x) | .srem x => some (encUBin 0x25 0 x)
  | .sand x => some (encUBin 0x26 0 x) | .sor x => some (encUBin 0x27 0 x)
  | .sxor x => some (encUBin 0x28 0 x) | .sshl x => some (encUBin 0x29 0 x)
  | .sshr x => some (encUBin 0x2A 0 x) | .ssra x => some (encUBin 0x2B 0 x)
  | .smin x => some (encUBin 0x2C 0 x) | .smax x => some (encUBin 0x2D 0 x)
  | .smov h d a => some { Fields.base 0x2E h with d := d.bits, a := a.bits, ty := 0x0A }
  | .sli h o d x => some { Fields.base 0x2F h with
      d := d.bits, fn := BitVec.ofNat 6 o.code, ty := 0x0A, tail := x }
  | .scmp o x => some (encUBin 0x30 (BitVec.ofNat 6 o.code) x)
  | .ssel h d a b c => some (({ Fields.base 0x31 h with
      d := d.bits, a := a.bits, b := b.bits, ty := 0x0A }).withC c.bits 0)
  | .sbfe h ty d a start len => some { Fields.base 0x32 h with
      d := d.bits, a := a.bits, ty := ty.bits6, tail := (0 : BitVec 19) ++ len ++ start }
  | .spop h o ty d a => some { Fields.base 0x33 h with
      d := d.bits, a := a.bits, ty := ty.bits6, fn := BitVec.ofNat 6 o.code }
  | .sld x => some { Fields.base 0x34 x.h with
      d := x.r.bits, a := x.a.bits, ty := x.ty.bits6, ax := axOf x.sp 0, tail := x.off }
  | .sst x => some { Fields.base 0x35 x.h with
      b := x.r.bits, a := x.a.bits, ty := x.ty.bits6, ax := axOf x.sp 0, tail := x.off }
  | .add x => some (encVBin 0x40 0 x) | .sub x => some (encVBin 0x41 0 x)
  | .mul x => some (encVBin 0x42 0 x) | .mulh x => some (encVBin 0x43 0 x)
  | .mad x => some (encVTer 0x44 0 x)
  | .div x => some (encVBin 0x45 0 x) | .rem x => some (encVBin 0x46 0 x)
  | .addc x => some (encVCarry 0x47 x) | .subb x => some (encVCarry 0x48 x)
  | .and x => some (encVBin 0x49 0 x) | .or x => some (encVBin 0x4A 0 x)
  | .xor x => some (encVBin 0x4B 0 x)
  | .lop3 l x => some (encVTri 0x4C (l.extractLsb' 0 6) ((l.extractLsb' 6 2).setWidth 6) x)
  | .shl x => some (encVBin 0x4D 0 x) | .shr x => some (encVBin 0x4E 0 x)
  | .sra x => some (encVBin 0x4F 0 x)
  | .rot r x => some (encVBin 0x50 (boolBits 6 r) x)
  | .min x => some (encVBin 0x51 0 x) | .max x => some (encVBin 0x52 0 x)
  | .abs x => some (encVUn 0x53 0 0 x) | .popc x => some (encVUn 0x54 0 0 x)
  | .clz x => some (encVUn 0x55 0 0 x) | .ctz x => some (encVUn 0x56 0 0 x)
  | .brev x => some (encVUn 0x57 0 0 x)
  | .bfe x => some (encVBin 0x58 0 x)
  | .bfi x => some (encVTer 0x59 0 x) | .sel x => some (encVTer 0x5A 0 x)
  | .cmp o x => some (encVBin 0x5B (BitVec.ofNat 6 o.code) x)
  | .mov x =>
    let f := { Fields.base 0x5C x.h with d := x.d.bits, ty := x.ty.bits6 }
    some (match x.a with
      | .reg o => ({ f with a := o.bits }).withMod x.mod 0
      | .imm i => { f with ax := 0x10, tail := i })
  | .dot4 m x => some (encVTer 0x5D (boolBits 6 m) x)
  | .fadd x => some (encVBin 0x60 0 x) | .fsub x => some (encVBin 0x61 0 x)
  | .fmul x => some (encVBin 0x62 0 x)
  | .fma n s x => some (encVTer 0x63 (BitVec.ofNat 6 (2 * n.toNat + s.toNat)) x)
  | .fmin n x => some (encVBin 0x64 (boolBits 6 n) x) | .fmax n x => some (encVBin 0x65 (boolBits 6 n) x)
  | .fcmp o x => some (encVBin 0x66 (BitVec.ofNat 6 o.code) x)
  | .fclass m x => some (encVUn 0x67 (m.extractLsb' 0 6) ((m.extractLsb' 6 4).setWidth 6) x)
  | .fdiv x => some (encVBin 0x68 0 x)
  | .fsqrt x => some (encVUn 0x69 0 0 x) | .frcp x => some (encVUn 0x6A 0 0 x)
  | .frsq x => some (encVUn 0x6B 0 0 x) | .fex2 x => some (encVUn 0x6C 0 0 x)
  | .flg2 x => some (encVUn 0x6D 0 0 x) | .fsin x => some (encVUn 0x6E 0 0 x)
  | .fcos x => some (encVUn 0x6F 0 0 x) | .frnd x => some (encVUn 0x70 0 0 x)
  | .fscl x => some (encVBin 0x71 0 x)
  | .cvt x =>
    let f := { Fields.base 0x72 x.h with
      d := x.d.bits, a := x.a.bits, ty := x.dty.bits6, fn := x.sty.bits6 }
    some ((match x.form with
      | .scalar | .repack => f
      | .pair b => { f with b := b.bits }
      | .half hi b => { f with b := b.bits, ax := boolBits 6 hi }
      | .unpack i => { f with ax := BitVec.ofNat 6 i }).withMod x.mod 0)
  | .fdot m x => some (encVTri 0x73 (boolBits 6 m) 0 x)
  | .qswp o x => some (match o with
      | .h => encVUn 0x80 0 0 x
      | .v => encVUn 0x80 1 0 x
      | .d => encVUn 0x80 2 0 x
      | .b n => encVUn 0x80 3 (BitVec.ofNat 6 n) x)
  | .shfl o x =>
    let f := { Fields.base 0x81 x.h with
      d := x.d.bits, a := x.a.bits, ty := x.ty.bits6, fn := BitVec.ofNat 6 o.code,
      ax := BitVec.ofNat 6 x.kout }
    some (match x.b with
      | .reg o => ({ f with b := o.bits }).withMod x.mod 0
      | .imm i => { f with ax := f.ax ||| 0x10, tail := i })
  | .vote o x => some (encVUn 0x82 (BitVec.ofNat 6 o.code) 0 x)
  | .kop o x => some (({ Fields.base 0x83 x.h with
      d := x.d.bits, a := x.a.bits, b := x.b.bits, fn := BitVec.ofNat 6 o.code }).withMod x.mod 0)
  | .kcnt t x => some (({ Fields.base 0x84 x.h with
      d := x.d.bits, a := x.a.bits, fn := boolBits 6 t }).withMod x.mod 0)
  | .kfst t x => some (({ Fields.base 0x85 x.h with
      d := x.d.bits, a := x.a.bits, fn := boolBits 6 t }).withMod x.mod 0)
  | .scan o ex x => some (encVUn 0x86 (BitVec.ofNat 6 (o.code + 8 * ex.toNat)) 0 x)
  | .wred o x => some (encVUn 0x87 (BitVec.ofNat 6 o.code) 0 x)
  | .reord r x => some (({ Fields.base 0x88 x.h with
      d := x.d.bits, a := x.a.bits, b := x.b.bits, fn := boolBits 6 r, ty := x.ty.bits6 }).withMod
      x.mod 0)
  | .kset o x => some (({ Fields.base 0x89 x.h with
      d := x.d.bits, a := x.a.bits, fn := BitVec.ofNat 6 o.code }).withMod x.mod 0)
  | .ld x => some (encMem 0x90 x x.r.bits 0)
  | .st x => some (encMem 0x91 x 0 x.r.bits)
  | .stSy x => some ((({ Fields.base 0x91 x.h with
      a := x.a.bits, b := x.r.bits, ty := x.ty.bits6, ax := axOf x.sp (ordScope x.ord),
      fn := BitVec.ofNat 6 (x.ord.isSome.toNat + 4 * x.nt.toNat + 8) }).withC x.c.bits
      x.off).withMod x.mod x.c.bits)
  | .ldx x => some (({ Fields.base 0x92 x.h with
      d := x.r.bits, a := x.a.bits, ty := x.ty.bits6, ax := axOf x.sp 0 }).withC x.c.bits
      (x.n.setWidth 22))
  | .stc x => some (({ Fields.base 0x93 x.h with
      d := x.cnt.bits, a := x.a.bits, b := x.r.bits, ty := x.ty.bits6, ax := axOf x.sp 0 }).withC
      x.c.bits (x.n.setWidth 22))
  | .swp o x => some { Fields.base 0x94 x.h with
      d := x.d.bits, a := x.a.bits, b := x.b.bits, ty := x.ty.bits6, fn := BitVec.ofNat 6 o.code,
      tail := x.n.setWidth 32 }
  | .itx o x => some { Fields.base 0x95 x.h with
      d := x.d.bits, a := x.a.bits, b := x.b.bits, ty := x.ty.bits6, fn := BitVec.ofNat 6 o.code }
  | .itld x => some { Fields.base 0x96 x.h with
      d := x.r.bits, a := x.a.bits, ax := axOf x.sp 0, tail := x.off }
  | .itst x => some { Fields.base 0x97 x.h with
      b := x.r.bits, a := x.a.bits, ax := axOf x.sp 0, tail := x.off }
  | .atom o x => some (encAtom 0x98 o x)
  | .red o x => some { Fields.base 0x99 x.h with
      a := x.a.bits, b := x.b.bits, ty := x.ty.bits6, ax := axOf x.sp x.ord.scope,
      fn := BitVec.ofNat 6 (o.code + 16 * x.ord.code), tail := x.off }
  | .redx o x => some (encAtom 0x9A o x)
  | .fence h k s => some { Fields.base 0x9B h with
      fn := BitVec.ofNat 6 k.code, ax := BitVec.ofNat 6 (8 * s.code) }
  | .pref h l a off => some { Fields.base 0x9C h with a := a.bits, fn := boolBits 6 l, tail := off }
  | .sealRegion h a b => some { Fields.base 0x9D h with a := a.bits, b := b.bits }
  | .unsealRegion h a b => some { Fields.base 0x9E h with a := a.bits, b := b.bits }
  | .bar h k x => some (match x with
      | .reg a b => { Fields.base 0xA0 h with
          a := a.bits, b := b.bits, fn := BitVec.ofNat 6 k.code }
      | .imm id n => { Fields.base 0xA0 h with
          fn := BitVec.ofNat 6 (k.code + 32), tail := (0 : BitVec 16) ++ n ++ id })
  | .cadd x => some (encSync { Fields.base 0xA1 x.h with
      a := x.a.bits, ax := BitVec.ofNat 6 (x.crew.toNat + 8 * x.scope.code) } x.b)
  | .cwait x => some (encSync { Fields.base 0xA2 x.h with
      a := x.a.bits, ax := BitVec.ofNat 6 (x.crew.toNat + 8 * x.scope.code) } x.b)
  | .syarm x => some (encSync { Fields.base 0xA3 x.h with a := x.a.bits, fn := boolBits 6 x.flag } x.b)
  | .sywait x => some (encSync { Fields.base 0xA4 x.h with a := x.a.bits, fn := boolBits 6 x.flag } x.b)
  | .chwait x => some (encSync { Fields.base 0xA5 x.h with a := x.a.bits, fn := boolBits 6 x.flag } x.b)
  | .chtst d x => some (encSync { Fields.base 0xA6 x.h with
      d := d.bits, a := x.a.bits, fn := boolBits 6 x.flag } x.b)
  | .qbind h k d a => some { Fields.base 0xA7 h with
      d := d.bits, a := a.bits, fn := BitVec.ofNat 6 k.code }
  | .qfree h d => some { Fields.base 0xA8 h with d := d.bits }
  | .qpoll h sp d a => some { Fields.base 0xA9 h with d := d.bits, a := a.bits, fn := boolBits 6 sp }
  | .mfmt h x => some (match x with
      | .reg a => { Fields.base 0xB0 h with a := a.bits }
      | .imm i => { Fields.base 0xB0 h with ax := 1, tail := i.setWidth 32 })
  | .mma x => some (encMma 0xB1 x)
  | .mmac x => some (encMma 0xB2 x)
  | .tld x => some (encTile 0xB3 x)
  | .tst x => some (encTile 0xB4 x)
  | .trow h frm t r n =>
    let f := { Fields.base 0xB5 h with
      a := t.bits, fn := boolBits 6 frm, ty := 0x09, tail := n.setWidth 32 }
    some (if frm then { f with d := r.bits } else { f with b := r.bits })
  | .tzro x => some (encTile 0xB6 x)
  | .wbld x => some { Fields.base 0xB7 x.h with
      d := x.d.bits, a := x.a.bits, ax := BitVec.ofNat 6 (x.tok.toNat + 2 * x.crew.toNat),
      tail := x.tag ++ (0 : BitVec 20) }
  | .wbinv x => some (match x.range with
      | none => { Fields.base 0xB8 x.h with
          fn := 1, ax := boolBits 6 x.tok, tail := x.tag ++ (0 : BitVec 20) }
      | some (a, n) => { Fields.base 0xB8 x.h with
          a := a.bits, ax := boolBits 6 x.tok, tail := x.tag ++ (0 : BitVec 7) ++ n })
  | .mdrn x => some { Fields.base 0xB9 x.h with
      d := x.d.bits, a := x.a.bits, b := x.b.bits, ty := x.ty.bits6,
      fn := BitVec.ofNat 6 (x.scl.toNat + 2 * x.clr.toNat + 4 * x.rm.code + 32 * x.sat.toNat),
      ax := BitVec.ofNat 6 (x.tok.toNat + 2 * x.crew.toNat),
      tail := x.tag ++ (0 : BitVec 8) ++ x.n ++ x.m }
  | .vmm x => some { Fields.base 0xBA x.h with
      d := x.d.bits, a := x.a.bits, b := x.b.bits, ty := x.ty.bits6, fn := boolBits 6 x.acc,
      tail := (0 : BitVec 18) ++ x.n ++ x.k }
  | .mbst h n => some { Fields.base 0xBB h with tail := n.setWidth 32 }
  | .opfence h => some (.base 0xBC h)
  | .kmma h b4 d a b => some { Fields.base 0xBD h with
      d := d.bits, a := a.bits, b := b.bits, fn := boolBits 6 b4, ty := 0x1D }
  | .smpl ft x => some (encSmpl 0xC0 ft.code
      (BitVec.ofNat 6 (x.n.toNat + 8 * x.ncrd.toNat)) x)
  | .smpg ch x => some (encSmpl 0xC1 ch (axCrd x.ncrd) x)
  | .smpq h lod d a b n => some { Fields.base 0xC2 h with
      d := d.bits, a := a.bits, b := b.bits, fn := boolBits 6 lod, ty := if lod then 0x12 else 0x07,
      ax := axCrd n }
  | .latf ft x => some (encSmpl 0xC3 ft.code (x.n.setWidth 6) x)
  | .wcpin h u a => some { Fields.base 0xC4 h with a := a.bits, fn := boolBits 6 u }
  | .wcinv h t => some (match t with
      | none => { Fields.base 0xC5 h with fn := 1 }
      | some a => { Fields.base 0xC5 h with a := a.bits })
  | .trace h any cull a b disp => some { Fields.base 0xC6 h with
      a := a.bits, b := b.bits, fn := BitVec.ofNat 6 (any.toNat + 2 * cull.toNat), tail := disp }
  | .hitld h x d => some { Fields.base 0xC7 h with d := d.bits, fn := BitVec.ofNat 6 x.code }
  | .vbld h x d a b n => some { Fields.base 0xC8 h with
      d := d.bits, a := a.bits, b := b.bits, fn := BitVec.ofNat 6 x.code, ax := n.setWidth 6 }
  | .rng h u d n => some { Fields.base 0xC9 h with
      d := d.bits, fn := boolBits 6 u, ty := if u then 0x12 else 0x09, ax := n.setWidth 6 }
  | .rngset h o a => some { Fields.base 0xCA h with a := a.bits, fn := BitVec.ofNat 6 o.code }
  | .rngadv h x => some (match x with
      | .reg a => { Fields.base 0xCB h with a := a.bits }
      | .imm i => { Fields.base 0xCB h with ax := 1, tail := i })
  | .rngget h c d => some { Fields.base 0xCC h with d := d.bits, fn := boolBits 6 c }
  | .parkTimeout .. | .countedArrival .. | .cwaitSatisfied .. | .mmacBlock ..
  | .engineCommandDone .. | .enginePowerStep .. | .rayWalkEnd .. | .resultLand ..
  | .sqtailDoorbell .. | .nopPacket .. | .submit .. | .wait .. | .waitSatisfied .. | .signal ..
  | .signalPerform .. | .fencePacket .. | .taskPlace .. | .placementAgeLimit .. | .balancerMove ..
  | .copyInChunk .. | .taskRetire .. | .regroupWaveLaunch .. | .regroupTimeout ..
  | .timeSliceExpiry .. | .contextRestore .. | .watchdogExpiry .. | .clusterGate ..
  | .mergeGroupClose .. | .msinvGo .. | .invalidationDone | .rmsecCommit .. | .linkTimeout ..
  | .linkDown .. | .linkErrorCompletion .. | .hostRecall .. | .fqackResolve .. | .fqackAbort ..
  | .replyDoorbell .. | .contextResident .. | .contextRelease .. | .flctlEn .. | .flctlRpl ..
  | .flctlEnd .. | .fltailWrite .. | .flheadWrite .. | .replayDisc .. | .halt | .haltctx | .resume
  | .resumectx | .step | .stepc | .cancel | .debugWindowAccess .. | .cpbpGo .. | .stopTick
  | .snapctlSw .. | .snapshotLatch | .traceSample .. | .ccinjGo .. | .rqtailDoorbell ..
  | .rasterJob .. | .cjtailDoorbell .. | .copyJobStart .. | .cemove .. | .cesync ..
  | .transferDone .. | .ecall .. | .ebreak .. | .copyJobTimeout .. | .rtslotLoad ..
  | .throttleSample .. | .thermalTrip .. | .thermalShutdown .. | .powerOn | .pkrstWrite ..
  | .attest | .loadslot | .stagefw | .sensors | .mailboxComplete | .registerWrite ..
  | .rv64gcInstruction .. | .fqtailWrite .. | .cqtailWrite .. | .linkTraining ..
  | .peerRequest .. => none

/-- The word of a lane instruction; none for an event. -/
def encode (i : Instr) : Option InstrWord := (encodeFields i).map Fields.pack

end Sys2Proof
end

