-- ==== Sys2Proof/Machine/State.lean ====
section
/-! DEFINITION. The state of the machine: everything the specification gives the Titrum Q8, as plain
data, and the state after a package reset. INVENTORY.md lists every field with its rule. -/

namespace Sys2Proof.Machine

/-! ## Why a step stops -/

/-- Why the model stops. None of these is a fault of the machine: the faults of the specification
(spec/16 R421) are states the machine goes on in. -/
inductive Fault
  /-- Raised by every lane instruction when no wave has an issue in progress: in the machine an
  instruction is only ever executed by the group that issued it (spec/01 R39). Safe. -/
  | noIssue
  /-- Raised by an event whose condition does not hold in the state, so that the machine could not
  take it now (for example a result that is not outstanding). Safe. -/
  | notEnabled
  /-- Raised by an event that names a part the package does not have (spec/00 R1). Safe. -/
  | absent
  /-- Raised by every step after STOPTICK gated the clocks: only a package reset leaves this state
  (spec/16 R444). Safe. -/
  | stopped
  deriving DecidableEq, Repr

/-- Why the model gives no meaning. -/
inductive Refusal
  /-- Raised by an arm of `exec` whose instruction has no meaning yet. Safe. -/
  | notModelled (mnemonic : String)
  deriving DecidableEq, Repr

/-! ## Faults of the machine (spec/16 R421, R424) -/

/-- Cause codes (R421). -/
inductive Cause
  | illegalOpcode | illegalField | illegalOperand | lineFormat | branchTarget | misaligned | bounds
  | pageNotPresent | protection | sealedWrite | checkMismatch | replayDiverge | queueMisuse
  | barrierMisuse | software | breakpoint | watchdogKill | versionOverflow | linkError | resource
  | format
  deriving DecidableEq, Repr

/-- What a fault record tells of a fault (R424 to R426). -/
structure Trap where
  cause : Cause
  unit : Nat := 0
  lane : Option Nat := none
  slot : Nat := 0
  addr : Dword := 0
  aux0 : Dword := 0
  aux1 : Dword := 0
  xtra : Word := 0
  deriving DecidableEq, Repr

/-! ## Memory -/

/-- Memory with check codes (spec/11 R312): bytes by address, strictly rising, and the codes of the
granules whose stored code is not the code of their bytes, by granule number. An address that is
not listed holds no value; what its reader gets is said where it is read (R322, R323). -/
structure Memory where
  cells : List Host.Cell
  codes : List Host.Cell
  deriving DecidableEq, Repr

/-- Where a byte lives. -/
inductive Place
  | dev | host | peer
  | spad (core : Nat) | tile (core : Nat) | wbuf (core : Nat)
  deriving DecidableEq, Repr

/-- Ordering kinds of pages (spec/09 R262). -/
inductive PKind
  | so | rc | uo
  deriving DecidableEq, Repr

/-- A leaf of a page table (spec/10 R290). -/
structure Leaf where
  w : Bool
  x : Bool
  kind : PKind
  sealed : Bool
  cnt : Bool
  loc : Bool
  prv : Bool
  large : Bool
  frame : Nat
  deriving DecidableEq, Repr

/-- A cached walk result (spec/10 R292): page `vpn` of address space `asid`. -/
structure Walk where
  asid : Nat
  vpn : Nat
  leaf : Leaf
  deriving DecidableEq, Repr

/-- How a first-level cache holds a line, and how its home records it (spec/10 R300). -/
inductive LineState
  | shared | exclusive | modified | untracked
  deriving DecidableEq, Repr

/-- A line of the last-level cache (spec/10 R285, R286, R300): line number VA[55:6], the attributes it was filled
with, whether it is newer than memory, and its home's directory: how cores hold it, and the dies they are on. Its
data and codes are those of the memory it names, which every holder keeps in one order. -/
structure Line where
  asid : Nat
  line : Nat
  leaf : Leaf
  dirty : Bool
  dir : Option LineState
  dies : BitVec 8
  deriving DecidableEq, Repr

/-- A line of a core's first-level cache (spec/10 R285, R300). -/
structure CoreLine where
  core : Nat
  asid : Nat
  line : Nat
  leaf : Leaf
  state : LineState
  deriving DecidableEq, Repr

/-- One element of an update-only line (spec/03 R95): the exact sum in units of the type's least
subnormal, and the sticky bits. -/
structure UpElem where
  idx : Nat
  acc : Int
  pinf : Bool
  ninf : Bool
  nan : Bool
  deriving DecidableEq, Repr

/-- A line in update-only state (spec/10 R301, R302). -/
structure UpLine where
  asid : Nat
  line : Nat
  place : Place
  pa : Nat
  ty : Ty
  /-- The entry of its spill set that holds it, when it is spilled. -/
  spilled : Option Nat
  last : Nat
  elems : List UpElem
  deriving DecidableEq, Repr

/-- An entry of the remap filter (spec/10 R295, R308). -/
structure Remap where
  idx : Nat
  sasid : Nat
  svpn : Nat
  casid : Nat
  cvpn : Nat
  w : Bool
  x : Bool
  deriving DecidableEq, Repr

/-- An open merge group (spec/10 R298). -/
structure Merge where
  asid : Nat
  line : Nat
  opened : Nat
  size : Nat
  deriving DecidableEq, Repr

/-! ## The order of accesses (spec/09 R259 to R273) -/

/-- A thread and where it runs, as scopes judge it (spec/09 R265). -/
structure ThreadAt where
  wave : Nat
  lane : Nat
  crew : Nat
  core : Nat
  deriving DecidableEq, Repr

/-- What happens before a point of a thread (spec/09 R269): the writes of threads by the numbers of their marks (spec/07
R202), for each crew the last engine command whose token orders it (spec/07 R201), and the moment whose writes are seen
(spec/09 R273). -/
structure View where
  marks : List Nat
  toks : List (Nat × Nat)
  floor : Nat
  deriving DecidableEq, Repr

/-- A release (spec/09 R266): its scope, its thread, and what happens before it. -/
structure Msg where
  scope : Scope
  agent : ThreadAt
  view : View
  deriving DecidableEq, Repr

/-- One of the last writes of threads: its moment, its place, what its bytes held before it and which releases they
carried (spec/09 R273). -/
structure Wr where
  moment : Nat
  place : Place
  addr : Nat
  old : List Byte
  agent : ThreadAt
  logged : Bool
  before : List Msg
  deriving DecidableEq, Repr

/-- The releases in whose sequences the last write of a location lies (spec/09 R267). -/
structure Rel where
  place : Place
  addr : Nat
  len : Nat
  msgs : List Msg
  deriving DecidableEq, Repr

/-- A location that a thread has read, and the moment it has read it as of (spec/09 R273). -/
structure Seen where
  place : Place
  addr : Nat
  len : Nat
  moment : Nat
  deriving DecidableEq, Repr

/-- Where a thread stands in the order of accesses: what happens before it; the marks of its own writes, those on
unordered pages apart; its last release fence; the releases that its plain reads have met, for a later fence; and what it
has read (spec/09 R264 to R273). -/
structure Order where
  view : View
  own : List Nat
  loose : List Nat
  fenced : Option Msg
  heard : List Msg
  seen : List Seen
  deriving DecidableEq, Repr

/-- A store in a thread's store queue (spec/09 R276): the bytes at a translated location, the
issue it belongs to, and the releases that it performs. `barrier` counts the fences the thread passed before it. -/
structure StoreEnt where
  slot : Nat
  issue : Nat
  place : Place
  addr : Nat
  /-- The canonical address, and the address the store named. -/
  va : Nat
  own : Nat
  asid : Nat
  leaf : Leaf
  space : Nat
  bytes : List Byte
  rel : Bool
  barrier : Nat
  msgs : List Msg
  deriving DecidableEq, Repr

/-- A counted arrival on its way to a scratchpad (spec/06 R166, R179, R187). -/
structure Arrival where
  crew : Nat
  core : Nat
  addr : Nat
  /-- The space offset its access named. -/
  off : Nat
  bytes : List Byte
  ty : Ty
  op : Option AtomOp
  sync : Nat
  srcCore : Nat
  ctx : Nat
  wslot : Nat
  lane : Nat
  slot : Nat
  issue : Nat
  /-- Its thread, the mark of its write, and the releases that it performs. -/
  agent : ThreadAt
  mark : List Nat
  msgs : List Msg
  deriving DecidableEq, Repr

/-! ## Threads and waves -/

/-- What a blocked thread waits for (spec/01 R38). -/
inductive Wait
  /-- join at a slot, with its mask register (spec/04 R113). -/
  | join (slot : Nat) (k : Nat)
  /-- A phase of a named barrier (spec/06 R184). -/
  | bar (id phase : Nat) (arrived : Bool)
  /-- cwait: address and target (spec/06 R185). -/
  | counter (crewSpace : Bool) (addr target : Nat) (scope : Scope) (slot : Nat)
  /-- sywait: scratchpad address and generation (spec/06 R189). -/
  | gen (addr : Nat) (g : Nat)
  /-- chwait: scratchpad address, mask and kind (spec/06 R190). -/
  | chunk (addr : Nat) (mask : Dword) (any : Bool)
  /-- park: the tick it expires at, if any (spec/04 R112). -/
  | park (due : Option Nat)
  deriving DecidableEq, Repr

/-- Why an instruction waits to be issued again (spec/01 R38). -/
inductive Why
  /-- A push into a full queue or a reservation without room: register and free elements needed. -/
  | room (q n : Nat)
  /-- A pop from an empty queue. -/
  | empty (q : Nat)
  /-- A free entry of the crew's engine command queue (spec/07 R198). -/
  | command
  /-- A free slot of the call queue (spec/04 R114, spec/17 R455). -/
  | call
  /-- Log space, or in replay the turn of the thread's record (spec/13 R367, R376). -/
  | log
  /-- In replay, the wave's recorded turn to push into a queue register (spec/13 R377). -/
  | turn (q : Nat)
  /-- The performing of the group's earlier accesses, which this instruction is ordered after. -/
  | drain
  /-- The group's earlier accesses leaving their registers (spec/09 R276). -/
  | land
  /-- Engine blocks of a cluster mmac (spec/07 R215). -/
  | mmac
  deriving DecidableEq, Repr

/-- What a thread does when it leaves its last slot (spec/04 R107, R108, spec/08 R247); `mode` is %mode at the
cont or trace. -/
inductive Leaving
  | exit
  | cont (resume mode : Nat)
  | trace (resume mode : Nat) (any cull : Bool) (ray : List Word) (root : Dword)
  deriving DecidableEq, Repr

/-- Status of a thread (spec/01 R38, spec/16 R435 TST). -/
inductive Run
  | ready
  | ended
  /-- Parked after a switch marker (spec/02 R64). -/
  | marker
  /-- Blocked; goes on at the next slot. -/
  | wait (w : Wait)
  /-- Blocked before the effect of its instruction, which issues again. -/
  | hold (y : Why)
  /-- Waits at a qswp, .lb or .lod slot for its quad (spec/05 R145, spec/08 R234). -/
  | quad
  /-- Waits on a Resolve record at its instruction (spec/16 R428). -/
  | resolve (page : Nat)
  | leaving (l : Leaving)
  deriving DecidableEq, Repr

/-- A thread (spec/01 R2, R18, R29 to R31, R33). -/
structure Thread where
  run : Run
  /-- Where both members of a pair make the thread wait or leave (spec/02 R47): what the U/C member asks, which
  the thread does when it is released from what the other asks; `ready` where there is nothing. -/
  after : Run
  /-- The first member of a pair at the pc has taken effect, and the second waits for the accesses it made
  (spec/09 R261). -/
  half : Bool
  /-- Where the thread stands in the segment of a long instruction (spec/01 R29): 0 between segments, 1 while its
  accesses, or the reads of a sweep, are made, 2 while a sweep writes. -/
  seg : Nat
  pc : Nat
  /-- The pc was set from outside: the slot must be a branch target (spec/02 R49). -/
  entry : Bool
  /-- Slot a blocked thread goes on at. -/
  next : Nat
  /-- A switch marker that is due when the wait ends (spec/02 R64). -/
  swAfter : Bool
  v : List Word
  /-- Operand codes written by variable-latency instructions since the last marker (spec/02 R65). -/
  fly : List Nat
  /-- Those written again before the marker. -/
  dbl : List Nat
  pix : Dword
  loops : List Dword
  lends : List Dword
  rngk : BitVec 128
  rngc : BitVec 128
  tid : Word
  hit : BitVec 512
  helper : Bool
  since : Nat
  dfault : Option Trap
  storeQ : List StoreEnt
  /-- Fences passed (orders `storeQ`). -/
  fences : Nat
  /-- The cluster operation this thread waits for is done (spec/07 R215). -/
  exch : Bool
  /-- Another group named a record of the thread's interrupted itx (spec/06 R174). -/
  mixed : Bool
  /-- The iterator records that the thread's itx in progress names (spec/06 R174). -/
  named : List Nat
  /-- The segment at PROG was interrupted, and reads again on repetition (spec/06 R171). -/
  again : Bool
  ord : Order
  deriving DecidableEq, Repr

/-- An outstanding result or access of a wave (spec/02 R63, R66, R67): the lanes whose marker waits
for it, the lane it acts for, its instruction, the operand values read at issue, whether a source
register was written again, and the page it waits for. A result computed at issue is in `ext` with
its flags, its destination in `dst`; `issue` numbers the issue it belongs to, and `toks` tells which engine commands are ordered before it (spec/07
R201). -/
structure Pend where
  lanes : BitVec 64
  lane : Nat
  slot : Nat
  issue : Nat
  i : Instr
  a : BitVec 128
  b : BitVec 128
  c : BitVec 128
  ext : List Word
  dst : Opd
  done : Bool
  flags : Dword
  taint : Bool
  wait : Option Nat
  toks : List (Nat × Nat)
  /-- The moment of its issue (spec/09 R260). -/
  since : Nat
  deriving DecidableEq, Repr

/-- A wave (spec/01 R14 to R16, R19, R21, R23, R33, R41; spec/16 R434). -/
structure Wave where
  id : Nat
  crew : Nat
  core : Nat
  wslot : Nat
  laneSet : Nat
  idx : Nat
  width : Nat
  threads : List Thread
  /-- k1 to k15. -/
  k : List (BitVec 64)
  sp : List Dword
  iters : List (BitVec 512)
  mode : Dword
  fflags : Dword
  fair : Nat
  out : List Pend
  halted : Bool
  pendFault : Option Trap
  brkPass : Option Nat
  /-- The code of the brk that halted the wave last (spec/04 R118). -/
  brkCode : Option (BitVec 32)
  /-- STEP or STEPC lets the halted wave issue once (spec/16 R441). -/
  stepping : Bool
  deriving DecidableEq, Repr

/-! ## Crews -/

/-- A queue register (spec/01 R22, spec/06 R191, R192): its kind (0 unbound), the operand of qbind,
and, for a scratchpad queue, head, tail and, for each element, the wave slot that pushed it with what happened before
(spec/09 R270), for a port its elements, oldest first: a reservation's number, and no data until it is filled. -/
structure QReg where
  kind : Nat
  bind : Dword
  head : Nat
  tail : Nat
  pushers : List (Nat × View)
  elems : List (Nat × Option (List Word))
  deriving DecidableEq, Repr

/-- What happens before the bytes that a sync word has counted, and before its last advance (spec/09 R270). -/
structure SyncView where
  addr : Nat
  now : View
  last : View
  deriving DecidableEq, Repr

/-- A named barrier (spec/06 R184), with what happens before the arrivals of this phase, and of the last (spec/09
R270). -/
structure Bar where
  e : Nat
  arrivals : Nat
  phase : Nat
  now : View
  last : View
  deriving DecidableEq, Repr

/-- A range of memory: kind 0 global, 1 scratchpad, 2 tile store; the base of the last two carries the
core above bit 20. -/
structure Span where
  kind : Nat
  base : Nat
  len : Nat
  deriving DecidableEq, Repr

/-- A range a thread wrote that no opfence of the crew has ordered (spec/07 R202, R203), by number. -/
structure Mark where
  id : Nat
  span : Span
  wave : Nat
  lane : Nat
  deriving DecidableEq, Repr

/-- A range that an engine command writes (spec/07 R203), with the number of its issue. -/
structure EngineMark where
  seq : Nat
  issued : Nat
  span : Span
  deriving DecidableEq, Repr

/-- The accesses of lanes of a wave that were issued by a clock (spec/07 R202). -/
structure Earlier where
  wave : Nat
  lanes : BitVec 64
  issue : Nat
  deriving DecidableEq, Repr

/-- A resident weight image (spec/07 R218, R219). -/
structure Image where
  off : Nat
  len : Nat
  ty : Ty
  cmp : Bool
  kb : Nat
  nb : Nat
  deriving DecidableEq, Repr

/-- An engine command (spec/07 R198 to R200, R230): its operands, what it took at issue, its progress,
the ranges that threads write without order, and whether after its issue (R203), and the accesses that an opfence puts
before it (R202). -/
structure Cmd where
  i : Instr
  slot : Nat
  wave : Nat
  lane : Nat
  d : Dword
  a : Dword
  b : Dword
  mfmt : Dword
  mode : Dword
  seq : Nat
  rngk : BitVec 128
  rngc : BitVec 128
  /-- The issuing lanes. -/
  lanes : BitVec 64
  prog : Nat
  flags : Dword
  /-- Operands read and acceptance checks made. -/
  accepted : Bool
  /-- The command has begun, with the image that it takes B from or loads (R199). -/
  begun : Bool
  image : Option Image
  taint : Bool
  issued : Nat
  hot : List (Span × Bool)
  behind : List Earlier
  wait : Option Nat
  deriving DecidableEq, Repr

/-- A kernel header (spec/01 R35). -/
structure Header where
  va : Nat
  entry : Nat
  lines : Nat
  width : Nat
  vregs : Nat
  swp : Nat
  scr : Nat
  spad : Nat
  trows : Nat
  nbar : Nat
  niter : Nat
  live : Nat
  waves : Nat
  fair : Nat
  cls : Nat
  smp : Bool
  mat : Bool
  hlp : Bool
  prv : Bool
  qkind : List Nat
  deriving DecidableEq, Repr

/-- A crew (spec/01 R19, R22, R28, R33; spec/12 R346, R356). -/
structure Crew where
  id : Nat
  task : Nat
  core : Nat
  idx : Nat
  cont : Bool
  hdr : Header
  ss : List Dword
  /-- What the crew-shared registers that issues of this clock wrote held before: what every wave reads until
  the clock has passed (spec/01 R20). -/
  prev : List (Nat × Dword)
  qs : List QReg
  bars : List Bar
  mfmt : Dword
  spadBase : Nat
  tileBase : Nat
  cmds : List Cmd
  eseq : Nat
  dirty : List Mark
  /-- Accesses before an opfence that were not performed when it issued (spec/07 R202). -/
  fence : List Earlier
  /-- Ranges written by commands (spec/07 R201, R203). -/
  wset : List EngineMark
  /-- Views of sync words (spec/09 R270). -/
  syncs : List SyncView
  /-- A command faulted: no later one runs (spec/07 R199). -/
  stuck : Bool
  done : Bool
  deriving DecidableEq, Repr

/-! ## Cores, clusters, dies -/

/-- A layer of a core's weight cache (spec/08 R243 to R246): its key, its size, the crews that pin it,
and the bytes it was filled with from `addr`, none while it is only pinned. -/
structure Layer where
  core : Nat
  asid : Nat
  tag : Word
  idx : Nat
  bytes : Nat
  pins : List Nat
  addr : Nat
  data : Option (List Byte)
  stale : Bool
  deriving DecidableEq, Repr

/-- A core (spec/00 R1). -/
structure Core where
  spad : Memory
  tile : Memory
  wbuf : Memory
  images : List Image
  /-- Power level and hold timer of the matrix engine (spec/07 R228). -/
  power : Nat
  hold : Nat
  /-- Twice the tick after the last 16-clock boundary taken, plus 1 where the level changed (spec/17
  R459). -/
  stepped : Nat
  /-- Wave issued last from each quarter (spec/01 R40). -/
  rr : List Nat
  /-- The last issue from each quarter: wave slot, slot, context and lanes (spec/16 R445, R446). -/
  last : List (Nat × Nat × Nat × BitVec 64)
  deriving DecidableEq, Repr

/-- A continuation record (spec/04 R109). -/
structure Rec where
  task : Nat
  khdr : Nat
  resume : Nat
  kind : Nat
  mode : Nat
  tid : Word
  rngk : BitVec 128
  rngc : BitVec 128
  live : List Word
  hit : BitVec 512
  born : Nat
  /-- What happens before its thread's events (spec/09 R270). -/
  view : View
  deriving DecidableEq, Repr

/-- A ray in the cluster's traversal engine (spec/14 R404 to R406). -/
structure Ray where
  record : Rec
  any : Bool
  cull : Bool
  ray : List Word
  /-- Nodes still to visit, nearest first: the address, plus 1 for a leaf; and nodes visited. -/
  stack : List Nat
  steps : Nat
  /-- The hit so far: t, identifier and hit record. -/
  best : Option (Rat × Nat × BitVec 512)
  /-- The moment it entered the engine (spec/09 R260). -/
  since : Nat
  parked : Option Nat
  deriving DecidableEq, Repr

/-- A cluster (spec/12 R355, spec/16 R449). -/
structure Cluster where
  pool : List Rec
  rays : List Ray
  gated : Bool
  /-- A raster job waits on this page (spec/14 R397). -/
  rasterWait : Option Nat
  deriving DecidableEq, Repr

/-- A transfer of a copy job since the last cesync (spec/15 R410, R411): kind 0 to a buffer, 1 from one,
2 of zeros, 3 of the built-in copy; it is in flight while `pos` units of `len` are done. -/
structure Xfer where
  kind : Nat
  gaddr : Nat
  len : Nat
  buf : Nat
  off : Nat
  pos : Nat
  wait : Option Nat
  deriving DecidableEq, Repr

/-- A copy job (spec/15 R412, R413). -/
structure CopyJob where
  ctx : Nat
  addr : Nat
  slot : Nat
  /-- Base, length in 64-byte units, and direction bits of each stream. -/
  streams : List (Nat × Nat × Nat)
  args : List Dword
  done : Nat
  started : Nat
  deriving DecidableEq, Repr

/-- A copy engine and its routine core (spec/15 R407 to R411). -/
structure Engine where
  job : Option CopyJob
  x : List Dword
  f : List Dword
  v : List (BitVec 512)
  pc : Nat
  fcsr : Nat
  vl : Nat
  vtype : Nat
  vstart : Nat
  vcsr : Nat
  ram : Memory
  buf0 : Memory
  buf1 : Memory
  xfers : List Xfer
  seq : Nat
  off : Nat
  instret : Nat
  resv : Option Nat
  stall : Bool
  deriving DecidableEq, Repr

/-- A die (spec/12 R341, spec/15 R415, spec/17 R458). -/
structure Die where
  lastCtx : Nat
  engines : List Engine
  routines : List (Nat × List Byte)
  tth : Nat
  cool : Nat
  trip : Bool
  /-- Tick after the last trace sample (spec/16 R446). -/
  sampled : Nat
  deriving DecidableEq, Repr

/-! ## Contexts, queues and tasks -/

/-- An outstanding call (spec/04 R114), with its task and the SRC word of its request. -/
structure Call where
  token : Nat
  task : Nat
  src : Nat
  callno : Word
  nrep : Nat
  form : Nat
  mask : BitVec 64
  crew : Nat
  wave : Nat
  slot : Nat
  dst : Nat
  deriving DecidableEq, Repr

/-- An outstanding Resolve record (spec/16 R428): its ring index, none while it is held. -/
structure Resolve where
  page : Nat
  seq : Option Nat
  trap : Trap
  deriving DecidableEq, Repr

/-- A crew of a save area (spec/16 R431 to R436): the offset of its block, the parts of its state that
the hardware owns, and its state as it was, of which the fields of R433 to R435 are read back. -/
structure SavedCrew where
  off : Nat
  len : Nat
  crew : Crew
  waves : List Wave
  /-- The matrix engine's power level and hold timer, its images and the weight buffer (spec/07 R230). -/
  power : Nat
  hold : Nat
  images : List Image
  wbuf : Memory
  pins : List Layer
  /-- The releases that locations of its window carry (spec/09 R267). -/
  rels : List Rel
  deriving DecidableEq, Repr

/-- A saved context. -/
structure Saved where
  crews : List SavedCrew
  pool : List Rec
  rays : List Ray
  deriving DecidableEq, Repr

/-- A context slot (spec/01 R32, spec/13, spec/16, spec/17 R455). -/
structure Ctx where
  vbase : Dword
  /-- Home-sequence counters that are not zero (spec/13 R369). -/
  hseq : List (Nat × Nat)
  callSeq : Nat
  calls : List Call
  replies : List Nat
  resolves : List Resolve
  lost : Bool
  /-- Replay: the cluster map, waves under other names than recorded, records consumed out of order,
  and the halt (spec/13 R375 to R381). -/
  remap : List (Option Nat)
  wmap : List (Nat × Nat)
  consumed : List Nat
  divergent : Bool
  /-- The last `.sc` fence of each of its threads (spec/09 R271). -/
  scs : List Msg
  /-- HALTCTX holds the context (spec/16 R441). -/
  haltAll : Bool
  sliceStart : Nat
  saved : Option Saved
  /-- A pre-emption waits for halted waves or in-flight work (spec/16 R437). -/
  preempt : Bool
  /-- CXSCHED.RES is cleared when the save is complete (spec/12 R363). -/
  release : Bool
  /-- The tick a forced save must end by, with its queue (spec/12 R362). -/
  forced : Option (Nat × Nat)
  highArmed : Bool
  deriving DecidableEq, Repr

/-- A command packet as read (spec/12 R330). -/
structure RawPacket where
  kind : Nat
  irq : Bool
  pseq : Word
  addr : Dword
  value : Dword
  deriving DecidableEq, Repr

/-- A submission queue's own state (spec/12 R331, R361; spec/16 R443): `moved` is set by a progress event
of its tasks in this clock. -/
structure SubQ where
  held : Option RawPacket
  /-- Packets performed; a task's position is that of its first ancestor's SUBMIT. -/
  pos : Nat
  stall : Nat
  moved : Bool
  bp : Option (Fin 4)
  bpDone : Bool
  deriving DecidableEq, Repr

/-- Phases of a placed task (spec/12 R346 to R349). -/
inductive Phase
  | waiting | ready | run | copyOut | saved
  deriving DecidableEq, Repr

/-- An operand entry (spec/12 R344). -/
structure OpEntry where
  out : Bool
  tile : Bool
  crews : Nat
  loff : Nat
  gaddr : Nat
  len : Nat
  bmap : Option Nat
  bit0 : Nat
  /-- Chunks copied, and how many granules are of those that have begun (spec/09 R260). -/
  done : List Nat
  part : List (Nat × Nat)
  wait : Option Nat
  deriving DecidableEq, Repr

/-- A task (spec/12 R333 to R354). -/
structure Task where
  id : Nat
  record : Nat
  ctx : Nat
  queue : Nat
  pos : Nat
  name : Dword
  flags : Nat
  ncrew : Nat
  cmask : Nat
  hdr : Header
  seed : Dword
  retry : Nat
  att : Nat
  succ : Nat
  stamp : Nat
  args : List Dword
  ops : List OpEntry
  prv : Bool
  phase : Phase
  /-- Pool die, and the tick it became Ready. -/
  die : Nat
  readySince : Nat
  order : Nat
  place : Option (Nat × Nat)
  cores : List Nat
  tDisp : Nat
  tCin : Nat
  tOpw : Nat
  tExit : Nat
  tCout : Nat
  /-- The version's bytes by virtual address (spec/09 R279) and its spilled lines. -/
  version : Memory
  vspilled : List Nat
  stats : List Nat
  succPos : Nat
  /-- What happens before its events (spec/09 R270): those of the tenq that enqueued it, of its predecessors, and of
  its own threads that have ended. -/
  view : View
  deriving DecidableEq, Repr

/-! ## Package units -/

/-- The Turnip core (spec/17 R461 to R465): its measurements, the boot flash, the status of the command in
progress, the routine slots that it has verified and not yet written, the raised rollback counter, and the
samples of the stack temperatures so far. -/
structure Mgmt where
  mr : List (BitVec 256)
  flash : List Byte
  command : Option Nat
  slots : List (Nat × Nat × Dword)
  rbk : Nat
  samples : Nat
  deriving DecidableEq, Repr

/-- A write of the debug window that takes effect at the release (spec/16 R440): the wave selected, and
the image, offset and value. -/
structure Edit where
  wave : Nat
  img : Nat
  off : Nat
  val : Dword
  deriving DecidableEq, Repr

/-- The debugger's step in progress (spec/16 R440, R441): the wave, whether STEPC waits for what the
issue started, whether the issue is made, the lanes of a long instruction in progress, the numbers of the
issues, and the engine commands they entered. -/
structure Debug where
  target : Option Nat
  complete : Bool
  issued : Bool
  lanes : BitVec 64
  issues : List Nat
  seqs : List Nat
  edits : List Edit
  deriving DecidableEq, Repr

/-- The snapshot trigger (spec/16 R445). -/
structure Snap where
  due : Option Nat
  latched : List (List Dword)
  deriving DecidableEq, Repr

/-- An issue in progress (spec/01 R40, spec/02 R47): the model's own latch between fetch and the end
of an issue. `mode` is %mode and `masks` are k0 to k15 as the issue reads them (R47, spec/03 R85);
`inp` says that the group issued with INP = 1 (R29); `moved` are the lanes whose pc a transfer set. -/
structure Issue where
  wave : Nat
  lanes : BitVec 64
  slot : Nat
  first : Nat
  next : Nat
  pair : Bool
  word : InstrWord
  lineWord : Word
  mode : Dword
  masks : List (BitVec 64)
  inp : Bool
  moved : BitVec 64
  deriving DecidableEq, Repr

/-- What moves next (the model's own agenda). -/
inductive Act
  /-- An instruction of a waiting unit or an event of the machinery. -/
  | event (i : Instr)
  /-- Store number `pos` of a thread's store queue leaves for memory (spec/09 R276). -/
  | leave (t : ThreadRef) (pos : Nat)
  /-- The ready group of the wave that the issue rule gives a quarter of a core issues. -/
  | issue (core quarter : Nat)
  /-- The clock passes. -/
  | clock
  deriving DecidableEq, Repr

/-- The machine. -/
structure State where
  tick : Nat
  /-- Quarters that an issue of this clock occupies: core and quarter (spec/01 R40). -/
  taken : List (Nat × Nat)
  stopped : Bool
  dev : Memory
  hostMem : Memory
  peerMem : Memory
  walks : List Walk
  lines : List Line
  /-- The first-level caches, latest line first. -/
  coreLines : List CoreLine
  up : List UpLine
  remap : List Remap
  merges : List Merge
  inval : Bool
  /-- Control-window registers that are not at their reset value, by offset / 8. -/
  ctl : List (Nat × Dword)
  cores : List Core
  /-- The weight caches of the samplers, least recently used first. -/
  layers : List Layer
  clusters : List Cluster
  dies : List Die
  ctxs : List Ctx
  queues : List SubQ
  tasks : List Task
  crews : List Crew
  waves : List Wave
  arrivals : List Arrival
  /-- Writes of threads performed so far, the last of them, and the releases that locations carry (spec/09 R267,
  R273). -/
  moment : Nat
  hist : List Wr
  rels : List Rel
  /-- Task records sent to peers (spec/10 R306): port, context there, and address. -/
  enqueues : List (Nat × Nat × Nat)
  /-- Ports that are up: 0 to 3 host, 4 to 19 peer. -/
  links : BitVec 20
  tpw : Nat
  pcool : Nat
  /-- Tick after the last sample of the throttle levels (spec/17 R458). -/
  levelled : Nat
  mgmt : Mgmt
  dbg : Debug
  snap : Snap
  agenda : List Act
  iss : Option Issue
  freeN : Nat
  epoch : Nat
  nextId : Nat
  deriving DecidableEq, Repr

/-! ## Reset (spec/17 R457 and the reset columns; values the specification does not give:
notes/assumptions/1) -/

def Memory.empty : Memory := { cells := [], codes := [] }

/-- Nothing happens before. -/
def View.start : View := ⟨[], [], 0⟩

/-- A thread that has synchronised with everything up to a moment. -/
def Order.start (floor : Nat) : Order := ⟨⟨[], [], floor⟩, [], [], none, [], []⟩

def Core.reset : Core :=
  { spad := .empty, tile := .empty, wbuf := .empty, images := [], power := 0, hold := 0, stepped := 0,
    rr := [0, 0, 0, 0], last := List.replicate 4 (0, 0, 0, 0) }

def Cluster.reset : Cluster :=
  { pool := [], rays := [], gated := false, rasterWait := none }

def Engine.reset : Engine :=
  { job := none, x := List.replicate 32 0, f := List.replicate 32 0, v := List.replicate 32 0,
    pc := 0, fcsr := 0, vl := 0, vtype := 0, vstart := 0, vcsr := 0, ram := .empty, buf0 := .empty,
    buf1 := .empty, xfers := [], seq := 0, off := 0, instret := 0, resv := none, stall := false }

def Die.reset : Die :=
  { lastCtx := 0, engines := List.replicate 12 .reset, routines := [], tth := 0, cool := 0,
    trip := false, sampled := 0 }

def Ctx.reset : Ctx :=
  { vbase := 0, hseq := [], callSeq := 0, calls := [], replies := [], resolves := [], lost := false,
    remap := List.replicate 64 none, wmap := [], consumed := [], divergent := false, scs := [],
    haltAll := false, sliceStart := 0, saved := none, preempt := false,
    release := false, forced := none, highArmed := true }

def SubQ.reset : SubQ :=
  { held := none, pos := 0, stall := 0, moved := false, bp := none, bpDone := false }

def Mgmt.reset : Mgmt :=
  { mr := List.replicate 4 0, flash := [], command := none, slots := [], rbk := 0, samples := 0 }

/-- The machine right after a power-on reset, before the boot ROM has run (spec/17 R457, R462). -/
def State.reset : State :=
  { tick := 0, taken := [], stopped := false, dev := .empty, hostMem := .empty, peerMem := .empty, walks := [],
    lines := [], coreLines := [], up := [], remap := [], merges := [], inval := false, ctl := [],
    cores := List.replicate 512 .reset, layers := [], clusters := List.replicate 64 .reset,
    dies := List.replicate 8 .reset, ctxs := List.replicate 64 .reset,
    queues := List.replicate 256 .reset, tasks := [], crews := [], waves := [], arrivals := [], moment := 0, hist := [], rels := [], enqueues := [],
    links := 0, tpw := 0, pcool := 0, levelled := 0, mgmt := .reset,
    dbg := { target := none, complete := false, issued := false, lanes := 0, issues := [], seqs := [], edits := [] },
    snap := { due := none, latched := [] }, agenda := [], iss := none, freeN := 0, epoch := 0,
    nextId := 0 }

end Sys2Proof.Machine
end

