-- ==== Sys2Proof/Machine/Bytes.lean ====
section
/-! DEFINITION. Bit fields, byte order (little-endian, spec/00 R8), check codes (spec/11 R310) and
small helpers on lists. -/

namespace Sys2Proof.Machine

/-! ## Bits and bytes -/

/-- Bits [lo + n - 1 : lo] of a number. -/
def bitsOf (x lo n : Nat) : Nat := (x >>> lo) % 2 ^ n

def bitOf (x i : Nat) : Bool := x.testBit i

/-- The number of a little-endian byte list. -/
def leNat : List Byte → Nat
  | [] => 0
  | b :: r => b.toNat + 256 * leNat r

/-- The n low bytes of a number, little-endian. -/
def leBytes : (n x : Nat) → List Byte
  | 0, _ => []
  | n + 1, x => BitVec.ofNat 8 x :: leBytes n (x / 256)

/-- A two's complement number of n bits. -/
def toSigned (n x : Nat) : Int := if x < 2 ^ (n - 1) then x else (x : Int) - 2 ^ n

/-- The n low bits of an integer. -/
def ofSigned (n : Nat) (x : Int) : Nat := (x % (2 ^ n : Nat)).toNat

/-- A byte range of a structure held as bytes. -/
def byteRange (bs : List Byte) (off n : Nat) : List Byte := (bs.drop off).take n

def fieldOf (bs : List Byte) (off n : Nat) : Nat := leNat (byteRange bs off n)

/-- A displacement: a base plus a signed 32-bit number, modulo 2^64. -/
def addSigned (base : Nat) (off : Int) : Nat := (((base : Int) + off) % 2 ^ 64).toNat

/-- Rounds up to a multiple. -/
def roundUp (x m : Nat) : Nat := (x + m - 1) / m * m

def ceilDiv (x m : Nat) : Nat := (x + m - 1) / m

/-! ## Lists -/

def updAt {α : Type} (l : List α) (n : Nat) (f : α → α) : List α := l.modify n f

def getAt {α : Type} (l : List α) (n : Nat) (d : α) : α := l.getD n d

/-- Sorted insertion into a list keyed by a rising number; an equal key is replaced. -/
def putKey {α : Type} : List (Nat × α) → Nat → α → List (Nat × α)
  | [], k, x => [(k, x)]
  | (j, y) :: r, k, x =>
    if k < j then (k, x) :: (j, y) :: r
    else if k = j then (k, x) :: r
    else (j, y) :: putKey r k x

def getKey {α : Type} : List (Nat × α) → Nat → Option α
  | [], _ => none
  | (j, y) :: r, k => if k = j then some y else if k < j then none else getKey r k

def delKey {α : Type} : List (Nat × α) → Nat → List (Nat × α)
  | [], _ => []
  | (j, y) :: r, k => if k = j then r else if k < j then (j, y) :: r else (j, y) :: delKey r k

/-- Keys strictly rising. -/
def rising {α : Type} : List (Nat × α) → Bool
  | [] => true
  | [_] => true
  | (a, _) :: (b, y) :: r => decide (a < b) && rising ((b, y) :: r)

/-- Runs a step for each number below a bound, in ascending order. -/
def eachBelow {σ ε : Type} (f : Nat → σ → Except ε σ) : (n : Nat) → σ → Except ε σ
  | 0, s => .ok s
  | n + 1, s => match eachBelow f n s with
    | .error e => .error e
    | .ok s' => f n s'

/-- Runs a step for each element in order, stopping at the first failure. -/
def eachOf {α σ ε : Type} (f : α → σ → Except ε σ) : List α → σ → Except ε σ
  | [], s => .ok s
  | x :: r, s => match f x s with
    | .error e => .error e
    | .ok s' => eachOf f r s'

/-! ## Check codes (spec/11 R310) -/

/-- One step of the CRC: the next bit, most significant first. -/
def crcStep (c : Nat) (bit : Bool) : Nat :=
  let s := (c * 2) % 256
  if (decide (128 ≤ c)) != bit then s ^^^ 0x2F else s

/-- The CRC over the n low bits of a number, bit n - 1 first. -/
def crcBits (g : Nat) : (n : Nat) → (c : Nat) → Nat
  | 0, c => c
  | n + 1, c => crcBits g n (crcStep c (g.testBit n))

/-- Code(g) of an 8-byte granule. -/
def checkCode (g : Nat) : Byte := BitVec.ofNat 8 (crcBits g 64 0 ^^^ 0xA5)

end Sys2Proof.Machine
end

