-- ==== Sys2Proof/Machine/Coded.lean ====
section
/-! DEFINITION. MX blocks in memory (spec/15 R417) and the sub-stream coded format (R418 to R420). -/

namespace Sys2Proof.Machine

/-! ## Canonical codes (R419) -/

/-- A code: its length, its bits, and the byte value it stands for. -/
structure Code where
  len : Nat
  bits : Nat
  val : Nat
  deriving DecidableEq, Repr

/-- The codes of one length, from `code` on; none where the table is over-full. -/
def codesOfLen (lens : List Nat) (len : Nat) : List Nat → (code : Nat) → Option (List Code × Nat)
  | [], code => some ([], code)
  | v :: r, code =>
    if getAt lens v 0 = len then
      if 2 ^ len ≤ code then none
      else match codesOfLen lens len r (code + 1) with
        | none => none
        | some (cs, c) => some (⟨len, code, v⟩ :: cs, c)
    else codesOfLen lens len r code

/-- The codes of `n` lengths from `len` on. -/
def codesFrom (lens : List Nat) : (n : Nat) → (len code : Nat) → Option (List Code)
  | 0, _, _ => some []
  | n + 1, len, code =>
    match codesOfLen lens len (List.range 256) code with
    | none => none
    | some (cs, c) => match codesFrom lens n (len + 1) (c * 2) with
      | none => none
      | some r => some (cs ++ r)

/-- The code table of 256 lengths. -/
def canonical (lens : List Nat) : Option (List Code) := codesFrom lens 15 1 0

/-! ## Decoding -/

/-- The bits of a byte, bit 7 first. -/
def byteBits (b : Byte) : List Bool := (List.range 8).map fun i => b.getLsbD (7 - i)

/-- One symbol, of at most `n` further bits. -/
def decodeSym (tbl : List Code) : (n : Nat) → (len code : Nat) → List Bool → Option (Nat × List Bool)
  | 0, _, _, _ => none
  | _, _, _, [] => none
  | n + 1, len, code, b :: r =>
    let c := code * 2 + b.toNat
    match tbl.find? fun t => t.len == len + 1 && t.bits == c with
    | some t => some (t.val, r)
    | none => decodeSym tbl n (len + 1) c r

/-- n symbols of a sub-stream; at most 7 zero bits remain after the last. -/
def decodeStream (tbl : List Code) : (n : Nat) → List Bool → Option (List Byte)
  | 0, bits => if bits.length ≤ 7 && bits.all (! ·) then some [] else none
  | n + 1, bits => match decodeSym tbl 15 0 0 bits with
    | none => none
    | some (v, r) => match decodeStream tbl n r with
      | none => none
      | some l => some (BitVec.ofNat 8 v :: l)

/-- The eight sub-streams of a chunk, from their lengths on. -/
def decodeStreams (tbl : List Code) (n : Nat) : List Nat → List Byte → Option (List (List Byte))
  | [], _ => some []
  | len :: r, bs =>
    if bs.length < len then none
    else match decodeStream tbl n ((bs.take len).flatMap byteBits) with
      | none => none
      | some l => match decodeStreams tbl n r (bs.drop len) with
        | none => none
        | some ls => some (l :: ls)

/-- Bytes s, s + 8, … of a chunk come from sub-stream s. -/
def interleave (n : Nat) (ls : List (List Byte)) : List Byte :=
  (List.range n).map fun i => getAt (getAt ls (i % 8) []) (i / 8) 0

/-- One coded chunk (R418): its bytes and the length it takes up. -/
def decodeChunk (bs : List Byte) : Option (List Byte × Nat) :=
  let ulen := fieldOf bs 0 2
  let mode := fieldOf bs 2 1
  let slens := (List.range 8).map fun i => fieldOf bs (4 + 2 * i) 2
  let lens := (List.range 256).map fun v => bitsOf (fieldOf bs (0x20 + v / 2) 1) (4 * (v % 2)) 4
  let zero (l : List Nat) : Bool := l.all (· == 0)
  let pad (data : Nat) : Option Nat :=
    let fin := roundUp (160 + data) 64
    if bs.length < fin then none
    else if ((bs.drop (160 + data)).take (fin - 160 - data)).all (· == 0) then some fin else none
  if bs.length < 160 || ulen = 0 || 64 < ulen || fieldOf bs 3 1 ≠ 0
      || !(byteRange bs 0x14 12).all (· == 0) then none
  else if mode = 1 then
    if !zero slens || !zero lens then none
    else match pad (ulen * 64) with
      | none => none
      | some fin => some ((bs.drop 160).take (ulen * 64), fin)
  else if mode ≠ 0 || zero lens then none
  else match canonical lens with
    | none => none
    | some tbl => match decodeStreams tbl (ulen * 8) slens (bs.drop 160) with
      | none => none
      | some ls => match pad slens.sum with
        | none => none
        | some fin => some (interleave (ulen * 64) ls, fin)

/-- A coded sequence of the expected length, in `n` chunks at most: none is FORMAT. -/
def decodeCoded : (n : Nat) → (bs : List Byte) → (expected : Nat) → Option (List Byte)
  | 0, _, expected => if expected = 0 then some [] else none
  | n + 1, bs, expected =>
    if expected = 0 then (if bs.all (· == 0) then some [] else none)
    else match decodeChunk bs with
      | none => none
      | some (l, used) =>
        if expected < l.length || (l.length < expected && l.length ≠ 4096) then none
        else match decodeCoded n (bs.drop used) (expected - l.length) with
          | none => none
          | some r => some (l ++ r)

/-! ## MX blocks (R417) -/

/-- Bytes of a block of elements of `bits` bits. -/
def mxBytes (bits : Nat) : Nat := 1 + 4 * bits

/-- The bytes of a block from its scale and element encodings. -/
def mxPack (bits scale : Nat) (els : List Nat) : List Byte :=
  let x := (els.zipIdx.map fun p => p.1 % 2 ^ bits * 2 ^ (bits * p.2)).sum
  BitVec.ofNat 8 scale :: leBytes (4 * bits) x

end Sys2Proof.Machine
end

