-- ==== Sys2Proof/Machine/Memory.lean ====
section
/-! DEFINITION. The named operations over memory with check codes (spec/11): reading and writing bytes
and granules as a producer, a consumer (R313, R314), a carrier (R315), and the narrow-store merge
(R316). -/

namespace Sys2Proof.Machine

/-- What the addresses a memory does not list give their reader: the byte, the stored code when it
is arbitrary too, and whether the memory holds codes at all (spec/11 R312, R322, R323). -/
structure Fill where
  byte : Nat → Byte
  code : Option (Nat → Byte)
  coded : Bool

/-- A granule that does not match: its address, the code stored and the code computed (R324). -/
structure Mismatch where
  addr : Nat
  stored : Byte
  computed : Byte
  deriving DecidableEq, Repr

namespace Memory

/-- The byte listed at an address. -/
def get? (m : Memory) (a : Nat) : Option Byte := getKey m.cells a

/-- The byte a reader gets. -/
def byte (f : Fill) (m : Memory) (a : Nat) : Byte := (m.get? a).getD (f.byte a)

/-- n bytes from an address. -/
def bytes (f : Fill) (m : Memory) (a : Nat) : (n : Nat) → List Byte
  | 0 => []
  | n + 1 => m.byte f a :: bytes f m (a + 1) n

/-- The 64 bits of granule g. -/
def granule (f : Fill) (m : Memory) (g : Nat) : Nat := leNat (m.bytes f (8 * g) 8)

/-- Whether the memory lists every byte of granule g. -/
def listed (m : Memory) (g : Nat) : Bool :=
  (List.range 8).all fun i => (m.get? (8 * g + i)).isSome

/-- The code stored with granule g. -/
def stored (f : Fill) (m : Memory) (g : Nat) : Byte :=
  match getKey m.codes g with
  | some c => c
  | none => match f.code with
    | some c => if m.listed g then checkCode (m.granule f g) else c g
    | none => checkCode (m.granule f g)

/-- The check of granule g by a consumer (R324): none where its code matches. -/
def check (f : Fill) (m : Memory) (g : Nat) : Option Mismatch :=
  if !f.coded then none
  else match getKey m.codes g with
    | some c =>
      if c = checkCode (m.granule f g) then none
      else some { addr := 8 * g, stored := c, computed := checkCode (m.granule f g) }
    | none => match f.code with
      | none => none
      | some c =>
        if m.listed g then none
        else if c g = checkCode (m.granule f g) then none
        else some { addr := 8 * g, stored := c g, computed := checkCode (m.granule f g) }

/-- The first granule of g, g + 1, … that does not match. -/
def checkFrom (f : Fill) (m : Memory) (g : Nat) : (n : Nat) → Option Mismatch
  | 0 => none
  | n + 1 => match m.check f g with
    | some e => some e
    | none => checkFrom f m (g + 1) n

/-- The check of every granule that holds a byte of n bytes from a. -/
def checkRange (f : Fill) (m : Memory) (a n : Nat) : Option Mismatch :=
  if n = 0 then none else m.checkFrom f (a / 8) ((a + n - 1) / 8 - a / 8 + 1)

/-- A consumer's read of n bytes from a (R314). -/
def read (f : Fill) (m : Memory) (a n : Nat) : Except Mismatch (List Byte) :=
  match m.checkRange f a n with
  | some e => .error e
  | none => .ok (m.bytes f a n)

/-- Lists bytes from an address on, without regard to codes. -/
def put (m : Memory) (a : Nat) : List Byte → Memory
  | [] => m
  | b :: r => put { m with cells := putKey m.cells a b } (a + 1) r

/-- Sets the stored code of granule g: listed only where it is not the code of the bytes. -/
def setCode (f : Fill) (m : Memory) (g : Nat) (c : Byte) : Memory :=
  if c = checkCode (m.granule f g) then { m with codes := delKey m.codes g }
  else { m with codes := putKey m.codes g c }

/-- A producer's write of the 8 bytes of granule g (R313). -/
def putGranule (m : Memory) (g : Nat) (bs : List Byte) : Memory :=
  let m' := m.put (8 * g) bs
  { m' with codes := delKey m'.codes g }

/-- The bytes of a granule with some replaced from offset o on. -/
def patch (old : List Byte) (o : Nat) (bs : List Byte) : List Byte :=
  old.take o ++ bs ++ old.drop (o + bs.length)

/-- A write of part or all of one granule (R316): `o` is the first byte's offset in it. -/
def mergeGranule (f : Fill) (m : Memory) (g o : Nat) (bs : List Byte) : Except Mismatch Memory :=
  if bs.length = 8 then .ok (m.putGranule g bs)
  else match m.check f g with
    | some e => .error e
    | none => .ok (m.putGranule g (patch (m.bytes f (8 * g) 8) o bs))

/-- A producer's write of bytes from an address on, granule by granule; `n` granules at most. A
memory without codes takes the bytes alone. -/
def writeFrom (f : Fill) (m : Memory) (a : Nat) (bs : List Byte) : (n : Nat) → Except Mismatch Memory
  | 0 => .ok m
  | n + 1 =>
    if bs.isEmpty then .ok m
    else
      let k := 8 - a % 8
      match m.mergeGranule f (a / 8) (a % 8) (bs.take k) with
      | .error e => .error e
      | .ok m' => writeFrom f m' (a + k) (bs.drop k) n

def write (f : Fill) (m : Memory) (a : Nat) (bs : List Byte) : Except Mismatch Memory :=
  if f.coded then m.writeFrom f a bs (bs.length / 8 + 2) else .ok (m.put a bs)

/-- A granule with its code unchanged (R315): its bytes and the code stored with it. -/
def take (f : Fill) (m : Memory) (g : Nat) : List Byte × Byte :=
  (m.bytes f (8 * g) 8, m.stored f g)

/-- A granule set with a code carried from elsewhere (R315). -/
def carry (f : Fill) (m : Memory) (g : Nat) (x : List Byte × Byte) : Memory :=
  if f.coded then (m.putGranule g x.1).setCode f g x.2 else m.put (8 * g) x.1

/-- Copies n granules from one memory to another with their codes unchanged. -/
def copyGranules (f : Fill) (src : Memory) (g : Nat) (f' : Fill) (dst : Memory) (g' : Nat) :
    (n : Nat) → Memory
  | 0 => dst
  | n + 1 => copyGranules f src (g + 1) f' (dst.carry f' g' (src.take f g)) (g' + 1) n

/-- Forgets the bytes and codes of a range of granules: their contents become UNDEFINED. -/
def forget (m : Memory) (a n : Nat) : Memory :=
  { cells := m.cells.filter fun c => !(a ≤ c.1 && c.1 < a + n),
    codes := m.codes.filter fun c => !(a ≤ 8 * c.1 && 8 * c.1 < a + n) }

/-- The canonical form: addresses strictly rising, granule numbers strictly rising. -/
def wf (m : Memory) : Bool := rising m.cells && rising m.codes

end Memory

/-! ## The memories of the machine -/

/-- A free value of this step (notes/assumptions/2): `tag` tells its uses apart. -/
def State.fresh (s : State) (tag : Nat) : BitVec 64 := Config.freeValue (s.freeN * 2 ^ 64 + tag)

def State.fresh32 (s : State) (tag : Nat) : Word := (s.fresh tag).setWidth 32

/-- A number for a place, to tell free values apart. -/
def Place.tag : Place → Nat
  | .dev => 0 | .host => 1 | .peer => 2
  | .spad c => 3 + 3 * c | .tile c => 4 + 3 * c | .wbuf c => 5 + 3 * c

/-- What unlisted addresses of a place give (spec/11 R322, R323; notes/assumptions/5). -/
def State.fill (s : State) (p : Place) : Fill :=
  match p with
  | .dev => { byte := Config.powerOnByte (s.epoch + 2), code := some (Config.powerOnCode s.epoch),
              coded := true }
  | .host => { byte := Config.powerOnByte 0, code := none, coded := false }
  | .peer => { byte := Config.powerOnByte 1, code := none, coded := true }
  | .spad c => { byte := fun a => (s.fresh (2 ^ 56 + (Place.spad c).tag * 2 ^ 24 + a)).setWidth 8,
                 code := none, coded := true }
  | .tile c => { byte := fun a => (s.fresh (2 ^ 56 + (Place.tile c).tag * 2 ^ 24 + a)).setWidth 8,
                 code := none, coded := true }
  | .wbuf c => { byte := fun a => (s.fresh (2 ^ 56 + (Place.wbuf c).tag * 2 ^ 24 + a)).setWidth 8,
                 code := none, coded := true }

def State.core (s : State) (c : Nat) : Core := getAt s.cores c .reset

def State.setCore (s : State) (c : Nat) (x : Core) : State := { s with cores := s.cores.set c x }

/-- The memory of a place. -/
def State.mem (s : State) (p : Place) : Memory :=
  match p with
  | .dev => s.dev
  | .host => s.hostMem
  | .peer => s.peerMem
  | .spad c => (s.core c).spad
  | .tile c => (s.core c).tile
  | .wbuf c => (s.core c).wbuf

/-- Replaces the memory of a place. -/
def State.setMem (s : State) (p : Place) (m : Memory) : State :=
  match p with
  | .dev => { s with dev := m }
  | .host => { s with hostMem := m }
  | .peer => { s with peerMem := m }
  | .spad c => s.setCore c { s.core c with spad := m }
  | .tile c => s.setCore c { s.core c with tile := m }
  | .wbuf c => s.setCore c { s.core c with wbuf := m }

/-- A consumer's read at a place (R314). -/
def State.readAt (s : State) (p : Place) (a n : Nat) : Except Mismatch (List Byte) :=
  (s.mem p).read (s.fill p) a n

/-- Bytes at a place without a check. -/
def State.bytesAt (s : State) (p : Place) (a n : Nat) : List Byte := (s.mem p).bytes (s.fill p) a n

/-- A producer's write at a place (R313, R316). -/
def State.writeAt (s : State) (p : Place) (a : Nat) (bs : List Byte) : Except Mismatch State :=
  match (s.mem p).write (s.fill p) a bs with
  | .error e => .error e
  | .ok m => .ok (s.setMem p m)

/-- A write that cannot meet a wrong code: whole granules. -/
def State.putAt (s : State) (p : Place) (a : Nat) (bs : List Byte) : State :=
  match s.writeAt p a bs with
  | .error _ => s
  | .ok s' => s'

end Sys2Proof.Machine
end

