-- ==== Sys2Proof/Machine/Ctl.lean ====
section
/-! DEFINITION. The control window (spec/17 R452): where each register lies, its reset value, and
plain reading and setting of registers. What a write does is in Machine/Window.lean. -/

namespace Sys2Proof.Machine

/-- The blocks of the control window (R452): a register is a block, a member and a place. -/
inductive Reg
  | pkg (n : Nat)
  | die (d n : Nat)
  | clu (c n : Nat)
  | core (c : Nat)
  | link (w : Nat)
  | ctx (c n : Nat)
  | queue (q n : Nat)
  | bell (q n : Nat)
  deriving DecidableEq, Repr

/-- Offset ÷ 8 of a register (R452). -/
def Reg.index : Reg → Nat
  | .pkg n => n
  | .die d n => (0x0100000 + 0x1000 * d) / 8 + n
  | .clu c n => (0x0200000 + 0x200 * c) / 8 + n
  | .core c => (0x0300000 + 0x100 * c) / 8
  | .link w => (0x0400000 + 0x40 * w) / 8
  | .ctx c n => (0x1000000 + 0x400 * c) / 8 + n
  | .queue q n => (0x2000000 + 0x40 * q) / 8 + n
  | .bell q n => (0x8000000 + 0x1000 * q) / 8 + n

/-- The register at an offset ÷ 8; none where the map names none. -/
def Reg.at? (i : Nat) : Option Reg :=
  let off := 8 * i
  if off < 0x0100000 then (if i < 37 then some (.pkg i) else none)
  else if off < 0x0108000 then
    (if i % 0x200 < 41 then some (.die ((off - 0x0100000) / 0x1000) (i % 0x200)) else none)
  else if off < 0x0200000 then none
  else if off < 0x0208000 then
    (if i % 0x40 < 4 then some (.clu ((off - 0x0200000) / 0x200) (i % 0x40)) else none)
  else if off < 0x0300000 then none
  else if off < 0x0320000 then
    (if off % 0x100 = 0 then some (.core ((off - 0x0300000) / 0x100)) else none)
  else if off < 0x0400000 then none
  else if off < 0x0400400 then
    (if off % 0x40 = 0 then some (.link ((off - 0x0400000) / 0x40)) else none)
  else if off < 0x1000000 then none
  else if off < 0x1010000 then
    (if i % 0x80 < 29 then some (.ctx ((off - 0x1000000) / 0x400) (i % 0x80)) else none)
  else if off < 0x2000000 then none
  else if off < 0x2004000 then
    (if i % 8 < 5 then some (.queue ((off - 0x2000000) / 0x40) (i % 8)) else none)
  else if off < 0x8000000 then none
  else if off < 0x8100000 then
    (if i % 0x200 < 3 then some (.bell ((off - 0x8000000) / 0x1000) (i % 0x200)) else none)
  else none

namespace Reg

def cwerr : Reg := .pkg 0
def pkrst : Reg := .pkg 1
def intst : Reg := .pkg 2
def inten : Reg := .pkg 3
def intmsg : Reg := .pkg 4
def pwrctl : Reg := .pkg 5
def pwrstat : Reg := .pkg 6
def clamp : Reg := .pkg 7
def mgstat : Reg := .pkg 8
def mbaddr : Reg := .pkg 9
def mbcmd : Reg := .pkg 10
def mgwin (n : Nat) : Reg := .pkg (11 + n)
def balctl : Reg := .pkg 15
def msinv (n : Nat) : Reg := .pkg (16 + n)
def rmidx : Reg := .pkg 19
def rmcan : Reg := .pkg 20
def rmsec : Reg := .pkg 21
def sidebase : Reg := .pkg 22
def accspill : Reg := .pkg 23
def stoptick : Reg := .pkg 24
def stopctl : Reg := .pkg 25
def snapctl : Reg := .pkg 26
def snaptick : Reg := .pkg 27
def dbgsel : Reg := .pkg 28
def dbgcmd : Reg := .pkg 29
def dbgstat : Reg := .pkg 30
def dbgaddr : Reg := .pkg 31
def dbgdata : Reg := .pkg 32
def cpbp (n : Nat) : Reg := .pkg (33 + n)
def thctl (d : Nat) : Reg := .die d 0
def thstat (d : Nat) : Reg := .die d 1
def msmerge : Reg := .die 0 2
def cjbase (d : Nat) : Reg := .die d 3
def cjhead (d : Nat) : Reg := .die d 4
def cjtail (d : Nat) : Reg := .die d 5
def cjctl (d : Nat) : Reg := .die d 6
def trbase (d : Nat) : Reg := .die d 7
def trhead (d : Nat) : Reg := .die d 8
def trtail (d : Nat) : Reg := .die d 9
def trctl (d : Nat) : Reg := .die d 10
def rtslot (d n : Nat) : Reg := .die d (9 + n)
def rqbase (c : Nat) : Reg := .clu c 0
def rqctl (c : Nat) : Reg := .clu c 1
def rqhead (c : Nat) : Reg := .clu c 2
def rqtail (c : Nat) : Reg := .clu c 3
def cxsched (c : Nat) : Reg := .ctx c 0
def ptbase (c : Nat) : Reg := .ctx c 1
def flctl (c : Nat) : Reg := .ctx c 2
def flbase (c : Nat) : Reg := .ctx c 3
def flhead (c : Nat) : Reg := .ctx c 4
def fltail (c : Nat) : Reg := .ctx c 5
def flhigh (c : Nat) : Reg := .ctx c 6
def flmap (c : Nat) : Reg := .ctx c 7
def fldiv (c n : Nat) : Reg := .ctx c (8 + n)
def fqbase (c : Nat) : Reg := .ctx c 16
def fqhead (c : Nat) : Reg := .ctx c 17
def fqtail (c : Nat) : Reg := .ctx c 18
def fqstat (c : Nat) : Reg := .ctx c 19
def fqack (c : Nat) : Reg := .ctx c 20
def cxsave (c : Nat) : Reg := .ctx c 21
def dbgctl (c : Nat) : Reg := .ctx c 22
def cxstat (c : Nat) : Reg := .ctx c 23
def cqbase (c : Nat) : Reg := .ctx c 24
def cqhead (c : Nat) : Reg := .ctx c 25
def cqtail (c : Nat) : Reg := .ctx c 26
def cxrpl (c : Nat) : Reg := .ctx c 27
def cxasid (c : Nat) : Reg := .ctx c 28
def sqbase (q : Nat) : Reg := .queue q 0
def sqctl (q : Nat) : Reg := .queue q 1
def sqhead (q : Nat) : Reg := .queue q 2
def sqtail (q : Nat) : Reg := .queue q 3
def sqwd (q : Nat) : Reg := .queue q 4

/-- Reset values (the register tables; notes/assumptions/1 where the specification gives none). The
fused ones are constants of the part (R460). -/
def resetValue (r : Reg) : Dword :=
  match r with
  | .pkg 5 => if Config.isModule then 2600 else 2400
  | .pkg 7 =>
    (0 : BitVec 16) ++ Config.lken ++ Config.vmax ++ Config.ttrip
      ++ (if Config.isModule then (2600 : BitVec 12) else 2400)
  | .pkg 8 => (0 : BitVec 42) ++ Config.fusedRbk ++ (0 : BitVec 15)
  | .pkg 15 => 0x11000
  | .die _ 0 => 0x5A5F
  | .die _ 2 => 16
  | .die _ 6 => 8
  | _ => 0

end Reg

/-- The value of a register. -/
def State.reg (s : State) (r : Reg) : Dword := (getKey s.ctl r.index).getD r.resetValue

/-- The value of a register as a number. -/
def State.regNat (s : State) (r : Reg) : Nat := (s.reg r).toNat

/-- Bits [lo + n - 1 : lo] of a register. -/
def State.field (s : State) (r : Reg) (lo n : Nat) : Nat := bitsOf (s.regNat r) lo n

def State.flag (s : State) (r : Reg) (i : Nat) : Bool := (s.reg r).getLsbD i

/-- Sets a register. -/
def State.setReg (s : State) (r : Reg) (v : Dword) : State :=
  { s with ctl := putKey s.ctl r.index v }

/-- A number with bits [lo + n - 1 : lo] replaced. -/
def replaceBits (x lo n v : Nat) : Nat :=
  x - bitsOf x lo n * 2 ^ lo + v % 2 ^ n * 2 ^ lo

/-- Sets bits [lo + n - 1 : lo] of a register. -/
def State.setField (s : State) (r : Reg) (lo n v : Nat) : State :=
  s.setReg r (BitVec.ofNat 64 (replaceBits (s.regNat r) lo n v))

/-- A refused access of the control window (R454): ERR is set, and the offset of the first refused
access since ERR was clear is kept. -/
def State.refuseAt (s : State) (off : Nat) : State :=
  if s.flag .cwerr 0 then s else s.setReg .cwerr (BitVec.ofNat 64 (1 + 16 * (off / 8 % 2 ^ 25)))

end Sys2Proof.Machine
end

