-- ==== Sys2Proof/Machine/Flags.lean ====
section
/-! DEFINITION. Number formats, rounding, conversions, the flags they raise, and the exact sums of
spec/03. Values are exact rationals until they are rounded once. -/

namespace Sys2Proof.Machine

/-! ## Flags (spec/01 R27) -/

def flagNX : Dword := 1
def flagUF : Dword := 2
def flagOF : Dword := 4
def flagDZ : Dword := 8
def flagNV : Dword := 16

/-- A result with the flags it raises. -/
abbrev Res := Nat × Dword

/-! ## Values -/

/-- A floating value: a NaN, signalling or quiet, an infinity, or a sign and a magnitude. -/
inductive FVal
  | nan (sig : Bool)
  | inf (neg : Bool)
  | fin (neg : Bool) (mag : Rat)
  deriving DecidableEq, Repr

/-- 2^e. -/
def pow2 (e : Int) : Rat := if 0 ≤ e then ((2 ^ e.toNat : Nat) : Rat) else mkRat 1 (2 ^ (-e).toNat)

/-- floor(log2 x) of a positive x. -/
def ilog2 (x : Rat) : Int :=
  let d : Int := (x.num.toNat.log2 : Int) - x.den.log2
  if x < pow2 d then d - 1 else d

/-- floor of the square root, by its bits from 2^(n-1) down. -/
def isqrtFrom (x : Nat) : (n : Nat) → (r : Nat) → Nat
  | 0, r => r
  | n + 1, r => isqrtFrom x n (if (r + 2 ^ n) * (r + 2 ^ n) ≤ x then r + 2 ^ n else r)

def isqrt (x : Nat) : Nat := isqrtFrom x (x.log2 / 2 + 1) 0

/-! ## Formats (spec/03 R78) -/

inductive FKind
  | ieee | e5 | e4 | e2
  deriving DecidableEq, Repr

/-- A floating format: exponent bits, fraction bits, bias and special encodings. -/
structure Fmt where
  e : Nat
  m : Nat
  bias : Nat
  kind : FKind
  deriving DecidableEq, Repr

namespace Fmt

def f64 : Fmt := ⟨11, 52, 1023, .ieee⟩
def f32 : Fmt := ⟨8, 23, 127, .ieee⟩
def f16 : Fmt := ⟨5, 10, 15, .ieee⟩
def bf16 : Fmt := ⟨8, 7, 127, .ieee⟩
def e5m2 : Fmt := ⟨5, 2, 15, .e5⟩
def e4m3 : Fmt := ⟨4, 3, 7, .e4⟩
def e2m1 : Fmt := ⟨2, 1, 1, .e2⟩

def width (f : Fmt) : Nat := 1 + f.e + f.m

/-- Exponent of the smallest normal. -/
def emin (f : Fmt) : Int := 1 - (f.bias : Int)

def signBit (f : Fmt) : Nat := 2 ^ (f.e + f.m)

/-- The bits of +infinity where the format has one. -/
def infBits (f : Fmt) : Nat := (2 ^ f.e - 1) * 2 ^ f.m

/-- The bits of the largest finite magnitude. -/
def maxBits (f : Fmt) : Nat :=
  match f.kind with
  | .ieee | .e5 => f.infBits - 1
  | .e4 | .e2 => 2 ^ (f.e + f.m) - 1 - (if f.kind = .e4 then 1 else 0)

/-- Whether overflow always saturates (R85). -/
def saturates (f : Fmt) : Bool := f.kind == .e4 || f.kind == .e2

/-- The canonical NaN (R79); zero for e2m1, which has none. -/
def nanBits (f : Fmt) : Nat :=
  match f.kind with
  | .ieee | .e5 => f.infBits + 2 ^ (f.m - 1)
  | .e4 => 0x7F
  | .e2 => 0

/-- The magnitude of finite encoding b, less its sign. -/
def magOf (f : Fmt) (b : Nat) : Rat :=
  let e := b / 2 ^ f.m
  let fr := b % 2 ^ f.m
  if e = 0 then (fr : Rat) * pow2 (f.emin - f.m)
  else ((2 ^ f.m + fr : Nat) : Rat) * pow2 ((e : Int) - f.bias - f.m)

/-- The value of an encoding (R78); `fz` flushes a subnormal input (R88). -/
def decode (f : Fmt) (fz : Bool) (x : Nat) : FVal :=
  let neg := x.testBit (f.e + f.m)
  let b := x % 2 ^ (f.e + f.m)
  let e := b / 2 ^ f.m
  let fr := b % 2 ^ f.m
  match f.kind with
  | .e4 => if b = 0x7F then .nan false else .fin neg (f.magOf b)
  | .e2 => .fin neg (f.magOf b)
  | .e5 =>
    if e = 2 ^ f.e - 1 then (if fr = 0 then .inf neg else .nan false) else .fin neg (f.magOf b)
  | .ieee =>
    if e = 2 ^ f.e - 1 then (if fr = 0 then .inf neg else .nan (fr < 2 ^ (f.m - 1)))
    else if e = 0 && fz then .fin neg 0
    else .fin neg (f.magOf b)

end Fmt

/-- The format of a scalar floating type. -/
def fmtOf : Ty → Option Fmt
  | .f64 => some .f64
  | .f32 => some .f32
  | .f16 | .f16x2 => some .f16
  | .bf16 | .bf16x2 => some .bf16
  | .e5m2 | .e5m2x4 | .mx8e5 => some .e5m2
  | .e4m3 | .e4m3x4 | .mx8e4 => some .e4m3
  | .e2m1 | .mx4 => some .e2m1
  | _ => none

/-- Whether %mode flushes subnormals of a format (R88). -/
def flushes (mode : Dword) (f : Fmt) : Bool :=
  match f.kind with
  | .ieee =>
    if f.e = 11 then mode.getLsbD 5
    else if f.m = 23 then mode.getLsbD 4
    else mode.getLsbD 3
  | _ => false

/-! ## Rounding (spec/03 R85, R86) -/

/-- A magnitude in some unit: 256 times it, rounded down, and whether that is inexact. -/
structure Split where
  t : Nat
  sticky : Bool

namespace Split

/-- Whole units. -/
def n (x : Split) : Nat := x.t / 256

def inexact (x : Split) : Bool := x.t % 256 != 0 || x.sticky

/-- Whether the magnitude rounds to the next unit (R85, R86). `dyn` does not occur as an effective
mode and rounds as RNE. -/
def up (x : Split) (rm : Rm) (neg : Bool) (r8 : Nat) : Bool :=
  let f := x.t % 256
  match rm with
  | .rne | .dyn => decide (128 < f) || (f == 128 && (x.sticky || x.n % 2 == 1))
  | .rna => decide (128 ≤ f)
  | .rtz => false
  | .rdn => x.inexact && neg
  | .rup => x.inexact && !neg
  | .rsr => decide (r8 < f)

/-- The rounded number of units. -/
def round (x : Split) (rm : Rm) (neg : Bool) (r8 : Nat) : Nat :=
  x.n + (if x.up rm neg r8 then 1 else 0)

/-- The split of a rational magnitude in units of 2^u. -/
def ofRat (mag : Rat) (u : Int) : Split :=
  let q := mag * pow2 (8 - u)
  { t := q.floor.toNat, sticky := q.den != 1 }

/-- The split of the square root of a rational magnitude in units of 2^u. -/
def ofSqrt (mag : Rat) (u : Int) : Split :=
  let q := mag * pow2 (16 - 2 * u)
  let t := isqrt q.floor.toNat
  { t := t, sticky := ((t * t : Nat) : Rat) != q }

end Split

/-- What rounding does besides rounding: SAT and the result flush of R88. -/
structure Finish where
  rm : Rm
  sat : Bool
  fz : Bool
  r8 : Nat

/-- The result of an overflow (R85). -/
def overflowTo (f : Fmt) (k : Finish) (neg : Bool) : Res :=
  let big : Bool := match k.rm with
    | .rne | .rna | .rsr | .dyn => true
    | .rtz => false
    | .rdn => neg
    | .rup => !neg
  let b := if big && !(k.sat || f.saturates) then f.infBits else f.maxBits
  ((if neg then f.signBit else 0) + b, flagOF ||| flagNX)

/-- Rounds a nonzero magnitude given by its exponent `e` and its splits to format f, once (R80), with
underflow detected after rounding and the result flush of R88. -/
def roundSplit (f : Fmt) (k : Finish) (neg : Bool) (e : Int) (sp : Int → Split) : Res :=
  let sb := if neg then f.signBit else 0
  let u := max e f.emin - f.m
  let x := sp u
  let steps := (u - (f.emin - f.m)).toNat * 2 ^ f.m
  let lo := steps + x.n
  let past := k.rm == .rsr && (decide (f.maxBits < lo) || (lo == f.maxBits && x.inexact))
  let b := steps + x.round k.rm neg k.r8
  if past || f.maxBits < b then overflowTo f k neg
  else
    let tiny : Bool := decide (e < f.emin) &&
      !(e == f.emin - 1 && (sp (e - f.m)).round k.rm neg k.r8 == 2 ^ (f.m + 1))
    if k.fz && b != 0 && decide (b < 2 ^ f.m) then (sb, flagUF ||| flagNX)
    else (sb + b, (if x.inexact then flagNX else 0) ||| (if x.inexact && tiny then flagUF else 0))

/-- Rounds a value to a format as an arithmetic result (R79, R80): an infinity stays. -/
def finish (f : Fmt) (k : Finish) : FVal → Res
  | .nan _ => (f.nanBits, 0)
  | .inf neg => ((if neg then f.signBit else 0) + f.infBits, 0)
  | .fin neg mag =>
    if mag = 0 then ((if neg then f.signBit else 0), 0)
    else roundSplit f k neg (ilog2 mag) (Split.ofRat mag)

/-- Adds flags to a result. -/
def addFlags (x : Res) (fl : Dword) : Res := (x.1, x.2 ||| fl)

/-! ## Exact operations (spec/03 R79, R91) -/

namespace FVal

def isNan : FVal → Bool
  | nan _ => true
  | _ => false

def isSig : FVal → Bool
  | nan s => s
  | _ => false

def neg? : FVal → Bool
  | nan _ => false
  | inf n => n
  | fin n _ => n

def negate : FVal → FVal
  | nan s => nan s
  | inf n => inf !n
  | fin n m => fin (!n) m

/-- The signed exact value of a finite one. -/
def toRat : FVal → Rat
  | fin n m => if n then -m else m
  | _ => 0

def ofRat (x : Rat) : FVal := if x < 0 then .fin true (-x) else .fin false x

/-- NV of signalling operands. -/
def sigFlag (l : List FVal) : Dword := if l.any isSig then flagNV else 0

/-- The exact sum of terms, with NV where it is invalid. An exact zero is -0 where every term is -0,
or under RDN unless every term is +0 (R79, R148). -/
def sum (rm : Rm) (l : List FVal) : FVal × Dword :=
  let s := sigFlag l
  if l.any isNan then (.nan false, s)
  else
    let p := l.any (· == .inf false)
    let n := l.any (· == .inf true)
    if p && n then (.nan false, flagNV)
    else if p then (.inf false, s)
    else if n then (.inf true, s)
    else
      let t := (l.map toRat).foldl (· + ·) 0
      if t ≠ 0 then (ofRat t, s)
      else if l.all fun x => x == .fin true 0 then (.fin (!l.isEmpty) 0, s)
      else if l.all fun x => x == .fin false 0 then (.fin false 0, s)
      else (.fin (rm == .rdn) 0, s)

/-- The exact product. -/
def mul (a b : FVal) : FVal × Dword :=
  let s := sigFlag [a, b]
  let n := a.neg? != b.neg?
  match a, b with
  | .nan _, _ | _, .nan _ => (.nan false, s)
  | .inf _, .inf _ => (.inf n, 0)
  | .inf _, .fin _ m | .fin _ m, .inf _ => if m = 0 then (.nan false, flagNV) else (.inf n, 0)
  | .fin _ x, .fin _ y => (.fin n (x * y), 0)

/-- The exact quotient. -/
def div (a b : FVal) : FVal × Dword :=
  let s := sigFlag [a, b]
  let n := a.neg? != b.neg?
  match a, b with
  | .nan _, _ | _, .nan _ => (.nan false, s)
  | .inf _, .inf _ => (.nan false, flagNV)
  | .inf _, .fin _ _ => (.inf n, 0)
  | .fin _ _, .inf _ => (.fin n 0, 0)
  | .fin _ x, .fin _ y =>
    if y = 0 then (if x = 0 then (.nan false, flagNV) else (.inf n, flagDZ))
    else (.fin n (x / y), 0)

/-- a ≤ b for values that are not NaN; -0 equals +0. -/
def le (a b : FVal) : Bool :=
  match a, b with
  | .inf true, _ => true
  | _, .inf false => true
  | .inf false, _ => false
  | _, .inf true => false
  | a, b => decide (a.toRat ≤ b.toRat)

def lt (a b : FVal) : Bool := !le b a

def eq (a b : FVal) : Bool := le a b && le b a

/-- a < b with -0 < +0 (R137). -/
def before (a b : FVal) : Bool := lt a b || (eq a b && a.neg? && !b.neg?)

end FVal

/-- A term added under its product's flags: a product and the addends of a fused sum. -/
def fusedSum (f : Fmt) (k : Finish) (prods : List (FVal × Dword)) (adds : List FVal) : Res :=
  let fl := prods.foldl (fun x p => x ||| p.2) (FVal.sigFlag adds)
  let s := FVal.sum k.rm (prods.map (·.1) ++ adds)
  addFlags (finish f k s.1) (fl ||| s.2)

/-- fma in the four forms of R136. -/
def fmaOf (f : Fmt) (k : Finish) (neg sub : Bool) (a b c : FVal) : Res :=
  let p := FVal.mul a b
  fusedSum f k [(if neg then p.1.negate else p.1, p.2)] [if sub then c.negate else c]

/-- fsqrt (R80, R91). -/
def sqrtOf (f : Fmt) (k : Finish) : FVal → Res
  | .nan s => (f.nanBits, if s then flagNV else 0)
  | .inf true => (f.nanBits, flagNV)
  | .inf false => (f.infBits, 0)
  | .fin neg mag =>
    if mag = 0 then ((if neg then f.signBit else 0), 0)
    else if neg then (f.nanBits, flagNV)
    else roundSplit f k false (ilog2 mag / 2) (Split.ofSqrt mag)

/-- frnd (R140): integral value in the effective mode. -/
def frndOf (f : Fmt) (k : Finish) : FVal → Res
  | .nan s => (f.nanBits, if s then flagNV else 0)
  | .inf neg => finish f k (.inf neg)
  | .fin neg mag =>
    let x := Split.ofRat mag 0
    let r : Rat := (x.round k.rm neg k.r8 : Nat)
    addFlags (finish f { k with fz := false } (.fin neg r)) (if x.inexact then flagNX else 0)

/-- fscl (R140). -/
def fsclOf (f : Fmt) (k : Finish) (a : FVal) (b : Int) : Res :=
  match a with
  | .nan s => (f.nanBits, if s then flagNV else 0)
  | .inf neg => finish f k (.inf neg)
  | .fin neg mag =>
    -- a scaling beyond the exponent range of every format gives the result of a bound of it
    finish f k (.fin neg (mag * pow2 (max (-4096) (min 4096 b))))

/-- fmin and fmax (R137): operand bits a and b with their values. -/
def fminmaxOf (f : Fmt) (isMax nan : Bool) (a b : Nat) : Res :=
  let x := f.decode false a
  let y := f.decode false b
  let s := FVal.sigFlag [x, y]
  if x.isNan && y.isNan then (f.nanBits, s)
  else if x.isNan then (if nan then f.nanBits else b, s)
  else if y.isNan then (if nan then f.nanBits else a, s)
  else if (FVal.before x y) != isMax then (a, s) else (b, s)

/-- fcmp (R138). -/
def fcmpOf (o : FcmpOp) (x y : FVal) : Bool × Dword :=
  let nan := x.isNan || y.isNan
  let sig := FVal.sigFlag [x, y]
  let any := if nan then flagNV else 0
  match o with
  | .eq => (!nan && FVal.eq x y, sig)
  | .ne => (nan || !FVal.eq x y, sig)
  | .lt => (!nan && FVal.lt x y, any)
  | .le => (!nan && FVal.le x y, any)
  | .gt => (!nan && FVal.lt y x, any)
  | .ge => (!nan && FVal.le y x, any)
  | .un => (nan, sig)
  | .ord => (!nan, sig)

/-- The class of an encoding, as a mask bit (R139). -/
def fclassOf (f : Fmt) (a : Nat) : Nat :=
  match f.decode false a with
  | .nan true => 0
  | .nan false => 1
  | .inf true => 2
  | .inf false => 9
  | .fin neg mag =>
    if mag = 0 then (if neg then 5 else 6)
    else if mag < pow2 f.emin then (if neg then 4 else 7)
    else if neg then 3 else 8

/-! ## Conversions (spec/03 R84, R89, R90) -/

/-- Rounds a positive finite value to e8m0 (R84). -/
def toE8m0 (rm : Rm) (r8 : Nat) : FVal → Res
  | .nan _ | .inf true => (0xFF, flagNV)
  | .inf false => (0xFE, flagNV)
  | .fin neg mag =>
    if mag = 0 || neg then (0xFF, flagNV)
    else
      let k := ilog2 mag
      let x := Split.ofRat (mag - pow2 k) k
      let up : Bool := match rm with
        | .rtz | .rdn => false
        | .rup => x.inexact
        | .rna => decide (128 ≤ x.t)
        | .rsr => decide (r8 < x.t)
        | .rne | .dyn => decide (128 < x.t) || (x.t == 128 && (x.sticky || (k + 127) % 2 == 1))
      let k' := if up then k + 1 else k
      if k' < -127 then (0x00, flagUF ||| flagNX)
      else if 127 < k' then (0xFE, flagOF ||| flagNX)
      else ((k' + 127).toNat, if x.inexact then flagNX else 0)

/-- The range of an integer type (R76). -/
def intRange (t : Ty) : Int × Int :=
  if t.signed then (-(2 ^ (t.bits - 1) : Nat), (2 ^ (t.bits - 1) : Nat) - 1)
  else (0, (2 ^ t.bits : Nat) - 1)

def clampTo (t : Ty) (x : Int) : Int := max (intRange t).1 (min (intRange t).2 x)

/-- A floating value to an integer type: clamped always (R89, R90). -/
def toInt (t : Ty) (rm : Rm) (r8 : Nat) : FVal → Res
  | .nan _ => (0, flagNV)
  | .inf neg => (ofSigned t.bits (if neg then (intRange t).1 else (intRange t).2), flagNV)
  | .fin neg mag =>
    let x := Split.ofRat mag 0
    let n : Int := (x.round rm neg r8 : Nat)
    let v := if neg then -n else n
    if v < (intRange t).1 || (intRange t).2 < v then (ofSigned t.bits (clampTo t v), flagNV)
    else (ofSigned t.bits v, if x.inexact then flagNX else 0)

/-- A floating value to a floating format (R89, R90); `k.sat` is SAT. -/
def toFloat (f : Fmt) (k : Finish) (x : FVal) : Res :=
  match x with
  | .nan s =>
    (f.nanBits, if s || f.saturates then flagNV else 0)
  | .inf neg =>
    let sb := if neg then f.signBit else 0
    if f.saturates then (sb + f.maxBits, flagNV)
    else if k.sat then (sb + f.maxBits, flagNX)
    else (sb + f.infBits, 0)
  | .fin _ _ => finish f k x

/-- The value of a scalar integer or float encoding, with the input flush of R88. -/
def valueOf (t : Ty) (mode : Dword) (x : Nat) : FVal :=
  match t with
  | .e8m0 => if x % 256 = 255 then .nan false else .fin false (pow2 ((x % 256 : Nat) - 127))
  | _ => match fmtOf t with
    | some f => f.decode (flushes mode f) x
    | none =>
      FVal.ofRat (if t.signed then (toSigned t.bits (x % 2 ^ t.bits) : Int)
        else ((x % 2 ^ t.bits : Nat) : Int))

/-- Whether a conversion between floating types is exact: it takes no draw and no result flush. -/
def widens (src dst : Ty) : Bool :=
  match src, fmtOf src, fmtOf dst with
  | .e8m0, _, _ => dst == .f64 || dst == .f32 || dst == .bf16
  | _, some a, some b => decide (a.e ≤ b.e) && decide (a.m ≤ b.m)
  | _, _, _ => false

/-- Whether a scalar conversion rounds, so that it takes a draw under RSR (R87). A conversion of a floating type to
itself is taken to be exact (notes/assumptions/20). -/
def convRounds (src dst : Ty) : Bool :=
  if src.isB || dst.isB then false
  else if src.isInt && dst.isInt then false
  else if src == dst then false
  else !widens src dst

/-- The conversion of a scalar encoding (R89). -/
def convert (src dst : Ty) (rm : Rm) (sat : Bool) (r8 : Nat) (mode : Dword) (x : Nat) : Res :=
  if src.isB || dst.isB then (x % 2 ^ dst.bits, 0)
  else if src.isInt && dst.isInt then
    let v : Int := if src.signed then toSigned src.bits (x % 2 ^ src.bits)
      else ((x % 2 ^ src.bits : Nat) : Int)
    let exact := src.signed == dst.signed && decide (src.bits ≤ dst.bits)
    (ofSigned dst.bits (if sat && !exact then clampTo dst v else v), 0)
  else
    let v := valueOf src mode x
    if dst == .e8m0 then
      addFlags (toE8m0 rm r8 v) (if v.isSig then flagNV else 0)
    else match fmtOf dst with
      | none => toInt dst rm r8 v
      | some f => toFloat f { rm := rm, sat := sat, fz := flushes mode f && !widens src dst, r8 := r8 } v

/-- ConvertSat (R90) of an exact value. -/
def convertSat (f : Fmt) (rm : Rm) (r8 : Nat) (x : FVal) : Res :=
  toFloat f { rm := rm, sat := true, fz := false, r8 := r8 } x

/-- QuantMX (R83): scale byte, element encodings and flags. -/
def quantMX (f : Fmt) (rm : Rm) (slices : List Nat) (xs : List FVal) : Nat × List Nat × Dword :=
  let emax : Int := match f.kind with
    | .e4 => 8
    | .e5 => 15
    | _ => 2
  if xs.any fun x => match x with | .fin _ _ => false | _ => true then
    (0xFF, xs.map fun _ => 0, flagNV)
  else
    let m := (xs.map fun x => match x with | .fin _ g => g | _ => 0).foldl max 0
    if m = 0 then (0, xs.map fun x => if x.neg? then f.signBit else 0, 0)
    else
      let e := min (max (ilog2 m - emax) (-127)) 127
      let rs := (xs.zip (slices ++ List.replicate xs.length 0)).map fun p =>
        convertSat f rm p.2 (match p.1 with
          | .fin n g => .fin n (g * pow2 (-e))
          | y => y)
      ((e + 127).toNat, rs.map (·.1), rs.foldl (fun a r => a ||| r.2) 0)

/-! ## Approximations (spec/03 R92; notes/assumptions/8) -/

/-- The special functions. -/
inductive SFn
  | sin | cos | ex2 | lg2 | rcp | rsq
  deriving DecidableEq, Repr

/-- Number of a function in Config.approx. -/
def SFn.code : SFn → Nat
  | sin => 0 | cos => 1 | ex2 => 2 | lg2 => 3 | rcp => 4 | rsq => 5

/-- Fixed-point scale of the enclosures below: 192 fraction bits. -/
def fixOne : Nat := 2 ^ 192

def fixMul (a b : Nat) : Nat := a * b / fixOne

/-- 2^f for the fraction f in fixed point: the product of 2^(2^-i) over the set bits of f. `c` is
the constant of the next bit. -/
def ex2Frac (f : Nat) : (n : Nat) → (i : Nat) → (c r : Nat) → Nat
  | 0, _, _, r => r
  | n + 1, i, c, r =>
    ex2Frac f n (i + 1) (isqrt (c * fixOne)) (if f.testBit (192 - i) then fixMul r c else r)

/-- log2 of m in [1, 2) in fixed point, bit by bit. -/
def lg2Frac : (n : Nat) → (m r : Nat) → Nat
  | 0, _, r => r
  | n + 1, m, r =>
    let q := fixMul m m
    if 2 * fixOne ≤ q then lg2Frac n (q / 2) (2 * r + 1) else lg2Frac n q (2 * r)

/-- floor(pi * 2^400). -/
def piBits : Nat := 0x3243f6a8885a308d313198a2e03707344a4093822299f31d0082efa98ec4e6c89452821e638d01377be5466cf34e90c6cc0ac

/-- The Taylor sum of sine (k = 1) or cosine (k = 0) at x in fixed point: `t` is the term last
added. -/
def sinTerms (x2 : Nat) : (n : Nat) → (k : Nat) → (t : Nat) → Int
  | 0, _, _ => 0
  | n + 1, k, t => (t : Int) - sinTerms x2 n (k + 2) (fixMul t x2 / ((k + 1) * (k + 2)))

/-- sin (`cos` false) or cos of a magnitude of at least 2^-40, in fixed point. -/
def sinFix (cos : Bool) (mag : Rat) : Int :=
  -- the angle in quarter turns and its remainder
  let q := (mag * ((2 ^ 401 : Nat) : Rat) / (piBits : Rat)).floor.toNat
  let r := mag - (q : Rat) * (piBits : Rat) / ((2 ^ 401 : Nat) : Rat)
  let x := (r * (fixOne : Rat)).floor.toNat
  let x2 := fixMul x x
  let s := sinTerms x2 40 1 x
  let c := sinTerms x2 40 0 fixOne
  let j := (q + if cos then 1 else 0) % 4
  if j = 0 then s else if j = 1 then c else if j = 2 then -s else -c

/-- The exact result of a special function of a finite operand that R92 gives no exact or special
result for, to far more places than its bound counts. -/
def SFn.real (o : SFn) (neg : Bool) (mag : Rat) : Rat :=
  let x := if neg then -mag else mag
  match o with
  | .rcp => 1 / x
  | .rsq =>
    let e := 2 * (ilog2 mag / 2)
    ((isqrt ((mag * pow2 (384 - e)).floor.toNat) : Nat) : Rat) / (mag * pow2 (192 - e / 2))
  | .ex2 =>
    let i := (max (-400) (min 400 x)).floor
    let f := ((max (-400) (min 400 x) - (i : Rat)) * (fixOne : Rat)).floor.toNat
    ((ex2Frac f 192 1 (isqrt (2 * fixOne * fixOne)) fixOne : Nat) : Rat) * pow2 (i - 192)
  | .lg2 =>
    let e := ilog2 mag
    let m := (mag * pow2 (192 - e)).floor.toNat
    (e : Rat) + ((lg2Frac 128 m 0 : Nat) : Rat) * pow2 (-128)
  | .sin =>
    if mag < pow2 (-40) then x * (1 - mag * mag / 6)
    else (if neg then -1 else 1) * ((sinFix false mag : Int) : Rat) * pow2 (-192)
  | .cos => if mag < pow2 (-40) then 1 - mag * mag / 2 else ((sinFix true mag : Int) : Rat) * pow2 (-192)

/-- The bound of R92, in ulp. -/
def SFn.ulps (o : SFn) (f : Fmt) : Nat :=
  if f.e = 5 then 1
  else match o with
    | .rcp => 1
    | _ => 2

/-- The finite magnitudes, as bits, within n ulp of a nonzero exact result. -/
def withinUlps (f : Fmt) (n : Nat) (y : Rat) : List Nat :=
  let mag := if y < 0 then -y else y
  let u := max (ilog2 mag) f.emin - f.m
  let b := (u - (f.emin - f.m)).toNat * 2 ^ f.m + (Split.ofRat mag u).n
  ((List.range (3 * n + 2)).map fun i => b + i - 2 * n).filter fun c =>
    decide (c ≤ f.maxBits) &&
      decide ((if f.magOf c < mag then mag - f.magOf c else f.magOf c - mag)
        ≤ (n : Rat) * pow2 u)

/-- Exact results of R92 for finite nonzero operands: powers of two. -/
def SFn.exact (o : SFn) (f : Fmt) (neg : Bool) (mag : Rat) : Option Rat :=
  let isPow := pow2 (ilog2 mag) = mag
  match o with
  | .ex2 => if mag.den = 1 then
      let r := pow2 (max (-400) (min 400 (if neg then -mag.num else mag.num)))
      if pow2 (f.emin - f.m) ≤ r && r ≤ f.magOf f.maxBits then some r else none
    else none
  | .lg2 => if isPow then some (ilog2 mag : Int) else none
  | .rcp => if isPow && pow2 f.emin ≤ 1 / mag && 1 / mag ≤ f.magOf f.maxBits then
      some (if neg then -(1 / mag) else 1 / mag) else none
  | .rsq => if isPow && ilog2 mag % 2 = 0 then some (pow2 (-(ilog2 mag / 2))) else none
  | _ => none

/-- A special function (R92) of an encoding: only NV, DZ and OF are raised. Where R92 gives a bound,
the result is one of the values within it, the same for every use of the operand. -/
def specialOf (o : SFn) (t : Ty) (f : Fmt) (fz : Bool) (bits : Nat) : Res :=
  let flush (b : Nat) : Nat :=
    if fz && decide (b % 2 ^ (f.e + f.m) < 2 ^ f.m) then b / 2 ^ (f.e + f.m) * 2 ^ (f.e + f.m) else b
  let x := f.decode fz bits
  match x with
  | .nan s => (f.nanBits, if s then flagNV else 0)
  | .inf neg => match o with
    | .sin | .cos => (f.nanBits, flagNV)
    | .ex2 => if neg then (0, 0) else (f.infBits, 0)
    | .lg2 => if neg then (f.nanBits, flagNV) else (f.infBits, 0)
    | .rcp => (if neg then f.signBit else 0, 0)
    | .rsq => if neg then (f.nanBits, flagNV) else (0, 0)
  | .fin neg mag =>
    let sb := if neg then f.signBit else 0
    if mag = 0 then match o with
      | .sin => (sb, 0)
      | .cos | .ex2 => (f.bias * 2 ^ f.m, 0)
      | .lg2 => (f.signBit + f.infBits, flagDZ)
      | .rcp | .rsq => (sb + f.infBits, flagDZ)
    else if neg && (o == .lg2 || o == .rsq) then (f.nanBits, flagNV)
    else match o.exact f neg mag with
      | some y =>
        (flush (finish f { rm := .rne, sat := false, fz := false, r8 := 0 } (FVal.ofRat y)).1, 0)
      | none =>
        let y := o.real neg mag
        let s := if y < 0 then f.signBit else 0
        let a := if y < 0 then -y else y
        if f.magOf f.maxBits < a then (s + f.infBits, flagOF)
        else
          let l := withinUlps f (o.ulps f) y
          let b := l.getD ((Config.approx o.code t.bits (BitVec.ofNat 64 bits)).toNat % l.length) 0
          (flush (s + b), 0)

/-! ## Matrix sums (spec/03 R94) -/

/-- RNE with no flush. -/
def rne : Finish := { rm := .rne, sat := false, fz := false, r8 := 0 }

/-- One block of R94: the accumulator with the exact sum of the block's products. -/
def matBlock (f : Fmt) (acc : Nat) (prods : List FVal) : Nat :=
  let s := (FVal.sum .rne (.fin false 0 :: prods)).1
  let r := f.decode false (finish f rne s).1
  (finish f rne (FVal.sum .rne [f.decode false acc, r]).1).1

/-- MatSum over the products in ascending k, in blocks of p (R94). -/
def matSum (f : Fmt) (p : Nat) (acc : Nat) (prods : List FVal) : (blocks : Nat) → Nat
  | 0 => acc
  | n + 1 => matSum f p (matBlock f acc (prods.take p)) (prods.drop p) n

/-- A product of two elements under their scales (R82, R94). -/
def scaledProduct (a b : FVal) (sa sb : FVal) : FVal :=
  (FVal.mul (FVal.mul a sa).1 (FVal.mul b sb).1).1

/-! ## Update-only accumulators (spec/03 R95) -/

/-- The unit exponent and width of an accumulator. -/
def accUnit (f : Fmt) : Int := f.emin - f.m

def accWidth (f : Fmt) : Nat := if f.e = 5 then 96 else 320

/-- A finite value in units of the type's least subnormal. -/
def accOf (f : Fmt) (x : FVal) : Int := (x.toRat * pow2 (-accUnit f)).floor

/-- The value written when an episode ends. -/
def accExit (f : Fmt) (acc : Int) (pinf ninf nan : Bool) : Nat :=
  if nan || (pinf && ninf) then f.nanBits
  else if pinf then f.infBits
  else if ninf then f.signBit + f.infBits
  else (finish f rne (FVal.ofRat ((acc : Rat) * pow2 (accUnit f)))).1

end Sys2Proof.Machine
end

