-- ==== Sys2Proof/Machine/Access.lean ====
section
/-! DEFINITION. Looking up waves, crews, tasks and contexts; interrupts (spec/17 R456); translation
(spec/10 R289 to R295); and the accesses every unit makes to global memory, with versions
(spec/09 R279), the caches and their directory (spec/10 R285, R286, R300), update-only episodes (R301), merge groups
(R298) and access counters (R297). -/

namespace Sys2Proof.Machine

/-! ## Waves, crews, tasks, contexts -/

def State.wave? (s : State) (id : Nat) : Option Wave := s.waves.find? fun w => w.id == id

def State.setWave (s : State) (w : Wave) : State :=
  { s with waves := s.waves.map fun x => if x.id == w.id then w else x }

/-- The wave in a wave slot of a core. -/
def State.waveAt? (s : State) (core wslot : Nat) : Option Wave :=
  s.waves.find? fun w => w.core == core && w.wslot == wslot

def State.crew? (s : State) (id : Nat) : Option Crew := s.crews.find? fun c => c.id == id

def State.setCrew (s : State) (c : Crew) : State :=
  { s with crews := s.crews.map fun x => if x.id == c.id then c else x }

def State.task? (s : State) (id : Nat) : Option Task := s.tasks.find? fun t => t.id == id

def State.setTask (s : State) (t : Task) : State :=
  { s with tasks := s.tasks.map fun x => if x.id == t.id then t else x }

def State.updTask (s : State) (id : Nat) (f : Task → Task) : State :=
  { s with tasks := s.tasks.map fun x => if x.id == id then f x else x }

/-- Adds to a counter of a task's attempt (spec/16 R447). -/
def State.stat (s : State) (task i n : Nat) : State :=
  if n = 0 then s
  else s.updTask task fun t => { t with stats := updAt t.stats i (· + n) }

def State.ctx (s : State) (c : Nat) : Ctx := getAt s.ctxs c .reset

def State.setCtx (s : State) (c : Nat) (x : Ctx) : State := { s with ctxs := s.ctxs.set c x }

def State.die (s : State) (d : Nat) : Die := getAt s.dies d .reset

def State.setDie (s : State) (d : Nat) (x : Die) : State := { s with dies := s.dies.set d x }

def State.cluster (s : State) (c : Nat) : Cluster := getAt s.clusters c .reset

def State.setCluster (s : State) (c : Nat) (x : Cluster) : State :=
  { s with clusters := s.clusters.set c x }

def State.subq (s : State) (q : Nat) : SubQ := getAt s.queues q .reset

def State.setSubq (s : State) (q : Nat) (x : SubQ) : State := { s with queues := s.queues.set q x }

/-- Core number of a die, cluster and core (spec/00 R1), and back. -/
def coreNo (die clu core : Nat) : Nat := die * 64 + clu * 8 + core

/-- The home of a canonical address (spec/10 R287). -/
def homeOf (asid va : Nat) : Nat :=
  (bitsOf va 6 3 ^^^ bitsOf va 16 3 ^^^ bitsOf va 26 3) * 64
    + (bitsOf va 9 6 ^^^ bitsOf va 19 6 ^^^ bitsOf asid 0 6)

def dieOf (core : Nat) : Nat := core / 64
def clusterOf (core : Nat) : Nat := core / 8

/-- The ASID of a context slot (spec/10 R309). -/
def State.asid (s : State) (c : Nat) : Nat := s.field (.cxasid c) 0 16

/-- %ctx of a context slot (spec/01 R32, spec/09 R275, spec/13 R364). -/
def State.ctxWord (s : State) (c : Nat) : Nat :=
  s.asid c + c * 2 ^ 16 + (if s.flag (.cxsched c) 1 then 2 ^ 22 else 0)
    + (if s.flag (.flctl c) 1 then 2 ^ 23 else 0)

/-! ## Interrupts (spec/17 R456) -/

/-- Writes of the device to host memory: whole, without codes (spec/11 R312). -/
def State.hostWrite (s : State) (pa : Nat) (bs : List Byte) : State :=
  { s with hostMem := s.hostMem.put pa bs }

/-- Sets bits of INTST; the enabled ones that rise are sent to the host. -/
def State.raise (s : State) (bits : Dword) : State :=
  let old := s.reg .intst
  let s1 := s.setReg .intst (old ||| bits)
  let rise := (bits &&& ~~~old) &&& s.reg .inten
  if rise = 0 then s1
  else s1.hostWrite (s.field .intmsg 2 50 * 4) (leBytes 4 rise.toNat)

/-- A refused access of the control window (R454, R456). -/
def State.cwRefuse (s : State) (off : Nat) : State :=
  if s.flag .cwerr 0 then s else (s.refuseAt off).raise 0x100

/-! ## Translation (spec/10 R289 to R292, R295, R304) -/

/-- Who accesses: a context slot, with or without privilege, what it does, and the core whose first-level cache
takes the line, if any. -/
structure Acc where
  ctx : Nat
  prv : Bool
  write : Bool
  fetch : Bool := false
  core : Option Nat := none

/-- A translated address: the place, its address there, the leaf, the canonical name, and the core whose first-level
cache may hold it. -/
structure Phys where
  place : Place
  pa : Nat
  leaf : Leaf
  asid : Nat
  va : Nat
  via : Option Nat := none

/-- The trap of an access (spec/16 R426). -/
def accTrap (c : Cause) (a : Acc) (asid va : Nat) (space : Nat) (level : Option Nat)
    (pa : Nat) : Trap :=
  { cause := c, addr := BitVec.ofNat 64 va,
    aux0 := BitVec.ofNat 64 (space + (if a.write then 8 else 0) + (if a.fetch then 16 else 0)
      + (match level with | some l => 32 + 64 * l | none => 0) + asid * 256),
    aux1 := BitVec.ofNat 64 pa }

/-- The trap of a granule that does not match (spec/11 R324, spec/16 R426). -/
def mismatchTrap (e : Mismatch) (unit : Nat) (addr asid space pa : Nat) : Trap :=
  { cause := .checkMismatch, unit := unit, addr := BitVec.ofNat 64 addr,
    aux0 := BitVec.ofNat 64 (e.stored.toNat + 256 * e.computed.toNat + 2 ^ 16 * space
      + 2 ^ 32 * asid),
    aux1 := BitVec.ofNat 64 pa }

/-- The same at the granule of an access within one line: `addr` is the access's own address, and `pa` its
physical one, or 0. -/
def lineTrap (e : Mismatch) (unit : Nat) (addr asid space pa : Nat) : Trap :=
  let at' (a : Nat) : Nat := a / 64 * 64 + e.addr % 64
  mismatchTrap e unit (at' addr) asid space (if pa = 0 then 0 else at' pa)

/-- The fields of a leaf entry (R290). -/
def leafOf (e : Nat) (large : Bool) : Leaf :=
  { w := bitOf e 3, x := bitOf e 4,
    kind := if bitsOf e 5 2 = 0 then .so else if bitsOf e 5 2 = 1 then .rc else .uo,
    sealed := bitOf e 7, cnt := bitOf e 8, loc := bitOf e 9, prv := bitOf e 10, large := large,
    frame := bitsOf e 16 36 }

/-- Check 2 of R291: the format of an entry at a level. -/
def entryFormatOk (e level : Nat) : Bool :=
  let lf := bitOf e 1
  if lf then
    decide (level ≤ 1) && bitsOf e 11 5 = 0 && bitsOf e 5 2 ≠ 3
      && (level = 0 || bitsOf e 16 10 = 0)
  else decide (level ≠ 0) && bitsOf e 3 10 = 0

/-- A walk from a table at `level` downward, `n` = level + 1 levels at most (R289, R291 checks 1
to 3): the leaf, or the cause with the level and the entry's address. -/
def walkFrom (s : State) (va : Nat) : (n : Nat) → (table : Nat) →
    Except (Cause × Nat × Nat × Option Mismatch) Leaf
  | 0, _ => .error (.format, 0, 0, none)
  | n + 1, table =>
    let pa := table + 8 * bitsOf va (16 + 10 * n) 10
    if 2 ^ 40 ≤ pa then .error (.protection, n, pa, none)
    else match s.readAt .dev pa 8 with
      | .error e => .error (.checkMismatch, n, pa, some e)
      | .ok bs =>
        let e := leNat bs
        if !bitOf e 0 then .error (.protection, n, pa, none)
        else if !entryFormatOk e n then .error (.format, n, pa, none)
        else if !bitOf e 2 then .error (.pageNotPresent, n, pa, none)
        else if bitOf e 1 then
          if !bitOf e 9 && decide (2 ^ 24 ≤ bitsOf e 16 36) then .error (.protection, n, pa, none)
          else .ok (leafOf e (n == 1))
        else walkFrom s va n (bitsOf e 13 39 * 2 ^ 13)

/-- The resident slot that holds an ASID, preferring the accessing one. -/
def State.slotOf (s : State) (c asid : Nat) : Option Nat :=
  if s.asid c = asid then some c
  else (List.range 64).find? fun k => s.flag (.cxsched k) 0 && s.asid k == asid

/-- A fresh walk for a canonical page (R289): PTBASE.EN = 0 is PROTECTION. -/
def State.walk (s : State) (a : Acc) (c asid va : Nat) : Except Trap Leaf :=
  if !s.flag (.ptbase c) 0 then .error (accTrap .protection a asid va 0 none 0)
  else match walkFrom s va 4 (s.field (.ptbase c) 13 39 * 2 ^ 13) with
    | .ok l => .ok l
    | .error (.checkMismatch, _, pa, some e) =>
      .error (mismatchTrap e 11 va asid 0 pa)
    | .error (c', l, _, _) => .error (accTrap c' a asid va 0 (some l) 0)

/-- The canonical name of a page (R295): ASID, address, and whether writes and fetches pass. -/
def State.canonical (s : State) (asid va : Nat) : Nat × Nat × Bool × Bool :=
  match s.remap.find? fun r => r.sasid == asid && r.svpn == va / 2 ^ 16 with
  | some r => (r.casid, r.cvpn * 2 ^ 16 + va % 2 ^ 16, r.w, r.x)
  | none => (asid, va, true, true)

/-- A core's own copy of a line. -/
def State.coreLine? (s : State) (core : Option Nat) (asid line : Nat) : Option CoreLine :=
  core.bind fun c => s.coreLines.find? fun l => l.core == c && l.asid == asid && l.line == line

/-- The line of the last-level cache. -/
def State.line? (s : State) (asid line : Nat) : Option Line :=
  s.lines.find? fun l => l.asid == asid && l.line == line

/-- The leaf an access uses (R286, R292): that of the copy it hits, in the core's cache, the last level or among the
cached walks. One that differs from what a walk finds is used until an invalidation covers it, unless it has left its
cache by then. -/
def State.leafFor (s : State) (a : Acc) (c asid va : Nat) : Except Trap Leaf :=
  let fresh := s.walk a c asid va
  let kept (k : Nat) (l : Option Leaf) : Option Leaf := l.filter fun l =>
    (match fresh with
      | .ok f => f != l
      | .error _ => true) && Config.freeChoice (s.freeN * 2 ^ 64 + 4 * va + k)
  match kept 2 ((s.coreLine? a.core asid (va / 64)).map (·.leaf)),
      kept 0 ((s.line? asid (va / 64)).map (·.leaf)),
      kept 1 ((s.walks.find? fun w => w.asid == asid && w.vpn == va / 2 ^ 16).map (·.leaf)) with
  | some l, _, _ => .ok l
  | none, some l, _ => .ok l
  | none, none, some l => .ok l
  | none, none, none => fresh

/-- The name an access goes on under (R295, R296): a line that the core holds under a secondary's own name, from before
its entry was committed, is hit until it leaves the cache. -/
def State.nameFor (s : State) (a : Acc) (asid va : Nat) : Nat × Nat × Bool × Bool :=
  if (s.remap.any fun r => r.sasid == asid && r.svpn == va / 2 ^ 16) && (s.coreLine? a.core asid (va / 64)).isSome
      && Config.freeChoice (s.freeN * 2 ^ 64 + 4 * va + 3) then
    (asid, va, true, true)
  else s.canonical asid va

/-- The physical address of a leaf and an address. -/
def Leaf.pa (l : Leaf) (va : Nat) : Nat :=
  l.frame * 2 ^ 16 + (if l.large then va % 2 ^ 26 else va % 2 ^ 16)

/-- The link window of a physical address (R304, R308): peer, port and context. -/
def State.linkAt (s : State) (pa : Nat) : Option (Bool × Nat × Nat) :=
  match (List.range 16).find? fun w =>
      s.flag (.link w) 0 && decide (s.field (.link w) 16 24 * 2 ^ 28 ≤ pa)
        && decide (pa < (s.field (.link w) 16 24 + s.field (.link w) 40 16) * 2 ^ 28) with
  | none => none
  | some w => some (s.flag (.link w) 1, s.field (.link w) 2 5, s.field (.link w) 56 6)

/-- Translation with the checks of R291 in their order, and the route of R304. A synonym access is not allocated in
the first level (R295), and neither is one to an SO page, performed at its home (spec/09 R263). -/
def State.translate (s : State) (a : Acc) (va : Nat) : Except Trap Phys :=
  let asid := s.asid a.ctx
  let (ca, cva, w, x) := s.nameFor a asid va
  let via (l : Leaf) : Option Nat := if ca = asid && cva = va && l.kind != .so then a.core else none
  if (a.write && !w) || (a.fetch && !x) then .error (accTrap .protection a asid va 0 none 0)
  else match s.slotOf a.ctx ca with
  | none => .error (accTrap .protection a asid va 0 none 0)
  | some c => match s.leafFor a c ca cva with
    | .error t => .error { t with addr := BitVec.ofNat 64 va }
    | .ok l =>
      let pa := l.pa cva
      if l.prv && !a.prv then .error (accTrap .protection a asid va 0 none pa)
      else if (a.write && !l.w) || (a.fetch && !l.x) then
        .error (accTrap .protection a asid va 0 none pa)
      else if a.write && l.sealed then .error (accTrap .sealedWrite a asid va 0 none pa)
      else if !l.loc then .ok { place := .dev, pa := pa, leaf := l, asid := ca, va := cva, via := via l }
      else match s.linkAt pa with
        | none => .error (accTrap .protection a asid va 0 none pa)
        | some (peer, port, _) =>
          if s.links.getLsbD (port + if peer then 4 else 0) then
            .ok { place := if peer then .peer else .host, pa := pa, leaf := l, asid := ca, va := cva
                  via := if peer then none else via l }
          else .error { cause := .linkError, addr := BitVec.ofNat 64 va,
                        aux0 := BitVec.ofNat 64 (port + if peer then 32 else 0) }

/-- A trap as a unit reports it; a mismatch is the walker's (spec/16 R425, spec/11 R324). -/
def Trap.atUnit (t : Trap) (unit : Nat) : Trap :=
  if t.cause == .checkMismatch then t else { t with unit := unit }

/-! ## Access counters and cached names (spec/10 R286, R297) -/

/-- Counts one device-memory access in the side table (R297): `k` is 0 for a fill, 1 for a
write-back. -/
def State.count (s : State) (p : Phys) (k : Nat) : State :=
  if !(s.flag .sidebase 0 && p.leaf.cnt && !p.leaf.loc && p.place == .dev) then s
  else
    let e := s.field .sidebase 16 36 * 2 ^ 16 + p.pa / 2 ^ 16 * 16
    let home := homeOf p.asid p.va / 64
    let stack := bitsOf p.pa 8 4 ^^^ bitsOf p.pa 16 4
    let old := s.bytesAt .dev e 16
    let inc (off : Nat) (yes : Bool) : List Byte :=
      let v := fieldOf old off 4
      leBytes 4 (if yes then min (v + 1) 0xFFFFFFFF else v)
    s.putAt .dev e (inc 0 (k == 0) ++ inc 4 (k == 1) ++ inc 8 (home != stack / 2) ++ leBytes 4 home)

/-! ## The caches (spec/10 R285, R286, R299, R300) -/

/-- The place of a cached line. -/
def State.linePhys (s : State) (l : Line) : Phys :=
  let pa := l.leaf.pa (l.line * 64)
  let pl : Place := if l.leaf.loc then (match s.linkAt pa with
    | some (true, _, _) => .peer
    | _ => .host) else .dev
  { place := pl, pa := pa, leaf := l.leaf, asid := l.asid, va := l.line * 64 }

/-- Whether a line's home can write it back: a host line needs its port (R307). -/
def State.writable (s : State) (l : Line) : Bool :=
  let p := s.linePhys l
  !l.dirty || p.place == .dev || (match s.linkAt p.pa with
    | some (peer, port, _) => s.links.getLsbD (port + if peer then 4 else 0)
    | none => true)

/-- The directory of a line is what its tracked copies are (R300). -/
def State.direct (s : State) (asid line : Nat) : State :=
  let held := s.coreLines.filter fun k => k.asid == asid && k.line == line && k.state != .untracked
  let is (x : LineState) : Bool := held.any fun k => k.state == x
  { s with lines := s.lines.map fun l => if l.asid == asid && l.line == line then
      { l with
        dirty := l.dirty || is .modified
        dir := if is .modified then some .modified else if is .exclusive then some .exclusive
          else if is .shared then some .shared
          else if l.leaf.sealed && s.coreLines.any fun k => k.asid == asid && k.line == line then some .untracked
          else none
        dies := held.foldl (fun d k => d ||| (1 : BitVec 8) <<< dieOf k.core) 0 }
      else l }

/-- Copies of a line in the first levels of cores other than one leave them (R299). -/
def State.recall (s : State) (asid line : Nat) (keep : Option Nat) : State :=
  ({ s with coreLines := s.coreLines.filter fun k =>
      !(k.asid == asid && k.line == line && k.state != .untracked && some k.core != keep) } : State).direct asid line

/-- A read by another core leaves an owner a clean shared copy (R300). -/
def State.demote (s : State) (asid line : Nat) (keep : Option Nat) : State :=
  { s with coreLines := s.coreLines.map fun k =>
      if k.asid == asid && k.line == line && k.state != .untracked && some k.core != keep then { k with state := .shared }
      else k }

/-- A line leaves the last-level cache, its tracked copies with it; a dirty one is written back, and counted. -/
def State.evictLine (s : State) (l : Line) : State :=
  let s1 := s.recall l.asid l.line none
  let l1 := (s1.line? l.asid l.line).getD l
  let s2 := { s1 with lines := s1.lines.filter fun k => !(k.asid == l.asid && k.line == l.line) }
  if l1.dirty then s2.count (s.linePhys l) 1 else s2

/-- Room for one more line in a slice of 2 MiB: one of the lines it can write back leaves, chosen freely (R285). -/
def State.sliceRoom (s : State) (home : Nat) : State :=
  if s.lines.length < 32768 then s
  else
    let ls := s.lines.filter fun l => homeOf l.asid (l.line * 64) == home
    let out := ls.filter fun l => s.writable l
    if ls.length < 32768 then s
    else match out[(s.fresh (2 ^ 59 + home)).toNat % out.length]? with
      | some l => s.evictLine l
      | none => s

/-- Room for one more line in a first-level cache of 384 KiB: one of its lines leaves, chosen freely (R285). -/
def State.coreRoom (s : State) (core : Nat) : State :=
  if s.coreLines.length < 6144 then s
  else
    let ls := s.coreLines.filter fun k => k.core == core
    if ls.length < 6144 then s
    else match ls[(s.fresh (2 ^ 59 + 512 + core)).toNat % 6144]? with
      | some k => ({ s with coreLines := s.coreLines.filter fun x => x != k } : State).direct k.asid k.line
      | none => s

/-- A core takes a copy of a line from its home (R300). -/
def State.allocate (s : State) (p : Phys) (write : Bool) : State :=
  let ln := p.va / 64
  match p.via with
  | none => s.direct p.asid ln
  | some c =>
    let rest := s.coreLines.filter fun k => !(k.core == c && k.asid == p.asid && k.line == ln)
    let s1 := ({ s with coreLines := rest } : State).coreRoom c
    let alone := !(rest.any fun k => k.asid == p.asid && k.line == ln)
    let st : LineState := if write then .modified else if p.leaf.sealed then .untracked
      else if alone then .exclusive else .shared
    ({ s1 with coreLines := ⟨c, p.asid, ln, p.leaf, st⟩ :: s1.coreLines } : State).direct p.asid ln

/-! ## Merge groups (R298) -/

/-- A read request at a line's home joins the line's merge group; one that misses opens a group. A full group
closes. -/
def State.mergeRead (s : State) (p : Phys) (miss : Bool) : State :=
  if s.field .msmerge 0 8 = 0 then s
  else if s.merges.any fun m => m.asid == p.asid && m.line == p.va / 64 then
    let ms := s.merges.map fun m =>
      if m.asid == p.asid && m.line == p.va / 64 then { m with size := m.size + 1 } else m
    { s with merges := ms.filter fun m => decide (m.size < 64) }
  else if miss then { s with merges := s.merges ++ [{ asid := p.asid, line := p.va / 64, opened := s.tick, size := 1 }] }
  else s

/-- A write, ownership or read-modify-write request closes the line's merge group. -/
def State.mergeWrite (s : State) (p : Phys) : State :=
  { s with merges := s.merges.filter fun m => !(m.asid == p.asid && m.line == p.va / 64) }

/-- An old copy whose attributes an access did not use has left by now (R286). -/
def State.dropOld (s : State) (p : Phys) : State :=
  match s.line? p.asid (p.va / 64) with
  | some l => if l.leaf == p.leaf then s else s.evictLine l
  | none => s

/-- A line is filled, through a walk that is cached, and the fill is counted. -/
def State.fillLine (s : State) (p : Phys) : State :=
  ({ s with
    lines := ⟨p.asid, p.va / 64, p.leaf, false, none, 0⟩ :: s.lines
    walks := if s.walks.any fun w => w.asid == p.asid && w.vpn == p.va / 2 ^ 16 && w.leaf == p.leaf then s.walks
      else ⟨p.asid, p.va / 2 ^ 16, p.leaf⟩
        :: s.walks.filter fun w => !(w.asid == p.asid && w.vpn == p.va / 2 ^ 16) } : State).count p 0

/-- A write of a line reaches its home: other copies leave, and the line is newer than memory. -/
def State.own (s : State) (p : Phys) : State :=
  let s1 := (s.mergeWrite p).recall p.asid (p.va / 64) p.via
  { s1 with lines := s1.lines.map fun l =>
      if l.asid == p.asid && l.line == p.va / 64 then { l with dirty := true } else l }

/-- An access at a line's home; one that misses fills the line. -/
def State.atHome (s : State) (p : Phys) (write : Bool) : State :=
  let s0 := s.dropOld p
  let miss := (s0.line? p.asid (p.va / 64)).isNone
  let s1 := if miss then (s0.sliceRoom (homeOf p.asid p.va)).fillLine p else s0
  if write then s1.own p else (s1.mergeRead p miss).demote p.asid (p.va / 64) p.via

/-- What an access does to the caches: a hit in the core's own cache that needs nothing of the line's home, or a
request there. Peer memory is never cached (R304). -/
def State.touch (s : State) (p : Phys) (write : Bool) : State :=
  if p.place == .peer then s
  else match s.coreLine? p.via p.asid (p.va / 64) with
  | none => (s.atHome p write).allocate p write
  | some k =>
    if k.leaf == p.leaf && !write then s
    else if k.leaf == p.leaf && (k.state == .modified || k.state == .exclusive) then
      (State.direct { s with coreLines := s.coreLines.map fun x => if x == k then { x with state := .modified } else x }
        p.asid (p.va / 64))
    else (s.atHome p write).allocate p write

/-! ## Update-only lines (spec/03 R95, spec/10 R301) -/

/-- Bytes of an element of an update-only line. -/
def UpLine.elemBytes (u : UpLine) : Nat := u.ty.bits / 8

/-- Whether a sum lies in the accumulator's range (R95). -/
def accFits (f : Fmt) (x : Int) : Bool :=
  decide (-(2 ^ (accWidth f - 1) : Nat) ≤ x) && decide (x < (2 ^ (accWidth f - 1) : Nat))

/-- The bits an episode writes to an element; UNDEFINED where the sum left the range (R95). -/
def State.upBits (s : State) (f : Fmt) (e : UpElem) : Nat :=
  if e.pinf || e.ninf || e.nan || accFits f e.acc then accExit f e.acc e.pinf e.ninf e.nan
  else (s.fresh (2 ^ 50 + e.idx)).toNat % 2 ^ f.width

/-- Writes the elements of an episode and removes its line. -/
def State.endUp (s : State) (u : UpLine) : State :=
  let f := (fmtOf u.ty).getD .f32
  u.elems.foldl (fun s e =>
      s.putAt u.place (u.pa + e.idx * u.elemBytes) (leBytes u.elemBytes (s.upBits f e)))
    { s with up := s.up.filter fun x => !(x.place == u.place && x.pa == u.pa) }

/-- The update-only line of a location. -/
def State.upAt (s : State) (pl : Place) (pa : Nat) : Option UpLine :=
  s.up.find? fun u => u.place == pl && u.pa == pa / 64 * 64

/-- Ends the episode of a line, if one is on it. -/
def State.leaveUp (s : State) (pl : Place) (pa : Nat) : State :=
  match s.upAt pl pa with
  | some u => s.endUp u
  | none => s

/-! ## Versions (spec/09 R279) -/

/-- The key of a canonical address in a task's version. -/
def Phys.key (p : Phys) : Nat := p.asid * 2 ^ 56 + p.va

/-- What a version's unlisted addresses read as: the location itself. A granule is right where the
location's granule is. -/
def State.under (s : State) (v : Memory) (p : Phys) : Fill :=
  let m := s.mem p.place
  let f := s.fill p.place
  let base := p.va / 8 * 8 + p.asid * 2 ^ 56
  let pb := p.pa / 8 * 8
  let byte (a : Nat) : Byte := m.byte f (pb + a - base)
  { byte := byte,
    code := if f.coded then some fun g =>
        let c := checkCode (v.granule ⟨byte, none, true⟩ g)
        match m.check f ((pb + 8 * g - base) / 8) with
        | none => c
        | some e => if e.stored = c then e.stored ^^^ 1 else e.stored
      else none,
    coded := f.coded }

/-- Granules that n bytes from a touch. -/
def granulesOf (a n : Nat) : List Nat :=
  if n = 0 then [] else (List.range ((a + n - 1) / 8 - a / 8 + 1)).map fun i => a / 8 + i

/-- A version write (R279): only the bytes written join the version; a granule written in part is
checked (spec/11 R316). -/
def Memory.overlay (f : Fill) (m : Memory) (a : Nat) (bs : List Byte) : Except Mismatch Memory :=
  let gs := granulesOf a bs.length
  let part := gs.filter fun g => decide (8 * g < a) || decide (a + bs.length < 8 * g + 8)
  match part.findSome? (m.check f) with
  | some e => .error e
  | none =>
    let m1 := m.put a bs
    .ok { m1 with codes := gs.foldl delKey m1.codes }

/-- Whether a task's writes are version writes (spec/12 R333 FLAGS V). -/
def Task.versioned (t : Task) : Bool := bitOf t.flags 0

/-! ## Reading and writing through a translation -/

/-- A consumer's read of n bytes of one line at a translated address, as a task sees them. -/
def State.readPhys (s : State) (v : Option Task) (p : Phys) (n : Nat) : Except Mismatch (List Byte) :=
  match v with
  | some t => if t.versioned then t.version.read (s.under t.version p) p.key n else s.readAt p.place p.pa n
  | none => s.readAt p.place p.pa n

/-- Effects of a read that are not its value. -/
def State.noteRead (s : State) (p : Phys) : State :=
  (s.leaveUp p.place p.pa).touch p false

/-- A write of a line marks the cached perceptron layers it belongs to (spec/08 R246). -/
def State.staleLayers (s : State) (p : Phys) : State :=
  if s.layers.isEmpty then s
  else { s with layers := s.layers.map fun y =>
    if (List.range (y.bytes / 64 + 1)).any fun i =>
        let c := s.canonical y.asid (y.addr + 64 * i)
        c.1 == p.asid && c.2.1 / 64 == p.va / 64
    then { y with stale := true } else y }

/-- Effects of a write that are not its value. -/
def State.noteWrite (s : State) (p : Phys) : State :=
  ((s.leaveUp p.place p.pa).touch p true).staleLayers p

/-- What an operation that the link carries natively does here (spec/10 R305): the line is not kept. -/
def State.noteNative (s : State) (p : Phys) : State :=
  let s1 := (s.leaveUp p.place p.pa).mergeWrite p
  (match s1.line? p.asid (p.va / 64) with
    | some l => s1.evictLine l
    | none => s1).staleLayers p

/-- Releases that a write of other agents ends (spec/09 R267). -/
def State.dropRels (s : State) (p : Place) (a n : Nat) : State :=
  if s.rels.isEmpty then s
  else { s with rels := s.rels.filter fun r => !(r.place == p && decide (a ≤ r.addr) && decide (r.addr + r.len ≤ a + n)) }

/-- A producer's write at a translated address: to the version of a versioned task unless it
escapes (R279, R280). -/
def State.writePhys (s : State) (v : Option Task) (escapes : Bool) (p : Phys) (bs : List Byte) :
    Except Mismatch State :=
  let direct := ((s.noteWrite p).dropRels p.place p.pa bs.length).writeAt p.place p.pa bs
  match v with
  | some t =>
    if t.versioned && !escapes && p.place != .peer then
      match t.version.overlay (s.under t.version p) p.key bs with
      | .error e => .error e
      | .ok m => .ok (((s.touch p false).staleLayers p).updTask t.id fun x => { x with version := m })
    else direct
  | none => direct

/-- A read by a unit of a context: translation, checks and value. `unit` is the consumer of R324. -/
def State.gRead (s : State) (a : Acc) (v : Option Task) (unit va n : Nat) :
    Except Trap (List Byte × State) :=
  match s.translate { a with write := false } va with
  | .error t => .error (t.atUnit unit)
  | .ok p =>
    let s1 := s.noteRead p
    match s1.readPhys v p n with
    | .error e => .error (lineTrap e unit va (s.asid a.ctx) 0 p.pa)
    | .ok bs => .ok (bs, s1)

/-- A write by a unit of a context. -/
def State.gWrite (s : State) (a : Acc) (v : Option Task) (escapes : Bool) (unit va : Nat)
    (bs : List Byte) : Except Trap State :=
  match s.translate { a with write := true } va with
  | .error t => .error (t.atUnit unit)
  | .ok p =>
    match s.writePhys v escapes p bs with
    | .error e => .error (lineTrap e 13 va (s.asid a.ctx) 0 p.pa)
    | .ok s' => .ok s'

/-- Reads n bytes line by line, `k` lines at most. -/
def State.gReadLines (s : State) (a : Acc) (v : Option Task) (unit : Nat) :
    (k : Nat) → (va n : Nat) → Except Trap (List Byte × State)
  | 0, _, _ => .ok ([], s)
  | k + 1, va, n =>
    if n = 0 then .ok ([], s)
    else
      let m := min n (64 - va % 64)
      match s.gRead a v unit va m with
      | .error t => .error t
      | .ok (bs, s1) => match s1.gReadLines a v unit k (va + m) (n - m) with
        | .error t => .error t
        | .ok (rest, s2) => .ok (bs ++ rest, s2)

/-- Reads n bytes at any length. -/
def State.gReadAll (s : State) (a : Acc) (v : Option Task) (unit va n : Nat) :
    Except Trap (List Byte × State) :=
  s.gReadLines a v unit (n / 64 + 2) va n

/-- Writes bytes line by line, `k` lines at most. -/
def State.gWriteLines (s : State) (a : Acc) (v : Nat) (escapes : Bool) (unit : Nat) :
    (k : Nat) → (va : Nat) → (bs : List Byte) → Except Trap State
  | 0, _, _ => .ok s
  | k + 1, va, bs =>
    if bs.isEmpty then .ok s
    else
      let m := 64 - va % 64
      match s.gWrite a (s.task? v) escapes unit va (bs.take m) with
      | .error t => .error t
      | .ok s1 => s1.gWriteLines a v escapes unit k (va + m) (bs.drop m)

/-- Writes bytes at any length for the task of id v (0 for none). -/
def State.gWriteAll (s : State) (a : Acc) (v : Nat) (escapes : Bool) (unit va : Nat)
    (bs : List Byte) : Except Trap State :=
  s.gWriteLines a v escapes unit (bs.length / 64 + 2) va bs

/-- A producer's write of whole granules to device memory by physical address. -/
def State.devWrite (s : State) (pa : Nat) (bs : List Byte) : State :=
  (s.leaveUp .dev pa).putAt .dev pa bs

/-- A little-endian structure made of (bytes, value) parts. -/
def pack (l : List (Nat × Nat)) : List Byte := l.flatMap fun x => leBytes x.1 x.2

end Sys2Proof.Machine
end

