-- ==== Sys2Proof/Machine/Fennel.lean ====
section
/-! DEFINITION. The Fennel log and its replay (spec/13): the records of logged operations, the gate
an operation passes before it is performed, and what is written or compared after it. -/

namespace Sys2Proof.Machine

/-- Why an operation inside a step is not performed. -/
inductive Stop
  /-- A fault. -/
  | trap (t : Trap)
  /-- It waits: log space, a replay turn or room in a queue. -/
  | park
  /-- A replay divergence (R380): ring index of the due record, its bytes, and the record formed. -/
  | diverge (idx : Nat) (due act : List Byte)

/-- The SRC word of a core, wave slot and lane (R368). -/
def srcOf (core wslot lane : Nat) : Nat :=
  core / 64 + core / 8 % 8 * 8 + core % 8 * 64 + wslot * 2 ^ 9 + lane * 2 ^ 16

/-- The SRC word of an AGENT record sequenced at a home (R368). -/
def agentSrc (home queue : Nat) : Nat :=
  (if home < 512 then home / 64 else (home - 512) / 64) + queue * 2 ^ 22 + 2 ^ 31

/-- The local home of a core (R369). -/
def localHome (core : Nat) : Nat := 512 + core

/-- A logged operation: the record it forms, less its sequence number. -/
structure LogOp where
  kind : Nat
  flags : Nat := 0
  opc : Nat := 0
  src : Nat
  home : Nat
  addr : Nat
  value : Nat := 0
  ext : List Byte := []

namespace LogOp

/-- EXT records that the payload needs, 23 bytes each (R370). -/
def extn (o : LogOp) : Nat := (o.ext.length + 22) / 23

/-- HSEQ and HOME. -/
def seqWord (o : LogOp) (seq : Nat) : Nat := seq % 2 ^ 48 + o.home * 2 ^ 48

def bytes (o : LogOp) (seq : Nat) : List Byte :=
  pack [(1, o.kind), (1, o.flags), (1, o.opc), (1, o.extn), (4, o.src), (8, o.seqWord seq),
    (8, o.addr), (8, o.value)]

/-- EXT record n: payload bytes 16 to 22, the head's sequence, payload bytes 0 to 15. -/
def extBytes (o : LogOp) (seq n : Nat) : List Byte :=
  let p := (o.ext.drop (23 * n)).take 23
  let pad := p ++ List.replicate (23 - p.length) 0
  [0x0B] ++ pad.drop 16 ++ leBytes 8 (o.seqWord seq) ++ pad.take 16

end LogOp

/-- The ring of a context (R364). -/
def State.flSize (s : State) (c : Nat) : Nat := 2 ^ s.field (.flbase c) 52 5

def State.flAddr (s : State) (c i : Nat) : Nat :=
  s.field (.flbase c) 16 36 * 2 ^ 16 + 32 * (i % s.flSize c)

def State.flOccupancy (s : State) (c : Nat) : Nat :=
  (s.field (.flhead c) 0 31 + 2 ^ 31 - s.field (.fltail c) 0 31) % 2 ^ 31

def State.logging (s : State) (c : Nat) : Bool := s.flag (.flctl c) 0
def State.replaying (s : State) (c : Nat) : Bool := s.flag (.flctl c) 1

/-- A home's sequence counter for a context (R369). -/
def State.hseqOf (s : State) (c home : Nat) : Nat := (getKey (s.ctx c).hseq home).getD 0

def State.bumpHseq (s : State) (c home : Nat) : State :=
  let v := (s.hseqOf c home + 1) % 2 ^ 48
  s.setCtx c { s.ctx c with hseq := if v = 0 then delKey (s.ctx c).hseq home
                                    else putKey (s.ctx c).hseq home v }

/-- Appends one record to the ring and advances HEAD. -/
def State.appendLog (s : State) (c : Nat) (bs : List Byte) : State :=
  let i := s.field (.flhead c) 0 31
  (s.devWrite (s.flAddr c i) bs).setField (.flhead c) 0 31 ((i + 1) % 2 ^ 31)

/-- Raises LOG_HIGH once when occupancy reaches THR (R367). -/
def State.checkHigh (s : State) (c : Nat) : State :=
  let thr := s.field (.flhigh c) 0 31
  let x := s.ctx c
  if thr = 0 then s
  else if thr ≤ s.flOccupancy c then
    if x.highArmed then
      let s1 := s.setCtx c { x with highArmed := false }
      if s.flag (.flctl c) 6 then s1.raise 0x2 else s1
    else s
  else s.setCtx c { x with highArmed := true }

/-! ## Replay -/

/-- The record at a ring index: its 32 bytes, or none where a code is wrong. -/
def State.logAt (s : State) (c i : Nat) : Option (List Byte) :=
  match s.readAt .dev (s.flAddr c i) 32 with
  | .ok bs => some bs
  | .error _ => none

/-- A recorded SRC on the replaying partition (R375, R378); none for an unmapped cluster. -/
def State.mapSrc (s : State) (c src : Nat) : Option Nat :=
  let place := src % 2 ^ 16
  match (s.ctx c).wmap.find? fun p => p.1 == place with
  | some p => some (p.2 + bitsOf src 16 6 * 2 ^ 16)
  | none =>
    match getAt (s.ctx c).remap (bitsOf src 0 3 * 8 + bitsOf src 3 3) none with
    | none => none
    | some n => some (n / 8 + n % 8 * 8 + (src / 64 % 2 ^ 16) * 64)

/-- A recorded home on the replaying partition: local homes move with their core. -/
def State.mapHome (s : State) (c home : Nat) : Nat :=
  if home < 512 then home
  else match getAt (s.ctx c).remap ((home - 512) / 8) none with
    | none => home
    | some n => 512 + n * 8 + (home - 512) % 8

/-- Whether a record is a head of a known kind with reserved fields zero (R370, R380). -/
def recordOk (bs : List Byte) : Bool :=
  let k := fieldOf bs 0 1
  decide (1 ≤ k) && decide (k ≤ 10) && decide (fieldOf bs 1 1 < 64) && decide (fieldOf bs 2 1 < 128)
    && decide (fieldOf bs 3 1 < 32) && !bitOf (fieldOf bs 4 4) 30 && bitsOf (fieldOf bs 8 8) 58 6 = 0

/-- The lowest-indexed unconsumed record from index i on, `n` at most, that `p` selects. The result
is its index, or the index of a record that is bad itself. -/
def State.findRec (s : State) (c : Nat) (p : List Byte → Bool) : (n : Nat) → (i : Nat) →
    Option (Nat × Option (List Byte))
  | 0, _ => none
  | n + 1, i =>
    if (s.ctx c).consumed.contains i then s.findRec c p n ((i + 1) % 2 ^ 31)
    else match s.logAt c i with
      | none => some (i, none)
      | some bs =>
        if fieldOf bs 0 1 = 11 then s.findRec c p n ((i + 1) % 2 ^ 31)
        else if !recordOk bs then some (i, some bs)
        else if p bs then some (i, some bs)
        else s.findRec c p n ((i + 1) % 2 ^ 31)

/-- The next record that a test selects (R376). -/
def State.nextRec (s : State) (c : Nat) (p : List Byte → Bool) : Option (Nat × Option (List Byte)) :=
  s.findRec c p (s.flOccupancy c) (s.field (.fltail c) 0 31)

/-- Consumes a record and its EXT records; TAIL passes records whose lowest is consumed. -/
def State.dropConsumed (s : State) (c : Nat) : (n : Nat) → State
  | 0 => s
  | n + 1 =>
    let t := s.field (.fltail c) 0 31
    if (s.ctx c).consumed.contains t then
      let s1 := s.setCtx c { s.ctx c with consumed := (s.ctx c).consumed.filter (· != t) }
      (s1.setField (.fltail c) 0 31 ((t + 1) % 2 ^ 31)).dropConsumed c n
    else s

def State.consume (s : State) (c i extn : Nat) : State :=
  let l := (List.range (extn + 1)).map fun k => (i + k) % 2 ^ 31
  let s1 := s.setCtx c { s.ctx c with consumed := (s.ctx c).consumed ++ l }
  let s2 := s1.dropConsumed c (s1.flOccupancy c)
  let done := s2.flOccupancy c == 0
  let s3 := s2.setField (.flctl c) 4 1 (if done then 1 else 0)
  if done && s.flag (.flctl c) 6 then s3.raise 0x4 else s3

/-- The payload of the EXT records that follow index i. -/
def State.extPayload (s : State) (c i n : Nat) : List Byte :=
  (List.range n).flatMap fun k =>
    let bs := s.bytesAt .dev (s.flAddr c ((i + 1 + k) % 2 ^ 31)) 32
    byteRange bs 16 16 ++ byteRange bs 1 7

/-- What the gate of a logged operation answers. -/
inductive Gate
  /-- Perform it; in replay with the ring index and bytes of its record. -/
  | go (r : Option (Nat × List Byte))
  | stop (x : Stop)

/-- Whether an operation has the identity of a record (R376): its KIND, FLAGS, OPC, EXTN, HOME and
ADDR. -/
def LogOp.identity (s : State) (c : Nat) (o : LogOp) (bs : List Byte) : Bool :=
  fieldOf bs 0 1 == o.kind && fieldOf bs 1 1 == o.flags && fieldOf bs 2 1 == o.opc
    && s.mapHome c (bitsOf (fieldOf bs 8 8) 48 10) == o.home && fieldOf bs 16 8 == o.addr

/-- The gate: log space (R367), or in replay the operation's record and its turn (R376); nothing is due after
a divergence (R381). `sel` selects the records of the operation's thread or agent. -/
def State.logGate (s : State) (c : Nat) (o : LogOp) (extn : Nat) (sel : List Byte → Bool) : Gate :=
  if s.logging c then
    if s.flOccupancy c + 1 + extn ≤ s.flSize c then .go none else .stop .park
  else if s.replaying c then
    if (s.ctx c).divergent then .stop .park
    else match s.nextRec c sel with
    | none => .stop .park
    | some (i, none) => .stop (.diverge i (s.bytesAt .dev (s.flAddr c i) 32) (o.bytes (s.hseqOf c o.home)))
    | some (i, some bs) =>
      if !recordOk bs || !o.identity s c bs || fieldOf bs 3 1 != extn then
        .stop (.diverge i bs (o.bytes (s.hseqOf c o.home)))
      else if s.hseqOf c o.home != bitsOf (fieldOf bs 8 8) 0 48 then .stop .park
      else .go (some (i, bs))
  else .go none

/-- Selects the records of a thread (R376). -/
def State.selThread (s : State) (c src : Nat) (bs : List Byte) : Bool :=
  !bitOf (fieldOf bs 4 4) 31 && fieldOf bs 0 1 != 9 && s.mapSrc c (fieldOf bs 4 4) == some src

/-- Kinds whose values are compared in replay (R370). -/
def comparedKind (k : Nat) : Bool := k == 1 || k == 2 || k == 3 || k == 5 || k == 8

/-- After the operation: writes its records, or compares and consumes its record. -/
def State.logDone (s : State) (c : Nat) (o : LogOp) (g : Option (Nat × List Byte)) :
    Except Stop State :=
  if s.logging c then
    let q := s.hseqOf c o.home
    let s1 := (s.bumpHseq c o.home).appendLog c (o.bytes q)
    let s2 := (List.range o.extn).foldl (fun s n => s.appendLog c (o.extBytes q n)) s1
    .ok (s2.checkHigh c)
  else match g with
    | none => .ok s
    | some (i, bs) =>
      if comparedKind o.kind && (fieldOf bs 24 8 != o.value
          || (o.extn != 0 && o.ext != (s.extPayload c i (fieldOf bs 3 1)).take o.ext.length)) then
        .error (.diverge i bs (o.bytes (s.hseqOf c o.home)))
      else
        .ok ((s.bumpHseq c o.home).consume c i (fieldOf bs 3 1))

/-- A record made by the scheduler or the command processor that can always be performed: in replay
its record is consumed when it is the next of its kind and address. -/
def State.logAgent (s : State) (c : Nat) (o : LogOp) : State :=
  match s.logGate c o o.extn (fun bs =>
      fieldOf bs 0 1 == o.kind && fieldOf bs 16 8 == o.addr) with
  | .stop _ => s
  | .go g => match s.logDone c o g with
    | .ok s' => s'
    | .error _ => s

/-- The XOR of the 32-bit words of a value (R368). -/
def foldWords : List Byte → Nat
  | a :: b :: c :: d :: r => leNat [a, b, c, d] ^^^ foldWords r
  | l => leNat l

end Sys2Proof.Machine
end

