-- ==== Sys2Proof/Machine/Ops.lean ====
section
/-! DEFINITION. Taking a fault (spec/16): fault records, Resolve records, halts, and the discard of an
attempt (spec/12 R354); the return from a resolvable fault (R429, R430); records of the trace ring and
the snapshot trigger. -/

namespace Sys2Proof.Machine

/-! ## Causes (R421) -/

def Cause.code : Cause → Nat
  | .illegalOpcode => 0x01
  | .illegalField => 0x02
  | .illegalOperand => 0x03
  | .lineFormat => 0x04
  | .branchTarget => 0x05
  | .misaligned => 0x06
  | .bounds => 0x07
  | .pageNotPresent => 0x08
  | .protection => 0x09
  | .sealedWrite => 0x0A
  | .checkMismatch => 0x0B
  | .replayDiverge => 0x0C
  | .queueMisuse => 0x0D
  | .barrierMisuse => 0x0E
  | .software => 0x0F
  | .breakpoint => 0x10
  | .watchdogKill => 0x11
  | .versionOverflow => 0x12
  | .linkError => 0x13
  | .resource => 0x14
  | .format => 0x15

/-! ## Trace records and the snapshot trigger (R445, R446) -/

/-- Writes a 32-byte trace record of a die; dropped where the ring is full or off. -/
def State.traceWrite (s : State) (die kind ctx src d0 d1 : Nat) : State :=
  let size := 2 ^ s.field (.trbase die) 2 5
  let h := s.field (.trhead die) 0 31
  let occ := (h + 2 ^ 31 - s.field (.trtail die) 0 31) % 2 ^ 31
  if s.flag (.trbase die) 0 && decide (occ < size) then
    (s.devWrite (s.field (.trbase die) 16 36 * 2 ^ 16 + 32 * (h % size))
      (pack [(1, kind), (1, ctx), (2, 0), (4, src), (8, s.tick), (8, d0), (8, d1)])).setField
        (.trhead die) 0 31 ((h + 1) % 2 ^ 31)
  else s

/-- An event record (R446). -/
def State.traceEvent (s : State) (die kind ctx src d0 d1 : Nat) : State :=
  if s.flag (.trctl die) 0 && s.flag (.trctl die) 14 then s.traceWrite die kind ctx src d0 d1 else s

/-- A trigger of the snapshot registers (R445): the first one after ARM counts. -/
def State.trigger (s : State) : State :=
  if s.flag .snapctl 0 && s.snap.due.isNone then
    { s with snap := { s.snap with due := some (s.tick + 64) } }
  else s

/-! ## Fault records (R423 to R427) -/

/-- A fault record less its ring index. -/
structure FaultRec where
  flags : Nat
  att : Nat
  task : Dword
  src : Nat
  slot : Nat
  trap : Trap

def FaultRec.bytes (r : FaultRec) (flags seq tick : Nat) : List Byte :=
  pack [(1, r.trap.cause.code), (1, flags), (1, r.trap.unit), (1, r.att), (4, seq),
    (8, r.task.toNat), (8, tick), (4, r.src), (4, r.slot), (8, r.trap.addr.toNat),
    (8, r.trap.aux0.toNat), (8, r.trap.aux1.toNat), (4, r.trap.xtra.toNat), (4, 0)]

def State.fqSize (s : State) (c : Nat) : Nat := 2 ^ s.field (.fqbase c) 2 5

/-- Whether the fault queue takes a record. -/
def State.fqRoom (s : State) (c : Nat) : Bool :=
  let occ := (s.field (.fqhead c) 0 31 + 2 ^ 31 - s.field (.fqtail c) 0 31) % 2 ^ 31
  s.flag (.fqbase c) 0 && decide (occ < s.fqSize c)

/-- Writes a record that has room and advances FQHEAD. -/
def State.fqPut (s : State) (c : Nat) (r : FaultRec) : State :=
  let h := s.field (.fqhead c) 0 31
  let lost := (s.ctx c).lost
  let s1 := s.devWrite (s.field (.fqbase c) 16 36 * 2 ^ 16 + 64 * (h % s.fqSize c))
    (r.bytes (r.flags + if lost then 8 else 0) h s.tick)
  let s2 := (s1.setField (.fqhead c) 0 31 ((h + 1) % 2 ^ 31)).setCtx c { s1.ctx c with lost := false }
  let s3 := if s.flag (.fqbase c) 1 then s2.raise 0x1 else s2
  let s4 := s3.traceEvent (r.src % 8) 6 c r.src (h + r.trap.cause.code * 2 ^ 32) 0
  if s.flag .snapctl 3 && s.field .snapctl 4 8 == r.trap.cause.code then s4.trigger else s4

/-- Writes a record; one without room is dropped and counted in LOST (R427). -/
def State.faultRecord (s : State) (c : Nat) (r : FaultRec) : State :=
  if s.fqRoom c then s.fqPut c r
  else
    let n := s.field (.fqstat c) 0 32
    (s.setField (.fqstat c) 0 32 (min (n + 1) (2 ^ 32 - 1))).setCtx c { s.ctx c with lost := true }

/-! ## Halts (R437 to R439, R381) -/

/-- Halts a wave; HEV is set, and its interrupt raised (R440, R456). -/
def State.haltWave (s : State) (w : Wave) (ctx : Nat) : State :=
  let s1 := ((s.setWave { w with halted := true }).setField .dbgstat 2 1 1).raise 0x20
  s1.traceEvent (dieOf w.core) 2 ctx (srcOf w.core w.wslot 0) 1 0

/-- The context slot of a wave. -/
def State.ctxOfCrew (s : State) (crew : Nat) : Nat :=
  match s.crew? crew with
  | none => 0
  | some c => match s.task? c.task with
    | none => 0
    | some t => t.ctx

/-- Halts every wave of a context. -/
def State.haltCtx (s : State) (c : Nat) : State :=
  (s.waves.filter fun w => s.ctxOfCrew w.crew == c && !w.halted).foldl
    (fun s w => s.haltWave w c) s

/-- A replay divergence (R381); a context diverges once. -/
def State.diverge (s : State) (c idx : Nat) (due act : List Byte) : State :=
  if (s.ctx c).divergent then s else
  let put (s : State) (n : Nat) (bs : List Byte) : State :=
    (List.range 4).foldl (fun s k =>
      s.setReg (.fldiv c (n + k)) (BitVec.ofNat 64 (fieldOf bs (8 * k) 8))) s
  let s1 := (put (put s 0 due) 4 act).setField (.flctl c) 3 1 1
  let s2 := (s1.setCtx c { s1.ctx c with divergent := true }).haltCtx c
  let s3 := s2.faultRecord c ⟨0, 0, 0, agentSrc 0 0, 0,
    { cause := .replayDiverge, unit := 16, aux0 := BitVec.ofNat 64 idx }⟩
  if s.flag .snapctl 13 then s3.trigger else s3

/-! ## Task records (spec/12 R333, R337) -/

/-- The scheduler's access for a context. -/
def schedAcc (c : Nat) : Acc := { ctx := c, prv := true, write := true }

/-- A fault of a unit without threads (R427). -/
def State.unitFault (s : State) (c : Nat) (task : Dword) (att unit : Nat) (t : Trap) : State :=
  s.faultRecord c ⟨0, att, task, agentSrc 0 0, 0, t.atUnit unit⟩

/-- A write of the scheduler to global memory that escapes versions; a fault of it is recorded. -/
def State.schedWrite (s : State) (t : Task) (va : Nat) (bs : List Byte) : State :=
  match s.gWriteAll (schedAcc t.ctx) 0 true 9 va bs with
  | .ok s' => s'
  | .error e => s.unitFault t.ctx t.name t.att 9 e

/-- STATE of a task record. -/
def State.writeState (s : State) (t : Task) (v : Nat) : State :=
  s.schedWrite t (t.record + 0x24) (leBytes 1 v)

/-- The stamp record of an attempt (R350). -/
def Task.stampBytes (t : Task) (status tick : Nat) : List Byte :=
  let clu := match t.place with | some p => p | none => (0, 0)
  pack [(8, t.name.toNat), (1, t.att), (1, status), (1, clu.1), (1, clu.2),
    (1, t.cores.foldl (fun a k => a ||| 2 ^ (k % 8)) 0), (3, 0), (8, t.tDisp), (8, t.tCin), (8, t.tOpw),
    (8, t.tExit), (8, t.tCout), (8, tick)]

def State.writeStamp (s : State) (t : Task) (status : Nat) : State :=
  if t.stamp = 0 then s
  else s.schedWrite t (t.stamp + 64 * (t.att - 1)) (t.stampBytes status s.tick)

/-! ## The end of an attempt (spec/12 R354) -/

/-- A save without the crews, records and rays of a task. -/
def Saved.without (x : Saved) (tid : Nat) : Saved :=
  { crews := x.crews.filter fun c => c.crew.task != tid,
    pool := x.pool.filter fun r => r.task != tid,
    rays := x.rays.filter fun r => r.record.task != tid }

/-- Step 1: crews, continuation records, rays and arrivals of the task go, the pins of its crews, and its version. -/
def State.stopTask (s : State) (tid : Nat) : State :=
  let mine (crew : Nat) : Bool := match s.crew? crew with
    | some c => c.task == tid
    | none => true
  { s with
    waves := s.waves.filter fun w => !mine w.crew,
    arrivals := s.arrivals.filter fun a => !mine a.crew,
    crews := s.crews.filter fun c => c.task != tid,
    layers := (s.layers.map fun y => { y with pins := y.pins.filter fun c => !mine c }).filter fun y =>
      y.data.isSome || !y.pins.isEmpty,
    ctxs := s.ctxs.map fun c =>
      { c with calls := c.calls.filter fun y => y.task != tid,
               saved := c.saved.map fun x => x.without tid },
    clusters := s.clusters.map fun k =>
      { k with pool := k.pool.filter fun r => r.task != tid,
               rays := k.rays.filter fun r => r.record.task != tid },
    tasks := s.tasks.map fun t => if t.id == tid then
      { t with version := .empty, vspilled := [], stats := List.replicate 8 0 } else t }

/-- The DISC record of a discard or final end (spec/13 R373). -/
def Task.disc (t : Task) (s : State) (cause : Nat) (final : Bool) : LogOp :=
  let home := homeOf (s.asid t.ctx) t.record
  { kind := 10, src := agentSrc home t.queue, home := home, addr := t.name.toNat,
    value := cause + t.att * 256 + if final then 65536 else 0 }

/-- Whether another attempt follows (step 3). -/
def Task.retries (t : Task) : Bool := bitOf t.flags 2 && decide (t.att ≤ t.retry)

/-- The task as it re-enters its die's ready pool, as the oldest of its context. -/
def Task.requeue (t : Task) (tick : Nat) : Task :=
  { t with phase := .ready, order := 0, readySince := tick, place := none, cores := [], tDisp := 0,
           tCin := 0, tOpw := 0, tExit := 0, tCout := 0, succPos := 0,
           ops := t.ops.map fun o => { o with done := [], part := [], wait := none } }

/-- Discards the attempt of a task for a cause (R354): its crews stop, its stamp and fault record are
written, and it is retried or ends. `noRetry` marks a kill. -/
def State.discard (s : State) (t : Task) (e : Trap) (src slot : Nat) (noRetry : Bool) : State :=
  let again := t.retries && !noRetry
  let s1 := ((s.stopTask t.id).writeStamp t e.cause.code).logAgent t.ctx
    (t.disc s e.cause.code (!again))
  let s2 := if again then
      let s' := s1.writeState t 2
      { s' with tasks := s'.tasks.map fun x =>
          if x.id == t.id then x.requeue s.tick else { x with order := x.order + 1 } }
    else
      let s' := s1.writeState t 5
      { s' with tasks := s'.tasks.filter fun x => x.id != t.id }
  s2.faultRecord t.ctx ⟨if again then 0 else 2, t.att, t.name, src, slot, e⟩

/-- A fault of class End of a task, or in replay the divergence it is unless its DISC record is at
its turn (spec/13 R379, R380). -/
def State.endAttempt (s : State) (tid : Nat) (e : Trap) (src slot : Nat) : State :=
  match s.task? tid with
  | none => s
  | some t =>
    if s.replaying t.ctx then
      let o := t.disc s e.cause.code (!t.retries)
      match s.logGate t.ctx o 0 (fun bs => fieldOf bs 0 1 == 10 && fieldOf bs 16 8 == o.addr) with
      | .go (some _) => s.discard t e src slot false
      | .go none => s.discard t e src slot false
      | .stop (.diverge i d a) => s.diverge t.ctx i d a
      | .stop _ => s.diverge t.ctx (s.field (.fltail t.ctx) 0 31) [] (o.bytes 0)
    else s.discard t e src slot false

/-- Ends every task of a context without retry, clears RES and disables its queues (R362, R381). -/
def State.killContext (s : State) (c : Nat) (e : Trap) : State :=
  let ts := s.tasks.filter fun t => t.ctx == c
  let s1 := ts.foldl (fun s t => s.discard t e (agentSrc 0 t.queue) 0 true) s
  let s2 := s1.setField (.cxsched c) 0 1 0
  (List.range 256).foldl (fun s q =>
    if s.field (.sqctl q) 0 6 == c then s.setField (.sqbase q) 0 1 0 else s) s2

/-! ## Resolvable faults (R428 to R430) -/

/-- The page of a trap. -/
def Trap.page (t : Trap) : Nat := t.addr.toNat / 2 ^ 16

/-- Posts a Resolve record for a page, unless one is outstanding; without room it is held. -/
def State.postResolve (s : State) (c : Nat) (r : FaultRec) : State :=
  let page := r.trap.page
  if (s.ctx c).resolves.any fun x => x.page == page then s
  else
    let entry : Resolve := { page := page, seq := none, trap := r.trap }
    if s.fqRoom c then
      let h := s.field (.fqhead c) 0 31
      let s1 := s.fqPut c { r with flags := 1 }
      s1.setCtx c { s1.ctx c with resolves := (s1.ctx c).resolves ++ [{ entry with seq := some h }] }
    else s.setCtx c { s.ctx c with resolves := (s.ctx c).resolves ++ [entry] }

/-- Writes held Resolve records as space frees. -/
def State.releaseHeld (s : State) (c : Nat) : State :=
  (s.ctx c).resolves.foldl (fun s r =>
    if r.seq.isNone && s.fqRoom c then
      let h := s.field (.fqhead c) 0 31
      let s1 := s.fqPut c ⟨1, 0, 0, agentSrc 0 0, 0, r.trap⟩
      s1.setCtx c { s1.ctx c with resolves := (s1.ctx c).resolves.map fun x =>
        if x.page == r.page then { x with seq := some h } else x }
    else s) s

/-- Whether a wait on a page of the context ends. -/
def clearWait (page : Nat) (w : Option Nat) : Option Nat := if w = some page then none else w

/-- A wave whose waits on a page end. -/
def Wave.wakePage (w : Wave) (page tick : Nat) : Wave :=
  { w with
    threads := w.threads.map fun th =>
      if th.run = .resolve page then { th with run := .ready, since := tick } else th,
    out := w.out.map fun p => { p with wait := clearWait page p.wait } }

/-- A crew whose commands' waits on a page end. -/
def Crew.wakePage (k : Crew) (page : Nat) : Crew :=
  { k with cmds := k.cmds.map fun m => { m with wait := clearWait page m.wait } }

/-- A ray whose wait on a page ends. -/
def Ray.wakePage (r : Ray) (page : Nat) : Ray := { r with parked := clearWait page r.parked }

/-- A save in which the waits on a page end. -/
def Saved.wakePage (x : Saved) (page tick : Nat) : Saved :=
  { x with
    crews := x.crews.map fun c => { c with
      crew := c.crew.wakePage page
      waves := c.waves.map fun (w : Wave) => w.wakePage page tick },
    rays := x.rays.map fun (r : Ray) => r.wakePage page }

/-- Lets every agent of a context that waits on a page repeat its access (R429, R430). -/
def State.wakePage (s : State) (c page : Nat) : State :=
  let mineC (crew : Nat) : Bool := s.ctxOfCrew crew == c
  let mineT (task : Nat) : Bool := match s.task? task with
    | some t => t.ctx == c
    | none => false
  { s with
    waves := s.waves.map fun (w : Wave) => if mineC w.crew then w.wakePage page s.tick else w,
    crews := s.crews.map fun (k : Crew) => if mineT k.task then k.wakePage page else k,
    ctxs := s.ctxs.set c { s.ctx c with saved := (s.ctx c).saved.map fun (x : Saved) => x.wakePage page s.tick },
    tasks := s.tasks.map fun t => if t.ctx == c then
      { t with ops := t.ops.map fun o => { o with wait := clearWait page o.wait } } else t,
    clusters := s.clusters.map fun k =>
      { k with rays := k.rays.map fun (r : Ray) => if mineT r.record.task then r.wakePage page else r,
               rasterWait := clearWait page k.rasterWait },
    dies := s.dies.map fun d => { d with engines := d.engines.map fun e => match e.job with
      | some j => if j.ctx == c then
          { e with xfers := e.xfers.map fun x => { x with wait := clearWait page x.wait } } else e
      | none => e } }

/-! ## Taking a fault of a thread (R422, R428, R437 to R439) -/

/-- The lowest lane of a mask. -/
def lowLane (m : BitVec 64) : Nat := ((List.range 64).find? fun l => m.getLsbD l).getD 0

/-- Delivers a fault charged to threads of a wave: it waits on a page, halts the wave, or ends the
attempt. `m` are the threads concerned and `slot` the faulting slot. -/
def State.deliver (s : State) (w : Wave) (m : BitVec 64) (slot : Nat) (e : Trap) : State :=
  let c := s.ctxOfCrew w.crew
  let src := srcOf w.core w.wslot (e.lane.getD (lowLane m))
  let tid := match s.crew? w.crew with
    | some k => k.task
    | none => 0
  let t := s.task? tid
  if e.cause == .pageNotPresent then
    let w1 : Wave := { w with
      threads := w.threads.mapIdx fun l th =>
        if m.getLsbD l then { th with run := .resolve e.page } else th }
    (s.setWave w1).postResolve c ⟨1, (t.map (·.att)).getD 0, (t.map (·.name)).getD 0, src, slot, e⟩
  else if e.cause == .breakpoint then
    let s1 := s.haltWave { w with
      brkPass := some slot
      brkCode := some (e.aux0.setWidth 32) } c
    if s.flag (.dbgctl c) 2 then s1.haltCtx c else s1
  else if s.flag (.dbgctl c) 0 && s.flag (.dbgctl c) 1 then
    s.haltWave { w with pendFault := some { e with slot := slot } } c
  else s.endAttempt tid e src slot

/-- Ends helper threads at a faulting instruction (spec/02 R52, spec/04 R98). -/
def Wave.endHelpers (w : Wave) (m : BitVec 64) : Wave :=
  { w with
    threads := w.threads.mapIdx fun l th =>
      if m.getLsbD l && th.helper then { th with run := .ended } else th }

/-- The helper lanes of a wave. -/
def Wave.helperMask (w : Wave) : BitVec 64 :=
  BitVec.ofFnLE fun (l : Fin 64) => match w.threads[l.val]? with
    | some th => th.helper
    | none => false

/-- Takes a fault detected at issue by a group (R437 step 1): a group made only of helper threads ends
instead, and helper threads of a mixed group are not charged (R52, R98). -/
def State.takeFault (s : State) (w : Wave) (group : BitVec 64) (slot : Nat) (e : Trap) : State :=
  if group &&& ~~~w.helperMask = 0 then s.setWave (w.endHelpers group)
  else s.deliver w group slot e

/-- What becomes of an operation that stopped: a fault is taken, a divergence halts the context. -/
def State.takeStop (s : State) (w : Wave) (group : BitVec 64) (slot : Nat) : Stop → State
  | .trap e => s.takeFault w group slot e
  | .diverge i d a =>
    let s1 := s.diverge (s.ctxOfCrew w.crew) i d a
    match s1.wave? w.id with
    | some w1 => s1.setWave { w1 with
        pendFault := some { cause := .replayDiverge, unit := 16, slot := slot, aux0 := BitVec.ofNat 64 i } }
    | none => s1
  | .park => s

end Sys2Proof.Machine
end

