-- ==== Sys2Proof/Machine/Operands.lean ====
section
/-! DEFINITION. Operands: the registers each instruction names (spec/01 R18 to R25, R37; spec/02 R46,
R65, R66), reading and writing them for the threads of an issue under the masks of R57, and the draws
of RSR (spec/03 R87; spec/08 R251 to R253). -/

namespace Sys2Proof

/-! ## The registers an instruction names -/

/-- An operand with its number of v registers and of s registers, and whether it is read and written. -/
structure Use where
  o : Opd
  n : Nat
  sn : Nat
  rd : Bool
  wr : Bool

def useR (o : Opd) (n : Nat := 1) (sn : Nat := 1) : Use := ⟨o, n, sn, true, false⟩
def useW (o : Opd) (n : Nat := 1) : Use := ⟨o, n, 1, false, true⟩
def useRW (o : Opd) (n : Nat := 1) : Use := ⟨o, n, 1, true, true⟩

def use32 (n : Nat) : Src32 → List Use
  | .reg o => [useR o n]
  | .imm _ => []

def use22 (n : Nat) : Src22 → List Use
  | .reg o => [useR o n]
  | .imm _ => []

/-- A second mask destination; 0 names none (R131, R146). -/
def useKout (k : Fin 16) : List Use := if k = 0 then [] else [useW (.k k)]

/-- Registers of an address operand (spec/06 R157). -/
def addrRegs (sp : Space) : Nat := if sp == .glob then 2 else 1

def VBin.uses (x : VBin) : List Use :=
  [useW x.d x.ty.regs, useR x.a x.ty.regs] ++ use32 x.ty.regs x.b

def VTer.uses (x : VTer) : List Use :=
  [useW x.d x.ty.regs, useR x.a x.ty.regs, useR x.c x.ty.regs] ++ use22 x.ty.regs x.b

def VTri.uses (x : VTri) : List Use :=
  [useW x.d x.ty.regs, useR x.a x.ty.regs, useR x.b x.ty.regs, useR x.c x.ty.regs]

def VUn.uses (x : VUn) : List Use := [useW x.d x.ty.regs, useR x.a x.ty.regs]

def VCarry.uses (x : VCarry) : List Use :=
  [useW x.d x.ty.regs, useR x.a x.ty.regs, useR x.b x.ty.regs, useR x.c] ++ useKout x.kout

def UBin.uses (x : UBin) : List Use := [useW x.d, useR x.a] ++ use32 1 x.b


def Smpl.coords (x : Smpl) : Nat := x.ncrd.toNat + 1

def Smpl.lodUse (x : Smpl) : List Use :=
  match x.lod.reg? with
  | none => []
  | some c => [useR c]

/-- A 128-bit source (spec/08 R232): four v registers or two s registers. -/
def use128 (a : Opd) : Use := useR a 4 2

/-- The registers an instruction names, and those that every execution of it writes beside them; the flags,
the Sprout counters and %pix follow where an issue is checked (R46). -/
def Instr.uses : Instr → List Use
  | .br _ (.nz a) _ | .br _ (.z a) _ => [useR a]
  | .bri _ a | .ret _ a => [useR a]
  | .call _ d _ => [useW d]
  | .calli _ d a => [useW d, useR a]
  | .loop _ c _ => (match c with | .reg a => [useR a] | .imm _ => []) ++
      (List.finRange 4).flatMap fun n => [useW (.sr (.loopN n)), useW (.sr (.lendN n))]
  | .park _ c => use32 1 c
  | .sysc x => [useR x.d, useR x.b] ++ (if x.narg = 0 then [] else [useR x.a x.narg.toNat])
  | .syscWait x => [useW x.d x.nrep.toNat, useR x.b]
      ++ (if x.narg = 0 then [] else [useR x.a x.narg.toNat])
  | .rdsr _ d r => [useW d (if r.wide then 2 else 1), useR (.sr r)]
  | .wrsr _ r a => [useW (.sr r), useR a (if r.wide then 2 else 1)]
  | .mode _ _ => [useW (.sr .mode)]
  | .join _ a => [useR a]
  | .tenq _ a => [useR a 2]
  | .sadd x | .ssub x | .smul x | .smulh x | .sdiv x | .srem x | .sand x | .sor x | .sxor x
  | .sshl x | .sshr x | .ssra x | .smin x | .smax x | .scmp _ x => x.uses
  | .smov _ d a | .sbfe _ _ d a _ _ | .spop _ _ _ d a => [useW d, useR a]
  | .sli _ o d _ => [if o == .hi then useRW d else useW d]
  | .ssel _ d a b c => [useW d, useR a, useR b, useR c]
  | .sld x => [useW x.r, useR x.a]
  | .sst x => [useR x.r, useR x.a]
  | .add x | .sub x | .mul x | .mulh x | .div x | .rem x | .and x | .or x | .xor x | .shl x
  | .shr x | .sra x | .rot _ x | .min x | .max x | .bfe x => x.uses
  | .mad x | .bfi x | .dot4 _ x => x.uses
  | .addc x | .subb x => x.uses
  | .lop3 _ x => x.uses
  | .abs x | .brev x => x.uses
  | .popc x | .clz x | .ctz x => [useW x.d, useR x.a x.ty.regs]
  | .sel x => [useW x.d x.ty.regs, useR x.a x.ty.regs, useR x.c] ++ use22 x.ty.regs x.b
  | .cmp _ x => [useW x.d, useR x.a x.ty.regs] ++ use32 x.ty.regs x.b
  | .mov x => [useW x.d x.ty.regs] ++ use32 x.ty.regs x.a
  | .fadd x | .fsub x | .fmul x | .fmin _ x | .fmax _ x | .fdiv x => x.uses
  | .fma _ _ x => x.uses
  | .fcmp _ x => [useW x.d, useR x.a x.ty.regs] ++ use32 x.ty.regs x.b
  | .fclass _ x => [useW x.d, useR x.a x.ty.regs]
  | .fsqrt x | .frcp x | .frsq x | .fex2 x | .flg2 x | .fsin x | .fcos x | .frnd x => x.uses
  | .fscl x => [useW x.d x.ty.regs, useR x.a x.ty.regs] ++ use32 1 x.b
  | .cvt x => [match x.form with
        | .half _ _ => useRW x.d
        | _ => useW x.d x.dty.regs,
      useR x.a x.sty.regs] ++ (match x.form with
        | .pair b | .half _ b => [useR b x.sty.regs]
        | _ => [])
  | .fdot _ x => x.uses
  | .qswp _ x => x.uses
  | .shfl _ x => [useW x.d x.ty.regs, useR x.a x.ty.regs] ++ use32 1 x.b ++ useKout x.kout
  | .vote o x => [useW x.d (if o == .ballot then 2 else 1), useR x.a]
  | .kop _ x => [useW x.d, useR x.a, useR x.b]
  | .kcnt _ x | .kfst _ x | .kset _ x => [useW x.d, useR x.a]
  | .scan _ _ x | .wred _ x => x.uses
  | .reord _ x => [useW x.d, useR x.a, useR x.b]
  | .ld x => [useW x.r x.ty.regs, useR x.a (addrRegs x.sp)]
  | .st x => [useR x.r x.ty.regs, useR x.a (addrRegs x.sp)]
  | .stSy x => [useR x.r x.ty.regs, useR x.a (addrRegs x.sp), useR x.c]
  | .ldx x => [useW x.r (x.n.toNat * x.ty.regs), useR x.a, useR x.c x.n.toNat]
  | .stc x => [useR x.r (x.n.toNat * x.ty.regs), useR x.a, useR x.c x.n.toNat, useW x.cnt]
  | .swp o x => [useR x.d, useR x.a] ++ (if o == .copy then [] else [useR x.b])
  | .itx o x => [useRW x.d, useRW x.a] ++ (if o == .copy then [] else [useRW x.b])
  | .itld x => [useW x.r, useR x.a (addrRegs x.sp)]
  | .itst x => [useR x.r, useR x.a (addrRegs x.sp)]
  | .atom o x =>
      if o == .cas128 then [useW x.d 4, useR x.a (addrRegs x.sp), useR x.b 4 4, useR x.c 4 4]
      else [useW x.d x.ty.regs, useR x.a (addrRegs x.sp), useR x.b x.ty.regs]
        ++ (if o == .cas then [useR x.c x.ty.regs] else [])
  | .red _ x => [useR x.a (addrRegs x.sp), useR x.b x.ty.regs]
  | .redx _ x => [useR x.a (addrRegs x.sp), useR x.b x.ty.regs, useR x.c]
  | .pref _ _ a _ => [useR a 2]
  | .sealRegion _ a b | .unsealRegion _ a b => [useR a, useR b]
  | .bar _ k (.reg a b) => if k == .wait then [useR a] else [useR a, useR b]
  | .cadd x | .cwait x => [useR x.a] ++ use32 1 x.b
  | .syarm x | .sywait x | .chwait x => [useR x.a] ++ use32 1 x.b
  | .chtst d x => [useW d, useR x.a] ++ use32 1 x.b
  | .qbind _ k d a => [useR d] ++ (if k == .spad then [useR a] else [])
  | .qfree _ d => [useR d]
  | .qpoll _ _ d a => [useW d, useR a]
  | .mfmt _ (.reg a) => [useR a, useW (.sr .mfmt)]
  | .mfmt _ (.imm _) => [useW (.sr .mfmt)]
  | .mma x | .mmac x => [useR x.d, useR x.a, useR x.b]
  | .tld x | .tst x => [useR x.d, useR x.a]
  | .tzro x => [useR x.d]
  | .trow _ frm t r n => [useR t, if frm then useW r n.toNat else useR r n.toNat]
  | .wbld x => [useR x.d, useR x.a]
  | .wbinv x => (match x.range with | none => [] | some (a, _) => [useR a])
  | .mdrn x => [useR x.d, useR x.a, useR x.b]
  | .vmm x => [if x.acc then useRW x.d x.n.toNat else useW x.d x.n.toNat,
      useR x.a (Machine.ceilDiv x.k.toNat x.ty.perReg), useR x.b]
  | .kmma _ _ d a b => [useRW d 16, useR a 8, useR b]
  | .smpl _ x => [useW x.d (x.n.toNat + 1), useR x.a x.coords, useR x.b] ++ x.lodUse
  | .smpg _ x => [useW x.d 4, useR x.a x.coords, useR x.b] ++ x.lodUse
  | .smpq _ lod d a b n =>
      [useW d (if lod then 1 else 4), useR a (if lod then n.toNat + 1 else 1), useR b]
  | .latf _ x => [useW x.d (x.n.toNat + 1), useR x.a 2, useR x.b] ++ x.lodUse
  | .wcpin _ _ a => [useR a]
  | .wcinv _ (some a) => [useR a]
  | .trace _ _ _ a b _ => [useR a 8, useR b]
  | .hitld _ f d => [useW d (if f == .id || f == .bary then 2 else 1)]
  | .vbld _ f d a b _ => [useW d (if f == .id then 2 else 1), useR a 2, useR b]
  | .rng _ _ d n => [useW d (n.toNat + 1), useW (.sr .rngc), useW (.sr .rngch)]
  | .rngset _ o a => [if o == .seed then useR a (if a.isV then 2 else 1) else use128 a,
      useW (.sr .rngk), useW (.sr .rngkh), useW (.sr .rngc), useW (.sr .rngch)]
  | .rngadv _ (.reg a) => [if a.isZero then useR a else use128 a, useW (.sr .rngc), useW (.sr .rngch)]
  | .rngadv _ (.imm _) => [useW (.sr .rngc), useW (.sr .rngch)]
  | .rngget _ _ d => [useW d 4]
  | _ => []

/-- The codes of an operand's registers (spec/02 R59); zero names none. -/
def Use.codes (u : Use) : List Nat :=
  match u.o with
  | .v n => (List.range u.n).map fun i => n.val + i
  | .s n => (List.range u.sn).map fun i => 0x100 + n.val + i
  | .k n => [0x300 + n.val]
  | .q n => [0x310 + n.val]
  | .j n => [0x320 + n.val]
  | .sr r => [r.code]
  | .zero => []

def Instr.readCodes (i : Instr) : List Nat := (i.uses.filter (·.rd)).flatMap Use.codes

def Instr.writeCodes (i : Instr) : List Nat := (i.uses.filter (·.wr)).flatMap Use.codes

/-- Whether an instruction needs MAT or SMP (R37). -/
def Instr.needs (i : Instr) : Bool × Bool :=
  match i with
  | .mfmt _ _ | .mma _ | .mmac _ | .wbld _ | .wbinv _ | .mdrn _ | .vmm _ | .mbst _ _ | .opfence _
  | .kmma _ _ _ _ _ => (true, false)
  | .smpl _ _ | .smpg _ _ | .smpq _ _ _ _ _ _ | .latf _ _ | .wcpin _ _ _ | .wcinv _ _ => (false, true)
  | _ => (false, false)


/-! ## Latency (spec/02 R63, R66, R69) -/

/-- V: register results are variable-latency. -/
def Instr.variable : Instr → Bool
  | .syscWait _ | .sld _ | .fdiv _ | .fsqrt _ | .frcp _ | .frsq _ | .fex2 _ | .flg2 _ | .fsin _
  | .fcos _ | .qswp _ _ | .shfl _ _ | .scan _ _ _ | .wred _ _ | .reord _ _ | .ld _ | .ldx _ | .itld _
  | .atom _ _ | .vmm _ | .kmma _ _ _ _ _ | .smpl _ _ | .smpg _ _ | .smpq _ _ _ _ _ _ | .latf _ _
  | .hitld _ _ _ | .vbld _ _ _ _ _ _ => true
  | .trow _ frm _ _ _ => frm
  | .mov x => match x.a with
    | .reg (.q _) => true
    | _ => false
  | _ => false

/-- A: sources are read after issue. -/
def Instr.latent : Instr → Bool
  | .sysc _ | .syscWait _ | .tenq _ _ | .sst _ | .st _ | .stSy _ | .stc _ | .itst _ | .atom _ _
  | .red _ _ | .redx _ _ | .mma _ | .mmac _ | .tld _ | .tst _ | .tzro _ | .wbld _ | .wbinv _ | .mdrn _
  | .vmm _ | .kmma _ _ _ _ _ | .trace _ _ _ _ _ _ => true
  | _ => false

/-- The long instructions (spec/01 R29). -/
def Instr.long : Instr → Bool
  | .swp _ _ | .itx _ _ | .stc _ | .ldx _ | .mmac _ => true
  | _ => false

end Sys2Proof

namespace Sys2Proof.Machine

/-! ## Declarations of the kernel header (spec/01 R37) -/

/-- Whether an operand lies within the header's declarations (R18, R19, R23). -/
def declared (h : Header) (u : Use) : Bool :=
  match u.o with
  | .v n => decide (n.val + u.n ≤ h.vregs)
  | .s n =>
    if n.val < 64 then decide (n.val + u.sn ≤ h.swp)
    else decide (n.val - 64 + u.sn ≤ h.scr)
  | .j n => decide (n.val < h.niter)
  | _ => true

/-- The checks of spec/02 R51 step 5 that follow the operand codes: the declarations of R37, and the
header flags. The queue or barrier at fault comes with its cause. -/
def checkDecl (h : Header) (i : Instr) : Option (Cause × Nat) :=
  if i.uses.any fun u => !declared h u then some (.illegalOperand, 0)
  else match i.uses.find? (fun u => match u.o with
      | .q n => getAt h.qkind n.val 0 == 0
      | _ => false) with
    | some u => some (.queueMisuse, (u.codes.headD 0x310) - 0x310)
    | none =>
      let bad : Option Nat := match i with
        | .bar _ _ (.imm id _) => if h.nbar ≤ id.toNat then some id.toNat else none
        | _ => none
      match bad with
      | some b => some (.barrierMisuse, b)
      | none =>
        if (i.needs.1 && !h.mat) || (i.needs.2 && !h.smp) then some (.illegalOpcode, 0) else none

/-! ## The issue in progress -/

/-- What an instruction of an issue sees: the issue, its wave, crew and task. -/
structure Env where
  p : Issue
  w : Wave
  k : Crew
  t : Task

def State.env? (s : State) : Option Env :=
  match s.iss with
  | none => none
  | some p => match s.wave? p.wave with
    | none => none
    | some w => match s.crew? w.crew with
      | none => none
      | some k => match s.task? k.task with
        | none => none
        | some t => some ⟨p, w, k, t⟩

/-- A thread that no wave has: what a lane beyond a wave's width holds. -/
def Thread.absent : Thread :=
  { run := .ended, after := .ready, half := false, seg := 0, pc := 0, entry := false, next := 0, swAfter := false,
    v := [], fly := [], dbl := [], pix := 0, loops := [0, 0, 0, 0], lends := [0, 0, 0, 0], rngk := 0, rngc := 0,
    tid := 0, hit := 0, helper := false, since := 0, dfault := none, storeQ := [], fences := 0, exch := false,
    mixed := false, named := [], again := false, ord := .start 0 }

def Wave.th (w : Wave) (l : Nat) : Thread := getAt w.threads l .absent

/-- Replaces the threads of a mask. -/
def Wave.each (w : Wave) (m : BitVec 64) (f : Nat → Thread → Thread) : Wave :=
  { w with threads := w.threads.mapIdx fun l th => if m.getLsbD l then f l th else th }

/-- A mask from a test of lanes. -/
def maskOf (f : Nat → Bool) : BitVec 64 := BitVec.ofFnLE fun (l : Fin 64) => f l.val

/-- The lanes of a mask, ascending. -/
def lanesOf (m : BitVec 64) : List Nat := (List.range 64).filter fun l => m.getLsbD l

/-- The lanes of a wave (R21). -/
def Wave.all (w : Wave) : BitVec 64 := maskOf fun l => decide (l < w.width)

/-- Mask register n, with the bits in flight UNDEFINED (R21, R65). -/
def Wave.kreg (w : Wave) (s : State) (tag n : Nat) : BitVec 64 :=
  if n = 0 then w.all
  else
    let m := maskOf fun l => (w.th l).fly.contains (0x300 + n)
    let x := getAt w.k (n - 1) 0
    if m = 0 then x else (x &&& ~~~m) ||| (s.fresh tag &&& m &&& w.all)

namespace Env

variable (e : Env)

/-- The non-helper lanes of a mask. -/
def real (m : BitVec 64) : BitVec 64 := m &&& ~~~e.w.helperMask

/-- A tag that tells the free values of a lane's operand apart. -/
def tag (l n : Nat) : Nat := (e.p.slot % 5 + 1) * 2 ^ 40 + l * 2 ^ 20 + n

/-- Vector register n of lane l: UNDEFINED between a variable-latency write and the marker (R65). -/
def v (s : State) (l n : Nat) : Word :=
  if (e.w.th l).fly.contains n then s.fresh32 (e.tag l n) else getAt (e.w.th l).v n 0

/-- Uniform register n as an issue of this clock reads it (R19, R20). -/
def sStored (n : Nat) : Dword :=
  if n < 64 then getAt e.w.sp n 0
  else match e.k.prev.find? fun x => x.1 == n - 64 with
    | some x => x.2
    | none => getAt e.k.ss (n - 64) 0

/-- Uniform register n as lane l reads it (R65). -/
def s1 (s : State) (l n : Nat) : Dword :=
  if (e.w.th l).fly.contains (0x100 + n) then s.fresh (e.tag l (0x100 + n)) else e.sStored n

/-- Mask register n (R21, R65). -/
def kreg (s : State) (n : Nat) : BitVec 64 := e.w.kreg s (e.tag 64 (0x300 + n)) n

/-- A mask register as the issue read it (R47). -/
def mask (n : Nat) : BitVec 64 := getAt e.p.masks n 0

/-- guard of R57 over the issuing threads. -/
def guard (h : Head) : BitVec 64 :=
  e.p.lanes &&& (e.mask h.g.val ^^^ (if h.gn then BitVec.allOnes 64 else 0))

/-- exec of R57. -/
def exec (h : Head) (m : Option Modifier) : BitVec 64 :=
  match m with
  | none => e.guard h
  | some x => e.guard h &&& e.mask x.msk.val

/-- The threads whose destination takes zero (R57). -/
def zeroed (h : Head) (m : Option Modifier) : BitVec 64 :=
  match m with
  | none => 0
  | some x => if x.mz then e.guard h &&& ~~~e.mask x.msk.val else 0

/-- A source operand of lane l: 64 bits where `wide`, else 32 (R127). -/
def src (s : State) (l : Nat) (wide : Bool) : Opd → Nat
  | .v n => if wide then (e.v s l n.val).toNat + 2 ^ 32 * (e.v s l (n.val + 1)).toNat
            else (e.v s l n.val).toNat
  | .s n => if wide then (e.s1 s l n.val).toNat else (e.s1 s l n.val).toNat % 2 ^ 32
  | .k n => (e.kreg s n.val).toNat
  | _ => 0

/-- The lane whose reading of a uniform source counts for the group. -/
def lead (m : BitVec 64) : Nat := lowLane m

/-- A uniform source (R123), read once per issue. -/
def usrc (s : State) (m : BitVec 64) (o : Opd) : Dword :=
  match o with
  | .s n =>
    match (lanesOf m).find? fun l => (e.w.th l).fly.contains (0x100 + n.val) with
    | some l => e.s1 s l n.val
    | none => e.sStored n.val
  | .k n => e.kreg s n.val
  | _ => 0

/-- The effective rounding mode (spec/03 R85). -/
def rm (m : Option Modifier) : Rm :=
  match m with
  | some x => if x.rm == .dyn then (Rm.ofCode (e.p.mode.toNat % 8)).getD .rne else x.rm
  | none => (Rm.ofCode (e.p.mode.toNat % 8)).getD .rne

end Env

def satOf (m : Option Modifier) : Bool :=
  match m with
  | some x => x.sat
  | none => false

/-! ## Writing results -/

/-- A result in a thread's register n, or register pair (R18). -/
def Thread.setV (th : Thread) (n : Nat) (wide : Bool) (x : Nat) : Thread :=
  let v1 := th.v.set n (BitVec.ofNat 32 x)
  { th with v := if wide then v1.set (n + 1) (BitVec.ofNat 32 (x / 2 ^ 32)) else v1 }

/-- Results in the v destination of the threads of `x`, zero in those of `z` (R57); any other
destination keeps the wave as it is. -/
def Wave.putV (w : Wave) (x z : BitVec 64) (d : Opd) (wide : Bool) (val : Nat → Nat) : Wave :=
  match d with
  | .v n => w.each (x ||| z) fun l th => th.setV n.val wide (if x.getLsbD l then val l else 0)
  | _ => w

/-- Bits in a mask register: the threads of `x` write theirs, those of `z` zero (R21, R57). k0
takes no write. -/
def Wave.setK (w : Wave) (n : Nat) (x z bits : BitVec 64) : Wave :=
  if n = 0 then w
  else { w with k := updAt w.k (n - 1) fun old => (old &&& ~~~(x ||| z)) ||| (bits &&& x) }

def Wave.putK (w : Wave) (x z : BitVec 64) (d : Opd) (bits : BitVec 64) : Wave :=
  match d with
  | .k n => w.setK n.val x z bits
  | _ => w

/-- An outstanding result whose uniform destination a later issue has written. -/
def Pend.overtaken (p : Pend) (d : Opd) : Pend :=
  match p.i with
  | .sld y => if y.r == d then { p with i := .sld { y with r := .zero } } else p
  | _ => if p.dst == d then { p with dst := .zero } else p

/-- Uniform results that other groups than `m` have in flight to a register were issued earlier, and do not
write it again (spec/04 R126). -/
def Wave.overtake (w : Wave) (m : BitVec 64) (d : Opd) : Wave :=
  { w with out := w.out.map fun p => if p.lanes &&& m = 0 then p.overtaken d else p }

/-- A crew-shared register at an issue: its old value stays visible for the rest of the clock (R20). -/
def Crew.putS (k : Crew) (n : Nat) (x : Dword) : Crew :=
  { k with
    prev := if k.prev.any fun y => y.1 == n then k.prev else (n, getAt k.ss n 0) :: k.prev
    ss := k.ss.set n x }

/-- A uniform register of a wave and its crew, written at an issue of the lanes `m` (R19, R20). -/
def State.putS (s : State) (w : Wave) (m : BitVec 64) (d : Opd) (x : Dword) : State :=
  match d with
  | .s n =>
    let w1 := w.overtake m d
    if n.val < 64 then s.setWave { w1 with sp := w1.sp.set n.val x }
    else match s.crew? w.crew with
      | some k => (s.setWave w1).setCrew (k.putS (n.val - 64) x)
      | none => s.setWave w1
  | _ => s.setWave w

/-- A uniform register as a result lands in it. -/
def State.landS (s : State) (w : Wave) (d : Opd) (x : Dword) : State :=
  match d with
  | .s n =>
    if n.val < 64 then s.setWave { w with sp := w.sp.set n.val x }
    else match s.crew? w.crew with
      | some k => (s.setWave w).setCrew { k with ss := k.ss.set (n.val - 64) x }
      | none => s.setWave w
  | _ => s.setWave w

/-- A narrow scalar result in its register (R62). -/
def place (t : Ty) (x : Nat) : Nat :=
  match t with
  | .i8 => ofSigned 32 (toSigned 8 (x % 256))
  | .i16 => ofSigned 32 (toSigned 16 (x % 65536))
  | _ => if t.bits = 64 then x % 2 ^ 64 else if t.bits = 0 then x % 2 ^ 32 else x % 2 ^ t.bits

/-! ## Flags and draws -/

/-- Flags of the non-helper threads of a mask into %fflags (R27, spec/03 R91). -/
def Wave.orFlags (w : Wave) (m : BitVec 64) (fl : Nat → Dword) : Wave :=
  { w with fflags := (lanesOf m).foldl (fun a l => if (w.th l).helper then a else a ||| fl l) w.fflags }

/-- Rotation of a 32-bit word to the left. -/
def rotl32 (x : Word) (n : Nat) : Word := x.rotateLeft n

/-- Word w of a 128-bit value (spec/08 R251). -/
def word128 (x : BitVec 128) (w : Nat) : Word := x.extractLsb' (32 * w) 32

def of4 (a b c d : Word) : BitVec 128 := d ++ c ++ b ++ a

/-- One round of the Sprout block function. -/
def sproutRound (k : BitVec 128) (i : Nat) (x : Word × Word × Word × Word) :
    Word × Word × Word × Word :=
  let pa := getAt [13, 17, 5, 24] (i % 4) 0
  let pb := getAt [9, 21, 11, 3] (i % 4) 0
  let x0 := x.1 + x.2.1
  let x3 := rotl32 (x.2.2.2 ^^^ x0) pa
  let x2 := x.2.2.1 + x3
  let x1 := rotl32 (x.2.1 ^^^ x2) pb
  let y0 := x0 + word128 k (i % 4)
  let y2 := x2 ^^^ (word128 k ((i + 2) % 4) + 0x6B43A9B5 * BitVec.ofNat 32 (i + 1))
  (x1, y2, x3, y0)

/-- Block (spec/08 R251). -/
def sprout (k c : BitVec 128) : BitVec 128 :=
  let x := (List.range 12).foldl (fun x i => sproutRound k i x)
    (word128 c 0, word128 c 1, word128 c 2, word128 c 3)
  of4 (x.1 + word128 k 0) (x.2.1 + word128 k 1) (x.2.2.1 + word128 k 2) (x.2.2.2 + word128 k 3)

/-- The key of a seed and logical index (spec/08 R253). -/
def sproutKey (seed : Dword) (tid : Word) : BitVec 128 :=
  sprout (of4 (seed.setWidth 32) (seed.extractLsb' 32 32) 0x51E67A3C 0x2C8D04F1) (of4 tid 0 0 0)

/-- The draw of lane l (R252): a helper thread takes none, so its slices are left open (R87). -/
def Env.draw (e : Env) (s : State) (l : Nat) : BitVec 128 :=
  let th := e.w.th l
  if th.helper then (s.fresh (e.tag l 0xFFFF)).setWidth 128 else sprout th.rngk th.rngc

/-- The counters of the non-helper threads of a mask advance by one draw (R252). -/
def Wave.advance (w : Wave) (m : BitVec 64) : Wave :=
  w.each m fun _ th => if th.helper then th else { th with rngc := th.rngc + 1 }

/-- Slice e of a draw (R87). -/
def slice (d : BitVec 128) (i : Nat) : Nat := bitsOf d.toNat (8 * i) 8

/-! ## Outstanding results -/

/-- Appends an outstanding result to a wave. -/
def Wave.push (w : Wave) (p : Pend) : Wave := { w with out := w.out ++ [p] }

/-- Whether lane l has a result or access outstanding. -/
def Wave.outstanding (w : Wave) (l : Nat) : Bool := w.out.any fun p => p.lanes.getLsbD l

/-! ## Meanings of lane instructions -/

/-- Ends the issue before its effect (R47): the threads stay at its first slot. -/
def State.stopIssue (s : State) : State := { s with iss := none }

/-- The trap of one lane. -/
def laneTrap (c : Cause) (l : Nat) : Trap := { cause := c, lane := some l }

/-- The lane that an access of the threads of m is made for: the lowest that is no helper, or the lowest (R98, R160). -/
def Env.leader (e : Env) (m : BitVec 64) : Nat := lowLane (if e.real m = 0 then m else e.real m)

/-- A fault that the threads `m` of an issue cause together: the lowest that is no helper takes it; in a group
with other threads, helpers that alone would cause it end (spec/04 R98). -/
def Env.charge (e : Env) (s : State) (m : BitVec 64) (t : Trap) : Except Stop State :=
  if e.real m != 0 then .error (.trap { t with lane := some (lowLane (e.real m)) })
  else if e.real e.p.lanes = 0 then .error (.trap { t with lane := some (lowLane m) })
  else .ok (s.setWave (e.w.endHelpers m))

/-- Runs the meaning of a lane instruction: it needs an issue in progress; a stop is taken as
spec/16 says, and a park leaves the threads at the instruction. -/
def onIssue (s : State) (f : Env → Except Stop State) : Host.Outcome State Fault Refusal :=
  match s.env? with
  | none => .fault .noIssue
  | some e => match f e with
    | .ok s' => .next s'
    | .error x => .next ((s.takeStop e.w e.p.lanes e.p.slot x).stopIssue)

end Sys2Proof.Machine
end

