-- ==== Sys2Proof/Machine/Vector.lean ====
section
/-! DEFINITION. The vector integer instructions (spec/05 R127 to R134), under spec/03 R76 and R77. -/

namespace Sys2Proof.Machine

/-! ## Elements -/

/-- The element type of a register and how many it holds (spec/02 R62). -/
def elemOf : Ty → Ty × Nat
  | .i8x4 => (.i8, 4)
  | .n8x4 => (.n8, 4)
  | .f16x2 => (.f16, 2)
  | .bf16x2 => (.bf16, 2)
  | .e4m3x4 => (.e4m3, 4)
  | .e5m2x4 => (.e5m2, 4)
  | t => (t, 1)

/-- Sub-elements put together, sub-element 0 lowest. -/
def joinSubs (w : Nat) : List Nat → Nat
  | [] => 0
  | x :: r => x % 2 ^ w + 2 ^ w * joinSubs w r

/-- Applies an operation to every sub-element (R62); a scalar goes whole. The operation gets the
sub-element's index. -/
def eachSub (t : Ty) (f : Nat → List Nat → Nat) (xs : List Nat) : Nat :=
  if (elemOf t).2 = 1 then f 0 xs
  else joinSubs (elemOf t).1.bits ((List.range (elemOf t).2).map fun i =>
    f i (xs.map fun x => bitsOf x ((elemOf t).1.bits * i) (elemOf t).1.bits))

/-- The integer an element stands for (R76). -/
def intOf (t : Ty) (x : Nat) : Int :=
  if t.signed then toSigned t.bits (x % 2 ^ t.bits) else ((x % 2 ^ t.bits : Nat) : Int)

/-- An exact integer result in its type: wrapped or clamped (R77), as a register holds it (R62). -/
def intRes (t : Ty) (sat : Bool) (v : Int) : Nat :=
  place t (ofSigned t.bits (if sat then clampTo t v else v))

/-- The quotient of R77, which a zero divisor gives with or without SAT. -/
def divRes (t : Ty) (sat : Bool) (a b : Int) : Nat :=
  if b = 0 then place t (2 ^ t.bits - 1) else intRes t sat (a.tdiv b)

def remInt (a b : Int) : Int := if b = 0 then a else a.tmod b

/-- Bits of a type's width. -/
def low (t : Ty) (x : Nat) : Nat := x % 2 ^ t.bits

def popcNat (w x : Nat) : Nat := ((List.range w).filter fun i => x.testBit i).length

def clzNat (w x : Nat) : Nat := if x = 0 then w else w - 1 - x.log2

def ctzNat (w x : Nat) : Nat := ((List.range w).find? fun i => x.testBit i).getD w

def brevNat (w x : Nat) : Nat := joinSubs 1 ((List.range w).map fun i => bitsOf x (w - 1 - i) 1)

/-- Shifts by the low 8 bits of b (R130). -/
def shlNat (w a b : Nat) : Nat := if b % 256 < w then a * 2 ^ (b % 256) % 2 ^ w else 0

def shrNat (w a b : Nat) : Nat := if b % 256 < w then a / 2 ^ (b % 256) else 0

def sraInt (w : Nat) (a : Int) (b : Nat) : Int := a / (2 ^ min (b % 256) w : Nat)

/-- Rotation to the left by n below w. -/
def rotNat (w a n : Nat) : Nat := (a * 2 ^ n + a / 2 ^ (w - n)) % 2 ^ w

/-- lop3 (R130). -/
def lop3Nat (w : Nat) (lut : BitVec 8) (a b c : Nat) : Nat :=
  joinSubs 1 ((List.range w).map fun i =>
    if lut.getLsbD (4 * bitsOf a i 1 + 2 * bitsOf b i 1 + bitsOf c i 1) then 1 else 0)

/-- bfe (R132). -/
def bfeNat (t : Ty) (a b : Nat) : Nat :=
  let n := min (b / 256 % 256) t.bits
  let f := bitsOf (low t a) (b % 256) n
  if n = 0 then 0
  else if t.signed then ofSigned t.bits (toSigned n f) else f

/-- bfi (R132). -/
def bfiNat (t : Ty) (a b c : Nat) : Nat :=
  let o := b % 256
  let n := min (b / 256 % 256) t.bits
  if n = 0 || t.bits ≤ o then low t c
  else low t (replaceBits (low t c) o n a)

/-- The comparisons of cmp and scmp (R124, R133). -/
def cmpInt (o : CmpOp) (a b : Int) : Bool :=
  match o with
  | .eq => a == b
  | .ne => a != b
  | .lt => decide (a < b)
  | .le => decide (a ≤ b)
  | .gt => decide (b < a)
  | .ge => decide (b ≤ a)

/-- dot4 (R134). -/
def dot4Nat (t : Ty) (mix sat : Bool) (a b c : Nat) : Nat :=
  let ta := (elemOf t).1
  let tb : Ty := if mix then (if ta == .i8 then .n8 else .i8) else ta
  let s := (List.range 4).foldl (fun acc i =>
    acc + intOf ta (bitsOf a (8 * i) 8) * intOf tb (bitsOf b (8 * i) 8)) (intOf .i32 c)
  intRes .i32 sat s

/-! ## Operands and results -/

/-- An integer immediate at the width of a type (R128); one of a b64 form is extended as that of an integer type
(notes/assumptions/20). -/
def immInt (t : Ty) (x : BitVec 32) : Nat := if t.wide then (x.signExtend 64).toNat else x.toNat

def imm22Int (t : Ty) (x : BitVec 22) : Nat := immInt t (x.signExtend 32)

/-- Source B of an integer form. -/
def Env.b32 (e : Env) (s : State) (l : Nat) (t : Ty) (wide : Bool) : Src32 → Nat
  | .reg o => e.src s l wide o
  | .imm x => immInt t x

def Env.b22 (e : Env) (s : State) (l : Nat) (t : Ty) : Src22 → Nat
  | .reg o => e.src s l t.wide o
  | .imm x => imm22Int t x

/-- A fixed-latency result in a v register (R57, R63). -/
def Env.putV (e : Env) (s : State) (h : Head) (m : Option Modifier) (d : Opd) (wide : Bool)
    (val : Nat → Nat) : State :=
  s.setWave (e.w.putV (e.exec h m) (e.zeroed h m) d wide val)

/-- A fixed-latency result in a mask register. -/
def Env.putK (e : Env) (s : State) (h : Head) (m : Option Modifier) (d : Opd) (val : Nat → Bool) :
    State :=
  s.setWave (e.w.putK (e.exec h m) (e.zeroed h m) d (maskOf val))

/-- The meaning of an element-wise integer instruction with two sources. -/
def vec2 (x : VBin) (f : Nat → Nat → Nat) (s : State) : Host.Outcome State Fault Refusal :=
  onIssue s fun e => .ok (e.putV s x.h x.mod x.d x.ty.wide fun l =>
    eachSub x.ty (fun _ v => f (v.getD 0 0) (v.getD 1 0))
      [e.src s l x.ty.wide x.a, e.b32 s l x.ty x.ty.wide x.b])

/-- The meaning of an element-wise integer instruction with one source. -/
def vec1 (x : VUn) (wideD : Bool) (f : Nat → Nat) (s : State) : Host.Outcome State Fault Refusal :=
  onIssue s fun e => .ok (e.putV s x.h x.mod x.d wideD fun l =>
    eachSub x.ty (fun _ v => f (v.getD 0 0)) [e.src s l x.ty.wide x.a])

/-- The meaning of an element-wise integer instruction with three sources. -/
def vec3 (x : VTer) (f : Nat → Nat → Nat → Nat) (s : State) : Host.Outcome State Fault Refusal :=
  onIssue s fun e => .ok (e.putV s x.h x.mod x.d x.ty.wide fun l =>
    f (e.src s l x.ty.wide x.a) (e.b22 s l x.ty x.b) (e.src s l x.ty.wide x.c))

/-! ## Meanings (R130) -/

def execAdd (x : VBin) (s : State) : Host.Outcome State Fault Refusal :=
  let t := (elemOf x.ty).1
  vec2 x (fun a b => intRes t (satOf x.mod) (intOf t a + intOf t b)) s

def execSub (x : VBin) (s : State) : Host.Outcome State Fault Refusal :=
  let t := (elemOf x.ty).1
  vec2 x (fun a b => intRes t (satOf x.mod) (intOf t a - intOf t b)) s

def execMul (x : VBin) (s : State) : Host.Outcome State Fault Refusal :=
  let t := (elemOf x.ty).1
  vec2 x (fun a b => intRes t (satOf x.mod) (intOf t a * intOf t b)) s

def execMulh (x : VBin) (s : State) : Host.Outcome State Fault Refusal :=
  vec2 x (fun a b => intRes x.ty false (intOf x.ty a * intOf x.ty b / (2 ^ x.ty.bits : Nat))) s

def execMad (x : VTer) (s : State) : Host.Outcome State Fault Refusal :=
  vec3 x (fun a b c =>
    intRes x.ty (satOf x.mod) (intOf x.ty a * intOf x.ty b + intOf x.ty c)) s

def execDiv (x : VBin) (s : State) : Host.Outcome State Fault Refusal :=
  vec2 x (fun a b => divRes x.ty (satOf x.mod) (intOf x.ty a) (intOf x.ty b)) s

def execRem (x : VBin) (s : State) : Host.Outcome State Fault Refusal :=
  vec2 x (fun a b => intRes x.ty false (remInt (intOf x.ty a) (intOf x.ty b))) s

/-- Bit l of the carry source of addc and subb; 0 for zero (R131). -/
def Env.cin (e : Env) (s : State) (l : Nat) : Opd → Nat
  | .k n => if (e.kreg s n.val).getLsbD l then 1 else 0
  | _ => 0

/-- addc (R131): the sum and its carry. -/
def execAddc (x : VCarry) (s : State) : Host.Outcome State Fault Refusal :=
  onIssue s fun e =>
    let w := x.ty.wide
    let t (l : Nat) : Nat := low x.ty (e.src s l w x.a) + low x.ty (e.src s l w x.b) + e.cin s l x.c
    .ok (s.setWave ((e.w.putV (e.exec x.h x.mod) (e.zeroed x.h x.mod) x.d w
      fun l => low x.ty (t l)).setK x.kout.val (e.exec x.h x.mod) (e.zeroed x.h x.mod)
        (maskOf fun l => (t l).testBit x.ty.bits)))

/-- subb (R131): the difference and its borrow. -/
def execSubb (x : VCarry) (s : State) : Host.Outcome State Fault Refusal :=
  onIssue s fun e =>
    let w := x.ty.wide
    let a (l : Nat) : Nat := low x.ty (e.src s l w x.a)
    let b (l : Nat) : Nat := low x.ty (e.src s l w x.b) + e.cin s l x.c
    .ok (s.setWave ((e.w.putV (e.exec x.h x.mod) (e.zeroed x.h x.mod) x.d w
      fun l => ofSigned x.ty.bits ((a l : Int) - b l)).setK x.kout.val (e.exec x.h x.mod)
        (e.zeroed x.h x.mod) (maskOf fun l => decide (a l < b l))))

def execAnd (x : VBin) (s : State) : Host.Outcome State Fault Refusal :=
  vec2 x (fun a b => low x.ty (a &&& b)) s

def execOr (x : VBin) (s : State) : Host.Outcome State Fault Refusal :=
  vec2 x (fun a b => low x.ty (a ||| b)) s

def execXor (x : VBin) (s : State) : Host.Outcome State Fault Refusal :=
  vec2 x (fun a b => low x.ty (a ^^^ b)) s

def execLop3 (lut : BitVec 8) (x : VTri) (s : State) : Host.Outcome State Fault Refusal :=
  onIssue s fun e => .ok (e.putV s x.h x.mod x.d x.ty.wide fun l =>
    lop3Nat x.ty.bits lut (e.src s l x.ty.wide x.a) (e.src s l x.ty.wide x.b)
      (e.src s l x.ty.wide x.c))

def execShl (x : VBin) (s : State) : Host.Outcome State Fault Refusal :=
  vec2 x (fun a b => shlNat x.ty.bits (low x.ty a) b) s

def execShr (x : VBin) (s : State) : Host.Outcome State Fault Refusal :=
  vec2 x (fun a b => shrNat x.ty.bits (low x.ty a) b) s

def execSra (x : VBin) (s : State) : Host.Outcome State Fault Refusal :=
  vec2 x (fun a b => intRes x.ty false (sraInt x.ty.bits (intOf x.ty a) b)) s

def execRot (right : Bool) (x : VBin) (s : State) : Host.Outcome State Fault Refusal :=
  vec2 x (fun a b =>
    let n := b % 256 % x.ty.bits
    rotNat x.ty.bits (low x.ty a) (if right then (x.ty.bits - n) % x.ty.bits else n)) s

def execMin (x : VBin) (s : State) : Host.Outcome State Fault Refusal :=
  let t := (elemOf x.ty).1
  vec2 x (fun a b => intRes t false (min (intOf t a) (intOf t b))) s

def execMax (x : VBin) (s : State) : Host.Outcome State Fault Refusal :=
  let t := (elemOf x.ty).1
  vec2 x (fun a b => intRes t false (max (intOf t a) (intOf t b))) s

def execAbs (x : VUn) (s : State) : Host.Outcome State Fault Refusal :=
  let t := (elemOf x.ty).1
  vec1 x x.ty.wide (fun a => intRes t (satOf x.mod) (intOf t a).natAbs) s

def execPopc (x : VUn) (s : State) : Host.Outcome State Fault Refusal :=
  vec1 x false (fun a => popcNat x.ty.bits a) s

def execClz (x : VUn) (s : State) : Host.Outcome State Fault Refusal :=
  vec1 x false (fun a => clzNat x.ty.bits (low x.ty a)) s

def execCtz (x : VUn) (s : State) : Host.Outcome State Fault Refusal :=
  vec1 x false (fun a => ctzNat x.ty.bits a) s

def execBrev (x : VUn) (s : State) : Host.Outcome State Fault Refusal :=
  vec1 x x.ty.wide (fun a => brevNat x.ty.bits a) s

def execBfe (x : VBin) (s : State) : Host.Outcome State Fault Refusal :=
  vec2 x (fun a b => bfeNat x.ty a b) s

def execBfi (x : VTer) (s : State) : Host.Outcome State Fault Refusal :=
  vec3 x (fun a b c => bfiNat x.ty a b c) s

/-- sel (R130): the condition is bit l of a mask register, or a nonzero 32-bit source. -/
def execSel (x : VTer) (s : State) : Host.Outcome State Fault Refusal :=
  onIssue s fun e => .ok (e.putV s x.h x.mod x.d x.ty.wide fun l =>
    let c : Bool := match x.c with
      | .k n => (e.kreg s n.val).getLsbD l
      | o => e.src s l false o != 0
    if c then e.src s l x.ty.wide x.a else e.b22 s l x.ty x.b)

/-- cmp (R133). -/
def execCmp (o : CmpOp) (x : VBin) (s : State) : Host.Outcome State Fault Refusal :=
  onIssue s fun e => .ok (e.putK s x.h x.mod x.d fun l =>
    cmpInt o (intOf x.ty (e.src s l x.ty.wide x.a)) (intOf x.ty (e.b32 s l x.ty x.ty.wide x.b)))

def execDot4 (mix : Bool) (x : VTer) (s : State) : Host.Outcome State Fault Refusal :=
  vec3 x (fun a b c => dot4Nat x.ty mix (satOf x.mod) a b c) s

end Sys2Proof.Machine
end

