-- ==== Sys2Proof/Machine/Float.lean ====
section
/-! DEFINITION. The floating-point instructions (spec/05 R135 to R142), over the formats, rounding and
flags of Machine/Flags.lean. -/

namespace Sys2Proof.Machine

/-! ## Sources -/

/-- An f32 pattern widened to f64; a NaN gives the canonical NaN without a flag (R128). -/
def widen64 (x : Nat) : Nat := (finish .f64 rne (Fmt.f32.decode false x)).1

/-- A floating immediate of a form without a third source (R128). -/
def immF (t : Ty) (x : BitVec 32) : Nat :=
  match t with
  | .f64 => widen64 x.toNat
  | .f16 | .bf16 => x.toNat % 2 ^ 16
  | _ => x.toNat

/-- A 22-bit floating immediate (R128). -/
def imm22F (t : Ty) (x : BitVec 22) : Nat :=
  match t with
  | .f64 => widen64 (x.toNat * 2 ^ 10)
  | .f16 | .bf16 => x.toNat % 2 ^ 16
  | _ => x.toNat * 2 ^ 10

def Env.bF (e : Env) (s : State) (l : Nat) (t : Ty) : Src32 → Nat
  | .reg o => e.src s l t.wide o
  | .imm x => immF t x

def Env.bF22 (e : Env) (s : State) (l : Nat) (t : Ty) : Src22 → Nat
  | .reg o => e.src s l t.wide o
  | .imm x => imm22F t x

/-- The format of a type's elements. -/
def fmtFor (t : Ty) : Fmt := (fmtOf t).getD .f32

/-- How an instruction rounds sub-element i of lane l: its mode, SAT, flush and slice (R85 to R88). -/
def Env.fin (e : Env) (s : State) (l i : Nat) (m : Option Modifier) (f : Fmt) : Finish :=
  { rm := e.rm m, sat := satOf m, fz := flushes e.p.mode f,
    r8 := if e.rm m = .rsr then slice (e.draw s l) i else 0 }

/-! ## Results -/

/-- Results of sub-elements put together, with their flags. -/
def joinRes (w : Nat) (l : List Res) : Res :=
  (joinSubs w (l.map (·.1)), l.foldl (fun a x => a ||| x.2) 0)

/-- Applies a floating operation to every sub-element, with its index. -/
def eachF (t : Ty) (f : Nat → List Nat → Res) (xs : List Nat) : Res :=
  if (elemOf t).2 = 1 then f 0 xs
  else joinRes (elemOf t).1.bits ((List.range (elemOf t).2).map fun i =>
    f i (xs.map fun x => bitsOf x ((elemOf t).1.bits * i) (elemOf t).1.bits))

/-- Draws of the active threads where the instruction rounds under RSR (R87). -/
def Env.drawn (e : Env) (h : Head) (m : Option Modifier) (rounds : Bool) (w : Wave) : Wave :=
  if rounds && e.rm m = .rsr then w.advance (e.exec h m) else w

/-- A fixed-latency floating result: the value, the flags at issue, and the draw (R87, R91). -/
def Env.putF (e : Env) (s : State) (h : Head) (m : Option Modifier) (d : Opd) (wide rounds : Bool)
    (val : Nat → Res) : State :=
  s.setWave (e.drawn h m rounds
    ((e.w.putV (e.exec h m) (e.zeroed h m) d wide fun l => (val l).1).orFlags (e.exec h m)
      fun l => (val l).2))

/-- A floating comparison into a mask register (R133, R138). -/
def Env.putFK (e : Env) (s : State) (h : Head) (m : Option Modifier) (d : Opd)
    (val : Nat → Bool × Dword) : State :=
  s.setWave ((e.w.putK (e.exec h m) (e.zeroed h m) d (maskOf fun l => (val l).1)).orFlags
    (e.exec h m) fun l => (val l).2)

/-- The words of a result of one or two registers. -/
def wordsOf (wide : Bool) (x : Nat) : List Word :=
  if wide then [BitVec.ofNat 32 x, BitVec.ofNat 32 (x / 2 ^ 32)] else [BitVec.ofNat 32 x]

/-- An outstanding result whose value is known at issue (R63, R91). -/
def doneResult (i : Instr) (slot l : Nat) (d : Opd) (ext : List Word) (fl : Dword) : Pend :=
  { lanes := 1#64 <<< l, lane := l, slot := slot, issue := 0, i := i, a := 0, b := 0, c := 0, ext := ext,
    dst := d, done := true, flags := fl, taint := false, wait := none, toks := [], since := 0 }

/-- Variable-latency results: one outstanding result for each active thread, and a zero for each
masked one under MZ (R57, R63). -/
def Env.pushV (e : Env) (i : Instr) (h : Head) (m : Option Modifier) (d : Opd) (wide : Bool)
    (val : Nat → Res) (w : Wave) : Wave :=
  let x := e.exec h m
  (lanesOf (x ||| e.zeroed h m)).foldl (fun w l =>
    if x.getLsbD l then
      w.push (doneResult i e.p.slot l d (wordsOf wide (val l).1)
        (if (e.w.th l).helper then 0 else (val l).2))
    else w.push (doneResult i e.p.slot l d (wordsOf wide 0) 0)) w

/-- A variable-latency floating result. -/
def Env.putFV (e : Env) (s : State) (i : Instr) (h : Head) (m : Option Modifier) (d : Opd)
    (wide rounds : Bool) (val : Nat → Res) : State :=
  s.setWave (e.drawn h m rounds (e.pushV i h m d wide val e.w))

/-! ## Shapes -/

/-- The result of a two-source floating form in lane l. -/
def Env.f2 (e : Env) (s : State) (x : VBin) (f : Fmt → Finish → FVal → FVal → Res) (l : Nat) : Res :=
  let ft := fmtFor x.ty
  let fz := flushes e.p.mode ft
  eachF x.ty (fun i v => f ft (e.fin s l i x.mod ft) (ft.decode fz (v.getD 0 0))
    (ft.decode fz (v.getD 1 0))) [e.src s l x.ty.wide x.a, e.bF s l x.ty x.b]

def float2 (x : VBin) (f : Fmt → Finish → FVal → FVal → Res) (s : State) :
    Host.Outcome State Fault Refusal :=
  onIssue s fun e => .ok (e.putF s x.h x.mod x.d x.ty.wide true (e.f2 s x f))

/-- The result of a one-source floating form in lane l. -/
def Env.f1 (e : Env) (s : State) (x : VUn) (f : Fmt → Finish → FVal → Res) (l : Nat) : Res :=
  let ft := fmtFor x.ty
  eachF x.ty (fun i v => f ft (e.fin s l i x.mod ft)
    (ft.decode (flushes e.p.mode ft) (v.getD 0 0))) [e.src s l x.ty.wide x.a]

/-! ## Meanings (R135 to R142) -/

/-- A sum or difference rounded once. -/
def addOf (neg : Bool) (f : Fmt) (k : Finish) (a b : FVal) : Res :=
  fusedSum f k [] [a, if neg then b.negate else b]

def mulOf (f : Fmt) (k : Finish) (a b : FVal) : Res :=
  let p := FVal.mul a b
  addFlags (finish f k p.1) p.2

def divOf (f : Fmt) (k : Finish) (a b : FVal) : Res :=
  let p := FVal.div a b
  addFlags (finish f k p.1) p.2

def execFadd (x : VBin) (s : State) : Host.Outcome State Fault Refusal := float2 x (addOf false) s

def execFsub (x : VBin) (s : State) : Host.Outcome State Fault Refusal := float2 x (addOf true) s

def execFmul (x : VBin) (s : State) : Host.Outcome State Fault Refusal := float2 x mulOf s

/-- fma (R136). -/
def execFma (neg sub : Bool) (x : VTer) (s : State) : Host.Outcome State Fault Refusal :=
  onIssue s fun e =>
    let ft := fmtFor x.ty
    let dec := ft.decode (flushes e.p.mode ft)
    .ok (e.putF s x.h x.mod x.d x.ty.wide true fun l =>
      eachF x.ty (fun i v => fmaOf ft (e.fin s l i x.mod ft) neg sub (dec (v.getD 0 0))
        (dec (v.getD 1 0)) (dec (v.getD 2 0)))
        [e.src s l x.ty.wide x.a, e.bF22 s l x.ty x.b, e.src s l x.ty.wide x.c])

/-- fmin and fmax (R137): the chosen operand's bits. -/
def floatMinMax (isMax nan : Bool) (x : VBin) (s : State) : Host.Outcome State Fault Refusal :=
  onIssue s fun e => .ok (e.putF s x.h x.mod x.d x.ty.wide false fun l =>
    eachF x.ty (fun _ v => fminmaxOf (fmtFor x.ty) isMax nan (low (elemOf x.ty).1 (v.getD 0 0))
      (low (elemOf x.ty).1 (v.getD 1 0))) [e.src s l x.ty.wide x.a, e.bF s l x.ty x.b])

def execFmin (nan : Bool) (x : VBin) (s : State) : Host.Outcome State Fault Refusal :=
  floatMinMax false nan x s

def execFmax (nan : Bool) (x : VBin) (s : State) : Host.Outcome State Fault Refusal :=
  floatMinMax true nan x s

/-- fcmp (R138). -/
def execFcmp (o : FcmpOp) (x : VBin) (s : State) : Host.Outcome State Fault Refusal :=
  onIssue s fun e =>
    let ft := fmtFor x.ty
    let dec := ft.decode (flushes e.p.mode ft)
    .ok (e.putFK s x.h x.mod x.d fun l =>
      fcmpOf o (dec (e.src s l x.ty.wide x.a)) (dec (e.bF s l x.ty x.b)))

/-- fclass (R139): no flags, no flush. -/
def execFclass (mask : BitVec 10) (x : VUn) (s : State) : Host.Outcome State Fault Refusal :=
  onIssue s fun e => .ok (e.putK s x.h x.mod x.d fun l =>
    mask.getLsbD (fclassOf (fmtFor x.ty) (e.src s l x.ty.wide x.a)))

def execFdiv (x : VBin) (s : State) : Host.Outcome State Fault Refusal :=
  onIssue s fun e =>
    .ok (e.putFV s (.fdiv x) x.h x.mod x.d x.ty.wide true (e.f2 s x divOf))

def execFsqrt (x : VUn) (s : State) : Host.Outcome State Fault Refusal :=
  onIssue s fun e =>
    .ok (e.putFV s (.fsqrt x) x.h x.mod x.d x.ty.wide true (e.f1 s x sqrtOf))

/-- A special function (spec/03 R92): it takes no rounding mode and no draw. -/
def special (o : SFn) (i : Instr) (x : VUn) (s : State) : Host.Outcome State Fault Refusal :=
  onIssue s fun e =>
    let ft := fmtFor x.ty
    .ok (e.putFV s i x.h x.mod x.d x.ty.wide false fun l =>
      specialOf o x.ty ft (flushes e.p.mode ft) (low x.ty (e.src s l x.ty.wide x.a)))

def execFrcp (x : VUn) (s : State) : Host.Outcome State Fault Refusal := special .rcp (.frcp x) x s

def execFrsq (x : VUn) (s : State) : Host.Outcome State Fault Refusal := special .rsq (.frsq x) x s

def execFex2 (x : VUn) (s : State) : Host.Outcome State Fault Refusal := special .ex2 (.fex2 x) x s

def execFlg2 (x : VUn) (s : State) : Host.Outcome State Fault Refusal := special .lg2 (.flg2 x) x s

def execFsin (x : VUn) (s : State) : Host.Outcome State Fault Refusal := special .sin (.fsin x) x s

def execFcos (x : VUn) (s : State) : Host.Outcome State Fault Refusal := special .cos (.fcos x) x s

def execFrnd (x : VUn) (s : State) : Host.Outcome State Fault Refusal :=
  onIssue s fun e => .ok (e.putF s x.h x.mod x.d x.ty.wide true (e.f1 s x frndOf))

/-- fscl (R140): b is an i32. -/
def execFscl (x : VBin) (s : State) : Host.Outcome State Fault Refusal :=
  onIssue s fun e =>
    let ft := fmtFor x.ty
    .ok (e.putF s x.h x.mod x.d x.ty.wide true fun l =>
      fsclOf ft (e.fin s l 0 x.mod ft)
        (ft.decode (flushes e.p.mode ft) (e.src s l x.ty.wide x.a))
        (toSigned 32 (e.b32 s l .i32 false x.b)))

/-! ## cvt (R141) -/

/-- Whether a form of cvt rounds, so that it takes a draw under RSR (R87). -/
def cvtRounds (x : Cvt) : Bool :=
  match x.form with
  | .scalar => convRounds x.sty x.dty
  | .unpack _ => false
  | .pair _ | .half _ _ | .repack => true

/-- SAT of a conversion: an exact form ignores it (R141). -/
def cvtSat (src dst : Ty) (m : Option Modifier) : Bool :=
  satOf m && !(!(src.isInt && dst.isInt) && !convRounds src dst)

/-- The conversion of one element of lane l, under slice i. -/
def Env.conv (e : Env) (s : State) (l i : Nat) (m : Option Modifier) (src dst : Ty) (x : Nat) : Res :=
  let r8 := if e.rm m = .rsr then slice (e.draw s l) i else 0
  convert src dst (e.rm m) (cvtSat src dst m) r8 e.p.mode x

/-- The result of cvt in lane l; `old` is D as the half-pack form reads it. -/
def Env.cvtRes (e : Env) (s : State) (x : Cvt) (l : Nat) : Res :=
  let a := e.src s l x.sty.wide x.a
  let de := (elemOf x.dty).1
  let se := (elemOf x.sty).1
  match x.form with
  | .scalar =>
    let r := e.conv s l 0 x.mod x.sty x.dty a
    (place x.dty r.1, r.2)
  | .pair b =>
    joinRes 16 [e.conv s l 0 x.mod .f32 de a, e.conv s l 1 x.mod .f32 de (e.src s l false b)]
  | .half hi b =>
    let old := e.src s l false x.d
    let h := if hi then 2 else 0
    let n := joinRes 8 [e.conv s l h x.mod x.sty de a,
      e.conv s l (h + 1) x.mod x.sty de (e.src s l false b)]
    (if hi then old % 2 ^ 16 + 2 ^ 16 * n.1 else old / 2 ^ 16 * 2 ^ 16 + n.1, n.2)
  | .unpack i => e.conv s l 0 x.mod se .f32 (bitsOf a (se.bits * i.val) se.bits)
  | .repack =>
    joinRes 16 [e.conv s l 0 x.mod se de (bitsOf a 0 16), e.conv s l 1 x.mod se de (bitsOf a 16 16)]

def execCvt (x : Cvt) (s : State) : Host.Outcome State Fault Refusal :=
  onIssue s fun e =>
    .ok (e.putF s x.h x.mod x.d x.dty.wide (cvtRounds x) (e.cvtRes s x))

/-- fdot (R93, R142). -/
def fdotRes (f : Fmt) (k : Finish) (fz : Bool) (ta tb : Ty) (n a b : Nat) (c : FVal) : Res :=
  let fa := fmtFor ta
  let fb := fmtFor tb
  let prods := (List.range n).map fun i =>
    FVal.mul (fa.decode fz (bitsOf a (ta.bits * i) ta.bits)) (fb.decode fz (bitsOf b (tb.bits * i) tb.bits))
  fusedSum f k prods [c]

def execFdot (mix : Bool) (x : VTri) (s : State) : Host.Outcome State Fault Refusal :=
  onIssue s fun e =>
    let ta := (elemOf x.ty).1
    let tb : Ty := if mix then (if ta == .e4m3 then .e5m2 else .e4m3) else ta
    .ok (e.putF s x.h x.mod x.d false true fun l =>
      fdotRes .f32 (e.fin s l 0 x.mod .f32) (flushes e.p.mode (fmtFor ta)) ta tb (elemOf x.ty).2
        (e.src s l false x.a) (e.src s l false x.b)
        (Fmt.f32.decode (flushes e.p.mode .f32) (e.src s l false x.c)))

end Sys2Proof.Machine
end

