-- ==== Sys2Proof/Machine/Cross.lean ====
section
/-! DEFINITION. The cross-lane and mask instructions (spec/05 R143 to R156). -/

namespace Sys2Proof.Machine

/-! ## Who takes part (R143) -/

/-- Contributors: non-helper threads with exec = 1. -/
def Env.contributors (e : Env) (h : Head) (m : Option Modifier) : BitVec 64 := e.real (e.exec h m)

/-! ## Quad exchange (R145) -/

/-- The partner of a lane. -/
def qPartner (o : QDir) (l : Nat) : Nat :=
  let b := l / 4 * 4
  match o with
  | .h => b + ((l - b) ^^^ 1)
  | .v => b + ((l - b) ^^^ 2)
  | .d => b + ((l - b) ^^^ 3)
  | .b n => b + n.val

/-- A thread of the issue waits for its quad: `a` is 1 where exec = 1, 2 where its destination takes
zero (R57), else 0. -/
def quadPend (i : Instr) (slot l : Nat) (d : Opd) (x z : BitVec 64) : Pend :=
  { doneResult i slot l d [] 0 with
    done := false
    a := if x.getLsbD l then 1 else if z.getLsbD l then 2 else 0 }

/-- Every issuing thread waits at its slot for the rest of its quad (R145, spec/08 R234). -/
def Env.waitQuad (e : Env) (i : Instr) (d : Opd) (x z : BitVec 64) : Wave :=
  let w := e.w.each e.p.lanes fun _ th => { th with run := .quad }
  (lanesOf e.p.lanes).foldl (fun w l => w.push (quadPend i e.p.slot l d x z)) w

/-- qswp: the exchange takes place when the quad is complete (Machine/Settle.lean). -/
def execQswp (o : QDir) (x : VUn) (s : State) : Host.Outcome State Fault Refusal :=
  onIssue s fun e =>
    .ok (s.setWave (e.waitQuad (.qswp o x) x.d (e.exec x.h x.mod) (e.zeroed x.h x.mod)))

/-! ## Shuffles (R146) -/

/-- The source lane; none where it is negative. -/
def shflLane (o : ShflOp) (l b : Nat) : Option Nat :=
  match o with
  | .idx => some b
  | .up => if b ≤ l then some (l - b) else none
  | .down => some (l + b)
  | .xor => some (l ^^^ b)

/-- The source lane where it is valid: in the wave and in the issuing group. -/
def Env.shflFrom (e : Env) (o : ShflOp) (l b : Nat) : Option Nat :=
  match shflLane o l b with
  | some n => if n < e.w.width && e.p.lanes.getLsbD n then some n else none
  | none => none

/-- shfl: both destinations land together. The validity bit is in `c`. -/
def execShfl (o : ShflOp) (x : Shfl) (s : State) : Host.Outcome State Fault Refusal :=
  onIssue s fun e =>
    let act := e.exec x.h x.mod
    .ok (s.setWave ((lanesOf (act ||| e.zeroed x.h x.mod)).foldl (fun w l =>
      let b := match x.b with
        | .reg r => e.src s l false r
        | .imm i => i.toNat
      let n := e.shflFrom o l b
      if act.getLsbD l then
        w.push { doneResult (.shfl o x) e.p.slot l x.d
            (wordsOf x.ty.wide (e.src s (n.getD l) x.ty.wide x.a)) 0 with
          c := if n.isSome then 1 else 0 }
      else w.push (doneResult (.shfl o x) e.p.slot l x.d (wordsOf x.ty.wide 0) 0)) e.w))

/-! ## Results of a group -/

/-- A result of a cross-lane or mask instruction (R147, R151 to R153): bits in a mask register, one
write of an s register where the group has a receiver, or each receiver's v register. -/
def Env.putAny (e : Env) (s : State) (h : Head) (m : Option Modifier) (d : Opd) (wide : Bool)
    (bits : Nat → Bool) (once : Nat) (per : Nat → Nat) : State :=
  let x := e.exec h m
  match d with
  | .k _ => e.putK s h m d bits
  | .s _ => if x = 0 then s else s.putS e.w e.p.lanes d (BitVec.ofNat 64 once)
  | _ => e.putV s h m d wide per

/-! ## Vote (R147) -/

def execVote (o : VoteOp) (x : VUn) (s : State) : Host.Outcome State Fault Refusal :=
  onIssue s fun e =>
    let con := e.contributors x.h x.mod
    let a (l : Nat) : Nat := e.src s l false x.a
    let pred : BitVec 64 := match x.a with
      | .k n => e.kreg s n.val &&& con
      | _ => maskOf fun l => con.getLsbD l && a l != 0
    let r : Nat := match o with
      | .any => if pred = 0 then 0 else 1
      | .all => if pred = con then 1 else 0
      | .ballot => pred.toNat
      | .eq => if (lanesOf con).all fun l => a l == a (lowLane con) then 1 else 0
    .ok (e.putAny s x.h x.mod x.d (o == .ballot) (fun _ => r != 0) r fun _ => r)

/-! ## Mask instructions (R151 to R154) -/

/-- A mask value from a k or s register, over the wave's lanes. -/
def Env.maskSrc (e : Env) (s : State) (o : Opd) : BitVec 64 :=
  e.usrc s e.p.lanes o &&& e.w.all

/-- kop (R151). -/
def kopOf (o : KopOp) (a b : BitVec 64) : BitVec 64 :=
  match o with
  | .and => a &&& b
  | .or => a ||| b
  | .xor => a ^^^ b
  | .andn => a &&& ~~~b
  | .not => ~~~a
  | .mov => a

def execKop (o : KopOp) (x : KBin) (s : State) : Host.Outcome State Fault Refusal :=
  onIssue s fun e =>
    let r := kopOf o (e.maskSrc s x.a) (e.maskSrc s x.b) &&& e.w.all
    .ok (e.putAny s x.h x.mod x.d true (fun l => r.getLsbD l) r.toNat fun _ => r.toNat)

def execKcnt (total : Bool) (x : KUn) (s : State) : Host.Outcome State Fault Refusal :=
  onIssue s fun e =>
    let m := (e.maskSrc s x.a).toNat
    let n := popcNat 64 m
    .ok (e.putAny s x.h x.mod x.d false (fun _ => false) n fun l =>
      if total then n else popcNat l m)

def execKfst (hi : Bool) (x : KUn) (s : State) : Host.Outcome State Fault Refusal :=
  onIssue s fun e =>
    let m := (e.maskSrc s x.a).toNat
    let n := if m = 0 then e.w.width else if hi then m.log2 else ctzNat 64 m
    .ok (e.putAny s x.h x.mod x.d false (fun _ => false) n fun _ => n)

def execKset (o : KsetOp) (x : KUn) (s : State) : Host.Outcome State Fault Refusal :=
  onIssue s fun e => .ok (e.putK s x.h x.mod x.d fun l =>
    match o with
    | .nz => e.src s l false x.a != 0
    | .one => true
    | .clr => false
    | .lane => (e.usrc s e.p.lanes x.a).getLsbD l)

/-! ## Prefixes and reductions (R148, R149) -/

/-- The identity of an operation. -/
def scanId (o : ScanOp) (t : Ty) : Nat :=
  match fmtOf t with
  | some f => match o with
    | .min => f.infBits
    | .max => f.signBit + f.infBits
    | _ => 0
  | none => match o with
    | .add | .or | .xor => 0
    | .min => ofSigned t.bits (intRange t).2
    | .max => ofSigned t.bits (intRange t).1
    | .and => 2 ^ t.bits - 1

/-- The operation over values in lane order; the identity where there are none. -/
def reduce (o : ScanOp) (t : Ty) (k : Finish) (fz : Bool) : List Nat → Res
  | [] => (scanId o t, 0)
  | v :: r =>
    let vs := v :: r
    match fmtOf t with
    | some f =>
      if o == .add then fusedSum f k [] (vs.map fun x => f.decode fz x)
      else vs.foldl (fun a x =>
        addFlags (fminmaxOf f (o == .max) false a.1 x) a.2) (v, 0)
    | none => match o with
      | .add => (ofSigned t.bits (if k.sat then clampTo t (vs.map (intOf t)).sum
          else (vs.map (intOf t)).sum), 0)
      | .min => (ofSigned t.bits (r.foldl (fun a x => min a (intOf t x)) (intOf t v)), 0)
      | .max => (ofSigned t.bits (r.foldl (fun a x => max a (intOf t x)) (intOf t v)), 0)
      | .and => (r.foldl (fun a x => a &&& x) v, 0)
      | .or => (r.foldl (fun a x => a ||| x) v, 0)
      | .xor => (r.foldl (fun a x => a ^^^ x) v, 0)

/-- Whether an operation rounds, so that RSR draws. -/
def scanRounds (o : ScanOp) (t : Ty) : Bool := o == .add && t.isFS

/-- How the float add of lane l rounds: slice 0 of the draw of lane d (R148, R149). -/
def Env.scanFin (e : Env) (s : State) (o : ScanOp) (t : Ty) (m : Option Modifier) (d : Nat) : Finish :=
  { rm := e.rm m, sat := satOf m, fz := flushes e.p.mode (fmtFor t),
    r8 := if scanRounds o t && e.rm m = .rsr then slice (e.draw s d) 0 else 0 }

def execScan (o : ScanOp) (ex : Bool) (x : VUn) (s : State) : Host.Outcome State Fault Refusal :=
  onIssue s fun e =>
    let con := e.contributors x.h x.mod
    let fz := flushes e.p.mode (fmtFor x.ty)
    .ok (e.putFV s (.scan o ex x) x.h x.mod x.d x.ty.wide (scanRounds o x.ty) fun l =>
      reduce o x.ty (e.scanFin s o x.ty x.mod l) fz
        (((lanesOf con).filter fun n => n < l || (!ex && n == l)).map fun n =>
          e.src s n x.ty.wide x.a))

/-- wred: an s destination is written once, and its result is outstanding for every issuing thread; it raises its
flags for the receivers that are no helpers. Above a 32-bit result the register gets zeros
(notes/assumptions/20). -/
def execWred (o : ScanOp) (x : VUn) (s : State) : Host.Outcome State Fault Refusal :=
  onIssue s fun e =>
    let con := e.contributors x.h x.mod
    let act := e.exec x.h x.mod
    let fz := flushes e.p.mode (fmtFor x.ty)
    let r := reduce o x.ty (e.scanFin s o x.ty x.mod (lowLane con)) fz
      ((lanesOf con).map fun n => e.src s n x.ty.wide x.a)
    match x.d with
    | .s _ =>
      if act = 0 then .ok s
      else
        let p := doneResult (.wred o x) e.p.slot (lowLane (if con = 0 then act else con)) x.d (wordsOf true r.1)
          (if con = 0 then 0 else r.2)
        .ok (s.setWave (e.drawn x.h x.mod (scanRounds o x.ty)
          (e.w.push { p with lanes := e.p.lanes })))
    | _ => .ok (e.putFV s (.wred o x) x.h x.mod x.d x.ty.wide (scanRounds o x.ty) fun _ => r)

/-! ## reord (R150) -/

/-- Insertion before the first element whose key comes after. -/
def insertKey (desc : Bool) (p : Int × Nat) : List (Int × Nat) → List (Int × Nat)
  | [] => [p]
  | q :: r => if (if desc then q.1 < p.1 else p.1 < q.1) then p :: q :: r else q :: insertKey desc p r

/-- Values sorted by key; equal keys keep their lane order. -/
def sortKeys (desc : Bool) (l : List (Int × Nat)) : List (Int × Nat) :=
  l.foldl (fun a p => insertKey desc p a) []

def execReord (desc : Bool) (x : VTri) (s : State) : Host.Outcome State Fault Refusal :=
  onIssue s fun e =>
    let con := lanesOf (e.contributors x.h x.mod)
    let sorted := sortKeys desc (con.map fun l => (intOf x.ty (e.src s l false x.a), e.src s l false x.b))
    .ok (s.setWave (e.pushV (.reord desc x) x.h x.mod x.d false (fun l =>
      match con.findIdx? (· == l) with
      | some i => ((sorted.getD i (0, 0)).2, 0)
      | none => (e.src s l false x.b, 0)) e.w))

end Sys2Proof.Machine
end

