-- ==== Sys2Proof/Machine/Control.lean ====
section
/-! DEFINITION. The control instructions (spec/04 R97 to R122). -/

namespace Sys2Proof.Machine

/-! ## Code (spec/01 R35, spec/02 R42 to R50) -/

/-- Slots of a kernel. -/
def Header.slots (h : Header) : Nat := h.lines * 5

/-- The virtual address of a fetch line (R35, R48): the code base follows the header. -/
def Header.lineVa (h : Header) (n : Nat) : Nat := h.va + 128 + 64 * n

/-- The access of a fetch by a task. -/
def fetchAcc (t : Task) : Acc := { ctx := t.ctx, prv := t.prv, write := false, fetch := true }

/-- The instruction word of slot i of a line. -/
def slotWord (line : List Byte) (i : Nat) : InstrWord := BitVec.ofNat 96 (fieldOf line (12 * i) 12)

def lineWordOf (line : List Byte) : Nat := fieldOf line 60 4

/-- What AUX0 and AUX1 of a trap show of the instruction in a slot that is tested after its issue (spec/16 R426). -/
def State.codeWords (s : State) (t : Task) (k : Crew) (slot : Nat) : Dword × Dword :=
  match s.gRead (fetchAcc t) none 1 (k.hdr.lineVa (slot / 5)) 64 with
  | .error _ => (0, 0)
  | .ok (line, _) =>
    let w := slotWord line (slot % 5)
    (w.setWidth 64, BitVec.ofNat 64 (w.toNat / 2 ^ 64 + lineWordOf line * 2 ^ 32))

/-- A trap of fetch and decode (spec/16 R426): the instruction word and the line word. -/
def codeTrap (p : Issue) (c : Cause) (addr : Nat) (lane : Option Nat) : Trap :=
  { cause := c, lane := lane, addr := BitVec.ofNat 64 addr, aux0 := p.word.setWidth 64,
    aux1 := BitVec.ofNat 64 ((p.word.toNat / 2 ^ 64) + p.lineWord.toNat * 2 ^ 32) }

/-- The test of a target slot (R49): it reads the granule of the target line's line word. -/
def State.testTarget (s : State) (e : Env) (l target : Nat) : Except Trap State :=
  if e.k.hdr.slots ≤ target then .error (codeTrap e.p .branchTarget target (some l))
  else match s.gRead (fetchAcc e.t) none 1 (e.k.hdr.lineVa (target / 5) + 56) 8 with
    | .error t => .error { t with lane := some l }
    | .ok (bs, s1) =>
      if bitOf (fieldOf bs 4 4) (target % 5) then .ok s1
      else .error (codeTrap e.p .branchTarget target (some l))

/-- Tests the target of each lane of a list: the state, and the traps by lane. -/
def State.testTargets (s : State) (e : Env) (tgt : Nat → Nat) : List Nat → State × List (Nat × Trap)
  | [] => (s, [])
  | l :: r =>
    match s.testTarget e l (tgt l) with
    | .ok s1 => s1.testTargets e tgt r
    | .error t => let x := s.testTargets e tgt r; (x.1, (l, t) :: x.2)

/-- Splits the traps of lanes: a fault if a non-helper thread has one, the lowest lane's; else the
helper lanes that end (R98). -/
def Env.blame (e : Env) (ts : List (Nat × Trap)) : Except Stop (BitVec 64) :=
  match ts.find? fun t => !(e.w.th t.1).helper with
  | some t => .error (.trap { t.2 with lane := some t.1 })
  | none => .ok (maskOf fun l => ts.any fun t => t.1 == l)

/-- Threads `x` transfer to their targets (R49, R102), unless a fault stops all of them. The wave
`w` carries what the instruction wrote beside it. -/
def Env.transfer (e : Env) (s : State) (w : Wave) (x : BitVec 64) (tgt : Nat → Nat) :
    Except Stop State :=
  let r := s.testTargets e tgt (lanesOf x)
  match e.blame r.2 with
  | .error y => .error y
  | .ok gone =>
    let w1 := (w.each gone fun _ th => { th with run := .ended }).each (x &&& ~~~gone)
      fun l th => { th with pc := tgt l }
    .ok { (r.1.setWave w1) with
      iss := some { e.p with moved := e.p.moved ||| (x &&& ~~~gone) } }

/-- own slot + disp (R49), in the 64 bits of a slot number: a negative one lies outside every kernel, and the
fault record names it. -/
def Env.dispTarget (e : Env) (disp : BitVec 32) : Nat :=
  (BitVec.ofNat 64 e.p.slot + disp.signExtend 64).toNat

/-! ## Branches, calls and returns (R101 to R103) -/

/-- The target an operand names: 32 bits of a v register, 64 of an s register (R102). -/
def Env.regTarget (e : Env) (s : State) (l : Nat) (a : Opd) : Nat :=
  match a with
  | .s n => (e.s1 s l n.val).toNat
  | o => e.src s l false o

def execNop (_h : Head) (s : State) : Host.Outcome State Fault Refusal :=
  onIssue s fun _ => .ok s

def execBr (h : Head) (c : BrCond) (disp : BitVec 32) (s : State) : Host.Outcome State Fault Refusal :=
  onIssue s fun e =>
    let go : Bool := match c with
      | .always => true
      | .nz a => e.usrc s e.p.lanes a != 0
      | .z a => e.usrc s e.p.lanes a == 0
    if go then e.transfer s e.w (e.guard h) fun _ => e.dispTarget disp else .ok s

def execBri (h : Head) (a : Opd) (s : State) : Host.Outcome State Fault Refusal :=
  onIssue s fun e => e.transfer s e.w (e.guard h) fun l => e.regTarget s l a

/-- A call: the link of R103 is the slot after the issue. The link in an s register is written once per issue,
also where every thread that would transfer is a helper that ends at a bad target (notes/assumptions/20). -/
def Env.callTo (e : Env) (s : State) (h : Head) (d : Opd) (tgt : Nat → Nat) : Except Stop State :=
  let x := e.guard h
  let s1 := match d with
    | .s _ => if x = 0 then s else s.putS e.w e.p.lanes d (BitVec.ofNat 64 e.p.next)
    | _ => s
  match e.transfer s1 ((s1.wave? e.w.id).getD e.w) x tgt with
  | .error y => .error y
  | .ok s2 =>
    let w2 := (s2.wave? e.w.id).getD e.w
    .ok (s2.setWave (w2.putV x 0 d false fun _ => e.p.next))

def execCall (h : Head) (d : Opd) (disp : BitVec 32) (s : State) : Host.Outcome State Fault Refusal :=
  onIssue s fun e => e.callTo s h d fun _ => e.dispTarget disp

def execCalli (h : Head) (d a : Opd) (s : State) : Host.Outcome State Fault Refusal :=
  onIssue s fun e => e.callTo s h d fun l => e.regTarget s l a

def execRet (h : Head) (a : Opd) (s : State) : Host.Outcome State Fault Refusal :=
  onIssue s fun e => e.transfer s e.w (e.guard h) fun l => e.regTarget s l a

/-! ## Hardware loops (R104 to R106) -/

/-- Level n is active. -/
def Thread.active (th : Thread) (n : Nat) : Bool := (getAt th.loops n 0).getLsbD 52

/-- Levels in use: one more than the highest active level. -/
def Thread.depth (th : Thread) : Nat :=
  if th.active 3 then 4 else if th.active 2 then 3 else if th.active 1 then 2
  else if th.active 0 then 1 else 0

def Thread.loopEnd (th : Thread) (n : Nat) : Nat := bitsOf (getAt th.lends n 0).toNat 0 53

def Thread.loopLen (th : Thread) (n : Nat) : Nat := bitsOf (getAt th.loops n 0).toNat 32 20

def Thread.loopCount (th : Thread) (n : Nat) : Nat := bitsOf (getAt th.loops n 0).toNat 0 32

/-- Clears V of a level. -/
def Thread.popLevel (th : Thread) (n : Nat) : Thread :=
  { th with loops := updAt th.loops n fun x => x &&& ~~~(1#64 <<< 52) }

def Thread.setCount (th : Thread) (n c : Nat) : Thread :=
  { th with loops := updAt th.loops n fun x => BitVec.ofNat 64 (replaceBits x.toNat 0 32 c) }

/-- Pushes a level (R104). -/
def Thread.pushLevel (th : Thread) (n count len endSlot : Nat) : Thread :=
  { th with loops := th.loops.set n (BitVec.ofNat 64 (count + len * 2 ^ 32 + 2 ^ 52)),
            lends := th.lends.set n (BitVec.ofNat 64 endSlot) }

/-- The count of lane l. -/
def Env.loopN (e : Env) (s : State) (l : Nat) : LoopCount → Nat
  | .reg a => e.src s l false a
  | .imm n => n.toNat

/-- loop (R104). Where the lanes of one issue fail differently, a lane without a free level is reported before
a lane whose zero count names a bad target (notes/assumptions/20). -/
def execLoop (h : Head) (c : LoopCount) (n : BitVec 20) (s : State) :
    Host.Outcome State Fault Refusal :=
  onIssue s fun e =>
    let x := e.guard h
    let fin := e.p.slot + n.toNat
    if e.k.hdr.slots ≤ fin then
      (match e.blame ((lanesOf x).map fun l => (l, codeTrap e.p .branchTarget fin (some l))) with
      | .error y => .error y
      | .ok gone => .ok (s.setWave (e.w.endHelpers gone)))
    else
      let skip := maskOf fun l => x.getLsbD l && e.loopN s l c == 0
      let full := (lanesOf (x &&& ~~~skip)).filter fun l => (e.w.th l).depth == 4
      match e.blame (full.map fun l => (l, laneTrap .resource l)) with
      | .error y => .error y
      | .ok gone =>
        let w1 := (e.w.endHelpers gone).each (x &&& ~~~skip &&& ~~~gone) fun l th =>
          th.pushLevel th.depth (e.loopN s l c - 1) (fin - e.p.next) fin
        if skip = 0 then .ok (s.setWave w1) else e.transfer s w1 skip fun _ => fin + 1

def execLoopPop (h : Head) (s : State) : Host.Outcome State Fault Refusal :=
  onIssue s fun e => .ok (s.setWave (e.w.each (e.guard h) fun _ th =>
    if th.depth = 0 then th else th.popLevel (th.depth - 1)))

/-- What EndCheck answers (R106): a loop-back slot, or none for the way the issue went. A level below the
highest active one counts only where its V is 1 too (notes/assumptions/20). -/
def Thread.endCheck (th : Thread) (slots : List Nat) (taken : Option Nat) : (n : Nat) →
    Thread × Option Nat
  | 0 => (th, none)
  | n + 1 =>
    if th.active n && slots.contains (th.loopEnd n) then
      let first := th.loopEnd n - th.loopLen n
      match taken with
      | some t =>
        if first ≤ t && t ≤ th.loopEnd n then (th, none)
        else (th.popLevel n).endCheck slots taken n
      | none =>
        if th.loopCount n = 0 then (th.popLevel n).endCheck slots taken n
        else (th.setCount n (th.loopCount n - 1), some first)
    else (th, none)

/-! ## Ending, suspending and waiting (R107 to R113) -/

def execExit (h : Head) (s : State) : Host.Outcome State Fault Refusal :=
  onIssue s fun e => .ok (s.setWave (e.w.each (e.guard h) fun _ th => { th with run := .leaving .exit }))

/-- Threads that leave for a resume slot, tested first (R108, spec/08 R247). -/
def Env.leave (e : Env) (s : State) (h : Head) (disp : BitVec 32) (f : Nat → Thread → Leaving) :
    Except Stop State :=
  let x := e.guard h
  let r := s.testTargets e (fun _ => e.dispTarget disp) (lanesOf x)
  match e.blame r.2 with
  | .error y => .error y
  | .ok gone => .ok (r.1.setWave ((e.w.endHelpers gone).each (x &&& ~~~gone) fun l th =>
      { th with run := .leaving (if th.helper then .exit else f l th) }))

def execCont (h : Head) (disp : BitVec 32) (s : State) : Host.Outcome State Fault Refusal :=
  onIssue s fun e => e.leave s h disp fun _ _ => .cont (e.dispTarget disp) e.p.mode.toNat

/-- The fairness limit in clocks (spec/01 R35). -/
def Header.fairLimit (h : Header) : Nat := if h.fair = 0 then 1024 else 64 * h.fair

/-- yield (R111): a group effect on F, which the next issue reads. -/
def execYield (h : Head) (s : State) : Host.Outcome State Fault Refusal :=
  onIssue s fun e =>
    if e.guard h = 0 then .ok s else .ok (s.setWave { e.w with fair := e.k.hdr.fairLimit })

/-- park (R112): a timeout of 0 waits for an event only. -/
def execPark (h : Head) (c : Src32) (s : State) : Host.Outcome State Fault Refusal :=
  onIssue s fun e =>
    let n := match c with
      | .imm i => i.toNat
      | .reg a => (e.usrc s e.p.lanes a).toNat % 2 ^ 32
    let due := if n = 0 then none else some (s.tick + n)
    .ok (s.setWave (e.w.each (e.guard h) fun _ th => { th with run := .wait (.park due) }))

/-- A blocked thread is released: it waits or leaves as the other member of its pair asks (spec/02 R47), goes on
at its next slot, or parks for its marker. -/
def Thread.release (th : Thread) (tick : Nat) : Thread :=
  if th.after == .ready then
    { th with run := if th.swAfter then .marker else .ready, swAfter := false, pc := th.next,
              since := tick }
  else { th with run := th.after, after := .ready }

/-- The timeout of a park expires (R112); while the wave is halted for debug it waits
(notes/assumptions/20). -/
def execParkTimeout (t : ThreadRef) (s : State) : Host.Outcome State Fault Refusal :=
  match s.waveAt? t.core t.wslot with
  | none => .fault .notEnabled
  | some w => match (w.th t.lane).run with
    | .wait (.park (some due)) =>
      if due ≤ s.tick && !w.halted then
        .next (s.setWave (w.each (1#64 <<< t.lane) fun _ th => th.release s.tick))
      else .fault .notEnabled
    | _ => .fault .notEnabled

/-- join (R113): released as soon as the threads its mask names have ended or wait at its slot. -/
def execJoin (h : Head) (a : Opd) (s : State) : Host.Outcome State Fault Refusal :=
  onIssue s fun e =>
    let k := match a with
      | .k n => n.val
      | _ => 0
    .ok (s.setWave (e.w.each (e.guard h) fun _ th => { th with run := .wait (.join e.p.slot k) }))

/-! ## Holding an instruction -/

/-- The issuing threads wait, not ready, before the effect of the instruction (spec/01 R38). -/
def Env.hold (e : Env) (s : State) (y : Why) : Except Stop State :=
  .ok (s.setWave (e.w.each e.p.lanes fun _ th => { th with run := .hold y })).stopIssue

/-- Whether a result stands outside the order of its thread's accesses: vmm is ordered with commands
only (spec/07 R198), an exchange and a reply are made elsewhere. -/
def unordered : Instr → Bool
  | .vmm _ | .syscWait _ | .qswp _ _ => true
  | _ => false

/-- Whether a lane has counted stores on their way. -/
def State.sending (s : State) (w : Wave) (l : Nat) : Bool :=
  s.arrivals.any fun y => y.srcCore == w.core && y.wslot == w.wslot && y.lane == l

/-- Whether lanes of a wave have memory accesses that are not performed: those a release waits for (spec/09
R266, R270). -/
def State.unsettled (s : State) (w : Wave) (m : BitVec 64) : Bool :=
  w.out.any (fun p => p.lanes &&& m != 0 && !p.done && !unordered p.i)
    || (lanesOf m).any fun l => !(w.th l).storeQ.isEmpty || s.sending w l

/-! ## Calls (R114 to R116, spec/17 R455) -/

def wavew (n : Nat) : Nat := if n = 16 then 0 else if n = 32 then 1 else 2

/-- Free elements of a queue register that a unit reserves (R192). -/
def portSize (kind : Nat) : Nat :=
  if kind = 2 then 16 else if kind = 3 then 64 else if kind = 4 then 8 else if kind = 5 then 32 else 0

def QReg.free (q : QReg) : Nat := portSize q.kind - q.elems.length

/-- The argument words of a request (R115): word a of lane l, zero for lanes outside M. -/
def Env.sysArgs (e : Env) (s : State) (x : Sysc) (m : BitVec 64) : List Word :=
  (List.range x.narg.toNat).flatMap fun a => (List.range e.w.width).map fun l =>
    match x.a with
    | .v r => if m.getLsbD l then e.v s l (r.val + a) else 0
    | _ => 0

/-- Requests of a context that are issued and not appended yet. -/
def State.callsDue (s : State) (c : Nat) : Nat :=
  ((s.waves.filter fun w => s.ctxOfCrew w.crew == c).map fun w =>
    (w.out.filter fun p => match p.i with
      | .sysc _ => true
      | _ => false).length).sum

/-- Whether the context's call queue takes `n` records more. -/
def State.cqRoom (s : State) (c n : Nat) : Bool :=
  let occ := (s.field (.cqhead c) 0 31 + 2 ^ 31 - s.field (.cqtail c) 0 31) % 2 ^ 31
  s.flag (.cqbase c) 0 && decide (occ + n ≤ 2 ^ s.field (.cqbase c) 2 4)

/-- Whether a request that issues now has a slot, behind those that are issued already (spec/17 R455). -/
def State.callRoom (s : State) (c : Nat) : Bool := s.replaying c || s.cqRoom c (s.callsDue c + 1)

/-- Appends a request record and advances CQHEAD; in replay none is written (R116). -/
def State.cqPut (s : State) (c : Nat) (bs : List Byte) : State :=
  if s.replaying c then s
  else
    let h := s.field (.cqhead c) 0 31
    let s1 := s.devWrite (s.field (.cqbase c) 16 36 * 2 ^ 16 + 4096 * (h % 2 ^ s.field (.cqbase c) 2 4)) bs
    let s2 := s1.setField (.cqhead c) 0 31 ((h + 1) % 2 ^ 31)
    if s.flag (.cqbase c) 1 then s2.raise 0x10 else s2

/-- The token of a call: opaque to software, and no other call's. -/
def State.callToken (s : State) : Nat := (s.fresh 0x70).toNat / 2 ^ 32 * 2 ^ 32 + s.nextId % 2 ^ 32

/-- The request of an issue, which is appended after the earlier accesses of its threads (R114): `b` is CALLNO,
`c` the token, and `ext` holds the arguments. -/
def Env.request (e : Env) (s : State) (x : Sysc) (m : BitVec 64) : Pend :=
  { lanes := m, lane := lowLane m, slot := e.p.slot, issue := 0, i := .sysc x, a := 0,
    b := (e.usrc s m x.b).setWidth 128, c := BitVec.ofNat 128 s.callToken, ext := e.sysArgs s x m, dst := x.d,
    done := false, flags := 0, taint := false, wait := none, toks := [], since := 0 }

/-- sysc, queued: reserves its reply elements, and enters its request (R114). -/
def execSysc (x : Sysc) (s : State) : Host.Outcome State Fault Refusal :=
  onIssue s fun e =>
    let m := e.real (e.guard x.h)
    let qn := match x.d with
      | .q n => n.val
      | _ => 0
    let q := getAt e.k.qs qn ⟨0, 0, 0, 0, [], []⟩
    if m = 0 then .ok s
    else if q.kind != 4 then
      .error (.trap { cause := .queueMisuse, lane := some (lowLane m), aux0 := BitVec.ofNat 64 qn })
    else if q.free < x.nrep.toNat then e.hold s (.room qn x.nrep.toNat)
    else if !s.callRoom e.t.ctx then e.hold s .call
    else
      let q1 := { q with elems := q.elems ++ List.replicate x.nrep.toNat (s.callToken, none) }
      .ok { (s.setWave (e.w.push (e.request s x m))).setCrew { e.k with qs := e.k.qs.set qn q1 } with
        nextId := s.nextId + 1 }

/-- sysc.wait: the reply's words are variable-latency destinations of the threads of M (R114). -/
def execSyscWait (x : Sysc) (s : State) : Host.Outcome State Fault Refusal :=
  onIssue s fun e =>
    let m := e.real (e.guard x.h)
    if m = 0 then .ok s
    else if !s.callRoom e.t.ctx then e.hold s .call
    else
      .ok { s.setWave ((lanesOf m).foldl (fun w l =>
        w.push { doneResult (.syscWait x) e.p.slot l x.d [] 0 with
          done := false
          c := BitVec.ofNat 128 s.callToken }) (e.w.push (e.request s x m))) with nextId := s.nextId + 1 }

/-! ## Trap and breakpoint (R117, R118) -/

def execTrap (h : Head) (code : BitVec 32) (s : State) : Host.Outcome State Fault Refusal :=
  onIssue s fun e =>
    let m := e.real (e.guard h)
    if m = 0 then .ok s
    else .error (.trap { cause := .software, lane := some (lowLane m), aux0 := code.setWidth 64 })

/-- brk: with debug enabled it raises BREAKPOINT, unless the wave was resumed at this brk (spec/16
R442). -/
def execBrk (h : Head) (code : BitVec 32) (s : State) : Host.Outcome State Fault Refusal :=
  onIssue s fun e =>
    let m := e.real (e.guard h)
    if m = 0 || !s.flag (.dbgctl e.t.ctx) 0 then .ok s
    else if e.w.brkPass = some e.p.slot then .ok (s.setWave { e.w with brkPass := none })
    else .error (.trap { cause := .breakpoint, lane := some (lowLane m), aux0 := code.setWidth 64 })

/-! ## Special registers (R119 to R121, spec/01 R24 to R32) -/

/-- Registers whose access is privileged. -/
def srPriv : SReg → Bool
  | .ctx | .vbase => true
  | _ => false

/-- Registers that unprivileged and privileged code may write (R24). -/
def srWritable (prv : Bool) : SReg → Bool
  | .fflags | .mode => true
  | .pix | .rngk | .rngkh | .rngc | .rngch | .loopN _ | .lendN _ | .vbase => prv
  | _ => false

/-- Registers whose reads are logged (R25). -/
def srLogged : SReg → Bool
  | .tick | .core | .cluster | .die => true
  | _ => false

/-- The value of a special register for lane l (R24). -/
def Env.srVal (e : Env) (s : State) (l : Nat) (r : SReg) : Nat :=
  let th := e.w.th l
  match r with
  | .lane => l
  | .tid => th.tid.toNat
  | .wave => e.w.idx
  | .crew => e.k.idx
  | .task => e.t.name.toNat
  | .core => e.w.core % 8
  | .cluster => e.w.core / 8 % 8
  | .die => e.w.core / 64
  | .wavew => e.w.width
  | .pix => th.pix.toNat
  | .fflags => e.w.fflags.toNat
  | .mode => e.w.mode.toNat
  | .mfmt => e.k.mfmt.toNat
  | .tick => s.tick % 2 ^ 64
  | .helper => (maskOf fun n => decide (n < e.w.width) &&
      ((e.w.th n).helper || (e.w.th n).run == .ended)).toNat
  | .rngk => th.rngk.toNat % 2 ^ 64
  | .rngkh => th.rngk.toNat / 2 ^ 64
  | .rngc => th.rngc.toNat % 2 ^ 64
  | .rngch => th.rngc.toNat / 2 ^ 64
  | .loopN n => (getAt th.loops n.val 0).toNat
  | .lendN n => (getAt th.lends n.val 0).toNat
  | .ctx => s.ctxWord e.t.ctx
  | .priv => if e.t.prv then 1 else 0
  | .vbase => (s.ctx e.t.ctx).vbase.toNat

/-- The result of rdsr in its destination (R119). -/
def Env.putSr (e : Env) (s : State) (x : BitVec 64) (d : Opd) (r : SReg) (val : Nat → Nat) : State :=
  match d with
  | .s _ => if x = 0 then s else s.putS e.w e.p.lanes d (BitVec.ofNat 64 (val (lowLane x)))
  | _ => s.setWave (e.w.putV x 0 d r.wide val)

/-- Lanes that access a privileged register from an unprivileged task (R25): a fault if one is no helper, else
the helper lanes that end (R98). -/
def Env.privileged (e : Env) (r : SReg) (x : BitVec 64) : Except Stop (BitVec 64) :=
  if srPriv r && !e.t.prv then e.blame ((lanesOf x).map fun l => (l, laneTrap .protection l)) else .ok 0

def execRdsr (h : Head) (d : Opd) (r : SReg) (s : State) : Host.Outcome State Fault Refusal :=
  onIssue s fun e =>
    let x := e.guard h
    match e.privileged r x with
    | .error y => .error y
    | .ok gone =>
    if gone != 0 then .ok (s.setWave (e.w.endHelpers gone))
    else if srLogged r && e.real x != 0 then
      let v := e.srVal s (lowLane x) r
      let src := srcOf e.w.core e.w.wslot (lowLane (e.real x))
      let o : LogOp := { kind := 6, src := src, home := localHome e.w.core, addr := r.code, value := v }
      match s.logGate e.t.ctx o 0 (s.selThread e.t.ctx src) with
      | .stop .park => e.hold s .log
      | .stop y => .error y
      | .go g =>
        let v' := match g with
          | some (_, bs) => fieldOf bs 24 8
          | none => v
        match s.logDone e.t.ctx o g with
        | .error y => .error y
        | .ok s1 => .ok (e.putSr s1 x d r fun _ => v')
    else .ok (e.putSr s x d r fun l => e.srVal s l r)

/-- The field checks of a write (R26, R27, R29, R30, R32). -/
def srFieldsOk (r : SReg) (v : Nat) : Bool :=
  match r with
  | .fflags => decide (v < 2 ^ 5)
  | .mode => decide (v < 2 ^ 6) && v % 8 != 0 && v % 8 != 7
  | .pix => decide (v < 2 ^ 33)
  | .loopN _ | .lendN _ => decide (v < 2 ^ 53)
  | .vbase => bitsOf v 1 15 == 0 && decide (v / 2 ^ 56 ≤ 40)
  | _ => true

/-- A thread with a T-scope register written. -/
def Thread.setSr (th : Thread) (r : SReg) (v : Nat) : Thread :=
  match r with
  | .pix => { th with pix := BitVec.ofNat 64 v }
  | .rngk => { th with rngk := BitVec.ofNat 128 (replaceBits th.rngk.toNat 0 64 v) }
  | .rngkh => { th with rngk := BitVec.ofNat 128 (replaceBits th.rngk.toNat 64 64 v) }
  | .rngc => { th with rngc := BitVec.ofNat 128 (replaceBits th.rngc.toNat 0 64 v) }
  | .rngch => { th with rngc := BitVec.ofNat 128 (replaceBits th.rngc.toNat 64 64 v) }
  | .loopN n => { th with loops := th.loops.set n.val (BitVec.ofNat 64 v) }
  | .lendN n => { th with lends := th.lends.set n.val (BitVec.ofNat 64 v) }
  | _ => th

/-- wrsr; a register that the running view may only read is refused at decode (R25, spec/02 R51). -/
def execWrsr (h : Head) (r : SReg) (a : Opd) (s : State) : Host.Outcome State Fault Refusal :=
  onIssue s fun e =>
    let x := e.guard h
    let val (l : Nat) : Nat := e.src s l true a
    match e.privileged r x with
    | .error y => .error y
    | .ok out =>
      let ls := lanesOf (x &&& ~~~out)
      match e.blame ((ls.filter fun l => !srFieldsOk r (val l)).map fun l =>
          (l, codeTrap e.p .illegalField 0 (some l))) with
      | .error y => .error y
      | .ok gone =>
        let go := maskOf fun l => ls.contains l && !gone.getLsbD l
        let w := e.w.endHelpers (gone ||| out)
        let v := val (lowLane go)
        match r with
        | .fflags => .ok (s.setWave (if go = 0 then w else { w with fflags := BitVec.ofNat 64 v }))
        | .mode => .ok (s.setWave (if go = 0 then w else { w with mode := BitVec.ofNat 64 v }))
        | .vbase => if go = 0 then .ok (s.setWave w)
            else .ok ((s.setWave w).setCtx e.t.ctx
              { s.ctx e.t.ctx with vbase := BitVec.ofNat 64 v })
        | _ => .ok (s.setWave (w.each go fun l th => th.setSr r (val l)))

/-- %mode with the enabled fields replaced (R121). -/
def applyMode (f : ModeFields) (m : Nat) : Nat :=
  let put (m lo n : Nat) : Option Nat → Nat
    | none => m
    | some v => replaceBits m lo n v
  let b (x : Option Bool) : Option Nat := x.map fun v => if v then 1 else 0
  put (put (put (put m 0 3 (f.rm.map (·.toNat))) 3 1 (b f.z16)) 4 1 (b f.z32)) 5 1 (b f.z64)

def execMode (h : Head) (f : ModeFields) (s : State) : Host.Outcome State Fault Refusal :=
  onIssue s fun e =>
    if e.guard h = 0 then .ok s
    else .ok (s.setWave { e.w with mode := BitVec.ofNat 64 (applyMode f e.w.mode.toNat) })

/-! ## tenq (R122) -/

/-- tenq: each record is read and submitted after issue, in lane order (Machine/Land.lean); its
address is the outstanding access's `a`. From an s register it is one access for all the threads. -/
def execTenq (h : Head) (a : Opd) (s : State) : Host.Outcome State Fault Refusal :=
  onIssue s fun e =>
    let m := e.real (e.guard h)
    let ls := match a with
      | .s _ => (lanesOf m).take 1
      | _ => lanesOf m
    let va (l : Nat) : Nat := e.src s l true a
    match ls.find? fun l => va l % 128 != 0 with
    | some l => .error (.trap { cause := .misaligned, lane := some l, addr := BitVec.ofNat 64 (va l) })
    | none => .ok (s.setWave (ls.foldl (fun w l =>
        w.push { doneResult (.tenq h a) e.p.slot l .zero [] 0 with
          lanes := if a.isS then m else 1#64 <<< l
          done := false
          a := BitVec.ofNat 128 (va l) }) e.w))

end Sys2Proof.Machine
end

