-- ==== Sys2Proof/Machine/Order.lean ====
section
/-! DEFINITION. The order of accesses: scopes (spec/09 R265), what happens before a thread's point (R266 to R271), the
writes that a plain read of normal mode may miss (R273, R275, R277), and the ranges that threads and engine commands
share without order (spec/07 R201 to R203). -/

namespace Sys2Proof.Machine

/-! ## Scopes (spec/09 R265) -/

/-- Whether thread b lies within a scope of thread a, where each ran at its event. -/
def inScope (s : Scope) (a b : ThreadAt) : Bool :=
  match s with
  | .wave => a.wave == b.wave
  | .crew => a.crew == b.crew
  | .core => a.core == b.core
  | .clu => a.core / 8 == b.core / 8
  | .die => a.core / 64 == b.core / 64
  | .dev | .sys => true

/-- A thread of a wave where it runs now. -/
def Wave.agent (w : Wave) (l : Nat) : ThreadAt := ⟨w.id, l, w.crew, w.core⟩

def ThreadAt.same (a b : ThreadAt) : Bool := a.wave == b.wave && a.lane == b.lane

/-! ## Views -/

/-- A release takes its place at a moment. -/
def Msg.raise (m : Msg) (n : Nat) : Msg := { m with view := { m.view with floor := max m.view.floor n } }

/-- The later of two numbers of engine commands, which count modulo 2^32. -/
def laterSeq (a b : Nat) : Nat := if (b + 2 ^ 32 - a) % 2 ^ 32 < 2 ^ 31 then b else a

/-- The tokens of a crew in a view, with another. -/
def addTok (l : List (Nat × Nat)) (x : Nat × Nat) : List (Nat × Nat) :=
  match l.find? fun y => y.1 == x.1 with
  | none => x :: l
  | some y => (x.1, laterSeq y.2 x.2) :: l.filter fun z => z.1 != x.1

def View.join (a b : View) : View :=
  if a = b then a
  else
    { marks := b.marks.filter (fun m => !a.marks.contains m) ++ a.marks
      toks := b.toks.foldl addTok a.toks
      floor := max a.floor b.floor }

/-- A view of the moment only. -/
def View.upTo (n : Nat) : View := ⟨[], [], n⟩

/-- What a thread passes on at this point: with its own writes, and those on unordered pages where `all` says that the
edge takes every event (spec/09 R264, R266, R270). -/
def Order.passes (o : Order) (moment : Nat) (all : Bool) : View :=
  let v := o.view.join ⟨o.own, [], moment⟩
  if all then v.join ⟨o.loose, [], 0⟩ else v

/-- A thread learns what happens before its next events. -/
def Order.learns (o : Order) (v : View) : Order := { o with view := o.view.join v }

/-- An acquire at a scope of what releases carry (spec/09 R268): each scope includes the other thread. -/
def Order.acquires (o : Order) (me : ThreadAt) (sc : Scope) (ms : List Msg) : Order :=
  ms.foldl (fun o m => if inScope m.scope m.agent me && inScope sc me m.agent then o.learns m.view else o) o

/-- Changes the order of the threads of a mask. -/
def Wave.orders (w : Wave) (m : BitVec 64) (f : Nat → Order → Order) : Wave :=
  w.each m fun l th => { th with ord := f l th.ord }

def State.orders (s : State) (id : Nat) (m : BitVec 64) (f : Nat → Order → Order) : State :=
  match s.wave? id with
  | some w => s.setWave (w.orders m f)
  | none => s

/-- What the threads of a mask pass on together. -/
def Wave.passes (w : Wave) (m : BitVec 64) (moment : Nat) : View :=
  (lanesOf m).foldl (fun v l => v.join ((w.th l).ord.passes moment true)) .start

/-! ## Writes and what reads may miss (spec/09 R267, R273, R277) -/

/-- Whether n bytes at a place meet m bytes at another. -/
def placesMeet (p : Place) (a n : Nat) (q : Place) (b m : Nat) : Bool :=
  p == q && decide (a < b + m) && decide (b < a + n)

/-- The releases that the last write of some bytes carries. -/
def State.relsAt (s : State) (p : Place) (a n : Nat) : List Msg :=
  (s.rels.filter fun r => placesMeet r.place r.addr r.len p a n).flatMap (·.msgs)

/-- What a place held, and who wrote it, is of no more account. -/
def State.forgetOrder (s : State) (p : Place) (a n : Nat) : State :=
  { s with
    hist := s.hist.filter fun x => !placesMeet x.place x.addr x.old.length p a n
    rels := s.rels.filter fun r => !placesMeet r.place r.addr r.len p a n }

/-- The threads of a wave start after a view. -/
def Wave.startAt (w : Wave) (moment : Nat) (f : Nat → View) : Wave :=
  { w with threads := w.threads.mapIdx fun l th => { th with ord := (Order.start moment).learns (f l) } }

/-- Writes of threads that the model keeps, of which a plain read of normal mode may miss some. -/
def keptWrites : Nat := 256

/-- A write of a thread has taken s0 to s1: it joins the last writes, and carries its releases with those of the
sequences that it continues, as an RMW or as a plain write of their own thread (R267). -/
def State.recordWrite (s0 s1 : State) (me : ThreadAt) (p : Place) (a n : Nat) (msgs : List Msg) (rmw logged : Bool) :
    State :=
  let old := s0.relsAt p a n
  let kept := if rmw then old else old.filter fun m => m.agent.same me
  let now := msgs ++ kept.filter fun m => !msgs.contains m
  let s2 := s1.dropRels p a n
  let x : Wr := ⟨s0.moment + 1, p, a, s0.bytesAt p a n, me, logged, old⟩
  { s2 with
    moment := s0.moment + 1
    hist := (x :: s2.hist).take keptWrites
    rels := if now.isEmpty then s2.rels else ⟨p, a, n, now⟩ :: s2.rels }

/-- The kept writes of some bytes, youngest first. -/
def State.writesAt (s : State) (p : Place) (a n : Nat) : List Wr :=
  s.hist.filter fun x => placesMeet x.place x.addr x.old.length p a n

/-- Whether a read of a thread must see a write (R273 items 2 and 3, R272): it happens before, is the thread's own, is
covered by an earlier read of the thread, or both are logged. -/
def Order.mustSee (o : Order) (me : ThreadAt) (logged : Bool) (p : Place) (a n : Nat) (x : Wr) : Bool :=
  decide (x.moment ≤ o.view.floor) || x.agent.same me || (logged && x.logged)
    || o.seen.any fun y => placesMeet y.place y.addr y.len p a n
        && placesMeet y.place y.addr y.len x.place x.addr x.old.length && decide (x.moment ≤ y.moment)

/-- The moment a read of a thread reads some bytes as of: one of those that R273 allows. -/
def State.readMoment (s : State) (o : Order) (me : ThreadAt) (logged : Bool) (p : Place) (a n tag : Nat) : Nat :=
  let ws := (s.writesAt p a n).takeWhile fun x => !o.mustSee me logged p a n x
  let k := (s.fresh tag).toNat % (ws.length + 1)
  match ws[k - 1]? with
  | some x => if k = 0 then s.moment else x.moment - 1
  | none => s.moment

/-- Bytes as of a moment: what later writes put there is taken back, youngest first. -/
def State.asOf (s : State) (t : Nat) (p : Place) (a : Nat) (bs : List Byte) : List Byte :=
  (s.writesAt p a bs.length).foldl (fun bs x =>
    if x.moment ≤ t then bs
    else bs.mapIdx fun i b => if x.addr ≤ a + i then (x.old[a + i - x.addr]?).getD b else b) bs

/-- The releases that the bytes read carry. -/
def State.readRels (s : State) (t : Nat) (p : Place) (a n : Nat) : List Msg :=
  match ((s.writesAt p a n).filter fun x => decide (t < x.moment)).getLast? with
  | some x => x.before
  | none => s.relsAt p a n

/-- A thread has read bytes as of a moment: its later reads do not go back, and an acquire of scope `acq` takes the
releases that it meets, which a plain read keeps for a later fence (R266, R268, R273 item 3). -/
def Order.reads (o : Order) (s : State) (me : ThreadAt) (p : Place) (a n t : Nat) (acq : Option Scope) : Order :=
  let ms := s.readRels t p a n
  let o1 : Order :=
    if (s.writesAt p a n).all fun x => o.mustSee me false p a n x then o
    else { o with seen := ⟨p, a, n, t⟩ :: o.seen.filter fun y => !(y.place == p && y.addr == a && y.len == n) }
  match acq with
  | some sc => o1.acquires me sc ms
  | none => { o1 with heard := ms.filter (fun m => !o1.heard.contains m) ++ o1.heard }

/-- A fence of a thread (R266, R271): an acquire fence takes what its reads have met, a release fence gives its later
writes what happens before it, and `.sc` fences of a context are in one order. -/
def State.fenceOrder (s : State) (c : Nat) (me : ThreadAt) (o : Order) (k : FenceKind) (sc : Scope) : State × Order :=
  let o1 := if k == .rel then o else { o.acquires me sc o.heard with heard := [] }
  let o2 := if k == .sc then o1.acquires me sc (s.ctx c).scs else o1
  let m : Msg := ⟨sc, me, o2.passes s.moment true⟩
  let o3 := if k == .acq then o2 else { o2 with
    fenced := some m
    own := o2.loose ++ o2.own
    loose := [] }
  if k == .sc then
    (s.setCtx c { s.ctx c with scs := m :: (s.ctx c).scs.filter fun x => !x.agent.same me }, o3)
  else (s, o3)

/-- The releases that a write of a thread performs: its own, at scope `rel`, and the one of an earlier fence. -/
def Order.releases (o : Order) (me : ThreadAt) (moment : Nat) (rel : Option Scope) : List Msg :=
  (match rel with
    | some sc => [⟨sc, me, o.passes (moment + 1) false⟩]
    | none => []) ++ o.fenced.toList

/-! ## Accesses beside engine commands (spec/07 R201 to R203) -/

def Span.meets (a b : Span) : Bool :=
  a.kind == b.kind && decide (a.base < b.base + b.len) && decide (b.base < a.base + a.len)

/-- A thread as it accesses: its wave, its lane, the issue of the access, the engine commands ordered before it, and
the lanes whose access it is. -/
structure Actor where
  w : Wave
  l : Nat
  issue : Nat
  toks : List (Nat × Nat)
  group : BitVec 64

/-- It accesses for itself only, not for a group. -/
def Actor.alone (x : Actor) : Bool := x.group == 1#64 <<< x.l

def Actor.agent (x : Actor) : ThreadAt := x.w.agent x.l

def Actor.ord (x : Actor) : Order := (x.w.th x.l).ord

/-- A lane that accesses as its instruction issues. -/
def Env.actor (e : Env) (s : State) (l : Nat) : Actor := ⟨e.w, l, s.tick + 1, (e.w.th l).ord.view.toks, 1#64 <<< l⟩

/-- The group of an issue that accesses as one, for the lanes of a mask. -/
def Env.groupActor (e : Env) (s : State) (m : BitVec 64) : Actor :=
  { e.actor s (lowLane m) with group := e.p.lanes }

/-- Whether an access comes before an opfence (R202). -/
def Earlier.covers (x : Earlier) (y : Actor) : Bool :=
  x.wave == y.w.id && x.lanes &&& y.group != 0 && decide (y.issue ≤ x.issue)

/-- Whether an engine may read what is written in a range: a crew with tile store, its own scratchpad or memory. -/
def Crew.reachedBy (k : Crew) (crew : Nat) (sp : Span) : Bool :=
  k.hdr.trows ≠ 0 && (k.id == crew || sp.kind == 0 || (sp.kind == 1 && sp.base / 2 ^ 20 == k.core))

/-- A thread's write beside a crew's engine: commands that it is not ordered before meet it, and later ones until an
opfence orders it. -/
def Crew.marked (k : Crew) (m : Mark) (x : Actor) : Crew :=
  { k with
    dirty := if k.fence.any fun f => f.covers x then k.dirty
      else m :: k.dirty.filter fun y => !(y.span == m.span && y.wave == m.wave && y.lane == m.lane)
    cmds := k.cmds.map fun c =>
      if c.behind.any fun f => f.covers x then c
      else { c with hot := (m.span, decide (c.issued < x.issue)) :: c.hot } }

/-- A thread wrote a range; `uo` says that it lies on an unordered page. -/
def State.threadWrote (s : State) (x : Actor) (sp : Span) (uo : Bool) : State :=
  if !(s.crews.any fun k => k.reachedBy x.w.crew sp) then s
  else
    let m : Mark := ⟨s.nextId, sp, x.w.id, x.l⟩
    let s1 := { s with
      nextId := s.nextId + 1
      crews := s.crews.map fun (k : Crew) => if k.reachedBy x.w.crew sp then k.marked m x else k }
    let live (l : List Nat) : List Nat := l.filter fun i => s1.crews.any fun k => k.dirty.any fun d => d.id == i
    s1.orders x.w.id x.group fun _ o =>
      if uo then { o with loose := m.id :: live o.loose } else { o with own := m.id :: live o.own }

/-- Whether a command issued before an access, and not ordered before it, writes a range (R203). -/
def State.engineWrites (s : State) (toks : List (Nat × Nat)) (issue : Nat) (sp : Span) : Bool :=
  s.crews.any fun k => k.wset.any fun x => x.span.meets sp && decide (x.issued < issue)
    && !(toks.any fun t => t.1 == k.id && laterSeq x.seq t.2 == t.2)

def Actor.conflicts (x : Actor) (s : State) (sp : Span) : Bool := s.engineWrites x.toks x.issue sp

/-- A token orders its command and every earlier one of the crew before the threads of a mask (R201). -/
def State.orderedBy (s : State) (id : Nat) (m : BitVec 64) (crew seq : Nat) : State :=
  s.orders id m fun _ o => o.learns ⟨[], [(crew, seq)], s.moment⟩

/-- Whether the accesses before an opfence are performed. -/
def State.performed (s : State) (x : Earlier) : Bool :=
  match s.wave? x.wave with
  | none => true
  | some w =>
    !(w.out.any fun p => p.lanes &&& x.lanes != 0 && !p.done && decide (p.issue ≤ x.issue))
      && (lanesOf x.lanes).all fun l => (w.th l).storeQ.all (fun d => decide (x.issue < d.issue))
        && s.arrivals.all fun a => !(a.agent.wave == w.id && a.lane == l && decide (a.issue ≤ x.issue))

end Sys2Proof.Machine
end

