-- ==== Sys2Proof/Machine/Uniform.lean ====
section
/-! DEFINITION. The uniform instructions (spec/04 R123, R124, R126); sld and sst are in Machine/Mem.lean. -/

namespace Sys2Proof.Machine

/-- A result of type t in a 64-bit register (R124). -/
def uniRes (t : Ty) (x : Nat) : Dword :=
  if t.wide then BitVec.ofNat 64 x
  else if t.signed then (BitVec.ofNat 32 x).signExtend 64 else (BitVec.ofNat 32 x).setWidth 64

/-- The B operand: an immediate is sign-extended (R123). -/
def Env.ub (e : Env) (s : State) : Src32 → Dword
  | .reg o => e.usrc s e.p.lanes o
  | .imm x => x.signExtend 64

/-- A uniform result: one write of the s register when a thread has guard 1 (R97, R126). -/
def Env.uput (e : Env) (s : State) (h : Head) (d : Opd) (x : Dword) : State :=
  if e.guard h = 0 then s else s.putS e.w e.p.lanes d x

/-- A uniform instruction with two sources: `f` gets their low w bits. -/
def uni2 (x : UBin) (f : Nat → Nat → Nat) (s : State) : Host.Outcome State Fault Refusal :=
  onIssue s fun e =>
    let a := low x.ty (e.usrc s e.p.lanes x.a).toNat
    let b := low x.ty (e.ub s x.b).toNat
    .ok (e.uput s x.h x.d (uniRes x.ty (f a b)))

/-- A result computed on the values of the type. -/
def uniInt (x : UBin) (f : Int → Int → Int) (s : State) : Host.Outcome State Fault Refusal :=
  uni2 x (fun a b => ofSigned x.ty.bits (f (intOf x.ty a) (intOf x.ty b))) s

def execSadd (x : UBin) (s : State) : Host.Outcome State Fault Refusal := uniInt x (· + ·) s

def execSsub (x : UBin) (s : State) : Host.Outcome State Fault Refusal := uniInt x (· - ·) s

def execSmul (x : UBin) (s : State) : Host.Outcome State Fault Refusal := uniInt x (· * ·) s

def execSmulh (x : UBin) (s : State) : Host.Outcome State Fault Refusal :=
  uniInt x (fun a b => a * b / (2 ^ x.ty.bits : Nat)) s

def execSdiv (x : UBin) (s : State) : Host.Outcome State Fault Refusal :=
  uni2 x (fun a b => divRes x.ty false (intOf x.ty a) (intOf x.ty b)) s

def execSrem (x : UBin) (s : State) : Host.Outcome State Fault Refusal := uniInt x remInt s

def execSand (x : UBin) (s : State) : Host.Outcome State Fault Refusal := uni2 x (· &&& ·) s

def execSor (x : UBin) (s : State) : Host.Outcome State Fault Refusal := uni2 x (· ||| ·) s

def execSxor (x : UBin) (s : State) : Host.Outcome State Fault Refusal := uni2 x (· ^^^ ·) s

def execSshl (x : UBin) (s : State) : Host.Outcome State Fault Refusal := uni2 x (shlNat x.ty.bits) s

def execSshr (x : UBin) (s : State) : Host.Outcome State Fault Refusal := uni2 x (shrNat x.ty.bits) s

def execSsra (x : UBin) (s : State) : Host.Outcome State Fault Refusal :=
  uni2 x (fun a b => ofSigned x.ty.bits (sraInt x.ty.bits (intOf x.ty a) b)) s

def execSmin (x : UBin) (s : State) : Host.Outcome State Fault Refusal := uniInt x min s

def execSmax (x : UBin) (s : State) : Host.Outcome State Fault Refusal := uniInt x max s

/-- smov: between s and k registers; a k destination takes each thread's own bit. -/
def execSmov (h : Head) (d a : Opd) (s : State) : Host.Outcome State Fault Refusal :=
  onIssue s fun e =>
    let x := e.usrc s e.p.lanes a
    match d with
    | .k _ => .ok (e.putK s h none d fun l => x.getLsbD l)
    | _ => .ok (e.uput s h d x)

/-- sli: the value of its immediate; `.hi` keeps the low half. -/
def sliOf (o : SliOp) (old : Dword) (x : BitVec 32) : Dword :=
  match o with
  | .sx => x.signExtend 64
  | .zx => x.setWidth 64
  | .hi => BitVec.ofNat 64 (x.toNat * 2 ^ 32 + old.toNat % 2 ^ 32)

def execSli (h : Head) (o : SliOp) (d : Opd) (x : BitVec 32) (s : State) :
    Host.Outcome State Fault Refusal :=
  onIssue s fun e => .ok (e.uput s h d (sliOf o (e.usrc s e.p.lanes d) x))

def execScmp (o : CmpOp) (x : UBin) (s : State) : Host.Outcome State Fault Refusal :=
  onIssue s fun e =>
    let a := intOf x.ty (low x.ty (e.usrc s e.p.lanes x.a).toNat)
    let b := intOf x.ty (low x.ty (e.ub s x.b).toNat)
    let r := cmpInt o a b
    match x.d with
    | .k _ => .ok (e.putK s x.h none x.d fun _ => r)
    | _ => .ok (e.uput s x.h x.d (if r then 1 else 0))

def execSsel (h : Head) (d a b c : Opd) (s : State) : Host.Outcome State Fault Refusal :=
  onIssue s fun e =>
    let u := e.usrc s e.p.lanes
    .ok (e.uput s h d (if u c != 0 then u a else u b))

/-- sbfe: bits above 63 read as zero. -/
def sbfeOf (ty : Ty) (a start len : Nat) : Nat :=
  let x := bitsOf a start len
  if ty.signed then ofSigned 64 (toSigned len x) else x

def execSbfe (h : Head) (ty : Ty) (d a : Opd) (start : BitVec 6) (len : BitVec 7) (s : State) :
    Host.Outcome State Fault Refusal :=
  onIssue s fun e =>
    .ok (e.uput s h d (BitVec.ofNat 64 (sbfeOf ty (e.usrc s e.p.lanes a).toNat start.toNat len.toNat)))

def spopOf (o : SpopOp) (w x : Nat) : Nat :=
  match o with
  | .popc => popcNat w x
  | .clz => clzNat w x
  | .ctz => ctzNat w x

def execSpop (h : Head) (o : SpopOp) (ty : Ty) (d a : Opd) (s : State) :
    Host.Outcome State Fault Refusal :=
  onIssue s fun e =>
    .ok (e.uput s h d (uniRes ty (spopOf o ty.bits (low ty (e.usrc s e.p.lanes a).toNat))))

end Sys2Proof.Machine
end

