-- ==== Sys2Proof/Machine/Mem.lean ====
section
/-! DEFINITION. Addresses of lane accesses (spec/06 R157 to R159), the accesses themselves on the strict
machine of spec/09 R276, their logging (spec/13 R370, R371), and the instructions ld, st, sld, sst,
itld, itst, atom, red, redx, fence, pref, seal and unseal as they issue. What happens after issue is in
Machine/Land.lean. -/

namespace Sys2Proof.Machine

/-! ## Addresses (R157) -/

/-- A checked address: a global virtual address, or a place in a core's scratchpad with the offset that
a fault record names. -/
inductive Target
  | glob (va : Nat)
  | pad (core addr off : Nat)
  deriving DecidableEq, Repr

/-- The access of a task's threads. -/
def taskAcc (t : Task) (write : Bool) (core : Option Nat := none) : Acc :=
  { ctx := t.ctx, prv := t.prv, write := write, core := core }

/-- Bytes of a crew's scratchpad window. -/
def Crew.window (k : Crew) : Nat := k.hdr.spad * 256

/-- The scratchpad address of an offset in a space: core, address (R157). -/
def State.padAt (s : State) (k : Crew) (sp : Space) (a : Nat) : Option (Nat × Nat) :=
  match sp with
  | .cluster =>
    let idx := a / 2 ^ 20 % 16
    let off := a % 2 ^ 20
    if a / 2 ^ 24 ≠ 0 || 8 ≤ idx then none
    else
      let own := if idx = k.core % 8 then some k
        else s.crews.find? fun c => c.task == k.task && c.core == k.core / 8 * 8 + idx
      match own with
      | none => none
      | some c => if off < c.window then some (c.core, c.spadBase + off) else none
  | _ => if a < k.window then some (k.core, k.spadBase + a) else none

/-- The checks of an address: alignment, bounds, and bits [63:56]. -/
def State.target (s : State) (k : Crew) (t : Task) (sp : Space) (write : Bool) (size a : Nat) :
    Except Trap Target :=
  let bad (c : Cause) : Except Trap Target :=
    .error (accTrap c (taskAcc t write) (s.asid t.ctx) a sp.code none 0)
  if a % size ≠ 0 then bad .misaligned
  else match sp with
    | .glob | .bcast => if a < 2 ^ 56 then .ok (.glob a) else bad .protection
    | _ => match s.padAt k sp a with
      | some (c, x) => .ok (.pad c x a)
      | none => bad .bounds

/-- The address of lane l. -/
def Env.addr (e : Env) (s : State) (l : Nat) (sp : Space) (a : Opd) (off : Int) : Nat :=
  match sp with
  | .glob | .bcast => addSigned (e.src s l true a) off
  | _ => (((e.src s l false a : Nat) + off) % 2 ^ 32).toNat

/-- Bytes of an element in memory (R164). -/
def memBytes (t : Ty) : Nat := t.bits / 8

/-! ## Reading and writing at a target -/

/-- The youngest byte of a store queue for a location. -/
def forward (q : List StoreEnt) (pl : Place) (a : Nat) : Option Byte :=
  q.foldl (fun r e => if e.place == pl && decide (e.addr ≤ a) && decide (a < e.addr + e.bytes.length)
    then e.bytes[a - e.addr]? else r) none

/-- Bytes at a location as a thread sees them: its queued stores over what the image gives. -/
def withQueue (q : List StoreEnt) (pl : Place) (a : Nat) (bs : List Byte) : List Byte :=
  bs.mapIdx fun i b => (forward q pl (a + i)).getD b

/-- Whether queued stores cover n bytes. -/
def covered (q : List StoreEnt) (pl : Place) (a n : Nat) : Bool :=
  (List.range n).all fun i => (forward q pl (a + i)).isSome

/-- Where a target leads for a core's access, or for one made elsewhere: a scratchpad has no page. -/
def State.route (s : State) (t : Task) (write : Bool) (tg : Target) (core : Option Nat := none) :
    Except Trap (Option Phys) :=
  match tg with
  | .pad _ _ _ => .ok none
  | .glob va => (s.translate (taskAcc t write core) va).map some

/-- A consumer's read of n bytes of one line at a target that leads somewhere, through a store queue. -/
def State.readVia (s : State) (t : Task) (unit : Nat) (q : List StoreEnt) (tg : Target) (r : Except Trap (Option Phys))
    (n : Nat) : Except Trap (List Byte × State) :=
  match tg with
  | .pad c x off =>
    if covered q (.spad c) x n then .ok (withQueue q (.spad c) x (List.replicate n 0), s)
    else match s.readAt (.spad c) x n with
      | .error e => .error (lineTrap e unit off (s.asid t.ctx) 1 0)
      | .ok bs => .ok (withQueue q (.spad c) x bs, s)
  | .glob va =>
    match r with
    | .error e => .error (e.atUnit unit)
    | .ok none => .ok ([], s)
    | .ok (some p) =>
      let s1 := s.noteRead p
      if covered q p.place p.pa n then .ok (withQueue q p.place p.pa (List.replicate n 0), s1)
      else match s1.readPhys (s1.task? t.id) p n with
        | .error e => .error (lineTrap e unit va (s.asid t.ctx) 0 p.pa)
        | .ok bs => .ok (withQueue q p.place p.pa bs, s1)

/-- A consumer's read of n bytes of one line at a target, through a store queue. -/
def State.readTgt (s : State) (t : Task) (unit : Nat) (q : List StoreEnt) (tg : Target) (n : Nat)
    (core : Option Nat := none) : Except Trap (List Byte × State) :=
  s.readVia t unit q tg (s.route t false tg core) n

/-- A write at a target, performed at once. -/
def State.writeTgt (s : State) (t : Task) (escapes : Bool) (tg : Target) (bs : List Byte) :
    Except Trap State :=
  match tg with
  | .pad c x off =>
    match s.writeAt (.spad c) x bs with
    | .error e => .error (lineTrap e 13 off (s.asid t.ctx) 1 0)
    | .ok s' => .ok s'
  | .glob va => s.gWrite (taskAcc t true) (s.task? t.id) escapes 0 va bs

/-- A read-modify-write of n bytes at a target, in one step at the home or scratchpad (R177): `f` maps
the old bytes to the new ones. It escapes versions (R162). `native` says that a link carries it as it is (spec/10
R305); any other takes its line of host memory into the last-level cache. -/
def State.rmwTgt (s : State) (t : Task) (native : Bool) (tg : Target) (n : Nat) (f : List Byte → List Byte) :
    Except Trap (List Byte × State) :=
  match tg with
  | .pad c x off =>
    match s.readAt (.spad c) x n with
    | .error e => .error (lineTrap e 12 off (s.asid t.ctx) 1 0)
    | .ok old => match s.writeAt (.spad c) x (f old) with
      | .error e => .error (lineTrap e 12 off (s.asid t.ctx) 1 0)
      | .ok s' => .ok (old, s')
  | .glob va =>
    match s.translate (taskAcc t true) va with
    | .error e => .error (e.atUnit 12)
    | .ok p =>
      let s1 := if native && p.place == .host then s.noteNative p else s.noteWrite p
      match s1.readAt p.place p.pa n with
      | .error e => .error (lineTrap e 12 va (s.asid t.ctx) 0 p.pa)
      | .ok old => match s1.writeAt p.place p.pa (f old) with
        | .error e => .error (lineTrap e 12 va (s.asid t.ctx) 0 p.pa)
        | .ok s2 => .ok (old, s2)

/-- The range of n bytes at a target. -/
def Target.span (tg : Target) (n : Nat) : Span :=
  match tg with
  | .glob va => ⟨0, va, n⟩
  | .pad c x _ => ⟨1, c * 2 ^ 20 + x, n⟩

/-- Bytes that are UNDEFINED. -/
def State.freeBytes (s : State) (tag n : Nat) : List Byte :=
  (List.range n).map fun i => (s.fresh (2 ^ 57 + tag * 2 ^ 16 + i)).setWidth 8

/-! ## Logging of accesses (spec/13 R368 to R371) -/

/-- The page of a target, where a walk finds one. -/
def State.physOf (s : State) (t : Task) (write : Bool) (tg : Target) : Option Phys :=
  match s.route t write tg with
  | .ok p => p
  | .error _ => none

/-- The ordering kind of a target: scratchpads behave as RC (R262). -/
def kindOf (p : Option Phys) : PKind := (p.map fun x => x.leaf.kind).getD .rc

/-- Whether a counted store of one of a wave's lanes is on its way to a target. -/
def State.arriving (s : State) (w : Wave) (ls : List Nat) (tg : Target) (n : Nat) : Bool :=
  match tg with
  | .glob _ => false
  | .pad c a _ => s.arrivals.any fun y => y.srcCore == w.core && y.wslot == w.wslot && ls.contains y.lane
      && y.core == c && decide (y.addr < a + n) && decide (a < y.addr + y.bytes.length)

/-- Whether a lane has redirected reductions on their way: logged ones, which come before the thread's later logged
operations (spec/09 R272). -/
def State.sendingRed (s : State) (w : Wave) (l : Nat) : Bool :=
  s.arrivals.any fun y => y.srcCore == w.core && y.wslot == w.wslot && y.lane == l && y.op.isSome

/-- FLAGS of a record: the effective ordering, and where the location is. -/
def recFlags (tg : Target) (p : Option Phys) (acq rel rd wr : Bool) : Nat :=
  let so := kindOf p == .so
  let uo := kindOf p == .uo
  (if (acq && !uo) || (so && rd) then 2 else 0) + (if (rel && !uo) || (so && wr) then 4 else 0)
    + (if so then 8 else 0)
    + (match tg with | .pad _ _ _ => 16 | .glob _ => 0)
    + (match p with | some x => if x.place == .dev then 0 else 32 | none => 0)

/-- log2 of an access size. -/
def sizeCode (n : Nat) : Nat := n.log2

/-- HOME and ADDR of a target. -/
def recPlace (tg : Target) (p : Option Phys) : Nat × Nat :=
  match tg with
  | .pad c _ off => (localHome c, off)
  | .glob va => (match p with | some x => homeOf x.asid x.va | none => 0, va)

/-- A logged access less its value. -/
def accessOp (kind flags opc src : Nat) (tg : Target) (p : Option Phys) : LogOp :=
  { kind := kind, flags := flags, opc := opc, src := src, home := (recPlace tg p).1,
    addr := (recPlace tg p).2 }

/-- Runs an operation that is logged when `o` is some: the gate, the operation, then its record. The
operation answers its result, the value and payload of the record, and the state. -/
def State.logged {α : Type} (s : State) (c : Nat) (o : Option LogOp) (extn : Nat)
    (f : State → Except Stop (α × Nat × List Byte × State)) : Except Stop (α × State) :=
  match o with
  | none => match f s with
    | .error x => .error x
    | .ok (a, _, _, s1) => .ok (a, s1)
  | some o =>
    match s.logGate c o extn (s.selThread c o.src) with
    | .stop x => .error x
    | .go g => match f s with
      | .error x => .error x
      | .ok (a, v, ext, s1) => match s1.logDone c { o with value := v, ext := ext } g with
        | .error x => .error x
        | .ok s2 => .ok (a, s2)

/-- A trap as a stop. -/
def orTrap {α : Type} : Except Trap α → Except Stop α
  | .ok a => .ok a
  | .error e => .error (.trap e)

/-! ## Loads and stores of one thread -/

/-- The location of a target, where it has one. -/
def Target.loc (tg : Target) (p : Option Phys) : Option (Place × Nat) :=
  match tg with
  | .pad c a _ => some (.spad c, a)
  | .glob _ => p.map fun p => (p.place, p.pa)

def State.locOf (s : State) (t : Task) (wr : Bool) (tg : Target) : Option (Place × Nat) := tg.loc (s.physOf t wr tg)

/-- Whether a task's plain reads are those of normal mode (spec/09 R275); inside a version every read is exact. -/
def State.relaxed (s : State) (t : Task) : Bool := !s.flag (.cxsched t.ctx) 1 && !t.versioned

/-- Threads of a wave have read n bytes at a location as of a moment; an acquire takes the releases that it meets. -/
def State.hasRead (s : State) (w : Wave) (m : BitVec 64) (loc : Option (Place × Nat)) (n tm : Nat)
    (acq : Option Scope) : State :=
  match loc with
  | none => s
  | some (pl, a) => s.orders w.id m fun l o => o.reads s (w.agent l) pl a n tm acq

/-- What a thread reads where the image gives `bs`: in normal mode it may miss late writes (spec/09 R273). -/
def State.threadRead (s : State) (t : Task) (x : Actor) (q : List StoreEnt) (loc : Option (Place × Nat))
    (bs : List Byte) (logged : Bool) (acq : Option Scope) : List Byte × State :=
  match loc with
  | none => (bs, s)
  | some (pl, a) =>
    let n := bs.length
    let tm := if x.alone && s.relaxed t then s.readMoment x.ord x.agent logged pl a n (2 ^ 48 + x.l) else s.moment
    (if tm = s.moment then bs else withQueue q pl a (s.asOf tm pl a bs), s.hasRead x.w x.group loc n tm acq)

/-- The bytes of a fetch that is single-copy atomic per granule alone: each granule is read at a moment since the
fetch began, chosen freely, but a write that `must` selects is seen (spec/09 R260). -/
def State.fetched (s : State) (t : Task) (q : List StoreEnt) (since : Nat) (must : Place → Nat → Nat → Wr → Bool)
    (va : Nat) (bs : List Byte) : List Byte :=
  if t.versioned || s.hist.isEmpty then bs
  else (granulesOf va bs.length).flatMap fun g =>
    let lo := max va (8 * g)
    let part := (bs.drop (lo - va)).take (min (va + bs.length) (8 * g + 8) - lo)
    match s.locOf t false (.glob lo) with
    | none => part
    | some (pl, a) =>
      let ws := (s.writesAt pl a part.length).takeWhile fun x => decide (since < x.moment) && !must pl a part.length x
      let k := (s.fresh (2 ^ 43 + g)).toNat % (ws.length + 1)
      match ws[k - 1]? with
      | some x => if k = 0 then part else withQueue q pl a (s.asOf (x.moment - 1) pl a part)
      | none => part

/-- The scope of a qualifier on a page of a kind (spec/09 R262): every access to a strongly ordered one is at system
scope, and on an unordered one a qualifier orders nothing. -/
def effScope (k : PKind) (sc : Option Scope) : Option Scope :=
  match k with
  | .so => some .sys
  | .rc => sc
  | .uo => none

/-- A load of a thread (R164, R165): a logged one waits until the thread's logged writes have been
performed, one of an SO page until all have (R272, R276). `src` is none for a helper. -/
def State.load (s : State) (t : Task) (q : List StoreEnt) (tg : Target) (n : Nat) (acq : Option Scope)
    (src : Option Nat) (x : Actor) : Except Stop (List Byte × State) :=
  let r := s.route t false tg (some x.w.core)
  let p := match r with
    | .ok p => p
    | .error _ => none
  let so := kindOf p == .so
  let lg := so || (acq.isSome && kindOf p == .rc && p.isSome)
  if so && !q.isEmpty then .error .park
  else if lg && q.any (·.rel) then .error .park
  else if (so || acq.isSome) && (lanesOf x.group).any (s.sendingRed x.w) then .error .park
  else
    let o := match src with
      | some src => if lg then
          some (accessOp 1 (recFlags tg p acq.isSome false true false) (sizeCode n) src tg p) else none
      | none => none
    s.logged t.ctx o 0 fun s => match s.readVia t 0 q tg r n with
      | .error e => .error (.trap e)
      | .ok (bs, s1) =>
        if x.conflicts s (tg.span n) then
          let v := s.freeBytes (src.getD 0) n
          .ok (v, leNat v, [], s1)
        else
          let r := s1.threadRead t x q (tg.loc p) bs lg (effScope (kindOf p) acq)
          .ok (r.1, leNat r.1, [], r.2)

/-- A leaf for scratchpad entries of a store queue. -/
def Leaf.pad : Leaf := ⟨true, false, .rc, false, false, false, false, false, 0⟩

/-- A write of a thread has taken s0 to s1: what it carries, and what later reads may miss (spec/09 R267, R273). -/
def State.threadWritten (s0 s1 : State) (x : ThreadAt) (loc : Option (Place × Nat)) (n : Nat) (msgs : List Msg)
    (rmw logged : Bool) : State :=
  match loc with
  | some (pl, a) => s0.recordWrite s1 x pl a n msgs rmw logged
  | none => s1

/-- A store of a thread enters its queue; one to an SO page, a release, is performed when the queue is empty and no
counted store of the thread is on its way (`sent`; R263, R276). The result is the new queue. -/
def State.store (s : State) (t : Task) (x : Actor) (sent : Bool) (slot space : Nat) (tg : Target)
    (data : List Byte) (rel : Option Scope) (src : Nat) : Except Stop (List StoreEnt × State) :=
  let th := x.w.th x.l
  let bs := if x.conflicts s (tg.span data.length) then s.freeBytes src data.length else data
  let msgs (k : PKind) : List Msg := th.ord.releases x.agent s.moment (effScope k rel)
  match tg with
  | .pad c a off => .ok (th.storeQ ++
      [⟨slot, x.issue, .spad c, a, off, off, 0, .pad, space, bs, rel.isSome, th.fences, msgs .rc⟩], s)
  | .glob va =>
    match s.translate (taskAcc t true (some x.w.core)) va with
    | .error e => .error (.trap e)
    | .ok p =>
      if p.leaf.kind == .so then
        if !th.storeQ.isEmpty || sent then .error .park
        else
          let o := accessOp 2 (recFlags tg (some p) rel.isSome rel.isSome false true) (sizeCode bs.length) src tg (some p)
          match s.logged t.ctx (some { o with flags := o.flags - (if bitOf o.flags 1 then 2 else 0) }) 0
              (fun s => match s.writeTgt t true tg bs with
                | .error e => .error (.trap e)
                | .ok s1 => .ok ((), leNat bs, [],
                    s.threadWritten s1 x.agent (some (p.place, p.pa)) bs.length (msgs .so) false true)) with
          | .error x => .error x
          | .ok (_, s1) => .ok ([], s1)
      else .ok (th.storeQ ++ [⟨slot, x.issue, p.place, p.pa, p.va, va, p.asid, p.leaf, 0, bs,
        rel.isSome && p.leaf.kind == .rc, th.fences, msgs p.leaf.kind⟩], s)

/-! ## New values of atomics (R176 to R178) -/

/-- The operations that a link carries natively to host memory (spec/10 R305). -/
def linkNative (o : AtomOp) (t : Ty) : Bool :=
  match fmtOf t with
  | some _ => o == .add && (t == .f32 || t == .f64)
  | none => o != .cas128

/-- The new value of an atomic update of an element, from its old value, b and c. -/
def atomNew (o : AtomOp) (t : Ty) (old b c : Nat) : Nat :=
  match fmtOf t with
  | some f => match o with
    | .add => (addOf false f rne (f.decode false old) (f.decode false b)).1
    | .min => (fminmaxOf f false false old b).1
    | .max => (fminmaxOf f true false old b).1
    | _ => b
  | none =>
    let m := 2 ^ t.bits
    match o with
    | .add => (old + b) % m
    | .min => if intOf t b < intOf t old then b else old
    | .max => if intOf t old < intOf t b then b else old
    | .and => old &&& b
    | .or => old ||| b
    | .xor => old ^^^ b
    | .exch => b
    | .cas | .cas128 => if old = c then b else old
    | .inc => if b ≤ old then 0 else old + 1
    | .dec => if old = 0 || b < old then b else old - 1

/-- Bytes an operation updates. -/
def AtomOp.size (o : AtomOp) (t : Ty) : Nat := if o == .cas128 then 16 else t.bits / 8

/-! ## Outstanding accesses -/

/-- An outstanding access of lane l. -/
def access (i : Instr) (slot l : Nat) (a b c : Nat) : Pend :=
  { doneResult i slot l .zero [] 0 with
    done := false
    a := BitVec.ofNat 128 a
    b := BitVec.ofNat 128 b
    c := BitVec.ofNat 128 c }

/-- Pushes an access for each lane of a mask. -/
def Wave.pushEach (w : Wave) (m : BitVec 64) (f : Nat → Pend) : Wave :=
  (lanesOf m).foldl (fun w l => w.push (f l)) w

/-- Zero results of masked threads (R57). -/
def Wave.pushZero (w : Wave) (i : Instr) (slot : Nat) (m : BitVec 64) (d : Opd) (n : Nat) : Wave :=
  w.pushEach m fun l => doneResult i slot l d (List.replicate n 0) 0

/-- Address checks at issue (R159): the lanes at fault, with their traps. -/
def badLanes (m : BitVec 64) (f : Nat → Except Trap Target) : List (Nat × Trap) :=
  (lanesOf m).filterMap fun l => match f l with
    | .ok _ => none
    | .error t => some (l, t)

def execLd (x : Mem) (s : State) : Host.Outcome State Fault Refusal :=
  onIssue s fun e =>
    let act := e.exec x.h x.mod
    let adr (l : Nat) : Nat := e.addr s l x.sp x.a x.off.toInt
    let w0 := e.w.pushZero (.ld x) e.p.slot (e.zeroed x.h x.mod) x.r x.ty.regs
    match e.blame (badLanes act fun l => s.target e.k e.t x.sp false (memBytes x.ty) (adr l)) with
    | .error y => .error y
    | .ok gone =>
      let m := act &&& ~~~gone
      let w1 := w0.endHelpers gone
      if x.sp == .bcast then
        .ok (s.setWave (if m = 0 then w1
          else
            let l := e.leader m
            w1.push { access (.ld x) e.p.slot l (adr l) 0 0 with lanes := m }))
      else .ok (s.setWave (w1.pushEach m fun l => access (.ld x) e.p.slot l (adr l) 0 0))

/-- The address an A-marked access names, from the registers as they stand (R66). -/
def Env.addrNow (e : Env) (s : State) (l : Nat) : Instr → Option Nat
  | .st x => some (e.addr s l x.sp x.a x.off.toInt)
  | .stSy x => some (e.addr s l x.sp x.a x.off.toInt)
  | .sst x => some (e.addr s l x.sp x.a x.off.toInt)
  | .itst x => some (e.addr s l x.sp x.a x.off.toInt)
  | .atom _ x | .redx _ x => some (e.addr s l x.sp x.a x.off.toInt)
  | .red _ x => some (e.addr s l x.sp x.a x.off.toInt)
  | .tenq _ a => some (e.src s l true a)
  | _ => none

def execSt (x : Mem) (s : State) : Host.Outcome State Fault Refusal :=
  onIssue s fun e =>
    .ok (s.setWave (e.w.pushEach (e.real (e.exec x.h x.mod)) fun l =>
      access (.st x) e.p.slot l (e.addr s l x.sp x.a x.off.toInt) (e.src s l x.ty.wide x.r) 0))

def execStSy (x : MemSy) (s : State) : Host.Outcome State Fault Refusal :=
  onIssue s fun e =>
    .ok (s.setWave (e.w.pushEach (e.real (e.exec x.h x.mod)) fun l =>
      access (.stSy x) e.p.slot l (e.addr s l x.sp x.a x.off.toInt) (e.src s l x.ty.wide x.r)
        ((e.usrc s e.p.lanes x.c).toNat % 2 ^ 32)))

/-- sld (spec/04 R125): one access of the group. -/
def execSld (x : UMem) (s : State) : Host.Outcome State Fault Refusal :=
  onIssue s fun e =>
    let m := e.guard x.h
    if m = 0 then .ok s
    else
      let l := e.leader m
      let a := e.addr s l x.sp x.a x.off.toInt
      match s.target e.k e.t x.sp false (memBytes x.ty) a with
      | .error t => e.charge s m t
      | .ok _ => .ok (s.setWave (e.w.push { access (.sld x) e.p.slot l a 0 0 with lanes := e.p.lanes }))

/-- sst (spec/04 R125, R98): a helper never contributes. -/
def execSst (x : UMem) (s : State) : Host.Outcome State Fault Refusal :=
  onIssue s fun e =>
    let m := e.real (e.guard x.h)
    if m = 0 then .ok s
    else .ok (s.setWave (e.w.push
      { access (.sst x) e.p.slot (lowLane m) (e.addr s (lowLane m) x.sp x.a x.off.toInt)
          (e.usrc s m x.r).toNat 0 with lanes := e.p.lanes }))

/-- The iterator record an operand names, UNDEFINED between an itld and the marker (R65). -/
def Env.iter (e : Env) (s : State) (o : Opd) : BitVec 512 :=
  match o with
  | .j n =>
    if (lanesOf e.p.lanes).any fun l => (e.w.th l).fly.contains (0x320 + n.val) then
      BitVec.ofNat 512 (leNat (s.freeBytes (2 ^ 30 + n.val) 64))
    else getAt e.w.iters n.val 0
  | _ => 0

/-- The 16 words of a record. -/
def words512 (x : BitVec 512) : List Word := (List.range 16).map fun i => x.extractLsb' (32 * i) 32

/-- A record that the issuing group names is lost to an itx of another group that is interrupted on it (R174). -/
def Wave.mixOthers (w : Wave) (m : BitVec 64) (os : List Opd) : Wave :=
  w.each (~~~m) fun _ th =>
    if th.named.any fun n => os.any fun o => match o with
      | .j k => k.val == n
      | _ => false
    then { th with mixed := true } else th

/-- itld (R175): one access of the group, of its lowest lane that is no helper where there is one. -/
def execItld (x : ItMem) (s : State) : Host.Outcome State Fault Refusal :=
  onIssue s fun e =>
    let m := e.guard x.h
    if m = 0 then .ok s
    else
      let l := e.leader m
      let a := e.addr s l x.sp x.a x.off.toInt
      match s.target e.k e.t x.sp false 64 a with
      | .error t => e.charge s m t
      | .ok _ => .ok (s.setWave ((e.w.mixOthers e.p.lanes [x.r]).push
          { access (.itld x) e.p.slot l a 0 0 with lanes := e.p.lanes }))

def execItst (x : ItMem) (s : State) : Host.Outcome State Fault Refusal :=
  onIssue s fun e =>
    let m := e.real (e.guard x.h)
    if m = 0 then .ok s
    else .ok (s.setWave ((e.w.mixOthers e.p.lanes [x.r]).push
      { access (.itst x) e.p.slot (lowLane m) (e.addr s (lowLane m) x.sp x.a x.off.toInt) 0 0 with
        lanes := e.p.lanes
        ext := words512 (e.iter s x.r) }))

/-- An operand of the type's width, or the 128 bits of the four registers that cas128 names: an s register
gives its low 32 bits (spec/06 R176, notes/assumptions/19). -/
def Env.wideSrc (e : Env) (s : State) (l : Nat) (o : AtomOp) (t : Ty) (r : Opd) : Nat :=
  if o == .cas128 then
    match r with
    | .v n => (of4 (e.v s l n.val) (e.v s l (n.val + 1)) (e.v s l (n.val + 2)) (e.v s l (n.val + 3))).toNat
    | .s n =>
      let w (i : Nat) : Word := (e.s1 s l (n.val + i)).setWidth 32
      (of4 (w 0) (w 1) (w 2) (w 3)).toNat
    | _ => 0
  else e.src s l t.wide r % 2 ^ t.bits

/-- atom: a helper's destination receives zero (R160). -/
def execAtom (o : AtomOp) (x : Atom) (s : State) : Host.Outcome State Fault Refusal :=
  onIssue s fun e =>
    let m := e.guard x.h
    let w0 := e.w.pushZero (.atom o x) e.p.slot (m &&& e.w.helperMask) x.d
      (if o == .cas128 then 4 else x.ty.regs)
    .ok (s.setWave (w0.pushEach (e.real m) fun l =>
      access (.atom o x) e.p.slot l (e.addr s l x.sp x.a x.off.toInt) (e.wideSrc s l o x.ty x.b)
        (e.wideSrc s l o x.ty x.c)))

def execRed (o : AtomOp) (x : Red) (s : State) : Host.Outcome State Fault Refusal :=
  onIssue s fun e =>
    .ok (s.setWave (e.w.pushEach (e.real (e.guard x.h)) fun l =>
      access (.red o x) e.p.slot l (e.addr s l x.sp x.a x.off.toInt) (e.wideSrc s l o x.ty x.b) 0))

def execRedx (o : AtomOp) (x : Atom) (s : State) : Host.Outcome State Fault Refusal :=
  onIssue s fun e =>
    .ok (s.setWave (e.w.pushEach (e.real (e.guard x.h)) fun l =>
      access (.redx o x) e.p.slot l (e.addr s l x.sp x.a x.off.toInt) (e.wideSrc s l o x.ty x.b)
        ((e.usrc s e.p.lanes x.c).toNat % 2 ^ 32)))

/-- fence (R180): it takes its place among the thread's accesses. -/
def execFence (h : Head) (k : FenceKind) (c : Scope) (s : State) : Host.Outcome State Fault Refusal :=
  onIssue s fun e => .ok (s.setWave (e.w.pushEach (e.guard h) fun l =>
    access (.fence h k c) e.p.slot l 0 0 0))

/-- pref (R181): a line that can be translated becomes cached; nothing else changes. An address with bits [63:56]
set is a protected one (R157). -/
def execPref (h : Head) (_llc : Bool) (a : Opd) (off : BitVec 32) (s : State) :
    Host.Outcome State Fault Refusal :=
  onIssue s fun e => .ok ((lanesOf (e.guard h)).foldl (fun s' l =>
    if 2 ^ 56 ≤ e.addr s l .glob a off.toInt then s'
    else match s'.translate (taskAcc e.t false) (e.addr s l .glob a off.toInt) with
      | .ok p => s'.touch p false
      | .error _ => s') s)

/-- seal and unseal (R182): base and length are checked at issue. Helpers alone change nothing in memory (R160). -/
def Env.region (e : Env) (s : State) (i : Instr) (h : Head) (a b : Opd) : Except Stop State :=
  let m := e.real (e.guard h)
  let va := (e.usrc s m a).toNat
  let n := (e.usrc s m b).toNat
  let bad (c : Cause) : Except Stop State := e.charge s m (accTrap c (taskAcc e.t true) (s.asid e.t.ctx) va 0 none 0)
  if m = 0 then .ok s
  else if va % 2 ^ 16 ≠ 0 || n % 2 ^ 16 ≠ 0 then bad .misaligned
  else if 2 ^ 40 < n then bad .bounds
  else .ok (s.setWave (e.w.push { access i e.p.slot (lowLane m) va n 0 with lanes := e.p.lanes }))

def execSealRegion (h : Head) (a b : Opd) (s : State) : Host.Outcome State Fault Refusal :=
  onIssue s fun e => e.region s (.sealRegion h a b) h a b

def execUnsealRegion (h : Head) (a b : Opd) (s : State) : Host.Outcome State Fault Refusal :=
  onIssue s fun e => e.region s (.unsealRegion h a b) h a b

end Sys2Proof.Machine
end

