-- ==== Sys2Proof/Machine/Long.lean ====
section
/-! DEFINITION. The long memory instructions ldx, stc, swp and itx (spec/06 R167 to R174, spec/01 R29):
one segment an issue, the progress in %pix; iterator records (R172). -/

namespace Sys2Proof.Machine

/-! ## Progress (spec/01 R29)

A long instruction runs segment by segment. The first issue of a segment makes its accesses, which are performed
one by one as those of any instruction are (Machine/Land.lean); the threads stay at their slot, and issue again when
they are done. -/

/-- %pix with INP set and PROG = k. -/
def pixAt (k : Nat) : Dword := BitVec.ofNat 64 (2 ^ 32 + k % 2 ^ 32)

/-- The thread that stands for the group. -/
def Env.lead1 (e : Env) : Thread := e.w.th (lowLane e.p.lanes)

/-- The unit a long instruction of the group starts at. -/
def Env.prog (e : Env) : Nat := if e.lead1.pix.getLsbD 32 then e.lead1.pix.toNat % 2 ^ 32 else 0

/-- %pix of the group; a long instruction that is complete keeps no progress and no records. -/
def Env.setPix (e : Env) (w : Wave) (x : Dword) : Wave :=
  w.each e.p.lanes fun _ th => { th with
    pix := x
    seg := 0
    mixed := th.mixed && x != 0
    named := if x = 0 then [] else th.named
    again := false }

/-- Units below k are done: the next one issues with the progress kept, or the instruction completes. -/
def Env.boundary (e : Env) (s : State) (w : Wave) (k n : Nat) : Except Stop State :=
  if k < n then .ok (s.setWave (e.setPix w (pixAt k))).stopIssue
  else .ok (s.setWave (e.setPix w 0))

/-- The accesses of a segment are made: the threads wait for them at their slot. -/
def Env.midway (e : Env) (s : State) (w : Wave) (seg : Nat) (y : Why) : Except Stop State :=
  .ok (s.setWave (w.each e.p.lanes fun _ th => { th with
    run := .hold y
    seg := seg })).stopIssue

/-- A fault that an access of the segment has met ends the instruction at its slot (spec/02 R67). -/
def Env.segFault (e : Env) : Option Trap :=
  (lanesOf e.p.lanes).findSome? fun l => (e.w.th l).dfault.filter fun t => t.slot == e.p.slot

/-- A segment does not complete: the threads of `m` keep the progress k, and it is performed again whole (R29,
spec/06 R169, R171). -/
def Wave.cutSegment (w : Wave) (m : BitVec 64) (i : Instr) (slot k : Nat) : Wave :=
  { w.each m fun _ th => { th with
      pix := pixAt k
      again := th.seg != 0
      seg := 0 } with
    out := w.out.filter fun p => !(p.slot == slot && p.i == i && p.lanes &&& m != 0 && !(p.done && p.c == 3)) }

/-- A fault that a segment meets as it issues. -/
def Env.interrupt (e : Env) (s : State) (i : Instr) (k : Nat) (t : Trap) : Except Stop State :=
  .ok ((s.takeStop (e.w.cutSegment e.p.lanes i e.p.slot k) e.p.lanes e.p.slot (.trap t)).stopIssue)

/-! ## ldx and stc (R167 to R169) -/

/-- The selected lanes of segment k (R168). -/
def Env.selected (e : Env) (s : State) (h : Head) (c : Opd) (k : Nat) : BitVec 64 :=
  match c with
  | .v n => e.real (e.guard h) &&& maskOf fun l => e.v s l (n.val + k) != 0
  | _ => 0

def countLanes (m : BitVec 64) : Nat := (lanesOf m).length

/-- Elements before segment k. -/
def Env.before (e : Env) (s : State) (h : Head) (c : Opd) (k : Nat) : Nat :=
  ((List.range k).map fun j => countLanes (e.selected s h c j)).sum

/-- The address of element i. -/
def Env.elemAddr (e : Env) (s : State) (x : Expand) (i : Nat) : Nat :=
  e.addr s (lowLane e.p.lanes) x.sp x.a (i * memBytes x.ty : Nat)

/-- Data register of segment k. -/
def dataReg (x : Expand) (k : Nat) : Nat :=
  match x.r with
  | .v n => n.val + k * x.ty.regs
  | _ => 0

def dataOpd (x : Expand) (k : Nat) : Opd := .v (Fin.ofNat 256 (dataReg x k))

/-- The selected lanes of a segment with their element numbers. -/
def Env.elems (e : Env) (s : State) (x : Expand) (k : Nat) : List (Nat × Nat) :=
  ((lanesOf (e.selected s x.h x.c k)).zipIdx).map fun p => (p.1, e.before s x.h x.c k + p.2)

/-- Checks at issue of every element of ldx (R159). -/
def Env.ldxBad (e : Env) (s : State) (x : Expand) : List (Nat × Trap) :=
  (List.range x.n.toNat).flatMap fun k => (e.elems s x k).filterMap fun p =>
    match s.target e.k e.t x.sp false (memBytes x.ty) (e.elemAddr s x p.2) with
    | .ok _ => none
    | .error t => some (p.1, t)

/-- The fault of the lowest lane. -/
def lowestLane : List (Nat × Trap) → Option (Nat × Trap)
  | [] => none
  | p :: r => match lowestLane r with
    | none => some p
    | some q => some (if p.1 ≤ q.1 then p else q)

/-- The accesses of a segment of ldx or stc, one for each element. -/
def Env.expand (e : Env) (s : State) (i : Instr) (x : Expand) (k : Nat) : Wave :=
  (e.elems s x k).foldl (fun w p => w.push
    { access i e.p.slot p.1 (e.elemAddr s x p.2) (e.src s p.1 x.ty.wide (dataOpd x k)) 0 with
      dst := dataOpd x k }) e.w

/-- The base is not aligned to the element size (R167). -/
def Env.skewed (e : Env) (s : State) (x : Expand) (wr : Bool) : Option Trap :=
  if e.elemAddr s x 0 % memBytes x.ty = 0 then none
  else some (accTrap .misaligned (taskAcc e.t wr) (s.asid e.t.ctx) (e.elemAddr s x 0) x.sp.code none 0)

def execLdx (x : Expand) (s : State) : Host.Outcome State Fault Refusal :=
  onIssue s fun e =>
    let k := e.prog
    let m := e.real (e.guard x.h)
    if m = 0 then .ok (s.setWave (e.setPix e.w 0))
    else match e.segFault with
    | some t => .error (.trap t)
    | none =>
      if e.lead1.seg ≠ 0 then e.boundary s e.w (k + 1) x.n.toNat
      else match e.skewed s x false with
      | some t => e.charge s m t
      | none => match lowestLane (e.ldxBad s x) with
        | some (l, t) => .error (.trap { t with lane := some l })
        | none => e.midway s (e.expand s (.ldx x) x k) 1 .land

/-- stc: the count is written once, at completion (R168). -/
def execStc (x : Expand) (s : State) : Host.Outcome State Fault Refusal :=
  onIssue s fun e =>
    let k := e.prog
    let m := e.real (e.guard x.h)
    if m = 0 then
      .ok (if e.guard x.h = 0 then s.setWave (e.setPix e.w 0)
        else s.putS (e.setPix e.w 0) e.p.lanes x.cnt 0)
    else match e.segFault with
    | some t => .error (.trap t)
    | none =>
      if e.lead1.seg ≠ 0 then
        if k + 1 < x.n.toNat then e.boundary s e.w (k + 1) x.n.toNat
        else .ok (s.putS (e.setPix e.w 0) e.p.lanes x.cnt (BitVec.ofNat 64 (e.before s x.h x.c x.n.toNat)))
      else match e.skewed s x true with
      | some t => e.charge s m t
      | none => e.midway s (e.expand s (.stc x) x k) 1 .land

/-! ## Element operations of swp and itx (R170) -/

/-- The result of an element. -/
def swpRes (o : SwpOp) (t : Ty) (k : Finish) (a b d : Nat) : Res :=
  match fmtOf t with
  | some f =>
    let v := f.decode k.fz
    match o with
    | .add => addOf false f k (v a) (v b)
    | .sub => addOf true f k (v a) (v b)
    | .mul => mulOf f k (v a) (v b)
    | .min => fminmaxOf f false false a b
    | .max => fminmaxOf f true false a b
    | .fma => fmaOf f k false false (v a) (v b) (v d)
    | _ => (a, 0)
  | none =>
    let x := intOf t a
    let y := intOf t b
    match o with
    | .add => (ofSigned t.bits (x + y), 0)
    | .sub => (ofSigned t.bits (x - y), 0)
    | .mul => (ofSigned t.bits (x * y), 0)
    | .min => (if y < x then b else a, 0)
    | .max => (if x < y then b else a, 0)
    | .and => (a &&& b, 0)
    | .or => (a ||| b, 0)
    | .xor => (a ^^^ b, 0)
    | _ => (a, 0)

/-- Whether an operation rounds, so that RSR draws (R171). -/
def swpRounds (o : SwpOp) (t : Ty) : Bool :=
  (fmtOf t).isSome && (o == .add || o == .sub || o == .mul || o == .fma)

/-- The element of one lane in a segment: the address of each operand in its space. -/
structure Elem where
  lane : Nat
  a : Option (Space × Nat)
  b : Option (Space × Nat)
  d : Option (Space × Nat)
  deriving DecidableEq

/-- A read or write of an element: operand 0 to 2 for a read of A, B and D, 3 for the write of D, with its space
above bit 8. -/
def elemAccess (i : Instr) (slot l operand : Nat) (a : Space × Nat) (v : Nat) : Pend :=
  access i slot l a.2 v (operand + 256 * a.1.code)

/-- The reads of a segment, in lane order. -/
def sweepReads (i : Instr) (slot : Nat) (needB needD : Bool) (xs : List Elem) (w : Wave) : Wave :=
  xs.foldl (fun w x => [(0, x.a), (1, if needB then x.b else none), (2, if needD then x.d else none)].foldl
    (fun w p => match p.2 with
      | some a => w.push (elemAccess i slot x.lane p.1 a 0)
      | none => w) w) w

/-- What a read of the segment gave: 0 for an operand that it does not read. -/
def Wave.swept (w : Wave) (i : Instr) (slot l operand : Nat) : Nat :=
  match w.out.find? fun p => p.done && p.slot == slot && p.lane == l && p.i == i && p.c.toNat % 256 == operand with
  | some p => (getAt p.ext 0 0).toNat + 2 ^ 32 * (getAt p.ext 1 0).toNat
  | none => 0

/-- Takes the reads of a segment out. -/
def Wave.dropReads (w : Wave) (m : BitVec 64) (i : Instr) (slot : Nat) : Wave :=
  { w with out := w.out.filter fun p => !(p.done && p.slot == slot && p.i == i && p.lanes &&& m != 0) }

/-- Whether n bytes at two places of elements share a byte. -/
def elemsMeet (n : Nat) (a b : Option (Space × Nat)) : Bool :=
  match a, b with
  | some (sp, x), some (sp', y) => sp == sp' && decide (x < y + n) && decide (y < x + n)
  | _, _ => false

/-- Whether an element is written where the segment reads A or B. -/
def overlaps (n : Nat) (xs : List Elem) (x : Elem) : Bool :=
  xs.any fun y => elemsMeet n x.d y.a || elemsMeet n x.d y.b

/-- The results of a segment: one for each element, UNDEFINED where another group took its record, or where an
interrupted fma reads D again that it shares with a source (R171, R174). -/
def Env.sweepRes (e : Env) (s : State) (i : Instr) (o : SwpOp) (t : Ty) (xs : List Elem) : List (Elem × Res) :=
  xs.map fun x =>
    let v (operand : Nat) : Nat := e.w.swept i e.p.slot x.lane operand
    let r := swpRes o t (e.fin s x.lane 0 none (fmtFor t)) (v 0) (v 1) (v 2)
    let th := e.w.th x.lane
    if th.mixed || (th.again && o == .fma && overlaps (memBytes t) xs x) then
      (x, ((s.fresh (e.tag x.lane 0xC0)).toNat % 2 ^ t.bits, r.2))
    else (x, r)

/-- The writes of a segment, with the flags of its elements (R171). -/
def Env.sweepWrites (e : Env) (s : State) (i : Instr) (o : SwpOp) (t : Ty) (xs : List Elem) : Wave :=
  let rs := e.sweepRes s i o t xs
  let m := maskOf fun l => xs.any fun x => x.lane == l
  let w1 := (e.w.dropReads e.p.lanes i e.p.slot).orFlags m fun l =>
    match rs.find? fun p => p.1.lane == l with
    | some p => p.2.2
    | none => 0
  rs.foldl (fun w p => match p.1.d with
    | some a => w.push (elemAccess i e.p.slot p.1.lane 3 a p.2.1)
    | none => w) w1

/-- One issue of a sweep: the checks of a segment and its reads, its results and writes, or its end, at which every
active lane takes its draw under RSR (R171; spec/03 R87). -/
def Env.sweep (e : Env) (s : State) (i : Instr) (o : SwpOp) (t : Ty) (act : BitVec 64)
    (xs : Except Trap (List Elem)) (k n : Nat) (fin : Wave → Wave) : Except Stop State :=
  match e.segFault with
  | some y => .error (.trap y)
  | none =>
    if e.lead1.seg = 2 then
      if s.unsettled e.w e.p.lanes then e.midway s e.w 2 .drain
      else e.boundary s (fin (if swpRounds o t && e.rm none = .rsr then e.w.advance act else e.w)) (k + 1) n
    else match xs with
    | .error y => e.interrupt s i k y
    | .ok xs =>
      if e.lead1.seg = 0 then e.midway s (sweepReads i e.p.slot (o != .copy) (o == .fma) xs e.w) 1 .land
      else e.midway s (e.sweepWrites s i o t xs) 2 .drain

/-- A page that an element of the segment would write, and that is absent, interrupts it before any is written. -/
def Env.writable (e : Env) (s : State) (xs : List Elem) : Option Trap :=
  xs.findSome? fun x => match x.d with
    | some (sp, a) =>
      if sp == .glob then match s.translate (taskAcc e.t true) a with
        | .ok _ => none
        | .error y => some { y.atUnit 1 with lane := some x.lane }
      else none
    | none => none

/-! ## swp (R170, R171) -/

/-- Base and step of an operand. -/
def swpBase (x : Dword) : Nat × Int := (x.toNat % 2 ^ 32, (x.extractLsb' 32 32).toInt)

/-- The address of lane l in segment k. -/
def swpAddr (x : Dword) (size k l : Nat) : Nat :=
  ((((swpBase x).1 : Int) + k * (swpBase x).2 + l * size) % 2 ^ 32).toNat

/-- An operand of the element of lane l: its checked address. -/
def Env.elemAt (e : Env) (s : State) (n l : Nat) (wr : Bool) (a : Option (Space × Nat)) :
    Except Trap (Option (Space × Nat)) :=
  match a with
  | none => .ok none
  | some (sp, x) => match s.target e.k e.t sp wr n x with
    | .error t => .error { t with lane := some l }
    | .ok _ => .ok a

/-- The element of a lane whose operands `f` places; `needB` says that the form reads B. -/
def Env.element1 (e : Env) (s : State) (x : Sweep) (needB : Bool) (l : Nat) (f : Opd → Option (Space × Nat)) :
    Except Trap Elem :=
  let n := memBytes x.ty
  match e.elemAt s n l false (f x.a) with
  | .error t => .error t
  | .ok a => match e.elemAt s n l false (if needB then f x.b else none) with
    | .error t => .error t
    | .ok b => match e.elemAt s n l true (f x.d) with
      | .error t => .error t
      | .ok d => .ok ⟨l, a, b, d⟩

/-- The element of one lane in a segment; the first address out of the window faults BOUNDS. -/
def Env.swpElem (e : Env) (s : State) (x : Sweep) (needB : Bool) (k l : Nat) : Except Trap Elem :=
  e.element1 s x needB l fun o =>
    if o.isZero then none else some (.crew, swpAddr (e.usrc s e.p.lanes o) (memBytes x.ty) k l)

/-- The elements of a list of lanes. -/
def collect (f : Nat → Except Trap Elem) : List Nat → Except Trap (List Elem)
  | [] => .ok []
  | l :: r => match f l with
    | .error t => .error t
    | .ok x => match collect f r with
      | .error t => .error t
      | .ok xs => .ok (x :: xs)

/-- Whether a base or step is not a multiple of the element size. -/
def swpSkewed (x : Dword) (n : Nat) : Bool := (swpBase x).1 % n != 0 || (swpBase x).2 % n != 0

/-- The operands that a form reads or writes: copy has no B (R170). -/
def sweepOpds (o : SwpOp) (x : Sweep) : List Opd := if o == .copy then [x.a, x.d] else [x.a, x.b, x.d]

def execSwp (o : SwpOp) (x : Sweep) (s : State) : Host.Outcome State Fault Refusal :=
  onIssue s fun e =>
    let k := e.prog
    let m := e.real (e.guard x.h)
    if x.n = 0 || m = 0 then .ok (s.setWave (e.setPix e.w 0))
    else match (sweepOpds o x).find? fun p =>
        !p.isZero && swpSkewed (e.usrc s e.p.lanes p) (memBytes x.ty) with
    | some p => e.charge s m (accTrap .misaligned (taskAcc e.t true) (s.asid e.t.ctx)
        (swpBase (e.usrc s e.p.lanes p)).1 1 none 0)
    | none => e.sweep s (.swp o x) o x.ty m (collect (e.swpElem s x (o != .copy) k) (lanesOf m)) k x.n.toNat id

/-! ## Iterator records (R172) -/

/-- Bytes [o + n - 1 : o] of a record. -/
def recField (r : BitVec 512) (o n : Nat) : Nat := bitsOf r.toNat (8 * o) (8 * n)

def itRank (r : BitVec 512) : Nat := recField r 9 1
def itExt (r : BitVec 512) (d : Nat) : Nat := recField r (0x10 + 2 * d) 2
def itStride (r : BitVec 512) (d : Nat) : Int := toSigned 32 (recField r (0x18 + 4 * d) 4)
def itIdx (r : BitVec 512) (d : Nat) : Nat := recField r (0x28 + 2 * d) 2
def itBcast (r : BitVec 512) (d : Nat) : Bool := bitOf (recField r 11 1) d

/-- The first byte at which a record breaks R172. -/
def itBad (r : BitVec 512) : Option Nat :=
  if recField r 7 1 ≠ 0 then some 7
  else if (Ty.ofCode? (recField r 8 1)).isNone then some 8
  else if itRank r = 0 || 4 < itRank r then some 9
  else if 2 < recField r 10 1 then some 10
  else if 16 ≤ recField r 11 1 then some 11
  else if recField r 12 4 ≠ 0 then some 12
  else match (List.range 4).find? fun d => if d < itRank r then itExt r d == 0 else itExt r d != 0 with
    | some d => some (0x10 + 2 * d)
    | none => match (List.range 4).find? fun d => decide (itRank r ≤ d) && itStride r d != 0 with
      | some d => some (0x18 + 4 * d)
      | none => if recField r 0x30 16 ≠ 0 then some 0x30 else none

/-- Elements of a tile. -/
def itCount (r : BitVec 512) : Nat :=
  ((List.range (itRank r)).map fun d => itExt r d).foldl (· * ·) 1

/-- The index of element n in dimension d, under the extents of a record. -/
def itIndex (r : BitVec 512) (n d : Nat) : Nat :=
  n / (((List.range d).map fun i => itExt r i).foldl (· * ·) 1) % itExt r d

/-- The address of element n of the tile of `sh` in a record. -/
def itAddr (sh r : BitVec 512) (n : Nat) : Nat :=
  let sum : Int := ((List.range (itRank r)).map fun d =>
    if itBcast r d then 0 else (itIndex sh n d : Int) * itStride r d).sum
  if recField r 10 1 = 0 then addSigned (recField r 0 8) sum
  else (((recField r 0 8 : Nat) + sum) % 2 ^ 32).toNat

/-- A record with the indices of element n of a tile, or zero. -/
def itSetIdx (sh r : BitVec 512) (n : Option Nat) : BitVec 512 :=
  let v := match n with
    | none => 0
    | some n => ((List.range (itRank sh)).map fun d => itIndex sh n d * 2 ^ (16 * d)).sum
  BitVec.ofNat 512 (replaceBits r.toNat (8 * 0x28) 64 v)

/-- The checks of itx at issue (R173): the first bad byte. -/
def itxBad (ty : Ty) (w : Nat) (d : BitVec 512) (srcs : List (BitVec 512)) : Option Nat :=
  match (d :: srcs).findSome? itBad with
  | some o => some o
  | none =>
    if (d :: srcs).any fun r => recField r 8 1 != ty.code then some 8
    else if srcs.any fun r => itRank r != itRank d then some 9
    else if recField d 11 1 ≠ 0 then some 11
    else match (List.range (itRank d)).find? fun i =>
        srcs.any fun r => !itBcast r i && itExt r i != itExt d i with
      | some i => some (0x10 + 2 * i)
      | none => if 2 ^ 32 ≤ ceilDiv (itCount d) w then some 0x10 else none

/-- The trap of an iterator record. -/
def itTrap (o : Nat) : Trap := { cause := .format, aux0 := BitVec.ofNat 64 (12 + 256 * o) }

def itSpace (r : BitVec 512) : Space := (Space.ofCode (recField r 10 1)).getD .glob

/-- The element of lane l in segment k. -/
def Env.itElem (e : Env) (s : State) (x : Sweep) (needB : Bool) (n : Nat) (l : Nat) : Except Trap Elem :=
  e.element1 s x needB l fun o =>
    if o.isZero then none else some (itSpace (e.iter s o), itAddr (e.iter s x.d) (e.iter s o) n)

/-- Writes IDX of every record named. -/
def Wave.setIdx (w : Wave) (sh : BitVec 512) (n : Option Nat) (os : List Opd) : Wave :=
  { w with iters := os.foldl (fun l o => match o with
      | .j k => updAt l k.val fun r => itSetIdx sh r n
      | _ => l) w.iters }

/-- The numbers of the records that operands name. -/
def itNames (os : List Opd) : List Nat :=
  os.filterMap fun o => match o with
    | .j n => some n.val
    | _ => none

/-- itx (R173, R174): the records are checked as each segment begins. -/
def execItx (o : SwpOp) (x : Sweep) (s : State) : Host.Outcome State Fault Refusal :=
  onIssue s fun e =>
    let k := e.prog
    let m := e.real (e.guard x.h)
    let sh := e.iter s x.d
    let os := sweepOpds o x
    let srcs := (if o == .copy || x.b.isZero then [x.a] else [x.a, x.b]).map (e.iter s)
    let total := itCount sh
    let segs := ceilDiv total e.w.width
    let same := (List.range (itRank sh)).all fun d =>
      itIdx sh d == (if k * e.w.width < total then itIndex sh (k * e.w.width) d else 0)
    if e.guard x.h = 0 then .ok (s.setWave (e.setPix e.w 0))
    else match (if e.lead1.seg = 2 then none else itxBad x.ty e.w.width sh srcs) with
    | some b => e.charge s (e.guard x.h) (itTrap b)
    | none =>
      if e.p.inp && e.lead1.seg = 0 && !same then e.charge s (e.guard x.h) (itTrap 0x28)
      else
        let w0 := (e.w.mixOthers e.p.lanes os).each e.p.lanes fun _ th => { th with named := itNames os }
        let e0 := { e with w := if e.p.inp || e.lead1.seg ≠ 0 then w0 else w0.setIdx sh none os }
        let lanes := (lanesOf m).filter fun l => k * e.w.width + l < total
        let xs : Except Trap (List Elem) :=
          match collect (fun l => e0.itElem s x (o != .copy) (k * e.w.width + l) l) lanes with
          | .error t => .error t
          | .ok xs => match (if e.lead1.seg = 1 then e0.writable s xs else none) with
            | some t => .error t
            | none => .ok xs
        e0.sweep s (.itx o x) o x.ty m xs k segs fun w =>
          w.setIdx sh (if k + 1 < segs then some ((k + 1) * e.w.width) else none) os

end Sys2Proof.Machine
end

