-- ==== Sys2Proof/Machine/Sync.lean ====
section
/-! DEFINITION. Barriers, counters, sync words, chunk bitmaps and queue registers (spec/06 R183 to R195),
and mov (spec/05 R127, R128), which pushes and pops. -/

namespace Sys2Proof.Machine

/-! ## Waking parked threads (spec/04 R112) -/

/-- An event of a crew that park waits for. -/
def State.wakeCrew (s : State) (crew : Nat) : State :=
  { s with waves := s.waves.map fun w => if w.crew == crew then
      { w with threads := w.threads.map fun th => match th.run with
          | .wait (.park _) => th.release s.tick
          | _ => match th.after with
            | .wait (.park _) => { th with after := .ready }
            | _ => th } else w }

/-! ## Barriers (R184) -/

/-- The identifier and count of a bar. -/
def Env.barArgs (e : Env) (s : State) (k : BarKind) : BarSrc → Nat × Nat
  | .reg a b => ((e.usrc s e.p.lanes a).toNat, if k == .wait then 0 else (e.usrc s e.p.lanes b).toNat)
  | .imm id n => (id.toNat, n.toNat)

/-- The trap of a barrier. -/
def barTrap (l id : Nat) : Trap := { laneTrap .barrierMisuse l with aux0 := BitVec.ofNat 64 (id % 32) }

def Bar.idle : Bar := ⟨0, 0, 0, .start, .start⟩

/-- Arrivals at a barrier, with what happens before them; none where they are misused. -/
def Bar.arrive (b : Bar) (count a most : Nat) (v : View) : Option Bar :=
  if count = 0 || most < count then none
  else if b.arrivals ≠ 0 && b.e ≠ count then none
  else if count < b.arrivals + a then none
  else if b.arrivals + a = count then some ⟨count, 0, b.phase + 1, .start, b.last.join (b.now.join v)⟩
  else some ⟨count, b.arrivals + a, b.phase, b.now.join v, b.last⟩

def execBar (h : Head) (k : BarKind) (x : BarSrc) (s : State) : Host.Outcome State Fault Refusal :=
  onIssue s fun e =>
    let m := e.guard h
    let (id, count) := e.barArgs s k x
    let b := getAt e.k.bars id .idle
    if m = 0 then .ok s
    else if e.k.hdr.nbar ≤ id then e.charge s m (barTrap 0 id)
    else if k == .wait then
      .ok (s.setWave (e.w.each m fun _ th => { th with run := .wait (.bar id b.phase false) }))
    else match b.arrive count (countLanes m) (e.k.hdr.waves * e.w.width) (e.w.passes m s.moment) with
      | none => e.charge s m (barTrap 0 id)
      | some b1 =>
        if s.unsettled e.w m then e.hold s .drain
        else
          let w1 := if k == .sync then
              e.w.each m fun _ th => { th with run := .wait (.bar id b.phase true) } else e.w
          let s1 := (s.setWave w1).setCrew { e.k with bars := e.k.bars.set id b1 }
          .ok (if b1.phase = b.phase then s1 else s1.wakeCrew e.k.id)

/-! ## Counters (R185) -/

/-- The address of a counter. -/
def ctrSpace (crew : Bool) : Space := if crew then .crew else .glob

/-- B of a synchronisation instruction: an immediate is zero-extended. -/
def Env.syncB (e : Env) (s : State) : Src32 → Nat
  | .reg o => (e.usrc s e.p.lanes o).toNat
  | .imm x => x.toNat

def Env.syncA (e : Env) (s : State) (sp : Space) (o : Opd) : Nat :=
  e.addr s (lowLane e.p.lanes) sp o 0

/-- cadd: one release of the group, performed in its place among the accesses (Machine/Land.lean). -/
def execCadd (x : Ctr) (s : State) : Host.Outcome State Fault Refusal :=
  onIssue s fun e =>
    let m := e.real (e.guard x.h)
    if m = 0 then .ok s
    else match s.target e.k e.t (ctrSpace x.crew) true 8 (e.syncA s (ctrSpace x.crew) x.a) with
      | .error t => .error (.trap { t with lane := some (lowLane m) })
      | .ok _ => .ok (s.setWave (e.w.push
          { access (.cadd x) e.p.slot (lowLane m) (e.syncA s (ctrSpace x.crew) x.a) (e.syncB s x.b) 0 with
            lanes := m }))

def execCwait (x : Ctr) (s : State) : Host.Outcome State Fault Refusal :=
  onIssue s fun e =>
    let m := e.guard x.h
    let a := e.syncA s (ctrSpace x.crew) x.a
    if m = 0 then .ok s
    else match s.target e.k e.t (ctrSpace x.crew) false 8 a with
      | .error t => e.charge s m t
      | .ok _ => .ok (s.setWave (e.w.each m fun _ th =>
          { th with run := .wait (.counter x.crew a (e.syncB s x.b) x.scope e.p.slot) }))

/-- A thread is released. -/
def Wave.releaseLane (w : Wave) (l tick : Nat) : Wave :=
  w.each (1#64 <<< l) fun _ th => th.release tick

/-- The read of a counter that a blocked thread observes, an acquire, with its record (spec/13 R370 CWAIT). -/
def State.observe (s : State) (k : Crew) (t : Task) (w : Wave) (l : Nat) (crew : Bool)
    (addr target : Nat) (sc : Scope) : Except Stop State :=
  let th := w.th l
  match s.target k t (ctrSpace crew) false 8 addr with
  | .error e => .error (.trap e)
  | .ok tg =>
    let p := s.physOf t false tg
    let o := accessOp 4 (recFlags tg p true false true false) 3 (srcOf w.core w.wslot l) tg p
    let lg := if th.helper then none else some o
    match s.logged t.ctx lg 0 (fun s => match s.readTgt t 0 [] tg 8 with
        | .error e => .error (.trap e)
        | .ok (bs, s1) => if target ≤ leNat bs then
            .ok ((), leNat bs, [], s1.hasRead w (1#64 <<< l) (tg.loc p) 8 s1.moment (effScope (kindOf p) (some sc)))
          else .error .park) with
    | .error y => .error y
    | .ok (_, s1) => .ok s1

/-- A blocked thread's counter reaches its target: it goes on after its earlier accesses. -/
def execCwaitSatisfied (r : ThreadRef) (s : State) : Host.Outcome State Fault Refusal :=
  match s.waveAt? r.core r.wslot with
  | none => .fault .notEnabled
  | some w => match (w.th r.lane).run, s.crew? w.crew with
    | .wait (.counter crew addr target sc slot), some k => match s.task? k.task with
      | none => .fault .notEnabled
      | some t =>
        if w.halted || s.unsettled w (1#64 <<< r.lane) then .fault .notEnabled
        else match s.observe k t w r.lane crew addr target sc with
          | .error .park => .fault .notEnabled
          | .error y => .next (s.takeStop w (1#64 <<< r.lane) slot y)
          | .ok s1 => .next (s1.setWave (((s1.wave? w.id).getD w).releaseLane r.lane s.tick))
    | _, _ => .fault .notEnabled

/-! ## Sync words (R186 to R189) -/

/-- A notice for the crew's XIN port (R187): dropped where there is no port or no room. -/
def Crew.notice (k : Crew) (off gen srcCore : Nat) : Crew :=
  match k.qs.findIdx? fun q => q.kind == 5 with
  | none => k
  | some i =>
    let q := getAt k.qs i ⟨0, 0, 0, 0, [], []⟩
    if 32 ≤ q.elems.length then k
    else
      let el : Nat × Option (List Word) :=
        (0, some [BitVec.ofNat 32 off, BitVec.ofNat 32 gen, BitVec.ofNat 32 srcCore, 0])
      { k with qs := k.qs.set i { q with elems := q.elems ++ [el] } }

/-- The advance of a sync word from its fields: TARGET, COUNT, GEN, FLAGS (R187). -/
def syncAdvance (tgt cnt gen : Nat) : Nat × Nat × Bool :=
  if tgt ≠ 0 && tgt ≤ cnt then (cnt - tgt, (gen + 1) % 2 ^ 32, true) else (cnt, gen, false)

/-- What happens before the last advance of a sync word. -/
def Crew.synced (k : Crew) (addr : Nat) : View :=
  match k.syncs.find? fun x => x.addr == addr with
  | some x => x.last
  | none => .start

/-- What happens before the bytes that a sync word counts joins its view, and on an advance what waits for it
(spec/09 R270). -/
def Crew.counted (k : Crew) (addr : Nat) (v : View) (advance : Bool) : Crew :=
  let x := (k.syncs.find? fun x => x.addr == addr).getD ⟨addr, .start, .start⟩
  let now := x.now.join v
  { k with syncs := (if advance then ⟨addr, .start, x.last.join now⟩ else ⟨addr, now, x.last⟩)
      :: k.syncs.filter fun y => y.addr != addr }

/-- Rewrites the sync word at an address of a crew's core: `f` maps TARGET, COUNT and FLAGS, and the
advance of R187 follows. `v` happens before what is counted. -/
def State.syncWord (s : State) (crew core addr srcCore : Nat) (v : View)
    (f : Nat × Nat × Nat → Nat × Nat × Nat) : Except Mismatch State :=
  match s.readAt (.spad core) addr 16 with
  | .error e => .error e
  | .ok bs =>
    let x := f (fieldOf bs 0 4, fieldOf bs 4 4, fieldOf bs 12 4)
    let y := syncAdvance x.1 (x.2.1 % 2 ^ 32) (fieldOf bs 8 4)
    match s.writeAt (.spad core) addr (pack [(4, x.1), (4, y.1), (4, y.2.1), (4, x.2.2)]) with
    | .error e => .error e
    | .ok s0 =>
      let s1 := match s0.crew? crew with
        | some k => s0.setCrew (k.counted addr v y.2.2)
        | none => s0
      if y.2.2 then
        let s2 := match s1.crew? crew with
          | some k => if bitOf x.2.2 0 then s1.setCrew (k.notice (addr - k.spadBase) y.2.1 srcCore) else s1
          | none => s1
        .ok (s2.wakeCrew crew)
      else .ok s1

/-- Checks of a synchronisation address in crew scratchpad: aligned to n bytes. -/
def Env.syncTgt (e : Env) (s : State) (n : Nat) (wr : Bool) (a : Nat) : Except Trap Nat :=
  let bounds : Trap := accTrap .bounds (taskAcc e.t wr) (s.asid e.t.ctx) a 1 none 0
  match s.target e.k e.t .crew wr n a with
  | .ok (.pad _ x _) => if a + n ≤ e.k.window then .ok x else .error bounds
  | .ok (.glob _) => .error bounds
  | .error t => .error t

/-- syarm (R188): it writes memory, so a group that only helpers guard does nothing (R160). -/
def execSyarm (x : SyncOp) (s : State) : Host.Outcome State Fault Refusal :=
  onIssue s fun e =>
    let m := e.real (e.guard x.h)
    let a := e.syncA s .crew x.a
    if m = 0 then .ok s
    else match e.syncTgt s 16 true a with
      | .error t => e.charge s m t
      | .ok adr =>
        if s.unsettled e.w m then e.hold s .drain
        else match s.syncWord e.k.id e.k.core adr (e.k.core % 8) .start (fun y =>
            (e.syncB s x.b % 2 ^ 32, y.2.1, if x.flag then 1 else 0)) with
          | .error y => e.charge s m (mismatchTrap y 13 a (s.asid e.t.ctx) 1 0)
          | .ok s1 => .ok s1

def execSywait (x : SyncOp) (s : State) : Host.Outcome State Fault Refusal :=
  onIssue s fun e =>
    let m := e.guard x.h
    let a := e.syncA s .crew x.a
    if m = 0 then .ok s
    else match e.syncTgt s 16 false a with
      | .error t => e.charge s m t
      | .ok adr =>
        if s.unsettled e.w m then e.hold s .drain
        else .ok (s.setWave (e.w.each m fun _ th =>
          { th with run := .wait (.gen adr (e.syncB s x.b % 2 ^ 32)) }))

/-- Whether a generation lies after g (R189). -/
def genAfter (gen g : Nat) : Bool :=
  let d := (gen + 2 ^ 32 - g) % 2 ^ 32
  decide (1 ≤ d) && decide (d < 2 ^ 31)

/-! ## Chunk bitmaps (R190) -/

/-- The test of a bitmap word. -/
def chunkTest (any : Bool) (x : Nat) (mask : Dword) : Bool :=
  if any then BitVec.ofNat 64 x &&& mask != 0 else BitVec.ofNat 64 x &&& mask == mask

def execChwait (x : SyncOp) (s : State) : Host.Outcome State Fault Refusal :=
  onIssue s fun e =>
    let m := e.guard x.h
    if m = 0 then .ok s
    else match e.syncTgt s 8 false (e.syncA s .crew x.a) with
      | .error t => e.charge s m t
      | .ok adr =>
        if s.unsettled e.w m then e.hold s .drain
        else .ok (s.setWave (e.w.each m fun _ th =>
          { th with run := .wait (.chunk adr (BitVec.ofNat 64 (e.syncB s x.b)) x.flag) }))

def execChtst (d : Opd) (x : SyncOp) (s : State) : Host.Outcome State Fault Refusal :=
  onIssue s fun e =>
    let m := e.guard x.h
    let a := e.syncA s .crew x.a
    if m = 0 then .ok s
    else match e.syncTgt s 8 false a with
      | .error t => e.charge s m t
      | .ok adr =>
        if s.unsettled e.w m then e.hold s .drain
        else match s.readAt (.spad e.k.core) adr 8 with
          | .error y => e.charge s m (mismatchTrap y 0 a (s.asid e.t.ctx) 1 0)
          | .ok bs =>
            let r := chunkTest x.flag (leNat bs) (BitVec.ofNat 64 (e.syncB s x.b))
            let s1 := match d with
              | .k _ => e.putK s x.h none d fun _ => r
              | _ => e.uput s x.h d (if r then 1 else 0)
            .ok (s1.orders e.w.id m fun _ o => o.learns (.upTo s.moment))

/-! ## Queue registers (R191 to R194) -/

def QReg.unbound : QReg := ⟨0, 0, 0, 0, [], []⟩

def qNum : Opd → Nat
  | .q n => n.val
  | _ => 0

def Crew.q (k : Crew) (n : Nat) : QReg := getAt k.qs n .unbound

def Crew.setQ (k : Crew) (n : Nat) (q : QReg) : Crew := { k with qs := k.qs.set n q }

namespace QReg

def region (q : QReg) : Nat := bitsOf q.bind.toNat 0 18
def esz (q : QReg) : Nat := 4 * bitsOf q.bind.toNat 24 6
def mp (q : QReg) : Bool := q.bind.getLsbD 30
def depth (q : QReg) : Nat := bitsOf q.bind.toNat 32 16

/-- Elements in the queue or port, reserved ones included. -/
def held (q : QReg) : Nat := if q.kind = 1 then q.tail - q.head else q.elems.length

/-- Elements that could be popped now. -/
def avail (q : QReg) : Nat :=
  if q.kind = 1 then q.tail - q.head else (q.elems.takeWhile fun x => x.2.isSome).length

/-- Slots that could be pushed now. -/
def space (q : QReg) : Nat := if q.kind = 1 then q.depth - (q.tail - q.head) else 0

end QReg

/-- The trap of a queue register. -/
def queueTrap (l n : Nat) : Trap := { laneTrap .queueMisuse l with aux0 := BitVec.ofNat 64 n }

/-- The checks of a scratchpad queue's fields (R192). -/
def Env.bindBad (e : Env) (s : State) (x : Dword) : Option Trap :=
  let n := x.toNat
  let q : QReg := { QReg.unbound with bind := x }
  let at' (c : Cause) : Option Trap :=
    some (accTrap c (taskAcc e.t true) (s.asid e.t.ctx) q.region 1 none 0)
  if bitsOf n 18 6 ≠ 0 || bitsOf n 31 1 ≠ 0 || bitsOf n 48 16 ≠ 0 || q.esz = 0 || q.depth = 0 then
    some (codeTrap e.p .illegalField 0 none)
  else if q.region % 4 ≠ 0 then at' .misaligned
  else if e.k.window < q.region + q.esz * q.depth then at' .bounds
  else none

def execQbind (h : Head) (k : QKind) (d a : Opd) (s : State) : Host.Outcome State Fault Refusal :=
  onIssue s fun e =>
    let m := e.guard h
    let n := qNum d
    if m = 0 then .ok s
    else if (e.k.q n).kind ≠ 0 || getAt e.k.hdr.qkind n 0 ≠ k.code then e.charge s m (queueTrap 0 n)
    else
      let x := if k == .spad then e.usrc s m a else 0
      match (if k == .spad then e.bindBad s x else none) with
      | some t => e.charge s m t
      | none => .ok (s.setCrew (e.k.setQ n ⟨k.code, x, 0, 0, [], []⟩))

def execQfree (h : Head) (d : Opd) (s : State) : Host.Outcome State Fault Refusal :=
  onIssue s fun e =>
    let m := e.guard h
    let q := e.k.q (qNum d)
    if m = 0 then .ok s
    else if q.kind = 0 || q.held ≠ 0 then e.charge s m (queueTrap 0 (qNum d))
    else .ok (s.setCrew (e.k.setQ (qNum d) .unbound))

def execQpoll (h : Head) (space : Bool) (d a : Opd) (s : State) : Host.Outcome State Fault Refusal :=
  onIssue s fun e =>
    let m := e.guard h
    let q := e.k.q (qNum a)
    let n := if space then q.space else q.avail
    if m = 0 then .ok s
    else if q.kind = 0 then e.charge s m (queueTrap 0 (qNum a))
    else .ok (e.putAny s h none d false (fun _ => false) n fun _ => n)

/-! ## mov -/

/-- Bytes of the element a push makes: lane l's bytes at w × l, zero where exec is 0 (R191). -/
def Env.element (e : Env) (m : BitVec 64) (w size : Nat) (val : Nat → Nat) : List Byte :=
  ((List.range e.w.width).flatMap fun l => leBytes w (if m.getLsbD l then val l else 0)).take size
    |> fun bs => bs ++ List.replicate (size - bs.length) 0

/-- The address of a queue's element. -/
def Crew.elemAddr (k : Crew) (q : QReg) (i : Nat) : Nat := k.spadBase + q.region + q.esz * (i % q.depth)

/-- Whether a replay gives the push to this wave (spec/13 R377). -/
def State.pushTurn (s : State) (c : Nat) (w : Wave) (q : QReg) : Bool :=
  if !(s.replaying c && q.mp) then true
  else match s.nextRec c (fun bs => fieldOf bs 0 1 == 5
      && fieldOf bs 16 8 == q.region + q.tail % q.depth * 2 ^ 32
      && s.mapHome c (bitsOf (fieldOf bs 8 8) 48 10) == localHome w.core) with
    | some (_, some bs) => fieldOf bs 24 8 % 128 == w.wslot
    | _ => false

/-- A push of an element by the group (R191), or none where it must wait: the element takes effect after the
group's earlier accesses (spec/09 R270). Helper lanes supply zero bytes, since they write no memory (spec/00
R3). -/
def Env.pushQ (e : Env) (s : State) (n : Nat) (m : BitVec 64) (w : Nat) (val : Nat → Nat) :
    Except Stop (Option State) :=
  let q := e.k.q n
  if q.space = 0 || s.unsettled e.w e.p.lanes || !s.pushTurn e.t.ctx e.w q then .ok none
  else match s.writeAt (.spad e.k.core) (e.k.elemAddr q q.tail) (e.element (e.real m) w q.esz val) with
    | .error y => .error (.trap (mismatchTrap y 13 (y.addr - e.k.spadBase) (s.asid e.t.ctx) 1 0))
    | .ok s1 =>
      let at' := e.k.elemAddr q q.tail
      let s2 := s1.threadWrote (e.groupActor s m) ⟨1, e.k.core * 2 ^ 20 + at', q.esz⟩ false
      let s3 := s.recordWrite s2 (e.w.agent (lowLane m)) (.spad e.k.core) at' q.esz [] false false
      let w1 := (s3.wave? e.w.id).getD e.w
      let k1 := (s3.crew? e.k.id).getD e.k
      let q1 := { q with
        tail := q.tail + 1
        pushers := q.pushers ++ [(e.w.wslot, w1.passes e.p.lanes s3.moment)] }
      .ok (some ((s3.setCrew (k1.setQ n q1)).wakeCrew e.k.id))

/-- Why a push waits. -/
def Env.pushWhy (e : Env) (s : State) (n : Nat) : Why :=
  if (e.k.q n).space = 0 then .room n 1
  else if s.unsettled e.w e.p.lanes then .drain
  else if s.pushTurn e.t.ctx e.w (e.k.q n) then .drain else .turn n

/-- The element a pop of the guarded lanes `m` takes from a scratchpad queue, logged where several waves push
(R162). -/
def Env.popSpad (e : Env) (s : State) (m : BitVec 64) (n : Nat) : Except Stop (List Byte × State) :=
  let q := e.k.q n
  let adr := e.k.elemAddr q q.head
  let l := e.leader m
  let o : LogOp := { kind := 5, flags := 1, src := srcOf e.w.core e.w.wslot l, home := localHome e.w.core,
                     addr := q.region + q.head % q.depth * 2 ^ 32 }
  let x := q.pushers.headD (0, .start)
  let k1 := e.k.setQ n { q with head := q.head + 1, pushers := q.pushers.drop 1 }
  s.logged e.t.ctx (if q.mp then some o else none) 0 fun s =>
    match s.readAt (.spad e.k.core) adr q.esz with
    | .error y => .error (.trap (mismatchTrap y 0 (y.addr - e.k.spadBase) (s.asid e.t.ctx) 1 0))
    | .ok bs => .ok (bs, x.1 + foldWords bs * 2 ^ 32, [],
        (s.setCrew k1).orders e.w.id e.p.lanes fun _ o => o.learns x.2)

/-- A pop: the element's bytes, or none where it must wait. A logged pop takes its place in the log after the
group's earlier accesses (spec/09 R272). -/
def Env.popQ (e : Env) (s : State) (m : BitVec 64) (n : Nat) : Except Stop (Option (List Byte × State)) :=
  let q := e.k.q n
  if q.avail = 0 || (q.kind = 1 && q.mp && s.unsettled e.w e.p.lanes) then .ok none
  else if q.kind = 1 then
    match e.popSpad s m n with
    | .error y => .error y
    | .ok r => .ok (some r)
  else match q.elems with
    | (seq, some ws) :: r =>
      let s1 := s.setCrew (e.k.setQ n { q with elems := r })
      .ok (some (ws.flatMap fun w => leBytes 4 w.toNat,
        if q.kind = 2 then s1.orderedBy e.w.id e.p.lanes e.k.id seq
        else if q.kind = 5 then s1.orders e.w.id e.p.lanes fun _ o =>
          o.learns (e.k.synced (e.k.spadBase + (getAt ws 0 0).toNat))
        else s1))
    | _ => .ok none

/-- Why a pop waits. -/
def Env.popWhy (e : Env) (n : Nat) : Why := if (e.k.q n).avail = 0 then .empty n else .drain

/-- mov to a register or to a queue, of values per lane. `pend` marks a variable-latency result. -/
def Env.movTo (e : Env) (s : State) (x : VMov) (pend : Bool) (val : Nat → Nat) : Except Stop State :=
  match x.d with
  | .q n =>
    if e.guard x.h = 0 then .ok s
    else if (e.k.q n.val).kind ≠ 1 then e.charge s (e.guard x.h) (queueTrap 0 n.val)
    else if e.real (e.guard x.h) = 0 then .ok s
    else match e.pushQ s n.val (e.exec x.h x.mod) (memBytes x.ty) val with
      | .error y => .error y
      | .ok none => e.hold s (e.pushWhy s n.val)
      | .ok (some s1) => .ok s1
  | _ =>
    if pend then
      .ok (s.setWave (e.pushV (.mov x) x.h x.mod x.d x.ty.wide (fun l => (val l, 0))
        ((s.wave? e.w.id).getD e.w)))
    else .ok (e.putV s x.h x.mod x.d x.ty.wide val)

def execMov (x : VMov) (s : State) : Host.Outcome State Fault Refusal :=
  onIssue s fun e =>
    match x.a with
    | .imm i => e.movTo s x false fun _ => immInt x.ty i
    | .reg (.q n) =>
      let g := e.guard x.h
      if g = 0 then e.movTo s x true fun _ => 0
      else if (e.k.q n.val).kind = 0 then e.charge s g (queueTrap 0 n.val)
      else match e.popQ s g n.val with
        | .error .park => e.hold s .log
        | .error (.trap t) => e.charge s g t
        | .error y => .error y
        | .ok none => e.hold s (e.popWhy n.val)
        | .ok (some (bs, s1)) =>
          match ({ e with k := (s1.crew? e.k.id).getD e.k }).movTo s1 x true
              fun l => fieldOf bs (memBytes x.ty * l) (memBytes x.ty) with
          | .error y => .error y
          | .ok s2 =>
            if s2.iss.isSome then .ok s2
            else e.hold s (match x.d with
              | .q d => e.pushWhy s d.val
              | _ => .drain)
    | .reg o => e.movTo s x false fun l => e.src s l x.ty.wide o

/-! ## Counted arrivals (R166, R179, R187) -/

/-- Puts an arrival's fault on its thread, or ends the attempt where the thread is gone. -/
def State.arrivalFault (s : State) (a : Arrival) (e : Trap) : State :=
  match s.waveAt? a.srcCore a.wslot with
  | some w => s.setWave (w.each (1#64 <<< a.lane) fun _ th =>
      { th with dfault := some (th.dfault.getD { e with slot := a.slot, lane := some a.lane }) })
  | none => match s.crew? a.crew with
    | some k => s.endAttempt k.task { e with lane := some a.lane }
        (srcOf a.srcCore a.wslot a.lane) a.slot
    | none => s

/-- The data of an arrival: a store, or a redirected reduction with its record. -/
def State.arrivalData (s : State) (a : Arrival) : Except Stop State :=
  let fault (unit : Nat) (y : Mismatch) : Stop :=
    .trap (mismatchTrap y unit (a.off / 8 * 8) (s.asid a.ctx) 1 0)
  match a.op with
  | none => match s.writeAt (.spad a.core) a.addr a.bytes with
    | .error y => .error (fault 13 y)
    | .ok s1 => .ok s1
  | some op =>
    let o : LogOp :=
      { kind := 3, flags := 16, opc := sizeCode a.bytes.length + op.code * 8,
        src := srcOf a.srcCore a.wslot a.lane, home := localHome a.core, addr := a.off }
    match s.logged a.ctx (some o) 0 (fun s => match s.readAt (.spad a.core) a.addr a.bytes.length with
        | .error y => .error (fault 12 y)
        | .ok old =>
          let v := atomNew op a.ty (leNat old) (leNat a.bytes) 0
          match s.writeAt (.spad a.core) a.addr (leBytes a.bytes.length v) with
          | .error y => .error (fault 12 y)
          | .ok s1 => .ok ((), v, [], s1)) with
    | .error y => .error y
    | .ok (_, s1) => .ok s1

/-- Whether an earlier arrival of a wave comes before a later one: of one thread or one issue to the same bytes
(R158, spec/09 R269), or two reductions of one thread, which are logged (spec/09 R272). -/
def Arrival.before (a b : Arrival) : Bool :=
  a.srcCore == b.srcCore && a.wslot == b.wslot
    && (((a.lane == b.lane || (a.issue == b.issue && a.slot == b.slot)) && a.core == b.core
        && decide (a.addr < b.addr + b.bytes.length) && decide (b.addr < a.addr + a.bytes.length))
      || (a.lane == b.lane && a.op.isSome && b.op.isSome))

def execCountedArrival (n : Nat) (s : State) : Host.Outcome State Fault Refusal :=
  match s.arrivals[n]? with
  | none => .fault .notEnabled
  | some a =>
    if (s.arrivals.take n).any fun b => b.before a then .fault .notEnabled
    else
    let s0 := { s with arrivals := s.arrivals.eraseIdx n }
    let msgs := a.msgs.map fun m => m.raise (s.moment + 1)
    match s0.arrivalData a with
    | .error .park => .fault .notEnabled
    | .error (.trap e) => .next (s0.arrivalFault a e)
    | .error (.diverge i d x) => .next (s.diverge a.ctx i d x)
    | .ok s1' =>
      let s1 := s0.recordWrite s1' a.agent (.spad a.core) a.addr a.bytes.length msgs a.op.isSome a.op.isSome
      let v := msgs.foldl (fun v m => v.join m.view) ⟨a.mark, [], s1.moment⟩
      match s1.syncWord a.crew a.core a.sync (a.srcCore % 8) v (fun y =>
        (y.1, y.2.1 + a.bytes.length, y.2.2)) with
      | .ok s2 => .next s2
      | .error e => .next (s1.arrivalFault a (mismatchTrap e 12 (a.sync / 8 * 8) (s.asid a.ctx) 1 0))

end Sys2Proof.Machine
end

