-- ==== Sys2Proof/Machine/Matrix.lean ====
section
/-! DEFINITION. The matrix instructions (spec/07): entering engine commands (R198 to R200), their
performance by the engine, trow, vmm and kmma at issue, mfmt, mbst and opfence. The landing of vmm and
kmma is in Machine/Land.lean. -/

namespace Sys2Proof.Machine

/-! ## Types of operands (R94, R205, spec/03 R82) -/

/-- The format of an element of a matrix type; none for integers. -/
def matFmt (t : Ty) : Option Fmt :=
  match t with
  | .mx8e4 => some .e4m3
  | .mx8e5 => some .e5m2
  | .mx4 => some .e2m1
  | t => fmtOf t

def isMX (t : Ty) : Bool := t == .mx8e4 || t == .mx8e5 || t == .mx4

/-- Bits of an element. -/
def matBits (t : Ty) : Nat :=
  match t with
  | .mx8e4 | .mx8e5 => 8
  | .mx4 => 4
  | t => t.bits

/-- An element's value; an integer is exact. -/
def matValue (t : Ty) (x : Nat) : FVal :=
  match matFmt t with
  | some f => f.decode false (x % 2 ^ matBits t)
  | none => FVal.ofRat (intOf t (x % 2 ^ t.bits) : Int)

/-- A block scale (spec/03 R82). -/
def scaleValue (x : Nat) : FVal :=
  if x = 255 then .nan false else .fin false (pow2 ((x : Int) - 127))

def scaleOne : FVal := .fin false 1

/-- Terms of a block of R94. -/
def blockLen (aty : Ty) : Nat := if aty == .f64 then 4 else 32

/-- One block of an accumulator element: `ps` are the pairs of elements with their scales. -/
def accBlock (cty : Ty) (acc : Nat) (ps : List ((FVal × FVal) × (FVal × FVal))) : Nat :=
  match fmtOf cty with
  | some f => matBlock f acc (ps.map fun p => scaledProduct p.1.1 p.2.1 p.1.2 p.2.2)
  | none =>
    let sum : Int := (ps.map fun p => (p.1.1.toRat * p.2.1.toRat).floor).sum
    ofSigned 32 (toSigned 32 (acc % 2 ^ 32) + sum)

/-- Blocks in ascending K. -/
def accBlocks (cty : Ty) (p : Nat) (acc : Nat) (ps : List ((FVal × FVal) × (FVal × FVal))) :
    (n : Nat) → Nat
  | 0 => acc
  | n + 1 => accBlocks cty p (accBlock cty acc (ps.take p)) (ps.drop p) n

/-! ## %mfmt (R204, R205, spec/01 R28) -/

structure MatMode where
  aty : Ty
  bty : Ty
  bcmp : Nat
  cty : Ty
  scl : Nat

def matMode (x : Nat) : MatMode :=
  { aty := (Ty.ofCode? (bitsOf x 0 6)).getD .none, bty := (Ty.ofCode? (bitsOf x 6 6)).getD .none,
    bcmp := bitsOf x 12 2, cty := (Ty.ofCode? (bitsOf x 14 6)).getD .none, scl := bitsOf x 20 2 }

/-- The combinations of R205. -/
def mfmtOk (x : Nat) : Bool :=
  let m := matMode x
  let eight (t : Ty) : Bool := t == .e4m3 || t == .e5m2 || t == .mx8e4 || t == .mx8e5
  let four (t : Ty) : Bool := t == .e2m1 || t == .mx4
  let types :=
    (m.aty == .f64 && m.bty == .f64 && m.cty == .f64)
    || (m.aty == .f32 && m.bty == .f32 && m.cty == .f32)
    || (m.aty == .f16 && m.bty == .f16 && m.cty == .f32)
    || (m.aty == .bf16 && m.bty == .bf16 && m.cty == .f32)
    || ((m.aty == .i8 || m.aty == .n8) && (m.bty == .i8 || m.bty == .n8) && m.cty == .i32)
    || ((eight m.aty || four m.aty) && (eight m.bty || four m.bty) && m.cty == .f32)
  types && decide (m.bcmp ≤ 1) && bitOf m.scl 0 == isMX m.aty && bitOf m.scl 1 == isMX m.bty

def execMfmt (h : Head) (x : MfmtSrc) (s : State) : Host.Outcome State Fault Refusal :=
  onIssue s fun e =>
    let m := e.guard h
    let v := match x with
      | .reg a => (e.usrc s e.p.lanes a).toNat
      | .imm i => i.toNat
    if m = 0 then .ok s
    else if 2 ^ 22 ≤ v then e.charge s m (codeTrap e.p .illegalField 0 none)
    else if !mfmtOk v then e.charge s m (laneTrap .format 0)
    else .ok (s.setCrew { e.k with mfmt := BitVec.ofNat 64 v })

/-! ## Entering commands (R198 to R200) -/

/-- Tag of a command. -/
def cmdTag : Instr → Nat
  | .mma x | .mmac x => x.tag.toNat
  | .tld x | .tst x | .tzro x => x.tag.toNat
  | .wbld x => x.tag.toNat
  | .wbinv x => x.tag.toNat
  | .mdrn x => x.tag.toNat
  | _ => 0

def cmdTok : Instr → Bool
  | .mma x | .mmac x => x.tok
  | .tld x | .tst x | .tzro x => x.tok
  | .wbld x => x.tok
  | .wbinv x => x.tok
  | .mdrn x => x.tok
  | _ => false

def cmdOp : Instr → Nat
  | .mma _ => 0xB1
  | .mmac _ => 0xB2
  | .tld _ => 0xB3
  | .tst _ => 0xB4
  | .tzro _ => 0xB6
  | .wbld _ => 0xB7
  | .wbinv _ => 0xB8
  | .mdrn _ => 0xB9
  | _ => 0

def shapeM (m : BitVec 6) : Nat := m.toNat + 1
def shapeN (n : BitVec 6) : Nat := 16 * (n.toNat + 1)
def shapeK (k : BitVec 8) : Nat := 32 * (k.toNat + 1)

/-- Bytes of an accumulator element. -/
def accBytes (cty : Ty) : Nat := if cty == .f64 then 8 else 4

/-- A range of tile store. -/
def Crew.tileSpan (k : Crew) (t n : Nat) : Span := ⟨2, k.core * 2 ^ 20 + k.tileBase + t, n⟩
def Crew.padSpan (k : Crew) (a n : Nat) : Span := ⟨1, k.core * 2 ^ 20 + k.spadBase + a, n⟩

/-- The accumulator descriptor (R207). -/
def accBase (d : Dword) : Nat := bitsOf d.toNat 0 20
def accPitch (d : Dword) : Nat := 64 * bitsOf d.toNat 20 12
def accZero (d : Dword) : Bool := d.getLsbD 32

/-- Bytes of a row of an mdrn destination (R222). -/
def drainRow (ty : Ty) (n : Nat) : Nat :=
  if isMX ty then n / 32 * mxBytes (matBits ty) else n * matBits ty / 8

def drainAlign (ty : Ty) : Nat := if isMX ty then 64 else max 1 (matBits ty / 8)

def drainPitch (x : Mdrn) (b : Dword) : Nat :=
  let p := b.toNat / 2 ^ 32
  let row := drainRow x.ty (shapeN x.n)
  if p = 0 then (if isMX x.ty then roundUp row 64 else row) else p

/-- The ranges a command writes (R203). -/
def cmdWrites (k : Crew) (c : Cmd) : List Span :=
  let accs (d : Dword) (m n : Nat) : List Span :=
    [k.tileSpan (accBase d) ((m - 1) * accPitch d + n * accBytes (matMode c.mfmt.toNat).cty)]
  match c.i with
  | .mma x | .mmac x => accs c.d (shapeM x.m) (shapeN x.n)
  | .tld x => [k.tileSpan c.d.toNat (64 * x.len.toNat)]
  | .tzro x => [k.tileSpan c.d.toNat (64 * x.len.toNat)]
  | .tst x => [k.padSpan c.d.toNat (64 * x.len.toNat)]
  | .mdrn x =>
    let n := (shapeM x.m - 1) * drainPitch x c.b + drainRow x.ty (shapeN x.n)
    (if x.crew then k.padSpan c.d.toNat n else ⟨0, c.d.toNat, n⟩)
      :: (if x.clr then accs c.a (shapeM x.m) (shapeN x.n) else [])
  | _ => []

/-- Enters a command of the group (R198), with a token reservation where it asks for one (R200). The
wave `w` carries what the instruction wrote beside it. -/
def Env.command (e : Env) (s : State) (w : Wave) (i : Instr) (h : Head) (d a b : Opd) :
    Except Stop State :=
  let m := e.real (e.guard h)
  if m = 0 then .ok s
  else
    let qn := e.k.qs.findIdx? fun q => q.kind == 2
    if cmdTok i && qn.isNone then .error (.trap (queueTrap (lowLane m) 0))
    else if 32 ≤ e.k.cmds.length then e.hold s .command
    else if cmdTok i && (e.k.q (qn.getD 0)).free = 0 then e.hold s (.room (qn.getD 0) 1)
    else
      let th := e.w.th (lowLane m)
      let u := e.usrc s e.p.lanes
      let c : Cmd :=
        { i := i, slot := e.p.slot, wave := e.w.id, lane := lowLane m, d := u d, a := u a, b := u b,
          mfmt := e.k.mfmt, mode := e.p.mode, seq := e.k.eseq, rngk := th.rngk, rngc := th.rngc,
          lanes := e.p.lanes, prog := if e.p.inp then e.prog else 0, flags := 0, accepted := false,
          begun := false, image := none, taint := false, issued := s.tick + 1,
          hot := e.k.dirty.map fun x => (x.span, false)
          behind := e.k.fence.filter fun x => !s.performed x
          wait := none }
      let q := e.k.q (qn.getD 0)
      let k1 := { e.k with
        cmds := e.k.cmds ++ [c]
        eseq := (e.k.eseq + 1) % 2 ^ 32
        fence := c.behind
        wset := (cmdWrites e.k c).map (fun sp => ⟨c.seq, c.issued, sp⟩) ++ e.k.wset }
      let k2 := if cmdTok i then
        k1.setQ (qn.getD 0) { q with elems := q.elems ++ [(c.seq, none)] } else k1
      .ok ((s.setWave w).setCrew k2)

/-- A command that needs a format mode (R204). -/
def Env.matCommand (e : Env) (s : State) (w : Wave) (i : Instr) (h : Head) (d a b : Opd) :
    Except Stop State :=
  let m := e.real (e.guard h)
  if m ≠ 0 && e.k.mfmt = 0 then .error (.trap (laneTrap .format (lowLane m)))
  else e.command s w i h d a b

def execMma (x : Mma) (s : State) : Host.Outcome State Fault Refusal :=
  onIssue s fun e => e.matCommand s e.w (.mma x) x.h x.d x.a x.b

def execTld (x : TileMove) (s : State) : Host.Outcome State Fault Refusal :=
  onIssue s fun e => e.command s e.w (.tld x) x.h x.d x.a .zero

def execTst (x : TileMove) (s : State) : Host.Outcome State Fault Refusal :=
  onIssue s fun e => e.command s e.w (.tst x) x.h x.d x.a .zero

def execTzro (x : TileMove) (s : State) : Host.Outcome State Fault Refusal :=
  onIssue s fun e => e.command s e.w (.tzro x) x.h x.d .zero .zero

def execWbld (x : Wbld) (s : State) : Host.Outcome State Fault Refusal :=
  onIssue s fun e => e.command s e.w (.wbld x) x.h x.d x.a .zero

def execWbinv (x : Wbinv) (s : State) : Host.Outcome State Fault Refusal :=
  onIssue s fun e => e.command s e.w (.wbinv x) x.h .zero
    (match x.range with | some (a, _) => a | none => .zero) .zero

/-- The rounding mode of a drain (R223). -/
def drainRm (x : Mdrn) (mode : Dword) : Rm :=
  if x.rm == .dyn then (Rm.ofCode (mode.toNat % 8)).getD .rne else x.rm

/-- mdrn: under RSR the drawing thread's counter advances at issue (R224). -/
def execMdrn (x : Mdrn) (s : State) : Host.Outcome State Fault Refusal :=
  onIssue s fun e =>
    let m := e.real (e.guard x.h)
    let n := ceilDiv (shapeM x.m * shapeN x.n) 16
    let w := if drainRm x e.p.mode = .rsr && m ≠ 0 then
        e.w.each (1#64 <<< lowLane m) fun _ th => { th with rngc := th.rngc + BitVec.ofNat 128 n }
      else e.w
    e.matCommand s w (.mdrn x) x.h x.d x.a x.b

/-! ## Acceptance (R199, R206 to R210, R216, R219, R220, R222) -/

/-- The trap of a command. -/
def cmdTrap (c : Cmd) (cause : Cause) (addr : Nat) (space : Nat) (asid : Nat) (wr : Bool) : Trap :=
  { cause := cause, unit := 2, lane := some c.lane, slot := c.slot, addr := BitVec.ofNat 64 addr,
    aux0 := BitVec.ofNat 64 (space + (if wr then 8 else 0) + asid * 256),
    xtra := BitVec.ofNat 32 (cmdTag c.i) }

/-- A FORMAT trap of a command: structure address and kind. -/
def cmdFormat (c : Cmd) (addr kind off : Nat) : Trap :=
  { cause := .format, unit := 2, lane := some c.lane, slot := c.slot, addr := BitVec.ofNat 64 addr,
    aux0 := BitVec.ofNat 64 (kind + 256 * off), xtra := BitVec.ofNat 32 (cmdTag c.i) }

def Crew.tileLen (k : Crew) : Nat := k.hdr.trows * 1024

/-- The first failing check of a list. -/
def firstFail : List (Bool × Trap) → Option Trap
  | [] => none
  | (bad, t) :: r => if bad then some t else firstFail r

/-- The accumulator range of a descriptor. -/
def accEnd (d : Dword) (m n z : Nat) : Nat := accBase d + (m - 1) * accPitch d + n * z

/-- The A operand's bytes and scale bytes (R208). -/
structure ADesc where
  base : Nat
  sbase : Nat
  pitch : Nat
  spitch : Nat

def aDesc (a : Dword) : ADesc :=
  { base := bitsOf a.toNat 0 20, sbase := bitsOf a.toNat 20 20, pitch := 16 * bitsOf a.toNat 40 12,
    spitch := bitsOf a.toNat 52 12 }

/-- Whether two strided ranges of rows overlap. -/
def rowsMeet (m b1 p1 n1 b2 p2 n2 : Nat) : Bool :=
  (List.range m).any fun i => (List.range m).any fun j =>
    decide (b1 + i * p1 < b2 + j * p2 + n2) && decide (b2 + j * p2 < b1 + i * p1 + n1)

/-- Acceptance of mma and mmac (R210). -/
def acceptMma (k : Crew) (c : Cmd) (x : Mma) (asid : Nat) : Option Trap :=
  let f := matMode c.mfmt.toNat
  let (m, n, kk) := (shapeM x.m, shapeN x.n, shapeK x.k)
  let z := accBytes f.cty
  let a := aDesc c.a
  let arow := kk * matBits f.aty / 8
  let scaled := bitOf f.scl 0
  let bounds := cmdTrap c .bounds (accBase c.d) 0 asid true
  firstFail [
    (accBase c.d % 64 ≠ 0 || a.base % 16 ≠ 0, cmdTrap c .misaligned (accBase c.d) 0 asid true),
    (k.tileLen < accEnd c.d m n z, bounds),
    (k.tileLen < a.base + (m - 1) * a.pitch + arow, bounds),
    (scaled && decide (k.tileLen < a.sbase + (m - 1) * a.spitch + kk / 32), bounds),
    (2 ^ 33 ≤ c.d.toNat, cmdFormat c 0 0 0),
    (accPitch c.d < n * z, cmdFormat c 0 0 0),
    (a.pitch < arow, cmdFormat c 0 0 0),
    (scaled && decide (a.spitch < kk / 32), cmdFormat c 0 0 0),
    (rowsMeet m (accBase c.d) (accPitch c.d) (n * z) a.base a.pitch arow, cmdFormat c 0 0 0),
    (scaled && rowsMeet m (accBase c.d) (accPitch c.d) (n * z) a.sbase a.spitch (kk / 32),
      cmdFormat c 0 0 0)]

/-- The combinations of a drain (R222). -/
def drainOk (x : Mdrn) (cty : Ty) : Bool :=
  let n := shapeN x.n
  if cty == .i32 then
    (x.ty == .i32 || x.ty == .i16 || x.ty == .i8) && !x.scl && x.rm == .dyn && !x.sat
  else
    ((matFmt x.ty).isSome) && (!isMX x.ty || n % 32 = 0)

/-- The checks made at acceptance. -/
def State.acceptCmd (s : State) (k : Crew) (t : Task) (c : Cmd) : Option Trap :=
  let asid := s.asid t.ctx
  let tile (adr n : Nat) : Bool × Trap := (decide (k.tileLen < adr + n), cmdTrap c .bounds adr 0 asid true)
  let pad (adr n : Nat) : Bool × Trap := (decide (k.window < adr + n), cmdTrap c .bounds adr 1 asid true)
  let mis (adr m : Nat) : Bool × Trap := (decide (adr % m ≠ 0), cmdTrap c .misaligned adr 0 asid true)
  let d := c.d.toNat
  let a := c.a.toNat
  match c.i with
  | .mma x => firstFail [
      ((acceptMma k c x asid).isSome, (acceptMma k c x asid).getD (cmdFormat c 0 0 0)),
      (2 ^ 42 ≤ c.b.toNat, cmdFormat c 0 0 0)]
  | .mmac x => firstFail [
      ((acceptMma k c x asid).isSome, (acceptMma k c x asid).getD (cmdFormat c 0 0 0)),
      mis c.b.toNat 64,
      ((s.crews.filter fun o => o.task == k.task && o.core == k.core).length ≠ 1, cmdFormat c 0 0 0)]
  | .tld x => firstFail [mis d 64, mis a 64, tile d (64 * x.len.toNat), pad a (64 * x.len.toNat)]
  | .tst x => firstFail [mis d 64, mis a 64, pad d (64 * x.len.toNat), tile a (64 * x.len.toNat)]
  | .tzro x => firstFail [mis d 64, tile d (64 * x.len.toNat)]
  | .wbld x => firstFail [
      (2 ^ 18 ≤ d, let w := s.codeWords t k c.slot
        { cmdFormat c 0 0 0 with
          cause := .illegalField
          aux0 := w.1
          aux1 := w.2 }),
      mis d 64, mis a 64,
      (x.crew && decide (k.window < a + 64), cmdTrap c .bounds a 1 asid false),
      (!x.crew && decide (2 ^ 56 ≤ a), cmdTrap c .protection a 0 asid false)]
  | .wbinv x => match x.range with
    | none => none
    | some _ => firstFail [mis (a % 2 ^ 18) 64]
  | .mdrn x =>
    let cty := (matMode c.mfmt.toNat).cty
    let m := shapeM x.m
    let n := shapeN x.n
    let pitch := drainPitch x c.b
    let len := (m - 1) * pitch + drainRow x.ty n
    firstFail [
      (!drainOk x cty, cmdFormat c 0 0 0),
      mis d (drainAlign x.ty),
      (decide (pitch < drainRow x.ty n) || decide (pitch % drainAlign x.ty ≠ 0),
        cmdTrap c .misaligned d 0 asid true),
      mis (accBase c.a) 64,
      tile (accBase c.a) ((m - 1) * accPitch c.a + n * accBytes cty),
      (2 ^ 33 ≤ a || accPitch c.a < n * accBytes cty, cmdFormat c 0 0 0),
      (x.crew && decide (k.window < d + len), cmdTrap c .bounds d 1 asid true),
      (!x.crew && decide (2 ^ 56 < d + len), cmdTrap c .protection d 0 asid true)]
  | _ => none

/-! ## Weight images (R218 to R221) -/

/-- Bytes of a column. -/
def colBytes (ty : Ty) (kb : Nat) : Nat :=
  if isMX ty then kb / 32 * mxBytes (matBits ty) else kb * matBits ty / 8

/-- Bytes of the uncompressed payload. -/
def imageBytes (ty : Ty) (kb nb : Nat) : Nat := roundUp (nb * colBytes ty kb) 64

/-- Types of images. -/
def imageTy (t : Ty) : Bool :=
  t == .f64 || t == .f32 || t == .f16 || t == .bf16 || t == .e5m2 || t == .e4m3 || t == .e2m1 || t == .i8
    || t == .n8 || isMX t

/-- A weight image header from its 64 bytes, or the first bad byte. -/
def imageHeader (off : Nat) (bs : List Byte) : Except Nat Image :=
  let ty := (Ty.ofCode? (fieldOf bs 4 1)).getD .none
  let im : Image := { off := off, len := fieldOf bs 0x0C 4, ty := ty, cmp := fieldOf bs 5 1 == 1,
                      kb := fieldOf bs 8 2, nb := fieldOf bs 0x0A 2 }
  if fieldOf bs 0 4 ≠ 0x57510001 then .error 0
  else if !imageTy ty then .error 4
  else if 1 < fieldOf bs 5 1 then .error 5
  else if fieldOf bs 6 2 ≠ 0 then .error 6
  else if im.kb % 32 ≠ 0 || im.kb = 0 || 8192 < im.kb then .error 8
  else if im.nb % 16 ≠ 0 || im.nb = 0 || 1024 < im.nb then .error 0x0A
  else if im.len % 64 ≠ 0 || im.len = 0 || 262080 < im.len then .error 0x0C
  else if fieldOf bs 0x10 48 ≠ 0 then .error 0x10
  else .ok im

/-- Whether an uncompressed length is the one R218 gives. -/
def Image.lenOk (im : Image) : Bool := im.cmp || im.len == imageBytes im.ty im.kb im.nb

/-- The bytes of an uncompressed payload that hold rows k0 to k0 + kn - 1 of column j. -/
def Image.rows (im : Image) (j k0 kn : Nat) : Nat × Nat :=
  let col := j * colBytes im.ty im.kb
  if isMX im.ty then
    let z := mxBytes (matBits im.ty)
    (col + k0 / 32 * z, (ceilDiv (k0 + kn) 32 - k0 / 32) * z)
  else
    let z := matBits im.ty
    (col + k0 * z / 8, ceilDiv ((k0 + kn) * z) 8 - k0 * z / 8)

/-- The elements of an image from its stored payload; none is FORMAT. -/
def Image.expand (im : Image) (bs : List Byte) : Option (List Byte) :=
  if im.cmp then decodeCoded 64 bs (imageBytes im.ty im.kb im.nb) else some bs

/-- Element (k, j) of an expanded image with its scale. -/
def imageElem (ty : Ty) (kb : Nat) (bs : List Byte) (k j : Nat) : FVal × FVal :=
  let col := j * colBytes ty kb
  if isMX ty then
    let blk := col + k / 32 * mxBytes (matBits ty)
    (matValue ty (bitsOf (fieldOf bs (blk + 1) (4 * matBits ty)) (k % 32 * matBits ty) (matBits ty)),
      scaleValue (fieldOf bs blk 1))
  else
    let bit := k * matBits ty
    (matValue ty (bitsOf (fieldOf bs (col + bit / 8) (max 1 (matBits ty / 8))) (bit % 8) (matBits ty)),
      scaleOne)

/-- Residency ends for images that overlap a range (R219, R220). -/
def Core.evict (x : Core) (off n : Nat) : Core :=
  { x with images := x.images.filter fun i =>
      !(decide (i.off < off + n) && decide (off < i.off + 64 + i.len)) }

/-! ## Data of engine commands -/

/-- Whether a range was written without order, or a descriptor register was: what is read there is
UNDEFINED (R203, spec/02 R66). -/
def Cmd.isHot (c : Cmd) (sp : Span) : Bool := c.taint || c.hot.any fun h => h.1.meets sp

/-- Whether a thread wrote a range after the command's issue: what the command writes there is UNDEFINED (R203). -/
def Cmd.isLate (c : Cmd) (sp : Span) : Bool := c.taint || c.hot.any fun h => h.2 && h.1.meets sp

/-- Bytes that a command has taken from a range, UNDEFINED where they are written without order. -/
def State.spoilt (s : State) (c : Cmd) (sp : Span) (bs : List Byte) : List Byte :=
  if c.isHot sp then bs.mapIdx fun i b =>
    if c.isHot ⟨sp.kind, sp.base + i, 1⟩ then (s.fresh (2 ^ 58 + c.seq * 2 ^ 20 + i)).setWidth 8 else b
  else bs

/-- What a command has copied from a range to a place, UNDEFINED where the source or the destination range is written
without order (R203). -/
def State.spoil (s : State) (c : Cmd) (src dst : Span) (pl : Place) (a : Nat) : State :=
  let hs := (c.hot.filter fun h => h.1.meets src).map fun h => (h.1, src)
  let ls := (c.hot.filter fun h => h.2 && h.1.meets dst).map fun h => (h.1, dst)
  (if c.taint then [(dst, dst)] else hs ++ ls).foldl (fun s p =>
    let lo := max p.1.base p.2.base
    let hi := min (p.1.base + p.1.len) (p.2.base + p.2.len)
    s.putAt pl (a + (lo - p.2.base)) (s.freeBytes (c.seq * 2 ^ 20 + lo % 2 ^ 20) (hi - lo))) s

/-- A consumer's read of tile store (unit 2). -/
def State.tileRead (s : State) (k : Crew) (c : Cmd) (t n : Nat) : Except Stop (List Byte) :=
  match s.readAt (.tile k.core) (k.tileBase + t) n with
  | .ok bs => .ok bs
  | .error e => .error (.trap { mismatchTrap e 2 (e.addr - k.tileBase) 0 Config.tileSpace.toNat 0 with
      lane := some c.lane, slot := c.slot, xtra := BitVec.ofNat 32 (cmdTag c.i) })

/-- A write of tile store; a partial granule merges. -/
def State.tileWrite (s : State) (k : Crew) (t : Nat) (bs : List Byte) : Except Stop State :=
  match s.writeAt (.tile k.core) (k.tileBase + t) bs with
  | .ok s' => .ok s'
  | .error e => .error (.trap { mismatchTrap e 13 (e.addr - k.tileBase) 0 Config.tileSpace.toNat 0 with slot := 0 })

/-- A translated address of an engine: strongly ordered pages are refused (R199). -/
def State.enginePhys (s : State) (t : Task) (c : Cmd) (write : Bool) (va : Nat) : Except Stop Phys :=
  let put (e : Trap) : Trap :=
    { e.atUnit 2 with lane := some c.lane, slot := c.slot, xtra := BitVec.ofNat 32 (cmdTag c.i) }
  match s.translate (taskAcc t write ((s.wave? c.wave).map (·.core))) va with
  | .error e => .error (.trap (put e))
  | .ok p =>
    if p.leaf.kind == .so then
      .error (.trap (put (accTrap .protection (taskAcc t write) (s.asid t.ctx) va 0 none p.pa)))
    else .ok p

/-- A granule as a task sees it, with its code. -/
def State.granuleOf (s : State) (v : Option Task) (p : Phys) : List Byte × Byte :=
  match v with
  | some t => if t.versioned then t.version.take (s.under t.version p) (p.key / 8)
              else (s.mem p.place).take (s.fill p.place) (p.pa / 8)
  | none => (s.mem p.place).take (s.fill p.place) (p.pa / 8)

/-- Copies n granules from global memory to a place, codes unchanged. -/
def State.fetchGranules (s : State) (t : Task) (c : Cmd) (va : Nat) (pl : Place) (dst : Nat) :
    (n : Nat) → Except Stop State
  | 0 => .ok s
  | n + 1 => match s.fetchGranules t c va pl dst n with
    | .error e => .error e
    | .ok s1 => match s1.enginePhys t c false (va + 8 * n) with
      | .error e => .error e
      | .ok p =>
        let s2 := if (va + 8 * n) % 64 = 0 || n = 0 then s1.noteRead p else s1
        let g := s2.granuleOf (s2.task? t.id) p
        .ok (s2.setMem pl ((s2.mem pl).carry (s2.fill pl) (dst / 8 + n) g))

/-- The same for a command that fetches an image, UNDEFINED where threads write it without order. -/
def State.fetchFor (s : State) (t : Task) (c : Cmd) (va : Nat) (pl : Place) (dst n : Nat) : Except Stop State :=
  (s.fetchGranules t c va pl dst n).map fun s1 => s1.spoil c ⟨0, va, 8 * n⟩ ⟨3, 0, 8 * n⟩ pl dst

/-- Copies n granules between the memories of a core; UNDEFINED where threads write them without order. -/
def State.moveGranules (s : State) (c : Cmd) (src : Place) (sa : Nat) (ss : Span) (dst : Place) (da : Nat)
    (ds : Span) (n : Nat) : State :=
  let s1 := s.setMem dst ((s.mem src).copyGranules (s.fill src) (sa / 8) (s.fill dst) (s.mem dst) (da / 8) n)
  s1.spoil c ss ds dst da

/-- The resident image at an offset. -/
def Core.image? (x : Core) (off : Nat) : Option Image := x.images.find? fun i => i.off == off

/-- The expanded bytes of a resident image, of which the decompressor checks those that it reads: all of a compressed
one, of an uncompressed one those of rows k0 to k0 + kn - 1 and columns j0 to j0 + jn - 1 (R221). -/
def State.imageData (s : State) (core : Nat) (im : Image) (e0 : Trap) (k0 kn j0 jn : Nat) :
    Except Stop (List Byte) :=
  let at' := im.off + 64
  let ranges := if im.cmp then [(0, im.len)] else (List.range jn).map fun j => im.rows (j0 + j) k0 kn
  match ranges.findSome? fun r => (match s.readAt (.wbuf core) (at' + r.1) r.2 with
      | .error e => some e
      | .ok _ => none) with
  | some e => .error (.trap { e0 with
      cause := .checkMismatch
      unit := 3
      addr := BitVec.ofNat 64 e.addr
      aux0 := BitVec.ofNat 64 (e.stored.toNat + 256 * e.computed.toNat) })
  | none => match im.expand (s.bytesAt (.wbuf core) at' im.len) with
    | none => .error (.trap { e0 with unit := 3, addr := BitVec.ofNat 64 im.off })
    | some l => .ok l

/-! ## mma and mmac (R211 to R215) -/

/-- Row i of A: its elements with their scales, and whether a byte of it is UNDEFINED. -/
def State.aRow (s : State) (k : Crew) (c : Cmd) (f : MatMode) (kk i : Nat) :
    Except Stop (List (FVal × FVal) × Bool) :=
  let a := aDesc c.a
  let n := kk * matBits f.aty / 8
  let at' := a.base + i * a.pitch
  let st := a.sbase + i * a.spitch
  let scaled := bitOf f.scl 0
  match s.tileRead k c at' n with
  | .error e => .error e
  | .ok bs =>
    match (if scaled then s.tileRead k c st (kk / 32) else .ok []) with
    | .error e => .error e
    | .ok ss =>
      let x := leNat bs
      .ok ((List.range kk).map fun q =>
        (matValue f.aty (bitsOf x (q * matBits f.aty) (matBits f.aty)),
          if scaled then scaleValue (fieldOf ss (q / 32) 1) else scaleOne),
        c.isHot (k.tileSpan at' n) || (scaled && c.isHot (k.tileSpan st (kk / 32))))

/-- Row i of the accumulators after blocks q0 to q0 + n - 1. `first` starts from zero. -/
def State.mmaRow (s : State) (k : Crew) (c : Cmd) (f : MatMode) (nn kk : Nat) (first : Bool)
    (b : Nat → Nat → FVal × FVal) (q0 n i : Nat) : Except Stop State :=
  let z := accBytes f.cty
  let adr := accBase c.d + i * accPitch c.d
  let p := blockLen f.aty
  let old : Except Stop (List Byte) := if first then .ok [] else s.tileRead k c adr (nn * z)
  match old, s.aRow k c f kk i with
  | .error e, _ => .error e
  | _, .error e => .error e
  | .ok cs, .ok (as, hotA) =>
    let lo := q0 * p
    let cnt := min (n * p) (kk - lo)
    let row := (as.drop lo).take cnt
    let val (j : Nat) : Nat :=
      let sp := k.tileSpan (adr + j * z) z
      if hotA || (!first && c.isHot sp) || c.isLate sp then
        (s.fresh (2 ^ 58 + i * 1024 + j)).toNat % 2 ^ (8 * z)
      else
        accBlocks f.cty p (fieldOf cs (j * z) z)
          (row.zip ((List.range cnt).map fun q => b (lo + q) j)) n
    s.tileWrite k adr ((List.range nn).flatMap fun j => leBytes z (val j))

/-- All rows. -/
def State.mmaRows (s : State) (k : Crew) (c : Cmd) (f : MatMode) (nn kk : Nat) (first : Bool)
    (b : Nat → Nat → FVal × FVal) (q0 n m : Nat) : Except Stop State :=
  eachBelow (fun i s => s.mmaRow k c f nn kk first b q0 n i) m s

/-- Begin checks of mma (R210): the image named by WOFF and its window. -/
def mmaImage (x : Core) (c : Cmd) (f : MatMode) (nn kk : Nat) : Option Image :=
  let k0 := bitsOf c.b.toNat 18 14
  let j0 := bitsOf c.b.toNat 32 10
  match x.image? (bitsOf c.b.toNat 0 18) with
  | none => none
  | some im =>
    if im.ty == f.bty && im.cmp == (f.bcmp == 1) && decide (k0 + kk ≤ im.kb) && decide (j0 + nn ≤ im.nb)
        && decide (k0 % 32 = 0) && decide (j0 % 16 = 0) then some im else none

/-- The rows of B that some blocks read, from its image: K blocks q0 to q0 + n - 1 of a window. -/
def State.mmaBlocks (s : State) (k : Crew) (c : Cmd) (x : Mma) (im : Image) (k0 j0 : Nat) (first : Bool)
    (q0 n : Nat) : Except Stop State :=
  let f := matMode c.mfmt.toNat
  let p := blockLen f.aty
  match s.imageData k.core im (cmdFormat c im.off 8 0) (k0 + q0 * p) (min (n * p) (shapeK x.k - q0 * p)) j0
      (shapeN x.n) with
  | .error e => .error e
  | .ok bs => s.mmaRows k c f (shapeN x.n) (shapeK x.k) first
      (fun q j => imageElem im.ty im.kb bs (k0 + q) (j0 + j)) q0 n (shapeM x.m)

/-- The next n blocks of an mma that has begun with an image. -/
def State.doMma (s : State) (k : Crew) (c : Cmd) (x : Mma) (im : Image) (n : Nat) : Except Stop State :=
  s.mmaBlocks k c x im (bitsOf c.b.toNat 18 14) (bitsOf c.b.toNat 32 10) (accZero c.d && c.prog == 0) c.prog n

/-! ## Tile moves, weight loads (R216, R219, R220) -/

/-- The next n granules of a tld. -/
def State.doTld (s : State) (k : Crew) (c : Cmd) (n : Nat) : State :=
  let a := c.a.toNat + 8 * c.prog
  let d := c.d.toNat + 8 * c.prog
  s.moveGranules c (.spad k.core) (k.spadBase + a) (k.padSpan a (8 * n)) (.tile k.core) (k.tileBase + d)
    (k.tileSpan d (8 * n)) n

/-- The next n granules of a tst. -/
def State.doTst (s : State) (k : Crew) (c : Cmd) (n : Nat) : State :=
  let a := c.a.toNat + 8 * c.prog
  let d := c.d.toNat + 8 * c.prog
  let s1 := s.moveGranules c (.tile k.core) (k.tileBase + a) (k.tileSpan a (8 * n)) (.spad k.core) (k.spadBase + d)
    (k.padSpan d (8 * n)) n
  s1.dropRels (.spad k.core) (k.spadBase + d) (8 * n)

/-- The next n granules of a tzro. -/
def State.doTzro (s : State) (k : Crew) (c : Cmd) (n : Nat) : State :=
  let d := c.d.toNat + 8 * c.prog
  let s1 := (List.range n).foldl (fun (s : State) i =>
    s.putAt (.tile k.core) (k.tileBase + d + 8 * i) (List.replicate 8 0)) s
  s1.spoil c ⟨3, 0, 0⟩ (k.tileSpan d (8 * n)) (.tile k.core) (k.tileBase + d)

/-- The 64 bytes of an image header, checked (R219). -/
def State.headerAt (s : State) (k : Crew) (t : Task) (c : Cmd) (crew : Bool) (a : Nat) :
    Except Stop (List Byte × State) :=
  if crew then
    match s.readAt (.spad k.core) (k.spadBase + a) 64 with
    | .error e => .error (.trap { mismatchTrap e 2 (e.addr - k.spadBase) (s.asid t.ctx) 1 0 with
        lane := some c.lane, slot := c.slot, xtra := BitVec.ofNat 32 (cmdTag c.i) })
    | .ok bs => .ok (s.spoilt c (k.padSpan a 64) bs, s)
  else match s.enginePhys t c false a with
    | .error e => .error e
    | .ok p =>
      let s1 := s.noteRead p
      match s1.readPhys (s1.task? t.id) p 64 with
      | .error e => .error (.trap { lineTrap e 2 a (s.asid t.ctx) 0 p.pa with
          lane := some c.lane, slot := c.slot, xtra := BitVec.ofNat 32 (cmdTag c.i) })
      | .ok bs => .ok (s1.spoilt c ⟨0, a, 64⟩ bs, s1)

/-- A wbld begins: the header is checked, and the images that it overwrites lose their residency. -/
def State.beginWbld (s : State) (k : Crew) (t : Task) (c : Cmd) (x : Wbld) : Except Stop (Image × State) :=
  let a := c.a.toNat
  let off := c.d.toNat
  let asid := s.asid t.ctx
  match s.headerAt k t c x.crew a with
  | .error e => .error e
  | .ok (bs, s1) => match imageHeader off bs with
    | .error b => .error (.trap (cmdFormat c a 8 b))
    | .ok im =>
      if 262144 < off + 64 + im.len then .error (.trap (cmdTrap c .bounds a 0 asid false))
      else if !im.lenOk then .error (.trap (cmdFormat c a 8 0x0C))
      else if x.crew && k.window < a + 64 + im.len then .error (.trap (cmdTrap c .bounds a 1 asid false))
      else .ok (im, s1.setCore k.core ((s1.core k.core).evict off (64 + im.len)))

/-- The next n granules of a wbld that has begun. -/
def State.doWbld (s : State) (k : Crew) (t : Task) (c : Cmd) (x : Wbld) (n : Nat) : Except Stop State :=
  let a := c.a.toNat + 8 * c.prog
  let d := c.d.toNat + 8 * c.prog
  if x.crew then .ok (s.moveGranules c (.spad k.core) (k.spadBase + a) (k.padSpan a (8 * n)) (.wbuf k.core) d
    ⟨3, 0, 8 * n⟩ n)
  else s.fetchFor t c a (.wbuf k.core) d n

/-- A wbld is done: its image is resident. -/
def State.endWbld (s : State) (core : Nat) (im : Image) : State :=
  let y := (s.core core).evict im.off (64 + im.len)
  s.setCore core { y with images := im :: y.images }

def State.doWbinv (s : State) (k : Crew) (c : Cmd) (x : Wbinv) : State :=
  match x.range with
  | none => s.setCore k.core { s.core k.core with images := [] }
  | some (_, len) => s.setCore k.core ((s.core k.core).evict (bitsOf c.a.toNat 0 18) (64 * len.toNat))

/-! ## Drain (R222 to R224) -/

/-- Slice number n of the command's draws (R223, R224). -/
def Cmd.rslice (c : Cmd) (n : Nat) : Nat :=
  slice (sprout c.rngk (c.rngc + BitVec.ofNat 128 (n / 16))) (n % 16)

/-- The bytes of one output row and the flags raised. -/
def drainBytes (c : Cmd) (x : Mdrn) (i : Nat) (vals : List Nat) : List Byte × Dword :=
  let cty := (matMode c.mfmt.toNat).cty
  let rm := drainRm x c.mode
  let nn := shapeN x.n
  let sl (j : Nat) : Nat := if rm = .rsr then c.rslice (i * nn + j) else 0
  if cty == .i32 then
    (vals.flatMap fun v => leBytes (matBits x.ty / 8)
      (ofSigned x.ty.bits (clampTo x.ty (toSigned 32 v))), 0)
  else
    let cf := (fmtOf cty).getD .f32
    let scale := if x.b == .zero then scaleOne else Fmt.f32.decode false (c.b.toNat % 2 ^ 32)
    let ms := vals.map fun v => if x.scl then FVal.mul (cf.decode false v) scale else (cf.decode false v, 0)
    let xs := ms.map (·.1)
    let fl := ms.foldl (fun a m => a ||| m.2) 0
    let f := (matFmt x.ty).getD .f32
    if isMX x.ty then
      let blocks := (List.range (nn / 32)).map fun g =>
        quantMX f rm ((List.range 32).map fun t => sl (32 * g + t)) ((xs.drop (32 * g)).take 32)
      (blocks.flatMap fun b => mxPack (matBits x.ty) b.1 b.2.1, blocks.foldl (fun a b => a ||| b.2.2) fl)
    else
      let rs := xs.zipIdx.map fun p => toFloat f { rm := rm, sat := x.sat, fz := false, r8 := sl p.2 } p.1
      let n := matBits x.ty
      (leBytes (nn * n / 8) ((rs.zipIdx.map fun p => p.1.1 * 2 ^ (n * p.2)).sum),
        rs.foldl (fun a r => a ||| r.2) fl)

/-- A plain store of an engine to global memory, line by line. -/
def State.engineStore (s : State) (t : Task) (c : Cmd) : (n : Nat) → (va : Nat) → List Byte →
    Except Stop State
  | 0, _, _ => .ok s
  | n + 1, va, bs =>
    if bs.isEmpty then .ok s
    else
      let m := 64 - va % 64
      match s.enginePhys t c true va with
      | .error e => .error e
      | .ok p => match s.writePhys (s.task? t.id) false p (bs.take m) with
        | .error e => .error (.trap { lineTrap e 13 va (s.asid t.ctx) 0 p.pa with
            lane := some c.lane, slot := c.slot, xtra := BitVec.ofNat 32 (cmdTag c.i) })
        | .ok s1 => s1.engineStore t c n (va + m) (bs.drop m)

/-- Granules that a row of a drain may meet: a step writes some of them (spec/09 R260). -/
def drainUnits (x : Mdrn) : Nat := drainRow x.ty (shapeN x.n) / 8 + 2

/-- Granules u to v - 1 of row i of a drain; the last one clears the accumulators and gives the flags. -/
def State.drainRowAt (s : State) (k : Crew) (t : Task) (c : Cmd) (x : Mdrn) (i u v : Nat) :
    Except Stop (Dword × State) :=
  let cty := (matMode c.mfmt.toNat).cty
  let z := accBytes cty
  let nn := shapeN x.n
  let src := accBase c.a + i * accPitch c.a
  match s.tileRead k c src (nn * z) with
  | .error e => .error e
  | .ok bs =>
    let isOpen := c.isHot (k.tileSpan src (nn * z))
    let vals := (List.range nn).map fun j =>
      if isOpen && c.isHot (k.tileSpan (src + j * z) z) then
        (s.fresh (2 ^ 58 + i * 1024 + j)).toNat % 2 ^ (8 * z)
      else fieldOf bs (j * z) z
    let r := drainBytes c x i vals
    let dst := c.d.toNat + i * drainPitch x c.b
    let sp (a n : Nat) : Span := if x.crew then k.padSpan a n else ⟨0, a, n⟩
    let row := if c.isLate (sp dst r.1.length) then
        r.1.mapIdx fun j b => if c.isLate (sp (dst + j) 1) then
          (s.fresh (2 ^ 58 + c.seq * 2 ^ 20 + 2 ^ 19 + j)).setWidth 8 else b
      else r.1
    let lo := 8 * (dst / 8 + u) - dst
    let hi := if v = drainUnits x then row.length else 8 * (dst / 8 + v) - dst
    let data := (row.take hi).drop lo
    let at' := dst + lo
    let s1 : Except Stop State :=
      if data.isEmpty then .ok s
      else if x.crew then match s.writeAt (.spad k.core) (k.spadBase + at') data with
        | .ok s1 => .ok (s1.dropRels (.spad k.core) (k.spadBase + at') data.length)
        | .error e => .error (.trap { mismatchTrap e 13 (e.addr - k.spadBase) (s.asid t.ctx) 1 0 with
            lane := some c.lane, slot := c.slot, xtra := BitVec.ofNat 32 (cmdTag c.i) })
      else s.engineStore t c (data.length / 64 + 2) at' data
    match s1 with
    | .error e => .error e
    | .ok s2 =>
      if v ≠ drainUnits x then .ok (0, s2)
      else if x.clr then match s2.tileWrite k src (List.replicate (nn * z) 0) with
        | .error e => .error e
        | .ok s3 => .ok (r.2, s3.spoil c ⟨3, 0, 0⟩ (k.tileSpan src (nn * z)) (.tile k.core) (k.tileBase + src))
      else .ok (r.2, s2)

/-- The next n units of a drain from unit p on, in `r` rows at most: flags, state, and where it stopped. -/
def State.drainRows (s : State) (k : Crew) (t : Task) (c : Cmd) (x : Mdrn) : (r : Nat) → (p n : Nat) →
    (fl : Dword) → Dword × State × Nat × Option Stop
  | 0, p, _, fl => (fl, s, p, none)
  | r + 1, p, n, fl =>
    if n = 0 then (fl, s, p, none)
    else
      let u := p % drainUnits x
      let m := min n (drainUnits x - u)
      match s.drainRowAt k t c x (p / drainUnits x) u (u + m) with
      | .error e => (fl, s, p, some e)
      | .ok (f, s1) => s1.drainRows k t c x r (p + m) (n - m) (fl ||| f)

/-! ## Performing commands -/

/-- Holds a fault until the thread's next marker or its end (spec/02 R67); of a thread that has ended it ends the
attempt at once. -/
def State.deferFault (s : State) (wave lane slot : Nat) (crew : Nat) (e : Trap) : State :=
  let e' := { e with lane := some lane, slot := slot }
  let now (wslot : Nat) : State := match s.crew? crew with
    | some k => s.endAttempt k.task e' (srcOf k.core wslot lane) slot
    | none => s
  match s.wave? wave with
  | some w =>
    if (w.th lane).run == .ended then now w.wslot
    else s.setWave (w.each (1#64 <<< lane) fun _ th => { th with dfault := some (th.dfault.getD e') })
  | none => now 0

/-- The token of a command (R200). -/
def tokenWords (c : Cmd) (fl : Dword) : List Word :=
  [BitVec.ofNat 32 (cmdTag c.i + cmdOp c.i * 2 ^ 12), BitVec.ofNat 32 c.seq, fl.setWidth 32, 0]

/-- Fills the first element that is reserved under a number. -/
def fillElem (n : Nat) (ws : List Word) : List (Nat × Option (List Word)) → List (Nat × Option (List Word))
  | [] => []
  | (j, none) :: r => if j = n then (j, some ws) :: r else (j, none) :: fillElem n ws r
  | x :: r => x :: fillElem n ws r

/-- The head command of a crew is done: it leaves the queue, and its token is pushed. -/
def State.finishCmd (s : State) (crew : Nat) (c : Cmd) (fl : Dword) : State :=
  match s.crew? crew with
  | none => s
  | some k =>
    let k1 := { k with cmds := k.cmds.drop 1 }
    let s1 := match s.wave? c.wave with
      | some w => s.setWave { w with fflags := w.fflags ||| fl }
      | none => s
    if cmdTok c.i then
      (s1.setCrew { k1 with qs := k1.qs.map fun q =>
        if q.kind == 2 then { q with elems := fillElem c.seq (tokenWords c fl) q.elems } else q }).wakeCrew crew
    else s1.setCrew k1

/-- The head command waits on a page, or its fault is held and no later one runs (R199). -/
def State.stopCmd (s : State) (k : Crew) (t : Task) (c : Cmd) (x : Stop) : State :=
  match x with
  | .trap e =>
    if e.cause == .pageNotPresent then
      (s.setCrew { (s.crew? k.id).getD k with
        cmds := { c with wait := some e.page } :: k.cmds.drop 1 }).postResolve t.ctx
        ⟨1, t.att, t.name, srcOf k.core (match s.wave? c.wave with | some w => w.wslot | none => 0) c.lane,
          c.slot, e⟩
    else
      (s.setCrew { (s.crew? k.id).getD k with cmds := k.cmds.drop 1, stuck := true }).deferFault
        c.wave c.lane c.slot k.id e
  | _ => s

/-- A vmm of the crew that was issued before the command is outstanding (R198). -/
def State.vmmBefore (s : State) (k : Crew) (c : Cmd) : Bool :=
  s.waves.any fun w => w.crew == k.id && w.out.any fun p =>
    match p.i with
    | .vmm _ => decide ((c.seq + 2 ^ 32 - p.c.toNat) % 2 ^ 32 < 2 ^ 31)
    | _ => false

/-- Whether vmm and a command are ordered with one another. -/
def vmmOrdered : Instr → Bool
  | .wbld _ | .wbinv _ | .mmac _ => true
  | _ => false

/-- Whether a command of the crew comes before a vmm that was issued at a place among the commands (R198). -/
def Crew.vmmWaits (k : Crew) (place : Nat) : Bool :=
  k.cmds.any fun c => vmmOrdered c.i && decide ((place + 2 ^ 32 - c.seq) % 2 ^ 32 < 2 ^ 31) && c.seq != place

/-- A multiply begins: an engine at level 0 goes to 1 at once (R228). -/
def State.spin (s : State) (core : Nat) : State :=
  if (s.core core).power = 0 then s.setCore core { s.core core with power := 1 } else s

/-- Units a command is performed in: K blocks, granules, or granules of rows (R230, spec/09 R260). -/
def Cmd.units (c : Cmd) : Nat :=
  match c.i with
  | .mma x => ceilDiv (shapeK x.k) (blockLen (matMode c.mfmt.toNat).aty)
  | .tld x | .tst x | .tzro x => 8 * x.len.toNat
  | .wbld _ => ((c.image.map fun im => (64 + im.len) / 8).getD 0)
  | .mdrn x => shapeM x.m * drainUnits x
  | _ => 0

/-- Units between the boundaries that a pre-emption stops a command at (R230). -/
def Cmd.boundary (c : Cmd) : Nat :=
  match c.i with
  | .tld _ | .tst _ | .tzro _ | .wbld _ => 8
  | .mdrn x => drainUnits x
  | _ => 1

/-- How many of some units are performed together: at least one, else free (spec/09 R260). -/
def State.unitsNow (s : State) (tag rest : Nat) : Nat := rest - (s.fresh tag).toNat % rest

/-- The head command of a crew goes on with a changed record. -/
def State.setHead (s : State) (crew : Nat) (c : Cmd) : State :=
  match s.crew? crew with
  | some k => s.setCrew { k with cmds := c :: k.cmds.drop 1 }
  | none => s

/-- Performs a command other than mmac: first its begin, where it has one, then units of it. -/
def State.perform (s : State) (k : Crew) (t : Task) (c : Cmd) : State :=
  let rest := c.units - c.prog
  let n := s.unitsNow (2 ^ 59 + c.seq) rest
  let go (fl : Dword) (s1 : State) : State :=
    if n = rest then s1.finishCmd k.id c fl
    else s1.setHead k.id { c with
      accepted := true
      prog := c.prog + n }
  let done (r : Except Stop State) : State := match r with
    | .ok s1 => go c.flags s1
    | .error x => s.stopCmd k t c x
  match c.i with
  | .mma x =>
    let f := matMode c.mfmt.toNat
    match c.image with
    | some im => done ((s.doMma k c x im n).map fun s1 => s1.stat k.task 2 n)
    | none => match mmaImage (s.core k.core) c f (shapeN x.n) (shapeK x.k) with
      | none => s.stopCmd k t c (.trap (cmdFormat c (bitsOf c.b.toNat 0 18) 8 0))
      | some im => (s.spin k.core).setHead k.id { c with
          accepted := true
          begun := true
          image := some im }
  | .tld _ => done (.ok (s.doTld k c n))
  | .tst _ => done (.ok (s.doTst k c n))
  | .tzro _ => done (.ok (s.doTzro k c n))
  | .wbld x => match c.image with
    | some im => done ((s.doWbld k t c x n).map fun s1 => if n = rest then s1.endWbld k.core im else s1)
    | none => match s.beginWbld k t c x with
      | .error y => s.stopCmd k t c y
      | .ok (im, s1) => s1.setHead k.id { c with
          accepted := true
          begun := true
          image := some im }
  | .wbinv x => done (.ok (s.doWbinv k c x))
  | .mdrn x =>
    let r := s.drainRows k t c x (shapeM x.m + 1) c.prog n c.flags
    match r.2.2.2 with
    | none => if n = rest then r.2.1.finishCmd k.id c r.1 else r.2.1.setHead k.id { c with
        accepted := true
        prog := r.2.2.1
        flags := r.1 }
    | some y => r.2.1.stopCmd k t { c with
        prog := r.2.2.1
        flags := r.1 } y
  | _ => s

/-- The engine performs the oldest command of a crew, which it accepts first where it has not (R199), after the
accesses that an opfence puts before it (R202). -/
def execEngineCommandDone (crew : Nat) (s : State) : Host.Outcome State Fault Refusal :=
  match s.crew? crew with
  | none => .fault .notEnabled
  | some k => match k.cmds, s.task? k.task with
    | c :: _, some t =>
      let isMmac := match c.i with
        | .mmac _ => true
        | _ => false
      if k.stuck || c.wait.isSome || isMmac || (vmmOrdered c.i && s.vmmBefore k c)
          || c.behind.any (fun x => !s.performed x) then .fault .notEnabled
      else match (if c.accepted then none else s.acceptCmd k t c) with
        | some e => .next (s.stopCmd k t c (.trap e))
        | none => .next (s.perform k t c)
    | _, _ => .fault .notEnabled

/-! ## mmac (R213 to R215) -/

/-- The outstanding mmac of threads of a wave at a slot. -/
def Crew.mmacOf (k : Crew) (wave slot : Nat) (m : BitVec 64) : Option Cmd :=
  k.cmds.find? fun c => c.wave == wave && c.slot == slot && c.lanes &&& m != 0 && (match c.i with
    | .mmac _ => true
    | _ => false)

/-- mmac: the issuing threads are held until every block is done. -/
def execMmac (x : Mma) (s : State) : Host.Outcome State Fault Refusal :=
  onIssue s fun e =>
    let m := e.real (e.guard x.h)
    if m = 0 then .ok s
    else match e.k.mmacOf e.w.id e.p.slot m with
      | some _ => e.hold s .mmac
      | none =>
        if (e.w.th (lowLane m)).exch then
          .ok (s.setWave (e.setPix (e.w.each e.p.lanes fun _ th => { th with exch := false }) 0))
        else match e.matCommand s e.w (.mmac x) x.h x.d x.a x.b with
          | .error y => .error y
          | .ok s1 =>
            if s1.iss.isNone then .ok s1
            else .ok (s1.setWave (((s1.wave? e.w.id).getD e.w).each e.p.lanes fun _ th =>
              { th with run := .hold .mmac })).stopIssue

/-- Each crew with the mmac at the head of its queue; none where one lacks it. -/
def mmacHeads : List Crew → Option (List (Crew × Cmd × Mma))
  | [] => some []
  | k :: r => match k.cmds with
    | c :: _ => match c.i with
      | .mmac x => match mmacHeads r with
        | some l => some ((k, c, x) :: l)
        | none => none
      | _ => none
    | [] => none

/-- The crews of a task's cluster operation: those that it launched, none while one has ended without its mmac, which
holds the others (R213); a relaunched crew takes no part (notes/assumptions/20). -/
def State.mmacCrews (s : State) (t : Task) : Option (List (Crew × Cmd × Mma)) :=
  let ks := s.crews.filter fun k => k.task == t.id && !k.cont
  if ks.length = t.ncrew then mmacHeads ks else none

/-- Whether the operations of two crews agree (R213, R215). -/
def mmacAgree (a b : Crew × Cmd × Mma) : Bool :=
  a.2.1.b == b.2.1.b && a.2.2.n == b.2.2.n && a.2.2.k == b.2.2.k && a.2.1.mfmt == b.2.1.mfmt
    && a.2.1.prog == b.2.1.prog

/-- The header checks of a cluster operation (R210, R214): its image, to be staged at 0x20000. -/
def mmacHeader (c : Cmd) (x : Mma) (hs : List Byte) : Except Trap Image :=
  let f := matMode c.mfmt.toNat
  let a := c.b.toNat
  match imageHeader 0x20000 hs with
  | .error b => .error (cmdFormat c a 8 b)
  | .ok im =>
    if 131072 < 64 + im.len || !im.lenOk || im.ty != f.bty || im.cmp != (f.bcmp == 1) || im.kb < shapeK x.k
        || im.nb < shapeN x.n then .error (cmdFormat c a 8 0x0C)
    else .ok im

/-- An operation begins: the image is staged in the weight buffer of the first crew's core, and then in the others',
where no image keeps its residency in the range (R214). -/
def State.mmacStage (s : State) (t : Task) (p : Crew × Cmd × Mma) (r : List (Crew × Cmd × Mma)) (im : Image) :
    Except Stop State :=
  let a := p.2.1.b.toNat
  let n := (64 + im.len) / 8
  match s.fetchGranules t p.2.1 a (.wbuf p.1.core) 0x20000 n with
  | .error y => .error y
  | .ok s1 =>
    let copy (s : State) (x : Crew × Cmd × Mma) : State :=
      let d : Place := .wbuf x.1.core
      s.setMem d ((s1.core p.1.core).wbuf.copyGranules (s1.fill (.wbuf p.1.core)) 0x4000 (s.fill d) (s.mem d) 0x4000 n)
    let s2 := r.foldl copy s1
    .ok ((p :: r).foldl (fun s x =>
      (s.setCore x.1.core ((s.core x.1.core).evict 0x20000 0x20000)).spoil x.2.1 ⟨0, a, 8 * n⟩ ⟨3, 0, 8 * n⟩
        (.wbuf x.1.core) 0x20000) s2)

/-- Whether the issuing thread of an operation resumed with INP set, which ignores ZERO (R215). -/
def State.mmacInp (s : State) (c : Cmd) : Bool :=
  match s.wave? c.wave with
  | some w => (w.th c.lane).pix.getLsbD 32
  | none => false

/-- A crew's operation after a block: the next one, or its end. -/
def State.mmacNext (s : State) (p : Crew × Cmd × Mma) (q n : Nat) : State :=
  if q + 1 < n then s.setHead p.1.id { p.2.1 with prog := q + 1 }
  else
    let s1 := s.finishCmd p.1.id p.2.1 0
    match s1.wave? p.2.1.wave with
    | none => s1
    | some w => s1.setWave (w.each p.2.1.lanes fun _ th =>
        if th.run = .hold .mmac && th.pc = p.2.1.slot then { th with exch := true } else th)

/-- One block of every crew of an operation, or the crew that faults. -/
def State.mmacBlocks (s : State) (im : Image) (q : Nat) :
    List (Crew × Cmd × Mma) → Except ((Crew × Cmd × Mma) × Stop) State
  | [] => .ok s
  | p :: r => match s.mmaBlocks p.1 p.2.1 p.2.2 im 0 0 (accZero p.2.1.d && q == 0 && !s.mmacInp p.2.1) q 1 with
    | .error y => .error (p, y)
    | .ok s1 => s1.mmacBlocks im q r

/-- The engines of a task's crews begin their cluster operation, or complete one K block of it (R214, R215). What is
wrong with the operation itself faults every crew; an absent page of the image holds them all. -/
def execMmacBlock (task : Nat) (s : State) : Host.Outcome State Fault Refusal :=
  match s.task? task with
  | none => .fault .notEnabled
  | some t => match s.mmacCrews t with
    | none | some [] => .fault .notEnabled
    | some (p :: r) =>
      let ops := p :: r
      let stopAll (s : State) (y : Cmd → Trap) : State :=
        ops.foldl (fun s x => s.stopCmd ((s.crew? x.1.id).getD x.1) t x.2.1 (.trap (y x.2.1))) s
      if ops.any fun x => x.1.stuck || x.2.1.wait.isSome || s.vmmBefore x.1 x.2.1
          || x.2.1.behind.any (fun b => !s.performed b) then .fault .notEnabled
      else match ops.findSome? fun x => (if x.2.1.accepted then none else s.acceptCmd x.1 t x.2.1).map (x, ·) with
        | some (x, e) => .next (s.stopCmd x.1 t x.2.1 (.trap e))
        | none =>
          let at' (y : Trap) (c : Cmd) : Trap :=
            { y with lane := some c.lane, slot := c.slot, xtra := BitVec.ofNat 32 (cmdTag c.i) }
          let image (y : Stop) : State := match y with
            | .trap e => if e.cause == .pageNotPresent then s.stopCmd p.1 t p.2.1 y else stopAll s (at' e)
            | _ => s
          let q := p.2.1.prog
          if !(r.all fun x => mmacAgree p x) then .next (stopAll s fun c => cmdFormat c 0 0 0)
          else if ops.all fun x => x.2.1.begun then
            match p.2.1.image with
            | none => .fault .notEnabled
            | some im => match s.mmacBlocks im q ops with
              | .error (x, y) => .next (s.stopCmd x.1 t x.2.1 y)
              | .ok s1 => .next (ops.foldl (fun s x => s.mmacNext x q
                  (ceilDiv (shapeK x.2.2.k) (blockLen (matMode x.2.1.mfmt.toNat).aty))) (s1.stat task 2 ops.length))
          else match s.headerAt p.1 t p.2.1 false p.2.1.b.toNat with
            | .error y => .next (image y)
            | .ok (hs, s1) => match mmacHeader p.2.1 p.2.2 hs with
              | .error e => .next (image (.trap e))
              | .ok im => match s1.mmacStage t p r im with
                | .error y => .next (image y)
                | .ok s2 => .next (ops.foldl (fun s x => (s.spin x.1.core).setHead x.1.id { x.2.1 with
                    accepted := true
                    begun := true
                    image := some im }) s2)

/-! ## trow (R217) -/

/-- The bytes a lane's register writes to tile store, UNDEFINED where a command writes them too (R203). -/
def Env.trowBytes (e : Env) (s : State) (adr v r l : Nat) : List Byte :=
  if (e.actor s l).conflicts s (e.k.tileSpan adr 4) then s.freeBytes (e.tag l r) 4
  else leBytes 4 (e.v s l (v + r)).toNat

/-- Registers to tile store, granule by granule: one that both its lanes write is written whole, of the others the
rest stays (spec/06 R161). -/
def Env.trowTo (e : Env) (s : State) (t : Nat) (v : Nat) (n : Nat) (m : BitVec 64) : Except Stop State :=
  let w := e.w.width
  eachBelow (fun r s => eachBelow (fun g s =>
    let ls := [2 * g, 2 * g + 1].filter fun l => m.getLsbD l
    let l := ls.headD 0
    let adr (l : Nat) : Nat := t + 4 * (r * w + l)
    let data := ls.flatMap fun l => e.trowBytes s (adr l) v r l
    if ls.isEmpty then .ok s
    else match s.writeAt (.tile e.k.core) (e.k.tileBase + adr l) data with
    | .ok s' => .ok (ls.foldl (fun s l => s.threadWrote (e.actor s l) (e.k.tileSpan (adr l) 4) false) s')
    | .error y => .error (.trap { mismatchTrap y 13 (y.addr - e.k.tileBase) (s.asid e.t.ctx) Config.tileSpace.toNat 0 with
        lane := some l })) ((w + 1) / 2) s) n s

/-- The words of lane l, or the fault that is deferred. -/
def Env.trowFrom (e : Env) (s : State) (t n l : Nat) : Except Trap (List Word) :=
  let w := e.w.width
  let adr (r : Nat) : Nat := t + 4 * (r * w + l)
  match (List.range n).findSome? fun r =>
      match s.readAt (.tile e.k.core) (e.k.tileBase + adr r) 4 with
      | .ok _ => none
      | .error y => some y with
  | some y => .error { mismatchTrap y 0 (y.addr - e.k.tileBase) (s.asid e.t.ctx) Config.tileSpace.toNat 0 with lane := some l, slot := e.p.slot }
  | none => .ok ((List.range n).map fun r =>
      if (e.actor s l).conflicts s (e.k.tileSpan (adr r) 4) then s.fresh32 (e.tag l r)
      else BitVec.ofNat 32 (leNat (s.bytesAt (.tile e.k.core) (e.k.tileBase + adr r) 4)))

def execTrow (h : Head) (frm : Bool) (t r : Opd) (n : BitVec 7) (s : State) :
    Host.Outcome State Fault Refusal :=
  onIssue s fun e =>
    let m := if frm then e.guard h else e.real (e.guard h)
    let off := (e.usrc s e.p.lanes t).toNat
    let v := match r with
      | .v x => x.val
      | _ => 0
    let bad (c : Cause) : Except Stop State :=
      e.charge s m (accTrap c (taskAcc e.t (!frm)) (s.asid e.t.ctx) off Config.tileSpace.toNat none 0)
    if m = 0 then .ok s
    else if off % (4 * e.w.width) ≠ 0 then bad .misaligned
    else if e.k.tileLen < off + 4 * n.toNat * e.w.width then bad .bounds
    else if frm then
      .ok (s.setWave ((lanesOf m).foldl (fun w l =>
        match e.trowFrom s off n.toNat l with
        | .ok ws => w.push (doneResult (.trow h frm t r n) e.p.slot l r ws 0)
        | .error y => w.each (1#64 <<< l) fun _ th => { th with dfault := some (th.dfault.getD y) }) e.w))
    else e.trowTo s off v n.toNat m

/-! ## vmm and kmma at issue (R225, R227) -/

/-- Registers first to first + n - 1 of lane l. -/
def Env.vregs (e : Env) (s : State) (l : Nat) (o : Opd) (n : Nat) : List Word :=
  match o with
  | .v x => (List.range n).map fun i => e.v s l (x.val + i)
  | _ => List.replicate n 0

/-- Input registers of a vmm. -/
def vmmIn (x : Vmm) : Nat := ceilDiv x.k.toNat x.ty.perReg

/-- vmm: the inputs, then the accumulators, are taken at issue; `c` is its place among the commands. -/
def execVmm (x : Vmm) (s : State) : Host.Outcome State Fault Refusal :=
  onIssue s fun e => .ok (s.setWave (e.w.pushEach (e.guard x.h) fun l =>
    { access (.vmm x) e.p.slot l 0 (e.src s l false x.b) e.k.eseq with
      dst := x.d
      ext := e.vregs s l x.a (vmmIn x) ++ e.vregs s l x.d x.n.toNat }))

def execKmma (h : Head) (b4 : Bool) (d a b : Opd) (s : State) : Host.Outcome State Fault Refusal :=
  onIssue s fun e => .ok (s.setWave (e.w.pushEach (e.guard h) fun l =>
    { access (.kmma h b4 d a b) e.p.slot l ((e.usrc s e.p.lanes b).toNat % 2 ^ 32) 0 0 with
      dst := d
      ext := e.vregs s l a 8 ++ e.vregs s l d 16 }))

/-! ## Power and order (R202, R228, R229) -/

def execMbst (h : Head) (hold : BitVec 12) (s : State) : Host.Outcome State Fault Refusal :=
  onIssue s fun e =>
    if e.guard h = 0 then .ok s
    else .ok (s.setCore e.k.core { s.core e.k.core with hold := 16 * hold.toNat })

/-- The marks that happen before the events of some lanes (R202). -/
def Wave.known (w : Wave) (m : BitVec 64) : List Nat :=
  (lanesOf m).flatMap fun l => let o := (w.th l).ord; o.view.marks ++ o.own ++ o.loose

/-- opfence (R202): what happens before it comes before the operand reads of later commands: writes that are known to
the group, and the group's accesses that are still to be performed. It does not wait. -/
def execOpfence (h : Head) (s : State) : Host.Outcome State Fault Refusal :=
  onIssue s fun e =>
    let m := e.guard h
    if m = 0 then .ok s
    else
      let ids := e.w.known m
      let k1 := { e.k with
        dirty := e.k.dirty.filter fun d => !ids.contains d.id
        fence := ⟨e.w.id, m, s.tick + (if e.p.slot = e.p.first then 0 else 1)⟩
          :: e.k.fence.filter fun x => !s.performed x }
      let s1 := s.setCrew k1
      let live (l : List Nat) : List Nat := l.filter fun i => s1.crews.any fun k => k.dirty.any fun d => d.id == i
      .ok (s1.orders e.w.id e.w.all fun _ o => { o with
        view := { o.view with marks := live o.view.marks }
        own := live o.own
        loose := live o.loose })

/-- Whether a crew's engine multiplies: a multiply that has begun, or a vmm that nothing holds back (R228). -/
def State.multiplying (s : State) (core : Nat) : Bool :=
  s.crews.any fun k => k.core == core && ((match k.cmds with
    | c :: _ => c.begun && (match c.i with
      | .mma _ | .mmac _ => true
      | _ => false)
    | [] => false) || s.waves.any fun w => w.crew == k.id && w.out.any fun p => match p.i with
      | .vmm _ => !p.done && !(k.vmmWaits p.c.toNat)
      | _ => false)

/-- The level an engine is due to take at a boundary (R228), capped by its die's throttle level (spec/17
R458). -/
def State.levelDue (s : State) (core : Nat) : Nat :=
  let x := s.core core
  let cap := 8 - s.field (.thstat (dieOf core)) 8 3
  if cap < x.power then x.power - 1
  else if s.multiplying core || x.hold ≠ 0 then min cap (x.power + 1)
  else x.power - 1

/-- Whether an engine has changed its level at this boundary, or is due to. -/
def State.steps (s : State) (core : Nat) : Bool :=
  let x := s.core core
  if x.stepped / 2 = s.tick + 1 then x.stepped % 2 == 1 else s.levelDue core != x.power

/-- The hold timers after a clock (R228). -/
def State.holdClock (s : State) : State :=
  if s.cores.all fun x => x.hold = 0 then s
  else { s with cores := s.cores.mapIdx fun i (x : Core) =>
    if x.hold = 0 || s.multiplying i then x else { x with hold := x.hold - 1 } }

/-- The 16-clock boundary of the power level (R228): at most 8 engines of a die change,
the lowest cores first (spec/17 R459). -/
def execEnginePowerStep (core : Nat) (s : State) : Host.Outcome State Fault Refusal :=
  if 512 ≤ core then .fault .absent
  else
    let x := s.core core
    let before := ((List.range (core % 64)).filter fun i => s.steps (core / 64 * 64 + i)).length
    let level := if before < 8 then s.levelDue core else x.power
    if s.tick % 16 ≠ 0 || x.stepped / 2 = s.tick + 1 then .fault .notEnabled
    else .next (s.setCore core { x with
      power := level
      stepped := 2 * (s.tick + 1) + if level = x.power then 0 else 1 })

end Sys2Proof.Machine
end

