-- ==== Sys2Proof/Machine/Texture.lean ====
section
/-! DEFINITION. What the sampler reads and computes (spec/14 R384 to R392; spec/08 R233 to R246):
classic and neural headers, texel layout and addressing, levels, filters, the perceptron and the
weight cache. The instructions are in Machine/Sampler.lean. -/

namespace Sys2Proof.Machine

/-! ## Single precision in the sampler (R233) -/

/-- A value rounded to f32: RNE, overflow to an infinity, no flush. -/
def toF32 (x : FVal) : FVal := Fmt.f32.decode false (finish .f32 rne x).1

/-- The bits of a value in f32. -/
def bitsF32 (x : FVal) : Nat := (finish .f32 rne x).1

def fAdd (a b : FVal) : FVal := toF32 (FVal.sum .rne [a, b]).1
def fSub (a b : FVal) : FVal := fAdd a b.negate
def fMul (a b : FVal) : FVal := toF32 (FVal.mul a b).1

/-- A coordinate's or level's exact value (R234, R235). -/
def texVal : FVal → Rat
  | .nan _ => 0
  | .inf n => if n then -(2 ^ 31 : Nat) else (2 ^ 31 : Nat)
  | x => x.toRat

/-! ## Headers (R384, R387, R388) -/

/-- A layer of a perceptron. -/
structure Percept where
  wout : Nat
  act : Nat
  ty : Ty
  addr : Nat
  ni : Nat
  deriving DecidableEq, Repr

/-- A texture or latent grid: level-0 extents (1 where a coordinate is absent), the layer coordinate,
and for a neural header its perceptron. -/
structure Grid where
  dim : Nat
  ty : Ty
  chans : Nat
  modes : List Nat
  nlv : Bool
  layer : Option Nat
  ext : List Nat
  levels : Nat
  base : Nat
  border : List Nat
  latent : Bool
  tag : Word
  net : List Percept
  deriving DecidableEq, Repr

/-- Element types of classic textures. -/
def texelTy (c : Nat) : Option Ty :=
  match Ty.ofCode? c with
  | some .f16 => some .f16
  | some .bf16 => some .bf16
  | some .f32 => some .f32
  | some .e5m2 => some .e5m2
  | some .e4m3 => some .e4m3
  | some .mx8e4 => some .mx8e4
  | some .mx8e5 => some .mx8e5
  | some .mx4 => some .mx4
  | _ => none

def allZero (bs : List Byte) : Bool := bs.all (· == 0)

/-- The first byte from an offset on that is not zero, where reserved bytes are bad. -/
def badFrom (bs : List Byte) (o : Nat) : Nat := o + (bs.drop o).findIdx (· != 0)

/-- The bad byte of an address: its lowest where it is misaligned, its highest where that is not zero. -/
def badAddr (align a o : Nat) : Nat := if a % align ≠ 0 then o else o + 7

/-- The lowest offset whose test holds. -/
def firstBad (l : List (Bool × Nat)) : Option Nat :=
  match l.find? (·.1) with
  | some x => some x.2
  | none => none

/-- A classic header from its 64 bytes, or its first bad byte (R384). -/
def classicHeader (bs : List Byte) : Except Nat Grid :=
  let dim := fieldOf bs 4 1
  let ty := texelTy (fieldOf bs 5 1 % 64)
  let chans := fieldOf bs 5 1 / 64 + 1
  let misc := fieldOf bs 7 1
  let e (k : Nat) : Nat := fieldOf bs (8 + 2 * k) 2
  let base := fieldOf bs 0x10 8
  let bad := firstBad [
    (fieldOf bs 0 4 ≠ 0x43510001, 0),
    (dim = 0 || 3 < dim, 4),
    (ty.isNone || (isMX (ty.getD .none) && chans ≠ 1), 5),
    (64 ≤ fieldOf bs 6 1, 6),
    (4 ≤ misc || (bitOf misc 1 && dim = 1), 7),
    (e 0 = 0, 8),
    ((e 1 = 0) == decide (1 < dim), 0x0A),
    ((e 2 = 0) == decide (2 < dim), 0x0C),
    (fieldOf bs 0x0E 1 = 0 || 16 < fieldOf bs 0x0E 1, 0x0E),
    (fieldOf bs 0x0F 1 ≠ 0, 0x0F),
    (base % 64 ≠ 0 || 2 ^ 56 ≤ base, badAddr 64 base 0x10),
    (!allZero (byteRange bs 0x28 24), badFrom bs 0x28)]
  match bad with
  | some o => .error o
  | none => .ok
    { dim := dim, ty := ty.getD .f32, chans := chans,
      modes := (List.range 3).map fun k => bitsOf (fieldOf bs 6 1) (2 * k) 2,
      nlv := bitOf misc 0, layer := if bitOf misc 1 then some (dim - 1) else none,
      ext := (List.range 3).map fun k => max 1 (e k), levels := fieldOf bs 0x0E 1, base := base,
      border := (List.range 4).map fun k => fieldOf bs (0x18 + 4 * k) 4,
      latent := false, tag := 0, net := [] }

def latentTy (c : Nat) : Option Ty := if c = 0x15 then some .e4m3 else if c = 0x1A then some .mx4 else none

/-- Layer entries n, n + 1, … of a neural header (R388), `ni` the input width, or the bad entry. -/
def perceptron (bs : List Byte) (nl : Nat) : (fuel : Nat) → (n ni : Nat) → Except Nat (List Percept)
  | 0, _, _ => .ok []
  | k + 1, n, ni =>
    let o := 0x20 + 16 * n
    let wout := fieldOf bs o 1
    if nl ≤ n then
      if allZero (byteRange bs o 16) then perceptron bs nl k (n + 1) ni else .error (badFrom bs o)
    else
      let ty := latentTy (fieldOf bs (o + 2) 1)
      let addr := fieldOf bs (o + 8) 8
      match firstBad [
          (wout = 0 || 64 < wout, o),
          (5 < fieldOf bs (o + 1) 1, o + 1),
          (ty.isNone || (ty = some .mx4 && ni ≠ 32 && ni ≠ 64), o + 2),
          (!allZero (byteRange bs (o + 3) 5), badFrom bs (o + 3)),
          (addr % 64 ≠ 0, o + 8)] with
      | some b => .error b
      | none => match perceptron bs nl k (n + 1) wout with
        | .error b => .error b
        | .ok r => .ok (⟨wout, fieldOf bs (o + 1) 1, ty.getD .e4m3, addr, ni⟩ :: r)

/-- A neural header from its 128 bytes, or its first bad byte (R387). -/
def neuralHeader (bs : List Byte) : Except Nat Grid :=
  let ch := fieldOf bs 5 1
  let ty := latentTy (fieldOf bs 6 1)
  let misc := fieldOf bs 7 1
  let nl := fieldOf bs 0x0C 1
  let base := fieldOf bs 0x10 8
  match firstBad [
      (fieldOf bs 0 4 ≠ 0x4E510001, 0),
      (fieldOf bs 4 1 = 0 || 12 < fieldOf bs 4 1, 4),
      (ch ≠ 8 && ch ≠ 16 && ch ≠ 32, 5),
      (ty.isNone || (ty = some .mx4 && ch ≠ 32), 6),
      (32 ≤ misc || bitsOf misc 1 2 = 3 || bitsOf misc 3 2 = 3, 7),
      (fieldOf bs 8 2 = 0, 8),
      (fieldOf bs 0x0A 2 = 0, 0x0A),
      (nl = 0 || 4 < nl, 0x0C),
      (fieldOf bs 0x0D 1 = 0 || 8 < fieldOf bs 0x0D 1
        || fieldOf bs 0x0D 1 ≠ fieldOf bs (0x20 + 16 * (nl - 1)) 1, 0x0D),
      (fieldOf bs 0x0E 2 ≠ 0, badFrom bs 0x0E),
      (base % 64 ≠ 0 || 2 ^ 56 ≤ base, badAddr 64 base 0x10),
      (fieldOf bs 0x1C 4 ≠ 0, 0x1C)] with
  | some o => .error o
  | none => match perceptron bs nl 4 0 ch with
    | .error o => .error o
    | .ok net =>
      if !allZero (byteRange bs 0x60 32) then .error (badFrom bs 0x60)
      else .ok
        { dim := 2, ty := ty.getD .e4m3, chans := ch,
          modes := [bitsOf misc 1 2, bitsOf misc 3 2, 0], nlv := bitOf misc 0, layer := none,
          ext := [fieldOf bs 8 2, fieldOf bs 0x0A 2, 1], levels := fieldOf bs 4 1, base := base,
          border := [0, 0, 0, 0], latent := true, tag := BitVec.ofNat 32 (fieldOf bs 0x18 4), net := net }

/-! ## The sampler's loads (R233) -/

/-- What a sampler request reads for: the task with its privilege, the thread's queued stores, and the thread. -/
structure TexEnv where
  t : Task
  q : List StoreEnt
  x : Actor
  since : Nat

/-- A load of n bytes, line by line: SO pages fault PROTECTION, the sampler checks codes. -/
def State.texLines (s : State) (v : TexEnv) : (fuel : Nat) → (va n : Nat) →
    Except Trap (List Byte × State)
  | 0, _, _ => .ok ([], s)
  | k + 1, va, n =>
    let m := min n (64 - va % 64)
    let bad (c : Cause) : Trap := { accTrap c (taskAcc v.t false) (s.asid v.t.ctx) va 0 none 0 with unit := 4 }
    if n = 0 then .ok ([], s)
    else if 2 ^ 56 ≤ va then .error (bad .protection)
    else if kindOf (s.physOf v.t false (.glob va)) == .so then .error (bad .protection)
    else match s.readTgt v.t 4 v.q (.glob va) m (some v.x.w.core) with
      | .error e => .error e
      | .ok (bs, s1) =>
        let bs' := if v.x.conflicts s ⟨0, va, m⟩ then s.freeBytes va m
          else s.fetched v.t v.q v.since (v.x.ord.mustSee v.x.agent false) va bs
        match s1.texLines v k (va + m) (n - m) with
        | .error e => .error e
        | .ok (r, s2) => .ok (bs' ++ r, s2)

def State.texRead (s : State) (v : TexEnv) (va n : Nat) : Except Trap (List Byte × State) :=
  s.texLines v (n / 64 + 2) va n

/-- A FORMAT trap of a structure: kind and first bad byte (spec/16 R426). -/
def formatTrap (unit addr kind off : Nat) : Trap :=
  { cause := .format, unit := unit, addr := BitVec.ofNat 64 addr, aux0 := BitVec.ofNat 64 (kind + 256 * off) }

/-- The header at an address: `neural` where only a neural one is taken. -/
def State.texHeader (s : State) (v : TexEnv) (neural : Bool) (va : Nat) : Except Trap (Grid × State) :=
  match s.texRead v va 64 with
  | .error e => .error e
  | .ok (bs, s1) =>
    if fieldOf bs 0 4 = 0x4E510001 then
      match s1.texRead v (va + 64) 64 with
      | .error e => .error e
      | .ok (bs', s2) => match neuralHeader (bs ++ bs') with
        | .error o => .error (formatTrap 4 va 10 o)
        | .ok g => .ok (g, s2)
    else if neural then .error (formatTrap 4 va (if fieldOf bs 0 4 = 0x43510001 then 9 else 10) 0)
    else match classicHeader bs with
      | .error o => .error (formatTrap 4 va 9 o)
      | .ok g => .ok (g, s1)

/-! ## Layout (R385, R386, R389) -/

/-- The coordinates that are filtered. -/
def Grid.axes (g : Grid) : List Nat := (List.range g.dim).filter fun k => g.layer != some k

/-- The extent of coordinate k at a level; a layer coordinate takes no part in the layout. -/
def Grid.extent (g : Grid) (m k : Nat) : Nat :=
  if g.layer = some k then 1 else max 1 (getAt g.ext k 1 / 2 ^ m)

/-- Bytes of a row of blocks or texels. -/
def Grid.texelBytes (g : Grid) : Nat :=
  if g.latent then (if g.ty == .mx4 then 17 else g.chans) else g.chans * g.ty.bits / 8

def Grid.rowBytes (g : Grid) (m : Nat) : Nat :=
  roundUp (if isMX g.ty && !g.latent then ceilDiv (g.extent m 0) 32 * mxBytes (matBits g.ty)
    else g.extent m 0 * g.texelBytes) 64

def Grid.levelBytes (g : Grid) (m : Nat) : Nat := g.rowBytes m * g.extent m 1 * g.extent m 2

/-- LOFF of R385. -/
def Grid.levelOff (g : Grid) (m : Nat) : Nat := ((List.range m).map g.levelBytes).sum

/-- The address of a texel's row position: layer, level and indices. -/
def Grid.rowAddr (g : Grid) (l m i1 i2 : Nat) : Nat :=
  g.base + l * g.levelOff g.levels + g.levelOff m + (i2 * g.extent m 1 + i1) * g.rowBytes m

/-- An index under an addressing mode; none in the border. -/
def mapIndex (mode e : Nat) (i : Int) : Option Nat :=
  if mode = 0 then some (i % e).toNat
  else if mode = 1 then some (max 0 (min i ((e : Int) - 1))).toNat
  else if mode = 2 then
    let j := (i % (2 * e : Nat)).toNat
    some (if j < e then j else 2 * e - 1 - j)
  else if 0 ≤ i && i < e then some i.toNat else none

/-- The indices of a texel, with the layer; none in the border. `ix` holds an index for each
coordinate of the header. -/
def Grid.indices (g : Grid) (m : Nat) (ix : List Int) : Option (Nat × List Nat) :=
  let l := match g.layer with
    | some k => (max 0 (min (getAt ix k 0) ((getAt g.ext k 1 : Int) - 1))).toNat
    | none => 0
  let at' (k : Nat) : Option Nat :=
    if g.axes.contains k then mapIndex (getAt g.modes k 0) (g.extent m k) (getAt ix k 0) else some 0
  match at' 0, at' 1, at' 2 with
  | some a, some b, some c => some (l, [a, b, c])
  | _, _, _ => none

/-- The channels of one MX block element, or of consecutive elements. -/
def mxElem (ty : Ty) (blk : List Byte) (i : Nat) : FVal :=
  (FVal.mul (matValue ty (bitsOf (fieldOf blk 1 (4 * matBits ty)) (i * matBits ty) (matBits ty)))
    (scaleValue (fieldOf blk 0 1))).1

/-- A texel's channels (R385, R386, R389). -/
def State.texel (s : State) (v : TexEnv) (g : Grid) (m : Nat) (ix : List Int) :
    Except Trap (List FVal × State) :=
  match g.indices m ix with
  | none => .ok ((g.border.take g.chans).map (Fmt.f32.decode false), s)
  | some (l, i) =>
    let row := g.rowAddr l m (getAt i 1 0) (getAt i 2 0)
    let i0 := getAt i 0 0
    if isMX g.ty then
      let n := mxBytes (matBits g.ty)
      match s.texRead v (row + (if g.latent then i0 else i0 / 32) * n) n with
      | .error e => .error e
      | .ok (bs, s1) =>
        .ok (if g.latent then (List.range g.chans).map (mxElem g.ty bs) else [mxElem g.ty bs (i0 % 32)], s1)
    else
      let z := g.ty.bits / 8
      match s.texRead v (row + i0 * g.texelBytes) g.texelBytes with
      | .error e => .error e
      | .ok (bs, s1) =>
        .ok ((List.range g.chans).map fun c => matValue g.ty (fieldOf bs (z * c) z), s1)

/-- Texels in order. -/
def State.texels (s : State) (v : TexEnv) (g : Grid) : List (Nat × List Int) →
    Except Trap (List (List FVal) × State)
  | [] => .ok ([], s)
  | (m, ix) :: r => match s.texel v g m ix with
    | .error e => .error e
    | .ok (x, s1) => match s1.texels v g r with
      | .error e => .error e
      | .ok (xs, s2) => .ok (x :: xs, s2)

/-! ## Positions and levels (R234, R235) -/

/-- Round half to even. -/
def roundEven (x : Rat) : Int :=
  let f := x.floor
  let d := x - f
  if d < 1 / 2 then f else if 1 / 2 < d then f + 1 else if f % 2 = 0 then f else f + 1

/-- The index and fraction of coordinate k at level m; `pt` for the filter `.pt`. -/
def Grid.position (g : Grid) (pt : Bool) (m k : Nat) (c : FVal) (off : Int) : Int × Nat :=
  if g.layer = some k then (roundEven (texVal c), 0)
  else
    let x := texVal c * (g.extent m k : Rat)
    if pt then (x.floor + off, 0)
    else
      let y := x - 1 / 2
      (y.floor + off, ((y - y.floor) * 256).floor.toNat)

/-- The implicit level of a lane from its quad's differences (R234). -/
def Grid.implicit (g : Grid) (dx dy : List FVal) : FVal :=
  let sq (d : List FVal) : FVal :=
    let l := g.axes.map fun k =>
      let e := fMul (getAt d k (.fin false 0)) (FVal.ofRat (getAt g.ext k 1 : Nat))
      fMul e e
    match l with
    | [] => .fin false 0
    | x :: r => r.foldl fAdd x
  let px := sq dx
  let py := sq dy
  if px.isNan || py.isNan then .fin false 0
  else
    let m := if FVal.lt px py then py else px
    let y := fMul (.fin false (1 / 2))
      (Fmt.f32.decode false (specialOf .lg2 .f32 .f32 false (bitsF32 m)).1)
    match y with
    | .nan _ | .inf true => .fin false 0
    | y => y

/-- λ, clamped (R234): `c` is the value of C, `bias` whether it is added to the implicit level. -/
def Grid.level (g : Grid) (lod : Lod) (c : FVal) (dx dy : List FVal) : Rat :=
  let x : FVal := match lod with
    | .lz => .fin false 0
    | .ll _ => c
    | .lb _ => fAdd (g.implicit dx dy) c
  let top : Rat := (g.levels - 1 : Nat)
  match x with
  | .nan _ => 0
  | x => max 0 (min top (texVal x))

/-- The level and the level fraction G of a filter (R235, R386). -/
def Grid.levels2 (g : Grid) (lam : Rat) : Nat × Nat :=
  if g.nlv then ((lam + 1 / 2).floor.toNat, 0)
  else
    let m := lam.floor.toNat
    (m, if g.levels ≤ m + 1 then 0 else ((lam - m) * 256).floor.toNat)

/-! ## Filters (R236, R237) -/

/-- What a request names: coordinates, offsets, λ and the draw. -/
structure TexReq where
  coord : List FVal
  off : List Int
  lam : Rat
  draw : Nat

/-- Positions of every coordinate at a level. -/
def Grid.at' (g : Grid) (r : TexReq) (pt : Bool) (m : Nat) : List (Int × Nat) :=
  (List.range g.dim).map fun k =>
    g.position pt m k (getAt r.coord k (.fin false 0)) (getAt r.off k 0)

/-- The texels of a linear filter at a level: weights and indices. -/
def corners (axes : List Nat) (ps : List (Int × Nat)) : List (Nat × List Int) :=
  (ps.zipIdx).foldr (fun p acc =>
    let x := p.1
    if axes.contains p.2 then
      acc.map (fun a => (a.1 * (256 - x.2), x.1 :: a.2)) ++ acc.map (fun a => (a.1 * x.2, (x.1 + 1) :: a.2))
    else acc.map fun a => (a.1, x.1 :: a.2)) [(1, [])]

/-- The weighted terms of `.lin`: weight, level, indices. -/
def Grid.terms (g : Grid) (r : TexReq) : List (Nat × Nat × List Int) :=
  let lv := g.levels2 r.lam
  let l (m w : Nat) : List (Nat × Nat × List Int) :=
    (corners g.axes (g.at' r false m)).map fun c => (c.1 * w, m, c.2)
  l lv.1 (256 - lv.2) ++ (if g.nlv || g.levels ≤ lv.1 + 1 then [] else l (lv.1 + 1) lv.2)

/-- A channel of `.lin` (R236): the exact weighted sum, rounded once. -/
def blend (dims : Nat) (ts : List (Nat × FVal)) : FVal :=
  let l := (ts.filter fun t => t.1 ≠ 0).map fun t =>
    (FVal.mul t.2 (.fin false (t.1 : Nat))).1
  toF32 (FVal.mul (FVal.sum .rne l).1 (.fin false (pow2 (-(8 * dims + 8 : Nat))))).1

/-- The level and texel of `.pt` and `.sto`. -/
def Grid.single (g : Grid) (sto : Bool) (r : TexReq) : Nat × List Int :=
  let lv := g.levels2 r.lam
  if sto then
    let m := if bitsOf r.draw 24 8 < lv.2 then lv.1 + 1 else lv.1
    (m, ((g.at' r false m).zipIdx).map fun p =>
      if bitsOf r.draw (8 * p.2) 8 < p.1.2 then p.1.1 + 1 else p.1.1)
  else (lv.1, (g.at' r true lv.1).map (·.1))

/-- The channels a filter gives. -/
def State.filtered (s : State) (v : TexEnv) (g : Grid) (f : Filt) (r : TexReq) :
    Except Trap (List FVal × State) :=
  match f with
  | .lin =>
    let ts := g.terms r
    match s.texels v g (ts.map (·.2)) with
    | .error e => .error e
    | .ok (xs, s1) => .ok ((List.range g.chans).map fun c =>
        blend g.axes.length ((ts.zip xs).map fun p => (p.1.1, getAt p.2 c (.fin false 0))), s1)
  | f => let t := g.single (f == .sto) r
    s.texel v g t.1 t.2

/-! ## The weight cache (R243 to R246, R392) -/

def Percept.rowBytes (p : Percept) : Nat := if p.ty == .mx4 then p.ni / 32 * 17 else p.ni

/-- Offset of the biases. -/
def Percept.biasOff (p : Percept) : Nat := roundUp (p.wout * p.rowBytes) 64

/-- Bytes a layer occupies. -/
def Percept.size (p : Percept) : Nat := p.biasOff + roundUp (2 * p.wout) 64

/-- Whether a layer has a key. -/
def Layer.keyed (y : Layer) (core asid : Nat) (tag : Word) (n : Nat) : Bool :=
  y.core == core && y.asid == asid && y.tag == tag && y.idx == n

/-- Bytes of the layers a core holds. -/
def held (core : Nat) (l : List Layer) : Nat :=
  ((l.filter fun y => y.core == core && y.data.isSome).map (·.bytes)).sum

/-- Evicts the least recently used unpinned layer of a core until `need` bytes fit. -/
def evict (core need : Nat) : (fuel : Nat) → List Layer → List Layer
  | 0, l => l
  | k + 1, l =>
    if held core l + need ≤ 262144 then l
    else match l.findIdx? fun y => y.core == core && y.data.isSome && y.pins.isEmpty with
      | none => l
      | some i => evict core need k (l.eraseIdx i)

/-- The bytes of a layer: held ones, or filled from the header's address. A layer used becomes the most
recent. -/
def State.layerBytes (s : State) (v : TexEnv) (core : Nat) (hdr n : Nat) (tag : Word) (p : Percept) :
    Except Trap (List Byte × State) :=
  let asid := s.asid v.t.ctx
  let rest := s.layers.filter fun y => !y.keyed core asid tag n
  let old := s.layers.find? fun y => y.keyed core asid tag n
  let fill (pins : List Nat) : Except Trap (List Byte × State) :=
    if 131072 < p.size then .error (formatTrap 4 hdr 10 (0x20 + 16 * n))
    else match s.texRead v p.addr (p.wout * p.rowBytes) with
      | .error e => .error e
      | .ok (w, s1) => match s1.texRead v (p.addr + p.biasOff) (2 * p.wout) with
        | .error e => .error e
        | .ok (b, s2) =>
          let bs := w ++ List.replicate (p.biasOff - w.length) 0 ++ b
          .ok (bs, { s2 with layers := evict core p.size (rest.length + 1) rest ++
            [⟨core, asid, tag, n, p.size, pins, p.addr, some bs, false⟩] })
  match old with
  | none => fill []
  | some y => match y.data with
    | none => fill y.pins
    | some bs =>
      -- a part of a shape that the held layer does not have is UNDEFINED
      let need := p.biasOff + 2 * p.wout
      let out := if bs.length < need then s.freeBytes (2 ^ 20 + core * 4 + n) need else bs
      .ok (out, { s with layers := rest ++ [y] })

/-! ## The perceptron (R388, R390) -/

/-- An activation of an f32 value. -/
def activate (a : Nat) (x : FVal) : FVal :=
  if x.isNan then .nan false
  else
    let zero : FVal := .fin false 0
    let unit (y : FVal) : FVal :=
      if FVal.le y zero then zero else if FVal.le (.fin false 1) y then .fin false 1 else y
    match a with
    | 1 => if FVal.le x zero then zero else x
    | 2 => if FVal.le zero x then x else fMul x (.fin false (1 / 16))
    | 3 => unit x
    | 4 => unit (toF32 (FVal.sum .rne [(FVal.mul x (.fin false (1 / 4))).1, .fin false (1 / 2)]).1)
    | 5 => if x.neg? then x.negate else x
    | _ => x

/-- Weight i of output o in a layer's bytes, with its block scale. -/
def Percept.weight (p : Percept) (bs : List Byte) (o i : Nat) : FVal × FVal :=
  if p.ty == .mx4 then
    let blk := o * p.rowBytes + i / 32 * 17
    (matValue .mx4 (bitsOf (fieldOf bs (blk + 1 + i % 32 / 2) 1) (4 * (i % 2)) 4), scaleValue (fieldOf bs blk 1))
  else (matValue .e4m3 (fieldOf bs (o * p.rowBytes + i) 1), scaleOne)

/-- One layer on inputs that are f32 values. -/
def Percept.run (p : Percept) (bs : List Byte) (x : List FVal) : List FVal :=
  let q := x.map fun y => Fmt.e4m3.decode false
    (toFloat .e4m3 { rm := .rne, sat := true, fz := false, r8 := 0 } y).1
  (List.range p.wout).map fun o =>
    let bias := (finish .f32 rne (Fmt.f16.decode false (fieldOf bs (p.biasOff + 2 * o) 2))).1
    let ps := (List.range p.ni).map fun i =>
      let w := p.weight bs o i
      scaledProduct (getAt q i (.fin false 0)) w.1 scaleOne w.2
    activate p.act (Fmt.f32.decode false (matSum .f32 32 bias ps (ceilDiv p.ni 32)))

/-- The layers from n on. -/
def State.perceive (s : State) (v : TexEnv) (core hdr : Nat) (tag : Word) : List Percept → (n : Nat) →
    List FVal → Except Trap (List FVal × State)
  | [], _, x => .ok (x, s)
  | p :: r, n, x => match s.layerBytes v core hdr n tag p with
    | .error e => .error e
    | .ok (bs, s1) => s1.perceive v core hdr tag r (n + 1) (p.run bs x)

/-! ## Requests -/

/-- What a sampler request keeps in an outstanding result: coordinates, C, draw, and the differences
within the quad, 32 bits each. -/
def texWords (coord : List Word) (c : Word) (draw : Nat) : List Word :=
  (coord ++ List.replicate (3 - coord.length) 0) ++ [c]
    ++ (List.range 4).map (fun i => BitVec.ofNat 32 (draw / 2 ^ (32 * i))) ++ List.replicate 6 0

def texF (ws : List Word) (i : Nat) : FVal := Fmt.f32.decode false (getAt ws i 0).toNat

/-- Level and request of an outstanding result under a header. -/
def texReqOf (g : Grid) (lod : Lod) (ws : List Word) (ox oy : BitVec 4) : TexReq :=
  { coord := (List.range 3).map (texF ws)
    off := [ox.toInt, oy.toInt, 0]
    lam := g.level lod (texF ws 3) ((List.range 3).map fun k => texF ws (8 + k))
      ((List.range 3).map fun k => texF ws (11 + k))
    draw := (getAt ws 4 0).toNat }

/-- A half of a pair of values in f16 (R238). -/
def halfBits (x : FVal) : Nat := (finish .f16 rne x).1

/-- Values in n registers of type f32 or f16x2 (R238, R242). -/
def packTex (ty : Ty) (n : Nat) (xs : List FVal) : List Word :=
  let z : FVal := .fin false 0
  (List.range n).map fun j =>
    if ty == .f16x2 then
      BitVec.ofNat 32 (halfBits (getAt xs (2 * j) z) + 65536 * halfBits (getAt xs (2 * j + 1) z))
    else BitVec.ofNat 32 (bitsF32 (getAt xs j z))

/-- Whether a held layer of a perceptron has been written in memory since it was filled (R246). -/
def State.staleNet (s : State) (core asid : Nat) (tag : Word) (n : Nat) : Bool :=
  s.layers.any fun y => y.core == core && y.asid == asid && y.tag == tag && decide (y.idx < n) && y.stale
    && y.data.isSome

/-- smpl (R238, R239); `code` holds AUX0 and AUX1 of a decode fault found as the header lands (R232). -/
def State.doSmpl (s : State) (v : TexEnv) (core : Nat) (f : Filt) (x : Smpl) (code : Dword × Dword) (hdr : Nat)
    (ws : List Word) : Except Trap (List Word × State) :=
  match s.texHeader v false hdr with
  | .error e => .error e
  | .ok (g, s1) =>
    let n := x.n.toNat + 1
    if g.latent && x.ncrd ≠ 1 then .error (formatTrap 4 hdr 10 0)
    else if !g.latent && 4 < n then .error { cause := .illegalField, aux0 := code.1, aux1 := code.2 }
    else if !g.latent && x.coords ≠ g.dim then .error (formatTrap 4 hdr 9 4)
    else match s1.filtered v g f (texReqOf g x.lod ws x.ox x.oy) with
      | .error e => .error e
      | .ok (ch, s2) =>
        if g.latent then
          match s2.perceive v core hdr g.tag g.net 0 ch with
          | .error e => .error e
          | .ok (ys, s3) =>
            if s2.staleNet core (s.asid v.t.ctx) g.tag g.net.length then
              .ok ((List.range n).map fun i => s.fresh32 (2 ^ 49 + v.x.l * 16 + i), s3)
            else .ok (packTex x.ty n (ys.map fun y => Fmt.f16.decode false (halfBits y)), s3)
        else .ok (packTex x.ty n ch, s2)

/-- smpg (R240). -/
def State.doSmpg (s : State) (v : TexEnv) (ch : Nat) (x : Smpl) (hdr : Nat) (ws : List Word) :
    Except Trap (List Word × State) :=
  match s.texHeader v false hdr with
  | .error e => .error e
  | .ok (g, s1) =>
    if g.latent then .error (formatTrap 4 hdr 10 0)
    else if x.coords ≠ g.dim || g.dim = 1 then .error (formatTrap 4 hdr 9 4)
    else if g.chans ≤ ch then .error (formatTrap 4 hdr 9 5)
    else
      let r := texReqOf g x.lod ws x.ox x.oy
      let m := r.lam.floor.toNat
      let ps := (g.at' r false m).map (·.1)
      let corner (a b : Int) : Nat × List Int :=
        (m, [getAt ps 0 0 + a, getAt ps 1 0 + (if g.layer = some 1 then 0 else b)] ++ ps.drop 2)
      match s1.texels v g [corner 0 1, corner 1 1, corner 1 0, corner 0 0] with
      | .error e => .error e
      | .ok (xs, s2) => .ok (xs.map fun t => BitVec.ofNat 32 (bitsF32 (getAt t ch (.fin false 0))), s2)

/-- smpq (R241): `ws` holds the level of `.size` first. -/
def State.doSmpq (s : State) (v : TexEnv) (lod : Bool) (ncrd hdr : Nat) (ws : List Word) :
    Except Trap (List Word × State) :=
  match s.texHeader v false hdr with
  | .error e => .error e
  | .ok (g, s1) =>
    if lod then
      if ncrd + 1 ≠ g.dim then .error (formatTrap 4 hdr (if g.latent then 10 else 9) (if g.latent then 0 else 4))
      else
        let r := texReqOf g (.lb .zero) ws 0 0
        .ok ([BitVec.ofNat 32 (bitsF32 (FVal.ofRat r.lam))], s1)
    else
      let m := (getAt ws 0 0).toNat
      let e (k : Nat) : Nat := if g.layer = some k then getAt g.ext k 1 else g.extent m k
      .ok ((if m < g.levels then [e 0, e 1, e 2] else [0, 0, 0]).map (BitVec.ofNat 32)
        ++ [BitVec.ofNat 32 g.levels], s1)

/-- latf (R242). -/
def State.doLatf (s : State) (v : TexEnv) (f : Filt) (x : Smpl) (hdr : Nat) (ws : List Word) :
    Except Trap (List Word × State) :=
  match s.texHeader v true hdr with
  | .error e => .error e
  | .ok (g, s1) => match s1.filtered v g f (texReqOf g x.lod ws x.ox x.oy) with
    | .error e => .error e
    | .ok (ch, s2) => .ok (packTex x.ty (x.n.toNat + 1) ch, s2)

/-- wcpin (R244): pins layers from n on, in order. -/
def State.pinLayers (s : State) (v : TexEnv) (core crew hdr : Nat) (tag : Word) : List Percept → (n : Nat) →
    State × Option Trap
  | [], _ => (s, none)
  | p :: r, n =>
    let asid := s.asid v.t.ctx
    let pinned := (s.layers.filter fun y => y.core == core && !y.pins.isEmpty && !y.keyed core asid tag n).map (·.bytes)
    if 131072 < p.size then (s, some (formatTrap 4 hdr 10 (0x20 + 16 * n)))
    else if 131072 < pinned.sum + p.size then
      (s, some { cause := .resource, unit := 4, addr := BitVec.ofNat 64 hdr, aux0 := 10 })
    else match s.layerBytes v core hdr n tag p with
      | .error e => (s, some e)
      | .ok (_, s1) =>
        let s2 : State := { s1 with
          layers := s1.layers.map fun y =>
            if y.keyed core asid tag n && !y.pins.contains crew then { y with pins := crew :: y.pins } else y }
        s2.pinLayers v core crew hdr tag r (n + 1)

/-- Releases a crew's pins on layers that a test selects; a layer that is only pinned goes. -/
def State.unpin (s : State) (crew : Nat) (f : Layer → Bool) : State :=
  { s with layers := (s.layers.map fun y =>
      if f y then { y with pins := y.pins.filter (· != crew) } else y).filter fun y =>
        y.data.isSome || !y.pins.isEmpty }

/-- wcinv (R245): removes layers of the context from a core's cache; pinned ones keep their pins. -/
def State.invalidateLayers (s : State) (core asid : Nat) (tag : Option Word) : State :=
  { s with layers := (s.layers.map fun y =>
      if y.core == core && y.asid == asid && (tag.isNone || tag == some y.tag) then
        { y with data := none, stale := false } else y).filter fun y =>
          y.data.isSome || !y.pins.isEmpty }

end Sys2Proof.Machine
end

