-- ==== Sys2Proof/Machine/Sampler.lean ====
section
/-! DEFINITION. The sampling, weight-cache, visibility-buffer, hit and random instructions as they issue
(spec/08 R231 to R258); what lands later is in Machine/Land.lean, and the exchange of a quad in
Machine/Settle.lean. -/

namespace Sys2Proof.Machine

/-! ## Requests (R233, R234, R238) -/

/-- A request of lane l: `a` is 1 where exec = 1, `c` is 1 when it waits for no quad, `b` holds the header
address and the reservation of a q destination. -/
def texPend (i : Instr) (slot l : Nat) (d : Opd) (act ready : Bool) (hdr resv : Nat) (ws : List Word) : Pend :=
  { doneResult i slot l d ws 0 with
    done := false
    a := if act then 1 else 0
    b := BitVec.ofNat 128 (hdr + resv * 2 ^ 64)
    c := if ready then 1 else 0 }

/-- The number of the SPL queue a destination names. -/
def splOf : Opd → Option Nat
  | .q n => some n.val
  | _ => none

/-- Reserves n elements of a queue under a new number. -/
def State.reserve (s : State) (k : Crew) (qn n : Nat) : State :=
  let q := k.q qn
  { s.setCrew (k.setQ qn { q with elems := q.elems ++ List.replicate n (s.nextId, none) }) with
    nextId := s.nextId + 1 }

/-- Issues a sampler instruction: header alignment, reservation, draws, then one request for each
issuing thread that takes part. `lb` forms wait for their quads. -/
def Env.sampler (e : Env) (s : State) (i : Instr) (h : Head) (lb sto : Bool) (hdr : Opd) (d : Opd) (n : Nat)
    (ws : Nat → Nat → List Word) : Except Stop State :=
  let m := e.guard h
  let va := (e.usrc s e.p.lanes hdr).toNat
  let mis : Trap := accTrap .misaligned (taskAcc e.t false) (s.asid e.t.ctx) va 0 none 0
  match e.blame ((lanesOf (if va % 64 = 0 then 0 else m)).map fun l => (l, { mis with lane := some l })) with
  | .error y => .error y
  | .ok gone =>
    let act := m &&& ~~~gone
    let q := splOf d
    let res := q.isSome && act != 0
    if res && (e.k.q (q.getD 0)).kind ≠ 3 then e.charge s act (queueTrap 0 (q.getD 0))
    else if res && decide ((e.k.q (q.getD 0)).free < n) then e.hold s (.room (q.getD 0) n)
    else
      let w1 := e.w.endHelpers gone
      let w2 := if lb then w1.each (e.p.lanes &&& ~~~gone) fun _ th => { th with run := .quad } else w1
      let w3 := if sto then w2.advance act else w2
      let draw (l : Nat) : Nat :=
        if sto && act.getLsbD l && !(e.w.th l).helper then (e.draw s l).toNat else 0
      let w4 := (lanesOf (if lb then e.p.lanes &&& ~~~gone else act)).foldl (fun w l =>
        w.push (texPend i e.p.slot l d (act.getLsbD l) (!lb) va s.nextId (ws l (draw l)))) w3
      let s1 := s.setWave w4
      .ok (if res then s1.reserve e.k (q.getD 0) n else s1)

/-- Whether a level is implicit. -/
def lodIsLb : Lod → Bool
  | .lb _ => true
  | _ => false

/-- Coordinates, C and draw of lane l. -/
def Env.texSrc (e : Env) (s : State) (x : Smpl) (n l draw : Nat) : List Word :=
  texWords ((List.range n).map fun k => match x.a with
      | .v r => e.v s l (r.val + k)
      | _ => 0)
    (match x.lod.reg? with
      | some c => BitVec.ofNat 32 (e.src s l false c)
      | none => 0) draw

def execSmpl (f : Filt) (x : Smpl) (s : State) : Host.Outcome State Fault Refusal :=
  onIssue s fun e => e.sampler s (.smpl f x) x.h (lodIsLb x.lod) (f == .sto) x.b x.d (x.n.toNat + 1)
    (e.texSrc s x x.coords)

def execSmpg (ch : Fin 4) (x : Smpl) (s : State) : Host.Outcome State Fault Refusal :=
  onIssue s fun e => e.sampler s (.smpg ch x) x.h (lodIsLb x.lod) false x.b x.d 4 (e.texSrc s x x.coords)

def execSmpq (h : Head) (lod : Bool) (d a b : Opd) (ncrd : BitVec 2) (s : State) :
    Host.Outcome State Fault Refusal :=
  onIssue s fun e => e.sampler s (.smpq h lod d a b ncrd) h lod false b d 4 fun l _ =>
    if lod then texWords ((List.range (ncrd.toNat + 1)).map fun k => match a with
      | .v r => e.v s l (r.val + k)
      | _ => 0) 0 0
    else texWords [BitVec.ofNat 32 (e.src s l false a)] 0 0

def execLatf (f : Filt) (x : Smpl) (s : State) : Host.Outcome State Fault Refusal :=
  onIssue s fun e => e.sampler s (.latf f x) x.h (lodIsLb x.lod) (f == .sto) x.b x.d (x.n.toNat + 1)
    (e.texSrc s x 2)

/-! ## The weight cache (R244, R245) -/

/-- wcpin: a group effect, outstanding until its fills have landed. -/
def execWcpin (h : Head) (unpin : Bool) (a : Opd) (s : State) : Host.Outcome State Fault Refusal :=
  onIssue s fun e =>
    let m := e.guard h
    let va := (e.usrc s e.p.lanes a).toNat
    if m = 0 then .ok s
    else if va % 64 ≠ 0 then
      e.charge s m (accTrap .misaligned (taskAcc e.t false) (s.asid e.t.ctx) va 0 none 0)
    else .ok (s.setWave (e.w.push
      { access (.wcpin h unpin a) e.p.slot (e.leader m) va 0 0 with lanes := e.p.lanes }))

/-- wcinv: a group effect, in its place after the group's earlier accesses. -/
def execWcinv (h : Head) (tag : Option Opd) (s : State) : Host.Outcome State Fault Refusal :=
  onIssue s fun e =>
    let m := e.guard h
    let v := match tag with
      | some o => (e.usrc s e.p.lanes o).toNat % 2 ^ 32
      | none => 0
    if m = 0 then .ok s
    else .ok (s.setWave (e.w.push
      { access (.wcinv h tag) e.p.slot (e.leader m) v 0 0 with lanes := e.p.lanes }))

/-! ## Rays (R247, R249) -/

/-- trace: each thread leaves with its ray. -/
def execTrace (h : Head) (any cull : Bool) (a b : Opd) (disp : BitVec 32) (s : State) :
    Host.Outcome State Fault Refusal :=
  onIssue s fun e =>
    let m := e.guard h
    let root := e.usrc s e.p.lanes b
    let mis : Trap := accTrap .misaligned (taskAcc e.t false) (s.asid e.t.ctx) root.toNat 0 none 0
    let bad := if root.toNat % 128 = 0 then 0 else m
    match e.blame ((lanesOf bad).map fun l => (l, { mis with lane := some l })) with
    | .error y => .error y
    | .ok gone =>
      if gone = 0 then
        e.leave s h disp fun l _ => .trace (e.dispTarget disp) e.p.mode.toNat any cull ((List.range 8).map fun i => match a with
          | .v n => e.v s l (n.val + i)
          | _ => 0) root
      else .ok (s.setWave (e.w.endHelpers gone))

/-- Words of the hit record's field (R249, spec/14 R406). -/
def hitWords (f : HitField) (r : BitVec 512) : List Word :=
  match f with
  | .kind => [(r.extractLsb' 0 8).setWidth 32]
  | .t => [r.extractLsb' 32 32]
  | .bary => [r.extractLsb' 64 32, r.extractLsb' 96 32]
  | .id => [r.extractLsb' 128 32, r.extractLsb' 160 32]
  | .geo => [r.extractLsb' 192 32]

def execHitld (h : Head) (f : HitField) (d : Opd) (s : State) : Host.Outcome State Fault Refusal :=
  onIssue s fun e => .ok (s.setWave (e.w.pushEach (e.guard h) fun l =>
    doneResult (.hitld h f d) e.p.slot l d (hitWords f (e.w.th l).hit) 0))

/-! ## The visibility buffer (R250, spec/14 R393) -/

def execVbld (h : Head) (f : VbField) (d a b : Opd) (sample : BitVec 3) (s : State) :
    Host.Outcome State Fault Refusal :=
  onIssue s fun e => .ok (s.setWave (e.w.pushEach (e.guard h) fun l =>
    access (.vbld h f d a b sample) e.p.slot l (e.src s l true a) (e.usrc s e.p.lanes b).toNat 0))

/-- A visibility-buffer descriptor. -/
structure Vbd where
  width : Nat
  height : Nat
  samp : Nat
  idp : Nat
  dpp : Nat
  mgp : Nat
  deriving DecidableEq, Repr

/-- A descriptor from its bytes, or its first bad byte (R393). -/
def vbdOf (bs : List Byte) : Except Nat Vbd :=
  let w := fieldOf bs 4 2
  let h := fieldOf bs 6 2
  let n := fieldOf bs 8 1
  let plane (o : Nat) : Bool := decide (fieldOf bs o 8 % 64 ≠ 0) || decide (2 ^ 56 ≤ fieldOf bs o 8)
  match firstBad [
      (fieldOf bs 0 4 ≠ 0x56510001, 0),
      (w = 0 || 32768 < w, 4),
      (h = 0 || 32768 < h, 6),
      (n ≠ 1 && n ≠ 2 && n ≠ 4 && n ≠ 8, 8),
      (!allZero (byteRange bs 9 7), badFrom bs 9),
      (plane 0x10, badAddr 64 (fieldOf bs 0x10 8) 0x10),
      (plane 0x18, badAddr 64 (fieldOf bs 0x18 8) 0x18),
      (plane 0x20, badAddr 64 (fieldOf bs 0x20 8) 0x20),
      (!allZero (byteRange bs 0x28 24), badFrom bs 0x28)] with
  | some o => .error o
  | none => .ok ⟨w, h, n, fieldOf bs 0x10 8, fieldOf bs 0x18 8, fieldOf bs 0x20 8⟩

/-- The index of a sample. -/
def Vbd.index (d : Vbd) (x y n : Nat) : Nat := (y * d.width + x) * d.samp + n

/-- What vbld reads: the words of its result. -/
def State.doVbld (s : State) (t : Task) (q : List StoreEnt) (f : VbField) (x y n va : Nat) (src : Option Nat)
    (w : Actor) : Except Stop (List Word × State) :=
  let asid := s.asid t.ctx
  if va % 64 ≠ 0 then .error (.trap (accTrap .misaligned (taskAcc t false) asid va 0 none 0))
  else if 2 ^ 56 ≤ va then .error (.trap (accTrap .protection (taskAcc t false) asid va 0 none 0))
  else match s.load t q (.glob va) 64 none src w with
    | .error e => .error e
    | .ok (bs, s1) => match vbdOf bs with
      | .error o => .error (.trap (formatTrap 0 va 15 o))
      | .ok d =>
        if d.width ≤ x || d.height ≤ y || d.samp ≤ n then
          .error (.trap (accTrap .bounds (taskAcc t false) asid va 0 none 0))
        else
          let i := d.index x y n
          let (at', z) := match f with
            | .id => (d.idp + 8 * i, 8)
            | .dep => (d.dpp + 4 * i, 4)
            | .qm => (d.mgp + i, 1)
          if 2 ^ 56 ≤ at' then .error (.trap (accTrap .protection (taskAcc t false) asid at' 0 none 0))
          else match s1.load t q (.glob at') z none src w with
            | .error e => .error e
            | .ok (v, s2) => .ok (wordsOf (f == .id) (leNat v), s2)

/-! ## Sprout (R251 to R257) -/

/-- A 128-bit source of lane l (R232, R255). -/
def Env.src128 (e : Env) (s : State) (l : Nat) : Opd → BitVec 128
  | .v n => of4 (e.v s l n.val) (e.v s l (n.val + 1)) (e.v s l (n.val + 2)) (e.v s l (n.val + 3))
  | .s n => e.s1 s l (n.val + 1) ++ e.s1 s l n.val
  | _ => 0

/-- Values in consecutive v registers of the threads of a mask. -/
def Wave.putRow (w : Wave) (m : BitVec 64) (d : Opd) (f : Nat → List Word) : Wave :=
  match d with
  | .v n => w.each m fun l th => (f l).zipIdx.foldl (fun th p => th.setV (n.val + p.2) false p.1.toNat) th
  | _ => w

/-- The n words of a draw (R254). -/
def rngWords (unif : Bool) (d : BitVec 128) (n : Nat) : List Word :=
  (List.range n).map fun i =>
    let x := word128 d i
    if unif then BitVec.ofNat 32 (bitsF32 (.fin false ((x.toNat / 256 : Nat) * pow2 (-24)))) else x

def execRng (h : Head) (unif : Bool) (d : Opd) (n : BitVec 2) (s : State) :
    Host.Outcome State Fault Refusal :=
  onIssue s fun e =>
    let m := e.guard h
    let w := e.w.putRow m d fun l =>
      if (e.w.th l).helper then List.replicate (n.toNat + 1) 0 else rngWords unif (e.draw s l) (n.toNat + 1)
    .ok (s.setWave (w.advance m))

def execRngset (h : Head) (o : RngSet) (a : Opd) (s : State) : Host.Outcome State Fault Refusal :=
  onIssue s fun e => .ok (s.setWave (e.w.each (e.real (e.guard h)) fun l th => match o with
    | .key => { th with rngk := e.src128 s l a }
    | .ctr => { th with rngc := e.src128 s l a }
    | .seed => { th with rngk := sproutKey (BitVec.ofNat 64 (e.src s l true a)) th.tid, rngc := 0 }))

def execRngadv (h : Head) (x : RngAdv) (s : State) : Host.Outcome State Fault Refusal :=
  onIssue s fun e => .ok (s.setWave (e.w.each (e.real (e.guard h)) fun l th =>
    { th with rngc := th.rngc + match x with
        | .imm i => i.setWidth 128
        | .reg a => e.src128 s l a }))

def execRngget (h : Head) (ctr : Bool) (d : Opd) (s : State) : Host.Outcome State Fault Refusal :=
  onIssue s fun e => .ok (s.setWave (e.w.putRow (e.guard h) d fun l =>
    let x := if ctr then (e.w.th l).rngc else (e.w.th l).rngk
    (List.range 4).map (word128 x)))

end Sys2Proof.Machine
end

