-- ==== Sys2Proof/Machine/Ray.lean ====
section
/-! DEFINITION. The traversal engine (spec/14 R402 to R406, spec/08 R248): nodes, leaves, the walk and
its end. -/

namespace Sys2Proof.Machine

/-! ## Geometry -/

/-- A point or direction, exactly. -/
structure Vec3 where
  x : Rat
  y : Rat
  z : Rat

namespace Vec3

def sub (a b : Vec3) : Vec3 := ⟨a.x - b.x, a.y - b.y, a.z - b.z⟩
def add (a b : Vec3) : Vec3 := ⟨a.x + b.x, a.y + b.y, a.z + b.z⟩
def scale (k : Rat) (a : Vec3) : Vec3 := ⟨k * a.x, k * a.y, k * a.z⟩
def dot (a b : Vec3) : Rat := a.x * b.x + a.y * b.y + a.z * b.z
def cross (a b : Vec3) : Vec3 :=
  ⟨a.y * b.z - a.z * b.y, a.z * b.x - a.x * b.z, a.x * b.y - a.y * b.x⟩

end Vec3

def f32At (bs : List Byte) (o : Nat) : FVal := Fmt.f32.decode false (fieldOf bs o 4)

def isFin : FVal → Bool
  | .fin _ _ => true
  | _ => false

/-- f32 rounding in a directed mode. -/
def roundF (rm : Rm) (x : Rat) : FVal :=
  Fmt.f32.decode false (finish .f32 { rm := rm, sat := false, fz := false, r8 := 0 } (FVal.ofRat x)).1

/-! ## Nodes and leaves (R402, R403) -/

/-- A child of a node: whether it is a leaf, its address, and its box per axis. -/
structure Child where
  leaf : Bool
  addr : Nat
  lo : List FVal
  hi : List FVal

/-- Scale exponent of axis k. -/
def nodeExp (bs : List Byte) (k : Nat) : Int := toSigned 8 (fieldOf bs (0x0C + k) 1)

/-- Children of a node from its bytes, or its first bad byte. -/
def nodeOf (bs : List Byte) : Except Nat (List Child) :=
  let n := fieldOf bs 0x0F 1
  let cb := fieldOf bs 0x10 8
  let q (c i : Nat) : Nat := fieldOf bs (0x20 + 6 * c + i) 1
  let axes := List.range 3
  match firstBad (axes.map (fun k => (!isFin (f32At bs (4 * k)), 4 * k))
      ++ axes.map (fun k => (decide (nodeExp bs k < -100) || decide (100 < nodeExp bs k), 0x0C + k))
      ++ [(decide (n = 0) || decide (6 < n), 0x0F), (decide (cb % 128 ≠ 0) || decide (2 ^ 56 ≤ cb), badAddr 128 cb 0x10)]
      ++ (List.range 6).map (fun c => (decide ((if c < n then 1 else 0) < fieldOf bs (0x18 + c) 1), 0x18 + c))
      ++ [(decide (fieldOf bs 0x1E 2 ≠ 0), badFrom bs 0x1E)]
      ++ (List.range n).flatMap (fun c => axes.map fun k => (decide (q c (3 + k) < q c k), 0x20 + 6 * c + k))
      ++ [(!allZero (byteRange bs 0x5C 36), badFrom bs 0x5C)]) with
  | some o => .error o
  | none => .ok ((List.range n).map fun c =>
      let edge (rm : Rm) (k v : Nat) : FVal :=
        roundF rm ((f32At bs (4 * k)).toRat + (v : Rat) * pow2 (nodeExp bs k))
      { leaf := fieldOf bs (0x18 + c) 1 = 1, addr := cb + 128 * fieldOf bs (0x44 + 4 * c) 4
        lo := axes.map fun k => edge .rdn k (q c k)
        hi := axes.map fun k => edge .rup k (q c (3 + k) + 1) })

/-- A triangle of a leaf: vertices, identifier, geometry word. -/
structure Tri where
  p0 : Vec3
  p1 : Vec3
  p2 : Vec3
  id : Nat
  geo : Nat

def leafVertex (bs : List Byte) (i : Nat) : Vec3 :=
  let c (k : Nat) : Rat := (f32At bs (0x20 + 12 * i + 4 * k)).toRat
  ⟨c 0, c 1, c 2⟩

/-- Triangles of a leaf from its bytes, or its first bad byte. -/
def trisOf (bs : List Byte) : Except Nat (List Tri) :=
  let nv := fieldOf bs 0 1
  let nt := fieldOf bs 1 1
  let prim := fieldOf bs 8 8
  let ix (t v : Nat) : Nat := bitsOf (fieldOf bs 0x14 12) (12 * t + 4 * v) 4
  match firstBad ([(decide (nv < 3) || decide (6 < nv), 0), (decide (nt = 0) || decide (8 < nt), 1),
        (decide (fieldOf bs 2 1 ≠ 0), 2), (decide (fieldOf bs 6 2 ≠ 0), badFrom bs 6), (decide (2 ^ 40 ≤ prim), 8)]
      ++ (List.range 24).map (fun j =>
        (if j / 3 < nt then decide (nv ≤ ix (j / 3) (j % 3)) else decide (ix (j / 3) (j % 3) ≠ 0), 0x14 + j / 2))
      ++ (List.range 18).map (fun j => let o := 0x20 + 4 * j
        (if j / 3 < nv then !isFin (f32At bs o) else decide (fieldOf bs o 4 ≠ 0),
          if j / 3 < nv then o else badFrom bs o))
      ++ [(!allZero (byteRange bs 0x68 24), badFrom bs 0x68)]) with
  | some o => .error o
  | none => .ok ((List.range nt).map fun t =>
      { p0 := leafVertex bs (ix t 0), p1 := leafVertex bs (ix t 1), p2 := leafVertex bs (ix t 2),
        id := fieldOf bs 3 3 * 2 ^ 40 + (prim + t) % 2 ^ 40, geo := fieldOf bs 0x10 4 })

/-! ## Boxes and triangles (R404, R405) -/

/-- Component i of a ray. -/
def Ray.f (r : Ray) (i : Nat) : FVal := Fmt.f32.decode false (getAt r.ray i 0).toNat

def maxF (a b : FVal) : FVal := if FVal.lt a b then b else a
def minF (a b : FVal) : FVal := if FVal.lt b a then b else a

/-- An exact slab value, rounded. -/
def slab (rm : Rm) (b : FVal) (o d : Rat) : FVal :=
  match b with
  | .inf n => .inf (n != decide (d < 0))
  | b => roundF rm ((b.toRat - o) / d)

/-- tnear of a box the ray enters under the bound B. -/
def Ray.enters (r : Ray) (bound : FVal) (c : Child) : Option FVal :=
  let step (acc : Option (FVal × FVal)) (k : Nat) : Option (FVal × FVal) :=
    match acc with
    | none => none
    | some (n, f) =>
      let o := (r.f k).toRat
      let d := (r.f (4 + k)).toRat
      let lo := getAt c.lo k (.fin false 0)
      let hi := getAt c.hi k (.fin false 0)
      if d = 0 then (if FVal.le lo (FVal.ofRat o) && FVal.le (FVal.ofRat o) hi then some (n, f) else none)
      else
        let (a, b) := if 0 < d then (lo, hi) else (hi, lo)
        some (maxF n (slab .rdn a o d), minF f (slab .rup b o d))
  match (List.range 3).foldl step (some (r.f 3, bound)) with
  | some (n, f) => if FVal.le n f then some n else none
  | none => none

/-- The bound B: tmax, or the best exact t rounded up. -/
def Ray.bound (r : Ray) : FVal :=
  match r.best with
  | none => r.f 7
  | some b => roundF .rup b.1

/-- A hit of a triangle: exact t, identifier and hit record (R405, R406). -/
def Ray.hits (r : Ray) (x : Tri) : Option (Rat × Nat × BitVec 512) :=
  let o : Vec3 := ⟨(r.f 0).toRat, (r.f 1).toRat, (r.f 2).toRat⟩
  let d : Vec3 := ⟨(r.f 4).toRat, (r.f 5).toRat, (r.f 6).toRat⟩
  let e1 := x.p1.sub x.p0
  let e2 := x.p2.sub x.p0
  let n := e1.cross e2
  let dn := d.dot n
  if dn = 0 || (r.cull && decide (0 < dn)) then none
  else
    let t := (x.p0.sub o).dot n / dn
    let w := (o.add (d.scale t)).sub x.p0
    let nn := n.dot n
    let u := (w.cross e2).dot n / nn
    let v := (e1.cross w).dot n / nn
    if u < 0 || v < 0 || 1 < u + v || !FVal.le (r.f 3) (FVal.ofRat t) || !FVal.le (FVal.ofRat t) (r.f 7) then none
    else
      let b (y : Rat) : Nat := bitsF32 (FVal.ofRat y)
      some (t, x.id, BitVec.ofNat 512 ((if dn < 0 then 1 else 2) + b t * 2 ^ 32 + b u * 2 ^ 64 + b v * 2 ^ 96
        + x.id * 2 ^ 128 + x.geo * 2 ^ 192))

/-- The nearer of two hits; equal t goes to the lower identifier (spec/08 R248). -/
def nearer (a b : Option (Rat × Nat × BitVec 512)) : Option (Rat × Nat × BitVec 512) :=
  match a, b with
  | none, b => b
  | a, none => a
  | some a, some b => some (if b.1 < a.1 || (b.1 = a.1 && decide (b.2.1 < a.2.1)) then b else a)

/-! ## The walk (R404, R406) -/

/-- Children in the order of their visits: ascending tnear, ties to the lower index. -/
def insertNear (p : FVal × Nat) : List (FVal × Nat) → List (FVal × Nat)
  | [] => [p]
  | q :: r => if FVal.lt q.1 p.1 || FVal.eq q.1 p.1 then q :: insertNear p r else p :: q :: r

/-- What a walk comes to. -/
inductive WalkEnd
  | over (r : Ray)
  | fault (t : Trap) (r : Ray)

/-- Walks on from the stack. -/
def State.walkRay (s : State) (t : Task) : (fuel : Nat) → Ray → WalkEnd × State
  | 0, r => (.over r, s)
  | k + 1, r => match r.stack with
    | [] => (.over r, s)
    | e :: rest =>
      let va := e / 128 * 128
      if 2 ^ 20 ≤ r.steps then (.fault (formatTrap 5 va 11 0) r, s)
      else if 2 ^ 56 ≤ va then
        (.fault { accTrap .protection (taskAcc t false) (s.asid t.ctx) va 0 none 0 with unit := 5 } r, s)
      else match s.gReadAll (taskAcc t false) (some t) 5 va 128 with
        | .error x => (.fault x r, s)
        | .ok (bs0, s1) =>
          let bs := s.fetched t [] r.since (fun _ _ _ _ => false) va bs0
          let r1 := { r with stack := rest, steps := r.steps + 1 }
          if e % 128 = 1 then match trisOf bs with
            | .error o => (.fault (formatTrap 5 va 11 o) r, s1)
            | .ok ts =>
              let hit := (ts.map r.hits).foldl nearer none
              if r.any && hit.isSome then (.over { r1 with stack := [], best := hit }, s1)
              else s1.walkRay t k { r1 with best := nearer r.best hit }
          else match nodeOf bs with
            | .error o => (.fault (formatTrap 5 va 11 o) r, s1)
            | .ok cs =>
              let es := cs.filterMap fun c => match r.enters r.bound c with
                | some n => some (n, c.addr + if c.leaf then 1 else 0)
                | none => none
              let st := ((es.foldl (fun l p => insertNear p l) []).map (·.2)) ++ rest
              if 128 < st.length then (.fault (formatTrap 5 va 11 0) r, s1)
              else s1.walkRay t k { r1 with stack := st }

/-- A miss (R249, R406). -/
def Ray.missRecord (r : Ray) : BitVec 512 := ((getAt r.ray 7 0).setWidth 512) <<< 32

/-- Whether a ray misses at once (spec/08 R248). -/
def Ray.missesAtOnce (r : Ray) : Bool :=
  (List.range 8).any (fun i => (r.f i).isNan) || FVal.lt (r.f 7) (r.f 3)

/-- A ray whose exact line the rules do not give: an infinite origin or direction. -/
def Ray.unbounded (r : Ray) : Bool := [0, 1, 2, 4, 5, 6].any fun i => !isFin (r.f i)

/-- The ray's record enters its bin with the hit record attached. -/
def State.finishRay (s : State) (c n : Nat) (r : Ray) (hit : BitVec 512) : State :=
  let k := s.cluster c
  s.setCluster c { k with
    rays := k.rays.eraseIdx n
    pool := k.pool ++ [{ r.record with hit := hit, born := s.tick }] }

/-- A ray of a cluster walks until it ends, faults or parks on an absent page. -/
def execRayWalkEnd (cluster n : Nat) (s : State) : Host.Outcome State Fault Refusal :=
  match (s.cluster cluster).rays[n]? with
  | none => .fault .notEnabled
  | some r => match s.task? r.record.task with
    | none => .fault .notEnabled
    | some t =>
      if r.parked.isSome || t.phase != .run then .fault .notEnabled
      else if r.missesAtOnce then .next (s.finishRay cluster n r r.missRecord)
      else if r.unbounded then
        .next (s.finishRay cluster n r ((List.range 8).foldl (fun (a : BitVec 512) i =>
          (a <<< (64 : Nat)) ||| ((s.fresh (2 ^ 30 + i)).setWidth 512)) 0))
      else match s.walkRay t (2 ^ 20 + 1) r with
        | (.over r1, s1) => .next (match r1.best with
          | some b => (s1.stat t.id 5 (if r.any then 1 else 0)).finishRay cluster n r1 b.2.2
          | none => s1.finishRay cluster n r1 r1.missRecord)
        | (.fault e r1, s1) =>
          let e1 := { e.atUnit 5 with xtra := r.record.tid }
          if e.cause == .pageNotPresent then
            let k := s1.cluster cluster
            let s2 := s1.setCluster cluster { k with
              rays := k.rays.set n { r1 with parked := some e.page } }
            .next (s2.postResolve t.ctx ⟨1, t.att, t.name, agentSrc 0 0, r.record.resume, e1⟩)
          else .next (s1.endAttempt t.id e1 (agentSrc 0 0) r.record.resume)

end Sys2Proof.Machine
end

