-- ==== Sys2Proof/Machine/Sched.lean ====
section
/-! DEFINITION. Tasks (spec/12 R333 to R357): kernel headers and task records and their checks,
submission and decrements, placement and launch, copy-in, retire, and regroup pools. -/

namespace Sys2Proof.Machine

/-! ## Kernel headers (spec/01 R35, R36) -/

/-- A kernel header from its 128 bytes, or its first bad byte. -/
def headerOf (va : Nat) (bs : List Byte) : Except Nat Header :=
  let f := fieldOf bs
  let flags := f 0x1A 2
  let q := (List.range 16).map fun i => bitsOf (f 0x20 8) (4 * i) 4
  let mat := bitOf flags 1
  match firstBad [
      (f 0 4 ≠ 0x4B510001, 0),
      (f 8 4 * 5 ≤ f 4 4, 4),
      (f 8 4 = 0 || 0x1000000 < f 8 4, 8),
      (2 < f 0x0C 1, 0x0C),
      (f 0x0D 1 = 0 || 32 < f 0x0D 1, 0x0D),
      (8 < f 0x0E 1, 0x0E),
      (56 < f 0x0F 1, 0x0F),
      (1024 < f 0x10 2, 0x10),
      (1024 < f 0x12 2, 0x12),
      (32 < f 0x14 1, 0x14),
      (8 < f 0x15 1, 0x15),
      (64 < f 0x16 1 || 8 * f 0x0D 1 < f 0x16 1, 0x16),
      (f 0x17 1 = 0 || 16 < f 0x17 1, 0x17),
      (64 < f 0x18 1, 0x18),
      (3 < f 0x19 1, 0x19),
      (15 < flags, if 0 < bitsOf flags 4 4 then 0x1A else 0x1B),
      (f 0x1C 4 ≠ 0, badFrom bs 0x1C),
      (q.any (5 < ·) || (q.contains 2 && !mat && f 0x12 2 = 0) || (q.contains 3 && !bitOf flags 0), 0x20),
      (!allZero (byteRange bs 0x28 88), badFrom bs 0x28)] with
  | some o => .error o
  | none => .ok
      { va := va, entry := f 4 4, lines := f 8 4, width := 16 * 2 ^ f 0x0C 1, vregs := 8 * f 0x0D 1,
        swp := 8 * f 0x0E 1, scr := 8 * f 0x0F 1, spad := f 0x10 2, trows := f 0x12 2, nbar := f 0x14 1,
        niter := f 0x15 1, live := f 0x16 1, waves := f 0x17 1, fair := f 0x18 1, cls := f 0x19 1,
        smp := bitOf flags 0, mat := mat, hlp := bitOf flags 2, prv := bitOf flags 3, qkind := q }

/-! ## Room on a core (spec/01 R14 to R17, R491, spec/07 R197) -/

/-- Threads and registers taken in each lane of a core. -/
def State.laneUse (s : State) (core : Nat) : List (Nat × Nat) :=
  let ws := s.waves.filter fun w => w.core == core
  (List.range 64).map fun l => ws.foldl (fun a w =>
    if w.laneSet * w.width ≤ l && l < (w.laneSet + 1) * w.width then
      let v := match s.crew? w.crew with
        | some k => k.hdr.vregs
        | none => 0
      (a.1 + 1, a.2 + v) else a) (0, 0)

/-- The lane set whose most occupied lane holds the fewest threads (R15). -/
def pickSet (w : Nat) (lanes : List (Nat × Nat)) : Nat :=
  let most (i : Nat) : Nat := (((lanes.drop (i * w)).take w).map (·.1)).foldl max 0
  ((List.range (64 / w)).foldl (fun (b : Nat × Nat) i => if most i < b.2 then (i, most i) else b)
    (0, most 0)).1

/-- Lane sets for n waves; none where a lane overflows. -/
def pickSets (w v : Nat) : (n : Nat) → List (Nat × Nat) → Option (List Nat)
  | 0, _ => some []
  | n + 1, lanes =>
    let i := pickSet w lanes
    let l1 := lanes.mapIdx fun l a => if i * w ≤ l && l < (i + 1) * w then (a.1 + 1, a.2 + v) else a
    if l1.any fun a => 32 < a.1 || 1024 < a.2 then none
    else match pickSets w v n l1 with
      | none => none
      | some r => some (i :: r)

/-- The lowest offset at which `len` bytes are free among ranges (R491). -/
def lowestFree (total len : Nat) (used : List (Nat × Nat)) : Option Nat :=
  let free (b : Nat) : Bool := decide (b + len ≤ total) &&
    used.all fun u => decide (u.1 + u.2 ≤ b) || decide (b + len ≤ u.1) || u.2 == 0
  if len = 0 then some 0
  else ((0 :: used.map fun u => u.1 + u.2).filter free).foldl (fun m b => match m with
    | none => some b
    | some x => some (min x b)) none

/-- Where a crew's windows and waves go on a core; none where it does not fit. A crew that has exited and awaits its
copy-out keeps its windows, but counts neither toward the crews nor toward the uniform registers of the core (R17,
notes/assumptions/20). -/
def State.fit (s : State) (core : Nat) (h : Header) (waves : Nat) : Option (Nat × Nat × List Nat) :=
  let ks := s.crews.filter fun k => k.core == core
  let live := ks.filter fun k => !k.done
  let uni (h : Header) (n : Nat) : Nat := h.swp * n + h.scr
  let used := (live.map fun k => uni k.hdr (if k.cont then 1 else k.hdr.waves)).sum
  if 16 ≤ live.length || 8192 < used + uni h waves || (h.mat && live.any fun k => k.hdr.mat) then none
  else match lowestFree 262144 (256 * h.spad) (ks.map fun k => (k.spadBase, k.window)),
      lowestFree 1048576 (1024 * h.trows) (ks.map fun k => (k.tileBase, k.tileLen)),
      pickSets h.width h.vregs waves (s.laneUse core) with
    | some a, some b, some c =>
      if 128 < (s.waves.filter fun w => w.core == core).length + waves then none else some (a, b, c)
    | _, _, _ => none

/-- Eligible cores of a cluster (R36): T-class are cores 0 and 1. -/
def classOk (h : Header) (mask core : Nat) : Bool :=
  let m := h.cls &&& mask
  if core % 8 < 2 then bitOf m 1 else bitOf m 0

/-! ## Launch (spec/01 R30, R33; spec/12 R335, R356; spec/14 R401) -/

/-- A thread as it starts. -/
def Thread.launch (h : Header) (tick entry : Nat) (seed : Dword) (tid : Word) (helper ended : Bool) : Thread :=
  { Thread.absent with
    run := if ended then .ended else .ready
    pc := entry
    entry := true
    v := List.replicate h.vregs 0
    rngk := sproutKey seed tid
    tid := tid
    helper := helper
    since := tick }

/-- The lowest free wave slot of a core (R16). -/
def State.freeSlot (s : State) (core : Nat) : Nat :=
  ((List.range 128).find? fun n => (s.waveAt? core n).isNone).getD 0

/-- A wave with threads given. -/
def Wave.launch (id crew core wslot set idx : Nat) (h : Header) (mode : Dword) (ths : List Thread) : Wave :=
  { id := id, crew := crew, core := core, wslot := wslot, laneSet := set, idx := idx, width := h.width,
    threads := ths, k := List.replicate 15 0, sp := List.replicate h.swp 0,
    iters := List.replicate h.niter 0, mode := mode, fflags := 0, fair := 0, out := [], halted := false,
    pendFault := none, brkPass := none, brkCode := none, stepping := false }

/-- A crew as it starts: its leading shared registers hold the argument words. -/
def Crew.launch (id task core idx : Nat) (cont : Bool) (h : Header) (args : List Dword) (spad tile : Nat) : Crew :=
  { id := id, task := task, core := core, idx := idx, cont := cont, hdr := h,
    ss := (args ++ List.replicate 448 0).take h.scr, prev := [], qs := List.replicate 16 .unbound,
    bars := List.replicate h.nbar .idle, mfmt := 0, spadBase := spad, tileBase := tile, cmds := [],
    eseq := 0, dirty := [], fence := [], wset := [], syncs := [], stuck := false, done := false }

/-- The WAVE record of a launch (spec/13 R370). -/
def State.waveRecord (s : State) (t : Task) (w : Wave) (crewIdx : Nat) (cont move : Bool) (tids : List Word) :
    LogOp :=
  { kind := 9, src := srcOf w.core w.wslot 0 + t.queue * 2 ^ 22 + 2 ^ 31
    home := homeOf (s.asid t.ctx) t.record, addr := t.name.toNat
    value := w.idx + crewIdx * 16 + (if cont then 128 else 0) + (if move then 256 else 0) + t.att * 2 ^ 16
      + (tids.length - 1) * 2 ^ 24
    ext := tids.flatMap fun x => leBytes 4 x.toNat }

/-- A tagged range of the log and gate for a record an agent makes (R366, R376). -/
def State.agentLog (s : State) (c : Nat) (o : LogOp) : Except Stop State :=
  match s.logGate c o o.extn (fun bs => fieldOf bs 0 1 == o.kind && fieldOf bs 16 8 == o.addr) with
  | .stop x => .error x
  | .go g => s.logDone c o g

/-- The slot and core a replay names for a wave (R378): those of its next WAVE record. -/
def State.replayPlace (s : State) (t : Task) (idx crewIdx : Nat) (cont : Bool) : Option (Nat × Nat) :=
  match s.nextRec t.ctx (fun bs => fieldOf bs 0 1 == 9 && fieldOf bs 16 8 == t.name.toNat
      && !bitOf (fieldOf bs 24 8) 8) with
  | some (_, some bs) =>
    let v := fieldOf bs 24 8
    if v % 16 = idx && bitsOf v 4 3 = crewIdx && bitOf v 7 == cont then
      match s.mapSrc t.ctx (fieldOf bs 4 4 % 2 ^ 16) with
      | some src => some (src % 8 * 64 + src / 8 % 8 * 8 + src / 64 % 8, src / 2 ^ 9 % 128)
      | none => none
    else none
  | _ => none

/-- Helper flags and ended quads of a wave from the visibility buffer (R401): pixel identifiers by
lane; an empty list where the kernel takes none. -/
def State.launchIds (s : State) (t : Task) (first : Nat) : Except Trap (List Bool × State) :=
  let a0 := (getAt t.args 0 0).toNat
  let a1 := (getAt t.args 1 0).toNat
  if !t.hdr.hlp then .ok ([], s)
  else if a0 % 64 ≠ 0 then .error { accTrap .misaligned (schedAcc t.ctx) (s.asid t.ctx) a0 0 none 0 with unit := 9 }
  else match s.gReadAll { schedAcc t.ctx with prv := t.prv } (some t) 9 a0 64 with
    | .error e => .error e
    | .ok (bs, s1) => match vbdOf bs with
      | .error o => .error (formatTrap 9 a0 15 o)
      | .ok d =>
        let qw := bitsOf a1 48 16
        match firstBad [(bitOf a1 0, 0x48), (bitOf a1 16, 0x4A), (d.samp ≤ bitsOf a1 32 3, 0x4C),
            (bitsOf a1 35 5 ≠ 0, 0x4C), (bitsOf a1 40 8 ≠ 0, 0x4D), (qw = 0, 0x4E)] with
        | some o => .error (formatTrap 9 t.record 2 o)
        | none =>
          let rec go : (n : Nat) → State → Except Trap (List Bool × State)
            | 0, s => .ok ([], s)
            | n + 1, s => match go n s with
              | .error e => .error e
              | .ok (l, s2) =>
                let tid := first + n
                let q := tid / 4
                let x := bitsOf a1 0 16 + 2 * (q % qw) + tid % 2
                let y := bitsOf a1 16 16 + 2 * (q / qw) + tid / 2 % 2
                if d.width ≤ x || d.height ≤ y then .ok (l ++ [true], s2)
                else match s2.gReadAll { schedAcc t.ctx with prv := t.prv, write := false } (some t) 9
                    (d.idp + 8 * d.index x y (bitsOf a1 32 3)) 8 with
                  | .error e => .error e
                  | .ok (v, s3) => .ok (l ++ [leNat v == 2 ^ 64 - 1], s3)
          go t.hdr.width s1

/-- Launches the waves of a crew in ascending order on lane sets given. -/
def State.launchWaves (s : State) (t : Task) (k : Crew) : List Nat → (idx : Nat) → Except Stop State
  | [], _ => .ok s
  | set :: r, i =>
    let w := t.hdr.width
    let first := (k.idx * t.hdr.waves + i) * w
    match orTrap (s.launchIds t first) with
    | .error e => .error e
    | .ok (hs, s1) =>
      let slot := if s.replaying t.ctx then match s.replayPlace t i k.idx false with
          | some p => if p.1 = k.core then some p.2 else none
          | none => none
        else some (s1.freeSlot k.core)
      match slot with
      | none => .error .park
      | some wslot =>
        let ths := (List.range w).map fun l =>
          let quad := (List.range 4).all fun j => getAt hs (l / 4 * 4 + j) false
          Thread.launch t.hdr s.tick t.hdr.entry t.seed (BitVec.ofNat 32 (first + l)) (getAt hs l false)
            (!hs.isEmpty && quad)
        let wv := { (Wave.launch s1.nextId k.id k.core wslot set i t.hdr 1 ths).startAt s1.moment fun _ => t.view with
          halted := (s1.ctx t.ctx).haltAll || (s1.ctx t.ctx).divergent }
        match s1.agentLog t.ctx (s1.waveRecord t wv k.idx false false []) with
        | .error e => .error e
        | .ok s2 =>
          let s3 := s2.traceEvent (dieOf k.core) 1 t.ctx (srcOf k.core wslot 0) t.name.toNat 0
          ({ s3 with waves := s3.waves ++ [wv], nextId := s3.nextId + 1 }).launchWaves t k r (i + 1)

/-- Bitmap words that an input names (R345, R346). -/
def OpEntry.words (o : OpEntry) : List Nat :=
  match o.bmap with
  | none => []
  | some b => (List.range ((o.bit0 + ceilDiv o.len 512 - 1) / 64 - o.bit0 / 64 + 1)).map fun i =>
      b + 8 * (o.bit0 / 64 + i)

/-- Reserves a crew's room on a core; its bitmap words are zeroed (R346 steps 1 and 2). -/
def State.addCrew (s : State) (t : Task) (core idx : Nat) (cont : Bool) (waves : Nat) :
    Option (State × Crew × List Nat) :=
  match s.fit core t.hdr waves with
  | none => none
  | some (a, b, sets) =>
    let k := Crew.launch s.nextId t.id core idx cont t.hdr t.args a b
    -- R323: what the window and rows held is UNDEFINED to the new crew
    let c := s.core core
    let c1 := { c with
      spad := c.spad.forget a k.window
      tile := c.tile.forget b k.tileLen
      wbuf := if t.hdr.mat then .empty else c.wbuf
      images := if t.hdr.mat then [] else c.images }
    let s1 := { (s.setCore core c1).forgetOrder (.spad core) a k.window with
      crews := s.crews ++ [k]
      nextId := s.nextId + 1 }
    let ws := if cont then [] else
      (t.ops.filter fun o => !o.out && bitOf o.crews idx).flatMap (·.words)
    some (ws.foldl (fun s o => s.putAt (.spad core) (a + o) (List.replicate 8 0)) s1, k, sets)

/-- Crews idx, idx + 1, … on cores given, in order. -/
def State.addCrews (s : State) (t : Task) : List Nat → (idx : Nat) → Option (State × List (Crew × List Nat))
  | [], _ => some (s, [])
  | c :: r, i => match s.addCrew t c i false t.hdr.waves with
    | none => none
    | some (s1, k, sets) => match s1.addCrews t r (i + 1) with
      | none => none
      | some (s2, ks) => some (s2, (k, sets) :: ks)

/-- Whether a cluster may take the task: a replay keeps other contexts off its clusters (spec/13 R375,
R378). -/
def State.clusterOpen (s : State) (t : Task) (clu : Nat) : Bool :=
  (List.range 64).all fun c => c == t.ctx || !(s.replaying c && s.flag (.cxsched c) 0
    && (s.ctx c).remap.contains (some clu))

/-- Core lists that R342 tries in a cluster, in order. -/
def State.coreChoices (s : State) (t : Task) (clu : Nat) : List (List Nat) :=
  let ok := (List.range 8).map (clu * 8 + ·) |>.filter fun c => classOk t.hdr t.cmask c
  if !s.clusterOpen t clu then []
  else if bitOf t.flags 1 then
    let free := ok.filter fun c => (s.fit c t.hdr t.hdr.waves).isSome
    if free.length < t.ncrew then [] else [free.take t.ncrew]
  else ok.map fun c => List.replicate t.ncrew c

/-- The clusters a die offers; in replay the one its next WAVE record names. -/
def State.clusterChoices (s : State) (t : Task) (die : Nat) : List Nat :=
  if s.replaying t.ctx then match s.replayPlace t 0 0 false with
    | some p => [p.1 / 8]
    | none => []
  else (List.range 8).map (die * 8 + ·)

/-- Placement by R342 without launch: the state with the room reserved, and the crews. -/
def State.reservation (s : State) (t : Task) (die : Nat) : Option (State × List (Crew × List Nat)) :=
  ((s.clusterChoices t die).flatMap (s.coreChoices t)).findSome? fun cs => s.addCrews t cs 0

/-- A task's record of placement and launch. -/
def Task.placedAt (t : Task) (tick : Nat) (cores : List Nat) : Task :=
  let c := cores.headD 0
  { t with phase := .run, place := some (dieOf c, c / 8 % 8), cores := cores, tDisp := tick, tCin := tick,
           tOpw := tick, tExit := 0, tCout := 0, att := t.att + 1, succPos := 0,
           stats := List.replicate 8 0, version := .empty, vspilled := [] }

/-- Whether the log has room for the launch of all waves. -/
def State.launchRoom (s : State) (t : Task) : Bool :=
  !s.logging t.ctx || decide (s.flOccupancy t.ctx + t.ncrew * t.hdr.waves ≤ s.flSize t.ctx)

/-- Launches every crew reserved. -/
def State.launchCrews (s : State) (t : Task) : List (Crew × List Nat) → Except Stop State
  | [] => .ok s
  | p :: r => match s.launchWaves t p.1 p.2 0 with
    | .error e => .error e
    | .ok s1 => s1.launchCrews t r

/-- Slices begin anew when a context is placed (R358). -/
def State.startSlice (s : State) (c : Nat) : State :=
  s.setCtx c { s.ctx c with sliceStart := s.tick }

/-- Places a Ready task (R342, R346): none where it cannot be placed now. -/
def State.place (s : State) (t : Task) : Option State :=
  if !s.launchRoom t then none
  else match s.reservation t t.die with
  | none => none
  | some (s1, ks) =>
    let cores := ks.map fun p => p.1.core
    let t1 := t.placedAt s.tick cores
    let s2 := (s1.setTask t1).startSlice t.ctx
    let clu := cores.headD 0 / 8
    let s3 := if (s2.cluster clu).gated then
        (s2.setCluster clu { s2.cluster clu with gated := false }).traceEvent (clu / 8) 10 t.ctx clu 0 0
      else s2
    match s3.launchCrews t1 ks with
    | .ok s4 =>
      let s5 := s4.setDie t.die { s4.die t.die with lastCtx := t.ctx }
      some ((s5.schedWrite t1 (t.record + 0x24) [3]).schedWrite t1 (t.record + 0x26) (leBytes 1 t1.att))
    | .error .park => none
    | .error (.diverge i d a) => some (s.diverge t.ctx i d a)
    | .error (.trap e) =>
      if e.cause == .pageNotPresent then
        if (s.ctx t.ctx).resolves.any fun x => x.page == e.page then none
        else some (s.postResolve t.ctx ⟨1, t.att, t.name, agentSrc 0 t.queue, 0, e⟩)
      else some (((s.setTask t1).schedWrite t1 (t.record + 0x26) (leBytes 1 t1.att)).endAttempt t.id e
        (agentSrc 0 t.queue) 0)

/-! ## Candidates (R341) -/

/-- Ascending place in the pool. -/
def insertTask (x : Task) : List Task → List Task
  | [] => [x]
  | y :: r => if x.order ≤ y.order then x :: y :: r else y :: insertTask x r

/-- Ready tasks of a context in a die's pool, in order. -/
def State.readyOf (s : State) (die c : Nat) : List Task :=
  (s.tasks.filter fun t => t.phase == .ready && t.die == die && t.ctx == c).foldr insertTask []

/-- Contexts in the order of R341: descending PRIO, then round-robin after the one served last. -/
def State.ctxOrder (s : State) (die : Nat) : List Nat :=
  let last := (s.die die).lastCtx
  let rr := (List.range 64).map fun i => (last + 1 + i) % 64
  let ok := rr.filter fun c => s.flag (.cxsched c) 0 && !(s.ctx c).preempt
  (List.range 8).flatMap fun p => ok.filter fun c => s.field (.cxsched c) 2 3 == 7 - p

/-- Whether the oldest Ready task bars younger ones (R341 step 3): for 65,536 clocks it could not be
placed. -/
def State.bars (s : State) (t : Task) : Bool := decide (t.readySince + 65536 ≤ s.tick)

/-- The first task of a list that can be placed now. -/
def State.firstPlaced (s : State) : List Task → Option (Task × State)
  | [] => none
  | t :: r => match s.place t with
    | some s1 => some (t, s1)
    | none => if s.bars t then none else s.firstPlaced r

/-- The die's next placement. -/
def State.candidate (s : State) (die : Nat) : Option (Task × State) :=
  (s.ctxOrder die).findSome? fun c => s.firstPlaced (s.readyOf die c)

/-- TASK_PLACE: the scheduler of the task's die places it when it is the next candidate. -/
def execTaskPlace (task : Nat) (s : State) : Host.Outcome State Fault Refusal :=
  match s.task? task with
  | none => .fault .notEnabled
  | some t =>
    if t.phase != .ready then .fault .notEnabled
    else match s.candidate t.die with
      | some (x, s1) => if x.id = task then .next s1 else .fault .notEnabled
      | none => .fault .notEnabled

/-- The oldest Ready task of a context has waited 65,536 clocks: no younger task of the context is
placed on a core that is eligible for it until it is (R341). -/
def execPlacementAgeLimit (task : Nat) (s : State) : Host.Outcome State Fault Refusal :=
  match s.task? task with
  | none => .fault .notEnabled
  | some t =>
    if t.phase != .ready || !s.bars t || (s.readyOf t.die t.ctx).head?.map (·.id) != some task then
      .fault .notEnabled
    else .next s

/-- The balancer moves a task that waited BALWIN clocks to a die with room (R343). -/
def execBalancerMove (task die : Nat) (s : State) : Host.Outcome State Fault Refusal :=
  match s.task? task with
  | none => .fault .notEnabled
  | some t =>
    if t.phase != .ready || 8 ≤ die || die = t.die || !s.flag .balctl 16 || s.replaying t.ctx
        || s.tick < t.readySince + s.field .balctl 0 16 || (s.reservation t die).isNone then .fault .notEnabled
    else .next (s.setTask { t with die := die })

/-! ## Submission (R334, R338) -/

/-- A place at the end of a pool's order. -/
def State.lastOrder (s : State) (c : Nat) : Nat :=
  ((s.tasks.filter fun t => t.ctx == c).map (·.order)).foldl max 0 + 1

/-- The DISP record of a submission or decrement (spec/13 R370). -/
def State.dispRecord (s : State) (c queue va npred st : Nat) (dec : Bool) : LogOp :=
  let home := homeOf (s.asid c) va
  { kind := 8, src := agentSrc home queue, home := home, addr := va
    value := npred + st * 2 ^ 32 + (if dec then 2 ^ 40 else 0) }

/-- A header that no core can hold (R17, R36, R334). -/
def Header.unplaceable (h : Header) (flags ncrew cmask : Nat) : Bool :=
  let m := h.cls &&& cmask
  let n := (if bitOf m 0 then 6 else 0) + (if bitOf m 1 then 2 else 0)
  let per := if bitOf flags 1 then 1 else ncrew
  let perSet := ceilDiv (per * h.waves) (64 / h.width)
  n = 0 || (bitOf flags 1 && decide (n < ncrew)) || decide (32 < perSet) || decide (1024 < perSet * h.vregs)
    || decide (8192 < per * (h.swp * h.waves + h.scr)) || decide (262144 < per * h.spad * 256)
    || decide (1024 < per * h.trows) || (h.mat && !bitOf flags 1 && decide (1 < ncrew))

/-- An operand entry (R344), or its first bad byte. -/
def opEntryOf (h : Header) (ncrew : Nat) (bs : List Byte) : Except Nat OpEntry :=
  let f := fieldOf bs
  let out := f 0 1 == 1
  let tile := f 1 1 == 1
  let len := f 0x10 4
  let bmap := f 0x14 4
  let room := if tile then h.trows * 1024 else h.spad * 256
  let bits := f 0x18 2 + ceilDiv len 512
  match firstBad [
      (1 < f 0 1, 0),
      (1 < f 1 1, 1),
      (f 2 1 = 0 || 2 ^ ncrew ≤ f 2 1 || (out && popcNat 8 (f 2 1) ≠ 1), 2),
      (f 3 1 ≠ 0, 3),
      (f 4 4 % 64 ≠ 0 || room < f 4 4 + len, 4),
      (f 8 8 % 64 ≠ 0, 8),
      (len % 64 ≠ 0 || len = 0 || 1048576 < len, 0x10),
      (bmap ≠ 0xFFFFFFFF && (out || bmap % 8 ≠ 0 || h.spad * 256 < bmap + 8 * ceilDiv bits 64), 0x14),
      (f 0x1A 4 ≠ 0 || f 0x1E 2 ≠ 0, badFrom bs 0x1A)] with
  | some o => .error o
  | none => .ok { out := out, tile := tile, crews := f 2 1, loff := f 4 4, gaddr := f 8 8, len := len,
                  bmap := if bmap = 0xFFFFFFFF then none else some bmap, bit0 := f 0x18 2, done := [], part := [], wait := none }

/-- The operand table. -/
def opEntriesOf (h : Header) (ncrew va : Nat) (bs : List Byte) : (n : Nat) → Except Trap (List OpEntry)
  | 0 => .ok []
  | n + 1 => match opEntriesOf h ncrew va bs n with
    | .error e => .error e
    | .ok l => match opEntryOf h ncrew (byteRange bs (32 * n) 32) with
      | .error o => .error (formatTrap 9 (va + 32 * n) 4 o)
      | .ok x => .ok (l ++ [x])

/-- The first bad byte of a task record (R334 steps 2 and 3). -/
def recordBad (bs : List Byte) : Option Nat :=
  let f := fieldOf bs
  let flags := f 4 2
  firstBad [
    (f 0x24 1 ≠ 0, 0x24),
    (f 0x26 1 ≠ 0, 0x26),
    (f 0 4 ≠ 0x54510001, 0),
    (8 ≤ flags, if 0 < bitsOf flags 3 5 then 4 else 5),
    (f 6 1 = 0 || 8 < f 6 1, 6),
    (4 ≤ f 7 1, 7),
    (f 0x10 8 % 64 ≠ 0, 0x10),
    (16 ≤ f 0x25 1 || (bitOf flags 2 == decide (f 0x25 1 = 0)), 0x25),
    (16 < f 0x27 1, 0x27),
    (f 0x28 8 % 8 ≠ 0, 0x28),
    (f 0x30 8 % 32 ≠ 0 || (f 0x27 1 = 0 && f 0x30 8 ≠ 0), 0x30),
    (f 0x38 8 % 64 ≠ 0, 0x38)]

/-- The checks of steps 4 and 5: header and operand table. -/
def State.recordParts (s : State) (c : Nat) (prv : Bool) (bs : List Byte) :
    Except Trap (Header × List OpEntry × State) :=
  let f := fieldOf bs
  let a : Acc := { ctx := c, prv := prv, write := false }
  match s.gReadAll a none 9 (f 0x10 8) 128 with
  | .error e => .error e
  | .ok (hb, s1) => match headerOf (f 0x10 8) hb with
    | .error o => .error (formatTrap 9 (f 0x10 8) 3 o)
    | .ok h =>
      if h.prv && !prv then .error { accTrap .protection a (s.asid c) (f 0x10 8) 0 none 0 with unit := 9 }
      else if h.unplaceable (f 4 2) (f 6 1) (f 7 1) then
        .error { cause := .resource, unit := 9, addr := BitVec.ofNat 64 (f 0x10 8), aux0 := 3 }
      else match s1.gReadAll a none 9 (f 0x30 8) (32 * f 0x27 1) with
        | .error e => .error e
        | .ok (ob, s2) => match opEntriesOf h (f 6 1) (f 0x30 8) ob (f 0x27 1) with
          | .error e => .error e
          | .ok ops => .ok (h, ops, s2)

/-- A task of a record that passed its checks. -/
def taskOf (id va c queue pos : Nat) (prv : Bool) (die tick order : Nat) (bs : List Byte) (h : Header)
    (ops : List OpEntry) : Task :=
  let f := fieldOf bs
  { id := id, record := va, ctx := c, queue := queue, pos := pos, name := BitVec.ofNat 64 (f 8 8),
    flags := f 4 2, ncrew := f 6 1, cmask := f 7 1, hdr := h, seed := BitVec.ofNat 64 (f 0x18 8),
    retry := f 0x25 1, att := 0, succ := f 0x28 8, stamp := f 0x38 8,
    args := (List.range 8).map fun i => BitVec.ofNat 64 (f (0x40 + 8 * i) 8), ops := ops, prv := prv,
    phase := if f 0x20 4 = 0 then .ready else .waiting, die := die, readySince := tick, order := order,
    place := none, cores := [], tDisp := 0, tCin := 0, tOpw := 0, tExit := 0, tCout := 0,
    version := .empty, vspilled := [], stats := List.replicate 8 0, succPos := 0, view := .start }

/-- A refusal (spec/16 R422, R427): a fault record with REFUSE. -/
def State.refuseRecord (s : State) (c : Nat) (name : Dword) (unit : Nat) (pseq : Word) (e : Trap) : State :=
  s.faultRecord c ⟨4, 0, name, agentSrc 0 0, 0, { e.atUnit unit with xtra := pseq }⟩

/-- Submits the record at an address (R338), for a queue, a position in it, and with or without
privilege. A refused record writes a fault record; an absent page or a full log stops the submission
before it is performed. `seen` maps the record's bytes to those that are read. -/
def State.submit (s : State) (c queue pos : Nat) (prv : Bool) (pseq : Word) (va : Nat)
    (seen : Phys → List Byte → List Byte := fun _ bs => bs) : Except Stop State :=
  let a : Acc := { ctx := c, prv := prv, write := false }
  let refuse (name : Dword) (e : Trap) : Except Stop State :=
    if e.cause == .pageNotPresent then .error (.trap e) else .ok (s.refuseRecord c name 9 pseq e)
  match s.translate a va with
  | .error e => refuse 0 e
  | .ok p =>
    if p.leaf.kind == .so || p.place != .dev then refuse 0 (formatTrap 9 va 2 0)
    else match s.gReadAll a none 9 va 128 with
      | .error e => refuse 0 e
      | .ok (bs0, s1) =>
        let bs := seen p bs0
        let name := BitVec.ofNat 64 (fieldOf bs 8 8)
        match recordBad bs with
        | some o => refuse name (formatTrap 9 va 2 o)
        | none => match s1.recordParts c prv bs with
          | .error e => refuse name e
          | .ok (h, ops, s2) =>
            let npred := fieldOf bs 0x20 4
            let st := if npred = 0 then 2 else 1
            match s2.gWrite { a with write := true } none true 9 (va + 0x24) (leBytes 1 st) with
            | .error e => refuse name e
            | .ok s3 => match s3.agentLog c (s.dispRecord c queue va npred st false) with
              | .error e => .error e
              | .ok s4 =>
                let t := taskOf (s4.nextId + 1) va c queue pos prv (homeOf p.asid p.va / 64) s.tick
                  (s4.lastOrder c) bs h ops
                .ok { s4 with tasks := s4.tasks ++ [t], nextId := s4.nextId + 1 }

/-- The decrement of a record by a predecessor (R338). -/
def State.decrement (s : State) (t : Task) (va : Nat) : Except Stop State :=
  let a := schedAcc t.ctx
  let bad (e : Trap) : Except Stop State :=
    if e.cause == .pageNotPresent then .error (.trap e) else .ok (s.unitFault t.ctx 0 0 9 e)
  match s.translate a va with
  | .error e => bad e
  | .ok p =>
    if va % 128 ≠ 0 || p.leaf.kind == .so then bad (formatTrap 9 va 5 0)
    else match s.gReadAll a none 9 (va + 0x20) 8 with
      | .error e => bad e
      | .ok (bs, s1) =>
        let n := fieldOf bs 0 4
        let st := fieldOf bs 4 1
        if n = 0 then bad (formatTrap 9 va 2 0x20)
        else
          let go := n = 1 && st = 1
          let st' := if go then 2 else st
          match s1.gWriteAll a 0 true 9 (va + 0x20) (leBytes 4 (n - 1) ++ leBytes 1 st') with
          | .error e => bad e
          | .ok s2 => match s2.agentLog t.ctx (s.dispRecord t.ctx t.queue va (n - 1) st' true) with
            | .error e => .error e
            | .ok s3 => .ok { s3 with
                tasks := s3.tasks.map fun (x : Task) =>
                  if x.ctx == t.ctx && x.record == va && x.phase == .waiting then
                    let y := { x with view := x.view.join t.view }
                    if go then { y with
                      phase := .ready
                      readySince := s.tick
                      order := s3.lastOrder t.ctx } else y
                  else x }

/-! ## Copies (R344 to R348) -/

/-- Writes a granule with its code at a translated address (spec/11 R315): to the version of a
versioned task, or to the place. A wrong code does not leave for the host (R321). -/
def State.carryTo (s : State) (v : Option Task) (p : Phys) (g : List Byte × Byte) : State :=
  let s1 := (s.noteWrite p).dropRels p.place (p.pa / 8 * 8) 8
  let direct : State :=
    if p.place == .host && checkCode (leNat g.1) ≠ g.2 then s1
    else s1.setMem p.place ((s1.mem p.place).carry (s1.fill p.place) (p.pa / 8) g)
  match v with
  | some t =>
    if t.versioned && p.place != .peer then
      ((s.touch p false).staleLayers p).updTask t.id fun x =>
        { x with version := x.version.carry (s.under x.version p) (p.key / 8) g }
    else direct
  | none => direct

/-- A translated address of a copy: strongly ordered pages are refused (R347). -/
def State.copyPhys (s : State) (t : Task) (write : Bool) (va : Nat) : Except Trap Phys :=
  match s.translate (taskAcc t write) va with
  | .error e => .error (e.atUnit 7)
  | .ok p =>
    if p.leaf.kind == .so then
      .error { accTrap .protection (taskAcc t write) (s.asid t.ctx) va 0 none p.pa with unit := 7 }
    else .ok p

/-- Granule n of a crew's window or rows. -/
def Crew.opPlace (k : Crew) (tile : Bool) (off : Nat) : Place × Nat :=
  if tile then (.tile k.core, k.tileBase + off) else (.spad k.core, k.spadBase + off)

/-- Brings n granules in, to every crew named. -/
def State.copyInG (s : State) (t : Task) (o : OpEntry) (ks : List Crew) (off : Nat) : (n : Nat) → Except Trap State
  | 0 => .ok s
  | n + 1 => match s.copyInG t o ks off n with
    | .error e => .error e
    | .ok s1 =>
      let va := o.gaddr + off + 8 * n
      match s1.copyPhys t false va with
      | .error e => .error e
      | .ok p =>
        let s2 := if va % 64 = 0 then s1.noteRead p else s1
        let g := s2.granuleOf (s2.task? t.id) p
        .ok (ks.foldl (fun s k =>
          let d := k.opPlace o.tile (o.loff + off + 8 * n)
          s.setMem d.1 ((s.mem d.1).carry (s.fill d.1) (d.2 / 8) g)) s2)

/-- Sends n granules out. -/
def State.copyOutG (s : State) (t : Task) (o : OpEntry) (k : Crew) (off : Nat) : (n : Nat) → Except Trap State
  | 0 => .ok s
  | n + 1 => match s.copyOutG t o k off n with
    | .error e => .error e
    | .ok s1 =>
      match s1.copyPhys t true (o.gaddr + off + 8 * n) with
      | .error e => .error e
      | .ok p =>
        let d := k.opPlace o.tile (o.loff + off + 8 * n)
        .ok (s1.carryTo (s1.task? t.id) p ((s1.mem d.1).take (s1.fill d.1) (d.2 / 8)))

/-- Sets a chunk's bit in a crew's window. -/
def State.setChunk (s : State) (k : Crew) (b i : Nat) : Except Mismatch State :=
  let a := k.spadBase + b + 8 * (i / 64)
  match s.readAt (.spad k.core) a 8 with
  | .error e => .error e
  | .ok bs => match s.writeAt (.spad k.core) a (leBytes 8 (leNat bs ||| 2 ^ (i % 64))) with
    | .error e => .error e
    | .ok s1 => .ok (s1.wakeCrew k.id)

/-- Sets the bit in every crew. -/
def State.setChunks (s : State) (b i : Nat) : List Crew → Except Mismatch State
  | [] => .ok s
  | k :: r => match s.setChunk k b i with
    | .error e => .error e
    | .ok s1 => s1.setChunks b i r

/-- Bytes of a chunk. -/
def OpEntry.chunkLen (o : OpEntry) (n : Nat) : Nat := min 512 (o.len - 512 * n)

def OpEntry.chunks (o : OpEntry) : Nat := ceilDiv o.len 512

def Task.setOp (t : Task) (i : Nat) (f : OpEntry → OpEntry) : Task := { t with ops := updAt t.ops i f }

/-- Whether every input of a task is in. -/
def Task.inputsDone (t : Task) : Bool := t.ops.all fun o => o.out || o.done.length == o.chunks

/-- Crews of a task that an entry names. -/
def State.opCrews (s : State) (t : Task) (o : OpEntry) : List Crew :=
  s.crews.filter fun k => k.task == t.id && !k.cont && bitOf o.crews k.idx

/-- A fault of a copy (R347): it waits on an absent page, or the attempt ends. -/
def State.copyFault (s : State) (t : Task) (entry : Nat) (e : Trap) : State :=
  if e.cause == .pageNotPresent then
    (s.setTask (t.setOp entry fun o => { o with wait := some e.page })).postResolve t.ctx
      ⟨1, t.att, t.name, agentSrc 0 0, 0, e⟩
  else s.endAttempt t.id e (agentSrc 0 0) 0

/-- Granules of a chunk that are in. -/
def OpEntry.begun (o : OpEntry) (chunk : Nat) : Nat := ((o.part.find? fun x => x.1 == chunk).map (·.2)).getD 0

/-- How many of `rest` granules one step of a copy moves: at least one, chosen freely. A transfer is single-copy atomic
per granule alone (spec/09 R260). -/
def State.portion (s : State) (rest : Nat) : Nat :=
  if rest = 0 then 0 else 1 + (s.fresh (2 ^ 44)).toNat % rest

/-- A part of a chunk of an input is copied into every crew that shares it; once it is whole, its bits are set. -/
def execCopyInChunk (task entry chunk : Nat) (s : State) : Host.Outcome State Fault Refusal :=
  match s.task? task with
  | none => .fault .notEnabled
  | some t => match t.ops[entry]? with
    | none => .fault .notEnabled
    | some o =>
      if t.phase != .run || o.out || o.wait.isSome || o.chunks ≤ chunk || o.done.contains chunk then
        .fault .notEnabled
      else
        let ks := s.opCrews t o
        let had := o.begun chunk
        let n := s.portion (o.chunkLen chunk / 8 - had)
        match s.copyInG t o ks (512 * chunk + 8 * had) n with
        | .error e => .next (s.copyFault t entry e)
        | .ok s1 =>
          if had + n < o.chunkLen chunk / 8 then
            let t1 := (s1.task? task).getD t
            .next (s1.setTask (t1.setOp entry fun o => { o with
              part := (chunk, had + n) :: o.part.filter fun x => x.1 != chunk }))
          else
          let r : Except Mismatch State := match o.bmap with
            | none => .ok s1
            | some b => s1.setChunks b (o.bit0 + chunk) ks
          match r with
          | .error e => .next (s.copyFault t entry (mismatchTrap e 7 e.addr (s.asid t.ctx) 1 0))
          | .ok s2 =>
            let t1 := (s2.task? task).getD t
            let t2 := t1.setOp entry fun o => { o with done := chunk :: o.done }
            let t3 := if t2.inputsDone then { t2 with tCin := s.tick } else t2
            .next ((s2.setTask t3).stat task 6 (o.chunkLen chunk))

/-! ## Retire (R348, R349; spec/09 R279) -/

/-- Whether a task has finished its compute. -/
def State.computeDone (s : State) (t : Task) : Bool :=
  t.phase == .run && t.inputsDone
    && s.crews.all (fun k => k.task != t.id || k.done)
    && s.arrivals.all (fun a => match s.crew? a.crew with | some k => k.task != t.id | none => true)
    && s.clusters.all fun c => c.pool.all (fun r => r.task != t.id) && c.rays.all fun r => r.record.task != t.id

/-- The first output of a task, from its entries on, that is not out, and the crew it comes from. -/
def State.nextOut (s : State) (t : Task) : (entries : List Nat) → Option (Nat × OpEntry × Crew)
  | [] => none
  | i :: r => match t.ops[i]?, (t.ops[i]?).bind fun o => (s.opCrews t o).head? with
    | some o, some k => if o.out && o.done.isEmpty then some (i, o, k) else s.nextOut t r
    | _, _ => s.nextOut t r

/-- A part of an output is copied to memory. -/
def State.copyOut (s : State) (task i : Nat) (o : OpEntry) (k : Crew) : Except Trap State :=
  match s.task? task with
  | none => .ok s
  | some t =>
    let had := o.begun 0
    let n := s.portion (o.len / 8 - had)
    match s.copyOutG t o k (8 * had) n with
    | .error e => .error e
    | .ok s1 =>
      let t1 := (s1.task? task).getD t
      .ok (if had + n < o.len / 8 then s1.setTask (t1.setOp i fun o => { o with part := [(0, had + n)] })
        else (s1.setTask (t1.setOp i fun o => { o with done := [0] })).stat task 7 o.len)

/-- Writes the bytes of one granule of a version to their location. -/
def State.commitGranule (s : State) (t : Task) (g : Nat) : State :=
  let asid := 8 * g / 2 ^ 56
  let va := 8 * g % 2 ^ 56
  let c := (s.slotOf t.ctx asid).getD t.ctx
  let leaf : Option Leaf := match s.lines.find? fun l => l.asid == asid && l.line == va / 64 with
    | some l => some l.leaf
    | none => match s.walk (taskAcc t true) c asid va with
      | .ok l => some l
      | .error _ => none
  match leaf with
  | none => s
  | some l =>
    let pl : Place := if l.loc then (match s.linkAt (l.pa va) with
      | some (true, _, _) => .peer
      | _ => .host) else .dev
    let p : Phys := { place := pl, pa := l.pa va, leaf := l, asid := asid, va := va }
    let s1 := s.noteWrite p
    if t.version.listed g then
      s1.carryTo none p (t.version.take ⟨fun _ => 0, none, true⟩ g)
    else
      (List.range 8).foldl (fun s i => match t.version.get? (8 * g + i) with
        | some b => match s.writeAt pl (l.pa va + i) [b] with
          | .ok s' => s'
          | .error _ => s.setMem pl ((s.mem pl).put (l.pa va + i) [b])
        | none => s) s1

/-- Commits a version in one step (R279). -/
def State.commitVersion (s : State) (t : Task) : State :=
  let gs := (t.version.cells.map fun c => c.1 / 8).dedup
  (gs.foldl (fun s g => s.commitGranule t g) s).updTask t.id fun x => { x with version := .empty, vspilled := [] }

/-- Adds an attempt's counts to the context's block (spec/16 R447). -/
def State.addStats (s : State) (t : Task) : State :=
  let r := s.regNat (.cxstat t.ctx)
  if !bitOf r 0 then s
  else (List.range 8).foldl (fun s i =>
    let a := bitsOf r 6 46 * 64 + 8 * i
    match s.readAt .dev a 8 with
    | .error _ => s
    | .ok bs => s.devWrite a (leBytes 8 (leNat bs + getAt t.stats i 0))) s

/-- The successors from position n on (R339): where a page is absent or the log full, the position. -/
def State.releaseSuccessors (s : State) (t : Task) : (fuel : Nat) → (n : Nat) → State × Nat × Option Stop
  | 0, n => (s, n, none)
  | k + 1, n =>
    let va := t.succ + 8 * n
    match s.gReadAll (schedAcc t.ctx) none 9 va 8 with
    | .error e =>
      if e.cause == .pageNotPresent then (s, n, some (.trap e))
      else (s.unitFault t.ctx 0 0 9 e).releaseSuccessors t k (n + 1)
    | .ok (bs, s1) =>
      if leNat bs = 0 then (s1, n, none)
      else match s1.decrement t (leNat bs) with
        | .ok s2 => s2.releaseSuccessors t k (n + 1)
        | .error x => (s1, n, some x)

/-- The end of retire once the stamp is written: the successors, then the task is gone. -/
def State.retireTail (s : State) (t : Task) : Option State :=
  let r := if t.succ = 0 then (s, t.succPos, none) else s.releaseSuccessors t (4096 - t.succPos) t.succPos
  match r with
  | (s1, n, some x) =>
    let s2 := s1.updTask t.id fun y => { y with succPos := n }
    match x with
    | .trap e =>
      if (s1.ctx t.ctx).resolves.any fun y => y.page == e.page then
        (if n = t.succPos then none else some s2)
      else some (s2.postResolve t.ctx ⟨1, t.att, t.name, agentSrc 0 t.queue, 0, e⟩)
    | .park => if n = t.succPos then none else some s2
    | .diverge i d a => some (s2.diverge t.ctx i d a)
  | (s1, _, none) => some { s1 with
      tasks := s1.tasks.filter fun y => y.id != t.id
      ctxs := s1.ctxs.map fun c => if c.calls.isEmpty then c else
        { c with calls := c.calls.filter fun y => y.task != t.id }
      crews := s1.crews.filter fun k => k.task != t.id }

/-- In replay, unconsumed records of the attempt are a divergence (spec/13 R380). -/
def State.leftRecords (s : State) (t : Task) : Bool :=
  s.replaying t.ctx && (s.nextRec t.ctx fun bs =>
    (fieldOf bs 0 1 == 9 || fieldOf bs 0 1 == 10) && fieldOf bs 16 8 == t.name.toNat).isSome

/-- TASK_RETIRE (R349): copy-out, commit, stamp, STATE, successors. -/
def execTaskRetire (task : Nat) (s : State) : Host.Outcome State Fault Refusal :=
  match s.task? task with
  | none => .fault .notEnabled
  | some t =>
    if t.phase == .copyOut then
      match s.retireTail t with
      | some s1 => .next s1
      | none => .fault .notEnabled
    else if !s.computeDone t || t.ops.any (·.wait.isSome) || (s.ctx t.ctx).divergent then .fault .notEnabled
    else if s.leftRecords t then
      .next (s.diverge t.ctx (s.field (.fltail t.ctx) 0 31) [] [])
    else
      let s0 := if t.tExit = 0 then s.updTask task fun x => { x with tExit := s.tick } else s
      match s0.nextOut t (List.range t.ops.length) with
      | some (i, o, k) => match s0.copyOut task i o k with
        | .error e => .next (s0.copyFault ((s0.task? task).getD t) i e)
        | .ok s1 => .next s1
      | none =>
        let t1 := { (s0.task? task).getD t with tCout := s.tick, phase := .copyOut }
        let s2 := (s0.setTask t1).commitVersion t1
        let s3 := ((s2.writeStamp t1 0).addStats t1).writeState t1 4
        let s4 := s3.traceEvent t1.die 3 t1.ctx 0 t1.name.toNat 0
        match s4.retireTail t1 with
        | some s5 => .next s5
        | none => .next s4

/-! ## Regroup pools (R355, R356; spec/04 R110) -/

/-- Whether two records lie in one bin. -/
def Rec.sameBin (a b : Rec) : Bool := a.task == b.task && a.resume == b.resume && a.mode == b.mode

/-- Ascending TID. -/
def insertRec (x : Rec) : List Rec → List Rec
  | [] => [x]
  | y :: r => if x.tid.toNat < y.tid.toNat then x :: y :: r else y :: insertRec x r

/-- The thread of a continuation record (R110); none is an ended helper. -/
def Thread.relaunch (h : Header) (tick : Nat) : Option Rec → Thread
  | none => { Thread.launch h tick 0 0 0 true true with rngk := 0 }
  | some r => { Thread.launch h tick r.resume 0 r.tid false false with
      v := (r.live ++ List.replicate h.vregs 0).take h.vregs
      rngk := r.rngk
      rngc := r.rngc
      hit := if r.kind = 2 then r.hit else 0 }

/-- Removes records from a pool, one for each in a list. -/
def dropRecs (pool used : List Rec) : List Rec := used.foldl (fun p r => p.erase r) pool

/-- Relaunches a wave of records on an eligible core of the cluster. -/
def State.relaunch (s : State) (clu : Nat) (t : Task) (rs : List Rec) : Option State :=
  let cores := (List.range 8).map (clu * 8 + ·) |>.filter fun c => classOk t.hdr t.cmask c
  let want := if s.replaying t.ctx then s.replayPlace t 0 0 true else none
  let cores := if s.replaying t.ctx then (match want with
      | some p => cores.filter (· == p.1)
      | none => []) else cores
  if s.logging t.ctx && s.flSize t.ctx < s.flOccupancy t.ctx + 1 + ceilDiv (4 * rs.length) 23 then none
  else match cores.findSome? fun c => s.addCrew t c 0 true 1 with
  | none => none
  | some (s1, k, sets) =>
    let sorted := rs.foldl (fun l r => insertRec r l) []
    let ths := (List.range t.hdr.width).map fun l => Thread.relaunch t.hdr s.tick sorted[l]?
    let wslot := match want with
      | some p => p.2
      | none => s1.freeSlot k.core
    let mode := match rs.head? with
      | some r => r.mode
      | none => 1
    let w0 := Wave.launch s1.nextId k.id k.core wslot (sets.headD 0) 0 t.hdr (BitVec.ofNat 64 mode) ths
    let w := { w0.startAt s1.moment fun l => (sorted[l]?.map (·.view)).getD .start with
      halted := (s1.ctx t.ctx).haltAll || (s1.ctx t.ctx).divergent }
    match s1.agentLog t.ctx (s1.waveRecord t w 0 true false (sorted.map (·.tid))) with
    | .error (.diverge i d a) => some (s.diverge t.ctx i d a)
    | .error _ => none
    | .ok s2 =>
      let c := s2.cluster clu
      some ({ s2 with waves := s2.waves ++ [w], nextId := s2.nextId + 1 }.setCluster clu
        { c with pool := dropRecs c.pool rs })

/-- The records a replay names for the next relaunched wave of a task (spec/13 R378). -/
def State.replayBin (s : State) (t : Task) (bin : List Rec) : Option (List Rec) :=
  match s.nextRec t.ctx (fun bs => fieldOf bs 0 1 == 9 && fieldOf bs 16 8 == t.name.toNat
      && bitOf (fieldOf bs 24 8) 7) with
  | some (i, some bs) =>
    let n := bitsOf (fieldOf bs 24 8) 24 6 + 1
    let pay := s.extPayload t.ctx i (fieldOf bs 3 1)
    let tids := (List.range n).map fun j => fieldOf pay (4 * j) 4
    let rs := tids.filterMap fun x => bin.find? fun r => r.tid.toNat == x
    if rs.length = n then some rs else none
  | _ => none

/-- The bin of record n of a cluster's pool, with its task. -/
def State.binAt (s : State) (clu n : Nat) : Option (Task × List Rec) :=
  match (s.cluster clu).pool[n]? with
  | none => none
  | some r => match s.task? r.task with
    | none => none
    | some t => if t.phase == .run && s.flag (.cxsched t.ctx) 0 && !(s.ctx t.ctx).preempt then
        some (t, (s.cluster clu).pool.filter r.sameBin) else none

/-- A bin with W records launches a full wave. -/
def execRegroupWaveLaunch (clu n : Nat) (s : State) : Host.Outcome State Fault Refusal :=
  match s.binAt clu n with
  | none => .fault .notEnabled
  | some (t, bin) =>
    let rs := if s.replaying t.ctx then s.replayBin t bin
      else if t.hdr.width ≤ bin.length then some (bin.take t.hdr.width) else none
    match rs.bind (s.relaunch clu t) with
    | some s1 => .next s1
    | none => .fault .notEnabled

/-- A bin whose oldest record has waited POOLTO × 64 clocks launches a partial wave. -/
def execRegroupTimeout (clu n : Nat) (s : State) : Host.Outcome State Fault Refusal :=
  match s.binAt clu n with
  | none => .fault .notEnabled
  | some (t, bin) =>
    let due := match bin.head? with
      | some r => decide (r.born + 64 * s.field (.cxsched t.ctx) 21 16 ≤ s.tick)
      | none => false
    if s.replaying t.ctx || !due then .fault .notEnabled
    else match s.relaunch clu t (bin.take t.hdr.width) with
      | some s1 => .next s1
      | none => .fault .notEnabled

end Sys2Proof.Machine
end

