-- ==== Sys2Proof/Machine/Land.lean ====
section
/-! DEFINITION. What happens after issue: an outstanding result or access lands (RESULT_LAND: spec/02 R63,
R66, R67; spec/06 R159 to R182; spec/09 R276), and a queued store leaves for memory. -/

namespace Sys2Proof.Machine

/-! ## What may land -/

/-- What a landing acts on: the wave, its crew and task, and the outstanding result. -/
structure Land where
  w : Wave
  k : Crew
  t : Task
  p : Pend

/-- The uniform register that a result writes. -/
def Pend.uniform? (p : Pend) : Option Opd :=
  match p.i with
  | .sld y => if y.r.isS then some y.r else none
  | _ => if p.dst.isS then some p.dst else none

/-- Whether an earlier outstanding result holds a later one back: accesses of a thread are performed in
program order (spec/09 R276), those of one issue to one place in lane order (spec/06 R158), and a uniform register
takes its results in issue order (spec/04 R126). -/
def Pend.holds (p q : Pend) : Bool :=
  (!p.done && !q.done && !unordered p.i && !unordered q.i
    && (p.lanes &&& q.lanes != 0 || (p.issue == q.issue && p.slot == q.slot && p.a == q.a)))
  || (p.uniform?.isSome && p.uniform? == q.uniform?)

/-- Removes the result at a position. -/
def Wave.drop (w : Wave) (pos : Nat) : Wave := { w with out := w.out.eraseIdx pos }

/-- Takes a result out of its wave. -/
def State.dropPend (s : State) (id pos : Nat) : State :=
  match s.wave? id with
  | some w => s.setWave (w.drop pos)
  | none => s

/-- Replaces a result of a wave. -/
def State.setPend (s : State) (id pos : Nat) (p : Pend) : State :=
  match s.wave? id with
  | some w => s.setWave { w with out := w.out.set pos p }
  | none => s

/-- The lanes that wait like lane l. -/
def Wave.alike (w : Wave) (l : Nat) : BitVec 64 :=
  maskOf fun n => (w.th n).run == (w.th l).run && (w.th n).pc == (w.th l).pc && (w.th n).pix == (w.th l).pix
    && (w.th n).half == (w.th l).half && (w.th n).seg == (w.th l).seg
    && (w.th n).exch == (w.th l).exch

/-- Long instructions, whose accesses are made segment by segment (spec/01 R29). -/
def segmented : Instr → Bool
  | .ldx _ | .stc _ | .swp _ _ | .itx _ _ => true
  | _ => false

namespace Land

variable (x : Land)

/-- SRC of a lane, none for a helper. -/
def src? (l : Nat) : Option Nat :=
  if (x.w.th l).helper then none else some (srcOf x.w.core x.w.wslot l)

def src : Nat := srcOf x.w.core x.w.wslot x.p.lane

/-- The thread that it acts for, with those that share the access. -/
def actor : Actor := ⟨x.w, x.p.lane, x.p.issue, x.p.toks, x.p.lanes⟩

def lanes : List Nat := lanesOf x.p.lanes

/-- The queued stores of the threads it acts for. -/
def queue : List StoreEnt := x.lanes.flatMap fun l => (x.w.th l).storeQ

/-- The operand a, b or c that it took at issue. -/
def av : Nat := x.p.a.toNat
def bv : Nat := x.p.b.toNat
def cv : Nat := x.p.c.toNat

/-- The target of an access. -/
def tgt (s : State) (sp : Space) (wr : Bool) (n : Nat) : Except Stop Target :=
  orTrap (s.target x.k x.t sp wr n x.av)

/-- Bytes to store: UNDEFINED where a source was written again (R66). -/
def data (s : State) (n v : Nat) : List Byte :=
  if x.p.taint then s.freeBytes (x.p.lane + 64) n else leBytes n v

/-- A result word: UNDEFINED where a source was written again. -/
def word (s : State) (i : Nat) (v : Word) : Word :=
  if x.p.taint then s.fresh32 (2 ^ 44 + x.p.lane * 64 + i) else v

end Land

/-- Whether a queued store covers a byte of n bytes at a location. -/
def StoreEnt.meets (e : StoreEnt) (pl : Place) (a n : Nat) : Bool :=
  e.place == pl && decide (e.addr < a + n) && decide (a < e.addr + e.bytes.length)

def State.queueMeets (s : State) (t : Task) (q : List StoreEnt) (tg : Target) (n : Nat) : Bool :=
  match s.locOf t false tg with
  | some (pl, a) => q.any fun e => e.meets pl a n
  | none => false

/-- Writes the words of a result in lane l's destination (R18, R62), or in an s register. -/
def State.result (s : State) (id l : Nat) (d : Opd) (ws : List Word) : State :=
  match s.wave? id with
  | none => s
  | some w => match d with
    | .s _ => s.landS w d ((getAt ws 1 0) ++ (getAt ws 0 0))
    | _ => s.setWave (w.putRow (1#64 <<< l) d fun _ => ws)

/-! ## Loads -/

/-- One read of each of several threads (R157, spec/13 R371), all of the same bytes. -/
def State.loadEach (s : State) (x : Land) (tg : Target) (n : Nat) (acq : Option Scope) :
    List Nat → Except Stop (List Byte × State)
  | [] => .error .park
  | [l] => s.load x.t x.queue tg n acq (x.src? l) x.actor
  | l :: r => match s.load x.t x.queue tg n acq (x.src? l) x.actor with
    | .error y => .error y
    | .ok (_, s1) => s1.loadEach x tg n acq r

/-- The lanes that make a record of a broadcast load: those that are no helpers, or one. -/
def Land.readers (x : Land) : List Nat :=
  match x.lanes.filter fun l => !(x.w.th l).helper with
  | [] => [x.p.lane]
  | l => l

/-- A load: of one lane, or one access for several (`ls` make records). -/
def State.landLoad (s : State) (x : Land) (sp : Space) (n : Nat) (acq : Option Scope) (ls : List Nat) :
    Except Stop (List Byte × State) :=
  match x.tgt s sp false n with
  | .error y => .error y
  | .ok tg =>
    if s.arriving x.w x.lanes tg n then .error .park
    else if x.lanes.length ≠ 1 && s.queueMeets x.t x.queue tg n then .error .park
    else s.loadEach x tg n acq ls

def State.landLd (s : State) (x : Land) (y : Mem) : Except Stop State :=
  match s.landLoad x y.sp (memBytes y.ty) y.ord (if y.sp == .bcast then x.readers else [x.p.lane]) with
  | .error z => .error z
  | .ok (bs, s1) =>
    .ok (x.lanes.foldl (fun s l => s.result x.w.id l y.r (wordsOf y.ty.wide (Machine.place y.ty (leNat bs)))) s1)

def State.landSld (s : State) (x : Land) (y : UMem) : Except Stop State :=
  match s.landLoad x y.sp (memBytes y.ty) none [x.p.lane] with
  | .error z => .error z
  | .ok (bs, s1) => .ok (s1.result x.w.id x.p.lane y.r (wordsOf true (uniRes y.ty (leNat bs)).toNat))

/-- The pieces that a record of 64 bytes moves in: on a strongly ordered page each 8 bytes are one access. -/
def State.landRecord (s : State) (x : Land) (sp : Space) : (n : Nat) → Except Stop (List Byte × State)
  | 0 => .ok ([], s)
  | n + 1 => match s.landRecord x sp n with
    | .error y => .error y
    | .ok (bs, s1) =>
      match s1.landLoad { x with p := { x.p with a := x.p.a + BitVec.ofNat 128 (8 * n) } } sp 8 none
          [x.p.lane] with
      | .error y => .error y
      | .ok (b, s2) => .ok (bs ++ b, s2)

/-- itld (R175): a record that breaks R172 faults when it lands. -/
def State.landItld (s : State) (x : Land) (y : ItMem) : Except Stop State :=
  match s.landRecord x y.sp 8 with
  | .error z => .error z
  | .ok (bs, s1) =>
    let r := BitVec.ofNat 512 (leNat bs)
    match itBad r with
    | some o => .error (.trap { itTrap o with addr := BitVec.ofNat 64 x.av })
    | none => match s1.wave? x.w.id, y.r with
      | some w, .j n => .ok (s1.setWave { w with iters := w.iters.set n.val r })
      | _, _ => .ok s1

/-! ## Stores -/

/-- A store of n bytes enters the queue of the lane it acts for. -/
def State.landBytes (s : State) (x : Land) (sp : Space) (rel : Option Scope) (adr : Nat) (bs : List Byte) :
    Except Stop State :=
  match s.wave? x.w.id, orTrap (s.target x.k x.t sp true bs.length adr) with
  | none, _ => .error .park
  | _, .error y => .error y
  | some w, .ok tg =>
    if s.arriving w x.lanes tg bs.length then .error .park
    else match s.store x.t { x.actor with w := w } (s.sending w x.p.lane) x.p.slot sp.code tg bs rel x.src with
      | .error y => .error y
      | .ok (q, s1) =>
        .ok ((s1.setWave (w.each (1#64 <<< x.p.lane) fun _ th => { th with storeQ := q })).threadWrote x.actor
          (tg.span bs.length) (q.any fun e => e.va == adr && e.leaf.kind == .uo))

def State.landSt (s : State) (x : Land) (y : Mem) : Except Stop State :=
  s.landBytes x y.sp y.ord x.av (x.data s (memBytes y.ty) x.bv)

/-- sst: the store of a group; stores of its other lanes to the place come first. -/
def State.landSst (s : State) (x : Land) (y : UMem) : Except Stop State :=
  match x.tgt s y.sp true (memBytes y.ty) with
  | .error z => .error z
  | .ok tg =>
    let others := (x.lanes.filter (· != x.p.lane)).flatMap fun l => (x.w.th l).storeQ
    if s.queueMeets x.t others tg (memBytes y.ty) then .error .park
    else s.landBytes x y.sp none x.av (x.data s (memBytes y.ty) x.bv)

def State.landItst (s : State) (x : Land) (y : ItMem) : Except Stop State :=
  match x.tgt s y.sp true 64 with
  | .error z => .error z
  | .ok tg =>
    let others := (x.lanes.filter (· != x.p.lane)).flatMap fun l => (x.w.th l).storeQ
    if s.queueMeets x.t others tg 64 then .error .park
    else
      let bs := if x.p.taint then s.freeBytes (x.p.lane + 64) 64 else x.p.ext.flatMap fun v => leBytes 4 v.toNat
      eachBelow (fun i s => s.landBytes x y.sp none (x.av + 8 * i) (byteRange bs (8 * i) 8)) 8 s

/-! ## Counted stores and redirected reductions (R166, R179) -/

/-- The scratchpad a counted access goes to, with its sync word in the same window. It goes after the queued stores
that a fence puts before it, and a reduction after all of them (spec/09 R276). -/
def State.landArrival (s : State) (x : Land) (sp : Space) (ty : Ty) (op : Option AtomOp) (rel : Option Scope) (v : Nat) :
    Except Stop State :=
  let n := memBytes ty
  match x.tgt s sp true n, orTrap (s.target x.k x.t sp true 16 x.cv) with
  | .error y, _ => .error y
  | _, .error y => .error y
  | .ok (.pad c a off), .ok (.pad c' a' _) =>
    let bad : Except Stop State :=
      .error (.trap (accTrap .bounds (taskAcc x.t true) (s.asid x.t.ctx) x.cv sp.code none 0))
    if c ≠ c' then bad
    else match s.crews.find? fun k => k.task == x.k.task && k.core == c && decide (k.spadBase ≤ a)
        && decide (a < k.spadBase + k.window) with
      | none => bad
      | some k =>
        if a' < k.spadBase || k.spadBase + k.window < a' + 16 then bad
        else if s.queueMeets x.t x.queue (.pad c a off) n
            || (x.queue.any fun d => decide (d.barrier < (x.w.th x.p.lane).fences))
            || (op.isSome && !x.queue.isEmpty)
            || (rel.isSome && (!x.queue.isEmpty || s.sending x.w x.p.lane)) then .error .park
        else
          let s1 := s.threadWrote x.actor ((Target.pad c a off).span n) false
          let me := x.w.agent x.p.lane
          let y : Arrival :=
            { crew := k.id, core := c, addr := a, off := off, bytes := x.data s n v, ty := ty, op := op,
              sync := a', srcCore := x.w.core, ctx := x.t.ctx, wslot := x.w.wslot, lane := x.p.lane,
              slot := x.p.slot, issue := x.p.issue, agent := me, mark := if s1.nextId = s.nextId then [] else [s.nextId],
              msgs := (x.w.th x.p.lane).ord.releases me s.moment rel }
          .ok { s1 with arrivals := s1.arrivals ++ [y] }
  | _, _ => .error .park

/-! ## Atomics (R176 to R178, R185) -/

def ordAcq : Ord → Bool
  | .acq _ | .ar _ => true
  | _ => false

def ordRel : Ord → Bool
  | .rel _ | .ar _ => true
  | _ => false

/-- The scope that an atomic acquires, or releases, at. -/
def acqScope : Ord → Option Scope
  | .acq c | .ar c => some c
  | _ => none

def relScope : Ord → Option Scope
  | .rel c | .ar c => some c
  | _ => none

/-- What an update reads and writes where the value is UNDEFINED (R66, spec/07 R203). -/
def Land.isOpen (x : Land) (s : State) (tg : Target) (n : Nat) : Bool :=
  x.p.taint || x.actor.conflicts s (tg.span n)

/-- A read-modify-write in the order of its thread: every earlier write has left, and before a release or on an SO
page every counted one has arrived (spec/09 R263, R266, R276). It answers the old bytes. -/
def State.landRmw (s : State) (x : Land) (native : Bool) (tg : Target) (p : Option Phys) (n : Nat) (o : Option LogOp) (extn : Nat)
    (acq rel : Option Scope) (f : List Byte → List Byte) (value : List Byte → List Byte → Nat × List Byte) :
    Except Stop (List Byte × State) :=
  let kind := kindOf p
  if !x.queue.isEmpty || s.arriving x.w x.lanes tg n || ((rel.isSome || kind == .so) && x.lanes.any (s.sending x.w))
      || (o.isSome && x.lanes.any (s.sendingRed x.w)) then .error .park
  else
    let free := s.freeBytes (x.p.lane + 64) n
    let isOpen := x.isOpen s tg n
    let g (old : List Byte) : List Byte := if isOpen then free else f old
    let me := x.w.agent x.p.lane
    let msgs := (x.w.th x.p.lane).ord.releases me s.moment (effScope kind rel)
    match s.logged x.t.ctx o extn (fun s => match s.rmwTgt x.t native tg n g with
        | .error e => .error (.trap e)
        | .ok (old, s1) =>
          let s2 := (s.threadWritten s1 me (tg.loc p) n msgs true o.isSome).orders x.w.id x.p.lanes fun l d =>
            match tg.loc p with
            | some (pl, a) => d.reads s (x.w.agent l) pl a n s.moment (effScope kind acq)
            | none => d
          .ok (old, (value old (g old)).1, (value old (g old)).2, s2)) with
    | .error y => .error y
    | .ok (old, s1) =>
      .ok (if isOpen then free else old, s1.threadWrote x.actor (tg.span n) (kind == .uo))

def State.landAtom (s : State) (x : Land) (o : AtomOp) (y : Atom) : Except Stop State :=
  let n := AtomOp.size o y.ty
  match x.tgt s y.sp true n with
  | .error z => .error z
  | .ok tg =>
    let p := s.physOf x.t true tg
    let r := accessOp 3 (recFlags tg p (ordAcq y.ord) (ordRel y.ord) true true) (sizeCode n + o.code * 8) x.src tg p
    match s.landRmw x (linkNative o y.ty) tg p n (some r) (if o == .cas128 then 1 else 0) (acqScope y.ord) (relScope y.ord)
        (fun old => leBytes n (atomNew o y.ty (leNat old) x.bv x.cv))
        (fun old _ => (leNat (old.take 8), old.drop 8)) with
    | .error z => .error z
    | .ok (old, s1) =>
      let v := leNat old
      .ok (s1.result x.w.id x.p.lane y.d (if o == .cas128
        then (List.range 4).map fun i => BitVec.ofNat 32 (v / 2 ^ (32 * i))
        else wordsOf y.ty.wide (Machine.place y.ty v)))

/-! ## Update-only lines (spec/03 R95, spec/10 R301, R302) -/

/-- Lines of a home slice in update-only state that are not spilled. -/
def State.upOfSlice (s : State) (home : Nat) : List UpLine :=
  s.up.filter fun u => u.spilled.isNone && u.place != .peer && homeOf u.asid (u.line * 64) == home

/-- The spill set of a line. -/
def State.spillSet (s : State) (u : UpLine) : Nat := (u.line ^^^ u.asid) % 2 ^ s.field .accspill 58 6

/-- The line last updated longest ago. -/
def oldestUp : List UpLine → Option UpLine
  | [] => none
  | u :: r => match oldestUp r with
    | none => some u
    | some v => some (if v.last < u.last then v else u)

/-- The address of an entry of a spill set. -/
def State.spillAddr (s : State) (set way : Nat) : Nat :=
  s.field .accspill 16 36 * 2 ^ 16 + set * 2 ^ 15 + way * 2 ^ 11

/-- Room for one more line in a slice: the oldest line is spilled into an entry of its set, whose bytes hold it in a
form the spec does not lay out, or its episode ends. -/
def State.upRoom (s : State) (home : Nat) : State :=
  let us := s.upOfSlice home
  if us.length < 1024 then s
  else match oldestUp us with
    | none => s
    | some u =>
      let set := s.spillSet u
      let used (way : Nat) : Bool := s.up.any fun v => v.spilled == some way && s.spillSet v == set
      match if s.flag .accspill 0 then (List.range 16).find? fun way => !used way else none with
      | some way => ({ s with up := s.up.map fun v => if v == u then { v with spilled := some way } else v } : State).putAt
          .dev (s.spillAddr set way) (s.freeBytes (4096 + home) 2048)
      | none => s.endUp u

/-- An operand added to an element. -/
def UpElem.add (e : UpElem) (f : Fmt) (bits : Nat) : UpElem :=
  match f.decode false bits with
  | .nan _ => { e with nan := true }
  | .inf false => { e with pinf := true }
  | .inf true => { e with ninf := true }
  | x => { e with acc := e.acc + accOf f x }

/-- An additive red of a float type to a translated location: it joins or starts an episode. One to peer memory is
performed at its home on the peer part (R306): the episode is the peer's, which ends it when it will. -/
def State.upAdd (s : State) (p : Phys) (ty : Ty) (bits : Nat) : Except Mismatch State :=
  let f := fmtFor ty
  let n := memBytes ty
  let i := p.pa % 64 / n
  let s1 := match s.upAt p.place p.pa with
    | some u => if u.ty == ty then s else s.endUp u
    | none => s
  let s2 := (s1.touch p true).staleLayers p
  let home := homeOf p.asid p.va
  let here : Option UpLine := s2.upAt p.place p.pa
  -- a line not in the slice, or spilled, needs a place
  let s3 := if p.place == .peer then s2 else match here with
    | some u => if u.spilled.isSome then
        let s' := s2.upRoom home
        let back (v : UpLine) : UpLine :=
          if v.place == u.place && v.pa == u.pa then { v with spilled := none } else v
        { s' with up := s'.up.map back } else s2
    | none => s2.upRoom home
  let u : UpLine := (s3.upAt p.place p.pa).getD
    { asid := p.asid, line := p.va / 64, place := p.place, pa := p.pa / 64 * 64, ty := ty, spilled := none,
      last := s.tick, elems := [] }
  let put (e : UpElem) : State :=
    let u1 := { u with
      last := s.tick
      elems := e :: u.elems.filter fun d => d.idx != e.idx }
    let s4 := { s3 with up := u1 :: s3.up.filter fun v => !(v.place == u.place && v.pa == u.pa) }
    if p.place == .peer && Config.freeChoice (s.freeN * 2 ^ 64 + 2 ^ 58 + p.pa) then s4.endUp u1 else s4
  match u.elems.find? fun e => e.idx == i with
  | some e => .ok (put (e.add f bits))
  | none => match s3.readAt p.place p.pa n with
    | .error e => .error e
    | .ok old => .ok (put ((UpElem.add ⟨i, 0, false, false, false⟩ f (leNat old)).add f bits))

/-- red (R178): float additions accumulate, f64 additions are logged, and so are all on SO pages. -/
def State.landRed (s : State) (x : Land) (o : AtomOp) (y : Red) : Except Stop State :=
  let n := AtomOp.size o y.ty
  match x.tgt s y.sp true n with
  | .error z => .error z
  | .ok tg =>
    let rmw (p : Option Phys) (o' : Option LogOp) : Except Stop State :=
      match s.landRmw x (linkNative o y.ty) tg p n o' 0 none (relScope y.ord) (fun old => leBytes n (atomNew o y.ty (leNat old) x.bv 0))
          (fun _ new => (leNat new, [])) with
      | .error z => .error z
      | .ok (_, s1) => .ok s1
    match tg with
    | .pad _ _ _ => rmw none none
    | .glob va => match s.translate (taskAcc x.t true) va with
      | .error e => .error (.trap (e.atUnit 12))
      | .ok p =>
        let r := accessOp 3 (recFlags tg (some p) false (ordRel y.ord) true true) (sizeCode n + o.code * 8) x.src tg
          (some p)
        let isAdd := o == .add && (fmtOf y.ty).isSome
        if p.leaf.kind == .so || (isAdd && y.ty == .f64) then rmw (some p) (some r)
        else if !isAdd then rmw (some p) none
        else if !x.queue.isEmpty || (ordRel y.ord && x.lanes.any (s.sending x.w)) then .error .park
        else
          let v := if x.isOpen s tg n then leNat (s.freeBytes (x.p.lane + 64) n) else x.bv
          match s.upAdd p y.ty v with
          | .error e => .error (.trap (lineTrap e 12 va (s.asid x.t.ctx) 0 p.pa))
          | .ok s1 =>
            let me := x.w.agent x.p.lane
            let msgs := (x.w.th x.p.lane).ord.releases me s.moment (effScope p.leaf.kind (relScope y.ord))
            .ok ((s.threadWritten s1 me (tg.loc (some p)) n msgs true false).threadWrote x.actor (tg.span n) (p.leaf.kind == .uo))

/-- cadd (R185): one addition of the group, after the earlier accesses of all its threads. -/
def State.landCadd (s : State) (x : Land) (y : Ctr) : Except Stop State :=
  match x.tgt s (ctrSpace y.crew) true 8 with
  | .error z => .error z
  | .ok tg =>
    let p := s.physOf x.t true tg
    let r := accessOp 3 (recFlags tg p false true true true) 3 x.src tg p
    let so := kindOf p == .so
    match s.landRmw x true tg p 8 (if so then some r else none) 0 none (some y.scope)
        (fun old => leBytes 8 (leNat old + x.bv)) (fun _ new => (leNat new, [])) with
    | .error z => .error z
    | .ok (_, s1) => .ok s1

/-! ## Fences, regions, tenq -/

/-- fence (R180): later writes leave after earlier ones; `.sc` waits for the queue to drain. -/
def State.landFence (s : State) (x : Land) (k : FenceKind) (sc : Scope) : Except Stop State :=
  if k != .acq && (s.sending x.w x.p.lane || (k == .sc && !x.queue.isEmpty)) then .error .park
  else
    let r := s.fenceOrder x.t.ctx (x.w.agent x.p.lane) (x.w.th x.p.lane).ord k sc
    .ok (r.1.setWave (x.w.each (1#64 <<< x.p.lane) fun _ th => { th with
      fences := if k == .acq then th.fences else th.fences + 1
      ord := r.2 }))

/-- The leaf entry of a page and its address, from a walk of its own (spec/10 R289, R291 checks 1 to 3). -/
def State.entryOf (s : State) (va : Nat) : (n : Nat) → (table : Nat) →
    Except (Cause × Option Mismatch) (Nat × Nat × Bool)
  | 0, _ => .error (.format, none)
  | n + 1, table =>
    let pa := table + 8 * bitsOf va (16 + 10 * n) 10
    if 2 ^ 40 ≤ pa then .error (.protection, none)
    else match s.readAt .dev pa 8 with
      | .error e => .error (.checkMismatch, some e)
      | .ok bs =>
        let e := leNat bs
        if !bitOf e 0 then .error (.protection, none)
        else if !entryFormatOk e n then .error (.format, none)
        else if !bitOf e 2 then .error (.pageNotPresent, none)
        else if bitOf e 1 then
          if !bitOf e 9 && decide (2 ^ 24 ≤ bitsOf e 16 36) then .error (.protection, none)
          else .ok (pa, e, n == 1)
        else s.entryOf va n (bitsOf e 13 39 * 2 ^ 13)

/-- Whether a location's name lies in a region. -/
def inRegion (asid base len a va : Nat) : Bool := a == asid && decide (base ≤ va) && decide (va < base + len)

/-- The sealed bit of a page in every copy of it: cached walks and lines, at their home and in the cores (spec/10 R286,
R300); unseal leaves no untracked copy. The episodes on its lines end, and so do their merge groups (R298, R301). -/
def State.sealCopies (s : State) (on : Bool) (asid base size : Nat) : State :=
  let s1 := (s.up.filter fun u => u.place != .peer && inRegion asid base size u.asid (u.line * 64)).foldl
    (fun s u => s.endUp u) s
  let put (l : Leaf) : Leaf := { l with sealed := on }
  { s1 with
    walks := s1.walks.map fun k =>
      if inRegion asid base size k.asid (k.vpn * 2 ^ 16) then { k with leaf := put k.leaf } else k
    lines := s1.lines.map fun k =>
      if inRegion asid base size k.asid (k.line * 64) then
        { k with
          leaf := put k.leaf
          dir := if on then k.dir.map fun _ => .untracked else none
          dies := 0 }
      else k
    coreLines := s1.coreLines.filterMap fun k =>
      if inRegion asid base size k.asid (k.line * 64) then
        if on then some { k with
          leaf := put k.leaf
          state := .untracked } else none
      else some k
    merges := s1.merges.filter fun k => !inRegion asid base size k.asid (k.line * 64) }

/-- Sets or clears the sealed bit of the pages of a region, `n` steps at most: each under its canonical name (spec/10
R295), with the checks of R291 that an access other than a write meets. -/
def State.sealPages (s : State) (t : Task) (on : Bool) (base len : Nat) : (n : Nat) → (va : Nat) →
    Except Trap State
  | 0, _ => .ok s
  | n + 1, va =>
    let asid := s.asid t.ctx
    let name := s.canonical asid va
    let no (c : Cause) (pa : Nat) : Except Trap State := .error (accTrap c (taskAcc t true) asid va 0 none pa)
    if base + len ≤ va then .ok s
    else if 2 ^ 56 ≤ va then no .protection 0
    else match s.slotOf t.ctx name.1 with
    | none => no .protection 0
    | some c =>
      if !s.flag (.ptbase c) 0 then no .protection 0
      else match s.entryOf name.2.1 4 (s.field (.ptbase c) 13 39 * 2 ^ 13) with
      | .error (_, some e) => .error (mismatchTrap e 11 va asid 0 e.addr)
      | .error (c, none) => no c 0
      | .ok (pa, e, large) =>
        let size := if large then 2 ^ 26 else 2 ^ 16
        if bitOf e 10 && !t.prv then no .protection ((leafOf e large).pa name.2.1)
        else if va % size ≠ 0 || name.2.1 % size ≠ 0 || base + len < va + size then no .protection 0
        else
          let s1 := s.putAt .dev pa (leBytes 8 (replaceBits e 7 1 (if on then 1 else 0)))
          (s1.sealCopies on name.1 name.2.1 size).sealPages t on base len n (va + size)

/-- seal and unseal (R182): the sealed bits of the region's entries and of every copy. -/
def State.landSeal (s : State) (x : Land) (on : Bool) : Except Stop State :=
  if x.queue.any fun e => inRegion (s.asid x.t.ctx) x.av x.bv e.asid e.va then .error .park
  else orTrap (s.sealPages x.t on x.av x.bv (x.bv / 2 ^ 16) x.av)

/-! ## Writes of later instructions -/

/-- The range that an outstanding access of a lane writes. -/
def Pend.writes (p : Pend) : Option (Space × Nat) :=
  match p.i with
  | .st y | .stSy y => some (y.sp, memBytes y.ty)
  | .sst y => some (y.sp, memBytes y.ty)
  | .itst y => some (y.sp, 64)
  | .atom o y => some (y.sp, AtomOp.size o y.ty)
  | .red o y => some (y.sp, AtomOp.size o y.ty)
  | .redx _ y => some (y.sp, memBytes y.ty)
  | .cadd y => some (ctrSpace y.crew, 8)
  | .stc y => some (y.sp, memBytes y.ty)
  | .swp _ y | .itx _ y =>
    if p.c.toNat % 256 = 3 then some ((Space.ofCode (p.c.toNat / 256)).getD .glob, memBytes y.ty) else none
  | _ => none

/-- What later stores of the threads leave UNDEFINED in a read (spec/04 R122, spec/09 R278): entries that stand for
them, with free bytes. -/
def State.laterStores (s : State) (x : Land) (pos : Nat) : List StoreEnt :=
  (x.w.out.drop (pos + 1)).filterMap fun p =>
    if p.done || p.lanes &&& x.p.lanes == 0 then none
    else match p.writes with
      | none => none
      | some (sp, n) => match s.target x.k x.t sp true 1 p.a.toNat with
        | .error _ => none
        | .ok tg => match s.locOf x.t true tg with
          | none => none
          | some (pl, a) => some ⟨p.slot, p.issue, pl, a, 0, 0, 0, .pad, 0, s.freeBytes (p.lane + 128) n, false, 0, []⟩

/-! ## Enqueues and requests -/

/-- tenq (spec/04 R122): the record is read and submitted after the earlier accesses of its threads; the bytes that
they store to it before their marker are UNDEFINED. A record in a peer window goes to the peer's context (spec/10
R306). -/
def State.landTenq (s : State) (x : Land) (pos : Nat) : Except Stop State :=
  if !x.queue.isEmpty || x.lanes.any (s.sending x.w) then .error .park
  else if x.av % 128 ≠ 0 then
    .error (.trap { cause := .misaligned, lane := some x.p.lane, addr := BitVec.ofNat 64 x.av })
  else if 2 ^ 56 ≤ x.av then
    .error (.trap (accTrap .protection (taskAcc x.t false) (s.asid x.t.ctx) x.av 0 none 0))
  else
    let away : Option (Nat × Nat × Nat) := match s.physOf x.t false (.glob x.av) with
      | some p => if p.place == Place.peer then (s.linkAt p.pa).map fun l => (l.2.1, l.2.2, p.pa) else none
      | none => none
    match away with
    | some r => .ok { s with enqueues := s.enqueues ++ [r] }
    | none =>
      let later := s.laterStores x pos
      let v := x.w.passes x.p.lanes s.moment
      (s.submit x.t.ctx x.t.queue x.t.pos x.t.prv 0 x.av fun p bs => withQueue later p.place p.pa bs).map
        fun (s1 : State) => { s1 with tasks := s1.tasks.map fun (t : Task) =>
          if s.nextId ≤ t.id then { t with view := t.view.join v } else t }

/-- The request record (spec/04 R115) of a gathered request. -/
def Land.callBytes (x : Land) (s : State) (y : Sysc) (seq : Nat) : List Byte :=
  let n := 64 + 4 * y.narg.toNat * x.w.width
  let form := match x.p.dst with
    | .q _ => 0
    | _ => 1
  let arg (i : Nat) (v : Word) : Word := if x.p.lanes.getLsbD (i % x.w.width) then x.word s i v else v
  pack [(4, (x.word s 1024 (BitVec.ofNat 32 x.bv)).toNat), (1, y.narg.toNat), (1, y.nrep.toNat),
    (1, wavew x.w.width), (1, form), (8, x.t.name.toNat), (8, x.p.lanes.toNat), (1, dieOf x.w.core),
    (1, x.w.core / 8 % 8), (1, x.w.core % 8), (1, x.w.wslot), (4, seq), (8, x.cv), (24, 0)]
    ++ (x.p.ext.mapIdx arg).flatMap (fun v => leBytes 4 v.toNat) ++ List.replicate (roundUp n 64 - n) 0

/-- sysc (spec/04 R114): the request is appended after the earlier accesses of its threads, once the call queue has
a slot, and the call is outstanding. -/
def State.landSysc (s : State) (x : Land) (y : Sysc) : Except Stop State :=
  let c := x.t.ctx
  if !x.queue.isEmpty || x.lanes.any (s.sending x.w) || !(s.replaying c || s.cqRoom c 1) then .error .park
  else
    let seq := (s.ctx c).callSeq
    let bs := x.callBytes s y seq
    let s1 := s.cqPut c bs
    let z := s1.ctx c
    let dst : Nat × Nat := match x.p.dst with
      | .q n => (0, n.val)
      | .v n => (1, n.val)
      | _ => (1, 0)
    let call : Call := ⟨x.cv, x.t.id, srcOf x.w.core x.w.wslot x.p.lane, BitVec.ofNat 32 (fieldOf bs 0 4), y.nrep.toNat,
      dst.1, x.p.lanes, x.k.id, x.w.id, x.p.slot, dst.2⟩
    .ok (s1.setCtx c { z with
      callSeq := (seq + 1) % 2 ^ 32
      calls := z.calls ++ [call] })

/-! ## The accesses of long instructions (R167 to R174) -/

/-- ldx: an element loaded into its data register. -/
def State.landLdx (s : State) (x : Land) (y : Expand) : Except Stop State :=
  match s.landLoad x y.sp (memBytes y.ty) none [x.p.lane] with
  | .error z => .error z
  | .ok (bs, s1) => .ok (s1.result x.w.id x.p.lane x.p.dst (wordsOf y.ty.wide (Machine.place y.ty (leNat bs))))

/-- A read of an element of a sweep keeps its value for the segment. -/
def State.landSweep (s : State) (x : Land) (pos : Nat) (ty : Ty) : Except Stop State :=
  let sp := (Space.ofCode (x.cv / 256)).getD .glob
  let n := memBytes ty
  if x.cv % 256 = 3 then (s.landBytes x sp none x.av (leBytes n x.bv)).map fun s1 => s1.dropPend x.w.id pos
  else match s.landLoad x sp n none [x.p.lane] with
    | .error z => .error z
    | .ok (bs, s1) => .ok (s1.setPend x.w.id pos { x.p with
        done := true
        ext := wordsOf true (leNat bs) })

/-- stc: an element stored; until the thread's marker its stored bytes are UNDEFINED where a source is written
again (spec/02 R66). -/
def State.landStc (s : State) (x : Land) (pos : Nat) (y : Expand) : Except Stop State :=
  (s.landBytes x y.sp none x.av (leBytes (memBytes y.ty) x.bv)).map fun s1 => s1.setPend x.w.id pos { x.p with
    done := true
    c := 3 }

/-- Whether a result with c = 3 waits for its thread's marker or end: the thread has reached one, or its wave is
held. -/
def Land.atEnd (x : Land) (s : State) : Bool :=
  x.w.halted || (s.ctx x.t.ctx).preempt || (match (x.w.th x.p.lane).run with
    | .marker | .leaving _ | .ended => true
    | _ => false)

/-! ## Matrix results (spec/07 R225, R227) -/

/-- Element k of registers that hold n elements each. -/
def packedElem (ty : Ty) (ws : List Word) (k : Nat) : FVal :=
  let c := max 1 ty.perReg
  let b := 32 / c
  (fmtFor ty).decode false (bitsOf (getAt ws (k / c) 0).toNat (b * (k % c)) b)

def vmmImageTy (t : Ty) : Bool :=
  t == .f16 || t == .bf16 || t == .e4m3 || t == .e5m2 || t == .e2m1 || isMX t

/-- vmm: each output from the thread's inputs and the image, in blocks of 32. -/
def State.landVmm (s : State) (x : Land) (y : Vmm) : Except Stop State :=
  let core := x.k.core
  let bad (unit : Nat) : Trap := { formatTrap unit (x.bv % 2 ^ 18) 8 0 with lane := some x.p.lane }
  if x.k.vmmWaits x.cv then .error .park
  else match (if 2 ^ 18 ≤ x.bv % 2 ^ 32 then none else (s.core core).image? (x.bv % 2 ^ 18)) with
    | none => .error (.trap (bad 2))
    | some im =>
      if !vmmImageTy im.ty || im.kb < y.k.toNat || im.nb < y.n.toNat || (isMX im.ty && y.k.toNat % 32 ≠ 0) then
        .error (.trap (bad 2))
      else match s.imageData core im (bad 2) 0 y.k.toNat 0 y.n.toNat with
        | .error z => .error z
        | .ok bs =>
          let ins := x.p.ext.take (vmmIn y)
          let acc := x.p.ext.drop (vmmIn y)
          let as := (List.range y.k.toNat).map fun q => (packedElem y.ty ins q, scaleOne)
          let out (j : Nat) : Word :=
            let bsj := (List.range y.k.toNat).map fun q => imageElem im.ty im.kb bs q j
            BitVec.ofNat 32 (accBlocks .f32 32 (if y.acc then (getAt acc j 0).toNat else 0) (as.zip bsj)
              (ceilDiv y.k.toNat 32))
          .ok (((s.spin core).stat x.t.id 2 (ceilDiv y.k.toNat 32)).result x.w.id x.p.lane y.d ((List.range y.n.toNat).map fun j => x.word s j (out j)))

/-- kmma: one block from the crew's scratchpad. -/
def State.landKmma (s : State) (x : Land) (b4 : Bool) (d : Opd) : Except Stop State :=
  let n := if b4 then 256 else 512
  let adr := x.av
  let bad (c : Cause) : Except Stop State :=
    .error (.trap (accTrap c (taskAcc x.t false) (s.asid x.t.ctx) adr 1 none 0))
  if adr % 64 ≠ 0 then bad .misaligned
  else if x.k.window < adr + n then bad .bounds
  else
    let tg := Target.pad x.k.core (x.k.spadBase + adr) adr
    if s.arriving x.w x.lanes tg n then .error .park
    else match s.load x.t (x.w.th x.p.lane).storeQ tg n none none x.actor with
      | .error z => .error z
      | .ok (bs, s1) =>
        let row := (List.range 32).map fun q => (packedElem .e4m3x4 x.p.ext q, scaleOne)
        let b (q j : Nat) : FVal × FVal :=
          let i := 16 * q + j
          (if b4 then Fmt.e2m1.decode false (bitsOf (fieldOf bs (i / 2) 1) (4 * (i % 2)) 4)
            else Fmt.e4m3.decode false (fieldOf bs i 1), scaleOne)
        let out (j : Nat) : Word := BitVec.ofNat 32 (accBlock .f32 (getAt x.p.ext (8 + j) 0).toNat
          (row.zip ((List.range 32).map fun q => b q j)))
        .ok ((s1.stat x.t.id 2 1).result x.w.id x.p.lane d ((List.range 16).map fun j => x.word s j (out j)))

/-! ## Sampler results (spec/08 R233 to R246) -/


/-- What a sampler request answers. -/
def State.sampled (s : State) (x : Land) (pos : Nat) : Except Trap (List Word × State) :=
  let v : TexEnv := ⟨x.t, (x.w.th x.p.lane).storeQ ++ s.laterStores x pos, x.actor, x.p.since⟩
  let hdr := x.bv % 2 ^ 64
  match x.p.i with
  | .smpl f y => s.doSmpl v x.k.core f y (s.codeWords x.t x.k x.p.slot) hdr x.p.ext
  | .smpg ch y => s.doSmpg v ch.val y hdr x.p.ext
  | .smpq _ lod _ _ _ n => s.doSmpq v lod n.toNat hdr x.p.ext
  | .latf f y => s.doLatf v f y hdr x.p.ext
  | _ => .ok ([], s)

/-- The reservation of a request with a queue destination. -/
def Pend.resv (p : Pend) : Option Nat :=
  match p.dst with
  | .q _ => some (p.b.toNat / 2 ^ 64)
  | _ => none

/-- Elements of a reservation once every request of its issue is computed: word j of each lane. -/
def State.fillSpl (s : State) (id crew resv : Nat) : State :=
  match s.wave? id, s.crew? crew with
  | some w, some k =>
    let mine := w.out.filter fun p => p.resv == some resv
    if mine.any fun p => p.c != 2 then s
    else
      let n := (mine.map fun p => p.ext.length).foldl max 0
      let elem (j : Nat) : List Word := (List.range 64).map fun l =>
        match mine.find? fun p => p.lane == l with
        | some p => if p.a = 1 then getAt p.ext j 0 else 0
        | none => 0
      let fill (q : QReg) : QReg := (List.range n).foldl (fun q j =>
        { q with elems := fillElem resv (elem j) q.elems }) q
      let s1 := s.setWave { w with out := w.out.filter fun p => p.resv != some resv }
      (s1.setCrew { k with qs := k.qs.map fun q => if q.kind == 3 then fill q else q }).wakeCrew k.id
  | _, _ => s

/-- A computed request: its registers, or its part of the elements. -/
def State.landTex (s : State) (x : Land) (pos : Nat) (ws : List Word) : State :=
  match x.p.resv with
  | none =>
    let s1 := if x.p.a = 1 then s.result x.w.id x.p.lane x.p.dst ws else s
    match s1.wave? x.w.id with
    | some w => s1.setWave (w.drop pos)
    | none => s1
  | some r => match s.wave? x.w.id with
    | some w => (s.setWave { w with out := w.out.set pos { x.p with
        lanes := 0
        c := 2
        done := true
        ext := ws } }).fillSpl w.id x.k.id r
    | none => s

/-- A request is computed: with a v destination once its thread has reached a marker or waits, and then it lands
at the thread's marker or end (spec/09 R278). -/
def State.landSampler (s : State) (x : Land) (pos : Nat) : Except Stop State :=
  if x.p.c ≠ 1 || (x.p.resv.isNone && !x.atEnd s && (x.w.th x.p.lane).run == .ready) then .error .park
  else match s.sampled x pos with
    | .error e => .error (.trap (e.atUnit 4))
    | .ok (ws, s1) =>
      let s2 := s1.stat x.t.id 3 1
      .ok (if x.p.resv.isSome || x.atEnd s then s2.landTex x pos ws
        else s2.setPend x.w.id pos { x.p with
          done := true
          c := 3
          ext := ws })

/-- What waited for the thread's marker or end lands: the words of a request, UNDEFINED where the thread stored
since it was computed (spec/09 R278), or the bytes of stc where a source was written again (spec/02 R66). -/
def State.landKept (s : State) (x : Land) (pos : Nat) : Except Stop State :=
  if !x.atEnd s then .error .park
  else match x.p.i with
    | .stc y =>
      if x.p.taint then (s.landBytes x y.sp none x.av (x.data s (memBytes y.ty) 0)).map fun s1 =>
        s1.dropPend x.w.id pos
      else .ok (s.dropPend x.w.id pos)
    | _ => .ok (s.landTex x pos (x.p.ext.mapIdx fun i v => x.word s i v))

/-- wcpin (R244). -/
def State.landWcpin (s : State) (x : Land) (unpin : Bool) : Except Stop State :=
  let v : TexEnv := ⟨x.t, x.queue, x.actor, x.p.since⟩
  match s.texHeader v true x.av with
  | .error e => .error (.trap (e.atUnit 4))
  | .ok (g, s1) =>
    if unpin then
      .ok (s1.unpin x.k.id fun y => y.core == x.k.core && y.asid == s.asid x.t.ctx && y.tag == g.tag)
    else match s1.pinLayers v x.k.core x.k.id x.av g.tag g.net 0 with
      | (s2, none) => .ok s2
      | (s2, some e) =>
        if e.cause == .pageNotPresent then .error (.trap (e.atUnit 4))
        else .ok (s2.deferFault x.w.id x.p.lane x.p.slot x.k.id (e.atUnit 4))

/-! ## RESULT_LAND -/

/-- A result that was computed at issue. -/
def State.landDone (s : State) (x : Land) : State :=
  let s1 := s.result x.w.id x.p.lane x.p.dst x.p.ext
  match s1.wave? x.w.id with
  | none => s1
  | some w =>
    let w1 := w.orFlags (1#64 <<< x.p.lane) fun _ => x.p.flags
    s1.setWave (match x.p.i with
      | .shfl _ y => if y.kout = 0 then w1 else
          w1.setK y.kout.val (1#64 <<< x.p.lane) 0 (if x.p.c = 1 then BitVec.allOnes 64 else 0)
      | _ => w1)

/-- The effect of an outstanding access at its place in the order. -/
def State.landAccess (s : State) (x : Land) (pos : Nat) : Except Stop State :=
  match x.p.i with
  | .ldx y => s.landLdx x y
  | .sysc y => s.landSysc x y
  | .ld y => s.landLd x y
  | .st y => s.landSt x y
  | .stSy y => s.landArrival x y.sp y.ty none y.ord x.bv
  | .sld y => s.landSld x y
  | .sst y => s.landSst x y
  | .itld y => s.landItld x y
  | .itst y => s.landItst x y
  | .atom o y => s.landAtom x o y
  | .red o y => s.landRed x o y
  | .redx o y => s.landArrival x y.sp y.ty (some o) none x.bv
  | .cadd y => s.landCadd x y
  | .fence _ k c => s.landFence x k c
  | .sealRegion _ _ _ => s.landSeal x true
  | .unsealRegion _ _ _ => s.landSeal x false
  | .tenq _ _ => s.landTenq x pos
  | .vmm y => s.landVmm x y
  | .kmma _ b4 d _ _ => s.landKmma x b4 d
  | .wcpin _ unpin _ => s.landWcpin x unpin
  | .wcinv _ t => if !x.queue.isEmpty then .error .park else
      .ok (s.invalidateLayers x.k.core (s.asid x.t.ctx) (t.map fun _ => BitVec.ofNat 32 x.av))
  | .vbld _ f d _ _ n =>
    (s.doVbld x.t (x.w.th x.p.lane).storeQ f (x.av % 2 ^ 32) (x.av / 2 ^ 32) n.toNat x.bv (x.src? x.p.lane) x.actor).map
      fun r => r.2.result x.w.id x.p.lane d r.1
  | _ => .error .park

/-- Whether a result is a sampler's request. -/
def samples : Instr → Bool
  | .smpl _ _ | .smpg _ _ | .smpq _ _ _ _ _ _ | .latf _ _ => true
  | _ => false


/-- An outstanding access or request is made, and leaves its wave or stays for its marker. -/
def State.landAt (s : State) (x : Land) (pos : Nat) : Except Stop State :=
  match x.p.i with
  | .stc y => s.landStc x pos y
  | .swp _ y | .itx _ y => s.landSweep x pos y.ty
  | i => if samples i then s.landSampler x pos
    else (s.landAccess x pos).map fun (s1 : State) => s1.dropPend x.w.id pos

/-- A fault found after issue (spec/02 R67, spec/06 R159, R160): an absent page is resolved and the
access repeated, in a long instruction with its whole segment (spec/06 R169); a helper ends; any other is held until
the thread's marker or end, or until the next issue of a long instruction. -/
def State.landFault (s : State) (x : Land) (pos : Nat) (e0 : Trap) : State :=
  let e := { e0 with lane := some x.p.lane, slot := x.p.slot }
  let gone := x.p.lanes &&& ~~~x.w.helperMask == 0
  if gone then
    let s1 := s.setWave (x.w.endHelpers x.p.lanes)
    if x.p.resv.isSome then s1.landTex { x with p := { x.p with a := 0 } } pos [] else s1.dropPend x.w.id pos
  else if e.cause == .pageNotPresent && segmented x.p.i then
    let m := x.w.alike x.p.lane
    s.takeStop (x.w.cutSegment m x.p.i x.p.slot ((x.w.th x.p.lane).pix.toNat % 2 ^ 32)) m x.p.slot (.trap e)
  else if e.cause == .pageNotPresent then
    let s1 := s.setWave { x.w with out := x.w.out.set pos { x.p with wait := some e.page } }
    s1.postResolve x.t.ctx ⟨1, x.t.att, x.t.name, srcOf x.w.core x.w.wslot x.p.lane, x.p.slot, e⟩
  else (s.deferFault x.w.id x.p.lane x.p.slot x.k.id e).dropPend x.w.id pos

/-- The wave, crew, task and result a position names. -/
def State.land? (s : State) (core wslot pos : Nat) : Option Land :=
  match s.waveAt? core wslot with
  | none => none
  | some w => match w.out[pos]?, s.crew? w.crew with
    | some p, some k => match s.task? k.task with
      | some t => some ⟨w, k, t, p⟩
      | none => none
    | _, _ => none

/-- Whether a load or store of normal mode may be performed before an earlier plain load: it touches other bytes, and
neither is strongly ordered (spec/09 R273, R277). -/
def State.looseOver (s : State) (x : Land) (q : Pend) : Bool :=
  let plain (st : Bool) (p : Pend) : Option (Space × Nat × Bool) := match p.i with
    | .ld y => if y.ord.isNone && y.sp != .bcast then some (y.sp, memBytes y.ty, false) else none
    | .st y => if st && y.ord.isNone then some (y.sp, memBytes y.ty, true) else none
    | _ => none
  if !s.relaxed x.t then false
  else match plain false q, plain true x.p with
  | some (sp, n, _), some (sp', n', wr) =>
    match s.target x.k x.t sp false n q.a.toNat, s.target x.k x.t sp' wr n' x.p.a.toNat with
    | .ok tg, .ok tg' =>
      match s.locOf x.t false tg, s.locOf x.t wr tg' with
      | some (pl, a), some (pl', a') =>
        !placesMeet pl a n pl' a' n' && kindOf (s.physOf x.t false tg) != .so
          && kindOf (s.physOf x.t wr tg') != .so
      | _, _ => false
    | _, _ => false
  | _, _ => false

/-- Whether a result waits for an absent page, or for an earlier one. -/
def State.heldBack (s : State) (x : Land) (pos : Nat) : Bool :=
  (!x.p.done && x.p.wait.isSome) || (x.w.out.take pos).any fun q => q.holds x.p && !s.looseOver x q

/-- RESULT_LAND: an outstanding result of a wave lands, or its access is performed. -/
def execResultLand (core wslot pos : Nat) (s : State) : Host.Outcome State Fault Refusal :=
  match s.land? core wslot pos with
  | none => .fault .notEnabled
  | some x =>
    let kept := x.p.done && x.p.c = 3 && (samples x.p.i || segmented x.p.i)
    if s.heldBack x pos || (samples x.p.i && x.p.c = 2) || (x.p.done && !kept && segmented x.p.i) then
      .fault .notEnabled
    else if x.p.done && !kept then .next ((s.landDone x).dropPend x.w.id pos)
    else match (if kept then s.landKept x pos else s.landAt x pos) with
      | .ok s1 => .next s1
      | .error .park => .fault .notEnabled
      | .error (.trap e) => .next (s.landFault x pos e)
      | .error (.diverge i d a) => .next (s.diverge x.t.ctx i d a)

/-! ## Stores leave their queues (spec/09 R276) -/

/-- Whether a queued store may leave for memory. -/
def Wave.mayLeave (w : Wave) (l pos : Nat) (e : StoreEnt) : Bool :=
  let before := (w.th l).storeQ.take pos
  before.all (fun d => !d.meets e.place e.addr e.bytes.length && decide (e.barrier ≤ d.barrier)
      && (!e.rel || d.leaf.kind == .uo))
    && (List.range l).all fun m => (w.th m).storeQ.all fun d =>
      !(d.issue == e.issue && d.slot == e.slot && d.meets e.place e.addr e.bytes.length)

/-- The write of a store that reaches its line at a translated address: a release is logged. -/
def State.storeAt (s : State) (t : Task) (w : Wave) (l : Nat) (e : StoreEnt) (p : Phys) : Except Stop State :=
  let msgs := e.msgs.map fun m => m.raise (s.moment + 1)
  let o : LogOp := { accessOp 2 (recFlags (.glob e.own) (some p) false true false true) (sizeCode e.bytes.length)
    (srcOf w.core w.wslot l) (.glob e.own) (some p) with home := homeOf p.asid p.va }
  match s.logged t.ctx (if e.rel then some o else none) 0 (fun s =>
      match s.writePhys (s.task? t.id) false p e.bytes with
      | .error y => .error (.trap (lineTrap y 13 e.own (s.asid t.ctx) 0 p.pa))
      | .ok s1 => .ok ((), leNat e.bytes, [], if t.versioned then s1
          else s.recordWrite s1 (w.agent l) p.place p.pa e.bytes.length msgs false e.rel)) with
  | .error y => .error y
  | .ok (_, s1) => .ok s1

/-- A store leaves its queue. One whose page has been sealed since faults; where its translation has changed otherwise,
it is performed through the one it had, or walks afresh (spec/06 R182; spec/10 R292, R294). -/
def State.leaveStore (s : State) (t : Task) (w : Wave) (l : Nat) (e : StoreEnt) : Except Stop State :=
  let msgs := e.msgs.map fun m => m.raise (s.moment + 1)
  match e.place with
  | .spad _ => match s.writeAt e.place e.addr e.bytes with
    | .ok s1 => .ok (s.recordWrite s1 (w.agent l) e.place e.addr e.bytes.length msgs false false)
    | .error y =>
      let k := (s.crew? w.crew).map (·.spadBase)
      .error (.trap (lineTrap y 13 (e.addr - k.getD 0) (s.asid t.ctx) 1 0))
  | _ =>
    let old : Phys := { place := e.place, pa := e.addr, leaf := e.leaf, asid := e.asid, va := e.va
                        via := if e.place == .peer || e.va ≠ e.own then none else some w.core }
    match s.translate (taskAcc t true (some w.core)) e.own with
    | .ok p => s.storeAt t w l e (if p.leaf == old.leaf && p.pa = old.pa
        || Config.freeChoice (s.freeN * 2 ^ 64 + 2 ^ 45 + e.own) then p else old)
    | .error y =>
      if y.cause == .sealedWrite || Config.freeChoice (s.freeN * 2 ^ 64 + 2 ^ 45 + e.own) then .error (.trap y)
      else s.storeAt t w l e old

/-- Store number `pos` of a thread's queue leaves. -/
def State.leave (s : State) (r : ThreadRef) (pos : Nat) : Host.Outcome State Fault Refusal :=
  match s.waveAt? r.core r.wslot with
  | none => .fault .notEnabled
  | some w => match (w.th r.lane).storeQ[pos]?, (s.crew? w.crew).bind fun k => s.task? k.task with
    | some e, some t =>
      if !w.mayLeave r.lane pos e || (e.rel && s.sending w r.lane) then .fault .notEnabled
      else
        let gone (s : State) : State := match s.wave? w.id with
          | some w1 => s.setWave (w1.each (1#64 <<< r.lane) fun _ th => { th with storeQ := th.storeQ.eraseIdx pos })
          | none => s
        match s.leaveStore t w r.lane e with
        | .ok s1 => .next (gone s1)
        | .error .park => .fault .notEnabled
        | .error (.diverge i d a) => .next (s.diverge t.ctx i d a)
        | .error (.trap y) => .next ((gone s).deferFault w.id r.lane e.slot w.crew y)
    | _, _ => .fault .notEnabled

end Sys2Proof.Machine
end

