-- ==== Sys2Proof/Machine/Settle.lean ====
section
/-! DEFINITION. What follows at once from a change of state (spec/01 R38): threads that leave their marker,
end or go on; quads that exchange; replies that land; waves and crews that have ended. -/

namespace Sys2Proof.Machine

/-! ## Markers (spec/02 R64 to R67) -/

/-- A record of UNDEFINED bits. -/
def State.freeRecord (s : State) (tag : Nat) : BitVec 512 :=
  BitVec.ofNat 512 (leNat ((List.range 8).flatMap fun i => leBytes 8 (s.fresh (tag * 8 + i)).toNat))

/-- UNDEFINED values in the registers that were written again while a result was outstanding (R65). -/
def Wave.scramble (w : Wave) (s : State) (l : Nat) : List Nat → Wave
  | [] => w
  | c :: r =>
    let x := s.fresh (2 ^ 45 + l * 2 ^ 12 + c)
    let w1 : Wave :=
      if c < 0x100 then w.each (1#64 <<< l) fun _ th => th.setV c false x.toNat
      else if c < 0x140 then { w with sp := w.sp.set (c - 0x100) x }
      else if 0x300 ≤ c && c < 0x310 then w.setK (c - 0x300) (1#64 <<< l) 0 x
      else if 0x320 ≤ c then { w with iters := w.iters.set (c - 0x320) (s.freeRecord (2 ^ 52 + c)) }
      else w
    w1.scramble s l r

/-- The shared s registers among them. -/
def State.scrambleShared (s : State) (crew l : Nat) (cs : List Nat) : State :=
  match s.crew? crew with
  | none => s
  | some k => s.setCrew { k with ss := cs.foldl (fun ss c =>
      if 0x140 ≤ c && c < 0x300 then ss.set (c - 0x140) (s.fresh (2 ^ 45 + l * 2 ^ 12 + c)) else ss) k.ss }

/-- A thread's results are visible: nothing of it is in flight. -/
def State.clearFlight (s : State) (id l : Nat) : State :=
  match s.wave? id with
  | none => s
  | some w =>
    let cs := (w.th l).dbl
    let w1 := (w.scramble s l cs).each (1#64 <<< l) fun _ th => { th with fly := [], dbl := [] }
    (s.setWave w1).scrambleShared w.crew l cs

/-- A fault at acceptance (spec/07 R199): the command does nothing and no later one runs. -/
def State.refuseCmd (s : State) (k : Crew) (t : Task) (c : Cmd) (e : Trap) : State :=
  match k.cmds with
  | h :: _ =>
    if h.seq = c.seq then s.stopCmd k t c (.trap e)
    else (s.setCrew { k with cmds := k.cmds.map fun d =>
        if d.seq == c.seq then { d with
          accepted := true
          wait := some (2 ^ 64) } else d }).deferFault c.wave c.lane c.slot k.id e
  | [] => s

/-- The engine accepts the commands of a thread before its marker passes. -/
def State.acceptAll (s : State) (w : Wave) (l : Nat) : State :=
  match s.crew? w.crew with
  | none => s
  | some k => match s.task? k.task with
    | none => s
    | some t => (k.cmds.filter fun c => c.wave == w.id && c.lane == l && !c.accepted).foldl (fun s c =>
        match s.crew? k.id with
        | none => s
        | some k1 => match s.acceptCmd k1 t c with
          | some e => s.refuseCmd k1 t c e
          | none => s.setCrew { k1 with cmds := k1.cmds.map fun d =>
              if d.seq == c.seq then { d with accepted := true } else d }) s

/-- Whether a thread stands where its results are waited for. -/
def Thread.atMarker (th : Thread) : Bool :=
  match th.run with
  | .marker | .leaving _ => true
  | .hold .mmac => th.dfault.isSome
  | _ => false

/-- The lanes of a wave whose results have all landed, at a marker, at their end, or held in a cluster
operation that faulted. -/
def Wave.settled (w : Wave) : List Nat :=
  (List.range w.width).filter fun l => (w.th l).atMarker && !w.outstanding l

/-- Lanes with a deferred fault of an instruction, ascending. -/
def Wave.faulted (w : Wave) (slot : Nat) : List (Nat × Trap) :=
  (List.range w.width).filterMap fun l => match (w.th l).dfault with
    | some e => if e.slot = slot then some (l, e) else none
    | none => none

/-- The deferred fault that is taken now: a thread has reached its marker or end with it, and lower lanes have no
access of that instruction left, queued stores among them; the lowest lane that faulted is named (spec/06 R159). -/
def Wave.dueFault (w : Wave) : Option (Nat × Trap) :=
  match w.settled.findSome? fun l => match (w.th l).dfault with
      | some e =>
        if (w.out.any fun q => !q.done && q.slot == e.slot && decide (q.lane < l))
            || (List.range l).any fun m => (w.th m).storeQ.any fun d => d.slot == e.slot then none
        else some e
      | none => none with
  | some e => (w.faulted e.slot).head?
  | none => none

/-- Whether a thread may end: its stores have been performed where its record or its wave needs them. -/
def State.drained (s : State) (w : Wave) (l : Nat) : Bool :=
  (w.th l).storeQ.isEmpty && !s.sending w l

/-- A continuation record of a thread (spec/04 R109). -/
def Thread.record (th : Thread) (t : Task) (mode resume kind : Nat) (tick moment : Nat) : Rec :=
  { task := t.id, khdr := t.hdr.va, resume := resume, kind := kind, mode := mode % 64, tid := th.tid,
    rngk := th.rngk, rngc := th.rngc, live := th.v.take t.hdr.live, hit := 0, born := tick,
    view := th.ord.passes moment true }

/-- Ends a thread. -/
def State.endLane (s : State) (id l : Nat) : State :=
  match s.wave? id with
  | some w => s.setWave (w.each (1#64 <<< l) fun _ th => { th with run := .ended, since := s.tick })
  | none => s

/-- Room in a regroup pool (spec/12 R355). -/
def Cluster.room (c : Cluster) : Bool := decide (c.pool.length + c.rays.length < 16384)

/-- A thread leaves: it ends, or its record or ray enters its cluster (R107, R108, spec/08 R247). -/
def State.leaveLane (s : State) (w : Wave) (t : Task) (l : Nat) (y : Leaving) : State :=
  let th := w.th l
  let c := s.cluster (clusterOf w.core)
  match y with
  | .exit => s.endLane w.id l
  | .cont resume mode =>
    if s.drained w l && c.room then
      (s.setCluster (clusterOf w.core) { c with pool := c.pool ++ [th.record t mode resume 1 s.tick s.moment] }).endLane w.id l
    else s
  | .trace resume mode any cull ray root =>
    if s.drained w l && c.room then
      let r : Ray := { record := th.record t mode resume 2 s.tick s.moment, any := any, cull := cull, ray := ray,
                       stack := [root.toNat], steps := 0, best := none, since := s.moment, parked := none }
      ((s.setCluster (clusterOf w.core) { c with rays := c.rays ++ [r] }).endLane w.id l).stat t.id 4 1
    else s

/-- One thread whose results have landed goes on. -/
def State.settleLane (s : State) (id l : Nat) : State :=
  match s.wave? id with
  | none => s
  | some w => match (s.crew? w.crew).bind fun k => s.task? k.task with
    | none => s
    | some t =>
      let s1 := s.acceptAll w l
      match s1.wave? id with
      | none => s1
      | some w1 =>
        let th := w1.th l
        if th.dfault.isSome then s1
        else match th.run with
          | .marker => match (s1.clearFlight id l).wave? id with
            | some w2 => (s1.clearFlight id l).setWave (w2.each (1#64 <<< l) fun _ th =>
                { th with run := .ready, since := s.tick })
            | none => s1
          | .leaving y => (s1.clearFlight id l).leaveLane ((s1.clearFlight id l).wave? id |>.getD w1) t l y
          | _ => s1

/-- Markers and ends of a wave; a fault that is due is taken unless the wave is halted. -/
def State.settleMarkers (s : State) (id : Nat) : State :=
  match s.wave? id with
  | none => s
  | some w =>
    let s1 := w.settled.foldl (fun s l => s.settleLane id l) s
    match s1.wave? id with
    | none => s1
    | some w1 => match w1.dueFault with
      | some (l, e) =>
        if w1.halted then s1
        else
          let w2 := w1.each (1#64 <<< l) fun _ th => { th with dfault := none }
          s1.takeFault w2 (1#64 <<< l) e.slot e
      | none => s1

/-! ## Joins, barriers and other waits (spec/04 R113, spec/06 R184 to R190) -/

/-- The lanes that wait at a join slot. -/
def Wave.joining (w : Wave) (slot : Nat) : BitVec 64 :=
  maskOf fun l => match (w.th l).run with
    | .wait (.join n _) => n == slot
    | _ => false

/-- Whether every thread that a join's mask names has ended or waits at it. -/
def Wave.joined (w : Wave) (slot k : Nat) : Bool :=
  let m := if k = 0 then w.all else getAt w.k (k - 1) 0 &&& w.all
  (lanesOf m).all fun l => (w.th l).run == .ended || (w.joining slot).getLsbD l

/-- Releases the joins that are complete. -/
def Wave.settleJoins (w : Wave) (tick : Nat) : Wave :=
  (List.range w.width).foldl (fun w l => match (w.th l).run with
    | .wait (.join slot k) =>
      if w.joined slot k then w.each (w.joining slot) fun _ th => th.release tick else w
    | _ => w) w

/-- Releases a lane, with what happens before its next events (spec/09 R270). -/
def State.goOn (s : State) (id l : Nat) (v : View) : State :=
  match s.wave? id with
  | some w => s.setWave ((w.orders (1#64 <<< l) fun _ o => o.learns v).releaseLane l s.tick)
  | none => s

/-- A wait of one lane on its crew's barriers or scratchpad. -/
def State.settleWait (s : State) (id l : Nat) : State :=
  match s.wave? id with
  | none => s
  | some w => match s.crew? w.crew with
    | none => s
    | some k =>
      let th := w.th l
      let bad (e : Mismatch) : State :=
        s.takeFault w (1#64 <<< l) th.pc { mismatchTrap e 0 (e.addr - k.spadBase) (s.asid (s.ctxOfCrew k.id)) 1 0 with
          lane := some l, slot := th.pc }
      match th.run with
      | .wait (.bar b phase _) =>
        let x := getAt k.bars b .idle
        if x.phase ≠ phase then s.goOn id l x.last else s
      | .wait (.gen adr g) => match s.readAt (.spad k.core) adr 16 with
        | .error e => bad e
        | .ok bs => if genAfter (fieldOf bs 8 4) g then s.goOn id l (k.synced adr) else s
      | .wait (.chunk adr mask any) => match s.readAt (.spad k.core) adr 8 with
        | .error e => bad e
        | .ok bs => if chunkTest any (leNat bs) mask then
            (s.goOn id l (.upTo s.moment)).updTask k.task fun t => { t with tOpw := s.tick } else s
      | _ => s

/-! ## Quads (spec/05 R145, spec/08 R234) -/

/-- The issue that an exchange reads registers for. -/
def Wave.atSlot (w : Wave) (slot : Nat) : Issue :=
  { wave := w.id, lanes := w.all, slot := slot, first := slot, next := slot + 1, pair := false, word := 0,
    lineWord := 0, mode := w.mode, masks := [], inp := false, moved := 0 }

/-- The slot at which the quad from lane b is complete. -/
def Wave.quadSlot (w : Wave) (b : Nat) : Option Nat :=
  match (List.range 4).find? fun i => (w.th (b + i)).run == .quad with
  | none => none
  | some i =>
    let slot := (w.th (b + i)).pc
    if (List.range 4).all fun j => (w.th (b + j)).run == .ended
        || ((w.th (b + j)).run == .quad && (w.th (b + j)).pc == slot) then some slot else none

/-- The coordinates of a request. -/
def Pend.coords (p : Pend) : List Word := p.ext.take 3

/-- Difference of coordinate k between two positions of a quad, rounded to f32. -/
def coordDiff (a b : List Word) (k : Nat) : Word :=
  BitVec.ofNat 32 (addOf true .f32 rne (Fmt.f32.decode false (getAt a k 0).toNat)
    (Fmt.f32.decode false (getAt b k 0).toNat)).1

/-- A request with the differences of its quad: `q` gives a position's coordinates. -/
def Pend.withQuad (p : Pend) (q : Nat → List Word) : Pend :=
  let i := p.lane % 4
  let d (f : Nat → Word) : List Word := (List.range 3).map f
  { p with
    ext := p.ext.take 8 ++ d (coordDiff (q (i ||| 1)) (q (i &&& 2))) ++ d (coordDiff (q (i ||| 2)) (q (i &&& 1)))
    c := 1 }

/-- The coordinates of position i of a quad as the request `p` reads them (R234). -/
def quadCoords (ps : List Pend) (b : Nat) (p : Pend) (i : Nat) : List Word :=
  match ps.find? fun q => q.lane == b + i with
  | some q => q.coords
  | none => match ps.find? fun q => q.lane == b + (i ^^^ 1) with
    | some q => q.coords
    | none => p.coords

/-- An outstanding exchange of a lane at a slot. -/
def Pend.isQuad (p : Pend) (b slot : Nat) : Bool :=
  let exchange : Bool := match p.i with
    | .qswp _ _ => true
    | i => samples i && p.c != 1 && p.c != 2
  exchange && !p.done && (p.slot == slot || p.slot == slot + 1) && decide (b ≤ p.lane) && decide (p.lane < b + 4)

/-- A lane as a qswp that writes the registers `cs` reads it: its own results are not in flight yet (R65). -/
def Thread.beside (th : Thread) (cs : List Nat) : Thread :=
  { th with fly := th.fly.filter fun c => !cs.contains c || th.dbl.contains c }

/-- The exchange of one quad: values for qswp, differences for a sampler's level. -/
def State.exchange (s : State) (id b slot : Nat) : State :=
  match s.wave? id with
  | none => s
  | some w => match s.crew? w.crew with
    | none => s
    | some k => match s.task? k.task with
      | none => s
      | some t =>
        let ps := w.out.filter fun p => p.isQuad b slot
        let own (l : Nat) : List Nat := (ps.filter fun p => p.lane == l && p.a != 0).flatMap fun p => p.i.writeCodes
        let e : Env := ⟨w.atSlot slot, w.each w.all fun l th => th.beside (own l), k, t⟩
        let new (p : Pend) : Option Pend :=
          if !p.isQuad b slot then some p
          else match p.i with
            | .qswp o x =>
              if p.a = 0 then none
              else
                let n := qPartner o p.lane
                let v := if p.a = 2 || (w.th n).run == .ended then 0 else e.src s n x.ty.wide x.a
                some { p with
                  done := true
                  ext := wordsOf x.ty.wide v }
            | _ =>
              if p.a = 1 then some (p.withQuad (quadCoords ps b p))
              else if p.resv.isSome then some { p with
                lanes := 0
                c := 2
                done := true
                ext := [] }
              else none
        let m := maskOf fun l => decide (b ≤ l) && decide (l < b + 4) && (w.th l).run == .quad
        (ps.filterMap fun p => p.resv).foldl (fun s r => s.fillSpl id k.id r)
          (s.setWave (({ w with out := w.out.filterMap new }).each m fun _ th => th.release s.tick))

/-- Exchanges of every complete quad of a wave. -/
def State.settleQuads (s : State) (id : Nat) : State :=
  match s.wave? id with
  | none => s
  | some w => (List.range (w.width / 4)).foldl (fun s i => match s.wave? id with
      | none => s
      | some w1 => match w1.quadSlot (4 * i) with
        | some slot => s.exchange id (4 * i) slot
        | none => s) s

/-! ## Replies (spec/04 R116) -/

/-- The record of a reply that lands (spec/13 R370). -/
def State.replyRecord (s : State) (c : Call) (ext : List Byte) : LogOp :=
  let src := match s.wave? c.wave with
    | some w => srcOf w.core w.wslot (lowLane c.mask)
    | none => c.src
  let core := src % 8 * 64 + src / 8 % 8 * 8 + src / 64 % 8
  { kind := 7, src := src, home := localHome core,
    addr := c.callno.toNat + c.nrep * 2 ^ 32 + c.form * 2 ^ 34, value := c.mask.toNat, ext := ext }

/-- Words of a reply, r-major over the lanes of the mask, as its record carries them. -/
def replyWord (c : Call) (bs : List Byte) (r l : Nat) : Word :=
  match (lanesOf c.mask).findIdx? (· == l) with
  | some i => BitVec.ofNat 32 (fieldOf bs (4 * (r * countLanes c.mask + i)) 4)
  | none => 0

/-- Delivers the words of a reply: into the reserved elements, or as results. -/
def State.deliverReply (s : State) (c : Call) (bs : List Byte) : State :=
  if c.form = 0 then
    match s.crew? c.crew with
    | none => s
    | some k =>
      let q := k.q c.dst
      let elem (r : Nat) : List Word := (List.range 64).map (replyWord c bs r)
      let q1 := (List.range c.nrep).foldl (fun (q : QReg) r => { q with elems := fillElem c.token (elem r) q.elems }) q
      (s.setCrew (k.setQ c.dst q1)).wakeCrew k.id
  else match s.wave? c.wave with
    | none => s
    | some w => s.setWave { w with out := w.out.map fun p => match p.i with
        | .syscWait _ => if p.c.toNat = c.token && !p.done then { p with
            done := true
            ext := (List.range c.nrep).map fun r => replyWord c bs r p.lane } else p
        | _ => p }

/-- A reply lands: its record is written, or in replay its words are those of its record. -/
def State.landReply (s : State) (ctx : Nat) (c : Call) (bs : List Byte) : Except Stop State :=
  let o := s.replyRecord c bs
  let extn := (4 * c.nrep * countLanes c.mask + 22) / 23
  match s.logGate ctx o extn (s.selThread ctx o.src) with
  | .stop x => .error x
  | .go g =>
    let words := match g with
      | some (i, r) => s.extPayload ctx i (fieldOf r 3 1)
      | none => bs
    match s.logDone ctx o g with
    | .error x => .error x
    | .ok s1 =>
      let y := s1.ctx ctx
      .ok ((s1.setCtx ctx { y with calls := y.calls.filter fun d => d.token != c.token }).deliverReply c words)

/-- The place of a physical address that a package unit reads. -/
def State.physPlace (s : State) (pa : Nat) : Place :=
  match s.linkAt pa with
  | some (true, _, _) => .peer
  | some (false, _, _) => .host
  | none => .dev

/-- The oldest reply rung: refused with FORMAT, ending its task, landing, or waiting for log space. -/
def State.readReply (s : State) (ctx pa : Nat) : Option State :=
  let gone : State := s.setCtx ctx { s.ctx ctx with replies := (s.ctx ctx).replies.drop 1 }
  let refuse (e : Trap) : Option State := some (gone.refuseRecord ctx 0 10 0 e)
  let bad (o : Nat) : Trap := formatTrap 10 pa 13 o
  let pl := s.physPlace pa
  match s.readAt pl pa 64 with
  | .error e => refuse (mismatchTrap e 10 e.addr 0 0 e.addr)
  | .ok hd =>
    if !allZero (byteRange hd 9 55) then refuse (bad (badFrom hd 9))
    else match (s.ctx ctx).calls.find? fun c => c.token == fieldOf hd 0 8 && !s.replaying ctx with
      | none => refuse (bad 0)
      | some c =>
        if fieldOf hd 8 1 ≠ 0 then
          let y := gone.ctx ctx
          some ((gone.setCtx ctx { y with calls := y.calls.filter fun d => d.token != c.token }).endAttempt c.task
            { cause := .software, lane := some (lowLane c.mask), slot := c.slot
              aux0 := BitVec.ofNat 64 (c.callno.toNat + fieldOf hd 8 1 * 2 ^ 32) }
            (s.replyRecord c []).src c.slot)
        else
          let w := match s.wave? c.wave with
            | some w => w.width
            | none => ((s.task? c.task).map fun t => t.hdr.width).getD 16
          match s.readAt pl (pa + 64) (4 * c.nrep * w) with
          | .error e => refuse (mismatchTrap e 10 e.addr 0 0 e.addr)
          | .ok bs =>
            let words := (List.range c.nrep).flatMap fun r => (lanesOf c.mask).flatMap fun l =>
              byteRange bs (4 * (r * w + l)) 4
            match gone.landReply ctx c words with
            | .ok s1 => some s1
            | .error (.diverge i d a) => some (gone.diverge ctx i d a)
            | .error _ => none

/-- Replies of a context that can land now: in replay the recorded ones, else those rung. -/
def State.settleReplies (s : State) (ctx : Nat) : State :=
  let x := s.ctx ctx
  if x.saved.isSome then s
  else if s.replaying ctx then
    x.calls.foldl (fun s c => match s.landReply ctx c [] with
      | .ok s1 => s1
      | .error _ => s) s
  else match x.replies with
    | pa :: _ => (s.readReply ctx pa).getD s
    | [] => s

/-! ## Ends of waves and crews (spec/04 R107, spec/12 R348) -/

/-- A wave whose threads have ended, with nothing outstanding. -/
def State.waveOver (s : State) (w : Wave) : Bool :=
  w.out.isEmpty && (List.range w.width).all (fun l => (w.th l).run == .ended && (w.th l).storeQ.isEmpty
    && (w.th l).dfault.isNone) && !(s.arrivals.any fun a => a.srcCore == w.core && a.wslot == w.wslot)

/-- A crew whose waves have ended and whose commands are done. -/
def State.crewOver (s : State) (k : Crew) : Bool :=
  !k.done && s.waves.all (fun w => w.crew != k.id) && (k.cmds.isEmpty || k.stuck)

/-- A crew exits: its queues are unbound and its pins released; its window stays until its outputs are
copied. -/
def State.exitCrew (s : State) (k : Crew) : State :=
  let s1 := s.unpin k.id fun y => y.pins.contains k.id
  let outs := match s.task? k.task with
    | some t => !k.cont && t.ops.any fun o => o.out && bitOf o.crews k.idx
    | none => false
  if outs then s1.setCrew { k with
      done := true
      cmds := []
      qs := List.replicate 16 .unbound }
  else { s1 with
    crews := s1.crews.filter fun c => c.id != k.id
    arrivals := s1.arrivals.filter fun a => a.crew != k.id }

/-- Removes what has ended. -/
def State.settleEnds (s : State) : State :=
  let gone := s.waves.filter s.waveOver
  let ends (s : State) (w : Wave) : State := match s.crew? w.crew with
    | some k => s.updTask k.task fun t => { t with view := t.view.join (w.passes w.all s.moment) }
    | none => s
  let s1 := gone.foldl ends { s with waves := s.waves.filter fun w => !s.waveOver w }
  (s1.crews.filter s1.crewOver).foldl (fun s k => s.exitCrew k) s1

/-! ## Version lines (spec/12 R351, R353) -/

/-- The lines of a version that are in the cache. -/
def Task.versionLines (t : Task) : List Nat :=
  ((t.version.cells.map fun c => c.1 / 64).dedup).filter fun n => !t.vspilled.contains n

/-- The home slice of a version line. -/
def lineHome (n : Nat) : Nat := homeOf (n * 64 / 2 ^ 56) (n * 64 % 2 ^ 56)

/-- Lines that slices cannot hold (512 KiB each) leave for the context's spill area: the excess of a task. -/
def State.overfull (s : State) (t : Task) : List Nat :=
  let all := (s.tasks.filter (·.versioned)).flatMap fun u => u.versionLines
  if all.length ≤ 8192 then []
  else t.versionLines.filter fun n => 8192 < (all.filter fun m => lineHome m == lineHome n).length

/-- Bytes of the spill area of a context, 0 where it has none. -/
def State.spillArea (s : State) (c : Nat) : Nat :=
  let v := (s.ctx c).vbase.toNat
  if bitOf v 0 then 2 ^ (v / 2 ^ 56) * 65536 else 0

/-- Spilled lines of a context. -/
def State.spilledLines (s : State) (c : Nat) : Nat :=
  ((s.tasks.filter fun t => t.ctx == c).map fun t => t.vspilled.length).sum

/-- A spill of lines, or VERSION_OVERFLOW where the area is full or off. -/
def State.spillLines (s : State) (t : Task) (ls : List Nat) : State :=
  if ls.isEmpty then s
  else
    let s1 := s.updTask t.id fun x => { x with vspilled := x.vspilled ++ ls }
    if 128 * s1.spilledLines t.ctx ≤ s.spillArea t.ctx then s1
    else s1.endAttempt t.id { cause := .versionOverflow, unit := 12, aux0 := BitVec.ofNat 64 (s.spilledLines t.ctx)
                              aux1 := (s.ctx t.ctx).vbase } (agentSrc 0 0) 0

def State.settleVersions (s : State) : State :=
  (s.tasks.filter (·.versioned)).foldl (fun s t => match s.overfull t with
    | n :: _ => s.spillLines t [n]
    | [] => s) s

/-! ## All of it -/

/-- One pass over waves, contexts and crews. -/
def State.settleOnce (s : State) : State :=
  let ids := s.waves.map (·.id)
  let s1 := ids.foldl (fun s i => s.settleMarkers i) s
  let s2 := { s1 with waves := s1.waves.map fun (w : Wave) => w.settleJoins s1.tick }
  let s3 := ids.foldl (fun s i => match s.wave? i with
    | some w => (List.range w.width).foldl (fun s l => s.settleWait i l) s
    | none => s) s2
  let s4 := ids.foldl (fun s i => s.settleQuads i) s3
  let s5 := ((List.range 64).filter fun c => !((s.ctx c).calls.isEmpty && (s.ctx c).replies.isEmpty)).foldl
    (fun s c => s.settleReplies c) s4
  let s6 := ((List.range 64).filter fun c => (s.ctx c).resolves.any (·.seq.isNone)).foldl
    (fun s c => s.releaseHeld c) s5
  s6.settleEnds.settleVersions

/-- Passes until nothing follows any more, n at most. -/
def State.settleFor (s : State) : (n : Nat) → State
  | 0 => s
  | n + 1 =>
    let s1 := s.settleOnce
    if s1.waves == s.waves && s1.crews == s.crews then s1 else s1.settleFor n

def State.settle (s : State) : State := s.settleFor 8

end Sys2Proof.Machine
end

