-- ==== Sys2Proof/Machine/Window.lean ====
section
/-! DEFINITION. The write rules of the control window (spec/10 R308, spec/17 R452 to R454): reserved and
read-only fields, ranged fields, rings, and refusals. -/

namespace Sys2Proof.Machine

/-- A mask of the fields at (lowest bit, width). -/
def fieldMask (l : List (Nat × Nat)) : Dword :=
  BitVec.ofNat 64 (l.foldl (fun a f => a ||| (2 ^ f.2 - 1) * 2 ^ f.1) 0)

/-- A write with reserved and read-only fields: refused whole where a reserved bit is set; read-only
fields keep their values. -/
def State.plainWrite (s : State) (r : Reg) (reserved ro : List (Nat × Nat)) (v : Dword) : Option State :=
  if v &&& fieldMask reserved ≠ 0 then none
  else some (s.setReg r ((v &&& ~~~(fieldMask ro)) ||| (s.reg r &&& fieldMask ro)))

/-- Whether a ranged field may take a value under its enable: zero only while that is clear. -/
def inRange (en : Bool) (v lo hi : Nat) : Bool := if v = 0 && lo ≠ 0 then !en else decide (lo ≤ v) && decide (v ≤ hi)

/-- A write to a register with EN in bit 0 that is refused while EN = 1, unless it only clears EN. -/
def State.enWrite (s : State) (r : Reg) (v : Dword) (rest : Option State) : Option State :=
  if (s.reg r).getLsbD 0 then (if v = s.reg r &&& ~~~1#64 then some (s.setReg r v) else none) else rest

/-- Occupancy of a ring of free-running indices. -/
def ringOcc (head tail : Nat) : Nat := (head + 2 ^ 31 - tail) % 2 ^ 31

/-- A write of a 31-bit ring index; while the ring is on its occupancy stays within 2^SIZE. -/
def State.indexWrite (s : State) (r : Reg) (v : Dword) (checked : Bool) (occ size : Nat) : Option State :=
  if 2 ^ 31 ≤ v.toNat || (checked && decide (2 ^ size < occ)) then none else some (s.setReg r v)

/-- The outcome of a write: a refused one changes nothing and sets the error flag (R454). -/
def State.written (s : State) (r : Reg) (x : Option State) : Host.Outcome State Fault Refusal :=
  .next (x.getD (s.cwRefuse (8 * r.index)))

/-- Bits of a register that are cleared by writing 1 to them. -/
def State.clearBits (s : State) (r : Reg) (v m : Dword) : State := s.setReg r (s.reg r &&& ~~~(v &&& m))

end Sys2Proof.Machine
end

