-- ==== Sys2Proof/Machine/Commands.lean ====
section
/-! DEFINITION. The command processor (spec/12 R329 to R332): submission queues, their packets, and the
queues' watchdogs (R361, R362). -/

namespace Sys2Proof.Machine

/-! ## Queues -/

def State.sqCtx (s : State) (q : Nat) : Nat := s.field (.sqctl q) 0 6

def State.sqSize (s : State) (q : Nat) : Nat := 2 ^ s.field (.sqbase q) 1 5

def State.sqSlot (s : State) (q : Nat) : Nat := s.field (.sqhead q) 0 20 % s.sqSize q

/-- The command processor's access: it has its queue's privilege (notes/assumptions/15). -/
def State.sqAcc (s : State) (q : Nat) (write : Bool) : Acc :=
  { ctx := s.sqCtx q, prv := s.flag (.sqctl q) 6, write := write }

/-- Whether the command processor works a queue (R332); one with a packet in progress finishes it
(spec/10 R308). -/
def State.sqOn (s : State) (q : Nat) : Bool :=
  (s.flag (.sqbase q) 0 || (s.subq q).held.isSome) && s.flag (.cxsched (s.sqCtx q)) 0

/-- The doorbell (R329). -/
def State.writeSqtail (s : State) (q : Nat) (v : Dword) : Option State :=
  if 2 ^ 20 ≤ v.toNat || s.sqSize q ≤ v.toNat then none else some (s.setReg (.sqtail q) v)

def execSqtailDoorbell (q : Nat) (v : Dword) (s : State) : Host.Outcome State Fault Refusal :=
  if 256 ≤ q then .fault .absent else s.written (.sqtail q) (s.writeSqtail q v)

/-! ## Packets (R330) -/

/-- A packet from its 64 bytes, or its first bad byte. -/
def packetOf (bs : List Byte) : Except Nat RawPacket :=
  let f := fieldOf bs
  let k := f 0 1
  let counter := k = 2 || k = 3
  match firstBad [
      (4 < k, 0),
      (1 < f 1 1, 1),
      (f 2 2 ≠ 0, badFrom bs 2),
      ((k = 1 && f 8 8 % 128 ≠ 0) || (counter && f 8 8 % 8 ≠ 0) || ((k = 0 || k = 4) && f 8 8 ≠ 0), if k = 1 || counter then 8 else badFrom bs 8),
      (!counter && f 0x10 8 ≠ 0, badFrom bs 0x10),
      (!allZero (byteRange bs 0x18 40), badFrom bs 0x18)] with
  | some o => .error o
  | none => .ok { kind := k, irq := bitOf (f 1 1) 0, pseq := BitVec.ofNat 32 (f 4 4),
                  addr := BitVec.ofNat 64 (f 8 8), value := BitVec.ofNat 64 (f 0x10 8) }

/-- Whether a packet read is the one an event names. -/
def RawPacket.is (r : RawPacket) (kind : Nat) (p : Packet) : Bool :=
  r.kind == kind && r.irq == p.irq && r.pseq == p.pseq && r.addr == p.addr && r.value == p.value

/-- The place of a packet's counter: never strongly ordered, never in host memory (R331). -/
def State.packetPhys (s : State) (q : Nat) (r : RawPacket) : Except Trap Phys :=
  match s.translate (s.sqAcc q (r.kind == 3)) r.addr.toNat with
  | .error e => .error (e.atUnit 10)
  | .ok p =>
    if p.leaf.kind == .so || p.place == .host then
      .error (formatTrap 10 (s.field (.sqbase q) 12 44 * 2 ^ 12 + 64 * s.sqSlot q) 1 8)
    else .ok p

/-- Reads the packet at SQHEAD: the packet, or the trap with the packet's number where it is known. -/
def State.readPacket (s : State) (q : Nat) : Except (Trap × Word) (RawPacket × State) :=
  let va := s.field (.sqbase q) 12 44 * 2 ^ 12 + 64 * s.sqSlot q
  match s.gReadAll (s.sqAcc q false) none 10 va 64 with
  | .error e => .error (e, 0)
  | .ok (bs, s1) =>
    let n := BitVec.ofNat 32 (fieldOf bs 4 4)
    match packetOf bs with
    | .error o => .error (formatTrap 10 va 1 o, n)
    | .ok r =>
      if r.kind = 2 || r.kind = 3 then match s1.packetPhys q r with
        | .error e => .error (e, n)
        | .ok _ => .ok (r, s1)
      else .ok (r, s1)

/-- The queue has a packet to read. -/
def State.sqReady (s : State) (q : Nat) : Bool :=
  q < 256 && s.flag (.sqbase q) 0 && s.flag (.cxsched (s.sqCtx q)) 0 && (s.subq q).held.isNone
    && (s.subq q).bp.isNone && s.sqSlot q != s.field (.sqtail q) 0 20

/-- The packet at the head when an event's packet is it. -/
def State.headPacket (s : State) (q kind : Nat) (p : Packet) : Option State :=
  if !s.sqReady q then none
  else match s.readPacket q with
    | .ok (r, s1) => if r.is kind p then some s1 else none
    | .error _ => none

/-- The packet is performed: the head advances past it. -/
def State.advance (s : State) (q : Nat) : State :=
  let x := s.subq q
  (s.setReg (.sqhead q) (BitVec.ofNat 64 ((s.sqSlot q + 1) % s.sqSize q))).setSubq q
    { x with held := none, pos := x.pos + 1, bp := none, bpDone := false }

/-- A refused packet (R331, R10). -/
def State.refusePacket (s : State) (q : Nat) (e : Trap) (pseq : Word) : State :=
  (s.refuseRecord (s.sqCtx q) 0 10 pseq e).advance q

/-- A trap of the command processor: it waits on an absent page, or its packet is refused. None where it
waits already. -/
def State.packetTrap (s : State) (q : Nat) (e : Trap) (pseq : Word) : Option State :=
  if e.cause == .pageNotPresent then
    if (s.ctx (s.sqCtx q)).resolves.any fun r => r.page == e.page then none
    else some (s.postResolve (s.sqCtx q) ⟨1, 0, 0, agentSrc 0 q, 0, { e with xtra := pseq }⟩)
  else some (s.refusePacket q e pseq)

/-- The processor reads a packet that it cannot take: it is refused at once, or its page is asked for. -/
def State.settleQueue (s : State) (q : Nat) : State :=
  if !s.sqReady q then s
  else match s.readPacket q with
    | .ok _ => s
    | .error (e, n) => (s.packetTrap q e n).getD s

/-- All queues that are on. -/
def State.settleQueues (s : State) : State :=
  ((List.range 256).filter fun q => s.flag (.sqbase q) 0).foldl (fun s q => s.settleQueue q) s

/-! ## What packets do (R331) -/

def execNopPacket (q : Nat) (p : Packet) (s : State) : Host.Outcome State Fault Refusal :=
  match s.headPacket q 0 p with
  | none => .fault .notEnabled
  | some s1 => .next (s1.advance q)

/-- Whether every task submitted to the queue before its present packet has retired or ended. -/
def State.tasksDone (s : State) (q : Nat) : Bool :=
  s.tasks.all fun t => !(t.queue == q && decide (t.pos < (s.subq q).pos))

/-- The breakpoint register that a SUBMIT packet meets (spec/16 R443). -/
def State.bpHit (s : State) (q : Nat) (addr : Nat) : Option (Fin 4) :=
  if !s.flag (.dbgctl (s.sqCtx q)) 0 || (s.subq q).bpDone then none
  else
    let khdr : Option Nat := match s.gReadAll (s.sqAcc q false) none 10 (addr + 0x10) 8 with
      | .ok (bs, _) => some (leNat bs)
      | .error _ => none
    (List.finRange 4).find? fun n =>
      let r := s.regNat (.cpbp n.val)
      bitOf r 0 && (!bitOf r 1 || (match khdr with
        | some k => bitsOf k 6 50 == bitsOf r 14 50
        | none => false)) && (!bitOf r 2 || bitsOf r 3 8 == q)

/-- The queue is held before a SUBMIT (spec/16 R443). -/
def State.holdQueue (s : State) (q : Nat) (n : Fin 4) (p : Packet) : State :=
  let s1 := s.setSubq q { s.subq q with bp := some n }
  let s2 := (((s1.setField (.cpbp n.val) 13 1 1).setField .dbgstat 2 1 1).raise 0x20).traceEvent 0 7 (s.sqCtx q)
    (agentSrc 0 q) (q + p.pseq.toNat * 2 ^ 32) 0
  if s.flag .snapctl 14 then s2.trigger else s2

/-- SUBMIT: the record is submitted, and the queue goes on at once. -/
def execSubmit (q : Nat) (p : Packet) (s : State) : Host.Outcome State Fault Refusal :=
  match s.headPacket q 1 p with
  | none => .fault .notEnabled
  | some s1 => match s.bpHit q p.addr.toNat with
    | some n => .next (s.holdQueue q n p)
    | none => match s1.submit (s.sqCtx q) q (s.subq q).pos (s.flag (.sqctl q) 6) p.pseq p.addr.toNat with
      | .ok s2 => .next (s2.advance q)
      | .error .park => .fault .notEnabled
      | .error (.diverge i d a) => .next (s.diverge (s.sqCtx q) i d a)
      | .error (.trap e) => match s.packetTrap q e p.pseq with
        | some s2 => .next s2
        | none => .fault .notEnabled

/-- The queue takes a packet and holds. -/
def State.takePacket (s : State) (q kind : Nat) (p : Packet) : State :=
  s.setSubq q { s.subq q with held := some ⟨kind, p.irq, p.pseq, p.addr, p.value⟩ }

/-- WAIT: the queue holds until the counter reaches the target. -/
def execWait (q : Nat) (p : Packet) (s : State) : Host.Outcome State Fault Refusal :=
  match s.headPacket q 2 p with
  | none => .fault .notEnabled
  | some s1 => .next (s1.takePacket q 2 p)

/-- The packet a queue holds. -/
def State.heldPacket (s : State) (q kind : Nat) : Option RawPacket :=
  if q < 256 && s.sqOn q then match (s.subq q).held with
    | some r => if r.kind = kind then some r else none
    | none => none
  else none

/-- The record of a satisfied WAIT (spec/13 R370 CWAIT, R368). -/
def waitRecord (q : Nat) (r : RawPacket) (p : Phys) (v : Nat) : LogOp :=
  let home := homeOf p.asid p.va
  { kind := 4, flags := 2 + (if p.place == .dev then 0 else 32), opc := 3, src := agentSrc home q, home := home,
    addr := r.addr.toNat, value := v }

/-- The counter is at or above the target: a system-scope acquire, logged as an observation. -/
def execWaitSatisfied (q : Nat) (s : State) : Host.Outcome State Fault Refusal :=
  match s.heldPacket q 2 with
  | none => .fault .notEnabled
  | some r =>
    let c := s.sqCtx q
    match s.packetPhys q r with
    | .error e => match s.packetTrap q e r.pseq with
      | some s2 => .next s2
      | none => .fault .notEnabled
    | .ok p => match s.logGate c (waitRecord q r p 0) 0 (fun bs =>
        fieldOf bs 0 1 == 4 && bitOf (fieldOf bs 4 4) 31 && fieldOf bs 16 8 == r.addr.toNat) with
      | .stop (.diverge i d a) => .next (s.diverge c i d a)
      | .stop _ => .fault .notEnabled
      | .go g => match s.gRead (s.sqAcc q false) none 10 r.addr.toNat 8 with
        | .error e => match s.packetTrap q e r.pseq with
          | some s2 => .next s2
          | none => .fault .notEnabled
        | .ok (bs, s1) =>
          if leNat bs < r.value.toNat then .fault .notEnabled
          else match s1.logDone c (waitRecord q r p (leNat bs)) g with
            | .error (.diverge i d a) => .next (s.diverge c i d a)
            | .error _ => .fault .notEnabled
            | .ok s2 => .next (s2.advance q)

/-- SIGNAL: the queue holds until the tasks submitted before it have retired or ended. -/
def execSignal (q : Nat) (p : Packet) (s : State) : Host.Outcome State Fault Refusal :=
  match s.headPacket q 3 p with
  | none => .fault .notEnabled
  | some s1 => .next (s1.takePacket q 3 p)

/-- Then VALUE is written as a system-scope release, and the completion interrupt raised with IRQ. -/
def execSignalPerform (q : Nat) (s : State) : Host.Outcome State Fault Refusal :=
  match s.heldPacket q 3 with
  | none => .fault .notEnabled
  | some r =>
    if !s.tasksDone q then .fault .notEnabled
    else
      let w : Except Trap State := match s.packetPhys q r with
        | .error e => .error e
        | .ok _ => s.gWrite (s.sqAcc q true) none true 10 r.addr.toNat (leBytes 8 r.value.toNat)
      match w with
      | .error e => match s.packetTrap q e r.pseq with
        | some s2 => .next s2
        | none => .fault .notEnabled
      | .ok s1 =>
        let s2 := s1.advance q
        .next (if r.irq then s2.raise 0x8 else s2)

/-- FENCE: later packets wait until the tasks submitted before it have retired or ended. -/
def execFencePacket (q : Nat) (p : Packet) (s : State) : Host.Outcome State Fault Refusal :=
  match s.headPacket q 4 p with
  | none => .fault .notEnabled
  | some s1 => if s.tasksDone q then .next (s1.advance q) else .fault .notEnabled

/-! ## Watchdogs (R361, R362, spec/13 R382) -/

/-- Limit of a queue's watchdog in clocks; 0 is off. -/
def State.wdLimit (s : State) (q : Nat) : Nat := 1024 * s.field (.sqwd q) 0 16

/-- The state as the log's gate lets every operation of a context pass. -/
def State.openLog (s : State) (c : Nat) : State :=
  if s.logging c then s.setField (.fltail c) 0 31 (s.field (.flhead c) 0 31)
  else s.setField (.flctl c) 1 1 0

/-- Whether an operation of a thread that stops at the gate is parked for log space or for records beyond FLHEAD,
not for its turn (spec/13 R367, R376). -/
def State.needsLog (s : State) (c src : Nat) : Bool :=
  if s.logging c then decide (s.flSize c < s.flOccupancy c + 257)
  else s.replaying c && (s.nextRec c (s.selThread c src)).isNone

/-- Whether an act stops in one state and goes on in another. -/
def opens (a b : Host.Outcome State Fault Refusal) : Bool :=
  match a, b with
  | .next _, _ => false
  | _, .next _ => true
  | _, _ => false

/-- Whether a logged operation of lane l of a wave is parked: one that its thread holds, or that is outstanding. -/
def State.parkedLane (s : State) (c : Nat) (w : Wave) (l : Nat) : Bool :=
  s.needsLog c (srcOf w.core w.wslot l) && ((w.th l).run == .hold .log
    || (let u := s.openLog c
      (List.range w.out.length).any (fun i => (w.out[i]?.map (·.lane)) == some l
        && opens (execResultLand w.core w.wslot i s) (execResultLand w.core w.wslot i u))
      || (List.range (w.th l).storeQ.length).any fun i =>
        opens (s.leave ⟨w.core, w.wslot, l⟩ i) (u.leave ⟨w.core, w.wslot, l⟩ i)))

/-- Whether a thread of a queue's tasks is parked for log space, or halted. -/
def State.excused (s : State) (q : Nat) : Bool :=
  s.waves.any fun w => match (s.crew? w.crew).bind fun k => s.task? k.task with
    | none => false
    | some t => t.queue == q && (w.halted || (List.range w.width).any (s.parkedLane t.ctx w))

/-- Whether a clock without a progress event is stalled for a queue: it has a resident task in STATE 3. -/
def State.stallable (s : State) (q : Nat) : Bool :=
  s.wdLimit q ≠ 0 && s.tasks.any (fun t => t.queue == q && (t.phase == .run || t.phase == .copyOut)
    && s.flag (.cxsched t.ctx) 0 && !(s.ctx t.ctx).divergent) && !s.excused q

/-- A progress event of the tasks of a queue (R361). -/
def State.progress (s : State) (task : Nat) : State :=
  match s.task? task with
  | none => s
  | some t => if s.wdLimit t.queue = 0 then s else s.setSubq t.queue { s.subq t.queue with moved := true }

/-- A clock of the counters: a progress event in it resets a queue's count and its stage. -/
def State.countStall (s : State) : State :=
  ((List.range 256).filter fun q => s.wdLimit q ≠ 0).foldl (fun s q =>
    let x := s.subq q
    if x.moved then
      let s1 := s.setSubq q { x with stall := 0, moved := false }
      if (s.ctx (s.sqCtx q)).preempt || (s.ctx (s.sqCtx q)).saved.isSome then s1
      else s1.setField (.sqwd q) 16 1 0
    else if s.stallable q then s.setSubq q { x with stall := x.stall + 1 }
    else s) s

/-- A kill (R362); the count starts afresh. -/
def State.watchdogKill (s0 : State) (q : Nat) (stall : Nat) : State :=
  let s := s0.setSubq q { s0.subq q with stall := 0 }
  let c := s.sqCtx q
  if s.replaying c then
    s.diverge c (s.field (.fltail c) 0 31) (s.bytesAt .dev (s.flAddr c (s.field (.fltail c) 0 31)) 32) []
  else
    ((s.setCtx c { s.ctx c with saved := none, preempt := false, forced := none, release := false }).killContext c
      { cause := .watchdogKill, unit := 15, aux0 := BitVec.ofNat 64 q, aux1 := BitVec.ofNat 64 stall }).setField
        (.sqwd q) 17 1 1

/-- Pre-emption of a context begins: its waves issue no more, and it is saved when its halted waves have
been released and its results have landed (R359, spec/16 R437). -/
def State.beginPreempt (s : State) (c : Nat) : State := s.setCtx c { s.ctx c with preempt := true }

/-- The count reaches the limit: a forced pre-emption in stage 0, a kill in stage 1; a forced save that
does not end in time is a kill too. -/
def execWatchdogExpiry (q : Nat) (s : State) : Host.Outcome State Fault Refusal :=
  if 256 ≤ q then .fault .absent
  else
    let x := s.subq q
    let c := s.sqCtx q
    let late := match (s.ctx c).forced with
      | some (due, w) => w == q && decide (due ≤ s.tick) && (s.ctx c).preempt
      | none => false
    if s.wdLimit q = 0 then .fault .notEnabled
    else if late then .next (s.watchdogKill q x.stall)
    else if x.stall < s.wdLimit q || (s.ctx c).preempt then .fault .notEnabled
    else if s.flag (.sqwd q) 16 then .next (s.watchdogKill q x.stall)
    else
      let s1 := (s.setField (.sqwd q) 16 1 1).setSubq q { x with stall := 0 }
      let s2 := (s1.setCtx c { s1.ctx c with forced := some (s.tick + s.wdLimit q, q) }).beginPreempt c
      let s3 := s2.traceEvent 0 8 c (agentSrc 0 q) 1 0
      .next (if s.flag .snapctl 12 then s3.trigger else s3)

end Sys2Proof.Machine
end

