-- ==== Sys2Proof/Machine/Links.lean ====
section
/-! DEFINITION. Events of the memory system (spec/10): merge groups, invalidation, the remap filter, the
link ports, and the requests of the host and of peer parts. -/

namespace Sys2Proof.Machine

/-! ## Merge groups (R298) -/

/-- A merge group closes when its window of fabric clocks, 14 to 11 ticks, has passed. -/
def execMergeGroupClose (n : Nat) (s : State) : Host.Outcome State Fault Refusal :=
  match s.merges[n]? with
  | none => .fault .notEnabled
  | some m =>
    if (s.tick - m.opened) * 14 < s.field .msmerge 0 8 * 11 then .fault .notEnabled
    else .next { s with merges := s.merges.eraseIdx n }

/-! ## Invalidation (R293, R294) -/

/-- A write of an MSINV register; ignored while BUSY = 1. -/
def State.writeMsinv (s : State) (n : Nat) (v : Dword) : Option State :=
  if s.inval then some s
  else match n with
    | 0 => s.plainWrite (.msinv 0) [(18, 46)] [] v
    | 1 => s.plainWrite (.msinv 1) [(0, 16), (56, 8)] [] v
    | _ => match s.plainWrite (.msinv 2) [(32, 31)] [] v with
      | none => none
      | some s1 => some { s1 with inval := v.getLsbD 63 }

def execMsinvGo (v : BitVec 64) (s : State) : Host.Outcome State Fault Refusal :=
  s.written (.msinv 2) (s.writeMsinv 2 v)

/-- Whether a page of an address space lies in the range of the invalidation. -/
def State.invalidates (s : State) (asid vpn : Nat) : Bool :=
  let m := s.reg (.msinv 0)
  let first := s.field (.msinv 1) 16 40
  let n := s.field (.msinv 2) 0 32
  m.getLsbD 16 || (decide (m.toNat % 2 ^ 16 = asid) && (n == 0 || (decide (first ≤ vpn) && decide (vpn < first + n))))

/-- A line leaves the caches (R293, R297): a dirty one is written back and counted; a host line that the
link does not take is lost, with a fault record (R307). -/
def State.evict (s : State) (l : Line) : State :=
  let p := s.linePhys l
  let s1 := s.evictLine l
  if s.writable l then s1
  else match s.linkAt p.pa with
    | some (peer, port, _) =>
      let s2 := s1.setMem p.place ((s1.mem p.place).put p.pa (s.freeBytes 2048 64))
      match (List.range 64).find? fun c => s.flag (.cxsched c) 0 && s.asid c == l.asid with
      | none => s2
      | some c => s2.faultRecord c ⟨0, 0, 0, agentSrc 0 0, 0,
          { cause := .linkError, unit := 14, addr := BitVec.ofNat 64 (l.line * 64)
            aux0 := BitVec.ofNat 64 (port + if peer then 32 else 0) }⟩
    | none => s1

/-- The invalidation completes: every store of the range that is on its way has reached its line (R294). -/
def execInvalidationDone (s : State) : Host.Outcome State Fault Refusal :=
  if !s.inval || (s.waves.any fun w => w.threads.any fun th => th.storeQ.any fun e =>
      (match e.place with
        | .spad _ => false
        | _ => true) && s.invalidates e.asid (e.va / 2 ^ 16)) then .fault .notEnabled
  else
    let s1 := (s.up.filter fun u => u.place != .peer && s.invalidates u.asid (u.line / 1024)).foldl
      (fun s u => s.endUp u) s
    let gone := s1.lines.filter fun l => s.flag (.msinv 0) 17 && s.invalidates l.asid (l.line / 1024)
    let s2 := gone.foldl (fun s l => s.evict l) s1
    .next ({ s2 with
      inval := false
      coreLines := if s.flag (.msinv 0) 17 then s2.coreLines.filter fun k => !s.invalidates k.asid (k.line / 1024)
        else s2.coreLines
      walks := s2.walks.filter fun w => !s.invalidates w.asid w.vpn }.setField (.msinv 2) 63 1 0)

/-! ## Remap filter (R296) -/

/-- Insertion by index. -/
def insertRemap (x : Remap) : List Remap → List Remap
  | [] => [x]
  | y :: r => if x.idx ≤ y.idx then x :: y :: r else y :: insertRemap x r

/-- A write of RMSEC commits the entry that RMIDX names. -/
def State.writeRmsec (s : State) (v : Dword) : Option State :=
  match s.plainWrite .rmsec [(59, 5)] [] v with
  | none => none
  | some s1 =>
    let i := s.field .rmidx 0 12
    let rest := s.remap.filter fun r => r.idx != i
    let x := v.toNat
    let e : Remap := ⟨i, bitsOf x 40 16, bitsOf x 0 40, s.field .rmcan 40 16, s.field .rmcan 0 40, bitOf x 57, bitOf x 58⟩
    some { s1 with remap := if bitOf x 56 then insertRemap e rest else rest }

def execRmsecCommit (v : BitVec 64) (s : State) : Host.Outcome State Fault Refusal :=
  s.written .rmsec (s.writeRmsec v)

/-! ## Links (R304, R307) -/

/-- The address and size a result's access makes over a link, with what it does there. -/
def Pend.linkUse (p : Pend) : Option (Nat × Nat × Bool) :=
  let a := p.a.toNat
  let glob (sp : Space) (n : Nat) (w : Bool) : Option (Nat × Nat × Bool) :=
    match sp with
    | .glob | .bcast => some (a, n, w)
    | _ => none
  match p.i with
  | .ld y => glob y.sp (memBytes y.ty) false
  | .st y => glob y.sp (memBytes y.ty) true
  | .sld y => glob y.sp (memBytes y.ty) false
  | .sst y => glob y.sp (memBytes y.ty) true
  | .itld y => glob y.sp 64 false
  | .itst y => glob y.sp 64 true
  | .atom o y => glob y.sp (AtomOp.size o y.ty) true
  | .red o y => glob y.sp (AtomOp.size o y.ty) true
  | .cadd y => if y.crew then none else some (a, 8, true)
  | .tenq _ _ => some (a, 128, false)
  | .vbld _ _ _ _ _ _ => some (p.b.toNat, 8, false)
  | .smpl _ _ | .smpg _ _ | .latf _ _ => some (a, 64, false)
  | _ => none

/-- An outstanding access that the link leaves without a valid response: a deferred LINK_ERROR. A write
to a peer leaves its target UNDEFINED. -/
def State.linkFail (s : State) (core wslot pos : Nat) (late : Bool) : Host.Outcome State Fault Refusal :=
  match s.land? core wslot pos with
  | none => .fault .notEnabled
  | some x =>
    if x.p.done || s.heldBack x pos || (late && decide (s.tick < x.p.issue + 2 ^ 24)) then .fault .notEnabled
    else match x.p.linkUse with
      | none => .fault .notEnabled
      | some (a, n, w) => match s.translate (taskAcc x.t false) a with
        | .error _ => .fault .notEnabled
        | .ok p =>
          if p.place == .dev then .fault .notEnabled
          else
            let (peer, port) := match s.linkAt p.pa with
              | some (peer, port, _) => (peer, port)
              | none => (false, 0)
            let s1 := if w && peer then s.setMem .peer (s.peerMem.put p.pa (s.freeBytes x.p.lane n)) else s
            .next (s1.landFault x pos { cause := .linkError, addr := BitVec.ofNat 64 a
                                        aux0 := BitVec.ofNat 64 (port + if peer then 32 else 0) })

/-- No response within 2^24 clocks. -/
def execLinkTimeout (core wslot pos : Nat) (s : State) : Host.Outcome State Fault Refusal :=
  s.linkFail core wslot pos true

/-- An error completion of the host or of a peer part. -/
def execLinkErrorCompletion (core wslot pos : Nat) (s : State) : Host.Outcome State Fault Refusal :=
  s.linkFail core wslot pos false

/-- A port loses its training. -/
def execLinkDown (port : Nat) (s : State) : Host.Outcome State Fault Refusal :=
  if 20 ≤ port then .fault .absent
  else if !s.links.getLsbD port then .fault .notEnabled
  else .next { s with links := s.links &&& ~~~(1#20 <<< port) }

/-- A port that may be enabled (spec/17 R460 LKEN, R466) is trained. -/
def execLinkTraining (port : Nat) (s : State) : Host.Outcome State Fault Refusal :=
  if 20 ≤ port then .fault .absent
  else if !(Reg.resetValue .clamp).getLsbD (28 + port) then .fault .notEnabled
  else .next { s with links := s.links ||| 1#20 <<< port }

/-- The host recalls a line of its memory, named by its address ÷ 64 (R301, R305): an episode on it ends,
and it leaves the caches. -/
def execHostRecall (line : Nat) (s : State) : Host.Outcome State Fault Refusal :=
  if !(s.links.getLsbD 0 || s.links.getLsbD 1 || s.links.getLsbD 2 || s.links.getLsbD 3) then .fault .notEnabled
  else
    let s1 := s.leaveUp .host (line * 64)
    .next ((s1.lines.filter fun l => l.leaf.loc && l.leaf.pa (l.line * 64) == line * 64).foldl
      (fun s l => s.evict l) s1)

/-! ## Requests of peer parts (R304, R306) -/

/-- A request of a peer part is performed at its home here, in the address space of the context slot its
window names; an error completion goes back where the checks refuse it. -/
def execPeerRequest (ctx : Nat) (addr : BitVec 64) (op : PeerOp) (s : State) : Host.Outcome State Fault Refusal :=
  let va := addr.toNat
  let a (w : Bool) : Acc := { ctx := ctx, prv := false, write := w }
  let done (r : Except Trap State) : Host.Outcome State Fault Refusal := match r with
    | .ok s1 => .next s1
    | .error _ => .next s
  if 64 ≤ ctx then .fault .absent
  else if !s.flag (.cxsched ctx) 0 || s.links.extractLsb' 4 16 = 0 then .fault .notEnabled
  else if 2 ^ 56 ≤ va then .next s
  else match op with
    | .read n =>
      if n = 0 || 64 < va % 64 + n then .next s
      else done ((s.gRead (a false) none 14 va n).map (·.2))
    | .write n d =>
      if n = 0 || 8 < n || va % n ≠ 0 then .next s
      else done (s.gWrite (a true) none true 14 va (leBytes n d.toNat))
    | .atom o ty b c =>
      let n := AtomOp.size o ty
      if n = 0 || va % n ≠ 0 then .next s
      else match s.translate (a true) va with
        | .error _ => .next s
        | .ok p =>
          if o == .add && (ty == .f16 || ty == .bf16) && p.leaf.kind != .so then
            match s.upAdd p ty b.toNat with
            | .ok s1 => .next s1
            | .error _ => .next s
          else
            let home := homeOf p.asid p.va
            let r : LogOp := { kind := 3, flags := if p.leaf.kind == .so then 14 else 0
                               opc := sizeCode n + o.code * 8, src := agentSrc home 0, home := home, addr := va }
            match s.logged ctx (some r) (if o == .cas128 then 1 else 0) (fun s => match s.gRead (a false) none 12 va n with
                | .error e => .error (.trap e)
                | .ok (old, s1) =>
                  match s1.gWrite (a true) none true 12 va (leBytes n (atomNew o ty (leNat old) b.toNat c.toNat)) with
                  | .error e => .error (.trap e)
                  | .ok s2 => .ok ((), leNat (old.take 8), old.drop 8, s2)) with
            | .ok (_, s1) => .next s1
            | .error (.diverge i d x) => .next (s.diverge ctx i d x)
            | .error .park => .fault .notEnabled
            | .error (.trap _) => .next s
    | .tenq =>
      if va % 128 ≠ 0 then .next s
      else match s.submit ctx 0 (2 ^ 64) false 0 va with
        | .ok s1 => .next s1
        | .error (.diverge i d x) => .next (s.diverge ctx i d x)
        | .error .park => .fault .notEnabled
        | .error (.trap _) => .next s

end Sys2Proof.Machine
end

