-- ==== Sys2Proof/Machine/Context.lean ====
section
/-! DEFINITION. Contexts (spec/16 R431 to R437, spec/12 R357 to R359, R363): the images of crews, waves and
threads, saving and restoring a context, residence, time slices; the fault, call and reply queues. -/

namespace Sys2Proof.Machine

/-! ## Images of threads, waves and crews (R433 to R435) -/

def pad64 (bs : List Byte) : List Byte := bs ++ List.replicate (roundUp bs.length 64 - bs.length) 0

/-- TST of a thread. -/
def Wave.tst (w : Wave) (l : Nat) : Nat :=
  match (w.th l).run with
  | .ready => 0
  | .ended => 1
  | .wait _ => 2
  | .hold .log | .hold (.turn _) => 5
  | .hold _ => 2
  | .quad => 4
  | .resolve _ => 3
  | .marker | .leaving _ => if w.out.any fun p => p.lanes.getLsbD l && p.wait.isSome then 3 else 2

/-- WAITV of a thread: the operand values of the instruction that blocks it. -/
def Thread.waitValues (th : Thread) (spad tick : Nat) : Nat × Nat :=
  match th.run with
  | .wait (.bar b _ _) => (b, 0)
  | .wait (.counter _ a t _ _) => (a, t)
  | .wait (.gen a g) => (a - spad, g)
  | .wait (.chunk a m _) => (a - spad, m.toNat)
  | .wait (.park (some due)) => (max 1 (due - tick), 0)
  | _ => (0, 0)

/-- Whether a thread's barrier arrival is counted. -/
def Thread.arrived (th : Thread) : Bool :=
  match th.run with
  | .wait (.bar _ _ a) => a
  | _ => false

def threadLen (h : Header) : Nat := roundUp (192 + 4 * h.vregs) 64

/-- A thread block (R435). -/
def Wave.threadBytes (w : Wave) (k : Crew) (tick l : Nat) : List Byte :=
  let th := w.th l
  let v := th.waitValues k.spadBase tick
  pad64 (pack ([(4, th.pc), (1, w.tst l), (1, if th.arrived then 1 else 0), (2, 0), (8, th.pix.toNat)]
      ++ (th.loops ++ th.lends).map (fun x => (8, x.toNat))
      ++ [(16, th.rngk.toNat), (16, th.rngc.toNat), (8, v.1), (8, v.2), (64, th.hit.toNat)]
      ++ (List.range k.hdr.vregs).map (fun n => (4, (getAt th.v n 0).toNat))))

/-- WW as WAVEW of R35. -/
def widthCode (w : Nat) : Nat := if w = 16 then 0 else if w = 32 then 1 else 2

def waveLen (h : Header) : Nat := 256 + 8 * h.swp + 64 * h.niter + h.width * threadLen h

/-- A wave block (R434). -/
def Wave.image (w : Wave) (k : Crew) (tick : Nat) : List Byte :=
  let pf := w.pendFault
  let head := pack ([(1, w.idx), (1, w.wslot), (1, widthCode w.width), (1, 0), (4, w.fair), (8, w.mode.toNat),
      (8, w.fflags.toNat), (8, w.helperMask.toNat), (1, (if w.halted then 1 else 0) + (if pf.isSome then 2 else 0)),
      (1, (pf.map fun t => t.cause.code).getD 0), (2, 0), (4, (pf.map fun t => t.slot).getD 0), (8, 0)]
    ++ w.k.map fun x => (8, x.toNat))
  head ++ List.replicate (256 - head.length) 0 ++ pack (w.sp.map fun x => (8, x.toNat))
    ++ pack (w.iters.map fun x => (64, x.toNat))
    ++ (List.range w.width).flatMap (w.threadBytes k tick)

/-- The 1,024-byte crew header (R433). -/
def State.crewHeader (s : State) (k : Crew) (nw : Nat) : List Byte :=
  let name := ((s.task? k.task).map fun t => t.name.toNat).getD 0
  let head := pack ([(8, name), (8, k.hdr.va), (1, k.idx), (1, nw), (1, dieOf k.core), (1, k.core / 8 % 8),
      (1, k.core % 8), (3, 0), (8, k.mfmt.toNat)]
    ++ k.qs.flatMap (fun q => [(8, q.bind.toNat % 2 ^ 60 + q.kind * 2 ^ 60), (4, q.head), (4, q.tail)])
    ++ (List.range 32).map (fun i => (4, let b := getAt k.bars i .idle; b.e + b.arrivals * 2 ^ 11))
    ++ [(4, k.eseq)])
  head ++ List.replicate (1024 - head.length) 0

/-- Bytes of the engine or command block of a crew. -/
def engineLen (h : Header) : Nat := if h.mat then 270336 else if h.trows ≠ 0 then 1024 else 0

/-- Bytes of a crew block with its waves. -/
def crewLen (h : Header) (nw : Nat) : Nat :=
  1024 + roundUp (8 * h.scr) 64 + 256 * h.spad + 1024 * h.trows + engineLen h + nw * waveLen h

/-! ## Reading images back (R436) -/

/-- A thread's status from its block: blocked as it was where neither the slot nor the status was
changed, else ready to issue, or ended. -/
def Wave.loadRun (w : Wave) (k : Crew) (tick l : Nat) (bs : List Byte) : Run :=
  let th := w.th l
  let a := fieldOf bs 0x70 8
  let b := fieldOf bs 0x78 8
  if fieldOf bs 0 4 = th.pc && fieldOf bs 4 1 = w.tst l then match th.run with
    | .wait (.bar x p _) => .wait (.bar x p (fieldOf bs 5 1 == 1))
    | .wait (.counter c _ _ sc sl) => .wait (.counter c a b sc sl)
    | .wait (.gen _ _) => .wait (.gen (k.spadBase + a) b)
    | .wait (.chunk _ _ y) => .wait (.chunk (k.spadBase + a) (BitVec.ofNat 64 b) y)
    | .wait (.park _) => .wait (.park (if a % 2 ^ 32 = 0 then none else some (tick + a % 2 ^ 32)))
    | r => r
  else if fieldOf bs 4 1 = 1 then .ended
  else .ready

/-- A thread from its block, or its first bad byte. -/
def Wave.loadThread (w : Wave) (k : Crew) (tick l : Nat) (bs : List Byte) : Except Nat Thread :=
  let th := w.th l
  let loops := (List.range 8).map fun i => fieldOf bs (0x10 + 8 * i) 8
  match firstBad ([(decide (5 < fieldOf bs 4 1), 4), (decide (1 < fieldOf bs 5 1), 5), (decide (2 ^ 33 ≤ fieldOf bs 8 8), 8)]
      ++ loops.mapIdx fun i x => (decide (2 ^ 53 ≤ x), 0x10 + 8 * i)) with
  | some o => .error o
  | none => .ok { th with
      run := w.loadRun k tick l bs
      pc := fieldOf bs 0 4
      entry := th.entry || fieldOf bs 0 4 != th.pc
      pix := BitVec.ofNat 64 (fieldOf bs 8 8)
      loops := (loops.take 4).map (BitVec.ofNat 64)
      lends := (loops.drop 4).map (BitVec.ofNat 64)
      rngk := BitVec.ofNat 128 (fieldOf bs 0x50 16)
      rngc := BitVec.ofNat 128 (fieldOf bs 0x60 16)
      hit := BitVec.ofNat 512 (fieldOf bs 0x80 64)
      v := (List.range k.hdr.vregs).map fun n => BitVec.ofNat 32 (fieldOf bs (0xC0 + 4 * n) 4) }

/-- The threads of a wave from their blocks. -/
def Wave.loadThreads (w : Wave) (k : Crew) (tick : Nat) (bs : List Byte) : (n : Nat) → Except Nat (List Thread)
  | 0 => .ok []
  | n + 1 => match w.loadThreads k tick bs n with
    | .error o => .error o
    | .ok r => match w.loadThread k tick n (byteRange bs (n * threadLen k.hdr) (threadLen k.hdr)) with
      | .error o => .error o
      | .ok th => .ok (r ++ [th])

/-- A wave from its block, or a bad byte (R26, R10). -/
def Wave.load (w : Wave) (k : Crew) (tick : Nat) (bs : List Byte) : Except Nat Wave :=
  let f := fieldOf bs
  match firstBad [(f 0 1 ≠ w.idx, 0), (f 2 1 ≠ widthCode w.width, 2), (!srFieldsOk .mode (f 8 8), 8),
      (!srFieldsOk .fflags (f 0x10 8), 0x10)] with
  | some o => .error o
  | none =>
    let spOff := 256
    let itOff := spOff + 8 * k.hdr.swp
    match w.loadThreads k tick (bs.drop (itOff + 64 * k.hdr.niter)) w.width with
    | .error o => .error o
    | .ok ths =>
      let help := f 0x18 8
      .ok { w with
        fair := f 4 4
        mode := BitVec.ofNat 64 (f 8 8)
        fflags := BitVec.ofNat 64 (f 0x10 8)
        k := (List.range 15).map fun i => BitVec.ofNat 64 (f (0x30 + 8 * i) 8)
        sp := (List.range k.hdr.swp).map fun i => BitVec.ofNat 64 (f (spOff + 8 * i) 8)
        iters := (List.range k.hdr.niter).map fun i => BitVec.ofNat 512 (f (itOff + 64 * i) 64)
        threads := ths.mapIdx fun l (th : Thread) => { th with helper := bitOf help l } }

/-- A crew from its header and shared registers, or a bad byte. -/
def State.loadCrew (s : State) (k : Crew) (nw : Nat) (bs regs : List Byte) : Except Nat Crew :=
  let f := fieldOf bs
  let name := ((s.task? k.task).map fun t => t.name.toNat).getD 0
  let kinds := (List.range 16).map fun i => bitsOf (f (0x20 + 16 * i) 8) 60 4
  match firstBad [(f 0 8 ≠ name, 0), (f 8 8 ≠ k.hdr.va, 8), (f 0x10 1 ≠ k.idx, 0x10), (f 0x11 1 ≠ nw, 0x11),
      (f 0x18 8 ≠ k.mfmt.toNat && (decide (2 ^ 22 ≤ f 0x18 8) || !mfmtOk (f 0x18 8)), 0x18),
      (kinds.any (5 < ·), 0x20),
      ((List.range 32).any fun i => decide (2 ^ 22 ≤ f (0x120 + 4 * i) 4), 0x120)] with
  | some o => .error o
  | none => .ok { k with
      mfmt := BitVec.ofNat 64 (f 0x18 8)
      eseq := f 0x1A0 4
      ss := (List.range k.hdr.scr).map fun i => BitVec.ofNat 64 (fieldOf regs (8 * i) 8)
      qs := k.qs.mapIdx fun i (q : QReg) => { q with
        kind := getAt kinds i 0
        bind := BitVec.ofNat 64 (f (0x20 + 16 * i) 8 % 2 ^ 60)
        head := f (0x28 + 16 * i) 4
        tail := f (0x2C + 16 * i) 4 }
      bars := k.bars.mapIdx fun i (b : Bar) => { b with
        e := bitsOf (f (0x120 + 4 * i) 4) 0 11
        arrivals := bitsOf (f (0x120 + 4 * i) 4) 11 11 } }

/-! ## Saving (R431 to R433, R499; spec/12 R352, R359) -/

/-- The crews a save takes: those of the context's running tasks. -/
def State.savedCrews (s : State) (c : Nat) : List Crew :=
  s.crews.filter fun k => s.tasks.any fun t => t.id == k.task && t.ctx == c && t.phase == .run

def State.wavesOf (s : State) (k : Crew) : List Wave := s.waves.filter fun w => w.crew == k.id

/-- Blocks at rising offsets, multiples of 64. -/
def placeBlocks : (off : Nat) → List (Crew × Nat) → List (Crew × Nat × Nat)
  | _, [] => []
  | off, (k, n) :: r => (k, off, n) :: placeBlocks (roundUp (off + n) 64) r

/-- Bytes of a continuation record (spec/04 R109). -/
def recLen (live : Nat) : Nat := roundUp (64 + 4 * live) 64

def poolLen (pool : List Rec) (rays : List Ray) : Nat :=
  64 + (pool.map fun r => recLen r.live.length + 64).sum + (rays.map fun r => recLen r.record.live.length + 2176).sum

/-- Base of a context's save area. -/
def State.saveBase (s : State) (c : Nat) : Nat := s.field (.cxsave c) 16 36 * 2 ^ 16

/-- Contents that the hardware owns. -/
def State.owned (s : State) (pa n : Nat) : State := s.setMem .dev (s.dev.forget pa n)

/-- Writes a crew's block. -/
def State.saveCrew (s : State) (base : Nat) (x : Crew × Nat × Nat) : State :=
  let k := x.1
  let ws := s.wavesOf k
  let a := base + x.2.1
  let s1 := s.putAt .dev a (s.crewHeader k ws.length ++ pad64 (pack (k.ss.map fun x => (8, x.toNat))))
  let a1 := a + 1024 + roundUp (8 * k.hdr.scr) 64
  let put (s : State) (pl : Place) (a b n : Nat) : State :=
    s.setMem .dev ((s.mem pl).copyGranules (s.fill pl) (a / 8) (s.fill .dev) s.dev (b / 8) (n / 8))
  let s2 := put s1 (.spad k.core) k.spadBase a1 (256 * k.hdr.spad)
  let a2 := a1 + 256 * k.hdr.spad
  let s3 := put s2 (.tile k.core) k.tileBase a2 (1024 * k.hdr.trows)
  let a3 := a2 + 1024 * k.hdr.trows
  let s4 := s3.owned a3 (engineLen k.hdr)
  (ws.foldl (fun (p : State × Nat) w => (p.1.putAt .dev p.2 (w.image k s.tick), p.2 + waveLen k.hdr))
    (s4, a3 + engineLen k.hdr)).1

/-- Version lines above the resident budget leave, oldest first (spec/12 R352). -/
def State.spillBudget (s : State) (c : Nat) : State :=
  let ts := s.tasks.filter fun t => t.ctx == c && t.versioned
  let have' := (ts.map fun t => t.versionLines.length).sum
  let keep := 1024 * s.field (.cxsched c) 37 16
  (ts.foldl (fun (p : State × Nat) t =>
    let n := min p.2 t.versionLines.length
    (p.1.spillLines t (t.versionLines.take n), p.2 - n)) (s, have' - keep)).1

/-- The context header and directory of a save of some crews, records and rays (R432), with the place of
each crew block, the offset of the block at POOLOFF, and USED. -/
def State.saveHead (s : State) (c : Nat) (ks : List Crew) (pool : List Rec) (rays : List Ray) :
    List Byte × List (Crew × Nat × Nat) × Nat × Nat :=
  let blocks := placeBlocks (roundUp (0x100 + 16 * ks.length) 64)
    (ks.map fun k => (k, crewLen k.hdr (s.wavesOf k).length))
  let off := match blocks.getLast? with
    | some (_, o, n) => roundUp (o + n) 64
    | none => roundUp (0x100 + 16 * ks.length) 64
  let used := off + poolLen pool rays
  let dir := blocks.flatMap fun x => pack [(8, x.2.1), (4, x.2.2), (4, if x.1.cont then 1 else 0)]
  let head := pack [(4, 0x53510001), (4, ks.length), (8, s.tick), (8, used), (8, s.ctxWord c), (8, off),
    (8, poolLen pool rays)]
  (pad64 (head ++ List.replicate (0x100 - head.length) 0 ++ dir), blocks, off, used)

/-- The continuation records and the rays of a context's running tasks. -/
def State.savedRecords (s : State) (c : Nat) : List Rec × List Ray :=
  let mine (task : Nat) : Bool := s.tasks.any fun t => t.id == task && t.ctx == c && t.phase == .run
  (s.clusters.flatMap fun (k : Cluster) => k.pool.filter fun r => mine r.task,
   s.clusters.flatMap fun (k : Cluster) => k.rays.filter fun r => mine r.record.task)

/-- A cluster operation that a save stops after a block leaves the count and INP with its issuing threads (spec/07
R215). -/
def State.stopMmacs (s : State) (k : Crew) : State :=
  k.cmds.foldl (fun s c => match c.i, s.wave? c.wave with
    | .mmac _, some w =>
      if c.prog = 0 then s
      else s.setWave (w.each c.lanes fun _ th =>
        if th.run = .hold .mmac && th.pc = c.slot then { th with pix := BitVec.ofNat 64 (2 ^ 32 + c.prog) } else th)
    | _, _ => s) s

/-- A save acts for each thread as a device-scope fence (spec/09 R282). -/
def Wave.fenced (w : Wave) (s : State) (c : Nat) : Wave :=
  w.orders w.all fun l o => (s.fenceOrder c (w.agent l) o .ar .dev).2

/-- A context is saved (R431): its crews, records and rays leave the machine. -/
def State.saveContext (s : State) (c : Nat) : State :=
  let ks := s.savedCrews c
  let mine (task : Nat) : Bool := s.tasks.any fun t => t.id == task && t.ctx == c && t.phase == .run
  let base := s.saveBase c
  let pool := (s.savedRecords c).1
  let rays := (s.savedRecords c).2
  let (head, blocks, off, used) := s.saveHead c ks pool rays
  if !s.flag (.cxsave c) 5 || decide (2 ^ s.field (.cxsave c) 0 5 * 65536 < used) then
    (s.setCtx c { s.ctx c with preempt := false, forced := none, release := false }).killContext c
      { cause := .resource, unit := 17, addr := BitVec.ofNat 64 base, aux0 := 14 }
  else
    let s1 := (ks.foldl State.stopMmacs s).putAt .dev base head
    let s2 := (blocks.foldl (fun s x => s.saveCrew base x) s1).owned (base + off) (poolLen pool rays)
    let saved : List SavedCrew := blocks.map fun x =>
      let core := s.core x.1.core
      { off := x.2.1, len := x.2.2, crew := x.1, waves := (s1.wavesOf x.1).map fun (w : Wave) => w.fenced s c
        power := core.power
        hold := core.hold
        images := if x.1.hdr.mat then core.images else []
        wbuf := if x.1.hdr.mat then core.wbuf else .empty
        pins := s.layers.filter fun y => y.pins.contains x.1.id
        rels := s.rels.filter fun r => placesMeet r.place r.addr r.len (.spad x.1.core) x.1.spadBase x.1.window }
    let gone (id : Nat) : Bool := ks.any fun k => k.id == id
    let s3 := ks.foldl (fun s k => s.unpin k.id fun y => y.pins.contains k.id) s2
    let s4 : State := { s3 with
      waves := s3.waves.filter fun w => !gone w.crew
      crews := s3.crews.filter fun k => !gone k.id
      clusters := s3.clusters.map fun (k : Cluster) => { k with
        pool := k.pool.filter fun r => !mine r.task
        rays := k.rays.filter fun r => !mine r.record.task }
      tasks := s3.tasks.map fun (t : Task) => if t.ctx == c && t.phase == .run then { t with phase := .saved } else t }
    let x := s4.ctx c
    let s5 := s4.setCtx c { x with saved := some ⟨saved, pool, rays⟩, preempt := false, forced := none, release := false }
    let s6 := if x.release then s5.setField (.cxsched c) 0 1 0 else s5
    (s6.spillBudget c).traceEvent 0 4 c 0 0 0

/-- Whether a result, a store or an arrival of a context can land now. -/
def State.landable (s : State) (c : Nat) : Bool :=
  let next (o : Host.Outcome State Fault Refusal) : Bool := match o with
    | .next _ => true
    | _ => false
  (s.waves.filter fun w => s.ctxOfCrew w.crew == c).any fun w =>
    (List.range w.out.length).any (fun i => next (execResultLand w.core w.wslot i s))
      || (List.range w.width).any (fun l =>
        (List.range (w.th l).storeQ.length).any fun i => next (s.leave ⟨w.core, w.wslot, l⟩ i))

/-- Whether a result stays outstanding in a save: it waits for an absent page, for its quad, for a reply or for a
slot of the call queue (R435; spec/04 R114, spec/08 R258). -/
def Pend.saved (p : Pend) : Bool :=
  p.wait.isSome || (match p.i with
    | .syscWait _ | .sysc _ | .qswp _ _ => true
    | i => samples i && p.c == 0)

/-- Whether every access of a wave that a save waits for has been performed (spec/01 R34, spec/09 R282): no store is
queued, no result outstanding but those that stay and those that they hold back, and no thread is in the middle of
a pair or of a segment. -/
def Wave.still (w : Wave) : Bool :=
  let kept := w.out.filter fun p => p.saved
  w.out.all (fun p => p.saved || kept.any fun q => q.holds p)
    && (List.range w.width).all fun l =>
      let th := w.th l
      (th.storeQ.isEmpty || kept.any fun p => p.lanes.getLsbD l)
        && ((!th.half && th.seg = 0) || kept.any fun p => p.lanes.getLsbD l)

/-- Whether a pre-emption may save the context now (R359, R437): no command is between its boundaries (spec/07 R230). -/
def State.quiet (s : State) (c : Nat) : Bool :=
  s.waves.all (fun w => s.ctxOfCrew w.crew != c || (!w.halted && w.still))
    && s.arrivals.all (fun a => a.ctx != c) && !s.landable c
    && s.crews.all fun k => s.ctxOfCrew k.id != c || (match k.cmds with
      | d :: _ => decide (d.prog % d.boundary = 0)
      | [] => true)

/-- Pre-emptions end with their save once nothing of the context moves. -/
def State.settlePreempts (s : State) : State :=
  ((List.range 64).filter fun c => (s.ctx c).preempt).foldl (fun s c =>
    if !(s.tasks.any fun t => t.ctx == c && t.phase == .run) then
      let s1 := s.setCtx c { s.ctx c with preempt := false, forced := none, release := false }
      if (s.ctx c).release then s1.setField (.cxsched c) 0 1 0 else s1
    else if s.quiet c then s.saveContext c else s) s

/-! ## Restoring (R436; spec/01 R34, spec/12 R357) -/

/-- A span of a crew that moved. -/
def Span.moved (x : Span) (a b : Crew) : Span :=
  match x.kind with
  | 1 => { x with base := b.core * 2 ^ 20 + b.spadBase + (x.base - (a.core * 2 ^ 20 + a.spadBase)) }
  | 2 => { x with base := b.core * 2 ^ 20 + b.tileBase + (x.base - (a.core * 2 ^ 20 + a.tileBase)) }
  | _ => x

/-- A crew at its new place. -/
def Crew.moved (a b : Crew) : Crew :=
  let sp (x : Span) : Span := x.moved a b
  { a with
    core := b.core
    spadBase := b.spadBase
    tileBase := b.tileBase
    cmds := a.cmds.map fun (c : Cmd) => { c with hot := c.hot.map fun h => (sp h.1, h.2) }
    dirty := a.dirty.map fun (m : Mark) => { m with span := sp m.span }
    wset := a.wset.map fun (x : EngineMark) => { x with span := sp x.span }
    syncs := a.syncs.map fun (x : SyncView) => { x with addr := x.addr - a.spadBase + b.spadBase } }

/-- The block that a restored cluster operation goes on at: PROG of its issuing thread (spec/07 R215). -/
def Cmd.resumed (c : Cmd) (ws : List Wave) : Cmd :=
  match c.i, ws.find? fun w => w.id == c.wave with
  | .mmac _, some w =>
    let x := (w.th c.lane).pix
    { c with prog := if x.getLsbD 32 then x.toNat % 2 ^ 32 else 0 }
  | _, _ => c

/-- A status at the crew's new window. -/
def Run.moved (r : Run) (a b : Nat) : Run :=
  match r with
  | .wait (.gen x g) => .wait (.gen (x - a + b) g)
  | .wait (.chunk x m y) => .wait (.chunk (x - a + b) m y)
  | r => r

/-- The recorded place of a wave that replay runs elsewhere (spec/13 R378). -/
def State.recordedPlace (s : State) (c place : Nat) : Nat :=
  match (s.ctx c).wmap.find? fun p => p.2 == place with
  | some p => p.1
  | none => match (s.ctx c).remap.findIdx? fun o => o == some (place % 8 * 8 + place / 8 % 8) with
    | some r => r / 8 + r % 8 * 8 + place / 64 * 64
    | none => place

/-- The MOVE record of a wave that resumes at another place (spec/13 R370, R371). -/
def State.logMove (s : State) (t : Task) (k : Crew) (old new : Wave) : State :=
  let a := srcOf old.core old.wslot 0
  let b := srcOf new.core new.wslot 0
  if a = b then s
  else if s.replaying t.ctx then
    let r := s.recordedPlace t.ctx a
    let x := s.ctx t.ctx
    s.setCtx t.ctx { x with wmap := (r, b) :: x.wmap.filter fun p => p.1 != r }
  else if s.logging t.ctx then
    let o := s.waveRecord t old k.idx k.cont true []
    s.logAgent t.ctx { o with value := o.value % 2 ^ 24 + b * 2 ^ 32 }
  else s

/-- Puts a wave back on a lane set, in the lowest free slot, or in replay the one that its WAVE record names (spec/01
R16). -/
def State.placeWave (s : State) (t : Task) (a b : Crew) (w : Wave) (set : Nat) : State :=
  let named := s.recordedPlace t.ctx (srcOf w.core w.wslot 0) / 2 ^ 9 % 128
  let w1 : Wave := { w with
    core := b.core
    wslot := if s.replaying t.ctx && (s.waveAt? b.core named).isNone then named else s.freeSlot b.core
    laneSet := set
    halted := (s.ctx t.ctx).haltAll || (s.ctx t.ctx).divergent
    threads := w.threads.map fun (th : Thread) => { th with
      run := th.run.moved a.spadBase b.spadBase
      since := s.tick } }
  ({ s with waves := s.waves ++ [w1] }).logMove t b w w1

/-- Puts a crew back on a core, with what its window and rows held; none where it does not fit. -/
def State.placeCrew (s : State) (t : Task) (base : Nat) (x : SavedCrew) (core : Nat) : Option State :=
  match s.addCrew t core x.crew.idx true x.waves.length with
  | none => none
  | some (s1, k0, sets) =>
    let k1 := x.crew.moved k0
    let k := { k1 with cmds := k1.cmds.map fun (c : Cmd) => c.resumed x.waves }
    let rels := x.rels.map fun (r : Rel) => { r with
      place := .spad core
      addr := r.addr - x.crew.spadBase + k.spadBase }
    let s2 : State := { s1 with
      crews := s1.crews.map fun y => if y.id == k0.id then k else y
      rels := rels ++ s1.rels }
    let a1 := base + x.off + 1024 + roundUp (8 * k.hdr.scr) 64
    let get (s : State) (pl : Place) (b a n : Nat) : State :=
      s.setMem pl (s.dev.copyGranules (s.fill .dev) (a / 8) (s.fill pl) (s.mem pl) (b / 8) (n / 8))
    let s3 := get s2 (.spad core) k.spadBase a1 (256 * k.hdr.spad)
    let s4 := get s3 (.tile core) k.tileBase (a1 + 256 * k.hdr.spad) (1024 * k.hdr.trows)
    let s5 := if k.hdr.mat then s4.setCore core { s4.core core with
        wbuf := x.wbuf
        images := x.images
        power := x.power
        hold := x.hold } else s4
    let pin (s : State) (y : Layer) : State :=
      if s.layers.any fun z => z.core == core && z.asid == y.asid && z.tag == y.tag && z.idx == y.idx then
        { s with layers := s.layers.map fun (z : Layer) =>
            if z.core == core && z.asid == y.asid && z.tag == y.tag && z.idx == y.idx then
              { z with pins := k.id :: z.pins } else z }
      else { s with layers := s.layers ++ [{ y with
          core := core
          pins := [k.id]
          data := none }] }
    let s6 := x.pins.foldl pin s5
    some ((x.waves.zip sets).foldl (fun s p => s.placeWave t x.crew k p.1 p.2) s6)

/-- Puts crews on cores in order. -/
def State.placeSaved (s : State) (t : Task) (base : Nat) : List SavedCrew → List Nat → Option State
  | x :: r, c :: cs => match s.placeCrew t base x c with
    | none => none
    | some s1 => s1.placeSaved t base r cs
  | _, _ => some s

/-- Core lists for n crews of a task in a cluster (R342). -/
def State.savedChoices (s : State) (t : Task) (n clu : Nat) : List (List Nat) :=
  let ok := (List.range 8).map (clu * 8 + ·) |>.filter fun c => classOk t.hdr t.cmask c
  if !s.clusterOpen t clu then []
  else if bitOf t.flags 1 then
    let free := ok.filter fun c => (s.fit c t.hdr 1).isSome
    if free.length < n then [] else [free.take n]
  else ok.map fun c => List.replicate n c

/-- Puts a crew on the first core of a list that takes it. -/
def State.placeFirst (s : State) (t : Task) (base : Nat) (x : SavedCrew) (cores : List Nat) : Option State :=
  cores.findSome? fun c => s.placeCrew t base x c

/-- Continuation crews of a task, on cores of its cluster. -/
def State.placeConts (s : State) (t : Task) (base clu : Nat) : List SavedCrew → Option State
  | [] => some s
  | x :: r =>
    let ok := (List.range 8).map (clu * 8 + ·) |>.filter fun c => classOk t.hdr t.cmask c
    match s.placeFirst t base x ok with
    | none => none
    | some s1 => s1.placeConts t base clu r

/-- A saved task is placed again, with its records and rays, in one cluster. -/
def State.placeTask (s : State) (c : Nat) (x : Saved) (t : Task) : Option State :=
  let mine := x.crews.filter fun y => y.crew.task == t.id
  let crews := mine.filter fun y => !y.crew.cont
  let base := s.saveBase c
  let clusters := if s.replaying c then (match t.place with
      | some p => [p.1 * 8 + p.2]
      | none => []) else (List.range 8).map (t.die * 8 + ·)
  clusters.findSome? fun clu => (s.savedChoices t crews.length clu).findSome? fun cores =>
    match s.placeSaved t base crews cores with
    | none => none
    | some s1 => match s1.placeConts t base clu (mine.filter fun y => y.crew.cont) with
      | none => none
      | some s2 =>
        let k := s2.cluster clu
        let s3 := s2.setCluster clu { k with
          pool := k.pool ++ x.pool.filter fun r => r.task == t.id
          rays := k.rays ++ x.rays.filter fun r => r.record.task == t.id
          gated := false }
        some (s3.setTask { t with
          phase := .run
          place := some (clu / 8, clu % 8)
          cores := if crews.isEmpty then t.cores else cores })

def State.placeTasks (s : State) (c : Nat) (x : Saved) : List Task → Option State
  | [] => some s
  | t :: r => match s.placeTask c x t with
    | none => none
    | some s1 => s1.placeTasks c x r

/-- A read of saved state by the restore unit (R436). -/
def State.restoreRead (s : State) (pa n : Nat) : Except Trap (List Byte) :=
  match s.readAt .dev pa n with
  | .ok bs => .ok bs
  | .error e => .error { mismatchTrap e 17 e.addr 0 0 e.addr with
      aux0 := BitVec.ofNat 64 (e.stored.toNat + 256 * e.computed.toNat + 2 ^ 19) }

/-- The waves of a restored crew from their blocks. -/
def State.restoreWaves (s : State) (k : Crew) : List Nat → (pa : Nat) → Except Trap State
  | [], _ => .ok s
  | id :: r, pa => match s.wave? id with
    | none => s.restoreWaves k r (pa + waveLen k.hdr)
    | some w => match s.restoreRead pa (waveLen k.hdr) with
      | .error e => .error e
      | .ok bs => match w.load k s.tick bs with
        | .error o => .error (formatTrap 17 pa 14 o)
        | .ok w1 => (s.setWave w1).restoreWaves k r (pa + waveLen k.hdr)

/-- The state of a restored crew from its block. -/
def State.restoreCrew (s : State) (base : Nat) (x : SavedCrew) : Except Trap State :=
  match s.crew? x.crew.id with
  | none => .ok s
  | some k =>
    let a := base + x.off
    let scr := roundUp (8 * k.hdr.scr) 64
    match s.restoreRead a 1024, s.restoreRead (a + 1024) scr with
    | .error e, _ | _, .error e => .error e
    | .ok hd, .ok regs => match s.loadCrew k x.waves.length hd regs with
      | .error o => .error (formatTrap 17 a 14 o)
      | .ok k1 => (s.setCrew k1).restoreWaves k1 (x.waves.map (·.id))
          (a + 1024 + scr + 256 * k.hdr.spad + 1024 * k.hdr.trows + engineLen k.hdr)

/-- Restores each crew; a bad one ends its task's attempt. -/
def State.restoreCrews (s : State) (base : Nat) (xs : List SavedCrew) : State :=
  xs.foldl (fun s x => match s.restoreCrew base x with
    | .ok s1 => s1
    | .error e => s.endAttempt x.crew.task e (agentSrc 0 0) 0) s

/-- The context header and directory of a save area (R432): a changed one ends every attempt. -/
def State.restoreHead (s : State) (c : Nat) (x : Saved) : Option Trap :=
  let base := s.saveBase c
  match s.restoreRead base (roundUp (0x100 + 16 * x.crews.length) 64) with
  | .error e => some e
  | .ok bs =>
    let f := fieldOf bs
    (firstBad ([(decide (f 0 4 ≠ 0x53510001), 0), (decide (f 4 4 ≠ x.crews.length), 4)]
      ++ x.crews.mapIdx fun i (y : SavedCrew) => (decide (f (0x100 + 16 * i) 8 ≠ y.off) || decide (f (0x108 + 16 * i) 4 ≠ y.len)
        || decide (f (0x10C + 16 * i) 4 ≠ (if y.crew.cont then 1 else 0)), 0x100 + 16 * i))).map fun o =>
      formatTrap 17 base 14 o

/-- CONTEXT_RESTORE: the scheduler places the saved tasks of a context, and their state is read back. -/
def execContextRestore (c : Nat) (s : State) : Host.Outcome State Fault Refusal :=
  if 64 ≤ c then .fault .absent
  else match (s.ctx c).saved with
  | none => .fault .notEnabled
  | some x =>
    let room := !s.logging c || decide (s.flOccupancy c + (x.crews.map fun y => y.waves.length).sum ≤ s.flSize c)
    if !s.flag (.cxsched c) 0 || (s.ctx c).preempt || !room then .fault .notEnabled
    else match s.placeTasks c x (s.tasks.filter fun t => t.ctx == c && t.phase == .saved) with
      | none => .fault .notEnabled
      | some s1 =>
        let s2 := (s1.setCtx c { s1.ctx c with saved := none }).startSlice c
        let s3 := match s.restoreHead c x with
          | some e => (x.crews.map fun (y : SavedCrew) => y.crew.task).dedup.foldl (fun (s : State) t => s.endAttempt t e (agentSrc 0 0) 0) s2
          | none => s2.restoreCrews (s.saveBase c) x.crews
        .next (s3.traceEvent 0 5 c 0 0 0)

/-! ## Residence (spec/12 R363, spec/10 R309, spec/13 R375) -/

/-- The remap table of a replay: two bytes for each recorded cluster; none where it is refused. -/
def State.readRemap (s : State) (c : Nat) : Option (List (Option Nat)) :=
  match s.readAt .dev (s.field (.flmap c) 6 46 * 64) 128 with
  | .error _ => none
  | .ok bs =>
    let es := (List.range 64).map fun i => fieldOf bs (2 * i) 2
    let l := es.map fun e => if bitOf e 0 then some (bitsOf e 4 3 * 8 + bitsOf e 1 3) else none
    let used := l.filterMap id
    if es.any (fun e => e / 128 ≠ 0) || used.dedup.length ≠ used.length then none else some l

/-- A write of CXSCHED: its ranges, and what setting or clearing RES needs. -/
def State.writeCxsched (s : State) (c : Nat) (v0 : Dword) : Option State :=
  let rpl := s.flag (.flctl c) 1
  let v := if rpl then v0 ||| 2 else v0
  let old := s.reg (.cxsched c)
  let was := old.getLsbD 0
  let res := v.getLsbD 0
  let n := v.toNat
  if 2 ^ 53 ≤ n then none
  else if was && v.getLsbD 1 != old.getLsbD 1 then none
  else if res && (bitsOf n 5 16 = 0 || bitsOf n 21 16 = 0) then none
  else if res && !was then
    if s.field .mgstat 0 4 ≠ 2 then none
    else if (List.range 64).any fun k => k != c && s.flag (.cxsched k) 0 && s.asid k == s.asid c then none
    else if rpl then match s.readRemap c with
      | none => none
      | some m => some ((s.setReg (.cxsched c) v).setCtx c { s.ctx c with remap := m })
    else some (s.setReg (.cxsched c) v)
  else if was && !res && s.tasks.any fun t => t.ctx == c && t.phase == .run then
    -- the context is pre-empted first
    let s1 := s.setReg (.cxsched c) (v ||| 1)
    some (s1.setCtx c { s1.ctx c with preempt := true, release := true })
  else some ((s.setReg (.cxsched c) v).setCtx c { s.ctx c with release := false })

/-- A context becomes resident. -/
def execContextResident (c : Nat) (v : BitVec 64) (s : State) : Host.Outcome State Fault Refusal :=
  if 64 ≤ c then .fault .absent else s.written (.cxsched c) (s.writeCxsched c v)

/-- A context is released. -/
def execContextRelease (c : Nat) (v : BitVec 64) (s : State) : Host.Outcome State Fault Refusal :=
  if 64 ≤ c then .fault .absent else s.written (.cxsched c) (s.writeCxsched c v)

/-! ## Time slices (R358) -/

/-- The end of a context's slice. -/
def State.sliceEnd (s : State) (c : Nat) : Nat := (s.ctx c).sliceStart + 1024 * s.field (.cxsched c) 5 16

/-- Whether a context has a task on a core that another task may use. -/
def State.holdsCoreFor (s : State) (c : Nat) (t : Task) : Bool :=
  s.crews.any fun k => s.ctxOfCrew k.id == c && k.core / 64 == t.die && classOk t.hdr t.cmask k.core

/-- Whether a context may be pre-empted in favour of a Ready task of another that has no place now. -/
def State.preemptible (s : State) (t : Task) (c : Nat) : Bool :=
  let pc := s.field (.cxsched c) 2 3
  let pd := s.field (.cxsched t.ctx) 2 3
  t.phase == .ready && t.ctx != c && s.flag (.cxsched t.ctx) 0 && s.flag (.cxsched c) 0 && !(s.ctx c).preempt
    && s.holdsCoreFor c t && (decide (pc < pd) || (pc == pd && decide (s.sliceEnd c ≤ s.tick)))

/-- A time slice expires, or a higher priority waits: the context of lowest priority, and of the
earliest expiry among equals, is pre-empted. -/
def execTimeSliceExpiry (c : Nat) (s : State) : Host.Outcome State Fault Refusal :=
  if 64 ≤ c then .fault .absent
  else
    let prio (k : Nat) : Nat := s.field (.cxsched k) 2 3
    let chosen (t : Task) : Bool := s.preemptible t c && (s.place t).isNone
      && (List.range 64).all fun k => !s.preemptible t k || decide (prio c < prio k)
        || (prio c == prio k && decide (s.sliceEnd c ≤ s.sliceEnd k))
    if s.tasks.any chosen then .next (s.beginPreempt c) else .fault .notEnabled

/-! ## Cluster gates (R449) -/

def execClusterGate (clu : Nat) (s : State) : Host.Outcome State Fault Refusal :=
  if 64 ≤ clu then .fault .absent
  else
    let k := s.cluster clu
    if k.gated || !k.pool.isEmpty || !k.rays.isEmpty || s.crews.any (fun y => y.core / 8 == clu) then .fault .notEnabled
    else .next ((s.setCluster clu { k with gated := true }).traceEvent (clu / 8) 10 0 clu 1 0)

/-! ## Fault, call and reply queues (R423, spec/17 R455) -/

def State.writeFqtail (s : State) (c : Nat) (v : Dword) : Option State :=
  s.indexWrite (.fqtail c) v (s.flag (.fqbase c) 0) (ringOcc (s.field (.fqhead c) 0 31) v.toNat) (s.field (.fqbase c) 2 5)

def execFqtailWrite (c : Nat) (v : BitVec 64) (s : State) : Host.Outcome State Fault Refusal :=
  if 64 ≤ c then .fault .absent else s.written (.fqtail c) (s.writeFqtail c v)

def State.writeCqtail (s : State) (c : Nat) (v : Dword) : Option State :=
  s.indexWrite (.cqtail c) v (s.flag (.cqbase c) 0) (ringOcc (s.field (.cqhead c) 0 31) v.toNat) (s.field (.cqbase c) 2 4)

/-- A write of CQBASE; setting EN sets HEAD to TAIL. -/
def State.writeCqbase (s : State) (c : Nat) (v : Dword) : Option State :=
  if !inRange (v.getLsbD 0) (bitsOf v.toNat 2 4) 4 16 then none
  else match s.plainWrite (.cqbase c) [(6, 10), (52, 12)] [] v with
    | none => none
    | some s1 => some (if v.getLsbD 0 && !s.flag (.cqbase c) 0 then s1.setReg (.cqhead c) (s.reg (.cqtail c)) else s1)

def execCqtailWrite (c : Nat) (base : Bool) (v : BitVec 64) (s : State) : Host.Outcome State Fault Refusal :=
  if 64 ≤ c then .fault .absent
  else if base then s.written (.cqbase c) (s.writeCqbase c v) else s.written (.cqtail c) (s.writeCqtail c v)

/-- The reply doorbell: a ninth pending reply is refused. -/
def State.writeCxrpl (s : State) (c : Nat) (v : Dword) : Option State :=
  let x := s.ctx c
  if bitsOf v.toNat 0 6 ≠ 0 || 2 ^ 52 ≤ v.toNat || 8 ≤ x.replies.length then none
  else some (s.setCtx c { x with replies := x.replies ++ [v.toNat] })

def execReplyDoorbell (c : Nat) (v : BitVec 64) (s : State) : Host.Outcome State Fault Refusal :=
  if 64 ≤ c then .fault .absent else s.written (.cxrpl c) (s.writeCxrpl c v)

end Sys2Proof.Machine
end

