-- ==== Sys2Proof/Machine/Replay.lean ====
section
/-! DEFINITION. The registers of the Fennel log (spec/13 R364, R365), and what the scheduler and the
replay unit do at the turns of records (R378 to R381). -/

namespace Sys2Proof.Machine

/-- Whether some logged operation of the context is parked: a thread's, or a launch or a retire of a task. -/
def State.parked (s : State) (c : Nat) : Bool :=
  (s.waves.any fun w => s.ctxOfCrew w.crew == c && (List.range w.width).any (s.parkedLane c w))
    || (s.logging c && s.tasks.any fun t => t.ctx == c
      && (opens (execTaskPlace t.id s) (execTaskPlace t.id (s.openLog c))
        || opens (execTaskRetire t.id s) (execTaskRetire t.id (s.openLog c))))

/-- FLCTL.PARKD (R364). -/
def State.setParked (s : State) (c : Nat) : State :=
  let p := (s.logging c || s.replaying c) && s.parked c
  if s.flag (.flctl c) 2 == p then s else s.setField (.flctl c) 2 1 (if p then 1 else 0)

/-- FLCTL.DONE in replay (R364). -/
def State.setDone (s : State) (c : Nat) : State :=
  s.setField (.flctl c) 4 1 (if s.replaying c && s.flOccupancy c == 0 then 1 else 0)

/-- END of a halted replay (R381): every task ends, RES is cleared and the queues are disabled. -/
def State.endReplay (s : State) (c : Nat) : State :=
  let s1 := (s.setCtx c { s.ctx c with divergent := false, saved := (s.ctx c).saved, preempt := false }).setField
    (.flctl c) 3 1 0
  s1.killContext c { cause := .replayDiverge, unit := 16 }

/-- A write of FLCTL. -/
def State.writeFlctl (s : State) (c : Nat) (v : Dword) : Option State :=
  let old := s.reg (.flctl c)
  let en := v.getLsbD 0
  let rpl := v.getLsbD 1
  let size := s.field (.flbase c) 52 5
  let change := en != old.getLsbD 0 || rpl != old.getLsbD 1
  if 2 ^ 7 ≤ v.toNat || (v.getLsbD 5 && !old.getLsbD 3) || (change && s.flag (.cxsched c) 0) || (en && rpl)
      || ((en || rpl) && size = 0) || (rpl && !old.getLsbD 1 && decide (2 ^ size < s.flOccupancy c)) then none
  else
    let s1 := s.setReg (.flctl c) ((v &&& 0x43) ||| (old &&& 0x1C))
    let x := s1.ctx c
    let s2 := if en && !old.getLsbD 0 then
        (s1.setReg (.flhead c) (s.reg (.fltail c))).setCtx c { x with hseq := [], highArmed := true }
      else if rpl && !old.getLsbD 1 then
        (s1.setField (.cxsched c) 1 1 1).setCtx c { x with
          hseq := []
          consumed := []
          wmap := []
          divergent := false }
      else s1
    let s3 := s2.setDone c
    some (if v.getLsbD 5 then s3.endReplay c else s3)

/-- Logging is turned on or off. -/
def execFlctlEn (c : Nat) (v : BitVec 64) (s : State) : Host.Outcome State Fault Refusal :=
  if 64 ≤ c then .fault .absent else s.written (.flctl c) (s.writeFlctl c v)

/-- Replay mode is turned on or off. -/
def execFlctlRpl (c : Nat) (v : BitVec 64) (s : State) : Host.Outcome State Fault Refusal :=
  if 64 ≤ c then .fault .absent else s.written (.flctl c) (s.writeFlctl c v)

/-- A halted context is ended. -/
def execFlctlEnd (c : Nat) (v : BitVec 64) (s : State) : Host.Outcome State Fault Refusal :=
  if 64 ≤ c then .fault .absent else s.written (.flctl c) (s.writeFlctl c v)

/-- A write of FLTAIL: checked while logging, ignored in replay. -/
def State.writeFltail (s : State) (c : Nat) (v : Dword) : Option State :=
  if 2 ^ 31 ≤ v.toNat then none
  else if s.replaying c then some s
  else (s.indexWrite (.fltail c) v (s.logging c) (ringOcc (s.field (.flhead c) 0 31) v.toNat)
    (s.field (.flbase c) 52 5)).map fun s1 => s1.checkHigh c

def execFltailWrite (c : Nat) (v : BitVec 64) (s : State) : Host.Outcome State Fault Refusal :=
  if 64 ≤ c then .fault .absent else s.written (.fltail c) (s.writeFltail c v)

/-- A write of FLHEAD: checked in replay, ignored while logging. -/
def State.writeFlhead (s : State) (c : Nat) (v : Dword) : Option State :=
  if 2 ^ 31 ≤ v.toNat then none
  else if s.logging c then some s
  else (s.indexWrite (.flhead c) v (s.replaying c) (ringOcc v.toNat (s.field (.fltail c) 0 31))
    (s.field (.flbase c) 52 5)).map fun s1 => s1.setDone c

def execFlheadWrite (c : Nat) (v : BitVec 64) (s : State) : Host.Outcome State Fault Refusal :=
  if 64 ≤ c then .fault .absent else s.written (.flhead c) (s.writeFlhead c v)

/-- A write of FLBASE or FLMAP: refused while EN or RPL is set. -/
def State.writeFlbase (s : State) (c : Nat) (v : Dword) : Option State :=
  if s.logging c || s.replaying c || !inRange false (bitsOf v.toNat 52 5) 12 30 then none
  else s.plainWrite (.flbase c) [(0, 16), (57, 7)] [] v

def State.writeFlmap (s : State) (c : Nat) (v : Dword) : Option State :=
  if s.logging c || s.replaying c then none else s.plainWrite (.flmap c) [(0, 6), (52, 12)] [] v

def State.writeFlhigh (s : State) (c : Nat) (v : Dword) : Option State :=
  if 2 ^ s.field (.flbase c) 52 5 < v.toNat then none
  else (s.plainWrite (.flhigh c) [(31, 33)] [] v).map fun s1 => s1.checkHigh c

/-! ## Turns of records -/

/-- A cause from its code. -/
def Cause.ofCode (n : Nat) : Option Cause :=
  [Cause.illegalOpcode, .illegalField, .illegalOperand, .lineFormat, .branchTarget, .misaligned, .bounds,
    .pageNotPresent, .protection, .sealedWrite, .checkMismatch, .replayDiverge, .queueMisuse, .barrierMisuse,
    .software, .breakpoint, .watchdogKill, .versionOverflow, .linkError, .resource, .format].find? fun c => c.code == n

/-- Whether a record's home has come to its turn. -/
def State.turn (s : State) (c : Nat) (bs : List Byte) : Bool :=
  s.hseqOf c (s.mapHome c (bitsOf (fieldOf bs 8 8) 48 10)) == bitsOf (fieldOf bs 8 8) 0 48

/-- The turn of a DISC record (R379): its attempt is discarded or ended with the recorded cause. -/
def execReplayDisc (c : Nat) (s : State) : Host.Outcome State Fault Refusal :=
  if 64 ≤ c then .fault .absent
  else if !s.replaying c || (s.ctx c).divergent || !s.flag (.cxsched c) 0 then .fault .notEnabled
  else match s.nextRec c (fun bs => fieldOf bs 0 1 == 10) with
  | none => .fault .notEnabled
  | some (i, none) => .next (s.diverge c i (s.bytesAt .dev (s.flAddr c i) 32) [])
  | some (i, some bs) =>
    let v := fieldOf bs 24 8
    if !recordOk bs then .next (s.diverge c i bs [])
    else if !s.turn c bs then .fault .notEnabled
    else match s.tasks.find? fun t => t.ctx == c && t.name.toNat == fieldOf bs 16 8 && t.att == bitsOf v 8 8,
        Cause.ofCode (v % 256) with
      | some t, some e => .next (s.discard t { cause := e } (agentSrc 0 t.queue) 0 (bitOf v 16))
      | _, _ => .next (s.diverge c i bs [])

/-- A MOVE record at its turn updates the wave map and moves no wave (R378). -/
def State.settleMove (s : State) (c : Nat) : State :=
  match s.nextRec c (fun bs => fieldOf bs 0 1 == 9 && bitOf (fieldOf bs 24 8) 8) with
  | some (i, some bs) =>
    if !recordOk bs || !s.turn c bs then s
    else match s.mapSrc c (fieldOf bs 4 4 % 2 ^ 16) with
      | none => s
      | some here =>
        let x := s.ctx c
        let home := s.mapHome c (bitsOf (fieldOf bs 8 8) 48 10)
        let rest := x.wmap.filter fun p => p.1 != fieldOf bs 4 4 % 2 ^ 16
        let s1 := s.setCtx c { x with wmap := (bitsOf (fieldOf bs 24 8) 32 16, here) :: rest }
        (s1.bumpHseq c home).consume c i (fieldOf bs 3 1)
  | _ => s

/-- The lowest unconsumed record halts the context where it is bad or its cluster is not mapped (R380). -/
def State.settleReplay (s : State) (c : Nat) : State :=
  if (s.ctx c).divergent || !s.flag (.cxsched c) 0 || s.flOccupancy c == 0 then s
  else
    let i := s.field (.fltail c) 0 31
    let bad (bs : List Byte) : Bool := !recordOk bs
      || ((!bitOf (fieldOf bs 4 4) 31 || fieldOf bs 0 1 == 9) && (s.mapSrc c (fieldOf bs 4 4 % 2 ^ 22)).isNone)
    match s.logAt c i with
    | none => s.diverge c i (s.bytesAt .dev (s.flAddr c i) 32) []
    | some bs => if bad bs then s.diverge c i bs [] else s.settleMove c

/-- Replays move on, and FLCTL.PARKD of each context follows. -/
def State.settleReplays (s : State) : State :=
  let s1 := ((List.range 64).filter fun c => s.replaying c).foldl (fun s c => s.settleReplay c) s
  (List.range 64).foldl (fun s c => s.setParked c) s1

end Sys2Proof.Machine
end

