-- ==== Sys2Proof/Machine/Raster.lean ====
section
/-! DEFINITION. Raster queues and raster jobs (spec/14 R393 to R400). Coordinates are held in units of
1/256, as the job snaps them; depths are exact until they are rounded once. -/

namespace Sys2Proof.Machine

/-! ## Queues (R395) -/

def State.rqSize (s : State) (clu : Nat) : Nat := 2 ^ s.field (.rqbase clu) 1 4

def State.writeRqtail (s : State) (clu : Nat) (v : Dword) : Option State :=
  if 2 ^ 12 ≤ v.toNat || s.rqSize clu ≤ v.toNat then none else some (s.setReg (.rqtail clu) v)

def execRqtailDoorbell (clu : Nat) (v : BitVec 64) (s : State) : Host.Outcome State Fault Refusal :=
  if 64 ≤ clu then .fault .absent else s.written (.rqtail clu) (s.writeRqtail clu v)

/-- A write of RQBASE clears ERR. -/
def State.writeRqbase (s : State) (clu : Nat) (v : Dword) : Option State :=
  (s.enWrite (.rqbase clu) v (if !inRange (v.getLsbD 0) (bitsOf v.toNat 1 4) 4 12 then none
    else s.plainWrite (.rqbase clu) [(5, 7), (56, 8)] [] v)).map fun s1 => s1.setField (.rqctl clu) 6 1 0

def State.writeRqctl (s : State) (clu : Nat) (v : Dword) : Option State :=
  if s.flag (.rqbase clu) 0 then none else s.plainWrite (.rqctl clu) [(7, 57)] [(6, 1)] v

/-! ## Jobs (R396) -/

/-- A raster job. -/
structure RasterJob where
  cullB : Bool
  cullF : Bool
  mrg : Bool
  inst : Nat
  vbd : Nat
  pos : Nat
  idx : Nat
  pbase : Nat
  ntri : Nat
  nvtx : Nat
  cosn : Rat
  dthr : Rat
  done : Nat
  deriving DecidableEq, Repr

/-- A job from its 64 bytes, or its first bad byte. -/
def rasterJobOf (bs : List Byte) : Except Nat RasterJob :=
  let f := fieldOf bs
  let num (o : Nat) : Option Rat := match Fmt.f32.decode false (f o 4) with
    | .fin neg m => if neg && m ≠ 0 then none else some m
    | _ => none
  match firstBad [
      (f 0 4 ≠ 0x4A510001, 0),
      (7 < f 4 1, 4),
      (f 8 8 % 64 ≠ 0, 8),
      (f 0x10 8 % 4 ≠ 0, 0x10),
      (f 0x18 8 % 4 ≠ 0, 0x18),
      (2 ^ 40 ≤ f 0x20 8, 0x20),
      (f 0x28 4 = 0 || 2 ^ 24 < f 0x28 4 || 2 ^ 40 - 1 < f 0x20 8 + f 0x28 4, 0x28),
      ((match num 0x30 with | some x => decide (1 < x) | none => true), 0x30),
      ((num 0x34).isNone, 0x34),
      (f 0x38 8 % 8 ≠ 0, 0x38)] with
  | some o => .error o
  | none => .ok
      { cullB := bitOf (f 4 1) 0, cullF := bitOf (f 4 1) 1, mrg := bitOf (f 4 1) 2, inst := f 5 3, vbd := f 8 8,
        pos := f 0x10 8, idx := f 0x18 8, pbase := f 0x20 8, ntri := f 0x28 4, nvtx := f 0x2C 4,
        cosn := (num 0x30).getD 0, dthr := (num 0x34).getD 0, done := f 0x38 8 }

/-! ## Triangles (R398) -/

/-- A snapped vertex. -/
structure Vtx where
  x : Int
  y : Int
  z : Rat
  deriving DecidableEq, Repr

/-- A triangle in front-facing order, its area positive, with its vertex indices. -/
structure RTri where
  p0 : Vtx
  p1 : Vtx
  p2 : Vtx
  area : Int
  idx : List Nat
  deriving DecidableEq, Repr

/-- Nearest integer, ties to even. -/
def nearest (x : Rat) : Int :=
  let d := x - (x.floor : Rat)
  if d < 1 / 2 then x.floor
  else if 1 / 2 < d then x.floor + 1
  else if x.floor % 2 = 0 then x.floor
  else x.floor + 1

/-- A vertex from its bytes; none where the triangle is dropped, or writes no sample because its depth
is infinite. -/
def vertexOf (bs : List Byte) : Option Vtx :=
  let c (o : Nat) : FVal := Fmt.f32.decode false (fieldOf bs o 4)
  match c 0, c 4, c 8 with
  | .fin nx mx, .fin ny my, .fin nz mz =>
    if 32768 ≤ mx || 32768 ≤ my then none
    else some ⟨nearest ((FVal.fin nx mx).toRat * 256), nearest ((FVal.fin ny my).toRat * 256), (FVal.fin nz mz).toRat⟩
  | _, _, _ => none

/-- E(p) over the edge from a to b. -/
def edge (a b : Vtx) (px py : Int) : Int := (b.x - a.x) * (py - a.y) - (b.y - a.y) * (px - a.x)

/-- A triangle with its orientation; none where it is dropped. -/
def triOf (j : RasterJob) (a b c : Vtx) (idx : List Nat) : Option RTri :=
  let area := edge a b c.x c.y
  if area = 0 then none
  else if 0 < area then (if j.cullF then none else some ⟨a, b, c, area, idx⟩)
  else if j.cullB then none
  else some ⟨a, c, b, -area, idx⟩

/-- Whether a point is on the inner side of an edge, by the top-left rule. -/
def insideEdge (a b : Vtx) (px py : Int) : Bool :=
  let e := edge a b px py
  decide (0 < e) || (e == 0 && (decide (0 < b.y - a.y) || (b.y == a.y && decide (b.x - a.x < 0))))

def RTri.covers (t : RTri) (px py : Int) : Bool :=
  insideEdge t.p1 t.p2 px py && insideEdge t.p2 t.p0 px py && insideEdge t.p0 t.p1 px py

/-- The exact plane depth at a point. -/
def RTri.depth (t : RTri) (px py : Int) : Rat :=
  ((edge t.p1 t.p2 px py : Rat) * t.p0.z + (edge t.p2 t.p0 px py : Rat) * t.p1.z
    + (edge t.p0 t.p1 px py : Rat) * t.p2.z) / (t.area : Rat)

/-- The depth a sample takes, as f32 bits; none leaves it unwritten. -/
def RTri.depthBits (t : RTri) (px py : Int) : Option Nat :=
  let b := (finish .f32 rne (FVal.ofRat (t.depth px py))).1
  if b = 0x80000000 then some 0 else if b ≤ 0x3F800000 then some b else none

/-- Sample positions in sixteenths of a pixel (R394). -/
def samplePos (samp : Nat) : List (Nat × Nat) :=
  match samp with
  | 1 => [(8, 8)]
  | 2 => [(4, 4), (12, 12)]
  | 4 => [(6, 2), (14, 6), (2, 10), (10, 14)]
  | _ => [(9, 5), (7, 11), (13, 9), (5, 3), (3, 13), (1, 7), (11, 15), (15, 1)]

/-! ## Accesses (R397) -/

/-- A job's access: strongly ordered pages are refused. -/
def State.jobAccess (s : State) (ctx unit : Nat) (write : Bool) (va n : Nat) : Except Trap Unit :=
  let a : Acc := { ctx := ctx, prv := false, write := write }
  let one (x : Nat) : Except Trap Unit := match s.translate a x with
    | .error e => .error (e.atUnit unit)
    | .ok p => if p.leaf.kind == .so then
        .error { accTrap .protection a (s.asid ctx) x 0 none p.pa with unit := unit } else .ok ()
  if 2 ^ 56 < va + n then .error { accTrap .protection a (s.asid ctx) va 0 none 0 with unit := unit }
  else match one va with
    | .error e => .error e
    | .ok _ => one (va + n - 1)

def State.jobRead (s : State) (ctx unit va n : Nat) : Except Trap (List Byte × State) :=
  match s.jobAccess ctx unit false va n with
  | .error e => .error e
  | .ok _ => s.gReadAll { ctx := ctx, prv := false, write := false } none unit va n

def State.jobWrite (s : State) (ctx unit va : Nat) (bs : List Byte) : Except Trap State :=
  match s.jobAccess ctx unit true va bs.length with
  | .error e => .error e
  | .ok _ => s.gWriteAll { ctx := ctx, prv := false, write := true } 0 true unit va bs

/-- Where a job stands: the state with the writes already made, and the quads it wrote. -/
structure Raster where
  s : State
  quads : List (Nat × Nat)

/-- A trap with the writes made before it. -/
abbrev RasterM (α : Type) := Except (Trap × State) α

def withState {α : Type} (s : State) : Except Trap α → RasterM α
  | .ok a => .ok a
  | .error e => .error (e, s)

/-- The vertex indices of triangle t. -/
def State.triIndices (s : State) (ctx : Nat) (j : RasterJob) (t : Nat) : Except Trap (List Nat × State) :=
  match s.jobRead ctx 6 (j.idx + 12 * t) 12 with
  | .error e => .error e
  | .ok (bs, s1) =>
    let l := (List.range 3).map fun k => fieldOf bs (4 * k) 4
    match (List.range 3).find? fun k => decide (j.nvtx ≤ getAt l k 0) with
    | some k => .error { accTrap .bounds { ctx := ctx, prv := false, write := false } (s.asid ctx)
        (j.idx + 12 * t + 4 * k) 0 none 0 with unit := 6 }
    | none => .ok (l, s1)

/-- The vertices at indices. -/
def State.vertices (s : State) (ctx : Nat) (j : RasterJob) : List Nat → Except Trap (List (Option Vtx) × State)
  | [] => .ok ([], s)
  | i :: r => match s.jobRead ctx 6 (j.pos + 12 * i) 12 with
    | .error e => .error e
    | .ok (bs, s1) => match s1.vertices ctx j r with
      | .error e => .error e
      | .ok (l, s2) => .ok (vertexOf bs :: l, s2)

/-- Triangle t of a job; none where it is dropped. -/
def State.triangle (s : State) (ctx : Nat) (j : RasterJob) (t : Nat) : Except Trap (Option RTri × State) :=
  match s.triIndices ctx j t with
  | .error e => .error e
  | .ok (l, s1) => match s1.vertices ctx j l with
    | .error e => .error e
    | .ok ([some a, some b, some c], s2) => .ok (triOf j a b c l, s2)
    | .ok (_, s2) => .ok (none, s2)

/-! ## Samples (R399) -/

/-- Writes one covered sample where it is nearer, or as near with a lower identifier. -/
def Raster.sample (r : Raster) (ctx : Nat) (d : Vbd) (id z x y n : Nat) : RasterM Raster :=
  let i := d.index x y n
  match withState r.s (r.s.jobRead ctx 6 (d.dpp + 4 * i) 4) with
  | .error e => .error e
  | .ok (zb, s1) => match withState r.s (s1.jobRead ctx 6 (d.idp + 8 * i) 8) with
    | .error e => .error e
    | .ok (ib, s2) =>
      if z < leNat zb || (z == leNat zb && decide (id < leNat ib)) then
        match withState r.s (s2.jobWrite ctx 6 (d.dpp + 4 * i) (leBytes 4 z)) with
        | .error e => .error e
        | .ok s3 => match withState r.s (s3.jobWrite ctx 6 (d.idp + 8 * i) (leBytes 8 id)) with
          | .error e => .error e
          | .ok s4 =>
            let q := (x / 2 * 2, y / 2 * 2)
            .ok ⟨s4, if r.quads.contains q then r.quads else q :: r.quads⟩
      else .ok { r with s := s2 }

/-- The samples of one pixel. -/
def Raster.pixel (r : Raster) (ctx : Nat) (d : Vbd) (t : RTri) (id x y : Nat) : RasterM Raster :=
  eachOf (fun (q : Nat × (Nat × Nat)) r =>
    let px : Int := 256 * x + 16 * q.2.1
    let py : Int := 256 * y + 16 * q.2.2
    if !t.covers px py then .ok r
    else match t.depthBits px py with
      | none => .ok r
      | some z => r.sample ctx d id z x y q.1) ((samplePos d.samp).zipIdx.map fun p => (p.2, p.1)) r

/-- The pixels of a triangle's box within the buffer. -/
def RTri.box (t : RTri) (d : Vbd) : List (Nat × Nat) :=
  let lo (a b c : Int) : Nat := (min a (min b c) / 256).toNat
  let hi (a b c : Int) : Nat := (max a (max b c) / 256 + 1).toNat
  let x0 := lo t.p0.x t.p1.x t.p2.x
  let x1 := min d.width (hi t.p0.x t.p1.x t.p2.x)
  let y0 := lo t.p0.y t.p1.y t.p2.y
  let y1 := min d.height (hi t.p0.y t.p1.y t.p2.y)
  (List.range (y1 - y0)).flatMap fun j => (List.range (x1 - x0)).map fun i => (x0 + i, y0 + j)

/-- The identifier of triangle t. -/
def RasterJob.ident (j : RasterJob) (t : Nat) : Nat := j.inst * 2 ^ 40 + j.pbase + t

/-- One triangle of a job. -/
def Raster.tri (r : Raster) (ctx : Nat) (d : Vbd) (j : RasterJob) (n : Nat) : RasterM Raster :=
  match withState r.s (r.s.triangle ctx j n) with
  | .error e => .error e
  | .ok (none, s1) => .ok { r with s := s1 }
  | .ok (some t, s1) =>
    eachOf (fun (p : Nat × Nat) r => r.pixel ctx d t (j.ident n) p.1 p.2) (t.box d) { r with s := s1 }

/-! ## The merge pass (R400) -/

/-- Normal of a triangle over (x, y, z), scaled. -/
def RTri.normal (t : RTri) : Rat × Rat × Rat :=
  let q (a b : Int) : Rat := ((a - b : Int) : Rat) / 256
  let (ax, ay, az) := (q t.p1.x t.p0.x, q t.p1.y t.p0.y, t.p1.z - t.p0.z)
  let (bx, by', bz) := (q t.p2.x t.p0.x, q t.p2.y t.p0.y, t.p2.z - t.p0.z)
  (ay * bz - az * by', az * bx - ax * bz, ax * by' - ay * bx)

/-- Whether two triangles merge at a quad. -/
def mergeOk (j : RasterJob) (a b : RTri) (xq yq : Nat) : Bool :=
  let dot (u v : Rat × Rat × Rat) : Rat := u.1 * v.1 + u.2.1 * v.2.1 + u.2.2 * v.2.2
  let n := dot a.normal b.normal
  let gap := a.depth (256 * (xq + 1)) (256 * (yq + 1)) - b.depth (256 * (xq + 1)) (256 * (yq + 1))
  decide (2 ≤ (a.idx.filter b.idx.contains).length) && decide (0 < n)
    && decide (j.cosn * j.cosn * dot a.normal a.normal * dot b.normal b.normal ≤ n * n)
    && decide (gap ≤ j.dthr) && decide (-gap ≤ j.dthr)

/-- The identifiers of a quad's four positions for a sample; none outside the buffer or uncovered. -/
def Raster.idents (r : Raster) (ctx : Nat) (d : Vbd) (xq yq n : Nat) : (k : Nat) →
    RasterM (List (Option Nat) × Raster)
  | 0 => .ok ([], r)
  | k + 1 => match r.idents ctx d xq yq n k with
    | .error e => .error e
    | .ok (l, r1) =>
      let x := xq + k % 2
      let y := yq + k / 2
      if d.width ≤ x || d.height ≤ y then .ok (l ++ [none], r1)
      else match withState r1.s (r1.s.jobRead ctx 6 (d.idp + 8 * d.index x y n) 8) with
        | .error e => .error e
        | .ok (bs, s1) =>
          .ok (l ++ [if leNat bs = 2 ^ 64 - 1 then none else some (leNat bs)], { r1 with s := s1 })

/-- The triangles of own identifiers. -/
def Raster.owners (r : Raster) (ctx : Nat) (j : RasterJob) : List (Option Nat) → RasterM (List (Option RTri) × Raster)
  | [] => .ok ([], r)
  | i :: rest =>
    let own : Option Nat := i.bind fun x =>
      if x / 2 ^ 40 = j.inst && j.pbase ≤ x % 2 ^ 40 && x % 2 ^ 40 < j.pbase + j.ntri then some (x % 2 ^ 40 - j.pbase) else none
    let here : RasterM (Option RTri × State) := match own with
      | none => .ok (none, r.s)
      | some n => withState r.s (r.s.triangle ctx j n)
    match here with
    | .error e => .error e
    | .ok (t, s1) => match ({ r with s := s1 }).owners ctx j rest with
      | .error e => .error e
      | .ok (l, r2) => .ok (t :: l, r2)

/-- Bits [3:0] of position q's byte. -/
def mergeBits (j : RasterJob) (ids : List (Option Nat)) (ts : List (Option RTri)) (xq yq q : Nat) : Nat :=
  match getAt ids q none with
  | none => 0
  | some i =>
    let bit (p : Nat) : Bool := getAt ids p none == some i
      || (match getAt ts p none, getAt ts q none with
        | some a, some b => mergeOk j a b xq yq
        | _, _ => false)
    let isOwn := i / 2 ^ 40 = j.inst && j.pbase ≤ i % 2 ^ 40 && i % 2 ^ 40 < j.pbase + j.ntri
    if isOwn then ((List.range 4).map fun p => if bit p then 2 ^ p else 0).sum else 2 ^ q

/-- The merge bytes of one quad for one sample index. -/
def Raster.mergeQuad (r : Raster) (ctx : Nat) (d : Vbd) (j : RasterJob) (xq yq n : Nat) : RasterM Raster :=
  match r.idents ctx d xq yq n 4 with
  | .error e => .error e
  | .ok (ids, r1) => match r1.owners ctx j ids with
    | .error e => .error e
    | .ok (ts, r2) =>
      let bits := (List.range 4).map (mergeBits j ids ts xq yq)
      let all := if bits.all (· == 15) then 16 else 0
      eachOf (fun (q : Nat) (r : Raster) =>
        let x := xq + q % 2
        let y := yq + q / 2
        if d.width ≤ x || d.height ≤ y then .ok r
        else match withState r.s (r.s.jobWrite ctx 6 (d.mgp + d.index x y n) (leBytes 1 (getAt bits q 0 + all))) with
          | .error e => .error e
          | .ok s1 => .ok { r with s := s1 }) (List.range 4) r2

/-- The merge pass over every quad the job wrote. -/
def Raster.merge (r : Raster) (ctx : Nat) (d : Vbd) (j : RasterJob) : RasterM Raster :=
  eachOf (fun (q : Nat × Nat) (r : Raster) =>
    eachBelow (fun n (r : Raster) => r.mergeQuad ctx d j q.1 q.2 n) d.samp r) r.quads.reverse r

/-! ## RASTER_JOB (R397) -/

/-- Reads a job and its descriptor. -/
def State.rasterJob (s : State) (ctx va : Nat) : Except Trap (RasterJob × Vbd × State) :=
  match s.jobRead ctx 6 va 64 with
  | .error e => .error e
  | .ok (bs, s1) => match rasterJobOf bs with
    | .error o => .error (formatTrap 6 va 7 o)
    | .ok j => match s1.jobRead ctx 6 j.vbd 64 with
      | .error e => .error e
      | .ok (db, s2) => match vbdOf db with
        | .error o => .error (formatTrap 6 j.vbd 15 o)
        | .ok d => .ok (j, d, s2)

/-- A whole job: its triangles, its merge pass, and its count. -/
def State.runRaster (s : State) (ctx va : Nat) : RasterM State :=
  match withState s (s.rasterJob ctx va) with
  | .error e => .error e
  | .ok (j, d, s1) => match eachBelow (fun n (r : Raster) => r.tri ctx d j n) j.ntri ⟨s1, []⟩ with
    | .error e => .error e
    | .ok r => match (if j.mrg then r.merge ctx d j else .ok r) with
      | .error e => .error e
      | .ok r1 =>
        if j.done = 0 then .ok r1.s
        else match withState r1.s (r1.s.jobRead ctx 6 j.done 8) with
          | .error e => .error e
          | .ok (bs, s2) => withState r1.s (s2.jobWrite ctx 6 j.done (leBytes 8 (leNat bs + 1)))

/-- RQHEAD advances. -/
def State.rqAdvance (s : State) (clu : Nat) : State :=
  s.setReg (.rqhead clu) (BitVec.ofNat 64 ((s.field (.rqhead clu) 0 12 + 1) % s.rqSize clu))

/-- A job that ends: its record, ERR, EN off, and the head passes it. -/
def State.rasterEnds (s : State) (clu : Nat) (e : Trap) : State :=
  let s1 := s.unitFault (s.field (.rqctl clu) 0 6) 0 0 6 e
  ((s1.setField (.rqctl clu) 6 1 1).setField (.rqbase clu) 0 1 0).rqAdvance clu

/-- RASTER_JOB: the next job of a cluster's ring; an absent page holds it before its first write. -/
def execRasterJob (clu : Nat) (s : State) : Host.Outcome State Fault Refusal :=
  if 64 ≤ clu then .fault .absent
  else
    let ctx := s.field (.rqctl clu) 0 6
    let head := s.field (.rqhead clu) 0 12 % s.rqSize clu
    if !s.flag (.rqbase clu) 0 || head = s.field (.rqtail clu) 0 12 || (s.cluster clu).rasterWait.isSome then
      .fault .notEnabled
    else match s.runRaster ctx (s.field (.rqbase clu) 12 44 * 2 ^ 12 + 64 * head) with
      | .ok s1 => .next (s1.rqAdvance clu)
      | .error (e, s1) =>
        if e.cause == .pageNotPresent then
          let s2 := s.setCluster clu { s.cluster clu with rasterWait := some e.page }
          .next (s2.postResolve ctx ⟨1, 0, 0, agentSrc 0 0, 0, e⟩)
        else .next (s1.rasterEnds clu e)

end Sys2Proof.Machine
end

