-- ==== Sys2Proof/Machine/Copy.lean ====
section
/-! DEFINITION. Copy jobs, their transfers, and routine slots (spec/15 R407 to R416). -/

namespace Sys2Proof.Machine

/-! ## Engines -/

def Die.engine (d : Die) (e : Nat) : Engine := getAt d.engines e .reset

def State.engine (s : State) (d e : Nat) : Engine := (s.die d).engine e

def State.setEngine (s : State) (d e : Nat) (x : Engine) : State :=
  s.setDie d { s.die d with engines := (s.die d).engines.set e x }

/-- What unlisted bytes of a stream buffer give: an UNDEFINED value with a matching code (R409). -/
def State.bufFill (s : State) (d e b : Nat) : Fill :=
  { byte := fun a => (s.fresh (2 ^ 58 + ((d * 16 + e) * 2 + b) * 2 ^ 20 + a)).setWidth 8, code := none, coded := true }

def Engine.buf (x : Engine) (b : Nat) : Memory := if b = 0 then x.buf0 else x.buf1

def Engine.setBuf (x : Engine) (b : Nat) (m : Memory) : Engine :=
  if b = 0 then { x with buf0 := m } else { x with buf1 := m }

/-- Whether a transfer is in flight. -/
def Xfer.inFlight (x : Xfer) : Bool := decide (x.pos < x.len)

/-- Whether a transfer since the last cesync has a buffer range that meets another. -/
def Xfer.meets (x : Xfer) (b a n : Nat) : Bool :=
  x.kind < 2 && x.buf == b && decide (a < x.off + 64 * x.len) && decide (x.off < a + n)

/-! ## The ring (R413, R416) -/

def State.cjSize (s : State) (d : Nat) : Nat := 2 ^ s.field (.cjbase d) 1 4

def State.writeCjtail (s : State) (d : Nat) (v : Dword) : Option State :=
  if 2 ^ 12 ≤ v.toNat || s.cjSize d ≤ v.toNat then none else some (s.setReg (.cjtail d) v)

def execCjtailDoorbell (d : Nat) (v : BitVec 64) (s : State) : Host.Outcome State Fault Refusal :=
  if 8 ≤ d then .fault .absent else s.written (.cjtail d) (s.writeCjtail d v)

def State.writeCjbase (s : State) (d : Nat) (v : Dword) : Option State :=
  s.enWrite (.cjbase d) v (if !inRange (v.getLsbD 0) (bitsOf v.toNat 1 4) 4 12 then none
    else s.plainWrite (.cjbase d) [(5, 2), (52, 12)] [] v)

def State.writeCjctl (s : State) (d : Nat) (v : Dword) : Option State :=
  if 10 < v.toNat % 16 then none else s.plainWrite (.cjctl d) [(20, 44)] [] v

/-! ## Ends of jobs (R412, R414) -/

/-- SRC of records of a die's copy engines. -/
def dieSrc (d : Nat) : Nat := d + 2 ^ 31

/-- A job ends: its transfers are cancelled and its fault recorded. -/
def State.endJob (s : State) (d e : Nat) (t : Trap) : State :=
  let x := s.engine d e
  match x.job with
  | none => s
  | some j =>
    (s.setEngine d e { x with job := none, xfers := [], stall := false }).faultRecord j.ctx
      ⟨0, 0, 0, dieSrc d, 0, t.atUnit 8⟩

/-- A fault of a job: an absent page is asked for, any other ends it. None where the page is asked for
already. -/
def State.jobFault (s : State) (d e ctx : Nat) (t : Trap) : Option State :=
  if t.cause == .pageNotPresent then
    if (s.ctx ctx).resolves.any fun r => r.page == t.page then none
    else some (s.postResolve ctx ⟨1, 0, 0, dieSrc d, 0, t.atUnit 8⟩)
  else some (s.endJob d e t)

/-- A job completes: 1 is added to DONE. None where its page is absent and asked for. -/
def State.completeJob (s : State) (d e : Nat) : Option State :=
  let x := s.engine d e
  match x.job with
  | none => none
  | some j =>
    let gone (s : State) : State := s.setEngine d e { x with job := none, xfers := [], stall := false }
    if j.done = 0 then some (gone s)
    else
      let r : Except Trap State := match s.jobRead j.ctx 8 j.done 8 with
        | .error t => .error t
        | .ok (bs, s1) => s1.jobWrite j.ctx 8 j.done (leBytes 8 (leNat bs + 1))
      match r with
      | .ok s1 => some (gone s1)
      | .error t => s.jobFault d e j.ctx t

/-! ## Transfers (R410, R411) -/

def illegalField : Trap := { cause := .illegalField }
def outOfBounds (a : Nat) : Trap := { cause := .bounds, addr := BitVec.ofNat 64 a }
def forbidden (a : Nat) (write : Bool) : Trap :=
  { cause := .protection, addr := BitVec.ofNat 64 a, aux0 := if write then 8 else 0 }

/-- The transfer that a cemove value starts, or the cause that ends the job. -/
def xferOf (j : CopyJob) (ceoff : Nat) (v : Dword) : Except Trap Xfer :=
  let x := v.toNat
  let n := bitsOf x 13 10
  let boff := bitsOf x 3 10
  let zf := bitOf x 24
  let out := bitOf x 23
  if 2 ^ 25 ≤ x || (zf && (bitsOf x 2 11 ≠ 0 || out)) then .error illegalField
  else match j.streams[x % 4]? with
    | none => .error (outOfBounds 0)
    | some (base, len, dir) =>
      if 1023 < boff + n || len < ceoff + n + 1 then .error (outOfBounds (base + 64 * ceoff))
      else if !bitOf dir (if out || zf then 1 else 0) then .error (forbidden (base + 64 * ceoff) (out || zf))
      else .ok { kind := if zf then 2 else if out then 1 else 0, gaddr := base + 64 * ceoff, len := n + 1,
                 buf := bitsOf x 2 1, off := 64 * boff, pos := 0, wait := none }

/-- A write of cemove: starts a transfer. -/
def State.cemove (s : State) (d e : Nat) (v : Dword) : State :=
  let x := s.engine d e
  match x.job with
  | none => s
  | some j => match xferOf j x.off v with
    | .error t => s.endJob d e t
    | .ok y => s.setEngine d e { x with xfers := x.xfers ++ [y] }

/-- The translated address of one granule of a job. -/
def State.jobPhys (s : State) (ctx : Nat) (write : Bool) (va : Nat) : Except Trap Phys :=
  match s.translate { ctx := ctx, prv := false, write := write } va with
  | .error t => .error (t.atUnit 8)
  | .ok p => .ok p

/-- Moves granule k of a unit. `hot` marks a buffer range that another transfer since the last cesync
uses. -/
def State.moveGranule (s : State) (d e : Nat) (j : CopyJob) (x : Xfer) (u : Nat) (hot : Bool) (k : Nat) :
    Except Trap State :=
  let va := x.gaddr + 64 * u + 8 * k
  let off := x.off + 64 * u + 8 * k
  let eng := s.engine d e
  let free : List Byte × Byte :=
    let bs := s.freeBytes (4096 + k) 8
    (bs, checkCode (leNat bs))
  let out (s : State) (g : List Byte × Byte) (va : Nat) : Except Trap State :=
    match s.jobPhys j.ctx true va with
    | .error t => .error t
    | .ok p => .ok (s.carryTo none p g)
  match x.kind with
  | 0 => match s.jobPhys j.ctx false va with
    | .error t => .error t
    | .ok p =>
      let s1 := if k = 0 then s.noteRead p else s
      let g := if hot then free else s1.granuleOf none p
      .ok (s1.setEngine d e
        (eng.setBuf x.buf ((eng.buf x.buf).carry (s.bufFill d e x.buf) (off / 8) g)))
  | 1 => out s (if hot then free else (eng.buf x.buf).take (s.bufFill d e x.buf) (off / 8)) va
  | 2 => out s (List.replicate 8 0, 0xA5) va
  | _ => match s.jobPhys j.ctx false va with
    | .error t => .error t
    | .ok p =>
      let s1 := if k = 0 then s.noteRead p else s
      out s1 (s1.granuleOf none p) off

/-- One 64-byte unit of a transfer. -/
def State.moveUnit (s : State) (d e : Nat) (j : CopyJob) (x : Xfer) (u : Nat) (hot : Bool) : Except Trap State :=
  let check (w : Bool) (va : Nat) : Except Trap Unit := s.jobAccess j.ctx 8 w va 64
  let ok : Except Trap Unit := match x.kind with
    | 0 => check false (x.gaddr + 64 * u)
    | 3 => match check false (x.gaddr + 64 * u) with
      | .error t => .error t
      | .ok _ => check true (x.off + 64 * u)
    | _ => check true (x.gaddr + 64 * u)
  match ok with
  | .error t => .error t
  | .ok _ => eachBelow (fun k s => s.moveGranule d e j x u hot k) 8 s

/-- The units of a transfer from its position on: the state and position where it stops. -/
def State.moveUnits (s : State) (d e : Nat) (j : CopyJob) (x : Xfer) (hot : Bool) : (n : Nat) → (u : Nat) →
    State × Nat × Option Trap
  | 0, u => (s, u, none)
  | n + 1, u => match s.moveUnit d e j x u hot with
    | .error t => (s, u, some t)
    | .ok s1 => s1.moveUnits d e j x hot n (u + 1)

/-- Whether a job is a built-in routine (R415). -/
def CopyJob.builtIn (j : CopyJob) : Bool := decide (j.slot < 2)

/-- A transfer completes, or stops where a page is absent. A built-in routine's job completes with its
transfer. -/
def execTransferDone (d e n : Nat) (s : State) : Host.Outcome State Fault Refusal :=
  if 8 ≤ d || 12 ≤ e then .fault .absent
  else
    let eng := s.engine d e
    match eng.job, eng.xfers[n]? with
    | some j, some x =>
      if x.wait.isSome then .fault .notEnabled
      else if !x.inFlight then
        if j.builtIn then (match s.completeJob d e with
          | some s1 => .next s1
          | none => .fault .notEnabled) else .fault .notEnabled
      else
        let others := eng.xfers.eraseIdx n
        let hot := x.kind < 2 && others.any fun y => y.meets x.buf x.off (64 * x.len) && (x.kind == 0 || y.kind == 0)
        let (s1, u, t) := s.moveUnits d e j x hot (x.len - x.pos) x.pos
        let put (s : State) (w : Option Nat) : State :=
          let g := s.engine d e
          s.setEngine d e { g with
            xfers := g.xfers.set n { x with pos := u, wait := w }
            resv := if x.kind == 0 then none else g.resv
            seq := if w.isNone && u = x.len then g.seq + 1 else g.seq }
        match t with
        | none =>
          let s2 := put s1 none
          if j.builtIn then .next ((s2.completeJob d e).getD s2) else .next s2
        | some t =>
          if t.cause == .pageNotPresent then
            .next ((put s1 (some t.page)).postResolve j.ctx ⟨1, 0, 0, dieSrc d, 0, t.atUnit 8⟩)
          else .next (s1.endJob d e t)
    | _, _ => .fault .notEnabled

/-! ## Starting jobs (R413 to R415) -/

/-- A routine slot's code; none where it holds no routine. -/
def Die.routine (d : Die) (slot : Nat) : Option (List Byte) :=
  if slot < 2 then some [] else (d.routines.find? fun r => r.1 == slot).map (·.2)

/-- A job from its 128 bytes, or its first bad byte. -/
def copyJobOf (d : Die) (addr tick : Nat) (bs : List Byte) : Except Nat CopyJob :=
  let f := fieldOf bs
  let n := f 5 1
  let str (i : Nat) : Nat × Nat × Nat := (f (0x10 + 16 * i) 8, f (0x18 + 16 * i) 4, f (0x1C + 16 * i) 1)
  let bad (i : Nat) : Bool × Nat :=
    let x := str i
    let o := 0x10 + 16 * i
    if n ≤ i then (!allZero (byteRange bs o 16), badFrom bs o)
    else if x.1 % 64 ≠ 0 || 2 ^ 56 ≤ x.1 then (true, badAddr 64 x.1 o)
    else if x.2.1 = 0 then (true, o + 8)
    else if x.2.2 = 0 || 3 < x.2.2 then (true, o + 12)
    else (!allZero (byteRange bs (o + 13) 3), badFrom bs (o + 13))
  match firstBad ([(decide (f 0 4 ≠ 0x45510001), 0), (decide (31 < f 4 1) || (d.routine (f 4 1)).isNone, 4),
      (decide (n = 0) || decide (4 < n), 5), (decide (63 < f 6 1), 6), (decide (f 7 1 ≠ 0), 7),
      (decide (f 8 8 % 8 ≠ 0), 8)] ++ (List.range 4).map bad) with
  | some o => .error o
  | none => .ok { ctx := f 6 1, addr := addr, slot := f 4 1, streams := (List.range n).map str
                  args := (List.range 6).map fun i => BitVec.ofNat 64 (f (0x50 + 8 * i) 8), done := f 8 8, started := tick }

/-- The transfer of a built-in routine, or what ends its job at its start. -/
def CopyJob.builtInXfer (j : CopyJob) : Except Trap Xfer :=
  match j.slot, j.streams with
  | 0, (a, n, da) :: (b, m, db) :: _ =>
    if n ≠ m then .error (outOfBounds a)
    else if !bitOf da 0 then .error (forbidden a false)
    else if !bitOf db 1 then .error (forbidden b true)
    else .ok { kind := 3, gaddr := a, len := n, buf := 0, off := b, pos := 0, wait := none }
  | 0, _ => .error (outOfBounds 0)
  | _, (a, n, da) :: _ =>
    if !bitOf da 1 then .error (forbidden a true)
    else .ok { kind := 2, gaddr := a, len := n, buf := 0, off := 0, pos := 0, wait := none }
  | _, [] => .error (outOfBounds 0)

/-- CJHEAD advances. -/
def State.cjAdvance (s : State) (d : Nat) : State :=
  s.setReg (.cjhead d) (BitVec.ofNat 64 ((s.field (.cjhead d) 0 12 + 1) % s.cjSize d))

/-- The next job starts on a free engine, or is refused. -/
def execCopyJobStart (d : Nat) (s : State) : Host.Outcome State Fault Refusal :=
  if 8 ≤ d then .fault .absent
  else
    let x := s.die d
    let head := s.field (.cjhead d) 0 12 % s.cjSize d
    let busy := (x.engines.filter fun e => e.job.isSome).length
    if !s.flag (.cjbase d) 0 || head = s.field (.cjtail d) 0 12 || s.field (.cjctl d) 0 4 ≤ busy then .fault .notEnabled
    else match x.engines.findIdx? fun e => e.job.isNone with
      | none => .fault .notEnabled
      | some e =>
        let pa := s.field (.cjbase d) 7 45 * 128 + 128 * head
        let refuse (ctx : Nat) (t : Trap) : Host.Outcome State Fault Refusal :=
          .next ((s.faultRecord ctx ⟨4, 0, 0, dieSrc d, 0, t.atUnit 8⟩).cjAdvance d)
        match s.readAt .dev pa 128 with
        | .error m =>
          -- the context is known only where the granule that names it is right
          if m.addr / 8 = pa / 8 then .next (s.cjAdvance d)
          else refuse (leNat (s.bytesAt .dev (pa + 6) 1) % 64) (mismatchTrap m 8 m.addr 0 0 m.addr)
        | .ok bs => match copyJobOf x pa s.tick bs with
          | .error o => if fieldOf bs 6 1 < 64 then refuse (fieldOf bs 6 1) (formatTrap 8 pa 6 o)
              else .next (s.cjAdvance d)
          | .ok j =>
            let s1 := (s.setEngine d e { Engine.reset with job := some j }).cjAdvance d
            if !j.builtIn then .next s1
            else match j.builtInXfer with
              | .error t => .next (s1.endJob d e t)
              | .ok y => .next (s1.setEngine d e { s1.engine d e with xfers := [y] })

/-- A job's time runs out (R414). -/
def execCopyJobTimeout (d e : Nat) (s : State) : Host.Outcome State Fault Refusal :=
  if 8 ≤ d || 12 ≤ e then .fault .absent
  else match (s.engine d e).job with
    | none => .fault .notEnabled
    | some j =>
      let lim := 1024 * s.field (.cjctl d) 4 16
      if lim = 0 || s.tick ≤ j.started + lim then .fault .notEnabled
      else .next (s.endJob d e { cause := .watchdogKill, aux1 := BitVec.ofNat 64 (s.tick - j.started) })

/-! ## Routine slots (R415, R416) -/

/-- Replaces a slot's code. -/
def Die.setRoutine (d : Die) (slot : Nat) (code : Option (List Byte)) : Die :=
  let rest := d.routines.filter fun r => r.1 != slot
  { d with routines := match code with
    | some c => (slot, c) :: rest
    | none => rest }

/-- Whether the Turnip core has verified a package for a slot and has this value still to write there. -/
def State.verified (s : State) (d slot : Nat) (v : Dword) : Bool := s.mgmt.slots.contains (d, slot, v)

/-- The Turnip core has written a slot, or failed to: then its command ends with status 2. -/
def State.slotWritten (s : State) (d slot : Nat) (v : Dword) (ok : Bool) : State :=
  { s with mgmt := { s.mgmt with
    slots := s.mgmt.slots.erase (d, slot, v)
    command := if ok then s.mgmt.command else s.mgmt.command.map fun _ => 2 } }

/-- A write of RTSLOT by the Turnip core: with V = 1 the code is copied, checking codes. A slot that is given
a routine takes a verified package only (spec/17 R466). -/
def State.writeRtslot (s : State) (d slot : Nat) (v : Dword) : Option State :=
  let x := v.toNat
  let len := bitsOf x 1 10
  if bitsOf x 11 5 ≠ 0 || bitsOf x 62 2 ≠ 0 then none
  else
    -- LEN has ten bits, and 1,024 units are written as 0 of eleven: only 1 to 1,023 can be named
    if !inRange (v.getLsbD 0) len 1 1024 then none
    else if v.getLsbD 0 then
      if !s.verified d slot v then none
      else match s.readAt .dev (bitsOf x 16 46 * 64) (64 * len) with
        | .error _ => none
        | .ok bs => some (((s.setReg (.rtslot d slot) v).setDie d ((s.die d).setRoutine slot (some bs))).slotWritten d slot v true)
    else some ((s.setReg (.rtslot d slot) v).setDie d ((s.die d).setRoutine slot none))

/-- A slot is loaded once no job of it runs. -/
def execRtslotLoad (d slot : Nat) (v : BitVec 64) (s : State) : Host.Outcome State Fault Refusal :=
  if 8 ≤ d || slot < 2 || 32 ≤ slot then .fault .absent
  else if (s.die d).engines.any fun e => (e.job.map (·.slot)) == some slot then .fault .notEnabled
  else match s.writeRtslot d slot v with
    | some s1 => .next s1
    | none =>
      let s1 := s.cwRefuse (8 * (Reg.rtslot d slot).index)
      .next (if s.verified d slot v then s1.slotWritten d slot v false else s1)

end Sys2Proof.Machine
end

