-- ==== Sys2Proof/Machine/RvMem.lean ====
section
/-! DEFINITION. The routine core of a copy engine (spec/15 R407 to R410): its registers, its memory map and
its control and status registers. The RISC-V instructions themselves are those of the RISC-V standard,
which the specification names (notes/assumptions/10). -/

namespace Sys2Proof.Machine

/-- A routine core as an instruction sees it. -/
structure Rv where
  s : State
  d : Nat
  e : Nat
  j : CopyJob
  x : Engine

/-- What an instruction of the core answers: the core after it, or what ends or stops it. -/
inductive RvOut
  | next (x : Engine)
  | trap (t : Trap)
  | ecall
  | ebreak
  /-- A write of cemove: the core after it, and the value. -/
  | move (x : Engine) (v : Dword)
  /-- A read of cesync into a register while transfers are in flight. -/
  | sync

def illegalOp (w : Nat) : Trap := { cause := .illegalOpcode, aux0 := BitVec.ofNat 64 w }

namespace Rv

/-! ## Registers -/

def get (r : Rv) (n : Nat) : Dword := if n = 0 then 0 else getAt r.x.x n 0

def set (r : Rv) (n : Nat) (v : Dword) : Rv :=
  if n = 0 then r else { r with x := { r.x with x := r.x.x.set n v } }

/-- A 32-bit result, sign-extended. -/
def set32 (r : Rv) (n : Nat) (v : Nat) : Rv := r.set n ((BitVec.ofNat 32 v).signExtend 64)

def getN (r : Rv) (n : Nat) : Nat := (r.get n).toNat

def getI (r : Rv) (n : Nat) : Int := (r.get n).toInt

def setI (r : Rv) (n : Nat) (v : Int) : Rv := r.set n (BitVec.ofInt 64 v)

def fget (r : Rv) (n : Nat) : Dword := getAt r.x.f n 0

def fset (r : Rv) (n : Nat) (v : Nat) : Rv := { r with x := { r.x with f := r.x.f.set n (BitVec.ofNat 64 v) } }

/-- A value of 32 bits in a floating register: boxed in ones. -/
def fset32 (r : Rv) (n : Nat) (v : Nat) : Rv := r.fset n (0xFFFFFFFF00000000 + v % 2 ^ 32)

/-- The 32-bit value of a floating register: the canonical NaN where it is not boxed. -/
def fget32 (r : Rv) (n : Nat) : Nat :=
  let v := (r.fget n).toNat
  if v / 2 ^ 32 = 0xFFFFFFFF then v % 2 ^ 32 else 0x7FC00000

def raise (r : Rv) (fl : Dword) : Rv := { r with x := { r.x with fcsr := r.x.fcsr ||| fl.toNat } }

/-! ## Memory (R408, R409) -/

/-- The data RAM carries no codes and is zero at job start. -/
def ramFill : Fill := { byte := fun _ => 0, code := none, coded := false }

/-- Where an address lies: 0 code, 1 data RAM, 2 and 3 the stream buffers. -/
def region (a : Nat) : Option (Nat × Nat) :=
  if a < 0x10000 then some (0, a)
  else if a < 0x14000 then some (1, a - 0x10000)
  else if 0x100000 ≤ a && a < 0x110000 then some (2, a - 0x100000)
  else if 0x110000 ≤ a && a < 0x120000 then some (3, a - 0x110000)
  else none

def fail (c : Cause) (a : Nat) (write : Bool) : Trap :=
  { cause := c, unit := 8, addr := BitVec.ofNat 64 a, aux0 := if write then 8 else 0 }

/-- Bytes of the code region: those beyond the routine are UNDEFINED. -/
def codeBytes (r : Rv) (a n : Nat) : List Byte :=
  let code := ((r.s.die r.d).routine r.j.slot).getD []
  (List.range n).map fun i => (code[a + i]?).getD ((r.s.fresh (2 ^ 59 + a + i)).setWidth 8)

/-- Whether a transfer since the last cesync makes a buffer range UNDEFINED (R411): a load meets one into
the buffer; a store meets any. -/
def hot (r : Rv) (b a n : Nat) (store : Bool) : Bool :=
  r.x.xfers.any fun y => y.meets b a n && (store || y.kind == 0)

/-- A load of n bytes, naturally aligned. -/
def load (r : Rv) (a n : Nat) : Except Trap Nat :=
  if a % n ≠ 0 then .error (fail .misaligned a false)
  else match region a with
    | none => .error (fail .protection a false)
    | some (0, o) => .ok (leNat (r.codeBytes o n))
    | some (1, o) => .ok (leNat (r.x.ram.bytes ramFill o n))
    | some (b, o) =>
      if r.hot (b - 2) o n false then .ok (leNat (r.s.freeBytes (a % 2 ^ 20) n))
      else match (r.x.buf (b - 2)).read (r.s.bufFill r.d r.e (b - 2)) o n with
        | .error m => .error (mismatchTrap m 8 (a / 8 * 8) 0 0 0)
        | .ok bs => .ok (leNat bs)

/-- A store of n bytes, naturally aligned. -/
def store (r : Rv) (a n v : Nat) : Except Trap Rv :=
  if a % n ≠ 0 then .error (fail .misaligned a true)
  else match region a with
    | none | some (0, _) => .error (fail .protection a true)
    | some (1, o) => .ok { r with x := { r.x with ram := r.x.ram.put o (leBytes n v) } }
    | some (b, o) =>
      let bs := if r.hot (b - 2) o n true then r.s.freeBytes (a % 2 ^ 20) n else leBytes n v
      match (r.x.buf (b - 2)).write (r.s.bufFill r.d r.e (b - 2)) o bs with
      | .error m => .error (mismatchTrap m 13 (a / 8 * 8) 0 0 0)
      | .ok m => .ok { r with x := r.x.setBuf (b - 2) m }

/-! ## Control and status registers (R407, R410) -/

/-- The value a register reads; none where it does not exist or is write-only. `instret` counts the reading
instruction, which has not retired. -/
def csr (r : Rv) (n : Nat) : Option Nat :=
  let x := r.x
  match n with
  | 0x001 => some (x.fcsr % 32)
  | 0x002 => some (x.fcsr / 32 % 8)
  | 0x003 => some (x.fcsr % 256)
  | 0x008 => some x.vstart
  | 0x009 => some (x.vcsr % 2)
  | 0x00A => some (x.vcsr / 2 % 4)
  | 0x00F => some (x.vcsr % 8)
  | 0xC00 => some (r.s.tick - r.j.started)
  | 0xC01 => some r.s.tick
  | 0xC02 => some (x.instret - 1)
  | 0xC20 => some x.vl
  | 0xC21 => some x.vtype
  | 0xC22 => some 64
  | 0x801 => some x.off
  | 0x802 => some x.seq
  | _ =>
    if 0x803 ≤ n && n ≤ 0x808 then some (getAt r.j.args (n - 0x803) 0).toNat
    else if 0x809 ≤ n && n ≤ 0x80C then some (match r.j.streams[n - 0x809]? with
      | some y => y.2.1
      | none => 0)
    else none

/-- A write of a register; none where it is read-only. -/
def setCsr (r : Rv) (n v : Nat) : Option Rv :=
  let x := r.x
  let put (y : Engine) : Option Rv := some { r with x := y }
  match n with
  | 0x001 => put { x with fcsr := x.fcsr / 32 * 32 + v % 32 }
  | 0x002 => put { x with fcsr := x.fcsr % 32 + v % 8 * 32 }
  | 0x003 => put { x with fcsr := v % 256 }
  | 0x008 => put { x with vstart := v % 512 }
  | 0x009 => put { x with vcsr := x.vcsr / 2 * 2 + v % 2 }
  | 0x00A => put { x with vcsr := x.vcsr % 2 + v % 4 * 2 }
  | 0x00F => put { x with vcsr := v % 8 }
  | 0x801 => put { x with off := v }
  | _ => none

end Rv

end Sys2Proof.Machine
end

