-- ==== Sys2Proof/Machine/RvFloat.lean ====
section
/-! DEFINITION. Floating-point operations of the routine core, on encodings of 32 and 64 bits (spec/15
R407: by the RISC-V rules; notes/assumptions/10). -/

namespace Sys2Proof.Machine

/-- Rounding of a RISC-V rounding mode; none for the reserved ones. -/
def rvRm (n : Nat) : Option Rm :=
  match n with
  | 0 => some .rne
  | 1 => some .rtz
  | 2 => some .rdn
  | 3 => some .rup
  | 4 => some .rna
  | _ => none

def rvFin (rm : Rm) : Finish := { rm := rm, sat := false, fz := false, r8 := 0 }

def rvFmt (wide : Bool) : Fmt := if wide then .f64 else .f32

def Fmt.val (f : Fmt) (x : Nat) : FVal := f.decode false x

/-- Sum or difference. -/
def rvAdd (f : Fmt) (rm : Rm) (sub : Bool) (a b : Nat) : Res :=
  fusedSum f (rvFin rm) [] [f.val a, if sub then (f.val b).negate else f.val b]

def rvMul (f : Fmt) (rm : Rm) (a b : Nat) : Res :=
  let p := FVal.mul (f.val a) (f.val b)
  addFlags (finish f (rvFin rm) p.1) p.2

def rvDiv (f : Fmt) (rm : Rm) (a b : Nat) : Res :=
  let p := FVal.div (f.val a) (f.val b)
  addFlags (finish f (rvFin rm) p.1) p.2

def rvSqrt (f : Fmt) (rm : Rm) (a : Nat) : Res := sqrtOf f (rvFin rm) (f.val a)

/-- ±(a × b) ± c. -/
def rvFma (f : Fmt) (rm : Rm) (neg sub : Bool) (a b c : Nat) : Res :=
  fmaOf f (rvFin rm) neg sub (f.val a) (f.val b) (f.val c)

/-- Sign injection: 0 sgnj, 1 sgnjn, 2 sgnjx. -/
def rvSgnj (f : Fmt) (k a b : Nat) : Nat :=
  let s := b / f.signBit % 2
  let s' := if k = 0 then s else if k = 1 then 1 - s else (s + a / f.signBit) % 2
  a % f.signBit + s' * f.signBit

/-- Class mask: the RISC-V order of the ten classes. -/
def rvClass (f : Fmt) (a : Nat) : Nat := 2 ^ getAt [8, 9, 0, 1, 2, 3, 4, 5, 6, 7] (fclassOf f a) 0

/-- Comparison: 0 le, 1 lt, 2 eq; eq is quiet. -/
def rvCmp (f : Fmt) (k a b : Nat) : Bool × Dword :=
  fcmpOf (if k = 0 then .le else if k = 1 then .lt else .eq) (f.val a) (f.val b)

/-- A float to an integer of n bits: out of range and NaN give the nearest bound and NV. -/
def rvToInt (f : Fmt) (rm : Rm) (n : Nat) (signed : Bool) (a : Nat) : Res :=
  let hi : Int := if signed then 2 ^ (n - 1) - 1 else 2 ^ n - 1
  let lo : Int := if signed then -(2 ^ (n - 1)) else 0
  match f.val a with
  | .nan _ => (ofSigned n hi, flagNV)
  | .inf neg => (ofSigned n (if neg then lo else hi), flagNV)
  | .fin neg mag =>
    let x := Split.ofRat mag 0
    let m : Int := (x.round rm neg 0 : Nat)
    let v := if neg then -m else m
    if v < lo then (ofSigned n lo, flagNV)
    else if hi < v then (ofSigned n hi, flagNV)
    else (ofSigned n v, if x.inexact then flagNX else 0)

/-- An integer to a float. -/
def rvOfInt (f : Fmt) (rm : Rm) (x : Int) : Res := finish f (rvFin rm) (FVal.ofRat (x : Rat))

/-- A float to another format. -/
def rvToFloat (g f : Fmt) (rm : Rm) (a : Nat) : Res := toFloat f (rvFin rm) (g.val a)

end Sys2Proof.Machine
end

