-- ==== Sys2Proof/Machine/RvVector.lean ====
section
/-! DEFINITION. The V extension of the routine core (spec/15 R407: VLEN 512, ELEN 64; the instructions by
the RISC-V standard, notes/assumptions/10). A group multiplier is held in eighths. -/

namespace Sys2Proof.Machine

/-! ## Configuration -/

/-- SEW and LMUL × 8 of a vtype value; none where it is not supported. -/
def vtypeOf (t : Nat) : Option (Nat × Nat) :=
  let sew := 8 * 2 ^ bitsOf t 3 3
  let lm := getAt [8, 16, 32, 64, 0, 1, 2, 4] (t % 8) 0
  if 256 ≤ t || lm = 0 || 64 < sew || 8 * lm < sew then none else some (sew, lm)

def vlmaxOf (sew lm : Nat) : Nat := lm * 64 / sew

/-- What a vector instruction runs under. -/
structure VEnv where
  sew : Nat
  lm : Nat
  vl : Nat
  start : Nat
  ta : Bool
  ma : Bool
  /-- Every element is active. -/
  all : Bool

namespace Rv

def venv (r : Rv) (w : Nat) : Option VEnv :=
  (vtypeOf r.x.vtype).map fun p =>
    { sew := p.1, lm := p.2, vl := r.x.vl, start := r.x.vstart, ta := bitOf r.x.vtype 6, ma := bitOf r.x.vtype 7,
      all := bitOf w 25 }

/-! ## Elements -/

def vreg (r : Rv) (n : Nat) : BitVec 512 := getAt r.x.v n 0

/-- Element i, of w bits, of the group at register n. -/
def velem (r : Rv) (n w i : Nat) : Nat := bitsOf (r.vreg (n + i * w / 512)).toNat (i * w % 512) w

def vput (r : Rv) (n w i v : Nat) : Rv :=
  let k := n + i * w / 512
  { r with x := { r.x with v := r.x.v.set k (BitVec.ofNat 512 (replaceBits (r.vreg k).toNat (i * w % 512) w v)) } }

def vbit (r : Rv) (n i : Nat) : Bool := (r.vreg n).getLsbD i

/-- Whether element i is active. -/
def active (r : Rv) (c : VEnv) (i : Nat) : Bool :=
  decide (c.start ≤ i) && decide (i < c.vl) && (c.all || r.vbit 0 i)

/-- An agnostic element: it keeps its value, or becomes all ones. -/
def agnostic (r : Rv) (n w i : Nat) : Rv :=
  if Config.freeChoice (r.s.freeN * 2 ^ 64 + 2 ^ 60 + n * 1024 + i) then r.vput n w i (2 ^ w - 1) else r

/-- Registers of a group. -/
def groupRegs (lm : Nat) : Nat := max 1 (lm / 8)

/-- Writes a group element by element: `f` gives the value of an active one, none to leave it. -/
def vwrite (r : Rv) (c : VEnv) (n w lm : Nat) (f : Nat → Option Nat) : Rv :=
  if c.vl ≤ c.start then r
  else (List.range (groupRegs lm * 512 / w)).foldl (fun (q : Rv) i =>
    if i < c.start then q
    else if c.vl ≤ i then (if c.ta then q.agnostic n w i else q)
    else if r.active c i then (match f i with
      | some v => q.vput n w i v
      | none => q)
    else if c.ma then q.agnostic n w i
    else q) r

/-- Writes a mask register: its tail is always agnostic. -/
def vwriteMask (r : Rv) (c : VEnv) (n : Nat) (f : Nat → Bool) : Rv :=
  if c.vl ≤ c.start then r
  else (List.range 512).foldl (fun (q : Rv) i =>
    if i < c.start then q
    else if c.vl ≤ i then q.agnostic n 1 i
    else if r.active c i then q.vput n 1 i (if f i then 1 else 0)
    else if c.ma then q.agnostic n 1 i
    else q) r

/-- Writes element 0 alone. -/
def vwrite0 (r : Rv) (c : VEnv) (n w v : Nat) : Rv :=
  if c.vl ≤ c.start then r
  else
    let q := r.vput n w 0 v
    if c.ta then (List.range (512 / w - 1)).foldl (fun (q : Rv) i => q.agnostic n w (i + 1)) q else q

/-- Active elements in order. -/
def actives (r : Rv) (c : VEnv) : List Nat := (List.range c.vl).filter (r.active c)

/-! ## Register groups -/

def aligned (n lm : Nat) : Bool := n % groupRegs lm == 0

/-- Whether two groups share a register. -/
def overlap (a la b lb : Nat) : Bool := decide (a < b + groupRegs lb) && decide (b < a + groupRegs la)

/-- Whether a destination may overlap a source of another element width. -/
def overlapOk (d wd ld s ws ls : Nat) : Bool :=
  !overlap d ld s ls || wd == ws
    || (decide (wd < ws) && d == s)
    || (decide (ws < wd) && decide (8 ≤ ls) && s == d + groupRegs ld - groupRegs ls)

/-- A masked instruction does not write v0, but for masks and scalars. -/
def maskOk (c : VEnv) (d : Nat) : Bool := c.all || d != 0

end Rv

/-! ## Integer operations on elements -/

/-- A right shift with the fixed-point rounding of vxrm. -/
def vround (xrm : Nat) (x : Int) (d : Nat) : Int :=
  if d = 0 then x
  else
    let q := x / (2 ^ d : Nat)
    let low := (x % (2 ^ d : Nat)).toNat
    let half := low / 2 ^ (d - 1) % 2
    let r := match xrm with
      | 0 => half
      | 1 => if half = 1 && (low % 2 ^ (d - 1) ≠ 0 || q % 2 = 1) then 1 else 0
      | 2 => 0
      | _ => if q % 2 = 0 && low ≠ 0 then 1 else 0
    q + (r : Nat)

/-- A value clipped to w bits, and whether it was. -/
def vclip (w : Nat) (signed : Bool) (x : Int) : Nat × Bool :=
  let hi : Int := if signed then 2 ^ (w - 1) - 1 else 2 ^ w - 1
  let lo : Int := if signed then -(2 ^ (w - 1)) else 0
  if x < lo then (ofSigned w lo, true) else if hi < x then (ofSigned w hi, true) else (ofSigned w x, false)

/-- Signed or unsigned value of an element. -/
def vint (signed : Bool) (w x : Nat) : Int := if signed then toSigned w x else (x : Int)

/-- Two-operand integer instructions of one width: a is vs2, b the other operand; with saturation. -/
def vbinary (opm : Bool) (f6 w xrm a b : Nat) : Option (Nat × Bool) :=
  let sa := toSigned w a
  let sb := toSigned w b
  let ok (x : Int) : Option (Nat × Bool) := some (ofSigned w x, false)
  let sh := b % w
  match opm, f6 with
  | false, 0x00 => ok (a + b)
  | false, 0x02 => ok ((a : Int) - b)
  | false, 0x03 => ok ((b : Int) - a)
  | false, 0x04 => ok (min a b : Nat)
  | false, 0x05 => ok (min sa sb)
  | false, 0x06 => ok (max a b : Nat)
  | false, 0x07 => ok (max sa sb)
  | false, 0x09 => ok (a &&& b : Nat)
  | false, 0x0A => ok (a ||| b : Nat)
  | false, 0x0B => ok (a ^^^ b : Nat)
  | false, 0x20 => some (vclip w false ((a : Int) + b))
  | false, 0x21 => some (vclip w true (sa + sb))
  | false, 0x22 => some (vclip w false ((a : Int) - b))
  | false, 0x23 => some (vclip w true (sa - sb))
  | false, 0x25 => ok (a * 2 ^ sh : Nat)
  | false, 0x27 => some (vclip w true (vround xrm (sa * sb) (w - 1)))
  | false, 0x28 => ok (a / 2 ^ sh : Nat)
  | false, 0x29 => ok (sa / (2 ^ sh : Nat))
  | false, 0x2A => ok (vround xrm a sh)
  | false, 0x2B => ok (vround xrm sa sh)
  | true, 0x08 => ok (vround xrm ((a : Int) + b) 1)
  | true, 0x09 => ok (vround xrm (sa + sb) 1)
  | true, 0x0A => ok (vround xrm ((a : Int) - b) 1)
  | true, 0x0B => ok (vround xrm (sa - sb) 1)
  | true, 0x20 => some (if b = 0 then 2 ^ w - 1 else a / b, false)
  | true, 0x21 => if b = 0 then ok (-1) else ok (sa.tdiv sb)
  | true, 0x22 => some (if b = 0 then a else a % b, false)
  | true, 0x23 => if b = 0 then ok sa else ok (sa.tmod sb)
  | true, 0x24 => ok (a * b / 2 ^ w : Nat)
  | true, 0x25 => ok (a * b : Nat)
  | true, 0x26 => ok (sa * b / (2 ^ w : Nat))
  | true, 0x27 => ok (sa * sb / (2 ^ w : Nat))
  | _, _ => none

/-- Comparisons: a is vs2. -/
def vcompare (f6 w a b : Nat) : Option Bool :=
  let sa := toSigned w a
  let sb := toSigned w b
  match f6 with
  | 0x18 => some (a == b)
  | 0x19 => some (a != b)
  | 0x1A => some (decide (a < b))
  | 0x1B => some (decide (sa < sb))
  | 0x1C => some (decide (a ≤ b))
  | 0x1D => some (decide (sa ≤ sb))
  | 0x1E => some (decide (b < a))
  | 0x1F => some (decide (sb < sa))
  | _ => none

/-- Integer reductions: an accumulator and an element. -/
def vreduce (f6 w acc a : Nat) : Nat :=
  let s := toSigned w acc
  let t := toSigned w a
  match f6 with
  | 0 => (acc + a) % 2 ^ w
  | 1 => acc &&& a
  | 2 => acc ||| a
  | 3 => acc ^^^ a
  | 4 => min acc a
  | 5 => ofSigned w (min s t)
  | 6 => max acc a
  | _ => ofSigned w (max s t)

namespace Rv

/-- The other operand of an instruction by its form: a vector (0 and 2), an immediate (3), a scalar. -/
def vop (r : Rv) (f3 rs1 w i : Nat) : Nat :=
  if f3 = 0 || f3 = 2 then r.velem rs1 w i
  else if f3 = 3 then ofSigned w (toSigned 5 rs1)
  else ofSigned w (r.getI rs1)

/-- The same as an unsigned immediate or a full scalar: shifts, slides and gathers. -/
def vamount (r : Rv) (f3 rs1 : Nat) : Nat := if f3 = 3 then rs1 else r.getN rs1

/-- Marks saturation. -/
def satIf (r : Rv) (b : Bool) : Rv := if b then { r with x := { r.x with vcsr := r.x.vcsr / 2 * 2 + 1 } } else r

def xrm (r : Rv) : Nat := r.x.vcsr / 2 % 4

def okIf (b : Bool) (r : Rv) : Option Rv := if b then some r else none

/-! ## OPIVV, OPIVX, OPIVI -/

/-- Two-operand instructions of one width. -/
def vBin (r : Rv) (c : VEnv) (opm : Bool) (f6 f3 vd vs2 rs1 : Nat) : Option Rv :=
  let vv := f3 = 0 || f3 = 2
  let fs (i : Nat) : Nat × Bool :=
    let b := if f3 = 3 && (f6 = 0x25 || (0x28 ≤ f6 && f6 ≤ 0x2B)) then rs1 else r.vop f3 rs1 c.sew i
    (vbinary opm f6 c.sew r.xrm (r.velem vs2 c.sew i) b).getD (0, false)
  let sat := (r.actives c).any fun i => (fs i).2
  okIf (aligned vd c.lm && aligned vs2 c.lm && (!vv || aligned rs1 c.lm) && maskOk c vd)
    ((r.vwrite c vd c.sew c.lm fun i => some (fs i).1).satIf sat)

/-- Narrowing shifts and clips. -/
def vNarrow (r : Rv) (c : VEnv) (f6 f3 vd vs2 rs1 : Nat) : Option Rv :=
  let w := 2 * c.sew
  let amount (i : Nat) : Nat := (if f3 = 3 then rs1 else r.vop f3 rs1 c.sew i) % w
  let fs (i : Nat) : Nat × Bool :=
    let a := r.velem vs2 w i
    match f6 with
    | 0x2C => (a / 2 ^ amount i % 2 ^ c.sew, false)
    | 0x2D => (ofSigned c.sew (toSigned w a / (2 ^ amount i : Nat)), false)
    | 0x2E => vclip c.sew false (vround r.xrm a (amount i))
    | _ => vclip c.sew true (vround r.xrm (toSigned w a) (amount i))
  okIf (c.sew ≤ 32 && c.lm ≤ 32 && aligned vd c.lm && aligned vs2 (2 * c.lm) && (f3 ≠ 0 || aligned rs1 c.lm)
      && overlapOk vd c.sew c.lm vs2 w (2 * c.lm) && maskOk c vd)
    ((r.vwrite c vd c.sew c.lm fun i => some (fs i).1).satIf ((r.actives c).any fun i => (fs i).2))

/-- Additions and subtractions with carry, and their carries out. -/
def vCarry (r : Rv) (c : VEnv) (f6 f3 vd vs2 rs1 : Nat) : Option Rv :=
  let every := { c with all := true }
  let cin (i : Nat) : Int := if c.all then 0 else if r.vbit 0 i then 1 else 0
  let exact (i : Nat) : Int :=
    let a : Int := r.velem vs2 c.sew i
    let b : Int := r.vop f3 rs1 c.sew i
    if f6 = 0x10 || f6 = 0x11 then a + b + cin i else a - b - cin i
  let srcs := aligned vs2 c.lm && (f3 ≠ 0 || aligned rs1 c.lm)
  let d1 (s : Nat) : Bool := !overlap vd 8 s c.lm || vd == s || decide (c.lm ≤ 8)
  if f6 = 0x10 || f6 = 0x12 then
    okIf (!c.all && vd ≠ 0 && srcs && aligned vd c.lm && (f6 = 0x10 || f3 ≠ 3))
      (r.vwrite every vd c.sew c.lm fun i => some (ofSigned c.sew (exact i)))
  else okIf (srcs && (f6 = 0x11 || f3 ≠ 3) && d1 vs2 && (f3 ≠ 0 || d1 rs1))
      (r.vwriteMask every vd fun i => decide (exact i < 0) || decide ((2 ^ c.sew : Int) ≤ exact i))

/-- Comparisons into a mask. -/
def vCmp (r : Rv) (c : VEnv) (f6 f3 vd vs2 rs1 : Nat) : Option Rv :=
  let form := match f6 with
    | 0x1A | 0x1B => f3 ≠ 3
    | 0x1E | 0x1F => f3 ≠ 0
    | _ => true
  let d1 (s : Nat) : Bool := !overlap vd 8 s c.lm || vd == s || decide (c.lm ≤ 8)
  okIf (form && aligned vs2 c.lm && (f3 ≠ 0 || aligned rs1 c.lm) && d1 vs2 && (f3 ≠ 0 || d1 rs1))
    (r.vwriteMask c vd fun i => (vcompare f6 c.sew (r.velem vs2 c.sew i) (r.vop f3 rs1 c.sew i)).getD false)

/-- Slides and gathers. -/
def vPermute (r : Rv) (c : VEnv) (f6 f3 vd vs2 rs1 : Nat) : Option Rv :=
  let max' := vlmaxOf c.sew c.lm
  let at' (k : Nat) : Nat := if k < max' then r.velem vs2 c.sew k else 0
  let n := r.vamount f3 rs1
  let base := aligned vd c.lm && aligned vs2 c.lm && maskOk c vd
  match f6, f3 with
  | 0x0C, 0 => okIf (base && aligned rs1 c.lm && !overlap vd c.lm vs2 c.lm && !overlap vd c.lm rs1 c.lm)
      (r.vwrite c vd c.sew c.lm fun i => some (at' (r.velem rs1 c.sew i)))
  | 0x0C, _ => okIf (base && !overlap vd c.lm vs2 c.lm) (r.vwrite c vd c.sew c.lm fun _ => some (at' n))
  | 0x0E, 0 =>
    let l16 := c.lm * 16 / c.sew
    okIf (base && 1 ≤ l16 && l16 ≤ 64 && aligned rs1 l16 && !overlap vd c.lm vs2 c.lm && !overlap vd c.lm rs1 l16)
      (r.vwrite c vd c.sew c.lm fun i => some (at' (r.velem rs1 16 i)))
  | 0x0E, _ => okIf (base && !overlap vd c.lm vs2 c.lm)
      (r.vwrite c vd c.sew c.lm fun i => if n ≤ i then some (at' (i - n)) else none)
  | 0x0F, 0 => none
  | _, _ => okIf base (r.vwrite c vd c.sew c.lm fun i => some (at' (i + n)))

/-- Whole-register moves. -/
def vMoveRegs (r : Rv) (vd vs2 n : Nat) : Option Rv :=
  okIf ((n = 1 || n = 2 || n = 4 || n = 8) && vd % n = 0 && vs2 % n = 0)
    { r with x := { r.x with v := (List.range n).foldl (fun v i => v.set (vd + i) (r.vreg (vs2 + i))) r.x.v } }

/-- Widening integer sums. -/
def vWidenSum (r : Rv) (c : VEnv) (f6 vd vs2 rs1 : Nat) : Option Rv :=
  let w := 2 * c.sew
  let signed := f6 % 2 = 1
  let acc := (r.actives c).foldl (fun a i => ofSigned w ((a : Int) + vint signed c.sew (r.velem vs2 c.sew i)))
    (r.velem rs1 w 0)
  okIf (c.sew ≤ 32 && aligned vs2 c.lm && c.start = 0) (r.vwrite0 c vd w acc)

/-- OPIVV, OPIVX and OPIVI. -/
def vOpi (r : Rv) (c : VEnv) (f6 f3 vd vs2 rs1 : Nat) : Option Rv :=
  match f6 with
  | 0x0C | 0x0E | 0x0F => r.vPermute c f6 f3 vd vs2 rs1
  | 0x10 | 0x11 | 0x12 | 0x13 => r.vCarry c f6 f3 vd vs2 rs1
  | 0x17 =>
    let every := { c with all := true }
    if c.all then okIf (vs2 = 0 && aligned vd c.lm && (f3 ≠ 0 || aligned rs1 c.lm))
      (r.vwrite c vd c.sew c.lm fun i => some (r.vop f3 rs1 c.sew i))
    else okIf (vd ≠ 0 && aligned vd c.lm && aligned vs2 c.lm && (f3 ≠ 0 || aligned rs1 c.lm))
      (r.vwrite every vd c.sew c.lm fun i =>
        some (if r.vbit 0 i then r.vop f3 rs1 c.sew i else r.velem vs2 c.sew i))
  | 0x18 | 0x19 | 0x1A | 0x1B | 0x1C | 0x1D | 0x1E | 0x1F => r.vCmp c f6 f3 vd vs2 rs1
  | 0x27 => if f3 = 3 then (if c.all then r.vMoveRegs vd vs2 (rs1 + 1) else none) else r.vBin c false f6 f3 vd vs2 rs1
  | 0x2C | 0x2D | 0x2E | 0x2F => r.vNarrow c f6 f3 vd vs2 rs1
  | 0x30 | 0x31 => if f3 = 0 then r.vWidenSum c f6 vd vs2 rs1 else none
  | _ =>
    let form := match f6 with
      | 0x02 | 0x22 | 0x23 => f3 ≠ 3
      | 0x04 | 0x05 | 0x06 | 0x07 => f3 ≠ 3
      | 0x03 => f3 ≠ 0
      | _ => true
    if form && (vbinary false f6 c.sew 0 0 0).isSome then r.vBin c false f6 f3 vd vs2 rs1 else none

/-! ## OPMVV, OPMVX -/

/-- Multiply and add of one width. -/
def vMulAdd (r : Rv) (c : VEnv) (f6 f3 vd vs2 rs1 : Nat) : Option Rv :=
  let f (i : Nat) : Nat :=
    let a : Int := r.velem vs2 c.sew i
    let b : Int := r.vop f3 rs1 c.sew i
    let d : Int := r.velem vd c.sew i
    ofSigned c.sew (match f6 with
      | 0x29 => b * d + a
      | 0x2B => a - b * d
      | 0x2D => b * a + d
      | _ => d - b * a)
  okIf (aligned vd c.lm && aligned vs2 c.lm && (f3 ≠ 2 || aligned rs1 c.lm) && maskOk c vd)
    (r.vwrite c vd c.sew c.lm fun i => some (f i))

/-- Widening sums, differences, products and multiply-adds. -/
def vWiden (r : Rv) (c : VEnv) (f6 f3 vd vs2 rs1 : Nat) : Option Rv :=
  let w := 2 * c.sew
  let wide2 := 0x34 ≤ f6 && f6 ≤ 0x37
  let a (s : Bool) (i : Nat) : Int := if wide2 then vint s w (r.velem vs2 w i) else vint s c.sew (r.velem vs2 c.sew i)
  let b (s : Bool) (i : Nat) : Int := vint s c.sew (r.vop f3 rs1 c.sew i)
  let d (i : Nat) : Int := r.velem vd w i
  let f (i : Nat) : Option Int := match f6 with
    | 0x30 | 0x34 => some (a false i + b false i)
    | 0x31 | 0x35 => some (a true i + b true i)
    | 0x32 | 0x36 => some (a false i - b false i)
    | 0x33 | 0x37 => some (a true i - b true i)
    | 0x38 => some (a false i * b false i)
    | 0x3A => some (a true i * b false i)
    | 0x3B => some (a true i * b true i)
    | 0x3C => some (d i + b false i * a false i)
    | 0x3D => some (d i + b true i * a true i)
    | 0x3E => if f3 = 6 then some (d i + b false i * a true i) else none
    | 0x3F => some (d i + b true i * a false i)
    | _ => none
  let l2 := 2 * c.lm
  okIf ((f 0).isSome && c.sew ≤ 32 && c.lm ≤ 32 && aligned vd l2 && maskOk c vd
      && (if wide2 then aligned vs2 l2 else aligned vs2 c.lm && overlapOk vd w l2 vs2 c.sew c.lm)
      && (f3 ≠ 2 || (aligned rs1 c.lm && overlapOk vd w l2 rs1 c.sew c.lm)))
    (r.vwrite c vd w l2 fun i => (f i).map (ofSigned w))

/-- Extensions by 2, 4 or 8. -/
def vExtend (r : Rv) (c : VEnv) (k vd vs2 : Nat) : Option Rv :=
  let n := if k < 4 then 8 else if k < 6 then 4 else 2
  let w := c.sew / n
  okIf (2 ≤ k && k < 8 && 8 ≤ w && n ≤ c.lm * 8 && c.lm / n ≠ 0 && aligned vd c.lm && aligned vs2 (c.lm / n) && maskOk c vd
      && overlapOk vd c.sew c.lm vs2 w (c.lm / n))
    (r.vwrite c vd c.sew c.lm fun i => some (ofSigned c.sew (vint (k % 2 = 1) w (r.velem vs2 w i))))

/-- Mask instructions: first set bit and prefixes. -/
def vMaskUnary (r : Rv) (c : VEnv) (k vd vs2 : Nat) : Option Rv :=
  let first := (r.actives c).find? (r.vbit vs2)
  match k with
  | 1 => okIf (c.start = 0 && vd ≠ vs2 && maskOk c vd) (r.vwriteMask c vd fun i => match first with
      | some j => decide (i < j)
      | none => true)
  | 2 => okIf (c.start = 0 && vd ≠ vs2 && maskOk c vd) (r.vwriteMask c vd fun i => first == some i)
  | 3 => okIf (c.start = 0 && vd ≠ vs2 && maskOk c vd) (r.vwriteMask c vd fun i => match first with
      | some j => decide (i ≤ j)
      | none => true)
  | 16 => okIf (c.start = 0 && aligned vd c.lm && !overlap vd c.lm vs2 8 && maskOk c vd)
      (r.vwrite c vd c.sew c.lm fun i => some (((r.actives c).filter fun j => decide (j < i) && r.vbit vs2 j).length % 2 ^ c.sew))
  | 17 => okIf (vs2 = 0 && aligned vd c.lm && maskOk c vd) (r.vwrite c vd c.sew c.lm fun i => some (i % 2 ^ c.sew))
  | _ => none

/-- Mask logic. -/
def vMaskLogic (r : Rv) (c : VEnv) (f6 vd vs2 vs1 : Nat) : Option Rv :=
  let f (a b : Bool) : Bool := match f6 with
    | 0x18 => a && !b
    | 0x19 => a && b
    | 0x1A => a || b
    | 0x1B => a != b
    | 0x1C => a || !b
    | 0x1D => !(a && b)
    | 0x1E => !(a || b)
    | _ => a == b
  okIf c.all (r.vwriteMask c vd fun i => f (r.vbit vs2 i) (r.vbit vs1 i))

/-- vcompress. -/
def vCompress (r : Rv) (c : VEnv) (vd vs2 vs1 : Nat) : Option Rv :=
  let picks := (List.range c.vl).filter (r.vbit vs1)
  okIf (c.all && c.start = 0 && aligned vd c.lm && aligned vs2 c.lm && !overlap vd c.lm vs2 c.lm && !overlap vd c.lm vs1 8)
    (r.vwrite { c with vl := max 1 (min c.vl picks.length) } vd c.sew c.lm fun i => match picks[i]? with
      | some j => some (r.velem vs2 c.sew j)
      | none => none)

/-- OPMVV and OPMVX. -/
def vOpm (r : Rv) (c : VEnv) (f6 f3 vd vs2 rs1 : Nat) : Option Rv :=
  let vv := f3 = 2
  match f6 with
  | 0 | 1 | 2 | 3 | 4 | 5 | 6 | 7 =>
    okIf (vv && aligned vs2 c.lm && c.start = 0)
      (r.vwrite0 c vd c.sew ((r.actives c).foldl (fun a i => vreduce f6 c.sew a (r.velem vs2 c.sew i)) (r.velem rs1 c.sew 0)))
  | 0x0E => okIf (!vv && aligned vd c.lm && aligned vs2 c.lm && !overlap vd c.lm vs2 c.lm && maskOk c vd)
      (r.vwrite c vd c.sew c.lm fun i => some (if i = 0 then ofSigned c.sew (r.getI rs1) else r.velem vs2 c.sew (i - 1)))
  | 0x0F => okIf (!vv && aligned vd c.lm && aligned vs2 c.lm && maskOk c vd)
      (r.vwrite c vd c.sew c.lm fun i =>
        some (if i + 1 = c.vl then ofSigned c.sew (r.getI rs1) else r.velem vs2 c.sew (i + 1)))
  | 0x10 =>
    if vv then match rs1 with
      | 0 => okIf c.all (r.setI vd (toSigned c.sew (r.velem vs2 c.sew 0)))
      | 16 => okIf (c.start = 0) (r.set vd (BitVec.ofNat 64 ((r.actives c).filter (r.vbit vs2)).length))
      | 17 => okIf (c.start = 0) (r.setI vd (match (r.actives c).find? (r.vbit vs2) with
          | some i => (i : Int)
          | none => -1))
      | _ => none
    else okIf (vs2 = 0 && c.all) (r.vwrite0 c vd c.sew (ofSigned c.sew (r.getI rs1)))
  | 0x12 => if vv then r.vExtend c rs1 vd vs2 else none
  | 0x14 => if vv then r.vMaskUnary c rs1 vd vs2 else none
  | 0x17 => if vv then r.vCompress c vd vs2 rs1 else none
  | 0x18 | 0x19 | 0x1A | 0x1B | 0x1C | 0x1D | 0x1E | 0x1F => if vv then r.vMaskLogic c f6 vd vs2 rs1 else none
  | 0x29 | 0x2B | 0x2D | 0x2F => r.vMulAdd c f6 f3 vd vs2 rs1
  | _ =>
    if 0x30 ≤ f6 then r.vWiden c f6 f3 vd vs2 rs1
    else if (vbinary true f6 c.sew 0 0 1).isSome then r.vBin c true f6 f3 vd vs2 rs1 else none

/-! ## OPFVV, OPFVF -/

/-- The scalar of a floating form, at a width. -/
def fscalar (r : Rv) (rs1 w : Nat) : Nat := if w = 64 then (r.fget rs1).toNat else r.fget32 rs1

/-- The other floating operand. -/
def fop (r : Rv) (f3 rs1 w i : Nat) : Nat := if f3 = 1 then r.velem rs1 w i else r.fscalar rs1 w

/-- Writes results and raises their flags. -/
def vwriteRes (r : Rv) (c : VEnv) (vd w lm : Nat) (f : Nat → Res) : Rv :=
  (r.vwrite c vd w lm fun i => some (f i).1).raise ((r.actives c).foldl (fun a i => a ||| (f i).2) 0)

/-- 1/x to seven bits. -/
def rec7 (f : Fmt) (rm : Rm) (x : Nat) : Res :=
  let sb := x / f.signBit % 2 * f.signBit
  match f.val x with
  | .nan s => (f.nanBits, if s then flagNV else 0)
  | .inf _ => (sb, 0)
  | .fin neg mag =>
    if mag = 0 then (sb + f.infBits, flagDZ)
    else
      let e := ilog2 mag
      if e < f.emin - 2 then
        -- the reciprocal overflows
        overflowTo f (rvFin rm) neg
      else
        let sig := (mag * pow2 (7 - e)).floor.toNat % 128
        let t := (65536 + (257 + 2 * sig) / 2) / (257 + 2 * sig) - 128
        -- the estimate (1 + t / 128) × 2^(-e - 1), exact where it is subnormal
        (sb + (finish f (rvFin .rtz) (.fin false ((1 + (t : Rat) / 128) * pow2 (-e - 1)))).1, 0)

/-- 1/√x to seven bits. -/
def rsqrt7 (f : Fmt) (x : Nat) : Res :=
  let sb := x / f.signBit % 2 * f.signBit
  match f.val x with
  | .nan s => (f.nanBits, if s then flagNV else 0)
  | .inf true => (f.nanBits, flagNV)
  | .inf false => (0, 0)
  | .fin neg mag =>
    if mag = 0 then (sb + f.infBits, flagDZ)
    else if neg then (f.nanBits, flagNV)
    else
      let e := ilog2 mag
      let sig := (mag * pow2 (6 - e)).floor.toNat % 64
      let odd := e % 2 = 1
      let n := (129 + 2 * sig) * if odd then 2 else 1
      let t := (isqrt (33554432 / n) + 1) / 2 - 128
      let h : Int := if odd then (e - 1) / 2 else e / 2
      ((finish f (rvFin .rtz) (.fin false ((1 + (t : Rat) / 128) * pow2 (-h - 1)))).1, 0)

/-- Floating operations of one width: a is vs2, b the other operand, d the destination. -/
def vfBinary (f : Fmt) (rm : Rm) (f6 a b d : Nat) : Option Res :=
  match f6 with
  | 0x00 => some (rvAdd f rm false a b)
  | 0x02 => some (rvAdd f rm true a b)
  | 0x04 => some (fminmaxOf f false false a b)
  | 0x06 => some (fminmaxOf f true false a b)
  | 0x08 => some (rvSgnj f 0 a b, 0)
  | 0x09 => some (rvSgnj f 1 a b, 0)
  | 0x0A => some (rvSgnj f 2 a b, 0)
  | 0x20 => some (rvDiv f rm a b)
  | 0x21 => some (rvDiv f rm b a)
  | 0x24 => some (rvMul f rm a b)
  | 0x27 => some (rvAdd f rm true b a)
  | 0x28 => some (rvFma f rm false false b d a)
  | 0x29 => some (rvFma f rm true true b d a)
  | 0x2A => some (rvFma f rm false true b d a)
  | 0x2B => some (rvFma f rm true false b d a)
  | 0x2C => some (rvFma f rm false false b a d)
  | 0x2D => some (rvFma f rm true true b a d)
  | 0x2E => some (rvFma f rm false true b a d)
  | 0x2F => some (rvFma f rm true false b a d)
  | _ => none

/-- Floating comparisons: a is vs2. -/
def vfCompare (f : Fmt) (f6 a b : Nat) : Option (Bool × Dword) :=
  let x := f.val a
  let y := f.val b
  match f6 with
  | 0x18 => some (fcmpOf .eq x y)
  | 0x19 => some (fcmpOf .le x y)
  | 0x1B => some (fcmpOf .lt x y)
  | 0x1C => some (fcmpOf .ne x y)
  | 0x1D => some (fcmpOf .gt x y)
  | 0x1F => some (fcmpOf .ge x y)
  | _ => none

/-- Conversions of one width, widening and narrowing. -/
def vfConvert (r : Rv) (c : VEnv) (rm : Rm) (k vd vs2 : Nat) : Option Rv :=
  let sew := c.sew
  let fmt (w : Nat) : Option Fmt := if w = 32 then some .f32 else if w = 64 then some .f64 else none
  let rm' : Rm := if k = 6 || k = 7 || k = 0xE || k = 0xF || k = 0x16 || k = 0x17 then .rtz else rm
  -- source width, destination width, their groups
  let (ws, wd, ls, ld) := if k < 8 then (sew, sew, c.lm, c.lm)
    else if k < 0x10 then (sew, 2 * sew, c.lm, 2 * c.lm) else (2 * sew, sew, 2 * c.lm, c.lm)
  let op (i : Nat) : Option Res :=
    let a := r.velem vs2 ws i
    match k % 8 with
    | 0 | 6 => (fmt ws).map fun f => rvToInt f rm' wd false a
    | 1 | 7 => (fmt ws).map fun f => rvToInt f rm' wd true a
    | 2 => (fmt wd).map fun f => rvOfInt f rm' a
    | 3 => (fmt wd).map fun f => rvOfInt f rm' (toSigned ws a)
    | 4 => match fmt ws, fmt wd with
      | some f, some g => if k < 8 then none else some (rvToFloat f g rm' a)
      | _, _ => none
    | _ => match fmt ws, fmt wd with
      | some f, some g => if k ≠ 0x15 then none else
          -- round to odd: truncate, and set the last bit where it was inexact
          let z := rvToFloat f g .rtz a
          some (if z.2 &&& flagNX ≠ 0 then (z.1 ||| 1, z.2) else z)
      | _, _ => none
  okIf ((op 0).isSome && ws ≤ 64 && wd ≤ 64 && ls ≤ 64 && ld ≤ 64 && aligned vd ld && aligned vs2 ls
      && overlapOk vd wd ld vs2 ws ls && maskOk c vd)
    (r.vwriteRes c vd wd ld fun i => (op i).getD (0, 0))

/-- Widening floating operations. -/
def vfWiden (r : Rv) (c : VEnv) (rm : Rm) (f6 f3 vd vs2 rs1 : Nat) : Option Rv :=
  let up (x : Nat) : Nat := (rvToFloat .f32 .f64 .rne x).1
  let sig (x : Nat) : Dword := if (Fmt.f32.val x).isSig then flagNV else 0
  let wide2 := f6 = 0x34 || f6 = 0x36
  let a (i : Nat) : Nat := if wide2 then r.velem vs2 64 i else up (r.velem vs2 32 i)
  let b (i : Nat) : Nat := up (r.fop f3 rs1 32 i)
  let fl (i : Nat) : Dword := (if wide2 then 0 else sig (r.velem vs2 32 i)) ||| sig (r.fop f3 rs1 32 i)
  let d (i : Nat) : Nat := r.velem vd 64 i
  let op (i : Nat) : Option Res := match f6 with
    | 0x30 | 0x34 => some (rvAdd .f64 rm false (a i) (b i))
    | 0x32 | 0x36 => some (rvAdd .f64 rm true (a i) (b i))
    | 0x38 => some (rvMul .f64 rm (a i) (b i))
    | 0x3C => some (rvFma .f64 rm false false (b i) (a i) (d i))
    | 0x3D => some (rvFma .f64 rm true true (b i) (a i) (d i))
    | 0x3E => some (rvFma .f64 rm false true (b i) (a i) (d i))
    | 0x3F => some (rvFma .f64 rm true false (b i) (a i) (d i))
    | _ => none
  okIf ((op 0).isSome && c.sew = 32 && c.lm ≤ 32 && aligned vd (2 * c.lm) && maskOk c vd
      && (if wide2 then aligned vs2 (2 * c.lm) else aligned vs2 c.lm && overlapOk vd 64 (2 * c.lm) vs2 32 c.lm)
      && (f3 ≠ 1 || (aligned rs1 c.lm && overlapOk vd 64 (2 * c.lm) rs1 32 c.lm)))
    (r.vwriteRes c vd 64 (2 * c.lm) fun i =>
      let x := (op i).getD (0, 0)
      (x.1, x.2 ||| fl i))

/-- Floating reductions, in element order. -/
def vfReduce (r : Rv) (c : VEnv) (rm : Rm) (f6 vd vs2 rs1 : Nat) : Option Rv :=
  let widen := f6 = 0x31 || f6 = 0x33
  let w := if widen then 64 else c.sew
  let f := rvFmt (w = 64)
  let elem (i : Nat) : Nat := if widen then (rvToFloat .f32 .f64 .rne (r.velem vs2 32 i)).1 else r.velem vs2 c.sew i
  let step (x : Res) (i : Nat) : Res :=
    let y := match f6 with
      | 5 => fminmaxOf f false false x.1 (elem i)
      | 7 => fminmaxOf f true false x.1 (elem i)
      | _ => rvAdd f rm false x.1 (elem i)
    (y.1, x.2 ||| y.2)
  let z := (r.actives c).foldl step (r.velem rs1 w 0, 0)
  okIf ((!widen || c.sew = 32) && aligned vs2 c.lm && c.start = 0) ((r.vwrite0 c vd w z.1).raise z.2)

/-- OPFVV and OPFVF. -/
def vOpf (r : Rv) (c : VEnv) (f6 f3 vd vs2 rs1 : Nat) : Option Rv :=
  match rvRm (r.x.fcsr / 32 % 8) with
  | none => none
  | some rm =>
    let vv := f3 = 1
    let f := rvFmt (c.sew = 64)
    let fp := c.sew = 32 || c.sew = 64
    let base := fp && aligned vd c.lm && aligned vs2 c.lm && (!vv || aligned rs1 c.lm) && maskOk c vd
    let d1 (s : Nat) : Bool := !overlap vd 8 s c.lm || vd == s || decide (c.lm ≤ 8)
    match f6 with
    | 0x01 | 0x03 | 0x05 | 0x07 | 0x31 | 0x33 => if vv && fp then r.vfReduce c rm f6 vd vs2 rs1 else none
    | 0x0E => okIf (!vv && base && !overlap vd c.lm vs2 c.lm)
        (r.vwrite c vd c.sew c.lm fun i => some (if i = 0 then r.fscalar rs1 c.sew else r.velem vs2 c.sew (i - 1)))
    | 0x0F => okIf (!vv && base)
        (r.vwrite c vd c.sew c.lm fun i =>
          some (if i + 1 = c.vl then r.fscalar rs1 c.sew else r.velem vs2 c.sew (i + 1)))
    | 0x10 =>
      if vv then okIf (fp && rs1 = 0 && c.all)
        (if c.sew = 64 then r.fset vd (r.velem vs2 64 0) else r.fset32 vd (r.velem vs2 32 0))
      else okIf (fp && vs2 = 0 && c.all) (r.vwrite0 c vd c.sew (r.fscalar rs1 c.sew))
    | 0x12 => if vv then r.vfConvert c rm rs1 vd vs2 else none
    | 0x13 =>
      let one := fp && vv && aligned vd c.lm && aligned vs2 c.lm && maskOk c vd
      match rs1 with
      | 0 => okIf one (r.vwriteRes c vd c.sew c.lm fun i => rvSqrt f rm (r.velem vs2 c.sew i))
      | 4 => okIf one (r.vwriteRes c vd c.sew c.lm fun i => rsqrt7 f (r.velem vs2 c.sew i))
      | 5 => okIf one (r.vwriteRes c vd c.sew c.lm fun i => rec7 f rm (r.velem vs2 c.sew i))
      | 16 => okIf one (r.vwrite c vd c.sew c.lm fun i => some (rvClass f (r.velem vs2 c.sew i)))
      | _ => none
    | 0x17 =>
      if c.all then okIf (!vv && fp && vs2 = 0 && aligned vd c.lm)
        (r.vwrite c vd c.sew c.lm fun _ => some (r.fscalar rs1 c.sew))
      else okIf (!vv && base) (r.vwrite { c with all := true } vd c.sew c.lm fun i =>
        some (if r.vbit 0 i then r.fscalar rs1 c.sew else r.velem vs2 c.sew i))
    | 0x18 | 0x19 | 0x1B | 0x1C | 0x1D | 0x1F =>
      let res (i : Nat) : Bool × Dword := (vfCompare f f6 (r.velem vs2 c.sew i) (r.fop f3 rs1 c.sew i)).getD (false, 0)
      okIf (fp && (f6 < 0x1D || !vv) && aligned vs2 c.lm && (!vv || aligned rs1 c.lm) && d1 vs2 && (!vv || d1 rs1))
        ((r.vwriteMask c vd fun i => (res i).1).raise ((r.actives c).foldl (fun a i => a ||| (res i).2) 0))
    | _ =>
      if 0x30 ≤ f6 then r.vfWiden c rm f6 f3 vd vs2 rs1
      else
        let op (i : Nat) : Option Res :=
          vfBinary f rm f6 (r.velem vs2 c.sew i) (r.fop f3 rs1 c.sew i) (r.velem vd c.sew i)
        okIf (base && (op 0).isSome && ((f6 ≠ 0x21 && f6 ≠ 0x27) || !vv))
          (r.vwriteRes c vd c.sew c.lm fun i => (op i).getD (0, 0))

/-! ## Configuration instructions -/

/-- Sets vtype and vl; an unsupported vtype sets vill. -/
def setVl (r : Rv) (rd avl vt : Nat) : Rv :=
  match vtypeOf vt with
  | none => ({ r with x := { r.x with vtype := 2 ^ 63, vl := 0, vstart := 0 } }).set rd 0
  | some (sew, lm) =>
    let n := min avl (vlmaxOf sew lm)
    ({ r with x := { r.x with vtype := vt, vl := n, vstart := 0 } }).set rd (BitVec.ofNat 64 n)

/-- vsetvli, vsetivli and vsetvl. -/
def vSet (r : Rv) (w : Nat) : Option Rv :=
  let rd := bitsOf w 7 5
  let rs1 := bitsOf w 15 5
  let avl := if rs1 ≠ 0 then r.getN rs1 else if rd ≠ 0 then 2 ^ 64 - 1 else r.x.vl
  if !bitOf w 31 then some (r.setVl rd avl (bitsOf w 20 11))
  else if bitOf w 30 then some (r.setVl rd rs1 (bitsOf w 20 10))
  else if bitsOf w 25 6 = 0 then some (r.setVl rd avl (r.getN (bitsOf w 20 5)))
  else none

/-- A vector arithmetic instruction; none where it is illegal. -/
def vArith (r : Rv) (w : Nat) : Option Rv :=
  let f3 := bitsOf w 12 3
  let f6 := bitsOf w 26 6
  let vd := bitsOf w 7 5
  let vs2 := bitsOf w 20 5
  let rs1 := bitsOf w 15 5
  if f3 = 7 then r.vSet w
  else match r.venv w with
  | none =>
    -- a whole-register move needs no vtype
    if f3 = 3 && f6 = 0x27 && bitOf w 25 then r.vMoveRegs vd vs2 (rs1 + 1) else none
  | some c =>
    let q := if f3 = 0 || f3 = 3 || f3 = 4 then r.vOpi c f6 f3 vd vs2 rs1
      else if f3 = 2 || f3 = 6 then r.vOpm c f6 f3 vd vs2 rs1
      else r.vOpf c f6 f3 vd vs2 rs1
    q.map fun r => { r with x := { r.x with vstart := 0 } }

/-! ## Loads and stores -/

/-- What an access of one element needs: its address for element i and field k. -/
structure VMem where
  eew : Nat
  lm : Nat
  nf : Nat
  evl : Nat
  start : Nat
  all : Bool
  addr : Nat → Nat → Nat

/-- A vector access: its elements and fields, or none where the instruction is illegal. -/
def vMemOf (r : Rv) (w : Nat) (store : Bool) : Option VMem :=
  let width := getAt [8, 0, 0, 0, 0, 16, 32, 64] (bitsOf w 12 3) 0
  let mop := bitsOf w 26 2
  let nf := bitsOf w 29 3 + 1
  let rs2 := bitsOf w 20 5
  let vd := bitsOf w 7 5
  let base := r.getN (bitsOf w 15 5)
  let all := bitOf w 25
  let at' (x : Int) : Nat := ((base + x) % (2 ^ 64 : Nat)).toNat
  if width = 0 || bitOf w 28 then none
  else if mop = 0 && rs2 = 8 then
    -- whole registers
    if all && (nf = 1 || nf = 2 || nf = 4 || nf = 8) && vd % nf = 0 && (!store || width = 8) then
      some { eew := width, lm := 8 * nf, nf := 1, evl := nf * 512 / width, start := r.x.vstart, all := true,
             addr := fun i _ => at' (i * (width / 8) : Nat) }
    else none
  else match r.venv w with
  | none => none
  | some c =>
    let mk (eew lm evl : Nat) (addr : Nat → Nat → Nat) : Option VMem :=
      if 1 ≤ lm && lm ≤ 64 && aligned vd lm && groupRegs lm * nf ≤ 8 && vd + groupRegs lm * nf ≤ 32
          && (store || all || !overlap 0 8 vd (8 * groupRegs lm * nf)) then
        some { eew := eew, lm := lm, nf := nf, evl := evl, start := c.start, all := all, addr := addr }
      else none
    let lm := c.lm * width / c.sew
    match mop with
    | 0 =>
      if rs2 = 11 then (if all && nf = 1 && width = 8 then
          mk 8 8 ((c.vl + 7) / 8) fun i _ => at' (i : Nat) else none)
      else if rs2 = 0 || (rs2 = 16 && !store) then
        if (c.lm * width) % c.sew ≠ 0 then none
        else mk width lm c.vl fun i k => at' ((i * nf + k) * (width / 8) : Nat)
      else none
    | 2 =>
      if (c.lm * width) % c.sew ≠ 0 then none
      else
        let stride := r.getI rs2
        mk width lm c.vl fun i k => at' (stride * i + (k * (width / 8) : Nat))
    | _ =>
      if (c.lm * width) % c.sew ≠ 0 || lm < 1 || 64 < lm || !aligned rs2 lm
          || (!store && !overlapOk vd c.sew c.lm rs2 width lm) || (!store && nf ≠ 1 && overlap vd (8 * groupRegs c.lm * nf) rs2 lm) then none
      else mk c.sew c.lm c.vl fun i k => at' ((r.velem rs2 width i : Nat) + (k * (c.sew / 8) : Nat))

/-- The element and field order of an access. -/
def VMem.items (r : Rv) (m : VMem) : List (Nat × Nat) :=
  ((List.range m.evl).filter fun i => decide (m.start ≤ i) && (m.all || r.vbit 0 i)).flatMap fun i =>
    (List.range m.nf).map fun k => (i, k)

/-- Loads item by item; `ff` stops at a fault past element 0 and shortens vl. -/
def vLoadItems (r : Rv) (m : VMem) (vd : Nat) (ff : Bool) : List (Nat × Nat) → Except Trap Rv
  | [] => .ok r
  | (i, k) :: rest => match r.load (m.addr i k) (m.eew / 8) with
    | .error t => if ff && i ≠ 0 then .ok { r with x := { r.x with vl := i } } else .error t
    | .ok v => (r.vput (vd + k * groupRegs m.lm) m.eew i v).vLoadItems m vd ff rest

def vStoreItems (r : Rv) (m : VMem) (vs : Nat) : List (Nat × Nat) → Except Trap Rv
  | [] => .ok r
  | (i, k) :: rest => match r.store (m.addr i k) (m.eew / 8) (r.velem (vs + k * groupRegs m.lm) m.eew i) with
    | .error t => .error t
    | .ok q => q.vStoreItems m vs rest

/-- Agnostic elements of a load's groups. -/
def vLoadTail (r : Rv) (w : Nat) (m : VMem) (vd : Nat) : Rv :=
  let ta := bitOf r.x.vtype 6 || bitsOf w 20 5 = 11
  let ma := bitOf r.x.vtype 7
  if m.evl ≤ m.start then r
  else (List.range m.nf).foldl (fun (q : Rv) k => (List.range (groupRegs m.lm * 512 / m.eew)).foldl (fun (q : Rv) i =>
    if i < m.start then q
    else if m.evl ≤ i then (if ta then q.agnostic (vd + k * groupRegs m.lm) m.eew i else q)
    else if m.all || r.vbit 0 i then q
    else if ma then q.agnostic (vd + k * groupRegs m.lm) m.eew i
    else q) q) r

/-- A vector load or store; none where it is illegal. -/
def vMem (r : Rv) (w : Nat) (store : Bool) : Option (Except Trap Rv) :=
  let vd := bitsOf w 7 5
  (r.vMemOf w store).map fun m =>
    let done (q : Except Trap Rv) : Except Trap Rv := q.map fun q => { q with x := { q.x with vstart := 0 } }
    if store then done (r.vStoreItems m vd (VMem.items r m))
    else done ((r.vLoadTail w m vd).vLoadItems m vd (bitsOf w 26 2 = 0 && bitsOf w 20 5 = 16) (VMem.items r m))

end Rv

end Sys2Proof.Machine
end

