-- ==== Sys2Proof/Machine/RiscV.lean ====
section
/-! DEFINITION. Instructions of a copy engine's routine core: RV64IMAFDC, Zicsr and Zifencei, with the V
extension of RvVector.lean, and the events that execute them (spec/15 R407 to R412). -/

namespace Sys2Proof.Machine

/-! ## Compressed instructions, as the 32-bit instructions they stand for -/

def asmR (f7 rs2 rs1 f3 rd op : Nat) : Nat :=
  f7 * 2 ^ 25 + rs2 * 2 ^ 20 + rs1 * 2 ^ 15 + f3 * 2 ^ 12 + rd * 2 ^ 7 + op

/-- `imm` is taken modulo 2^12. -/
def asmI (imm : Int) (rs1 f3 rd op : Nat) : Nat :=
  ofSigned 12 imm * 2 ^ 20 + rs1 * 2 ^ 15 + f3 * 2 ^ 12 + rd * 2 ^ 7 + op

def asmS (imm rs2 rs1 f3 op : Nat) : Nat :=
  asmR (imm / 32) rs2 rs1 f3 (imm % 32) op

def asmB (imm : Int) (rs1 f3 : Nat) : Nat :=
  let x := ofSigned 13 imm
  asmR (bitsOf x 12 1 * 64 + bitsOf x 5 6) 0 rs1 f3 (bitsOf x 1 4 * 2 + bitsOf x 11 1) 0x63

def asmJ (imm : Int) : Nat :=
  let x := ofSigned 21 imm
  (bitsOf x 20 1 * 2 ^ 19 + bitsOf x 1 10 * 2 ^ 9 + bitsOf x 11 1 * 2 ^ 8 + bitsOf x 12 8) * 2 ^ 12 + 0x6F

/-- The quadrant 0 instructions. -/
def expand0 (w : Nat) : Option Nat :=
  let rd := 8 + bitsOf w 2 3
  let rs1 := 8 + bitsOf w 7 3
  let d := bitsOf w 10 3 * 8 + bitsOf w 5 2 * 64
  let s := bitsOf w 10 3 * 8 + bitsOf w 6 1 * 4 + bitsOf w 5 1 * 64
  match bitsOf w 13 3 with
  | 0 =>
    let imm := bitsOf w 11 2 * 16 + bitsOf w 7 4 * 64 + bitsOf w 6 1 * 4 + bitsOf w 5 1 * 8
    if imm = 0 then none else some (asmI imm 2 0 rd 0x13)
  | 1 => some (asmI d rs1 3 rd 0x07)
  | 2 => some (asmI s rs1 2 rd 0x03)
  | 3 => some (asmI d rs1 3 rd 0x03)
  | 5 => some (asmS d rd rs1 3 0x27)
  | 6 => some (asmS s rd rs1 2 0x23)
  | 7 => some (asmS d rd rs1 3 0x23)
  | _ => none

/-- The quadrant 1 instructions. -/
def expand1 (w : Nat) : Option Nat :=
  let rd := bitsOf w 7 5
  let rc := 8 + bitsOf w 7 3
  let rs2 := 8 + bitsOf w 2 3
  let u := bitsOf w 12 1 * 32 + bitsOf w 2 5
  let imm := toSigned 6 u
  match bitsOf w 13 3 with
  | 0 => some (asmI imm rd 0 rd 0x13)
  | 1 => if rd = 0 then none else some (asmI imm rd 0 rd 0x1B)
  | 2 => some (asmI imm 0 0 rd 0x13)
  | 3 =>
    if u = 0 then none
    else if rd = 2 then
      some (asmI (toSigned 10 (bitsOf w 12 1 * 512 + bitsOf w 3 2 * 128 + bitsOf w 5 1 * 64 + bitsOf w 2 1 * 32
        + bitsOf w 6 1 * 16)) 2 0 2 0x13)
    else some (ofSigned 20 imm * 2 ^ 12 + rd * 2 ^ 7 + 0x37)
  | 4 => match bitsOf w 10 2 with
    | 0 => some (asmI u rc 5 rc 0x13)
    | 1 => some (asmI (u + 0x400 : Nat) rc 5 rc 0x13)
    | 2 => some (asmI imm rc 7 rc 0x13)
    | _ => match bitsOf w 12 1, bitsOf w 5 2 with
      | 0, 0 => some (asmR 0x20 rs2 rc 0 rc 0x33)
      | 0, 1 => some (asmR 0 rs2 rc 4 rc 0x33)
      | 0, 2 => some (asmR 0 rs2 rc 6 rc 0x33)
      | 0, 3 => some (asmR 0 rs2 rc 7 rc 0x33)
      | 1, 0 => some (asmR 0x20 rs2 rc 0 rc 0x3B)
      | 1, 1 => some (asmR 0 rs2 rc 0 rc 0x3B)
      | _, _ => none
  | 5 => some (asmJ (toSigned 12 (bitsOf w 12 1 * 2048 + bitsOf w 11 1 * 16 + bitsOf w 9 2 * 256 + bitsOf w 8 1 * 1024
      + bitsOf w 7 1 * 64 + bitsOf w 6 1 * 128 + bitsOf w 3 3 * 2 + bitsOf w 2 1 * 32)))
  | n => some (asmB (toSigned 9 (bitsOf w 12 1 * 256 + bitsOf w 10 2 * 8 + bitsOf w 5 2 * 64 + bitsOf w 3 2 * 2
      + bitsOf w 2 1 * 32)) rc (n - 6))

/-- The quadrant 2 instructions. -/
def expand2 (w : Nat) : Option Nat :=
  let rd := bitsOf w 7 5
  let rs2 := bitsOf w 2 5
  let ld := bitsOf w 12 1 * 32 + bitsOf w 5 2 * 8 + bitsOf w 2 3 * 64
  let lw := bitsOf w 12 1 * 32 + bitsOf w 4 3 * 4 + bitsOf w 2 2 * 64
  let sd := bitsOf w 10 3 * 8 + bitsOf w 7 3 * 64
  let sw := bitsOf w 9 4 * 4 + bitsOf w 7 2 * 64
  match bitsOf w 13 3 with
  | 0 => some (asmI (bitsOf w 12 1 * 32 + rs2 : Nat) rd 1 rd 0x13)
  | 1 => some (asmI ld 2 3 rd 0x07)
  | 2 => if rd = 0 then none else some (asmI lw 2 2 rd 0x03)
  | 3 => if rd = 0 then none else some (asmI ld 2 3 rd 0x03)
  | 4 =>
    if bitsOf w 12 1 = 0 then
      if rs2 ≠ 0 then some (asmR 0 rs2 0 0 rd 0x33)
      else if rd = 0 then none else some (asmI 0 rd 0 0 0x67)
    else if rs2 ≠ 0 then some (asmR 0 rs2 rd 0 rd 0x33)
    else if rd = 0 then some 0x00100073 else some (asmI 0 rd 0 1 0x67)
  | 5 => some (asmS sd rs2 2 3 0x27)
  | 6 => some (asmS sw rs2 2 2 0x23)
  | _ => some (asmS sd rs2 2 3 0x23)

/-- The 32-bit instruction a compressed one stands for; none where it is illegal. -/
def expandC (w : Nat) : Option Nat :=
  match w % 4 with
  | 0 => expand0 w
  | 1 => expand1 w
  | 2 => expand2 w
  | _ => none

/-! ## Integer operations -/

/-- Register-register operations on n-bit operands (n is 32 for the W forms); none where it is illegal. -/
def rvAlu (n f7 f3 a b : Nat) : Option Nat :=
  let x := toSigned n a
  let y := toSigned n b
  let sh := b % n
  match f7, f3 with
  | 0x00, 0 => some ((a + b) % 2 ^ n)
  | 0x20, 0 => some (ofSigned n (x - y))
  | 0x00, 1 => some (a * 2 ^ sh % 2 ^ n)
  | 0x00, 5 => some (a / 2 ^ sh)
  | 0x20, 5 => some (ofSigned n (x / (2 ^ sh : Nat)))
  | 0x01, 0 => some (a * b % 2 ^ n)
  | 0x01, 4 => some (ofSigned n (if b = 0 then -1 else Int.tdiv x y))
  | 0x01, 5 => some (if b = 0 then 2 ^ n - 1 else a / b)
  | 0x01, 6 => some (ofSigned n (if b = 0 then x else Int.tmod x y))
  | 0x01, 7 => some (if b = 0 then a else a % b)
  | _, _ => if n = 32 then none else match f7, f3 with
    | 0x00, 2 => some (if x < y then 1 else 0)
    | 0x00, 3 => some (if a < b then 1 else 0)
    | 0x00, 4 => some (a ^^^ b)
    | 0x00, 6 => some (a ||| b)
    | 0x00, 7 => some (a &&& b)
    | 0x01, 1 => some (ofSigned n (x * y / (2 ^ n : Nat)))
    | 0x01, 2 => some (ofSigned n (x * (b : Int) / (2 ^ n : Nat)))
    | 0x01, 3 => some (a * b / 2 ^ n)
    | _, _ => none

/-- Branch conditions. -/
def rvBranch (f3 a b : Nat) : Option Bool :=
  match f3 with
  | 0 => some (a == b)
  | 1 => some (a != b)
  | 4 => some (toSigned 64 a < toSigned 64 b)
  | 5 => some (toSigned 64 b ≤ toSigned 64 a)
  | 6 => some (a < b)
  | 7 => some (b ≤ a)
  | _ => none

/-- Atomic operations on n-bit values: what is stored. -/
def rvAmo (n f5 a b : Nat) : Option Nat :=
  let lt := decide (toSigned n a < toSigned n b)
  match f5 with
  | 0x00 => some ((a + b) % 2 ^ n)
  | 0x01 => some b
  | 0x04 => some (a ^^^ b)
  | 0x08 => some (a ||| b)
  | 0x0C => some (a &&& b)
  | 0x10 => some (if lt then a else b)
  | 0x14 => some (if lt then b else a)
  | 0x18 => some (min a b)
  | 0x1C => some (max a b)
  | _ => none

namespace Rv

/-! ## Execution -/

def ok (r : Rv) : RvOut := .next r.x

/-- The core with pc moved past an instruction. -/
def goto (r : Rv) (pc : Nat) : Rv := { r with x := { r.x with pc := pc % 2 ^ 64 } }

/-- What a value or an illegal instruction gives. -/
def legal (w : Nat) (q : Option Rv) : RvOut :=
  match q with
  | some r => r.ok
  | none => .trap (illegalOp w)

def faulty (q : Except Trap Rv) : RvOut :=
  match q with
  | .ok r => r.ok
  | .error t => .trap t

def immI (w : Nat) : Int := toSigned 12 (bitsOf w 20 12)
def immS (w : Nat) : Int := toSigned 12 (bitsOf w 25 7 * 32 + bitsOf w 7 5)
def immB (w : Nat) : Int :=
  toSigned 13 (bitsOf w 31 1 * 4096 + bitsOf w 7 1 * 2048 + bitsOf w 25 6 * 32 + bitsOf w 8 4 * 2)
def immJ (w : Nat) : Int :=
  toSigned 21 (bitsOf w 31 1 * 2 ^ 20 + bitsOf w 12 8 * 4096 + bitsOf w 20 1 * 2048 + bitsOf w 21 10 * 2)

/-- A base register with an offset. -/
def effective (r : Rv) (rs1 : Nat) (imm : Int) : Nat := ofSigned 64 ((r.getN rs1 : Int) + imm)

/-- Loads: f3 names the size and the extension. -/
def iLoad (r : Rv) (w f3 rd rs1 : Nat) : RvOut :=
  if f3 = 7 then .trap (illegalOp w)
  else
    let n := 2 ^ (f3 % 4)
    match r.load (r.effective rs1 (immI w)) n with
    | .error t => .trap t
    | .ok v => (if f3 < 4 then r.setI rd (toSigned (8 * n) v) else r.set rd (BitVec.ofNat 64 v)).ok

/-- Operations with an immediate. -/
def iImm (r : Rv) (w f3 rd rs1 : Nat) (narrow : Bool) : RvOut :=
  let n := if narrow then 32 else 64
  let shBits := if narrow then 5 else 6
  let shift := f3 = 1 || f3 = 5
  let f7 := if shift then bitsOf w (20 + shBits) (12 - shBits) * 2 ^ (shBits - 5) else 0
  let b := if shift then bitsOf w 20 shBits else ofSigned n (immI w)
  if f7 = 1 || (narrow && !(f3 = 0 || shift)) then .trap (illegalOp w)
  else match rvAlu n f7 f3 (r.getN rs1 % 2 ^ n) b with
    | none => .trap (illegalOp w)
    | some v => (if narrow then r.set32 rd v else r.set rd (BitVec.ofNat 64 v)).ok

/-- Operations of two registers. -/
def iReg (r : Rv) (w f7 f3 rd rs1 rs2 : Nat) (narrow : Bool) : RvOut :=
  let n := if narrow then 32 else 64
  match rvAlu n f7 f3 (r.getN rs1 % 2 ^ n) (r.getN rs2 % 2 ^ n) with
  | none => .trap (illegalOp w)
  | some v => (if narrow then r.set32 rd v else r.set rd (BitVec.ofNat 64 v)).ok

/-- Atomics: on data RAM and the stream buffers (R408). A store-conditional succeeds when the last
load-reserved named its address. -/
def iAtomic (r : Rv) (w f3 rd rs1 rs2 : Nat) : RvOut :=
  let f5 := bitsOf w 27 5
  let n := 2 ^ f3
  let a := r.getN rs1
  let b := r.getN rs2 % 2 ^ (8 * n)
  let put (q : Rv) (v : Nat) : Rv := if n = 4 then q.set32 rd v else q.set rd (BitVec.ofNat 64 v)
  let place : Option (Nat × Nat) := match region a with
    | some (0, _) => none
    | p => p
  if f3 ≠ 2 && f3 ≠ 3 then .trap (illegalOp w)
  else if f5 = 2 then
    if rs2 ≠ 0 then .trap (illegalOp w)
    else if a % n ≠ 0 then .trap (fail .misaligned a false)
    else if place.isNone then .trap (fail .protection a false)
    else match r.load a n with
      | .error t => .trap t
      | .ok v => (put { r with x := { r.x with resv := some a } } v).ok
  else if f5 = 3 then
    if a % n ≠ 0 then .trap (fail .misaligned a true)
    else if place.isNone then .trap (fail .protection a true)
    else
      let q : Rv := { r with x := { r.x with resv := none } }
      if r.x.resv = some a then faulty ((q.store a n b).map fun q => q.set rd 0)
      else (q.set rd 1).ok
  else if (rvAmo (8 * n) f5 0 0).isNone then .trap (illegalOp w)
  else if a % n ≠ 0 then .trap (fail .misaligned a true)
  else if place.isNone then .trap (fail .protection a true)
  else match r.load a n with
    | .error t => .trap t
    | .ok v => faulty ((r.store a n ((rvAmo (8 * n) f5 v b).getD v)).map fun q => put q v)

/-- Floating loads and stores of 32 and 64 bits, and those of vectors. -/
def iFload (r : Rv) (w f3 rd rs1 : Nat) : RvOut :=
  if f3 = 2 || f3 = 3 then
    match r.load (r.effective rs1 (immI w)) (2 ^ f3) with
    | .error t => .trap t
    | .ok v => (if f3 = 2 then r.fset32 rd v else r.fset rd v).ok
  else match r.vMem w false with
    | none => .trap (illegalOp w)
    | some q => faulty q

def iFstore (r : Rv) (w f3 rs1 rs2 : Nat) : RvOut :=
  if f3 = 2 || f3 = 3 then
    faulty (r.store (r.effective rs1 (immS w)) (2 ^ f3) ((r.fget rs2).toNat % 2 ^ (8 * 2 ^ f3)))
  else match r.vMem w true with
    | none => .trap (illegalOp w)
    | some q => faulty q

/-- A floating source. -/
def fin (r : Rv) (wide : Bool) (n : Nat) : Nat := if wide then (r.fget n).toNat else r.fget32 n

/-- A floating result with its flags. -/
def fout (r : Rv) (wide : Bool) (rd : Nat) (v : Res) : Rv :=
  (if wide then r.fset rd v.1 else r.fset32 rd v.1).raise v.2

/-- Rounding mode of an instruction: 7 takes fcsr's; reserved ones are illegal. -/
def rmOf (r : Rv) (f3 : Nat) : Option Rm := rvRm (if f3 = 7 then r.x.fcsr / 32 % 8 else f3)

/-- Fused multiply-add: op 0 madd, 1 msub, 2 nmsub, 3 nmadd. -/
def fFused (r : Rv) (w op f3 rd rs1 rs2 : Nat) : Option Rv :=
  let fmt := bitsOf w 25 2
  let wide := fmt = 1
  if 1 < fmt then none
  else (r.rmOf f3).map fun rm =>
    r.fout wide rd (rvFma (rvFmt wide) rm (2 ≤ op) (op % 2 = 1)
      (r.fin wide rs1) (r.fin wide rs2) (r.fin wide (bitsOf w 27 5)))

/-- The floating operations of opcode OP-FP. -/
def fOp (r : Rv) (w f3 rd rs1 rs2 : Nat) : Option Rv :=
  let fmt := bitsOf w 25 2
  let wide := fmt = 1
  let f := rvFmt wide
  let a := r.fin wide rs1
  let b := r.fin wide rs2
  let rounded (g : Rm → Rv) : Option Rv := (r.rmOf f3).map g
  let only (p : Bool) (q : Option Rv) : Option Rv := if p then q else none
  if 1 < fmt then none
  else match bitsOf w 27 5 with
  | 0x00 => rounded fun rm => r.fout wide rd (rvAdd f rm false a b)
  | 0x01 => rounded fun rm => r.fout wide rd (rvAdd f rm true a b)
  | 0x02 => rounded fun rm => r.fout wide rd (rvMul f rm a b)
  | 0x03 => rounded fun rm => r.fout wide rd (rvDiv f rm a b)
  | 0x0B => only (rs2 = 0) (rounded fun rm => r.fout wide rd (rvSqrt f rm a))
  | 0x04 => only (f3 < 3) (some (r.fout wide rd (rvSgnj f f3 a b, 0)))
  | 0x05 => only (f3 < 2) (some (r.fout wide rd (fminmaxOf f (f3 = 1) false a b)))
  | 0x08 =>
    only (rs2 = (if wide then 0 else 1))
      (rounded fun rm => r.fout wide rd (rvToFloat (rvFmt (!wide)) f rm (r.fin (!wide) rs1)))
  | 0x14 =>
    let c := rvCmp f f3 a b
    only (f3 < 3) (some ((r.set rd (if c.1 then 1 else 0)).raise c.2))
  | 0x18 =>
    let n := if rs2 < 2 then 32 else 64
    only (rs2 < 4) (rounded fun rm =>
      let v := rvToInt f rm n (rs2 % 2 = 0) a
      (if n = 32 then r.set32 rd v.1 else r.set rd (BitVec.ofNat 64 v.1)).raise v.2)
  | 0x1A =>
    let x := r.getN rs1
    let v : Int := match rs2 with
      | 0 => toSigned 32 (x % 2 ^ 32)
      | 1 => (x % 2 ^ 32 : Nat)
      | 2 => toSigned 64 x
      | _ => x
    only (rs2 < 4) (rounded fun rm => r.fout wide rd (rvOfInt f rm v))
  | 0x1C =>
    only (rs2 = 0 && f3 < 2)
      (some (if f3 = 1 then r.set rd (BitVec.ofNat 64 (rvClass f a))
        else if wide then r.set rd (r.fget rs1) else r.set32 rd ((r.fget rs1).toNat % 2 ^ 32)))
  | 0x1E =>
    only (rs2 = 0 && f3 = 0) (some (if wide then r.fset rd (r.getN rs1) else r.fset32 rd (r.getN rs1)))
  | _ => none

/-- Accesses to control and status registers. `f3` 1 and 5 swap, 2 and 6 set, 3 and 7 clear. A read
of cesync waits for the transfers, and a write of cemove starts one (R410). -/
def iCsr (r : Rv) (w f3 rd rs1 : Nat) : RvOut :=
  let n := bitsOf w 20 12
  let src := if 4 ≤ f3 then rs1 else r.getN rs1
  let reads := f3 % 4 ≠ 1 || rd ≠ 0
  let writes := f3 % 4 = 1 || rs1 ≠ 0
  let bad : RvOut := .trap (illegalOp w)
  if f3 = 0 || f3 = 4 then bad
  else if n = 0x800 then
    if reads then bad else .move r.x (BitVec.ofNat 64 src)
  else if n = 0x802 && !writes && r.x.xfers.any Xfer.inFlight then .sync
  else match r.csr n with
    | none => bad
    | some old =>
      let new := if f3 % 4 = 1 then src else if f3 % 4 = 2 then old ||| src else old &&& (2 ^ 64 - 1 - src)
      let r1 : Rv := if n = 0x802 then { r with x := { r.x with xfers := [] } } else r
      if writes then match r1.setCsr n new with
        | none => bad
        | some q => (if reads then q.set rd (BitVec.ofNat 64 old) else q).ok
      else (r1.set rd (BitVec.ofNat 64 old)).ok

/-- One 32-bit instruction at `pc`; the core's pc is already past it. -/
def exec32 (r : Rv) (pc w : Nat) : RvOut :=
  let f3 := bitsOf w 12 3
  let f7 := bitsOf w 25 7
  let rd := bitsOf w 7 5
  let rs1 := bitsOf w 15 5
  let rs2 := bitsOf w 20 5
  let bad : RvOut := .trap (illegalOp w)
  let link (q : Rv) : Rv := q.set rd (BitVec.ofNat 64 r.x.pc)
  let upper : Int := toSigned 32 (bitsOf w 12 20 * 4096)
  match bitsOf w 0 7 with
  | 0x03 => r.iLoad w f3 rd rs1
  | 0x07 => r.iFload w f3 rd rs1
  | 0x0F => if f3 < 2 then r.ok else bad
  | 0x13 => r.iImm w f3 rd rs1 false
  | 0x17 => (r.setI rd ((pc : Int) + upper)).ok
  | 0x1B => r.iImm w f3 rd rs1 true
  | 0x23 => if 3 < f3 then bad else faulty (r.store (r.effective rs1 (immS w)) (2 ^ f3) (r.getN rs2 % 2 ^ (8 * 2 ^ f3)))
  | 0x27 => r.iFstore w f3 rs1 rs2
  | 0x2F => r.iAtomic w f3 rd rs1 rs2
  | 0x33 => r.iReg w f7 f3 rd rs1 rs2 false
  | 0x37 => (r.setI rd upper).ok
  | 0x3B => r.iReg w f7 f3 rd rs1 rs2 true
  | 0x43 => legal w (r.fFused w 0 f3 rd rs1 rs2)
  | 0x47 => legal w (r.fFused w 1 f3 rd rs1 rs2)
  | 0x4B => legal w (r.fFused w 2 f3 rd rs1 rs2)
  | 0x4F => legal w (r.fFused w 3 f3 rd rs1 rs2)
  | 0x53 => legal w (r.fOp w f3 rd rs1 rs2)
  | 0x57 => legal w (r.vArith w)
  | 0x63 => match rvBranch f3 (r.getN rs1) (r.getN rs2) with
    | none => bad
    | some t => (if t then r.goto (ofSigned 64 ((pc : Int) + immB w)) else r).ok
  | 0x67 => if f3 ≠ 0 then bad else (link (r.goto (r.effective rs1 (immI w) / 2 * 2))).ok
  | 0x6F => (link (r.goto (ofSigned 64 ((pc : Int) + immJ w)))).ok
  | 0x73 =>
    if w = 0x73 then .ecall
    else if w = 0x100073 then .ebreak
    else if w = 0x10500073 then r.ok
    else r.iCsr w f3 rd rs1
  | _ => bad

/-- The bits fetched at an address: 16 where they are a compressed instruction, else 32; or the fault of
an address outside the code. -/
def fetchAt (r : Rv) (pc : Nat) : Except Trap Nat :=
  if 0x10000 ≤ pc then .error (fail .protection pc false)
  else
    let lo := leNat (r.codeBytes pc 2)
    if lo % 4 ≠ 3 then .ok lo
    else if 0x10000 ≤ pc + 2 then .error (fail .protection (pc + 2) false)
    else .ok (lo + 2 ^ 16 * leNat (r.codeBytes (pc + 2) 2))

/-- One instruction as fetched. -/
def exec (r : Rv) (raw : Nat) : RvOut :=
  let pc := r.x.pc
  let x : Engine := { r.x with instret := r.x.instret + 1 }
  let o := if raw % 4 = 3 then Rv.exec32 ({ r with x := x }.goto (pc + 4)) pc raw
    else match expandC raw with
      | none => .trap (illegalOp raw)
      | some w => Rv.exec32 ({ r with x := x }.goto (pc + 2)) pc w
  match o with
  | .trap t => .trap (if t.cause == .illegalOpcode then illegalOp raw else t)
  | o => o

end Rv

/-! ## Events -/

/-- The routine core of an engine that runs a job. -/
def State.rv? (s : State) (d e : Nat) : Option Rv :=
  let x := s.engine d e
  match x.job with
  | none => none
  | some j => if j.builtIn then none else some { s := s, d := d, e := e, j := j, x := x }

/-- Whether the core's next bits are those of an instruction that `p` names; `stall` cores wait for
their transfers. -/
def Rv.nextBits (r : Rv) : Option Nat :=
  match r.fetchAt r.x.pc with
  | .ok w => some w
  | .error _ => none

/-- A completion request: every transfer is done first. None while it waits. -/
def State.routineEnd (s : State) (d e : Nat) (r : Rv) : Option State :=
  let a0 := r.getN 10
  if a0 ≠ 0 then some (s.endJob d e { cause := .software, aux0 := BitVec.ofNat 64 (a0 % 2 ^ 32) })
  else if r.x.xfers.any Xfer.inFlight then none
  else s.completeJob d e

/-- A breakpoint ends the job. -/
def State.routineBreak (s : State) (d e : Nat) (r : Rv) : State :=
  s.endJob d e { cause := .breakpoint, aux0 := BitVec.ofNat 64 r.x.pc }

/-- The effect of what an instruction answers. -/
def State.rvEffect (s : State) (d e : Nat) (r : Rv) (o : RvOut) : Option State :=
  match o with
  | .next x => some (s.setEngine d e { x with stall := false })
  | .trap t => some (s.endJob d e t)
  | .ecall => s.routineEnd d e r
  | .ebreak => some (s.routineBreak d e r)
  | .move x v => some ((s.setEngine d e x).cemove d e v)
  | .sync => if r.x.stall then none else some (s.setEngine d e { r.x with stall := true })

/-- Runs the core's instruction where it is one that `p` takes. -/
def State.rvRun (s : State) (d e : Nat) (p : Rv → Nat → RvOut → Bool) : Host.Outcome State Fault Refusal :=
  if 8 ≤ d || 12 ≤ e then .fault .absent
  else match s.rv? d e with
    | none => .fault .notEnabled
    | some r => match r.fetchAt r.x.pc with
      | .error t => if p r 0 (.trap t) then .next (s.endJob d e t) else .fault .notEnabled
      | .ok w =>
        let o := r.exec w
        if !p r w o then .fault .notEnabled
        else match s.rvEffect d e r o with
          | none => .fault .notEnabled
          | some s1 => .next s1

/-- The core executes the instruction at its pc, whose bits are w (zero in the upper half where it is a
compressed one, and zero where nothing can be fetched). -/
def execRv64gcInstruction (d e : Nat) (w : BitVec 32) (s : State) : Host.Outcome State Fault Refusal :=
  s.rvRun d e fun _ x _ => x == w.toNat

/-- ecall at the core's pc. -/
def execEcall (d e : Nat) (s : State) : Host.Outcome State Fault Refusal :=
  s.rvRun d e fun _ _ o => match o with
    | .ecall => true
    | _ => false

/-- ebreak at the core's pc. -/
def execEbreak (d e : Nat) (s : State) : Host.Outcome State Fault Refusal :=
  s.rvRun d e fun _ _ o => match o with
    | .ebreak => true
    | _ => false

/-- A write of cemove at the core's pc, of the value named. -/
def execCemove (d e : Nat) (v : BitVec 64) (s : State) : Host.Outcome State Fault Refusal :=
  s.rvRun d e fun _ _ o => match o with
    | .move _ x => x == v
    | _ => false

/-- A read of cesync at the core's pc into a register. -/
def execCesync (d e : Nat) (rd : Fin 32) (s : State) : Host.Outcome State Fault Refusal :=
  s.rvRun d e fun _ w o => decide (w % 128 = 0x73 ∧ w / 2 ^ 20 = 0x802 ∧ bitsOf w 7 5 = rd.val ∧ bitsOf w 12 3 % 4 ≠ 0)
    && match o with
    | .trap _ => false
    | _ => true

end Sys2Proof.Machine
end

