-- ==== Sys2Proof/Machine/Debug.lean ====
section
/-! DEFINITION. Answers to Resolve records (spec/16 R429); the debugger, breakpoints of the command
processor, the stop tick, the snapshot registers and the trace ring (R438 to R446); and fault injection
(spec/11 R328). -/

namespace Sys2Proof

/-- Requests of the samplers. -/
def Instr.sampled : Instr → Bool
  | .smpl _ _ | .smpg _ _ | .smpq _ _ _ _ _ _ | .latf _ _ => true
  | _ => false

end Sys2Proof

namespace Sys2Proof.Machine

/-! ## Answers to Resolve records (R429) -/

/-- What an aborted wait becomes. -/
def Trap.denied (t : Trap) : Trap := { t with cause := .protection, lane := none }

/-- A waiter of an attempt: its task, SRC and slot. -/
abbrev Waiter := Nat × Nat × Nat

/-- Lanes of a wave that wait on a page, at an instruction or for a result. -/
def Wave.waitsOn (w : Wave) (page : Nat) : List (Nat × Nat) :=
  ((List.range w.width).filterMap fun l => if (w.th l).run = .resolve page then some (l, (w.th l).pc) else none)
    ++ w.out.filterMap fun p => if p.wait = some page && !p.done then some (p.lane, p.slot) else none

/-- The waiters of a wave; a wave that only helper threads wait in has none. -/
def Wave.waiters (w : Wave) (task page : Nat) : List Waiter :=
  match (w.waitsOn page).filter fun p => !(w.th p.1).helper with
  | [] => []
  | (l, slot) :: _ => [(task, srcOf w.core w.wslot l, slot)]

/-- The waiters among a crew's commands. -/
def Crew.waiters (k : Crew) (ws : List Wave) (page : Nat) : List Waiter :=
  k.cmds.filterMap fun m => if m.wait = some page then
    let wslot := ((ws.find? fun w => w.id == m.wave).map (·.wslot)).getD 0
    some (k.task, srcOf k.core wslot m.lane, m.slot) else none

/-- The attempts of a context that wait on a page, live and saved. -/
def State.pageWaiters (s : State) (c page : Nat) : List Waiter :=
  let ts := s.tasks.filter fun t => t.ctx == c
  let mine (task : Nat) : Bool := ts.any fun t => t.id == task
  let live := (s.crews.filter fun k => mine k.task).flatMap fun k =>
    (s.wavesOf k).flatMap (fun w => w.waiters k.task page) ++ k.waiters (s.wavesOf k) page
  let saved : List Waiter := match (s.ctx c).saved with
    | none => []
    | some x => x.crews.flatMap (fun y => y.waves.flatMap (fun w => w.waiters y.crew.task page)
        ++ y.crew.waiters y.waves page)
      ++ (x.rays.filter fun r => r.parked = some page).map fun r => (r.record.task, agentSrc 0 0, r.record.resume)
  let rays := s.clusters.flatMap fun (k : Cluster) => (k.rays.filter fun r => mine r.record.task && r.parked = some page).map
    fun r => (r.record.task, agentSrc 0 0, r.record.resume)
  let copies := (ts.filter fun t => t.ops.any fun o => o.wait = some page).map fun t => (t.id, agentSrc 0 t.queue, 0)
  live ++ saved ++ rays ++ copies

/-- The trap of a Ready task whose launch waits on a page. -/
def State.placeTrap (s : State) (t : Task) : Option Trap :=
  if t.phase != .ready || !s.launchRoom t then none
  else match s.reservation t t.die with
    | none => none
    | some (s1, ks) =>
      let t1 := t.placedAt s.tick (ks.map fun p => p.1.core)
      match ((s1.setTask t1).startSlice t.ctx).launchCrews t1 ks with
      | .error (.trap e) => some e
      | _ => none

/-- The trap of the packet a queue cannot perform, with its number. -/
def State.queueTrap (s : State) (q : Nat) : Option (Trap × Word) :=
  let phys (r : RawPacket) : Option (Trap × Word) := match s.packetPhys q r with
    | .error e => some (e, r.pseq)
    | .ok _ => none
  if !s.flag (.sqbase q) 0 then none
  else match (s.subq q).held with
    | some r => phys r
    | none =>
      if !s.sqReady q then none
      else match s.readPacket q with
        | .error e => some e
        | .ok (r, s1) =>
          if r.kind = 1 then match s1.submit (s.sqCtx q) q (s.subq q).pos (s.flag (.sqctl q) 6) r.pseq r.addr.toNat with
            | .error (.trap e) => some (e, r.pseq)
            | _ => none
          else none

/-- The trap of a job whose completion waits on the page of DONE. -/
def State.jobTrap (s : State) (d e : Nat) : Option Trap :=
  let x := s.engine d e
  match x.job with
  | none => none
  | some j =>
    let ends := j.builtIn || (match s.rv? d e with
      | some r => (r.nextBits == some 0x73)
      | none => false)
    if !ends || x.xfers.any Xfer.inFlight || j.done = 0 then none
    else match s.jobRead j.ctx 8 j.done 8 with
      | .error t => some t
      | .ok (bs, s1) => match s1.jobWrite j.ctx 8 j.done bs with
        | .error t => some t
        | .ok _ => none

/-- Whether a trap waits on a page. -/
def Trap.waitsOn (t : Trap) (page : Nat) : Bool := t.cause == .pageNotPresent && t.page == page

/-- Ends what waits on a page outside an attempt's crews: launches, packets, releases of successors, copy
jobs and raster jobs. -/
def State.abortOthers (s : State) (c page : Nat) (e : Trap) : State :=
  let s1 := (s.tasks.filter fun t => t.ctx == c).foldl (fun (s : State) t =>
    match s.placeTrap t with
    | some x => if x.waitsOn page then s.endAttempt t.id x.denied (agentSrc 0 t.queue) 0 else s
    | none => s) s
  let s2 := (s1.tasks.filter fun t => t.ctx == c && t.phase == .copyOut && t.succ != 0).foldl (fun (s : State) t =>
    match s.releaseSuccessors t (4096 - t.succPos) t.succPos with
    | (s', n, some (.trap x)) => if x.waitsOn page then
        (s'.unitFault c 0 0 9 x.denied).updTask t.id fun y => { y with succPos := n + 1 } else s
    | _ => s) s1
  let s3 := ((List.range 256).filter fun q => s.flag (.sqbase q) 0 && s.sqCtx q == c).foldl (fun (s : State) q =>
    match s.queueTrap q with
    | some (x, n) => if x.waitsOn page then s.refusePacket q x.denied n else s
    | none => s) s2
  let s4 := ((List.range 8).flatMap fun d => (List.range 12).map fun k => (d, k)).foldl (fun (s : State) p =>
    let x := s.engine p.1 p.2
    if x.job.isNone || (x.job.map (·.ctx)) != some c then s
    else if x.xfers.any (fun y => y.wait = some page) then s.endJob p.1 p.2 e.denied
    else match s.jobTrap p.1 p.2 with
      | some t => if t.waitsOn page then s.endJob p.1 p.2 t.denied else s
      | none => s) s3
  (List.range 64).foldl (fun (s : State) clu =>
    if (s.cluster clu).rasterWait = some page && s.field (.rqctl clu) 0 6 == c then s.rasterEnds clu e.denied
    else s) s4

/-- Drops the cached walks of a page (R292, R429). -/
def State.dropWalks (s : State) (asid page : Nat) : State :=
  { s with walks := s.walks.filter fun w => !(w.asid == asid && w.vpn == page) }

/-- A write of FQACK: bits [30:0] name the record and bit 31 is ABORT. -/
def State.writeFqack (s : State) (c : Nat) (v : Dword) : Option State :=
  if 2 ^ 32 ≤ v.toNat then none
  else match (s.ctx c).resolves.find? fun r => r.seq == some (v.toNat % 2 ^ 31) with
    | none => none
    | some r =>
      let s0 := s.setCtx c { s.ctx c with resolves := (s.ctx c).resolves.filter fun x => x.page != r.page }
      if v.getLsbD 31 then
        let ended := (s.pageWaiters c r.page).foldl (fun (l : List Waiter) x => if l.any fun y => y.1 == x.1 then l else l ++ [x]) []
        let s1 := ended.foldl (fun (s : State) x => s.endAttempt x.1 r.trap.denied x.2.1 x.2.2) s0
        let s2 := s1.abortOthers c r.page r.trap
        -- helper threads that waited alone end (spec/02 R52)
        let off (w : Wave) : Wave :=
          if s2.ctxOfCrew w.crew == c then
            w.endHelpers (BitVec.ofFnLE fun (l : Fin 64) => (w.waitsOn r.page).any fun p => p.1 == l.val)
          else w
        let s3 : State := { s2 with waves := s2.waves.map off }
        some ((s3.wakePage c r.page).releaseHeld c)
      else some (((s0.dropWalks (s.asid c) r.page).wakePage c r.page).releaseHeld c)

def execFqackResolve (c : Nat) (n : BitVec 31) (s : State) : Host.Outcome State Fault Refusal :=
  if 64 ≤ c then .fault .absent else s.written (.fqack c) (s.writeFqack c (n.setWidth 64))

def execFqackAbort (c : Nat) (n : BitVec 31) (s : State) : Host.Outcome State Fault Refusal :=
  if 64 ≤ c then .fault .absent else s.written (.fqack c) (s.writeFqack c (n.setWidth 64 ||| 0x80000000#64))

/-! ## The debug window (R440) -/

/-- The wave that DBGSEL names, where it is one of the context it names. -/
def State.selected (s : State) : Option Wave :=
  let core := s.field .dbgsel 6 3 * 64 + s.field .dbgsel 9 3 * 8 + s.field .dbgsel 12 3
  s.waves.find? fun w => w.core == core && w.wslot == s.field .dbgsel 15 7
    && s.ctxOfCrew w.crew == s.field .dbgsel 0 6

def State.busy (s : State) : Bool := s.flag .dbgstat 0

def State.dbgOk (s : State) (ok : Bool) : State := s.setField .dbgstat 1 1 (if ok then 0 else 1)

/-- The outcome of a debugger access: a refused one sets ERR. -/
def State.dbgDone (s : State) (r : Reg) (x : Option State) : State :=
  match x with
  | some s1 => s1.dbgOk true
  | none => (s.dbgOk false).cwRefuse (8 * r.index)

/-- Where a byte of a crew block lies: in the header or shared registers, in a memory, in the part that
the hardware owns, or in the image of a wave. -/
inductive CrewPart
  | head (off : Nat)
  | mem (p : Place) (a : Nat)
  | owned (off : Nat)
  | wave (w : Wave) (off : Nat)

def State.crewPart (s : State) (k : Crew) (off : Nat) : Option CrewPart :=
  let a1 := 1024 + roundUp (8 * k.hdr.scr) 64
  let a2 := a1 + 256 * k.hdr.spad
  let a3 := a2 + 1024 * k.hdr.trows
  let a4 := a3 + engineLen k.hdr
  if off < a1 then some (.head off)
  else if off < a2 then some (.mem (.spad k.core) (k.spadBase + (off - a1)))
  else if off < a3 then some (.mem (.tile k.core) (k.tileBase + (off - a2)))
  else if off < a4 then some (.owned (off - a3))
  else ((s.wavesOf k)[(off - a4) / waveLen k.hdr]?).map fun w => .wave w ((off - a4) % waveLen k.hdr)

/-- The header and shared registers of a crew block. -/
def State.crewFront (s : State) (k : Crew) : List Byte :=
  s.crewHeader k (s.wavesOf k).length ++ pad64 (pack (k.ss.map fun x => (8, x.toNat)))

/-- The live context header with its directory. -/
def State.liveHead (s : State) (c : Nat) : List Byte :=
  let r := s.savedRecords c
  (s.saveHead c (s.savedCrews c) r.1 r.2).1

/-- The 8 bytes of an image at an offset; none past its end. -/
def State.imageAt (s : State) (w : Wave) (k : Crew) (img off : Nat) : Option (List Byte) :=
  let of (bs : List Byte) (o : Nat) : Option (List Byte) := if bs.length < o + 8 then none else some (byteRange bs o 8)
  match img with
  | 0 => of (w.image k s.tick) off
  | 1 => match s.crewPart k off with
    | some (.head o) => of (s.crewFront k) o
    | some (.mem p a) => some (s.bytesAt p a 8)
    | some (.owned o) => some ((List.range 8).map fun i => Config.ownedByte k.id (o + i))
    | some (.wave x o) => of (x.image k s.tick) o
    | none => none
  | 2 => of (s.liveHead (s.ctxOfCrew w.crew)) off
  | _ => none

/-- Whether the window may access an image: the wave, or every wave of its crew, is halted. -/
def State.windowOpen (s : State) (w : Wave) (k : Crew) (img : Nat) : Bool :=
  s.flag (.dbgctl (s.ctxOfCrew w.crew)) 0 && (if img = 1 then (s.wavesOf k).all (·.halted) else w.halted)

/-- An access of DBGDATA: a read latches the value, a write takes effect at the release. -/
def State.windowAccess (s : State) (write : Option Dword) : Option State :=
  let img := s.field .dbgaddr 0 2
  let off := 8 * s.field .dbgaddr 3 24
  match s.selected with
  | none => none
  | some w => match s.crew? w.crew with
    | none => none
    | some k =>
      if !s.windowOpen w k img then none
      else match s.imageAt w k img off, write with
        | none, _ => none
        | some bs, none => some (s.setReg .dbgdata (BitVec.ofNat 64 (leNat bs)))
        | some _, some v =>
          let edit : Edit := match img, s.crewPart k off with
            | 1, some (.wave x o) => ⟨x.id, 0, o, v⟩
            | _, _ => ⟨w.id, img, off, v⟩
          some { s with dbg := { s.dbg with edits := s.dbg.edits ++ [edit] } }

def execDebugWindowAccess (write : Option (BitVec 64)) (s : State) : Host.Outcome State Fault Refusal :=
  .next (s.dbgDone .dbgdata (s.windowAccess write))

/-! ## Release (R436, R439 to R442) -/

/-- Bytes with 8 of them replaced. -/
def spliceBytes (bs : List Byte) (e : Edit) : List Byte :=
  bs.take e.off ++ leBytes 8 e.val.toNat ++ bs.drop (e.off + 8)

/-- One write of a crew block. -/
def State.applyCrewEdit (s : State) (crew : Nat) (e : Edit) : Except Trap State :=
  match s.crew? crew with
  | none => .ok s
  | some k => match s.crewPart k e.off with
    | some (.head _) =>
      let bs := spliceBytes (s.crewFront k) e
      match s.loadCrew k (s.wavesOf k).length (bs.take 1024) (bs.drop 1024) with
      | .error o => .error (formatTrap 17 0 14 o)
      | .ok k1 => .ok (s.setCrew k1)
    | some (.mem p a) => .ok (s.putAt p a (leBytes 8 e.val.toNat))
    | _ => .ok s

/-- One write of the context header: its structure may not change. -/
def State.headEdit (s : State) (c : Nat) (e : Edit) : Except Trap State :=
  if (e.off = 0 || 0x100 ≤ e.off) && spliceBytes (s.liveHead c) e != s.liveHead c then
    .error (formatTrap 17 0 14 e.off)
  else .ok s

/-- The writes that a wave's release takes. -/
def State.applyEdits (s : State) (w : Wave) (k : Crew) : Except Trap State :=
  let l := s.dbg.edits
  let crewMine (e : Edit) : Bool := e.img == 1 && (s.wavesOf k).any fun x => x.id == e.wave
  let waveMine (e : Edit) : Bool := e.wave == w.id && e.img != 1
  let s0 : State := { s with dbg := { s.dbg with edits := l.filter fun e => !crewMine e && !waveMine e } }
  match eachOf (fun e (s : State) => s.applyCrewEdit k.id e) (l.filter crewMine) s0 with
  | .error e => .error e
  | .ok s1 => match eachOf (fun e (s : State) => s.headEdit (s.ctxOfCrew k.id) e)
      (l.filter fun e => waveMine e && e.img == 2) s1 with
    | .error e => .error e
    | .ok s2 =>
      let own := l.filter fun e => waveMine e && e.img == 0
      if own.isEmpty then .ok s2
      else match s2.wave? w.id, s2.crew? k.id with
        | some w2, some k2 => match w2.load k2 s2.tick (own.foldl spliceBytes (w2.image k2 s2.tick)) with
          | .error o => .error (formatTrap 17 0 14 o)
          | .ok w3 => .ok (s2.setWave w3)
        | _, _ => .ok s2

/-- Lets a halted wave go on: pending writes take effect, and a pending fault ends its attempt. `step` keeps
it halted for one issue. -/
def State.releaseWave (s : State) (id : Nat) (step : Bool) : State :=
  match s.wave? id with
  | none => s
  | some w =>
    let c := s.ctxOfCrew w.crew
    match s.crew? w.crew with
    | none => s
    | some k =>
      let ends (s : State) (e : Trap) : State :=
        s.endAttempt k.task e (srcOf w.core w.wslot (e.lane.getD 0)) e.slot
      match s.applyEdits w k with
      | .error e => ends s e
      | .ok s1 => match s1.wave? id with
        | none => s1
        | some w1 => match w1.pendFault with
          | some e => ends (s1.setWave { w1 with pendFault := none }) e
          | none =>
            let at' (slot : Nat) : Bool := w1.threads.any fun th => th.run == .ready && (th.pc == slot || th.pc + 1 == slot)
            let w2 : Wave := { w1 with
              halted := step
              stepping := step
              brkPass := w1.brkPass.filter at' }
            let s2 := s1.setWave w2
            if step then s2 else s2.traceEvent (dieOf w.core) 3 c (srcOf w.core w.wslot 0) 0 0

/-! ## Commands (R441) -/

/-- Whether the debugger may command the context that DBGSEL names: a halted replay never resumes. -/
def State.dbgEnabled (s : State) : Bool := s.flag (.dbgctl (s.field .dbgsel 0 6)) 0

def State.cmdHalt (s : State) : Option State :=
  if !s.dbgEnabled then none
  else s.selected.map fun w => if w.halted then s else s.haltWave w (s.field .dbgsel 0 6)

def State.cmdHaltctx (s : State) : Option State :=
  let c := s.field .dbgsel 0 6
  if !s.dbgEnabled then none
  else some ((s.setCtx c { s.ctx c with haltAll := true }).haltCtx c)

def State.cmdResume (s : State) : Option State :=
  if !s.dbgEnabled || (s.ctx (s.field .dbgsel 0 6)).divergent then none
  else s.selected.map fun w => if w.halted then s.releaseWave w.id false else s

def State.cmdResumectx (s : State) : Option State :=
  let c := s.field .dbgsel 0 6
  if !s.dbgEnabled || (s.ctx c).divergent then none
  else
    let ids := (s.waves.filter fun w => w.halted && s.ctxOfCrew w.crew == c).map (·.id)
    some (ids.foldl (fun s id => s.releaseWave id false) (s.setCtx c { s.ctx c with haltAll := false }))

/-- STEP and STEPC: BUSY until the issue happens, or until what it started is done. -/
def State.cmdStep (s : State) (complete : Bool) : Option State :=
  if !s.dbgEnabled || (s.ctx (s.field .dbgsel 0 6)).divergent then none
  else match s.selected with
    | none => none
    | some w =>
      if !w.halted then none
      else
        let s1 := s.releaseWave w.id true
        if (s1.wave? w.id).isNone then some s1
        else some ({ s1 with dbg := { s1.dbg with
          target := some w.id
          complete := complete
          issued := false
          lanes := 0
          issues := []
          seqs := [] } }.setField .dbgstat 0 1 1)

/-- The wait of a step ends. -/
def State.stepOver (s : State) : State :=
  let s1 := match s.dbg.target.bind fun id => s.wave? id with
    | some w => s.setWave { w with stepping := false }
    | none => s
  { s1 with dbg := { s1.dbg with target := none, issued := false, lanes := 0 } }.setField .dbgstat 0 1 0

/-- A write of DBGCMD. While BUSY = 1 only CANCEL is taken. -/
def State.writeDbgcmd (s : State) (v : Dword) : Option State :=
  if s.busy && v.toNat ≠ 7 then none
  else match v.toNat with
    | 1 => s.cmdHalt
    | 2 => s.cmdHaltctx
    | 3 => s.cmdResume
    | 4 => s.cmdResumectx
    | 5 => s.cmdStep false
    | 6 => s.cmdStep true
    | 7 => some (if s.busy then s.stepOver else s)
    | _ => none

def execHalt (s : State) : Host.Outcome State Fault Refusal := .next (s.dbgDone .dbgcmd (s.writeDbgcmd 1))
def execHaltctx (s : State) : Host.Outcome State Fault Refusal := .next (s.dbgDone .dbgcmd (s.writeDbgcmd 2))
def execResume (s : State) : Host.Outcome State Fault Refusal := .next (s.dbgDone .dbgcmd (s.writeDbgcmd 3))
def execResumectx (s : State) : Host.Outcome State Fault Refusal := .next (s.dbgDone .dbgcmd (s.writeDbgcmd 4))
def execStep (s : State) : Host.Outcome State Fault Refusal := .next (s.dbgDone .dbgcmd (s.writeDbgcmd 5))
def execStepc (s : State) : Host.Outcome State Fault Refusal := .next (s.dbgDone .dbgcmd (s.writeDbgcmd 6))
def execCancel (s : State) : Host.Outcome State Fault Refusal := .next (s.dbgDone .dbgcmd (s.writeDbgcmd 7))

/-- A wave that steps has issued for some lanes, under an issue number, with engine commands entered: a long
instruction goes on until its threads leave it or stop. -/
def State.noteStep (s : State) (id : Nat) (lanes : BitVec 64) (issue : Nat) (seqs : List Nat) : State :=
  match s.wave? id with
  | none => s
  | some w =>
    if s.dbg.target != some id || !w.stepping then s
    else
      let on : BitVec 64 := BitVec.ofFnLE fun (l : Fin 64) => lanes.getLsbD l.val && (w.th l.val).run == .ready
        && (w.th l.val).pix.getLsbD 32
      let d : Debug := { s.dbg with
        lanes := on
        issued := on == 0
        issues := issue :: s.dbg.issues
        seqs := seqs ++ s.dbg.seqs }
      let s1 : State := { s with dbg := d }
      if on == 0 then s1.haltWave { w with stepping := false } (s.ctxOfCrew w.crew) else s1

/-- Whether what a step's issue started is done: its results landed and its commands completed. -/
def State.stepComplete (s : State) (w : Wave) : Bool :=
  w.out.all (fun p => p.done || !s.dbg.issues.contains p.issue)
    && (match s.crew? w.crew with
      | some k => k.cmds.all fun m => !s.dbg.seqs.contains m.seq
      | none => true)
    && w.threads.all fun th => th.run != .hold .mmac

/-- BUSY clears when the step is over; a wave that is gone, or whose fault is pending, steps no more. -/
def State.settleDebug (s : State) : State :=
  match s.dbg.target with
  | none => s
  | some id => match s.wave? id with
    | none => s.stepOver
    | some w =>
      if w.pendFault.isSome || (s.dbg.issued && (!s.dbg.complete || s.stepComplete w)) then s.stepOver else s

/-! ## Breakpoints of the command processor (R443) -/

/-- A write of a CPBP register; GO resumes every queue that it holds. -/
def State.writeCpbp (s : State) (n : Fin 4) (v : Dword) : Option State :=
  if bitsOf v.toNat 11 2 ≠ 0 || (v.getLsbD 0 && !v.getLsbD 1 && !v.getLsbD 2) then none
  else
    let hit := s.field (.cpbp n.val) 13 1
    let s1 := (s.setReg (.cpbp n.val) v).setField (.cpbp n.val) 13 1 (if v.getLsbD 13 then 0 else hit)
    some (if v.getLsbD 13 then
      { s1 with queues := s1.queues.map fun (q : SubQ) =>
        if q.bp = some n then { q with bp := none, bpDone := true } else q }
      else s1)

def execCpbpGo (n : Fin 4) (v : BitVec 64) (s : State) : Host.Outcome State Fault Refusal :=
  s.written (.cpbp n.val) (s.writeCpbp n v)

/-! ## The stop tick (R444) -/

/-- STOPTICK is reached: every clock is gated. -/
def execStopTick (s : State) : Host.Outcome State Fault Refusal :=
  if s.flag .stopctl 0 && s.regNat .stoptick == s.tick then .next { s with stopped := true } else .fault .notEnabled

/-! ## Snapshots (R445) -/

/-- A write of SNAPCTL: the next ARM drops the values latched, and SW fires at once. -/
def State.writeSnapctl (s : State) (v : Dword) : Option State :=
  if 2 ^ 15 ≤ v.toNat then none
  else
    let old := s.reg .snapctl
    let arms := v.getLsbD 0 && !old.getLsbD 0
    let s1 := s.setReg .snapctl ((v &&& 0x7FF9) ||| (if arms then 0 else old &&& 2))
    let s2 : State := if arms then { s1 with snap := { due := none, latched := [] } } else s1
    some (if v.getLsbD 2 then s2.trigger else s2)

def execSnapctlSw (v : BitVec 64) (s : State) : Host.Outcome State Fault Refusal :=
  s.written .snapctl (s.writeSnapctl v)

def dwords (l : List Nat) : List Dword := l.map (BitVec.ofNat 64)

/-- What a core and its matrix engine latch: for each lane set the last slot, wave slot and groups ready; the
throttle level; queue depth, SEQ, block and power level. -/
def State.coreSnapshot (s : State) (c : Nat) : List Dword :=
  if (s.cluster (c / 8)).gated then List.replicate 17 0
  else
    let k := s.core c
    let groups (q : Nat) : Nat := (s.waves.filter fun w => w.core == c && w.laneSet * (w.width / 16) == q).foldl
      (fun n w => n + ((w.threads.filter fun th => th.run == .ready).map fun th => (th.pc, th.pix)).dedup.length) 0
    let cmds := (s.crews.filter fun x => x.core == c).flatMap fun x => x.cmds
    let head := cmds.head?
    dwords ((List.range 4).flatMap (fun q => [(getAt k.last q (0, 0, 0, 0)).2.1, (getAt k.last q (0, 0, 0, 0)).1, groups q])
      ++ [(s.die (dieOf c)).tth, cmds.length, (head.map (·.seq)).getD 0, (head.map (·.prog)).getD 0, k.power])

/-- What a cluster's sampler and traversal engine latch: requests in flight, rays walking and parked. -/
def State.clusterSnapshot (s : State) (c : Nat) : List Dword :=
  let k := s.cluster c
  if k.gated then dwords [0, 0, 0]
  else
    let smp := (s.waves.filter fun w => w.core / 8 == c).foldl (fun n w => n + (w.out.filter fun p => p.i.sampled).length) 0
    dwords [smp, (k.rays.filter fun r => r.parked.isNone).length, (k.rays.filter fun r => r.parked.isSome).length]

/-- What the last-level slices, memory controllers, link ports and copy engines latch; free request slots,
flits and retries are timing that the model has no state for: free values. -/
def State.packageSnapshot (s : State) : List Dword :=
  dwords [s.up.length, (s.tasks.map fun t => t.versionLines.length).sum, s.merges.length] ++ [s.fresh (2 ^ 60)]
    ++ dwords [s.walks.length, (s.ctxs.map fun c => c.resolves.length).sum]
    ++ (List.range 40).map (fun i => s.fresh (2 ^ 60 + 1 + i))
    ++ s.dies.flatMap fun (d : Die) => d.engines.flatMap fun (e : Engine) => dwords
      [match e.job with
        | some j => j.addr
        | none => 0, e.pc, (e.xfers.filter Xfer.inFlight).length]

/-- Every block latches 64 clocks after the trigger. -/
def execSnapshotLatch (s : State) : Host.Outcome State Fault Refusal :=
  match s.snap.due with
  | none => .fault .notEnabled
  | some t =>
    if s.tick < t then .fault .notEnabled
    else
      let l := (List.range 512).map s.coreSnapshot ++ (List.range 64).map s.clusterSnapshot ++ [s.packageSnapshot]
      let s1 : State := { s with snap := { due := none, latched := l } }
      .next (((s1.setReg .snaptick (BitVec.ofNat 64 t)).setField .snapctl 0 2 2).traceEvent 0 11 0 0 1 0)

/-! ## The trace ring (R446) -/

/-- The sampling period of a die in clocks; 0 where it does not sample. -/
def State.samplePeriod (s : State) (d : Nat) : Nat :=
  if s.flag (.trctl d) 0 && s.flag (.trctl d) 1 then 64 * s.field (.trctl d) 2 12 else 0

/-- Each core of a die samples the wave that issued last in lane set 0. -/
def execTraceSample (d : Nat) (s : State) : Host.Outcome State Fault Refusal :=
  let p := s.samplePeriod d
  if 8 ≤ d then .fault .absent
  else if p = 0 || s.tick % p ≠ 0 || (s.die d).sampled = s.tick + 1 then .fault .notEnabled
  else
    let s1 := (List.range 64).foldl (fun (s : State) i =>
      let c := d * 64 + i
      let x := getAt (s.core c).last 0 (0, 0, 0, 0)
      s.traceWrite d 1 x.2.2.1 (srcOf c x.1 (lowLane x.2.2.2)) x.2.1 x.2.2.2.toNat) s
    .next (s1.setDie d { s1.die d with sampled := s.tick + 1 })

/-- A write of TRBASE: setting EN sets the head to the tail. -/
def State.writeTrbase (s : State) (d : Nat) (v : Dword) : Option State :=
  s.enWrite (.trbase d) v (if !inRange (v.getLsbD 0 || s.flag (.trctl d) 0) (bitsOf v.toNat 2 5) 4 24 then none
    else match s.plainWrite (.trbase d) [(7, 9), (52, 12)] [] v with
      | none => none
      | some s1 => some (if v.getLsbD 0 then s1.setReg (.trhead d) (s.reg (.trtail d)) else s1))

def State.writeTrtail (s : State) (d : Nat) (v : Dword) : Option State :=
  s.indexWrite (.trtail d) v (s.flag (.trbase d) 0) (ringOcc (s.field (.trhead d) 0 31) v.toNat) (s.field (.trbase d) 2 5)

def State.writeTrctl (s : State) (d : Nat) (v : Dword) : Option State :=
  if !inRange (v.getLsbD 0) (bitsOf v.toNat 2 12) 1 4095 then none
  else if v.getLsbD 0 && s.field (.trbase d) 2 5 = 0 then none
  else s.plainWrite (.trctl d) [(15, 49)] [] v

/-! ## Fault injection (spec/11 R328) -/

/-- A granule with one of its 72 stored bits flipped. -/
def flipBit (g : List Byte × Byte) (b : Nat) : List Byte × Byte :=
  if b < 64 then (leBytes 8 (leNat g.1 ^^^ 2 ^ b), g.2) else (g.1, g.2 ^^^ BitVec.ofNat 8 (2 ^ (b - 64)))

/-- A write of CCINJ: the flip is made as one step. -/
def State.writeCcinj (s : State) (core : Nat) (v : Dword) : Option State :=
  let x := v.toNat
  let tgt := bitsOf x 1 2
  let bit := bitsOf x 3 7
  let off := bitsOf x 16 20
  if bitsOf x 10 6 ≠ 0 || 2 ^ 36 ≤ x || tgt = 3 || 72 ≤ bit || off % 8 ≠ 0 || (tgt ≠ 1 && 2 ^ 18 ≤ off) then none
  else
    let s1 := s.setReg (.core core) (v &&& ~~~1#64)
    if !v.getLsbD 0 then some s1
    else
      let p : Place := if tgt = 0 then .spad core else if tgt = 1 then .tile core else .wbuf core
      let g := (s.mem p).take (s.fill p) (off / 8)
      some (s1.setMem p ((s1.mem p).carry (s.fill p) (off / 8) (flipBit g bit)))

def execCcinjGo (core : Nat) (v : BitVec 64) (s : State) : Host.Outcome State Fault Refusal :=
  if 512 ≤ core then .fault .absent else s.written (.core core) (s.writeCcinj core v)

end Sys2Proof.Machine
end

