-- ==== Sys2Proof/Machine/Package.lean ====
section
/-! DEFINITION. The package (spec/17): resets and the boot ROM, throttle levels, the mailbox of the Turnip
core, and writes of control-window registers by any agent (R308, R452 to R454, R466). -/

namespace Sys2Proof.Machine

/-! ## Verification and measurement (R461 to R463) -/

/-- Extends a measurement register. -/
def State.extend (s : State) (n : Nat) (value : List Byte) : State :=
  { s with mgmt := { s.mgmt with
    mr := updAt s.mgmt.mr n fun m => Config.sm3 (leBytes 32 m.toNat ++ value) } }

def imageLen (img : List Byte) : Nat := fieldOf img 0x0C 4

def imageBody (img : List Byte) : List Byte := byteRange img 256 (imageLen img)

/-- Steps 1 to 4 of R462 on an image: 0, or the step that fails. -/
def verifyImage (tag : Nat) (img : List Byte) : Nat :=
  let f := fieldOf img
  let pub := f 0x38 64
  if img.length < 256 || f 0 4 ≠ tag || !allZero (byteRange img 0xB8 72) then 1
  else if !Config.keyFused (Config.sm3 (leBytes 64 pub)) then 2
  else if !Config.sm2Verify (BitVec.ofNat 512 pub) (img.take 0x78) (BitVec.ofNat 512 (f 0x78 64)) then 3
  else if imageLen img % 64 ≠ 0 || 2 ^ 22 < imageLen img || img.length < 256 + imageLen img
      || Config.sm3 (imageBody img) ≠ BitVec.ofNat 256 (f 0x18 32) then 4
  else 0

def firmwareTag : Nat := 0x46510001
def routineTag : Nat := 0x52510001

/-- The fused rollback counter, with what firmware has raised it to (R465). -/
def State.rbk (s : State) : Nat := max Config.fusedRbk.toNat s.mgmt.rbk

/-- The ROM's steps (R462): firmware runs, or the ROM is in recovery. -/
def State.boot (s : State) : State :=
  let img := s.mgmt.flash
  let s1 := s.extend 0 (leBytes 32 Config.romDigest.toNat)
  let stop (n : Nat) : State := (s1.setField .mgstat 4 8 n).setField .mgstat 0 4 3
  let rbk := fieldOf img 8 4
  match verifyImage firmwareTag img with
  | 0 =>
    if rbk < s.rbk then stop 5
    else
      let s2 := (s1.extend 1 (byteRange img 0x18 32)).extend 1 (byteRange img 4 4)
      let s3 : State := { s2 with mgmt := { s2.mgmt with rbk := max s2.mgmt.rbk (rbk % 128) } }
      (s3.setField .mgstat 15 7 s3.rbk).setField .mgstat 0 4 2
  | n => stop n

/-! ## Resets (R457) -/

/-- A package reset: every register takes its reset value, device memory becomes arbitrary (spec/11 R322);
the host's and the peers' memories, the boot flash and the fuses stay. -/
def State.packageReset (s : State) (cause : Nat) : State :=
  let r := State.reset
  let r1 : State := { r with
    hostMem := s.hostMem
    peerMem := s.peerMem
    epoch := s.epoch + 1
    freeN := s.freeN
    agenda := s.agenda
    mgmt := { Mgmt.reset with
      flash := s.mgmt.flash
      rbk := s.mgmt.rbk
      samples := s.mgmt.samples } }
  let r2 := if s.mgmt.rbk = 0 then r1 else r1.setField .mgstat 15 7 s.rbk
  r2.setField .mgstat 12 3 cause

def execPowerOn (s : State) : Host.Outcome State Fault Refusal := .next (s.packageReset 0).boot

/-- A write of PKRST; after the stop of R444 the cause is the stop. -/
def State.writePkrst (s : State) (turnip : Bool) (v : Dword) : Option State :=
  if v.toNat ≠ 0x5253 then none
  else some (s.packageReset (if s.stopped then 4 else if turnip then 2 else 1)).boot

def execPkrstWrite (by' : Agent) (v : BitVec 64) (s : State) : Host.Outcome State Fault Refusal :=
  s.written .pkrst (if by' == .user then none else s.writePkrst (by' == .turnip) v)

/-! ## Throttle levels (R458, R460) -/

/-- T of a die from its parts; a change writes a trace record and sets INTST bit 6. -/
def State.refreshT (s : State) (d : Nat) : State :=
  let x := s.die d
  let t := if x.trip then 7 else max (max x.tth s.tpw) (s.field (.thctl d) 16 3)
  let s1 := s.setField (.thstat d) 11 1 (if x.trip then 1 else 0)
  if t = s.field (.thstat d) 8 3 then s1
  else ((s1.setField (.thstat d) 8 3 t).traceEvent d 9 0 (dieSrc d) t 0).raise 0x40

/-- The thermal level of a die after a sample. -/
def Die.sampleHeat (x : Die) (hi lo hot : Nat) : Die :=
  let cool := if hot ≤ lo then x.cool + 1 else 0
  if hi ≤ hot then { x with
    tth := min 7 (x.tth + 1)
    cool := 0 }
  else if 16 ≤ cool && 0 < x.tth then { x with
    tth := x.tth - 1
    cool := 0 }
  else { x with cool := min 16 cool }

/-- The package's power level after a sample: Tpw and the count of samples at or below PLIM × 15 ÷ 16. -/
def powerLevel (tpw cool plim avg : Nat) : Nat × Nat :=
  let cool' := if 16 * avg ≤ 15 * plim then cool + 1 else 0
  if plim < avg then (min 7 (tpw + 1), 0)
  else if 16 ≤ cool' && 0 < tpw then (tpw - 1, 0)
  else (tpw, min 16 cool')

/-- One die's part of a sample; TRIP clears at or below TTRIP - 10. -/
def State.sampleDie (s : State) (d hot : Nat) : State :=
  let x := (s.die d).sampleHeat (s.field (.thctl d) 0 8) (s.field (.thctl d) 8 8) hot
  let trip := x.trip && decide (Config.ttrip.toNat < hot + 10)
  ((s.setField (.thstat d) 0 8 hot).setDie d { x with trip := trip }).refreshT d

/-- A sample of every die's hottest sensor and of the power average, at a multiple of 65,536 ticks. -/
def execThrottleSample (hot : List Nat) (avg : Nat) (s : State) : Host.Outcome State Fault Refusal :=
  if hot.length ≠ 8 || hot.any (255 < ·) || 4095 < avg || s.tick % 65536 ≠ 0 || s.levelled = s.tick + 1 then
    .fault .notEnabled
  else
    let p := powerLevel s.tpw s.pcool (s.field .pwrctl 0 12) avg
    let s1 : State := { s.setField .pwrstat 0 12 avg with
      tpw := p.1
      pcool := p.2
      levelled := s.tick + 1 }
    .next ((List.range 8).foldl (fun s d => s.sampleDie d (getAt hot d 0)) s1)

/-- A sensor reaches TTRIP. -/
def execThermalTrip (d temp : Nat) (s : State) : Host.Outcome State Fault Refusal :=
  if 8 ≤ d then .fault .absent
  else if temp < Config.ttrip.toNat || (s.die d).trip then .fault .notEnabled
  else .next (((s.setDie d { s.die d with trip := true }).refreshT d).raise 0x40)

/-- A sensor reaches TTRIP + 10. -/
def execThermalShutdown (d temp : Nat) (s : State) : Host.Outcome State Fault Refusal :=
  if 8 ≤ d then .fault .absent
  else if temp < Config.ttrip.toNat + 10 then .fault .notEnabled
  else .next (s.packageReset 3).boot

/-! ## The mailbox (R464, R466) -/

/-- Where an access of the Turnip core goes: an enabled window that holds all of it. -/
def State.mgPlace (s : State) (pa n : Nat) : Option Place :=
  ((List.range 4).find? fun i =>
    let w := s.regNat (.mgwin i)
    let base := bitsOf w 16 36 * 2 ^ 16
    bitOf w 0 && decide (base ≤ pa) && decide (pa + n ≤ base + 2 ^ bitsOf w 2 6)).map fun i =>
      if s.flag (.mgwin i) 1 then .host else .dev

/-- A read of the Turnip core: the bytes, or the status of the command. -/
def State.turnipRead (s : State) (pa n : Nat) : Except Nat (List Byte) :=
  match s.mgPlace pa n with
  | none => .error 3
  | some p => match s.readAt p pa n with
    | .error _ => .error 1
    | .ok bs => .ok bs

def State.turnipWrite (s : State) (pa : Nat) (bs : List Byte) : State × Nat :=
  match s.mgPlace pa bs.length with
  | none => (s, 3)
  | some .host => (s.hostWrite pa bs, 0)
  | some p => (s.putAt p pa bs, 0)

/-- The buffer of a command. -/
def State.mbBuf (s : State) : Nat := s.field .mbaddr 6 46 * 64

/-- An image at an address, with its header and its body. -/
def State.turnipImage (s : State) (pa : Nat) : Except Nat (List Byte) :=
  match s.turnipRead pa 256 with
  | .error e => .error e
  | .ok h =>
    if imageLen h % 64 ≠ 0 || 2 ^ 22 < imageLen h then .error 2
    else s.turnipRead pa (256 + imageLen h)

/-- The report of R464 less its signature. -/
def State.reportBody (s : State) (nonce : List Byte) : List Byte :=
  nonce ++ pack [(8, s.tick), (8, Config.serial.toNat), (16, 0)] ++ pack (s.mgmt.mr.map fun m => (32, m.toNat))
    ++ leBytes 64 Config.devicePub.toNat

def State.doAttest (s : State) : State × Nat :=
  match s.turnipRead s.mbBuf 512 with
  | .error e => (s, e)
  | .ok bs =>
    let body := s.reportBody (bs.take 32)
    s.turnipWrite s.mbBuf (body ++ leBytes 64 (Config.sm2Sign (Config.sm3 body)).toNat)

/-- Bits of the RTSLOT value for an image of `len` units at an address. -/
def rtslotValue (pa len : Nat) : Dword := BitVec.ofNat 64 (1 + 2 * len + pa / 64 * 2 ^ 16)

def State.doLoadslot (s : State) : State × Nat :=
  match s.turnipRead s.mbBuf 512 with
  | .error e => (s, e)
  | .ok bs =>
    let slot := fieldOf bs 0 8
    let pa := fieldOf bs 8 8
    if slot < 2 || 31 < slot || pa % 64 ≠ 0 then (s, 1)
    else match s.turnipImage pa with
      | .error e => (s, e)
      | .ok img =>
        let len := imageLen img / 64
        if verifyImage routineTag img ≠ 0 then (s, 2)
        else if len = 0 || 1023 < len || s.mgPlace pa 256 ≠ some .dev then (s, 1)
        else
          let s1 := (s.extend 2 (leBytes 8 slot)).extend 2 (byteRange img 0x18 32)
          ({ s1 with mgmt := { s1.mgmt with
              slots := (List.range 8).map fun d => (d, slot, rtslotValue (pa + 256) len) } }, 0)

def State.doStagefw (s : State) : State × Nat :=
  match s.turnipRead s.mbBuf 512 with
  | .error e => (s, e)
  | .ok bs => match s.turnipImage (fieldOf bs 0 8) with
    | .error e => (s, e)
    | .ok img =>
      if verifyImage firmwareTag img ≠ 0 then (s, 2)
      else ({ s with mgmt := { s.mgmt with flash := img } }, 0)

/-- THSTAT of each die, PWRSTAT, then one byte for each stack. -/
def State.doSensors (s : State) : State × Nat :=
  match s.mgPlace s.mbBuf 512 with
  | none => (s, 3)
  | some _ =>
    let n := s.mgmt.samples
    let s1 : State := { s with mgmt := { s.mgmt with samples := n + 1 } }
    s1.turnipWrite s.mbBuf (pack ((List.range 8).map (fun d => (8, s.regNat (.thstat d))) ++ [(8, s.regNat .pwrstat)])
      ++ (List.range 16).map fun i => Config.stackTemp n i)

/-- A command starts: BUSY is set until MAILBOX_COMPLETE. In recovery the ROM takes STAGEFW alone. -/
def State.startMailbox (s : State) (cmd : Nat) : Option State :=
  if s.flag .mbcmd 8 || cmd = 0 || 4 < cmd then none
  else
    let stage := s.field .mgstat 0 4
    let r := if stage = 3 && cmd = 3 then s.doStagefw
      else if stage ≠ 2 then (s, 1)
      else match cmd with
        | 1 => s.doAttest
        | 2 => s.doLoadslot
        | 3 => s.doStagefw
        | _ => s.doSensors
    some { r.1.setReg .mbcmd 0x100 with mgmt := { r.1.mgmt with command := some r.2 } }

def execAttest (s : State) : Host.Outcome State Fault Refusal := s.written .mbcmd (s.startMailbox 1)
def execLoadslot (s : State) : Host.Outcome State Fault Refusal := s.written .mbcmd (s.startMailbox 2)
def execStagefw (s : State) : Host.Outcome State Fault Refusal := s.written .mbcmd (s.startMailbox 3)
def execSensors (s : State) : Host.Outcome State Fault Refusal := s.written .mbcmd (s.startMailbox 4)

/-- The command is done: BUSY clears, STATUS is set, and INTST bit 7. -/
def execMailboxComplete (s : State) : Host.Outcome State Fault Refusal :=
  match s.mgmt.command with
  | none => .fault .notEnabled
  | some st =>
    if !s.mgmt.slots.isEmpty then .fault .notEnabled
    else .next (({ s with mgmt := { s.mgmt with command := none } }.setReg .mbcmd (BitVec.ofNat 64 (st * 2 ^ 16))).raise 0x80)

/-! ## Registers of the package -/

/-- A read-only register: a write of its reserved bits is refused, any other is ignored. -/
def State.roWrite (s : State) (r : Reg) (reserved : List (Nat × Nat)) (v : Dword) : Option State :=
  s.plainWrite r reserved [(0, 64)] v

def State.writeCwerr (s : State) (v : Dword) : Option State :=
  if v &&& fieldMask [(1, 3), (29, 35)] ≠ 0 then none else some (s.clearBits .cwerr v 1)

def State.writeIntst (s : State) (v : Dword) : Option State :=
  if 2 ^ 9 ≤ v.toNat then none else some (s.clearBits .intst v 0x1FF)

/-- A write of INTEN: bits that are set and newly enabled are sent (R456). -/
def State.writeInten (s : State) (v : Dword) : Option State :=
  if 2 ^ 9 ≤ v.toNat then none
  else
    let rise := s.reg .intst &&& v &&& ~~~(s.reg .inten)
    let s1 := s.setReg .inten v
    some (if rise = 0 then s1 else s1.hostWrite (s.field .intmsg 2 50 * 4) (leBytes 4 rise.toNat))

/-- A write of PWRCTL: at most PMAX, and measured (R460, R463). -/
def State.writePwrctl (s : State) (v : Dword) : Option State :=
  if 2 ^ 12 ≤ v.toNat || s.field .clamp 0 12 < v.toNat then none
  else some ((s.setReg .pwrctl v).extend 3 (leBytes 8 v.toNat))

/-- A write of MGWIN: its size and alignment; measured (R463). -/
def State.writeMgwin (s : State) (n : Nat) (v : Dword) : Option State :=
  let size := bitsOf v.toNat 2 6
  if !inRange (v.getLsbD 0) size 16 52 || (size ≠ 0 && bitsOf v.toNat 16 36 * 2 ^ 16 % 2 ^ size ≠ 0) then none
  else (s.plainWrite (.mgwin n) [(8, 8), (52, 12)] [] v).map fun s1 => s1.extend 3 (leBytes 8 v.toNat)

def State.writeMbcmd (s : State) (v : Dword) : Option State :=
  if v &&& fieldMask [(9, 7), (24, 40)] ≠ 0 then none else s.startMailbox (v.toNat % 256)

def State.writeAccspill (s : State) (v : Dword) : Option State :=
  if 20 < bitsOf v.toNat 58 6 then none else s.plainWrite .accspill [(1, 15), (52, 6)] [] v

def State.writeDbgstat (s : State) (v : Dword) : Option State :=
  if 2 ^ 3 ≤ v.toNat then none else some (s.clearBits .dbgstat v 4)

/-! ## Registers of dies, links and clusters -/

def State.writeThctl (s : State) (d : Nat) (v : Dword) : Option State :=
  let hi := bitsOf v.toNat 0 8
  let lo := bitsOf v.toNat 8 8
  if Config.ttrip.toNat < hi + 5 || hi < lo + 2 then none
  else (s.plainWrite (.thctl d) [(19, 45)] [] v).map fun s1 => s1.refreshT d

/-- A write of LINKWIN: ports of the kind that may be enabled (R308, R466). -/
def State.writeLinkwin (s : State) (n : Nat) (v : Dword) : Option State :=
  let peer := v.getLsbD 1
  let port := bitsOf v.toNat 2 5
  if (if peer then 15 else 3) < port || (v.getLsbD 0 && bitsOf v.toNat 40 16 = 0)
      || !s.flag .clamp (28 + port + if peer then 4 else 0) then none
  else s.plainWrite (.link n) [(7, 9), (62, 2)] [] v

/-! ## Registers of contexts and queues -/

def State.writeFqbase (s : State) (c : Nat) (v : Dword) : Option State :=
  s.enWrite (.fqbase c) v (if !inRange (v.getLsbD 0) (bitsOf v.toNat 2 5) 4 20 then none
    else (s.plainWrite (.fqbase c) [(7, 9), (52, 12)] [] v).map fun s1 =>
      if v.getLsbD 0 then s1.setReg (.fqhead c) (s.reg (.fqtail c)) else s1)

def State.writeCxsave (s : State) (c : Nat) (v : Dword) : Option State :=
  if s.flag (.cxsched c) 0 || 20 < v.toNat % 32 then none
  else s.plainWrite (.cxsave c) [(6, 10), (52, 12)] [] v

def State.writeCxasid (s : State) (c : Nat) (v : Dword) : Option State :=
  if s.flag (.cxsched c) 0 then none else s.plainWrite (.cxasid c) [(16, 48)] [] v

/-- A write of SQBASE clears KILLED. -/
def State.writeSqbase (s : State) (q : Nat) (v : Dword) : Option State :=
  (s.enWrite (.sqbase q) v (if !inRange (v.getLsbD 0) (bitsOf v.toNat 1 5) 4 20 then none
    else s.plainWrite (.sqbase q) [(6, 6), (56, 8)] [] v)).map fun s1 => s1.setField (.sqwd q) 17 1 0

def State.writeSqctl (s : State) (q : Nat) (v : Dword) : Option State :=
  if s.flag (.sqbase q) 0 then none else s.plainWrite (.sqctl q) [(7, 57)] [] v

/-! ## The window (R452 to R454) -/

/-- A write of a register of the package block. -/
def State.writePkg (s : State) (turnip : Bool) (n : Nat) (v : Dword) : Option State :=
  match n with
  | 0 => s.writeCwerr v
  | 1 => s.writePkrst turnip v
  | 2 => s.writeIntst v
  | 3 => s.writeInten v
  | 4 => s.plainWrite .intmsg [(0, 2), (54, 10)] [] v
  | 5 => s.writePwrctl v
  | 6 => s.roWrite .pwrstat [(12, 52)] v
  | 7 => if turnip then none else s.roWrite .clamp [(48, 16)] v
  | 8 => s.roWrite .mgstat [(22, 42)] v
  | 9 => if turnip then none else s.plainWrite .mbaddr [(0, 6), (52, 12)] [] v
  | 10 => if turnip then none else s.writeMbcmd v
  | 11 | 12 | 13 | 14 => if turnip then none else s.writeMgwin (n - 11) v
  | 15 => s.plainWrite .balctl [(17, 47)] [] v
  | 16 | 17 | 18 => s.writeMsinv (n - 16) v
  | 19 => s.plainWrite .rmidx [(12, 52)] [] v
  | 20 => s.plainWrite .rmcan [(56, 8)] [] v
  | 21 => s.writeRmsec v
  | 22 => s.plainWrite .sidebase [(1, 15), (52, 12)] [] v
  | 23 => s.writeAccspill v
  | 24 => s.plainWrite .stoptick [] [] v
  | 25 => s.plainWrite .stopctl [(1, 63)] [] v
  | 26 => s.writeSnapctl v
  | 27 => s.roWrite .snaptick [] v
  | 28 => s.plainWrite .dbgsel [(22, 42)] [] v
  | 29 => some (s.dbgDone .dbgcmd (s.writeDbgcmd v))
  | 30 => s.writeDbgstat v
  | 31 => s.plainWrite .dbgaddr [(2, 1), (27, 37)] [] v
  | 32 => some (s.dbgDone .dbgdata (s.windowAccess (some v)))
  | 33 => s.writeCpbp 0 v
  | 34 => s.writeCpbp 1 v
  | 35 => s.writeCpbp 2 v
  | 36 => s.writeCpbp 3 v
  | _ => none

/-- A write of a register of a die. RTSLOT is written by the Turnip core alone. -/
def State.writeDie (s : State) (turnip : Bool) (d n : Nat) (v : Dword) : Option State :=
  match n with
  | 0 => s.writeThctl d v
  | 1 => s.roWrite (.thstat d) [(12, 52)] v
  | 2 => s.plainWrite .msmerge [(8, 56)] [] v
  | 3 => s.writeCjbase d v
  | 4 => s.roWrite (.cjhead d) [(12, 52)] v
  | 5 => s.writeCjtail d v
  | 6 => s.writeCjctl d v
  | 7 => s.writeTrbase d v
  | 8 => s.roWrite (.trhead d) [(31, 33)] v
  | 9 => s.writeTrtail d v
  | 10 => s.writeTrctl d v
  | _ => if turnip then s.writeRtslot d (n - 9) v else none

def State.writeClu (s : State) (c n : Nat) (v : Dword) : Option State :=
  match n with
  | 0 => s.writeRqbase c v
  | 1 => s.writeRqctl c v
  | 2 => s.roWrite (.rqhead c) [(12, 52)] v
  | _ => s.writeRqtail c v

/-- A write of a register of a context slot. -/
def State.writeCtx (s : State) (c n : Nat) (v : Dword) : Option State :=
  match n with
  | 0 => s.writeCxsched c v
  | 1 => s.plainWrite (.ptbase c) [(1, 12), (52, 12)] [] v
  | 2 => s.writeFlctl c v
  | 3 => s.writeFlbase c v
  | 4 => s.writeFlhead c v
  | 5 => s.writeFltail c v
  | 6 => s.writeFlhigh c v
  | 7 => s.writeFlmap c v
  | 16 => s.writeFqbase c v
  | 17 => s.roWrite (.fqhead c) [(31, 33)] v
  | 18 => s.writeFqtail c v
  | 19 => s.plainWrite (.fqstat c) [(32, 32)] [] v
  | 20 => s.writeFqack c v
  | 21 => s.writeCxsave c v
  | 22 => s.plainWrite (.dbgctl c) [(3, 61)] [] v
  | 23 => s.plainWrite (.cxstat c) [(1, 5), (52, 12)] [] v
  | 24 => s.writeCqbase c v
  | 25 => s.roWrite (.cqhead c) [(31, 33)] v
  | 26 => s.writeCqtail c v
  | 27 => s.writeCxrpl c v
  | 28 => s.writeCxasid c v
  | _ => s.roWrite (.fldiv c (n - 8)) [] v

def State.writeQueue (s : State) (q n : Nat) (v : Dword) : Option State :=
  match n with
  | 0 => s.writeSqbase q v
  | 1 => s.writeSqctl q v
  | 2 => s.roWrite (.sqhead q) [(20, 44)] v
  | 3 => s.writeSqtail q v
  | _ => s.plainWrite (.sqwd q) [(18, 46)] [(16, 2)] v

/-- A write of a doorbell page (R453). -/
def State.writeBell (s : State) (q n : Nat) (v : Dword) : Option State :=
  match n with
  | 0 => s.writeSqtail q v
  | 1 => s.roWrite (.sqhead q) [(20, 44)] v
  | _ => s.writeCxrpl (s.sqCtx q) v

/-- A write of a register by an agent; none where it is refused. -/
def State.writeReg (s : State) (by' : Agent) (r : Reg) (v : Dword) : Option State :=
  let turnip := by' == .turnip
  match r with
  | .bell q n => s.writeBell q n v
  | r =>
    if by' == .user then none
    else match r with
    | .pkg n => s.writePkg turnip n v
    | .die d n => s.writeDie turnip d n v
    | .clu c n => s.writeClu c n v
    | .core c => if turnip then none else s.writeCcinj c v
    | .link n => s.writeLinkwin n v
    | .ctx c n => s.writeCtx c n v
    | .queue q n => s.writeQueue q n v
    | .bell _ _ => none

/-- A routine slot whose job runs: the write waits (spec/15 R415). -/
def State.slotBusy (s : State) (by' : Agent) (r : Reg) : Bool :=
  match r with
  | .die d n => by' == .turnip && decide (11 ≤ n)
      && (s.die d).engines.any fun e => (e.job.map (·.slot)) == some (n - 9)
  | _ => false

/-- A write at an offset of the window: only aligned offsets that name a register are accepted. -/
def execRegisterWrite (by' : Agent) (off : Nat) (v : BitVec 64) (s : State) : Host.Outcome State Fault Refusal :=
  match (if off % 8 = 0 then Reg.at? (off / 8) else none) with
  | none => .next (s.cwRefuse off)
  | some r =>
    if s.slotBusy by' r then .fault .notEnabled
    else .next ((s.writeReg by' r v).getD (s.cwRefuse off))

end Sys2Proof.Machine
end

