-- ==== Sys2Proof/Machine/Dispatch.lean ====
section
/-! DEFINITION. What each instruction and event does: one arm per constructor of Instr. -/

namespace Sys2Proof.Machine

def exec (i : Instr) (s : State) : Host.Outcome State Fault Refusal :=
  match i with
  | .nop h => Sys2Proof.Machine.execNop h s
  | .br h c disp => Sys2Proof.Machine.execBr h c disp s
  | .bri h a => Sys2Proof.Machine.execBri h a s
  | .call h d disp => Sys2Proof.Machine.execCall h d disp s
  | .calli h d a => Sys2Proof.Machine.execCalli h d a s
  | .ret h a => Sys2Proof.Machine.execRet h a s
  | .loop h c e => Sys2Proof.Machine.execLoop h c e s
  | .loopPop h => Sys2Proof.Machine.execLoopPop h s
  | .exit h => Sys2Proof.Machine.execExit h s
  | .cont h disp => Sys2Proof.Machine.execCont h disp s
  | .yield h => Sys2Proof.Machine.execYield h s
  | .park h c => Sys2Proof.Machine.execPark h c s
  | .parkTimeout t => Sys2Proof.Machine.execParkTimeout t s
  | .sysc x => Sys2Proof.Machine.execSysc x s
  | .syscWait x => Sys2Proof.Machine.execSyscWait x s
  | .trap h code => Sys2Proof.Machine.execTrap h code s
  | .brk h code => Sys2Proof.Machine.execBrk h code s
  | .rdsr h d r => Sys2Proof.Machine.execRdsr h d r s
  | .wrsr h r a => Sys2Proof.Machine.execWrsr h r a s
  | .mode h f => Sys2Proof.Machine.execMode h f s
  | .join h a => Sys2Proof.Machine.execJoin h a s
  | .tenq h a => Sys2Proof.Machine.execTenq h a s
  | .sadd x => Sys2Proof.Machine.execSadd x s
  | .ssub x => Sys2Proof.Machine.execSsub x s
  | .smul x => Sys2Proof.Machine.execSmul x s
  | .smulh x => Sys2Proof.Machine.execSmulh x s
  | .sdiv x => Sys2Proof.Machine.execSdiv x s
  | .srem x => Sys2Proof.Machine.execSrem x s
  | .sand x => Sys2Proof.Machine.execSand x s
  | .sor x => Sys2Proof.Machine.execSor x s
  | .sxor x => Sys2Proof.Machine.execSxor x s
  | .sshl x => Sys2Proof.Machine.execSshl x s
  | .sshr x => Sys2Proof.Machine.execSshr x s
  | .ssra x => Sys2Proof.Machine.execSsra x s
  | .smin x => Sys2Proof.Machine.execSmin x s
  | .smax x => Sys2Proof.Machine.execSmax x s
  | .smov h d a => Sys2Proof.Machine.execSmov h d a s
  | .sli h o d x => Sys2Proof.Machine.execSli h o d x s
  | .scmp o x => Sys2Proof.Machine.execScmp o x s
  | .ssel h d a b c => Sys2Proof.Machine.execSsel h d a b c s
  | .sbfe h ty d a start len => Sys2Proof.Machine.execSbfe h ty d a start len s
  | .spop h o ty d a => Sys2Proof.Machine.execSpop h o ty d a s
  | .sld x => Sys2Proof.Machine.execSld x s
  | .sst x => Sys2Proof.Machine.execSst x s
  | .add x => Sys2Proof.Machine.execAdd x s
  | .sub x => Sys2Proof.Machine.execSub x s
  | .mul x => Sys2Proof.Machine.execMul x s
  | .mulh x => Sys2Proof.Machine.execMulh x s
  | .mad x => Sys2Proof.Machine.execMad x s
  | .div x => Sys2Proof.Machine.execDiv x s
  | .rem x => Sys2Proof.Machine.execRem x s
  | .addc x => Sys2Proof.Machine.execAddc x s
  | .subb x => Sys2Proof.Machine.execSubb x s
  | .and x => Sys2Proof.Machine.execAnd x s
  | .or x => Sys2Proof.Machine.execOr x s
  | .xor x => Sys2Proof.Machine.execXor x s
  | .lop3 lut x => Sys2Proof.Machine.execLop3 lut x s
  | .shl x => Sys2Proof.Machine.execShl x s
  | .shr x => Sys2Proof.Machine.execShr x s
  | .sra x => Sys2Proof.Machine.execSra x s
  | .rot right x => Sys2Proof.Machine.execRot right x s
  | .min x => Sys2Proof.Machine.execMin x s
  | .max x => Sys2Proof.Machine.execMax x s
  | .abs x => Sys2Proof.Machine.execAbs x s
  | .popc x => Sys2Proof.Machine.execPopc x s
  | .clz x => Sys2Proof.Machine.execClz x s
  | .ctz x => Sys2Proof.Machine.execCtz x s
  | .brev x => Sys2Proof.Machine.execBrev x s
  | .bfe x => Sys2Proof.Machine.execBfe x s
  | .bfi x => Sys2Proof.Machine.execBfi x s
  | .sel x => Sys2Proof.Machine.execSel x s
  | .cmp o x => Sys2Proof.Machine.execCmp o x s
  | .mov x => Sys2Proof.Machine.execMov x s
  | .dot4 mix x => Sys2Proof.Machine.execDot4 mix x s
  | .fadd x => Sys2Proof.Machine.execFadd x s
  | .fsub x => Sys2Proof.Machine.execFsub x s
  | .fmul x => Sys2Proof.Machine.execFmul x s
  | .fma neg sub x => Sys2Proof.Machine.execFma neg sub x s
  | .fmin nan x => Sys2Proof.Machine.execFmin nan x s
  | .fmax nan x => Sys2Proof.Machine.execFmax nan x s
  | .fcmp o x => Sys2Proof.Machine.execFcmp o x s
  | .fclass mask x => Sys2Proof.Machine.execFclass mask x s
  | .fdiv x => Sys2Proof.Machine.execFdiv x s
  | .fsqrt x => Sys2Proof.Machine.execFsqrt x s
  | .frcp x => Sys2Proof.Machine.execFrcp x s
  | .frsq x => Sys2Proof.Machine.execFrsq x s
  | .fex2 x => Sys2Proof.Machine.execFex2 x s
  | .flg2 x => Sys2Proof.Machine.execFlg2 x s
  | .fsin x => Sys2Proof.Machine.execFsin x s
  | .fcos x => Sys2Proof.Machine.execFcos x s
  | .frnd x => Sys2Proof.Machine.execFrnd x s
  | .fscl x => Sys2Proof.Machine.execFscl x s
  | .cvt x => Sys2Proof.Machine.execCvt x s
  | .fdot mix x => Sys2Proof.Machine.execFdot mix x s
  | .qswp o x => Sys2Proof.Machine.execQswp o x s
  | .shfl o x => Sys2Proof.Machine.execShfl o x s
  | .vote o x => Sys2Proof.Machine.execVote o x s
  | .kop o x => Sys2Proof.Machine.execKop o x s
  | .kcnt total x => Sys2Proof.Machine.execKcnt total x s
  | .kfst hi x => Sys2Proof.Machine.execKfst hi x s
  | .scan o ex x => Sys2Proof.Machine.execScan o ex x s
  | .wred o x => Sys2Proof.Machine.execWred o x s
  | .reord desc x => Sys2Proof.Machine.execReord desc x s
  | .kset o x => Sys2Proof.Machine.execKset o x s
  | .ld x => Sys2Proof.Machine.execLd x s
  | .st x => Sys2Proof.Machine.execSt x s
  | .stSy x => Sys2Proof.Machine.execStSy x s
  | .countedArrival n => Sys2Proof.Machine.execCountedArrival n s
  | .ldx x => Sys2Proof.Machine.execLdx x s
  | .stc x => Sys2Proof.Machine.execStc x s
  | .swp o x => Sys2Proof.Machine.execSwp o x s
  | .itx o x => Sys2Proof.Machine.execItx o x s
  | .itld x => Sys2Proof.Machine.execItld x s
  | .itst x => Sys2Proof.Machine.execItst x s
  | .atom o x => Sys2Proof.Machine.execAtom o x s
  | .red o x => Sys2Proof.Machine.execRed o x s
  | .redx o x => Sys2Proof.Machine.execRedx o x s
  | .fence h k sc => Sys2Proof.Machine.execFence h k sc s
  | .pref h llc a off => Sys2Proof.Machine.execPref h llc a off s
  | .sealRegion h a b => Sys2Proof.Machine.execSealRegion h a b s
  | .unsealRegion h a b => Sys2Proof.Machine.execUnsealRegion h a b s
  | .bar h k x => Sys2Proof.Machine.execBar h k x s
  | .cadd x => Sys2Proof.Machine.execCadd x s
  | .cwait x => Sys2Proof.Machine.execCwait x s
  | .cwaitSatisfied t => Sys2Proof.Machine.execCwaitSatisfied t s
  | .syarm x => Sys2Proof.Machine.execSyarm x s
  | .sywait x => Sys2Proof.Machine.execSywait x s
  | .chwait x => Sys2Proof.Machine.execChwait x s
  | .chtst d x => Sys2Proof.Machine.execChtst d x s
  | .qbind h k d a => Sys2Proof.Machine.execQbind h k d a s
  | .qfree h d => Sys2Proof.Machine.execQfree h d s
  | .qpoll h space d a => Sys2Proof.Machine.execQpoll h space d a s
  | .mfmt h x => Sys2Proof.Machine.execMfmt h x s
  | .mma x => Sys2Proof.Machine.execMma x s
  | .mmac x => Sys2Proof.Machine.execMmac x s
  | .mmacBlock task => Sys2Proof.Machine.execMmacBlock task s
  | .tld x => Sys2Proof.Machine.execTld x s
  | .tst x => Sys2Proof.Machine.execTst x s
  | .trow h frm t r n => Sys2Proof.Machine.execTrow h frm t r n s
  | .tzro x => Sys2Proof.Machine.execTzro x s
  | .wbld x => Sys2Proof.Machine.execWbld x s
  | .wbinv x => Sys2Proof.Machine.execWbinv x s
  | .mdrn x => Sys2Proof.Machine.execMdrn x s
  | .vmm x => Sys2Proof.Machine.execVmm x s
  | .mbst h hold => Sys2Proof.Machine.execMbst h hold s
  | .opfence h => Sys2Proof.Machine.execOpfence h s
  | .kmma h b4 d a b => Sys2Proof.Machine.execKmma h b4 d a b s
  | .engineCommandDone crew => Sys2Proof.Machine.execEngineCommandDone crew s
  | .enginePowerStep core => Sys2Proof.Machine.execEnginePowerStep core s
  | .smpl f x => Sys2Proof.Machine.execSmpl f x s
  | .smpg ch x => Sys2Proof.Machine.execSmpg ch x s
  | .smpq h lod d a b ncrd => Sys2Proof.Machine.execSmpq h lod d a b ncrd s
  | .latf f x => Sys2Proof.Machine.execLatf f x s
  | .wcpin h unpin a => Sys2Proof.Machine.execWcpin h unpin a s
  | .wcinv h tag => Sys2Proof.Machine.execWcinv h tag s
  | .trace h any cull a b disp => Sys2Proof.Machine.execTrace h any cull a b disp s
  | .rayWalkEnd cluster n => Sys2Proof.Machine.execRayWalkEnd cluster n s
  | .hitld h f d => Sys2Proof.Machine.execHitld h f d s
  | .vbld h f d a b sample => Sys2Proof.Machine.execVbld h f d a b sample s
  | .rng h unif d n => Sys2Proof.Machine.execRng h unif d n s
  | .rngset h o a => Sys2Proof.Machine.execRngset h o a s
  | .rngadv h x => Sys2Proof.Machine.execRngadv h x s
  | .rngget h ctr d => Sys2Proof.Machine.execRngget h ctr d s
  | .resultLand core wslot pos => Sys2Proof.Machine.execResultLand core wslot pos s
  | .sqtailDoorbell q val => Sys2Proof.Machine.execSqtailDoorbell q val s
  | .nopPacket q p => Sys2Proof.Machine.execNopPacket q p s
  | .submit q p => Sys2Proof.Machine.execSubmit q p s
  | .wait q p => Sys2Proof.Machine.execWait q p s
  | .waitSatisfied q => Sys2Proof.Machine.execWaitSatisfied q s
  | .signal q p => Sys2Proof.Machine.execSignal q p s
  | .signalPerform q => Sys2Proof.Machine.execSignalPerform q s
  | .fencePacket q p => Sys2Proof.Machine.execFencePacket q p s
  | .taskPlace task => Sys2Proof.Machine.execTaskPlace task s
  | .placementAgeLimit task => Sys2Proof.Machine.execPlacementAgeLimit task s
  | .balancerMove task die => Sys2Proof.Machine.execBalancerMove task die s
  | .copyInChunk task entry chunk => Sys2Proof.Machine.execCopyInChunk task entry chunk s
  | .taskRetire task => Sys2Proof.Machine.execTaskRetire task s
  | .regroupWaveLaunch cluster n => Sys2Proof.Machine.execRegroupWaveLaunch cluster n s
  | .regroupTimeout cluster n => Sys2Proof.Machine.execRegroupTimeout cluster n s
  | .timeSliceExpiry ctx => Sys2Proof.Machine.execTimeSliceExpiry ctx s
  | .contextRestore ctx => Sys2Proof.Machine.execContextRestore ctx s
  | .watchdogExpiry q => Sys2Proof.Machine.execWatchdogExpiry q s
  | .clusterGate cluster => Sys2Proof.Machine.execClusterGate cluster s
  | .mergeGroupClose n => Sys2Proof.Machine.execMergeGroupClose n s
  | .msinvGo val => Sys2Proof.Machine.execMsinvGo val s
  | .invalidationDone => Sys2Proof.Machine.execInvalidationDone s
  | .rmsecCommit val => Sys2Proof.Machine.execRmsecCommit val s
  | .linkTimeout core wslot pos => Sys2Proof.Machine.execLinkTimeout core wslot pos s
  | .linkDown port => Sys2Proof.Machine.execLinkDown port s
  | .linkErrorCompletion core wslot pos => Sys2Proof.Machine.execLinkErrorCompletion core wslot pos s
  | .hostRecall line => Sys2Proof.Machine.execHostRecall line s
  | .fqackResolve ctx seq => Sys2Proof.Machine.execFqackResolve ctx seq s
  | .fqackAbort ctx seq => Sys2Proof.Machine.execFqackAbort ctx seq s
  | .replyDoorbell ctx val => Sys2Proof.Machine.execReplyDoorbell ctx val s
  | .contextResident ctx val => Sys2Proof.Machine.execContextResident ctx val s
  | .contextRelease ctx val => Sys2Proof.Machine.execContextRelease ctx val s
  | .flctlEn ctx val => Sys2Proof.Machine.execFlctlEn ctx val s
  | .flctlRpl ctx val => Sys2Proof.Machine.execFlctlRpl ctx val s
  | .flctlEnd ctx val => Sys2Proof.Machine.execFlctlEnd ctx val s
  | .fltailWrite ctx val => Sys2Proof.Machine.execFltailWrite ctx val s
  | .flheadWrite ctx val => Sys2Proof.Machine.execFlheadWrite ctx val s
  | .replayDisc ctx => Sys2Proof.Machine.execReplayDisc ctx s
  | .halt => Sys2Proof.Machine.execHalt s
  | .haltctx => Sys2Proof.Machine.execHaltctx s
  | .resume => Sys2Proof.Machine.execResume s
  | .resumectx => Sys2Proof.Machine.execResumectx s
  | .step => Sys2Proof.Machine.execStep s
  | .stepc => Sys2Proof.Machine.execStepc s
  | .cancel => Sys2Proof.Machine.execCancel s
  | .debugWindowAccess write => Sys2Proof.Machine.execDebugWindowAccess write s
  | .cpbpGo n val => Sys2Proof.Machine.execCpbpGo n val s
  | .stopTick => Sys2Proof.Machine.execStopTick s
  | .snapctlSw val => Sys2Proof.Machine.execSnapctlSw val s
  | .snapshotLatch => Sys2Proof.Machine.execSnapshotLatch s
  | .traceSample die => Sys2Proof.Machine.execTraceSample die s
  | .ccinjGo core val => Sys2Proof.Machine.execCcinjGo core val s
  | .rqtailDoorbell cluster val => Sys2Proof.Machine.execRqtailDoorbell cluster val s
  | .rasterJob cluster => Sys2Proof.Machine.execRasterJob cluster s
  | .cjtailDoorbell die val => Sys2Proof.Machine.execCjtailDoorbell die val s
  | .copyJobStart die => Sys2Proof.Machine.execCopyJobStart die s
  | .cemove die engine val => Sys2Proof.Machine.execCemove die engine val s
  | .cesync die engine rd => Sys2Proof.Machine.execCesync die engine rd s
  | .transferDone die engine n => Sys2Proof.Machine.execTransferDone die engine n s
  | .ecall die engine => Sys2Proof.Machine.execEcall die engine s
  | .ebreak die engine => Sys2Proof.Machine.execEbreak die engine s
  | .copyJobTimeout die engine => Sys2Proof.Machine.execCopyJobTimeout die engine s
  | .rtslotLoad die slot val => Sys2Proof.Machine.execRtslotLoad die slot val s
  | .throttleSample hot avg => Sys2Proof.Machine.execThrottleSample hot avg s
  | .thermalTrip die temp => Sys2Proof.Machine.execThermalTrip die temp s
  | .thermalShutdown die temp => Sys2Proof.Machine.execThermalShutdown die temp s
  | .powerOn => Sys2Proof.Machine.execPowerOn s
  | .pkrstWrite agent val => Sys2Proof.Machine.execPkrstWrite agent val s
  | .attest => Sys2Proof.Machine.execAttest s
  | .loadslot => Sys2Proof.Machine.execLoadslot s
  | .stagefw => Sys2Proof.Machine.execStagefw s
  | .sensors => Sys2Proof.Machine.execSensors s
  | .mailboxComplete => Sys2Proof.Machine.execMailboxComplete s
  | .registerWrite agent off val => Sys2Proof.Machine.execRegisterWrite agent off val s
  | .rv64gcInstruction die engine w => Sys2Proof.Machine.execRv64gcInstruction die engine w s
  | .fqtailWrite ctx val => Sys2Proof.Machine.execFqtailWrite ctx val s
  | .cqtailWrite ctx base val => Sys2Proof.Machine.execCqtailWrite ctx base val s
  | .linkTraining port => Sys2Proof.Machine.execLinkTraining port s
  | .peerRequest ctx addr op => Sys2Proof.Machine.execPeerRequest ctx addr op s

end Sys2Proof.Machine
end

