-- ==== Sys2Proof/Machine/Issue.lean ====
section
/-! DEFINITION. Issue (spec/01 R38 to R41; spec/02 R42 to R52): ready groups and their choice, fetch lines
and their checks, the execution of an issue and its end. -/

namespace Sys2Proof.Machine

/-! ## Fetch lines (R42 to R46) -/

/-- Whether a number has an odd count of ones in its low n bits. -/
def oddOnes (n x : Nat) : Bool := (List.range n).foldl (fun b i => b != bitOf x i) false

/-- The format of a line word (R45). -/
def lineFormatOk (lw : Nat) : Bool :=
  !oddOnes 32 lw && decide (bitsOf lw 9 15 = 0) && decide (bitsOf lw 29 2 = 0)
    && ((List.range 3).all fun i => !(bitOf lw (5 + i) && bitOf lw (6 + i)))
    && (List.range 4).all fun i => !(bitOf lw (5 + i) && bitOf lw (i + 1))

/-- Even parity of slot i with its parity bit (R44). -/
def slotParityOk (line : List Byte) (i : Nat) : Bool :=
  oddOnes 96 (slotWord line i).toNat == bitOf (lineWordOf line) (24 + i)

/-- The masks k0 to k15 as an issue at a slot reads them (R47, R65). -/
def Wave.masksAt (w : Wave) (s : State) (slot : Nat) : List (BitVec 64) :=
  (List.range 16).map fun n => w.kreg s ((slot % 5 + 1) * 2 ^ 40 + 64 * 2 ^ 20 + 0x300 + n) n

/-- The issue of a group at a slot of a line. -/
def Issue.fetched (s : State) (w : Wave) (lanes : BitVec 64) (pc : Nat) (line : List Byte) : Issue :=
  let pair := decide (pc % 5 < 4) && bitOf (lineWordOf line) (5 + pc % 5)
  { wave := w.id, lanes := lanes, slot := pc, first := pc, next := pc + (if pair then 2 else 1), pair := pair,
    word := slotWord line (pc % 5), lineWord := BitVec.ofNat 32 (lineWordOf line), mode := w.mode,
    masks := w.masksAt s pc, inp := (w.th (lowLane lanes)).pix.getLsbD 32, moved := 0 }

/-- The issue as its second member sees it. -/
def Issue.second (p : Issue) (line : List Byte) : Issue :=
  { p with
    slot := p.first + 1
    word := slotWord line ((p.first + 1) % 5) }

/-- The V/M/E class (R46, R69): every assigned opcode that is not U/C. -/
def isVME (op : Nat) : Bool :=
  (0x40 ≤ op && op ≤ 0x5D) || (0x60 ≤ op && op ≤ 0x73) || (0x80 ≤ op && op ≤ 0x89) || (0x90 ≤ op && op ≤ 0x9E)
    || (0xA0 ≤ op && op ≤ 0xA9) || (0xB0 ≤ op && op ≤ 0xBD) || (0xC0 ≤ op && op ≤ 0xCC)

/-- The class of a pair: one U/C and one V/M/E instruction. -/
def pairClass (a b : Nat) : Bool := (isUC a && isVME b) || (isVME a && isUC b)

/-! ## The registers of a pair (R46) -/

/-- The modifier of an instruction that rounds, and so draws where its effective mode is RSR (spec/03 R87). -/
def roundingOf : Instr → Option (Option Modifier)
  | .fadd x | .fsub x | .fmul x | .fdiv x => some x.mod
  | .fma _ _ x => some x.mod
  | .fsqrt x | .frnd x => some x.mod
  | .fscl x => some x.mod
  | .cvt x => if cvtRounds x then some x.mod else none
  | .fdot _ x => some x.mod
  | .scan o _ x | .wred o x => if scanRounds o x.ty then some x.mod else none
  | .swp o x => if swpRounds o x.ty then some none else none
  | .itx o x => if swpRounds o x.ty then some none else none
  | _ => none

/-- Instructions that raise flags (spec/03 R91). -/
def raisesFlags : Instr → Bool
  | .fadd _ | .fsub _ | .fmul _ | .fma _ _ _ | .fmin _ _ | .fmax _ _ | .fcmp _ _ | .fdiv _ | .fscl _
  | .fsqrt _ | .frcp _ | .frsq _ | .fex2 _ | .flg2 _ | .fsin _ | .fcos _ | .frnd _ | .fdot _ _
  | .mdrn _ => true
  | .cvt x => (fmtOf x.dty).isSome || (fmtOf x.sty).isSome
  | .scan _ _ x | .wred _ x => (fmtOf x.ty).isSome
  | .swp o x | .itx o x => o != .copy && (fmtOf x.ty).isSome
  | _ => false

/-- Instructions that draw whatever the rounding mode. -/
def alwaysDraws : Instr → Bool
  | .smpl f _ | .latf f _ => f == .sto
  | _ => false

/-- The special registers that an instruction writes without naming them, under the default rounding mode `m`
of its wave: flags, Sprout counters and the progress of a long instruction. -/
def implicitWrites (m : Rm) (i : Instr) : List Nat :=
  let rsr : Bool := match i with
    | .mdrn x => x.rm == .rsr || (x.rm == .dyn && m == .rsr)
    | _ => match roundingOf i with
      | none => false
      | some none => m == .rsr
      | some (some x) => x.rm == .rsr || (x.rm == .dyn && m == .rsr)
  (if raisesFlags i then [SReg.fflags.code] else [])
    ++ (if rsr || alwaysDraws i then [SReg.rngc.code, SReg.rngch.code] else [])
    ++ (if i.long then [SReg.pix.code] else [])

/-- R46: the second member reads a register that the first writes. -/
def pairClash (m : Rm) (a b : Instr) : Bool :=
  b.readCodes.any fun c => a.writeCodes.contains c || (implicitWrites m a).contains c

/-- A loop whose end lies below its first body slot (spec/04 R104), which its fields tell whatever its operand
codes are. -/
def Issue.badLoop (p : Issue) : Bool :=
  decide (p.word.toNat % 256 = 0x07) && (Fields.unpack p.word).fn == 0
    && decide (p.slot + bitsOf p.word.toNat 64 20 < p.next)

/-- Decoding of one member (R51 step 5); trace issues on cores 0 and 1 of a cluster only (spec/08 R232), and
wrsr names no register that the running view may only read (spec/01 R25). -/
def Issue.decoded (p : Issue) (k : Crew) (prv : Bool) : Except Trap Instr :=
  if p.word.toNat % 256 = 0xC6 && 2 ≤ k.core % 8 then .error (codeTrap p .illegalOpcode 0 none)
  else match decode p.word with
  | .error .opcode => .error (codeTrap p .illegalOpcode 0 none)
  | .error .field => .error (codeTrap p .illegalField 0 none)
  | .error .operand =>
    .error (codeTrap p (if p.badLoop then .illegalField else .illegalOperand) 0 none)
  | .ok i =>
    let fixed : Bool := match i with
      | .wrsr _ r _ => !srWritable prv r && (prv || !srPriv r)
      | _ => false
    if p.badLoop then .error (codeTrap p .illegalField 0 none)
    else if fixed then .error (codeTrap p .illegalOperand 0 none)
    else match checkDecl k.hdr i with
    | none => .ok i
    | some (.illegalOperand, _) => .error (codeTrap p .illegalOperand 0 none)
    | some (.illegalOpcode, _) => .error (codeTrap p .illegalOpcode 0 none)
    | some (c, n) => .error { cause := c, aux0 := BitVec.ofNat 64 n }

/-- The checks of R51 after the line is read: the members, or the trap with its slot. `entry` says that the
pc was set from outside, so that the slot must be a branch target (R49). A fault of the line or of the pair as
a whole names the pair's first slot, whichever slot's parity is wrong (notes/assumptions/20). -/
def Issue.checked (p : Issue) (k : Crew) (prv : Bool) (line : List Byte) (entry : Bool) :
    Except (Nat × Trap) (Instr × Option Instr) :=
  let q := p.second line
  if !lineFormatOk p.lineWord.toNat || !slotParityOk line (p.first % 5)
      || (p.pair && !slotParityOk line ((p.first + 1) % 5)) then .error (p.first, codeTrap p .lineFormat 0 none)
  else if p.pair && !pairClass (p.word.toNat % 256) (q.word.toNat % 256) then
    .error (p.first, codeTrap p .lineFormat 0 none)
  else match p.decoded k prv with
  | .error e => .error (p.first, e)
  | .ok i =>
    let target : Bool := !entry || bitOf p.lineWord.toNat (p.first % 5)
    if !p.pair then
      (if target then .ok (i, none) else .error (p.first, codeTrap p .branchTarget p.first none))
    else match q.decoded k prv with
    | .error e => .error (q.slot, e)
    | .ok j =>
      if pairClash ((Rm.ofCode (p.mode.toNat % 8)).getD .rne) i j then .error (p.first, codeTrap p .lineFormat 0 none)
      else if target then .ok (i, some j)
      else .error (p.first, codeTrap p .branchTarget p.first none)

/-! ## Ready groups (spec/01 R38, R39) -/

/-- A ready group: its lanes, and since when its threads have been ready at the pc. -/
structure Group where
  pc : Nat
  pix : Dword
  half : Bool
  seg : Nat
  exch : Bool
  since : Nat
  lanes : BitVec 64

/-- Whether what held an instruction back is over, for the lanes that wait at it. -/
def State.awake (s : State) (w : Wave) (k : Crew) (t : Task) (m : BitVec 64) : Why → Bool
  | .room q n =>
    let r := k.q q
    if r.kind = 1 then decide (n ≤ r.space) else decide (r.kind = 0) || decide (n ≤ r.free)
  | .empty q => decide ((k.q q).kind = 0) || decide (0 < (k.q q).avail)
  | .command => decide (k.cmds.length < 32)
  | .call => s.callRoom t.ctx
  | .log =>
    if s.logging t.ctx then decide (s.flOccupancy t.ctx < s.flSize t.ctx)
    else if s.replaying t.ctx then
      (match s.nextRec t.ctx (fun bs => (lanesOf m).any fun l => s.selThread t.ctx (srcOf w.core w.wslot l) bs) with
      | none => false
      | some (_, none) => true
      | some (_, some bs) => !recordOk bs || s.turn t.ctx bs)
    else true
  | .turn q => s.pushTurn t.ctx w (k.q q)
  | .drain => !s.unsettled w m
  | .land => !(w.out.any fun p => p.lanes &&& m != 0 && !p.done)
  | .mmac => (lanesOf m).all fun l => (w.th l).exch

/-- Whether lane l of a wave is ready. -/
def State.readyLane (s : State) (w : Wave) (k : Crew) (t : Task) (l : Nat) : Bool :=
  match (w.th l).run with
  | .ready => true
  | .hold y => s.awake w k t (w.alike l) y
  | _ => false

/-- Joins a ready lane to its group. A group whose threads became ready at different times counts as ready since
its earliest thread (R41, notes/assumptions/20). -/
def joinGroup (l : Nat) (th : Thread) : List Group → List Group
  | [] => [⟨th.pc, th.pix, th.half, th.seg, th.exch, th.since, 1#64 <<< l⟩]
  | g :: r =>
    if g.pc = th.pc && g.pix == th.pix && g.half == th.half && g.seg == th.seg && g.exch == th.exch then
      { g with
        since := min g.since th.since
        lanes := g.lanes ||| 1#64 <<< l } :: r
    else g :: joinGroup l th r

/-- A group in the middle of a pair or of a segment, where nothing separates what it does (R29, R47). -/
def Group.midway (g : Group) : Bool := g.half || g.seg != 0

/-- The ready groups of a wave (R39); of a halted one, those that are midway. -/
def State.readyGroups (s : State) (w : Wave) : List Group :=
  match s.crew? w.crew with
  | none => []
  | some k => match s.task? k.task with
    | none => []
    | some t =>
      let gs := (List.range w.width).foldl (fun gs l =>
        if s.readyLane w k t l then joinGroup l (w.th l) gs else gs) []
      if w.halted && !w.stepping then gs.filter Group.midway else gs

/-- Whether a replaying context has an access that waits for the turn of its record: issue goes on until it is
performed, and stops at a later boundary (spec/09 R282, spec/13 R376). -/
def State.owesTurn (s : State) (c : Nat) : Bool :=
  s.replaying c && s.waves.any (fun w => s.ctxOfCrew w.crew == c && !w.still) && !s.landable c

/-- The groups that may issue: none while the context is held, and while a pre-emption waits only those that are
midway. -/
def State.groups (s : State) (w : Wave) : List Group :=
  match s.crew? w.crew with
  | none => []
  | some k => match s.task? k.task with
    | none => []
    | some t =>
      if !s.flag (.cxsched t.ctx) 0 then []
      else
        let gs := s.readyGroups w
        let gs := if (s.ctx t.ctx).preempt && !s.owesTurn t.ctx then gs.filter Group.midway else gs
        if w.stepping && s.dbg.lanes != 0 then gs.filter fun g => g.lanes &&& s.dbg.lanes != 0 else gs

/-- The group with the lowest pc. -/
def lowestGroup : List Group → Option Group
  | [] => none
  | g :: r => match lowestGroup r with
    | none => some g
    | some h => some (if g.pc ≤ h.pc then g else h)

/-- The group that has been ready longest; the lower pc wins a tie (R41). -/
def oldestGroup : List Group → Option Group
  | [] => none
  | g :: r => match oldestGroup r with
    | none => some g
    | some h => some (if g.since < h.since || (g.since = h.since && g.pc ≤ h.pc) then g else h)

/-- Whether the fairness counter overrides the choice (R41). -/
def Wave.overdue (w : Wave) (k : Crew) (gs : List Group) : Bool :=
  decide (2 ≤ gs.length) && decide (k.hdr.fairLimit ≤ w.fair)

/-! ## The choice of waves (spec/01 R40, spec/17 R458) -/

/-- The quarters that a wave occupies. -/
def Wave.quarters (w : Wave) : List (Nat × Nat) :=
  (List.range (w.width / 16)).map fun i => (w.core, w.laneSet * (w.width / 16) + i)

/-- The waves that may issue from a quarter in this clock. -/
def State.contenders (s : State) (core quarter : Nat) : List Wave :=
  s.waves.filter fun w => w.core == core && w.laneSet * (w.width / 16) == quarter
    && (w.quarters.all fun q => !s.taken.contains q) && !(s.groups w).isEmpty

/-- Whether the die's throttling bars issues in this clock. -/
def State.throttled (s : State) (core : Nat) : Bool :=
  decide (s.tick % 8 < s.field (.thstat (dieOf core)) 8 3)

/-- The least wave of a list by identifier. -/
def leastWave : List Wave → Option Wave
  | [] => none
  | w :: r => match leastWave r with
    | none => some w
    | some x => some (if w.id ≤ x.id then w else x)

/-- The next wave of a quarter in turn: the waves follow each other in the order of their launch. -/
def State.nextWave (s : State) (core quarter : Nat) : Option Wave :=
  let ws := s.contenders core quarter
  let last := getAt (s.core core).rr quarter 0
  (leastWave (ws.filter fun w => decide (last < w.id))).orElse fun _ => leastWave ws

/-- Whether a quarter's turn has come: every lower quarter of the core is occupied or has no wave to issue, and
no higher one has issued in this clock. -/
def State.quarterTurn (s : State) (core quarter : Nat) : Bool :=
  ((List.range quarter).all fun q => s.taken.contains (core, q) || (s.contenders core q).isEmpty)
    && !s.taken.any fun x => x.1 == core && decide (quarter < x.2)

/-! ## The end of an issue -/

/-- A member of an issue: its slot, word and instruction. -/
structure Member where
  slot : Nat
  word : InstrWord
  i : Instr

/-- Threads a member executed in or wrote zero to. -/
def Issue.wrote (p : Issue) (m : Member) : BitVec 64 :=
  let f := Fields.unpack m.word
  let h := f.head
  let g := p.lanes &&& (getAt p.masks h.g.val 0 ^^^ (if h.gn then BitVec.allOnes 64 else 0))
  match f.mod with
  | none => g
  | some x => if x.mz then g else g &&& getAt p.masks x.msk.val 0

/-- Threads a member executed in. -/
def Issue.ran (p : Issue) (m : Member) : BitVec 64 :=
  let f := Fields.unpack m.word
  match f.mod with
  | none => p.wrote m
  | some x => p.wrote m &&& getAt p.masks x.msk.val 0

/-- Registers that R65 and R66 speak of: v, s, k and j. -/
def isData (c : Nat) : Bool := decide (c < 0x310) || (decide (0x320 ≤ c) && decide (c < 0x328))

/-- Registers that an issue writes for its whole group: s and j. -/
def isShared (c : Nat) : Bool := (decide (0x100 ≤ c) && decide (c < 0x300)) || decide (0x320 ≤ c)

/-- Operand codes after a write of one code (R65). -/
def Thread.noteCode (th : Thread) (late : Bool) (c : Nat) : Thread :=
  if th.fly.contains c then { th with dbl := if th.dbl.contains c then th.dbl else c :: th.dbl }
  else if late then { th with fly := c :: th.fly }
  else th

/-- The writes of a member, as R65 follows them: an s register is every issuing thread's. -/
def Wave.noteWrites (w : Wave) (p : Issue) (m : Member) : Wave :=
  let cs := m.i.writeCodes.filter isData
  if cs.isEmpty then w
  else
    let go := p.wrote m
    w.each p.lanes fun l th => cs.foldl (fun th c =>
      if go.getLsbD l || (isShared c && go != 0) then th.noteCode m.i.variable c else th) th

/-- Instructions that write memory as one of their thread's accesses. -/
def storesTo : Instr → Bool
  | .st _ | .stSy _ | .sst _ | .itst _ | .atom _ _ | .red _ _ | .redx _ _ | .cadd _ | .stc _ | .swp _ _
  | .itx _ _ => true
  | _ => false

/-- An earlier access of a lane whose source register was written again (R66): its values are UNDEFINED, and
it acts where the old or the new operands say. What waits for its marker is UNDEFINED where a source of stc was
written again, or where a thread stored after its sampler request was computed (spec/09 R278; `st` tells the lanes
that store). -/
def State.taintPend (s : State) (e : Env) (cs : Nat → List Nat) (st : BitVec 64) (p : Pend) : Pend :=
  let hit : Bool := (lanesOf p.lanes).any fun l => p.i.readCodes.any fun c => (cs l).contains c
  if p.issue = 0 then p
  else if p.done then
    (if p.c = 3 && ((segmented p.i && hit) || (samples p.i && st.getLsbD p.lane)) then { p with taint := true } else p)
  else if !p.i.latent || !hit then p
  else
    let a := if Config.freeChoice (s.freeN * 2 ^ 64 + 2 ^ 46 + p.lane) then p.a
      else match e.addrNow s p.lane p.i with
        | some x => BitVec.ofNat 128 x
        | none => p.a
    { p with
      taint := true
      a := a }

/-- The same of a command that the engine has not accepted. -/
def State.taintCmd (s : State) (e : Env) (cs : Nat → List Nat) (c : Cmd) : Cmd :=
  if c.accepted || c.wave != e.w.id || !(c.i.readCodes.any fun x => (cs c.lane).contains x) then c
  else
    let new (o : Opd) (old : Dword) : Dword :=
      if Config.freeChoice (s.freeN * 2 ^ 64 + 2 ^ 47 + c.lane) then old
      else e.usrc s (1#64 <<< c.lane) o
    let ops : Opd × Opd × Opd := match c.i with
      | .mma x | .mmac x => (x.d, x.a, x.b)
      | .tld x | .tst x => (x.d, x.a, .zero)
      | .tzro x => (x.d, .zero, .zero)
      | .wbld x => (x.d, x.a, .zero)
      | .wbinv x => (.zero, (match x.range with | some (a, _) => a | none => .zero), .zero)
      | .mdrn x => (x.d, x.a, x.b)
      | _ => (.zero, .zero, .zero)
    let pick (o : Opd) (old : Dword) : Dword := match o with
      | .s _ => new o old
      | _ => old
    { c with
      taint := true
      d := pick ops.1 c.d
      a := pick ops.2.1 c.a
      b := pick ops.2.2 c.b }

/-- R66 for the writes of an issue. -/
def State.taint (s : State) (p : Issue) (ms : List Member) : State :=
  let codes := ms.map fun m => (p.wrote m, m.i.writeCodes.filter isData)
  let cs (l : Nat) : List Nat :=
    if p.lanes.getLsbD l then
      codes.flatMap fun x => x.2.filter fun c => x.1.getLsbD l || (isShared c && x.1 != 0)
    else []
  let st := (ms.filter fun m => storesTo m.i).foldl (fun x m => x ||| p.ran m) 0
  if st = 0 && codes.all fun x => x.2.isEmpty then s
  else match { s with iss := some p }.env? with
    | none => s
    | some e =>
      let s1 := s.setWave { e.w with out := e.w.out.map (s.taintPend e cs st) }
      if e.k.cmds.isEmpty then s1 else s1.setCrew { e.k with cmds := e.k.cmds.map (s.taintCmd e cs) }

/-- Results of the issue take its number and the commands that are ordered before them. -/
def Wave.number (w : Wave) (n moment : Nat) : Wave :=
  { w with out := w.out.map fun p => if p.issue = 0 then { p with
    issue := n
    since := moment
    toks := (w.th p.lane).ord.view.toks } else p }

def State.number (s : State) (id : Nat) : State :=
  match s.wave? id with
  | some w => s.setWave (w.number (s.tick + 1) s.moment)
  | none => s

/-- Whether an instruction is a loop: the transfer of an empty loop is not "taken" (spec/04 R106). -/
def isLoop : Instr → Bool
  | .loop _ _ _ => true
  | _ => false

/-- Where a thread goes on after an issue (R47, R64, spec/04 R106): loops, markers, and %pix, which an instruction
that is not long clears where it issued with INP = 1 (spec/01 R29). `keep` says that the issue wrote the thread's
%pix, `moved` that a transfer set the pc, `taken` that it is one of those that R106 names. -/
def Thread.goNext (th : Thread) (p : Issue) (slots : List Nat) (sw keep moved taken : Bool) (tick : Nat) : Thread :=
  let pix := if p.inp && !keep then 0 else th.pix
  let r := th.endCheck slots (if taken then some th.pc else none) th.depth
  let dest := r.2.getD (if moved then th.pc else p.next)
  let th1 : Thread := { r.1 with
    pix := pix
    entry := false
    half := false }
  match th.run with
  | .ready => { th1 with
      run := if sw then .marker else .ready
      pc := dest
      since := tick + 1 }
  | .wait _ | .quad => { th1 with
      pc := p.first
      next := dest
      swAfter := sw }
  | _ => { th with
      entry := false
      half := false }

/-- Where a thread goes back to the start of a loop's body after an issue (spec/04 R106), if it does. -/
def Thread.loopBack (th : Thread) (slots : List Nat) (taken : Bool) : Option Nat :=
  match th.run with
  | .ready | .wait _ | .quad => (th.endCheck slots (if taken then some th.pc else none) th.depth).2
  | _ => none

/-- The tests of the slots that loops go back to (R49, spec/04 R106), member by member: a thread's transfer
is charged to the member at the end slot of its highest level; the slot and the trap where one stops. -/
def State.testLoops (s : State) (p : Issue) (ms : List Member) : List Member → Except (Nat × Trap) State
  | [] => .ok s
  | m :: r =>
    match { s with iss := some { p with slot := m.slot, word := m.word } }.env? with
    | none => .ok s
    | some e =>
      let back (l : Nat) : Option Nat :=
        (e.w.th l).loopBack (ms.map (·.slot)) (p.moved.getLsbD l && !ms.any fun m => isLoop m.i)
      let ts := s.testTargets e (fun l => (back l).getD 0) ((lanesOf p.lanes).filter fun l =>
        (back l).isSome && (e.w.th l).loopEnd ((e.w.th l).depth - 1) == m.slot)
      match e.blame ts.2 with
      | .error (.trap t) => .error (m.slot, t)
      | .error _ => .ok s
      | .ok gone => (ts.1.setWave (e.w.each gone fun _ th => { th with run := .ended })).testLoops p ms r

/-- A progress event of a crew's task. -/
def State.progressCrew (s : State) (crew : Nat) : State :=
  match s.crew? crew with
  | some k => s.progress k.task
  | none => s

/-- Threads whose %pix a member wrote, or left to the long instruction that it is. -/
def Issue.keepsPix (p : Issue) (m : Member) : BitVec 64 :=
  match m.i with
  | .wrsr _ .pix _ => p.wrote m
  | i => if i.long then BitVec.allOnes 64 else 0

/-- The issue of the members `ms` has completed; `now` are those that took effect in this step. -/
def State.endIssue (s : State) (p : Issue) (ms now : List Member) (seq0 : Nat) : State :=
  match s.wave? p.wave with
  | none => { s with iss := none }
  | some w =>
    let sw := ms.any fun m => m.word.getLsbD 8
    let slots := ms.map (·.slot)
    let w1 := now.foldl (fun (w : Wave) m => w.noteWrites p m) (w.each p.lanes fun l th =>
      th.goNext p slots sw (ms.any fun m => (p.keepsPix m).getLsbD l) (p.moved.getLsbD l) (p.moved.getLsbD l && !ms.any fun m => isLoop m.i) s.tick)
    let s1 := (s.taint p now).number w.id
    let w2 := (s1.wave? w.id).getD w
    let s2 : State := { s1.setWave { w1 with out := w2.out } with iss := none }
    match s2.crew? w.crew with
    | none => s2
    | some k =>
      let n := (ms.map fun m => countLanes (p.ran m)).sum
      let seqs := (List.range ((k.eseq + 2 ^ 32 - seq0) % 2 ^ 32)).map fun i => (seq0 + i) % 2 ^ 32
      (((s2.progress k.task).stat k.task 0 1).stat k.task 1 n).noteStep w.id p.lanes (s.tick + 1) seqs

/-- The issue stopped before its effect, or between segments. -/
def State.cutIssue (s : State) (p : Issue) : State :=
  let s0 := match s.wave? p.wave with
    | some w => s.progressCrew w.crew
    | none => s
  let s1 : State := { s0.number p.wave with iss := none }
  if p.pair then s1 else s1.noteStep p.wave p.lanes (s.tick + 1) []

/-- The end of an issue that went from s to s1: where a loop cannot go back, the issue has no effect (R49). -/
def State.finish (s s1 : State) (p : Issue) (ms now : List Member) (seq0 : Nat) : State :=
  match s1.testLoops p ms ms with
  | .ok s2 => s2.endIssue p ms now seq0
  | .error (slot, t) => match s.wave? p.wave with
    | none => { s with iss := none }
    | some w => (s.takeFault w p.lanes slot t).stopIssue.cutIssue p

/-! ## An issue -/

/-- What the first member of a pair made its threads wait for or leave for is set aside while the second runs. -/
def Wave.aside (w : Wave) (m : BitVec 64) : Wave :=
  w.each m fun _ th => { th with
    run := .ready
    after := th.run }

/-- What a thread does after both members of a pair have run: the V/M/E member's wait comes before what the U/C
member asks (R47); `uc` says that the first member is the U/C one. -/
def Thread.combined (th : Thread) (uc : Bool) : Thread :=
  if th.after == .ready then th
  else if th.after == .ended || th.run == .ready then { th with
    run := th.after
    after := .ready }
  else if th.run == .ended || uc then th
  else { th with
    run := th.after
    after := th.run }

def State.asideLanes (s : State) (p : Issue) : State :=
  match s.wave? p.wave with
  | some w => s.setWave (w.aside p.lanes)
  | none => s

def State.combineLanes (s : State) (p : Issue) (uc : Bool) : State :=
  match s.wave? p.wave with
  | some w => s.setWave (w.each p.lanes fun _ th => th.combined uc)
  | none => s

/-- The second member of a pair waits for the accesses that the first has made (spec/09 R261): the first has taken
effect. -/
def State.halfIssue (s : State) (p : Issue) (m : Member) : State :=
  match s.wave? p.wave with
  | none => s
  | some w =>
    let s1 := s.setWave ((w.noteWrites p m).each p.lanes fun _ th => { th with half := true })
    ({ (s1.taint p [m]).number p.wave with iss := none } : State).progressCrew w.crew

/-- Whether the threads of an issue wait for their earlier accesses. -/
def State.draining (s : State) (p : Issue) : Bool :=
  match s.wave? p.wave with
  | some w => (lanesOf p.lanes).all fun l => (w.th l).run == .hold .drain
  | none => false

/-- Runs the members of an issue in slot order (R47); `s` holds the issue. Where the second stops, the first
has no effect either, and its stop is taken without it; where the second must wait for the accesses that the
first makes, it issues again once they are performed. -/
def State.runIssue (s : State) (p : Issue) (line : List Byte) (i : Instr) (j : Option Instr) (seq0 : Nat) :
    Host.Outcome State Fault Refusal :=
  match exec i s with
  | .fault f => .fault f
  | .refused r => .refused r
  | .next s1 => match s1.iss with
    | none => .next (s1.cutIssue p)
    | some p1 => match j with
      | none => .next (s.finish s1 p1 [⟨p.slot, p.word, i⟩] [⟨p.slot, p.word, i⟩] seq0)
      | some i2 =>
        let q := p.second line
        let ms : List Member := [⟨p.slot, p.word, i⟩, ⟨q.slot, q.word, i2⟩]
        match exec i2 { s1.asideLanes p with iss := some { q with moved := p1.moved } } with
        | .fault f => .fault f
        | .refused r => .refused r
        | .next s2 => match s2.iss with
          | some p2 => .next (s.finish (s2.combineLanes p (isUC (p.word.toNat % 256))) p2 ms ms seq0)
          | none => match exec i2 { s with iss := some q } with
            | .fault f => .fault f
            | .refused r => .refused r
            | .next s3 =>
              .next (if s3.iss.isNone then s3.cutIssue p
                else if s2.draining p then s2.halfIssue p ⟨p.slot, p.word, i⟩
                else { s with iss := none })

/-- Runs the second member of a pair whose first has taken effect. -/
def State.runSecond (s : State) (p : Issue) (line : List Byte) (i j : Instr) (seq0 : Nat) :
    Host.Outcome State Fault Refusal :=
  let q := p.second line
  match exec j { s with iss := some q } with
  | .fault f => .fault f
  | .refused r => .refused r
  | .next s1 => match s1.iss with
    | none => .next (s1.cutIssue p)
    | some p1 => .next (s.finish s1 p1 [⟨p.slot, p.word, i⟩, ⟨q.slot, q.word, j⟩] [⟨q.slot, q.word, j⟩] seq0)

/-- A group issues: fetch, checks, execution. -/
def State.issueGroup (s : State) (w : Wave) (k : Crew) (t : Task) (g : Group) : Host.Outcome State Fault Refusal :=
  let blank : Issue := { Issue.fetched s w g.lanes g.pc [] with lineWord := 0 }
  if k.hdr.slots ≤ g.pc then
    .next (s.takeFault w g.lanes g.pc ((codeTrap blank .branchTarget g.pc none).atUnit 1))
  else match s.gRead (fetchAcc t) none 1 (k.hdr.lineVa (g.pc / 5)) 64 with
    | .error e => .next (s.takeFault w g.lanes g.pc e)
    | .ok (line, s1) =>
      let p := Issue.fetched s w g.lanes g.pc line
      match p.checked k t.prv line ((lanesOf g.lanes).any fun l => (w.th l).entry) with
      | .error (slot, e) => .next (s1.takeFault w g.lanes slot (e.atUnit 1))
      | .ok (i, j) => match g.half, j with
        | true, some j => { s1 with iss := some p }.runSecond p line i j k.eseq
        | _, _ => { s1 with iss := some p }.runIssue p line i j k.eseq

/-- The state as a wave of a quarter is chosen with a group. -/
def State.chosen (s : State) (core quarter : Nat) (w : Wave) (t : Task) (g : Group) (over' : Bool) : State × Wave :=
  let c := s.core core
  let w1 : Wave := { w.each g.lanes (fun _ th => { th with run := .ready }) with
    fair := if over' then 0 else w.fair }
  let s1 := s.setCore core { c with
    rr := c.rr.set quarter w.id
    last := c.last.set quarter (w.wslot, g.pc, t.ctx, g.lanes) }
  ({ s1.setWave w1 with taken := w.quarters ++ s.taken }, w1)

/-- Issue from a quarter of a core (R40, R41). -/
def State.issue (s : State) (core quarter : Nat) : Host.Outcome State Fault Refusal :=
  if 512 ≤ core || 4 ≤ quarter then .fault .absent
  else if s.throttled core || !s.quarterTurn core quarter then .fault .notEnabled
  else match s.nextWave core quarter with
  | none => .fault .notEnabled
  | some w => match s.crew? w.crew with
    | none => .fault .notEnabled
    | some k => match s.task? k.task with
      | none => .fault .notEnabled
      | some t =>
        let gs := s.groups w
        let late := w.overdue k gs
        match (if late then oldestGroup gs else lowestGroup gs) with
        | none => .fault .notEnabled
        | some g =>
          let r := s.chosen core quarter w t g late
          r.1.issueGroup r.2 k t g

/-! ## The clock -/

/-- The fairness counters as a clock begins (R41). -/
def State.countFair (s : State) : State :=
  { s with waves := s.waves.map fun (w : Wave) =>
      { w with fair := if 2 ≤ (s.readyGroups w).length then w.fair + 1 else 0 } }

/-- Threads that wait to issue again are ready from the clock in which what held them back is over (R38, R41). -/
def State.countHeld (s : State) : State :=
  { s with waves := s.waves.map fun (w : Wave) => match s.crew? w.crew with
      | none => w
      | some k => match s.task? k.task with
        | none => w
        | some t => { w with threads := w.threads.mapIdx fun l th => match th.run with
            | .hold _ => if s.readyLane w k t l then th else { th with since := s.tick }
            | _ => th } }

/-- A clock passes; with STOPCTL armed the clocks end after STOPTICK (spec/16 R444). -/
def State.passClock (s : State) : State :=
  if s.flag .stopctl 0 && s.regNat .stoptick == s.tick % 2 ^ 64 then { s with stopped := true }
  else
    let s1 := s.countStall.holdClock
    let s2 : State := { s1 with
      tick := s.tick + 1
      taken := []
      crews := s1.crews.map fun k => if k.prev.isEmpty then k else { k with prev := [] } }
    s2.countHeld.countFair

end Sys2Proof.Machine
end

