-- ==== Sys2Proof/Machine/Auto.lean ====
section
/-! DEFINITION. What moves next: performing an act, the model's own order of acts where its agenda is empty
(notes/assumptions/3), and what follows an act. -/

namespace Sys2Proof.Machine

/-! ## Performing an act -/

/-- Performs an act. -/
def State.doAct (s : State) : Act → Host.Outcome State Fault Refusal
  | .event i => exec i s
  | .leave t pos => s.leave t pos
  | .issue core quarter => s.issue core quarter
  | .clock => .next s.passClock

/-- The task that an act is a progress event of (spec/12 R361), beside issues. -/
def State.progressTask (s : State) : Act → Option Nat
  | .event (.resultLand core wslot _) =>
    ((s.waveAt? core wslot).bind fun w => s.crew? w.crew).map fun (k : Crew) => k.task
  | .event (.copyInChunk t _ _) => some t
  | .event (.taskRetire t) => some t
  | .event (.mmacBlock t) => some t
  | .event (.engineCommandDone c) => (s.crew? c).map fun (k : Crew) => k.task
  | .event (.regroupWaveLaunch clu n) => (s.binAt clu n).map fun p => p.1.id
  | .event (.regroupTimeout clu n) => (s.binAt clu n).map fun p => p.1.id
  | _ => none

/-- What follows an act at once. -/
def State.follow (s : State) (a : Act) (s1 : State) : State :=
  let s2 := match s.progressTask a with
    | some t => s1.progress t
    | none => s1
  s2.settle.settleQueues.settlePreempts.settleReplays.settleDebug

/-! ## Acts that may be possible, by kind -/

/-- Lanes of a wave whose threads a test selects. -/
def Wave.lanesWhere (w : Wave) (f : Thread → Bool) : List Nat :=
  (List.range w.width).filter fun l => f (w.th l)

def Wave.ref (w : Wave) (l : Nat) : ThreadRef := ⟨w.core, w.wslot, l⟩

/-- Issues of this clock. -/
def State.issues (s : State) : List Act :=
  s.waves.filterMap fun w =>
    let q := w.laneSet * (w.width / 16)
    if s.taken.any (fun x => x.1 == w.core && decide (q ≤ x.2)) || (s.contenders w.core q).isEmpty
        || s.throttled w.core then none
    else some (.issue w.core q)

def State.landings (s : State) : List Act :=
  s.waves.flatMap fun w => (List.range w.out.length).map fun n => .event (.resultLand w.core w.wslot n)

def State.leaves (s : State) : List Act :=
  s.waves.flatMap fun w => (w.lanesWhere fun th => !th.storeQ.isEmpty).flatMap fun l =>
    (List.range (w.th l).storeQ.length).map fun n => .leave (w.ref l) n

def State.waits (s : State) : List Act :=
  s.waves.flatMap fun w => (List.range w.width).filterMap fun l => match (w.th l).run with
    | .wait (.counter _ _ _ _ _) => some (.event (.cwaitSatisfied (w.ref l)))
    | .wait (.park (some _)) => some (.event (.parkTimeout (w.ref l)))
    | _ => none

def State.engineActs (s : State) : List Act :=
  s.crews.flatMap fun k => match k.cmds with
    | [] => []
    | c :: _ => match c.i with
      | .mmac _ => [.event (.mmacBlock k.task)]
      | _ => [.event (.engineCommandDone k.id)]

/-- Indices of a list whose elements a test selects. -/
def idxWhere {α : Type} (l : List α) (f : α → Bool) : List Nat :=
  l.zipIdx.filterMap fun p => if f p.1 then some p.2 else none

def State.clusterActs (s : State) : List Act :=
  ((idxWhere s.clusters fun c => !c.rays.isEmpty).flatMap fun c =>
    (List.range (s.cluster c).rays.length).map fun n => .event (.rayWalkEnd c n))
  ++ (idxWhere s.clusters fun c => !c.pool.isEmpty).flatMap fun c =>
    (List.range (s.cluster c).pool.length).flatMap fun n =>
      [.event (.regroupWaveLaunch c n), .event (.regroupTimeout c n)]

def State.taskActs (s : State) : List Act :=
  s.tasks.flatMap fun t => match t.phase with
    | .ready => .event (.taskPlace t.id) :: (if s.flag .balctl 16 then
        (List.range 8).map fun d => .event (.balancerMove t.id d) else [])
    | .run => ((List.range t.ops.length).flatMap fun n => match t.ops[n]? with
        | some o => if o.out then [] else
            ((List.range o.chunks).filter fun c => !o.done.contains c).map fun c => .event (.copyInChunk t.id n c)
        | none => []) ++ [.event (.taskRetire t.id)]
    | .copyOut => [.event (.taskRetire t.id)]
    | _ => []

/-- The event of a packet. -/
def packetEvent (q : Nat) (r : RawPacket) : Act :=
  let p : Packet := ⟨r.irq, r.pseq, r.addr, r.value⟩
  .event (match r.kind with
    | 0 => .nopPacket q p
    | 1 => .submit q p
    | 2 => .wait q p
    | 3 => .signal q p
    | _ => .fencePacket q p)

def State.queueActs (s : State) : List Act :=
  ((List.range 256).filter fun q => s.flag (.sqbase q) 0 || ((s.subq q).held.isSome)).filterMap fun q =>
    match (s.subq q).held with
    | some r => some (.event (if r.kind = 2 then .waitSatisfied q else .signalPerform q))
    | none => if !s.sqReady q then none else match s.readPacket q with
      | .ok (r, _) => some (packetEvent q r)
      | .error _ => none

/-- Engines of a die that have a job. -/
def State.busyEngines (s : State) : List (Nat × Nat) :=
  (List.range 8).flatMap fun d => (idxWhere (s.die d).engines fun e => e.job.isSome).map fun e => (d, e)

def State.copyActs (s : State) : List Act :=
  ((List.range 8).filter fun d => s.flag (.cjbase d) 0).map (fun d => .event (.copyJobStart d))
  ++ s.busyEngines.flatMap fun p =>
    (List.range (s.engine p.1 p.2).xfers.length).map (fun n => .event (.transferDone p.1 p.2 n))
      ++ [.event (.copyJobTimeout p.1 p.2)]

/-- The next instruction of each routine. -/
def State.routineActs (s : State) : List Act :=
  s.busyEngines.filterMap fun p => (s.rv? p.1 p.2).map fun r =>
    .event (.rv64gcInstruction p.1 p.2 (BitVec.ofNat 32 (r.nextBits.getD 0)))

def State.rasterActs (s : State) : List Act :=
  ((List.range 64).filter fun c => s.flag (.rqbase c) 0).map fun c => .event (.rasterJob c)

def State.memoryActs (s : State) : List Act :=
  (if s.inval then [.event .invalidationDone] else [])
    ++ (List.range s.merges.length).map (fun n => .event (.mergeGroupClose n))
    ++ (List.range s.arrivals.length).map fun n => .event (.countedArrival n)

def State.contextActs (s : State) : List Act :=
  (idxWhere s.ctxs fun c => c.saved.isSome).map (fun c => .event (.contextRestore c))
  ++ ((List.range 64).filter fun c => s.flag (.cxsched c) 0).flatMap fun c =>
    [.event (.replayDisc c), .event (.timeSliceExpiry c)]

def State.watchdogActs (s : State) : List Act :=
  ((List.range 256).filter fun q => s.wdLimit q ≠ 0).map fun q => .event (.watchdogExpiry q)

/-- The command of the mailbox, and the slots it has verified. -/
def State.mailboxActs (s : State) : List Act :=
  (s.mgmt.slots.map fun x => .event (.rtslotLoad x.1 x.2.1 x.2.2))
    ++ if s.mgmt.command.isSome then [.event .mailboxComplete] else []

/-- Readings of the sensors repeat those of the last sample. -/
def State.periodic (s : State) : List Act :=
  (if s.snap.due.isSome then [.event .snapshotLatch] else [])
  ++ ((List.range 8).filter fun d => s.flag (.trctl d) 0).map (fun d => .event (.traceSample d))
  ++ (if s.tick % 16 = 0 && s.tick ≠ 0 then
      (idxWhere s.cores fun c => c.power != 0 || c.hold != 0).map (fun c => .event (.enginePowerStep c)) else [])
  ++ (if s.tick % 65536 = 0 && s.tick ≠ 0 then
      [.event (.throttleSample ((List.range 8).map fun d => s.field (.thstat d) 0 8) (s.field .pwrstat 0 12))]
    else [])

/-- The kinds, which take turns in coming first. -/
def State.kind (s : State) : Nat → List Act
  | 0 => s.issues
  | 1 => s.landings
  | 2 => s.leaves
  | 3 => s.waits
  | 4 => s.engineActs
  | 5 => s.clusterActs
  | 6 => s.taskActs
  | 7 => s.queueActs
  | 8 => s.copyActs
  | 9 => s.routineActs
  | 10 => s.rasterActs
  | 11 => s.memoryActs
  | 12 => s.contextActs
  | 13 => s.watchdogActs
  | 14 => s.mailboxActs
  | 15 => s.periodic
  | _ => if s.issues.isEmpty then [.clock] else []

/-- The number of kinds. -/
def kinds : Nat := 17

/-- The first act of a list that can be performed now. -/
def State.firstAct (s : State) : List Act → Option (Act × State)
  | [] => none
  | a :: r => match s.doAct a with
    | .next s1 => some (a, s1)
    | _ => s.firstAct r

/-- The first act of the kinds from a number on, n of them. -/
def State.pick (s : State) : (n k : Nat) → Option (Act × State)
  | 0, _ => none
  | n + 1, k =>
    let l := s.kind (k % kinds)
    match s.firstAct (l.rotate (s.freeN / kinds % (l.length + 1))) with
    | some x => some x
    | none => s.pick n (k + 1)

/-- What moves where the agenda is empty: right after power comes on the package boots (spec/17 R457). -/
def State.auto (s : State) : Act × State :=
  if s.field .mgstat 0 4 = 0 then (.event .powerOn, (s.packageReset 0).boot)
  else (s.pick kinds s.freeN).getD (.clock, s.passClock)

/-! ## The machine moves -/

/-- Acts that a stopped machine takes (spec/16 R444): resets. -/
def Act.resets : Act → Bool
  | .event .powerOn | .event (.pkrstWrite _ _) => true
  | _ => false

/-- After an act: what follows from it, and the next free values (spec/00 R9). -/
def State.moved (s : State) (a : Act) (s1 : State) (rest : List Act) : State :=
  { s.follow a s1 with
    agenda := rest
    iss := none
    freeN := s.freeN + 1 }

/-- The next act of the machine. -/
def State.move (s : State) : Host.Outcome State Fault Refusal :=
  match s.agenda with
  | a :: rest =>
    if s.stopped && !a.resets then .fault .stopped
    else match s.doAct a with
      | .fault f => .fault f
      | .refused r => .refused r
      | .next s1 => .next (s.moved a s1 rest)
  | [] =>
    if s.stopped then .fault .stopped
    else .next (s.moved s.auto.1 s.auto.2 [])

end Sys2Proof.Machine
end

