-- ==== Sys2Proof/Machine/Step.lean ====
section
/-! DEFINITION. One step of the machine, and the machine with an instruction where its next step fetches
(notes/assumptions/12). -/

namespace Sys2Proof.Machine

/-- One step: the next act of the agenda, or the act that the machine's own order gives. -/
def step (s : State) : Host.Outcome State Fault Refusal := s.move

/-! ## An instruction to fetch -/

/-- A kernel of one line that declares every register and unit, at address 0. -/
def probeHeader : Header :=
  { va := 0, entry := 0, lines := 1, width := 16, vregs := 256, swp := 64, scr := 448, spad := 1024, trows := 1024,
    nbar := 32, niter := 8, live := 0, waves := 1, fair := 0, cls := 3, smp := true, mat := true, hlp := false,
    prv := true, qkind := List.replicate 16 1 }

/-- A fetch line with one instruction in slot 0, a branch target (spec/02 R42 to R44). -/
def probeLine (w : InstrWord) : List Byte :=
  let lw := 1 + if oddOnes 96 w.toNat then 2 ^ 24 else 0
  leBytes 12 w.toNat ++ List.replicate 48 0 ++ leBytes 4 (lw + if oddOnes 32 lw then 2 ^ 31 else 0)

/-- A privileged task of context 0 on core 0. -/
def probeTask (id : Nat) : Task :=
  { id := id, record := 0, ctx := 0, queue := 0, pos := 0, name := 0, flags := 0, ncrew := 1, cmask := 3,
    hdr := probeHeader, seed := 0, retry := 0, att := 1, succ := 0, stamp := 0, args := [], ops := [], prv := true,
    phase := .run, die := 0, readySince := 0, order := 0, place := some (0, 0), cores := [0], tDisp := 0, tCin := 0,
    tOpw := 0, tExit := 0, tCout := 0, version := .empty, vspilled := [], stats := List.replicate 8 0, succPos := 0,
    view := .start }

/-- Its wave: 16 threads at slot 0. -/
def probeWave (id crew : Nat) : Wave :=
  Wave.launch id crew 0 0 0 0 probeHeader 1 ((List.range 16).map fun l =>
    Thread.launch probeHeader 0 0 0 (BitVec.ofNat 32 l) false false)

/-- Page tables that map the first 64 MiB to themselves (spec/10 R289, R290), at 64 KiB and above. -/
def probeTables : List (Nat × Nat) := [(0x10000, 0x12005), (0x12000, 0x14005), (0x14000, 0x3F)]

/-- The machine about to issue the instruction of a word: a context with page tables, a task whose one wave
stands at the word, and the turn of its quarter. -/
def State.withFetchWord (s : State) (nbits w : Nat) : State :=
  let n := s.nextId
  let line := probeLine (BitVec.ofNat 96 (w % 2 ^ nbits))
  let k := Crew.launch (n + 1) n 0 0 false probeHeader [] 0 0
  let s1 := (probeTables.foldl (fun s e => s.devWrite e.1 (leBytes 8 e.2)) s).devWrite 128 line
  let s2 := (((s1.setField (.cxsched 0) 0 1 1).setReg (.ptbase 0) 0x10001).setReg (.cxasid 0) 0).setField (.thstat 0) 8 3 0
  { s2.setCtx 0 { s2.ctx 0 with preempt := false } with
    stopped := false
    taken := []
    lines := []
    coreLines := []
    walks := []
    remap := []
    waves := probeWave (n + 2) (n + 1) :: s.waves.filter fun x => x.core != 0
    crews := k :: s.crews
    tasks := probeTask n :: s.tasks
    agenda := [.issue 0 0]
    iss := none
    nextId := n + 3 }

end Sys2Proof.Machine
end

