-- ==== Sys2Proof/Safety.lean ====
section
/-! DEFINITION. What a safe run is, and the conditions on states that claims use: memories in canonical form,
the shape of the package, and registers within their ranges. -/

namespace Sys2Proof.Machine

/-! ## Safe runs -/

/-- Whether an outcome is a next state. -/
def completes : Host.Outcome State Fault Refusal → Bool
  | .next _ => true
  | _ => false

/-- A run of n steps is safe if none of them stops. -/
def safeRun : (n : Nat) → State → Bool
  | 0, _ => true
  | n + 1, s => match step s with
    | .next t => safeRun n t
    | _ => false

/-! ## Conditions on states -/

/-- Every memory of the package is in canonical form. -/
def State.memOk (s : State) : Bool :=
  s.dev.wf && s.hostMem.wf && s.peerMem.wf
    && (s.cores.all fun c => c.spad.wf && c.tile.wf && c.wbuf.wf)
    && (s.dies.all fun d => d.engines.all fun e => e.ram.wf && e.buf0.wf && e.buf1.wf)
    && s.tasks.all fun t => t.version.wf

/-- The package has the parts of spec/00 R1. -/
def State.partsOk (s : State) : Bool :=
  s.cores.length == 512 && s.clusters.length == 64 && s.dies.length == 8
    && (s.dies.all fun d => d.engines.length == 12) && s.ctxs.length == 64 && s.queues.length == 256

/-- A wave has the registers that its header declares (spec/01 R18 to R23). -/
def Wave.shapeOk (w : Wave) (h : Header) : Bool :=
  w.width == h.width && (w.width == 16 || w.width == 32 || w.width == 64) && w.threads.length == w.width
    && w.k.length == 15 && w.sp.length == h.swp && w.iters.length == h.niter
    && w.threads.all fun th => th.v.length == h.vregs && th.loops.length == 4 && th.lends.length == 4

/-- A legal %mode (spec/01 R26): RM is one of 1 to 6, and reserved bits are zero. -/
def modeOk (m : Dword) : Bool := decide (m.toNat < 64) && decide (m.toNat % 8 ≠ 0) && decide (m.toNat % 8 ≠ 7)

/-- A crew has the registers that its header declares. -/
def Crew.shapeOk (k : Crew) : Bool :=
  k.ss.length == k.hdr.scr && k.qs.length == 16 && k.bars.length == k.hdr.nbar

/-! ## What instructions do to the state, in the words of claims -/

/-- An issue is in progress for the threads of a wave whose registers, and whose crew's, are those that the
kernel header declares; the issuing threads are threads of the wave. -/
def Issuing (s : State) (e : Env) : Prop :=
  s.env? = some e ∧ e.w.shapeOk e.k.hdr = true ∧ e.k.shapeOk = true ∧ e.p.lanes &&& ~~~e.w.all = 0

/-- Everything but one wave is as it was. -/
def SameBesideWave (s t : State) (id : Nat) : Prop :=
  { t with waves := s.waves } = s ∧ ∀ j, j ≠ id → t.wave? j = s.wave? j

/-- The state t is s but for the contents of memories and what caches, walkers, merge groups and update-only
lines hold. -/
def SameBesideMemory (s t : State) : Prop :=
  { t with
    dev := s.dev
    hostMem := s.hostMem
    peerMem := s.peerMem
    cores := s.cores
    walks := s.walks
    lines := s.lines
    coreLines := s.coreLines
    up := s.up
    merges := s.merges } = s

/-- The registers of a v operand are declared (spec/01 R37). -/
def VDeclared (e : Env) (d : Opd) (n : Nat) : Prop := ∀ r, d = .v r → r.val + n ≤ e.k.hdr.vregs

/-- An s operand is declared (spec/01 R37). -/
def SDeclared (e : Env) (d : Opd) : Prop :=
  ∀ r, d = .s r → if r.val < 64 then r.val < e.k.hdr.swp else r.val - 64 < e.k.hdr.scr

/-- v register n of a lane after a result: its destination's registers take the words of the result in the
threads of `x` and zero in those of `z` (spec/02 R57); an operand that is no v register takes nothing. -/
def vAfter (x z : BitVec 64) (d : Opd) (wide : Bool) (val : Nat → Nat) (l n : Nat) (old : Word) : Word :=
  match d with
  | .v r =>
    if (x.getLsbD l || z.getLsbD l) && (n == r.val || (wide && n == r.val + 1)) then
      if !x.getLsbD l then 0
      else if n = r.val then BitVec.ofNat 32 (val l) else BitVec.ofNat 32 (val l / 2 ^ 32)
    else old
  | _ => old

/-- The state t is s but for the results of an instruction in v registers: no other register, no flag, no
other thread, wave or memory has changed. -/
def VResult (s t : State) (e : Env) (x z : BitVec 64) (d : Opd) (wide : Bool) (val : Nat → Nat) : Prop :=
  SameBesideWave s t e.w.id ∧ ∃ w, t.wave? e.w.id = some w ∧ { w with threads := e.w.threads } = e.w
    ∧ ∀ l, l < e.w.width → { w.th l with v := (e.w.th l).v } = e.w.th l
      ∧ ∀ n, getAt (w.th l).v n 0 = vAfter x z d wide val l n (getAt (e.w.th l).v n 0)

/-- Bit l of mask register n after a result (spec/01 R21, spec/02 R57); k0 takes no write. -/
def kAfter (x z : BitVec 64) (d : Opd) (bits : Nat → Bool) (l n : Nat) (old : Bool) : Bool :=
  match d with
  | .k r => if r.val ≠ 0 && n == r.val && (x.getLsbD l || z.getLsbD l) then x.getLsbD l && bits l else old
  | _ => old

/-- The state t is s but for the bits of a result in a mask register. -/
def KResult (s t : State) (e : Env) (x z : BitVec 64) (d : Opd) (bits : Nat → Bool) : Prop :=
  SameBesideWave s t e.w.id ∧ ∃ w, t.wave? e.w.id = some w ∧ { w with k := e.w.k } = e.w
    ∧ ∀ n l, 0 < n → l < 64 → (getAt w.k (n - 1) 0).getLsbD l =
        kAfter x z d bits l n ((getAt e.w.k (n - 1) 0).getLsbD l)

/-- Uniform register n of a wave: its own below 64, its crew's above (spec/01 R19). -/
def State.sreg (s : State) (id n : Nat) : Dword :=
  match s.wave? id with
  | none => 0
  | some w => if n < 64 then getAt w.sp n 0 else match s.crew? w.crew with
    | some k => getAt k.ss (n - 64) 0
    | none => 0

/-- Crew-shared register n as the issues of this clock read it (spec/01 R20). -/
def Crew.shown (k : Crew) (n : Nat) : Dword :=
  match k.prev.find? fun x => x.1 == n with
  | some x => x.2
  | none => getAt k.ss n 0

/-- The issuing wave at a write of uniform register d: results that other threads have in flight to it were issued
earlier and do not write it again (spec/04 R126). -/
def Env.writerOf (e : Env) (on : Bool) (d : Opd) : Wave :=
  match d with
  | .s _ => if on then e.w.overtake e.p.lanes d else e.w
  | _ => e.w

/-- The state t is s but for uniform register d of the issuing wave or its crew, which holds v where `on`
(spec/04 R97, R126); a crew-shared register reads as before until the clock has passed (spec/01 R20). -/
def SResult (s t : State) (e : Env) (on : Bool) (d : Opd) (v : Dword) : Prop :=
  { t with
    waves := s.waves
    crews := s.crews } = s
  ∧ (∀ j, j ≠ e.w.id → t.wave? j = s.wave? j) ∧ (∀ j, j ≠ e.w.crew → t.crew? j = s.crew? j)
  ∧ (∃ w, t.wave? e.w.id = some w ∧ { w with sp := e.w.sp } = e.writerOf on d)
  ∧ (∃ k, t.crew? e.w.crew = some k
    ∧ { k with
        ss := e.k.ss
        prev := e.k.prev } = e.k
    ∧ ∀ n, k.shown n = e.k.shown n)
  ∧ ∀ n, t.sreg e.w.id n = match d with
      | .s r => if on && n == r.val then v else s.sreg e.w.id n
      | _ => s.sreg e.w.id n

/-- The state t is s but for the threads of a mask of the issuing wave, which are as `f` says. -/
def ThreadsResult (s t : State) (e : Env) (m : BitVec 64) (f : Nat → Thread → Thread) : Prop :=
  SameBesideWave s t e.w.id ∧ ∃ w, t.wave? e.w.id = some w ∧ { w with threads := e.w.threads } = e.w
    ∧ w.threads.length = e.w.threads.length
    ∧ ∀ l, l < e.w.width → w.th l = if m.getLsbD l then f l (e.w.th l) else e.w.th l

/-- The state t is s but for floating results in v registers, the flags that the executing threads raise, of which
those of helper threads do not count, and the draws they take (spec/02 R57, spec/03 R87, R91). -/
def FResult (s t : State) (e : Env) (x z : BitVec 64) (d : Opd) (wide draws : Bool) (val : Nat → Res) : Prop :=
  SameBesideWave s t e.w.id ∧ ∃ w, t.wave? e.w.id = some w
    ∧ { w with
        threads := e.w.threads
        fflags := e.w.fflags } = e.w
    ∧ (∀ b, w.fflags.getLsbD b = (e.w.fflags.getLsbD b ||
        (List.range 64).any fun l => x.getLsbD l && !(e.w.th l).helper && (val l).2.getLsbD b))
    ∧ ∀ l, l < e.w.width →
      { w.th l with
        v := (e.w.th l).v
        rngc := (e.w.th l).rngc } = e.w.th l
      ∧ (w.th l).rngc = (if draws && x.getLsbD l && !(e.w.th l).helper then (e.w.th l).rngc + 1 else (e.w.th l).rngc)
      ∧ ∀ n, getAt (w.th l).v n 0 = vAfter x z d wide (fun l => (val l).1) l n (getAt (e.w.th l).v n 0)

/-- The state t is s but for outstanding results of the issuing wave, one for each thread of `x` with its words and
flags, and one of zeros for each of `z`, and the draws that the threads of `x` take (spec/02 R57, R63). -/
def Outstanding (s t : State) (e : Env) (i : Instr) (x z : BitVec 64) (d : Opd) (words : Nat) (draws : Bool)
    (val : Nat → List Word × Dword) : Prop :=
  SameBesideWave s t e.w.id ∧ ∃ w, t.wave? e.w.id = some w
    ∧ { w with
        threads := e.w.threads
        out := e.w.out } = e.w
    ∧ w.out = e.w.out ++ (lanesOf (x ||| z)).map (fun l =>
      { lanes := 1#64 <<< l, lane := l, slot := e.p.slot, issue := 0, i := i, a := 0, b := 0, c := 0,
        ext := if x.getLsbD l then (val l).1 else List.replicate words 0, dst := d, done := true,
        flags := if x.getLsbD l && !(e.w.th l).helper then (val l).2 else 0, taint := false, wait := none, toks := [],
        since := 0 })
    ∧ ∀ l, l < e.w.width → { w.th l with rngc := (e.w.th l).rngc } = e.w.th l
      ∧ (w.th l).rngc = (if draws && x.getLsbD l && !(e.w.th l).helper then (e.w.th l).rngc + 1 else (e.w.th l).rngc)

end Sys2Proof.Machine
end

