-- ==== Sys2Proof/Certificates/Slice0/Obligations.lean ====
section
/-! DEFINITION. The statements for the provers. -/

open Sys2Proof Sys2Proof.Machine

/-! ## Control (spec/04) -/

/-- Instructions that write only the state of threads or of their wave: nop, exit, loop.pop, park, join, yield and
mode (R105, R107, R111 to R113, R121), and brk where debugging is off (R118). -/
def controlStatesHolds : Prop := ∀ s e, Issuing s e → ∀ h : Head,
  exec (.nop h) s = .next s
  ∧ (∃ t, exec (.exit h) s = .next t ∧ ThreadsResult s t e (e.guard h) fun _ th => { th with run := .leaving .exit })
  ∧ (∃ t, exec (.loopPop h) s = .next t ∧ ThreadsResult s t e (e.guard h) fun _ th =>
      if th.depth = 0 then th else { th with loops := updAt th.loops (th.depth - 1) fun x => x &&& ~~~(1#64 <<< 52) })
  ∧ (∀ n : BitVec 32, ∃ t, exec (.park h (.imm n)) s = .next t ∧ ThreadsResult s t e (e.guard h) fun _ th =>
      { th with run := .wait (.park (if n.toNat = 0 then none else some (s.tick + n.toNat))) })
  ∧ (∀ a : Opd, ∃ t, exec (.park h (.reg a)) s = .next t ∧ ThreadsResult s t e (e.guard h) fun _ th =>
      { th with run := .wait (.park (if (e.usrc s e.p.lanes a).toNat % 2 ^ 32 = 0 then none
          else some (s.tick + (e.usrc s e.p.lanes a).toNat % 2 ^ 32))) })
  ∧ (∀ k : Fin 16, ∃ t, exec (.join h (.k k)) s = .next t ∧ ThreadsResult s t e (e.guard h) fun _ th =>
      { th with run := .wait (.join e.p.slot k.val) })
  ∧ (exec (.yield h) s = .next (if e.guard h = 0 then s else
      s.setWave { e.w with fair := if e.k.hdr.fair = 0 then 1024 else 64 * e.k.hdr.fair }))
  ∧ (∀ f : ModeFields, ∃ m : Dword, exec (.mode h f) s = .next (if e.guard h = 0 then s else s.setWave { e.w with mode := m })
      ∧ (modeOk e.w.mode = true → m.toNat % 8 = (f.rm.map (·.toNat)).getD (e.w.mode.toNat % 8)
        ∧ m.getLsbD 3 = f.z16.getD (e.w.mode.getLsbD 3) ∧ m.getLsbD 4 = f.z32.getD (e.w.mode.getLsbD 4)
        ∧ m.getLsbD 5 = f.z64.getD (e.w.mode.getLsbD 5) ∧ m.toNat < 64))
  ∧ ∀ code : BitVec 32, s.flag (.dbgctl e.t.ctx) 0 = false → exec (.brk h code) s = .next s

/-- Where a branch or return goes in a state, if it is taken (R101, R102): its guard and its targets. -/
def branchOf (s : State) (e : Env) : Instr → Option (Head × (Nat → Nat))
  | .br h .always disp => some (h, fun _ => e.dispTarget disp)
  | .br h (.nz a) disp => if e.usrc s e.p.lanes a = 0 then none else some (h, fun _ => e.dispTarget disp)
  | .br h (.z a) disp => if e.usrc s e.p.lanes a = 0 then some (h, fun _ => e.dispTarget disp) else none
  | .bri h a => some (h, fun l => e.regTarget s l a)
  | .ret h a => some (h, fun l => e.regTarget s l a)
  | _ => none

/-- Branches and returns (R101, R102): where every target is a branch target, the executing threads go there and
nothing else of the state that the target tests leave changes; a br whose condition does not hold does nothing. -/
def branchesHolds : Prop := ∀ s e, Issuing s e →
  (∀ i h tgt s1, branchOf s e i = some (h, tgt) → s.testTargets e tgt (lanesOf (e.guard h)) = (s1, []) →
    exec i s = .next { s1.setWave (e.w.each (e.guard h) fun l th => { th with pc := tgt l }) with
      iss := some { e.p with moved := e.p.moved ||| e.guard h } })
  ∧ ∀ h c disp, branchOf s e (.br h c disp) = none → exec (.br h c disp) s = .next s

/-- Calls (R103): the executing threads go to the target, and the slot after the issue is the link, in each
thread's v register or in the s register. -/
def callsHolds : Prop := ∀ s e, Issuing s e → ∀ (h : Head) (d : Opd) (disp : BitVec 32) (a : Opd),
  ∀ p ∈ [(Instr.call h d disp, fun _ => e.dispTarget disp), (Instr.calli h d a, fun l => e.regTarget s l a)],
  e.guard h ≠ 0 →
  (∀ r s1, d = .v r → VDeclared e d 1 → s.testTargets e p.2 (lanesOf (e.guard h)) = (s1, []) →
    ∃ t w, exec p.1 s = .next t ∧ SameBesideWave { s1 with iss := t.iss } t e.w.id
      ∧ t.iss = some { e.p with moved := e.p.moved ||| e.guard h }
      ∧ t.wave? e.w.id = some w ∧ { w with threads := e.w.threads } = e.w
      ∧ ∀ l, l < e.w.width → w.th l = if (e.guard h).getLsbD l
          then { (e.w.th l).setV r.val false e.p.next with pc := p.2 l } else e.w.th l)
  ∧ ∀ r s1, d = .s r → SDeclared e d →
    (s.putS e.w e.p.lanes d (BitVec.ofNat 64 e.p.next)).testTargets e p.2 (lanesOf (e.guard h)) = (s1, []) →
    ∃ t, exec p.1 s = .next t ∧ t.sreg e.w.id r.val = BitVec.ofNat 64 e.p.next
      ∧ t.iss = some { e.p with moved := e.p.moved ||| e.guard h }
      ∧ ∃ w, t.wave? e.w.id = some w ∧ ∀ l, l < e.w.width →
          w.th l = if (e.guard h).getLsbD l then { e.w.th l with pc := p.2 l } else e.w.th l

/-- loop (R104): a thread whose count is not zero takes a level with COUNT one less, the length of the loop
and its end slot; a thread whose count is zero goes on after the end. -/
def loopsHolds : Prop := ∀ s e, Issuing s e → ∀ (h : Head) (c : LoopCount) (n : BitVec 20) (x skip : BitVec 64),
  x = e.guard h → skip = (maskOf fun l => x.getLsbD l && e.loopN s l c == 0) →
  e.p.slot + n.toNat < e.k.hdr.slots →
  (∀ l, x.getLsbD l = true → skip.getLsbD l = false → (e.w.th l).depth < 4) →
  let w1 := e.w.each (x &&& ~~~skip) fun l th =>
    { th with
      loops := th.loops.set th.depth
        (BitVec.ofNat 64 (e.loopN s l c - 1 + (e.p.slot + n.toNat - e.p.next) * 2 ^ 32 + 2 ^ 52))
      lends := th.lends.set th.depth (BitVec.ofNat 64 (e.p.slot + n.toNat)) }
  (skip = 0 → exec (.loop h c n) s = .next (s.setWave w1))
  ∧ ∀ s1, skip ≠ 0 → s.testTargets e (fun _ => e.p.slot + n.toNat + 1) (lanesOf skip) = (s1, []) →
    exec (.loop h c n) s = .next { s1.setWave (w1.each skip fun _ th => { th with pc := e.p.slot + n.toNat + 1 }) with
      iss := some { e.p with moved := e.p.moved ||| skip } }

/-- cont (R108): the executing threads leave for the resume slot, where their target is a branch target; a helper
thread only ends. The timeout of a park (R112): the thread is released when its clock is reached, and not before; a
released thread is ready at its next slot, unless its pair has another member to wait for (R47). -/
def leavingAndTimeoutHolds : Prop :=
  (∀ s e, Issuing s e → ∀ (h : Head) (disp : BitVec 32) s1,
    s.testTargets e (fun _ => e.dispTarget disp) (lanesOf (e.guard h)) = (s1, []) →
    exec (.cont h disp) s = .next (s1.setWave (e.w.each (e.guard h) fun _ th =>
      { th with run := .leaving (if th.helper then .exit else .cont (e.dispTarget disp) e.p.mode.toNat) })))
  ∧ (∀ (s : State) (r : ThreadRef) w due, s.waveAt? r.core r.wslot = some w → w.halted = false →
    (w.th r.lane).run = .wait (.park (some due)) →
    (due ≤ s.tick → exec (.parkTimeout r) s = .next (s.setWave (w.each (1#64 <<< r.lane) fun _ th =>
      th.release s.tick)))
    ∧ (s.tick < due → exec (.parkTimeout r) s = .fault .notEnabled))
  ∧ ∀ (th : Thread) (tick : Nat), th.release tick = if th.after = .ready then
        { th with
          run := if th.swAfter then .marker else .ready
          swAfter := false
          pc := th.next
          since := tick }
      else { th with
        run := th.after
        after := .ready }

/-- sysc and sysc.wait (R114): a request is outstanding for the executing threads that are no helpers, and is
appended after their earlier accesses; the queued form reserves its reply elements, the waiting form leaves a result
outstanding in each of those threads. With no such thread they do nothing. -/
def calls4Holds : Prop := ∀ s e, Issuing s e → ∀ x : Sysc,
  (e.real (e.guard x.h) = 0 → exec (.sysc x) s = .next s ∧ exec (.syscWait x) s = .next s)
  ∧ (e.real (e.guard x.h) ≠ 0 → s.callRoom e.t.ctx = true →
    (∀ n, x.d = .q n → (e.k.q n.val).kind = 4 → x.nrep.toNat ≤ (e.k.q n.val).free →
      exec (.sysc x) s = .next
        { (s.setWave (e.w.push (e.request s x (e.real (e.guard x.h))))).setCrew { e.k with
            qs := e.k.qs.set n.val { e.k.q n.val with
              elems := (e.k.q n.val).elems ++ List.replicate x.nrep.toNat (s.callToken, none) } } with
          nextId := s.nextId + 1 })
    ∧ ∀ n, x.d = .v n → ∃ w, exec (.syscWait x) s = .next { s.setWave w with nextId := s.nextId + 1 }
      ∧ { w with out := e.w.out } = e.w
      ∧ w.out = e.w.out ++ e.request s x (e.real (e.guard x.h)) :: (lanesOf (e.real (e.guard x.h))).map fun l =>
          { lanes := 1#64 <<< l, lane := l, slot := e.p.slot, issue := 0, i := .syscWait x, a := 0, b := 0,
            c := BitVec.ofNat 128 s.callToken, ext := [], dst := .v n, done := false, flags := 0,
            taint := false, wait := none, toks := [], since := 0 })

/-- trap (R117): with a thread that executes it and is no helper, SOFTWARE is taken with the code, charged to the
lowest such thread; else it does nothing. brk with debugging on (R118) takes BREAKPOINT, unless the wave is resumed
at this brk. -/
def Obligations.Traps : Prop := ∀ s e, Issuing s e → ∀ (h : Head) (code : BitVec 32),
  (e.real (e.guard h) = 0 → exec (.trap h code) s = .next s ∧ exec (.brk h code) s = .next s)
  ∧ (e.real (e.guard h) ≠ 0 →
    exec (.trap h code) s = .next (s.takeFault e.w e.p.lanes e.p.slot
      { cause := .software, lane := some (lowLane (e.real (e.guard h))), aux0 := code.setWidth 64 }).stopIssue)
  ∧ (e.real (e.guard h) ≠ 0 → s.flag (.dbgctl e.t.ctx) 0 = true →
    (e.w.brkPass = some e.p.slot → exec (.brk h code) s = .next (s.setWave { e.w with brkPass := none }))
    ∧ (e.w.brkPass ≠ some e.p.slot → exec (.brk h code) s = .next (s.takeFault e.w e.p.lanes e.p.slot
      { cause := .breakpoint, lane := some (lowLane (e.real (e.guard h))), aux0 := code.setWidth 64 }).stopIssue))

/-- Reads of special registers (R24, R119): the destination takes each thread's value, and an s destination that of
the lowest executing thread; %ctx and %vbase may be read by privileged code only, and stop others with PROTECTION. The
reads that are logged (R25) are stated where neither logging nor replay is on. -/
def specialReadsHolds : Prop := ∀ s e, Issuing s e → ∀ (h : Head) (d : Opd) (r : SReg),
  (¬(r = .ctx ∨ r = .vbase) ∨ e.t.prv = true →
    ¬(r = .tick ∨ r = .core ∨ r = .cluster ∨ r = .die) ∨ (s.logging e.t.ctx = false ∧ s.replaying e.t.ctx = false) →
    (∀ n, d = .v n → VDeclared e d (if r.wide then 2 else 1) →
      ∃ t, exec (.rdsr h d r) s = .next t ∧ VResult s t e (e.guard h) 0 d r.wide fun l =>
        if r = .tick ∨ r = .core ∨ r = .cluster ∨ r = .die then e.srVal s (lowLane (e.guard h)) r else e.srVal s l r)
    ∧ ∀ n, d = .s n → SDeclared e d → ∃ t, exec (.rdsr h d r) s = .next t
        ∧ SResult s t e (e.guard h != 0) d (BitVec.ofNat 64 (e.srVal s (lowLane (e.guard h)) r)))
  ∧ (r = .ctx ∨ r = .vbase → e.t.prv = false → e.real (e.guard h) ≠ 0 → exec (.rdsr h d r) s =
      .next (s.takeFault e.w e.p.lanes e.p.slot
        { cause := .protection, lane := some (lowLane (e.real (e.guard h))) }).stopIssue)

/-- What the special registers hold (R24 to R32), in the words of the state. -/
def specialValuesHolds : Prop := ∀ (s : State) (e : Env) (l : Nat),
  e.srVal s l .lane = l ∧ e.srVal s l .tid = (e.w.th l).tid.toNat ∧ e.srVal s l .wave = e.w.idx
  ∧ e.srVal s l .crew = e.k.idx ∧ e.srVal s l .task = e.t.name.toNat ∧ e.srVal s l .wavew = e.w.width
  ∧ e.srVal s l .core + 8 * e.srVal s l .cluster + 64 * e.srVal s l .die = e.w.core
  ∧ e.srVal s l .pix = (e.w.th l).pix.toNat ∧ e.srVal s l .fflags = e.w.fflags.toNat
  ∧ e.srVal s l .mode = e.w.mode.toNat ∧ e.srVal s l .mfmt = e.k.mfmt.toNat ∧ e.srVal s l .tick = s.tick % 2 ^ 64
  ∧ e.srVal s l .rngk + 2 ^ 64 * e.srVal s l .rngkh = (e.w.th l).rngk.toNat
  ∧ e.srVal s l .rngc + 2 ^ 64 * e.srVal s l .rngch = (e.w.th l).rngc.toNat
  ∧ (∀ n : Fin 4, e.srVal s l (.loopN n) = (getAt (e.w.th l).loops n.val 0).toNat
    ∧ e.srVal s l (.lendN n) = (getAt (e.w.th l).lends n.val 0).toNat)
  ∧ (∀ n, (BitVec.ofNat 64 (e.srVal s l .helper)).getLsbD n =
    (decide (n < 64) && decide (n < e.w.width) && ((e.w.th n).helper || (e.w.th n).run == .ended)))
  ∧ e.srVal s l .priv = (if e.t.prv then 1 else 0) ∧ e.srVal s l .vbase = (s.ctx e.t.ctx).vbase.toNat

/-- Writes of special registers (R24, R120), where every executing thread's value meets the register's field checks:
%fflags and %mode take the value of the lowest one; privileged code writes %pix, the loop registers and %vbase, which
stops other code with PROTECTION. -/
def Obligations.SpecialWrites : Prop := ∀ s e, Issuing s e → ∀ (h : Head) (a : Opd),
  let v := e.src s (lowLane (e.guard h)) true a
  (e.guard h ≠ 0 → (∀ l, (e.guard h).getLsbD l = true → e.src s l true a < 32) →
    exec (.wrsr h .fflags a) s = .next (s.setWave { e.w with fflags := BitVec.ofNat 64 v }))
  ∧ (e.guard h ≠ 0 → (∀ l, (e.guard h).getLsbD l = true →
      e.src s l true a < 64 ∧ e.src s l true a % 8 ≠ 0 ∧ e.src s l true a % 8 ≠ 7) →
    exec (.wrsr h .mode a) s = .next (s.setWave { e.w with mode := BitVec.ofNat 64 v }))
  ∧ (e.t.prv = true →
    (∀ n : Fin 4, (∀ l, (e.guard h).getLsbD l = true → e.src s l true a < 2 ^ 53) →
      (∃ t, exec (.wrsr h (.loopN n) a) s = .next t ∧ ThreadsResult s t e (e.guard h) fun l th =>
        { th with loops := th.loops.set n.val (BitVec.ofNat 64 (e.src s l true a)) })
      ∧ ∃ t, exec (.wrsr h (.lendN n) a) s = .next t ∧ ThreadsResult s t e (e.guard h) fun l th =>
        { th with lends := th.lends.set n.val (BitVec.ofNat 64 (e.src s l true a)) })
    ∧ ((∀ l, (e.guard h).getLsbD l = true → e.src s l true a < 2 ^ 33) →
      ∃ t, exec (.wrsr h .pix a) s = .next t ∧ ThreadsResult s t e (e.guard h) fun l th =>
        { th with pix := BitVec.ofNat 64 (e.src s l true a) })
    ∧ (e.guard h ≠ 0 → (∀ l, (e.guard h).getLsbD l = true →
        bitsOf (e.src s l true a) 1 15 = 0 ∧ e.src s l true a / 2 ^ 56 ≤ 40) →
      exec (.wrsr h .vbase a) s = .next ((s.setWave e.w).setCtx e.t.ctx
        { s.ctx e.t.ctx with vbase := BitVec.ofNat 64 v })))
  ∧ (e.t.prv = false → e.real (e.guard h) ≠ 0 → exec (.wrsr h .vbase a) s =
      .next (s.takeFault e.w e.p.lanes e.p.slot
        { cause := .protection, lane := some (lowLane (e.real (e.guard h))) }).stopIssue)

/-- tenq (R122): one access is outstanding for each task record, in lane order, and a record that is not
128-byte aligned is MISALIGNED. -/
def enqueueHolds : Prop := ∀ s e, Issuing s e → ∀ (h : Head) (a : Opd) (ls : List Nat),
  ls = (match a with
    | .s _ => (lanesOf (e.real (e.guard h))).take 1
    | _ => lanesOf (e.real (e.guard h))) →
  ((∀ l ∈ ls, e.src s l true a % 128 = 0) → ∃ w, exec (.tenq h a) s = .next (s.setWave w)
    ∧ { w with out := e.w.out } = e.w
    ∧ w.out = e.w.out ++ ls.map fun l =>
      { lanes := if a.isS then e.real (e.guard h) else 1#64 <<< l, lane := l, slot := e.p.slot, issue := 0,
        i := .tenq h a, a := BitVec.ofNat 128 (e.src s l true a), b := 0, c := 0, ext := [], dst := .zero, done := false,
        flags := 0, taint := false, wait := none, toks := [], since := 0 })
  ∧ ∀ l, ls.find? (fun l => e.src s l true a % 128 != 0) = some l → exec (.tenq h a) s =
    .next (s.takeFault e.w e.p.lanes e.p.slot
      { cause := .misaligned, lane := some l, addr := BitVec.ofNat 64 (e.src s l true a) }).stopIssue

/-! ## Uniform arithmetic (spec/04 R124) -/

/-- A uniform result of the integer v in a type (R124): w bits, sign- or zero-extended to 64. -/
def uniformInt (t : Ty) (v : Int) : Dword :=
  if t.bits = 64 then BitVec.ofInt 64 v
  else if t.signed then (BitVec.ofInt 32 v).signExtend 64 else (BitVec.ofInt 32 v).setWidth 64

/-- The integer that the low bits of a source stand for in a type (R76). -/
def valueIn (t : Ty) (x : Nat) : Int := if t.signed then (BitVec.ofNat t.bits x).toInt else (BitVec.ofNat t.bits x).toNat

/-- The two-source uniform instructions and what each computes of its sources in a type (R124, R77). -/
def uniformBinary : List ((UBin → Instr) × (Ty → Nat → Nat → Int)) :=
  [(.sadd, fun t a b => valueIn t a + valueIn t b), (.ssub, fun t a b => valueIn t a - valueIn t b),
   (.smul, fun t a b => valueIn t a * valueIn t b), (.smulh, fun t a b => valueIn t a * valueIn t b / 2 ^ t.bits),
   (.sdiv, fun t a b => if valueIn t b = 0 then -1 else (valueIn t a).tdiv (valueIn t b)),
   (.srem, fun t a b => if valueIn t b = 0 then valueIn t a else (valueIn t a).tmod (valueIn t b)),
   (.sand, fun _ a b => ((a &&& b : Nat) : Int)), (.sor, fun _ a b => ((a ||| b : Nat) : Int)),
   (.sxor, fun _ a b => ((a ^^^ b : Nat) : Int)),
   (.sshl, fun _ a b => ((a * 2 ^ (b % 256) : Nat) : Int)),
   (.sshr, fun t a b => ((a % 2 ^ t.bits / 2 ^ (b % 256) : Nat) : Int)),
   (.ssra, fun t a b => valueIn t a / 2 ^ (b % 256)),
   (.smin, fun t a b => min (valueIn t a) (valueIn t b)), (.smax, fun t a b => max (valueIn t a) (valueIn t b))]

/-- Two-source uniform instructions of 32 and 64 bits (R123, R124, R126): the result in its s register, once per
issue, where a thread executes; nothing else changes. -/
def Obligations.UniformArithmetic : Prop := ∀ s e, Issuing s e → ∀ p ∈ uniformBinary, ∀ x : UBin,
  (x.ty.bits = 32 ∨ x.ty.bits = 64) → SDeclared e x.d →
  ∃ t, exec (p.1 x) s = .next t ∧ SResult s t e (e.guard x.h != 0) x.d
    (uniformInt x.ty (p.2 x.ty (e.usrc s e.p.lanes x.a).toNat (match x.b with
      | .reg o => (e.usrc s e.p.lanes o).toNat
      | .imm i => (i.signExtend 64).toNat)))

/-- Whether a comparison holds (R124, R130). -/
def holds : CmpOp → Int → Int → Bool
  | .eq, a, b => decide (a = b)
  | .ne, a, b => decide (a ≠ b)
  | .lt, a, b => decide (a < b)
  | .le, a, b => decide (a ≤ b)
  | .gt, a, b => decide (a > b)
  | .ge, a, b => decide (a ≥ b)

/-- smov, sli, ssel, sbfe and spop into an s register, and smov and scmp into an s or a k register (R124). -/
def Obligations.UniformMoves : Prop := ∀ s e, Issuing s e → ∀ h : Head,
  let u (o : Opd) : Dword := e.usrc s e.p.lanes o
  (∀ n a, SDeclared e (.s n) → ∃ t, exec (.smov h (.s n) a) s = .next t
    ∧ SResult s t e (e.guard h != 0) (.s n) (u a))
  ∧ (∀ n a, ∃ t, exec (.smov h (.k n) a) s = .next t
    ∧ KResult s t e (e.guard h) 0 (.k n) fun l => (u a).getLsbD l)
  ∧ (∀ n i, SDeclared e (.s n) → ∀ o : SliOp, ∃ t, exec (.sli h o (.s n) i) s = .next t
    ∧ SResult s t e (e.guard h != 0) (.s n) (match o with
      | .sx => i.signExtend 64
      | .zx => i.setWidth 64
      | .hi => i ++ (u (.s n)).setWidth 32))
  ∧ (∀ n a b c, SDeclared e (.s n) → ∃ t, exec (.ssel h (.s n) a b c) s = .next t
    ∧ SResult s t e (e.guard h != 0) (.s n) (if u c = 0 then u b else u a))
  ∧ (∀ n ty a (start : BitVec 6) (len : BitVec 7), SDeclared e (.s n) → 1 ≤ len.toNat → len.toNat ≤ 64 →
    ∃ t, exec (.sbfe h ty (.s n) a start len) s = .next t ∧ SResult s t e (e.guard h != 0) (.s n)
      (if ty.signed then (((u a) >>> start.toNat).setWidth len.toNat).signExtend 64
       else (((u a) >>> start.toNat).setWidth len.toNat).setWidth 64))
  ∧ (∀ n ty a, SDeclared e (.s n) → (ty = .b32 ∨ ty = .b64) → ∀ o : SpopOp,
    ∃ t r, exec (.spop h o ty (.s n) a) s = .next t ∧ SResult s t e (e.guard h != 0) (.s n) (BitVec.ofNat 64 r)
      ∧ r ≤ ty.bits ∧ match o with
        | .popc => r = ((List.range ty.bits).filter fun i => (u a).getLsbD i).length
        | .clz => (∀ i, i < r → (u a).getLsbD (ty.bits - 1 - i) = false)
          ∧ (r < ty.bits → (u a).getLsbD (ty.bits - 1 - r) = true)
        | .ctz => (∀ i, i < r → (u a).getLsbD i = false) ∧ (r < ty.bits → (u a).getLsbD r = true))
  ∧ ∀ (o : CmpOp) (x : UBin), x.h = h → (x.ty.bits = 32 ∨ x.ty.bits = 64) →
    let c := holds o (valueIn x.ty (u x.a).toNat) (valueIn x.ty (match x.b with
      | .reg b => (u b).toNat
      | .imm i => (i.signExtend 64).toNat))
    (∀ n, x.d = .k n → ∃ t, exec (.scmp o x) s = .next t ∧ KResult s t e (e.guard h) 0 x.d fun _ => c)
    ∧ ∀ n, x.d = .s n → SDeclared e x.d → ∃ t, exec (.scmp o x) s = .next t
      ∧ SResult s t e (e.guard h != 0) x.d (if c then 1 else 0)

/-! ## Vector integers (spec/05 R130 to R134) -/

/-- Source B of an integer instruction in a lane (R127, R128). -/
def secondOf (s : State) (e : Env) (l : Nat) (t : Ty) : Src32 → Nat
  | .reg o => e.src s l (t.bits == 64) o
  | .imm i => if t.bits = 64 then (i.signExtend 64).toNat else i.toNat

/-- Source B of a form with a third source (R128). -/
def secondOf22 (s : State) (e : Env) (l : Nat) (t : Ty) : Src22 → Nat
  | .reg o => e.src s l (t.bits == 64) o
  | .imm i => if t.bits = 64 then (i.signExtend 64).toNat else (i.signExtend 32).toNat

/-- The range of an integer type (R76). -/
def lowest (t : Ty) : Int := if t.signed then -(2 ^ (t.bits - 1)) else 0

def highest (t : Ty) : Int := if t.signed then 2 ^ (t.bits - 1) - 1 else 2 ^ t.bits - 1

/-- The bits of an integer result in its type (R77): clamped to the range under SAT, else wrapped. -/
def resultBits (t : Ty) (sat : Bool) (v : Int) : Nat :=
  (BitVec.ofInt t.bits (if sat then max (lowest t) (min (highest t) v) else v)).toNat

/-- A scalar result in its register (R62): i8 and i16 are sign-extended to 32 bits, the others zero-extended. -/
def inRegister (t : Ty) (x : Nat) : Nat :=
  if t = .i8 then ((BitVec.ofNat 8 x).signExtend 32).toNat
  else if t = .i16 then ((BitVec.ofNat 16 x).signExtend 32).toNat else x

/-- SAT of a modifier. -/
def saturates (m : Option Modifier) : Bool := (m.map (·.sat)).getD false

/-- The integer instructions with packed forms, and the bits each computes of two elements (R130). -/
def integerPacked : List ((VBin → Instr) × (Ty → Bool → Nat → Nat → Nat)) :=
  [(.add, fun t sat a b => resultBits t sat (valueIn t a + valueIn t b)),
   (.sub, fun t sat a b => resultBits t sat (valueIn t a - valueIn t b)),
   (.mul, fun t sat a b => resultBits t sat (valueIn t a * valueIn t b)),
   (.min, fun t _ a b => resultBits t false (min (valueIn t a) (valueIn t b))),
   (.max, fun t _ a b => resultBits t false (max (valueIn t a) (valueIn t b)))]

/-- The integer instructions without packed forms (R130, R132, R77). -/
def integerScalar : List ((VBin → Instr) × (Ty → Bool → Nat → Nat → Nat)) :=
  [(.mulh, fun t _ a b => resultBits t false (valueIn t a * valueIn t b / 2 ^ t.bits)),
   (.div, fun t sat a b => if valueIn t b = 0 then 2 ^ t.bits - 1
      else resultBits t sat ((valueIn t a).tdiv (valueIn t b))),
   (.rem, fun t _ a b => resultBits t false
      (if valueIn t b = 0 then valueIn t a else (valueIn t a).tmod (valueIn t b))),
   (.and, fun t _ a b => (a &&& b) % 2 ^ t.bits), (.or, fun t _ a b => (a ||| b) % 2 ^ t.bits),
   (.xor, fun t _ a b => (a ^^^ b) % 2 ^ t.bits),
   (.shl, fun t _ a b => a * 2 ^ (b % 256) % 2 ^ t.bits), (.shr, fun t _ a b => a % 2 ^ t.bits / 2 ^ (b % 256)),
   (.sra, fun t _ a b => resultBits t false (valueIn t a / 2 ^ (b % 256))),
   (.rot false, fun t _ a b => ((BitVec.ofNat t.bits a).rotateLeft (b % 256)).toNat),
   (.rot true, fun t _ a b => ((BitVec.ofNat t.bits a).rotateRight (b % 256)).toNat)]

/-- Types of one element whose width is 8, 16, 32 or 64 (R61). -/
def scalarInt (t : Ty) : Prop := t ∈ [Ty.i8, .i16, .i32, .i64, .n8, .n16, .n32, .n64, .b32, .b64]

/-- Two-source integer instructions on scalars (R130): each executing thread's result from its own sources. -/
def integerScalarsHolds : Prop := ∀ s e, Issuing s e → ∀ (p : (VBin → Instr) × (Ty → Bool → Nat → Nat → Nat))
  (x : VBin), scalarInt x.ty → (p ∈ integerPacked ∨ (p ∈ integerScalar ∧ (x.ty.bits = 32 ∨ x.ty.bits = 64))) →
  VDeclared e x.d (if x.ty.bits = 64 then 2 else 1) →
  ∃ t, exec (p.1 x) s = .next t
    ∧ VResult s t e (e.exec x.h x.mod) (e.zeroed x.h x.mod) x.d (x.ty.bits == 64) fun l =>
      inRegister x.ty (p.2 x.ty (saturates x.mod) (e.src s l (x.ty.bits == 64) x.a) (secondOf s e l x.ty x.b))

/-- Packed integers (R62, R129, R130): byte i of the result is computed of bytes i of the sources. -/
def integerPackedHolds : Prop := ∀ s e, Issuing s e → ∀ p ∈ integerPacked, ∀ x : VBin,
  ∀ t ∈ [(Ty.i8x4, Ty.i8), (.n8x4, .n8)], x.ty = t.1 → VDeclared e x.d 1 →
  ∃ u, exec (p.1 x) s = .next u
    ∧ VResult s u e (e.exec x.h x.mod) (e.zeroed x.h x.mod) x.d false fun l =>
      let a := e.src s l false x.a
      let b := secondOf s e l x.ty x.b
      let r (i : Nat) : Nat := p.2 t.2 (saturates x.mod) (a / 2 ^ (8 * i) % 256) (b / 2 ^ (8 * i) % 256)
      r 0 + 2 ^ 8 * r 1 + 2 ^ 16 * r 2 + 2 ^ 24 * r 3

/-- abs, popc, clz, ctz and brev (R130). -/
def integerUnaryHolds : Prop := ∀ s e, Issuing s e → ∀ x : VUn,
  let a (l : Nat) : Nat := e.src s l (x.ty.bits == 64) x.a
  let out (i : Instr) (wide : Bool) (f : Nat → Nat) : Prop := ∃ t, exec i s = .next t
    ∧ VResult s t e (e.exec x.h x.mod) (e.zeroed x.h x.mod) x.d wide f
  (x.ty ∈ [Ty.i8, .i16, .i32, .i64] → VDeclared e x.d (if x.ty.bits = 64 then 2 else 1) →
    out (.abs x) (x.ty.bits == 64) fun l =>
      inRegister x.ty (resultBits x.ty (saturates x.mod) (valueIn x.ty (a l)).natAbs))
  ∧ (x.ty = .b32 ∨ x.ty = .b64 →
    (VDeclared e x.d 1 →
      out (.popc x) false (fun l => ((List.range x.ty.bits).filter fun i => (a l).testBit i).length)
      ∧ (∃ f, out (.clz x) false f ∧ ∀ l, f l ≤ x.ty.bits
        ∧ (∀ i, i < f l → (a l).testBit (x.ty.bits - 1 - i) = false)
        ∧ (f l < x.ty.bits → (a l).testBit (x.ty.bits - 1 - f l) = true))
      ∧ ∃ f, out (.ctz x) false f ∧ ∀ l, f l ≤ x.ty.bits ∧ (∀ i, i < f l → (a l).testBit i = false)
        ∧ (f l < x.ty.bits → (a l).testBit (f l) = true))
    ∧ (VDeclared e x.d (if x.ty.bits = 64 then 2 else 1) →
      ∃ f, out (.brev x) (x.ty.bits == 64) f ∧ ∀ l i, i < 64 →
        (f l).testBit i = (decide (i < x.ty.bits) && (a l).testBit (x.ty.bits - 1 - i))))

/-- mad, lop3, sel and the carry chains addc and subb (R130, R131). -/
def Obligations.IntegerTernary : Prop := ∀ s e, Issuing s e →
  let wide (t : Ty) : Bool := t.bits == 64
  let words (t : Ty) : Nat := if t.bits = 64 then 2 else 1
  (∀ x : VTer, x.ty ∈ [Ty.i32, .i64, .n32, .n64] → VDeclared e x.d (words x.ty) →
    ∃ t, exec (.mad x) s = .next t ∧ VResult s t e (e.exec x.h x.mod) (e.zeroed x.h x.mod) x.d (wide x.ty) fun l =>
      resultBits x.ty (saturates x.mod) (valueIn x.ty (e.src s l (wide x.ty) x.a)
        * valueIn x.ty (secondOf22 s e l x.ty x.b) + valueIn x.ty (e.src s l (wide x.ty) x.c)))
  ∧ (∀ (lut : BitVec 8) (x : VTri), (x.ty = .b32 ∨ x.ty = .b64) → VDeclared e x.d (words x.ty) →
    ∃ t f, exec (.lop3 lut x) s = .next t
      ∧ VResult s t e (e.exec x.h x.mod) (e.zeroed x.h x.mod) x.d (wide x.ty) f
      ∧ ∀ l i, i < x.ty.bits → (f l).testBit i =
        lut.getLsbD (4 * ((e.src s l (wide x.ty) x.a).testBit i).toNat
          + 2 * ((e.src s l (wide x.ty) x.b).testBit i).toNat + ((e.src s l (wide x.ty) x.c).testBit i).toNat))
  ∧ (∀ x : VTer, (x.ty = .b32 ∨ x.ty = .b64) → VDeclared e x.d (words x.ty) →
    ∃ t, exec (.sel x) s = .next t ∧ VResult s t e (e.exec x.h x.mod) (e.zeroed x.h x.mod) x.d (wide x.ty) fun l =>
      if (match x.c with
        | .k n => (e.kreg s n.val).getLsbD l
        | o => decide (e.src s l false o ≠ 0)) then e.src s l (wide x.ty) x.a else secondOf22 s e l x.ty x.b)
  ∧ ∀ x : VCarry, (x.ty = .n32 ∨ x.ty = .n64) → VDeclared e x.d (words x.ty) →
    let a (l : Nat) : Nat := e.src s l (wide x.ty) x.a % 2 ^ x.ty.bits
    let b (l : Nat) : Nat := e.src s l (wide x.ty) x.b % 2 ^ x.ty.bits
    let cin (l : Nat) : Nat := match x.c with
      | .k n => ((e.kreg s n.val).getLsbD l).toNat
      | _ => 0
    ∀ p ∈ [(Instr.addc x, (fun l => (a l + b l + cin l) % 2 ^ x.ty.bits), fun l => decide (2 ^ x.ty.bits ≤ a l + b l + cin l)),
        (Instr.subb x, (fun l => (a l + 2 ^ x.ty.bits - (b l + cin l) % 2 ^ x.ty.bits) % 2 ^ x.ty.bits),
          fun l => decide (a l < b l + cin l))],
    ∃ t u, exec p.1 s = .next t
      ∧ VResult s u e (e.exec x.h x.mod) (e.zeroed x.h x.mod) x.d (wide x.ty) p.2.1
      ∧ ∃ w, u.wave? e.w.id = some w ∧ KResult u t { e with w := w } (e.exec x.h x.mod) (e.zeroed x.h x.mod) (.k x.kout) p.2.2

/-- bfe and bfi (R132). -/
def bitFieldsHolds : Prop := ∀ s e, Issuing s e →
  (∀ x : VBin, x.ty ∈ [Ty.n32, .i32, .n64, .i64] → VDeclared e x.d (if x.ty.bits = 64 then 2 else 1) →
    ∃ t f, exec (.bfe x) s = .next t
      ∧ VResult s t e (e.exec x.h x.mod) (e.zeroed x.h x.mod) x.d (x.ty.bits == 64) f
      ∧ ∀ l, let a := e.src s l (x.ty.bits == 64) x.a
        let b := secondOf s e l x.ty x.b
        let n := min (b / 256 % 256) x.ty.bits
        ∀ i, i < x.ty.bits → (f l).testBit i =
          if i < n then decide (b % 256 + i < x.ty.bits) && a.testBit (b % 256 + i)
          else x.ty.signed && decide (0 < n) && decide (b % 256 + n ≤ x.ty.bits) && a.testBit (b % 256 + n - 1))
  ∧ ∀ x : VTer, (x.ty = .b32 ∨ x.ty = .b64) → VDeclared e x.d (if x.ty.bits = 64 then 2 else 1) →
    ∃ t f, exec (.bfi x) s = .next t
      ∧ VResult s t e (e.exec x.h x.mod) (e.zeroed x.h x.mod) x.d (x.ty.bits == 64) f
      ∧ ∀ l, let b := secondOf22 s e l x.ty x.b
        let n := min (b / 256 % 256) x.ty.bits
        ∀ i, i < x.ty.bits → (f l).testBit i =
          if b % 256 ≤ i ∧ i < b % 256 + n then (e.src s l (x.ty.bits == 64) x.a).testBit (i - b % 256)
          else (e.src s l (x.ty.bits == 64) x.c).testBit i

/-- dot4 (R134): the exact sum of four products and C, clamped to 32 bits under SAT, else wrapped. -/
def dotProductHolds : Prop := ∀ s e, Issuing s e → ∀ (mix : Bool) (x : VTer),
  ∀ p ∈ [(Ty.i8x4, Ty.i8, Ty.n8), (.n8x4, .n8, .i8)], x.ty = p.1 → VDeclared e x.d 1 →
  ∃ t, exec (.dot4 mix x) s = .next t ∧ VResult s t e (e.exec x.h x.mod) (e.zeroed x.h x.mod) x.d false fun l =>
    let a := e.src s l false x.a
    let b := secondOf22 s e l x.ty x.b
    let tb := if mix then p.2.2 else p.2.1
    let prod (i : Nat) : Int := valueIn p.2.1 (a / 2 ^ (8 * i)) * valueIn tb (b / 2 ^ (8 * i))
    let v : Int := (BitVec.ofNat 32 (e.src s l false x.c)).toInt + prod 0 + prod 1 + prod 2 + prod 3
    (BitVec.ofInt 32 (if saturates x.mod then max (-(2 ^ 31)) (min (2 ^ 31 - 1) v) else v)).toNat

/-- cmp (R133): each executing thread's bit of the mask register. -/
def comparisonsHolds : Prop := ∀ s e, Issuing s e → ∀ (o : CmpOp) (x : VBin), scalarInt x.ty →
  ∃ t, exec (.cmp o x) s = .next t ∧ KResult s t e (e.exec x.h x.mod) (e.zeroed x.h x.mod) x.d fun l =>
    holds o (valueIn x.ty (e.src s l (x.ty.bits == 64) x.a)) (valueIn x.ty (secondOf s e l x.ty x.b))

/-! ## Floating point (spec/05 R135 to R142) -/

/-- Registers of a result. -/
def regsOf (t : Ty) : Nat := if t.bits = 64 then 2 else 1

/-- Whether an instruction rounds under RSR, so that it draws (R87). -/
def draws (e : Env) (m : Option Modifier) : Bool := decide (e.rm m = .rsr)

/-- The fixed-latency floating instructions and their results (R135, R136, R137, R139 to R142): sums, differences,
products and fused products of the decoded sources rounded once, the chosen operand of fmin and fmax, rounding to
an integral value, scaling, conversion and the dot products, with their flags and draws. -/
def Obligations.FloatResults : Prop := ∀ s e, Issuing s e →
  let out (i : Instr) (h : Head) (m : Option Modifier) (d : Opd) (t : Ty) (rounds : Bool) (val : Nat → Res) : Prop :=
    VDeclared e d (regsOf t) → ∃ u, exec i s = .next u
      ∧ FResult s u e (e.exec h m) (e.zeroed h m) d (t.bits == 64) (rounds && draws e m) val
  (∀ x : VBin,
    out (.fadd x) x.h x.mod x.d x.ty true (e.f2 s x fun f k a b => fusedSum f k [] [a, b])
    ∧ out (.fsub x) x.h x.mod x.d x.ty true (e.f2 s x fun f k a b => fusedSum f k [] [a, b.negate])
    ∧ out (.fmul x) x.h x.mod x.d x.ty true (e.f2 s x fun f k a b => addFlags (finish f k (a.mul b).1) (a.mul b).2)
    ∧ (∀ nan : Bool, ∀ p ∈ [(Instr.fmin nan x, false), (.fmax nan x, true)],
      out p.1 x.h x.mod x.d x.ty false fun l => eachF x.ty (fun _ v => fminmaxOf (fmtFor x.ty) p.2 nan
        (low (elemOf x.ty).1 (v.getD 0 0)) (low (elemOf x.ty).1 (v.getD 1 0)))
        [e.src s l (x.ty.bits == 64) x.a, e.bF s l x.ty x.b])
    ∧ out (.fscl x) x.h x.mod x.d x.ty true fun l => fsclOf (fmtFor x.ty) (e.fin s l 0 x.mod (fmtFor x.ty))
        ((fmtFor x.ty).decode (flushes e.p.mode (fmtFor x.ty)) (e.src s l (x.ty.bits == 64) x.a))
        (toSigned 32 (e.b32 s l .i32 false x.b)))
  ∧ (∀ (neg sub : Bool) (x : VTer), out (.fma neg sub x) x.h x.mod x.d x.ty true fun l =>
      let dec := (fmtFor x.ty).decode (flushes e.p.mode (fmtFor x.ty))
      eachF x.ty (fun i v => fmaOf (fmtFor x.ty) (e.fin s l i x.mod (fmtFor x.ty)) neg sub (dec (v.getD 0 0))
        (dec (v.getD 1 0)) (dec (v.getD 2 0)))
        [e.src s l (x.ty.bits == 64) x.a, e.bF22 s l x.ty x.b, e.src s l (x.ty.bits == 64) x.c])
  ∧ (∀ x : VUn, out (.frnd x) x.h x.mod x.d x.ty true (e.f1 s x frndOf))
  ∧ (∀ x : Cvt, out (.cvt x) x.h x.mod x.d x.dty (cvtRounds x) (e.cvtRes s x))
  ∧ ∀ (mix : Bool) (x : VTri), out (.fdot mix x) x.h x.mod x.d .f32 true fun l =>
      let ta := (elemOf x.ty).1
      let tb : Ty := if mix then (if ta = .e4m3 then .e5m2 else .e4m3) else ta
      fdotRes .f32 (e.fin s l 0 x.mod .f32) (flushes e.p.mode (fmtFor ta)) ta tb (elemOf x.ty).2
        (e.src s l false x.a) (e.src s l false x.b)
        (Fmt.f32.decode (flushes e.p.mode .f32) (e.src s l false x.c))

/-- The variable-latency floating instructions (R63, R91, R92, R135): each executing thread has a result outstanding,
with its flags; the registers are written when it lands. -/
def Obligations.FloatOutstanding : Prop := ∀ s e, Issuing s e →
  let out (i : Instr) (h : Head) (m : Option Modifier) (d : Opd) (t : Ty) (rounds : Bool) (val : Nat → Res) : Prop :=
    ∃ u, exec i s = .next u ∧ Outstanding s u e i (e.exec h m) (e.zeroed h m) d (regsOf t) (rounds && draws e m)
      fun l => (wordsOf (t.bits == 64) (val l).1, (val l).2)
  (∀ x : VBin, out (.fdiv x) x.h x.mod x.d x.ty true
    (e.f2 s x fun f k a b => addFlags (finish f k (a.div b).1) (a.div b).2))
  ∧ (∀ x : VUn, out (.fsqrt x) x.h x.mod x.d x.ty true (e.f1 s x sqrtOf))
  ∧ ∀ x : VUn, ∀ p ∈ [(Instr.frcp x, SFn.rcp), (.frsq x, .rsq), (.fex2 x, .ex2), (.flg2 x, .lg2), (.fsin x, .sin),
      (.fcos x, .cos)],
    out p.1 x.h x.mod x.d x.ty false fun l => specialOf p.2 x.ty (fmtFor x.ty) (flushes e.p.mode (fmtFor x.ty))
      (low x.ty (e.src s l (x.ty.bits == 64) x.a))

/-- fcmp and fclass (R138, R139): a bit of the mask register for each executing thread; fclass raises no flag. -/
def floatTestsHolds : Prop := ∀ s e, Issuing s e →
  (∀ (mask : BitVec 10) (x : VUn), ∃ t, exec (.fclass mask x) s = .next t
    ∧ KResult s t e (e.exec x.h x.mod) (e.zeroed x.h x.mod) x.d fun l =>
      mask.getLsbD (fclassOf (fmtFor x.ty) (e.src s l (x.ty.bits == 64) x.a)))
  ∧ ∀ (o : FcmpOp) (x : VBin),
    let r (l : Nat) : Bool × Dword :=
      fcmpOf o ((fmtFor x.ty).decode (flushes e.p.mode (fmtFor x.ty)) (e.src s l (x.ty.bits == 64) x.a))
        ((fmtFor x.ty).decode (flushes e.p.mode (fmtFor x.ty)) (e.bF s l x.ty x.b))
    ∃ t w, exec (.fcmp o x) s = .next t ∧ t.wave? e.w.id = some w
      ∧ (∀ b, w.fflags.getLsbD b = (e.w.fflags.getLsbD b || (List.range 64).any fun l =>
        (e.exec x.h x.mod).getLsbD l && !(e.w.th l).helper && (r l).2.getLsbD b))
      ∧ KResult s (t.setWave { w with fflags := e.w.fflags }) e (e.exec x.h x.mod) (e.zeroed x.h x.mod) x.d
        fun l => (r l).1

/-- A finite pattern that is decoded and rounded again gives itself and no flag, in every mode that does not draw
(R71 to R75, R80, R91), for the formats of 8 bits and less. -/
def roundTripSmallHolds : Prop := ∀ f ∈ [Fmt.e5m2, Fmt.e4m3, Fmt.e2m1], ∀ x, x < 2 ^ f.width →
  (f.decode false x).isNan = false → ∀ rm ∈ [Rm.rne, .rtz, .rdn, .rup, .rna],
  finish f ⟨rm, false, false, 0⟩ (f.decode false x) = (x, 0)

/-! ## Cross-lane and mask instructions (spec/05 R143 to R154) -/

/-- A group's result in the destination that its class gives (R147, R151 to R153): bits of a mask register, one
write of an s register, or the v registers of the executing threads. -/
def GroupResult (s t : State) (e : Env) (h : Head) (m : Option Modifier) (d : Opd) (wide : Bool) (bits : Nat → Bool)
    (once : Nat) (per : Nat → Nat) : Prop :=
  match d with
  | .k _ => KResult s t e (e.exec h m) (e.zeroed h m) d bits
  | .s _ => SResult s t e (e.exec h m != 0) d (BitVec.ofNat 64 once)
  | _ => VResult s t e (e.exec h m) (e.zeroed h m) d wide per

/-- vote (R143, R147): over the executing threads that are no helpers. -/
def votesHolds : Prop := ∀ s e, Issuing s e → ∀ (o : VoteOp) (x : VUn),
  VDeclared e x.d (if o = .ballot then 2 else 1) → SDeclared e x.d →
  let con := e.exec x.h x.mod &&& ~~~e.w.helperMask
  let pred (l : Nat) : Bool := con.getLsbD l && match x.a with
    | .k n => (e.kreg s n.val).getLsbD l
    | a => decide (e.src s l false a ≠ 0)
  ∃ t r, exec (.vote o x) s = .next t ∧ GroupResult s t e x.h x.mod x.d (o == .ballot) (fun _ => decide (r ≠ 0)) r (fun _ => r)
    ∧ match o with
      | .any => r = if (List.range 64).any pred then 1 else 0
      | .all => r = if (List.range 64).all (fun l => !con.getLsbD l || pred l) then 1 else 0
      | .ballot => r < 2 ^ 64 ∧ ∀ l, l < 64 → r.testBit l = pred l
      | .eq => r = if (lanesOf con).all (fun l => (lanesOf con).all fun n => e.src s l false x.a == e.src s n false x.a)
          then 1 else 0

/-- kop, kcnt, kfst and kset (R151 to R154). -/
def maskInstructionsHolds : Prop := ∀ s e, Issuing s e →
  let val (o : Opd) : BitVec 64 := e.usrc s e.p.lanes o &&& e.w.all
  (∀ (o : KopOp) (x : KBin), VDeclared e x.d 2 → SDeclared e x.d →
    let r : BitVec 64 := (match o with
      | .and => val x.a &&& val x.b
      | .or => val x.a ||| val x.b
      | .xor => val x.a ^^^ val x.b
      | .andn => val x.a &&& ~~~val x.b
      | .not => ~~~val x.a
      | .mov => val x.a) &&& e.w.all
    ∃ t, exec (.kop o x) s = .next t
      ∧ GroupResult s t e x.h x.mod x.d true (fun l => r.getLsbD l) r.toNat fun _ => r.toNat)
  ∧ (∀ (total : Bool) (x : KUn), VDeclared e x.d 1 → SDeclared e x.d →
    let count (n : Nat) : Nat := ((List.range n).filter fun i => (val x.a).getLsbD i).length
    (∀ n, x.d ≠ .k n) → ∃ t, exec (.kcnt total x) s = .next t
      ∧ GroupResult s t e x.h x.mod x.d false (fun _ => false) (count 64) fun l => if total then count 64 else count l)
  ∧ (∀ (hi : Bool) (x : KUn), VDeclared e x.d 1 → SDeclared e x.d →
    (∀ n, x.d ≠ .k n) → ∃ t n, exec (.kfst hi x) s = .next t
      ∧ GroupResult s t e x.h x.mod x.d false (fun _ => false) n (fun _ => n)
      ∧ if val x.a = 0 then n = e.w.width else (val x.a).getLsbD n = true
        ∧ ∀ i, (val x.a).getLsbD i = true → if hi then i ≤ n else n ≤ i)
  ∧ ∀ (o : KsetOp) (x : KUn), ∃ t, exec (.kset o x) s = .next t
    ∧ KResult s t e (e.exec x.h x.mod) (e.zeroed x.h x.mod) x.d fun l => match o with
      | .nz => decide (e.src s l false x.a ≠ 0)
      | .one => true
      | .clr => false
      | .lane => (e.usrc s e.p.lanes x.a).getLsbD l

/-- shfl (R146): a thread's result is the source of the lane it names, its own where that lane is not in the wave or
not in the issue; the validity bit lands with it. -/
def shufflesHolds : Prop := ∀ s e, Issuing s e → ∀ (o : ShflOp) (x : Shfl),
  let b (l : Nat) : Nat := match x.b with
    | .reg r => e.src s l false r
    | .imm i => i.toNat
  let lane (l : Nat) : Int := match o with
    | .idx => b l
    | .up => (l : Int) - b l
    | .down => l + b l
    | .xor => (l ^^^ b l : Nat)
  let ok (l : Nat) : Bool := decide (0 ≤ lane l) && decide (lane l < e.w.width) && e.p.lanes.getLsbD (lane l).toNat
  ∃ w, exec (.shfl o x) s = .next (s.setWave w) ∧ { w with out := e.w.out } = e.w
    ∧ w.out = e.w.out ++ (lanesOf (e.exec x.h x.mod ||| e.zeroed x.h x.mod)).map fun l =>
      { lanes := 1#64 <<< l, lane := l, slot := e.p.slot, issue := 0, i := .shfl o x, a := 0, b := 0,
        c := if (e.exec x.h x.mod).getLsbD l && ok l then 1 else 0,
        ext := wordsOf (x.ty.bits == 64) (if (e.exec x.h x.mod).getLsbD l
          then e.src s (if ok l then (lane l).toNat else l) (x.ty.bits == 64) x.a else 0),
        dst := x.d, done := true, flags := 0, taint := false, wait := none, toks := [],
        since := 0 }

/-- qswp (R145): every issuing thread waits for its quad, and its exchange is outstanding. -/
def quadSwapsHolds : Prop := ∀ s e, Issuing s e → ∀ (o : QDir) (x : VUn),
  ∃ t w, exec (.qswp o x) s = .next t ∧ SameBesideWave s t e.w.id ∧ t.wave? e.w.id = some w
    ∧ { w with
        threads := e.w.threads
        out := e.w.out } = e.w
    ∧ (∀ l, l < e.w.width → w.th l = if e.p.lanes.getLsbD l then { e.w.th l with run := .quad } else e.w.th l)
    ∧ w.out = e.w.out ++ (lanesOf e.p.lanes).map fun l =>
      { lanes := 1#64 <<< l, lane := l, slot := e.p.slot, issue := 0, i := .qswp o x,
        a := if (e.exec x.h x.mod).getLsbD l then 1 else if (e.zeroed x.h x.mod).getLsbD l then 2 else 0, b := 0,
        c := 0, ext := [], dst := x.d, done := false, flags := 0, taint := false, wait := none, toks := [],
        since := 0 }

/-- scan and wred (R148, R149): the operation over the values of the executing threads that are no helpers, for scan
those up to the thread's lane or below it; reord (R150): the thread of rank i takes the value with the i-th key, and
equal keys keep their order. -/
def Obligations.Reductions : Prop := ∀ s e, Issuing s e →
  (∀ (o : ScanOp) (ex : Bool) (x : VUn),
    let con := e.exec x.h x.mod &&& ~~~e.w.helperMask
    let red (lead : Nat) (ls : List Nat) : Res := reduce o x.ty (e.scanFin s o x.ty x.mod lead)
      (flushes e.p.mode (fmtFor x.ty)) (ls.map fun n => e.src s n (x.ty.bits == 64) x.a)
    let rounds := decide (o = .add) && x.ty.isFS && draws e x.mod
    (∃ t, exec (.scan o ex x) s = .next t
      ∧ Outstanding s t e (.scan o ex x) (e.exec x.h x.mod) (e.zeroed x.h x.mod) x.d (regsOf x.ty) rounds fun l =>
        let r := red l ((lanesOf con).filter fun n => if ex then n < l else n ≤ l)
        (wordsOf (x.ty.bits == 64) r.1, r.2))
    ∧ (∀ n, x.d = .v n → ∃ t, exec (.wred o x) s = .next t
      ∧ Outstanding s t e (.wred o x) (e.exec x.h x.mod) (e.zeroed x.h x.mod) x.d (regsOf x.ty) rounds fun _ =>
        let r := red (lowLane con) (lanesOf con)
        (wordsOf (x.ty.bits == 64) r.1, r.2))
    ∧ ∀ n, x.d = .s n → (e.exec x.h x.mod = 0 → exec (.wred o x) s = .next s)
      ∧ (e.exec x.h x.mod ≠ 0 → ∃ t w p, exec (.wred o x) s = .next t ∧ t.wave? e.w.id = some w
        ∧ w.out = e.w.out ++ [p] ∧ p.lanes = e.p.lanes ∧ p.dst = x.d ∧ p.done = true
        ∧ p.ext = wordsOf true (red (lowLane con) (lanesOf con)).1
        ∧ p.flags = if con = 0 then 0 else (red (lowLane con) (lanesOf con)).2))
  ∧ ∀ (desc : Bool) (x : VTri),
    let con := lanesOf (e.exec x.h x.mod &&& ~~~e.w.helperMask)
    ∃ (t : State) (sorted : List Nat), exec (.reord desc x) s = .next t
      ∧ Outstanding s t e (.reord desc x) (e.exec x.h x.mod) (e.zeroed x.h x.mod) x.d 1 false (fun l =>
        (wordsOf false (match con.findIdx? (· == l) with
          | some i => e.src s (sorted.getD i 0) false x.b
          | none => e.src s l false x.b), 0))
      ∧ sorted.Perm con ∧ sorted.Pairwise fun m n =>
        let km := intOf x.ty (e.src s m false x.a)
        let kn := intOf x.ty (e.src s n false x.a)
        (if desc then kn < km else km < kn) ∨ (km = kn ∧ m < n)

/-! ## Memory (spec/06) -/

/-- The address of a lane (R157): 64 bits of a global address, 32 bits of an offset. -/
def addressOf (s : State) (e : Env) (l : Nat) (sp : Space) (a : Opd) (off : BitVec 32) : Nat :=
  if sp = .glob ∨ sp = .bcast then (BitVec.ofNat 64 (e.src s l true a) + off.signExtend 64).toNat
  else (BitVec.ofNat 32 (e.src s l false a) + off).toNat

/-- An access as it stands when its instruction has issued (R66, R159). -/
def waiting (e : Env) (i : Instr) (m : BitVec 64) (l a b c : Nat) (ext : List Word) : Pend :=
  { lanes := m, lane := l, slot := e.p.slot, issue := 0, i := i, a := BitVec.ofNat 128 a, b := BitVec.ofNat 128 b,
    c := BitVec.ofNat 128 c, ext := ext, dst := .zero, done := false, flags := 0, taint := false, wait := none,
    toks := [], since := 0 }

/-- One access for each lane of a mask. -/
def waitingEach (e : Env) (i : Instr) (m : BitVec 64) (a b c : Nat → Nat) : List Pend :=
  (lanesOf m).map fun l => waiting e i (1#64 <<< l) l (a l) (b l) (c l) []

/-- Zero results of masked threads (R57, R160). -/
def zeroResults (e : Env) (i : Instr) (m : BitVec 64) (d : Opd) (n : Nat) : List Pend :=
  (lanesOf m).map fun l => { waiting e i (1#64 <<< l) l 0 0 0 (List.replicate n 0) with
    dst := d
    done := true }

/-- The instruction goes on with accesses outstanding, and changes nothing else. -/
def Enters (s : State) (e : Env) (i : Instr) (ps : List Pend) : Prop :=
  exec i s = .next (s.setWave { e.w with out := e.w.out ++ ps })

/-- A fault of an instruction that acts once for the threads of m is charged to the lowest that is no helper; with
helpers alone, to the lowest where the whole issue is of helpers, and else they end (R98, R160). -/
def Charged (s : State) (e : Env) (i : Instr) (m : BitVec 64) (tr : Trap) : Prop :=
  let real := m &&& ~~~e.w.helperMask
  (real ≠ 0 ∨ e.p.lanes &&& ~~~e.w.helperMask = 0 → exec i s = .next (s.takeFault e.w e.p.lanes e.p.slot
    { tr with lane := some (lowLane (if real = 0 then m else real)) }).stopIssue)
  ∧ (real = 0 → e.p.lanes &&& ~~~e.w.helperMask ≠ 0 → exec i s = .next (s.setWave (e.w.endHelpers m)))

/-- An operand of an atomic (R176): four registers for cas.128, else its type's width. Of an s register cas.128
takes the low 32 bits (notes/assumptions/19). -/
def atomicSource (s : State) (e : Env) (l : Nat) (o : AtomOp) (t : Ty) (r : Opd) : Nat :=
  if o = .cas128 then match r with
    | .v n => (e.v s l n.val).toNat + 2 ^ 32 * (e.v s l (n.val + 1)).toNat + 2 ^ 64 * (e.v s l (n.val + 2)).toNat
        + 2 ^ 96 * (e.v s l (n.val + 3)).toNat
    | .s n => (e.s1 s l n.val).toNat % 2 ^ 32 + 2 ^ 32 * ((e.s1 s l (n.val + 1)).toNat % 2 ^ 32)
        + 2 ^ 64 * ((e.s1 s l (n.val + 2)).toNat % 2 ^ 32) + 2 ^ 96 * ((e.s1 s l (n.val + 3)).toNat % 2 ^ 32)
    | _ => 0
  else e.src s l (t.bits == 64) r % 2 ^ t.bits

/-- Whether a lane's address may be accessed (R157 to R159). -/
def Reaches (s : State) (e : Env) (sp : Space) (write : Bool) (size a : Nat) : Prop :=
  ∃ tg, s.target e.k e.t sp write size a = .ok tg

/-- The checks of an address (R157, R159): a multiple of the size, below 2^56, in the crew's window, or in the window
of the crew of the same task that the offset names. -/
def addressChecksHolds : Prop := ∀ (s : State) (k : Crew) (t : Task) (write : Bool) (size a : Nat), 0 < size →
  let cause (sp : Space) (c : Cause) : Prop := ∃ tr, s.target k t sp write size a = .error tr ∧ tr.cause = c
    ∧ tr.addr = BitVec.ofNat 64 a
  (∀ sp, a % size ≠ 0 → cause sp .misaligned)
  ∧ (a % size = 0 →
    (∀ sp ∈ [Space.glob, .bcast], (a < 2 ^ 56 → s.target k t sp write size a = .ok (.glob a))
      ∧ (2 ^ 56 ≤ a → cause sp .protection))
    ∧ (a < k.hdr.spad * 256 → s.target k t .crew write size a = .ok (.pad k.core (k.spadBase + a) a))
    ∧ (k.hdr.spad * 256 ≤ a → cause .crew .bounds)
    ∧ (8 * 2 ^ 20 ≤ a → cause .cluster .bounds)
    ∧ (a / 2 ^ 20 ≠ k.core % 8 →
      (∀ c ∈ s.crews, ¬(c.task = k.task ∧ c.core / 8 = k.core / 8 ∧ c.core % 8 = a / 2 ^ 20)) → cause .cluster .bounds)
    ∧ (∀ c, a / 2 ^ 20 < 8 → a / 2 ^ 20 ≠ k.core % 8 → c.core < 512 →
      s.crews.find? (fun c => c.task == k.task && c.core == k.core / 8 * 8 + a / 2 ^ 20) = some c →
      (a % 2 ^ 20 < c.hdr.spad * 256 →
        s.target k t .cluster write size a = .ok (.pad c.core (c.spadBase + a % 2 ^ 20) a))
      ∧ (c.hdr.spad * 256 ≤ a % 2 ^ 20 → cause .cluster .bounds))
    ∧ (a / 2 ^ 20 = k.core % 8 → a % 2 ^ 20 < k.hdr.spad * 256 →
      s.target k t .cluster write size a = .ok (.pad k.core (k.spadBase + a % 2 ^ 20) a)))

/-- ld, st, st.sy, atom, red, redx and fence as they issue (R57, R157, R160, R164 to R166, R176 to R180): one
access is outstanding for each executing thread, with the address and the sources as they are now; helpers store
nothing; masked and helper threads have results of zero. -/
def memoryIssueHolds : Prop := ∀ s e, Issuing s e →
  (∀ x : Mem, (∀ l, (e.exec x.h x.mod).getLsbD l = true →
      Reaches s e x.sp false (x.ty.bits / 8) (addressOf s e l x.sp x.a x.off)) →
    (x.sp ≠ .bcast → Enters s e (.ld x) (zeroResults e (.ld x) (e.zeroed x.h x.mod) x.r (regsOf x.ty)
      ++ waitingEach e (.ld x) (e.exec x.h x.mod) (fun l => addressOf s e l x.sp x.a x.off) (fun _ => 0) fun _ => 0))
    ∧ (x.sp = .bcast → Enters s e (.ld x) (zeroResults e (.ld x) (e.zeroed x.h x.mod) x.r (regsOf x.ty)
      ++ if e.exec x.h x.mod = 0 then [] else
        let real := e.exec x.h x.mod &&& ~~~e.w.helperMask
        let l := lowLane (if real = 0 then e.exec x.h x.mod else real)
        [waiting e (.ld x) (e.exec x.h x.mod) l (addressOf s e l x.sp x.a x.off) 0 0 []])))
  ∧ (∀ x : Mem, Enters s e (.st x) (waitingEach e (.st x) (e.exec x.h x.mod &&& ~~~e.w.helperMask)
      (fun l => addressOf s e l x.sp x.a x.off) (fun l => e.src s l (x.ty.bits == 64) x.r) fun _ => 0))
  ∧ (∀ x : MemSy, Enters s e (.stSy x) (waitingEach e (.stSy x) (e.exec x.h x.mod &&& ~~~e.w.helperMask)
      (fun l => addressOf s e l x.sp x.a (x.off.signExtend 32)) (fun l => e.src s l (x.ty.bits == 64) x.r)
      fun _ => (e.usrc s e.p.lanes x.c).toNat % 2 ^ 32))
  ∧ (∀ (o : AtomOp) (x : Atom),
    Enters s e (.atom o x) (zeroResults e (.atom o x) (e.guard x.h &&& e.w.helperMask) x.d
        (if o = .cas128 then 4 else regsOf x.ty)
      ++ waitingEach e (.atom o x) (e.guard x.h &&& ~~~e.w.helperMask)
        (fun l => addressOf s e l x.sp x.a (x.off.signExtend 32)) (fun l => atomicSource s e l o x.ty x.b)
        fun l => atomicSource s e l o x.ty x.c)
    ∧ Enters s e (.redx o x) (waitingEach e (.redx o x) (e.guard x.h &&& ~~~e.w.helperMask)
        (fun l => addressOf s e l x.sp x.a (x.off.signExtend 32)) (fun l => atomicSource s e l o x.ty x.b)
        fun _ => (e.usrc s e.p.lanes x.c).toNat % 2 ^ 32))
  ∧ (∀ (o : AtomOp) (x : Red), Enters s e (.red o x) (waitingEach e (.red o x) (e.guard x.h &&& ~~~e.w.helperMask)
      (fun l => addressOf s e l x.sp x.a x.off) (fun l => atomicSource s e l o x.ty x.b) fun _ => 0))
  ∧ ∀ h k c, Enters s e (.fence h k c) (waitingEach e (.fence h k c) (e.guard h) (fun _ => 0) (fun _ => 0) fun _ => 0)

/-- The accesses of a group (R98, R125, R175, R182, R185): one is outstanding for all its threads. A record access
is noted in the interrupted threads of other groups that name its record (R174; the model's field mixed). A group
that only helpers guard stores nothing and seals nothing. -/
def groupAccessesHolds : Prop := ∀ s e, Issuing s e → ∀ m real : BitVec 64,
  real = m &&& ~~~e.w.helperMask →
  (∀ x : UMem, m = e.guard x.h →
    let l := lowLane (if real = 0 then m else real)
    (m = 0 → exec (.sld x) s = .next s)
    ∧ (m ≠ 0 → Reaches s e x.sp false (x.ty.bits / 8) (addressOf s e l x.sp x.a x.off) →
      Enters s e (.sld x) [waiting e (.sld x) e.p.lanes l (addressOf s e l x.sp x.a x.off) 0 0 []])
    ∧ (real = 0 → exec (.sst x) s = .next s)
    ∧ (real ≠ 0 → Enters s e (.sst x) [waiting e (.sst x) e.p.lanes (lowLane real)
      (addressOf s e (lowLane real) x.sp x.a x.off) (e.usrc s real x.r).toNat 0 []]))
  ∧ (∀ x : ItMem, m = e.guard x.h →
    let l := lowLane (if real = 0 then m else real)
    let enters (i : Instr) (p : Pend) : Prop := ∃ w, exec i s = .next (s.setWave w)
      ∧ { w with
          threads := e.w.threads
          out := e.w.out } = e.w
      ∧ w.out = e.w.out ++ [p] ∧ (∀ l, { w.th l with mixed := (e.w.th l).mixed } = e.w.th l)
      ∧ ∀ n l, x.r = .j n → l < e.w.width →
        (w.th l).mixed = ((e.w.th l).mixed || (!e.p.lanes.getLsbD l && (e.w.th l).named.contains n.val))
    (m = 0 → exec (.itld x) s = .next s)
    ∧ (m ≠ 0 → Reaches s e x.sp false 64 (addressOf s e l x.sp x.a x.off) →
      enters (.itld x) (waiting e (.itld x) e.p.lanes l (addressOf s e l x.sp x.a x.off) 0 0 []))
    ∧ (real = 0 → exec (.itst x) s = .next s)
    ∧ (real ≠ 0 →
      enters (.itst x) (waiting e (.itst x) e.p.lanes (lowLane real) (addressOf s e (lowLane real) x.sp x.a x.off) 0 0
        ((List.range 16).map fun i => (e.iter s x.r).extractLsb' (32 * i) 32)))
    ∧ ∀ n, x.r = .j n → (∀ l, e.p.lanes.getLsbD l = true → (0x320 + n.val) ∉ (e.w.th l).fly) →
      e.iter s x.r = getAt e.w.iters n.val 0)
  ∧ (∀ x : Ctr, m = e.guard x.h →
    let sp : Space := if x.crew then .crew else .glob
    let a := addressOf s e (lowLane e.p.lanes) sp x.a 0
    (real = 0 → exec (.cadd x) s = .next s)
    ∧ (real ≠ 0 → Reaches s e sp true 8 a → Enters s e (.cadd x) [waiting e (.cadd x) real (lowLane real) a
      (match x.b with
        | .reg o => (e.usrc s e.p.lanes o).toNat
        | .imm i => i.toNat) 0 []]))
  ∧ ∀ h a b, m = e.guard h → ∀ i ∈ [Instr.sealRegion h a b, .unsealRegion h a b],
    let base := (e.usrc s real a).toNat
    let len := (e.usrc s real b).toNat
    (real = 0 → exec i s = .next s)
    ∧ (real ≠ 0 → base % 2 ^ 16 = 0 → len % 2 ^ 16 = 0 → len ≤ 2 ^ 40 →
      Enters s e i [waiting e i e.p.lanes (lowLane real) base len 0 []])
    ∧ ∀ c, real ≠ 0 → c = (if base % 2 ^ 16 ≠ 0 ∨ len % 2 ^ 16 ≠ 0 then Cause.misaligned else .bounds) →
      (base % 2 ^ 16 ≠ 0 ∨ len % 2 ^ 16 ≠ 0 ∨ 2 ^ 40 < len) → ∃ tr : Trap, tr.cause = c
        ∧ tr.addr = BitVec.ofNat 64 base ∧ tr.lane = some (lowLane real)
        ∧ exec i s = .next (s.takeFault e.w e.p.lanes e.p.slot tr).stopIssue

/-- Faults that an access raises as it issues (R159, R160): a load charges the lowest executing thread that is no
helper and whose address is at fault; sld, itld and cadd the thread whose address counts; nothing is accessed, and
helpers whose addresses alone are at fault end. -/
def memoryFaultsHolds : Prop := ∀ s e, Issuing s e →
  let faults (i : Instr) (l : Nat) (tr : Trap) : Prop :=
    exec i s = .next (s.takeFault e.w e.p.lanes e.p.slot { tr with lane := some l }).stopIssue
  let lead (m : BitVec 64) : Nat := lowLane (if m &&& ~~~e.w.helperMask = 0 then m else m &&& ~~~e.w.helperMask)
  (∀ (x : Mem) l tr,
    let bad (n : Nat) : Bool := (e.exec x.h x.mod).getLsbD n && !(e.w.th n).helper
      && (s.target e.k e.t x.sp false (x.ty.bits / 8) (addressOf s e n x.sp x.a x.off)).isOk == false
    (List.range 64).find? bad = some l →
    s.target e.k e.t x.sp false (x.ty.bits / 8) (addressOf s e l x.sp x.a x.off) = .error tr →
    faults (.ld x) l tr)
  ∧ (∀ (x : UMem) tr, e.guard x.h ≠ 0 →
    s.target e.k e.t x.sp false (x.ty.bits / 8) (addressOf s e (lead (e.guard x.h)) x.sp x.a x.off) = .error tr →
    Charged s e (.sld x) (e.guard x.h) tr)
  ∧ (∀ (x : ItMem) tr, e.guard x.h ≠ 0 →
    s.target e.k e.t x.sp false 64 (addressOf s e (lead (e.guard x.h)) x.sp x.a x.off) = .error tr →
    Charged s e (.itld x) (e.guard x.h) tr)
  ∧ (∀ (x : Ctr) sp tr, sp = (if x.crew then Space.crew else .glob) → e.guard x.h &&& ~~~e.w.helperMask ≠ 0 →
    s.target e.k e.t sp true 8 (addressOf s e (lowLane e.p.lanes) sp x.a 0) = .error tr →
    faults (.cadd x) (lowLane (e.guard x.h &&& ~~~e.w.helperMask)) tr)

/-- pref changes no register and no byte that a program reads, and raises no fault, whatever its address (R181). -/
def prefetchesHolds : Prop := ∀ s e, Issuing s e → ∀ h llc a off,
  ∃ t, exec (.pref h llc a off) s = .next t ∧ SameBesideMemory s t

/-- A result or an access of a wave may land: it is the one at a position, nothing before it holds it back, and its
wave has the registers that its header declares. A computed part of a queue's element does not land of itself. -/
def Landing (s : State) (core wslot pos : Nat) (x : Land) : Prop :=
  s.land? core wslot pos = some x ∧ s.wave? x.w.id = some x.w ∧ x.w.shapeOk x.k.hdr = true ∧ x.k.shapeOk = true ∧ s.heldBack x pos = false
    ∧ (samples x.p.i = true → x.p.c ≠ 2) ∧ x.p.lane < x.w.width

/-- The state t is s but for a result that landed: it has left the list, its words stand in the v registers of its
lane, and its flags are raised; what the accesses of its wave are ordered after may have grown. -/
def Landed (s t : State) (x : Land) (pos : Nat) (d : Opd) (ws : List Word) (fl : Dword) : Prop :=
  SameBesideWave s t x.w.id ∧ ∃ w, t.wave? x.w.id = some w
    ∧ { w with
        threads := x.w.threads
        out := x.w.out
        fflags := x.w.fflags } = x.w
    ∧ w.out = x.w.out.eraseIdx pos
    ∧ (∀ b, w.fflags.getLsbD b = (x.w.fflags.getLsbD b || (!(x.w.th x.p.lane).helper && fl.getLsbD b)))
    ∧ ∀ l, l < x.w.width →
      { w.th l with
        v := (x.w.th l).v
        ord := (x.w.th l).ord } = x.w.th l
      ∧ ∀ n, getAt (w.th l).v n 0 = match d with
        | .v r => if l = x.p.lane ∧ r.val ≤ n ∧ n < r.val + ws.length then getAt ws (n - r.val) 0
            else getAt (x.w.th l).v n 0
        | _ => getAt (x.w.th l).v n 0

/-- RESULT_LAND of a computed result (R18, R57, R63, R91): the destination registers of its lane take its words, and
the flags are raised; the validity bits of shfl land with it; an s register takes a group's result. Results that wait
for their thread's marker, and reads of sweeps, are not among these. -/
def Obligations.LandedResults : Prop := ∀ s core wslot pos x, Landing s core wslot pos x → x.p.done = true →
  segmented x.p.i = false → (samples x.p.i = true → x.p.c ≠ 3) →
  ((∀ o y, x.p.i = .shfl o y → y.kout = 0) → (∀ r, x.p.dst ≠ .s r) →
    (∀ r, x.p.dst = .v r → r.val + x.p.ext.length ≤ x.k.hdr.vregs) →
    ∃ t, exec (.resultLand core wslot pos) s = .next t ∧ Landed s t x pos x.p.dst x.p.ext x.p.flags)
  ∧ (∀ o y, x.p.i = .shfl o y → y.kout ≠ 0 → (∀ r, x.p.dst ≠ .s r) →
    (∀ r, x.p.dst = .v r → r.val + x.p.ext.length ≤ x.k.hdr.vregs) →
    ∃ t w, exec (.resultLand core wslot pos) s = .next t ∧ t.wave? x.w.id = some w
      ∧ Landed s (t.setWave { w with k := x.w.k }) x pos x.p.dst x.p.ext x.p.flags
      ∧ ∀ n l, 0 < n → l < 64 → (getAt w.k (n - 1) 0).getLsbD l =
        if n = y.kout.val ∧ l = x.p.lane then decide (x.p.c = 1) else (getAt x.w.k (n - 1) 0).getLsbD l)
  ∧ ∀ r lo hi, x.p.dst = .s r → (if r.val < 64 then r.val < x.k.hdr.swp else r.val - 64 < x.k.hdr.scr) →
    x.p.ext = [lo, hi] → (∀ o y, x.p.i ≠ .shfl o y) →
    ∃ t, exec (.resultLand core wslot pos) s = .next t ∧ t.sreg x.w.id r.val = hi ++ lo
      ∧ ∀ n, n ≠ r.val → t.sreg x.w.id n = s.sreg x.w.id n

/-- The condition on logging and on the order of its threads under which an access of a landing result that is
logged, or is on a strongly ordered page, is made at once: no replay or logging, and nothing of them before it is still
on its way (R162, R272, R276). -/
def Unordered (s : State) (x : Land) : Prop :=
  s.logging x.t.ctx = false ∧ s.replaying x.t.ctx = false ∧ x.queue = [] ∧ ∀ l, s.sendingRed x.w l = false

/-- A load lands (R61, R164, R165), where plain reads are exact (with STRICT set or in a versioned task, R275): the bytes
at its address, its thread's own queued stores before memory's, in its register; sld writes its s register. -/
def landedLoadsHolds : Prop := ∀ s core wslot pos x tg bs s1, Landing s core wslot pos x → x.p.done = false →
  s.relaxed x.t = false → x.actor.conflicts s (tg.span bs.length) = false →
  (∀ sp (ty : Ty) ord d, ((∃ y : Mem, x.p.i = .ld y ∧ sp = y.sp ∧ ty = y.ty ∧ ord = y.ord ∧ d = y.r)
      ∨ ∃ y : Expand, x.p.i = .ldx y ∧ sp = y.sp ∧ ty = y.ty ∧ ord = none ∧ d = x.p.dst) →
    sp ≠ .bcast → x.p.lanes = 1#64 <<< x.p.lane →
    s.target x.k x.t sp false (ty.bits / 8) x.p.a.toNat = .ok tg →
    s.arriving x.w [x.p.lane] tg (ty.bits / 8) = false →
    (ord.isSome = true ∨ (∀ p, s.route x.t false tg (some x.w.core) = .ok p → kindOf p = .so) → Unordered s x) →
    s.readTgt x.t 0 (x.w.th x.p.lane).storeQ tg (ty.bits / 8) (some x.w.core) = .ok (bs, s1) →
    bs.length = ty.bits / 8 →
    (∀ r, d = .v r → r.val + regsOf ty ≤ x.k.hdr.vregs) → (∀ r, d ≠ .s r) →
    SameBesideMemory s s1 ∧ ∃ t, exec (.resultLand core wslot pos) s = .next t
      ∧ Landed s1 t x pos d (wordsOf (ty.bits == 64) (inRegister ty (leNat bs))) 0)
  ∧ ∀ (y : UMem) r, x.p.i = .sld y → x.p.lanes = 1#64 <<< x.p.lane → y.r = .s r →
    (if r.val < 64 then r.val < x.k.hdr.swp else r.val - 64 < x.k.hdr.scr) →
    s.target x.k x.t y.sp false (y.ty.bits / 8) x.p.a.toNat = .ok tg →
    s.arriving x.w [x.p.lane] tg (y.ty.bits / 8) = false →
    ((∀ p, s.route x.t false tg (some x.w.core) = .ok p → kindOf p = .so) → Unordered s x) →
    s.readTgt x.t 0 (x.w.th x.p.lane).storeQ tg (y.ty.bits / 8) (some x.w.core) = .ok (bs, s1) →
    bs.length = y.ty.bits / 8 →
    ∃ t, exec (.resultLand core wslot pos) s = .next t
      ∧ t.sreg x.w.id r.val = uniformInt y.ty (valueIn y.ty (leNat bs))
      ∧ ∀ n, n ≠ r.val → t.sreg x.w.id n = s.sreg x.w.id n

/-- What a load reads of a scratchpad (R157, R276): byte i is the youngest queued store's that covers it, else the
scratchpad's. -/
def ownStoresHolds : Prop := ∀ (s : State) (t : Task) (unit : Nat) (q : List StoreEnt) (c a off n : Nat)
  (bs : List Byte), (∀ e ∈ q, e.place = .spad c) → s.readAt (.spad c) a n = .ok bs →
  ∃ r, s.readTgt t unit q (.pad c a off) n = .ok (r, s) ∧ r.length = n
    ∧ ∀ i, i < n → r.getD i 0 = match q.reverse.find? fun e => decide (e.addr ≤ a + i) && decide (a + i < e.addr + e.bytes.length) with
      | some e => e.bytes.getD (a + i - e.addr) 0
      | none => bs.getD i 0

/-- Every byte of every memory outside n bytes of one place reads as before. -/
def OtherBytes (s t : State) (pl : Place) (a n : Nat) : Prop :=
  ∀ q b, (q ≠ pl ∨ b < a ∨ a + n ≤ b) → t.readAt q b 1 = s.readAt q b 1

/-- A store lands (R164, R276): it joins its thread's queue, with its bytes in little-endian order, and no byte of
memory changes (a store to a strongly ordered page is performed instead, when its thread has nothing before it on its
way: R263, R276). It leaves the queue for a scratchpad: its bytes stand there, and every other byte is as before. -/
def Obligations.Stores : Prop :=
  (∀ s core wslot pos x tg pl a rel (y : Mem), Landing s core wslot pos x → x.p.done = false → x.p.i = .st y →
    x.p.taint = false → s.target x.k x.t y.sp true (y.ty.bits / 8) x.p.a.toNat = .ok tg →
    ((∃ c off, tg = .pad c a off ∧ pl = .spad c ∧ rel = y.ord.isSome)
      ∨ ∃ va p, tg = .glob va ∧ s.translate (taskAcc x.t true (some x.w.core)) va = .ok p ∧ p.leaf.kind ≠ .so
        ∧ pl = p.place ∧ a = p.pa ∧ rel = (y.ord.isSome && p.leaf.kind == .rc)) →
    x.p.lanes = 1#64 <<< x.p.lane →
    s.arriving x.w [x.p.lane] tg (y.ty.bits / 8) = false →
    x.actor.conflicts s (tg.span (y.ty.bits / 8)) = false →
    ∃ t w ent, exec (.resultLand core wslot pos) s = .next t ∧ t.wave? x.w.id = some w
      ∧ { t with
          waves := s.waves
          crews := s.crews
          nextId := s.nextId } = s
      ∧ (∀ j, j ≠ x.w.id → t.wave? j = s.wave? j)
      ∧ (∀ j k, s.crew? j = some k → ∃ k', t.crew? j = some k' ∧ { k' with
          dirty := k.dirty
          cmds := k.cmds } = k)
      ∧ { w with
          threads := x.w.threads
          out := x.w.out } = x.w
      ∧ w.out = x.w.out.eraseIdx pos
      ∧ (w.th x.p.lane).storeQ = (x.w.th x.p.lane).storeQ ++ [ent] ∧ ent.place = pl ∧ ent.addr = a
      ∧ ent.bytes = leBytes (y.ty.bits / 8) x.p.b.toNat ∧ ent.rel = rel
      ∧ ∀ l, l < x.w.width → { w.th l with
          storeQ := (x.w.th l).storeQ
          ord := (x.w.th l).ord } = x.w.th l)
  ∧ ∀ (s : State) (r : ThreadRef) pos w k t0 ent c, s.waveAt? r.core r.wslot = some w → s.wave? w.id = some w →
    s.crew? w.crew = some k → s.task? k.task = some t0 → w.threads.length = w.width → r.lane < w.width →
    (w.th r.lane).storeQ[pos]? = some ent → ent.place = .spad c → c < s.cores.length →
    (ent.rel = true → s.sending w r.lane = false) → w.mayLeave r.lane pos ent = true → s.memOk = true →
    (∀ i, i < ent.bytes.length → (s.readAt (.spad c) (ent.addr + i) 1).isOk = true) →
    ∃ t w1, s.leave r pos = .next t ∧ t.readAt (.spad c) ent.addr ent.bytes.length = .ok ent.bytes
      ∧ OtherBytes s t (.spad c) ent.addr ent.bytes.length ∧ t.wave? w.id = some w1
      ∧ (w1.th r.lane).storeQ = (w.th r.lane).storeQ.eraseIdx pos
      ∧ ∀ l, l < w.width → { w1.th l with storeQ := (w.th l).storeQ } = w.th l

/-- The new value of an atomic update (R176 to R178): wrapping integers, bits, minimum and maximum in the type's order,
exchange, compare and swap, and the wrapping counters; sums and choices of the float formats. -/
def atomicValue (o : AtomOp) (t : Ty) (old b c : Nat) : Nat :=
  match o with
  | .add => match fmtOf t with
    | some f => (fusedSum f ⟨.rne, false, false, 0⟩ [] [f.decode false old, f.decode false b]).1
    | none => (old + b) % 2 ^ t.bits
  | .min => match fmtOf t with
    | some f => (fminmaxOf f false false old b).1
    | none => if valueIn t b < valueIn t old then b else old
  | .max => match fmtOf t with
    | some f => (fminmaxOf f true false old b).1
    | none => if valueIn t old < valueIn t b then b else old
  | .and => old &&& b
  | .or => old ||| b
  | .xor => old ^^^ b
  | .exch => b
  | .cas | .cas128 => if old = c then b else old
  | .inc => if old ≥ b then 0 else old + 1
  | .dec => if old = 0 ∨ old > b then b else old - 1

/-- The integer, bit and float types of atomics (R176). -/
def atomicTypes (o : AtomOp) : List Ty :=
  match o with
  | .add | .min | .max => [.n32, .i32, .n64, .i64, .f32, .f64, .f16, .bf16]
  | .inc | .dec => [.n32, .n64]
  | _ => [.b32, .b64]

/-- atom, red and cadd on a scratchpad (R176 to R178, R185): in one step the bytes are read, the new value is written
in their place, and atom's register takes the old value; every other byte is as before. -/
def Obligations.Atomics : Prop := ∀ s core wslot pos x c a off (old : List Byte) n,
  Landing s core wslot pos x → x.p.done = false → x.p.taint = false → x.queue = [] →
  s.arriving x.w x.lanes (.pad c a off) n = false →
  x.actor.conflicts s ((Target.pad c a off).span n) = false → s.logging x.t.ctx = false →
  s.replaying x.t.ctx = false → s.readAt (.spad c) a n = .ok old → c < s.cores.length → s.memOk = true →
  (∀ l ∈ x.lanes, s.sending x.w l = false) →
  let done (v : Nat) : Prop := ∃ t, exec (.resultLand core wslot pos) s = .next t
    ∧ t.readAt (.spad c) a n = .ok (leBytes n v) ∧ OtherBytes s t (.spad c) a n
    ∧ ∃ w, t.wave? x.w.id = some w ∧ w.out = x.w.out.eraseIdx pos
  (∀ (o : AtomOp) (y : Atom), x.p.i = .atom o y → y.ty ∈ atomicTypes o → n = (if o = .cas128 then 16 else y.ty.bits / 8) →
    s.target x.k x.t y.sp true n x.p.a.toNat = .ok (.pad c a off) →
    (∀ r, y.d = .v r → r.val + max 1 (n / 4) ≤ x.k.hdr.vregs) →
    done (atomicValue o y.ty (leNat old) x.p.b.toNat x.p.c.toNat)
    ∧ ∀ r i, y.d = .v r → i < max 1 (n / 4) → ∃ t w, exec (.resultLand core wslot pos) s = .next t
      ∧ t.wave? x.w.id = some w
      ∧ (getAt (w.th x.p.lane).v (r.val + i) 0).toNat = leNat old / 2 ^ (32 * i) % 2 ^ 32)
  ∧ (∀ (o : AtomOp) (y : Red), x.p.i = .red o y → y.ty ∈ atomicTypes o → o ≠ .cas128 → n = y.ty.bits / 8 →
    s.target x.k x.t y.sp true n x.p.a.toNat = .ok (.pad c a off) →
    done (atomicValue o y.ty (leNat old) x.p.b.toNat 0))
  ∧ ∀ y : Ctr, x.p.i = .cadd y → y.crew = true → n = 8 →
    s.target x.k x.t .crew true 8 x.p.a.toNat = .ok (.pad c a off) → done ((leNat old + x.p.b.toNat) % 2 ^ 64)

/-- The advance of a sync word (R187): from TARGET, COUNT and GEN, the new COUNT and GEN. -/
def advanced (target count gen : Nat) : Nat × Nat :=
  if target ≠ 0 ∧ target ≤ count then (count - target, (gen + 1) % 2 ^ 32) else (count, gen)

/-- A counted store arrives (R166, R179, R187): its bytes are written, or combined with what is there, and then COUNT
grows by their number, the word advancing once where it reaches TARGET; st.sy and redx put arrivals on their way. -/
def Obligations.CountedStores : Prop :=
  (∀ (s : State) n a old w4, s.arrivals[n]? = some a → (∀ b ∈ s.arrivals.take n, b.before a = false) →
    s.memOk = true → a.core < s.cores.length →
    (a.op.isSome = true → s.logging a.ctx = false ∧ s.replaying a.ctx = false) →
    s.readAt (.spad a.core) a.addr a.bytes.length = .ok old → s.readAt (.spad a.core) a.sync 16 = .ok w4 →
    (a.addr + a.bytes.length ≤ a.sync ∨ a.sync + 16 ≤ a.addr) →
    let now := match a.op with
      | none => a.bytes
      | some o => leBytes a.bytes.length (atomicValue o a.ty (leNat old) (leNat a.bytes) 0)
    let y := advanced (fieldOf w4 0 4) ((fieldOf w4 4 4 + a.bytes.length) % 2 ^ 32) (fieldOf w4 8 4)
    ∃ t, exec (.countedArrival n) s = .next t ∧ t.arrivals = s.arrivals.eraseIdx n
      ∧ t.readAt (.spad a.core) a.addr a.bytes.length = .ok now
      ∧ t.readAt (.spad a.core) a.sync 16 =
        .ok (leBytes 4 (fieldOf w4 0 4) ++ leBytes 4 y.1 ++ leBytes 4 y.2 ++ leBytes 4 (fieldOf w4 12 4))
      ∧ ∀ q b, (q ≠ .spad a.core ∨ ((b < a.addr ∨ a.addr + a.bytes.length ≤ b) ∧ (b < a.sync ∨ a.sync + 16 ≤ b))) →
        t.readAt q b 1 = s.readAt q b 1)
  ∧ ∀ s core wslot pos x sp (ty : Ty) op c a off b off' k, Landing s core wslot pos x → x.p.done = false →
    ((∃ y : MemSy, x.p.i = .stSy y ∧ y.sp = sp ∧ y.ty = ty ∧ op = none ∧ (y.ord.isSome = true → s.sending x.w x.p.lane = false))
      ∨ ∃ (o : AtomOp) (y : Atom), x.p.i = .redx o y ∧ y.sp = sp ∧ y.ty = ty ∧ op = some o) →
    x.p.taint = false → s.target x.k x.t sp true (ty.bits / 8) x.p.a.toNat = .ok (.pad c a off) →
    s.target x.k x.t sp true 16 x.p.c.toNat = .ok (.pad c b off') →
    s.crews.find? (fun k => k.task == x.k.task && k.core == c && decide (k.spadBase ≤ a)
      && decide (a < k.spadBase + k.hdr.spad * 256)) = some k → k.spadBase ≤ b → b + 16 ≤ k.spadBase + k.hdr.spad * 256 →
    x.queue = [] →
    ∃ t arr, exec (.resultLand core wslot pos) s = .next t ∧ t.arrivals = s.arrivals ++ [arr]
      ∧ arr.core = c ∧ arr.addr = a ∧ arr.sync = b ∧ arr.op = op ∧ arr.ty = ty ∧ arr.crew = k.id
      ∧ arr.bytes = leBytes (ty.bits / 8) x.p.b.toNat

/-! ## Long instructions (spec/06 R167 to R174) -/

/-- The unit that the group's long instruction starts at (R29): PROG where INP is set. -/
def unitOf (e : Env) : Nat :=
  let x := (e.w.th (lowLane e.p.lanes)).pix
  if x.getLsbD 32 then x.toNat % 2 ^ 32 else 0

/-- The end of unit k of n in the issuing threads (R29): the next unit is due at the same slot with INP and PROG
written, or the instruction is complete and %pix is 0. -/
def UnitDone (e : Env) (t : State) (k n : Nat) : Prop :=
  (t.iss = if k + 1 < n then none else some e.p) ∧ ∃ w, t.wave? e.w.id = some w ∧ ∀ l, l < e.w.width →
    e.p.lanes.getLsbD l = true →
      (w.th l).pix = if k + 1 < n then BitVec.ofNat 64 (2 ^ 32 + (k + 1) % 2 ^ 32) else 0

/-- The threads whose element segment j of ldx and stc handles (R168). -/
def chosen (s : State) (e : Env) (x : Expand) (j : Nat) : BitVec 64 :=
  match x.c with
  | .v n => e.guard x.h &&& ~~~e.w.helperMask &&& maskOf fun l => e.v s l (n.val + j) != 0
  | _ => 0

/-- The number of the element that a thread handles in segment k (R168). -/
def elementOf (s : State) (e : Env) (x : Expand) (k l : Nat) : Nat :=
  ((List.range k).map fun j => (lanesOf (chosen s e x j)).length).sum
    + ((lanesOf (chosen s e x k)).filter fun m => m < l).length

/-- The data register of segment k (R167). -/
def segmentReg (x : Expand) (k : Nat) : Opd :=
  match x.r with
  | .v n => .v (Fin.ofNat 256 (n.val + k * regsOf x.ty))
  | _ => .v (Fin.ofNat 256 0)

/-- No thread of the group has a fault that an access of its long instruction met (R67, R169). -/
def NoFaultMet (e : Env) : Prop :=
  ∀ l f, e.p.lanes.getLsbD l = true → (e.w.th l).dfault = some f → f.slot ≠ e.p.slot

/-- A long instruction has made accesses of a segment: the group waits for them at its slot, and goes on to part `seg` of
the segment when it issues again (the model's field; R29). -/
def Midway (s t : State) (e : Env) (seg : Nat) (out : List Pend) : Prop :=
  t.iss = none ∧ { t with
    waves := s.waves
    iss := s.iss } = s ∧ (∀ j, j ≠ e.w.id → t.wave? j = s.wave? j)
  ∧ ∃ w, t.wave? e.w.id = some w ∧ w.out = out ∧ w.sp = e.w.sp ∧ w.k = e.w.k
    ∧ ∀ l, l < e.w.width → (w.th l).v = (e.w.th l).v
      ∧ (e.p.lanes.getLsbD l = true → (w.th l).seg = seg ∧ (w.th l).pix = (e.w.th l).pix
        ∧ ∃ y, (w.th l).run = .hold y)

/-- A long instruction that has nothing to do leaves %pix at 0 and goes on. -/
def NothingLeft (s t : State) (e : Env) : Prop :=
  SameBesideWave s t e.w.id ∧ ∃ w, t.wave? e.w.id = some w ∧ { w with threads := e.w.threads } = e.w
    ∧ ∀ l, l < e.w.width → (w.th l).v = (e.w.th l).v ∧ (w.th l).run = (e.w.th l).run ∧ (w.th l).pc = (e.w.th l).pc
      ∧ (e.p.lanes.getLsbD l = true → (w.th l).pix = 0)

/-- ldx and stc (R29, R167 to R169). Segment by segment: a segment issues one access for each chosen thread, of the
elements that follow one another from the base; when they are made the next segment is due, and after the last stc writes
the count of all elements. A base that is no multiple of the element's size is MISALIGNED. An element of stc that lands
joins its thread's queue. -/
def Obligations.LoadExpandStoreCompact : Prop :=
  (∀ s e, Issuing s e → ∀ x : Expand,
    let n := x.ty.bits / 8
    let k := unitOf e
    let real := e.guard x.h &&& ~~~e.w.helperMask
    let adr (i : Nat) : Nat := addressOf s e (lowLane e.p.lanes) x.sp x.a (BitVec.ofNat 32 (i * n))
    let part := (e.w.th (lowLane e.p.lanes)).seg
    let accesses (i : Instr) : List Pend := (lanesOf (chosen s e x k)).map fun l =>
      { waiting e i (1#64 <<< l) l (adr (elementOf s e x k l)) (e.src s l (x.ty.bits == 64) (segmentReg x k)) 0 [] with
        dst := segmentReg x k }
    let count : Dword := BitVec.ofNat 64 (elementOf s e x x.n.toNat 0)
    (real = 0 → ∃ t, exec (.ldx x) s = .next t ∧ NothingLeft s t e)
    ∧ (e.guard x.h = 0 → ∃ t, exec (.stc x) s = .next t ∧ NothingLeft s t e)
    ∧ (∀ c, e.guard x.h ≠ 0 → real = 0 → x.cnt = .s c → SDeclared e x.cnt → ∃ t, exec (.stc x) s = .next t
      ∧ t.sreg e.w.id c.val = 0 ∧ ∀ m, m ≠ c.val → t.sreg e.w.id m = s.sreg e.w.id m)
    ∧ (real ≠ 0 → NoFaultMet e → part = 0 → adr 0 % n = 0 →
      ((∀ j l, j < x.n.toNat → (chosen s e x j).getLsbD l = true → Reaches s e x.sp false n (adr (elementOf s e x j l))) →
        ∃ t, exec (.ldx x) s = .next t ∧ Midway s t e 1 (e.w.out ++ accesses (.ldx x)))
      ∧ ∃ t, exec (.stc x) s = .next t ∧ Midway s t e 1 (e.w.out ++ accesses (.stc x)))
    ∧ (real ≠ 0 → NoFaultMet e → part = 0 → adr 0 % n ≠ 0 → ∀ i ∈ [Instr.ldx x, .stc x], ∃ tr : Trap,
      tr.cause = .misaligned ∧ tr.lane = some (lowLane real) ∧ tr.addr = BitVec.ofNat 64 (adr 0)
        ∧ exec i s = .next (s.takeFault e.w e.p.lanes e.p.slot tr).stopIssue)
    ∧ (real ≠ 0 → NoFaultMet e → part ≠ 0 →
      (∃ t, exec (.ldx x) s = .next t ∧ UnitDone e t k x.n.toNat)
      ∧ ∀ c, x.cnt = .s c → SDeclared e x.cnt → ∃ t, exec (.stc x) s = .next t ∧ UnitDone e t k x.n.toNat
        ∧ ∀ m, t.sreg e.w.id m = if m = c.val ∧ x.n.toNat ≤ k + 1 then count else s.sreg e.w.id m))
  ∧ ∀ s core wslot pos x c a off (y : Expand), Landing s core wslot pos x → x.p.done = false → x.p.i = .stc y →
    s.target x.k x.t y.sp true (y.ty.bits / 8) x.p.a.toNat = .ok (.pad c a off) → x.p.lanes = 1#64 <<< x.p.lane →
    s.arriving x.w [x.p.lane] (.pad c a off) (y.ty.bits / 8) = false →
    x.actor.conflicts s ((Target.pad c a off).span (y.ty.bits / 8)) = false →
    ∃ t w ent, exec (.resultLand core wslot pos) s = .next t ∧ t.wave? x.w.id = some w
      ∧ (w.th x.p.lane).storeQ = (x.w.th x.p.lane).storeQ ++ [ent] ∧ ent.place = .spad c ∧ ent.addr = a
      ∧ ent.bytes = leBytes (y.ty.bits / 8) x.p.b.toNat ∧ ∀ q b, t.readAt q b 1 = s.readAt q b 1

/-- The result of an element of swp and itx (R170). -/
def elementResult (o : SwpOp) (t : Ty) (k : Finish) (a b d : Nat) : Nat :=
  let f := fmtFor t
  let v := f.decode k.fz
  match o with
  | .copy => a
  | .add => if t.isFS then (fusedSum f k [] [v a, v b]).1 else resultBits t false (valueIn t a + valueIn t b)
  | .sub => if t.isFS then (fusedSum f k [] [v a, (v b).negate]).1 else resultBits t false (valueIn t a - valueIn t b)
  | .mul => if t.isFS then (finish f k ((v a).mul (v b)).1).1 else resultBits t false (valueIn t a * valueIn t b)
  | .min => if t.isFS then (fminmaxOf f false false a b).1 else if valueIn t b < valueIn t a then b else a
  | .max => if t.isFS then (fminmaxOf f true false a b).1 else if valueIn t a < valueIn t b then b else a
  | .fma => if t.isFS then (fmaOf f k false false (v a) (v b) (v d)).1 else a
  | .and => if t.isFS then a else a &&& b
  | .or => if t.isFS then a else a ||| b
  | .xor => if t.isFS then a else a ^^^ b

/-- The reads of the elements of a segment: A, B but for copy, and D for fma (R170). -/
def segmentReads (e : Env) (i : Instr) (o : SwpOp) (xs : List Elem) : List Pend :=
  xs.flatMap fun y => [(0, y.a), (1, if o = .copy then none else y.b), (2, if o = .fma then y.d else none)].filterMap
    fun p => p.2.map fun a => waiting e i (1#64 <<< y.lane) y.lane a.2 0 (p.1 + 256 * a.1.code) []

/-- A segment's results, from what its reads gave: its writes are made, the reads are gone, and the flags of its elements
are raised (R170, R171). A thread whose record another group took, or whose interrupted fma reads its own result again,
writes UNDEFINED values (R171, R174). -/
def SegmentWrites (s t : State) (e : Env) (i : Instr) (o : SwpOp) (ty : Ty) (xs : List Elem) : Prop :=
  ∃ (val : Elem → Nat) (w : Wave), t.iss = none ∧ t.wave? e.w.id = some w
    ∧ (∀ y ∈ xs, (e.w.th y.lane).mixed = false → ((e.w.th y.lane).again = false ∨ o ≠ .fma) →
      val y = elementResult o ty (e.fin s y.lane 0 none (fmtFor ty)) (e.w.swept i e.p.slot y.lane 0)
        (e.w.swept i e.p.slot y.lane 1) (e.w.swept i e.p.slot y.lane 2))
    ∧ w.out = (e.w.out.filter fun p => !(p.done && p.slot == e.p.slot && p.i == i && p.lanes &&& e.p.lanes != 0))
      ++ xs.filterMap (fun y => y.d.map fun a => waiting e i (1#64 <<< y.lane) y.lane a.2 (val y) (3 + 256 * a.1.code) [])
    ∧ (∀ b, w.fflags.getLsbD b = (e.w.fflags.getLsbD b || xs.any fun y =>
      (swpRes o ty (e.fin s y.lane 0 none (fmtFor ty)) (e.w.swept i e.p.slot y.lane 0) (e.w.swept i e.p.slot y.lane 1)
        (e.w.swept i e.p.slot y.lane 2)).2.getLsbD b))
    ∧ ∀ l, l < e.w.width → (w.th l).v = (e.w.th l).v ∧ (e.p.lanes.getLsbD l = true → (w.th l).seg = 2)

/-- The end of unit k of n of swp or itx: every executing thread takes its draw where the operation rounds with RSR,
whatever the element counts (R171; spec/03 R87). -/
def SegmentEnds (e : Env) (t : State) (o : SwpOp) (ty : Ty) (m : BitVec 64) (k n : Nat) : Prop :=
  UnitDone e t k n ∧ ∃ w, t.wave? e.w.id = some w ∧ ∀ l, l < e.w.width → (w.th l).v = (e.w.th l).v
    ∧ (w.th l).rngc = if ty.isFS = true ∧ o ∈ [.add, .sub, .mul, .fma] ∧ e.rm none = .rsr ∧ m.getLsbD l = true
        then (e.w.th l).rngc + 1 else (e.w.th l).rngc

/-- swp (R170, R171): nothing for N = 0 or with helpers alone; a base or step that is no multiple of the element's size
is MISALIGNED; a segment reads one element for each executing thread at the operands' bases and steps, writes the
results, and ends when they are performed. A read keeps its value for the segment; a write joins its thread's queue. -/
def sweepsHolds : Prop :=
  (∀ s e, Issuing s e → ∀ (o : SwpOp) (x : Sweep), o.takes x.ty = true →
    let n := x.ty.bits / 8
    let k := unitOf e
    let real := e.guard x.h &&& ~~~e.w.helperMask
    let part := (e.w.th (lowLane e.p.lanes)).seg
    let opds := if o = .copy then [x.a, x.d] else [x.a, x.b, x.d]
    let base (p : Opd) : BitVec 32 := (e.usrc s e.p.lanes p).setWidth 32
    let step (p : Opd) : BitVec 32 := (e.usrc s e.p.lanes p).extractLsb' 32 32
    let adr (p : Opd) (l : Nat) : Nat := (base p + BitVec.ofNat 32 k * step p + BitVec.ofNat 32 (l * n)).toNat
    let here (p : Opd) (l : Nat) : Option (Space × Nat) := if p = .zero then none else some (.crew, adr p l)
    let xs : List Elem := (lanesOf real).map fun l =>
      ⟨l, here x.a l, if o = .copy then none else here x.b l, here x.d l⟩
    let even := ∀ p ∈ opds, p = .zero ∨ ((base p).toNat % n = 0 ∧ (step p).toInt % n = 0)
    (x.n = 0 ∨ real = 0 → ∃ t, exec (.swp o x) s = .next t ∧ NothingLeft s t e)
    ∧ (∀ p, x.n ≠ 0 → real ≠ 0 →
      opds.find? (fun p => p ≠ .zero ∧ ((base p).toNat % n ≠ 0 ∨ (step p).toInt % n ≠ 0)) = some p →
      ∃ tr : Trap, tr.cause = .misaligned ∧ tr.addr = BitVec.ofNat 64 (base p).toNat ∧ tr.lane = some (lowLane real)
        ∧ exec (.swp o x) s = .next (s.takeFault e.w e.p.lanes e.p.slot tr).stopIssue)
    ∧ (x.n ≠ 0 → real ≠ 0 → NoFaultMet e → even →
      (∀ p ∈ opds, p ≠ .zero → ∀ l, real.getLsbD l = true → adr p l < e.k.hdr.spad * 256) →
      (part = 0 → ∃ t, exec (.swp o x) s = .next t ∧ Midway s t e 1 (e.w.out ++ segmentReads e (.swp o x) o xs))
      ∧ (part = 1 → ∃ t, exec (.swp o x) s = .next t ∧ SegmentWrites s t e (.swp o x) o x.ty xs)
      ∧ (part = 2 → s.unsettled e.w e.p.lanes = false →
        ∃ t, exec (.swp o x) s = .next t ∧ SegmentEnds e t o x.ty real k x.n.toNat)))
  ∧ ∀ s core wslot pos x c a off (o : SwpOp) (y : Sweep) i sp, Landing s core wslot pos x → x.p.done = false →
    i ∈ [Instr.swp o y, .itx o y] → x.p.i = i → Space.ofCode (x.p.c.toNat / 256) = some sp →
    s.target x.k x.t sp (x.p.c.toNat % 256 == 3) (y.ty.bits / 8) x.p.a.toNat = .ok (.pad c a off) →
    x.p.lanes = 1#64 <<< x.p.lane → s.arriving x.w [x.p.lane] (.pad c a off) (y.ty.bits / 8) = false →
    x.actor.conflicts s ((Target.pad c a off).span (y.ty.bits / 8)) = false →
    (∀ bs s1, x.p.c.toNat % 256 ≠ 3 → s.relaxed x.t = false →
      s.readTgt x.t 0 (x.w.th x.p.lane).storeQ (.pad c a off) (y.ty.bits / 8) = .ok (bs, s1) → bs.length = y.ty.bits / 8 →
      ∃ t w, exec (.resultLand core wslot pos) s = .next t ∧ t.wave? x.w.id = some w
        ∧ w.out = x.w.out.set pos { x.p with
          done := true
          ext := [BitVec.ofNat 32 (leNat bs), BitVec.ofNat 32 (leNat bs / 2 ^ 32)] }
        ∧ ∀ q b, t.readAt q b 1 = s.readAt q b 1)
    ∧ (x.p.c.toNat % 256 = 3 → ∃ t w ent, exec (.resultLand core wslot pos) s = .next t ∧ t.wave? x.w.id = some w
      ∧ w.out = x.w.out.eraseIdx pos ∧ (w.th x.p.lane).storeQ = (x.w.th x.p.lane).storeQ ++ [ent]
      ∧ ent.place = .spad c ∧ ent.addr = a ∧ ent.bytes = leBytes (y.ty.bits / 8) x.p.b.toNat
      ∧ ∀ q b, t.readAt q b 1 = s.readAt q b 1)

/-- The index of element i of a tile in dimension d: the elements run through dimension 0 first (R172, R173). -/
def tileIndex (ext : Nat → Nat) (i : Nat) : Nat → Nat
  | 0 => i % ext 0
  | d + 1 => i / ((List.range (d + 1)).map ext).prod % ext (d + 1)

/-- itx (R172 to R174): a record that breaks the rules is FORMAT, and so is one whose IDX does not meet the progress of a
resumption; a segment reads its elements, writes the results in place, and at its end IDX of the named records goes on to
the next segment's first element, or to zero when the tile is done. -/
def iteratorsHolds : Prop :=
  (∀ s e, Issuing s e → ∀ (o : SwpOp) (x : Sweep), o.takes x.ty = true →
    let k := unitOf e
    let real := e.guard x.h &&& ~~~e.w.helperMask
    let part := (e.w.th (lowLane e.p.lanes)).seg
    let inp := e.p.inp
    let opds := if o = .copy then [x.a, x.d] else [x.a, x.b, x.d]
    let d := e.iter s x.d
    let srcs := (if o = .copy ∨ x.b = .zero then [x.a] else [x.a, x.b]).map (e.iter s)
    let total := itCount d
    let units := (total + e.w.width - 1) / e.w.width
    let lanes := (lanesOf real).filter fun l => k * e.w.width + l < total
    let index (i : Nat) : Nat := if k * e.w.width < total then itIndex d (k * e.w.width) i else 0
    let indices (t : State) (f : Nat → Nat) : Prop := ∃ w, t.wave? e.w.id = some w
      ∧ ∀ m : Fin 8, m.val < e.w.iters.length → .j m ∈ opds → ∀ i, i < itRank d → itIdx (getAt w.iters m.val 0) i = f i
    let bad (b : Nat) : Prop := ∃ tr : Trap, tr.cause = .format ∧ tr.aux0 = BitVec.ofNat 64 (12 + 256 * b)
      ∧ tr.lane = some (lowLane real) ∧ exec (.itx o x) s = .next (s.takeFault e.w e.p.lanes e.p.slot tr).stopIssue
    (e.guard x.h = 0 → ∃ t, exec (.itx o x) s = .next t ∧ NothingLeft s t e)
    ∧ (∀ b, real ≠ 0 → part ≠ 2 → itxBad x.ty e.w.width d srcs = some b → bad b)
    ∧ (real ≠ 0 → part = 0 → itxBad x.ty e.w.width d srcs = none → inp = true →
      (∃ i, i < itRank d ∧ itIdx d i ≠ index i) → bad 0x28)
    ∧ (∀ xs, e.guard x.h ≠ 0 → NoFaultMet e → (part = 2 ∨ itxBad x.ty e.w.width d srcs = none) →
      (part = 0 → inp = true → ∀ i, i < itRank d → itIdx d i = index i) →
      collect (fun l => e.itElem s x (o != .copy) (k * e.w.width + l) l) lanes = .ok xs →
      (part = 0 → ∃ t, exec (.itx o x) s = .next t ∧ Midway s t e 1 (e.w.out ++ segmentReads e (.itx o x) o xs)
        ∧ (inp = false → indices t fun _ => 0))
      ∧ (part = 1 → (∀ y ∈ xs, ∀ a, y.d = some (.glob, a) → (s.translate (taskAcc e.t true) a).isOk = true) →
        ∃ t, exec (.itx o x) s = .next t ∧ SegmentWrites s t e (.itx o x) o x.ty xs)
      ∧ (part = 2 → s.unsettled e.w e.p.lanes = false →
        ∃ t, exec (.itx o x) s = .next t ∧ SegmentEnds e t o x.ty real k units
          ∧ (itRank d ≤ 4 → (∀ i, i < itRank d → 0 < itExt d i) →
            indices t fun i => if k + 1 < units then itIndex d ((k + 1) * e.w.width) i else 0))))
  ∧ (∀ (r : BitVec 512) i dd, dd < 4 → itIndex r i dd = tileIndex (itExt r) i dd)
  ∧ ∀ r sh : BitVec 512, ∀ i, recField r 10 1 ≠ 0 → itRank r ≤ 4 →
    (itAddr sh r i : Int) = ((recField r 0 8 : Int)
      + ((List.range (itRank r)).map fun dd => if itBcast r dd then 0 else (tileIndex (itExt sh) i dd : Int) * itStride r dd).sum)
        % 2 ^ 32

/-! ## Synchronisation (spec/06 R183 to R195) -/

/-- A thread's state once what it waits for has come (R112, R184): it is ready at its next slot, or waits for what the
other member of its pair waits for (R47). -/
def released (th : Thread) (tick : Nat) : Thread :=
  if th.after = .ready then
    { th with
      run := if th.swAfter then .marker else .ready
      swAfter := false
      pc := th.next
      since := tick }
  else
    { th with
      run := th.after
      after := .ready }

/-- A thread of a crew in which something that park waits for has happened (R112). -/
def woken (on : Bool) (tick : Nat) (th : Thread) : Thread :=
  if !on then th else match th.run, th.after with
    | .wait (.park _), _ => released th tick
    | _, .wait (.park _) => { th with after := .ready }
    | _, _ => th

/-- bar (R184): misuse is BARRIER_MISUSE; arrivals count threads and end the phase where they reach the count; wait and
sync leave the executing threads waiting for the phase. -/
def Obligations.Barriers : Prop := ∀ s e, Issuing s e → ∀ (h : Head) (k : BarKind) (x : BarSrc) id count b m arrive,
  m = e.guard h → m ≠ 0 →
  id = (match x with
    | .reg a _ => (e.usrc s e.p.lanes a).toNat
    | .imm i _ => i.toNat) →
  count = (match x with
    | .reg _ c => (e.usrc s e.p.lanes c).toNat
    | .imm _ c => c.toNat) →
  b = getAt e.k.bars id .idle → arrive = (lanesOf m).length →
  let bad := count = 0 ∨ e.k.hdr.waves * e.w.width < count ∨ (b.arrivals ≠ 0 ∧ b.e ≠ count) ∨ count < b.arrivals + arrive
  (e.k.hdr.nbar ≤ id ∨ (k ≠ .wait ∧ bad) →
    Charged s e (.bar h k x) m { cause := .barrierMisuse, lane := none, aux0 := BitVec.ofNat 64 (id % 32) })
  ∧ (id < e.k.hdr.nbar → k = .wait → ∃ t, exec (.bar h k x) s = .next t
    ∧ ThreadsResult s t e m fun _ th => { th with run := .wait (.bar id b.phase false) })
  ∧ (id < e.k.hdr.nbar → k ≠ .wait → ¬bad → s.unsettled e.w m = false →
    ∃ t w c b1, exec (.bar h k x) s = .next t ∧ t.wave? e.w.id = some w ∧ t.crew? e.k.id = some c
      ∧ { t with
          waves := s.waves
          crews := s.crews } = s
      ∧ { c with bars := e.k.bars } = e.k ∧ c.bars = e.k.bars.set id b1 ∧ b1.e = count
      ∧ (b1.arrivals, b1.phase) = (if b.arrivals + arrive = count then (0, b.phase + 1)
          else (b.arrivals + arrive, b.phase))
      ∧ ∀ l, l < e.w.width → w.th l = woken (b.arrivals + arrive == count) s.tick
          (if k = .sync ∧ m.getLsbD l = true then { e.w.th l with run := .wait (.bar id b.phase true) } else e.w.th l))

/-- cwait and CWAIT_SATISFIED (R185): the executing threads wait for the counter; a thread goes on when its earlier
accesses are performed and the counter is at least the target, and not before. The read is an acquire: what the thread
is ordered after may grow. -/
def counterWaitsHolds : Prop :=
  (∀ s e, Issuing s e → ∀ (x : Ctr) a m, m = e.guard x.h → m ≠ 0 →
    a = addressOf s e (lowLane e.p.lanes) (if x.crew then .crew else .glob) x.a 0 →
    Reaches s e (if x.crew then .crew else .glob) false 8 a →
    ∃ t, exec (.cwait x) s = .next t ∧ ThreadsResult s t e m fun _ th =>
      { th with run := .wait (.counter x.crew a (match x.b with
        | .reg o => (e.usrc s e.p.lanes o).toNat
        | .imm i => i.toNat) x.scope e.p.slot) })
  ∧ ∀ (s : State) (r : ThreadRef) w k t0 crew a target sc slot tg bs s1, s.waveAt? r.core r.wslot = some w →
    s.wave? w.id = some w → w.threads.length = w.width →
    (w.th r.lane).run = .wait (.counter crew a target sc slot) → s.crew? w.crew = some k → s.task? k.task = some t0 →
    w.halted = false → s.unsettled w (1#64 <<< r.lane) = false → s.logging t0.ctx = false → s.replaying t0.ctx = false →
    s.target k t0 (if crew then .crew else .glob) false 8 a = .ok tg → s.readTgt t0 0 [] tg 8 = .ok (bs, s1) →
    (target ≤ leNat bs → ∃ t w', exec (.cwaitSatisfied r) s = .next t ∧ SameBesideWave s1 t w.id ∧ t.wave? w.id = some w'
      ∧ { w' with threads := w.threads } = w ∧ ∀ l, l < w.width → { w'.th l with ord := (w.th l).ord } =
        if l = r.lane ∧ l < 64 then released (w.th l) s.tick else w.th l)
    ∧ (leNat bs < target → exec (.cwaitSatisfied r) s = .fault .notEnabled)

/-- syarm, sywait, chwait and chtst (R186 to R190) on a word of the crew's scratchpad: syarm sets TARGET and FLAGS and
keeps COUNT, then the word advances where it must (helpers alone write nothing); sywait and chwait leave the threads
waiting; chtst tests a bitmap, as an acquire. -/
def syncWordsHolds : Prop := ∀ s e, Issuing s e → s.memOk = true → ∀ (x : SyncOp) a b m, m = e.guard x.h → m ≠ 0 →
  s.unsettled e.w m = false → a = addressOf s e (lowLane e.p.lanes) .crew x.a 0 →
  b = (match x.b with
    | .reg o => (e.usrc s e.p.lanes o).toNat
    | .imm i => i.toNat) →
  let pad := e.k.spadBase + a
  (a % 16 = 0 → a + 16 ≤ e.k.hdr.spad * 256 →
    (∃ t, exec (.sywait x) s = .next t ∧ ThreadsResult s t e m fun _ th =>
      { th with run := .wait (.gen pad (b % 2 ^ 32)) })
    ∧ (m &&& ~~~e.w.helperMask = 0 → exec (.syarm x) s = .next s)
    ∧ ∀ w4, m &&& ~~~e.w.helperMask ≠ 0 → s.readAt (.spad e.k.core) pad 16 = .ok w4 → e.k.core < s.cores.length →
      let y := advanced (b % 2 ^ 32) (fieldOf w4 4 4) (fieldOf w4 8 4)
      ∃ t, exec (.syarm x) s = .next t ∧ OtherBytes s t (.spad e.k.core) pad 16
        ∧ t.readAt (.spad e.k.core) pad 16 = .ok (leBytes 4 (b % 2 ^ 32) ++ leBytes 4 y.1 ++ leBytes 4 y.2
          ++ leBytes 4 (if x.flag then 1 else 0)))
  ∧ (a % 8 = 0 → a + 8 ≤ e.k.hdr.spad * 256 →
    (∃ t, exec (.chwait x) s = .next t ∧ ThreadsResult s t e m fun _ th =>
      { th with run := .wait (.chunk pad (BitVec.ofNat 64 b) x.flag) })
    ∧ ∀ bs d, s.readAt (.spad e.k.core) pad 8 = .ok bs →
      let hit := if x.flag then BitVec.ofNat 64 (leNat bs) &&& BitVec.ofNat 64 b ≠ 0
        else BitVec.ofNat 64 (leNat bs) &&& BitVec.ofNat 64 b = BitVec.ofNat 64 b
      let after (t : State) : State := t.orders e.w.id m fun _ o => o.learns (.upTo s.moment)
      (∀ n, d = .k n → ∃ t, exec (.chtst d x) s = .next (after t) ∧ KResult s t e m 0 d fun _ => decide hit)
      ∧ ∀ n, d = .s n → SDeclared e d → ∃ t, exec (.chtst d x) s = .next (after t)
        ∧ SResult s t e true d (if hit then 1 else 0))

/-- Elements that stand in a queue register: of a scratchpad queue those between head and tail, of a port those held
(R191 to R193). -/
def elements (q : QReg) : Nat := if q.kind = 1 then q.tail - q.head else q.elems.length

/-- qbind, qfree and qpoll (R192, R193): binding an unbound register that the header gives that kind, freeing an empty
one, and counting; any other use is QUEUE_MISUSE. -/
def Obligations.QueueRegisters : Prop := ∀ s e, Issuing s e → ∀ (h : Head) (n : Fin 16) m, m = e.guard h → m ≠ 0 →
  let q := getAt e.k.qs n.val ⟨0, 0, 0, 0, [], []⟩
  let misuse (i : Instr) : Prop :=
    Charged s e i m { cause := .queueMisuse, lane := none, aux0 := BitVec.ofNat 64 n.val }
  let sets (i : Instr) (r : QReg) : Prop := exec i s = .next (s.setCrew { e.k with qs := e.k.qs.set n.val r })
  (∀ k a, (q.kind ≠ 0 ∨ getAt e.k.hdr.qkind n.val 0 ≠ k.code → misuse (.qbind h k (.q n) a))
    ∧ (q.kind = 0 → getAt e.k.hdr.qkind n.val 0 = k.code →
      (k ≠ .spad → sets (.qbind h k (.q n) a) ⟨k.code, 0, 0, 0, [], []⟩)
      ∧ ∀ (v : Dword), k = .spad → v = e.usrc s m a →
        v.extractLsb' 18 6 = 0 → v.getLsbD 31 = false → v.extractLsb' 48 16 = 0 → v.extractLsb' 24 6 ≠ 0 →
        v.extractLsb' 32 16 ≠ 0 → (v.extractLsb' 0 18).toNat % 4 = 0 →
        (v.extractLsb' 0 18).toNat + 4 * (v.extractLsb' 24 6).toNat * (v.extractLsb' 32 16).toNat ≤ e.k.hdr.spad * 256 →
        sets (.qbind h k (.q n) a) ⟨1, v, 0, 0, [], []⟩))
  ∧ (q.kind = 0 ∨ elements q ≠ 0 → misuse (.qfree h (.q n)))
  ∧ (q.kind ≠ 0 → elements q = 0 → sets (.qfree h (.q n)) ⟨0, 0, 0, 0, [], []⟩)
  ∧ ∀ (space : Bool) d, (q.kind = 0 → misuse (.qpoll h space d (.q n)))
    ∧ (q.kind ≠ 0 → VDeclared e d 1 → SDeclared e d → (∀ r, d ≠ .k r) →
      let c : Nat := if space then (if q.kind = 1 then q.depth - (q.tail - q.head) else 0)
        else if q.kind = 1 then q.tail - q.head else (q.elems.takeWhile fun x => x.2.isSome).length
      ∃ t, exec (.qpoll h space d (.q n)) s = .next t
        ∧ GroupResult s t e h none d false (fun _ => false) c fun _ => c)

/-- A pop of queue register n gives the element bs and leaves the register as q' (R191, R193): the oldest element of a
port, or the one at the head of a scratchpad queue. A pop of a queue that several waves push to (logged: R162) is stated
where neither logging nor replay is on and the group's accesses are performed. -/
def Popped (s : State) (e : Env) (n : Fin 16) (bs : List Byte) (q' : QReg) : Prop :=
  let q := e.k.q n.val
  (∃ seq ws rest, q.kind ∈ [2, 3, 4, 5] ∧ q.elems = (seq, some ws) :: rest ∧ bs = ws.flatMap (fun v => leBytes 4 v.toNat)
    ∧ q' = { q with elems := rest })
  ∨ (q.kind = 1 ∧ q.head < q.tail
    ∧ (q.mp = true → s.unsettled e.w e.p.lanes = false ∧ s.logging e.t.ctx = false ∧ s.replaying e.t.ctx = false)
    ∧ s.readAt (.spad e.k.core) (e.k.spadBase + q.bind.toNat % 2 ^ 18 + q.esz * (q.head % q.depth)) q.esz = .ok bs
    ∧ q' = { q with
      head := q.head + 1
      pushers := q.pushers.drop 1 })

/-- mov (R127, R128, R191): a register or an immediate to a register; a pop takes the oldest element, whose parts are
results of the executing threads; a push writes the group's element at the tail; an empty queue and a full one make the
group wait; a register that is not bound is QUEUE_MISUSE. -/
def Obligations.Moves : Prop := ∀ s e, Issuing s e → ∀ x : VMov,
  let wide := x.ty.bits == 64
  let n := x.ty.bits / 8
  let part (bs : List Byte) (l : Nat) : Nat := fieldOf bs (n * l) n
  let waits (y : Why) : Prop := exec (.mov x) s = .next (s.setWave
    (e.w.each e.p.lanes fun _ th => { th with run := .hold y })).stopIssue
  let misuse (q : Fin 16) : Prop :=
    Charged s e (.mov x) (e.guard x.h) { cause := .queueMisuse, lane := none, aux0 := BitVec.ofNat 64 q.val }
  ((∀ q, x.d ≠ .q q) → VDeclared e x.d (regsOf x.ty) →
    (∀ o, x.a = .reg o → (∀ q, o ≠ .q q) → ∃ t, exec (.mov x) s = .next t
      ∧ VResult s t e (e.exec x.h x.mod) (e.zeroed x.h x.mod) x.d wide fun l => e.src s l wide o)
    ∧ (∀ i, x.a = .imm i → ∃ t, exec (.mov x) s = .next t
      ∧ VResult s t e (e.exec x.h x.mod) (e.zeroed x.h x.mod) x.d wide fun _ =>
        if x.ty.bits = 64 then (i.signExtend 64).toNat else i.toNat)
    ∧ ∀ (q : Fin 16) bs q', x.a = .reg (.q q) → e.guard x.h ≠ 0 → Popped s e q bs q' →
      ∃ t w k, exec (.mov x) s = .next t ∧ t.wave? e.w.id = some w ∧ t.crew? e.k.id = some k
        ∧ { t with
            waves := s.waves
            crews := s.crews } = s
        ∧ getAt k.qs q.val ⟨0, 0, 0, 0, [], []⟩ = q' ∧ { k with qs := e.k.qs } = e.k
        ∧ { w with
            out := e.w.out
            threads := e.w.threads } = e.w
        ∧ (∀ l, l < e.w.width → { w.th l with ord := (e.w.th l).ord } = e.w.th l)
        ∧ w.out = e.w.out ++ (lanesOf (e.exec x.h x.mod ||| e.zeroed x.h x.mod)).map fun l =>
          { waiting e (.mov x) (1#64 <<< l) l 0 0 0 (wordsOf wide (if (e.exec x.h x.mod).getLsbD l then part bs l else 0))
            with
            dst := x.d
            done := true })
  ∧ (∀ q : Fin 16, x.a = .reg (.q q) → e.guard x.h ≠ 0 → ((e.k.q q.val).kind = 0 → misuse q)
    ∧ ((e.k.q q.val).kind ≠ 0 → (e.k.q q.val).avail = 0 → waits (.empty q.val)))
  ∧ ∀ (q0 : Fin 16) (val : Nat → Nat), x.d = .q q0 → e.guard x.h ≠ 0 →
    ((∃ i, x.a = .imm i ∧ val = fun _ => if x.ty.bits = 64 then (i.signExtend 64).toNat else i.toNat)
      ∨ (∃ o, x.a = .reg o ∧ (∀ q, o ≠ .q q) ∧ val = fun l => e.src s l wide o)
      ∨ ∃ q1 bs q', x.a = .reg (.q q1) ∧ q1 ≠ q0 ∧ (e.k.q q0.val).tail - (e.k.q q0.val).head < (e.k.q q0.val).depth
        ∧ Popped s e q1 bs q' ∧ val = part bs) →
    let q := e.k.q q0.val
    let adr := e.k.spadBase + q.bind.toNat % 2 ^ 18 + q.esz * (q.tail % q.depth)
    let real := e.guard x.h &&& ~~~e.w.helperMask
    (q.kind ≠ 1 → (∀ q1, x.a ≠ .reg (.q q1)) → misuse q0)
    ∧ (q.kind = 1 → real = 0 → (∀ q1, x.a ≠ .reg (.q q1)) → exec (.mov x) s = .next s)
    ∧ (q.kind = 1 → real ≠ 0 → q.tail - q.head < q.depth → s.unsettled e.w e.p.lanes = false → s.replaying e.t.ctx = false →
      s.memOk = true → e.k.core < s.cores.length → 0 < n →
      (∀ i, i < q.esz → (s.readAt (.spad e.k.core) (adr + i) 1).isOk = true) →
      ∃ t k v, exec (.mov x) s = .next t ∧ t.crew? e.k.id = some k
        ∧ getAt k.qs q0.val ⟨0, 0, 0, 0, [], []⟩ = { q with
            tail := q.tail + 1
            pushers := q.pushers ++ [(e.w.wslot, v)] }
        ∧ OtherBytes s t (.spad e.k.core) adr q.esz
        ∧ ∀ i, i < q.esz → t.readAt (.spad e.k.core) (adr + i) 1 = .ok [
          let l := i / n
          if l < e.w.width && (e.exec x.h x.mod &&& ~~~e.w.helperMask).getLsbD l
          then BitVec.ofNat 8 (val l / 2 ^ (8 * (i % n))) else 0])
    ∧ (q.kind = 1 → real ≠ 0 → q.depth ≤ q.tail - q.head → (∀ q1, x.a ≠ .reg (.q q1)) → waits (.room q0.val 1))

/-! ## Matrix (spec/07) -/

/-- mfmt, mbst and opfence (R202, R204, R205, R229): the crew's format mode where the combination exists, else FORMAT or
ILLEGAL_FIELD; the engine's hold timer in units of 16 clocks; writes that happen before an opfence are ordered before
later commands, which wait for the accesses before it that are still to be performed (the fields dirty and fence). -/
def matrixModesHolds : Prop := ∀ s e, Issuing s e → ∀ (h : Head) m, m = e.guard h → m ≠ 0 →
  (∀ (x : MfmtSrc) v, v = (match x with
      | .reg a => (e.usrc s e.p.lanes a).toNat
      | .imm i => i.toNat) →
    (v < 2 ^ 22 → mfmtOk v = true → exec (.mfmt h x) s = .next (s.setCrew { e.k with mfmt := BitVec.ofNat 64 v }))
    ∧ (v < 2 ^ 22 → mfmtOk v = false → Charged s e (.mfmt h x) m { cause := .format, lane := none })
    ∧ (2 ^ 22 ≤ v → ∃ tr : Trap, tr.cause = .illegalField ∧ Charged s e (.mfmt h x) m tr))
  ∧ (∀ n : BitVec 12, e.k.core < s.cores.length → ∃ t, exec (.mbst h n) s = .next t
    ∧ { t with cores := s.cores } = s ∧ (∀ c, c ≠ e.k.core → t.core c = s.core c)
    ∧ t.core e.k.core = { s.core e.k.core with hold := 16 * n.toNat })
  ∧ ∃ t k w f r, exec (.opfence h) s = .next t ∧ t.crew? e.k.id = some k ∧ t.wave? e.w.id = some w
    ∧ { t with
        waves := s.waves
        crews := s.crews } = s
    ∧ { k with
        dirty := e.k.dirty
        fence := e.k.fence } = e.k
    ∧ k.dirty = e.k.dirty.filter (fun d => (lanesOf m).all fun l =>
        let o := (e.w.th l).ord
        !(o.view.marks.contains d.id || o.own.contains d.id || o.loose.contains d.id))
    ∧ k.fence = f :: r ∧ f.wave = e.w.id ∧ f.lanes = m ∧ (∀ y ∈ r, y ∈ e.k.fence)
    ∧ ∀ l, l < e.w.width → { w.th l with ord := (e.w.th l).ord } = e.w.th l

/-- The format modes that exist (R205): the types of A, B and C go together, B is plain or coded, and scales are given
for the block-scaled types alone. -/
def formatModesHolds : Prop := ∀ v, v < 2 ^ 22 → (mfmtOk v = true ↔
  let aty := Ty.ofCode? (v % 64)
  let bty := Ty.ofCode? (v / 2 ^ 6 % 64)
  let cty := Ty.ofCode? (v / 2 ^ 14 % 64)
  let small : List (Option Ty) := [some .e4m3, some .e5m2, some .e2m1, some .mx8e4, some .mx8e5, some .mx4]
  let scaled : List (Option Ty) := [some .mx8e4, some .mx8e5, some .mx4]
  ((aty = some .f64 ∧ bty = some .f64 ∧ cty = some .f64)
    ∨ (cty = some .f32 ∧ aty = bty ∧ aty ∈ [some Ty.f32, some .f16, some .bf16])
    ∨ (cty = some .i32 ∧ aty ∈ [some Ty.i8, some .n8] ∧ bty ∈ [some Ty.i8, some .n8])
    ∨ (cty = some .f32 ∧ aty ∈ small ∧ bty ∈ small))
  ∧ v / 2 ^ 12 % 4 ≤ 1 ∧ (v / 2 ^ 20 % 2 = 1 ↔ aty ∈ scaled) ∧ (v / 2 ^ 21 % 2 = 1 ↔ bty ∈ scaled))

/-- The engine commands (R198): guard, token, whether a format mode is needed, and the operands D, A and B. -/
def commandOf : Instr → Option (Head × Bool × Bool × Opd × Opd × Opd)
  | .mma x | .mmac x => some (x.h, x.tok, true, x.d, x.a, x.b)
  | .tld x | .tst x => some (x.h, x.tok, false, x.d, x.a, .zero)
  | .tzro x => some (x.h, x.tok, false, x.d, .zero, .zero)
  | .wbld x => some (x.h, x.tok, false, x.d, x.a, .zero)
  | .wbinv x => some (x.h, x.tok, false, .zero, (match x.range with
    | some r => r.1
    | none => .zero), .zero)
  | .mdrn x => some (x.h, x.tok, true, x.d, x.a, x.b)
  | _ => none

/-- Engine commands enter their crew's queue (R198 to R200, R204, R215, R224): the command of the lowest executing
thread that is no helper, with its descriptor registers as they are now, and one reserved element where a token is
asked for; a full queue makes the group wait; a drain under RSR advances the drawing thread; mmac holds its threads
until the cluster operation is done, and then clears %pix and goes on. -/
def Obligations.EngineCommands : Prop := ∀ s e, Issuing s e → ∀ i h tok fmt d a b m,
  commandOf i = some (h, tok, fmt, d, a, b) → m = e.guard h &&& ~~~e.w.helperMask →
  (m = 0 → exec i s = .next s)
  ∧ (m ≠ 0 → (∀ x, i = .mmac x → e.k.mmacOf e.w.id e.p.slot m = none ∧ (e.w.th (lowLane m)).exch = false) →
    (fmt = true → e.k.mfmt = 0 → exec i s = .next (s.takeFault e.w e.p.lanes e.p.slot
      { cause := .format, lane := some (lowLane m) }).stopIssue)
    ∧ ((fmt = true → e.k.mfmt ≠ 0) → tok = false → 32 ≤ e.k.cmds.length →
      exec i s = .next (s.setWave (e.w.each e.p.lanes fun _ th => { th with run := .hold .command })).stopIssue)
    ∧ ((fmt = true → e.k.mfmt ≠ 0) → e.k.cmds.length < 32 →
      (tok = true → ∃ q, e.k.qs.findIdx? (fun q => q.kind == 2) = some q ∧ 0 < (e.k.q q).free) →
      ∃ t k w c, exec i s = .next t ∧ t.crew? e.k.id = some k ∧ t.wave? e.w.id = some w
        ∧ { t with
            waves := s.waves
            crews := s.crews
            iss := s.iss } = s
        ∧ { k with
            cmds := e.k.cmds
            eseq := e.k.eseq
            wset := e.k.wset
            fence := e.k.fence
            qs := e.k.qs } = e.k
        ∧ k.cmds = e.k.cmds ++ [c] ∧ k.eseq = (e.k.eseq + 1) % 2 ^ 32
        ∧ c.i = i ∧ c.slot = e.p.slot ∧ c.wave = e.w.id ∧ c.lane = lowLane m ∧ c.mfmt = e.k.mfmt ∧ c.mode = e.p.mode
        ∧ c.seq = e.k.eseq ∧ c.d = e.usrc s e.p.lanes d ∧ c.a = e.usrc s e.p.lanes a ∧ c.b = e.usrc s e.p.lanes b
        ∧ c.rngk = (e.w.th (lowLane m)).rngk ∧ c.rngc = (e.w.th (lowLane m)).rngc
        ∧ (tok = false → k.qs = e.k.qs)
        ∧ (∀ q, tok = true → e.k.qs.findIdx? (fun q => q.kind == 2) = some q →
          k.qs = e.k.qs.set q { e.k.q q with elems := (e.k.q q).elems ++ [(e.k.eseq, none)] })
        ∧ ((∀ x, i ≠ .mmac x) → t.iss = s.iss ∧ ∀ l, l < e.w.width → w.th l = { e.w.th l with rngc := (w.th l).rngc })
        ∧ (∀ x, i = .mmac x → t.iss = none ∧ ∀ l, l < e.w.width →
          w.th l = if e.p.lanes.getLsbD l then { e.w.th l with run := .hold .mmac } else e.w.th l)
        ∧ ∀ l, l < e.w.width → (w.th l).rngc = match i with
          | .mdrn x => if l = lowLane m ∧ (x.rm = .rsr ∨ (x.rm = .dyn ∧ e.p.mode.toNat % 8 = 6))
              then (e.w.th l).rngc + BitVec.ofNat 128 (((x.m.toNat + 1) * (16 * (x.n.toNat + 1)) + 15) / 16)
              else (e.w.th l).rngc
          | _ => (e.w.th l).rngc))
  ∧ ∀ x, i = .mmac x → m ≠ 0 → e.k.mmacOf e.w.id e.p.slot m = none → (e.w.th (lowLane m)).exch = true →
    ∃ t, exec i s = .next t ∧ t.iss = s.iss ∧ ∃ w, t.wave? e.w.id = some w ∧ w.out = e.w.out ∧ ∀ l, l < e.w.width →
      (w.th l).v = (e.w.th l).v ∧ (w.th l).run = (e.w.th l).run
        ∧ (e.p.lanes.getLsbD l = true → (w.th l).pix = 0 ∧ (w.th l).exch = false)

/-- vmm and kmma as they issue (R225, R227): each executing thread's inputs and accumulators are taken, and its result
is outstanding. trow (R217): a lane's registers are a column of the crew's tile store, at 4 bytes a lane (a value that
an engine command writes without order is UNDEFINED: R203). -/
def Obligations.RowsAndVectors : Prop := ∀ s e, Issuing s e →
  let words (l : Nat) (o : Opd) (n : Nat) : List Word := match o with
    | .v x => (List.range n).map fun i => e.v s l (x.val + i)
    | _ => List.replicate n 0
  (∀ x : Vmm, Enters s e (.vmm x) ((lanesOf (e.guard x.h)).map fun l =>
    { waiting e (.vmm x) (1#64 <<< l) l 0 (e.src s l false x.b) e.k.eseq
        (words l x.a ((x.k.toNat + x.ty.perReg - 1) / x.ty.perReg) ++ words l x.d x.n.toNat) with dst := x.d }))
  ∧ (∀ h b4 d a b, Enters s e (.kmma h b4 d a b) ((lanesOf (e.guard h)).map fun l =>
    { waiting e (.kmma h b4 d a b) (1#64 <<< l) l ((e.usrc s e.p.lanes b).toNat % 2 ^ 32) 0 0
        (words l a 8 ++ words l d 16) with dst := d }))
  ∧ ∀ (h : Head) (t r : Opd) (n : BitVec 7) off,
    off = (e.usrc s e.p.lanes t).toNat → off % (4 * e.w.width) = 0 →
    off + 4 * n.toNat * e.w.width ≤ e.k.hdr.trows * 1024 →
    let adr (j l : Nat) : Nat := e.k.tileBase + off + 4 * (j * e.w.width + l)
    (∀ j l, (e.actor s l).conflicts s (e.k.tileSpan (off + 4 * (j * e.w.width + l)) 4) = false) →
    (e.guard h ≠ 0 →
      (∀ j l, j < n.toNat → (e.guard h).getLsbD l = true → (s.readAt (.tile e.k.core) (adr j l) 4).isOk = true) →
      Enters s e (.trow h true t r n) ((lanesOf (e.guard h)).map fun l =>
        { waiting e (.trow h true t r n) (1#64 <<< l) l 0 0 0 ((List.range n.toNat).map fun j =>
            BitVec.ofNat 32 (leNat (s.bytesAt (.tile e.k.core) (adr j l) 4))) with
          dst := r
          done := true }))
    ∧ ∀ v : Fin 256, r = .v v → s.memOk = true → e.k.core < s.cores.length →
      (∀ j l, j < n.toNat → (e.guard h &&& ~~~e.w.helperMask).getLsbD l = true →
        (s.readAt (.tile e.k.core) (adr j l) 4).isOk = true) →
      ∃ u w, exec (.trow h false t r n) s = .next u ∧ u.wave? e.w.id = some w
        ∧ (∀ l, l < e.w.width → { w.th l with ord := (e.w.th l).ord } = e.w.th l)
        ∧ (∀ j l, j < n.toNat → (e.guard h &&& ~~~e.w.helperMask).getLsbD l = true →
          u.readAt (.tile e.k.core) (adr j l) 4 = .ok (leBytes 4 (e.v s l (v.val + j)).toNat))
        ∧ ∀ q b, (∀ j l, j < n.toNat → (e.guard h &&& ~~~e.w.helperMask).getLsbD l = true →
            q ≠ .tile e.k.core ∨ b < adr j l ∨ adr j l + 4 ≤ b) →
          u.readAt q b 1 = s.readAt q b 1

/-- The engine is about to go on with the oldest command of a crew, which it accepts, whose data is ordered, and before
which nothing is left to do (R198, R199, R202, R203). -/
def Performing (s : State) (crew : Nat) (k : Crew) (t : Task) (c : Cmd) : Prop :=
  s.crew? crew = some k ∧ s.task? k.task = some t ∧ (∃ r, k.cmds = c :: r) ∧ k.stuck = false ∧ c.wait = none
    ∧ c.hot = [] ∧ c.taint = false ∧ (c.accepted = true ∨ s.acceptCmd k t c = none) ∧ k.core < s.cores.length
    ∧ s.memOk = true ∧ k.core < 512 ∧ (∀ b ∈ c.behind, s.performed b = true)
    ∧ (vmmOrdered c.i = true → s.vmmBefore k c = false)

/-- The command has done n of the units that are left of it: it leaves the queue where that is all, and else stays at the
head with its progress (R230; how many are done together is free: spec/09 R260). -/
def Advances (u : State) (crew : Nat) (k : Crew) (c : Cmd) (n rest : Nat) : Prop :=
  n ≤ rest ∧ (0 < rest → 0 < n) ∧ ∃ k', u.crew? crew = some k' ∧ k'.cmds = if n = rest then k.cmds.drop 1
    else { c with
      accepted := true
      prog := c.prog + n } :: k.cmds.drop 1

/-- ENGINE_COMMAND_DONE (R199, R216, R219, R220, R230): tile moves and weight loads copy 8-byte granules, tzro clears
them, wbinv ends the residency of the images it overlaps; wbld checks its header first, and its image is resident at its
end; a command that fails its checks does not run, and no later one does. -/
def Obligations.EngineMoves : Prop := ∀ s crew k t c,
  (Performing s crew k t c →
    let tile (a : Nat) : Nat := k.tileBase + a
    let pad (a : Nat) : Nat := k.spadBase + a
    let copied (units : Nat) (src dst : Place) (sa da : Nat) (done : State → Prop) : Prop :=
      let from' := sa + 8 * c.prog
      let into := da + 8 * c.prog
      let rest := units - c.prog
      from' % 8 = 0 → into % 8 = 0 → (s.readAt src from' (8 * rest)).isOk = true →
      ∃ u n, exec (.engineCommandDone crew) s = .next u ∧ Advances u crew k c n rest
        ∧ u.readAt dst into (8 * n) = s.readAt src from' (8 * n)
        ∧ OtherBytes s u dst into (8 * n) ∧ (n = rest → done u)
    (∀ x, c.i = .tld x → copied (8 * x.len.toNat) (.spad k.core) (.tile k.core) (pad c.a.toNat) (tile c.d.toNat)
      fun _ => True)
    ∧ (∀ x, c.i = .tst x → copied (8 * x.len.toNat) (.tile k.core) (.spad k.core) (tile c.a.toNat) (pad c.d.toNat)
      fun _ => True)
    ∧ (∀ x, c.i = .tzro x → let d := tile c.d.toNat + 8 * c.prog
      ∃ u n, exec (.engineCommandDone crew) s = .next u ∧ Advances u crew k c n (8 * x.len.toNat - c.prog)
        ∧ (d % 8 = 0 → u.readAt (.tile k.core) d (8 * n) = .ok (List.replicate (8 * n) 0))
        ∧ (d % 8 = 0 → OtherBytes s u (.tile k.core) d (8 * n)))
    ∧ (∀ x im, c.i = .wbld x → x.crew = true → c.image = some im →
      copied ((64 + im.len) / 8) (.spad k.core) (.wbuf k.core) (pad c.a.toNat) c.d.toNat fun u =>
        ∀ j, j ∈ (u.core k.core).images ↔ j = im ∨ (j ∈ (s.core k.core).images
          ∧ (im.off + 64 + im.len ≤ j.off ∨ j.off + 64 + j.len ≤ im.off)))
    ∧ (∀ x bs im, c.i = .wbld x → x.crew = true → c.image = none →
      s.readAt (.spad k.core) (pad c.a.toNat) 64 = .ok bs → imageHeader c.d.toNat bs = .ok im → im.lenOk = true →
      c.d.toNat + 64 + im.len ≤ 2 ^ 18 → c.a.toNat + 64 + im.len ≤ k.hdr.spad * 256 →
      ∃ u k' c', exec (.engineCommandDone crew) s = .next u ∧ u.crew? crew = some k' ∧ k'.cmds = c' :: k.cmds.drop 1
        ∧ c'.i = c.i ∧ c'.image = some im ∧ c'.begun = true ∧ c'.prog = c.prog ∧ ∀ q b, u.readAt q b 1 = s.readAt q b 1)
    ∧ ∀ x, c.i = .wbinv x →
      ∃ u k', exec (.engineCommandDone crew) s = .next u ∧ u.crew? crew = some k' ∧ k'.cmds = k.cmds.drop 1
        ∧ (∀ q b, u.readAt q b 1 = s.readAt q b 1)
        ∧ ∀ im, im ∈ (u.core k.core).images ↔ im ∈ (s.core k.core).images ∧ match x.range with
          | none => False
          | some (_, n) => c.a.toNat % 2 ^ 18 + 64 * n.toNat ≤ im.off ∨ im.off + 64 + im.len ≤ c.a.toNat % 2 ^ 18)
  ∧ ∀ tr r w, s.crew? crew = some k → s.task? k.task = some t → k.cmds = c :: r → k.stuck = false → c.wait = none →
    c.accepted = false → (∀ x, c.i ≠ .mmac x) → (vmmOrdered c.i = true → s.vmmBefore k c = false) → (∀ b ∈ c.behind, s.performed b = true) →
    s.acceptCmd k t c = some tr → tr.cause ≠ .pageNotPresent → s.wave? c.wave = some w →
    (w.th c.lane).run ≠ .ended →
    ∃ u k', exec (.engineCommandDone crew) s = .next u ∧ u.crew? crew = some k' ∧ k'.cmds = r ∧ k'.stuck = true
      ∧ exec (.engineCommandDone crew) u = .fault .notEnabled

/-- One block of an accumulator element (R94, R211): the exact sum of the accumulator and the block's products, rounded
once; integers wrap. -/
def blockResult (cty : Ty) (acc : Nat) (ps : List ((FVal × FVal) × (FVal × FVal))) : Nat :=
  match fmtOf cty with
  | some f => matBlock f acc (ps.map fun p => scaledProduct p.1.1 p.2.1 p.1.2 p.2.2)
  | none => (BitVec.ofNat 32 acc + BitVec.ofInt 32 (ps.map fun p => (p.1.1.toRat * p.2.1.toRat).floor).sum).toNat

/-- mma (R206 to R212): it begins with the image that its descriptor names; then every element of the accumulators is its
old value, or zero under Z at the first block, and the blocks of the products of its row of A and its column of the
image, in ascending K, block by block; no other byte of memory changes. -/
def Obligations.Multiplication : Prop := ∀ s crew k t c x im, Performing s crew k t c → c.i = .mma x →
  let f := matMode c.mfmt.toNat
  let m := x.m.toNat + 1
  let n := 16 * (x.n.toNat + 1)
  let kk := 32 * (x.k.toNat + 1)
  let z := if f.cty = .f64 then 8 else 4
  let p := if f.aty = .f64 then 4 else 32
  let bits := matBits f.aty
  let row (i : Nat) : Nat := k.tileBase + c.a.toNat % 2 ^ 20 + i * (16 * (c.a.toNat / 2 ^ 40 % 2 ^ 12))
  let srow (i : Nat) : Nat := k.tileBase + c.a.toNat / 2 ^ 20 % 2 ^ 20 + i * (c.a.toNat / 2 ^ 52 % 2 ^ 12)
  let acc (i j : Nat) : Nat := k.tileBase + c.d.toNat % 2 ^ 20 + i * (64 * (c.d.toNat / 2 ^ 20 % 2 ^ 12)) + j * z
  let k0 := c.b.toNat / 2 ^ 18 % 2 ^ 14
  let j0 := c.b.toNat / 2 ^ 32 % 2 ^ 10
  (c.image = none → mmaImage (s.core k.core) c f n kk = some im →
    ∃ u k', exec (.engineCommandDone crew) s = .next u ∧ u.crew? crew = some k' ∧ k'.cmds = { c with
        accepted := true
        begun := true
        image := some im } :: k.cmds.drop 1
      ∧ ∀ q b, u.readAt q b 1 = s.readAt q b 1)
  ∧ ∀ bs, c.image = some im → c.prog < (kk + p - 1) / p →
  (∀ q, q ≤ (kk + p - 1) / p - c.prog →
    s.imageData k.core im (cmdFormat c im.off 8 0) (k0 + c.prog * p) (min (q * p) (kk - c.prog * p)) j0 n = .ok bs) →
  (∀ i, i < m → (s.readAt (.tile k.core) (row i) (kk * bits / 8)).isOk = true
    ∧ (f.scl % 2 = 1 → (s.readAt (.tile k.core) (srow i) (kk / 32)).isOk = true)
    ∧ (s.readAt (.tile k.core) (acc i 0) (n * z)).isOk = true) →
  rowsMeet m (accBase c.d) (accPitch c.d) (n * z) (c.a.toNat % 2 ^ 20) (16 * (c.a.toNat / 2 ^ 40 % 2 ^ 12))
    (kk * bits / 8) = false →
  (f.scl % 2 = 1 → rowsMeet m (accBase c.d) (accPitch c.d) (n * z) (c.a.toNat / 2 ^ 20 % 2 ^ 20)
    (c.a.toNat / 2 ^ 52 % 2 ^ 12) (kk / 32) = false) →
  n * z ≤ accPitch c.d →
  let a (i q : Nat) : FVal × FVal :=
    (matValue f.aty (leNat (s.bytesAt (.tile k.core) (row i) (kk * bits / 8)) / 2 ^ (q * bits) % 2 ^ bits),
      if f.scl % 2 = 1 then scaleValue (leNat (s.bytesAt (.tile k.core) (srow i + q / 32) 1)) else scaleOne)
  let b (q j : Nat) : FVal × FVal := imageElem im.ty im.kb bs (k0 + q) (j0 + j)
  let value (blocks i j : Nat) : Nat := (List.range blocks).foldl
    (fun v g => blockResult f.cty v ((List.range p).map fun q =>
      (a i ((c.prog + g) * p + q), b ((c.prog + g) * p + q) j)))
    (if c.d.getLsbD 32 = true ∧ c.prog = 0 then 0 else leNat (s.bytesAt (.tile k.core) (acc i j) z))
  ∃ u blocks, exec (.engineCommandDone crew) s = .next u ∧ Advances u crew k c blocks ((kk + p - 1) / p - c.prog)
    ∧ (∀ i j, i < m → j < n → u.readAt (.tile k.core) (acc i j) z = .ok (leBytes z (value blocks i j)))
    ∧ ∀ q adr, (∀ i, i < m → q ≠ .tile k.core ∨ adr < acc i 0 ∨ acc i 0 + n * z ≤ adr) →
      u.readAt q adr 1 = s.readAt q adr 1

/-- The cluster operation (R213 to R215): when every crew that the task launched has its mmac at the head, none waits,
and they agree, the operation begins with its image staged, and then each crew's engine completes a block, and its
command goes on with the next one or leaves the queue. -/
def clusterBlocksHolds : Prop := ∀ s task t p r, s.task? task = some t →
  s.mmacCrews t = some (p :: r) → (s.crews.map (·.id)).Nodup → (∀ x ∈ p :: r, s.crew? x.1.id = some x.1) →
  (∀ x ∈ p :: r, x.1.stuck = false ∧ x.2.1.wait = none ∧ s.vmmBefore x.1 x.2.1 = false
    ∧ (∀ b ∈ x.2.1.behind, s.performed b = true) ∧ (x.2.1.accepted = true ∨ s.acceptCmd x.1 t x.2.1 = none)) →
  (∀ x ∈ r, mmacAgree p x = true) →
  let blocks := (32 * (p.2.2.k.toNat + 1) + blockLen (matMode p.2.1.mfmt.toNat).aty - 1)
    / blockLen (matMode p.2.1.mfmt.toNat).aty
  (∀ im s1, (∀ x ∈ p :: r, x.2.1.begun = true) → p.2.1.image = some im →
    s.mmacBlocks im p.2.1.prog (p :: r) = .ok s1 →
    ∃ u, exec (.mmacBlock task) s = .next u ∧ ∀ x ∈ p :: r, ∃ k', u.crew? x.1.id = some k'
      ∧ if p.2.1.prog + 1 < blocks then ∃ c, k'.cmds = c :: x.1.cmds.drop 1 ∧ c.i = x.2.1.i ∧ c.prog = p.2.1.prog + 1
        else k'.cmds = x.1.cmds.drop 1)
  ∧ ∀ hs s1 im s2, (∃ x ∈ p :: r, x.2.1.begun = false) →
    s.headerAt p.1 t p.2.1 false p.2.1.b.toNat = .ok (hs, s1) → mmacHeader p.2.1 p.2.2 hs = .ok im →
    s1.mmacStage t p r im = .ok s2 →
    ∃ u, exec (.mmacBlock task) s = .next u ∧ ∀ x ∈ p :: r, ∃ k' c, u.crew? x.1.id = some k'
      ∧ k'.cmds = c :: x.1.cmds.drop 1 ∧ c.i = x.2.1.i ∧ c.begun = true ∧ c.image = some im ∧ c.prog = x.2.1.prog

/-- The 16-clock boundary of an engine's power level (R228, R458, R459): it moves by one towards the level that it is
due, at most 8 engines of a die moving. Each clock the hold timers of engines that do not multiply run down by one. -/
def powerLevelsHolds : Prop := ∀ (s : State) core, core < 512 → core < s.cores.length → s.tick % 16 = 0 →
  (s.core core).stepped / 2 ≠ s.tick + 1 →
  let x := s.core core
  let cap := 8 - s.field (.thstat (core / 64)) 8 3
  let due := if cap < x.power then x.power - 1
    else if s.multiplying core = true ∨ x.hold ≠ 0 then (if x.power < cap then x.power + 1 else x.power) else x.power - 1
  ∃ u, exec (.enginePowerStep core) s = .next u ∧ { u with cores := s.cores } = s
    ∧ (∀ c, c ≠ core → u.core c = s.core c)
    ∧ (u.core core).power = (if ((List.range (core % 64)).filter fun i => s.steps (core / 64 * 64 + i)).length < 8
      then due else x.power)
    ∧ { u.core core with
        power := x.power
        stepped := x.stepped } = x
    ∧ s.holdClock.core core = { x with hold := if s.multiplying core = true then x.hold else x.hold - 1 }

/-! ## Sampling, tracing, random numbers (spec/08) -/

/-- The sampler instructions (R233, R237, R238): guard, whether levels are implicit, whether filtering draws, header,
destination, registers of the result, coordinates and C of a lane. -/
def requestOf (s : State) (e : Env) : Instr → Option (Head × Bool × Bool × Opd × Opd × Nat × (Nat → List Word) × (Nat → Word))
  | .smpl f x => some (x.h, lodIsLb x.lod, f == .sto, x.b, x.d, x.n.toNat + 1, coordinates x (x.ncrd.toNat + 1), level x)
  | .smpg _ x => some (x.h, lodIsLb x.lod, false, x.b, x.d, 4, coordinates x (x.ncrd.toNat + 1), level x)
  | .latf f x => some (x.h, lodIsLb x.lod, f == .sto, x.b, x.d, x.n.toNat + 1, coordinates x 2, level x)
  | .smpq h true d a b n => some (h, true, false, b, d, 4, fun l => (List.range (n.toNat + 1)).map fun k => match a with
      | .v r => e.v s l (r.val + k)
      | _ => 0, fun _ => 0)
  | .smpq h false d a b _ => some (h, false, false, b, d, 4, fun l => [BitVec.ofNat 32 (e.src s l false a)], fun _ => 0)
  | _ => none
where
  coordinates (x : Smpl) (n l : Nat) : List Word := (List.range n).map fun k => match x.a with
    | .v r => e.v s l (r.val + k)
    | _ => 0
  level (x : Smpl) (l : Nat) : Word := match x.lod.reg? with
    | some c => BitVec.ofNat 32 (e.src s l false c)
    | none => 0

/-- smpl, smpg, smpq and latf as they issue (R233 to R238, R242): a request is outstanding for each executing thread,
with its coordinates, level and draw; under an implicit level every issuing thread waits for its quad; a queue
destination reserves its elements under one number; a header that is not 64-byte aligned is MISALIGNED. -/
def Obligations.SamplerRequests : Prop := ∀ s e, Issuing s e → ∀ i h lb sto hdr d n xs lv,
  requestOf s e i = some (h, lb, sto, hdr, d, n, xs, lv) →
  let m := e.guard h
  let va := (e.usrc s e.p.lanes hdr).toNat
  let part := if lb then e.p.lanes else m
  let takes (l : Nat) : Bool := sto && m.getLsbD l && !(e.w.th l).helper
  (va % 64 = 0 → (∀ q : Fin 16, d = .q q → m ≠ 0 → (e.k.q q.val).kind = 3 ∧ n ≤ (e.k.q q.val).free) →
    ∃ t w, exec i s = .next t ∧ t.wave? e.w.id = some w
      ∧ { t with
          waves := s.waves
          crews := s.crews
          nextId := s.nextId } = s
      ∧ { w with
          threads := e.w.threads
          out := e.w.out } = e.w
      ∧ w.out = e.w.out ++ (lanesOf part).map (fun l =>
        { waiting e i (1#64 <<< l) l (if m.getLsbD l then 1 else 0) (va + s.nextId * 2 ^ 64) (if lb then 0 else 1)
            (texWords (xs l) (lv l) (if takes l then (sprout (e.w.th l).rngk (e.w.th l).rngc).toNat else 0)) with
          dst := d })
      ∧ (∀ l, l < e.w.width → w.th l = { e.w.th l with
          run := if lb && e.p.lanes.getLsbD l then .quad else (e.w.th l).run
          rngc := if takes l then (e.w.th l).rngc + 1 else (e.w.th l).rngc })
      ∧ ∀ q : Fin 16, d = .q q → m ≠ 0 → t.nextId = s.nextId + 1 ∧ ∃ k, t.crew? e.k.id = some k
        ∧ k.qs = e.k.qs.set q.val { e.k.q q.val with
            elems := (e.k.q q.val).elems ++ List.replicate n (s.nextId, none) })
  ∧ ∀ l, va % 64 ≠ 0 → (lanesOf m).find? (fun l => !(e.w.th l).helper) = some l →
    ∃ tr : Trap, tr.cause = .misaligned ∧ tr.addr = BitVec.ofNat 64 va ∧ tr.lane = some l
      ∧ exec i s = .next (s.takeFault e.w e.p.lanes e.p.slot tr).stopIssue

/-- trace, hitld, vbld, wcpin and wcinv as they issue (R244, R245, R247, R249, R250): a thread that traces leaves with its ray;
hitld's result is a field of the thread's hit record; the others leave an access outstanding. -/
def raysAndCachesHolds : Prop := ∀ s e, Issuing s e → ∀ h : Head,
  (∀ any cull (r : Fin 256) b disp s1, (e.usrc s e.p.lanes b).toNat % 128 = 0 →
    s.testTargets e (fun _ => e.dispTarget disp) (lanesOf (e.guard h)) = (s1, []) →
    exec (.trace h any cull (.v r) b disp) s = .next (s1.setWave (e.w.each (e.guard h) fun l th =>
      { th with run := .leaving (if th.helper then .exit else .trace (e.dispTarget disp) e.p.mode.toNat any cull
          ((List.range 8).map fun i => e.v s l (r.val + i)) (e.usrc s e.p.lanes b)) })))
  ∧ (∀ any cull a b disp l, (e.usrc s e.p.lanes b).toNat % 128 ≠ 0 →
    (lanesOf (e.guard h)).find? (fun l => !(e.w.th l).helper) = some l →
    ∃ tr : Trap, tr.cause = .misaligned ∧ tr.addr = e.usrc s e.p.lanes b ∧ tr.lane = some l
      ∧ exec (.trace h any cull a b disp) s = .next (s.takeFault e.w e.p.lanes e.p.slot tr).stopIssue)
  ∧ (∀ (f : HitField) d, Enters s e (.hitld h f d) ((lanesOf (e.guard h)).map fun l =>
    let r := (e.w.th l).hit
    { waiting e (.hitld h f d) (1#64 <<< l) l 0 0 0 (match f with
        | .kind => [BitVec.ofNat 32 (r.toNat % 256)]
        | .t => [r.extractLsb' 32 32]
        | .bary => [r.extractLsb' 64 32, r.extractLsb' 96 32]
        | .id => [r.extractLsb' 128 32, r.extractLsb' 160 32]
        | .geo => [r.extractLsb' 192 32]) with
      dst := d
      done := true }))
  ∧ (∀ f d a b n, Enters s e (.vbld h f d a b n) (waitingEach e (.vbld h f d a b n) (e.guard h) (fun l => e.src s l true a)
      (fun _ => (e.usrc s e.p.lanes b).toNat) fun _ => 0))
  ∧ (∀ unpin a, let va := (e.usrc s e.p.lanes a).toNat
    (e.guard h = 0 → exec (.wcpin h unpin a) s = .next s)
    ∧ (e.guard h ≠ 0 → va % 64 = 0 → Enters s e (.wcpin h unpin a)
      [waiting e (.wcpin h unpin a) e.p.lanes (e.leader (e.guard h)) va 0 0 []])
    ∧ ∀ tr : Trap, e.guard h ≠ 0 → va % 64 ≠ 0 → tr = accTrap .misaligned (taskAcc e.t false) (s.asid e.t.ctx) va 0 none 0 →
      Charged s e (.wcpin h unpin a) (e.guard h) tr)
  ∧ ∀ tag, (e.guard h = 0 → exec (.wcinv h tag) s = .next s)
    ∧ (e.guard h ≠ 0 → Enters s e (.wcinv h tag) [waiting e (.wcinv h tag) e.p.lanes (e.leader (e.guard h)) (match tag with
      | some o => (e.usrc s e.p.lanes o).toNat % 2 ^ 32
      | none => 0) 0 0 []])

/-- The random instructions (R232, R251 to R257): rng writes the words of one block of the thread's key and counter, or
their upper 24 bits as an f32 below 1, and advances the counter; a helper takes zero and no draw; rngset and rngadv
write key and counter of threads that are no helpers; rngget reads them. -/
def randomNumbersHolds : Prop := ∀ s e, Issuing s e → ∀ h : Head,
  let m := e.guard h
  let src (l : Nat) : Opd → BitVec 128
    | .v n => e.v s l (n.val + 3) ++ e.v s l (n.val + 2) ++ e.v s l (n.val + 1) ++ e.v s l n.val
    | .s n => s.sreg e.w.id (n.val + 1) ++ s.sreg e.w.id n.val
    | _ => 0
  (∀ (unif : Bool) (r : Fin 256) (n : BitVec 2), VDeclared e (.v r) (n.toNat + 1) →
    ∃ t w, exec (.rng h unif (.v r) n) s = .next t ∧ SameBesideWave s t e.w.id ∧ t.wave? e.w.id = some w
      ∧ { w with threads := e.w.threads } = e.w ∧ ∀ l, l < e.w.width →
        { w.th l with
          v := (e.w.th l).v
          rngc := (e.w.th l).rngc } = e.w.th l
        ∧ (w.th l).rngc = (if m.getLsbD l && !(e.w.th l).helper then (e.w.th l).rngc + 1 else (e.w.th l).rngc)
        ∧ ∀ j, if m.getLsbD l = true ∧ r.val ≤ j ∧ j ≤ r.val + n.toNat then
            let x := (sprout (e.w.th l).rngk (e.w.th l).rngc).extractLsb' (32 * (j - r.val)) 32
            if (e.w.th l).helper then getAt (w.th l).v j 0 = 0
            else if unif then Fmt.f32.decode false (getAt (w.th l).v j 0).toNat = .fin false ((x.toNat / 256 : Nat) / 2 ^ 24)
            else getAt (w.th l).v j 0 = x
          else getAt (w.th l).v j 0 = getAt (e.w.th l).v j 0)
  ∧ (∀ a, (∀ r, a ≠ .s r) ∨ (∃ r, a = .s r ∧ r.val + 1 < 512) →
    (∃ t, exec (.rngset h .key a) s = .next t ∧ ThreadsResult s t e (m &&& ~~~e.w.helperMask) fun l th =>
      { th with rngk := src l a })
    ∧ (∃ t, exec (.rngset h .ctr a) s = .next t ∧ ThreadsResult s t e (m &&& ~~~e.w.helperMask) fun l th =>
      { th with rngc := src l a })
    ∧ ∃ t, exec (.rngadv h (.reg a)) s = .next t ∧ ThreadsResult s t e (m &&& ~~~e.w.helperMask) fun l th =>
      { th with rngc := th.rngc + src l a })
  ∧ (∀ a, ∃ t, exec (.rngset h .seed a) s = .next t ∧ ThreadsResult s t e (m &&& ~~~e.w.helperMask) fun l th =>
    let seed := e.src s l true a
    { th with
      rngk := sprout (BitVec.ofNat 128 (seed % 2 ^ 64 + 0x51E67A3C * 2 ^ 64 + 0x2C8D04F1 * 2 ^ 96)) (th.tid.setWidth 128)
      rngc := 0 })
  ∧ (∀ i, ∃ t, exec (.rngadv h (.imm i)) s = .next t ∧ ThreadsResult s t e (m &&& ~~~e.w.helperMask) fun _ th =>
    { th with rngc := th.rngc + i.setWidth 128 })
  ∧ ∀ (ctr : Bool) (r : Fin 256), VDeclared e (.v r) 4 → ∃ t w, exec (.rngget h ctr (.v r)) s = .next t
    ∧ SameBesideWave s t e.w.id ∧ t.wave? e.w.id = some w ∧ { w with threads := e.w.threads } = e.w
    ∧ ∀ l, l < e.w.width → { w.th l with v := (e.w.th l).v } = e.w.th l
      ∧ ∀ j, getAt (w.th l).v j 0 = if m.getLsbD l = true ∧ r.val ≤ j ∧ j < r.val + 4
          then (if ctr then (e.w.th l).rngc else (e.w.th l).rngk).extractLsb' (32 * (j - r.val)) 32
          else getAt (e.w.th l).v j 0

/-- The block function loses nothing (R251): under one key, different counters give different blocks, so that the draws
of a thread do not repeat within 2^128. -/
def drawsDifferHolds : Prop := ∀ k c d : BitVec 128, sprout k c = sprout k d → c = d

/-- A triangle that a ray hits (R405, R406): the point at t on the ray is the point of the triangle with barycentrics
(u, v), t lies between tmin and tmax, and the hit record holds kind, t, u, v, identifier and geometry word. A ray
parallel to the triangle, or that meets its back while culling, does not hit. -/
def Obligations.TriangleHits : Prop := ∀ (r : Ray) (x : Tri),
  let at' (i : Nat) : Rat := (Fmt.f32.decode false (getAt r.ray i 0).toNat).toRat
  let f (i : Nat) : FVal := Fmt.f32.decode false (getAt r.ray i 0).toNat
  let n := (x.p1.sub x.p0).cross (x.p2.sub x.p0)
  let dn := at' 4 * n.x + at' 5 * n.y + at' 6 * n.z
  (dn = 0 ∨ (r.cull = true ∧ 0 < dn) → r.hits x = none)
  ∧ ∀ t id rec, r.hits x = some (t, id, rec) → id = x.id ∧ ∃ u v : Rat, 0 ≤ u ∧ 0 ≤ v ∧ u + v ≤ 1
    ∧ at' 0 + t * at' 4 = x.p0.x + u * (x.p1.x - x.p0.x) + v * (x.p2.x - x.p0.x)
    ∧ at' 1 + t * at' 5 = x.p0.y + u * (x.p1.y - x.p0.y) + v * (x.p2.y - x.p0.y)
    ∧ at' 2 + t * at' 6 = x.p0.z + u * (x.p1.z - x.p0.z) + v * (x.p2.z - x.p0.z)
    ∧ (∀ b q, f 3 = .fin b q → at' 3 ≤ t) ∧ (∀ b q, f 7 = .fin b q → t ≤ at' 7)
    ∧ rec = BitVec.ofNat 512 ((if dn < 0 then 1 else 2) + bitsF32 (FVal.ofRat t) * 2 ^ 32
      + bitsF32 (FVal.ofRat u) * 2 ^ 64 + bitsF32 (FVal.ofRat v) * 2 ^ 96 + x.id * 2 ^ 128 + x.geo * 2 ^ 192)

/-- The end of a ray's walk (R248, R402 to R406): the ray leaves the walkers, and its continuation stands in the
cluster's pool with the hit record, a miss record where nothing was hit; a ray with NaN or an empty interval misses at
once. -/
def rayEndsHolds : Prop := ∀ (s : State) c n r t, (s.cluster c).rays[n]? = some r → s.task? r.record.task = some t →
  c < s.clusters.length → r.parked = none → t.phase = .run →
  let miss : BitVec 512 := BitVec.ofNat 512 ((getAt r.ray 7 0).toNat * 2 ^ 32)
  let bad := (∃ i, i < 8 ∧ (Fmt.f32.decode false (getAt r.ray i 0).toNat).isNan = true)
    ∨ FVal.lt (Fmt.f32.decode false (getAt r.ray 7 0).toNat) (Fmt.f32.decode false (getAt r.ray 3 0).toNat) = true
  let ends (hit : BitVec 512) : Prop := ∃ u, exec (.rayWalkEnd c n) s = .next u
    ∧ (u.cluster c).rays = (s.cluster c).rays.eraseIdx n
    ∧ (u.cluster c).pool = (s.cluster c).pool ++ [{ r.record with
        hit := hit
        born := s.tick }]
  (bad → ends miss)
  ∧ ∀ r1 s1, ¬bad → r.unbounded = false → s.walkRay t (2 ^ 20 + 1) r = (.over r1, s1) → s1.clusters = s.clusters →
    s1.tick = s.tick → r1.record = r.record → r1.ray = r.ray →
    (∀ b, r1.best = some b → ends b.2.2) ∧ (r1.best = none → ends miss)

/-! ## Command processor and scheduler (spec/12) -/

/-- A packet of 64 bytes (R330): type, IRQ, number, address and value, in little-endian order. -/
def packetBytes (kind : Nat) (irq : Bool) (pseq : Word) (addr value : Dword) : List Byte :=
  [BitVec.ofNat 8 kind, if irq then 1 else 0, 0, 0] ++ leBytes 4 pseq.toNat ++ leBytes 8 addr.toNat
    ++ leBytes 8 value.toNat ++ List.replicate 40 0

/-- Packets (R330): the five types are read as they stand; an undefined type, a misaligned address, or a field that the
type does not use is refused at its offset (of a field that must be zero, its first byte that is not). -/
def packetFieldsHolds : Prop := ∀ (kind : Nat) (irq : Bool) (pseq : Word) (addr value : Dword), kind < 256 →
  let b := packetBytes kind irq pseq addr value
  (4 < kind → packetOf b = .error 0)
  ∧ (kind ≤ 4 →
    let badAddr := (kind = 1 ∧ addr.toNat % 128 ≠ 0) ∨ ((kind = 2 ∨ kind = 3) ∧ addr.toNat % 8 ≠ 0)
      ∨ ((kind = 0 ∨ kind = 4) ∧ addr ≠ 0)
    let badValue := kind ≠ 2 ∧ kind ≠ 3 ∧ value ≠ 0
    let first (x : Dword) : Nat := ((List.range 8).find? fun i => x.toNat / 2 ^ (8 * i) % 256 != 0).getD 0
    (badAddr → packetOf b = .error (if kind = 0 ∨ kind = 4 then 8 + first addr else 8))
    ∧ (¬badAddr → badValue → packetOf b = .error (0x10 + first value))
    ∧ (¬badAddr → ¬badValue → packetOf b = .ok ⟨kind, irq, pseq, addr, value⟩))

/-- The head of a queue moves past its packet (R329, R332). -/
def packetDone (s : State) (q : Nat) : State :=
  (s.setReg (.sqhead q) (BitVec.ofNat 64 ((s.field (.sqhead q) 0 20 % s.sqSize q + 1) % s.sqSize q))).setSubq q
    { s.subq q with
      held := none
      pos := (s.subq q).pos + 1
      bp := none
      bpDone := false }

/-- The packets (R329 to R332) and the watchdog (R361, R362): the doorbell writes SQTAIL where the index lies in the
queue; a packet that stands at the head is performed, WAIT and SIGNAL holding the queue until the counter reaches the
target and until the earlier tasks are gone; the watchdog's limit begins a forced pre-emption. -/
def commandProcessorHolds : Prop := ∀ (s : State) q, q < 256 →
  let gone := ∀ t ∈ s.tasks, t.queue = q → (s.subq q).pos ≤ t.pos
  (∀ v : Dword, (v.toNat < 2 ^ 20 → v.toNat < s.sqSize q →
      exec (.sqtailDoorbell q v) s = .next (s.setReg (.sqtail q) v))
    ∧ (2 ^ 20 ≤ v.toNat ∨ s.sqSize q ≤ v.toNat →
      exec (.sqtailDoorbell q v) s = .next (s.cwRefuse (8 * (Reg.sqtail q).index))))
  ∧ (∀ p s1,
    (s.headPacket q 0 p = some s1 → exec (.nopPacket q p) s = .next (packetDone s1 q))
    ∧ (∀ s2, s.headPacket q 1 p = some s1 → s.bpHit q p.addr.toNat = none →
      s1.submit (s.sqCtx q) q (s.subq q).pos (s.flag (.sqctl q) 6) p.pseq p.addr.toNat = .ok s2 →
      exec (.submit q p) s = .next (packetDone s2 q))
    ∧ (s.headPacket q 2 p = some s1 → exec (.wait q p) s = .next (s1.setSubq q { s1.subq q with
        held := some ⟨2, p.irq, p.pseq, p.addr, p.value⟩ }))
    ∧ (s.headPacket q 3 p = some s1 → exec (.signal q p) s = .next (s1.setSubq q { s1.subq q with
        held := some ⟨3, p.irq, p.pseq, p.addr, p.value⟩ }))
    ∧ (s.headPacket q 4 p = some s1 → (gone → exec (.fencePacket q p) s = .next (packetDone s1 q))
      ∧ (¬gone → exec (.fencePacket q p) s = .fault .notEnabled)))
  ∧ (∀ r ph bs s1, s.heldPacket q 2 = some r → s.packetPhys q r = .ok ph → s.logging (s.sqCtx q) = false →
    s.replaying (s.sqCtx q) = false → s.gRead (s.sqAcc q false) none 10 r.addr.toNat 8 = .ok (bs, s1) →
    (r.value.toNat ≤ leNat bs → s1.logging (s.sqCtx q) = false → exec (.waitSatisfied q) s = .next (packetDone s1 q))
    ∧ (leNat bs < r.value.toNat → exec (.waitSatisfied q) s = .fault .notEnabled))
  ∧ (∀ r ph s1, s.heldPacket q 3 = some r → s.packetPhys q r = .ok ph →
    s.gWrite (s.sqAcc q true) none true 10 r.addr.toNat (leBytes 8 r.value.toNat) = .ok s1 →
    (gone → exec (.signalPerform q) s = .next (if r.irq then (packetDone s1 q).raise 0x8 else packetDone s1 q))
    ∧ (¬gone → exec (.signalPerform q) s = .fault .notEnabled))
  ∧ ∀ c limit, c = s.sqCtx q → limit = 1024 * s.field (.sqwd q) 0 16 → limit ≠ 0 → limit ≤ (s.subq q).stall →
    (s.ctx c).preempt = false → s.flag (.sqwd q) 16 = false → c < s.ctxs.length →
    ∃ t, exec (.watchdogExpiry q) s = .next t ∧ (t.ctx c).preempt = true
      ∧ (t.ctx c).forced = some (s.tick + limit, q)

/-- A task enters the pool of its home's die (R334, R338): with the fields of its record, Ready where it has no
predecessor; the record's STATE byte says so. -/
def submissionHolds : Prop := ∀ (s : State) c q pos prv pseq va p bs s1 h ops s2 s3,
  s.translate { ctx := c, prv := prv, write := false } va = .ok p → p.leaf.kind ≠ .so → p.place = .dev →
  s.gReadAll { ctx := c, prv := prv, write := false } none 9 va 128 = .ok (bs, s1) → recordBad bs = none →
  s1.recordParts c prv bs = .ok (h, ops, s2) →
  let npred := leNat ((bs.drop 0x20).take 4)
  s2.gWrite { ctx := c, prv := prv, write := true } none true 9 (va + 0x24) (leBytes 1 (if npred = 0 then 2 else 1))
    = .ok s3 → s3.logging c = false → s3.replaying c = false →
  ∃ u t, s.submit c q pos prv pseq va = .ok u ∧ u.tasks = s3.tasks ++ [t] ∧ u.nextId = s3.nextId + 1 ∧ t.id = s3.nextId + 1
    ∧ t.record = va ∧ t.ctx = c ∧ t.queue = q ∧ t.pos = pos ∧ t.hdr = h ∧ t.ops = ops ∧ t.prv = prv ∧ t.att = 0
    ∧ t.name = BitVec.ofNat 64 (leNat ((bs.drop 8).take 8)) ∧ t.seed = BitVec.ofNat 64 (leNat ((bs.drop 0x18).take 8))
    ∧ t.flags = leNat ((bs.drop 4).take 2) ∧ t.ncrew = leNat ((bs.drop 6).take 1) ∧ t.succ = leNat ((bs.drop 0x28).take 8)
    ∧ t.stamp = leNat ((bs.drop 0x38).take 8) ∧ t.die = homeOf p.asid p.va / 64
    ∧ t.args = (List.range 8).map (fun i => BitVec.ofNat 64 (leNat ((bs.drop (0x40 + 8 * i)).take 8)))
    ∧ t.phase = if npred = 0 then .ready else .waiting

/-- The scheduler's events (R341 to R349, R356 to R359, R363, R449): the next candidate of a die is placed; the balancer
moves a task that has waited; a chunk of an input is marked in; a task with nothing to copy out and no successor is
gone when it retires; a context is pre-empted when its slice ends or a higher priority waits, is restored, becomes
resident and is released; an empty cluster is gated. -/
def schedulerHolds : Prop := ∀ s : State,
  (∀ task t x s1, s.task? task = some t → t.phase = .ready → s.candidate t.die = some (x, s1) →
    (x.id = task → exec (.taskPlace task) s = .next s1) ∧ (x.id ≠ task → exec (.taskPlace task) s = .fault .notEnabled))
  ∧ (∀ task t, s.task? task = some t → t.phase = .ready → t.readySince + 65536 ≤ s.tick →
    ((s.readyOf t.die t.ctx).head?.map (·.id)) = some task → exec (.placementAgeLimit task) s = .next s)
  ∧ (∀ task t die, s.task? task = some t → t.phase = .ready → die < 8 → die ≠ t.die → s.flag .balctl 16 = true →
    s.replaying t.ctx = false → t.readySince + s.field .balctl 0 16 ≤ s.tick → (s.reservation t die).isSome = true →
    exec (.balancerMove task die) s = .next (s.setTask { t with die := die }))
  ∧ (∀ task t entry o chunk s1 s2, s.task? task = some t → t.ops[entry]? = some o → t.phase = .run → o.out = false →
    o.wait = none → chunk < (o.len + 511) / 512 → chunk ∉ o.done →
    let size := min 512 (o.len - 512 * chunk) / 8
    let had := o.begun chunk
    let n := s.portion (size - had)
    s.copyInG t o (s.opCrews t o) (512 * chunk + 8 * had) n = .ok s1 →
    (o.bmap = none → s2 = s1) → (∀ b, o.bmap = some b → s1.setChunks b (o.bit0 + chunk) (s.opCrews t o) = .ok s2) →
    s1.tasks = s.tasks → s2.tasks = s.tasks → n ≤ size - had
    ∧ ∃ u t', exec (.copyInChunk task entry chunk) s = .next u ∧ u.task? task = some t'
      ∧ t'.ops[entry]? = some (if had + n < size then { o with
            part := (chunk, had + n) :: o.part.filter fun x => x.1 != chunk }
          else { o with done := chunk :: o.done })
      ∧ ∀ i, i ≠ entry → t'.ops[i]? = t.ops[i]?)
  ∧ (∀ task t, s.task? task = some t → t.phase = .copyOut → t.succ = 0 →
    ∃ u, exec (.taskRetire task) s = .next u ∧ u.tasks = s.tasks.filter (fun y => y.id != t.id)
      ∧ u.crews = s.crews.filter fun k => k.task != t.id)
  ∧ (∀ task t, s.task? task = some t → s.computeDone t = true → (∀ o ∈ t.ops, o.out = false ∧ o.wait = none) →
    (s.ctx t.ctx).divergent = false → s.leftRecords t = false → t.succ = 0 →
    ∃ u, exec (.taskRetire task) s = .next u ∧ u.task? task = none ∧ ∀ k ∈ u.crews, k.task ≠ task)
  ∧ (∀ clu n t bin s1, s.binAt clu n = some (t, bin) → s.replaying t.ctx = false →
    (t.hdr.width ≤ bin.length → s.relaunch clu t (bin.take t.hdr.width) = some s1 →
      exec (.regroupWaveLaunch clu n) s = .next s1)
    ∧ (bin.length < t.hdr.width → exec (.regroupWaveLaunch clu n) s = .fault .notEnabled)
    ∧ ∀ r, bin.head? = some r → s.relaunch clu t (bin.take t.hdr.width) = some s1 →
      (r.born + 64 * s.field (.cxsched t.ctx) 21 16 ≤ s.tick → exec (.regroupTimeout clu n) s = .next s1)
      ∧ (s.tick < r.born + 64 * s.field (.cxsched t.ctx) 21 16 → exec (.regroupTimeout clu n) s = .fault .notEnabled))
  ∧ (∀ c t, c < 64 → t ∈ s.tasks → s.preemptible t c = true → s.place t = none →
    (∀ k, k < 64 → s.preemptible t k = true → s.field (.cxsched c) 2 3 < s.field (.cxsched k) 2 3
      ∨ (s.field (.cxsched c) 2 3 = s.field (.cxsched k) 2 3 ∧ s.sliceEnd c ≤ s.sliceEnd k)) →
    exec (.timeSliceExpiry c) s = .next (s.setCtx c { s.ctx c with preempt := true }))
  ∧ (∀ c x s1, c < 64 → (s.ctx c).saved = some x → s.flag (.cxsched c) 0 = true → (s.ctx c).preempt = false →
    s.logging c = false → s.placeTasks c x (s.tasks.filter fun t => t.ctx == c && t.phase == .saved) = some s1 →
    s.restoreHead c x = none →
    exec (.contextRestore c) s = .next (((s1.setCtx c { s1.ctx c with
        saved := none }).startSlice c).restoreCrews (s.saveBase c) x.crews |>.traceEvent 0 5 c 0 0 0))
  ∧ (∀ clu, clu < 64 → clu < s.clusters.length → (s.cluster clu).gated = false → (s.cluster clu).pool = [] →
    (s.cluster clu).rays = [] → (∀ k ∈ s.crews, k.core / 8 ≠ clu) →
    ∃ u, exec (.clusterGate clu) s = .next u ∧ (u.cluster clu).gated = true ∧ ∀ j, j ≠ clu → u.cluster j = s.cluster j)
  ∧ ∀ c (v : Dword), c < 64 → v.toNat < 2 ^ 53 → s.flag (.flctl c) 1 = false →
    (v.getLsbD 0 = true → s.flag (.cxsched c) 0 = false → v.toNat / 2 ^ 5 % 2 ^ 16 ≠ 0 → v.toNat / 2 ^ 21 % 2 ^ 16 ≠ 0 →
      s.field .mgstat 0 4 = 2 →
      ((∀ k, k < 64 → k ≠ c → s.flag (.cxsched k) 0 = true → s.asid k ≠ s.asid c) →
        exec (.contextResident c v) s = .next (s.setReg (.cxsched c) v))
      ∧ ∀ k, k < 64 → k ≠ c → s.flag (.cxsched k) 0 = true → s.asid k = s.asid c →
        exec (.contextResident c v) s = .next (s.cwRefuse (8 * (Reg.cxsched c).index)))
    ∧ (v.getLsbD 0 = false → s.flag (.cxsched c) 0 = true → v.getLsbD 1 = s.flag (.cxsched c) 1 →
      ((∀ t ∈ s.tasks, t.ctx = c → t.phase ≠ .run) → exec (.contextRelease c v) s =
        .next ((s.setReg (.cxsched c) v).setCtx c { s.ctx c with release := false }))
      ∧ ∀ t ∈ s.tasks, t.ctx = c → t.phase = .run → exec (.contextRelease c v) s =
        .next ((s.setReg (.cxsched c) (v ||| 1)).setCtx c { s.ctx c with
          preempt := true
          release := true }))

/-! ## Memory system, and the rings of contexts (spec/10, spec/13, spec/16, spec/17) -/

/-- Merge groups, invalidation, the remap filter and the ports (R293, R296, R298, R304): a group closes when its window
has passed; a write of MSINV is ignored while one is busy, and its completion, which waits for the stores of the range
that are on their way, drops the walks in the range, and the lines of it where it asks for them; RMSEC commits the entry that RMIDX names; a port goes down and is trained. -/
def memorySystemHolds : Prop := ∀ s : State,
  (∀ n m, s.merges[n]? = some m → s.field .msmerge 0 8 * 11 ≤ (s.tick - m.opened) * 14 →
    exec (.mergeGroupClose n) s = .next { s with merges := s.merges.eraseIdx n })
  ∧ (∀ n m, s.merges[n]? = some m → (s.tick - m.opened) * 14 < s.field .msmerge 0 8 * 11 →
    exec (.mergeGroupClose n) s = .fault .notEnabled)
  ∧ (∀ v : Dword, s.inval = false → v.toNat / 2 ^ 32 % 2 ^ 31 = 0 →
    exec (.msinvGo v) s = .next { s.setReg (.msinv 2) v with inval := v.getLsbD 63 })
  ∧ (∀ v : Dword, s.inval = false → v.toNat / 2 ^ 32 % 2 ^ 31 ≠ 0 →
    exec (.msinvGo v) s = .next (s.cwRefuse (8 * (Reg.msinv 2).index)))
  ∧ (∀ v : Dword, s.inval = true → exec (.msinvGo v) s = .next s)
  ∧ (s.inval = false → exec .invalidationDone s = .fault .notEnabled)
  ∧ (s.inval = true → (∀ w ∈ s.waves, ∀ th ∈ w.threads, ∀ e ∈ th.storeQ, (∃ core, e.place = .spad core)
      ∨ s.invalidates e.asid (e.va / 2 ^ 16) = false) →
    ∃ t, exec .invalidationDone s = .next t ∧ t.inval = false
    ∧ t.walks = s.walks.filter (fun w => !s.invalidates w.asid w.vpn)
    ∧ ((∀ l ∈ s.lines, l.dirty = false) → (∀ k ∈ s.coreLines, k.state ≠ .modified) → s.flag (.msinv 0) 17 = true →
      (∀ l ∈ t.lines, s.invalidates l.asid (l.line / 1024) = false)
      ∧ ∀ k ∈ t.coreLines, s.invalidates k.asid (k.line / 1024) = false)
    ∧ (s.flag (.msinv 0) 17 = false → t.lines = s.lines ∧ t.coreLines = s.coreLines))
  ∧ (∀ v : Dword, 2 ^ 59 ≤ v.toNat → exec (.rmsecCommit v) s = .next (s.cwRefuse (8 * Reg.rmsec.index)))
  ∧ (∀ v : Dword, v.toNat < 2 ^ 59 →
    let i := s.field .rmidx 0 12
    let rest := s.remap.filter fun r => r.idx != i
    exec (.rmsecCommit v) s = .next { s.setReg .rmsec v with
        remap := if v.getLsbD 56 then insertRemap ⟨i, v.toNat / 2 ^ 40 % 2 ^ 16, v.toNat % 2 ^ 40,
            s.field .rmcan 40 16, s.field .rmcan 0 40, v.getLsbD 57, v.getLsbD 58⟩ rest
          else rest })
  ∧ (∀ port, port < 20 →
    (s.links.getLsbD port = true → exec (.linkDown port) s =
      .next { s with links := BitVec.ofFnLE fun (i : Fin 20) => s.links.getLsbD i.val && i.val != port })
    ∧ (s.links.getLsbD port = false → exec (.linkDown port) s = .fault .notEnabled)
    ∧ exec (.linkTraining port) s = if (Reg.resetValue .clamp).getLsbD (28 + port) = true then
        .next { s with links := BitVec.ofFnLE fun (i : Fin 20) => s.links.getLsbD i.val || i.val == port }
      else .fault .notEnabled)
  ∧ (∀ n, s.links.toNat % 16 ≠ 0 → s.upAt .host (n * 64) = none →
    (∀ l ∈ s.lines, l.dirty = false) → (∀ k ∈ s.coreLines, k.state ≠ .modified) →
    ∃ t, exec (.hostRecall n) s = .next t ∧ t.hostMem = s.hostMem ∧ t.dev = s.dev
      ∧ ∀ l ∈ t.lines, ¬(l.leaf.loc = true ∧ l.leaf.pa (l.line * 64) = n * 64))

/-- The access of an outstanding result that left over a link without a valid response gives LINK_ERROR in the thread
it belongs to, with the port; after a write to a peer its target is UNDEFINED (R307). -/
def linkErrorsHolds : Prop := ∀ (s : State) core wslot pos (x : Land) a n w p, s.land? core wslot pos = some x →
  x.p.done = false → s.heldBack x pos = false → x.p.linkUse = some (a, n, w) →
  s.translate (taskAcc x.t false) a = .ok p → p.place ≠ .dev →
  let port := match s.linkAt p.pa with
    | some (true, k, _) => k + 32
    | some (false, k, _) => k
    | none => 0
  let peer := match s.linkAt p.pa with
    | some (true, _, _) => true
    | _ => false
  let s1 := if w && peer then s.setMem .peer (s.peerMem.put p.pa (s.freeBytes x.p.lane n)) else s
  let done := s1.landFault x pos { cause := .linkError, addr := BitVec.ofNat 64 a, aux0 := BitVec.ofNat 64 port }
  exec (.linkErrorCompletion core wslot pos) s = .next done
  ∧ (x.p.issue + 2 ^ 24 ≤ s.tick → exec (.linkTimeout core wslot pos) s = .next done)
  ∧ (s.tick < x.p.issue + 2 ^ 24 → exec (.linkTimeout core wslot pos) s = .fault .notEnabled)

/-- A peer's request is performed in the address space of the context that its window names (R304, R306): a read that
the checks allow changes nothing it does not own, a write stores its bytes, and a refused one has no effect here. -/
def peerRequestsHolds : Prop := ∀ (s : State) c (addr : Dword), c < 64 → s.flag (.cxsched c) 0 = true →
  s.links.extractLsb' 4 16 ≠ 0 → addr.toNat < 2 ^ 56 →
  (∀ n, 0 < n → addr.toNat % 64 + n ≤ 64 →
    (∀ bs s1, s.gRead { ctx := c, prv := false, write := false } none 14 addr.toNat n = .ok (bs, s1) →
      exec (.peerRequest c addr (.read n)) s = .next s1)
    ∧ ∀ e, s.gRead { ctx := c, prv := false, write := false } none 14 addr.toNat n = .error e →
      exec (.peerRequest c addr (.read n)) s = .next s)
  ∧ (∀ n (d : Dword), 0 < n → n ≤ 8 → addr.toNat % n = 0 →
    (∀ s1, s.gWrite { ctx := c, prv := false, write := true } none true 14 addr.toNat (leBytes n d.toNat) = .ok s1 →
      exec (.peerRequest c addr (.write n d)) s = .next s1)
    ∧ ∀ e, s.gWrite { ctx := c, prv := false, write := true } none true 14 addr.toNat (leBytes n d.toNat) = .error e →
      exec (.peerRequest c addr (.write n d)) s = .next s)
  ∧ (addr.toNat % 128 = 0 → ∀ s1, s.submit c 0 (2 ^ 64) false 0 addr.toNat = .ok s1 →
    exec (.peerRequest c addr .tenq) s = .next s1)

/-- Writes of the ring indices of a context (R364, R423, R454, R455): an index of more than 31 bits, or one that gives
more entries than the ring holds while it is on, is refused; FLTAIL is ignored in replay and FLHEAD while logging. -/
def ringsHolds : Prop := ∀ (s : State) c (v : Dword), c < 64 →
  let occ (h t : Nat) : Nat := (h + 2 ^ 31 - t) % 2 ^ 31
  let size (r : Reg) (lo n : Nat) : Nat := 2 ^ s.field r lo n
  let tooBig := 2 ^ 31 ≤ v.toNat
  let refused (r : Reg) : Host.Outcome State Fault Refusal := .next (s.cwRefuse (8 * r.index))
  let fits (bad : Prop) (i : Instr) (r : Reg) (t : State) : Prop :=
    (¬bad → exec i s = .next t) ∧ (bad → exec i s = refused r)
  fits (tooBig ∨ (s.flag (.fqbase c) 0 = true ∧ size (.fqbase c) 2 5 < occ (s.field (.fqhead c) 0 31) v.toNat))
    (.fqtailWrite c v) (.fqtail c) (s.setReg (.fqtail c) v)
  ∧ fits (tooBig ∨ (s.flag (.cqbase c) 0 = true ∧ size (.cqbase c) 2 4 < occ (s.field (.cqhead c) 0 31) v.toNat))
    (.cqtailWrite c false v) (.cqtail c) (s.setReg (.cqtail c) v)
  ∧ (s.replaying c = false →
    fits (tooBig ∨ (s.logging c = true ∧ size (.flbase c) 52 5 < occ (s.field (.flhead c) 0 31) v.toNat))
      (.fltailWrite c v) (.fltail c) ((s.setReg (.fltail c) v).checkHigh c))
  ∧ (s.replaying c = true → fits tooBig (.fltailWrite c v) (.fltail c) s)
  ∧ (s.logging c = false →
    fits (tooBig ∨ (s.replaying c = true ∧ size (.flbase c) 52 5 < occ v.toNat (s.field (.fltail c) 0 31)))
      (.flheadWrite c v) (.flhead c) ((s.setReg (.flhead c) v).setDone c))
  ∧ (s.logging c = true → fits tooBig (.flheadWrite c v) (.flhead c) s)
  ∧ fits (v.toNat % 64 ≠ 0 ∨ 2 ^ 52 ≤ v.toNat ∨ 8 ≤ (s.ctx c).replies.length) (.replyDoorbell c v) (.cxrpl c)
    (s.setCtx c { s.ctx c with replies := (s.ctx c).replies ++ [v.toNat] })

/-- Logging and replay begin and end with a write of FLCTL while the context is not resident (R364, R375): logging
begins with an empty log, replay with every record unconsumed; a resident context's bits are not changed, and a ring
without a size is not used. A halted replay ends with END (R381). -/
def logControlHolds : Prop := ∀ (s : State) c (v : Dword), c < 64 → v.toNat < 2 ^ 7 →
  let old := s.reg (.flctl c)
  let refused := s.cwRefuse (8 * (Reg.flctl c).index)
  let new := s.setReg (.flctl c) ((v &&& 0x43) ||| (old &&& 0x1C))
  (v.getLsbD 5 = false → v.getLsbD 0 = true → v.getLsbD 1 = false → old.getLsbD 0 = false → old.getLsbD 1 = false →
    (s.flag (.cxsched c) 0 = true ∨ s.field (.flbase c) 52 5 = 0 → exec (.flctlEn c v) s = .next refused)
    ∧ (s.flag (.cxsched c) 0 = false → s.field (.flbase c) 52 5 ≠ 0 → exec (.flctlEn c v) s =
      .next (((new.setReg (.flhead c) (s.reg (.fltail c))).setCtx c { s.ctx c with
        hseq := []
        highArmed := true }).setDone c)))
  ∧ (v.getLsbD 5 = false → v.getLsbD 0 = false → v.getLsbD 1 = true → old.getLsbD 0 = false → old.getLsbD 1 = false →
    (s.flag (.cxsched c) 0 = true ∨ s.field (.flbase c) 52 5 = 0 ∨ 2 ^ s.field (.flbase c) 52 5 < s.flOccupancy c →
      exec (.flctlRpl c v) s = .next refused)
    ∧ (s.flag (.cxsched c) 0 = false → s.field (.flbase c) 52 5 ≠ 0 →
      s.flOccupancy c ≤ 2 ^ s.field (.flbase c) 52 5 → exec (.flctlRpl c v) s =
      .next (((new.setField (.cxsched c) 1 1 1).setCtx c { s.ctx c with
        hseq := []
        consumed := []
        wmap := []
        divergent := false }).setDone c)))
  ∧ (v.getLsbD 5 = false → v.getLsbD 0 = false → v.getLsbD 1 = false → s.flag (.cxsched c) 0 = false →
    exec (.flctlEn c v) s = .next (new.setDone c) ∧ exec (.flctlRpl c v) s = .next (new.setDone c))
  ∧ (v.getLsbD 5 = true → v.getLsbD 0 = old.getLsbD 0 → v.getLsbD 1 = old.getLsbD 1 → v.getLsbD 0 = false →
    (old.getLsbD 3 = false → exec (.flctlEnd c v) s = .next refused)
    ∧ (old.getLsbD 3 = true → s.field (.flbase c) 52 5 ≠ 0 → exec (.flctlEnd c v) s =
      .next ((new.setDone c).endReplay c)))
  ∧ (v.getLsbD 0 = true → v.getLsbD 1 = true → exec (.flctlEn c v) s = .next refused
    ∧ exec (.flctlRpl c v) s = .next refused)

/-- The turn of a DISC record in replay (R379): the attempt that it names is discarded with the cause recorded; a bad
record, or one that names no attempt, is a divergence. -/
def discardTurnsHolds : Prop := ∀ (s : State) c i bs, c < 64 → s.replaying c = true →
  (s.ctx c).divergent = false → s.flag (.cxsched c) 0 = true →
  s.nextRec c (fun r => leNat (r.take 1) == 10) = some (i, some bs) →
  let cause := leNat ((bs.drop 24).take 1)
  let named (t : Task) : Prop := t.ctx = c ∧ t.name.toNat = leNat ((bs.drop 16).take 8) ∧ t.att = leNat ((bs.drop 25).take 1)
  (recordOk bs = false → exec (.replayDisc c) s = .next (s.diverge c i bs []))
  ∧ (recordOk bs = true → s.turn c bs = false → exec (.replayDisc c) s = .fault .notEnabled)
  ∧ (recordOk bs = true → s.turn c bs = true →
    ((∀ t ∈ s.tasks, ¬named t) → exec (.replayDisc c) s = .next (s.diverge c i bs []))
    ∧ ∀ t e pre post, s.tasks = pre ++ t :: post → (∀ u ∈ pre, ¬named u) → named t → Cause.ofCode cause = some e →
      exec (.replayDisc c) s = .next (s.discard t { cause := e } (agentSrc 0 t.queue) 0
        ((leNat ((bs.drop 26).take 1)) % 2 == 1)))

/-- Answers to Resolve records (R429): the record that a write of FQACK names is resolved, and what waited on its page
goes on after its cached walk is dropped; with ABORT each attempt that waits on it ends with PROTECTION, here where
none does; a write that names no outstanding record is refused. -/
def resolveAnswersHolds : Prop := ∀ (s : State) c (n : BitVec 31), c < 64 →
  ((∀ r ∈ (s.ctx c).resolves, r.seq ≠ some n.toNat) →
    exec (.fqackResolve c n) s = .next (s.cwRefuse (8 * (Reg.fqack c).index))
    ∧ exec (.fqackAbort c n) s = .next (s.cwRefuse (8 * (Reg.fqack c).index)))
  ∧ ∀ r pre post, (s.ctx c).resolves = pre ++ r :: post → r.seq = some n.toNat → (∀ x ∈ pre, x.seq ≠ some n.toNat) →
    let s0 := s.setCtx c { s.ctx c with resolves := (s.ctx c).resolves.filter fun x => x.page != r.page }
    exec (.fqackResolve c n) s = .next ((({ s0 with
        walks := s.walks.filter fun w => !(w.asid == s.asid c && w.vpn == r.page) } : State).wakePage c r.page).releaseHeld c)
    ∧ (s.pageWaiters c r.page = [] → s.tasks = [] → s.waves = [] →
      (∀ q, q < 256 → s.flag (.sqbase q) 0 = true → s.sqCtx q ≠ c) →
      (∀ d e, d < 8 → e < 12 → ((s.engine d e).job.map (·.ctx)) ≠ some c) →
      (∀ k, k < 64 → (s.cluster k).rasterWait ≠ some r.page) →
      exec (.fqackAbort c n) s = .next ((s0.wakePage c r.page).releaseHeld c))
    ∧ ∃ t, exec (.fqackAbort c n) s = .next t

/-! ## Debugger, raster jobs, copy engines and the package (spec/14 to spec/17) -/

/-- The debugger's access is refused: ERR is set, and the offset kept (R440, R454). -/
def dbgRefused (s : State) (r : Reg) : State := (s.setField .dbgstat 1 1 1).cwRefuse (8 * r.index)

/-- The debugger's access is taken: ERR is clear. -/
def dbgTaken (s : State) : State := s.setField .dbgstat 1 1 0

/-- Commands of the debugger (R437 to R441): HALT and HALTCTX halt, RESUME lets a halted wave go on, STEP and STEPC for
one issue with BUSY set, CANCEL clears it; without the context's DBGCTL.EN, or while BUSY is set, all but CANCEL are
refused. The window reads the image of a halted wave and takes writes until its release. -/
def debugCommandsHolds : Prop := ∀ (s : State),
  let c := s.field .dbgsel 0 6
  let no := Host.Outcome.next (dbgRefused s .dbgcmd)
  (s.flag (.dbgctl c) 0 = false ∨ s.flag .dbgstat 0 = true →
    exec .halt s = no ∧ exec .haltctx s = no ∧ exec .resume s = no ∧ exec .resumectx s = no ∧ exec .step s = no
      ∧ exec .stepc s = no)
  ∧ (s.flag .dbgstat 0 = false → exec .cancel s = .next (dbgTaken s))
  ∧ (s.flag .dbgstat 0 = true → ∀ id w, s.dbg.target = some id → s.wave? id = some w →
    exec .cancel s = .next (dbgTaken ({ s.setWave { w with stepping := false } with dbg := { s.dbg with
      target := none
      issued := false
      lanes := 0 } }.setField .dbgstat 0 1 0)))
  ∧ (s.flag (.dbgctl c) 0 = true → s.flag .dbgstat 0 = false →
    exec .haltctx s = .next (dbgTaken ((s.setCtx c { s.ctx c with haltAll := true }).haltCtx c))
    ∧ (s.selected = none → exec .halt s = no)
    ∧ ((s.ctx c).divergent = true → exec .resume s = no ∧ exec .resumectx s = no ∧ exec .step s = no ∧ exec .stepc s = no)
    ∧ ((s.ctx c).divergent = false → exec .resumectx s = .next (dbgTaken
        (((s.waves.filter fun w => w.halted && s.ctxOfCrew w.crew == c).map (·.id)).foldl
          (fun u id => u.releaseWave id false) (s.setCtx c { s.ctx c with haltAll := false }))))
    ∧ ∀ w, s.selected = some w →
      (w.halted = false → exec .halt s = .next (dbgTaken (s.haltWave w c)))
      ∧ (w.halted = true → exec .halt s = .next (dbgTaken s))
      ∧ ((s.ctx c).divergent = false →
        (w.halted = false → exec .resume s = .next (dbgTaken s) ∧ exec .step s = no ∧ exec .stepc s = no)
        ∧ ∀ k, w.halted = true → s.wave? w.id = some w → s.crew? w.crew = some k → w.pendFault = none →
          s.dbg.edits = [] → ∃ b,
          exec .resume s = .next (dbgTaken ((s.setWave { w with
              halted := false
              stepping := false
              brkPass := b }).traceEvent (dieOf w.core) 3 (s.ctxOfCrew w.crew) (srcOf w.core w.wslot 0) 0 0))
          ∧ (∀ done, exec (if done then .stepc else .step) s = .next (dbgTaken ({ s.setWave { w with
              halted := true
              stepping := true
              brkPass := b } with dbg := { s.dbg with
                target := some w.id
                complete := done
                issued := false
                lanes := 0
                issues := []
                seqs := [] } }.setField .dbgstat 0 1 1)))))
  ∧ ∀ w k, s.selected = some w → s.crew? w.crew = some k → s.ctxOfCrew w.crew = c → s.field .dbgaddr 0 2 = 0 →
    let off := 8 * s.field .dbgaddr 3 24
    let img := w.image k s.tick
    ((w.halted = false ∨ s.flag (.dbgctl c) 0 = false ∨ img.length < off + 8) →
      ∀ x, exec (.debugWindowAccess x) s = .next (dbgRefused s .dbgdata))
    ∧ (w.halted = true → s.flag (.dbgctl c) 0 = true → off + 8 ≤ img.length →
      exec (.debugWindowAccess none) s = .next (dbgTaken (s.setReg .dbgdata
        (BitVec.ofNat 64 (leNat ((img.drop off).take 8)))))
      ∧ ∀ v, exec (.debugWindowAccess (some v)) s = .next (dbgTaken { s with dbg := { s.dbg with
          edits := s.dbg.edits ++ [⟨w.id, 0, off, v⟩] } }))

/-- Breakpoints, the stop, snapshots, the trace ring and fault injection (R443 to R446, R328): GO lets every queue that
the register holds go on; STOPTICK stops the machine; a snapshot latches 64 clocks after its trigger, a gated cluster's
cores as zeros; CCINJ flips one of a granule's 72 stored bits. -/
def debugUnitsHolds : Prop := ∀ (s : State) (v : Dword),
  (∀ n : Fin 4,
    let bad := v.toNat / 2 ^ 11 % 4 ≠ 0 ∨ (v.getLsbD 0 = true ∧ v.getLsbD 1 = false ∧ v.getLsbD 2 = false)
    (bad → exec (.cpbpGo n v) s = .next (s.cwRefuse (8 * (Reg.cpbp n.val).index)))
    ∧ (¬bad → v.getLsbD 13 = true → exec (.cpbpGo n v) s = .next
      { (s.setReg (.cpbp n.val) v).setField (.cpbp n.val) 13 1 0 with
        queues := s.queues.map fun q => if q.bp = some n then { q with
          bp := none
          bpDone := true } else q })
    ∧ (¬bad → v.getLsbD 13 = false → exec (.cpbpGo n v) s =
      .next ((s.setReg (.cpbp n.val) v).setField (.cpbp n.val) 13 1 (s.field (.cpbp n.val) 13 1))))
  ∧ (s.flag .stopctl 0 = true → (s.reg .stoptick).toNat = s.tick → exec .stopTick s = .next { s with stopped := true })
  ∧ (s.flag .stopctl 0 = false → exec .stopTick s = .fault .notEnabled)
  ∧ (2 ^ 15 ≤ v.toNat → exec (.snapctlSw v) s = .next (s.cwRefuse (8 * Reg.snapctl.index)))
  ∧ (v.toNat < 2 ^ 15 →
      let arms := v.getLsbD 0 && !s.flag .snapctl 0
      let s1 := s.setReg .snapctl ((v &&& 0x7FF9) ||| (if arms then 0 else s.reg .snapctl &&& 2))
      let s2 := if arms then { s1 with snap := ⟨none, []⟩ } else s1
      exec (.snapctlSw v) s = .next (if v.getLsbD 2 then s2.trigger else s2))
  ∧ (∀ due, s.snap.due = some due → (s.tick < due → exec .snapshotLatch s = .fault .notEnabled)
    ∧ (due ≤ s.tick → ∃ u l, exec .snapshotLatch s = .next u ∧ u.snap = ⟨none, l⟩ ∧ l.length = 577
      ∧ ∀ core, core < 512 → (s.cluster (core / 8)).gated = true → l[core]? = some (List.replicate 17 0)))
  ∧ (∀ d, d < 8 → d < s.dies.length → s.flag (.trctl d) 0 = true → s.flag (.trctl d) 1 = true →
    let p := 64 * s.field (.trctl d) 2 12
    p ≠ 0 → s.tick % p = 0 → (s.die d).sampled ≠ s.tick + 1 → ∃ u, exec (.traceSample d) s = .next u
      ∧ (u.die d).sampled = s.tick + 1
      ∧ (s.flag (.trbase d) 0 = false → u = s.setDie d { s.die d with sampled := s.tick + 1 }))
  ∧ ∀ core, core < 512 →
    let tgt := v.toNat / 2 % 4
    let bit := v.toNat / 2 ^ 3 % 2 ^ 7
    let off := v.toNat / 2 ^ 16 % 2 ^ 20
    let bad := v.toNat / 2 ^ 10 % 2 ^ 6 ≠ 0 ∨ 2 ^ 36 ≤ v.toNat ∨ tgt = 3 ∨ 72 ≤ bit ∨ off % 8 ≠ 0
      ∨ (tgt ≠ 1 ∧ 2 ^ 18 ≤ off)
    let p : Place := if tgt = 0 then .spad core else if tgt = 1 then .tile core else .wbuf core
    let g := (s.mem p).take (s.fill p) (off / 8)
    let flipped : List Byte × Byte := if bit < 64 then (leBytes 8 (leNat g.1 ^^^ 2 ^ bit), g.2)
      else (g.1, g.2 ^^^ BitVec.ofNat 8 (2 ^ (bit - 64)))
    let s1 := s.setReg (.core core) (v &&& ~~~1#64)
    (bad → exec (.ccinjGo core v) s = .next (s.cwRefuse (8 * (Reg.core core).index)))
    ∧ (¬bad → v.getLsbD 0 = true → exec (.ccinjGo core v) s =
      .next (s1.setMem p ((s.mem p).carry (s.fill p) (off / 8) flipped)))
    ∧ (¬bad → v.getLsbD 0 = false → exec (.ccinjGo core v) s = .next s1)

/-- Raster queues (R395 to R397): the doorbell takes an index of the ring; a job that completes passes the head; one that
cannot be performed ends with its fault, ERR set and EN clear; an absent page holds the queue; no job, no effect. -/
def rasterQueuesHolds : Prop := ∀ (s : State) clu, clu < 64 →
  let ctx := s.field (.rqctl clu) 0 6
  let size := 2 ^ s.field (.rqbase clu) 1 4
  let head := s.field (.rqhead clu) 0 12 % size
  let passed (t : State) : State := t.setReg (.rqhead clu)
    (BitVec.ofNat 64 ((t.field (.rqhead clu) 0 12 + 1) % 2 ^ t.field (.rqbase clu) 1 4))
  let job := s.runRaster ctx (s.field (.rqbase clu) 12 44 * 2 ^ 12 + 64 * head)
  (∀ v : Dword, (v.toNat < 2 ^ 12 → v.toNat < size → exec (.rqtailDoorbell clu v) s = .next (s.setReg (.rqtail clu) v))
    ∧ (2 ^ 12 ≤ v.toNat ∨ size ≤ v.toNat →
      exec (.rqtailDoorbell clu v) s = .next (s.cwRefuse (8 * (Reg.rqtail clu).index))))
  ∧ ((s.flag (.rqbase clu) 0 = false ∨ head = s.field (.rqtail clu) 0 12 ∨ (s.cluster clu).rasterWait ≠ none) →
    exec (.rasterJob clu) s = .fault .notEnabled)
  ∧ (s.flag (.rqbase clu) 0 = true → head ≠ s.field (.rqtail clu) 0 12 → (s.cluster clu).rasterWait = none →
    (∀ t, job = .ok t → exec (.rasterJob clu) s = .next (passed t))
    ∧ (∀ e t, job = .error (e, t) → e.cause = .pageNotPresent → exec (.rasterJob clu) s =
      .next ((s.setCluster clu { s.cluster clu with rasterWait := some e.page }).postResolve ctx
        ⟨1, 0, 0, agentSrc 0 0, 0, e⟩))
    ∧ ∀ e t, job = .error (e, t) → e.cause ≠ .pageNotPresent → exec (.rasterJob clu) s =
      .next (passed (((t.unitFault (t.field (.rqctl clu) 0 6) 0 0 6 e).setField (.rqctl clu) 6 1 1).setField
        (.rqbase clu) 0 1 0)))

/-- The top-left rule (R399): of two triangles that share an edge in opposite directions, a point on the edge lies on
the inner side of exactly one. -/
def sharedEdgesHolds : Prop := ∀ (a b : Vtx) (px py : Int), (a.x ≠ b.x ∨ a.y ≠ b.y) →
  insideEdge a b px py = !insideEdge b a px py

/-- Copy jobs (R413 to R416): the doorbell; the next job of a die's ring starts on its first free engine with zeroed
registers, a built-in routine with its one transfer, and a job with a bad record is refused; a job whose time runs out
ends with WATCHDOG_KILL; a routine slot that no running job uses takes the package that was verified for it. -/
def copyJobsHolds : Prop := ∀ (s : State) d, d < 8 →
  let size := 2 ^ s.field (.cjbase d) 1 4
  let head := s.field (.cjhead d) 0 12 % size
  let pa := s.field (.cjbase d) 7 45 * 128 + 128 * head
  let passed (t : State) : State := t.setReg (.cjhead d)
    (BitVec.ofNat 64 ((t.field (.cjhead d) 0 12 + 1) % 2 ^ t.field (.cjbase d) 1 4))
  (∀ v : Dword, (v.toNat < 2 ^ 12 → v.toNat < size → exec (.cjtailDoorbell d v) s = .next (s.setReg (.cjtail d) v))
    ∧ (2 ^ 12 ≤ v.toNat ∨ size ≤ v.toNat →
      exec (.cjtailDoorbell d v) s = .next (s.cwRefuse (8 * (Reg.cjtail d).index))))
  ∧ (s.flag (.cjbase d) 0 = true → head ≠ s.field (.cjtail d) 0 12 →
    ((s.die d).engines.filter fun e => e.job.isSome).length < s.field (.cjctl d) 0 4 →
    ∀ e bs, (s.die d).engines.findIdx? (fun e => e.job.isNone) = some e → s.readAt .dev pa 128 = .ok bs →
    (∀ j, copyJobOf (s.die d) pa s.tick bs = .ok j →
      let s1 := passed (s.setEngine d e { Engine.reset with job := some j })
      (2 ≤ j.slot → exec (.copyJobStart d) s = .next s1)
      ∧ (j.slot < 2 → ∀ y, j.builtInXfer = .ok y → exec (.copyJobStart d) s =
        .next (s1.setEngine d e { s1.engine d e with xfers := [y] }))
      ∧ (j.slot < 2 → ∀ t, j.builtInXfer = .error t → exec (.copyJobStart d) s = .next (s1.endJob d e t)))
    ∧ ∀ o, copyJobOf (s.die d) pa s.tick bs = .error o → exec (.copyJobStart d) s =
      .next (passed (if leNat ((bs.drop 6).take 1) < 64 then
        s.faultRecord (leNat ((bs.drop 6).take 1)) ⟨4, 0, 0, d + 2 ^ 31, 0, (formatTrap 8 pa 6 o).atUnit 8⟩ else s)))
  ∧ (∀ e j, e < 12 → (s.engine d e).job = some j →
    let lim := 1024 * s.field (.cjctl d) 4 16
    (lim ≠ 0 → j.started + lim < s.tick → exec (.copyJobTimeout d e) s =
      .next (s.endJob d e { cause := .watchdogKill, aux1 := BitVec.ofNat 64 (s.tick - j.started) }))
    ∧ (lim = 0 ∨ s.tick ≤ j.started + lim → exec (.copyJobTimeout d e) s = .fault .notEnabled))
  ∧ ∀ slot (v : Dword), 2 ≤ slot → slot < 32 → (∀ e ∈ (s.die d).engines, ∀ j, e.job = some j → j.slot ≠ slot) →
    v.toNat / 2 ^ 11 % 32 = 0 → v.toNat / 2 ^ 62 = 0 → v.getLsbD 0 = true → v.toNat / 2 % 2 ^ 10 ≠ 0 →
    (s.mgmt.slots.contains (d, slot, v) = false → exec (.rtslotLoad d slot v) s =
      .next (s.cwRefuse (8 * (Reg.rtslot d slot).index)))
    ∧ ∀ bs, s.mgmt.slots.contains (d, slot, v) = true →
      s.readAt .dev (v.toNat / 2 ^ 16 % 2 ^ 46 * 64) (64 * (v.toNat / 2 % 2 ^ 10)) = .ok bs →
      ∃ t, exec (.rtslotLoad d slot v) s = .next t ∧ t.mgmt.slots = s.mgmt.slots.erase (d, slot, v)
        ∧ (d < s.dies.length → ((t.die d).routine slot) = some bs)

/-- A transfer (R410, R411): its remaining units are moved in order, then it is complete; it stops at an absent page,
and any other fault ends the job. -/
def transfersHolds : Prop := ∀ (s : State) d e n j x, d < 8 → e < 12 → (s.engine d e).job = some j →
  (s.engine d e).xfers[n]? = some x → x.wait = none → x.pos < x.len → 2 ≤ j.slot →
  let hot := x.kind < 2 && ((s.engine d e).xfers.eraseIdx n).any fun y =>
    y.meets x.buf x.off (64 * x.len) && (x.kind == 0 || y.kind == 0)
  let r := s.moveUnits d e j x hot (x.len - x.pos) x.pos
  let put (w : Option Nat) : State :=
    let g := r.1.engine d e
    r.1.setEngine d e { g with
      xfers := g.xfers.set n { x with
        pos := r.2.1
        wait := w }
      resv := if x.kind == 0 then none else g.resv
      seq := if w.isNone && r.2.1 = x.len then g.seq + 1 else g.seq }
  (r.2.2 = none → exec (.transferDone d e n) s = .next (put none) ∧ r.2.1 = x.len)
  ∧ ∀ t, r.2.2 = some t →
    (t.cause ≠ .pageNotPresent → exec (.transferDone d e n) s = .next (r.1.endJob d e t))
    ∧ (t.cause = .pageNotPresent → exec (.transferDone d e n) s =
      .next ((put (some t.page)).postResolve j.ctx ⟨1, 0, 0, d + 2 ^ 31, 0, t.atUnit 8⟩))

/-- The engine after an instruction of four bytes that writes register rd (R407). -/
def retired (x : Engine) (rd : Nat) (v : Dword) : Engine :=
  { x with
    x := if rd = 0 then x.x else x.x.set rd v
    pc := (x.pc + 4) % 2 ^ 64
    instret := x.instret + 1
    stall := false }

/-- A routine's core (R407, R410, R412): an instruction changes the core alone, and one that is illegal or accesses
outside the map ends the job with its cause; addi as an example of the standard's; a write of cemove starts the transfer
its value gives, a read of cesync waits until none is in flight and gives the number completed; ecall with a0 = 0
completes the job, with any other SOFTWARE, ebreak BREAKPOINT. -/
def routinesHolds : Prop := ∀ (s : State) d e r w, d < 8 → e < 12 → d < s.dies.length →
  e < (s.die d).engines.length → s.rv? d e = some r → r.fetchAt r.x.pc = .ok w → w < 2 ^ 32 →
  (∀ x, r.exec w = .next x → exec (.rv64gcInstruction d e (BitVec.ofNat 32 w)) s =
    .next (s.setEngine d e { x with stall := false }))
  ∧ (∀ t, r.exec w = .trap t → exec (.rv64gcInstruction d e (BitVec.ofNat 32 w)) s = .next (s.endJob d e t))
  ∧ (∀ (rd rs1 : Fin 32) (imm : BitVec 12), w = imm.toNat * 2 ^ 20 + rs1.val * 2 ^ 15 + rd.val * 2 ^ 7 + 0x13 →
    exec (.rv64gcInstruction d e (BitVec.ofNat 32 w)) s =
      .next (s.setEngine d e (retired r.x rd.val (r.get rs1.val + imm.signExtend 64))))
  ∧ (∀ rs1 : Fin 32, w = 0x80000000 + rs1.val * 2 ^ 15 + 0x1073 →
    let v := r.get rs1.val
    let x := { retired r.x 0 0 with stall := r.x.stall }
    (∀ y, xferOf r.j r.x.off v = .ok y → exec (.cemove d e v) s = .next (s.setEngine d e { x with xfers := x.xfers ++ [y] }))
    ∧ ∀ t, xferOf r.j r.x.off v = .error t → exec (.cemove d e v) s = .next ((s.setEngine d e x).endJob d e t))
  ∧ (∀ rd : Fin 32, w = 0x80202073 + rd.val * 2 ^ 7 →
    ((∀ y ∈ r.x.xfers, y.len ≤ y.pos) → exec (.cesync d e rd) s =
      .next (s.setEngine d e { retired r.x rd.val (BitVec.ofNat 64 r.x.seq) with xfers := [] }))
    ∧ ((∃ y ∈ r.x.xfers, y.pos < y.len) → (r.x.stall = true → exec (.cesync d e rd) s = .fault .notEnabled)
      ∧ (r.x.stall = false → exec (.cesync d e rd) s = .next (s.setEngine d e { r.x with stall := true }))))
  ∧ (w = 0x73 →
    (r.get 10 ≠ 0 → exec (.ecall d e) s = .next (s.endJob d e
      { cause := .software, aux0 := BitVec.ofNat 64 ((r.get 10).toNat % 2 ^ 32) }))
    ∧ (r.get 10 = 0 → (∃ y ∈ r.x.xfers, y.pos < y.len) → exec (.ecall d e) s = .fault .notEnabled)
    ∧ (r.get 10 = 0 → (∀ y ∈ r.x.xfers, y.len ≤ y.pos) → r.j.done = 0 → exec (.ecall d e) s =
      .next (s.setEngine d e { r.x with
        job := none
        xfers := []
        stall := false })))
  ∧ (w = 0x100073 → exec (.ebreak d e) s = .next (s.endJob d e
      { cause := .breakpoint, aux0 := BitVec.ofNat 64 r.x.pc }))

/-- The package after a reset, before the boot ROM (R457): what a reset clears, and what it keeps. -/
def packageAfter (s t : State) : Prop :=
  t.dev = .empty ∧ t.hostMem = s.hostMem ∧ t.peerMem = s.peerMem ∧ t.tick = 0 ∧ t.stopped = false
    ∧ t.tasks = [] ∧ t.crews = [] ∧ t.waves = [] ∧ t.walks = [] ∧ t.lines = [] ∧ t.up = [] ∧ t.merges = [] ∧ t.links = 0
    ∧ t.cores = State.reset.cores ∧ t.ctxs = State.reset.ctxs ∧ t.queues = State.reset.queues
    ∧ t.mgmt.flash = s.mgmt.flash ∧ t.mgmt.command = none

/-- Package resets (R457, R458): power-on, PKRST with its value by the driver or the Turnip core, and the thermal
shutdown at TTRIP + 10; any other value is refused, and so is a write by a user. -/
def packageResetsHolds : Prop := ∀ s : State,
  (∃ t, exec .powerOn s = .next t ∧ packageAfter s t)
  ∧ (∀ by', by' ≠ .user → ∃ t, exec (.pkrstWrite by' 0x5253) s = .next t ∧ packageAfter s t)
  ∧ (∀ by' v, (by' = .user ∨ v ≠ 0x5253) → exec (.pkrstWrite by' v) s = .next (s.cwRefuse (8 * Reg.pkrst.index)))
  ∧ ∀ d temp, d < 8 → (Config.ttrip.toNat + 10 ≤ temp → ∃ t, exec (.thermalShutdown d temp) s = .next t
      ∧ packageAfter s t)
    ∧ (temp < Config.ttrip.toNat + 10 → exec (.thermalShutdown d temp) s = .fault .notEnabled)

/-- Throttling (R458): a sample moves each die's level by its hottest sensor and the package's by the power average,
and a sensor that reaches TTRIP trips its die. -/
def throttlingHolds : Prop := ∀ s : State, s.dies.length = 8 →
  (∀ hot avg, hot.length = 8 → (∀ x ∈ hot, x ≤ 255) → avg ≤ 4095 → s.tick % 65536 = 0 → s.levelled ≠ s.tick + 1 →
    ∃ t, exec (.throttleSample hot avg) s = .next t ∧ t.levelled = s.tick + 1
      ∧ (s.field .pwrctl 0 12 < avg → t.tpw = min 7 (s.tpw + 1) ∧ t.pcool = 0)
      ∧ (avg ≤ s.field .pwrctl 0 12 → s.pcool < 15 → t.tpw = s.tpw)
      ∧ (∀ d, d < 8 → s.field (.thctl d) 0 8 ≤ hot.getD d 0 →
        (t.die d).tth = min 7 ((s.die d).tth + 1))
      ∧ ∀ d, d < 8 → s.field (.thctl d) 8 8 < hot.getD d 0 → hot.getD d 0 < s.field (.thctl d) 0 8 →
        (t.die d).tth = (s.die d).tth ∧ (t.die d).cool = 0)
  ∧ (∀ hot avg, (s.tick % 65536 ≠ 0 ∨ hot.length ≠ 8) → exec (.throttleSample hot avg) s = .fault .notEnabled)
  ∧ ∀ d temp, d < 8 →
    (Config.ttrip.toNat ≤ temp → (s.die d).trip = false → ∃ t, exec (.thermalTrip d temp) s = .next t
      ∧ (t.die d).trip = true ∧ ∀ k, k ≠ d → t.die k = s.die k)
    ∧ (Config.ttrip.toNat ≤ temp ∨ exec (.thermalTrip d temp) s = .fault .notEnabled)

/-- The mailbox (R464, R466): a command is refused while BUSY is set; without firmware each but STAGEFW in recovery ends
with STATUS 1; a buffer outside the Turnip core's windows gives STATUS 3; ATTEST writes the report, LOADSLOT readies a
verified package's slots, STAGEFW keeps verified firmware, and STATUS is 2 where it does not verify; the command's end clears BUSY, sets STATUS and
INTST bit 7. -/
def mailboxHolds : Prop := ∀ (s : State),
  let commands : List Instr := [.attest, .loadslot, .stagefw, .sensors]
  let started (t : State) (st : Nat) : State := { t.setReg .mbcmd 0x100 with mgmt := { t.mgmt with command := some st } }
  let stage := s.field .mgstat 0 4
  let buf := s.field .mbaddr 6 46 * 64
  (s.flag .mbcmd 8 = true → ∀ i ∈ commands, exec i s = .next (s.cwRefuse (8 * Reg.mbcmd.index)))
  ∧ (s.flag .mbcmd 8 = false →
    (stage ≠ 2 → ∀ i ∈ commands, (i ≠ .stagefw ∨ stage ≠ 3) → exec i s = .next (started s 1))
    ∧ (stage = 2 → (∀ i, i < 4 → s.flag (.mgwin i) 0 = false) → ∀ i ∈ commands, exec i s = .next (started s 3))
    ∧ (stage = 2 → s.mgPlace buf 512 = some .dev → ∀ bs, s.readAt .dev buf 512 = .ok bs →
      (∃ t, exec .sensors s = .next (started t 0) ∧ t.mgmt.samples = s.mgmt.samples + 1)
      ∧ (let body := bs.take 32 ++ pack [(8, s.tick), (8, Config.serial.toNat), (16, 0)]
           ++ pack (s.mgmt.mr.map fun m => (32, m.toNat)) ++ leBytes 64 Config.devicePub.toNat
         let report := body ++ leBytes 64 (Config.sm2Sign (Config.sm3 body)).toNat
         s.mgPlace buf report.length = some .dev → exec .attest s = .next (started (s.putAt .dev buf report) 0))
      ∧ (let slot := leNat (bs.take 8)
         let pa := leNat ((bs.drop 8).take 8)
         ((slot < 2 ∨ 31 < slot ∨ pa % 64 ≠ 0) → exec .loadslot s = .next (started s 1))
         ∧ ∀ img, 2 ≤ slot → slot ≤ 31 → pa % 64 = 0 → s.turnipImage pa = .ok img →
           64 ≤ imageLen img → imageLen img < 65536 → s.mgPlace pa 256 = some .dev →
             ∃ t, t.ctl = s.ctl
               ∧ t.mgmt.slots = (List.range 8).map (fun d => (d, slot, rtslotValue (pa + 256) (imageLen img / 64)))
               ∧ exec .loadslot s = if verifyImage 0x52510001 img = 0 then .next (started t 0) else .next (started s 2))
      ∧ ∀ img, s.turnipImage (leNat (bs.take 8)) = .ok img →
        exec .stagefw s = if verifyImage 0x46510001 img = 0 then
          .next (started { s with mgmt := { s.mgmt with flash := img } } 0) else .next (started s 2)))
  ∧ (s.mgmt.command = none → exec .mailboxComplete s = .fault .notEnabled)
  ∧ ∀ st, s.mgmt.command = some st → s.mgmt.slots = [] → exec .mailboxComplete s =
    .next (({ s with mgmt := { s.mgmt with command := none } }.setReg .mbcmd (BitVec.ofNat 64 (st * 2 ^ 16))).raise 0x80)

/-- Writes of the control window (R452 to R454): every write completes unless it waits for a routine slot in use; one at
an offset that names no register, of a user outside the doorbell pages, or of a reserved bit is refused; a read-only
register keeps its value; a plain register takes it. -/
def registerWritesHolds : Prop := ∀ (s : State) by' off (v : Dword),
  ((∀ d n, Reg.at? (off / 8) = some (.die d n) → n < 11 ∨ by' ≠ .turnip) → ∃ t, exec (.registerWrite by' off v) s = .next t)
  ∧ ((off % 8 ≠ 0 ∨ Reg.at? (off / 8) = none) → exec (.registerWrite by' off v) s = .next (s.cwRefuse off))
  ∧ (∀ r, off % 8 = 0 → Reg.at? (off / 8) = some r → by' = .user → (∀ q n, r ≠ .bell q n) →
    exec (.registerWrite by' off v) s = .next (s.cwRefuse off))
  ∧ (by' ≠ .user →
    let wr (r : Reg) : Host.Outcome State Fault Refusal := exec (.registerWrite by' (8 * r.index) v) s
    let set (r : Reg) (n : Nat) : Prop := wr r = .next (if v.toNat < 2 ^ n then s.setReg r v else s.cwRefuse (8 * r.index))
    let kept (r : Reg) (n : Nat) : Prop := 2 ^ n ≤ v.toNat → wr r = .next (s.cwRefuse (8 * r.index))
    set .balctl 17 ∧ set .rmidx 12 ∧ set .rmcan 56 ∧ set .msmerge 8 ∧ kept .pwrstat 12 ∧ kept .mgstat 22
      ∧ (wr .stoptick = .next (s.setReg .stoptick v))
      ∧ (∀ c, c < 64 → set (.dbgctl c) 3 ∧ kept (.fqhead c) 31
        ∧ (s.flag (.cxsched c) 0 = true → wr (.cxasid c) = .next (s.cwRefuse (8 * (Reg.cxasid c).index)))
        ∧ (s.flag (.cxsched c) 0 = false → set (.cxasid c) 16))
      ∧ wr .pwrctl = .next (if v.toNat < 2 ^ 12 ∧ v.toNat ≤ s.field .clamp 0 12 then
        (s.setReg .pwrctl v).extend 3 (leBytes 8 v.toNat) else s.cwRefuse (8 * Reg.pwrctl.index)))

/-! ## Encoding, reset, memory, faults, the log, and the step (spec/02, spec/11, spec/13, spec/16, spec/17) -/

/-- Encoding a well-formed lane instruction and decoding the word gives the instruction back, with every operand at
every value that the encoding admits (R53 to R61). -/
def Obligations.DecodeEncode : Prop :=
  ∀ (i : Instr) (w : InstrWord), i.WellFormed = true → encode i = some w → decode w = .ok i

/-- A word that decodes is the word of its instruction, so that no bit is dropped; and an opcode that R68 does not
assign is refused as one. -/
def Obligations.EncodeDecode : Prop :=
  (∀ (i : Instr) (w : InstrWord), decode w = .ok i → encode i = some w)
  ∧ ∀ w : InstrWord, decode w = .error .opcode ↔
      isUC (w.toNat % 256) = false ∧ isVME (w.toNat % 256) = false

/-- Words of the specification's own examples decode to the instructions that it says they are (R54, R104, R126, R128,
R159, R199, R232), and an event has no word. -/
def Obligations.DecodeWords : Prop :=
  let h : Head := { sw := false, g := 0, gn := false }
  decode 0x0000075501200060_14040B63 = .ok (.fma false false
      ⟨⟨true, 2, false⟩, some ⟨5, true, .rtz, false⟩, .f32, .v 4, .v 5, .reg (.v 6), .v 7⟩)
  ∧ decode 0x00300002_04000000_00000007 = .ok (.loop h (.imm 3) 2)
  ∧ decode 0xFFFFFFFD_04400004_19060020 = .ok (.sadd { h := h, ty := .i64, d := .s 6, a := .s 6, b := .imm 0xFFFFFFFD })
  ∧ decode 0x00000007_40300000_04030040 = .ok (.add { h := h, mod := none, ty := .i32, d := .v 3, a := .v 1, b := .imm 7 })
  ∧ decode 0x00000010_A1204000_28040090 = .ok (.ld ⟨h, none, .f32, .glob, some .dev, false, .v 4, .v 10, 16⟩)
  ∧ decode 0x00507FFF_04001525_455000B1 = .ok (.mma ⟨h, true, .s 80, .s 81, .s 82, 63, 63, 7, 5⟩)
  ∧ decode 0x00000000_2D209460_082800C0 = .ok (.smpl .sto ⟨h, .f32, .lz, .v 40, .v 2, .s 70, 3, 1, 0, 0⟩)
  ∧ decode 0x01 = .ok (.nop h) ∧ decode 0x00 = .error .opcode ∧ decode 0xFF = .error .opcode
  ∧ encode .powerOn = none ∧ encode (.taskRetire 0) = none

/-- What reset leaves: the register values that the specification gives (R343, R407, R460, R298), zero in every other
register of the control window, no work anywhere, memories that list nothing; and a step from it is the boot of the
package (the model's own first act, notes/assumptions/3). The conditions on states hold there. -/
def Obligations.ResetState : Prop :=
  let s := State.reset
  (∀ d : Nat, s.reg (.thctl d) = 0x5A5F ∧ s.reg (.cjctl d) = 8) ∧ s.reg .balctl = 0x11000 ∧ s.reg .msmerge = 16
  ∧ s.field .mgstat 0 4 = 0 ∧ s.flag .cwerr 0 = false ∧ s.reg .intst = 0
  ∧ (∀ c n : Nat, s.reg (.ctx c n) = 0) ∧ (∀ q n : Nat, s.reg (.queue q n) = 0) ∧ (∀ c n : Nat, s.reg (.clu c n) = 0)
  ∧ (∀ c : Nat, s.reg (.core c) = 0) ∧ (∀ l : Nat, s.reg (.link l) = 0)
  ∧ s.tasks = [] ∧ s.crews = [] ∧ s.waves = [] ∧ s.arrivals = [] ∧ s.remap = [] ∧ s.merges = [] ∧ s.up = []
  ∧ s.dev = .empty ∧ s.hostMem = .empty ∧ s.stopped = false
  ∧ s.memOk = true ∧ s.partsOk = true
  ∧ step s = .next (s.moved (.event .powerOn) ((s.packageReset 0).boot) [])

/-- Every step keeps the memories of the package in canonical form: addresses strictly rising. -/
def Obligations.StepKeepsMemory : Prop :=
  ∀ s t : State, s.memOk = true → step s = .next t → t.memOk = true

/-- Every step keeps the parts that the package has (spec/00 R1): 512 cores, 64 clusters, 8 dies of 12 copy engines,
64 context slots and 256 queues. -/
def Obligations.StepKeepsParts : Prop :=
  ∀ s t : State, s.partsOk = true → step s = .next t → t.partsOk = true

/-- The values of check codes (R311): the table, the code of a sum, and the change of code by every burst of flipped bits
within 8 consecutive positions, of which a single bit is one. -/
def Obligations.CheckCodes : Prop :=
  checkCode 0 = 0xA5 ∧ checkCode 1 = 0x8A ∧ checkCode 2 = 0xFB ∧ checkCode 3 = 0xD4 ∧ checkCode 0x100 = 0x4C
  ∧ checkCode 0x200 = 0x58 ∧ checkCode 0x201 = 0x77 ∧ checkCode 0x3F800000 = 0xB3
  ∧ (∀ a b : Nat, a < 2 ^ 64 → b < 2 ^ 64 → checkCode (a ^^^ b) = checkCode a ^^^ checkCode b ^^^ 0xA5)
  ∧ ∀ a d i : Nat, a < 2 ^ 64 → 0 < d → d < 256 → d * 2 ^ i < 2 ^ 64 → checkCode (a ^^^ (d * 2 ^ i)) ≠ checkCode a

/-- What a memory holds after a producer's write (R312, R313, R316): the bytes written and no others are new, every
granule that holds one of them has its code, whole granules never fail, and a narrow write fails just where the code of
a granule that it covers in part is wrong; a granule carried with its code is read back as it was (R315). -/
def Obligations.MemoryContents : Prop := ∀ (f : Fill) (m : Memory), m.wf = true →
  (∀ a bs m', m.write f a bs = .ok m' → m'.wf = true
    ∧ (∀ x, m'.byte f x = if a ≤ x ∧ x < a + bs.length then bs.getD (x - a) 0 else m.byte f x)
    ∧ ∀ g, f.coded = true → (m'.check f g = none ∨ m'.check f g = m.check f g)
      ∧ ((∃ x, a ≤ x ∧ x < a + bs.length ∧ x / 8 = g) → m'.check f g = none))
  ∧ (∀ a bs, a % 8 = 0 → bs.length % 8 = 0 → ∃ m', m.write f a bs = .ok m')
  ∧ (∀ a bs, f.coded = true → a % 8 + bs.length < 8 → bs ≠ [] →
    ((∃ m', m.write f a bs = .ok m') ↔ m.check f (a / 8) = none)
    ∧ ∀ y, m.check f (a / 8) = some y → m.write f a bs = .error y)
  ∧ ∀ g x, f.coded = true → x.1.length = 8 → (m.carry f g x).take f g = x ∧ (m.carry f g x).wf = true

/-- Fault records (R421, R424, R427): the causes have their codes; a record has its fields at their places; it is
written at FQHEAD, which advances, and carries LOST where records were dropped before it; without room it is counted
in FQSTAT. -/
def faultRecords : Prop :=
  [Cause.illegalOpcode, .illegalField, .illegalOperand, .lineFormat, .branchTarget, .misaligned, .bounds, .pageNotPresent,
    .protection, .sealedWrite, .checkMismatch, .replayDiverge, .queueMisuse, .barrierMisuse, .software, .breakpoint,
    .watchdogKill, .versionOverflow, .linkError, .resource, .format].map Cause.code = List.range' 1 21
  ∧ (∀ (r : FaultRec) (flags seq tick : Nat), let b := r.bytes flags seq tick
    b.length = 64 ∧ fieldOf b 0 1 = r.trap.cause.code ∧ fieldOf b 1 1 = flags % 256 ∧ fieldOf b 2 1 = r.trap.unit % 256
    ∧ fieldOf b 3 1 = r.att % 256 ∧ fieldOf b 4 4 = seq % 2 ^ 32 ∧ fieldOf b 8 8 = r.task.toNat
    ∧ fieldOf b 0x10 8 = tick % 2 ^ 64 ∧ fieldOf b 0x18 4 = r.src % 2 ^ 32 ∧ fieldOf b 0x1C 4 = r.slot % 2 ^ 32
    ∧ fieldOf b 0x20 8 = r.trap.addr.toNat ∧ fieldOf b 0x28 8 = r.trap.aux0.toNat ∧ fieldOf b 0x30 8 = r.trap.aux1.toNat
    ∧ fieldOf b 0x38 4 = r.trap.xtra.toNat ∧ fieldOf b 0x3C 4 = 0)
  ∧ ∀ (s : State) (c : Nat) (r : FaultRec), c < 64 → s.ctxs.length = 64 →
    (s.fqRoom c = true → s.dev.wf = true → s.flag (.trctl (r.src % 8)) 0 = false →
      let h := s.field (.fqhead c) 0 31
      let t := s.faultRecord c r
      t.field (.fqhead c) 0 31 = (h + 1) % 2 ^ 31 ∧ (t.ctx c).lost = false
      ∧ t.bytesAt .dev (s.field (.fqbase c) 16 36 * 2 ^ 16 + 64 * (h % s.fqSize c)) 64
        = r.bytes (r.flags + if (s.ctx c).lost then 8 else 0) h s.tick)
    ∧ (s.fqRoom c = false →
      let t := s.faultRecord c r
      t.field (.fqstat c) 0 32 = min (s.field (.fqstat c) 0 32 + 1) (2 ^ 32 - 1) ∧ (t.ctx c).lost = true
      ∧ t.dev = s.dev ∧ t.field (.fqhead c) 0 31 = s.field (.fqhead c) 0 31)

/-- What becomes of a fault of a group (R422, R428, R437 to R439; spec/02 R52; spec/12 R354): a group of helper threads
ends; a page that is not present holds the group's threads for it; a breakpoint halts the wave, and so does another
fault where the debugger holds faults; any other ends the attempt, whose crews, waves and records go, and which is
retried from its beginning or leaves the machine. -/
def takenFaults : Prop := ∀ (s : State) (w : Wave) (m : BitVec 64) (slot : Nat) (e : Trap),
  let c := s.ctxOfCrew w.crew
  (m &&& ~~~w.helperMask = 0 → s.takeFault w m slot e = s.setWave (w.endHelpers m))
  ∧ (m &&& ~~~w.helperMask ≠ 0 → ∀ x, s.wave? w.id = some x →
    (e.cause = .pageNotPresent → ∃ u, (s.takeFault w m slot e).wave? w.id = some u
      ∧ { u with threads := w.threads } = w
      ∧ (∀ l, l < w.threads.length → u.th l = if m.getLsbD l then { w.th l with run := .resolve e.page } else w.th l)
      ∧ ((s.takeFault w m slot e).ctx c).resolves.any (fun r => r.page == e.page) = decide (c < s.ctxs.length
        ∨ (s.ctx c).resolves.any (fun r => r.page == e.page) = true))
    ∧ (e.cause = .breakpoint → s.flag (.dbgctl c) 2 = false → ∃ u, (s.takeFault w m slot e).wave? w.id = some u
      ∧ u = { w with
          halted := true
          brkPass := some slot
          brkCode := some (e.aux0.setWidth 32) })
    ∧ (e.cause ≠ .pageNotPresent → e.cause ≠ .breakpoint → s.flag (.dbgctl c) 0 = true → s.flag (.dbgctl c) 1 = true →
      ∃ u, (s.takeFault w m slot e).wave? w.id = some u
      ∧ u = { w with
          halted := true
          pendFault := some { e with slot := slot } })
    ∧ (e.cause ≠ .pageNotPresent → e.cause ≠ .breakpoint → s.flag (.dbgctl c) 0 = false →
      ∀ k t, s.crew? w.crew = some k → s.task? k.task = some t → s.replaying t.ctx = false →
        s.takeFault w m slot e = s.discard t e (srcOf w.core w.wslot (e.lane.getD (lowLane m))) slot false))

/-- The discard of an attempt (spec/12 R354). -/
def discards : Prop := ∀ (s : State) (t : Task) (e : Trap) (src slot : Nat) (noRetry : Bool),
  s.task? t.id = some t →
  let u := s.discard t e src slot noRetry
  (∀ k ∈ u.crews, k.task ≠ t.id) ∧ (∀ w ∈ u.waves, ∃ k, s.crew? w.crew = some k ∧ k.task ≠ t.id)
  ∧ (∀ k ∈ s.crews, k.task ≠ t.id → k ∈ u.crews)
  ∧ (t.retries = true → noRetry = false → ∃ x, u.task? t.id = some x ∧ x.phase = .ready ∧ x.place = none ∧ x.cores = []
    ∧ x.order = 0 ∧ x.att = t.att ∧ x.version = .empty ∧ x.vspilled = [] ∧ ∀ o ∈ x.ops, o.done = [] ∧ o.wait = none)
  ∧ (t.retries = false ∨ noRetry = true → u.task? t.id = none)


/-- Log records (R364, R368 to R370): a record has its fields at their places, and while logging is on an operation
without a payload writes one at FLHEAD, which advances, with the next number of its home. -/
def logRecords : Prop :=
  (∀ (o : LogOp) (seq : Nat), let b := o.bytes seq
    b.length = 32 ∧ fieldOf b 0 1 = o.kind % 256 ∧ fieldOf b 1 1 = o.flags % 256 ∧ fieldOf b 2 1 = o.opc % 256
    ∧ fieldOf b 3 1 = o.extn % 256 ∧ fieldOf b 4 4 = o.src % 2 ^ 32 ∧ fieldOf b 8 8 = o.seqWord seq % 2 ^ 64
    ∧ fieldOf b 0x10 8 = o.addr % 2 ^ 64 ∧ fieldOf b 0x18 8 = o.value % 2 ^ 64)
  ∧ ∀ (s : State) (c : Nat) (o : LogOp) g, c < 64 → s.ctxs.length = 64 → s.logging c = true → o.ext = [] →
    s.dev.wf = true → rising (s.ctx c).hseq = true → s.field (.flhigh c) 0 31 = 0 →
    let h := s.field (.flhead c) 0 31
    ∃ t, s.logDone c o g = .ok t ∧ t.field (.flhead c) 0 31 = (h + 1) % 2 ^ 31
      ∧ t.bytesAt .dev (s.flAddr c h) 32 = o.bytes (s.hseqOf c o.home)
      ∧ (∀ n, t.hseqOf c n = if n = o.home then (s.hseqOf c n + 1) % 2 ^ 48 else s.hseqOf c n)

/-- A step runs the decoded instruction (R39 to R41, R47, R51). At the turn of a quarter with a wave to issue, the line
at the group's pc is read; where it passes the checks, its instruction is what the word decodes to and the step is exec
of it at the state that holds the issue, and then, where the issue was not stopped, its end (the test of loops that go
back, markers, the advance of the pc); a pair runs its two members in slot order; a line that fails takes the fault. Any
other act of the agenda that is an instruction is exec of it. Each step pops the agenda, and what follows is `moved`. -/
def Obligations.StepRuns : Prop := ∀ (s : State) (a : Act) (rest : List Act), s.agenda = a :: rest →
  s.stopped = false →
  (∀ i, a = .event i → step s = match exec i s with
    | .next s1 => .next (s.moved a s1 rest)
    | .fault f => .fault f
    | .refused r => .refused r)
  ∧ ∀ core q w k t g line s1, a = .issue core q → core < 512 → q < 4 → s.throttled core = false →
    s.quarterTurn core q = true → s.nextWave core q = some w → s.crew? w.crew = some k → s.task? k.task = some t →
    (if w.overdue k (s.groups w) then oldestGroup (s.groups w) else lowestGroup (s.groups w)) = some g →
    g.pc < k.hdr.slots →
    let c := s.chosen core q w t g (w.overdue k (s.groups w))
    let p := Issue.fetched c.1 c.2 g.lanes g.pc line
    let at' : State := { s1 with iss := some p }
    let one : Member → List Member := fun m => [m]
    let first (i : Instr) : Member := ⟨p.slot, p.word, i⟩
    let other (j : Instr) : Member := ⟨(p.second line).slot, (p.second line).word, j⟩
    let entry := (lanesOf g.lanes).any fun l => (c.2.th l).entry
    c.1.gRead (fetchAcc t) none 1 (k.hdr.lineVa (g.pc / 5)) 64 = .ok (line, s1) →
    (∀ i, p.checked k t.prv line entry = .ok (i, none) → decode (slotWord line (g.pc % 5)) = .ok i ∧ i.WellFormed = true
      ∧ step s = match exec i at' with
        | .next s2 => .next (s.moved a (match s2.iss with
            | none => s2.cutIssue p
            | some p1 => at'.finish s2 p1 (one (first i)) (one (first i)) k.eseq) rest)
        | .fault f => .fault f
        | .refused r => .refused r)
    ∧ (∀ i, lineFormatOk (lineWordOf line) = true → slotParityOk line (g.pc % 5) = true → p.pair = false →
      decode (slotWord line (g.pc % 5)) = .ok i → checkDecl k.hdr i = none →
      (p.word.toNat % 256 = 0xC6 → k.core % 8 < 2) → (∀ h n len, i = .loop h n len → g.pc < g.pc + len.toNat) →
      (∀ h r o, i = .wrsr h r o → srWritable t.prv r = true ∨ (t.prv = false ∧ srPriv r = true)) →
      (entry = true → bitOf (lineWordOf line) (g.pc % 5) = true) → p.checked k t.prv line entry = .ok (i, none))
    ∧ (∀ i j, p.checked k t.prv line entry = .ok (i, some j) → decode (slotWord line (g.pc % 5)) = .ok i
      ∧ decode (slotWord line ((g.pc + 1) % 5)) = .ok j
      ∧ (g.half = false → ∀ s2 p1 s3 p2, exec i at' = .next s2 → s2.iss = some p1 →
        exec j { s2.asideLanes p with iss := some { p.second line with moved := p1.moved } } = .next s3 →
        s3.iss = some p2 →
        step s = .next (s.moved a (at'.finish (s3.combineLanes p (isUC (p.word.toNat % 256))) p2
          [first i, other j] [first i, other j] k.eseq) rest))
      ∧ (g.half = true → ∀ s2 p1, exec j { s1 with iss := some (p.second line) } = .next s2 → s2.iss = some p1 →
        step s = .next (s.moved a (({ s1 with iss := some (p.second line) } : State).finish s2 p1
          [first i, other j] [other j] k.eseq) rest)))
    ∧ ∀ sl e, p.checked k t.prv line entry = .error (sl, e) →
      step s = .next (s.moved a (s1.takeFault c.2 g.lanes sl (e.atUnit 1)) rest)

/-- The end-slot check (R106), for a thread that goes on after an issue of slots `slots`: where the end of its highest
level is among them, a transfer within the body leaves the level as it is, a count above zero goes down by one and the
thread goes to the first slot of the body, and a count of zero, or a transfer out of the body, ends the level; else the
thread goes on where the transfer or the next slot says. -/
def loopEnds : Prop := ∀ (th : Thread) (p : Issue) (slots : List Nat) (sw long moved taken : Bool) (tick : Nat),
  th.run = .ready → (taken = true → moved = true) →
  let u := th.goNext p slots sw long moved taken tick
  let on := if moved then th.pc else p.next
  let live (n : Nat) : Bool := (getAt th.loops n 0).getLsbD 52
  let last (n : Nat) : Nat := (getAt th.lends n 0).toNat % 2 ^ 53
  let len (n : Nat) : Nat := (getAt th.loops n 0).toNat / 2 ^ 32 % 2 ^ 20
  u.run = (if sw then .marker else .ready) ∧ u.since = tick + 1 ∧ u.v = th.v ∧ u.lends = th.lends
  ∧ ((∀ n, n < 4 → live n = false) → u.pc = on ∧ u.loops = th.loops)
  ∧ ∀ n, n < 4 → live n = true → (∀ m, n < m → m < 4 → live m = false) →
    (last n ∉ slots → u.pc = on ∧ u.loops = th.loops)
    ∧ (last n ∈ slots → taken = true → last n - len n ≤ th.pc → th.pc ≤ last n → u.pc = th.pc ∧ u.loops = th.loops)
    ∧ (last n ∈ slots → taken = false → (getAt th.loops n 0).toNat % 2 ^ 32 ≠ 0 →
      u.pc = last n - len n ∧ getAt u.loops n 0 = getAt th.loops n 0 - 1
      ∧ ∀ m, m ≠ n → getAt u.loops m 0 = getAt th.loops m 0)
    ∧ (last n ∈ slots → (taken = true ∧ ¬(last n - len n ≤ th.pc ∧ th.pc ≤ last n)
        ∨ taken = false ∧ (getAt th.loops n 0).toNat % 2 ^ 32 = 0) →
      (n = 0 ∨ live (n - 1) = false ∨ last (n - 1) ∉ slots) →
      u.pc = on ∧ u.loops = th.loops.set n (getAt th.loops n 0 &&& ~~~(1#64 <<< 52)))

/-! ## Statements of several parts -/

/-- nop, exit, loop.pop, park, join, yield, mode, brk, cont and the timeout of a park. -/
def Obligations.ControlStates : Prop := controlStatesHolds ∧ leavingAndTimeoutHolds

/-- br, bri, ret, call and calli: where control goes and the link. -/
def Obligations.ControlTransfers : Prop := branchesHolds ∧ callsHolds

/-- loop: the level it takes, a count of zero, and the end-slot check. -/
def Obligations.Loops : Prop := loopsHolds ∧ loopEnds

/-- sysc, sysc.wait and tenq: the requests they leave. -/
def Obligations.SystemCalls : Prop := calls4Holds ∧ enqueueHolds

/-- rdsr: each special register and its value; the privileged ones. -/
def Obligations.SpecialReads : Prop := specialReadsHolds ∧ specialValuesHolds

/-- Vector integer instructions of two sources, scalar and packed. -/
def Obligations.IntegerBinary : Prop := integerScalarsHolds ∧ integerPackedHolds

/-- abs, popc, clz, ctz, brev and cmp. -/
def Obligations.IntegerUnary : Prop := integerUnaryHolds ∧ comparisonsHolds

/-- bfe, bfi and dot4: their results from their sources. -/
def Obligations.BitFieldsAndDots : Prop := bitFieldsHolds ∧ dotProductHolds

/-- fcmp and fclass; small formats widen and narrow to themselves. -/
def Obligations.FloatTests : Prop := floatTestsHolds ∧ roundTripSmallHolds

/-- vote, kop, kcnt, kfst and kset. -/
def Obligations.MaskInstructions : Prop := maskInstructionsHolds ∧ votesHolds

/-- shfl and qswp: whose value a lane takes. -/
def Obligations.Exchanges : Prop := shufflesHolds ∧ quadSwapsHolds

/-- The checks of an address, the faults that an access raises as it issues, and pref. -/
def Obligations.AddressChecks : Prop := addressChecksHolds ∧ memoryFaultsHolds ∧ prefetchesHolds

/-- Memory instructions as they issue: what is outstanding for a thread, or for a group. -/
def Obligations.MemoryIssue : Prop := memoryIssueHolds ∧ groupAccessesHolds

/-- Loads: the bytes a landed load gives, its own stores among them. -/
def Obligations.Loads : Prop := landedLoadsHolds ∧ ownStoresHolds

/-- swp and itx: their segments, and records that break the rules. -/
def Obligations.SweepsAndIterators : Prop := sweepsHolds ∧ iteratorsHolds

/-- cwait, syarm, sywait, chwait and chtst: counters, sync words and bitmaps. -/
def Obligations.Waits : Prop := counterWaitsHolds ∧ syncWordsHolds

/-- mfmt, mbst and opfence, and the format modes that exist. -/
def Obligations.MatrixModes : Prop := matrixModesHolds ∧ formatModesHolds

/-- Blocks of cluster mmac and the power level of an engine. -/
def Obligations.EngineEvents : Prop := clusterBlocksHolds ∧ powerLevelsHolds

/-- trace, hitld, vbld, wcpin and wcinv, and the end of a walk. -/
def Obligations.RaysAndCaches : Prop := raysAndCachesHolds ∧ rayEndsHolds

/-- rng, rngset, rngadv and rngget; draws of different counters differ. -/
def Obligations.RandomNumbers : Prop := randomNumbersHolds ∧ drawsDifferHolds

/-- Command packets: their format and what each does. -/
def Obligations.CommandProcessor : Prop := packetFieldsHolds ∧ commandProcessorHolds

/-- Submission of tasks, and the events of the scheduler. -/
def Obligations.Scheduler : Prop := submissionHolds ∧ schedulerHolds

/-- Merge groups, invalidation, the remap filter, links and peers. -/
def Obligations.MemorySystem : Prop := memorySystemHolds ∧ linkErrorsHolds ∧ peerRequestsHolds

/-- Rings of a context, logging and replay, answers to faults, log records. -/
def Obligations.ContextQueues : Prop := ringsHolds ∧ logControlHolds ∧ discardTurnsHolds ∧ resolveAnswersHolds ∧ logRecords

/-- Debugger commands, breakpoints, snapshots, the trace ring and fault injection. -/
def Obligations.Debugger : Prop := debugCommandsHolds ∧ debugUnitsHolds

/-- Raster queues and jobs, and the rule of shared edges. -/
def Obligations.Raster : Prop := rasterQueuesHolds ∧ sharedEdgesHolds

/-- Copy jobs, transfers, and the instructions of routines. -/
def Obligations.CopyEngines : Prop := copyJobsHolds ∧ transfersHolds ∧ routinesHolds

/-- Resets, throttling, the mailbox and register writes of the package. -/
def Obligations.Package : Prop := packageResetsHolds ∧ throttlingHolds ∧ mailboxHolds ∧ registerWritesHolds

/-- Fault records, taking a fault, and the discard of an attempt. -/
def Obligations.Faults : Prop := faultRecords ∧ takenFaults ∧ discards
end

