-- ==== Sys2Proof/Laws/Ops.lean ====
section
/-! SUPPORT. What the shared operations on waves, crews, tasks and issues do. -/

namespace Sys2Proof.Machine

/-! ## Looking up -/

theorem find_map_same {α : Type} (l : List α) (p : α → Bool) (y : α) (hy : p y = true) (x : α)
    (h : l.find? p = some x) : (l.map fun z => if p z then y else z).find? p = some y := by
  induction l with
  | nil => cases h
  | cons a r ih =>
    by_cases ha : p a
    · simp [ha, hy]
    · simp only [List.find?_cons, ha] at h
      simp [ha, ih h]

theorem find_map_other {α : Type} (l : List α) (p q : α → Bool) (y : α) (hy : q y = false)
    (h : ∀ z, p z = true → q z = false) : (l.map fun z => if p z then y else z).find? q = l.find? q := by
  induction l with
  | nil => rfl
  | cons a r ih =>
    by_cases ha : p a
    · simp [ha, hy, h a ha, ih]
    · simp only [List.map_cons, ha, List.find?_cons, ih]
      rfl

theorem State.wave?_id {s : State} {id : Nat} {w : Wave} (h : s.wave? id = some w) : w.id = id := by
  have := List.find?_some h
  simpa using this

theorem State.crew?_id {s : State} {id : Nat} {k : Crew} (h : s.crew? id = some k) : k.id = id := by
  have := List.find?_some h
  simpa using this

theorem State.task?_id {s : State} {id : Nat} {t : Task} (h : s.task? id = some t) : t.id = id := by
  have := List.find?_some h
  simpa using this

theorem State.wave?_setWave {s : State} {w x : Wave} (h : s.wave? w.id = some x) :
    (s.setWave w).wave? w.id = some w :=
  find_map_same s.waves (fun z => z.id == w.id) w (by simp) x h

theorem State.wave?_setWave_other {s : State} {w : Wave} {j : Nat} (h : j ≠ w.id) :
    (s.setWave w).wave? j = s.wave? j :=
  find_map_other s.waves (fun z => z.id == w.id) (fun z => z.id == j) w (by simpa using Ne.symm h) (by
    intro z hz
    simp only [beq_iff_eq] at hz
    simpa [hz] using Ne.symm h)

theorem State.crew?_setCrew {s : State} {k x : Crew} (h : s.crew? k.id = some x) :
    (s.setCrew k).crew? k.id = some k :=
  find_map_same s.crews (fun z => z.id == k.id) k (by simp) x h

theorem State.crew?_setCrew_other {s : State} {k : Crew} {j : Nat} (h : j ≠ k.id) :
    (s.setCrew k).crew? j = s.crew? j :=
  find_map_other s.crews (fun z => z.id == k.id) (fun z => z.id == j) k (by simpa using Ne.symm h) (by
    intro z hz
    simp only [beq_iff_eq] at hz
    simpa [hz] using Ne.symm h)

@[simp] theorem State.crew?_setWave (s : State) (w : Wave) (j : Nat) : (s.setWave w).crew? j = s.crew? j := rfl

@[simp] theorem State.wave?_setCrew (s : State) (k : Crew) (j : Nat) : (s.setCrew k).wave? j = s.wave? j := rfl

@[simp] theorem State.task?_setWave (s : State) (w : Wave) (j : Nat) : (s.setWave w).task? j = s.task? j := rfl

@[simp] theorem State.task?_setCrew (s : State) (k : Crew) (j : Nat) : (s.setCrew k).task? j = s.task? j := rfl

/-! ## The issue in progress -/

/-- What env? says. -/
theorem State.env?_eq {s : State} {e : Env} (h : s.env? = some e) :
    s.iss = some e.p ∧ s.wave? e.w.id = some e.w ∧ s.crew? e.w.crew = some e.k ∧ s.task? e.k.task = some e.t
      ∧ e.p.wave = e.w.id := by
  unfold State.env? at h
  split at h
  · cases h
  · rename_i p hp
    split at h
    · cases h
    · rename_i w hw
      split at h
      · cases h
      · rename_i k hk
        split at h
        · cases h
        · rename_i t ht
          cases h
          have hid := State.wave?_id hw
          exact ⟨hp, by rw [hid]; exact hw, hk, ht, hid.symm⟩

theorem onIssue_next {s t : State} {e : Env} {f : Env → Except Stop State} (h : s.env? = some e)
    (hf : f e = .ok t) : onIssue s f = .next t := by
  simp [onIssue, h, hf]

theorem onIssue_stop {s : State} {e : Env} {f : Env → Except Stop State} {x : Stop} (h : s.env? = some e)
    (hf : f e = .error x) : onIssue s f = .next ((s.takeStop e.w e.p.lanes e.p.slot x).stopIssue) := by
  simp [onIssue, h, hf]

theorem onIssue_eq {s : State} {e : Env} {f : Env → Except Stop State} (h : s.env? = some e) :
    onIssue s f = match f e with
      | .ok t => .next t
      | .error x => .next ((s.takeStop e.w e.p.lanes e.p.slot x).stopIssue) := by
  simp only [onIssue, h] <;> rfl

/-- Everything that the run of a lane instruction can answer. -/
theorem onIssue_cases (s : State) (f : Env → Except Stop State) :
    (s.env? = none ∧ onIssue s f = .fault .noIssue) ∨
    (∃ e t, s.env? = some e ∧ f e = .ok t ∧ onIssue s f = .next t) ∨
    ∃ e x, s.env? = some e ∧ f e = .error x
      ∧ onIssue s f = .next ((s.takeStop e.w e.p.lanes e.p.slot x).stopIssue) := by
  cases h : s.env? with
  | none => exact .inl ⟨rfl, by simp [onIssue, h]⟩
  | some e => cases hf : f e with
    | ok t => exact .inr (.inl ⟨e, t, rfl, hf, onIssue_next h hf⟩)
    | error x => exact .inr (.inr ⟨e, x, rfl, hf, onIssue_stop h hf⟩)

/-! ## Threads of a wave -/

theorem Wave.each_th (w : Wave) (m : BitVec 64) (f : Nat → Thread → Thread) (l : Nat)
    (hl : l < w.threads.length) :
    (w.each m f).th l = if m.getLsbD l then f l (w.th l) else w.th l := by
  simp [Wave.each, Wave.th, getAt, List.getD, hl]

theorem Wave.each_length (w : Wave) (m : BitVec 64) (f : Nat → Thread → Thread) :
    (w.each m f).threads.length = w.threads.length := by
  simp [Wave.each]

theorem Wave.shape_threads {w : Wave} {h : Header} (hs : w.shapeOk h = true) : w.threads.length = w.width := by
  simp only [Wave.shapeOk, Bool.and_eq_true, beq_iff_eq] at hs
  exact hs.1.1.1.1.2

theorem Wave.shape_v {w : Wave} {h : Header} (hs : w.shapeOk h = true) {l : Nat} (hl : l < w.width) :
    (w.th l).v.length = h.vregs := by
  have ht := Wave.shape_threads hs
  simp only [Wave.shapeOk, Bool.and_eq_true, beq_iff_eq, List.all_eq_true] at hs
  have hmem : w.th l ∈ w.threads := by
    simp only [Wave.th, getAt, List.getD, List.getElem?_eq_getElem (ht ▸ hl : l < w.threads.length), Option.getD_some]
    exact List.getElem_mem _
  exact (hs.2 _ hmem).1.1

theorem Thread.setV_v (th : Thread) (r : Nat) (wide : Bool) (x n : Nat)
    (hr : r + (if wide then 2 else 1) ≤ th.v.length) :
    getAt (th.setV r wide x).v n 0 =
      if n = r then BitVec.ofNat 32 x
      else if wide && n == r + 1 then BitVec.ofNat 32 (x / 2 ^ 32) else getAt th.v n 0 := by
  cases wide with
  | false =>
    simp only [Bool.false_eq_true, if_false] at hr
    by_cases h : n = r
    · subst h
      simp [Thread.setV, getAt, List.getD, Nat.lt_of_succ_le hr]
    · simp [Thread.setV, getAt, List.getD, Ne.symm h, h]
  | true =>
    simp only [if_true] at hr
    by_cases h : n = r
    · subst h
      simp [Thread.setV, getAt, List.getD, (by omega : n < th.v.length)]
    · by_cases h1 : n = r + 1
      · subst h1
        simp [Thread.setV, getAt, List.getD, (by omega : r + 1 < th.v.length)]
      · simp [Thread.setV, getAt, List.getD, Ne.symm h, Ne.symm h1, h, h1]

theorem Thread.setV_rest (th : Thread) (r : Nat) (wide : Bool) (x : Nat) :
    { th.setV r wide x with v := th.v } = th := rfl

/-! ## Results -/

theorem sameBesideWave {s : State} {w : Wave} : SameBesideWave s (s.setWave w) w.id :=
  ⟨rfl, fun _ hj => State.wave?_setWave_other hj⟩

theorem Wave.putV_id (w : Wave) (x z : BitVec 64) (d : Opd) (wide : Bool) (val : Nat → Nat) :
    (w.putV x z d wide val).id = w.id := by
  cases d <;> rfl

/-- A result in v registers (R57): everything that writing it does. -/
theorem putV_result {s : State} {e : Env} (h : Issuing s e) (x z : BitVec 64) (d : Opd) (wide : Bool)
    (val : Nat → Nat) (hd : VDeclared e d (if wide then 2 else 1)) :
    VResult s (s.setWave (e.w.putV x z d wide val)) e x z d wide val := by
  obtain ⟨he, hs, -, -⟩ := h
  obtain ⟨-, hw, -, -, -⟩ := State.env?_eq he
  have hid := Wave.putV_id e.w x z d wide val
  refine ⟨by rw [← hid]; exact sameBesideWave, e.w.putV x z d wide val, ?_, ?_, ?_⟩
  · rw [← hid]
    exact State.wave?_setWave (by rw [hid]; exact hw)
  · cases d <;> rfl
  · intro l hl
    have hlen : l < e.w.threads.length := by rw [Wave.shape_threads hs]; exact hl
    cases d with
    | v r =>
      have hv := Wave.shape_v hs hl
      simp only [Wave.putV, Wave.each_th _ _ _ _ hlen, BitVec.getLsbD_or]
      refine ⟨by split <;> rfl, fun n => ?_⟩
      by_cases hm : (x.getLsbD l || z.getLsbD l) = true
      · rw [if_pos hm, Thread.setV_v _ _ _ _ _ (by rw [hv]; exact hd r rfl)]
        by_cases hx : x.getLsbD l = true <;> cases wide <;> by_cases hn : n = r.val <;>
          by_cases hn1 : n = r.val + 1 <;> simp_all [vAfter]
      · rw [if_neg hm]
        simp [vAfter, hm]
    | _ => exact ⟨rfl, fun n => by simp [Wave.putV, vAfter]⟩

theorem Env.putV_result {s : State} {e : Env} (h : Issuing s e) (hd : Head) (m : Option Modifier) (d : Opd)
    (wide : Bool) (val : Nat → Nat) (hv : VDeclared e d (if wide then 2 else 1)) :
    VResult s (e.putV s hd m d wide val) e (e.exec hd m) (e.zeroed hd m) d wide val :=
  Sys2Proof.Machine.putV_result h _ _ _ _ _ hv

theorem Wave.each_zero (w : Wave) (f : Nat → Thread → Thread) : w.each 0 f = w := by
  have : (w.threads.mapIdx fun l th => if (0 : BitVec 64).getLsbD l then f l th else th) = w.threads := by
    apply List.ext_getElem <;> simp
  simp only [Wave.each, this]

theorem Env.blame_nil (e : Env) : e.blame [] = .ok 0 := by
  have : (maskOf fun l => ([] : List (Nat × Trap)).any fun t => t.1 == l) = 0 := by
    apply BitVec.eq_of_getLsbD_eq
    intro i hi
    simp [maskOf, hi]
  simp only [Env.blame, List.find?_nil, this]

/-- Outstanding results entered one after the other. -/
theorem Wave.foldl_push (w : Wave) (ls : List Nat) (f : Nat → Pend) :
    ls.foldl (fun w l => w.push (f l)) w = { w with out := w.out ++ ls.map f } := by
  induction ls generalizing w with
  | nil => simp
  | cons l r ih =>
    rw [List.foldl_cons, ih]
    simp [Wave.push]

theorem State.setWave_setWave (s : State) (a b : Wave) (h : a.id = b.id) : (s.setWave a).setWave b = s.setWave b := by
  have : (s.waves.map fun x => if x.id == a.id then a else x).map (fun x => if x.id == b.id then b else x)
      = s.waves.map fun x => if x.id == b.id then b else x := by
    rw [List.map_map]
    apply List.map_congr_left
    intro x _
    simp only [Function.comp]
    by_cases hx : x.id = b.id
    · simp [hx, h]
    · simp [hx, h]
  simp only [State.setWave, this]

/-- A transfer whose targets are all branch targets (R49). -/
theorem Env.transfer_ok {e : Env} {s s1 : State} {w : Wave} {x : BitVec 64} {tgt : Nat → Nat}
    (h : s.testTargets e tgt (lanesOf x) = (s1, [])) :
    e.transfer s w x tgt = .ok { s1.setWave (w.each x fun l th => { th with pc := tgt l }) with
      iss := some { e.p with moved := e.p.moved ||| x } } := by
  have hx : x &&& ~~~(0 : BitVec 64) = x := by
    rw [show ~~~(0 : BitVec 64) = BitVec.allOnes 64 from rfl, BitVec.and_allOnes]
  simp only [Env.transfer, h, Env.blame_nil, Wave.each_zero, hx]

/-- A change of the threads of a mask: everything that it does. -/
theorem each_result {s : State} {e : Env} (h : Issuing s e) (m : BitVec 64) (f : Nat → Thread → Thread) :
    ThreadsResult s (s.setWave (e.w.each m f)) e m f := by
  obtain ⟨he, hs, -, -⟩ := h
  obtain ⟨-, hw, -, -, -⟩ := State.env?_eq he
  refine ⟨sameBesideWave, _, State.wave?_setWave (w := e.w.each m f) hw, rfl, Wave.each_length _ _ _, fun l hl => ?_⟩
  rw [Wave.each_th _ _ _ _ (by rw [Wave.shape_threads hs]; exact hl)]

theorem Wave.shape_k {w : Wave} {h : Header} (hs : w.shapeOk h = true) : w.k.length = 15 := by
  simp only [Wave.shapeOk, Bool.and_eq_true, beq_iff_eq] at hs
  exact hs.1.1.1.2

theorem maskOf_get (f : Nat → Bool) (l : Nat) (hl : l < 64) : (maskOf f).getLsbD l = f l := by
  simp [maskOf, hl]

/-- A result in a mask register: everything that writing it does. -/
theorem putK_result {s : State} {e : Env} (h : Issuing s e) (x z : BitVec 64) (d : Opd) (bits : Nat → Bool) :
    KResult s (s.setWave (e.w.putK x z d (maskOf bits))) e x z d bits := by
  obtain ⟨he, hs, -, -⟩ := h
  obtain ⟨-, hw, -, -, -⟩ := State.env?_eq he
  have hk := Wave.shape_k hs
  have hid : (e.w.putK x z d (maskOf bits)).id = e.w.id := by
    cases d with
    | k r => simp only [Wave.putK, Wave.setK]; split <;> rfl
    | _ => rfl
  refine ⟨by rw [← hid]; exact sameBesideWave, e.w.putK x z d (maskOf bits), ?_, ?_, ?_⟩
  · rw [← hid]
    exact State.wave?_setWave (by rw [hid]; exact hw)
  · cases d with
    | k r => simp only [Wave.putK, Wave.setK]; split <;> rfl
    | _ => rfl
  · intro n l hn hl
    cases d with
    | k r =>
      by_cases hr : r.val = 0
      · simp [Wave.putK, Wave.setK, kAfter, hr]
      · have hlt : r.val - 1 < e.w.k.length := by rw [hk]; have := r.isLt; omega
        by_cases hnr : n = r.val
        · subst hnr
          have hm := maskOf_get bits l hl
          simp only [Wave.putK, Wave.setK, hr, if_false, updAt, getAt, List.getD, List.getElem?_modify,
            List.getElem?_eq_getElem hlt, kAfter, if_true, Option.map_eq_map, Option.map_some, Option.getD_some,
            BitVec.getLsbD_or, BitVec.getLsbD_and, BitVec.getLsbD_not, hm, hl]
          cases x.getLsbD l <;> cases z.getLsbD l <;> simp [hr]
        · have h1 : ¬ r.val - 1 = n - 1 := by omega
          simp [Wave.putK, Wave.setK, hr, updAt, getAt, List.getD, kAfter, hnr, h1]
    | _ => simp [Wave.putK, kAfter]

theorem Env.putK_result {s : State} {e : Env} (h : Issuing s e) (hd : Head) (m : Option Modifier) (d : Opd)
    (val : Nat → Bool) : KResult s (e.putK s hd m d val) e (e.exec hd m) (e.zeroed hd m) d val :=
  Sys2Proof.Machine.putK_result h _ _ _ _

/-! ## Uniform results -/

theorem getAt_set {α : Type} (l : List α) (i j : Nat) (x d : α) (hi : i < l.length) :
    getAt (l.set i x) j d = if j = i then x else getAt l j d := by
  simp only [getAt, List.getD, List.getElem?_set]
  by_cases h : i = j
  · subst h; simp [hi]
  · simp [h, Ne.symm h]

theorem State.sreg_eq {s : State} {e : Env} (h : s.env? = some e) (n : Nat) :
    s.sreg e.w.id n = if n < 64 then getAt e.w.sp n 0 else getAt e.k.ss (n - 64) 0 := by
  obtain ⟨-, hw, hk, -, -⟩ := State.env?_eq h
  simp [State.sreg, hw, hk]

theorem Crew.putS_shown (k : Crew) (i : Nat) (v : Dword) (n : Nat) : (k.putS i v).shown n = k.shown n := by
  unfold Crew.putS Crew.shown
  by_cases hp : (k.prev.any fun y => y.1 == i) = true
  · simp only [hp, if_true]
    cases hf : k.prev.find? fun x => x.1 == n with
    | some x => rfl
    | none =>
      have hne : n ≠ i := by
        rintro rfl
        rw [List.find?_eq_none] at hf
        rw [List.any_eq_true] at hp
        obtain ⟨x, hx, hy⟩ := hp
        exact hf x hx hy
      simp [getAt, List.getD, Ne.symm hne]
  · simp only [hp, Bool.false_eq_true, if_false, List.find?_cons]
    by_cases hi : i = n
    · subst hi
      have hf : k.prev.find? (fun x => x.1 == i) = none := by
        rw [List.find?_eq_none]
        intro x hx hy
        exact hp (List.any_eq_true.mpr ⟨x, hx, hy⟩)
      simp [hf]
    · have hb : (i == n) = false := by simpa using hi
      simp only [hb]
      cases k.prev.find? fun x => x.1 == n with
      | some x => rfl
      | none => simp [getAt, List.getD, hi]

/-- A write of a uniform register: everything that it does. -/
theorem putS_result {s : State} {e : Env} (h : Issuing s e) (d : Opd) (v : Dword) (hs : SDeclared e d) :
    SResult s (s.putS e.w e.p.lanes d v) e true d v := by
  obtain ⟨he, hw, hk, -⟩ := h
  obtain ⟨-, h1, h2, -, -⟩ := State.env?_eq he
  have hsp : e.w.sp.length = e.k.hdr.swp := by
    simp only [Wave.shapeOk, Bool.and_eq_true, beq_iff_eq] at hw
    exact hw.1.1.2
  have hss : e.k.ss.length = e.k.hdr.scr := by
    simp only [Crew.shapeOk, Bool.and_eq_true, beq_iff_eq] at hk
    exact hk.1.1
  have hkid : e.k.id = e.w.crew := State.crew?_id h2
  have h2' : s.crew? e.k.id = some e.k := by rw [hkid]; exact h2
  by_cases hsd : ∃ r, d = .s r
  · obtain ⟨r, rfl⟩ := hsd
    have hr := hs r rfl
    let w1 := e.w.overtake e.p.lanes (.s r)
    have h1' : s.wave? w1.id = some e.w := h1
    by_cases h64 : r.val < 64
    · simp only [h64, if_true] at hr
      have hput : s.putS e.w e.p.lanes (.s r) v = s.setWave { w1 with sp := e.w.sp.set r.val v } := by
        simp only [State.putS, h64, if_true]
        rfl
      rw [hput]
      have hset := State.wave?_setWave (s := s) (w := { w1 with sp := e.w.sp.set r.val v }) h1'
      have hset' : (s.setWave { w1 with sp := e.w.sp.set r.val v }).wave? e.w.id
          = some { w1 with sp := e.w.sp.set r.val v } := hset
      refine ⟨rfl, fun _ hj => State.wave?_setWave_other hj, fun _ _ => rfl, ⟨_, hset', rfl⟩,
        ⟨_, h2, rfl, fun _ => rfl⟩, fun n => ?_⟩
      simp only [Bool.true_and, beq_iff_eq]
      rw [State.sreg_eq he]
      unfold State.sreg
      rw [hset']
      simp only [State.crew?_setWave]
      have hc : s.crew? w1.crew = some e.k := h2
      rw [hc]
      by_cases hn : n < 64
      · simp only [hn, if_true]
        rw [getAt_set _ _ _ _ _ (by rw [hsp]; exact hr)]
      · have hne : n ≠ r.val := by omega
        simp only [hn, hne, if_false]
    · simp only [h64, if_false] at hr
      have hput : s.putS e.w e.p.lanes (.s r) v = (s.setWave w1).setCrew (e.k.putS (r.val - 64) v) := by
        simp only [State.putS, h64, if_false, h2]
        rfl
      rw [hput]
      have hset := State.crew?_setCrew (s := s.setWave w1) (k := e.k.putS (r.val - 64) v)
        (x := e.k) h2'
      have hset' : ((s.setWave w1).setCrew (e.k.putS (r.val - 64) v)).crew? e.w.crew
          = some (e.k.putS (r.val - 64) v) := by rw [← hkid]; exact hset
      have hwv : ((s.setWave w1).setCrew (e.k.putS (r.val - 64) v)).wave? e.w.id = some w1 := State.wave?_setWave h1'
      refine ⟨rfl, fun _ hj => State.wave?_setWave_other hj, fun j hj => ?_,
        ⟨_, hwv, rfl⟩, ⟨_, hset', rfl, Crew.putS_shown _ _ _⟩, fun n => ?_⟩
      · rw [State.crew?_setCrew_other (by show j ≠ e.k.id; rw [hkid]; exact hj)]
        rfl
      · simp only [Bool.true_and, beq_iff_eq]
        rw [State.sreg_eq he]
        unfold State.sreg
        rw [hwv]
        have hc : ((s.setWave w1).setCrew (e.k.putS (r.val - 64) v)).crew? w1.crew
          = some (e.k.putS (r.val - 64) v) := hset'
        simp only [hc]
        by_cases hn : n < 64
        · have hne : n ≠ r.val := by omega
          have hw1 : w1.sp = e.w.sp := rfl
          simp only [hn, hne, if_true, if_false, hw1]
        · simp only [hn, if_false, Crew.putS]
          rw [getAt_set _ _ _ _ _ (by rw [hss]; exact hr)]
          by_cases hnr : n = r.val
          · simp [hnr]
          · have hne : n - 64 ≠ r.val - 64 := by omega
            simp only [hnr, hne, if_false]
  · have hp : s.putS e.w e.p.lanes d v = s.setWave e.w := by
      cases d with
      | s r => exact absurd ⟨r, rfl⟩ hsd
      | _ => rfl
    have hwo : e.writerOf true d = e.w := by
      cases d with
      | s r => exact absurd ⟨r, rfl⟩ hsd
      | _ => rfl
    rw [hp]
    refine ⟨rfl, fun _ hj => State.wave?_setWave_other hj, fun _ _ => rfl, ⟨_, State.wave?_setWave h1, by rw [hwo]⟩,
      ⟨_, h2, rfl, fun _ => rfl⟩, fun n => ?_⟩
    have hsame : (s.setWave e.w).sreg e.w.id n = s.sreg e.w.id n := by
      simp [State.sreg, State.wave?_setWave h1, h1]
    rw [hsame]
    cases d with
    | s r => exact absurd ⟨r, rfl⟩ hsd
    | _ => rfl

/-- No write of a uniform register. -/
theorem keepS_result {s : State} {e : Env} (h : Issuing s e) (d : Opd) (v : Dword) : SResult s s e false d v := by
  obtain ⟨-, h1, h2, -, -⟩ := State.env?_eq h.1
  refine ⟨rfl, fun _ _ => rfl, fun _ _ => rfl, ⟨_, h1, by cases d <;> rfl⟩, ⟨_, h2, rfl, fun _ => rfl⟩, fun n => ?_⟩
  cases d <;> simp

/-- A result in a uniform register: everything that writing it does. -/
theorem uput_result {s : State} {e : Env} (h : Issuing s e) (hd : Head) (d : Opd) (v : Dword)
    (hs : SDeclared e d) : SResult s (e.uput s hd d v) e (e.guard hd != 0) d v := by
  unfold Env.uput
  by_cases hg : e.guard hd = 0
  · simpa [hg] using keepS_result h d v
  · have hon : (e.guard hd != 0) = true := by simpa using hg
    rw [if_neg hg, hon]
    exact putS_result h d v hs

/-! ## Floating results -/

theorem orFlags_eq (w : Wave) (m : BitVec 64) (fl : Nat → Dword) (b : Nat) :
    (w.orFlags m fl).fflags.getLsbD b = (w.fflags.getLsbD b ||
      (List.range 64).any fun l => m.getLsbD l && !(w.th l).helper && (fl l).getLsbD b) := by
  have key : ∀ (ls : List Nat) (a : Dword),
      (ls.foldl (fun a l => if (w.th l).helper then a else a ||| fl l) a).getLsbD b
        = (a.getLsbD b || ls.any fun l => !(w.th l).helper && (fl l).getLsbD b) := by
    intro ls
    induction ls with
    | nil => simp
    | cons l r ih =>
      intro a
      rw [List.foldl_cons, ih, List.any_cons]
      cases (w.th l).helper <;> simp [Bool.or_assoc]
  simp only [Wave.orFlags, key, lanesOf, List.any_filter, Bool.and_assoc]

/-- A floating result in v registers: everything that writing it does. -/
theorem putF_result {s : State} {e : Env} (h : Issuing s e) (hd : Head) (m : Option Modifier) (d : Opd)
    (wide rounds : Bool) (val : Nat → Res) (hv : VDeclared e d (if wide then 2 else 1)) :
    FResult s (e.putF s hd m d wide rounds val) e (e.exec hd m) (e.zeroed hd m) d wide
      (rounds && decide (e.rm m = .rsr)) val := by
  have hr := Env.putV_result h hd m d wide (fun l => (val l).1) hv
  obtain ⟨he, hs, -, -⟩ := h
  obtain ⟨-, hw, -, -, -⟩ := State.env?_eq he
  obtain ⟨-, w, hw1, hw2, hth⟩ := hr
  have hid : (e.w.putV (e.exec hd m) (e.zeroed hd m) d wide fun l => (val l).1).id = e.w.id := Wave.putV_id _ _ _ _ _ _
  have hset : (e.putV s hd m d wide fun l => (val l).1).wave? e.w.id
      = some (e.w.putV (e.exec hd m) (e.zeroed hd m) d wide fun l => (val l).1) := by
    rw [← hid]
    exact State.wave?_setWave (by rw [hid]; exact hw)
  rw [hset, Option.some.injEq] at hw1
  have hlen : w.threads.length = e.w.threads.length := by
    rw [← hw1]
    cases d <;> simp [Wave.putV, Wave.each]
  have hhelp : ∀ l, (w.th l).helper = (e.w.th l).helper := by
    intro l
    by_cases hl : l < e.w.width
    · have := (hth l hl).1
      rw [← this]
    · have h1 : ¬ l < e.w.threads.length := by rw [Wave.shape_threads hs]; exact hl
      have h2 : ¬ l < w.threads.length := by rw [hlen]; exact h1
      simp [Wave.th, getAt, List.getD, List.getElem?_eq_none (Nat.le_of_not_lt h1),
        List.getElem?_eq_none (Nat.le_of_not_lt h2)]
  unfold Env.putF
  rw [hw1]
  have hwid : w.id = e.w.id := by rw [← hw1]; exact hid
  let w1 := w.orFlags (e.exec hd m) fun l => (val l).2
  have hfl : ∀ b, w1.fflags.getLsbD b = (e.w.fflags.getLsbD b ||
      (List.range 64).any fun l => (e.exec hd m).getLsbD l && !(e.w.th l).helper && (val l).2.getLsbD b) := by
    intro b
    rw [orFlags_eq]
    have : w.fflags = e.w.fflags := by rw [← hw2]
    simp only [this, hhelp]
  have hw1' : { w1 with threads := e.w.threads, fflags := e.w.fflags } = e.w := by
    have := hw2
    simp only [w1, Wave.orFlags]
    rw [← this]
  by_cases hdr : (rounds && decide (e.rm m = .rsr)) = true
  · have hdrawn : e.drawn hd m rounds w1 = w1.advance (e.exec hd m) := by
      have : rounds = true ∧ e.rm m = .rsr := by simpa using hdr
      simp [Env.drawn, this.1, this.2]
    have hid2 : (w1.advance (e.exec hd m)).id = e.w.id := hwid
    refine ⟨by rw [hdrawn, ← hid2]; exact sameBesideWave, w1.advance (e.exec hd m), ?_, hw1', hfl, ?_⟩
    · rw [hdrawn, ← hid2]
      exact State.wave?_setWave (by rw [hid2]; exact hw)
    · intro l hl
      have hlt : l < w1.threads.length := by
        show l < w.threads.length
        rw [hlen, Wave.shape_threads hs]; exact hl
      have hth1 : w1.th l = w.th l := rfl
      simp only [Wave.advance, Wave.each_th _ _ _ _ hlt, hth1, hhelp, hdr, Bool.true_and]
      have h1 := (hth l hl).1
      have h2 := (hth l hl).2
      have hc : (w.th l).rngc = (e.w.th l).rngc := by rw [← h1]
      refine ⟨?_, ?_, ?_⟩
      · rw [← h1]
        split <;> (try split) <;> rfl
      · cases (e.exec hd m).getLsbD l <;> cases (e.w.th l).helper <;> simp [hc]
      · intro n
        rw [← h2 n]
        cases (e.exec hd m).getLsbD l <;> cases (e.w.th l).helper <;> simp
  · have hdrawn : e.drawn hd m rounds w1 = w1 := by
      have : (rounds && e.rm m = .rsr) = false := by simpa using hdr
      unfold Env.drawn
      rw [if_neg (by simpa using hdr)]
    refine ⟨by rw [hdrawn, ← hwid]; exact sameBesideWave (w := w1), w1, ?_, hw1', hfl, ?_⟩
    · rw [hdrawn, ← hwid]
      exact State.wave?_setWave (w := w1) (by show s.wave? w.id = _; rw [hwid]; exact hw)
    · intro l hl
      have hth1 : w1.th l = w.th l := rfl
      rw [hth1]
      have h1 := (hth l hl).1
      have hc : (w.th l).rngc = (e.w.th l).rngc := by rw [← h1]
      have hf : (rounds && decide (e.rm m = .rsr)) = false := by simpa using hdr
      refine ⟨?_, ?_, (hth l hl).2⟩
      · rw [← h1]
      · rw [hf, hc]; rfl

/-- Results known at issue that are outstanding: everything that entering them does. -/
theorem pushV_result {s : State} {e : Env} (h : Issuing s e) (i : Instr) (hd : Head) (m : Option Modifier) (d : Opd)
    (wide rounds : Bool) (val : Nat → Res) :
    Outstanding s (e.putFV s i hd m d wide rounds val) e i (e.exec hd m) (e.zeroed hd m) d (if wide then 2 else 1)
      (rounds && decide (e.rm m = .rsr)) fun l => (wordsOf wide (val l).1, (val l).2) := by
  obtain ⟨he, hs, -, -⟩ := h
  obtain ⟨-, hw, -, -, -⟩ := State.env?_eq he
  let f (l : Nat) : Pend :=
    { lanes := 1#64 <<< l, lane := l, slot := e.p.slot, issue := 0, i := i, a := 0, b := 0, c := 0,
      ext := if (e.exec hd m).getLsbD l then wordsOf wide (val l).1 else List.replicate (if wide then 2 else 1) 0,
      dst := d, done := true,
      flags := if (e.exec hd m).getLsbD l && !(e.w.th l).helper then (val l).2 else 0, taint := false, wait := none,
      toks := [], since := 0 }
  have hpush : e.pushV i hd m d wide val e.w = { e.w with out := e.w.out ++ (lanesOf (e.exec hd m ||| e.zeroed hd m)).map f } := by
    rw [← Wave.foldl_push]
    unfold Env.pushV
    dsimp only
    congr 1
    funext w l
    cases hx : (e.exec hd m).getLsbD l <;> cases hh : (e.w.th l).helper <;> cases wide <;>
      simp [f, hx, hh, doneResult, wordsOf, List.replicate]
  let w1 : Wave := { e.w with out := e.w.out ++ (lanesOf (e.exec hd m ||| e.zeroed hd m)).map f }
  have hput : e.putFV s i hd m d wide rounds val = s.setWave (e.drawn hd m rounds w1) := by
    unfold Env.putFV
    rw [hpush]
  rw [hput]
  by_cases hdr : (rounds && decide (e.rm m = .rsr)) = true
  · have hdrawn : e.drawn hd m rounds w1 = w1.advance (e.exec hd m) := by
      have : rounds = true ∧ e.rm m = .rsr := by simpa using hdr
      simp [Env.drawn, this.1, this.2]
    rw [hdrawn]
    refine ⟨sameBesideWave (w := w1.advance (e.exec hd m)), _, State.wave?_setWave (w := w1.advance (e.exec hd m)) hw,
      rfl, rfl, fun l hl => ?_⟩
    have hlt : l < w1.threads.length := by
      show l < e.w.threads.length
      rw [Wave.shape_threads hs]; exact hl
    have hth1 : w1.th l = e.w.th l := rfl
    simp only [Wave.advance, Wave.each_th _ _ _ _ hlt, hth1, hdr, Bool.true_and]
    refine ⟨?_, ?_⟩
    · split <;> (try split) <;> rfl
    · cases (e.exec hd m).getLsbD l <;> cases (e.w.th l).helper <;> simp
  · have hdrawn : e.drawn hd m rounds w1 = w1 := by
      unfold Env.drawn
      rw [if_neg (by simpa using hdr)]
    have hf : (rounds && decide (e.rm m = .rsr)) = false := by simpa using hdr
    rw [hdrawn]
    refine ⟨sameBesideWave (w := w1), w1, State.wave?_setWave (w := w1) hw, rfl, rfl, fun l _ => ⟨rfl, ?_⟩⟩
    rw [hf]
    rfl

end Sys2Proof.Machine
end

