-- ==== Sys2Proof/Laws/Access.lean ====
section
/-! SUPPORT. What reads of memory leave unchanged. -/

namespace Sys2Proof.Machine

theorem SameBesideMemory.refl (s : State) : SameBesideMemory s s := rfl

theorem SameBesideMemory.trans {s t u : State} (h : SameBesideMemory s t) (k : SameBesideMemory t u) :
    SameBesideMemory s u := by
  unfold SameBesideMemory at *
  rw [← k] at h
  exact h

theorem SameBesideMemory.waves {s t : State} (h : SameBesideMemory s t) : t.waves = s.waves := by
  rw [← h]

theorem SameBesideMemory.crews {s t : State} (h : SameBesideMemory s t) : t.crews = s.crews := by
  rw [← h]

theorem SameBesideMemory.tasks {s t : State} (h : SameBesideMemory s t) : t.tasks = s.tasks := by
  rw [← h]

theorem SameBesideMemory.wave? {s t : State} (h : SameBesideMemory s t) (j : Nat) : t.wave? j = s.wave? j := by
  unfold State.wave?
  rw [h.waves]

theorem SameBesideMemory.crew? {s t : State} (h : SameBesideMemory s t) (j : Nat) : t.crew? j = s.crew? j := by
  unfold State.crew?
  rw [h.crews]

theorem SameBesideMemory.task? {s t : State} (h : SameBesideMemory s t) (j : Nat) : t.task? j = s.task? j := by
  unfold State.task?
  rw [h.tasks]

theorem State.setMem_quiet (s : State) (p : Place) (m : Memory) : SameBesideMemory s (s.setMem p m) := by
  cases p <;> rfl

theorem State.writeAt_quiet {s t : State} {p : Place} {a : Nat} {bs : List Byte} (h : s.writeAt p a bs = .ok t) :
    SameBesideMemory s t := by
  unfold State.writeAt at h
  split at h
  · cases h
  · cases h
    exact State.setMem_quiet _ _ _

theorem State.putAt_quiet (s : State) (p : Place) (a : Nat) (bs : List Byte) : SameBesideMemory s (s.putAt p a bs) := by
  unfold State.putAt
  split
  · exact .refl s
  · rename_i h
    exact State.writeAt_quiet h

theorem foldl_quiet {α : Type} (f : State → α → State) (h : ∀ s a, SameBesideMemory s (f s a)) (l : List α) (s : State) :
    SameBesideMemory s (l.foldl f s) := by
  induction l generalizing s with
  | nil => exact .refl s
  | cons a r ih => exact (h s a).trans (ih _)

theorem State.endUp_quiet (s : State) (u : UpLine) : SameBesideMemory s (s.endUp u) := by
  unfold State.endUp
  exact SameBesideMemory.trans (t := { s with up := s.up.filter fun x => !(x.place == u.place && x.pa == u.pa) }) rfl
    (foldl_quiet _ (fun _ _ => State.putAt_quiet _ _ _ _) _ _)

theorem State.leaveUp_quiet (s : State) (p : Place) (a : Nat) : SameBesideMemory s (s.leaveUp p a) := by
  unfold State.leaveUp
  split
  · exact State.endUp_quiet _ _
  · exact .refl s

theorem State.count_quiet (s : State) (p : Phys) (k : Nat) : SameBesideMemory s (s.count p k) := by
  unfold State.count
  split
  · exact .refl s
  · exact State.putAt_quiet _ _ _ _

theorem State.direct_quiet (s : State) (a l : Nat) : SameBesideMemory s (s.direct a l) := rfl

theorem State.recall_quiet (s : State) (a l : Nat) (k : Option Nat) : SameBesideMemory s (s.recall a l k) := rfl

theorem State.demote_quiet (s : State) (a l : Nat) (k : Option Nat) : SameBesideMemory s (s.demote a l k) := rfl

theorem State.evictLine_quiet (s : State) (l : Line) : SameBesideMemory s (s.evictLine l) := by
  unfold State.evictLine
  dsimp only
  split
  · exact SameBesideMemory.trans (t := { s.recall l.asid l.line none with
      lines := (s.recall l.asid l.line none).lines.filter fun k => !(k.asid == l.asid && k.line == l.line) })
      rfl (State.count_quiet _ _ _)
  · rfl

theorem State.sliceRoom_quiet (s : State) (h : Nat) : SameBesideMemory s (s.sliceRoom h) := by
  unfold State.sliceRoom
  split
  · exact .refl s
  · dsimp only
    split
    · exact .refl s
    · split
      · exact State.evictLine_quiet _ _
      · exact .refl s

theorem State.coreRoom_quiet (s : State) (c : Nat) : SameBesideMemory s (s.coreRoom c) := by
  unfold State.coreRoom
  split
  · exact .refl s
  · dsimp only
    split
    · exact .refl s
    · split <;> rfl

theorem State.allocate_quiet (s : State) (p : Phys) (w : Bool) : SameBesideMemory s (s.allocate p w) := by
  unfold State.allocate
  dsimp only
  split
  · rfl
  · rename_i c _
    refine SameBesideMemory.trans (t := State.coreRoom { s with
        coreLines := s.coreLines.filter fun k => !(k.core == c && k.asid == p.asid && k.line == p.va / 64) } c) ?_ rfl
    exact SameBesideMemory.trans (t := { s with
      coreLines := s.coreLines.filter fun k => !(k.core == c && k.asid == p.asid && k.line == p.va / 64) })
      rfl (State.coreRoom_quiet _ _)

theorem State.mergeRead_quiet (s : State) (p : Phys) (m : Bool) : SameBesideMemory s (s.mergeRead p m) := by
  unfold State.mergeRead
  split
  · exact .refl s
  · split
    · rfl
    · split <;> rfl

theorem State.mergeWrite_quiet (s : State) (p : Phys) : SameBesideMemory s (s.mergeWrite p) := rfl

theorem State.dropOld_quiet (s : State) (p : Phys) : SameBesideMemory s (s.dropOld p) := by
  unfold State.dropOld
  split
  · split
    · exact .refl s
    · exact State.evictLine_quiet _ _
  · exact .refl s

theorem State.fillLine_quiet (s : State) (p : Phys) : SameBesideMemory s (s.fillLine p) :=
  SameBesideMemory.trans (t := { s with
    lines := ⟨p.asid, p.va / 64, p.leaf, false, none, 0⟩ :: s.lines
    walks := if s.walks.any fun w => w.asid == p.asid && w.vpn == p.va / 2 ^ 16 && w.leaf == p.leaf then s.walks
      else ⟨p.asid, p.va / 2 ^ 16, p.leaf⟩
        :: s.walks.filter fun w => !(w.asid == p.asid && w.vpn == p.va / 2 ^ 16) }) rfl (State.count_quiet _ _ _)

theorem State.own_quiet (s : State) (p : Phys) : SameBesideMemory s (s.own p) := rfl

theorem State.atHome_quiet (s : State) (p : Phys) (w : Bool) : SameBesideMemory s (s.atHome p w) := by
  unfold State.atHome
  dsimp only
  have h : ∀ s1, SameBesideMemory s s1 → SameBesideMemory s (if w then s1.own p
      else (s1.mergeRead p ((s.dropOld p).line? p.asid (p.va / 64)).isNone).demote p.asid (p.va / 64) p.via) := by
    intro s1 h1
    cases w
    · exact h1.trans ((State.mergeRead_quiet _ _ _).trans (State.demote_quiet _ _ _ _))
    · exact h1.trans (State.own_quiet _ _)
  refine h _ ?_
  split
  · exact (State.dropOld_quiet _ _).trans ((State.sliceRoom_quiet _ _).trans (State.fillLine_quiet _ _))
  · exact State.dropOld_quiet _ _

theorem State.touch_quiet (s : State) (p : Phys) (w : Bool) : SameBesideMemory s (s.touch p w) := by
  unfold State.touch
  split
  · exact .refl s
  · split
    · exact (State.atHome_quiet _ _ _).trans (State.allocate_quiet _ _ _)
    · split
      · exact .refl s
      · split
        · rfl
        · exact (State.atHome_quiet _ _ _).trans (State.allocate_quiet _ _ _)

theorem State.noteRead_quiet (s : State) (p : Phys) : SameBesideMemory s (s.noteRead p) :=
  (State.leaveUp_quiet _ _ _).trans (State.touch_quiet _ _ _)

/-- A read changes no register, no task and no control register. -/
theorem State.gRead_quiet {s t : State} {a : Acc} {v : Option Task} {unit va n : Nat} {bs : List Byte}
    (h : s.gRead a v unit va n = .ok (bs, t)) : SameBesideMemory s t := by
  unfold State.gRead at h
  split at h
  · cases h
  · dsimp only at h
    split at h
    · cases h
    · cases h
      exact State.noteRead_quiet _ _

theorem State.testTarget_quiet {s t : State} {e : Env} {l n : Nat} (h : s.testTarget e l n = .ok t) :
    SameBesideMemory s t := by
  unfold State.testTarget at h
  split at h
  · cases h
  · split at h
    · cases h
    · rename_i hr
      split at h
      · cases h
        exact State.gRead_quiet hr
      · cases h

/-- The tests of branch targets (spec/02 R49) change no register. -/
theorem State.testTargets_quiet (s : State) (e : Env) (tgt : Nat → Nat) (ls : List Nat) :
    SameBesideMemory s (s.testTargets e tgt ls).1 := by
  induction ls generalizing s with
  | nil => exact .refl s
  | cons l r ih =>
    unfold State.testTargets
    split
    · rename_i h
      exact (State.testTarget_quiet h).trans (ih _)
    · exact ih s

end Sys2Proof.Machine
end

