-- ==== Sys2Proof/Laws/Memory.lean ====
section
/-! SUPPORT. Memory keeps its canonical form under every operation, and a byte reads as it was last
written. -/

namespace Sys2Proof.Machine

/-! ## Lists of keys -/

/-- Every key of a list lies above a bound. -/
def above {α : Type} (k : Nat) (l : List (Nat × α)) : Prop := ∀ c ∈ l, k < c.1

theorem rising_cons {α : Type} (k : Nat) (x : α) (l : List (Nat × α)) :
    rising ((k, x) :: l) = true ↔ above k l ∧ rising l = true := by
  induction l generalizing k x with
  | nil => simp [rising, above]
  | cons c r ih =>
    obtain ⟨j, y⟩ := c
    simp only [rising, Bool.and_eq_true, decide_eq_true_eq]
    constructor
    · rintro ⟨h, h2⟩
      refine ⟨fun c hc => ?_, h2⟩
      rcases List.mem_cons.1 hc with rfl | hc
      · exact h
      · exact lt_trans h (((ih j y).1 h2).1 c hc)
    · rintro ⟨h, h2⟩
      exact ⟨h (j, y) (by simp), h2⟩

theorem above_putKey {α : Type} {k j : Nat} {x : α} {l : List (Nat × α)} (h : above k l) (hj : k < j) :
    above k (putKey l j x) := by
  induction l with
  | nil => intro c hc; simp [putKey] at hc; simp [hc, hj]
  | cons c r ih =>
    obtain ⟨i, y⟩ := c
    have hr : above k r := fun c hc => h c (List.mem_cons_of_mem _ hc)
    have hi : k < i := h (i, y) (by simp)
    intro c hc
    simp only [putKey] at hc
    split at hc
    · rcases List.mem_cons.1 hc with rfl | hc
      · exact hj
      · exact h c hc
    · split at hc
      · rcases List.mem_cons.1 hc with rfl | hc
        · exact hj
        · exact hr c hc
      · rcases List.mem_cons.1 hc with rfl | hc
        · exact hi
        · exact ih hr c hc

theorem rising_putKey {α : Type} (l : List (Nat × α)) (k : Nat) (x : α) (h : rising l = true) :
    rising (putKey l k x) = true := by
  induction l with
  | nil => rfl
  | cons c r ih =>
    obtain ⟨j, y⟩ := c
    obtain ⟨ha, hr⟩ := (rising_cons j y r).1 h
    simp only [putKey]
    split
    · rename_i hk
      refine (rising_cons k x _).2 ⟨fun c hc => ?_, h⟩
      rcases List.mem_cons.1 hc with rfl | hc
      · exact hk
      · exact lt_trans hk (ha c hc)
    · split
      · rename_i h1 h2
        subst h2
        exact (rising_cons k x r).2 ⟨ha, hr⟩
      · rename_i h1 h2
        exact (rising_cons j y _).2 ⟨above_putKey ha (by omega), ih hr⟩

theorem delKey_sub {α : Type} (l : List (Nat × α)) (k : Nat) : ∀ c ∈ delKey l k, c ∈ l := by
  induction l with
  | nil => simp [delKey]
  | cons c r ih =>
    obtain ⟨j, y⟩ := c
    intro c hc
    simp only [delKey] at hc
    split at hc
    · exact List.mem_cons_of_mem _ hc
    · split at hc
      · exact hc
      · rcases List.mem_cons.1 hc with rfl | hc
        · simp
        · exact List.mem_cons_of_mem _ (ih c hc)

theorem rising_delKey {α : Type} (l : List (Nat × α)) (k : Nat) (h : rising l = true) :
    rising (delKey l k) = true := by
  induction l with
  | nil => rfl
  | cons c r ih =>
    obtain ⟨j, y⟩ := c
    obtain ⟨ha, hr⟩ := (rising_cons j y r).1 h
    simp only [delKey]
    split
    · exact hr
    · split
      · exact h
      · exact (rising_cons j y _).2 ⟨fun c hc => ha c (delKey_sub r k c hc), ih hr⟩

theorem rising_filter {α : Type} (l : List (Nat × α)) (p : Nat × α → Bool) (h : rising l = true) :
    rising (l.filter p) = true := by
  induction l with
  | nil => rfl
  | cons c r ih =>
    obtain ⟨j, y⟩ := c
    obtain ⟨ha, hr⟩ := (rising_cons j y r).1 h
    simp only [List.filter]
    split
    · exact (rising_cons j y _).2 ⟨fun c hc => ha c (List.mem_of_mem_filter hc), ih hr⟩
    · exact ih hr

theorem getKey_above {α : Type} {l : List (Nat × α)} {k j : Nat} (h : above k l) (hj : j ≤ k) :
    getKey l j = none := by
  cases l with
  | nil => rfl
  | cons c r =>
    obtain ⟨i, y⟩ := c
    have hi : k < i := h (i, y) (by simp)
    simp only [getKey]
    rw [if_neg (by omega), if_pos (by omega)]

theorem getKey_putKey {α : Type} (l : List (Nat × α)) (k j : Nat) (x : α) (h : rising l = true) :
    getKey (putKey l k x) j = if j = k then some x else getKey l j := by
  induction l with
  | nil =>
    simp only [putKey, getKey]
    split
    · rfl
    · split <;> rfl
  | cons c r ih =>
    obtain ⟨i, y⟩ := c
    obtain ⟨ha, hr⟩ := (rising_cons i y r).1 h
    simp only [putKey]
    split
    · rename_i hk
      simp only [getKey]
      split
      · rfl
      · split
        · rw [if_neg (by omega), if_pos (by omega)]
        · rfl
    · split
      · rename_i h1 h2
        subst h2
        simp only [getKey]
        split
        · rfl
        · rfl
      · rename_i h1 h2
        simp only [getKey, ih hr]
        by_cases hj : j = i
        · subst hj
          simp [Ne.symm h2]
        · simp only [hj, if_false]
          by_cases hjk : j = k
          · subst hjk
            simp [h1]
          · simp [hjk]

theorem getKey_delKey {α : Type} (l : List (Nat × α)) (k j : Nat) (h : rising l = true) :
    getKey (delKey l k) j = if j = k then none else getKey l j := by
  induction l with
  | nil => simp [delKey, getKey]
  | cons c r ih =>
    obtain ⟨i, y⟩ := c
    obtain ⟨ha, hr⟩ := (rising_cons i y r).1 h
    simp only [delKey]
    split
    · rename_i hk
      subst hk
      split
      · rename_i hj
        subst hj
        exact getKey_above ha le_rfl
      · rename_i hj
        simp only [getKey, hj, if_false]
        split
        · exact getKey_above ha (by omega)
        · rfl
    · rename_i hk
      split
      · rename_i hk2
        split
        · rename_i hj
          subst hj
          simp only [getKey]
          rw [if_neg hk, if_pos hk2]
        · rfl
      · rename_i hk2
        simp only [getKey, ih hr]
        by_cases hj : j = i
        · subst hj
          rw [if_pos rfl, if_pos rfl, if_neg (by omega)]
        · rw [if_neg hj, if_neg hj]
          by_cases hjk : j = k
          · subst hjk
            simp [hk2]
          · simp [hjk]

/-! ## The canonical form -/

theorem Memory.wf_iff (m : Memory) : m.wf = true ↔ rising m.cells = true ∧ rising m.codes = true := by
  simp [Memory.wf]

theorem Memory.empty_wf : Memory.empty.wf = true := rfl

theorem Memory.put_wf (m : Memory) (a : Nat) (bs : List Byte) (h : m.wf = true) : (m.put a bs).wf = true := by
  induction bs generalizing m a with
  | nil => exact h
  | cons b r ih =>
    refine ih _ _ ?_
    rw [Memory.wf_iff] at h ⊢
    exact ⟨rising_putKey _ _ _ h.1, h.2⟩

theorem Memory.put_codes (m : Memory) (a : Nat) (bs : List Byte) : (m.put a bs).codes = m.codes := by
  induction bs generalizing m a with
  | nil => rfl
  | cons b r ih => rw [Memory.put, ih]

theorem Memory.setCode_wf (f : Fill) (m : Memory) (g : Nat) (c : Byte) (h : m.wf = true) :
    (m.setCode f g c).wf = true := by
  rw [Memory.wf_iff] at h
  unfold Memory.setCode
  split <;> rw [Memory.wf_iff]
  · exact ⟨h.1, rising_delKey _ _ h.2⟩
  · exact ⟨h.1, rising_putKey _ _ _ h.2⟩

theorem Memory.putGranule_wf (m : Memory) (g : Nat) (bs : List Byte) (h : m.wf = true) :
    (m.putGranule g bs).wf = true := by
  have h1 := (Memory.wf_iff _).1 (Memory.put_wf m (8 * g) bs h)
  rw [Memory.wf_iff]
  exact ⟨h1.1, rising_delKey _ _ h1.2⟩

theorem Memory.mergeGranule_wf {f : Fill} {m m' : Memory} {g o : Nat} {bs : List Byte} (h : m.wf = true)
    (e : m.mergeGranule f g o bs = .ok m') : m'.wf = true := by
  unfold Memory.mergeGranule at e
  split at e
  · cases e; exact Memory.putGranule_wf _ _ _ h
  · split at e
    · cases e
    · cases e; exact Memory.putGranule_wf _ _ _ h

theorem Memory.writeFrom_wf {f : Fill} (n : Nat) {m m' : Memory} {a : Nat} {bs : List Byte} (h : m.wf = true)
    (e : m.writeFrom f a bs n = .ok m') : m'.wf = true := by
  induction n generalizing m a bs with
  | zero => cases e; exact h
  | succ n ih =>
    unfold Memory.writeFrom at e
    split at e
    · cases e; exact h
    · dsimp only at e
      split at e
      · cases e
      · rename_i m1 h1
        exact ih (Memory.mergeGranule_wf h h1) e

theorem Memory.write_wf {f : Fill} {m m' : Memory} {a : Nat} {bs : List Byte} (h : m.wf = true)
    (e : m.write f a bs = .ok m') : m'.wf = true := by
  unfold Memory.write at e
  split at e
  · exact Memory.writeFrom_wf _ h e
  · cases e; exact Memory.put_wf _ _ _ h

theorem Memory.carry_wf (f : Fill) (m : Memory) (g : Nat) (x : List Byte × Byte) (h : m.wf = true) :
    (m.carry f g x).wf = true := by
  unfold Memory.carry
  split
  · exact Memory.setCode_wf _ _ _ _ (Memory.putGranule_wf _ _ _ h)
  · exact Memory.put_wf _ _ _ h

theorem Memory.copyGranules_wf (f : Fill) (src : Memory) (f' : Fill) (n g : Nat) (dst : Memory) (g' : Nat)
    (h : dst.wf = true) : (Memory.copyGranules f src g f' dst g' n).wf = true := by
  induction n generalizing g dst g' with
  | zero => exact h
  | succ n ih => exact ih _ _ _ (Memory.carry_wf _ _ _ _ h)

theorem Memory.forget_wf (m : Memory) (a n : Nat) (h : m.wf = true) : (m.forget a n).wf = true := by
  rw [Memory.wf_iff] at h ⊢
  exact ⟨rising_filter _ _ h.1, rising_filter _ _ h.2⟩

theorem rising_delKeys {α : Type} (gs : List Nat) (l : List (Nat × α)) (h : rising l = true) :
    rising (gs.foldl delKey l) = true := by
  induction gs generalizing l with
  | nil => exact h
  | cons g r ih => exact ih _ (rising_delKey _ _ h)

theorem Memory.overlay_wf {f : Fill} {m m' : Memory} {a : Nat} {bs : List Byte} (h : m.wf = true)
    (e : m.overlay f a bs = .ok m') : m'.wf = true := by
  unfold Memory.overlay at e
  dsimp only at e
  split at e
  · cases e
  · cases e
    have h1 := (Memory.wf_iff _).1 (Memory.put_wf m a bs h)
    rw [Memory.wf_iff]
    exact ⟨h1.1, rising_delKeys _ _ h1.2⟩

/-! ## Reading what was written -/

theorem Memory.put_get? (m : Memory) (a : Nat) (bs : List Byte) (h : m.wf = true) (x : Nat) :
    (m.put a bs).get? x = if a ≤ x then (if x < a + bs.length then bs[x - a]? else m.get? x) else m.get? x := by
  induction bs generalizing m a with
  | nil =>
    simp only [Memory.put, List.length_nil, Nat.add_zero]
    split
    · rw [if_neg (by omega)]
    · rfl
  | cons b r ih =>
    have hr := (Memory.wf_iff _).1 h
    have hw : ({ m with cells := putKey m.cells a b } : Memory).wf = true :=
      (Memory.wf_iff _).2 ⟨rising_putKey _ _ _ hr.1, hr.2⟩
    rw [Memory.put, ih _ _ hw]
    simp only [Memory.get?, getKey_putKey _ _ _ _ hr.1, List.length_cons]
    rcases Nat.lt_trichotomy x a with hx | hx | hx
    · rw [if_neg (by omega), if_neg (by omega), if_neg (by omega)]
    · subst hx
      simp
    · have h1 : x - a = (x - (a + 1)) + 1 := by omega
      rw [if_pos (by omega : a + 1 ≤ x), if_pos (by omega : a ≤ x), if_neg (by omega : ¬x = a)]
      by_cases hb : x < a + 1 + r.length
      · rw [if_pos hb, if_pos (by omega), h1, List.getElem?_cons_succ]
      · rw [if_neg hb, if_neg (by omega)]

/-! ## Places -/

theorem State.setMem_mem (s : State) (p : Place) (m : Memory)
    (h : match p with | .spad c | .tile c | .wbuf c => c < s.cores.length | _ => True) :
    (s.setMem p m).mem p = m := by
  cases p <;> simp_all [State.setMem, State.mem, State.setCore, State.core, getAt, List.getD]

end Sys2Proof.Machine
end

