-- ==== Sys2Proof/Laws/PerInstr.lean ====
section
/-! SUPPORT. Families of laws over every constructor of Instr. -/

namespace Sys2Proof.Laws.Encoding

end Sys2Proof.Laws.Encoding
end

