-- ==== Sys2Proof/Laws/State.lean ====
section
/-! SUPPORT. What each field of State is after each update, by unfolding. -/

namespace Sys2Proof.Machine

/-! ## State.setWave -/

@[simp] theorem State.setWave_tick (s : State) (w : Wave) : (s.setWave w).tick = s.tick := rfl
@[simp] theorem State.setWave_taken (s : State) (w : Wave) : (s.setWave w).taken = s.taken := rfl
@[simp] theorem State.setWave_stopped (s : State) (w : Wave) : (s.setWave w).stopped = s.stopped := rfl
@[simp] theorem State.setWave_dev (s : State) (w : Wave) : (s.setWave w).dev = s.dev := rfl
@[simp] theorem State.setWave_hostMem (s : State) (w : Wave) : (s.setWave w).hostMem = s.hostMem := rfl
@[simp] theorem State.setWave_peerMem (s : State) (w : Wave) : (s.setWave w).peerMem = s.peerMem := rfl
@[simp] theorem State.setWave_walks (s : State) (w : Wave) : (s.setWave w).walks = s.walks := rfl
@[simp] theorem State.setWave_lines (s : State) (w : Wave) : (s.setWave w).lines = s.lines := rfl
@[simp] theorem State.setWave_coreLines (s : State) (w : Wave) : (s.setWave w).coreLines = s.coreLines := rfl
@[simp] theorem State.setWave_up (s : State) (w : Wave) : (s.setWave w).up = s.up := rfl
@[simp] theorem State.setWave_remap (s : State) (w : Wave) : (s.setWave w).remap = s.remap := rfl
@[simp] theorem State.setWave_merges (s : State) (w : Wave) : (s.setWave w).merges = s.merges := rfl
@[simp] theorem State.setWave_inval (s : State) (w : Wave) : (s.setWave w).inval = s.inval := rfl
@[simp] theorem State.setWave_ctl (s : State) (w : Wave) : (s.setWave w).ctl = s.ctl := rfl
@[simp] theorem State.setWave_cores (s : State) (w : Wave) : (s.setWave w).cores = s.cores := rfl
@[simp] theorem State.setWave_layers (s : State) (w : Wave) : (s.setWave w).layers = s.layers := rfl
@[simp] theorem State.setWave_clusters (s : State) (w : Wave) : (s.setWave w).clusters = s.clusters := rfl
@[simp] theorem State.setWave_dies (s : State) (w : Wave) : (s.setWave w).dies = s.dies := rfl
@[simp] theorem State.setWave_ctxs (s : State) (w : Wave) : (s.setWave w).ctxs = s.ctxs := rfl
@[simp] theorem State.setWave_queues (s : State) (w : Wave) : (s.setWave w).queues = s.queues := rfl
@[simp] theorem State.setWave_tasks (s : State) (w : Wave) : (s.setWave w).tasks = s.tasks := rfl
@[simp] theorem State.setWave_crews (s : State) (w : Wave) : (s.setWave w).crews = s.crews := rfl
@[simp] theorem State.setWave_waves (s : State) (w : Wave) : (s.setWave w).waves = (s.waves.map fun x => if x.id == w.id then w else x) := rfl
@[simp] theorem State.setWave_arrivals (s : State) (w : Wave) : (s.setWave w).arrivals = s.arrivals := rfl
@[simp] theorem State.setWave_moment (s : State) (w : Wave) : (s.setWave w).moment = s.moment := rfl
@[simp] theorem State.setWave_hist (s : State) (w : Wave) : (s.setWave w).hist = s.hist := rfl
@[simp] theorem State.setWave_rels (s : State) (w : Wave) : (s.setWave w).rels = s.rels := rfl
@[simp] theorem State.setWave_enqueues (s : State) (w : Wave) : (s.setWave w).enqueues = s.enqueues := rfl
@[simp] theorem State.setWave_links (s : State) (w : Wave) : (s.setWave w).links = s.links := rfl
@[simp] theorem State.setWave_tpw (s : State) (w : Wave) : (s.setWave w).tpw = s.tpw := rfl
@[simp] theorem State.setWave_pcool (s : State) (w : Wave) : (s.setWave w).pcool = s.pcool := rfl
@[simp] theorem State.setWave_levelled (s : State) (w : Wave) : (s.setWave w).levelled = s.levelled := rfl
@[simp] theorem State.setWave_mgmt (s : State) (w : Wave) : (s.setWave w).mgmt = s.mgmt := rfl
@[simp] theorem State.setWave_dbg (s : State) (w : Wave) : (s.setWave w).dbg = s.dbg := rfl
@[simp] theorem State.setWave_snap (s : State) (w : Wave) : (s.setWave w).snap = s.snap := rfl
@[simp] theorem State.setWave_agenda (s : State) (w : Wave) : (s.setWave w).agenda = s.agenda := rfl
@[simp] theorem State.setWave_iss (s : State) (w : Wave) : (s.setWave w).iss = s.iss := rfl
@[simp] theorem State.setWave_freeN (s : State) (w : Wave) : (s.setWave w).freeN = s.freeN := rfl
@[simp] theorem State.setWave_epoch (s : State) (w : Wave) : (s.setWave w).epoch = s.epoch := rfl
@[simp] theorem State.setWave_nextId (s : State) (w : Wave) : (s.setWave w).nextId = s.nextId := rfl

/-! ## State.setCrew -/

@[simp] theorem State.setCrew_tick (s : State) (c : Crew) : (s.setCrew c).tick = s.tick := rfl
@[simp] theorem State.setCrew_taken (s : State) (c : Crew) : (s.setCrew c).taken = s.taken := rfl
@[simp] theorem State.setCrew_stopped (s : State) (c : Crew) : (s.setCrew c).stopped = s.stopped := rfl
@[simp] theorem State.setCrew_dev (s : State) (c : Crew) : (s.setCrew c).dev = s.dev := rfl
@[simp] theorem State.setCrew_hostMem (s : State) (c : Crew) : (s.setCrew c).hostMem = s.hostMem := rfl
@[simp] theorem State.setCrew_peerMem (s : State) (c : Crew) : (s.setCrew c).peerMem = s.peerMem := rfl
@[simp] theorem State.setCrew_walks (s : State) (c : Crew) : (s.setCrew c).walks = s.walks := rfl
@[simp] theorem State.setCrew_lines (s : State) (c : Crew) : (s.setCrew c).lines = s.lines := rfl
@[simp] theorem State.setCrew_coreLines (s : State) (c : Crew) : (s.setCrew c).coreLines = s.coreLines := rfl
@[simp] theorem State.setCrew_up (s : State) (c : Crew) : (s.setCrew c).up = s.up := rfl
@[simp] theorem State.setCrew_remap (s : State) (c : Crew) : (s.setCrew c).remap = s.remap := rfl
@[simp] theorem State.setCrew_merges (s : State) (c : Crew) : (s.setCrew c).merges = s.merges := rfl
@[simp] theorem State.setCrew_inval (s : State) (c : Crew) : (s.setCrew c).inval = s.inval := rfl
@[simp] theorem State.setCrew_ctl (s : State) (c : Crew) : (s.setCrew c).ctl = s.ctl := rfl
@[simp] theorem State.setCrew_cores (s : State) (c : Crew) : (s.setCrew c).cores = s.cores := rfl
@[simp] theorem State.setCrew_layers (s : State) (c : Crew) : (s.setCrew c).layers = s.layers := rfl
@[simp] theorem State.setCrew_clusters (s : State) (c : Crew) : (s.setCrew c).clusters = s.clusters := rfl
@[simp] theorem State.setCrew_dies (s : State) (c : Crew) : (s.setCrew c).dies = s.dies := rfl
@[simp] theorem State.setCrew_ctxs (s : State) (c : Crew) : (s.setCrew c).ctxs = s.ctxs := rfl
@[simp] theorem State.setCrew_queues (s : State) (c : Crew) : (s.setCrew c).queues = s.queues := rfl
@[simp] theorem State.setCrew_tasks (s : State) (c : Crew) : (s.setCrew c).tasks = s.tasks := rfl
@[simp] theorem State.setCrew_crews (s : State) (c : Crew) : (s.setCrew c).crews = (s.crews.map fun x => if x.id == c.id then c else x) := rfl
@[simp] theorem State.setCrew_waves (s : State) (c : Crew) : (s.setCrew c).waves = s.waves := rfl
@[simp] theorem State.setCrew_arrivals (s : State) (c : Crew) : (s.setCrew c).arrivals = s.arrivals := rfl
@[simp] theorem State.setCrew_moment (s : State) (c : Crew) : (s.setCrew c).moment = s.moment := rfl
@[simp] theorem State.setCrew_hist (s : State) (c : Crew) : (s.setCrew c).hist = s.hist := rfl
@[simp] theorem State.setCrew_rels (s : State) (c : Crew) : (s.setCrew c).rels = s.rels := rfl
@[simp] theorem State.setCrew_enqueues (s : State) (c : Crew) : (s.setCrew c).enqueues = s.enqueues := rfl
@[simp] theorem State.setCrew_links (s : State) (c : Crew) : (s.setCrew c).links = s.links := rfl
@[simp] theorem State.setCrew_tpw (s : State) (c : Crew) : (s.setCrew c).tpw = s.tpw := rfl
@[simp] theorem State.setCrew_pcool (s : State) (c : Crew) : (s.setCrew c).pcool = s.pcool := rfl
@[simp] theorem State.setCrew_levelled (s : State) (c : Crew) : (s.setCrew c).levelled = s.levelled := rfl
@[simp] theorem State.setCrew_mgmt (s : State) (c : Crew) : (s.setCrew c).mgmt = s.mgmt := rfl
@[simp] theorem State.setCrew_dbg (s : State) (c : Crew) : (s.setCrew c).dbg = s.dbg := rfl
@[simp] theorem State.setCrew_snap (s : State) (c : Crew) : (s.setCrew c).snap = s.snap := rfl
@[simp] theorem State.setCrew_agenda (s : State) (c : Crew) : (s.setCrew c).agenda = s.agenda := rfl
@[simp] theorem State.setCrew_iss (s : State) (c : Crew) : (s.setCrew c).iss = s.iss := rfl
@[simp] theorem State.setCrew_freeN (s : State) (c : Crew) : (s.setCrew c).freeN = s.freeN := rfl
@[simp] theorem State.setCrew_epoch (s : State) (c : Crew) : (s.setCrew c).epoch = s.epoch := rfl
@[simp] theorem State.setCrew_nextId (s : State) (c : Crew) : (s.setCrew c).nextId = s.nextId := rfl

/-! ## State.setTask -/

@[simp] theorem State.setTask_tick (s : State) (t : Task) : (s.setTask t).tick = s.tick := rfl
@[simp] theorem State.setTask_taken (s : State) (t : Task) : (s.setTask t).taken = s.taken := rfl
@[simp] theorem State.setTask_stopped (s : State) (t : Task) : (s.setTask t).stopped = s.stopped := rfl
@[simp] theorem State.setTask_dev (s : State) (t : Task) : (s.setTask t).dev = s.dev := rfl
@[simp] theorem State.setTask_hostMem (s : State) (t : Task) : (s.setTask t).hostMem = s.hostMem := rfl
@[simp] theorem State.setTask_peerMem (s : State) (t : Task) : (s.setTask t).peerMem = s.peerMem := rfl
@[simp] theorem State.setTask_walks (s : State) (t : Task) : (s.setTask t).walks = s.walks := rfl
@[simp] theorem State.setTask_lines (s : State) (t : Task) : (s.setTask t).lines = s.lines := rfl
@[simp] theorem State.setTask_coreLines (s : State) (t : Task) : (s.setTask t).coreLines = s.coreLines := rfl
@[simp] theorem State.setTask_up (s : State) (t : Task) : (s.setTask t).up = s.up := rfl
@[simp] theorem State.setTask_remap (s : State) (t : Task) : (s.setTask t).remap = s.remap := rfl
@[simp] theorem State.setTask_merges (s : State) (t : Task) : (s.setTask t).merges = s.merges := rfl
@[simp] theorem State.setTask_inval (s : State) (t : Task) : (s.setTask t).inval = s.inval := rfl
@[simp] theorem State.setTask_ctl (s : State) (t : Task) : (s.setTask t).ctl = s.ctl := rfl
@[simp] theorem State.setTask_cores (s : State) (t : Task) : (s.setTask t).cores = s.cores := rfl
@[simp] theorem State.setTask_layers (s : State) (t : Task) : (s.setTask t).layers = s.layers := rfl
@[simp] theorem State.setTask_clusters (s : State) (t : Task) : (s.setTask t).clusters = s.clusters := rfl
@[simp] theorem State.setTask_dies (s : State) (t : Task) : (s.setTask t).dies = s.dies := rfl
@[simp] theorem State.setTask_ctxs (s : State) (t : Task) : (s.setTask t).ctxs = s.ctxs := rfl
@[simp] theorem State.setTask_queues (s : State) (t : Task) : (s.setTask t).queues = s.queues := rfl
@[simp] theorem State.setTask_tasks (s : State) (t : Task) : (s.setTask t).tasks = (s.tasks.map fun x => if x.id == t.id then t else x) := rfl
@[simp] theorem State.setTask_crews (s : State) (t : Task) : (s.setTask t).crews = s.crews := rfl
@[simp] theorem State.setTask_waves (s : State) (t : Task) : (s.setTask t).waves = s.waves := rfl
@[simp] theorem State.setTask_arrivals (s : State) (t : Task) : (s.setTask t).arrivals = s.arrivals := rfl
@[simp] theorem State.setTask_moment (s : State) (t : Task) : (s.setTask t).moment = s.moment := rfl
@[simp] theorem State.setTask_hist (s : State) (t : Task) : (s.setTask t).hist = s.hist := rfl
@[simp] theorem State.setTask_rels (s : State) (t : Task) : (s.setTask t).rels = s.rels := rfl
@[simp] theorem State.setTask_enqueues (s : State) (t : Task) : (s.setTask t).enqueues = s.enqueues := rfl
@[simp] theorem State.setTask_links (s : State) (t : Task) : (s.setTask t).links = s.links := rfl
@[simp] theorem State.setTask_tpw (s : State) (t : Task) : (s.setTask t).tpw = s.tpw := rfl
@[simp] theorem State.setTask_pcool (s : State) (t : Task) : (s.setTask t).pcool = s.pcool := rfl
@[simp] theorem State.setTask_levelled (s : State) (t : Task) : (s.setTask t).levelled = s.levelled := rfl
@[simp] theorem State.setTask_mgmt (s : State) (t : Task) : (s.setTask t).mgmt = s.mgmt := rfl
@[simp] theorem State.setTask_dbg (s : State) (t : Task) : (s.setTask t).dbg = s.dbg := rfl
@[simp] theorem State.setTask_snap (s : State) (t : Task) : (s.setTask t).snap = s.snap := rfl
@[simp] theorem State.setTask_agenda (s : State) (t : Task) : (s.setTask t).agenda = s.agenda := rfl
@[simp] theorem State.setTask_iss (s : State) (t : Task) : (s.setTask t).iss = s.iss := rfl
@[simp] theorem State.setTask_freeN (s : State) (t : Task) : (s.setTask t).freeN = s.freeN := rfl
@[simp] theorem State.setTask_epoch (s : State) (t : Task) : (s.setTask t).epoch = s.epoch := rfl
@[simp] theorem State.setTask_nextId (s : State) (t : Task) : (s.setTask t).nextId = s.nextId := rfl

/-! ## State.updTask -/

@[simp] theorem State.updTask_tick (s : State) (n : Nat) (f : Task → Task) : (s.updTask n f).tick = s.tick := rfl
@[simp] theorem State.updTask_taken (s : State) (n : Nat) (f : Task → Task) : (s.updTask n f).taken = s.taken := rfl
@[simp] theorem State.updTask_stopped (s : State) (n : Nat) (f : Task → Task) : (s.updTask n f).stopped = s.stopped := rfl
@[simp] theorem State.updTask_dev (s : State) (n : Nat) (f : Task → Task) : (s.updTask n f).dev = s.dev := rfl
@[simp] theorem State.updTask_hostMem (s : State) (n : Nat) (f : Task → Task) : (s.updTask n f).hostMem = s.hostMem := rfl
@[simp] theorem State.updTask_peerMem (s : State) (n : Nat) (f : Task → Task) : (s.updTask n f).peerMem = s.peerMem := rfl
@[simp] theorem State.updTask_walks (s : State) (n : Nat) (f : Task → Task) : (s.updTask n f).walks = s.walks := rfl
@[simp] theorem State.updTask_lines (s : State) (n : Nat) (f : Task → Task) : (s.updTask n f).lines = s.lines := rfl
@[simp] theorem State.updTask_coreLines (s : State) (n : Nat) (f : Task → Task) : (s.updTask n f).coreLines = s.coreLines := rfl
@[simp] theorem State.updTask_up (s : State) (n : Nat) (f : Task → Task) : (s.updTask n f).up = s.up := rfl
@[simp] theorem State.updTask_remap (s : State) (n : Nat) (f : Task → Task) : (s.updTask n f).remap = s.remap := rfl
@[simp] theorem State.updTask_merges (s : State) (n : Nat) (f : Task → Task) : (s.updTask n f).merges = s.merges := rfl
@[simp] theorem State.updTask_inval (s : State) (n : Nat) (f : Task → Task) : (s.updTask n f).inval = s.inval := rfl
@[simp] theorem State.updTask_ctl (s : State) (n : Nat) (f : Task → Task) : (s.updTask n f).ctl = s.ctl := rfl
@[simp] theorem State.updTask_cores (s : State) (n : Nat) (f : Task → Task) : (s.updTask n f).cores = s.cores := rfl
@[simp] theorem State.updTask_layers (s : State) (n : Nat) (f : Task → Task) : (s.updTask n f).layers = s.layers := rfl
@[simp] theorem State.updTask_clusters (s : State) (n : Nat) (f : Task → Task) : (s.updTask n f).clusters = s.clusters := rfl
@[simp] theorem State.updTask_dies (s : State) (n : Nat) (f : Task → Task) : (s.updTask n f).dies = s.dies := rfl
@[simp] theorem State.updTask_ctxs (s : State) (n : Nat) (f : Task → Task) : (s.updTask n f).ctxs = s.ctxs := rfl
@[simp] theorem State.updTask_queues (s : State) (n : Nat) (f : Task → Task) : (s.updTask n f).queues = s.queues := rfl
@[simp] theorem State.updTask_tasks (s : State) (n : Nat) (f : Task → Task) : (s.updTask n f).tasks = (s.tasks.map fun x => if x.id == n then f x else x) := rfl
@[simp] theorem State.updTask_crews (s : State) (n : Nat) (f : Task → Task) : (s.updTask n f).crews = s.crews := rfl
@[simp] theorem State.updTask_waves (s : State) (n : Nat) (f : Task → Task) : (s.updTask n f).waves = s.waves := rfl
@[simp] theorem State.updTask_arrivals (s : State) (n : Nat) (f : Task → Task) : (s.updTask n f).arrivals = s.arrivals := rfl
@[simp] theorem State.updTask_moment (s : State) (n : Nat) (f : Task → Task) : (s.updTask n f).moment = s.moment := rfl
@[simp] theorem State.updTask_hist (s : State) (n : Nat) (f : Task → Task) : (s.updTask n f).hist = s.hist := rfl
@[simp] theorem State.updTask_rels (s : State) (n : Nat) (f : Task → Task) : (s.updTask n f).rels = s.rels := rfl
@[simp] theorem State.updTask_enqueues (s : State) (n : Nat) (f : Task → Task) : (s.updTask n f).enqueues = s.enqueues := rfl
@[simp] theorem State.updTask_links (s : State) (n : Nat) (f : Task → Task) : (s.updTask n f).links = s.links := rfl
@[simp] theorem State.updTask_tpw (s : State) (n : Nat) (f : Task → Task) : (s.updTask n f).tpw = s.tpw := rfl
@[simp] theorem State.updTask_pcool (s : State) (n : Nat) (f : Task → Task) : (s.updTask n f).pcool = s.pcool := rfl
@[simp] theorem State.updTask_levelled (s : State) (n : Nat) (f : Task → Task) : (s.updTask n f).levelled = s.levelled := rfl
@[simp] theorem State.updTask_mgmt (s : State) (n : Nat) (f : Task → Task) : (s.updTask n f).mgmt = s.mgmt := rfl
@[simp] theorem State.updTask_dbg (s : State) (n : Nat) (f : Task → Task) : (s.updTask n f).dbg = s.dbg := rfl
@[simp] theorem State.updTask_snap (s : State) (n : Nat) (f : Task → Task) : (s.updTask n f).snap = s.snap := rfl
@[simp] theorem State.updTask_agenda (s : State) (n : Nat) (f : Task → Task) : (s.updTask n f).agenda = s.agenda := rfl
@[simp] theorem State.updTask_iss (s : State) (n : Nat) (f : Task → Task) : (s.updTask n f).iss = s.iss := rfl
@[simp] theorem State.updTask_freeN (s : State) (n : Nat) (f : Task → Task) : (s.updTask n f).freeN = s.freeN := rfl
@[simp] theorem State.updTask_epoch (s : State) (n : Nat) (f : Task → Task) : (s.updTask n f).epoch = s.epoch := rfl
@[simp] theorem State.updTask_nextId (s : State) (n : Nat) (f : Task → Task) : (s.updTask n f).nextId = s.nextId := rfl

/-! ## State.setCtx -/

@[simp] theorem State.setCtx_tick (s : State) (c : Nat) (x : Ctx) : (s.setCtx c x).tick = s.tick := rfl
@[simp] theorem State.setCtx_taken (s : State) (c : Nat) (x : Ctx) : (s.setCtx c x).taken = s.taken := rfl
@[simp] theorem State.setCtx_stopped (s : State) (c : Nat) (x : Ctx) : (s.setCtx c x).stopped = s.stopped := rfl
@[simp] theorem State.setCtx_dev (s : State) (c : Nat) (x : Ctx) : (s.setCtx c x).dev = s.dev := rfl
@[simp] theorem State.setCtx_hostMem (s : State) (c : Nat) (x : Ctx) : (s.setCtx c x).hostMem = s.hostMem := rfl
@[simp] theorem State.setCtx_peerMem (s : State) (c : Nat) (x : Ctx) : (s.setCtx c x).peerMem = s.peerMem := rfl
@[simp] theorem State.setCtx_walks (s : State) (c : Nat) (x : Ctx) : (s.setCtx c x).walks = s.walks := rfl
@[simp] theorem State.setCtx_lines (s : State) (c : Nat) (x : Ctx) : (s.setCtx c x).lines = s.lines := rfl
@[simp] theorem State.setCtx_coreLines (s : State) (c : Nat) (x : Ctx) : (s.setCtx c x).coreLines = s.coreLines := rfl
@[simp] theorem State.setCtx_up (s : State) (c : Nat) (x : Ctx) : (s.setCtx c x).up = s.up := rfl
@[simp] theorem State.setCtx_remap (s : State) (c : Nat) (x : Ctx) : (s.setCtx c x).remap = s.remap := rfl
@[simp] theorem State.setCtx_merges (s : State) (c : Nat) (x : Ctx) : (s.setCtx c x).merges = s.merges := rfl
@[simp] theorem State.setCtx_inval (s : State) (c : Nat) (x : Ctx) : (s.setCtx c x).inval = s.inval := rfl
@[simp] theorem State.setCtx_ctl (s : State) (c : Nat) (x : Ctx) : (s.setCtx c x).ctl = s.ctl := rfl
@[simp] theorem State.setCtx_cores (s : State) (c : Nat) (x : Ctx) : (s.setCtx c x).cores = s.cores := rfl
@[simp] theorem State.setCtx_layers (s : State) (c : Nat) (x : Ctx) : (s.setCtx c x).layers = s.layers := rfl
@[simp] theorem State.setCtx_clusters (s : State) (c : Nat) (x : Ctx) : (s.setCtx c x).clusters = s.clusters := rfl
@[simp] theorem State.setCtx_dies (s : State) (c : Nat) (x : Ctx) : (s.setCtx c x).dies = s.dies := rfl
@[simp] theorem State.setCtx_ctxs (s : State) (c : Nat) (x : Ctx) : (s.setCtx c x).ctxs = s.ctxs.set c x := rfl
@[simp] theorem State.setCtx_queues (s : State) (c : Nat) (x : Ctx) : (s.setCtx c x).queues = s.queues := rfl
@[simp] theorem State.setCtx_tasks (s : State) (c : Nat) (x : Ctx) : (s.setCtx c x).tasks = s.tasks := rfl
@[simp] theorem State.setCtx_crews (s : State) (c : Nat) (x : Ctx) : (s.setCtx c x).crews = s.crews := rfl
@[simp] theorem State.setCtx_waves (s : State) (c : Nat) (x : Ctx) : (s.setCtx c x).waves = s.waves := rfl
@[simp] theorem State.setCtx_arrivals (s : State) (c : Nat) (x : Ctx) : (s.setCtx c x).arrivals = s.arrivals := rfl
@[simp] theorem State.setCtx_moment (s : State) (c : Nat) (x : Ctx) : (s.setCtx c x).moment = s.moment := rfl
@[simp] theorem State.setCtx_hist (s : State) (c : Nat) (x : Ctx) : (s.setCtx c x).hist = s.hist := rfl
@[simp] theorem State.setCtx_rels (s : State) (c : Nat) (x : Ctx) : (s.setCtx c x).rels = s.rels := rfl
@[simp] theorem State.setCtx_enqueues (s : State) (c : Nat) (x : Ctx) : (s.setCtx c x).enqueues = s.enqueues := rfl
@[simp] theorem State.setCtx_links (s : State) (c : Nat) (x : Ctx) : (s.setCtx c x).links = s.links := rfl
@[simp] theorem State.setCtx_tpw (s : State) (c : Nat) (x : Ctx) : (s.setCtx c x).tpw = s.tpw := rfl
@[simp] theorem State.setCtx_pcool (s : State) (c : Nat) (x : Ctx) : (s.setCtx c x).pcool = s.pcool := rfl
@[simp] theorem State.setCtx_levelled (s : State) (c : Nat) (x : Ctx) : (s.setCtx c x).levelled = s.levelled := rfl
@[simp] theorem State.setCtx_mgmt (s : State) (c : Nat) (x : Ctx) : (s.setCtx c x).mgmt = s.mgmt := rfl
@[simp] theorem State.setCtx_dbg (s : State) (c : Nat) (x : Ctx) : (s.setCtx c x).dbg = s.dbg := rfl
@[simp] theorem State.setCtx_snap (s : State) (c : Nat) (x : Ctx) : (s.setCtx c x).snap = s.snap := rfl
@[simp] theorem State.setCtx_agenda (s : State) (c : Nat) (x : Ctx) : (s.setCtx c x).agenda = s.agenda := rfl
@[simp] theorem State.setCtx_iss (s : State) (c : Nat) (x : Ctx) : (s.setCtx c x).iss = s.iss := rfl
@[simp] theorem State.setCtx_freeN (s : State) (c : Nat) (x : Ctx) : (s.setCtx c x).freeN = s.freeN := rfl
@[simp] theorem State.setCtx_epoch (s : State) (c : Nat) (x : Ctx) : (s.setCtx c x).epoch = s.epoch := rfl
@[simp] theorem State.setCtx_nextId (s : State) (c : Nat) (x : Ctx) : (s.setCtx c x).nextId = s.nextId := rfl

/-! ## State.setDie -/

@[simp] theorem State.setDie_tick (s : State) (d : Nat) (x : Die) : (s.setDie d x).tick = s.tick := rfl
@[simp] theorem State.setDie_taken (s : State) (d : Nat) (x : Die) : (s.setDie d x).taken = s.taken := rfl
@[simp] theorem State.setDie_stopped (s : State) (d : Nat) (x : Die) : (s.setDie d x).stopped = s.stopped := rfl
@[simp] theorem State.setDie_dev (s : State) (d : Nat) (x : Die) : (s.setDie d x).dev = s.dev := rfl
@[simp] theorem State.setDie_hostMem (s : State) (d : Nat) (x : Die) : (s.setDie d x).hostMem = s.hostMem := rfl
@[simp] theorem State.setDie_peerMem (s : State) (d : Nat) (x : Die) : (s.setDie d x).peerMem = s.peerMem := rfl
@[simp] theorem State.setDie_walks (s : State) (d : Nat) (x : Die) : (s.setDie d x).walks = s.walks := rfl
@[simp] theorem State.setDie_lines (s : State) (d : Nat) (x : Die) : (s.setDie d x).lines = s.lines := rfl
@[simp] theorem State.setDie_coreLines (s : State) (d : Nat) (x : Die) : (s.setDie d x).coreLines = s.coreLines := rfl
@[simp] theorem State.setDie_up (s : State) (d : Nat) (x : Die) : (s.setDie d x).up = s.up := rfl
@[simp] theorem State.setDie_remap (s : State) (d : Nat) (x : Die) : (s.setDie d x).remap = s.remap := rfl
@[simp] theorem State.setDie_merges (s : State) (d : Nat) (x : Die) : (s.setDie d x).merges = s.merges := rfl
@[simp] theorem State.setDie_inval (s : State) (d : Nat) (x : Die) : (s.setDie d x).inval = s.inval := rfl
@[simp] theorem State.setDie_ctl (s : State) (d : Nat) (x : Die) : (s.setDie d x).ctl = s.ctl := rfl
@[simp] theorem State.setDie_cores (s : State) (d : Nat) (x : Die) : (s.setDie d x).cores = s.cores := rfl
@[simp] theorem State.setDie_layers (s : State) (d : Nat) (x : Die) : (s.setDie d x).layers = s.layers := rfl
@[simp] theorem State.setDie_clusters (s : State) (d : Nat) (x : Die) : (s.setDie d x).clusters = s.clusters := rfl
@[simp] theorem State.setDie_dies (s : State) (d : Nat) (x : Die) : (s.setDie d x).dies = s.dies.set d x := rfl
@[simp] theorem State.setDie_ctxs (s : State) (d : Nat) (x : Die) : (s.setDie d x).ctxs = s.ctxs := rfl
@[simp] theorem State.setDie_queues (s : State) (d : Nat) (x : Die) : (s.setDie d x).queues = s.queues := rfl
@[simp] theorem State.setDie_tasks (s : State) (d : Nat) (x : Die) : (s.setDie d x).tasks = s.tasks := rfl
@[simp] theorem State.setDie_crews (s : State) (d : Nat) (x : Die) : (s.setDie d x).crews = s.crews := rfl
@[simp] theorem State.setDie_waves (s : State) (d : Nat) (x : Die) : (s.setDie d x).waves = s.waves := rfl
@[simp] theorem State.setDie_arrivals (s : State) (d : Nat) (x : Die) : (s.setDie d x).arrivals = s.arrivals := rfl
@[simp] theorem State.setDie_moment (s : State) (d : Nat) (x : Die) : (s.setDie d x).moment = s.moment := rfl
@[simp] theorem State.setDie_hist (s : State) (d : Nat) (x : Die) : (s.setDie d x).hist = s.hist := rfl
@[simp] theorem State.setDie_rels (s : State) (d : Nat) (x : Die) : (s.setDie d x).rels = s.rels := rfl
@[simp] theorem State.setDie_enqueues (s : State) (d : Nat) (x : Die) : (s.setDie d x).enqueues = s.enqueues := rfl
@[simp] theorem State.setDie_links (s : State) (d : Nat) (x : Die) : (s.setDie d x).links = s.links := rfl
@[simp] theorem State.setDie_tpw (s : State) (d : Nat) (x : Die) : (s.setDie d x).tpw = s.tpw := rfl
@[simp] theorem State.setDie_pcool (s : State) (d : Nat) (x : Die) : (s.setDie d x).pcool = s.pcool := rfl
@[simp] theorem State.setDie_levelled (s : State) (d : Nat) (x : Die) : (s.setDie d x).levelled = s.levelled := rfl
@[simp] theorem State.setDie_mgmt (s : State) (d : Nat) (x : Die) : (s.setDie d x).mgmt = s.mgmt := rfl
@[simp] theorem State.setDie_dbg (s : State) (d : Nat) (x : Die) : (s.setDie d x).dbg = s.dbg := rfl
@[simp] theorem State.setDie_snap (s : State) (d : Nat) (x : Die) : (s.setDie d x).snap = s.snap := rfl
@[simp] theorem State.setDie_agenda (s : State) (d : Nat) (x : Die) : (s.setDie d x).agenda = s.agenda := rfl
@[simp] theorem State.setDie_iss (s : State) (d : Nat) (x : Die) : (s.setDie d x).iss = s.iss := rfl
@[simp] theorem State.setDie_freeN (s : State) (d : Nat) (x : Die) : (s.setDie d x).freeN = s.freeN := rfl
@[simp] theorem State.setDie_epoch (s : State) (d : Nat) (x : Die) : (s.setDie d x).epoch = s.epoch := rfl
@[simp] theorem State.setDie_nextId (s : State) (d : Nat) (x : Die) : (s.setDie d x).nextId = s.nextId := rfl

/-! ## State.setCluster -/

@[simp] theorem State.setCluster_tick (s : State) (c : Nat) (x : Cluster) : (s.setCluster c x).tick = s.tick := rfl
@[simp] theorem State.setCluster_taken (s : State) (c : Nat) (x : Cluster) : (s.setCluster c x).taken = s.taken := rfl
@[simp] theorem State.setCluster_stopped (s : State) (c : Nat) (x : Cluster) : (s.setCluster c x).stopped = s.stopped := rfl
@[simp] theorem State.setCluster_dev (s : State) (c : Nat) (x : Cluster) : (s.setCluster c x).dev = s.dev := rfl
@[simp] theorem State.setCluster_hostMem (s : State) (c : Nat) (x : Cluster) : (s.setCluster c x).hostMem = s.hostMem := rfl
@[simp] theorem State.setCluster_peerMem (s : State) (c : Nat) (x : Cluster) : (s.setCluster c x).peerMem = s.peerMem := rfl
@[simp] theorem State.setCluster_walks (s : State) (c : Nat) (x : Cluster) : (s.setCluster c x).walks = s.walks := rfl
@[simp] theorem State.setCluster_lines (s : State) (c : Nat) (x : Cluster) : (s.setCluster c x).lines = s.lines := rfl
@[simp] theorem State.setCluster_coreLines (s : State) (c : Nat) (x : Cluster) : (s.setCluster c x).coreLines = s.coreLines := rfl
@[simp] theorem State.setCluster_up (s : State) (c : Nat) (x : Cluster) : (s.setCluster c x).up = s.up := rfl
@[simp] theorem State.setCluster_remap (s : State) (c : Nat) (x : Cluster) : (s.setCluster c x).remap = s.remap := rfl
@[simp] theorem State.setCluster_merges (s : State) (c : Nat) (x : Cluster) : (s.setCluster c x).merges = s.merges := rfl
@[simp] theorem State.setCluster_inval (s : State) (c : Nat) (x : Cluster) : (s.setCluster c x).inval = s.inval := rfl
@[simp] theorem State.setCluster_ctl (s : State) (c : Nat) (x : Cluster) : (s.setCluster c x).ctl = s.ctl := rfl
@[simp] theorem State.setCluster_cores (s : State) (c : Nat) (x : Cluster) : (s.setCluster c x).cores = s.cores := rfl
@[simp] theorem State.setCluster_layers (s : State) (c : Nat) (x : Cluster) : (s.setCluster c x).layers = s.layers := rfl
@[simp] theorem State.setCluster_clusters (s : State) (c : Nat) (x : Cluster) : (s.setCluster c x).clusters = s.clusters.set c x := rfl
@[simp] theorem State.setCluster_dies (s : State) (c : Nat) (x : Cluster) : (s.setCluster c x).dies = s.dies := rfl
@[simp] theorem State.setCluster_ctxs (s : State) (c : Nat) (x : Cluster) : (s.setCluster c x).ctxs = s.ctxs := rfl
@[simp] theorem State.setCluster_queues (s : State) (c : Nat) (x : Cluster) : (s.setCluster c x).queues = s.queues := rfl
@[simp] theorem State.setCluster_tasks (s : State) (c : Nat) (x : Cluster) : (s.setCluster c x).tasks = s.tasks := rfl
@[simp] theorem State.setCluster_crews (s : State) (c : Nat) (x : Cluster) : (s.setCluster c x).crews = s.crews := rfl
@[simp] theorem State.setCluster_waves (s : State) (c : Nat) (x : Cluster) : (s.setCluster c x).waves = s.waves := rfl
@[simp] theorem State.setCluster_arrivals (s : State) (c : Nat) (x : Cluster) : (s.setCluster c x).arrivals = s.arrivals := rfl
@[simp] theorem State.setCluster_moment (s : State) (c : Nat) (x : Cluster) : (s.setCluster c x).moment = s.moment := rfl
@[simp] theorem State.setCluster_hist (s : State) (c : Nat) (x : Cluster) : (s.setCluster c x).hist = s.hist := rfl
@[simp] theorem State.setCluster_rels (s : State) (c : Nat) (x : Cluster) : (s.setCluster c x).rels = s.rels := rfl
@[simp] theorem State.setCluster_enqueues (s : State) (c : Nat) (x : Cluster) : (s.setCluster c x).enqueues = s.enqueues := rfl
@[simp] theorem State.setCluster_links (s : State) (c : Nat) (x : Cluster) : (s.setCluster c x).links = s.links := rfl
@[simp] theorem State.setCluster_tpw (s : State) (c : Nat) (x : Cluster) : (s.setCluster c x).tpw = s.tpw := rfl
@[simp] theorem State.setCluster_pcool (s : State) (c : Nat) (x : Cluster) : (s.setCluster c x).pcool = s.pcool := rfl
@[simp] theorem State.setCluster_levelled (s : State) (c : Nat) (x : Cluster) : (s.setCluster c x).levelled = s.levelled := rfl
@[simp] theorem State.setCluster_mgmt (s : State) (c : Nat) (x : Cluster) : (s.setCluster c x).mgmt = s.mgmt := rfl
@[simp] theorem State.setCluster_dbg (s : State) (c : Nat) (x : Cluster) : (s.setCluster c x).dbg = s.dbg := rfl
@[simp] theorem State.setCluster_snap (s : State) (c : Nat) (x : Cluster) : (s.setCluster c x).snap = s.snap := rfl
@[simp] theorem State.setCluster_agenda (s : State) (c : Nat) (x : Cluster) : (s.setCluster c x).agenda = s.agenda := rfl
@[simp] theorem State.setCluster_iss (s : State) (c : Nat) (x : Cluster) : (s.setCluster c x).iss = s.iss := rfl
@[simp] theorem State.setCluster_freeN (s : State) (c : Nat) (x : Cluster) : (s.setCluster c x).freeN = s.freeN := rfl
@[simp] theorem State.setCluster_epoch (s : State) (c : Nat) (x : Cluster) : (s.setCluster c x).epoch = s.epoch := rfl
@[simp] theorem State.setCluster_nextId (s : State) (c : Nat) (x : Cluster) : (s.setCluster c x).nextId = s.nextId := rfl

/-! ## State.setSubq -/

@[simp] theorem State.setSubq_tick (s : State) (q : Nat) (x : SubQ) : (s.setSubq q x).tick = s.tick := rfl
@[simp] theorem State.setSubq_taken (s : State) (q : Nat) (x : SubQ) : (s.setSubq q x).taken = s.taken := rfl
@[simp] theorem State.setSubq_stopped (s : State) (q : Nat) (x : SubQ) : (s.setSubq q x).stopped = s.stopped := rfl
@[simp] theorem State.setSubq_dev (s : State) (q : Nat) (x : SubQ) : (s.setSubq q x).dev = s.dev := rfl
@[simp] theorem State.setSubq_hostMem (s : State) (q : Nat) (x : SubQ) : (s.setSubq q x).hostMem = s.hostMem := rfl
@[simp] theorem State.setSubq_peerMem (s : State) (q : Nat) (x : SubQ) : (s.setSubq q x).peerMem = s.peerMem := rfl
@[simp] theorem State.setSubq_walks (s : State) (q : Nat) (x : SubQ) : (s.setSubq q x).walks = s.walks := rfl
@[simp] theorem State.setSubq_lines (s : State) (q : Nat) (x : SubQ) : (s.setSubq q x).lines = s.lines := rfl
@[simp] theorem State.setSubq_coreLines (s : State) (q : Nat) (x : SubQ) : (s.setSubq q x).coreLines = s.coreLines := rfl
@[simp] theorem State.setSubq_up (s : State) (q : Nat) (x : SubQ) : (s.setSubq q x).up = s.up := rfl
@[simp] theorem State.setSubq_remap (s : State) (q : Nat) (x : SubQ) : (s.setSubq q x).remap = s.remap := rfl
@[simp] theorem State.setSubq_merges (s : State) (q : Nat) (x : SubQ) : (s.setSubq q x).merges = s.merges := rfl
@[simp] theorem State.setSubq_inval (s : State) (q : Nat) (x : SubQ) : (s.setSubq q x).inval = s.inval := rfl
@[simp] theorem State.setSubq_ctl (s : State) (q : Nat) (x : SubQ) : (s.setSubq q x).ctl = s.ctl := rfl
@[simp] theorem State.setSubq_cores (s : State) (q : Nat) (x : SubQ) : (s.setSubq q x).cores = s.cores := rfl
@[simp] theorem State.setSubq_layers (s : State) (q : Nat) (x : SubQ) : (s.setSubq q x).layers = s.layers := rfl
@[simp] theorem State.setSubq_clusters (s : State) (q : Nat) (x : SubQ) : (s.setSubq q x).clusters = s.clusters := rfl
@[simp] theorem State.setSubq_dies (s : State) (q : Nat) (x : SubQ) : (s.setSubq q x).dies = s.dies := rfl
@[simp] theorem State.setSubq_ctxs (s : State) (q : Nat) (x : SubQ) : (s.setSubq q x).ctxs = s.ctxs := rfl
@[simp] theorem State.setSubq_queues (s : State) (q : Nat) (x : SubQ) : (s.setSubq q x).queues = s.queues.set q x := rfl
@[simp] theorem State.setSubq_tasks (s : State) (q : Nat) (x : SubQ) : (s.setSubq q x).tasks = s.tasks := rfl
@[simp] theorem State.setSubq_crews (s : State) (q : Nat) (x : SubQ) : (s.setSubq q x).crews = s.crews := rfl
@[simp] theorem State.setSubq_waves (s : State) (q : Nat) (x : SubQ) : (s.setSubq q x).waves = s.waves := rfl
@[simp] theorem State.setSubq_arrivals (s : State) (q : Nat) (x : SubQ) : (s.setSubq q x).arrivals = s.arrivals := rfl
@[simp] theorem State.setSubq_moment (s : State) (q : Nat) (x : SubQ) : (s.setSubq q x).moment = s.moment := rfl
@[simp] theorem State.setSubq_hist (s : State) (q : Nat) (x : SubQ) : (s.setSubq q x).hist = s.hist := rfl
@[simp] theorem State.setSubq_rels (s : State) (q : Nat) (x : SubQ) : (s.setSubq q x).rels = s.rels := rfl
@[simp] theorem State.setSubq_enqueues (s : State) (q : Nat) (x : SubQ) : (s.setSubq q x).enqueues = s.enqueues := rfl
@[simp] theorem State.setSubq_links (s : State) (q : Nat) (x : SubQ) : (s.setSubq q x).links = s.links := rfl
@[simp] theorem State.setSubq_tpw (s : State) (q : Nat) (x : SubQ) : (s.setSubq q x).tpw = s.tpw := rfl
@[simp] theorem State.setSubq_pcool (s : State) (q : Nat) (x : SubQ) : (s.setSubq q x).pcool = s.pcool := rfl
@[simp] theorem State.setSubq_levelled (s : State) (q : Nat) (x : SubQ) : (s.setSubq q x).levelled = s.levelled := rfl
@[simp] theorem State.setSubq_mgmt (s : State) (q : Nat) (x : SubQ) : (s.setSubq q x).mgmt = s.mgmt := rfl
@[simp] theorem State.setSubq_dbg (s : State) (q : Nat) (x : SubQ) : (s.setSubq q x).dbg = s.dbg := rfl
@[simp] theorem State.setSubq_snap (s : State) (q : Nat) (x : SubQ) : (s.setSubq q x).snap = s.snap := rfl
@[simp] theorem State.setSubq_agenda (s : State) (q : Nat) (x : SubQ) : (s.setSubq q x).agenda = s.agenda := rfl
@[simp] theorem State.setSubq_iss (s : State) (q : Nat) (x : SubQ) : (s.setSubq q x).iss = s.iss := rfl
@[simp] theorem State.setSubq_freeN (s : State) (q : Nat) (x : SubQ) : (s.setSubq q x).freeN = s.freeN := rfl
@[simp] theorem State.setSubq_epoch (s : State) (q : Nat) (x : SubQ) : (s.setSubq q x).epoch = s.epoch := rfl
@[simp] theorem State.setSubq_nextId (s : State) (q : Nat) (x : SubQ) : (s.setSubq q x).nextId = s.nextId := rfl

/-! ## State.setCore -/

@[simp] theorem State.setCore_tick (s : State) (c : Nat) (x : Core) : (s.setCore c x).tick = s.tick := rfl
@[simp] theorem State.setCore_taken (s : State) (c : Nat) (x : Core) : (s.setCore c x).taken = s.taken := rfl
@[simp] theorem State.setCore_stopped (s : State) (c : Nat) (x : Core) : (s.setCore c x).stopped = s.stopped := rfl
@[simp] theorem State.setCore_dev (s : State) (c : Nat) (x : Core) : (s.setCore c x).dev = s.dev := rfl
@[simp] theorem State.setCore_hostMem (s : State) (c : Nat) (x : Core) : (s.setCore c x).hostMem = s.hostMem := rfl
@[simp] theorem State.setCore_peerMem (s : State) (c : Nat) (x : Core) : (s.setCore c x).peerMem = s.peerMem := rfl
@[simp] theorem State.setCore_walks (s : State) (c : Nat) (x : Core) : (s.setCore c x).walks = s.walks := rfl
@[simp] theorem State.setCore_lines (s : State) (c : Nat) (x : Core) : (s.setCore c x).lines = s.lines := rfl
@[simp] theorem State.setCore_coreLines (s : State) (c : Nat) (x : Core) : (s.setCore c x).coreLines = s.coreLines := rfl
@[simp] theorem State.setCore_up (s : State) (c : Nat) (x : Core) : (s.setCore c x).up = s.up := rfl
@[simp] theorem State.setCore_remap (s : State) (c : Nat) (x : Core) : (s.setCore c x).remap = s.remap := rfl
@[simp] theorem State.setCore_merges (s : State) (c : Nat) (x : Core) : (s.setCore c x).merges = s.merges := rfl
@[simp] theorem State.setCore_inval (s : State) (c : Nat) (x : Core) : (s.setCore c x).inval = s.inval := rfl
@[simp] theorem State.setCore_ctl (s : State) (c : Nat) (x : Core) : (s.setCore c x).ctl = s.ctl := rfl
@[simp] theorem State.setCore_cores (s : State) (c : Nat) (x : Core) : (s.setCore c x).cores = s.cores.set c x := rfl
@[simp] theorem State.setCore_layers (s : State) (c : Nat) (x : Core) : (s.setCore c x).layers = s.layers := rfl
@[simp] theorem State.setCore_clusters (s : State) (c : Nat) (x : Core) : (s.setCore c x).clusters = s.clusters := rfl
@[simp] theorem State.setCore_dies (s : State) (c : Nat) (x : Core) : (s.setCore c x).dies = s.dies := rfl
@[simp] theorem State.setCore_ctxs (s : State) (c : Nat) (x : Core) : (s.setCore c x).ctxs = s.ctxs := rfl
@[simp] theorem State.setCore_queues (s : State) (c : Nat) (x : Core) : (s.setCore c x).queues = s.queues := rfl
@[simp] theorem State.setCore_tasks (s : State) (c : Nat) (x : Core) : (s.setCore c x).tasks = s.tasks := rfl
@[simp] theorem State.setCore_crews (s : State) (c : Nat) (x : Core) : (s.setCore c x).crews = s.crews := rfl
@[simp] theorem State.setCore_waves (s : State) (c : Nat) (x : Core) : (s.setCore c x).waves = s.waves := rfl
@[simp] theorem State.setCore_arrivals (s : State) (c : Nat) (x : Core) : (s.setCore c x).arrivals = s.arrivals := rfl
@[simp] theorem State.setCore_moment (s : State) (c : Nat) (x : Core) : (s.setCore c x).moment = s.moment := rfl
@[simp] theorem State.setCore_hist (s : State) (c : Nat) (x : Core) : (s.setCore c x).hist = s.hist := rfl
@[simp] theorem State.setCore_rels (s : State) (c : Nat) (x : Core) : (s.setCore c x).rels = s.rels := rfl
@[simp] theorem State.setCore_enqueues (s : State) (c : Nat) (x : Core) : (s.setCore c x).enqueues = s.enqueues := rfl
@[simp] theorem State.setCore_links (s : State) (c : Nat) (x : Core) : (s.setCore c x).links = s.links := rfl
@[simp] theorem State.setCore_tpw (s : State) (c : Nat) (x : Core) : (s.setCore c x).tpw = s.tpw := rfl
@[simp] theorem State.setCore_pcool (s : State) (c : Nat) (x : Core) : (s.setCore c x).pcool = s.pcool := rfl
@[simp] theorem State.setCore_levelled (s : State) (c : Nat) (x : Core) : (s.setCore c x).levelled = s.levelled := rfl
@[simp] theorem State.setCore_mgmt (s : State) (c : Nat) (x : Core) : (s.setCore c x).mgmt = s.mgmt := rfl
@[simp] theorem State.setCore_dbg (s : State) (c : Nat) (x : Core) : (s.setCore c x).dbg = s.dbg := rfl
@[simp] theorem State.setCore_snap (s : State) (c : Nat) (x : Core) : (s.setCore c x).snap = s.snap := rfl
@[simp] theorem State.setCore_agenda (s : State) (c : Nat) (x : Core) : (s.setCore c x).agenda = s.agenda := rfl
@[simp] theorem State.setCore_iss (s : State) (c : Nat) (x : Core) : (s.setCore c x).iss = s.iss := rfl
@[simp] theorem State.setCore_freeN (s : State) (c : Nat) (x : Core) : (s.setCore c x).freeN = s.freeN := rfl
@[simp] theorem State.setCore_epoch (s : State) (c : Nat) (x : Core) : (s.setCore c x).epoch = s.epoch := rfl
@[simp] theorem State.setCore_nextId (s : State) (c : Nat) (x : Core) : (s.setCore c x).nextId = s.nextId := rfl

/-! ## State.setReg -/

@[simp] theorem State.setReg_tick (s : State) (r : Reg) (v : Dword) : (s.setReg r v).tick = s.tick := rfl
@[simp] theorem State.setReg_taken (s : State) (r : Reg) (v : Dword) : (s.setReg r v).taken = s.taken := rfl
@[simp] theorem State.setReg_stopped (s : State) (r : Reg) (v : Dword) : (s.setReg r v).stopped = s.stopped := rfl
@[simp] theorem State.setReg_dev (s : State) (r : Reg) (v : Dword) : (s.setReg r v).dev = s.dev := rfl
@[simp] theorem State.setReg_hostMem (s : State) (r : Reg) (v : Dword) : (s.setReg r v).hostMem = s.hostMem := rfl
@[simp] theorem State.setReg_peerMem (s : State) (r : Reg) (v : Dword) : (s.setReg r v).peerMem = s.peerMem := rfl
@[simp] theorem State.setReg_walks (s : State) (r : Reg) (v : Dword) : (s.setReg r v).walks = s.walks := rfl
@[simp] theorem State.setReg_lines (s : State) (r : Reg) (v : Dword) : (s.setReg r v).lines = s.lines := rfl
@[simp] theorem State.setReg_coreLines (s : State) (r : Reg) (v : Dword) : (s.setReg r v).coreLines = s.coreLines := rfl
@[simp] theorem State.setReg_up (s : State) (r : Reg) (v : Dword) : (s.setReg r v).up = s.up := rfl
@[simp] theorem State.setReg_remap (s : State) (r : Reg) (v : Dword) : (s.setReg r v).remap = s.remap := rfl
@[simp] theorem State.setReg_merges (s : State) (r : Reg) (v : Dword) : (s.setReg r v).merges = s.merges := rfl
@[simp] theorem State.setReg_inval (s : State) (r : Reg) (v : Dword) : (s.setReg r v).inval = s.inval := rfl
@[simp] theorem State.setReg_ctl (s : State) (r : Reg) (v : Dword) : (s.setReg r v).ctl = putKey s.ctl r.index v := rfl
@[simp] theorem State.setReg_cores (s : State) (r : Reg) (v : Dword) : (s.setReg r v).cores = s.cores := rfl
@[simp] theorem State.setReg_layers (s : State) (r : Reg) (v : Dword) : (s.setReg r v).layers = s.layers := rfl
@[simp] theorem State.setReg_clusters (s : State) (r : Reg) (v : Dword) : (s.setReg r v).clusters = s.clusters := rfl
@[simp] theorem State.setReg_dies (s : State) (r : Reg) (v : Dword) : (s.setReg r v).dies = s.dies := rfl
@[simp] theorem State.setReg_ctxs (s : State) (r : Reg) (v : Dword) : (s.setReg r v).ctxs = s.ctxs := rfl
@[simp] theorem State.setReg_queues (s : State) (r : Reg) (v : Dword) : (s.setReg r v).queues = s.queues := rfl
@[simp] theorem State.setReg_tasks (s : State) (r : Reg) (v : Dword) : (s.setReg r v).tasks = s.tasks := rfl
@[simp] theorem State.setReg_crews (s : State) (r : Reg) (v : Dword) : (s.setReg r v).crews = s.crews := rfl
@[simp] theorem State.setReg_waves (s : State) (r : Reg) (v : Dword) : (s.setReg r v).waves = s.waves := rfl
@[simp] theorem State.setReg_arrivals (s : State) (r : Reg) (v : Dword) : (s.setReg r v).arrivals = s.arrivals := rfl
@[simp] theorem State.setReg_moment (s : State) (r : Reg) (v : Dword) : (s.setReg r v).moment = s.moment := rfl
@[simp] theorem State.setReg_hist (s : State) (r : Reg) (v : Dword) : (s.setReg r v).hist = s.hist := rfl
@[simp] theorem State.setReg_rels (s : State) (r : Reg) (v : Dword) : (s.setReg r v).rels = s.rels := rfl
@[simp] theorem State.setReg_enqueues (s : State) (r : Reg) (v : Dword) : (s.setReg r v).enqueues = s.enqueues := rfl
@[simp] theorem State.setReg_links (s : State) (r : Reg) (v : Dword) : (s.setReg r v).links = s.links := rfl
@[simp] theorem State.setReg_tpw (s : State) (r : Reg) (v : Dword) : (s.setReg r v).tpw = s.tpw := rfl
@[simp] theorem State.setReg_pcool (s : State) (r : Reg) (v : Dword) : (s.setReg r v).pcool = s.pcool := rfl
@[simp] theorem State.setReg_levelled (s : State) (r : Reg) (v : Dword) : (s.setReg r v).levelled = s.levelled := rfl
@[simp] theorem State.setReg_mgmt (s : State) (r : Reg) (v : Dword) : (s.setReg r v).mgmt = s.mgmt := rfl
@[simp] theorem State.setReg_dbg (s : State) (r : Reg) (v : Dword) : (s.setReg r v).dbg = s.dbg := rfl
@[simp] theorem State.setReg_snap (s : State) (r : Reg) (v : Dword) : (s.setReg r v).snap = s.snap := rfl
@[simp] theorem State.setReg_agenda (s : State) (r : Reg) (v : Dword) : (s.setReg r v).agenda = s.agenda := rfl
@[simp] theorem State.setReg_iss (s : State) (r : Reg) (v : Dword) : (s.setReg r v).iss = s.iss := rfl
@[simp] theorem State.setReg_freeN (s : State) (r : Reg) (v : Dword) : (s.setReg r v).freeN = s.freeN := rfl
@[simp] theorem State.setReg_epoch (s : State) (r : Reg) (v : Dword) : (s.setReg r v).epoch = s.epoch := rfl
@[simp] theorem State.setReg_nextId (s : State) (r : Reg) (v : Dword) : (s.setReg r v).nextId = s.nextId := rfl

/-! ## State.setField -/

@[simp] theorem State.setField_tick (s : State) (r : Reg) (lo n v : Nat) : (s.setField r lo n v).tick = s.tick := rfl
@[simp] theorem State.setField_taken (s : State) (r : Reg) (lo n v : Nat) : (s.setField r lo n v).taken = s.taken := rfl
@[simp] theorem State.setField_stopped (s : State) (r : Reg) (lo n v : Nat) : (s.setField r lo n v).stopped = s.stopped := rfl
@[simp] theorem State.setField_dev (s : State) (r : Reg) (lo n v : Nat) : (s.setField r lo n v).dev = s.dev := rfl
@[simp] theorem State.setField_hostMem (s : State) (r : Reg) (lo n v : Nat) : (s.setField r lo n v).hostMem = s.hostMem := rfl
@[simp] theorem State.setField_peerMem (s : State) (r : Reg) (lo n v : Nat) : (s.setField r lo n v).peerMem = s.peerMem := rfl
@[simp] theorem State.setField_walks (s : State) (r : Reg) (lo n v : Nat) : (s.setField r lo n v).walks = s.walks := rfl
@[simp] theorem State.setField_lines (s : State) (r : Reg) (lo n v : Nat) : (s.setField r lo n v).lines = s.lines := rfl
@[simp] theorem State.setField_coreLines (s : State) (r : Reg) (lo n v : Nat) : (s.setField r lo n v).coreLines = s.coreLines := rfl
@[simp] theorem State.setField_up (s : State) (r : Reg) (lo n v : Nat) : (s.setField r lo n v).up = s.up := rfl
@[simp] theorem State.setField_remap (s : State) (r : Reg) (lo n v : Nat) : (s.setField r lo n v).remap = s.remap := rfl
@[simp] theorem State.setField_merges (s : State) (r : Reg) (lo n v : Nat) : (s.setField r lo n v).merges = s.merges := rfl
@[simp] theorem State.setField_inval (s : State) (r : Reg) (lo n v : Nat) : (s.setField r lo n v).inval = s.inval := rfl
@[simp] theorem State.setField_cores (s : State) (r : Reg) (lo n v : Nat) : (s.setField r lo n v).cores = s.cores := rfl
@[simp] theorem State.setField_layers (s : State) (r : Reg) (lo n v : Nat) : (s.setField r lo n v).layers = s.layers := rfl
@[simp] theorem State.setField_clusters (s : State) (r : Reg) (lo n v : Nat) : (s.setField r lo n v).clusters = s.clusters := rfl
@[simp] theorem State.setField_dies (s : State) (r : Reg) (lo n v : Nat) : (s.setField r lo n v).dies = s.dies := rfl
@[simp] theorem State.setField_ctxs (s : State) (r : Reg) (lo n v : Nat) : (s.setField r lo n v).ctxs = s.ctxs := rfl
@[simp] theorem State.setField_queues (s : State) (r : Reg) (lo n v : Nat) : (s.setField r lo n v).queues = s.queues := rfl
@[simp] theorem State.setField_tasks (s : State) (r : Reg) (lo n v : Nat) : (s.setField r lo n v).tasks = s.tasks := rfl
@[simp] theorem State.setField_crews (s : State) (r : Reg) (lo n v : Nat) : (s.setField r lo n v).crews = s.crews := rfl
@[simp] theorem State.setField_waves (s : State) (r : Reg) (lo n v : Nat) : (s.setField r lo n v).waves = s.waves := rfl
@[simp] theorem State.setField_arrivals (s : State) (r : Reg) (lo n v : Nat) : (s.setField r lo n v).arrivals = s.arrivals := rfl
@[simp] theorem State.setField_moment (s : State) (r : Reg) (lo n v : Nat) : (s.setField r lo n v).moment = s.moment := rfl
@[simp] theorem State.setField_hist (s : State) (r : Reg) (lo n v : Nat) : (s.setField r lo n v).hist = s.hist := rfl
@[simp] theorem State.setField_rels (s : State) (r : Reg) (lo n v : Nat) : (s.setField r lo n v).rels = s.rels := rfl
@[simp] theorem State.setField_enqueues (s : State) (r : Reg) (lo n v : Nat) : (s.setField r lo n v).enqueues = s.enqueues := rfl
@[simp] theorem State.setField_links (s : State) (r : Reg) (lo n v : Nat) : (s.setField r lo n v).links = s.links := rfl
@[simp] theorem State.setField_tpw (s : State) (r : Reg) (lo n v : Nat) : (s.setField r lo n v).tpw = s.tpw := rfl
@[simp] theorem State.setField_pcool (s : State) (r : Reg) (lo n v : Nat) : (s.setField r lo n v).pcool = s.pcool := rfl
@[simp] theorem State.setField_levelled (s : State) (r : Reg) (lo n v : Nat) : (s.setField r lo n v).levelled = s.levelled := rfl
@[simp] theorem State.setField_mgmt (s : State) (r : Reg) (lo n v : Nat) : (s.setField r lo n v).mgmt = s.mgmt := rfl
@[simp] theorem State.setField_dbg (s : State) (r : Reg) (lo n v : Nat) : (s.setField r lo n v).dbg = s.dbg := rfl
@[simp] theorem State.setField_snap (s : State) (r : Reg) (lo n v : Nat) : (s.setField r lo n v).snap = s.snap := rfl
@[simp] theorem State.setField_agenda (s : State) (r : Reg) (lo n v : Nat) : (s.setField r lo n v).agenda = s.agenda := rfl
@[simp] theorem State.setField_iss (s : State) (r : Reg) (lo n v : Nat) : (s.setField r lo n v).iss = s.iss := rfl
@[simp] theorem State.setField_freeN (s : State) (r : Reg) (lo n v : Nat) : (s.setField r lo n v).freeN = s.freeN := rfl
@[simp] theorem State.setField_epoch (s : State) (r : Reg) (lo n v : Nat) : (s.setField r lo n v).epoch = s.epoch := rfl
@[simp] theorem State.setField_nextId (s : State) (r : Reg) (lo n v : Nat) : (s.setField r lo n v).nextId = s.nextId := rfl

/-! ## State.stopIssue -/

@[simp] theorem State.stopIssue_tick (s : State) : (s.stopIssue).tick = s.tick := rfl
@[simp] theorem State.stopIssue_taken (s : State) : (s.stopIssue).taken = s.taken := rfl
@[simp] theorem State.stopIssue_stopped (s : State) : (s.stopIssue).stopped = s.stopped := rfl
@[simp] theorem State.stopIssue_dev (s : State) : (s.stopIssue).dev = s.dev := rfl
@[simp] theorem State.stopIssue_hostMem (s : State) : (s.stopIssue).hostMem = s.hostMem := rfl
@[simp] theorem State.stopIssue_peerMem (s : State) : (s.stopIssue).peerMem = s.peerMem := rfl
@[simp] theorem State.stopIssue_walks (s : State) : (s.stopIssue).walks = s.walks := rfl
@[simp] theorem State.stopIssue_lines (s : State) : (s.stopIssue).lines = s.lines := rfl
@[simp] theorem State.stopIssue_coreLines (s : State) : (s.stopIssue).coreLines = s.coreLines := rfl
@[simp] theorem State.stopIssue_up (s : State) : (s.stopIssue).up = s.up := rfl
@[simp] theorem State.stopIssue_remap (s : State) : (s.stopIssue).remap = s.remap := rfl
@[simp] theorem State.stopIssue_merges (s : State) : (s.stopIssue).merges = s.merges := rfl
@[simp] theorem State.stopIssue_inval (s : State) : (s.stopIssue).inval = s.inval := rfl
@[simp] theorem State.stopIssue_ctl (s : State) : (s.stopIssue).ctl = s.ctl := rfl
@[simp] theorem State.stopIssue_cores (s : State) : (s.stopIssue).cores = s.cores := rfl
@[simp] theorem State.stopIssue_layers (s : State) : (s.stopIssue).layers = s.layers := rfl
@[simp] theorem State.stopIssue_clusters (s : State) : (s.stopIssue).clusters = s.clusters := rfl
@[simp] theorem State.stopIssue_dies (s : State) : (s.stopIssue).dies = s.dies := rfl
@[simp] theorem State.stopIssue_ctxs (s : State) : (s.stopIssue).ctxs = s.ctxs := rfl
@[simp] theorem State.stopIssue_queues (s : State) : (s.stopIssue).queues = s.queues := rfl
@[simp] theorem State.stopIssue_tasks (s : State) : (s.stopIssue).tasks = s.tasks := rfl
@[simp] theorem State.stopIssue_crews (s : State) : (s.stopIssue).crews = s.crews := rfl
@[simp] theorem State.stopIssue_waves (s : State) : (s.stopIssue).waves = s.waves := rfl
@[simp] theorem State.stopIssue_arrivals (s : State) : (s.stopIssue).arrivals = s.arrivals := rfl
@[simp] theorem State.stopIssue_moment (s : State) : (s.stopIssue).moment = s.moment := rfl
@[simp] theorem State.stopIssue_hist (s : State) : (s.stopIssue).hist = s.hist := rfl
@[simp] theorem State.stopIssue_rels (s : State) : (s.stopIssue).rels = s.rels := rfl
@[simp] theorem State.stopIssue_enqueues (s : State) : (s.stopIssue).enqueues = s.enqueues := rfl
@[simp] theorem State.stopIssue_links (s : State) : (s.stopIssue).links = s.links := rfl
@[simp] theorem State.stopIssue_tpw (s : State) : (s.stopIssue).tpw = s.tpw := rfl
@[simp] theorem State.stopIssue_pcool (s : State) : (s.stopIssue).pcool = s.pcool := rfl
@[simp] theorem State.stopIssue_levelled (s : State) : (s.stopIssue).levelled = s.levelled := rfl
@[simp] theorem State.stopIssue_mgmt (s : State) : (s.stopIssue).mgmt = s.mgmt := rfl
@[simp] theorem State.stopIssue_dbg (s : State) : (s.stopIssue).dbg = s.dbg := rfl
@[simp] theorem State.stopIssue_snap (s : State) : (s.stopIssue).snap = s.snap := rfl
@[simp] theorem State.stopIssue_agenda (s : State) : (s.stopIssue).agenda = s.agenda := rfl
@[simp] theorem State.stopIssue_iss (s : State) : (s.stopIssue).iss = none := rfl
@[simp] theorem State.stopIssue_freeN (s : State) : (s.stopIssue).freeN = s.freeN := rfl
@[simp] theorem State.stopIssue_epoch (s : State) : (s.stopIssue).epoch = s.epoch := rfl
@[simp] theorem State.stopIssue_nextId (s : State) : (s.stopIssue).nextId = s.nextId := rfl

/-! ## State.setMem -/

@[simp] theorem State.setMem_tick (s : State) (p : Place) (m : Memory) : (s.setMem p m).tick = s.tick := by
  cases p <;> rfl
@[simp] theorem State.setMem_taken (s : State) (p : Place) (m : Memory) : (s.setMem p m).taken = s.taken := by
  cases p <;> rfl
@[simp] theorem State.setMem_stopped (s : State) (p : Place) (m : Memory) : (s.setMem p m).stopped = s.stopped := by
  cases p <;> rfl
@[simp] theorem State.setMem_walks (s : State) (p : Place) (m : Memory) : (s.setMem p m).walks = s.walks := by
  cases p <;> rfl
@[simp] theorem State.setMem_lines (s : State) (p : Place) (m : Memory) : (s.setMem p m).lines = s.lines := by
  cases p <;> rfl
@[simp] theorem State.setMem_coreLines (s : State) (p : Place) (m : Memory) : (s.setMem p m).coreLines = s.coreLines := by
  cases p <;> rfl
@[simp] theorem State.setMem_up (s : State) (p : Place) (m : Memory) : (s.setMem p m).up = s.up := by
  cases p <;> rfl
@[simp] theorem State.setMem_remap (s : State) (p : Place) (m : Memory) : (s.setMem p m).remap = s.remap := by
  cases p <;> rfl
@[simp] theorem State.setMem_merges (s : State) (p : Place) (m : Memory) : (s.setMem p m).merges = s.merges := by
  cases p <;> rfl
@[simp] theorem State.setMem_inval (s : State) (p : Place) (m : Memory) : (s.setMem p m).inval = s.inval := by
  cases p <;> rfl
@[simp] theorem State.setMem_ctl (s : State) (p : Place) (m : Memory) : (s.setMem p m).ctl = s.ctl := by
  cases p <;> rfl
@[simp] theorem State.setMem_layers (s : State) (p : Place) (m : Memory) : (s.setMem p m).layers = s.layers := by
  cases p <;> rfl
@[simp] theorem State.setMem_clusters (s : State) (p : Place) (m : Memory) : (s.setMem p m).clusters = s.clusters := by
  cases p <;> rfl
@[simp] theorem State.setMem_dies (s : State) (p : Place) (m : Memory) : (s.setMem p m).dies = s.dies := by
  cases p <;> rfl
@[simp] theorem State.setMem_ctxs (s : State) (p : Place) (m : Memory) : (s.setMem p m).ctxs = s.ctxs := by
  cases p <;> rfl
@[simp] theorem State.setMem_queues (s : State) (p : Place) (m : Memory) : (s.setMem p m).queues = s.queues := by
  cases p <;> rfl
@[simp] theorem State.setMem_tasks (s : State) (p : Place) (m : Memory) : (s.setMem p m).tasks = s.tasks := by
  cases p <;> rfl
@[simp] theorem State.setMem_crews (s : State) (p : Place) (m : Memory) : (s.setMem p m).crews = s.crews := by
  cases p <;> rfl
@[simp] theorem State.setMem_waves (s : State) (p : Place) (m : Memory) : (s.setMem p m).waves = s.waves := by
  cases p <;> rfl
@[simp] theorem State.setMem_arrivals (s : State) (p : Place) (m : Memory) : (s.setMem p m).arrivals = s.arrivals := by
  cases p <;> rfl
@[simp] theorem State.setMem_moment (s : State) (p : Place) (m : Memory) : (s.setMem p m).moment = s.moment := by
  cases p <;> rfl
@[simp] theorem State.setMem_hist (s : State) (p : Place) (m : Memory) : (s.setMem p m).hist = s.hist := by
  cases p <;> rfl
@[simp] theorem State.setMem_rels (s : State) (p : Place) (m : Memory) : (s.setMem p m).rels = s.rels := by
  cases p <;> rfl
@[simp] theorem State.setMem_enqueues (s : State) (p : Place) (m : Memory) : (s.setMem p m).enqueues = s.enqueues := by
  cases p <;> rfl
@[simp] theorem State.setMem_links (s : State) (p : Place) (m : Memory) : (s.setMem p m).links = s.links := by
  cases p <;> rfl
@[simp] theorem State.setMem_tpw (s : State) (p : Place) (m : Memory) : (s.setMem p m).tpw = s.tpw := by
  cases p <;> rfl
@[simp] theorem State.setMem_pcool (s : State) (p : Place) (m : Memory) : (s.setMem p m).pcool = s.pcool := by
  cases p <;> rfl
@[simp] theorem State.setMem_levelled (s : State) (p : Place) (m : Memory) : (s.setMem p m).levelled = s.levelled := by
  cases p <;> rfl
@[simp] theorem State.setMem_mgmt (s : State) (p : Place) (m : Memory) : (s.setMem p m).mgmt = s.mgmt := by
  cases p <;> rfl
@[simp] theorem State.setMem_dbg (s : State) (p : Place) (m : Memory) : (s.setMem p m).dbg = s.dbg := by
  cases p <;> rfl
@[simp] theorem State.setMem_snap (s : State) (p : Place) (m : Memory) : (s.setMem p m).snap = s.snap := by
  cases p <;> rfl
@[simp] theorem State.setMem_agenda (s : State) (p : Place) (m : Memory) : (s.setMem p m).agenda = s.agenda := by
  cases p <;> rfl
@[simp] theorem State.setMem_iss (s : State) (p : Place) (m : Memory) : (s.setMem p m).iss = s.iss := by
  cases p <;> rfl
@[simp] theorem State.setMem_freeN (s : State) (p : Place) (m : Memory) : (s.setMem p m).freeN = s.freeN := by
  cases p <;> rfl
@[simp] theorem State.setMem_epoch (s : State) (p : Place) (m : Memory) : (s.setMem p m).epoch = s.epoch := by
  cases p <;> rfl
@[simp] theorem State.setMem_nextId (s : State) (p : Place) (m : Memory) : (s.setMem p m).nextId = s.nextId := by
  cases p <;> rfl

end Sys2Proof.Machine
end

