-- ==== Sys2Proof/Tests/Slice0.lean ====
section
/-! SUPPORT. Tests: words written out field by field from the encoding tables of spec/02 to spec/08 and what
they decode to, an ill-formed term for each well-formedness check, single steps with results worked out by hand
from the rules cited, and a witness for the hypotheses of every statement of the certificates. -/

namespace Sys2Proof.Tests

open Sys2Proof.Machine

set_option Elab.async false

/-! ## Words (spec/02 R53) -/

/-- A word from its fields, each at the bits R53 gives it: no guard, no switch marker, XM = 0. -/
def word (op d a b fn ty ax tail : Nat) : InstrWord :=
  BitVec.ofNat 96 (op + d * 2 ^ 16 + a * 2 ^ 26 + b * 2 ^ 36 + fn * 2 ^ 46 + ty * 2 ^ 52 + ax * 2 ^ 58
    + tail * 2 ^ 64)

/-- SW, XM, G and GN of R53 (bits 8, 9, 13 to 10 and 14). -/
def marks (sw xm g gn : Nat) : InstrWord := BitVec.ofNat 96 (sw * 2 ^ 8 + xm * 2 ^ 9 + g * 2 ^ 10 + gn * 2 ^ 14)

def hd : Head := { sw := false, g := 0, gn := false }

/-- Operand codes of R59. -/
def s (n : Nat) : Nat := 0x100 + n
def k (n : Nat) : Nat := 0x300 + n
def q (n : Nat) : Nat := 0x310 + n
def j (n : Nat) : Nat := 0x320 + n
def z : Nat := 0x3FF

/-- Every row decodes to the instruction beside it. -/
abbrev Reads (rows : List (InstrWord × Instr)) : Prop := ∀ r ∈ rows, decode r.1 = .ok r.2

def bin (ty : Ty) (d a : Opd) (b : Src32) : VBin := ⟨hd, none, ty, d, a, b⟩
def ter (ty : Ty) (d a : Opd) (b : Src22) (c : Opd) : VTer := ⟨hd, none, ty, d, a, b, c⟩
def tri (ty : Ty) (d a b c : Opd) : VTri := ⟨hd, none, ty, d, a, b, c⟩
def un (ty : Ty) (d a : Opd) : VUn := ⟨hd, none, ty, d, a⟩
def ub (ty : Ty) (d a : Opd) (b : Src32) : UBin := ⟨hd, ty, d, a, b⟩

/-- R100, and the head of R53: marker, guard 5 negated. -/
theorem test_words_control : Reads [
    (0x01, .nop hd),
    (word 0x02 0 0 0 0 0 0 7 ||| marks 1 0 5 1, .br ⟨true, 5, true⟩ .always 7),
    (word 0x02 0 (s 4) 0 1 0 0 0xFFFFFFFD, .br hd (.nz (.s 4)) 0xFFFFFFFD),
    (word 0x02 0 (s 4) 0 2 0 0 9, .br hd (.z (.s 4)) 9),
    (word 0x03 0 17 0 0 0 0 0, .bri hd (.v 17)),
    (word 0x04 z 0 0 0 0 0 0x80000000, .call hd .zero 0x80000000),
    (word 0x05 (s 511) 255 0 0 0 0 0, .calli hd (.s 511) (.v 255)),
    (word 0x06 0 (s 2) 0 0 0 0 0, .ret hd (.s 2)),
    (word 0x07 0 (s 3) 0 0 0 0 0xFFFFF, .loop hd (.reg (.s 3)) 0xFFFFF),
    (word 0x07 0 0 0 0 0 1 0x00A00004, .loop hd (.imm 10) 4),
    (word 0x07 0 0 0 1 0 0 0, .loopPop hd),
    (word 0x08 0 0 0 0 0 0 0 ||| marks 0 0 15 0, .exit ⟨false, 15, false⟩),
    (word 0x09 0 0 0 0 0 0 5, .cont hd 5),
    (word 0x0A 0 0 0 0 0 0 0, .yield hd)] := by decide +kernel

/-- R100, R24 for the special registers, R121 for the fields of mode. -/
theorem test_words_system : Reads [
    (word 0x0B 0 (s 9) 0 0 0 0 0, .park hd (.reg (.s 9))),
    (word 0x0B 0 0 0 0 0 1 400, .park hd (.imm 400)),
    (word 0x0C (q 3) 8 (s 1) 0 0 0 0x24, .sysc ⟨hd, .q 3, .v 8, .s 1, 4, 2⟩),
    (word 0x0C 6 0 z 1 0 0 0x10, .syscWait ⟨hd, .v 6, .v 0, .zero, 0, 1⟩),
    (word 0x0D 0 0 0 0 0 0 0x1234, .trap hd 0x1234),
    (word 0x0E 0 0 0 0 0 0 1, .brk hd 1),
    (word 0x0F 5 0x340 0 0 0 0 0, .rdsr hd (.v 5) .lane),
    (word 0x0F (s 6) 0x34A 0 0 0 0 0, .rdsr hd (.s 6) .fflags),
    (word 0x10 0x34B (s 6) 0 0 0 0 0, .wrsr hd .mode (.s 6)),
    (word 0x10 0x35F 8 0 0 0 0 0, .wrsr hd (.lendN 3) (.v 8)),
    (word 0x11 0 0 0 0 0 0 0x152, .mode hd ⟨some 2, none, some true, none⟩),
    (word 0x12 0 (k 7) 0 0 0 0 0, .join hd (.k 7)),
    (word 0x13 0 (s 2) 0 0 0 0 0, .tenq hd (.s 2))] := by decide +kernel

/-- R123 to R125. The first word is R124's example. -/
theorem test_words_uniform : Reads [
    (BitVec.ofNat 96 0xFFFFFFFD0440000419060020, .sadd (ub .i64 (.s 6) (.s 6) (.imm 0xFFFFFFFD))),
    (word 0x21 (s 1) (s 2) (s 3) 0 7 0 0, .ssub (ub .n32 (.s 1) (.s 2) (.reg (.s 3)))),
    (word 0x22 (s 1) (s 2) z 0 8 0 0, .smul (ub .n64 (.s 1) (.s 2) (.reg .zero))),
    (word 0x23 (s 1) (s 2) (s 3) 0 3 0 0, .smulh (ub .i32 (.s 1) (.s 2) (.reg (.s 3)))),
    (word 0x24 (s 1) (s 2) (s 3) 0 4 0 0, .sdiv (ub .i64 (.s 1) (.s 2) (.reg (.s 3)))),
    (word 0x25 (s 1) (s 2) (s 3) 0 4 0 0, .srem (ub .i64 (.s 1) (.s 2) (.reg (.s 3)))),
    (word 0x26 (s 1) (s 2) (s 3) 0 9 0 0, .sand (ub .b32 (.s 1) (.s 2) (.reg (.s 3)))),
    (word 0x27 (s 1) (s 2) (s 3) 0 10 0 0, .sor (ub .b64 (.s 1) (.s 2) (.reg (.s 3)))),
    (word 0x28 (s 1) (s 2) (s 3) 0 10 0 0, .sxor (ub .b64 (.s 1) (.s 2) (.reg (.s 3)))),
    (word 0x29 (s 1) (s 2) 0 0 10 1 4, .sshl (ub .b64 (.s 1) (.s 2) (.imm 4))),
    (word 0x2A (s 1) (s 2) (s 3) 0 9 0 0, .sshr (ub .b32 (.s 1) (.s 2) (.reg (.s 3)))),
    (word 0x2B (s 1) (s 2) (s 3) 0 3 0 0, .ssra (ub .i32 (.s 1) (.s 2) (.reg (.s 3)))),
    (word 0x2C (s 1) (s 2) (s 3) 0 3 0 0, .smin (ub .i32 (.s 1) (.s 2) (.reg (.s 3)))),
    (word 0x2D (s 1) (s 2) (s 3) 0 8 0 0, .smax (ub .n64 (.s 1) (.s 2) (.reg (.s 3)))),
    (word 0x2E (k 4) (s 2) 0 0 10 0 0, .smov hd (.k 4) (.s 2)),
    (word 0x2F (s 2) 0 0 2 10 0 0xDEADBEEF, .sli hd .hi (.s 2) 0xDEADBEEF),
    (word 0x30 (s 1) (s 2) (s 3) 5 4 0 0, .scmp .ge (ub .i64 (.s 1) (.s 2) (.reg (.s 3)))),
    (word 0x31 (s 1) (s 2) (s 3) 0 10 0 0x104, .ssel hd (.s 1) (.s 2) (.s 3) (.s 4)),
    (word 0x32 (s 4) (s 2) 0 0 8 0 0x1005, .sbfe hd .n64 (.s 4) (.s 2) 5 64),
    (word 0x33 (s 4) (s 2) 0 2 9 0 0, .spop hd .ctz .b32 (.s 4) (.s 2)),
    (word 0x34 (s 4) (s 2) 0 0 8 0 16, .sld ⟨hd, .n64, .glob, .s 4, .s 2, 16⟩),
    (word 0x35 0 (s 2) (s 5) 0 7 1 0xFFFFFFF0, .sst ⟨hd, .n32, .crew, .s 5, .s 2, 0xFFFFFFF0⟩)] := by decide +kernel

/-- R128, R130, R131. -/
theorem test_words_integer : Reads [
    (word 0x40 3 1 0 0 3 0x10 7, .add (bin .i32 (.v 3) (.v 1) (.imm 7))),
    (word 0x41 3 1 2 0 1 0 0, .sub (bin .i8 (.v 3) (.v 1) (.reg (.v 2)))),
    (word 0x42 3 1 (s 2) 0 0x20 0 0, .mul (bin .n8x4 (.v 3) (.v 1) (.reg (.s 2)))),
    (word 0x43 4 6 8 0 8 0 0, .mulh (bin .n64 (.v 4) (.v 6) (.reg (.v 8)))),
    (word 0x44 4 6 8 0 8 0 0x146, .mad (ter .n64 (.v 4) (.v 6) (.reg (.v 8)) (.s 70))),
    (word 0x44 4 6 0 0 3 0x10 0xFFFFFC05, .mad (ter .i32 (.v 4) (.v 6) (.imm 0x3FFFFF) (.v 5))),
    (word 0x45 4 6 8 0 4 0 0, .div (bin .i64 (.v 4) (.v 6) (.reg (.v 8)))),
    (word 0x46 4 6 8 0 7 0 0, .rem (bin .n32 (.v 4) (.v 6) (.reg (.v 8)))),
    (word 0x47 4 5 6 0 7 3 0x302, .addc ⟨hd, none, .n32, .v 4, 3, .v 5, .v 6, .k 2⟩),
    (word 0x48 4 6 8 0 8 0 z, .subb ⟨hd, none, .n64, .v 4, 0, .v 6, .v 8, .zero⟩),
    (word 0x49 4 6 8 0 10 0 0, .and (bin .b64 (.v 4) (.v 6) (.reg (.v 8)))),
    (word 0x4A z 6 8 0 9 0 0, .or (bin .b32 .zero (.v 6) (.reg (.v 8)))),
    (word 0x4B 4 z 8 0 9 0 0, .xor (bin .b32 (.v 4) .zero (.reg (.v 8)))),
    (word 0x4C 1 2 3 0x28 9 3 4, .lop3 0xE8 (tri .b32 (.v 1) (.v 2) (.v 3) (.v 4))),
    (word 0x4D 4 6 8 0 9 0 0, .shl (bin .b32 (.v 4) (.v 6) (.reg (.v 8)))),
    (word 0x4E 4 6 0 0 10 0x10 3, .shr (bin .b64 (.v 4) (.v 6) (.imm 3))),
    (word 0x4F 4 6 8 0 3 0 0, .sra (bin .i32 (.v 4) (.v 6) (.reg (.v 8)))),
    (word 0x50 4 6 8 1 9 0 0, .rot true (bin .b32 (.v 4) (.v 6) (.reg (.v 8)))),
    (word 0x51 4 6 8 0 2 0 0, .min (bin .i16 (.v 4) (.v 6) (.reg (.v 8)))),
    (word 0x52 4 6 8 0 5 0 0, .max (bin .n8 (.v 4) (.v 6) (.reg (.v 8))))] := by decide +kernel

/-- R130 to R134; the second row has a modifier word (R55): MK 5, MZ, SAT. -/
theorem test_words_integer_more : Reads [
    (word 0x53 4 6 0 0 0x1F 0 0, .abs (un .i8x4 (.v 4) (.v 6))),
    (word 0x53 4 6 0 0 3 0 0x40015 ||| marks 0 1 0 0,
      .abs { un .i32 (.v 4) (.v 6) with mod := some ⟨5, true, .dyn, true⟩ }),
    (word 0x54 5 6 0 0 10 0 0, .popc (un .b64 (.v 5) (.v 6))),
    (word 0x55 5 6 0 0 9 0 0, .clz (un .b32 (.v 5) (.v 6))),
    (word 0x56 5 6 0 0 9 0 0, .ctz (un .b32 (.v 5) (.v 6))),
    (word 0x57 5 7 0 0 9 0 0, .brev (un .b32 (.v 5) (.v 7))),
    (word 0x58 7 8 0 0 3 0x10 0x0805, .bfe (bin .i32 (.v 7) (.v 8) (.imm 0x0805))),
    (word 0x59 7 8 9 0 9 0 0x10A, .bfi (ter .b32 (.v 7) (.v 8) (.reg (.v 9)) (.s 10))),
    (word 0x5A 1 2 3 0 9 0 0x304, .sel (ter .b32 (.v 1) (.v 2) (.reg (.v 3)) (.k 4))),
    (word 0x5B (k 2) 5 6 2 3 0 0, .cmp .lt (bin .i32 (.k 2) (.v 5) (.reg (.v 6)))),
    (word 0x5C 5 0 0 0 9 0x10 0x80000001, .mov ⟨hd, none, .b32, .v 5, .imm 0x80000001⟩),
    (word 0x5C (q 1) 6 0 0 10 0 0, .mov ⟨hd, none, .b64, .q 1, .reg (.v 6)⟩),
    (word 0x5D 5 6 7 1 0x20 0 8, .dot4 true (ter .n8x4 (.v 5) (.v 6) (.reg (.v 7)) (.v 8)))] := by decide +kernel

/-- R135 to R142. -/
theorem test_words_float : Reads [
    (word 0x60 2 1 0 0 0x12 0x10 0x3F000000, .fadd (bin .f32 (.v 2) (.v 1) (.imm 0x3F000000))),
    (word 0x61 2 1 3 0 0x10 0 0, .fsub (bin .f16 (.v 2) (.v 1) (.reg (.v 3)))),
    (word 0x62 2 1 3 0 0x1C 0 0, .fmul (bin .bf16x2 (.v 2) (.v 1) (.reg (.v 3)))),
    (word 0x63 4 5 6 0 0x12 0 0x755 ||| marks 0 1 0 0,
      .fma false false { ter .f32 (.v 4) (.v 5) (.reg (.v 6)) (.v 7) with mod := some ⟨5, true, .rtz, false⟩ }),
    (word 0x63 4 5 6 3 0x1B 0 7, .fma true true (ter .f16x2 (.v 4) (.v 5) (.reg (.v 6)) (.v 7))),
    (word 0x63 4 5 6 1 0x12 0 7, .fma false true (ter .f32 (.v 4) (.v 5) (.reg (.v 6)) (.v 7))),
    (word 0x64 2 1 3 1 0x12 0 0, .fmin true (bin .f32 (.v 2) (.v 1) (.reg (.v 3)))),
    (word 0x65 2 1 3 0 0x12 0 0, .fmax false (bin .f32 (.v 2) (.v 1) (.reg (.v 3)))),
    (word 0x66 (k 3) 8 10 5 0x13 0 0, .fcmp .ge (bin .f64 (.k 3) (.v 8) (.reg (.v 10)))),
    (word 0x67 (k 2) 1 0 3 0x12 8 0, .fclass 0x203 (un .f32 (.k 2) (.v 1))),
    (word 0x68 2 1 3 0 0x11 0 0, .fdiv (bin .bf16 (.v 2) (.v 1) (.reg (.v 3)))),
    (word 0x69 2 4 0 0 0x13 0 0, .fsqrt (un .f64 (.v 2) (.v 4))),
    (word 0x6A 2 4 0 0 0x12 0 0, .frcp (un .f32 (.v 2) (.v 4))),
    (word 0x6B 2 4 0 0 0x12 0 0, .frsq (un .f32 (.v 2) (.v 4))),
    (word 0x6C 2 4 0 0 0x10 0 0, .fex2 (un .f16 (.v 2) (.v 4))),
    (word 0x6D 2 4 0 0 0x12 0 0, .flg2 (un .f32 (.v 2) (.v 4))),
    (word 0x6E 2 4 0 0 0x12 0 0, .fsin (un .f32 (.v 2) (.v 4))),
    (word 0x6F 2 4 0 0 0x12 0 0, .fcos (un .f32 (.v 2) (.v 4))),
    (word 0x70 2 4 0 0 0x1B 0 0, .frnd (un .f16x2 (.v 2) (.v 4))),
    (word 0x71 2 4 0 0 0x12 0x10 0xFFFFFFFF, .fscl (bin .f32 (.v 2) (.v 4) (.imm 0xFFFFFFFF))),
    (word 0x72 9 2 3 0x12 0x1D 1 0xC0 ||| marks 0 1 0 0,
      .cvt ⟨hd, some ⟨0, false, .rsr, false⟩, .e4m3x4, .f32, .v 9, .v 2, .half true (.v 3)⟩),
    (word 0x72 9 2 0 0x1D 0x12 3 0, .cvt ⟨hd, none, .f32, .e4m3x4, .v 9, .v 2, .unpack 3⟩),
    (word 0x73 12 1 2 1 0x1D 0 12, .fdot true (tri .e4m3x4 (.v 12) (.v 1) (.v 2) (.v 12)))] := by decide +kernel

/-- Opcodes 0x80 to 0x89 by R45's opcode map, fields by R145 to R154. -/
theorem test_words_cross_lane : Reads [
    (word 0x80 2 1 0 0 9 0 0 ||| marks 1 0 0 0, .qswp .h { un .b32 (.v 2) (.v 1) with h := ⟨true, 0, false⟩ }),
    (word 0x80 2 4 0 3 10 2 0, .qswp (.b 2) (un .b64 (.v 2) (.v 4))),
    (word 0x81 2 1 0 3 9 0x14 1, .shfl .xor ⟨hd, none, .b32, .v 2, .v 1, .imm 1, 4⟩),
    (word 0x81 2 1 (s 3) 2 9 0 0, .shfl .down ⟨hd, none, .b32, .v 2, .v 1, .reg (.s 3), 0⟩),
    (word 0x82 (s 4) (k 1) 0 2 0 0 0, .vote .ballot (un .none (.s 4) (.k 1))),
    (word 0x83 (k 1) (k 2) (s 3) 3 0 0 0, .kop .andn ⟨hd, none, .k 1, .k 2, .s 3⟩),
    (word 0x84 6 (k 1) 0 0 0 0 0, .kcnt false ⟨hd, none, .v 6, .k 1⟩),
    (word 0x84 (s 66) (k 1) 0 1 0 0 0, .kcnt true ⟨hd, none, .s 66, .k 1⟩),
    (word 0x85 6 (s 1) 0 1 0 0 0, .kfst true ⟨hd, none, .v 6, .s 1⟩),
    (word 0x86 5 4 0 8 3 0 0, .scan .add true (un .i32 (.v 5) (.v 4))),
    (word 0x87 (s 5) 4 0 2 0x12 0 0, .wred .max (un .f32 (.s 5) (.v 4))),
    (word 0x88 9 3 4 1 7 0 0, .reord true (tri .n32 (.v 9) (.v 3) (.v 4) (.v 0))),
    (word 0x89 (k 1) (s 4) 0 3 0 0 0, .kset .lane ⟨hd, none, .k 1, .s 4⟩)] := by decide +kernel

/-- R157, R163, R166, R167, R170, R173, R175, R176, R180 to R182. -/
theorem test_words_memory : Reads [
    (word 0x90 4 10 0 5 9 0x28 64, .ld ⟨hd, none, .b32, .glob, some .dev, true, .v 4, .v 10, 64⟩),
    (word 0x90 5 (s 3) 0 0 1 3 0, .ld ⟨hd, none, .i8, .bcast, none, false, .v 5, .s 3, 0⟩),
    (word 0x91 0 z 4 0 0x13 2 8, .st ⟨hd, none, .f64, .cluster, none, false, .v 4, .zero, 8⟩),
    (word 0x91 0 7 4 8 7 1 0x00001106, .stSy ⟨hd, none, .n32, .crew, none, false, .v 4, .v 7, .s 6, 4⟩),
    (word 0x92 16 (s 90) 0 0 9 0 0x1030, .ldx ⟨hd, .b32, .glob, .v 16, .s 90, .v 48, .v 0, 4⟩),
    (word 0x93 (s 80) (s 90) 16 0 9 0 0x1030, .stc ⟨hd, .b32, .glob, .v 16, .s 90, .v 48, .s 80, 4⟩),
    (word 0x94 (s 64) (s 65) (s 66) 1 0x12 0 256, .swp .add ⟨hd, .f32, .s 64, .s 65, .s 66, 256⟩),
    (word 0x95 (j 0) (j 1) (j 2) 6 0x12 0 0, .itx .fma ⟨hd, .f32, .j 0, .j 1, .j 2, 0⟩),
    (word 0x96 (j 2) (s 4) 0 0 0 1 0x40, .itld ⟨hd, .crew, .j 2, .s 4, 0x40⟩),
    (word 0x97 0 (s 4) (j 2) 0 0 0 0, .itst ⟨hd, .glob, .j 2, .s 4, 0⟩),
    (word 0x98 6 10 7 0x10 7 0x28 0, .atom .add ⟨hd, .n32, .glob, .acq .dev, .v 6, .v 10, .v 7, .v 0, 0⟩),
    (word 0x98 4 10 8 0x38 10 0x20 0x0000040C, .atom .cas128 ⟨hd, .b64, .glob, .ar .die, .v 4, .v 10, .v 8, .v 12, 1⟩),
    (word 0x99 0 10 7 0 0x12 0 8, .red .add ⟨hd, .f32, .glob, .rlx, .v 10, .v 7, 8⟩),
    (word 0x9A 0 2 7 0 0x12 2 0x148, .redx .add ⟨hd, .f32, .cluster, .rlx, .v 0, .v 2, .v 7, .s 72, 0⟩),
    (word 0x9B 0 0 0 2 0 0x28 0, .fence hd .rel .dev),
    (word 0x9C 0 10 0 1 0 0 64, .pref hd true (.v 10) 64),
    (word 0x9D 0 (s 4) (s 5) 0 0 0 0, .sealRegion hd (.s 4) (.s 5)),
    (word 0x9E 0 (s 4) (s 5) 0 0 0 0, .unsealRegion hd (.s 4) (.s 5))] := by decide +kernel

/-- R183. -/
theorem test_words_synchronisation : Reads [
    (word 0xA0 0 0 0 0x22 0 0 0x2003, .bar hd .sync (.imm 3 256)),
    (word 0xA0 0 (s 70) 0 1 0 0 0, .bar hd .wait (.reg (.s 70) (.v 0))),
    (word 0xA1 0 (s 4) 0 0x20 0 0x28 1, .cadd ⟨hd, false, .dev, .s 4, .imm 1⟩),
    (word 0xA2 0 (s 4) (s 6) 0 0 9 0, .cwait ⟨hd, true, .crew, .s 4, .reg (.s 6)⟩),
    (word 0xA3 0 (s 70) 0 0x21 0 0 768, .syarm ⟨hd, true, .s 70, .imm 768⟩),
    (word 0xA4 0 (s 70) 0 0x20 0 0 0, .sywait ⟨hd, false, .s 70, .imm 0⟩),
    (word 0xA5 0 (s 8) 0 0x21 0 0 15, .chwait ⟨hd, true, .s 8, .imm 15⟩),
    (word 0xA6 (k 2) (s 8) (s 9) 0 0 0 0, .chtst (.k 2) ⟨hd, false, .s 8, .reg (.s 9)⟩),
    (word 0xA7 (q 1) (s 66) 0 1 0 0 0, .qbind hd .spad (.q 1) (.s 66)),
    (word 0xA7 (q 1) 0 0 5 0 0 0, .qbind hd .xin (.q 1) (.v 0)),
    (word 0xA8 (q 1) 0 0 0 0 0 0, .qfree hd (.q 1)),
    (word 0xA9 (s 67) (q 1) 0 1 0 0 0, .qpoll hd true (.s 67) (.q 1))] := by decide +kernel

/-- R196 to R225. The second word is R196's example. -/
theorem test_words_matrix : Reads [
    (word 0xB0 0 0 0 0 0 1 0x349618, .mfmt hd (.imm 0x349618)),
    (BitVec.ofNat 96 0x00507FFF04001525455000B1, .mma ⟨hd, true, .s 80, .s 81, .s 82, 63, 63, 7, 5⟩),
    (word 0xB2 (s 80) (s 81) (s 83) 0 0 1 0x0063FFFF, .mmac ⟨hd, true, .s 80, .s 81, .s 83, 63, 63, 63, 6⟩),
    (word 0xB3 (s 90) (s 91) 0 0 0 0 64, .tld ⟨hd, false, .s 90, .s 91, 64, 0⟩),
    (word 0xB4 (s 91) (s 90) 0 0 0 0 0x00101000, .tst ⟨hd, false, .s 91, .s 90, 4096, 1⟩),
    (word 0xB5 0 (s 90) 16 0 9 0 8, .trow hd false (.s 90) (.v 16) 8),
    (word 0xB5 32 (s 91) 0 1 9 0 16, .trow hd true (.s 91) (.v 32) 16),
    (word 0xB6 (s 90) 0 0 0 0 0 4096, .tzro ⟨hd, false, .s 90, .v 0, 4096, 0⟩),
    (word 0xB7 (s 92) (s 93) 0 0 0 2 0, .wbld ⟨hd, false, true, .s 92, .s 93, 0⟩),
    (word 0xB8 0 (s 92) 0 0 0 0 1024, .wbinv ⟨hd, false, some (.s 92, 1024), 0⟩),
    (word 0xB8 0 0 0 1 0 0 0, .wbinv ⟨hd, false, none, 0⟩),
    (word 0xB9 (s 84) (s 80) z 4 0x1A 3 0x00900FFF,
      .mdrn ⟨hd, true, true, false, false, .rne, false, .mx4, .s 84, .s 80, .zero, 63, 63, 9⟩),
    (word 0xBA 40 8 2 0 0x1D 0 0x840, .vmm ⟨hd, false, .e4m3x4, .v 40, .v 8, .v 2, 64, 16⟩),
    (word 0xBB 0 0 0 0 0 0 8, .mbst hd 8),
    (word 0xBC 0 0 0 0 0 0 0, .opfence hd),
    (word 0xBD 64 16 (s 70) 1 0x1D 0 0, .kmma hd true (.v 64) (.v 16) (.s 70))] := by decide +kernel

/-- R231. The first word has the fields of R233's example. -/
theorem test_words_sampling : Reads [
    (word 0xC0 0x028 0x002 0x146 2 0x12 0x0B 0, .smpl .sto ⟨hd, .f32, .lz, .v 40, .v 2, .s 70, 3, 1, 0, 0⟩),
    (word 0xC1 40 2 (s 70) 6 0x12 8 (5 + 0xF * 2 ^ 10 + 7 * 2 ^ 14),
      .smpg 2 ⟨hd, .f32, .ll (.v 5), .v 40, .v 2, .s 70, 0, 1, 15, 7⟩),
    (word 0xC2 40 3 (s 70) 0 7 0 0, .smpq hd false (.v 40) (.v 3) (.s 70) 0),
    (word 0xC2 41 2 (s 70) 1 0x12 8 0, .smpq hd true (.v 41) (.v 2) (.s 70) 1),
    (word 0xC3 40 2 (s 70) 4 0x1B 7 5, .latf .lin ⟨hd, .f16x2, .ll (.v 5), .v 40, .v 2, .s 70, 7, 0, 0, 0⟩),
    (word 0xC4 0 (s 70) 0 1 0 0 0, .wcpin hd true (.s 70)),
    (word 0xC5 0 (s 71) 0 0 0 0 0, .wcinv hd (some (.s 71))),
    (word 0xC5 0 0 0 1 0 0 0, .wcinv hd none),
    (word 0xC6 0 20 (s 74) 1 0 0 12, .trace hd true false (.v 20) (.s 74) 12),
    (word 0xC7 30 0 0 1 0 0 0, .hitld hd .t (.v 30)),
    (word 0xC8 30 2 (s 76) 0 0 5 0, .vbld hd .id (.v 30) (.v 2) (.s 76) 5),
    (word 0xC9 8 0 0 1 0x12 1 0, .rng hd true (.v 8) 1),
    (word 0xCA 0 (s 66) 0 2 0 0 0, .rngset hd .seed (.s 66)),
    (word 0xCB 0 0 0 0 0 1 387, .rngadv hd (.imm 387)),
    (word 0xCB 0 12 0 0 0 0 0, .rngadv hd (.reg (.v 12))),
    (word 0xCC 12 0 0 1 0 0 0, .rngget hd true (.v 12))] := by decide +kernel


/-! ## Ill-formed terms (spec/02 R51 step 5): one for each check -/

/-- An instruction refused for its fields, its operands being right. -/
abbrev BadField (i : Instr) : Prop := i.fieldsOk = false ∧ i.operandsOk = true ∧ i.WellFormed = false

/-- An instruction refused for its operands, its fields being right. -/
abbrev BadOperand (i : Instr) : Prop := i.fieldsOk = true ∧ i.operandsOk = false ∧ i.WellFormed = false

def sat : Option Modifier := some ⟨0, false, .dyn, true⟩
def rtz : Option Modifier := some ⟨0, false, .rtz, false⟩
def plain : Option Modifier := some ⟨0, false, .dyn, false⟩
def v0 : Opd := .v 0
def v1 : Opd := .v 1
def s4 : Opd := .s 4

theorem test_fields_control : ∀ i ∈ ([
    .loop hd (.imm 1) 0, .sysc ⟨hd, .q 0, .v 8, s4, 9, 1⟩, .sysc ⟨hd, .q 0, .v 8, s4, 1, 0⟩,
    .sysc ⟨hd, .q 0, .v 8, s4, 0, 1⟩, .syscWait ⟨hd, v1, .v 8, s4, 1, 3⟩, .syscWait ⟨hd, v1, .v 8, s4, 0, 2⟩,
    .mode hd ⟨none, none, none, none⟩, .mode hd ⟨some 0, none, none, none⟩, .mode hd ⟨some 7, none, none, none⟩,
    .sadd (ub .b64 s4 s4 (.reg s4)), .smax (ub .f32 s4 s4 (.reg s4)), .sand (ub .n64 s4 s4 (.reg s4)),
    .sshr (ub .i32 s4 s4 (.reg s4)), .ssra (ub .n32 s4 s4 (.reg s4)), .scmp .eq (ub .b32 s4 s4 (.reg s4)),
    .sbfe hd .n32 s4 s4 0 1, .sbfe hd .n64 s4 s4 0 0, .sbfe hd .n64 s4 s4 0 65, .spop hd .clz .n32 s4 s4,
    .sld ⟨hd, .b32, .glob, s4, s4, 0⟩, .sst ⟨hd, .b32, .glob, s4, s4, 0⟩, .sst ⟨hd, .n64, .bcast, s4, s4, 0⟩]
      : List Instr), BadField i := by decide +kernel

theorem test_fields_integer : ∀ i ∈ ([
    .add (bin .f32 v1 v1 (.reg v1)), .add { bin .i32 v1 v1 (.reg v1) with mod := rtz },
    .sub { bin .i32 v1 v1 (.imm 1) with mod := plain }, .mul (bin .b32 v1 v1 (.reg v1)),
    .mulh (bin .i8 v1 v1 (.reg v1)), .rem { bin .i32 v1 v1 (.reg v1) with mod := sat },
    .div (bin .n16 v1 v1 (.reg v1)), .mad (ter .i16 v1 v1 (.reg v1) v1),
    .addc ⟨hd, none, .i32, v1, 0, v1, v1, .zero⟩, .subb ⟨hd, sat, .n32, v1, 0, v1, v1, .zero⟩,
    .and (bin .n32 v1 v1 (.reg v1)), .shl { bin .b32 v1 v1 (.reg v1) with mod := sat },
    .lop3 0 (tri .i32 v1 v1 v1 v1), .sra (bin .b32 v1 v1 (.reg v1)), .rot false (bin .n32 v1 v1 (.reg v1)),
    .min (bin .b32 v1 v1 (.reg v1)), .max { bin .i32 v1 v1 (.reg v1) with mod := sat },
    .abs (un .n32 v1 v1), .popc (un .i32 v1 v1), .clz { un .b32 v1 v1 with mod := rtz },
    .bfe (bin .b32 v1 v1 (.reg v1)), .bfi (ter .n32 v1 v1 (.reg v1) v1), .sel (ter .n32 v1 v1 (.reg v1) v1),
    .cmp .eq (bin .i8x4 (.k 1) v1 (.reg v1)), .mov ⟨hd, none, .n32, v1, .reg v1⟩,
    .mov ⟨hd, plain, .b32, v1, .imm 0⟩, .dot4 false (ter .i32 v1 v1 (.reg v1) v1)] : List Instr),
    BadField i := by decide +kernel

theorem test_fields_float : ∀ i ∈ ([
    .fadd (bin .i32 v1 v1 (.reg v1)), .fsub (bin .f16 v1 v1 (.imm 0x10000)),
    .fma false false (ter .f16x2 v1 v1 (.imm 0) v1), .fma true false (ter .e4m3 v1 v1 (.reg v1) v1),
    .fmin false { bin .f32 v1 v1 (.reg v1) with mod := rtz }, .fmax false (bin .e5m2 v1 v1 (.reg v1)),
    .fcmp .eq (bin .f16x2 (.k 1) v1 (.reg v1)), .fclass 0 (un .f32 (.k 1) v1),
    .fclass 1 { un .f32 (.k 1) v1 with mod := sat }, .fdiv (bin .f16x2 v1 v1 (.reg v1)),
    .fscl (bin .f16x2 v1 v1 (.reg v1)), .fsqrt { un .f32 v1 v1 with mod := sat }, .frcp (un .bf16 v1 v1),
    .frsq { un .f32 v1 v1 with mod := rtz }, .fex2 (un .f64 (.v 2) (.v 2)), .frnd (un .i32 v1 v1),
    .cvt ⟨hd, none, .f16x2, .f32, v1, v1, .scalar⟩, .cvt ⟨hd, none, .b32, .f64, v1, .v 2, .scalar⟩,
    .cvt ⟨hd, none, .f16x2, .f16, v1, v1, .pair v1⟩, .cvt ⟨hd, none, .e4m3x4, .f64, v1, .v 2, .half false (.v 2)⟩,
    .cvt ⟨hd, none, .f32, .f16x2, v1, v1, .unpack 2⟩, .cvt ⟨hd, none, .f16x2, .f16x2, v1, v1, .repack⟩,
    .fdot false (tri .f32 v1 v1 v1 v1), .fdot true (tri .bf16x2 v1 v1 v1 v1)] : List Instr),
    BadField i := by decide +kernel

theorem test_fields_cross_lane : ∀ i ∈ ([
    .qswp .h (un .i32 v1 v1), .shfl .idx ⟨hd, none, .n32, v1, v1, .reg v1, 0⟩,
    .shfl .idx ⟨hd, rtz, .b32, v1, v1, .reg v1, 0⟩, .vote .any (un .b64 v1 v1), .vote .eq (un .none v1 (.k 1)),
    .kop .not ⟨hd, none, .k 1, .k 1, .k 1⟩, .kcnt false ⟨hd, none, s4, .k 1⟩, .kfst false ⟨hd, sat, s4, .k 1⟩,
    .scan .add false { un .i32 v1 v1 with mod := rtz }, .scan .add false { un .f32 v1 v1 with mod := sat },
    .wred .min (un .b32 v1 v1), .wred .xor (un .n32 v1 v1), .reord false (tri .f32 v1 v1 v1 v0),
    .reord false (tri .n32 v1 v1 v1 v1), .kset .one ⟨hd, none, .k 1, v1⟩, .kset .nz ⟨hd, rtz, .k 1, v1⟩]
      : List Instr), BadField i ∨ i = .vote .eq (un .none v1 (.k 1)) ∧ i.WellFormed = false := by decide +kernel

theorem test_fields_memory : ∀ i ∈ ([
    .ld ⟨hd, none, .e2m1, .crew, none, false, v1, v1, 0⟩, .ld ⟨hd, plain, .b32, .crew, none, false, v1, v1, 4⟩,
    .st ⟨hd, none, .b32, .bcast, none, false, v1, s4, 0⟩, .stSy ⟨hd, none, .b32, .glob, none, false, v1, s4, s4, 0⟩,
    .ldx ⟨hd, .n16, .crew, v1, s4, v1, v0, 1⟩, .ldx ⟨hd, .b32, .bcast, v1, s4, v1, v0, 1⟩,
    .ldx ⟨hd, .b32, .crew, v1, s4, v1, v0, 65⟩, .ldx ⟨hd, .b32, .crew, v1, s4, v1, v1, 1⟩,
    .stc ⟨hd, .b32, .crew, v1, s4, v1, s4, 0⟩, .swp .fma ⟨hd, .i32, s4, s4, s4, 1⟩,
    .itx .and ⟨hd, .f32, .j 0, .j 1, .j 2, 0⟩, .itx .add ⟨hd, .f32, .j 0, .j 1, .j 2, 1⟩,
    .itld ⟨hd, .bcast, .j 0, s4, 0⟩, .atom .add ⟨hd, .b32, .crew, .rlx, v1, v1, v1, v0, 0⟩,
    .atom .add ⟨hd, .n32, .bcast, .rlx, v1, s4, v1, v0, 0⟩, .atom .add ⟨hd, .n32, .crew, .rlx, v1, v1, v1, v1, 0⟩,
    .red .inc ⟨hd, .n32, .crew, .rlx, v1, v1, 0⟩, .red .add ⟨hd, .n32, .crew, .acq .dev, v1, v1, 0⟩,
    .red .add ⟨hd, .f32, .crew, .rlx, v1, v1, 0⟩, .redx .add ⟨hd, .n32, .glob, .rlx, v0, .v 2, v1, s4, 0⟩,
    .redx .add ⟨hd, .n32, .crew, .rel .dev, v0, v1, v1, s4, 0⟩, .bar hd .wait (.reg s4 s4), .bar hd .wait (.imm 1 1),
    .qbind hd .mec (.q 1) s4] : List Instr), BadField i := by decide +kernel

theorem test_fields_engines : ∀ i ∈ ([
    .tld ⟨hd, false, s4, s4, 0, 0⟩, .tst ⟨hd, false, s4, s4, 4097, 0⟩, .tzro ⟨hd, false, s4, s4, 1, 0⟩,
    .trow hd false s4 v1 0, .trow hd true s4 v1 65, .wbinv ⟨hd, false, some (s4, 0), 0⟩,
    .mdrn ⟨hd, false, true, false, false, .rne, false, .n32, s4, s4, .zero, 0, 0, 0⟩,
    .vmm ⟨hd, false, .i8, v1, v1, v1, 4, 4⟩, .vmm ⟨hd, false, .f32, v1, v1, v1, 0, 4⟩,
    .vmm ⟨hd, false, .f32, v1, v1, v1, 4, 65⟩, .vmm ⟨hd, false, .f16x2, v1, v1, v1, 3, 4⟩,
    .smpl .lin ⟨hd, .f16x2, .lz, v1, v1, s4, 4, 0, 0, 0⟩, .smpg 0 ⟨hd, .f16x2, .lz, v1, v1, s4, 0, 0, 0, 0⟩,
    .smpq hd false v1 v1 s4 1, .latf .pt ⟨hd, .f32, .lz, v1, v1, s4, 0, 1, 0, 0⟩] : List Instr),
    BadField i := by decide +kernel

theorem test_operands_scalar : ∀ i ∈ ([
    .br hd (.nz v1) 0, .bri hd (.k 1), .ret hd .zero, .call hd (.q 1) 0, .calli hd v1 .zero, .loop hd (.reg .zero) 1,
    .park hd (.reg v1), .sysc ⟨hd, v1, .v 8, s4, 1, 1⟩, .sysc ⟨hd, .q 0, s4, s4, 1, 1⟩, .syscWait ⟨hd, .q 0, v1, s4, 1, 1⟩,
    .syscWait ⟨hd, v1, v1, v1, 1, 1⟩, .rdsr hd (.k 1) .lane, .rdsr hd v1 .tick, .wrsr hd .mode v1, .wrsr hd .pix v1,
    .join hd s4, .tenq hd v1, .sadd (ub .i64 v1 s4 (.reg s4)), .ssub (ub .i64 s4 v1 (.reg s4)),
    .smul (ub .i64 s4 s4 (.reg (.k 1))), .smov hd (.k 0) s4, .smov hd s4 v1, .sli hd .sx .zero 0,
    .scmp .eq (ub .i64 v1 s4 (.reg s4)), .ssel hd s4 s4 s4 v1, .sbfe hd .n64 s4 v1 0 1, .spop hd .clz .b32 .zero s4,
    .sld ⟨hd, .n64, .glob, .zero, s4, 0⟩, .sst ⟨hd, .n64, .glob, v1, s4, 0⟩] : List Instr), BadOperand i := by decide +kernel

theorem test_operands_vector : ∀ i ∈ ([
    .add (bin .i32 s4 v1 (.reg v1)), .add (bin .i64 v1 (.v 2) (.reg (.v 2))), .shl (bin .b32 v1 (.k 1) (.reg v1)),
    .rot true (bin .b32 v1 v1 (.reg (.q 1))), .mad (ter .i32 v1 v1 (.reg v1) (.k 1)), .bfi (ter .b64 (.v 2) v1 (.reg (.v 2)) (.v 2)),
    .addc ⟨hd, none, .n32, v1, 0, v1, v1, v1⟩, .lop3 0 (tri .b32 v1 v1 v1 (.k 2)), .fdot false (tri .f16x2 (.k 1) v1 v1 v1),
    .abs (un .i32 v1 (.k 1)), .popc (un .b64 (.v 2) v1), .sel (ter .b32 v1 v1 (.reg v1) .zero), .cmp .eq (bin .i32 (.k 0) v1 (.reg v1)),
    .fcmp .un (bin .f32 v1 v1 (.reg v1)), .mov ⟨hd, none, .b32, s4, .reg v1⟩, .mov ⟨hd, none, .b64, v1, .reg (.v 2)⟩,
    .fadd (bin .f64 (.v 2) (.v 2) (.reg (.v 3))), .fclass 1 (un .f32 v1 v1), .fscl (bin .f32 v1 v1 (.reg (.k 1))),
    .frcp (un .f64 (.v 2) v1), .cvt ⟨hd, none, .f32, .f64, v1, v1, .scalar⟩, .cvt ⟨hd, none, .f16x2, .f32, v1, v1, .pair (.k 1)⟩,
    .qswp .h (un .b32 v1 (.k 1)), .shfl .up ⟨hd, none, .b32, v1, v1, .reg (.k 1), 0⟩, .vote .any (un .none v1 v1),
    .vote .ballot (un .b32 v1 v1), .kop .and ⟨hd, none, v1, .k 1, .k 1⟩,
    .kop .or ⟨hd, none, .k 1, .k 1, v1⟩, .kcnt true ⟨hd, none, .k 1, .k 1⟩, .kfst true ⟨hd, none, v1, v1⟩,
    .scan .add true (un .i32 s4 v1), .wred .add (un .i32 .zero (.k 1)), .reord false (tri .n32 v1 s4 v1 v0),
    .kset .lane ⟨hd, none, .k 1, v1⟩, .kset .one ⟨hd, none, .k 0, v0⟩] : List Instr), BadOperand i := by decide +kernel

theorem test_operands_memory : ∀ i ∈ ([
    .ld ⟨hd, none, .b32, .glob, none, false, v1, v1, 0⟩, .ld ⟨hd, none, .b32, .bcast, none, false, v1, v1, 0⟩,
    .ld ⟨hd, none, .b64, .crew, none, false, v1, v1, 0⟩, .st ⟨hd, none, .b32, .crew, none, false, .zero, v1, 0⟩,
    .stSy ⟨hd, none, .b32, .crew, none, false, v1, v1, v1, 0⟩, .ldx ⟨hd, .b32, .crew, v1, v1, v1, v0, 1⟩,
    .ldx ⟨hd, .b32, .crew, v1, s4, s4, v0, 1⟩, .stc ⟨hd, .b32, .crew, v1, s4, v1, v1, 1⟩, .swp .add ⟨hd, .i32, v1, s4, s4, 1⟩,
    .itx .add ⟨hd, .f32, .zero, .j 1, .j 2, 0⟩, .itx .add ⟨hd, .f32, .j 0, .j 1, s4, 0⟩, .itld ⟨hd, .glob, v1, s4, 0⟩,
    .itst ⟨hd, .glob, .j 1, v1, 0⟩, .atom .add ⟨hd, .n32, .crew, .rlx, s4, v1, v1, v0, 0⟩,
    .atom .cas128 ⟨hd, .b64, .crew, .rlx, .v 2, v1, .v 4, .v 8, 0⟩, .atom .cas ⟨hd, .b32, .crew, .rlx, v1, v1, v1, .zero, 0⟩,
    .red .add ⟨hd, .n32, .crew, .rlx, v1, .k 1, 0⟩, .redx .add ⟨hd, .n32, .crew, .rlx, v0, v1, v1, v1, 0⟩, .pref hd false v1 0,
    .sealRegion hd v1 s4, .unsealRegion hd s4 .zero, .bar hd .wait (.reg v1 v0), .bar hd .sync (.reg s4 v1),
    .cadd ⟨hd, true, .crew, v1, .imm 1⟩, .cwait ⟨hd, true, .crew, s4, .reg v1⟩, .syarm ⟨hd, true, .zero, .imm 1⟩,
    .sywait ⟨hd, false, s4, .reg .zero⟩, .chwait ⟨hd, true, v1, .imm 1⟩, .chtst v1 ⟨hd, true, s4, .imm 1⟩,
    .qbind hd .spad v1 s4, .qbind hd .spad (.q 1) v1, .qfree hd s4, .qpoll hd true v1 v1] : List Instr), BadOperand i := by
  decide +kernel

theorem test_operands_engines : ∀ i ∈ ([
    .mfmt hd (.reg v1), .mma ⟨hd, true, v1, s4, s4, 0, 0, 0, 0⟩, .mmac ⟨hd, true, s4, s4, .zero, 0, 0, 0, 0⟩,
    .tld ⟨hd, false, v1, s4, 1, 0⟩, .tst ⟨hd, false, s4, v1, 1, 0⟩, .tzro ⟨hd, false, .zero, v0, 1, 0⟩,
    .trow hd false v1 v1 1, .trow hd true s4 s4 1, .wbld ⟨hd, false, true, s4, v1, 0⟩, .wbinv ⟨hd, false, some (v1, 1), 0⟩,
    .mdrn ⟨hd, false, true, false, false, .rne, false, .f32, s4, s4, v1, 0, 0, 0⟩, .vmm ⟨hd, false, .f32, s4, v1, v1, 1, 1⟩,
    .kmma hd true v1 v1 v1, .smpl .lin ⟨hd, .f32, .lz, s4, v1, s4, 0, 0, 0, 0⟩, .smpl .pt ⟨hd, .f32, .lz, v1, v1, v1, 0, 0, 0, 0⟩,
    .smpg 1 ⟨hd, .f32, .ll .zero, v1, v1, s4, 0, 0, 0, 0⟩, .latf .lin ⟨hd, .f32, .lz, .q 1, v1, s4, 0, 0, 0, 0⟩,
    .smpq hd false v1 (.k 1) s4 0, .smpq hd true v1 s4 s4 0, .wcpin hd false v1, .wcinv hd (some .zero), .trace hd true true s4 s4 0,
    .hitld hd .t s4, .hitld hd .id v1, .vbld hd .id v1 v1 s4 0, .vbld hd .dep v1 s4 s4 0, .rng hd true s4 0,
    .rngget hd true .zero, .rngset hd .seed v1, .rngset hd .key .zero, .rngadv hd (.reg (.k 1))] : List Instr),
    BadOperand i := by decide +kernel

/-- Words refused by name (R51 step 5, R56, R58, R59): an opcode that is not assigned, a modifier on a control
opcode, a field the form does not use, an FN of no form, a reserved operand code. -/
theorem test_words_refused :
    decode (word 0xFF 0 0 0 0 0 0 0) = .error .opcode ∧ decode 0 = .error .opcode
    ∧ decode (0x01 ||| marks 0 1 0 0) = .error .field ∧ decode (word 0x01 0 0 0 0 0 0 1) = .error .field
    ∧ decode (word 0x02 0 (s 4) 0 3 0 0 0) = .error .field ∧ decode (word 0x05 0x3F0 1 0 0 0 0 0) = .error .operand
    ∧ decode (word 0x0F 5 0x34F 0 0 0 0 0) = .error .operand
    ∧ decode (word 0x40 3 1 2 0 3 0x10 7) = .error .field := by decide +kernel


/-! ## Witnesses: states and operands that meet the hypotheses of the statements together -/

/-- A wave of 16 threads of a privileged task on core 0 issues the instruction at slot 0 of a kernel that declares
every register; every register and mask is as at launch. -/
def e0 : Env :=
  { p := { wave := 2, lanes := 0xFFFF, slot := 0, first := 0, next := 1, pair := false, word := 1, lineWord := 1,
           mode := 1, masks := 0xFFFF :: List.replicate 15 0, inp := false, moved := 0 },
    w := probeWave 2 1, k := Crew.launch 1 0 0 0 false probeHeader [] 0 0, t := probeTask 0 }

/-- The machine in which that issue is in progress. -/
def box (e : Env) : State :=
  { State.reset.withFetchWord 96 1 with
    waves := [e.w]
    crews := [e.k]
    tasks := [e.t]
    agenda := []
    iss := some e.p }

/-- The cells of bytes at an address; those of the page tables, with an absent page from 0x4000000 on and no
page from 0x8000000 on. -/
def cellsAt (a : Nat) (bs : List Byte) : List Host.Cell := bs.zipIdx.map fun x => (a + x.2, x.1)
def tableCells : List Host.Cell := (probeTables.flatMap fun e => cellsAt e.1 (leBytes 8 e.2)) ++ cellsAt 0x14008 (leBytes 8 3 ++ leBytes 8 0)

/-- Threads changed lane by lane. -/
def threads (e : Env) (f : Nat → Thread → Thread) : Env := { e with w := e.w.each (~~~0) f }

/-- A head whose guard is k1, which is empty; and the plain head's guard takes every thread. -/
def off : Head := ⟨false, 1, false⟩

/-- The task without privilege. -/
def user (e : Env) : Env := { e with t := { e.t with prv := false } }

/-- Every thread a helper. -/
def helpers (e : Env) : Env := threads e fun _ th => { th with helper := true }

/-- v1 of each thread holds its lane, v2 its lane times 128, v3 one more than a multiple of 128. -/
def numbered (e : Env) : Env := threads e fun l th =>
  { th with v := ((th.v.set 1 (BitVec.ofNat 32 l)).set 2 (BitVec.ofNat 32 (128 * l))).set 4 (BitVec.ofNat 32 (128 * l + 1)) }

theorem issuing_plain : Issuing (box e0) e0 := ⟨rfl, by decide +kernel, by decide +kernel, by decide +kernel⟩
theorem issuing_user : Issuing (box (user e0)) (user e0) := ⟨rfl, by decide +kernel, by decide +kernel, by decide +kernel⟩
theorem issuing_helpers : Issuing (box (helpers e0)) (helpers e0) :=
  ⟨rfl, by decide +kernel, by decide +kernel, by decide +kernel⟩
theorem issuing_numbered : Issuing (box (numbered e0)) (numbered e0) :=
  ⟨rfl, by decide +kernel, by decide +kernel, by decide +kernel⟩

/-- The issue of one lane, of a kernel whose line marks every slot as a branch target. -/
def lone : Env := { e0 with p := { e0.p with lanes := 1 } }
def lineOfTargets : State := { box lone with dev := ((box lone).devWrite 188 (leBytes 4 0x0100001F)).dev }

theorem issuing_lone : Issuing lineOfTargets lone := ⟨rfl, by decide +kernel, by decide +kernel, by decide +kernel⟩

/-- Declared v operands up to the last register; and of the uniform registers. -/
theorem declared_v : VDeclared e0 (.v 255) 1 ∧ VDeclared e0 (.v 254) 2 ∧ VDeclared e0 (.v 0) 4 ∧ VDeclared e0 (.k 1) 9 := by
  refine ⟨?_, ?_, ?_, ?_⟩ <;> intro r h <;> cases h <;> decide
theorem declared_s : SDeclared e0 (.s 0) ∧ SDeclared e0 (.s 63) ∧ SDeclared e0 (.s 64) ∧ SDeclared e0 (.s 511) := by
  refine ⟨?_, ?_, ?_, ?_⟩ <;> intro r h <;> cases h <;> decide

/-- Bit 0 of a register set. -/
def withReg (s : State) (r : Reg) (v : Dword) : State := s.setReg r v

theorem witness_control_states : Issuing (box e0) e0 ∧ modeOk e0.w.mode = true
    ∧ (box e0).flag (.dbgctl e0.t.ctx) 0 = false ∧ e0.guard hd ≠ 0 ∧ e0.guard off = 0 ∧ Issuing lineOfTargets lone
    ∧ (lineOfTargets.testTargets lone (fun _ => lone.dispTarget 4) (lanesOf (lone.guard hd))).2 = [] :=
  ⟨issuing_plain, by decide +kernel, by decide +kernel, by decide +kernel, by decide +kernel, issuing_lone, by decide +kernel⟩

/-- A thread that waits until clock 5. -/
theorem witness_park_timeout : let e := threads e0 fun _ th => { th with run := .wait (.park (some 5)) }
    (box e).waveAt? 0 0 = some e.w ∧ e.w.halted = false ∧ (e.w.th 15).run = .wait (.park (some 5)) :=
  ⟨rfl, by decide +kernel, by decide +kernel⟩

theorem witness_control_transfers : Issuing (box e0) e0 ∧ (branchOf (box e0) e0 (.br hd .always 0)).isSome = true
    ∧ (branchOf (box e0) e0 (.br hd (.z (.s 4)) 0)).isSome = true ∧ branchOf (box e0) e0 (.br hd (.nz (.s 4)) 0) = none
    ∧ (branchOf (box e0) e0 (.ret hd (.v 4))).isSome = true
    ∧ Issuing lineOfTargets lone ∧ lone.guard hd ≠ 0 ∧ VDeclared e0 (.v 255) 1 ∧ SDeclared e0 (.s 64)
    ∧ (lineOfTargets.testTargets lone (fun l => lone.regTarget lineOfTargets l (.v 4)) (lanesOf (lone.guard hd))).2 = []
    ∧ ((lineOfTargets.putS lone.w 1 (.s 64) 1).testTargets lone (fun _ => lone.dispTarget 3) (lanesOf (lone.guard hd))).2
      = [] :=
  ⟨issuing_plain, by decide +kernel, by decide +kernel, by decide +kernel, by decide +kernel, issuing_lone,
    by decide +kernel, declared_v.1, declared_s.2.2.1, by decide +kernel⟩

/-- The last thread is at slot 4 of a line, at a loop whose end is slot 4; v4 is zero, so that a count in it skips. -/
theorem witness_loops : Issuing (box e0) e0 ∧ e0.p.slot + (4 : BitVec 20).toNat < e0.k.hdr.slots
    ∧ (∀ l < 16, (e0.w.th l).depth < 4) ∧ e0.loopN (box e0) 3 (.imm 10) ≠ 0 ∧ Issuing lineOfTargets lone
    ∧ lone.loopN lineOfTargets 0 (.reg (.v 4)) = 0
    ∧ (lineOfTargets.testTargets lone (fun _ => lone.p.slot + (2 : BitVec 20).toNat + 1) [0]).2 = [] :=
  ⟨issuing_plain, by decide +kernel, by decide +kernel, by decide +kernel, issuing_lone, by decide +kernel⟩

/-- A level whose end is slot 0 and whose body is one slot long, with a count of one and of zero. -/
def looping (n : Nat) : Thread :=
  { Thread.launch probeHeader 0 0 0 0 false false with
    loops := [BitVec.ofNat 64 (n + 2 ^ 52), 0, 0, 0] }

theorem witness_loop_ends : (looping 1).run = .ready
    ∧ (getAt (looping 1).loops 0 0).getLsbD 52 = true ∧ (∀ m < 4, 0 < m → (getAt (looping 1).loops m 0).getLsbD 52 = false)
    ∧ (getAt (looping 1).lends 0 0).toNat % 2 ^ 53 ∈ [0] ∧ (getAt (looping 1).loops 0 0).toNat % 2 ^ 32 ≠ 0
    ∧ (getAt (looping 0).loops 0 0).toNat % 2 ^ 32 = 0 := by decide +kernel

/-- The call queue of context 0 is on, and q0 takes replies. -/
def calling : Env := { e0 with k := { e0.k with qs := e0.k.qs.set 0 ⟨4, 0, 0, 0, [], []⟩ } }

theorem witness_system_calls : let s := (box calling).setReg (.cqbase 0) 1
    s.env? = some calling ∧ calling.w.shapeOk calling.k.hdr = true ∧ calling.k.shapeOk = true
    ∧ calling.p.lanes &&& ~~~calling.w.all = 0 ∧ calling.real (calling.guard hd) ≠ 0
    ∧ s.callRoom 0 = true
    ∧ (calling.k.q 0).kind = 4 ∧ 2 ≤ (calling.k.q 0).free := ⟨rfl, by decide +kernel⟩

theorem witness_tenq : Issuing (box (numbered e0)) (numbered e0)
    ∧ (∀ l ∈ lanesOf ((numbered e0).real ((numbered e0).guard hd)), (numbered e0).src (box (numbered e0)) l true (.v 2) % 128 = 0)
    ∧ (lanesOf ((numbered e0).real ((numbered e0).guard hd))).find?
      (fun l => (numbered e0).src (box (numbered e0)) l true (.v 4) % 128 != 0) = some 0 :=
  ⟨issuing_numbered, by decide +kernel⟩

theorem witness_traps : Issuing (box e0) e0 ∧ e0.real (e0.guard hd) ≠ 0 ∧ e0.real (e0.guard off) = 0
    ∧ Issuing (box (helpers e0)) (helpers e0) ∧ (helpers e0).real ((helpers e0).guard hd) = 0
    ∧ ((box e0).setReg (.dbgctl 0) 1).flag (.dbgctl 0) 0 = true ∧ e0.w.brkPass ≠ some e0.p.slot :=
  ⟨issuing_plain, by decide +kernel, by decide +kernel, issuing_helpers, by decide +kernel⟩

theorem witness_special_reads : Issuing (box e0) e0 ∧ (box e0).logging e0.t.ctx = false ∧ (box e0).replaying e0.t.ctx = false
    ∧ e0.t.prv = true ∧ VDeclared e0 (.v 254) 2 ∧ SDeclared e0 (.s 511) ∧ Issuing (box (user e0)) (user e0)
    ∧ (user e0).t.prv = false ∧ (box (user e0)).logging 0 = false ∧ (box (user e0)).replaying 0 = false :=
  ⟨issuing_plain, by decide +kernel, by decide +kernel, by decide +kernel, declared_v.2.1, declared_s.2.2.2, issuing_user,
    by decide +kernel⟩

/-- s5 holds 31, s6 holds 62, s7 holds a spill area of 40 lines. -/
def uniforms : Env := { e0 with w := { e0.w with sp := ((e0.w.sp.set 5 31).set 6 62).set 7 (BitVec.ofNat 64 (40 * 2 ^ 56)) } }

theorem witness_special_writes : Issuing (box uniforms) uniforms ∧ uniforms.guard hd ≠ 0
    ∧ uniforms.src (box uniforms) 0 true (.s 5) = 31 ∧ uniforms.src (box uniforms) 0 true (.s 6) = 62
    ∧ uniforms.t.prv = true ∧ (∀ l < 16, uniforms.src (box uniforms) l true (.v 4) < 2 ^ 33)
    ∧ bitsOf (uniforms.src (box uniforms) 0 true (.s 7)) 1 15 = 0 ∧ uniforms.src (box uniforms) 0 true (.s 7) / 2 ^ 56 = 40
    ∧ Issuing (box (user e0)) (user e0) ∧ (user e0).t.prv = false :=
  ⟨⟨rfl, by decide +kernel, by decide +kernel, by decide +kernel⟩, by decide +kernel, by decide +kernel, by decide +kernel,
    by decide +kernel, by decide +kernel, by decide +kernel, by decide +kernel, issuing_user, by decide +kernel⟩

theorem witness_uniform : Issuing (box e0) e0 ∧ SDeclared e0 (.s 0) ∧ SDeclared e0 (.s 511)
    ∧ (Ty.i32.bits = 32 ∧ Ty.b64.bits = 64) ∧ (1 ≤ (1 : BitVec 7).toNat ∧ (64 : BitVec 7).toNat ≤ 64) :=
  ⟨issuing_plain, declared_s.1, declared_s.2.2.2, by decide +kernel⟩

/-- The statements about vector instructions ask for an issue, types of the form, and declared destinations. -/
theorem witness_vector : Issuing (box e0) e0 ∧ VDeclared e0 (.v 255) 1 ∧ VDeclared e0 (.v 254) 2
    ∧ scalarInt .i8 ∧ scalarInt .b64 ∧ (Instr.add, fun t sat a b => resultBits t sat (valueIn t a + valueIn t b)) ∈ integerPacked
    ∧ (Instr.sra, fun t (_ : Bool) a b => resultBits t false (valueIn t a / 2 ^ (b % 256))) ∈ integerScalar :=
  ⟨issuing_plain, declared_v.1, declared_v.2.1, by simp [scalarInt], by simp [scalarInt], by simp [integerPacked],
    by simp [integerScalar]⟩

theorem witness_small_formats : (0x38 < 2 ^ Fmt.e4m3.width ∧ (Fmt.e4m3.decode false 0x38).isNan = false)
    ∧ (0x7B < 2 ^ Fmt.e5m2.width ∧ (Fmt.e5m2.decode false 0x7B).isNan = false)
    ∧ (0xF < 2 ^ Fmt.e2m1.width ∧ (Fmt.e2m1.decode false 0xF).isNan = false) := by decide +kernel

theorem witness_masks : Issuing (box e0) e0 ∧ VDeclared e0 (.v 254) 2 ∧ SDeclared e0 (.s 511) ∧ VDeclared e0 (.k 1) 9 :=
  ⟨issuing_plain, declared_v.2.1, declared_s.2.2.2, declared_v.2.2.2⟩

theorem witness_group_reductions : Issuing (box e0) e0 ∧ e0.exec hd none ≠ 0 ∧ e0.exec off none = 0 :=
  ⟨issuing_plain, by decide +kernel⟩


/-! ## Witnesses: memory -/

/-- Global accesses of lanes at their number times 128; v10 pairs hold them. -/
def addressed : Env := threads e0 fun l th => { th with v := th.v.set 10 (BitVec.ofNat 32 (128 * l)) }

theorem issuing_addressed : Issuing (box addressed) addressed := ⟨rfl, by decide +kernel, by decide +kernel, by decide +kernel⟩

/-- Every lane reaches its address in the crew's scratchpad, in global memory and at one address for all. -/
theorem witness_memory_issue : Issuing (box addressed) addressed
    ∧ (∀ l < 16, ((box addressed).target addressed.k addressed.t .crew false 4
        (addressOf (box addressed) addressed l .crew (.v 10) 0)).isOk = true)
    ∧ (∀ l < 16, ((box addressed).target addressed.k addressed.t .glob false 8
        (addressOf (box addressed) addressed l .glob (.v 10) 8)).isOk = true)
    ∧ ((box addressed).target addressed.k addressed.t .bcast false 4
        (addressOf (box addressed) addressed 0 .bcast (.s 3) 0)).isOk = true
    ∧ ((box addressed).target addressed.k addressed.t .crew true 8
        (addressOf (box addressed) addressed 0 .crew (.s 3) 0)).isOk = true
    ∧ addressed.real (addressed.guard hd) ≠ 0 ∧ addressed.guard off = 0
    ∧ Issuing (box (helpers e0)) (helpers e0) ∧ (helpers e0).guard hd ≠ 0
    ∧ (helpers e0).guard hd &&& ~~~(helpers e0).w.helperMask = 0
    ∧ (∀ l < 16, (0x322) ∉ (addressed.w.th l).fly) :=
  ⟨issuing_addressed, by decide +kernel, by decide +kernel, by decide +kernel, by decide +kernel, by decide +kernel,
    by decide +kernel, issuing_helpers, by decide +kernel, by decide +kernel, by decide +kernel⟩

/-- s5 and s6 hold a region of two pages, s7 a misaligned base, s8 a length past 2^40. -/
def regions : Env := { e0 with w := { e0.w with
  sp := (((e0.w.sp.set 5 0x30000).set 6 0x20000).set 7 0x30001).set 8 (BitVec.ofNat 64 (2 ^ 41)) } }

theorem witness_regions : Issuing (box regions) regions
    ∧ (regions.usrc (box regions) (regions.guard hd) (.s 5)).toNat % 2 ^ 16 = 0
    ∧ (regions.usrc (box regions) (regions.guard hd) (.s 6)).toNat % 2 ^ 16 = 0
    ∧ (regions.usrc (box regions) (regions.guard hd) (.s 7)).toNat % 2 ^ 16 ≠ 0
    ∧ (regions.usrc (box regions) (regions.guard hd) (.s 8)).toNat % 2 ^ 16 = 0
    ∧ 2 ^ 40 < (regions.usrc (box regions) (regions.guard hd) (.s 8)).toNat :=
  ⟨⟨rfl, by decide +kernel, by decide +kernel, by decide +kernel⟩, by decide +kernel⟩

/-- Crews of one task on cores 0 and 3 of a cluster. -/
def pairOfCrews : State := { box e0 with crews := [e0.k, { e0.k with id := 9, core := 3 }] }

theorem witness_addresses : (0 < 4 ∧ 6 % 4 ≠ 0 ∧ 8 % 4 = 0 ∧ 8 < 2 ^ 56)
    ∧ (262140 < e0.k.hdr.spad * 256 ∧ e0.k.hdr.spad * 256 ≤ 262144)
    ∧ pairOfCrews.crews.find? (fun c => c.task == e0.k.task && c.core == e0.k.core / 8 * 8 + (3 * 2 ^ 20 + 8) / 2 ^ 20)
      = some { e0.k with id := 9, core := 3 }
    ∧ (∀ c ∈ (box e0).crews, ¬(c.task = e0.k.task ∧ c.core / 8 = e0.k.core / 8 ∧ c.core % 8 = (3 * 2 ^ 20 + 8) / 2 ^ 20)) := by
  decide +kernel

theorem witness_memory_faults : Issuing (box (numbered e0)) (numbered e0)
    ∧ (let e := numbered e0
      let bad (n : Nat) : Bool := (e.exec hd none).getLsbD n && !(e.w.th n).helper
        && ((box e).target e.k e.t .crew false 4 (addressOf (box e) e n .crew (.v 1) 0)).isOk == false
      (List.range 64).find? bad = some 1
      ∧ ((box e).target e.k e.t .crew false 4 (addressOf (box e) e 1 .crew (.v 1) 0)).isOk = false)
    ∧ (numbered e0).guard hd ≠ 0 ∧ (numbered e0).guard hd &&& ~~~(numbered e0).w.helperMask ≠ 0
    ∧ ((box (numbered e0)).target e0.k e0.t .crew false 64
      (addressOf (box (numbered e0)) (numbered e0) 0 .crew (.s 3) 4)).isOk = false
    ∧ ((box uniforms).target e0.k e0.t .crew true 8 (addressOf (box uniforms) uniforms 0 .crew (.s 5) 0)).isOk = false :=
  ⟨issuing_numbered, by decide +kernel, by decide +kernel, by decide +kernel, by decide +kernel, by decide +kernel⟩

/-! ## Witnesses: results that land -/

/-- An access of a lane, or its result. -/
def access (i : Instr) (l a b c : Nat) : Pend := { waiting e0 i (1#64 <<< l) l a b c [] with issue := 1 }

/-- A wave with outstanding results. -/
def pending (ps : List Pend) : Env := { e0 with w := { e0.w with out := ps } }

/-- The machine in which they are outstanding; the first 64 bytes of the crew's scratchpad hold zeros. -/
def landing (ps : List Pend) : State :=
  { box (pending ps) with
    iss := none
    cores := ((box e0).putAt (.spad 0) 0 (List.replicate 64 0)).cores }

def landOf (p : Pend) (ps : List Pend) : Land := ⟨(pending (p :: ps)).w, e0.k, e0.t, p⟩

theorem shape_plain : e0.w.shapeOk e0.k.hdr = true ∧ e0.k.shapeOk = true := by decide +kernel

theorem landing_first (p : Pend) (ps : List Pend) (h : (landing (p :: ps)).heldBack (landOf p ps) 0 = false)
    (hs : samples p.i = true → p.c ≠ 2) (hl : p.lane < 16) : Landing (landing (p :: ps)) 0 0 0 (landOf p ps) := by
  exact ⟨rfl, rfl, shape_plain.1, shape_plain.2, h, hs, hl⟩

theorem landing_memory_none : (landing []).memOk = true ∧ 0 < (landing []).cores.length := by decide +kernel

/-- Its memories are canonical. -/
theorem landing_memory (ps : List Pend) : (landing ps).memOk = true ∧ 0 < (landing ps).cores.length :=
  landing_memory_none

/-- A result of two words with flags, one that a mask register goes with, and one of an s register. -/
def twoWords : Pend := { access (.fdiv (bin .f64 (.v 2) (.v 4) (.reg (.v 6)))) 15 0 0 0 with
  ext := [5, 6], dst := .v 254, done := true, flags := 3 }
def withMask : Pend := { access (.shfl .xor ⟨hd, none, .b32, .v 2, .v 1, .imm 1, 4⟩) 3 0 0 1 with
  ext := [7], dst := .v 255, done := true }
def toUniform : Pend := { access (.wred .add (un .i32 (.s 511) (.v 1))) 0 0 0 0 with
  lanes := 0xFFFF, ext := [7, 8], dst := .s 511, done := true }

theorem witness_landed_results : (∀ p ∈ [twoWords, withMask, toUniform],
      Landing (landing [p]) 0 0 0 (landOf p []) ∧ p.done = true ∧ segmented p.i = false ∧ samples p.i = false)
    ∧ 254 + twoWords.ext.length ≤ e0.k.hdr.vregs ∧ (4 : Fin 16) ≠ 0 ∧ 255 + withMask.ext.length ≤ e0.k.hdr.vregs
    ∧ 511 - 64 < e0.k.hdr.scr := by
  refine ⟨?_, by decide +kernel⟩
  intro p hp
  simp only [List.mem_cons, List.mem_nil_iff, or_false] at hp
  rcases hp with rfl | rfl | rfl <;>
    exact ⟨landing_first _ _ (by decide +kernel) (by decide +kernel) (by decide +kernel), by decide +kernel⟩

/-- Strict mode: plain reads are exact. -/
def strictly (s : State) : State := { s with ctl := ((box e0).setField (.cxsched 0) 1 1 1).ctl }

def loadOf : Pend := access (.ld ⟨hd, none, .n32, .crew, none, false, .v 255, .v 10, 0⟩) 3 16 0 0
def orderedLoad : Pend := access (.ld ⟨hd, none, .n64, .crew, some .dev, false, .v 254, .v 10, 0⟩) 3 16 0 0
def uniformLoad : Pend := access (.sld ⟨hd, .n64, .crew, .s 511, .s 4, 0⟩) 0 16 0 0

theorem landing_strict (p : Pend) (h : (strictly (landing [p])).heldBack (landOf p []) 0 = false)
    (hs : samples p.i = true → p.c ≠ 2) (hl : p.lane < 16) : Landing (strictly (landing [p])) 0 0 0 (landOf p []) := by
  exact ⟨rfl, rfl, shape_plain.1, shape_plain.2, h, hs, hl⟩

/-- What a load's hypotheses ask of it, at a byte address and with a size. -/
abbrev LoadMet (s : State) (x : Land) (p : Pend) (a n : Nat) : Prop :=
  p.done = false ∧ s.relaxed x.t = false ∧ x.actor.conflicts s ((Target.pad 0 a a).span n) = false
    ∧ p.lanes = 1#64 <<< p.lane ∧ (s.target x.k x.t .crew false n p.a.toNat).toOption = some (.pad 0 a a)
    ∧ s.arriving x.w [p.lane] (.pad 0 a a) n = false ∧ s.logging 0 = false ∧ s.replaying 0 = false ∧ x.queue = []
    ∧ (∀ l < 16, s.sendingRed x.w l = false)
    ∧ ((s.readTgt x.t 0 (x.w.th p.lane).storeQ (.pad 0 a a) n (some 0)).toOption).map (·.1) = some (List.replicate n 0)

theorem witness_loads : (∀ p ∈ [loadOf, orderedLoad, uniformLoad], Landing (strictly (landing [p])) 0 0 0 (landOf p []))
    ∧ LoadMet (strictly (landing [loadOf])) (landOf loadOf []) loadOf 16 4
    ∧ LoadMet (strictly (landing [orderedLoad])) (landOf orderedLoad []) orderedLoad 16 8
    ∧ LoadMet (strictly (landing [uniformLoad])) (landOf uniformLoad []) uniformLoad 16 8
    ∧ 255 + regsOf .n32 ≤ e0.k.hdr.vregs ∧ 254 + regsOf .n64 ≤ e0.k.hdr.vregs ∧ 511 - 64 < e0.k.hdr.scr := by
  refine ⟨?_, by decide +kernel, by decide +kernel, by decide +kernel, by decide +kernel⟩
  intro p hp
  simp only [List.mem_cons, List.mem_nil_iff, or_false] at hp
  rcases hp with rfl | rfl | rfl <;>
    exact landing_strict _ (by decide +kernel) (by decide +kernel) (by decide +kernel)

/-- A store of four bytes to the crew's scratchpad, one to global memory, and one already queued. -/
def storeOf : Pend := access (.st ⟨hd, none, .n32, .crew, none, false, .v 4, .v 10, 0⟩) 3 16 0xAABBCCDD 0
def storeFar : Pend := access (.st ⟨hd, none, .n32, .glob, some .dev, false, .v 4, .v 10, 0⟩) 3 0x30000 1 0
def entryOf : StoreEnt :=
  { slot := 0, issue := 1, place := .spad 0, addr := 16, va := 16, own := 16, asid := 0,
    leaf := ⟨true, true, .uo, false, false, false, false, false, 0⟩, space := 1, bytes := [1, 2, 3, 4], rel := true,
    barrier := 0, msgs := [] }

/-- A wave whose lane 3 has a queued store. -/
def queued : Env := threads e0 fun l th => if l = 3 then { th with storeQ := [entryOf] } else th

theorem witness_stores : (∀ p ∈ [storeOf, storeFar], Landing (landing [p]) 0 0 0 (landOf p []))
    ∧ (let s := landing [storeOf]
      let x := landOf storeOf []
      (s.target x.k x.t .crew true 4 storeOf.a.toNat).toOption = some (.pad 0 16 16)
      ∧ s.arriving x.w [3] (.pad 0 16 16) 4 = false ∧ x.actor.conflicts s ((Target.pad 0 16 16).span 4) = false)
    ∧ (let s := landing [storeFar]
      let x := landOf storeFar []
      (s.target x.k x.t .glob true 4 storeFar.a.toNat).toOption = some (.glob 0x30000)
      ∧ ((s.translate (taskAcc x.t true (some 0)) 0x30000).toOption.map fun p => (p.leaf.kind, p.place, p.pa))
        = some (.rc, .dev, 0x30000)
      ∧ s.arriving x.w [3] (.glob 0x30000) 4 = false ∧ x.actor.conflicts s ((Target.glob 0x30000).span 4) = false)
    ∧ (let s : State := { landing [] with waves := [queued.w] }
      s.waveAt? 0 0 = some queued.w ∧ s.wave? 2 = some queued.w ∧ (queued.w.th 3).storeQ[0]? = some entryOf
      ∧ 0 < s.cores.length ∧ s.sending queued.w 3 = false ∧ queued.w.mayLeave 3 0 entryOf = true ∧ s.memOk = true
      ∧ ∀ i < 4, (s.readAt (.spad 0) (16 + i) 1).isOk = true) := by
  refine ⟨?_, by decide +kernel⟩
  intro p hp
  simp only [List.mem_cons, List.mem_nil_iff, or_false] at hp
  rcases hp with rfl | rfl <;> exact landing_first _ _ (by decide +kernel) (by decide +kernel) (by decide +kernel)

theorem witness_own_stores : (∀ e ∈ [entryOf], e.place = .spad 0)
    ∧ ((landing []).readAt (.spad 0) 14 4).toOption = some [0, 0, 0, 0] := by decide +kernel

def atomOf : Pend := access (.atom .add ⟨hd, .n32, .crew, .rlx, .v 254, .v 10, .v 7, .v 0, 0⟩) 3 16 5 0
def atomWide : Pend := access (.atom .cas128 ⟨hd, .b64, .crew, .rlx, .v 252, .v 10, .v 8, .v 12, 0⟩) 3 32 5 0
def redOf : Pend := access (.red .max ⟨hd, .i64, .crew, .rlx, .v 10, .v 8, 0⟩) 3 16 5 0
def counterOf : Pend := { access (.cadd ⟨hd, true, .crew, .s 4, .imm 1⟩) 0 16 1 0 with lanes := 0xFFFF }

/-- What an update of n bytes at a byte address of the scratchpad asks for. -/
abbrev UpdateMet (s : State) (x : Land) (p : Pend) (a n : Nat) : Prop :=
  p.done = false ∧ p.taint = false ∧ x.queue = [] ∧ s.arriving x.w x.lanes (.pad 0 a a) n = false
    ∧ x.actor.conflicts s ((Target.pad 0 a a).span n) = false ∧ s.logging 0 = false ∧ s.replaying 0 = false
    ∧ (s.readAt (.spad 0) a n).toOption = some (List.replicate n 0)
    ∧ (∀ l ∈ x.lanes, s.sending x.w l = false)
    ∧ (s.target x.k x.t .crew true n p.a.toNat).toOption = some (.pad 0 a a)

theorem witness_atomics : (∀ p ∈ [atomOf, atomWide, redOf, counterOf], Landing (landing [p]) 0 0 0 (landOf p [])
      ∧ (landing [p]).memOk = true ∧ 0 < (landing [p]).cores.length)
    ∧ UpdateMet (landing [atomOf]) (landOf atomOf []) atomOf 16 4
    ∧ UpdateMet (landing [atomWide]) (landOf atomWide []) atomWide 32 16
    ∧ UpdateMet (landing [redOf]) (landOf redOf []) redOf 16 8
    ∧ UpdateMet (landing [counterOf]) (landOf counterOf []) counterOf 16 8
    ∧ Ty.n32 ∈ atomicTypes .add ∧ Ty.b64 ∈ atomicTypes .cas128 ∧ Ty.i64 ∈ atomicTypes .max
    ∧ 254 + max 1 (4 / 4) ≤ e0.k.hdr.vregs ∧ 252 + max 1 (16 / 4) ≤ e0.k.hdr.vregs := by
  refine ⟨?_, by decide +kernel, by decide +kernel, by decide +kernel, by decide +kernel, by decide +kernel⟩
  intro p hp
  simp only [List.mem_cons, List.mem_nil_iff, or_false] at hp
  rcases hp with rfl | rfl | rfl | rfl <;>
    exact ⟨landing_first _ _ (by decide +kernel) (by decide +kernel) (by decide +kernel), landing_memory _⟩

/-- Four bytes on their way to offset 16 with the sync word at 32, stored and combined. -/
def arrivalOf (op : Option AtomOp) : Arrival :=
  { crew := 1, core := 0, addr := 16, off := 16, bytes := [1, 0, 0, 0], ty := .n32, op := op, sync := 32, srcCore := 0,
    ctx := 0, wslot := 0, lane := 0, slot := 0, issue := 1, agent := ⟨2, 0, 1, 0⟩, mark := [], msgs := [] }

def countedOf : Pend := access (.stSy ⟨hd, none, .n32, .crew, none, false, .v 4, .v 7, .s 6, 0⟩) 3 16 1 32
def combinedOf : Pend := access (.redx .add ⟨hd, .n32, .crew, .rlx, .v 0, .v 7, .v 4, .s 6, 0⟩) 3 16 1 32

theorem witness_counted_stores :
    (∀ op ∈ [none, some AtomOp.add], let s : State := { landing [] with arrivals := [arrivalOf op] }
      s.arrivals[0]? = some (arrivalOf op) ∧ (∀ b ∈ s.arrivals.take 0, b.before (arrivalOf op) = false) ∧ s.memOk = true
      ∧ 0 < s.cores.length ∧ s.logging 0 = false ∧ s.replaying 0 = false
      ∧ (s.readAt (.spad 0) 16 4).toOption = some [0, 0, 0, 0]
      ∧ (s.readAt (.spad 0) 32 16).toOption = some (List.replicate 16 0) ∧ 16 + 4 ≤ 32)
    ∧ (∀ p ∈ [countedOf, combinedOf], Landing (landing [p]) 0 0 0 (landOf p [])
      ∧ p.done = false ∧ p.taint = false ∧ (landOf p []).queue = [])
    ∧ (∀ p ∈ [countedOf, combinedOf],
      ((landing [p]).target e0.k e0.t .crew true 4 p.a.toNat).toOption = some (.pad 0 16 16)
      ∧ ((landing [p]).target e0.k e0.t .crew true 16 p.c.toNat).toOption = some (.pad 0 32 32)
      ∧ (landing [p]).crews.find? (fun k => k.task == e0.k.task && k.core == 0 && decide (k.spadBase ≤ 16)
        && decide (16 < k.spadBase + k.hdr.spad * 256)) = some e0.k)
    ∧ e0.k.spadBase ≤ 32 ∧ 32 + 16 ≤ e0.k.spadBase + e0.k.hdr.spad * 256 := by
  refine ⟨by decide +kernel, ?_, by decide +kernel, by decide +kernel⟩
  intro p hp
  simp only [List.mem_cons, List.mem_nil_iff, or_false] at hp
  rcases hp with rfl | rfl <;>
    exact ⟨landing_first _ _ (by decide +kernel) (by decide +kernel) (by decide +kernel), by decide +kernel⟩


/-! ## Witnesses: long instructions, synchronisation, queue registers -/

/-- The machine of an issue in which the first 64 bytes of the crew's scratchpad hold zeros. -/
def padded (e : Env) : State := { box e with cores := ((box e0).putAt (.spad 0) 0 (List.replicate 64 0)).cores }

/-- No thread of an issue has met a fault. -/
abbrev Unfaulted (e : Env) : Prop := ∀ l < 16, (e.w.th l).dfault = none

theorem no_fault_met (e : Env) (hw : e.p.lanes = 1) (h : Unfaulted e) : NoFaultMet e := by
  intro l f hl hf
  have : l < 16 := by
    rw [hw] at hl
    have : l = 0 := by simpa using hl
    omega
  rw [h l this] at hf
  cases hf

/-- One lane, in a part of its segment; v48 and v49 are not zero, s5 holds 16 (a step of 64) and s6 17. -/
def sweeping (part : Nat) : Env :=
  let e := threads lone fun _ th => { th with
    seg := part
    v := (th.v.set 48 1).set 49 1 }
  { e with w := { e.w with sp := (e.w.sp.set 5 (BitVec.ofNat 64 (16 + 64 * 2 ^ 32))).set 6 17 } }

def expanding (base : Nat) : Expand := ⟨hd, .b32, .crew, .v 16, .s (Fin.ofNat 512 base), .v 48, .s 65, 2⟩

theorem issuing_sweeping : ∀ n < 3, Issuing (padded (sweeping n)) (sweeping n) := by
  intro n hn
  refine ⟨rfl, ?_, ?_, ?_⟩ <;> (interval_cases n <;> decide +kernel)

theorem faults_sweeping : ∀ n < 3, NoFaultMet (sweeping n) := by
  intro n hn
  apply no_fault_met _ rfl
  interval_cases n <;> decide +kernel

def stcOf : Pend := access (.stc (expanding 5)) 3 16 7 0

theorem witness_load_expand_store_compact :
    (Issuing (box (helpers e0)) (helpers e0) ∧ (helpers e0).guard hd &&& ~~~(helpers e0).w.helperMask = 0
      ∧ (helpers e0).guard hd ≠ 0 ∧ SDeclared e0 (.s 65) ∧ e0.guard off = 0)
    ∧ (∀ n < 3, Issuing (padded (sweeping n)) (sweeping n) ∧ NoFaultMet (sweeping n))
    ∧ (sweeping 0).guard hd &&& ~~~(sweeping 0).w.helperMask ≠ 0
    ∧ ((sweeping 0).w.th 0).seg = 0 ∧ ((sweeping 1).w.th 0).seg ≠ 0
    ∧ addressOf (padded (sweeping 0)) (sweeping 0) 0 .crew (.s 5) 0 % 4 = 0
    ∧ addressOf (padded (sweeping 0)) (sweeping 0) 0 .crew (.s 6) 0 % 4 ≠ 0
    ∧ (∀ j < 2, (chosen (padded (sweeping 0)) (sweeping 0) (expanding 5) j) = 1
      ∧ ((padded (sweeping 0)).target e0.k e0.t .crew false 4 (addressOf (padded (sweeping 0)) (sweeping 0) 0 .crew (.s 5)
        (BitVec.ofNat 32 (elementOf (padded (sweeping 0)) (sweeping 0) (expanding 5) j 0 * 4)))).isOk = true)
    ∧ Landing (landing [stcOf]) 0 0 0 (landOf stcOf [])
    ∧ (let s := landing [stcOf]
      let x := landOf stcOf []
      (s.target x.k x.t .crew true 4 16).toOption = some (.pad 0 16 16) ∧ stcOf.lanes = 1#64 <<< stcOf.lane
      ∧ s.arriving x.w [3] (.pad 0 16 16) 4 = false ∧ x.actor.conflicts s ((Target.pad 0 16 16).span 4) = false) :=
  ⟨⟨issuing_helpers, by decide +kernel, by decide +kernel, by (intro r h; cases h; decide), by decide +kernel⟩,
    fun n h => ⟨issuing_sweeping n h, faults_sweeping n h⟩, by decide +kernel, by decide +kernel, by decide +kernel,
    by decide +kernel, by decide +kernel, by decide +kernel,
    landing_first _ _ (by decide +kernel) (by decide +kernel) (by decide +kernel), by decide +kernel⟩

/-- A read and a write of an element of a sweep. -/
def sweepOf (a n : Nat) : Sweep := ⟨hd, .i32, .s 5, .s (Fin.ofNat 512 a), .zero, BitVec.ofNat 12 n⟩
def elementRead : Pend := access (.swp .add (sweepOf 5 2)) 3 16 0 256
def elementWrite : Pend := access (.swp .add (sweepOf 5 2)) 3 16 9 259

theorem witness_sweeps : (∀ n < 3, Issuing (padded (sweeping n)) (sweeping n) ∧ NoFaultMet (sweeping n)
      ∧ ((sweeping n).w.th 0).seg = n) ∧ SwpOp.add.takes .i32 = true
    ∧ (sweeping 0).guard hd &&& ~~~(sweeping 0).w.helperMask ≠ 0 ∧ (sweepOf 5 0).n = 0 ∧ (sweepOf 5 2).n ≠ 0
    ∧ (∀ n < 3, (padded (sweeping n)).unsettled (sweeping n).w 1 = false
      ∧ (sweeping n).usrc (padded (sweeping n)) 1 (.s 5) = BitVec.ofNat 64 (16 + 64 * 2 ^ 32)
      ∧ (sweeping n).usrc (padded (sweeping n)) 1 (.s 6) = 17)
    ∧ (∀ p ∈ [elementRead, elementWrite], Landing (strictly (landing [p])) 0 0 0 (landOf p [])
      ∧ ((strictly (landing [p])).target e0.k e0.t .crew (p.c.toNat % 256 == 3) 4 16).toOption = some (.pad 0 16 16)
      ∧ Space.ofCode (p.c.toNat / 256) = some .crew
      ∧ p.lanes = 1#64 <<< p.lane ∧ (strictly (landing [p])).arriving (landOf p []).w [3] (.pad 0 16 16) 4 = false
      ∧ (landOf p []).actor.conflicts (strictly (landing [p])) ((Target.pad 0 16 16).span 4) = false
      ∧ (strictly (landing [p])).relaxed e0.t = false)
    ∧ (((strictly (landing [elementRead])).readTgt e0.t 0 [] (.pad 0 16 16) 4).toOption).map (·.1) = some (List.replicate 4 0) := by
  refine ⟨fun n h => ⟨issuing_sweeping n h, faults_sweeping n h, ?_⟩, by decide +kernel, by decide +kernel,
    by decide +kernel, by decide +kernel, by decide +kernel, ?_, by decide +kernel⟩
  · interval_cases n <;> decide +kernel
  · intro p hp
    simp only [List.mem_cons, List.mem_nil_iff, or_false] at hp
    rcases hp with rfl | rfl <;>
      exact ⟨landing_strict _ (by decide +kernel) (by decide +kernel) (by decide +kernel), by decide +kernel⟩

/-- An iterator record of three elements of i32 in the scratchpad (R172): type 3, rank 1, space 1; a step of 4; its
index; and a record whose type is unassigned. -/
def record (idx : Nat) : BitVec 512 :=
  BitVec.ofNat 512 (3 * 2 ^ 64 + 2 ^ 72 + 2 ^ 80 + 3 * 2 ^ 128 + 4 * 2 ^ 192 + idx * 2 ^ 320)
def iterating (part : Nat) (inp : Bool) (idx : Nat) : Env :=
  let e := sweeping part
  { e with
    p := { e.p with inp := inp }
    w := { e.w with iters := [record idx, 0x3F00] ++ e.w.iters.drop 2 } }
def iterOf (d : Fin 8) : Sweep := ⟨hd, .i32, .j d, .j d, .zero, 0⟩

theorem issuing_iterating : ∀ n < 3, Issuing (padded (iterating n false 0)) (iterating n false 0)
    ∧ NoFaultMet (iterating n false 0) := by
  intro n hn
  refine ⟨⟨rfl, ?_, ?_, ?_⟩, no_fault_met _ rfl ?_⟩ <;> (interval_cases n <;> decide +kernel)
theorem issuing_resumed : ∀ i < 2, Issuing (padded (iterating 0 true i)) (iterating 0 true i) := by
  intro n hn
  refine ⟨rfl, ?_, ?_, ?_⟩ <;> (interval_cases n <;> decide +kernel)

/-- A segment starts, works and ends; the tile is done in one unit; a resumption meets the record's index, or does not;
a record is bad. -/
theorem witness_iterators : (∀ n < 3, Issuing (padded (iterating n false 0)) (iterating n false 0)
      ∧ NoFaultMet (iterating n false 0))
    ∧ (∀ i < 2, Issuing (padded (iterating 0 true i)) (iterating 0 true i))
    ∧ SwpOp.add.takes .i32 = true
    ∧ itxBad .i32 16 (record 0) [record 0] = none ∧ itxBad .i32 16 (record 1) [record 1] = none
    ∧ (iterating 0 true 1).iter (padded (iterating 0 true 1)) (.j 0) = record 1
    ∧ itxBad .i32 16 0x3F00 [0x3F00] = some 9
    ∧ (itRank (record 0) = 1 ∧ itExt (record 0) 0 = 3 ∧ itCount (record 0) = 3 ∧ itStride (record 0) 0 = 4)
    ∧ itIdx (record 0) 0 = itIndex (record 0) 0 0 ∧ itIdx (record 1) 0 ≠ itIndex (record 1) 0 0
    ∧ (∀ n < 3, ((iterating n false 0).itElem (padded (iterating n false 0)) (iterOf 0) true 0 0).toOption
      = some ⟨0, some (.crew, 0), none, some (.crew, 0)⟩)
    ∧ (padded (iterating 2 false 0)).unsettled (iterating 2 false 0).w 1 = false
    ∧ recField (record 0) 10 1 ≠ 0 :=
  ⟨issuing_iterating, issuing_resumed, by decide +kernel⟩

theorem issuing_padded : Issuing (padded e0) e0 := ⟨rfl, by decide +kernel, by decide +kernel, by decide +kernel⟩

/-- A phase that 16 arrivals complete, one they do not (two waves), counts of 0 and one past the limit; a barrier past
the last. -/
def doubled : Env := { e0 with k := { e0.k with hdr := { e0.k.hdr with waves := 2 } } }

theorem witness_barriers : Issuing (box e0) e0 ∧ e0.guard hd = 0xFFFF ∧ getAt e0.k.bars 31 .idle = .idle ∧ Bar.idle.arrivals = 0
    ∧ e0.k.hdr.nbar = 32 ∧ e0.k.hdr.waves * e0.w.width = 16 ∧ (box e0).unsettled e0.w (e0.guard hd) = false
    ∧ Issuing (box doubled) doubled ∧ doubled.k.hdr.waves * doubled.w.width = 32 :=
  ⟨issuing_plain, by decide +kernel, by decide +kernel, by decide +kernel, by decide +kernel, by decide +kernel,
    by decide +kernel, ⟨rfl, by decide +kernel, by decide +kernel, by decide +kernel⟩, by decide +kernel⟩

/-- A wave whose last lane waits for the counter at offset 16, which holds zero. -/
def counting (target : Nat) : Env := threads e0 fun l th =>
  if l = 15 then { th with run := .wait (.counter true 16 target .crew 0) } else th
def counted (target : Nat) : State := { landing [] with waves := [(counting target).w] }

theorem witness_counter_waits : Issuing (padded e0) e0 ∧ e0.guard hd ≠ 0
    ∧ ((padded e0).target e0.k e0.t .crew false 8 (addressOf (padded e0) e0 0 .crew (.s 4) 0)).isOk = true
    ∧ ∀ target < 2, let s := counted target
      let w := (counting target).w
      (∃ w', s.waveAt? 0 0 = some w' ∧ w' = w) ∧ s.wave? w.id = some w ∧ w.threads.length = w.width
      ∧ (w.th 15).run = .wait (.counter true 16 target .crew 0) ∧ s.crew? w.crew = some e0.k ∧ s.task? e0.k.task = some e0.t
      ∧ w.halted = false ∧ s.unsettled w (1#64 <<< 15) = false ∧ s.logging 0 = false ∧ s.replaying 0 = false
      ∧ (s.target e0.k e0.t .crew false 8 16).toOption = some (.pad 0 16 16)
      ∧ ((s.readTgt e0.t 0 [] (.pad 0 16 16) 8).toOption).map (·.1) = some (List.replicate 8 0) := by
  refine ⟨issuing_padded, by decide +kernel, by decide +kernel, ?_⟩
  intro target ht
  refine ⟨⟨_, rfl, rfl⟩, rfl, ?_⟩
  interval_cases target <;> decide +kernel

/-- s4 is 0: a sync word and a bitmap at the start of the scratchpad; both ends of the operand check. -/
theorem witness_sync_words : Issuing (padded e0) e0 ∧ (padded e0).memOk = true ∧ e0.guard hd ≠ 0
    ∧ (padded e0).unsettled e0.w (e0.guard hd) = false ∧ addressOf (padded e0) e0 0 .crew (.s 4) 0 = 0
    ∧ 16 ≤ e0.k.hdr.spad * 256 ∧ e0.guard hd &&& ~~~e0.w.helperMask ≠ 0 ∧ e0.k.core < (padded e0).cores.length
    ∧ ((padded e0).readAt (.spad 0) e0.k.spadBase 16).toOption = some (List.replicate 16 0)
    ∧ ((padded e0).readAt (.spad 0) e0.k.spadBase 8).toOption = some (List.replicate 8 0)
    ∧ SDeclared e0 (.s 66)
    ∧ Issuing (padded (helpers e0)) (helpers e0) ∧ (padded (helpers e0)).memOk = true
    ∧ (padded (helpers e0)).unsettled (helpers e0).w ((helpers e0).guard hd) = false
    ∧ (helpers e0).guard hd &&& ~~~(helpers e0).w.helperMask = 0 :=
  ⟨issuing_padded, landing_memory_none.1, by decide +kernel, by decide +kernel, by decide +kernel, by decide +kernel,
    by decide +kernel, by decide +kernel, by decide +kernel, by decide +kernel, (by intro r h; cases h; decide),
    ⟨rfl, by decide +kernel, by decide +kernel, by decide +kernel⟩, landing_memory_none.1, by decide +kernel,
    by decide +kernel⟩

/-- s5 holds the binding of a queue of two elements of 64 bytes at offset 0; q1 is that queue with one element, q2 the same
and full, q3 the same and empty; q4 is a sampler's port with an element; q0 is unbound, and a second crew's q0 is of another
kind. -/
def binding : Dword := BitVec.ofNat 64 (2 * 2 ^ 32 + 16 * 2 ^ 24)
def queues : Env := { e0 with
  k := { e0.k with qs := [.unbound, ⟨1, binding, 0, 1, [(0, .start)], []⟩, ⟨1, binding, 0, 2, [(0, .start), (0, .start)], []⟩,
    ⟨1, binding, 0, 0, [], []⟩, ⟨2, 0, 0, 0, [], [(0, some (List.replicate 16 7))]⟩] ++ e0.k.qs.drop 5 }
  w := { e0.w with sp := e0.w.sp.set 5 binding } }

theorem issuing_queues : Issuing (padded queues) queues := ⟨rfl, by decide +kernel, by decide +kernel, by decide +kernel⟩

theorem witness_queue_registers : Issuing (padded queues) queues ∧ queues.guard hd ≠ 0
    ∧ (getAt queues.k.qs 0 .unbound).kind = 0 ∧ getAt queues.k.hdr.qkind 0 0 = QKind.spad.code
    ∧ getAt queues.k.hdr.qkind 0 0 ≠ QKind.xin.code
    ∧ (let v := queues.usrc (padded queues) (queues.guard hd) (.s 5)
      v.extractLsb' 18 6 = 0 ∧ v.getLsbD 31 = false ∧ v.extractLsb' 48 16 = 0 ∧ v.extractLsb' 24 6 ≠ 0
      ∧ v.extractLsb' 32 16 ≠ 0 ∧ (v.extractLsb' 0 18).toNat % 4 = 0
      ∧ (v.extractLsb' 0 18).toNat + 4 * (v.extractLsb' 24 6).toNat * (v.extractLsb' 32 16).toNat ≤ queues.k.hdr.spad * 256)
    ∧ (elements (getAt queues.k.qs 1 .unbound) = 1 ∧ elements (getAt queues.k.qs 3 .unbound) = 0
      ∧ (getAt queues.k.qs 3 .unbound).kind ≠ 0)
    ∧ VDeclared queues (.s 66) 1 ∧ SDeclared queues (.s 66) :=
  ⟨issuing_queues, by decide +kernel, by decide +kernel, by decide +kernel, by decide +kernel, by decide +kernel,
    by decide +kernel, by (intro r h; cases h), by (intro r h; cases h; decide)⟩

/-- A header that gives q0 a port, so that binding one there is no misuse. -/
def ported : Env := { queues with k := { queues.k with hdr := { queues.k.hdr with qkind := 5 :: List.replicate 15 1 } } }
theorem witness_ports_bound : Issuing (padded ported) ported ∧ (getAt ported.k.qs 0 .unbound).kind = 0
    ∧ getAt ported.k.hdr.qkind 0 0 = 5 ∧ ∃ k : QKind, k.code = 5 ∧ k ≠ .spad :=
  ⟨⟨rfl, by decide +kernel, by decide +kernel, by decide +kernel⟩, by decide +kernel, by decide +kernel, .xin, by decide +kernel⟩

theorem popped_pad : Popped (padded queues) queues 1 (List.replicate 64 0) ⟨1, binding, 1, 1, [], []⟩ :=
  .inr ⟨rfl, by decide +kernel, by decide +kernel, rfl, rfl⟩
theorem popped_port : Popped (padded queues) queues 4 ((List.replicate 16 7).flatMap fun v => leBytes 4 (BitVec.toNat (w := 32) v))
    ⟨2, 0, 0, 0, [], []⟩ :=
  .inl ⟨0, List.replicate 16 7, [], by decide +kernel, rfl, rfl, rfl⟩

theorem witness_moves : Issuing (padded queues) queues ∧ queues.guard hd ≠ 0 ∧ VDeclared queues (.v 254) (regsOf .b64)
    ∧ (∃ bs q', Popped (padded queues) queues 1 bs q') ∧ (∃ bs q', Popped (padded queues) queues 4 bs q')
    ∧ (queues.k.q 0).kind = 0 ∧ (queues.k.q 3).kind ≠ 0 ∧ (queues.k.q 3).avail = 0
    ∧ (queues.k.q 3).tail - (queues.k.q 3).head < (queues.k.q 3).depth
    ∧ (queues.k.q 2).depth ≤ (queues.k.q 2).tail - (queues.k.q 2).head
    ∧ queues.guard hd &&& ~~~queues.w.helperMask ≠ 0 ∧ (padded queues).unsettled queues.w queues.p.lanes = false
    ∧ (padded queues).replaying 0 = false ∧ (padded queues).memOk = true ∧ queues.k.core < (padded queues).cores.length
    ∧ (∀ i < 64, ((padded queues).readAt (.spad 0) i 1).isOk = true)
    ∧ Issuing (padded (helpers queues)) (helpers queues) ∧ (helpers queues).guard hd ≠ 0
    ∧ (helpers queues).guard hd &&& ~~~(helpers queues).w.helperMask = 0 :=
  ⟨issuing_queues, by decide +kernel, by (intro r h; cases h; decide), ⟨_, _, popped_pad⟩, ⟨_, _, popped_port⟩, by decide +kernel,
    by decide +kernel, by decide +kernel, by decide +kernel, by decide +kernel, by decide +kernel, by decide +kernel,
    by decide +kernel, landing_memory_none.1, by decide +kernel, by decide +kernel,
    ⟨rfl, by decide +kernel, by decide +kernel, by decide +kernel⟩, by decide +kernel, by decide +kernel⟩


/-! ## Witnesses: matrix -/

/-- A crew with a format mode, engine commands queued and a queue register that takes their tokens. -/
def engine (mf : Nat) (cs : List Cmd) (toks : Nat) : Env := { e0 with k := { e0.k with
  mfmt := BitVec.ofNat 64 mf
  cmds := cs
  qs := e0.k.qs.set 3 ⟨toks, 0, 0, 0, [], []⟩ } }

/-- e2m1 by e2m1 into f32 (R205). -/
def small : Nat := 0x16 + 0x16 * 2 ^ 6 + 0x12 * 2 ^ 14

def command (i : Instr) (d a b : Nat) : Cmd :=
  { i := i, slot := 0, wave := 2, lane := 0, d := BitVec.ofNat 64 d, a := BitVec.ofNat 64 a, b := BitVec.ofNat 64 b,
    mfmt := BitVec.ofNat 64 small, mode := 1, seq := 0, rngk := 0, rngc := 0, lanes := 1, prog := 0, flags := 0,
    accepted := false, begun := false, image := none, taint := false, issued := 0, hot := [], behind := [], wait := none }

theorem issuing_engine (e : Env) (h : e.w = e0.w) (hk : e.k.shapeOk = true) (hp : e.p = e0.p)
    (hh : e.k.hdr = e0.k.hdr) (he : (box e).env? = some e) : Issuing (box e) e :=
  ⟨he, by rw [h, hh]; exact issuing_plain.2.1, hk, by rw [hp, h]; exact issuing_plain.2.2.2⟩

theorem witness_matrix_modes : Issuing (box e0) e0 ∧ e0.guard hd ≠ 0 ∧ small < 2 ^ 22 ∧ mfmtOk small = true
    ∧ mfmtOk (2 ^ 22 - 1) = false ∧ e0.k.core < (box e0).cores.length ∧ mfmtOk 0 = false :=
  ⟨issuing_plain, by decide +kernel, by decide +kernel, by decide +kernel, by decide +kernel, by decide +kernel,
    by decide +kernel⟩

def tileMove (tok : Bool) (n : Nat) : TileMove := ⟨hd, tok, .s 90, .s 91, BitVec.ofNat 13 n, 0⟩
def product (m n k : Nat) : Mma := ⟨hd, false, .s 80, .s 81, .s 82, BitVec.ofNat 6 m, BitVec.ofNat 6 n, BitVec.ofNat 8 k, 0⟩
def held : Env := threads (engine small [] 2) fun _ th => { th with exch := true }

theorem witness_engine_commands :
    commandOf (.mmac (product 0 0 0)) = some (hd, false, true, .s 80, .s 81, .s 82)
    ∧ commandOf (.tld (tileMove true 1)) = some (hd, true, false, .s 90, .s 91, .zero)
    ∧ (∀ e ∈ [engine 0 [] 2, engine small [] 2, engine small (List.replicate 31 (command (.tzro (tileMove false 1)) 0 0 0)) 2,
        engine small (List.replicate 32 (command (.tzro (tileMove false 1)) 0 0 0)) 2, held],
      (box e).env? = some e ∧ e.w.shapeOk e.k.hdr = true ∧ e.k.shapeOk = true ∧ e.p.lanes &&& ~~~e.w.all = 0
      ∧ e.guard hd &&& ~~~e.w.helperMask ≠ 0 ∧ e.k.mmacOf e.w.id e.p.slot (e.guard hd) = none)
    ∧ (engine small [] 2).k.mfmt ≠ 0 ∧ (engine 0 [] 2).k.mfmt = 0
    ∧ (engine small [] 2).k.qs.findIdx? (fun q => q.kind == 2) = some 3 ∧ 0 < ((engine small [] 2).k.q 3).free
    ∧ (held.w.th 0).exch = true ∧ ((engine small [] 2).w.th 0).exch = false
    ∧ Issuing (box (helpers e0)) (helpers e0) ∧ (helpers e0).guard hd &&& ~~~(helpers e0).w.helperMask = 0 := by
  refine ⟨by decide +kernel, by decide +kernel, ?_, by decide +kernel, by decide +kernel, by decide +kernel,
    by decide +kernel, by decide +kernel, by decide +kernel, issuing_helpers, by decide +kernel⟩
  intro e he
  simp only [List.mem_cons, List.mem_nil_iff, or_false] at he
  rcases he with rfl | rfl | rfl | rfl | rfl <;> exact ⟨rfl, by decide +kernel⟩

theorem witness_rows_and_vectors : Issuing (padded e0) e0
    ∧ (e0.usrc (padded e0) e0.p.lanes (.s 90)).toNat % (4 * e0.w.width) = 0
    ∧ (e0.usrc (padded e0) e0.p.lanes (.s 90)).toNat + 4 * 2 * e0.w.width ≤ e0.k.hdr.trows * 1024
    ∧ (∀ j l, (e0.actor (padded e0) l).conflicts (padded e0)
      (e0.k.tileSpan ((e0.usrc (padded e0) e0.p.lanes (.s 90)).toNat + 4 * (j * e0.w.width + l)) 4) = false)
    ∧ e0.guard hd ≠ 0 ∧ (padded e0).memOk = true ∧ e0.k.core < (padded e0).cores.length
    ∧ ∀ a < 32, ((padded e0).readAt (.tile 0) (e0.k.tileBase + 4 * a) 4).isOk = true :=
  ⟨issuing_padded, by decide +kernel, by decide +kernel, fun _ _ => rfl, by decide +kernel, landing_memory_none.1,
    by decide +kernel, by decide +kernel⟩

/-- An image header (R218): e2m1, 32 by 16, 256 bytes. -/
def headBytes : List Byte := leBytes 4 0x57510001 ++ [0x16, 0, 0, 0] ++ leBytes 2 32 ++ leBytes 2 16 ++ leBytes 4 256
  ++ List.replicate 48 0

/-- The machine whose crew has commands queued; the header stands in its scratchpad and at 0x30000 of memory. -/
def engineState (cs : List Cmd) : State :=
  let e := engine small cs 2
  { box e with
    iss := none
    dev := ⟨tableCells ++ cellsAt 0x30000 headBytes, []⟩
    cores := ((box e0).putAt (.spad 0) 0 headBytes).cores }

theorem engine_memory_none : (engineState []).memOk = true := by decide +kernel
theorem engine_memory (cs : List Cmd) : (engineState cs).memOk = true := engine_memory_none

theorem engine_cores : 0 < (engineState []).cores.length := by decide +kernel

theorem performing (c : Cmd) (h : c.wait = none ∧ c.hot = [] ∧ c.taint = false ∧ c.behind = [])
    (ha : (engineState [c]).acceptCmd (engine small [c] 2).k e0.t c = none)
    (hv : (engineState [c]).vmmBefore (engine small [c] 2).k c = false) :
    Performing (engineState [c]) 1 (engine small [c] 2).k e0.t c :=
  ⟨rfl, rfl, ⟨[], rfl⟩, rfl, h.1, h.2.1, h.2.2.1, .inr ha, engine_cores, engine_memory _, (by decide : 0 < 512),
    by simp [h.2.2.2], fun _ => hv⟩

def loadTile (prog : Nat) : Cmd := { command (.tld (tileMove false 1)) 0 0 0 with prog := prog }
def storeTile : Cmd := command (.tst (tileMove false 1)) 0 0 0
def zeroTile : Cmd := command (.tzro (tileMove false 1)) 0 0 0
def loadWeights : Cmd := command (.wbld ⟨hd, false, true, .s 92, .s 93, 0⟩) 0 0 0
def image0 : Image := ⟨0, 256, .e2m1, false, 32, 16⟩
def loadingWeights : Cmd := { loadWeights with
  begun := true
  image := some image0 }
def dropWeights : Cmd := command (.wbinv ⟨hd, false, none, 0⟩) 0 0 0
def misplaced : Cmd := command (.tld (tileMove false 1)) 4 0 0

theorem witness_engine_moves :
    (∀ c ∈ [loadTile 0, loadTile 7, loadTile 8, storeTile, zeroTile, loadWeights, loadingWeights, dropWeights],
      Performing (engineState [c]) 1 (engine small [c] 2).k e0.t c)
    ∧ (∀ p ∈ [Place.spad 0, .tile 0], ((engineState []).readAt p 0 64).isOk = true)
    ∧ ((engineState []).readAt (.spad 0) 0 320).isOk = true
    ∧ ((engineState []).readAt (.spad 0) 0 64).toOption = some headBytes
    ∧ imageHeader 0 headBytes = .ok image0 ∧ image0.lenOk = true
    ∧ (let s := engineState [misplaced]
      let k := (engine small [misplaced] 2).k
      s.crew? 1 = some k ∧ s.task? k.task = some e0.t ∧ k.stuck = false ∧ misplaced.accepted = false
      ∧ s.vmmBefore k misplaced = false
      ∧ (s.acceptCmd k e0.t misplaced).map (·.cause) = some .misaligned
      ∧ s.wave? 2 = some e0.w ∧ (e0.w.th 0).run ≠ .ended) := by
  refine ⟨?_, by decide +kernel, by decide +kernel, by decide +kernel, by decide +kernel, by decide +kernel,
    rfl, rfl, by decide +kernel⟩
  intro c hc
  simp only [List.mem_cons, List.mem_nil_iff, or_false] at hc
  rcases hc with rfl | rfl | rfl | rfl | rfl | rfl | rfl | rfl <;>
    exact performing _ ⟨rfl, rfl, rfl, rfl⟩ (by decide +kernel) (by decide +kernel)

/-- One row of A by an image of 16 columns, over one block of 32, into 64 bytes at 4096 that start from zero. -/
def multiply (im : Option Image) : Cmd :=
  { command (.mma (product 0 0 0)) (4096 + 2 ^ 20 + 2 ^ 32) (2 ^ 40) 0 with
    begun := im.isSome
    image := im }

def imaged (cs : List Cmd) : State :=
  (engineState cs).setCore 0 { (engineState cs).core 0 with images := [image0] }

theorem witness_multiplication :
    (∀ im ∈ [none, some image0], let c := multiply im
      Performing (engineState [c]) 1 (engine small [c] 2).k e0.t c)
    ∧ mmaImage ((imaged []).core 0) (multiply none) (matMode small) 16 32 = some image0
    ∧ (∃ bs, ∀ q, q ≤ 1 → (engineState [multiply (some image0)]).imageData 0 image0
        (cmdFormat (multiply (some image0)) 0 8 0) 0 (min (q * 32) 32) 0 16 = .ok bs)
    ∧ (let s := engineState []
      (s.readAt (.tile 0) e0.k.tileBase 16).isOk = true ∧ (s.readAt (.tile 0) (e0.k.tileBase + 4096) 64).isOk = true)
    ∧ (matMode small).scl % 2 = 0 ∧ (matMode small).aty = .e2m1
    ∧ (let c := multiply none
      rowsMeet 1 (accBase c.d) (accPitch c.d) 64 (c.a.toNat % 2 ^ 20) (16 * (c.a.toNat / 2 ^ 40 % 2 ^ 12)) 16 = false
      ∧ 64 ≤ accPitch c.d) := by
  refine ⟨?_, by decide +kernel, ?_, by decide +kernel, by decide +kernel, by decide +kernel, by decide +kernel⟩
  · intro im h
    simp only [List.mem_cons, List.mem_nil_iff, or_false] at h
    rcases h with rfl | rfl <;> exact performing _ ⟨rfl, rfl, rfl, rfl⟩ (by decide +kernel) (by decide +kernel)
  · refine ⟨(engineState []).bytesAt (.wbuf 0) 64 256, fun q hq => ?_⟩
    interval_cases q <;> rfl


/-- A cluster operation of one crew, whose image stands at 0x30000 of memory: before it begins, and with its image. -/
def cluster (im : Option Image) : Cmd := { multiply im with
  i := .mmac (product 0 0 0)
  b := 0x30000 }
def staged : Image := ⟨0x20000, 256, .e2m1, false, 32, 16⟩
def clusterCrew (im : Option Image) : Crew := (engine small [cluster im] 2).k

theorem witness_cluster_blocks : ∀ im ∈ [none, some staged],
    let s := engineState [cluster im]
    let p := (clusterCrew im, cluster im, product 0 0 0)
    s.task? 0 = some e0.t ∧ s.mmacCrews e0.t = some [p] ∧ (s.crews.map (·.id)).Nodup ∧ s.crew? 1 = some p.1
    ∧ p.1.stuck = false ∧ p.2.1.wait = none ∧ s.vmmBefore p.1 p.2.1 = false ∧ p.2.1.behind = []
    ∧ s.acceptCmd p.1 e0.t p.2.1 = none ∧ p.2.1.begun = im.isSome := by
  intro im h
  simp only [List.mem_cons, List.mem_nil_iff, or_false] at h
  rcases h with rfl | rfl <;> exact ⟨rfl, by decide +kernel⟩

/-- Its header is read and right, and its image is staged. -/
def stages : Bool := match (engineState [cluster none]).headerAt (clusterCrew none) e0.t (cluster none) false 0x30000 with
  | .error _ => false
  | .ok (hs, s1) => match mmacHeader (cluster none) (product 0 0 0) hs with
    | .error _ => false
    | .ok im => im == staged
      && (s1.mmacStage e0.t (clusterCrew none, cluster none, product 0 0 0) [] staged).isOk
theorem witness_cluster_stages : stages = true := by decide +kernel

theorem witness_cluster_block : ((engineState [cluster (some staged)]).mmacBlocks staged 0
    [(clusterCrew (some staged), cluster (some staged), product 0 0 0)]).isOk = true := by decide +kernel

/-- Both ends of the cores, at the first clock. -/
theorem witness_power_levels : 511 < State.reset.cores.length ∧ State.reset.tick % 16 = 0
    ∧ (State.reset.core 0).stepped / 2 ≠ State.reset.tick + 1 ∧ (State.reset.core 511).stepped / 2 ≠ State.reset.tick + 1 := by
  decide +kernel


/-! ## Witnesses: sampling, tracing, random numbers -/

/-- s5 holds a misaligned header, s6 an aligned one at 0x30000; q3 is bound for samples. -/
def sampling : Env := { engine 0 [] 3 with w := { e0.w with sp := (e0.w.sp.set 5 0x30001).set 6 0x30000 } }
theorem issuing_sampling : Issuing (box sampling) sampling :=
  ⟨rfl, by decide +kernel, by decide +kernel, by decide +kernel⟩

def sample (d b : Opd) (l : Lod) : Smpl := ⟨hd, .f32, l, d, .v 2, b, 3, 1, 0, 0⟩

theorem witness_sampler_requests : Issuing (box sampling) sampling
    ∧ (∀ i ∈ [Instr.smpl .sto (sample (.q 3) (.s 6) .lz), .smpl .lin (sample (.v 8) (.s 6) (.ll (.v 5))),
        .smpg 2 (sample (.v 8) (.s 6) .lz), .latf .lin (sample (.v 8) (.s 6) .lz), .smpq hd false (.v 8) (.v 3) (.s 6) 0,
        .smpq hd true (.v 8) (.v 3) (.s 6) 0], (requestOf (box sampling) sampling i).isSome = true)
    ∧ (sampling.usrc (box sampling) sampling.p.lanes (.s 6)).toNat % 64 = 0
    ∧ (sampling.usrc (box sampling) sampling.p.lanes (.s 5)).toNat % 64 ≠ 0
    ∧ (sampling.k.q 3).kind = 3 ∧ 4 ≤ (sampling.k.q 3).free
    ∧ (lanesOf (sampling.guard hd)).find? (fun l => !(sampling.w.th l).helper) = some 0 :=
  ⟨issuing_sampling, by decide +kernel, by decide +kernel, by decide +kernel, by decide +kernel, by decide +kernel,
    by decide +kernel⟩

/-- In the one-lane issue of a line of targets: s5 is misaligned, s6 holds an acceleration structure. -/
def tracing : Env := { lone with w := sampling.w }
theorem witness_rays_and_caches : Issuing (box sampling) sampling ∧ sampling.guard hd ≠ 0 ∧ sampling.guard off = 0
    ∧ (sampling.usrc (box sampling) sampling.p.lanes (.s 6)).toNat % 128 = 0
    ∧ (sampling.usrc (box sampling) sampling.p.lanes (.s 5)).toNat % 128 ≠ 0
    ∧ (lanesOf (sampling.guard hd)).find? (fun l => !(sampling.w.th l).helper) = some 0
    ∧ (lineOfTargets.testTargets lone (fun _ => lone.dispTarget 4) (lanesOf (lone.guard hd))).2 = []
    ∧ (lone.usrc lineOfTargets lone.p.lanes (.s 6)).toNat % 128 = 0 :=
  ⟨issuing_sampling, by decide +kernel, by decide +kernel, by decide +kernel, by decide +kernel, by decide +kernel,
    by decide +kernel, by decide +kernel⟩

theorem witness_random_numbers : Issuing (box e0) e0 ∧ VDeclared e0 (.v 252) 4 ∧ VDeclared e0 (.v 255) 1
    ∧ ((510 : Fin 512).val + 1 < 512 ∧ ∀ r : Fin 512, Opd.v 3 ≠ .s r) ∧ Issuing (box (helpers e0)) (helpers e0) :=
  ⟨issuing_plain, by (intro r h; cases h; decide), declared_v.1, ⟨by decide, fun _ h => nomatch h⟩, issuing_helpers⟩

/-- A ray along the third axis from −1, up to a distance; its interval, what it has met, what it still visits. -/
def rayOf (dz tmin tmax : Nat) (best : Option (Rat × Nat × BitVec 512)) : Ray :=
  { record := { task := 0, khdr := 0, resume := 0, kind := 0, mode := 0, tid := 0, rngk := 0, rngc := 0, live := [],
                hit := 0, born := 0, view := .start },
    any := false, cull := false,
    ray := [0, 0, 0xBF800000, BitVec.ofNat 32 tmin, 0, 0, BitVec.ofNat 32 dz, BitVec.ofNat 32 tmax],
    stack := [], steps := 0, best := best, since := 0, parked := none }

def triangle : Tri := ⟨⟨-1, -1, 0⟩, ⟨3, -1, 0⟩, ⟨-1, 3, 0⟩, 7, 9⟩

/-- It meets the triangle at 1; one with no direction of its own does not. -/
theorem witness_triangle_hits : ((rayOf 0x3F800000 0 0x41200000 none).hits triangle).map (fun x => (x.1, x.2.1)) = some (1, 7)
    ∧ (let n := (triangle.p1.sub triangle.p0).cross (triangle.p2.sub triangle.p0)
      0 * n.x + 0 * n.y + 0 * n.z = 0) := by decide +kernel

/-- Rays of cluster 0: with NaN, an empty interval, a hit, and a miss at both ends of an interval that is a point. -/
def rayed (r : Ray) : State := { box e0 with
  clusters := (box e0).clusters.set 0 { (box e0).cluster 0 with rays := [r] } }

theorem witness_ray_ends : ∀ r ∈ [rayOf 0x7FC00000 0 0x41200000 none, rayOf 0x3F800000 0x41200000 0 none,
      rayOf 0x3F800000 0 0x41200000 (some (1, 7, 5)), rayOf 0x3F800000 0x41200000 0x41200000 none],
    ((rayed r).cluster 0).rays[0]? = some r ∧ (rayed r).task? 0 = some e0.t ∧ 0 < (rayed r).clusters.length
    ∧ r.parked = none ∧ e0.t.phase = .run ∧ r.unbounded = (r.f 6).isNan := by
  intro r h
  simp only [List.mem_cons, List.mem_nil_iff, or_false] at h
  rcases h with rfl | rfl | rfl | rfl <;> exact ⟨rfl, rfl, by decide +kernel⟩

theorem witness_ray_walks : ∀ b ∈ [none, some ((1 : Rat), 7, (5 : BitVec 512))],
    let r := rayOf 0x3F800000 0 0x41200000 b
    (rayed r).walkRay e0.t (2 ^ 20 + 1) r = (.over r, rayed r)
    ∧ (List.range 8).all (fun i => !(r.f i).isNan) = true ∧ FVal.lt (r.f 7) (r.f 3) = false := by
  intro b h
  refine ⟨rfl, ?_⟩
  simp only [List.mem_cons, List.mem_nil_iff, or_false] at h
  rcases h with rfl | rfl <;> decide +kernel


/-! ## Witnesses: command processor and scheduler -/

/-- The machine with context 0 resident and nothing in progress; queue 0 has two slots at 0x15000 and one packet. -/
def idle : State := { State.reset.withFetchWord 96 1 with
  dev := ⟨tableCells, []⟩
  waves := []
  crews := []
  tasks := []
  agenda := [] }
def queue0 (s : State) : State :=
  ((s.setReg (.sqbase 0) 0x15003).setReg (.sqctl 0) 64).setReg (.sqtail 0) 1
def packets (kind addr value : Nat) : State :=
  { queue0 idle with
    dev := ⟨tableCells ++ cellsAt 0x15000 (packetBytes kind false 5 (BitVec.ofNat 64 addr) (BitVec.ofNat 64 value)), []⟩ }

theorem witness_packet_fields : (4 < 255 ∧ 4 ≤ 4) ∧ (64 % 128 ≠ 0 ∧ 128 % 128 = 0 ∧ 4 % 8 ≠ 0)
    ∧ packetOf (packetBytes 4 true 9 0 0) = .ok ⟨4, true, 9, 0, 0⟩ := by decide +kernel

/-- A task record at 0x16000 (R334) whose kernel header stands at 0x17000 (spec/01 R35). -/
def recordBytes : List Byte := leBytes 4 0x54510001 ++ leBytes 2 0 ++ [1, 3] ++ leBytes 8 77 ++ leBytes 8 0x17000
  ++ List.replicate 104 0
def headerBytes : List Byte := leBytes 4 0x4B510001 ++ leBytes 4 0 ++ leBytes 4 1 ++ [0, 1, 0, 0] ++ leBytes 2 0 ++ leBytes 2 0
  ++ [0, 0, 0, 1, 0, 3] ++ List.replicate 102 0
def submitting : State := { packets 1 0x16000 0 with
  dev := ⟨tableCells ++ cellsAt 0x15000 (packetBytes 1 false 5 0x16000 0) ++ cellsAt 0x16000 recordBytes
    ++ cellsAt 0x17000 headerBytes, []⟩ }

def packet (addr value : Nat) : Packet := ⟨false, 5, BitVec.ofNat 64 addr, BitVec.ofNat 64 value⟩
def heldIn (kind : Nat) : State :=
  let s := (queue0 idle).devWrite 0x18000 (leBytes 8 7)
  s.setSubq 0 { s.subq 0 with held := some ⟨kind, false, 5, 0x18000, 7⟩ }

theorem witness_packets_at_head : ((packets 0 0 0).headPacket 0 0 (packet 0 0)).isSome = true
    ∧ ((packets 2 0x18000 7).headPacket 0 2 (packet 0x18000 7)).isSome = true
    ∧ ((packets 3 0x18000 7).headPacket 0 3 (packet 0x18000 7)).isSome = true
    ∧ ((packets 4 0 0).headPacket 0 4 (packet 0 0)).isSome = true
    ∧ (∀ t ∈ idle.tasks, t.queue = 0 → ((packets 4 0 0).subq 0).pos ≤ t.pos) := by decide +kernel

theorem witness_submit_packet : (match submitting.headPacket 0 1 (packet 0x16000 0) with
      | none => false
      | some s1 => (s1.submit (submitting.sqCtx 0) 0 0 (submitting.flag (.sqctl 0) 6) 5 0x16000).isOk) = true
    ∧ submitting.bpHit 0 0x16000 = none := by decide +kernel

/-- Both sides of a wait: the counter holds 7, the target is 7 or 8. -/
theorem witness_packets_held : (∀ k ∈ [2, 3], (heldIn k).heldPacket 0 k = some ⟨k, false, 5, 0x18000, 7⟩
      ∧ ((heldIn k).packetPhys 0 ⟨k, false, 5, 0x18000, 7⟩).isOk = true)
    ∧ (heldIn 2).sqCtx 0 = 0 ∧ (heldIn 2).logging 0 = false ∧ (heldIn 2).replaying 0 = false
    ∧ (((heldIn 2).gRead ((heldIn 2).sqAcc 0 false) none 10 0x18000 8).toOption).map (·.1) = some (leBytes 8 7)
    ∧ ((heldIn 3).gWrite ((heldIn 3).sqAcc 0 true) none true 10 0x18000 (leBytes 8 7)).isOk = true := by decide +kernel

/-- The doorbell's limits, a task in the way of a FENCE, and a queue that has stood for its watchdog's limit. -/
theorem witness_command_processor : (packets 0 0 0).sqSize 0 = 2 ∧ (1 : Dword).toNat < 2 ^ 20
    ∧ (let s := (queue0 idle).setReg (.sqwd 0) 1
      let s1 := s.setSubq 0 { s.subq 0 with stall := 1024 }
      s1.sqCtx 0 = 0 ∧ 1024 * s1.field (.sqwd 0) 0 16 = (s1.subq 0).stall ∧ (s1.ctx 0).preempt = false
      ∧ s1.flag (.sqwd 0) 16 = false ∧ 0 < s1.ctxs.length) := by decide +kernel

/-- The record is read and right, its parts are, and its STATE byte is written. -/
def submits : Bool := match submitting.gReadAll { ctx := 0, prv := true, write := false } none 9 0x16000 128 with
  | .error _ => false
  | .ok (bs, s1) => match s1.recordParts 0 true bs with
    | .error _ => false
    | .ok (_, _, s2) => match s2.gWrite { ctx := 0, prv := true, write := true } none true 9 0x16024 (leBytes 1 2) with
      | .error _ => false
      | .ok s3 => bs == recordBytes && !s3.logging 0 && !s3.replaying 0
def recordPlaced : Bool := match submitting.translate { ctx := 0, prv := true, write := false } 0x16000 with
  | .ok p => p.leaf.kind != .so && p.place == .dev
  | .error _ => false
theorem witness_submission : submits = true ∧ recordPlaced = true ∧ recordBad recordBytes = none := by decide +kernel

/-- A Ready task of a small kernel, and one of many clocks ago. -/
def smallHeader : Header := { probeHeader with
  va := 0x17000
  vregs := 8
  swp := 0
  scr := 0
  spad := 0
  trows := 0
  nbar := 0
  niter := 0
  mat := false
  qkind := List.replicate 16 0 }
def readyTask : Task := { probeTask 0 with
  record := 0x16000
  hdr := smallHeader
  phase := .ready
  cores := []
  place := none
  att := 0 }
def readyIn (s : State) : State := { s with tasks := [readyTask] }
def waited : State := ({ readyIn idle with tick := 65536 }).setField .balctl 16 1 1

theorem witness_place : ((readyIn submitting).candidate 0).map (·.1.id) = some 0 := by decide +kernel

theorem witness_waited : waited.task? 0 = some readyTask ∧ ((waited.readyOf 0 0).head?.map (·.id)) = some 0
    ∧ readyTask.readySince + 65536 ≤ waited.tick ∧ waited.flag .balctl 16 = true ∧ waited.replaying 0 = false
    ∧ readyTask.readySince + waited.field .balctl 0 16 ≤ waited.tick ∧ (waited.reservation readyTask 1).isSome = true := by
  decide +kernel

/-- A running task with an input of 520 bytes at 0x30000: a whole chunk and a short one, and one of which 63 granules are
in. -/
def input (b : Option Nat) (part : List (Nat × Nat)) : OpEntry :=
  ⟨false, false, 1, 0, 0x30000, 520, b, 0, [], part, none⟩
def runningTask (os : List OpEntry) : Task := { probeTask 0 with ops := os }
def copying (b : Option Nat) (part : List (Nat × Nat)) : State := { box e0 with
  iss := none
  tasks := [runningTask [input b part]]
  dev := (idle.devWrite 0x30200 (List.replicate 8 0)).dev
  cores := ((box e0).putAt (.spad 0) 4096 (List.replicate 8 0)).cores }

theorem witness_copy_in : (∀ b ∈ [none, some 4096], (copying b []).task? 0 = some (runningTask [input b []])
      ∧ (∀ n < 2, n < ((input b []).len + 511) / 512)
      ∧ ((copying b []).opCrews (runningTask [input b []]) (input b [])).length = 1
      ∧ (match (copying b []).copyInG (runningTask [input b []]) (input b []) [e0.k] 512 1 with
        | .error _ => false
        | .ok s1 => match b with
          | none => true
          | some b => (s1.setChunks b 1 [e0.k]).isOk) = true)
    ∧ (input none [(0, 63)]).begun 0 = 63 := by decide +kernel

/-- A task whose outputs are out, and one that has ended. -/
theorem witness_retire : (let t := { runningTask [] with phase := .copyOut }
      ({ idle with tasks := [t] }).task? 0 = some t ∧ t.succ = 0)
    ∧ (let t := runningTask []
      let s := { idle with tasks := [t] }
      s.task? 0 = some t ∧ s.computeDone t = true ∧ (s.ctx 0).divergent = false ∧ s.leftRecords t = false
      ∧ t.succ = 0) := by decide +kernel

/-- A bin of 16 records, and one of fewer, of which the oldest waits. -/
def parkedRec : Rec := (rayOf 0 0 0 none).record
def pooled (n : Nat) : State := { idle with
  tasks := [{ probeTask 0 with hdr := smallHeader }]
  clusters := idle.clusters.set 0 { idle.cluster 0 with pool := List.replicate n parkedRec } }

theorem witness_bins : (∀ n ∈ [3, 16], ((pooled n).binAt 0 0).map (fun x => x.2.length) = some n)
    ∧ (pooled 3).replaying 0 = false ∧ (pooled 3).tick = 0 ∧ 0 ≤ (pooled 3).field (.cxsched 0) 21 16
    ∧ ((pooled 16).relaunch 0 { probeTask 0 with hdr := smallHeader } (List.replicate 16 parkedRec)).isSome = true
    ∧ (let s := (pooled 3).setField (.cxsched 0) 21 16 1
      s.tick < parkedRec.born + 64 * s.field (.cxsched 0) 21 16 ∧ s.binAt 0 0 = (pooled 3).binAt 0 0) := by
  decide +kernel

/-- A task of context 1, of higher priority, that the crew of context 0 keeps from every core of its class. -/
def contested : State :=
  let s := ((box e0).setReg (.cxsched 1) (BitVec.ofNat 64 (1 + 7 * 4)))
  { s with
    iss := none
    tasks := [e0.t, { readyTask with
      id := 5
      ctx := 1
      hdr := probeHeader
      ncrew := 9 }] }

theorem witness_preempt : (let t := { readyTask with
        id := 5
        ctx := 1
        hdr := probeHeader
        ncrew := 9 }
      t ∈ contested.tasks ∧ contested.preemptible t 0 = true ∧ contested.place t = none
      ∧ ∀ k, k < 64 → contested.preemptible t k = true → contested.field (.cxsched 0) 2 3 < contested.field (.cxsched k) 2 3
        ∨ (contested.field (.cxsched 0) 2 3 = contested.field (.cxsched k) 2 3
          ∧ contested.sliceEnd 0 ≤ contested.sliceEnd k)) := by decide +kernel

/-- A saved context without crews, whose area begins at 0x40000. -/
def savedEmpty : State :=
  let s := { (idle.setReg (.cxsave 0) 0x40000) with dev := ⟨cellsAt 0x40000 (leBytes 4 0x53510001 ++ List.replicate 252 0), []⟩ }
  s.setCtx 0 { s.ctx 0 with saved := some ⟨[], [], []⟩ }

theorem witness_restore : (savedEmpty.ctx 0).saved = some ⟨[], [], []⟩ ∧ savedEmpty.flag (.cxsched 0) 0 = true
    ∧ (savedEmpty.ctx 0).preempt = false ∧ savedEmpty.logging 0 = false
    ∧ (savedEmpty.placeTasks 0 ⟨[], [], []⟩ (savedEmpty.tasks.filter fun t => t.ctx == 0 && t.phase == .saved)).isSome = true
    ∧ savedEmpty.restoreHead 0 ⟨[], [], []⟩ = none := by decide +kernel

/-- An empty cluster; a context that becomes resident under an ASID of its own, or one taken; a context released with
nothing running, or with a task that runs; the values at the ends of the register. -/
def resident : Dword := BitVec.ofNat 64 (1 + 2 ^ 5 + 2 ^ 21)
def managed (a : Nat) : State := ((idle.setReg .mgstat 2).setReg (.cxasid 1) (BitVec.ofNat 64 a)).setReg (.cxasid 0) 3
theorem witness_contexts : (idle.cluster 63).gated = false ∧ (idle.cluster 63).pool = [] ∧ (idle.cluster 63).rays = []
    ∧ 63 < idle.clusters.length
    ∧ resident.toNat < 2 ^ 53 ∧ resident.getLsbD 0 = true ∧ resident.toNat / 2 ^ 5 % 2 ^ 16 ≠ 0
    ∧ resident.toNat / 2 ^ 21 % 2 ^ 16 ≠ 0
    ∧ (∀ a ∈ [3, 5], (managed a).flag (.flctl 1) 1 = false ∧ (managed a).flag (.cxsched 1) 0 = false
      ∧ (managed a).field .mgstat 0 4 = 2 ∧ (managed a).flag (.cxsched 0) 0 = true)
    ∧ (managed 3).asid 0 = (managed 3).asid 1
    ∧ (∀ k, k < 64 → k ≠ 1 → (managed 5).flag (.cxsched k) 0 = true → (managed 5).asid k ≠ (managed 5).asid 1)
    ∧ (box e0).flag (.cxsched 0) 0 = true ∧ (box e0).flag (.flctl 0) 1 = false
    ∧ (0 : Dword).getLsbD 1 = (box e0).flag (.cxsched 0) 1 ∧ e0.t.phase = .run ∧ idle.tasks = []
    ∧ (0 : Dword).getLsbD 1 = idle.flag (.cxsched 0) 1 ∧ idle.flag (.cxsched 0) 0 = true := by decide +kernel


/-! ## Witnesses: memory system, debugger, raster jobs, copy engines, package -/

def merging (win : Nat) : State := { idle.setReg .msmerge (BitVec.ofNat 64 win) with merges := [⟨0, 0, 0, 1⟩] }
def linked (n : Nat) : State := { idle with links := BitVec.ofNat 20 n }

/-- A merge group whose window has passed, or has not; no invalidation, and one that completes; both kinds of values; a
port that is up, one that is down. -/
theorem witness_memory_system : ((merging 0).merges[0]? = some ⟨0, 0, 0, 1⟩ ∧ (merging 0).field .msmerge 0 8 * 11 ≤ (0 - 0) * 14)
    ∧ (0 - 0) * 14 < (merging 255).field .msmerge 0 8 * 11
    ∧ (idle.inval = false ∧ (2 ^ 63 : Dword).toNat / 2 ^ 32 % 2 ^ 31 = 0 ∧ (2 ^ 62 : Dword).toNat / 2 ^ 32 % 2 ^ 31 ≠ 0)
    ∧ (let s := { idle with inval := true }
      s.inval = true ∧ s.waves = [] ∧ s.lines = [] ∧ s.coreLines = []
      ∧ ∀ i < 2, (s.setReg (.msinv 0) (BitVec.ofNat 64 (i * 2 ^ 17))).flag (.msinv 0) 17 = decide (i = 1))
    ∧ (2 ^ 59 ≤ (2 ^ 59 : Dword).toNat ∧ (2 ^ 59 - 1 : Dword).toNat < 2 ^ 59)
    ∧ ((linked (2 ^ 19)).links.getLsbD 19 = true ∧ (linked (2 ^ 19)).links.getLsbD 0 = false)
    ∧ ((linked 1).links.toNat % 16 ≠ 0 ∧ (linked 1).upAt .host 64 = none) := by decide +kernel

/-- A load of host memory: the page at 0x30000 is a large page of the window at 0, whose port was up when it left. -/
def remoteOf : Pend := access (.ld ⟨hd, none, .n32, .glob, none, false, .v 4, .v 10, 0⟩) 3 0x30000 0 0
def remote (tick : Nat) : State := { landing [remoteOf] with
  dev := ⟨cellsAt 0x10000 (leBytes 8 0x12005) ++ cellsAt 0x12000 (leBytes 8 0x14005) ++ cellsAt 0x14000 (leBytes 8 0x23F), []⟩
  ctl := ((box e0).setReg (.link 0) (BitVec.ofNat 64 (1 + 2 ^ 40))).ctl
  links := 1
  tick := tick }

theorem witness_link_errors : ((remote 0).land? 0 0 0).isSome = true ∧ (remote 0).heldBack (landOf remoteOf []) 0 = false
    ∧ remoteOf.done = false ∧ remoteOf.linkUse = some (0x30000, 4, false)
    ∧ (((remote 0).translate (taskAcc e0.t false) 0x30000).toOption.map fun p => (p.place, p.pa)) = some (.host, 0x30000)
    ∧ (remoteOf.issue + 2 ^ 24 ≤ (remote (2 ^ 24 + 1)).tick ∧ (remote (2 ^ 24)).tick < remoteOf.issue + 2 ^ 24) := by
  decide +kernel

/-- A peer's requests on a page that is mapped and on one that is not. -/
def peered : State := { submitting with links := 16 }
theorem witness_peer_requests : peered.flag (.cxsched 0) 0 = true ∧ peered.links.extractLsb' 4 16 ≠ 0
    ∧ (peered.gRead { ctx := 0, prv := false, write := false } none 14 0x16000 8).isOk = true
    ∧ (peered.gRead { ctx := 0, prv := false, write := false } none 14 0x4000000 8).isOk = false
    ∧ (peered.gWrite { ctx := 0, prv := false, write := true } none true 14 0x16000 (leBytes 8 1)).isOk = true
    ∧ (peered.gWrite { ctx := 0, prv := false, write := true } none true 14 0x4000000 (leBytes 8 1)).isOk = false
    ∧ (0x16000 + 56) % 64 + 8 ≤ 64 ∧ 0x16000 % 128 = 0 := by decide +kernel
theorem witness_peer_enqueue : (peered.submit 0 0 (2 ^ 64) false 0 0x16000).isOk = true := by decide +kernel

/-- Rings of one entry and no limits; an index past 31 bits, and one that the ring has no room for. -/
def ring (n : Nat) : State := ((((idle.setReg (.fqbase 0) (BitVec.ofNat 64 n)).setReg (.cqbase 0) (BitVec.ofNat 64 n)).setReg
  (.flctl 0) (BitVec.ofNat 64 n)).setReg (.fqhead 0) 2).setReg (.cqhead 0) 2
theorem witness_rings : ((ring 1).flag (.fqbase 0) 0 = true ∧ 2 ^ (ring 1).field (.fqbase 0) 2 5 = 1
      ∧ (ring 1).flag (.cqbase 0) 0 = true ∧ (ring 1).field (.fqhead 0) 0 31 = 2)
    ∧ (ring 0).logging 0 = false ∧ (ring 1).logging 0 = true ∧ (ring 2).replaying 0 = true ∧ (ring 2).logging 0 = false
    ∧ (ring 0).replaying 0 = false ∧ (2 ^ 31 : Dword).toNat = 2 ^ 31 ∧ (2 ^ 52 : Dword).toNat % 64 = 0
    ∧ (idle.ctx 0).replies.length < 8 := by decide +kernel

/-- A context that is not resident, with a log of two records and without one; the bits that begin and end logging and
replay. -/
def logged (base ctl : Nat) : State :=
  ((idle.setReg (.cxsched 0) 0).setReg (.flbase 0) (BitVec.ofNat 64 base)).setReg (.flctl 0) (BitVec.ofNat 64 ctl)
theorem witness_log_control : ((1 : Dword).getLsbD 0 = true ∧ (2 : Dword).getLsbD 1 = true ∧ (0x20 : Dword).getLsbD 5 = true
      ∧ (3 : Dword).getLsbD 0 = true ∧ (3 : Dword).getLsbD 1 = true)
    ∧ ((logged (2 ^ 52) 0).flag (.cxsched 0) 0 = false ∧ (logged (2 ^ 52) 0).field (.flbase 0) 52 5 ≠ 0
      ∧ (logged 0 0).field (.flbase 0) 52 5 = 0 ∧ (logged (2 ^ 52) 0).flOccupancy 0 ≤ 2)
    ∧ ((logged (2 ^ 52) 10).reg (.flctl 0)).getLsbD 3 = true ∧ ((0x22 : Dword).getLsbD 1 = true)
    ∧ ((logged (2 ^ 52) 0).reg (.flctl 0)).getLsbD 3 = false := by decide +kernel

/-- A log whose only record is a DISC record (R370) of attempt 1 of the task 0, with cause 6, at its turn, before it,
and of no task. -/
def discBytes (seq name : Nat) : List Byte := [10, 0, 0, 0] ++ leBytes 4 0 ++ leBytes 8 seq ++ leBytes 8 name
  ++ [6, 1, 0, 0, 0, 0, 0, 0]
def replayed (seq name kind : Nat) : State :=
  let s := ((idle.setReg (.flbase 0) (BitVec.ofNat 64 (0x50000 + 2 ^ 52))).setReg (.flctl 0) 2).setReg (.flhead 0) 1
  { s with
    dev := ⟨cellsAt 0x50000 (discBytes seq name |>.set 4 (BitVec.ofNat 8 kind)), []⟩
    tasks := [probeTask 0] }
theorem witness_discard_turns : (∀ n < 2, (replayed n n 0).replaying 0 = true ∧ ((replayed n n 0).ctx 0).divergent = false
      ∧ (replayed n n 0).flag (.cxsched 0) 0 = true
      ∧ (replayed n n 0).nextRec 0 (fun r => leNat (r.take 1) == 10) = some (0, some (discBytes n n))
      ∧ recordOk (discBytes n n) = true ∧ (replayed n n 0).turn 0 (discBytes n n) = decide (n = 0))
    ∧ (replayed 0 1 0).turn 0 (discBytes 0 1) = true ∧ (probeTask 0).name.toNat = 0 ∧ (probeTask 0).att = 1
    ∧ (Cause.ofCode 6).isSome = true := by decide +kernel

/-- One outstanding Resolve record, and none; nothing else waits on its page. -/
def resolving : State := idle.setCtx 0 { idle.ctx 0 with resolves := [⟨7, some 5, { cause := .pageNotPresent }⟩] }
theorem witness_resolve_answers : (resolving.ctx 0).resolves = [⟨7, some 5, { cause := .pageNotPresent }⟩]
    ∧ (idle.ctx 0).resolves = [] ∧ resolving.pageWaiters 0 7 = [] ∧ resolving.tasks = [] ∧ resolving.waves = []
    ∧ (∀ q, q < 256 → resolving.flag (.sqbase q) 0 = true → resolving.sqCtx q ≠ 0)
    ∧ (∀ d < 8, ∀ e < 12, ((resolving.engine d e).job.map (·.ctx)) ≠ some 0)
    ∧ (∀ k, k < 64 → (resolving.cluster k).rasterWait ≠ some 7) := by decide +kernel

/-- The debugger's context on and off, a wave that runs and one that is halted. -/
def debugged (en : Nat) (halted : Bool) : State :=
  let s := ((box e0).setReg (.dbgctl 0) (BitVec.ofNat 64 en)).setReg .dbgsel 0
  { s with
    iss := none
    waves := [{ e0.w with halted := halted }] }
theorem witness_debug_commands : (∀ h ∈ [false, true], (debugged 1 h).flag (.dbgctl 0) 0 = true
      ∧ (debugged 1 h).flag .dbgstat 0 = false ∧ ((debugged 1 h).selected).map (·.halted) = some h
      ∧ ((debugged 1 h).ctx 0).divergent = false ∧ ((debugged 1 h).wave? 2).isSome = true
      ∧ ((debugged 1 h).crew? 1).isSome = true ∧ e0.w.pendFault = none ∧ (debugged 1 h).dbg.edits = []
      ∧ (debugged 1 h).ctxOfCrew 1 = (debugged 1 h).field .dbgsel 0 6 ∧ (debugged 1 h).field .dbgaddr 0 2 = 0)
    ∧ (debugged 0 true).flag (.dbgctl 0) 0 = false
    ∧ ((debugged 1 true).setReg .dbgstat 1).flag .dbgstat 0 = true
    ∧ 8 ≤ (e0.w.image e0.k 0).length := by decide +kernel
theorem witness_debug_cancel : (let s := { (debugged 1 true).setReg .dbgstat 1 with dbg := { (debugged 1 true).dbg with target := some 2 } }
    s.flag .dbgstat 0 = true ∧ s.dbg.target = some 2 ∧ (s.wave? 2).isSome = true)
    ∧ (let s := (debugged 1 true).setCtx 0 { (debugged 1 true).ctx 0 with divergent := true }
      (s.ctx 0).divergent = true ∧ s.flag (.dbgctl 0) 0 = true)
    ∧ ({ debugged 1 true with waves := [] } : State).selected = none := by decide +kernel

theorem witness_debug_units : ((2 ^ 11 : Dword).toNat / 2 ^ 11 % 4 ≠ 0 ∧ (0x2002 : Dword).getLsbD 13 = true
      ∧ (0x2002 : Dword).toNat / 2 ^ 11 % 4 = 0 ∧ (2 : Dword).getLsbD 13 = false)
    ∧ (let s := { (idle.setReg .stopctl 1).setReg .stoptick 9 with tick := 9 }
      s.flag .stopctl 0 = true ∧ (s.reg .stoptick).toNat = s.tick) ∧ idle.flag .stopctl 0 = false
    ∧ (let s := { idle with snap := ⟨some 64, []⟩ }
      s.snap.due = some 64 ∧ s.tick < 64 ∧ ({ s with tick := 64 } : State).tick = 64)
    ∧ (let s := (idle.setReg (.trctl 7) 7).setReg (.trbase 7) 0
      7 < s.dies.length ∧ s.flag (.trctl 7) 0 = true ∧ s.flag (.trctl 7) 1 = true
      ∧ 64 * s.field (.trctl 7) 2 12 ≠ 0 ∧ s.tick % (64 * s.field (.trctl 7) 2 12) = 0 ∧ (s.die 7).sampled ≠ s.tick + 1
      ∧ s.flag (.trbase 7) 0 = false)
    ∧ (2 ^ 15 ≤ (2 ^ 15 : Dword).toNat ∧ (2 ^ 15 - 1 : Dword).toNat < 2 ^ 15)
    ∧ (let v : Dword := BitVec.ofNat 64 (1 + 71 * 8 + 8 * 2 ^ 16)
      v.getLsbD 0 = true ∧ v.toNat / 2 ^ 3 % 2 ^ 7 = 71 ∧ v.toNat / 2 ^ 16 % 2 ^ 20 = 8 ∧ v.toNat / 2 ^ 10 % 2 ^ 6 = 0
      ∧ v.toNat / 2 % 4 = 0 ∧ v.toNat < 2 ^ 36) := by decide +kernel

/-- A ring of two raster jobs of cluster 0: one whose triangle has no area, at a bad record, at an absent page. -/
def vbdBytes : List Byte := leBytes 4 0x56510001 ++ leBytes 2 16 ++ leBytes 2 16 ++ [1, 0, 0, 0, 0, 0, 0, 0]
  ++ leBytes 8 0x18000 ++ leBytes 8 0x19000 ++ leBytes 8 0x1A000 ++ List.replicate 24 0
def jobBytes (magic : Nat) : List Byte := leBytes 4 magic ++ leBytes 4 0 ++ leBytes 8 0x16000 ++ leBytes 8 0x17000 ++ leBytes 8 0x17000
  ++ leBytes 8 0 ++ leBytes 4 1 ++ leBytes 4 3 ++ leBytes 16 0
def rastering (base magic : Nat) : State :=
  let s := ((idle.setReg (.rqbase 0) (BitVec.ofNat 64 (base + 1 + 2))).setReg (.rqctl 0) 0).setReg (.rqtail 0) 1
  { s with dev := ⟨tableCells ++ cellsAt 0x15000 (jobBytes magic) ++ cellsAt 0x16000 vbdBytes
    ++ cellsAt 0x17000 (List.replicate 48 0), []⟩ }
def rasters (base magic : Nat) : Option (Option Cause) :=
  match (rastering base magic).runRaster 0 ((rastering base magic).field (.rqbase 0) 12 44 * 2 ^ 12) with
  | .ok _ => some none
  | .error (e, _) => some (some e.cause)

theorem witness_raster_queues : (rastering 0x15000 0).flag (.rqbase 0) 0 = true ∧ (rastering 0x15000 0).field (.rqtail 0) 0 12 = 1
    ∧ (rastering 0x15000 0).field (.rqhead 0) 0 12 = 0 ∧ ((rastering 0x15000 0).cluster 0).rasterWait = none
    ∧ idle.flag (.rqbase 0) 0 = false
    ∧ rasters 0x15000 0 = some (some .format) ∧ rasters 0x4000000 0 = some (some .pageNotPresent) := by decide +kernel
theorem witness_raster_job : rasters 0x15000 0x4A510001 = some none := by decide +kernel

theorem witness_shared_edges : (0 : Int) ≠ 1 := by decide

/-- A ring of two copy jobs of die 0 with two engines: a routine's job, a built-in copy, one of unlike lengths, and a
bad record. -/
def copyBytes (magic slot len2 : Nat) : List Byte := leBytes 4 magic ++ [BitVec.ofNat 8 slot, 2, 0, 0] ++ leBytes 8 0
  ++ leBytes 8 0x30000 ++ leBytes 4 1 ++ [3, 0, 0, 0] ++ leBytes 8 0x30040 ++ leBytes 4 len2 ++ [3, 0, 0, 0]
  ++ List.replicate 80 0
def copies (bs : List Byte) : State :=
  let s := ((idle.setReg (.cjbase 0) (BitVec.ofNat 64 (0x15000 + 1 + 2))).setReg (.cjctl 0) 2).setReg (.cjtail 0) 1
  { s with
    dev := ⟨cellsAt 0x15000 bs, []⟩
    dies := s.dies.set 0 { s.die 0 with routines := [(2, [0x73, 0, 0, 0])] } }
def copyJob (slot len2 : Nat) : Except Nat CopyJob := copyJobOf ((copies []).die 0) 0x15000 0 (copyBytes 0x45510001 slot len2)

theorem witness_copy_jobs : (let s := copies (copyBytes 0x45510001 2 1)
      s.flag (.cjbase 0) 0 = true ∧ s.field (.cjhead 0) 0 12 = 0 ∧ s.field (.cjtail 0) 0 12 = 1
      ∧ ((s.die 0).engines.filter fun e => e.job.isSome).length < s.field (.cjctl 0) 0 4
      ∧ (s.die 0).engines.findIdx? (fun e => e.job.isNone) = some 0)
    ∧ ((copyJob 2 1).toOption.map (·.slot)) = some 2
    ∧ ((copyJob 0 1).toOption.map fun j => j.builtInXfer.isOk) = some true
    ∧ ((copyJob 0 2).toOption.map fun j => j.builtInXfer.isOk) = some false
    ∧ (copyJobOf ((copies []).die 0) 0x15000 0 (copyBytes 0 2 1)).toOption = none := by decide +kernel
theorem witness_copy_record : ((copies (copyBytes 0x45510001 2 1)).readAt .dev 0x15000 128).toOption
    = some (copyBytes 0x45510001 2 1) := by decide +kernel

/-- An engine that runs a routine of one instruction; its time has or has not run out; a transfer of one unit to its
buffer from memory, and one that is done. -/
def routineJob : CopyJob := ⟨0, 0x15000, 2, [(0x30000, 1, 3)], [], 0, 0⟩
def transferOf (gaddr pos : Nat) : Xfer := ⟨0, gaddr, 1, 0, 0, pos, none⟩
def engined (code : List Byte) (xs : List Xfer) (tick lim : Nat) : State :=
  let s := copies []
  let s1 := s.setReg (.cjctl 0) (BitVec.ofNat 64 (2 + 16 * lim))
  { (({ s1 with dies := s1.dies.set 0 { s1.die 0 with routines := [(2, code)] } } : State).setEngine 0 0
      { Engine.reset with
        job := some routineJob
        xfers := xs }) with tick := tick }

theorem witness_copy_timeout : ((engined [] [] 1025 1).engine 0 0).job = some routineJob
    ∧ 1024 * (engined [] [] 1025 1).field (.cjctl 0) 4 16 ≠ 0
    ∧ routineJob.started + 1024 * (engined [] [] 1025 1).field (.cjctl 0) 4 16 < (engined [] [] 1025 1).tick
    ∧ (engined [] [] 1024 1).tick ≤ routineJob.started + 1024 * (engined [] [] 1024 1).field (.cjctl 0) 4 16
    ∧ (engined [] [] 1025 0).field (.cjctl 0) 4 16 = 0 := by decide +kernel

/-- A slot's package of 64 bytes at 0x15000, verified for die 0 and slot 31, and not. -/
def slotValue : Dword := BitVec.ofNat 64 (1 + 2 * 1 + 0x15000 / 64 * 2 ^ 16)
def slotted (l : List (Nat × Nat × Dword)) : State :=
  { copies (List.replicate 64 0) with mgmt := { idle.mgmt with slots := l } }
theorem witness_routine_slots : slotValue.toNat / 2 ^ 11 % 32 = 0 ∧ slotValue.toNat / 2 ^ 62 = 0 ∧ slotValue.getLsbD 0 = true
    ∧ slotValue.toNat / 2 % 2 ^ 10 = 1 ∧ (∀ e ∈ ((slotted []).die 0).engines, e.job = none)
    ∧ (slotted []).mgmt.slots.contains (0, 31, slotValue) = false
    ∧ (slotted [(0, 31, slotValue)]).mgmt.slots.contains (0, 31, slotValue) = true
    ∧ ((slotted []).readAt .dev (slotValue.toNat / 2 ^ 16 % 2 ^ 46 * 64) 64).isOk = true := by decide +kernel

/-- A transfer from a page that is mapped, from one that is absent, and from one that is not mapped. -/
theorem witness_transfers : (∀ x ∈ [transferOf 0x30000 0, transferOf 0x30000 1, transferOf 0x4000000 0],
      ((engined [] [x] 0 0).engine 0 0).job = some routineJob ∧ ((engined [] [x] 0 0).engine 0 0).xfers[0]? = some x
      ∧ x.wait = none ∧ 2 ≤ routineJob.slot) ∧ (transferOf 0x30000 0).pos < (transferOf 0x30000 0).len := by decide +kernel
def moves (base gaddr : Nat) : Option (Option Cause) :=
  let s := { engined [] [transferOf gaddr 0] 0 0 with dev := ⟨tableCells ++ cellsAt 0x30000 (List.replicate 64 0), []⟩ }
  let r := s.moveUnits 0 0 { routineJob with streams := [(base, 1, 3)] } (transferOf gaddr 0) false 1 0
  some (r.2.2.map (·.cause))
theorem witness_transfers_end : moves 0x30000 0x30000 = some none ∧ moves 0x4000000 0x4000000 = some (some .pageNotPresent)
    ∧ moves 0x8000000 0x8000000 = some (some .protection) :=
  by decide +kernel

/-- Engines about to run addi, an illegal word, writes and reads of the move registers, ecall and ebreak. -/
def running (w : Nat) (xs : List Xfer) : State := engined (leBytes 4 w) xs 0 0
def fetches (w : Nat) : Bool := match (running w []).rv? 0 0 with
  | some r => (match r.fetchAt r.x.pc with
    | .ok v => v == w
    | .error _ => false)
  | none => false
theorem witness_routines : (∀ w ∈ [0x00150513, 0x80051073, 0x80202573, 0x73, 0x100073], fetches w = true)
    ∧ 0 < (running 0x73 []).dies.length ∧ 0 < ((running 0x73 []).die 0).engines.length
    ∧ 1 * 2 ^ 20 + 10 * 2 ^ 15 + 10 * 2 ^ 7 + 0x13 = 0x00150513 ∧ 0x80000000 + 10 * 2 ^ 15 + 0x1073 = 0x80051073
    ∧ 0x80202073 + 10 * 2 ^ 7 = 0x80202573
    ∧ (∀ y ∈ ((running 0x73 [transferOf 0x30000 1]).engine 0 0).xfers, y.len ≤ y.pos)
    ∧ (∃ y ∈ ((running 0x73 [transferOf 0x30000 0]).engine 0 0).xfers, y.pos < y.len)
    ∧ (((running 0x73 []).rv? 0 0).map fun r => (r.get 10, r.j.done, r.x.stall)) = some (0, 0, false) := by decide +kernel

/-- Samples at the first clock and off it; both sides of the power limit, of TPWR's count and of a die's limits. -/
theorem witness_throttling : idle.dies.length = 8 ∧ (List.replicate 8 (255 : Nat)).length = 8 ∧ idle.tick % 65536 = 0
    ∧ idle.levelled ≠ idle.tick + 1 ∧ (idle.setReg .pwrctl 100).field .pwrctl 0 12 = 100 ∧ idle.pcool < 15
    ∧ (idle.field (.thctl 7) 0 8 ≤ 255 ∧ idle.field (.thctl 7) 8 8 < 0x5E ∧ 0x5E < idle.field (.thctl 7) 0 8)
    ∧ ({ idle with tick := 1 } : State).tick % 65536 ≠ 0 ∧ (idle.die 7).trip = false := by decide +kernel

/-- The mailbox: busy; with firmware and a window over the buffer at 0x20000, which names slot 2 and an image of 64
bytes behind it; in recovery; and at a command's end. -/
def mailbox (stage busy win : Nat) : State :=
  ((((idle.setReg .mgstat (BitVec.ofNat 64 stage)).setReg .mbcmd (BitVec.ofNat 64 (busy * 256))).setReg (.mgwin 0)
    (BitVec.ofNat 64 win)).setReg .mbaddr 0x20000)
def bufferBytes : List Byte := leBytes 8 2 ++ leBytes 8 0x20200 ++ List.replicate 496 0 ++ leBytes 12 0 ++ leBytes 4 64
  ++ List.replicate 304 0
def window : Nat := 0x20001 + 4 * 20

theorem cells_listed (a : Nat) (bs : List Byte) (i : Nat) (h : i < bs.length) :
    (getKey (cellsAt a bs) (a + i)) = some bs[i] := by
  have aux : ∀ (bs : List Byte) (a k i : Nat) (h : i < bs.length),
      getKey ((bs.zipIdx k).map fun x => (a + x.2, x.1)) (a + k + i) = some bs[i] := by
    intro bs
    induction bs with
    | nil => intro a k i h; simp at h
    | cons b r ih =>
      intro a k i h
      simp only [List.zipIdx_cons, List.map_cons, getKey]
      cases i with
      | zero => simp
      | succ i =>
        have h1 : ¬ a + k + (i + 1) = a + k := by omega
        have h2 : ¬ a + k + (i + 1) < a + k := by omega
        rw [if_neg h1, if_neg h2]
        have := ih a (k + 1) i (by simpa using h)
        rw [show a + (k + 1) + i = a + k + (i + 1) by omega] at this
        simpa using this
  simpa [cellsAt] using aux bs a 0 i h

theorem cells_bytes (f : Fill) (a : Nat) (bs : List Byte) (o n : Nat) (h : o + n ≤ bs.length) :
    (⟨cellsAt a bs, []⟩ : Memory).bytes f (a + o) n = (bs.drop o).take n := by
  induction n generalizing o with
  | zero => simp [Memory.bytes]
  | succ n ih =>
    have ho : o < bs.length := by omega
    rw [Memory.bytes, show a + o + 1 = a + (o + 1) by omega, ih (o + 1) (by omega), Memory.byte, Memory.get?,
      cells_listed a bs o ho]
    rw [List.drop_eq_getElem_cons ho, List.take_succ_cons]
    rfl

/-- A read within bytes that a memory lists meets no wrong code. -/
theorem cells_read (f : Fill) (a : Nat) (bs : List Byte) (o n : Nat) (ha : a % 8 = 0) (ho : o % 8 = 0) (hn : n % 8 = 0)
    (h : o + n ≤ bs.length) : (⟨cellsAt a bs, []⟩ : Memory).read f (a + o) n = .ok ((bs.drop o).take n) := by
  have hg : ∀ g, a + o ≤ 8 * g → 8 * g + 8 ≤ a + o + n → (⟨cellsAt a bs, []⟩ : Memory).check f g = none := by
    intro g h1 h2
    have hl : (⟨cellsAt a bs, []⟩ : Memory).listed g = true := by
      simp only [Memory.listed, List.all_eq_true, List.mem_range, Memory.get?]
      intro i hi
      have := cells_listed a bs (8 * g + i - a) (by omega)
      rw [show a + (8 * g + i - a) = 8 * g + i by omega] at this
      rw [this]; rfl
    unfold Memory.check
    split
    · rfl
    · simp only [getKey]
      split <;> rfl
  have hc : ∀ k g, a + o ≤ 8 * g → 8 * (g + k) ≤ a + o + n → (⟨cellsAt a bs, []⟩ : Memory).checkFrom f g k = none := by
    intro k
    induction k with
    | zero => intros; rfl
    | succ k ih =>
      intro g h1 h2
      rw [Memory.checkFrom, hg g h1 (by omega)]
      exact ih (g + 1) (by omega) (by omega)
  rw [Memory.read, Memory.checkRange]
  by_cases h0 : n = 0
  · simp [h0, Memory.bytes]
  · rw [if_neg h0, hc _ _ (by omega) (by omega), cells_bytes f a bs o n h]

def mailed (stage busy win : Nat) : State := { mailbox stage busy win with dev := ⟨cellsAt 0x20000 bufferBytes, []⟩ }

theorem mailed_reads (o n : Nat) (ho : o % 8 = 0) (hn : n % 8 = 0) (hl : o + n ≤ 832) :
    (mailed 2 0 window).readAt .dev (0x20000 + o) n = .ok ((bufferBytes.drop o).take n) :=
  cells_read _ 0x20000 bufferBytes o n (by decide) ho hn (Nat.le_trans hl (by decide +kernel))

theorem mailed_turnip (n : Nat) (hn : n % 8 = 0) (hl : 512 + n ≤ 832)
    (hp : (mailed 2 0 window).mgPlace (0x20000 + 512) n = some .dev) :
    (mailed 2 0 window).turnipRead (0x20000 + 512) n = .ok ((bufferBytes.drop 512).take n) := by
  simp only [State.turnipRead, hp, mailed_reads 512 n rfl hn hl]

theorem witness_mailbox_reads : (mailed 2 0 window).readAt .dev (0x20000 + 0) 512 = .ok (bufferBytes.take 512)
    ∧ (mailed 2 0 window).turnipImage (0x20000 + 512) = .ok ((bufferBytes.drop 512).take (256 + 64)) := by
  refine ⟨mailed_reads 0 512 rfl rfl (by omega), ?_⟩
  have hi : imageLen ((bufferBytes.drop 512).take 256) = 64 := by decide +kernel
  have h1 := mailed_turnip 256 rfl (by omega) (by decide +kernel)
  have h2 := mailed_turnip (256 + 64) rfl (by omega) (by decide +kernel)
  unfold State.turnipImage
  rw [h1]
  simp only [hi]
  rw [if_neg (by decide)]
  exact h2

theorem witness_mailbox : (mailed 2 1 window).flag .mbcmd 8 = true ∧ (mailed 2 0 window).flag .mbcmd 8 = false
    ∧ (mailed 2 0 window).field .mgstat 0 4 = 2 ∧ (mailed 3 0 window).field .mgstat 0 4 = 3
    ∧ (∀ i, i < 4 → (mailed 2 0 0).flag (.mgwin i) 0 = false)
    ∧ (mailed 2 0 window).field .mbaddr 6 46 * 64 = 0x20000
    ∧ (mailed 2 0 window).mgPlace 0x20000 512 = some .dev
    ∧ leNat (bufferBytes.take 8) = 2 ∧ leNat ((bufferBytes.drop 8).take 8) = 0x20200
    ∧ imageLen ((bufferBytes.drop 512).take 320) = 64 ∧ (mailed 2 0 window).mgPlace 0x20200 256 = some .dev
    ∧ idle.mgmt.command = none ∧ idle.mgmt.slots = [] := by decide +kernel

theorem witness_register_writes : ((4 : Nat) % 8 ≠ 0 ∧ Reg.at? (8 * Reg.balctl.index / 8) = some .balctl
      ∧ Reg.at? (2 ^ 40) = none)
    ∧ (∀ q n, Reg.balctl ≠ .bell q n) ∧ Agent.host ≠ .user
    ∧ idle.flag (.cxsched 0) 0 = true ∧ idle.flag (.cxsched 63) 0 = false := by
  refine ⟨by decide +kernel, ?_, by decide, by decide +kernel⟩
  intro q n h
  cases h


/-! ## Witnesses: encoding, memory, faults, the log, and the step -/

theorem witness_encoding : (Instr.nop hd).WellFormed = true ∧ encode (.nop hd) = some 1 ∧ decode 1 = .ok (.nop hd)
    ∧ decode 0 = .error .opcode := by decide +kernel

theorem witness_check_codes : (0xFFFFFFFFFFFFFFFF < 2 ^ 64 ∧ 0 < 255 ∧ 255 * 2 ^ 56 < 2 ^ 64) := by decide

/-- A memory that lists a byte; whole granules, a narrow write where the code is right and where it is wrong. -/
def listedFill : Fill := ⟨fun _ => 0, some fun _ => 0xA5, true⟩
def oneByte (code : List Host.Cell) : Memory := ⟨[(9, 1)], code⟩
theorem witness_memory_contents : (oneByte []).wf = true ∧ (oneByte [(1, 0)]).wf = true
    ∧ ((oneByte []).write listedFill 0 (List.replicate 8 7)).isOk = true ∧ (List.replicate 8 (7 : Byte)).length % 8 = 0
    ∧ (0 % 8 + [(7 : Byte)].length < 8) ∧ ((oneByte []).check listedFill 0) = none
    ∧ ((oneByte [(1, 0)]).check listedFill 1).isSome = true ∧ (List.replicate 8 (7 : Byte), (0 : Byte)).1.length = 8 := by
  decide +kernel

/-- A fault queue of one record, with room and without. -/
def faulty (tail : Nat) : State :=
  ((idle.setReg (.fqbase 0) (BitVec.ofNat 64 (0x50000 + 1))).setReg (.fqtail 0) (BitVec.ofNat 64 tail)).setReg (.fqhead 0) 1
theorem witness_fault_records : (faulty 1).fqRoom 0 = true ∧ (faulty 0).fqRoom 0 = false ∧ (faulty 1).ctxs.length = 64
    ∧ (faulty 1).dev.wf = true ∧ ∀ d < 8, (faulty 1).flag (.trctl d) 0 = false := by decide +kernel

/-- Faults of a wave of threads, of helpers alone, under the debugger, and of each kind. -/
theorem witness_taken_faults : e0.w.helperMask &&& 1 = 0 ∧ (1 : BitVec 64) &&& ~~~e0.w.helperMask ≠ 0
    ∧ (1 : BitVec 64) &&& ~~~(helpers e0).w.helperMask = 0
    ∧ (∃ x, (box e0).wave? e0.w.id = some x) ∧ (box e0).flag (.dbgctl ((box e0).ctxOfCrew 1)) 0 = false
    ∧ (box e0).flag (.dbgctl ((box e0).ctxOfCrew 1)) 2 = false
    ∧ (debugged 3 false).flag (.dbgctl 0) 0 = true ∧ (debugged 3 false).flag (.dbgctl 0) 1 = true
    ∧ (∃ k t, (box e0).crew? e0.w.crew = some k ∧ (box e0).task? k.task = some t ∧ (box e0).replaying t.ctx = false) :=
  ⟨by decide +kernel, by decide +kernel, by decide +kernel, ⟨_, rfl⟩, by decide +kernel, by decide +kernel, by decide +kernel,
    by decide +kernel, _, _, rfl, rfl, by decide +kernel⟩

/-- A task that is retried, and one that is not. -/
def retried (r : Nat) : Task := { probeTask 0 with
  flags := 4
  retry := r }
theorem witness_discards : ({ box e0 with tasks := [retried 1] } : State).task? 0 = some (retried 1)
    ∧ (retried 1).retries = true ∧ (retried 0).retries = false
    ∧ ({ box e0 with tasks := [retried 0] } : State).task? 0 = some (retried 0) := by decide +kernel

theorem witness_log_records : (let s := (idle.setReg (.flbase 0) (BitVec.ofNat 64 (0x50000 + 2 ^ 52))).setReg (.flctl 0) 1
    s.ctxs.length = 64 ∧ s.logging 0 = true ∧ s.dev.wf = true ∧ rising (s.ctx 0).hseq = true ∧ s.field (.flhigh 0) 0 31 = 0) := by
  decide +kernel

/-- A machine whose next act is the issue of quarter 0 of core 0; the line of the kernel holds words, and marks. -/
def lineOf (ws : List InstrWord) (marks : Nat) : List Byte :=
  let p := ((List.range 5).map fun i => if oddOnes 96 (getAt ws i 0).toNat then 2 ^ (24 + i) else 0).sum
  let lw := marks + p
  ws.flatMap (fun w => leBytes 12 w.toNat) ++ List.replicate (60 - 12 * ws.length) 0
    ++ leBytes 4 (lw + if oddOnes 32 lw then 2 ^ 31 else 0)
def turning (ws : List InstrWord) (marks : Nat) (half : Bool) : State :=
  let s := State.reset.withFetchWord 96 1
  { s with
    dev := ⟨cellsAt 128 (lineOf ws marks) ++ tableCells, []⟩
    waves := s.waves.map fun w => w.each (~~~0) fun _ th => { th with half := half } }

/-- What the step at that turn finds: the instruction and the second member of a pair, or a fault. -/
def turnsTo (s : State) : Option (Option (Instr × Option Instr) × Bool) :=
  match s.nextWave 0 0 with
  | none => none
  | some w => match s.crew? w.crew with
    | none => none
    | some k => match s.task? k.task with
      | none => none
      | some t => match (if w.overdue k (s.groups w) then oldestGroup (s.groups w) else lowestGroup (s.groups w)) with
        | none => none
        | some g =>
          let c := s.chosen 0 0 w t g (w.overdue k (s.groups w))
          match c.1.gRead (fetchAcc t) none 1 (k.hdr.lineVa (g.pc / 5)) 64 with
          | .error _ => none
          | .ok (line, _) =>
            if s.throttled 0 || !s.quarterTurn 0 0 || s.stopped || decide (k.hdr.slots ≤ g.pc) then none
            else match (Issue.fetched c.1 c.2 g.lanes g.pc line).checked k t.prv line
                ((lanesOf g.lanes).any fun l => (c.2.th l).entry) with
              | .ok x => some (some x, g.half)
              | .error _ => some (none, g.half)

def addWord : InstrWord := word 0x40 3 1 0 0 3 0x10 7

theorem witness_step_runs : turnsTo (turning [1] 1 false) = some (some (.nop hd, none), false)
    ∧ (turning [1] 1 false).agenda = [.issue 0 0] ∧ (turning [1] 1 false).stopped = false := by decide +kernel
theorem witness_step_pairs : turnsTo (turning [1, addWord] (1 + 2 ^ 5) false)
    = some (some (.nop hd, some (.add (bin .i32 (.v 3) (.v 1) (.imm 7)))), false) := by decide +kernel
theorem witness_step_second : (turnsTo (turning [1, addWord] (1 + 2 ^ 5) true)).map (·.2) = some true := by decide +kernel
theorem witness_step_faults : turnsTo (turning [0] 1 false) = some (none, false) := by decide +kernel

/-- The memories and the parts of the package are as the invariants ask, and the machine steps. -/
theorem witness_step_invariants : State.reset.memOk = true ∧ State.reset.partsOk = true
    ∧ (match step State.reset with
      | .next _ => true
      | _ => false) = true := by decide +kernel

end Sys2Proof.Tests
end

section
/-! Every step keeps the parts of the package (spec/00 R1): how many cores, clusters, copy engines, context
slots and queues the state holds. Each operation that changes the state has one rule here, in the model's
order, and a rule about an operation cites the rules about the operations that it calls: `f_parts` says that
`f` leaves the numbers as they are, whatever they are. Only a reset of the package (R457) does not: it gives
the numbers of R1, and from there the rules are named `f_whole`. A proof splits the branches of its operation;
where they are many and alike, `grind` takes the split with the rules that the branches need. -/

namespace Sys2Proof.Machine

/-! ## The parts -/

/-- How many parts of each kind a state holds; the copy engines die by die. -/
structure Parts where
  cores : Nat
  clusters : Nat
  engines : List Nat
  ctxs : Nat
  queues : Nat

def State.parts (s : State) : Parts where
  cores := s.cores.length
  clusters := s.clusters.length
  engines := s.dies.map fun d => d.engines.length
  ctxs := s.ctxs.length
  queues := s.queues.length

/-- The parts of R1. -/
def Parts.whole : Parts := ⟨512, 64, List.replicate 8 12, 64, 256⟩

theorem State.partsOk_iff (s : State) : s.partsOk = true ↔ s.parts = .whole := by
  have hd : (s.dies.length = 8 ∧ ∀ d ∈ s.dies, d.engines.length = 12) ↔
      (s.dies.map fun d => d.engines.length) = List.replicate 8 12 := by
    rw [List.eq_replicate_iff]
    simp
  simp only [State.partsOk, State.parts, Parts.whole, Parts.mk.injEq, ← hd, Bool.and_eq_true, beq_iff_eq,
    List.all_eq_true]
  tauto

theorem State.parts_reset : State.reset.parts = .whole := by
  simp only [State.reset, State.parts, Parts.whole, List.length_replicate, List.map_replicate, Die.reset]

@[simp] theorem Parts.fold (s : State) :
    Parts.mk s.cores.length s.clusters.length (s.dies.map fun d => d.engines.length) s.ctxs.length
      s.queues.length = s.parts := rfl

/-- A record update of any other field of the state. -/
@[simp] theorem State.parts_mk
    (tick taken stopped dev hostMem peerMem walks lines coreLines up remap merges inval
    ctl cores layers clusters dies ctxs queues tasks crews waves arrivals moment hist rels enqueues links tpw
    pcool levelled mgmt dbg snap agenda iss freeN epoch nextId) :
    State.parts ⟨tick, taken, stopped, dev, hostMem, peerMem, walks, lines, coreLines, up, remap, merges, inval,
      ctl, cores, layers, clusters, dies, ctxs, queues, tasks, crews, waves, arrivals, moment, hist, rels, enqueues,
      links, tpw, pcool, levelled, mgmt, dbg, snap, agenda, iss, freeN, epoch, nextId⟩
    = ⟨cores.length, clusters.length, dies.map fun d => d.engines.length, ctxs.length, queues.length⟩ := rfl

/-! ## Folds, maps and choices -/

section
variable {s t : State}

theorem foldl_parts {α : Type} {f : State → α → State} (h : ∀ s a, (f s a).parts = s.parts) (s : State)
    (l : List α) : (l.foldl f s).parts = s.parts := by
  induction l generalizing s with
  | nil => rfl
  | cons a l ih => simp [ih, h]

theorem eachBelow_parts {ε : Type} {f : Nat → State → Except ε State}
    (hf : ∀ i u v, f i u = .ok v → v.parts = u.parts) {n : Nat}
    (h : eachBelow f n s = .ok t) : t.parts = s.parts := by
  induction n generalizing t with
  | zero =>
    cases h
    rfl
  | succ n ih =>
    unfold eachBelow at h
    split at h
    · cases h
    · next hu => exact (hf _ _ _ h).trans (ih hu)

theorem eachOf_parts {α ε : Type} {f : α → State → Except ε State}
    (hf : ∀ x u v, f x u = .ok v → v.parts = u.parts) {l : List α}
    (h : eachOf f l s = .ok t) : t.parts = s.parts := by
  induction l generalizing s with
  | nil =>
    cases h
    rfl
  | cons x r ih =>
    unfold eachOf at h
    split at h
    · cases h
    · next hu => exact (ih h).trans (hf _ _ _ hu)

theorem findSome_parts {α : Type} {f : α → Option State} {l : List α}
    (hf : ∀ x u, f x = some u → u.parts = s.parts)
    (h : l.findSome? f = some t) : t.parts = s.parts := by
  obtain ⟨x, -, hx⟩ := List.exists_of_findSome?_eq_some h
  exact hf x t hx

theorem map_ok_parts {ε : Type} {x : Except ε State} {f : State → State}
    (hx : ∀ u, x = .ok u → u.parts = s.parts)
    (hf : ∀ u, (f u).parts = u.parts) (h : x.map f = .ok t) : t.parts = s.parts := by
  cases x with
  | error e => cases h
  | ok u =>
    cases h
    exact (hf u).trans (hx u rfl)

theorem map_some_parts {x : Option State} {f : State → State} (hx : ∀ u, x = some u → u.parts = s.parts)
    (hf : ∀ u, (f u).parts = u.parts) (h : x.map f = some t) : t.parts = s.parts := by
  obtain ⟨u, hu, rfl⟩ := Option.map_eq_some_iff.mp h
  exact (hf u).trans (hx u hu)

theorem getD_parts {x : Option State} (hx : ∀ u, x = some u → u.parts = s.parts) :
    (x.getD s).parts = s.parts := by
  cases x with
  | none => rfl
  | some u => exact hx u rfl

theorem except_map_ok {ε α β : Type} {x : Except ε α} {f : α → β} {b : β} (h : x.map f = .ok b) :
    ∃ a, x = .ok a ∧ f a = b := by
  cases x <;> cases h
  exact ⟨_, rfl, rfl⟩

theorem orTrap_ok {α : Type} {x : Except Trap α} {a : α} (h : orTrap x = .ok a) : x = .ok a := by
  cases x <;> cases h
  rfl

end

/-! ## Dies -/

@[simp] theorem State.setDie_parts {s : State} {d : Nat} {x : Die}
    (h : x.engines.length = (s.die d).engines.length) :
    (s.setDie d x).parts = s.parts := by
  have hd : s.dies.map (·.engines.length) = (s.dies.set d x).map (·.engines.length) := by
    apply List.ext_getElem (by simp)
    intro i hi hj
    by_cases hid : d = i
    · subst hid
      simp only [List.length_map] at hi
      simp [h, State.die, getAt, hi]
    · simp [List.getElem_set_ne hid]
  simp only [State.setDie, State.parts, hd]

@[simp] theorem Die.setRoutine_engines (x : Die) (n : Nat) (b : Option (List Byte)) :
    (x.setRoutine n b).engines = x.engines := by
  cases b <;> rfl

@[simp] theorem Die.sampleHeat_engines (x : Die) (hi lo hot : Nat) :
    (x.sampleHeat hi lo hot).engines = x.engines := by
  grind [Die.sampleHeat]

@[simp] theorem State.die_setReg (s : State) (r : Reg) (v : Dword) (d : Nat) :
    (s.setReg r v).die d = s.die d := (rfl)

@[simp] theorem State.die_setField (s : State) (r : Reg) (lo n v d : Nat) :
    (s.setField r lo n v).die d = s.die d := (rfl)

/-! ## Memories -/

@[simp] theorem State.setCore_parts (s : State) (c : Nat) (x : Core) : (s.setCore c x).parts = s.parts := by
  simp [State.setCore]

@[simp] theorem State.setMem_parts (s : State) (p : Place) (m : Memory) :
    (s.setMem p m).parts = s.parts := by
  unfold State.setMem
  split <;> simp

theorem State.writeAt_parts {s : State} {p : Place} {a : Nat} {bs : List Byte} {t}
    (h : s.writeAt p a bs = .ok t) : t.parts = s.parts := by
  unfold State.writeAt at h
  split at h <;> cases h
  simp

@[simp] theorem State.putAt_parts (s : State) (p : Place) (a : Nat) (bs : List Byte) :
    (s.putAt p a bs).parts = s.parts := by
  grind [State.putAt, → State.writeAt_parts]

/-! ## The register file of the package -/

@[simp] theorem State.setReg_parts (s : State) (r : Reg) (v : Dword) : (s.setReg r v).parts = s.parts := by
  simp [State.setReg]

@[simp] theorem State.setField_parts (s : State) (r : Reg) (lo n v : Nat) :
    (s.setField r lo n v).parts = s.parts := by
  simp [State.setField]

@[simp] theorem State.refuseAt_parts (s : State) (off : Nat) : (s.refuseAt off).parts = s.parts := by
  unfold State.refuseAt
  split <;> simp

/-! ## Accesses -/

@[simp] theorem State.setWave_parts (s : State) (w : Wave) : (s.setWave w).parts = s.parts := by
  simp [State.setWave]

@[simp] theorem State.setCrew_parts (s : State) (c : Crew) : (s.setCrew c).parts = s.parts := by
  simp [State.setCrew]

@[simp] theorem State.setTask_parts (s : State) (t : Task) : (s.setTask t).parts = s.parts := by
  simp [State.setTask]

@[simp] theorem State.updTask_parts (s : State) (id : Nat) (f : Task → Task) :
    (s.updTask id f).parts = s.parts := by
  simp [State.updTask]

@[simp] theorem State.stat_parts (s : State) (task i n : Nat) : (s.stat task i n).parts = s.parts := by
  unfold State.stat
  split <;> simp

@[simp] theorem State.setCtx_parts (s : State) (c : Nat) (x : Ctx) : (s.setCtx c x).parts = s.parts := by
  simp [State.setCtx]

@[simp] theorem State.setCluster_parts (s : State) (c : Nat) (x : Cluster) :
    (s.setCluster c x).parts = s.parts := by
  simp [State.setCluster]

@[simp] theorem State.setSubq_parts (s : State) (q : Nat) (x : SubQ) : (s.setSubq q x).parts = s.parts := by
  simp [State.setSubq]

@[simp] theorem State.hostWrite_parts (s : State) (pa : Nat) (bs : List Byte) :
    (s.hostWrite pa bs).parts = s.parts := by
  simp [State.hostWrite]

@[simp] theorem State.raise_parts (s : State) (bits : Dword) : (s.raise bits).parts = s.parts := by
  unfold State.raise
  dsimp only
  split <;> simp

@[simp] theorem State.cwRefuse_parts (s : State) (off : Nat) : (s.cwRefuse off).parts = s.parts := by
  unfold State.cwRefuse
  split <;> simp

@[simp] theorem State.count_parts (s : State) (p : Phys) (k : Nat) : (s.count p k).parts = s.parts := by
  unfold State.count
  split <;> simp

@[simp] theorem State.direct_parts (s : State) (asid line : Nat) :
    (s.direct asid line).parts = s.parts := by
  simp [State.direct]

@[simp] theorem State.recall_parts (s : State) (asid line : Nat) (keep : Option Nat) :
    (s.recall asid line keep).parts = s.parts := by
  simp [State.recall]

@[simp] theorem State.demote_parts (s : State) (asid line : Nat) (keep : Option Nat) :
    (s.demote asid line keep).parts = s.parts := by
  simp [State.demote]

@[simp] theorem State.evictLine_parts (s : State) (l : Line) : (s.evictLine l).parts = s.parts := by
  unfold State.evictLine
  dsimp only
  split <;> simp

@[simp] theorem State.sliceRoom_parts (s : State) (home : Nat) : (s.sliceRoom home).parts = s.parts := by
  unfold State.sliceRoom
  dsimp only
  repeat' split
  all_goals simp

@[simp] theorem State.coreRoom_parts (s : State) (core : Nat) : (s.coreRoom core).parts = s.parts := by
  unfold State.coreRoom
  dsimp only
  repeat' split
  all_goals simp

@[simp] theorem State.allocate_parts (s : State) (p : Phys) (write : Bool) :
    (s.allocate p write).parts = s.parts := by
  unfold State.allocate
  split <;> simp

@[simp] theorem State.mergeRead_parts (s : State) (p : Phys) (miss : Bool) :
    (s.mergeRead p miss).parts = s.parts := by
  unfold State.mergeRead
  dsimp only
  repeat' split
  all_goals simp

@[simp] theorem State.mergeWrite_parts (s : State) (p : Phys) : (s.mergeWrite p).parts = s.parts := by
  simp [State.mergeWrite]

@[simp] theorem State.dropOld_parts (s : State) (p : Phys) : (s.dropOld p).parts = s.parts := by
  unfold State.dropOld
  split
  · split <;> simp
  · simp

@[simp] theorem State.fillLine_parts (s : State) (p : Phys) : (s.fillLine p).parts = s.parts := by
  simp [State.fillLine]

@[simp] theorem State.own_parts (s : State) (p : Phys) : (s.own p).parts = s.parts := by
  simp [State.own]

@[simp] theorem State.atHome_parts (s : State) (p : Phys) (write : Bool) :
    (s.atHome p write).parts = s.parts := by
  unfold State.atHome
  dsimp only
  repeat' split
  all_goals simp

@[simp] theorem State.touch_parts (s : State) (p : Phys) (write : Bool) :
    (s.touch p write).parts = s.parts := by
  grind [State.touch, = State.allocate_parts, = State.atHome_parts, = State.direct_parts, = State.parts_mk,
    = Parts.fold]

@[simp] theorem State.endUp_parts (s : State) (u : UpLine) : (s.endUp u).parts = s.parts := by
  simp [State.endUp, foldl_parts]

@[simp] theorem State.leaveUp_parts (s : State) (pl : Place) (pa : Nat) :
    (s.leaveUp pl pa).parts = s.parts := by
  unfold State.leaveUp
  split <;> simp

@[simp] theorem State.noteRead_parts (s : State) (p : Phys) : (s.noteRead p).parts = s.parts := by
  simp [State.noteRead]

@[simp] theorem State.staleLayers_parts (s : State) (p : Phys) : (s.staleLayers p).parts = s.parts := by
  unfold State.staleLayers
  split <;> simp

@[simp] theorem State.noteWrite_parts (s : State) (p : Phys) : (s.noteWrite p).parts = s.parts := by
  simp [State.noteWrite]

@[simp] theorem State.noteNative_parts (s : State) (p : Phys) : (s.noteNative p).parts = s.parts := by
  unfold State.noteNative
  dsimp only
  split <;> simp

@[simp] theorem State.dropRels_parts (s : State) (p : Place) (a n : Nat) :
    (s.dropRels p a n).parts = s.parts := by
  unfold State.dropRels
  split <;> simp

theorem State.writePhys_parts {s : State} {v : Option Task} {escapes : Bool} {p : Phys} {bs : List Byte} {t}
    (h : s.writePhys v escapes p bs = .ok t) : t.parts = s.parts := by
  unfold State.writePhys at h
  grind [→ State.writeAt_parts, = State.dropRels_parts, = State.noteWrite_parts, = State.updTask_parts,
    = State.staleLayers_parts, = State.touch_parts]

theorem State.gRead_parts {s : State} {a : Acc} {v : Option Task} {unit va n : Nat} {r}
    (h : s.gRead a v unit va n = .ok r) : r.2.parts = s.parts := by
  grind [State.gRead, = State.noteRead_parts]

theorem State.gWrite_parts {s : State} {a : Acc} {v : Option Task} {escapes : Bool} {unit va : Nat}
    {bs : List Byte} {t} (h : s.gWrite a v escapes unit va bs = .ok t) : t.parts = s.parts := by
  unfold State.gWrite at h
  split at h
  · cases h
  · split at h <;> cases h
    next hc => exact State.writePhys_parts hc

theorem State.gReadLines_parts {s : State} {a : Acc} {v : Option Task} {unit k va n : Nat} {r}
    (h : s.gReadLines a v unit k va n = .ok r) : r.2.parts = s.parts := by
  induction k generalizing s va n r with
  | zero =>
    cases h
    rfl
  | succ k ih => grind [State.gReadLines, → State.gRead_parts]

theorem State.gReadAll_parts {s : State} {a : Acc} {v : Option Task} {unit va n : Nat} {r}
    (h : s.gReadAll a v unit va n = .ok r) : r.2.parts = s.parts := by
  unfold State.gReadAll at h
  exact State.gReadLines_parts h

theorem State.gWriteLines_parts {s : State} {a : Acc} {v : Nat} {escapes : Bool} {unit k va : Nat}
    {bs : List Byte} {t} (h : s.gWriteLines a v escapes unit k va bs = .ok t) : t.parts = s.parts := by
  induction k generalizing s va bs with
  | zero =>
    cases h
    rfl
  | succ k ih => grind [State.gWriteLines, → State.gWrite_parts]

theorem State.gWriteAll_parts {s : State} {a : Acc} {v : Nat} {escapes : Bool} {unit va : Nat}
    {bs : List Byte} {t} (h : s.gWriteAll a v escapes unit va bs = .ok t) : t.parts = s.parts := by
  unfold State.gWriteAll at h
  exact State.gWriteLines_parts h

@[simp] theorem State.devWrite_parts (s : State) (pa : Nat) (bs : List Byte) :
    (s.devWrite pa bs).parts = s.parts := by
  simp [State.devWrite]

/-! ## Logs -/

@[simp] theorem State.bumpHseq_parts (s : State) (c home : Nat) : (s.bumpHseq c home).parts = s.parts := by
  simp [State.bumpHseq]

@[simp] theorem State.appendLog_parts (s : State) (c : Nat) (bs : List Byte) :
    (s.appendLog c bs).parts = s.parts := by
  simp [State.appendLog]

@[simp] theorem State.checkHigh_parts (s : State) (c : Nat) : (s.checkHigh c).parts = s.parts := by
  unfold State.checkHigh
  dsimp only
  repeat' split
  all_goals simp

@[simp] theorem State.dropConsumed_parts (s : State) (c n : Nat) :
    (s.dropConsumed c n).parts = s.parts := by
  induction n generalizing s with
  | zero => rfl
  | succ n ih =>
    simp only [State.dropConsumed]
    split <;> simp [ih]

@[simp] theorem State.consume_parts (s : State) (c i extn : Nat) :
    (s.consume c i extn).parts = s.parts := by
  unfold State.consume
  dsimp only
  split <;> simp

theorem State.logDone_parts {s : State} {c : Nat} {o : LogOp} {g : Option (Nat × List Byte)} {t}
    (h : s.logDone c o g = .ok t) : t.parts = s.parts := by
  unfold State.logDone at h
  split at h
  · cases h
    simp [foldl_parts]
  · grind [= State.consume_parts, = State.bumpHseq_parts]

@[simp] theorem State.logAgent_parts (s : State) (c : Nat) (o : LogOp) :
    (s.logAgent c o).parts = s.parts := by
  grind [State.logAgent, → State.logDone_parts]

/-! ## Faults and resolutions -/

@[simp] theorem State.traceWrite_parts (s : State) (die kind ctx src d0 d1 : Nat) :
    (s.traceWrite die kind ctx src d0 d1).parts = s.parts := by
  unfold State.traceWrite
  dsimp only
  split <;> simp

@[simp] theorem State.traceEvent_parts (s : State) (die kind ctx src d0 d1 : Nat) :
    (s.traceEvent die kind ctx src d0 d1).parts = s.parts := by
  unfold State.traceEvent
  split <;> simp

@[simp] theorem State.trigger_parts (s : State) : (s.trigger).parts = s.parts := by
  unfold State.trigger
  split <;> simp

@[simp] theorem State.fqPut_parts (s : State) (c : Nat) (r : FaultRec) : (s.fqPut c r).parts = s.parts := by
  unfold State.fqPut
  split
  · split <;> simp
  · split <;> simp

@[simp] theorem State.faultRecord_parts (s : State) (c : Nat) (r : FaultRec) :
    (s.faultRecord c r).parts = s.parts := by
  unfold State.faultRecord
  split <;> simp

@[simp] theorem State.haltWave_parts (s : State) (w : Wave) (ctx : Nat) :
    (s.haltWave w ctx).parts = s.parts := by
  simp [State.haltWave]

@[simp] theorem State.haltCtx_parts (s : State) (c : Nat) : (s.haltCtx c).parts = s.parts := by
  simp [State.haltCtx, foldl_parts]

@[simp] theorem State.diverge_parts (s : State) (c idx : Nat) (due act : List Byte) :
    (s.diverge c idx due act).parts = s.parts := by
  unfold State.diverge
  dsimp only
  repeat' split
  all_goals simp [foldl_parts]

@[simp] theorem State.unitFault_parts (s : State) (c : Nat) (task : Dword) (att unit : Nat) (t : Trap) :
    (s.unitFault c task att unit t).parts = s.parts := by
  simp [State.unitFault]

@[simp] theorem State.schedWrite_parts (s : State) (t : Task) (va : Nat) (bs : List Byte) :
    (s.schedWrite t va bs).parts = s.parts := by
  grind [State.schedWrite, → State.gWriteAll_parts, = State.unitFault_parts]

@[simp] theorem State.writeState_parts (s : State) (t : Task) (v : Nat) :
    (s.writeState t v).parts = s.parts := by
  simp [State.writeState]

@[simp] theorem State.writeStamp_parts (s : State) (t : Task) (status : Nat) :
    (s.writeStamp t status).parts = s.parts := by
  unfold State.writeStamp
  split <;> simp

@[simp] theorem State.stopTask_parts (s : State) (tid : Nat) : (s.stopTask tid).parts = s.parts := by
  simp [State.stopTask]

@[simp] theorem State.discard_parts (s : State) (t : Task) (e : Trap) (src slot : Nat) (noRetry : Bool) :
    (s.discard t e src slot noRetry).parts = s.parts := by
  unfold State.discard
  dsimp only
  split <;> simp

@[simp] theorem State.endAttempt_parts (s : State) (tid : Nat) (e : Trap) (src slot : Nat) :
    (s.endAttempt tid e src slot).parts = s.parts := by
  unfold State.endAttempt
  dsimp only
  repeat' split
  all_goals simp

@[simp] theorem State.killContext_parts (s : State) (c : Nat) (e : Trap) :
    (s.killContext c e).parts = s.parts := by
  simp only [State.killContext]
  rw [foldl_parts]
  · simp [foldl_parts]
  · intro u q
    split <;> simp

@[simp] theorem State.postResolve_parts (s : State) (c : Nat) (r : FaultRec) :
    (s.postResolve c r).parts = s.parts := by
  unfold State.postResolve
  dsimp only
  repeat' split
  all_goals simp

@[simp] theorem State.releaseHeld_parts (s : State) (c : Nat) : (s.releaseHeld c).parts = s.parts := by
  exact foldl_parts (fun u r => by dsimp only; split <;> simp) _ _

@[simp] theorem State.wakePage_parts (s : State) (c page : Nat) : (s.wakePage c page).parts = s.parts := by
  simp only [State.wakePage, State.parts_mk, List.length_map, List.length_set, List.map_map,
    Function.comp_def, Parts.fold]

@[simp] theorem State.deliver_parts (s : State) (w : Wave) (m : BitVec 64) (slot : Nat) (e : Trap) :
    (s.deliver w m slot e).parts = s.parts := by
  unfold State.deliver
  dsimp only
  repeat' split
  all_goals simp

@[simp] theorem State.takeFault_parts (s : State) (w : Wave) (group : BitVec 64) (slot : Nat) (e : Trap) :
    (s.takeFault w group slot e).parts = s.parts := by
  unfold State.takeFault
  split <;> simp

@[simp] theorem State.takeStop_parts (s : State) (w : Wave) (group : BitVec 64) (slot : Nat) (x : Stop) :
    (s.takeStop w group slot x).parts = s.parts := by
  unfold State.takeStop
  dsimp only
  repeat' split
  all_goals simp

/-! ## Writes of operands -/

@[simp] theorem State.putS_parts (s : State) (w : Wave) (m : BitVec 64) (d : Opd) (x : Dword) :
    (s.putS w m d x).parts = s.parts := by
  unfold State.putS
  dsimp only
  repeat' split
  all_goals simp

@[simp] theorem State.landS_parts (s : State) (w : Wave) (d : Opd) (x : Dword) :
    (s.landS w d x).parts = s.parts := by
  unfold State.landS
  split
  · split
    · simp
    · split <;> simp
  · simp

@[simp] theorem State.stopIssue_parts (s : State) : (s.stopIssue).parts = s.parts := by
  simp [State.stopIssue]

theorem Env.charge_parts {e : Env} {s : State} {m : BitVec 64} {t : Trap} {s1}
    (h : e.charge s m t = .ok s1) : s1.parts = s.parts := by
  unfold Env.charge at h
  split at h
  · cases h
  · split at h <;> cases h
    simp

/-! ## Vector integer operations -/

theorem onIssue_parts {s t : State} {f : Env → Except Stop State} (hf : ∀ e t, f e = .ok t → t.parts = s.parts)
    (h : onIssue s f = .next t) : t.parts = s.parts := by
  obtain ⟨-, hn⟩ | ⟨e, u, -, he, hn⟩ | ⟨e, x, -, -, hn⟩ := onIssue_cases s f
  · simp [hn] at h
  · cases hn.symm.trans h
    exact hf e _ he
  · cases hn.symm.trans h
    simp

@[simp] theorem Env.putV_parts (e : Env) (s : State) (h : Head) (m : Option Modifier) (d : Opd)
    (wide : Bool) (val : Nat → Nat) : (e.putV s h m d wide val).parts = s.parts := by
  simp [Env.putV]

@[simp] theorem Env.putK_parts (e : Env) (s : State) (h : Head) (m : Option Modifier) (d : Opd)
    (val : Nat → Bool) : (e.putK s h m d val).parts = s.parts := by
  simp [Env.putK]

theorem vec2_parts {x : VBin} {f : Nat → Nat → Nat} {s : State} {t}
    (h : vec2 x f s = .next t) : t.parts = s.parts := by
  refine onIssue_parts (fun e t h => ?_) h
  cases h
  rfl

theorem vec1_parts {x : VUn} {wideD : Bool} {f : Nat → Nat} {s : State} {t}
    (h : vec1 x wideD f s = .next t) : t.parts = s.parts := by
  refine onIssue_parts (fun e t h => ?_) h
  cases h
  rfl

theorem vec3_parts {x : VTer} {f : Nat → Nat → Nat → Nat} {s : State} {t}
    (h : vec3 x f s = .next t) : t.parts = s.parts := by
  refine onIssue_parts (fun e t h => ?_) h
  cases h
  rfl

theorem execAddc_parts {x : VCarry} {s : State} {t} (h : execAddc x s = .next t) : t.parts = s.parts := by
  refine onIssue_parts (fun e t h => ?_) h
  cases h
  rfl

theorem execSubb_parts {x : VCarry} {s : State} {t} (h : execSubb x s = .next t) : t.parts = s.parts := by
  refine onIssue_parts (fun e t h => ?_) h
  cases h
  rfl

theorem execLop3_parts {lut : BitVec 8} {x : VTri} {s : State} {t}
    (h : execLop3 lut x s = .next t) : t.parts = s.parts := by
  refine onIssue_parts (fun e t h => ?_) h
  cases h
  rfl

theorem execSel_parts {x : VTer} {s : State} {t} (h : execSel x s = .next t) : t.parts = s.parts := by
  refine onIssue_parts (fun e t h => ?_) h
  cases h
  rfl

theorem execCmp_parts {o : CmpOp} {x : VBin} {s : State} {t}
    (h : execCmp o x s = .next t) : t.parts = s.parts := by
  refine onIssue_parts (fun e t h => ?_) h
  cases h
  rfl

/-! ## Vector float operations -/

@[simp] theorem Env.putFV_parts (e : Env) (s : State) (i : Instr) (h : Head) (m : Option Modifier) (d : Opd)
    (wide rounds : Bool) (val : Nat → Res) : (e.putFV s i h m d wide rounds val).parts = s.parts := by
  simp [Env.putFV]

theorem float2_parts {x : VBin} {f : Fmt → Finish → FVal → FVal → Res} {s : State} {t}
    (h : float2 x f s = .next t) : t.parts = s.parts := by
  refine onIssue_parts (fun e t h => ?_) h
  cases h
  rfl

theorem execFma_parts {neg sub : Bool} {x : VTer} {s : State} {t}
    (h : execFma neg sub x s = .next t) : t.parts = s.parts := by
  refine onIssue_parts (fun e t h => ?_) h
  cases h
  rfl

theorem floatMinMax_parts {isMax nan : Bool} {x : VBin} {s : State} {t}
    (h : floatMinMax isMax nan x s = .next t) : t.parts = s.parts := by
  refine onIssue_parts (fun e t h => ?_) h
  cases h
  rfl

theorem execFcmp_parts {o : FcmpOp} {x : VBin} {s : State} {t}
    (h : execFcmp o x s = .next t) : t.parts = s.parts := by
  refine onIssue_parts (fun e t h => ?_) h
  cases h
  rfl

theorem execFclass_parts {mask : BitVec 10} {x : VUn} {s : State} {t}
    (h : execFclass mask x s = .next t) : t.parts = s.parts := by
  refine onIssue_parts (fun e t h => ?_) h
  cases h
  rfl

theorem execFdiv_parts {x : VBin} {s : State} {t} (h : execFdiv x s = .next t) : t.parts = s.parts := by
  refine onIssue_parts (fun e t h => ?_) h
  cases h
  rfl

theorem execFsqrt_parts {x : VUn} {s : State} {t} (h : execFsqrt x s = .next t) : t.parts = s.parts := by
  refine onIssue_parts (fun e t h => ?_) h
  cases h
  rfl

theorem special_parts {o : SFn} {i : Instr} {x : VUn} {s : State} {t}
    (h : special o i x s = .next t) : t.parts = s.parts := by
  refine onIssue_parts (fun e t h => ?_) h
  cases h
  rfl

theorem execFrnd_parts {x : VUn} {s : State} {t} (h : execFrnd x s = .next t) : t.parts = s.parts := by
  refine onIssue_parts (fun e t h => ?_) h
  cases h
  rfl

theorem execFscl_parts {x : VBin} {s : State} {t} (h : execFscl x s = .next t) : t.parts = s.parts := by
  refine onIssue_parts (fun e t h => ?_) h
  cases h
  rfl

theorem execCvt_parts {x : Cvt} {s : State} {t} (h : execCvt x s = .next t) : t.parts = s.parts := by
  refine onIssue_parts (fun e t h => ?_) h
  cases h
  rfl

theorem execFdot_parts {mix : Bool} {x : VTri} {s : State} {t}
    (h : execFdot mix x s = .next t) : t.parts = s.parts := by
  refine onIssue_parts (fun e t h => ?_) h
  cases h
  rfl

/-! ## Operations across lanes -/

theorem execQswp_parts {o : QDir} {x : VUn} {s : State} {t}
    (h : execQswp o x s = .next t) : t.parts = s.parts := by
  refine onIssue_parts (fun e t h => ?_) h
  cases h
  rfl

theorem execShfl_parts {o : ShflOp} {x : Shfl} {s : State} {t}
    (h : execShfl o x s = .next t) : t.parts = s.parts := by
  refine onIssue_parts (fun e t h => ?_) h
  cases h
  rfl

@[simp] theorem Env.putAny_parts (e : Env) (s : State) (h : Head) (m : Option Modifier) (d : Opd)
    (wide : Bool) (bits : Nat → Bool) (once : Nat) (per : Nat → Nat) :
    (e.putAny s h m d wide bits once per).parts = s.parts := by
  unfold Env.putAny
  dsimp only
  repeat' split
  all_goals simp

theorem execVote_parts {o : VoteOp} {x : VUn} {s : State} {t}
    (h : execVote o x s = .next t) : t.parts = s.parts := by
  refine onIssue_parts (fun e t h => ?_) h
  cases h
  simp

theorem execKop_parts {o : KopOp} {x : KBin} {s : State} {t}
    (h : execKop o x s = .next t) : t.parts = s.parts := by
  refine onIssue_parts (fun e t h => ?_) h
  cases h
  simp

theorem execKcnt_parts {total : Bool} {x : KUn} {s : State} {t}
    (h : execKcnt total x s = .next t) : t.parts = s.parts := by
  refine onIssue_parts (fun e t h => ?_) h
  cases h
  simp

theorem execKfst_parts {hi : Bool} {x : KUn} {s : State} {t}
    (h : execKfst hi x s = .next t) : t.parts = s.parts := by
  refine onIssue_parts (fun e t h => ?_) h
  cases h
  simp

theorem execKset_parts {o : KsetOp} {x : KUn} {s : State} {t}
    (h : execKset o x s = .next t) : t.parts = s.parts := by
  refine onIssue_parts (fun e t h => ?_) h
  cases h
  rfl

theorem execScan_parts {o : ScanOp} {ex : Bool} {x : VUn} {s : State} {t}
    (h : execScan o ex x s = .next t) : t.parts = s.parts := by
  refine onIssue_parts (fun e t h => ?_) h
  cases h
  rfl

theorem execWred_parts {o : ScanOp} {x : VUn} {s : State} {t}
    (h : execWred o x s = .next t) : t.parts = s.parts := by
  refine onIssue_parts (fun e t h => ?_) h
  grind [= State.setWave_parts, = Env.putFV_parts]

theorem execReord_parts {desc : Bool} {x : VTri} {s : State} {t}
    (h : execReord desc x s = .next t) : t.parts = s.parts := by
  refine onIssue_parts (fun e t h => ?_) h
  cases h
  rfl

/-! ## Control -/

theorem State.testTarget_parts {s : State} {e : Env} {l target : Nat} {t}
    (h : s.testTarget e l target = .ok t) : t.parts = s.parts := by
  grind [State.testTarget, → State.gRead_parts]

@[simp] theorem State.testTargets_parts (s : State) (e : Env) (tgt : Nat → Nat) (ls : List Nat) :
    (s.testTargets e tgt ls).1.parts = s.parts := by
  induction ls generalizing s with
  | nil => rfl
  | cons l r ih => grind [State.testTargets, → State.testTarget_parts]

theorem Env.transfer_parts {e : Env} {s : State} {w : Wave} {x : BitVec 64} {tgt : Nat → Nat} {t}
    (h : e.transfer s w x tgt = .ok t) : t.parts = s.parts := by
  grind [Env.transfer, = State.testTargets_parts, = State.setWave_parts, = State.parts_mk, = Parts.fold]

theorem execNop_parts {_h : Head} {s : State} {t} (h : execNop _h s = .next t) : t.parts = s.parts := by
  refine onIssue_parts (fun e t h => ?_) h
  cases h
  rfl

theorem execBr_parts {h : Head} {c : BrCond} {disp : BitVec 32} {s : State} {t}
    (h : execBr h c disp s = .next t) : t.parts = s.parts := by
  refine onIssue_parts (fun e t h => ?_) h
  grind [→ Env.transfer_parts]

theorem execBri_parts {h : Head} {a : Opd} {s : State} {t}
    (h : execBri h a s = .next t) : t.parts = s.parts := by
  refine onIssue_parts (fun e t h => ?_) h
  exact Env.transfer_parts h

theorem Env.callTo_parts {e : Env} {s : State} {h : Head} {d : Opd} {tgt : Nat → Nat} {t}
    (h : e.callTo s h d tgt = .ok t) : t.parts = s.parts := by
  unfold Env.callTo at h
  grind [= State.putS_parts, → Env.transfer_parts, = State.setWave_parts]

theorem execCall_parts {h : Head} {d : Opd} {disp : BitVec 32} {s : State} {t}
    (h : execCall h d disp s = .next t) : t.parts = s.parts := by
  refine onIssue_parts (fun e t h => ?_) h
  exact Env.callTo_parts h

theorem execCalli_parts {h : Head} {d a : Opd} {s : State} {t}
    (h : execCalli h d a s = .next t) : t.parts = s.parts := by
  refine onIssue_parts (fun e t h => ?_) h
  exact Env.callTo_parts h

theorem execRet_parts {h : Head} {a : Opd} {s : State} {t}
    (h : execRet h a s = .next t) : t.parts = s.parts := by
  refine onIssue_parts (fun e t h => ?_) h
  exact Env.transfer_parts h

theorem execLoop_parts {h : Head} {c : LoopCount} {n : BitVec 20} {s : State} {t}
    (h : execLoop h c n s = .next t) : t.parts = s.parts := by
  refine onIssue_parts (fun e t h => ?_) h
  grind [= State.setWave_parts, → Env.transfer_parts]

theorem execLoopPop_parts {h : Head} {s : State} {t}
    (h : execLoopPop h s = .next t) : t.parts = s.parts := by
  refine onIssue_parts (fun e t h => ?_) h
  cases h
  rfl

theorem execExit_parts {h : Head} {s : State} {t} (h : execExit h s = .next t) : t.parts = s.parts := by
  refine onIssue_parts (fun e t h => ?_) h
  cases h
  rfl

theorem Env.leave_parts {e : Env} {s : State} {h : Head} {disp : BitVec 32} {f : Nat → Thread → Leaving} {t}
    (h : e.leave s h disp f = .ok t) : t.parts = s.parts := by
  grind [Env.leave, = State.testTargets_parts, = State.setWave_parts]

theorem execCont_parts {h : Head} {disp : BitVec 32} {s : State} {t}
    (h : execCont h disp s = .next t) : t.parts = s.parts := by
  refine onIssue_parts (fun e t h => ?_) h
  exact Env.leave_parts h

theorem execYield_parts {h : Head} {s : State} {t} (h : execYield h s = .next t) : t.parts = s.parts := by
  refine onIssue_parts (fun e t h => ?_) h
  split at h <;> cases h <;> simp

theorem execPark_parts {h : Head} {c : Src32} {s : State} {t}
    (h : execPark h c s = .next t) : t.parts = s.parts := by
  refine onIssue_parts (fun e t h => ?_) h
  cases h
  rfl

theorem execParkTimeout_parts {t : ThreadRef} {s : State} {s1}
    (h : execParkTimeout t s = .next s1) : s1.parts = s.parts := by
  grind [execParkTimeout, = State.setWave_parts]

theorem execJoin_parts {h : Head} {a : Opd} {s : State} {t}
    (h : execJoin h a s = .next t) : t.parts = s.parts := by
  refine onIssue_parts (fun e t h => ?_) h
  cases h
  rfl

theorem Env.hold_parts {e : Env} {s : State} {y : Why} {t}
    (h : e.hold s y = .ok t) : t.parts = s.parts := by
  cases h
  rfl

@[simp] theorem State.cqPut_parts (s : State) (c : Nat) (bs : List Byte) :
    (s.cqPut c bs).parts = s.parts := by
  unfold State.cqPut
  split
  · rfl
  · split <;> simp

theorem execSysc_parts {x : Sysc} {s : State} {t} (h : execSysc x s = .next t) : t.parts = s.parts := by
  refine onIssue_parts (fun e t h => ?_) h
  dsimp only at h
  grind [→ Env.hold_parts, = State.setCrew_parts, = State.setWave_parts, = State.parts_mk, = Parts.fold]

theorem execSyscWait_parts {x : Sysc} {s : State} {t}
    (h : execSyscWait x s = .next t) : t.parts = s.parts := by
  refine onIssue_parts (fun e t h => ?_) h
  dsimp only at h
  grind [→ Env.hold_parts, = State.setWave_parts, = State.parts_mk, = Parts.fold]

theorem execTrap_parts {h : Head} {code : BitVec 32} {s : State} {t}
    (h : execTrap h code s = .next t) : t.parts = s.parts := by
  refine onIssue_parts (fun e t h => ?_) h
  dsimp only at h
  split at h <;> cases h
  simp

theorem execBrk_parts {h : Head} {code : BitVec 32} {s : State} {t}
    (h : execBrk h code s = .next t) : t.parts = s.parts := by
  refine onIssue_parts (fun e t h => ?_) h
  grind [= State.setWave_parts]

@[simp] theorem Env.putSr_parts (e : Env) (s : State) (x : BitVec 64) (d : Opd) (r : SReg)
    (val : Nat → Nat) : (e.putSr s x d r val).parts = s.parts := by
  unfold Env.putSr
  split
  · split <;> simp
  · simp

theorem execRdsr_parts {h : Head} {d : Opd} {r : SReg} {s : State} {t}
    (h : execRdsr h d r s = .next t) : t.parts = s.parts := by
  refine onIssue_parts (fun e t h => ?_) h
  grind [= State.setWave_parts, → Env.hold_parts, → State.logDone_parts, = Env.putSr_parts]

theorem execWrsr_parts {h : Head} {r : SReg} {a : Opd} {s : State} {t}
    (h : execWrsr h r a s = .next t) : t.parts = s.parts := by
  refine onIssue_parts (fun e t h => ?_) h
  grind [= State.setWave_parts, = State.setCtx_parts]

theorem execMode_parts {h : Head} {f : ModeFields} {s : State} {t}
    (h : execMode h f s = .next t) : t.parts = s.parts := by
  refine onIssue_parts (fun e t h => ?_) h
  split at h <;> cases h <;> simp

theorem execTenq_parts {h : Head} {a : Opd} {s : State} {t}
    (h : execTenq h a s = .next t) : t.parts = s.parts := by
  refine onIssue_parts (fun e t h => ?_) h
  dsimp only at h
  split at h <;> cases h
  simp

/-! ## Orders between accesses -/

@[simp] theorem State.orders_parts (s : State) (id : Nat) (m : BitVec 64) (f : Nat → Order → Order) :
    (s.orders id m f).parts = s.parts := by
  unfold State.orders
  split <;> simp

@[simp] theorem State.forgetOrder_parts (s : State) (p : Place) (a n : Nat) :
    (s.forgetOrder p a n).parts = s.parts := by
  simp [State.forgetOrder]

@[simp] theorem State.recordWrite_parts (s0 s1 : State) (me : ThreadAt) (p : Place) (a n : Nat)
    (msgs : List Msg) (rmw logged : Bool) :
    (s0.recordWrite s1 me p a n msgs rmw logged).parts = s1.parts := by
  simp [State.recordWrite]

@[simp] theorem State.fenceOrder_parts (s : State) (c : Nat) (me : ThreadAt) (o : Order) (k : FenceKind)
    (sc : Scope) : (s.fenceOrder c me o k sc).1.parts = s.parts := by
  unfold State.fenceOrder
  dsimp only
  split <;> simp

@[simp] theorem State.threadWrote_parts (s : State) (x : Actor) (sp : Span) (uo : Bool) :
    (s.threadWrote x sp uo).parts = s.parts := by
  unfold State.threadWrote
  split <;> simp

@[simp] theorem State.orderedBy_parts (s : State) (id : Nat) (m : BitVec 64) (crew seq : Nat) :
    (s.orderedBy id m crew seq).parts = s.parts := by
  simp [State.orderedBy]

/-! ## Uniform operations -/

@[simp] theorem Env.uput_parts (e : Env) (s : State) (h : Head) (d : Opd) (x : Dword) :
    (e.uput s h d x).parts = s.parts := by
  unfold Env.uput
  split <;> simp

theorem uni2_parts {x : UBin} {f : Nat → Nat → Nat} {s : State} {t}
    (h : uni2 x f s = .next t) : t.parts = s.parts := by
  refine onIssue_parts (fun e t h => ?_) h
  cases h
  simp

theorem uniInt_parts {x : UBin} {f : Int → Int → Int} {s : State} {t}
    (h : uniInt x f s = .next t) : t.parts = s.parts := by
  unfold uniInt at h
  exact uni2_parts h

theorem execSmov_parts {h : Head} {d a : Opd} {s : State} {t}
    (h : execSmov h d a s = .next t) : t.parts = s.parts := by
  refine onIssue_parts (fun e t h => ?_) h
  split at h <;> cases h <;> simp

theorem execSli_parts {h : Head} {o : SliOp} {d : Opd} {x : BitVec 32} {s : State} {t}
    (h : execSli h o d x s = .next t) : t.parts = s.parts := by
  refine onIssue_parts (fun e t h => ?_) h
  cases h
  simp

theorem execScmp_parts {o : CmpOp} {x : UBin} {s : State} {t}
    (h : execScmp o x s = .next t) : t.parts = s.parts := by
  refine onIssue_parts (fun e t h => ?_) h
  split at h <;> cases h <;> simp

theorem execSsel_parts {h : Head} {d a b c : Opd} {s : State} {t}
    (h : execSsel h d a b c s = .next t) : t.parts = s.parts := by
  refine onIssue_parts (fun e t h => ?_) h
  cases h
  simp

theorem execSbfe_parts {h : Head} {ty : Ty} {d a : Opd} {start : BitVec 6} {len : BitVec 7} {s : State} {t}
    (h : execSbfe h ty d a start len s = .next t) : t.parts = s.parts := by
  refine onIssue_parts (fun e t h => ?_) h
  cases h
  simp

theorem execSpop_parts {h : Head} {o : SpopOp} {ty : Ty} {d a : Opd} {s : State} {t}
    (h : execSpop h o ty d a s = .next t) : t.parts = s.parts := by
  refine onIssue_parts (fun e t h => ?_) h
  cases h
  simp

/-! ## Memory instructions -/

theorem State.readVia_parts {s : State} {t : Task} {unit : Nat} {q : List StoreEnt} {tg : Target}
    {r : Except Trap (Option Phys)} {n : Nat} {q'}
    (h : s.readVia t unit q tg r n = .ok q') : q'.2.parts = s.parts := by
  unfold State.readVia at h
  grind [= State.noteRead_parts]

theorem State.readTgt_parts {s : State} {t : Task} {unit : Nat} {q : List StoreEnt} {tg : Target} {n : Nat}
    {core : optParam (Option Nat) none} {r}
    (h : s.readTgt t unit q tg n core = .ok r) : r.2.parts = s.parts := by
  unfold State.readTgt at h
  exact State.readVia_parts h

theorem State.writeTgt_parts {s : State} {t : Task} {escapes : Bool} {tg : Target} {bs : List Byte} {s1}
    (h : s.writeTgt t escapes tg bs = .ok s1) : s1.parts = s.parts := by
  unfold State.writeTgt at h
  grind [→ State.writeAt_parts, → State.gWrite_parts]

theorem State.rmwTgt_parts {s : State} {t : Task} {native : Bool} {tg : Target} {n : Nat}
    {f : List Byte → List Byte} {r} (h : s.rmwTgt t native tg n f = .ok r) : r.2.parts = s.parts := by
  unfold State.rmwTgt at h
  dsimp only at h
  split at h
  · split at h
    · cases h
    · split at h <;> cases h
      next hw => exact State.writeAt_parts hw
  · split at h
    · cases h
    · next p _ =>
      have hn : (if native && p.place == .host then s.noteNative p else s.noteWrite p).parts = s.parts := by
        split <;> simp
      split at h
      · cases h
      · split at h <;> cases h
        next hw => exact (State.writeAt_parts hw).trans hn

theorem State.logged_parts {s : State} {α : Type} {c : Nat} {o : Option LogOp} {n : Nat}
    {f : State → Except Stop (α × Nat × List Byte × State)} {q : α × State}
    (hf : ∀ r, f s = .ok r → r.2.2.2.parts = s.parts) (h : s.logged c o n f = .ok q) : q.2.parts = s.parts := by
  unfold State.logged at h
  grind [→ State.logDone_parts]

@[simp] theorem State.hasRead_parts (s : State) (w : Wave) (m : BitVec 64) (loc : Option (Place × Nat))
    (n tm : Nat) (acq : Option Scope) : (s.hasRead w m loc n tm acq).parts = s.parts := by
  unfold State.hasRead
  split <;> simp

@[simp] theorem State.threadRead_parts (s : State) (t : Task) (x : Actor) (q : List StoreEnt)
    (loc : Option (Place × Nat)) (bs : List Byte) (logged : Bool) (acq : Option Scope) :
    (s.threadRead t x q loc bs logged acq).2.parts = s.parts := by
  unfold State.threadRead
  split <;> simp

theorem State.load_parts {s : State} {t : Task} {q : List StoreEnt} {tg : Target} {n : Nat}
    {acq : Option Scope} {src : Option Nat} {x : Actor} {r}
    (h : s.load t q tg n acq src x = .ok r) : r.2.parts = s.parts := by
  unfold State.load at h
  grind [→ State.logged_parts, → State.readVia_parts, = State.threadRead_parts]

@[simp] theorem State.threadWritten_parts (s0 s1 : State) (x : ThreadAt) (loc : Option (Place × Nat))
    (n : Nat) (msgs : List Msg) (rmw logged : Bool) :
    (s0.threadWritten s1 x loc n msgs rmw logged).parts = s1.parts := by
  unfold State.threadWritten
  split <;> simp

theorem State.store_parts {s : State} {t : Task} {x : Actor} {sent : Bool} {slot space : Nat} {tg : Target}
    {data : List Byte} {rel : Option Scope} {src : Nat} {r}
    (h : s.store t x sent slot space tg data rel src = .ok r) : r.2.parts = s.parts := by
  unfold State.store at h
  dsimp only at h
  split at h
  · cases h
    rfl
  · split at h
    · cases h
    · split at h
      · split at h
        · cases h
        · split at h <;> cases h
          next hl =>
            refine (State.logged_parts (fun r hr => ?_) hl :)
            split at hr <;> cases hr
            next hw => simpa using State.writeTgt_parts hw
      · cases h
        rfl

theorem execLd_parts {x : Mem} {s : State} {t} (h : execLd x s = .next t) : t.parts = s.parts := by
  refine onIssue_parts (fun e t h => ?_) h
  grind [= State.setWave_parts]

theorem execSt_parts {x : Mem} {s : State} {t} (h : execSt x s = .next t) : t.parts = s.parts := by
  refine onIssue_parts (fun e t h => ?_) h
  cases h
  rfl

theorem execStSy_parts {x : MemSy} {s : State} {t} (h : execStSy x s = .next t) : t.parts = s.parts := by
  refine onIssue_parts (fun e t h => ?_) h
  cases h
  rfl

theorem execSld_parts {x : UMem} {s : State} {t} (h : execSld x s = .next t) : t.parts = s.parts := by
  refine onIssue_parts (fun e t h => ?_) h
  grind [→ Env.charge_parts, = State.setWave_parts]

theorem execSst_parts {x : UMem} {s : State} {t} (h : execSst x s = .next t) : t.parts = s.parts := by
  refine onIssue_parts (fun e t h => ?_) h
  dsimp only at h
  split at h <;> cases h <;> simp

theorem execItld_parts {x : ItMem} {s : State} {t} (h : execItld x s = .next t) : t.parts = s.parts := by
  refine onIssue_parts (fun e t h => ?_) h
  grind [→ Env.charge_parts, = State.setWave_parts]

theorem execItst_parts {x : ItMem} {s : State} {t} (h : execItst x s = .next t) : t.parts = s.parts := by
  refine onIssue_parts (fun e t h => ?_) h
  dsimp only at h
  split at h <;> cases h <;> simp

theorem execAtom_parts {o : AtomOp} {x : Atom} {s : State} {t}
    (h : execAtom o x s = .next t) : t.parts = s.parts := by
  refine onIssue_parts (fun e t h => ?_) h
  cases h
  rfl

theorem execRed_parts {o : AtomOp} {x : Red} {s : State} {t}
    (h : execRed o x s = .next t) : t.parts = s.parts := by
  refine onIssue_parts (fun e t h => ?_) h
  cases h
  rfl

theorem execRedx_parts {o : AtomOp} {x : Atom} {s : State} {t}
    (h : execRedx o x s = .next t) : t.parts = s.parts := by
  refine onIssue_parts (fun e t h => ?_) h
  cases h
  rfl

theorem execFence_parts {h : Head} {k : FenceKind} {c : Scope} {s : State} {t}
    (h : execFence h k c s = .next t) : t.parts = s.parts := by
  refine onIssue_parts (fun e t h => ?_) h
  cases h
  rfl

theorem execPref_parts {h : Head} {_llc : Bool} {a : Opd} {off : BitVec 32} {s : State} {t}
    (h : execPref h _llc a off s = .next t) : t.parts = s.parts := by
  refine onIssue_parts (fun e u hu => ?_) h
  cases hu
  refine foldl_parts (fun v l => ?_) _ _
  split
  · rfl
  · split <;> simp

theorem Env.region_parts {e : Env} {s : State} {i : Instr} {h : Head} {a b : Opd} {t}
    (h : e.region s i h a b = .ok t) : t.parts = s.parts := by
  grind [Env.region, → Env.charge_parts, = State.setWave_parts]

theorem execSealRegion_parts {h : Head} {a b : Opd} {s : State} {t}
    (h : execSealRegion h a b s = .next t) : t.parts = s.parts := by
  refine onIssue_parts (fun e t h => ?_) h
  exact Env.region_parts h

theorem execUnsealRegion_parts {h : Head} {a b : Opd} {s : State} {t}
    (h : execUnsealRegion h a b s = .next t) : t.parts = s.parts := by
  refine onIssue_parts (fun e t h => ?_) h
  exact Env.region_parts h

/-! ## Long operations -/

theorem Env.boundary_parts {e : Env} {s : State} {w : Wave} {k n : Nat} {t}
    (h : e.boundary s w k n = .ok t) : t.parts = s.parts := by
  unfold Env.boundary at h
  split at h <;> cases h <;> simp

theorem Env.midway_parts {e : Env} {s : State} {w : Wave} {seg : Nat} {y : Why} {t}
    (h : e.midway s w seg y = .ok t) : t.parts = s.parts := by
  cases h
  rfl

theorem Env.interrupt_parts {e : Env} {s : State} {i : Instr} {k : Nat} {t : Trap} {s1}
    (h : e.interrupt s i k t = .ok s1) : s1.parts = s.parts := by
  cases h
  simp

theorem execLdx_parts {x : Expand} {s : State} {t} (h : execLdx x s = .next t) : t.parts = s.parts := by
  refine onIssue_parts (fun e t h => ?_) h
  grind [= State.setWave_parts, → Env.boundary_parts, → Env.charge_parts, → Env.midway_parts]

theorem execStc_parts {x : Expand} {s : State} {t} (h : execStc x s = .next t) : t.parts = s.parts := by
  refine onIssue_parts (fun e t h => ?_) h
  grind [= State.setWave_parts, = State.putS_parts, → Env.boundary_parts, → Env.charge_parts,
    → Env.midway_parts]

theorem Env.sweep_parts {e : Env} {s : State} {i : Instr} {o : SwpOp} {t : Ty} {act : BitVec 64}
    {xs : Except Trap (List Elem)} {k n : Nat} {fin : Wave → Wave} {s1}
    (h : e.sweep s i o t act xs k n fin = .ok s1) : s1.parts = s.parts := by
  unfold Env.sweep at h
  grind [→ Env.midway_parts, → Env.boundary_parts, → Env.interrupt_parts]

theorem execSwp_parts {o : SwpOp} {x : Sweep} {s : State} {t}
    (h : execSwp o x s = .next t) : t.parts = s.parts := by
  refine onIssue_parts (fun e t h => ?_) h
  grind [= State.setWave_parts, → Env.charge_parts, → Env.sweep_parts]

theorem execItx_parts {o : SwpOp} {x : Sweep} {s : State} {t}
    (h : execItx o x s = .next t) : t.parts = s.parts := by
  refine onIssue_parts (fun e t h => ?_) h
  grind [= State.setWave_parts, → Env.charge_parts, → Env.sweep_parts]

/-! ## Synchronization -/

@[simp] theorem State.wakeCrew_parts (s : State) (crew : Nat) : (s.wakeCrew crew).parts = s.parts := by
  simp [State.wakeCrew]

theorem execBar_parts {h : Head} {k : BarKind} {x : BarSrc} {s : State} {t}
    (h : execBar h k x s = .next t) : t.parts = s.parts := by
  refine onIssue_parts (fun e t h => ?_) h
  grind [→ Env.charge_parts, = State.setWave_parts, → Env.hold_parts, = State.setCrew_parts,
    = State.wakeCrew_parts]

theorem execCadd_parts {x : Ctr} {s : State} {t} (h : execCadd x s = .next t) : t.parts = s.parts := by
  refine onIssue_parts (fun e t h => ?_) h
  grind [= State.setWave_parts]

theorem execCwait_parts {x : Ctr} {s : State} {t} (h : execCwait x s = .next t) : t.parts = s.parts := by
  refine onIssue_parts (fun e t h => ?_) h
  grind [→ Env.charge_parts, = State.setWave_parts]

theorem State.observe_parts {s : State} {k : Crew} {t : Task} {w : Wave} {l : Nat} {crew : Bool}
    {addr target : Nat} {sc : Scope} {s1}
    (h : s.observe k t w l crew addr target sc = .ok s1) : s1.parts = s.parts := by
  grind [State.observe, → State.logged_parts, → State.readTgt_parts, = State.hasRead_parts]

theorem execCwaitSatisfied_parts {r : ThreadRef} {s : State} {t}
    (h : execCwaitSatisfied r s = .next t) : t.parts = s.parts := by
  unfold execCwaitSatisfied at h
  split at h
  · cases h
  · split at h
    · split at h
      · cases h
      · split at h
        · cases h
        · split at h <;> cases h
          · simp
          · next ho => simpa using State.observe_parts ho
    · cases h

theorem State.syncWord_parts {s : State} {crew core addr srcCore : Nat} {v : View}
    {f : Nat × Nat × Nat → Nat × Nat × Nat} {t}
    (h : s.syncWord crew core addr srcCore v f = .ok t) : t.parts = s.parts := by
  unfold State.syncWord at h
  grind [→ State.writeAt_parts, = State.setCrew_parts, = State.wakeCrew_parts]

theorem execSyarm_parts {x : SyncOp} {s : State} {t} (h : execSyarm x s = .next t) : t.parts = s.parts := by
  refine onIssue_parts (fun e t h => ?_) h
  grind [→ Env.charge_parts, → Env.hold_parts, → State.syncWord_parts]

theorem execSywait_parts {x : SyncOp} {s : State} {t}
    (h : execSywait x s = .next t) : t.parts = s.parts := by
  refine onIssue_parts (fun e t h => ?_) h
  grind [→ Env.charge_parts, → Env.hold_parts, = State.setWave_parts]

theorem execChwait_parts {x : SyncOp} {s : State} {t}
    (h : execChwait x s = .next t) : t.parts = s.parts := by
  refine onIssue_parts (fun e t h => ?_) h
  grind [→ Env.charge_parts, → Env.hold_parts, = State.setWave_parts]

theorem execChtst_parts {d : Opd} {x : SyncOp} {s : State} {t}
    (h : execChtst d x s = .next t) : t.parts = s.parts := by
  refine onIssue_parts (fun e t h => ?_) h
  grind [→ Env.charge_parts, → Env.hold_parts, = Env.putK_parts, = Env.uput_parts, = State.orders_parts]

theorem execQbind_parts {h : Head} {k : QKind} {d a : Opd} {s : State} {t}
    (h : execQbind h k d a s = .next t) : t.parts = s.parts := by
  refine onIssue_parts (fun e t h => ?_) h
  grind [→ Env.charge_parts, = State.setCrew_parts]

theorem execQfree_parts {h : Head} {d : Opd} {s : State} {t}
    (h : execQfree h d s = .next t) : t.parts = s.parts := by
  refine onIssue_parts (fun e t h => ?_) h
  grind [→ Env.charge_parts, = State.setCrew_parts]

theorem execQpoll_parts {h : Head} {space : Bool} {d a : Opd} {s : State} {t}
    (h : execQpoll h space d a s = .next t) : t.parts = s.parts := by
  refine onIssue_parts (fun e t h => ?_) h
  grind [→ Env.charge_parts, = Env.putAny_parts]

theorem Env.pushQ_parts {e : Env} {s : State} {n : Nat} {m : BitVec 64} {w : Nat} {val : Nat → Nat} {t}
    (h : e.pushQ s n m w val = .ok (some t)) : t.parts = s.parts := by
  grind [Env.pushQ, → State.writeAt_parts, = State.threadWrote_parts, = State.recordWrite_parts,
    = State.wakeCrew_parts, = State.setCrew_parts]

theorem Env.popSpad_parts {e : Env} {s : State} {m : BitVec 64} {n : Nat} {r}
    (h : e.popSpad s m n = .ok r) : r.2.parts = s.parts := by
  grind [Env.popSpad, → State.logged_parts, = State.orders_parts, = State.setCrew_parts]

theorem Env.popQ_parts {e : Env} {s : State} {m : BitVec 64} {n : Nat} {r}
    (h : e.popQ s m n = .ok (some r)) : r.2.parts = s.parts := by
  grind [Env.popQ, → Env.popSpad_parts, = State.setCrew_parts, = State.orderedBy_parts,
    = State.orders_parts]

theorem Env.movTo_parts {e : Env} {s : State} {x : VMov} {pend : Bool} {val : Nat → Nat} {t}
    (h : e.movTo s x pend val = .ok t) : t.parts = s.parts := by
  grind [Env.movTo, → Env.charge_parts, → Env.pushQ_parts, → Env.hold_parts, = State.setWave_parts,
    = Env.putV_parts]

theorem execMov_parts {x : VMov} {s : State} {t} (h : execMov x s = .next t) : t.parts = s.parts := by
  refine onIssue_parts (fun e t h => ?_) h
  grind [→ Env.movTo_parts, → Env.charge_parts, → Env.popQ_parts, → Env.hold_parts]

@[simp] theorem State.arrivalFault_parts (s : State) (a : Arrival) (e : Trap) :
    (s.arrivalFault a e).parts = s.parts := by
  unfold State.arrivalFault
  split
  · rfl
  · split <;> simp

theorem State.arrivalData_parts {s : State} {a : Arrival} {t}
    (h : s.arrivalData a = .ok t) : t.parts = s.parts := by
  unfold State.arrivalData at h
  grind [→ State.writeAt_parts, → State.logged_parts]

theorem execCountedArrival_parts {n : Nat} {s : State} {t}
    (h : execCountedArrival n s = .next t) : t.parts = s.parts := by
  unfold execCountedArrival at h
  grind [→ State.arrivalData_parts, = State.arrivalFault_parts, = State.diverge_parts,
    = State.recordWrite_parts, → State.syncWord_parts, = State.parts_mk, = Parts.fold]

/-! ## Matrix engines -/

theorem execMfmt_parts {h : Head} {x : MfmtSrc} {s : State} {t}
    (h : execMfmt h x s = .next t) : t.parts = s.parts := by
  refine onIssue_parts (fun e t h => ?_) h
  grind [→ Env.charge_parts, = State.setCrew_parts]

theorem Env.command_parts {e : Env} {s : State} {w : Wave} {i : Instr} {h : Head} {d a b : Opd} {t}
    (h : e.command s w i h d a b = .ok t) : t.parts = s.parts := by
  grind [Env.command, → Env.hold_parts, = State.setCrew_parts, = State.setWave_parts]

theorem Env.matCommand_parts {e : Env} {s : State} {w : Wave} {i : Instr} {h : Head} {d a b : Opd} {t}
    (h : e.matCommand s w i h d a b = .ok t) : t.parts = s.parts := by
  grind [Env.matCommand, → Env.command_parts]

theorem execMma_parts {x : Mma} {s : State} {t} (h : execMma x s = .next t) : t.parts = s.parts := by
  refine onIssue_parts (fun e t h => ?_) h
  exact Env.matCommand_parts h

theorem execTld_parts {x : TileMove} {s : State} {t} (h : execTld x s = .next t) : t.parts = s.parts := by
  refine onIssue_parts (fun e t h => ?_) h
  exact Env.command_parts h

theorem execTst_parts {x : TileMove} {s : State} {t} (h : execTst x s = .next t) : t.parts = s.parts := by
  refine onIssue_parts (fun e t h => ?_) h
  exact Env.command_parts h

theorem execTzro_parts {x : TileMove} {s : State} {t} (h : execTzro x s = .next t) : t.parts = s.parts := by
  refine onIssue_parts (fun e t h => ?_) h
  exact Env.command_parts h

theorem execWbld_parts {x : Wbld} {s : State} {t} (h : execWbld x s = .next t) : t.parts = s.parts := by
  refine onIssue_parts (fun e t h => ?_) h
  exact Env.command_parts h

theorem execWbinv_parts {x : Wbinv} {s : State} {t} (h : execWbinv x s = .next t) : t.parts = s.parts := by
  refine onIssue_parts (fun e t h => ?_) h
  exact Env.command_parts h

theorem execMdrn_parts {x : Mdrn} {s : State} {t} (h : execMdrn x s = .next t) : t.parts = s.parts := by
  refine onIssue_parts (fun e t h => ?_) h
  exact Env.matCommand_parts h

@[simp] theorem State.spoil_parts (s : State) (c : Cmd) (src dst : Span) (pl : Place) (a : Nat) :
    (s.spoil c src dst pl a).parts = s.parts := by
  simp [State.spoil, foldl_parts]

theorem State.tileWrite_parts {s : State} {k : Crew} {t : Nat} {bs : List Byte} {s1}
    (h : s.tileWrite k t bs = .ok s1) : s1.parts = s.parts := by
  unfold State.tileWrite at h
  split at h <;> cases h
  exact State.writeAt_parts ‹_›

theorem State.fetchGranules_parts {s : State} {t : Task} {c : Cmd} {va : Nat} {pl : Place} {dst n : Nat}
    {s1} (h : s.fetchGranules t c va pl dst n = .ok s1) : s1.parts = s.parts := by
  induction n generalizing s1 with
  | zero =>
    cases h
    rfl
  | succ n ih => grind [State.fetchGranules, = State.noteRead_parts, = State.setMem_parts]

theorem State.fetchFor_parts {s : State} {t : Task} {c : Cmd} {va : Nat} {pl : Place} {dst n : Nat} {s1}
    (h : s.fetchFor t c va pl dst n = .ok s1) : s1.parts = s.parts := by
  exact map_ok_parts (fun _ => State.fetchGranules_parts) (fun _ => by simp) h

@[simp] theorem State.moveGranules_parts (s : State) (c : Cmd) (src : Place) (sa : Nat) (ss : Span)
    (dst : Place) (da : Nat) (ds : Span) (n : Nat) :
    (s.moveGranules c src sa ss dst da ds n).parts = s.parts := by
  simp [State.moveGranules]

theorem State.mmaRow_parts {s : State} {k : Crew} {c : Cmd} {f : MatMode} {nn kk : Nat} {first : Bool}
    {b : Nat → Nat → FVal × FVal} {q0 n i : Nat} {t}
    (h : s.mmaRow k c f nn kk first b q0 n i = .ok t) : t.parts = s.parts := by
  grind [State.mmaRow, → State.tileWrite_parts]

theorem State.mmaRows_parts {s : State} {k : Crew} {c : Cmd} {f : MatMode} {nn kk : Nat} {first : Bool}
    {b : Nat → Nat → FVal × FVal} {q0 n m : Nat} {t}
    (h : s.mmaRows k c f nn kk first b q0 n m = .ok t) : t.parts = s.parts := by
  exact eachBelow_parts (fun _ _ _ => State.mmaRow_parts) h

theorem State.mmaBlocks_parts {s : State} {k : Crew} {c : Cmd} {x : Mma} {im : Image} {k0 j0 : Nat}
    {first : Bool} {q0 n : Nat} {t}
    (h : s.mmaBlocks k c x im k0 j0 first q0 n = .ok t) : t.parts = s.parts := by
  grind [State.mmaBlocks, → State.mmaRows_parts]

theorem State.doMma_parts {s : State} {k : Crew} {c : Cmd} {x : Mma} {im : Image} {n : Nat} {t}
    (h : s.doMma k c x im n = .ok t) : t.parts = s.parts := by
  unfold State.doMma at h
  exact State.mmaBlocks_parts h

@[simp] theorem State.doTld_parts (s : State) (k : Crew) (c : Cmd) (n : Nat) :
    (s.doTld k c n).parts = s.parts := by
  simp [State.doTld]

@[simp] theorem State.doTst_parts (s : State) (k : Crew) (c : Cmd) (n : Nat) :
    (s.doTst k c n).parts = s.parts := by
  simp [State.doTst]

@[simp] theorem State.doTzro_parts (s : State) (k : Crew) (c : Cmd) (n : Nat) :
    (s.doTzro k c n).parts = s.parts := by
  simp [State.doTzro, foldl_parts]

theorem State.headerAt_parts {s : State} {k : Crew} {t : Task} {c : Cmd} {crew : Bool} {a : Nat} {r}
    (h : s.headerAt k t c crew a = .ok r) : r.2.parts = s.parts := by
  grind [State.headerAt, = State.noteRead_parts]

theorem State.beginWbld_parts {s : State} {k : Crew} {t : Task} {c : Cmd} {x : Wbld} {r}
    (h : s.beginWbld k t c x = .ok r) : r.2.parts = s.parts := by
  grind [State.beginWbld, → State.headerAt_parts, = State.setCore_parts]

theorem State.doWbld_parts {s : State} {k : Crew} {t : Task} {c : Cmd} {x : Wbld} {n : Nat} {s1}
    (h : s.doWbld k t c x n = .ok s1) : s1.parts = s.parts := by
  grind [State.doWbld, = State.moveGranules_parts, → State.fetchFor_parts]

@[simp] theorem State.endWbld_parts (s : State) (core : Nat) (im : Image) :
    (s.endWbld core im).parts = s.parts := by
  simp [State.endWbld]

@[simp] theorem State.doWbinv_parts (s : State) (k : Crew) (c : Cmd) (x : Wbinv) :
    (s.doWbinv k c x).parts = s.parts := by
  unfold State.doWbinv
  split <;> simp

theorem State.engineStore_parts {s : State} {t : Task} {c : Cmd} {n va : Nat} {bs : List Byte} {s1}
    (h : s.engineStore t c n va bs = .ok s1) : s1.parts = s.parts := by
  induction n generalizing s va bs with
  | zero =>
    cases h
    rfl
  | succ n ih => grind [State.engineStore, → State.writePhys_parts]

theorem State.drainRowAt_parts {s : State} {k : Crew} {t : Task} {c : Cmd} {x : Mdrn} {i u v : Nat} {r}
    (h : s.drainRowAt k t c x i u v = .ok r) : r.2.parts = s.parts := by
  unfold State.drainRowAt at h
  extract_lets cty z nn src isOpen dst sp lo at' at h
  split at h
  · cases h
  · extract_lets vals r row hi data s1 at h
    have hs : ∀ u, s1 = .ok u → u.parts = s.parts := by
      intro u hu
      unfold s1 at hu
      split at hu
      · cases hu
        rfl
      · split at hu
        · split at hu <;> cases hu
          next hw => simpa using State.writeAt_parts hw
        · exact State.engineStore_parts hu
    clear_value s1
    split at h
    · cases h
    · next u =>
      have h2 : u.parts = s.parts := hs u rfl
      split at h
      · cases h
        exact h2
      · split at h
        · split at h <;> cases h
          next ht => simpa using (State.tileWrite_parts ht).trans h2
        · cases h
          exact h2

@[simp] theorem State.drainRows_parts (s : State) (k : Crew) (t : Task) (c : Cmd) (x : Mdrn) (r p n : Nat)
    (fl : Dword) : (s.drainRows k t c x r p n fl).2.1.parts = s.parts := by
  induction r generalizing s p n fl with
  | zero => rfl
  | succ r ih => grind [State.drainRows, → State.drainRowAt_parts]

@[simp] theorem State.deferFault_parts (s : State) (wave lane slot crew : Nat) (e : Trap) :
    (s.deferFault wave lane slot crew e).parts = s.parts := by
  unfold State.deferFault
  dsimp only
  repeat' split
  all_goals simp

@[simp] theorem State.finishCmd_parts (s : State) (crew : Nat) (c : Cmd) (fl : Dword) :
    (s.finishCmd crew c fl).parts = s.parts := by
  unfold State.finishCmd
  dsimp only
  repeat' split
  all_goals simp

@[simp] theorem State.stopCmd_parts (s : State) (k : Crew) (t : Task) (c : Cmd) (x : Stop) :
    (s.stopCmd k t c x).parts = s.parts := by
  unfold State.stopCmd
  split
  · split <;> simp
  · simp

@[simp] theorem State.spin_parts (s : State) (core : Nat) : (s.spin core).parts = s.parts := by
  unfold State.spin
  split <;> simp

@[simp] theorem State.setHead_parts (s : State) (crew : Nat) (c : Cmd) :
    (s.setHead crew c).parts = s.parts := by
  unfold State.setHead
  split <;> simp

@[simp] theorem State.perform_parts (s : State) (k : Crew) (t : Task) (c : Cmd) :
    (s.perform k t c).parts = s.parts := by
  unfold State.perform
  dsimp only
  split
  · split
    · split
      · next hm =>
        have hm := map_ok_parts (fun _ => State.doMma_parts) (fun _ => by simp) hm
        split <;> simp [hm]
      · simp
    · split <;> simp
  · split <;> simp
  · split <;> simp
  · split <;> simp
  · split
    · split
      · next hw =>
        have hw := map_ok_parts (fun _ => State.doWbld_parts) (fun u => by split <;> simp) hw
        split <;> simp [hw]
      · simp
    · split
      · simp
      · next hb => simp [State.beginWbld_parts hb]
  · split <;> simp
  · split
    · split <;> simp
    · simp
  · rfl

theorem execEngineCommandDone_parts {crew : Nat} {s : State} {t}
    (h : execEngineCommandDone crew s = .next t) : t.parts = s.parts := by
  grind [execEngineCommandDone, = State.stopCmd_parts, = State.perform_parts]

theorem execMmac_parts {x : Mma} {s : State} {t} (h : execMmac x s = .next t) : t.parts = s.parts := by
  refine onIssue_parts (fun e t h => ?_) h
  grind [→ Env.hold_parts, = State.setWave_parts, → Env.matCommand_parts, = State.stopIssue_parts]

theorem State.mmacStage_parts {s : State} {t : Task} {p : Crew × Cmd × Mma} {r : List (Crew × Cmd × Mma)}
    {im : Image} {s1} (h : s.mmacStage t p r im = .ok s1) : s1.parts = s.parts := by
  simp only [State.mmacStage] at h
  split at h
  · cases h
  · next hf =>
    cases h
    simp [foldl_parts, State.fetchGranules_parts hf]

@[simp] theorem State.mmacNext_parts (s : State) (p : Crew × Cmd × Mma) (q n : Nat) :
    (s.mmacNext p q n).parts = s.parts := by
  unfold State.mmacNext
  dsimp only
  repeat' split
  all_goals simp

theorem State.mmacBlocks_parts {s : State} {im : Image} {q : Nat} {bs : List (Crew × Cmd × Mma)} {t}
    (h : s.mmacBlocks im q bs = .ok t) : t.parts = s.parts := by
  induction bs generalizing s with
  | nil =>
    cases h
    rfl
  | cons p r ih => grind [State.mmacBlocks, → State.mmaBlocks_parts]

theorem execMmacBlock_parts {task : Nat} {s : State} {t}
    (h : execMmacBlock task s = .next t) : t.parts = s.parts := by
  unfold execMmacBlock at h
  dsimp only at h
  split at h
  · cases h
  · split at h
    · cases h
    · cases h
    · split at h
      · cases h
      · split at h
        · cases h
          simp
        · split at h
          · cases h
            simp [foldl_parts]
          · split at h
            · split at h
              · cases h
              · split at h
                · cases h
                  simp
                · next hb =>
                  cases h
                  simp [foldl_parts, State.mmacBlocks_parts hb]
            · split at h
              · cases h
                split
                · split <;> simp [foldl_parts]
                · rfl
              · next hh =>
                split at h
                · cases h
                  split <;> simp [foldl_parts]
                · split at h
                  · cases h
                    split
                    · split <;> simp [foldl_parts]
                    · rfl
                  · next hs =>
                    cases h
                    simp [foldl_parts, State.mmacStage_parts hs, State.headerAt_parts hh]

theorem Env.trowTo_parts {e : Env} {s : State} {t v n : Nat} {m : BitVec 64} {s1}
    (h : e.trowTo s t v n m = .ok s1) : s1.parts = s.parts := by
  refine eachBelow_parts (fun _ _ _ hu => eachBelow_parts (fun _ _ _ hv => ?_) hu) h
  grind [= foldl_parts, = State.threadWrote_parts, → State.writeAt_parts]

theorem execTrow_parts {h : Head} {frm : Bool} {t r : Opd} {n : BitVec 7} {s : State} {s1}
    (h : execTrow h frm t r n s = .next s1) : s1.parts = s.parts := by
  refine onIssue_parts (fun e t h => ?_) h
  grind [→ Env.charge_parts, = State.setWave_parts, → Env.trowTo_parts]

theorem execVmm_parts {x : Vmm} {s : State} {t} (h : execVmm x s = .next t) : t.parts = s.parts := by
  refine onIssue_parts (fun e t h => ?_) h
  cases h
  rfl

theorem execKmma_parts {h : Head} {b4 : Bool} {d a b : Opd} {s : State} {t}
    (h : execKmma h b4 d a b s = .next t) : t.parts = s.parts := by
  refine onIssue_parts (fun e t h => ?_) h
  cases h
  rfl

theorem execMbst_parts {h : Head} {hold : BitVec 12} {s : State} {t}
    (h : execMbst h hold s = .next t) : t.parts = s.parts := by
  refine onIssue_parts (fun e t h => ?_) h
  split at h <;> cases h <;> simp

theorem execOpfence_parts {h : Head} {s : State} {t}
    (h : execOpfence h s = .next t) : t.parts = s.parts := by
  refine onIssue_parts (fun e t h => ?_) h
  dsimp only at h
  split at h <;> cases h <;> simp

@[simp] theorem State.holdClock_parts (s : State) : (s.holdClock).parts = s.parts := by
  unfold State.holdClock
  split <;> simp

theorem execEnginePowerStep_parts {core : Nat} {s : State} {t}
    (h : execEnginePowerStep core s = .next t) : t.parts = s.parts := by
  grind [execEnginePowerStep, = State.setCore_parts]

/-! ## Textures -/

theorem State.texLines_parts {s : State} {v : TexEnv} {fuel va n : Nat} {r}
    (h : s.texLines v fuel va n = .ok r) : r.2.parts = s.parts := by
  induction fuel generalizing s va n r with
  | zero =>
    cases h
    rfl
  | succ k ih => grind [State.texLines, → State.readTgt_parts]

theorem State.texRead_parts {s : State} {v : TexEnv} {va n : Nat} {r}
    (h : s.texRead v va n = .ok r) : r.2.parts = s.parts := by
  unfold State.texRead at h
  exact State.texLines_parts h

theorem State.texHeader_parts {s : State} {v : TexEnv} {neural : Bool} {va : Nat} {r}
    (h : s.texHeader v neural va = .ok r) : r.2.parts = s.parts := by
  grind [State.texHeader, → State.texRead_parts]

theorem State.texel_parts {s : State} {v : TexEnv} {g : Grid} {m : Nat} {ix : List Int} {r}
    (h : s.texel v g m ix = .ok r) : r.2.parts = s.parts := by
  grind [State.texel, → State.texRead_parts]

theorem State.texels_parts {s : State} {v : TexEnv} {g : Grid} {ps : List (Nat × List Int)} {r}
    (h : s.texels v g ps = .ok r) : r.2.parts = s.parts := by
  induction ps generalizing s r with
  | nil =>
    cases h
    rfl
  | cons p l ih => grind [State.texels, → State.texel_parts]

theorem State.filtered_parts {s : State} {v : TexEnv} {g : Grid} {f : Filt} {r : TexReq} {q}
    (h : s.filtered v g f r = .ok q) : q.2.parts = s.parts := by
  grind [State.filtered, → State.texels_parts, → State.texel_parts]

theorem State.layerBytes_parts {s : State} {v : TexEnv} {core hdr n : Nat} {tag : Word} {p : Percept} {r}
    (h : s.layerBytes v core hdr n tag p = .ok r) : r.2.parts = s.parts := by
  unfold State.layerBytes at h
  extract_lets asid rest old fill at h
  have hf : ∀ pins r, fill pins = .ok r → r.2.parts = s.parts := by
    intro pins r hr
    unfold fill at hr
    split at hr
    · cases hr
    · split at hr
      · cases hr
      · next hw =>
        split at hr <;> cases hr
        next hb => exact (State.texRead_parts hb).trans (State.texRead_parts hw)
  clear_value old
  split at h
  · exact hf _ _ h
  · split at h
    · exact hf _ _ h
    · cases h
      rfl

theorem State.perceive_parts {s : State} {v : TexEnv} {core hdr : Nat} {tag : Word} {net : List Percept}
    {n : Nat} {xs : List FVal} {r}
    (h : s.perceive v core hdr tag net n xs = .ok r) : r.2.parts = s.parts := by
  induction net generalizing s n xs with
  | nil =>
    cases h
    rfl
  | cons p l ih => grind [State.perceive, → State.layerBytes_parts]

theorem State.doSmpl_parts {s : State} {v : TexEnv} {core : Nat} {f : Filt} {x : Smpl}
    {code : Dword × Dword} {hdr : Nat} {ws : List Word} {r}
    (h : s.doSmpl v core f x code hdr ws = .ok r) : r.2.parts = s.parts := by
  unfold State.doSmpl at h
  split at h
  · cases h
  · next ht =>
    have ht := State.texHeader_parts ht
    dsimp only at h
    split at h
    · cases h
    · split at h
      · cases h
      · split at h
        · cases h
        · split at h
          · cases h
          · next hf =>
            have hf := (State.filtered_parts hf).trans ht
            split at h
            · split at h
              · cases h
              · next hp =>
                have hp := (State.perceive_parts hp).trans hf
                split at h <;> cases h <;> exact hp
            · cases h
              exact hf

theorem State.doSmpg_parts {s : State} {v : TexEnv} {ch : Nat} {x : Smpl} {hdr : Nat} {ws : List Word} {r}
    (h : s.doSmpg v ch x hdr ws = .ok r) : r.2.parts = s.parts := by
  grind [State.doSmpg, → State.texHeader_parts, → State.texels_parts]

theorem State.doSmpq_parts {s : State} {v : TexEnv} {lod : Bool} {ncrd hdr : Nat} {ws : List Word} {r}
    (h : s.doSmpq v lod ncrd hdr ws = .ok r) : r.2.parts = s.parts := by
  grind [State.doSmpq, → State.texHeader_parts]

theorem State.doLatf_parts {s : State} {v : TexEnv} {f : Filt} {x : Smpl} {hdr : Nat} {ws : List Word} {r}
    (h : s.doLatf v f x hdr ws = .ok r) : r.2.parts = s.parts := by
  unfold State.doLatf at h
  split at h
  · cases h
  · next hc =>
    split at h <;> cases h
    next hd => exact (State.filtered_parts hd).trans (State.texHeader_parts hc)

@[simp] theorem State.pinLayers_parts (s : State) (v : TexEnv) (core crew hdr : Nat) (tag : Word)
    (net : List Percept) (n : Nat) : (s.pinLayers v core crew hdr tag net n).1.parts = s.parts := by
  induction net generalizing s n with
  | nil => rfl
  | cons p l ih =>
    simp only [State.pinLayers]
    split
    · rfl
    · split
      · rfl
      · split
        · rfl
        · next hl => simp [ih, State.layerBytes_parts hl]

@[simp] theorem State.unpin_parts (s : State) (crew : Nat) (f : Layer → Bool) :
    (s.unpin crew f).parts = s.parts := by
  simp [State.unpin]

@[simp] theorem State.invalidateLayers_parts (s : State) (core asid : Nat) (tag : Option Word) :
    (s.invalidateLayers core asid tag).parts = s.parts := by
  simp [State.invalidateLayers]

/-! ## The sampler -/

@[simp] theorem State.reserve_parts (s : State) (k : Crew) (qn n : Nat) :
    (s.reserve k qn n).parts = s.parts := by
  simp [State.reserve]

theorem Env.sampler_parts {e : Env} {s : State} {i : Instr} {h : Head} {lb sto : Bool} {hdr d : Opd}
    {n : Nat} {ws : Nat → Nat → List Word} {t}
    (h : e.sampler s i h lb sto hdr d n ws = .ok t) : t.parts = s.parts := by
  grind [Env.sampler, → Env.charge_parts, → Env.hold_parts, = State.setWave_parts, = State.reserve_parts]

theorem execSmpl_parts {f : Filt} {x : Smpl} {s : State} {t}
    (h : execSmpl f x s = .next t) : t.parts = s.parts := by
  refine onIssue_parts (fun e t h => ?_) h
  exact Env.sampler_parts h

theorem execSmpg_parts {ch : Fin 4} {x : Smpl} {s : State} {t}
    (h : execSmpg ch x s = .next t) : t.parts = s.parts := by
  refine onIssue_parts (fun e t h => ?_) h
  exact Env.sampler_parts h

theorem execSmpq_parts {h : Head} {lod : Bool} {d a b : Opd} {ncrd : BitVec 2} {s : State} {t}
    (h : execSmpq h lod d a b ncrd s = .next t) : t.parts = s.parts := by
  refine onIssue_parts (fun e t h => ?_) h
  exact Env.sampler_parts h

theorem execLatf_parts {f : Filt} {x : Smpl} {s : State} {t}
    (h : execLatf f x s = .next t) : t.parts = s.parts := by
  refine onIssue_parts (fun e t h => ?_) h
  exact Env.sampler_parts h

theorem execWcpin_parts {h : Head} {unpin : Bool} {a : Opd} {s : State} {t}
    (h : execWcpin h unpin a s = .next t) : t.parts = s.parts := by
  refine onIssue_parts (fun e t h => ?_) h
  grind [→ Env.charge_parts, = State.setWave_parts]

theorem execWcinv_parts {h : Head} {tag : Option Opd} {s : State} {t}
    (h : execWcinv h tag s = .next t) : t.parts = s.parts := by
  refine onIssue_parts (fun e t h => ?_) h
  dsimp only at h
  split at h <;> cases h <;> simp

theorem execTrace_parts {h : Head} {any cull : Bool} {a b : Opd} {disp : BitVec 32} {s : State} {t}
    (h : execTrace h any cull a b disp s = .next t) : t.parts = s.parts := by
  refine onIssue_parts (fun e t h => ?_) h
  grind [→ Env.leave_parts, = State.setWave_parts]

theorem execHitld_parts {h : Head} {f : HitField} {d : Opd} {s : State} {t}
    (h : execHitld h f d s = .next t) : t.parts = s.parts := by
  refine onIssue_parts (fun e t h => ?_) h
  cases h
  rfl

theorem execVbld_parts {h : Head} {f : VbField} {d a b : Opd} {sample : BitVec 3} {s : State} {t}
    (h : execVbld h f d a b sample s = .next t) : t.parts = s.parts := by
  refine onIssue_parts (fun e t h => ?_) h
  cases h
  rfl

theorem State.doVbld_parts {s : State} {t : Task} {q : List StoreEnt} {f : VbField} {x y n va : Nat}
    {src : Option Nat} {w : Actor} {r}
    (h : s.doVbld t q f x y n va src w = .ok r) : r.2.parts = s.parts := by
  grind [State.doVbld, → State.load_parts]

theorem execRng_parts {h : Head} {unif : Bool} {d : Opd} {n : BitVec 2} {s : State} {t}
    (h : execRng h unif d n s = .next t) : t.parts = s.parts := by
  refine onIssue_parts (fun e t h => ?_) h
  cases h
  rfl

theorem execRngset_parts {h : Head} {o : RngSet} {a : Opd} {s : State} {t}
    (h : execRngset h o a s = .next t) : t.parts = s.parts := by
  refine onIssue_parts (fun e t h => ?_) h
  cases h
  rfl

theorem execRngadv_parts {h : Head} {x : RngAdv} {s : State} {t}
    (h : execRngadv h x s = .next t) : t.parts = s.parts := by
  refine onIssue_parts (fun e t h => ?_) h
  cases h
  rfl

theorem execRngget_parts {h : Head} {ctr : Bool} {d : Opd} {s : State} {t}
    (h : execRngget h ctr d s = .next t) : t.parts = s.parts := by
  refine onIssue_parts (fun e t h => ?_) h
  cases h
  rfl

/-! ## Rays -/

@[simp] theorem State.walkRay_parts (s : State) (t : Task) (fuel : Nat) (ray : Ray) :
    (s.walkRay t fuel ray).2.parts = s.parts := by
  induction fuel generalizing s ray with
  | zero => rfl
  | succ k ih => grind [State.walkRay, → State.gReadAll_parts]

@[simp] theorem State.finishRay_parts (s : State) (c n : Nat) (r : Ray) (hit : BitVec 512) :
    (s.finishRay c n r hit).parts = s.parts := by
  simp [State.finishRay]

theorem execRayWalkEnd_parts {cluster n : Nat} {s : State} {t}
    (h : execRayWalkEnd cluster n s = .next t) : t.parts = s.parts := by
  unfold execRayWalkEnd at h
  split at h
  · cases h
  · next r _ =>
    split at h
    · cases h
    · next t _ =>
      have hw := State.walkRay_parts s t (2 ^ 20 + 1) r
      split at h
      · cases h
      · split at h
        · cases h
          simp
        · split at h
          · cases h
            simp
          · split at h
            · next hr =>
              rw [hr] at hw
              cases h
              split <;> simpa using hw
            · next hr =>
              rw [hr] at hw
              dsimp only at h
              split at h <;> cases h <;> simpa using hw

/-! ## The scheduler -/

theorem State.agentLog_parts {s : State} {c : Nat} {o : LogOp} {t}
    (h : s.agentLog c o = .ok t) : t.parts = s.parts := by
  unfold State.agentLog at h
  split at h
  · cases h
  · exact State.logDone_parts h

theorem State.launchIds.go_parts (t : Task) (first a1 : Nat) (d : Vbd) (qw : Nat) {n : Nat} {s : State} {r}
    (h : State.launchIds.go t first a1 d qw n s = .ok r) : r.2.parts = s.parts := by
  induction n generalizing r with
  | zero =>
    cases h
    rfl
  | succ n ih =>
    unfold State.launchIds.go at h
    split at h
    · cases h
    · next hl =>
      have hl := ih hl
      dsimp only at h
      split at h
      · cases h
        exact hl
      · split at h <;> cases h
        next hr => exact (State.gReadAll_parts hr).trans hl

theorem State.launchIds_parts {s : State} {t : Task} {first : Nat} {r}
    (h : s.launchIds t first = .ok r) : r.2.parts = s.parts := by
  unfold State.launchIds at h
  dsimp only at h
  split at h
  · cases h
    rfl
  · split at h
    · cases h
    · split at h
      · cases h
      · next hr =>
        split at h
        · cases h
        · split at h
          · cases h
          · exact (State.launchIds.go_parts _ _ _ _ _ h).trans (State.gReadAll_parts hr)

theorem State.launchWaves_parts {s : State} {t : Task} {k : Crew} {ws : List Nat} {idx : Nat} {s1}
    (h : s.launchWaves t k ws idx = .ok s1) : s1.parts = s.parts := by
  induction ws generalizing s idx with
  | nil =>
    cases h
    rfl
  | cons set l ih =>
    simp only [State.launchWaves] at h
    split at h
    · cases h
    · next hi =>
      have hi := State.launchIds_parts (orTrap_ok hi)
      split at h
      · cases h
      · split at h
        · cases h
        · next ha =>
          have ha := State.agentLog_parts ha
          simp [ih h, ha, hi]

theorem State.addCrew_parts {s : State} {t : Task} {core idx : Nat} {cont : Bool} {waves : Nat} {r}
    (h : s.addCrew t core idx cont waves = some r) : r.1.parts = s.parts := by
  simp only [State.addCrew] at h
  split at h
  · cases h
  · cases h
    simp [foldl_parts]

theorem State.addCrews_parts {s : State} {t : Task} {ns : List Nat} {idx : Nat} {r}
    (h : s.addCrews t ns idx = some r) : r.1.parts = s.parts := by
  induction ns generalizing s idx r with
  | nil =>
    cases h
    rfl
  | cons c l ih => grind [State.addCrews, → State.addCrew_parts]

theorem State.reservation_parts {s : State} {t : Task} {die : Nat} {r}
    (h : s.reservation t die = some r) : r.1.parts = s.parts := by
  obtain ⟨cs, -, hcs⟩ := List.exists_of_findSome?_eq_some h
  exact State.addCrews_parts hcs

theorem State.launchCrews_parts {s : State} {t : Task} {ks : List (Crew × List Nat)} {s1}
    (h : s.launchCrews t ks = .ok s1) : s1.parts = s.parts := by
  induction ks generalizing s with
  | nil =>
    cases h
    rfl
  | cons p l ih => grind [State.launchCrews, → State.launchWaves_parts]

@[simp] theorem State.startSlice_parts (s : State) (c : Nat) : (s.startSlice c).parts = s.parts := by
  simp [State.startSlice]

theorem State.place_parts {s : State} {t : Task} {s1} (h : s.place t = some s1) : s1.parts = s.parts := by
  simp only [State.place] at h
  split at h
  · cases h
  · split at h
    · cases h
    · next s1 ks hr =>
      have hr := State.reservation_parts hr
      split at h
      · next hl =>
        cases h
        have hl := State.launchCrews_parts hl
        simp only [State.schedWrite_parts, State.setDie_parts, hl]
        split <;> simp [hr]
      · cases h
      · cases h
        simp
      · repeat' split at h
        all_goals cases h
        all_goals simp

theorem State.firstPlaced_parts {s : State} {ts : List Task} {r}
    (h : s.firstPlaced ts = some r) : r.2.parts = s.parts := by
  induction ts with
  | nil => cases h
  | cons t l ih => grind [State.firstPlaced, → State.place_parts]

theorem State.candidate_parts {s : State} {die : Nat} {r}
    (h : s.candidate die = some r) : r.2.parts = s.parts := by
  obtain ⟨c, -, hc⟩ := List.exists_of_findSome?_eq_some h
  exact State.firstPlaced_parts hc

theorem execTaskPlace_parts {task : Nat} {s : State} {t}
    (h : execTaskPlace task s = .next t) : t.parts = s.parts := by
  grind [execTaskPlace, → State.candidate_parts]

theorem execPlacementAgeLimit_parts {task : Nat} {s : State} {t}
    (h : execPlacementAgeLimit task s = .next t) : t.parts = s.parts := by
  unfold execPlacementAgeLimit at h
  split at h
  · cases h
  · split at h <;> cases h
    simp

theorem execBalancerMove_parts {task die : Nat} {s : State} {t}
    (h : execBalancerMove task die s = .next t) : t.parts = s.parts := by
  unfold execBalancerMove at h
  split at h
  · cases h
  · split at h <;> cases h
    simp

theorem State.recordParts_parts {s : State} {c : Nat} {prv : Bool} {bs : List Byte} {r}
    (h : s.recordParts c prv bs = .ok r) : r.2.2.parts = s.parts := by
  unfold State.recordParts at h
  grind [→ State.gReadAll_parts]

@[simp] theorem State.refuseRecord_parts (s : State) (c : Nat) (name : Dword) (unit : Nat) (pseq : Word)
    (e : Trap) : (s.refuseRecord c name unit pseq e).parts = s.parts := by
  simp [State.refuseRecord]

theorem State.submit_parts {s : State} {c queue pos : Nat} {prv : Bool} {pseq : Word} {va : Nat}
    {seen : Phys → List Byte → List Byte} {t}
    (h : s.submit c queue pos prv pseq va seen = .ok t) : t.parts = s.parts := by
  unfold State.submit at h
  extract_lets a refuse at h
  have hn : ∀ name e u, refuse name e = .ok u → u.parts = s.parts := by
    intro name e u hu
    unfold refuse at hu
    split at hu <;> cases hu
    simp
  split at h
  · exact hn _ _ _ h
  · split at h
    · exact hn _ _ _ h
    · split at h
      · exact hn _ _ _ h
      · next hg =>
        dsimp only at h
        split at h
        · exact hn _ _ _ h
        · split at h
          · exact hn _ _ _ h
          · next hr =>
            have hr := (State.recordParts_parts hr).trans (State.gReadAll_parts hg)
            split at h
            · exact hn _ _ _ h
            · next hw =>
              have hw := (State.gWrite_parts hw).trans hr
              split at h <;> cases h
              next hl => simpa using (State.agentLog_parts hl).trans hw

theorem State.decrement_parts {s : State} {t : Task} {va : Nat} {s1}
    (h : s.decrement t va = .ok s1) : s1.parts = s.parts := by
  unfold State.decrement at h
  extract_lets a bad at h
  have hb : ∀ e u, bad e = .ok u → u.parts = s.parts := by
    intro e u hu
    unfold bad at hu
    split at hu <;> cases hu
    simp
  split at h
  · exact hb _ _ h
  · split at h
    · exact hb _ _ h
    · split at h
      · exact hb _ _ h
      · next hr =>
        dsimp only at h
        split at h
        · exact hb _ _ h
        · split at h
          · exact hb _ _ h
          · next hw =>
            have hw := (State.gWriteAll_parts hw).trans (State.gReadAll_parts hr)
            split at h <;> cases h
            next hl => simpa using (State.agentLog_parts hl).trans hw

@[simp] theorem State.carryTo_parts (s : State) (v : Option Task) (p : Phys) (g : List Byte × Byte) :
    (s.carryTo v p g).parts = s.parts := by
  unfold State.carryTo
  dsimp only
  repeat' split
  all_goals simp

theorem State.copyInG_parts {s : State} {t : Task} {o : OpEntry} {ks : List Crew} {off n : Nat} {s1}
    (h : s.copyInG t o ks off n = .ok s1) : s1.parts = s.parts := by
  induction n generalizing s1 with
  | zero =>
    cases h
    rfl
  | succ n ih =>
    unfold State.copyInG at h
    split at h
    · cases h
    · next hn =>
      dsimp only at h
      split at h
      · cases h
      · cases h
        simp [foldl_parts, apply_ite State.parts, ih hn]

theorem State.copyOutG_parts {s : State} {t : Task} {o : OpEntry} {k : Crew} {off n : Nat} {s1}
    (h : s.copyOutG t o k off n = .ok s1) : s1.parts = s.parts := by
  induction n generalizing s1 with
  | zero =>
    cases h
    rfl
  | succ n ih => grind [State.copyOutG, = State.carryTo_parts]

theorem State.setChunk_parts {s : State} {k : Crew} {b i : Nat} {t}
    (h : s.setChunk k b i = .ok t) : t.parts = s.parts := by
  grind [State.setChunk, → State.writeAt_parts, = State.wakeCrew_parts]

theorem State.setChunks_parts {s : State} {b i : Nat} {ks : List Crew} {t}
    (h : s.setChunks b i ks = .ok t) : t.parts = s.parts := by
  induction ks generalizing s with
  | nil =>
    cases h
    rfl
  | cons k l ih => grind [State.setChunks, → State.setChunk_parts]

@[simp] theorem State.copyFault_parts (s : State) (t : Task) (entry : Nat) (e : Trap) :
    (s.copyFault t entry e).parts = s.parts := by
  unfold State.copyFault
  split <;> simp

theorem execCopyInChunk_parts {task entry chunk : Nat} {s : State} {t}
    (h : execCopyInChunk task entry chunk s = .next t) : t.parts = s.parts := by
  simp only [execCopyInChunk] at h
  split at h
  · cases h
  · split at h
    · cases h
    · next o _ =>
      split at h
      · cases h
      · split at h
        · cases h
          simp
        · next s1 hc =>
          split at h
          · cases h
            simp [State.copyInG_parts hc]
          · split at h
            · cases h
              simp
            · next s2 hr =>
              have hr : s2.parts = s1.parts := by
                split at hr
                · cases hr
                  rfl
                · exact State.setChunks_parts hr
              cases h
              simp [hr, State.copyInG_parts hc]

theorem State.copyOut_parts {s : State} {task i : Nat} {o : OpEntry} {k : Crew} {t}
    (h : s.copyOut task i o k = .ok t) : t.parts = s.parts := by
  grind [State.copyOut, → State.copyOutG_parts, = State.setTask_parts, = State.stat_parts]

@[simp] theorem State.commitGranule_parts (s : State) (t : Task) (g : Nat) :
    (s.commitGranule t g).parts = s.parts := by
  simp only [State.commitGranule]
  split
  · rfl
  · split
    · simp
    · rw [foldl_parts]
      · simp
      · intro u i
        grind [→ State.writeAt_parts, = State.setMem_parts]

@[simp] theorem State.commitVersion_parts (s : State) (t : Task) : (s.commitVersion t).parts = s.parts := by
  simp [State.commitVersion, foldl_parts]

@[simp] theorem State.addStats_parts (s : State) (t : Task) : (s.addStats t).parts = s.parts := by
  unfold State.addStats
  dsimp only
  split
  · rfl
  · exact foldl_parts (fun u i => by split <;> simp) _ _

@[simp] theorem State.releaseSuccessors_parts (s : State) (t : Task) (fuel n : Nat) :
    (s.releaseSuccessors t fuel n).1.parts = s.parts := by
  induction fuel generalizing s n with
  | zero => rfl
  | succ k ih => grind [State.releaseSuccessors, → State.gReadAll_parts, → State.decrement_parts,
    = State.unitFault_parts]

theorem State.retireTail_parts {s : State} {t : Task} {s1}
    (h : s.retireTail t = some s1) : s1.parts = s.parts := by
  grind [State.retireTail, = State.releaseSuccessors_parts, = State.updTask_parts,
    = State.postResolve_parts, = State.diverge_parts, = State.parts_mk, = Parts.fold]

theorem execTaskRetire_parts {task : Nat} {s : State} {t}
    (h : execTaskRetire task s = .next t) : t.parts = s.parts := by
  simp only [execTaskRetire] at h
  split at h
  · cases h
  · split at h
    · split at h
      · next hr =>
        cases h
        exact State.retireTail_parts hr
      · cases h
    · split at h
      · cases h
      · split at h
        · cases h
          simp
        · split at h
          · split at h
            · cases h
              simp [apply_ite State.parts]
            · next hc =>
              cases h
              simp [State.copyOut_parts hc, apply_ite State.parts]
          · split at h
            · next hr =>
              cases h
              simp [State.retireTail_parts hr, apply_ite State.parts]
            · cases h
              simp [apply_ite State.parts]

theorem State.relaunch_parts {s : State} {clu : Nat} {t : Task} {rs : List Rec} {s1}
    (h : s.relaunch clu t rs = some s1) : s1.parts = s.parts := by
  simp only [State.relaunch] at h
  split at h
  · cases h
  · split at h
    · cases h
    · next hc =>
      obtain ⟨c, -, hc⟩ := List.exists_of_findSome?_eq_some hc
      grind [→ State.addCrew_parts, → State.agentLog_parts, = State.diverge_parts, = State.setCluster_parts,
        = State.parts_mk, = Parts.fold]

theorem execRegroupWaveLaunch_parts {clu n : Nat} {s : State} {t}
    (h : execRegroupWaveLaunch clu n s = .next t) : t.parts = s.parts := by
  unfold execRegroupWaveLaunch at h
  split at h
  · cases h
  · dsimp only at h
    split at h
    · next hr =>
      cases h
      obtain ⟨l, -, hl⟩ := Option.bind_eq_some_iff.mp hr
      exact State.relaunch_parts hl
    · cases h

theorem execRegroupTimeout_parts {clu n : Nat} {s : State} {t}
    (h : execRegroupTimeout clu n s = .next t) : t.parts = s.parts := by
  grind [execRegroupTimeout, → State.relaunch_parts]

/-! ## Landings of results -/

@[simp] theorem State.dropPend_parts (s : State) (id pos : Nat) : (s.dropPend id pos).parts = s.parts := by
  unfold State.dropPend
  split <;> simp

@[simp] theorem State.setPend_parts (s : State) (id pos : Nat) (p : Pend) :
    (s.setPend id pos p).parts = s.parts := by
  unfold State.setPend
  split <;> simp

@[simp] theorem State.result_parts (s : State) (id l : Nat) (d : Opd) (ws : List Word) :
    (s.result id l d ws).parts = s.parts := by
  unfold State.result
  split
  · rfl
  · split <;> simp

theorem State.loadEach_parts {s : State} {x : Land} {tg : Target} {n : Nat} {acq : Option Scope}
    {ls : List Nat} {r} (h : s.loadEach x tg n acq ls = .ok r) : r.2.parts = s.parts := by
  induction ls generalizing s with
  | nil => cases h
  | cons l r' ih => cases r' <;> grind [State.loadEach, → State.load_parts]

theorem State.landLoad_parts {s : State} {x : Land} {sp : Space} {n : Nat} {acq : Option Scope}
    {ls : List Nat} {r} (h : s.landLoad x sp n acq ls = .ok r) : r.2.parts = s.parts := by
  grind [State.landLoad, → State.loadEach_parts]

theorem State.landLd_parts {s : State} {x : Land} {y : Mem} {t}
    (h : s.landLd x y = .ok t) : t.parts = s.parts := by
  unfold State.landLd at h
  split at h
  · cases h
  · next hl =>
    cases h
    simp [foldl_parts, State.landLoad_parts hl]

theorem State.landSld_parts {s : State} {x : Land} {y : UMem} {t}
    (h : s.landSld x y = .ok t) : t.parts = s.parts := by
  unfold State.landSld at h
  split at h <;> cases h
  next hc => simpa using State.landLoad_parts hc

theorem State.landRecord_parts {s : State} {x : Land} {sp : Space} {n : Nat} {r}
    (h : s.landRecord x sp n = .ok r) : r.2.parts = s.parts := by
  induction n generalizing r with
  | zero =>
    cases h
    rfl
  | succ n ih => grind [State.landRecord, → State.landLoad_parts]

theorem State.landItld_parts {s : State} {x : Land} {y : ItMem} {t}
    (h : s.landItld x y = .ok t) : t.parts = s.parts := by
  grind [State.landItld, → State.landRecord_parts, = State.setWave_parts]

theorem State.landBytes_parts {s : State} {x : Land} {sp : Space} {rel : Option Scope} {adr : Nat}
    {bs : List Byte} {t} (h : s.landBytes x sp rel adr bs = .ok t) : t.parts = s.parts := by
  grind [State.landBytes, → State.store_parts, = State.threadWrote_parts, = State.setWave_parts]

theorem State.landSt_parts {s : State} {x : Land} {y : Mem} {t}
    (h : s.landSt x y = .ok t) : t.parts = s.parts := by
  unfold State.landSt at h
  exact State.landBytes_parts h

theorem State.landSst_parts {s : State} {x : Land} {y : UMem} {t}
    (h : s.landSst x y = .ok t) : t.parts = s.parts := by
  grind [State.landSst, → State.landBytes_parts]

theorem State.landItst_parts {s : State} {x : Land} {y : ItMem} {t}
    (h : s.landItst x y = .ok t) : t.parts = s.parts := by
  unfold State.landItst at h
  split at h
  · cases h
  · dsimp only at h
    split at h
    · cases h
    · exact eachBelow_parts (fun _ _ _ => State.landBytes_parts) h

theorem State.landArrival_parts {s : State} {x : Land} {sp : Space} {ty : Ty} {op : Option AtomOp}
    {rel : Option Scope} {v : Nat} {t}
    (h : s.landArrival x sp ty op rel v = .ok t) : t.parts = s.parts := by
  grind [State.landArrival, = State.threadWrote_parts, = State.parts_mk, = Parts.fold]

theorem State.landRmw_parts {s : State} {x : Land} {native : Bool} {tg : Target} {p : Option Phys} {n : Nat}
    {o : Option LogOp} {extn : Nat} {acq rel : Option Scope} {f : List Byte → List Byte}
    {value : List Byte → List Byte → Nat × List Byte} {r}
    (h : s.landRmw x native tg p n o extn acq rel f value = .ok r) : r.2.parts = s.parts := by
  grind [State.landRmw, → State.logged_parts, → State.rmwTgt_parts, = State.orders_parts,
    = State.threadWritten_parts, = State.threadWrote_parts]

theorem State.landAtom_parts {s : State} {x : Land} {o : AtomOp} {y : Atom} {t}
    (h : s.landAtom x o y = .ok t) : t.parts = s.parts := by
  grind [State.landAtom, → State.landRmw_parts, = State.result_parts]

@[simp] theorem State.upRoom_parts (s : State) (home : Nat) : (s.upRoom home).parts = s.parts := by
  unfold State.upRoom
  dsimp only
  repeat' split
  all_goals simp

theorem State.upAdd_parts {s : State} {p : Phys} {ty : Ty} {bits : Nat} {t}
    (h : s.upAdd p ty bits = .ok t) : t.parts = s.parts := by
  unfold State.upAdd at h
  extract_lets f n i s1 s2 home here room s3 u put at h
  have h1 : s1.parts = s.parts := by
    unfold s1
    split
    · split <;> simp
    · rfl
  have h2 : s2.parts = s.parts := by simpa [s2] using h1
  have hr : room.parts = s.parts := by simpa [room] using h2
  have h3 : s3.parts = s.parts := by
    unfold s3
    clear_value here
    split
    · exact h2
    · split
      · split
        · simpa using hr
        · exact h2
      · exact hr
  have hput : ∀ e, (put e).parts = s.parts := by
    intro e
    unfold put
    dsimp only
    split <;> simpa using h3
  split at h
  · cases h
    exact hput _
  · split at h <;> cases h
    exact hput _

theorem State.landRed_parts {s : State} {x : Land} {o : AtomOp} {y : Red} {t}
    (h : s.landRed x o y = .ok t) : t.parts = s.parts := by
  unfold State.landRed at h
  dsimp only at h
  split at h
  · cases h
  · split at h
    · split at h <;> cases h
      next hr => exact State.landRmw_parts hr
    · split at h
      · cases h
      · split at h
        · split at h <;> cases h
          next hr => exact State.landRmw_parts hr
        · split at h
          · split at h <;> cases h
            next hr => exact State.landRmw_parts hr
          · split at h
            · cases h
            · split at h <;> cases h
              next hu => simpa using State.upAdd_parts hu

theorem State.landCadd_parts {s : State} {x : Land} {y : Ctr} {t}
    (h : s.landCadd x y = .ok t) : t.parts = s.parts := by
  grind [State.landCadd, → State.landRmw_parts]

theorem State.landFence_parts {s : State} {x : Land} {k : FenceKind} {sc : Scope} {t}
    (h : s.landFence x k sc = .ok t) : t.parts = s.parts := by
  unfold State.landFence at h
  split at h <;> cases h
  simp

@[simp] theorem State.sealCopies_parts (s : State) (on : Bool) (asid base size : Nat) :
    (s.sealCopies on asid base size).parts = s.parts := by
  simp [State.sealCopies, foldl_parts]

theorem State.sealPages_parts {s : State} {t : Task} {on : Bool} {base len n va : Nat} {s1}
    (h : s.sealPages t on base len n va = .ok s1) : s1.parts = s.parts := by
  induction n generalizing s va with
  | zero =>
    cases h
    rfl
  | succ n ih => grind [State.sealPages, = State.putAt_parts, = State.sealCopies_parts]

theorem State.landSeal_parts {s : State} {x : Land} {on : Bool} {t}
    (h : s.landSeal x on = .ok t) : t.parts = s.parts := by
  unfold State.landSeal at h
  split at h
  · cases h
  · exact State.sealPages_parts (orTrap_ok h)

theorem State.landTenq_parts {s : State} {x : Land} {pos : Nat} {t}
    (h : s.landTenq x pos = .ok t) : t.parts = s.parts := by
  simp only [State.landTenq] at h
  repeat' split at h
  all_goals try cases h
  · rfl
  · exact map_ok_parts (fun _ => State.submit_parts) (fun _ => by simp) h

theorem State.landSysc_parts {s : State} {x : Land} {y : Sysc} {t}
    (h : s.landSysc x y = .ok t) : t.parts = s.parts := by
  grind [State.landSysc, = State.cqPut_parts, = State.setCtx_parts]

theorem State.landLdx_parts {s : State} {x : Land} {y : Expand} {t}
    (h : s.landLdx x y = .ok t) : t.parts = s.parts := by
  unfold State.landLdx at h
  split at h <;> cases h
  next hc => simpa using State.landLoad_parts hc

theorem State.landSweep_parts {s : State} {x : Land} {pos : Nat} {ty : Ty} {t}
    (h : s.landSweep x pos ty = .ok t) : t.parts = s.parts := by
  simp only [State.landSweep] at h
  split at h
  · exact map_ok_parts (fun _ => State.landBytes_parts) (fun _ => by simp) h
  · grind [→ State.landLoad_parts, = State.setPend_parts]

theorem State.landStc_parts {s : State} {x : Land} {pos : Nat} {y : Expand} {t}
    (h : s.landStc x pos y = .ok t) : t.parts = s.parts := by
  exact map_ok_parts (fun _ => State.landBytes_parts) (fun _ => by simp) h

theorem State.landVmm_parts {s : State} {x : Land} {y : Vmm} {t}
    (h : s.landVmm x y = .ok t) : t.parts = s.parts := by
  grind [State.landVmm, = State.result_parts, = State.stat_parts, = State.spin_parts]

theorem State.landKmma_parts {s : State} {x : Land} {b4 : Bool} {d : Opd} {t}
    (h : s.landKmma x b4 d = .ok t) : t.parts = s.parts := by
  grind [State.landKmma, → State.load_parts, = State.result_parts, = State.stat_parts]

theorem State.sampled_parts {s : State} {x : Land} {pos : Nat} {r}
    (h : s.sampled x pos = .ok r) : r.2.parts = s.parts := by
  grind [State.sampled, → State.doSmpl_parts, → State.doSmpg_parts, → State.doSmpq_parts,
    → State.doLatf_parts]

@[simp] theorem State.fillSpl_parts (s : State) (id crew resv : Nat) :
    (s.fillSpl id crew resv).parts = s.parts := by
  unfold State.fillSpl
  dsimp only
  repeat' split
  all_goals simp

@[simp] theorem State.landTex_parts (s : State) (x : Land) (pos : Nat) (ws : List Word) :
    (s.landTex x pos ws).parts = s.parts := by
  unfold State.landTex
  dsimp only
  repeat' split
  all_goals simp

theorem State.landSampler_parts {s : State} {x : Land} {pos : Nat} {t}
    (h : s.landSampler x pos = .ok t) : t.parts = s.parts := by
  grind [State.landSampler, → State.sampled_parts, = State.stat_parts, = State.landTex_parts,
    = State.setPend_parts]

theorem State.landKept_parts {s : State} {x : Land} {pos : Nat} {t}
    (h : s.landKept x pos = .ok t) : t.parts = s.parts := by
  unfold State.landKept at h
  split at h
  · cases h
  · split at h
    · split at h
      · exact map_ok_parts (fun _ => State.landBytes_parts) (fun _ => by simp) h
      · cases h
        simp
    · cases h
      simp

theorem State.landWcpin_parts {s : State} {x : Land} {unpin : Bool} {t}
    (h : s.landWcpin x unpin = .ok t) : t.parts = s.parts := by
  grind [State.landWcpin, → State.texHeader_parts, = State.unpin_parts, = State.pinLayers_parts,
    = State.deferFault_parts]

@[simp] theorem State.landDone_parts (s : State) (x : Land) : (s.landDone x).parts = s.parts := by
  unfold State.landDone
  dsimp only
  split <;> simp

theorem State.landAccess_parts {s : State} {x : Land} {pos : Nat} {t}
    (h : s.landAccess x pos = .ok t) : t.parts = s.parts := by
  unfold State.landAccess at h
  split at h
  · exact State.landLdx_parts h
  · exact State.landSysc_parts h
  · exact State.landLd_parts h
  · exact State.landSt_parts h
  · exact State.landArrival_parts h
  · exact State.landSld_parts h
  · exact State.landSst_parts h
  · exact State.landItld_parts h
  · exact State.landItst_parts h
  · exact State.landAtom_parts h
  · exact State.landRed_parts h
  · exact State.landArrival_parts h
  · exact State.landCadd_parts h
  · exact State.landFence_parts h
  · exact State.landSeal_parts h
  · exact State.landSeal_parts h
  · exact State.landTenq_parts h
  · exact State.landVmm_parts h
  · exact State.landKmma_parts h
  · exact State.landWcpin_parts h
  · split at h <;> cases h
    simp
  · obtain ⟨r, hv, rfl⟩ := except_map_ok h
    simp [State.doVbld_parts hv]
  · cases h

theorem State.landAt_parts {s : State} {x : Land} {pos : Nat} {t}
    (h : s.landAt x pos = .ok t) : t.parts = s.parts := by
  unfold State.landAt at h
  split at h
  · exact State.landStc_parts h
  · exact State.landSweep_parts h
  · exact State.landSweep_parts h
  · split at h
    · exact State.landSampler_parts h
    · exact map_ok_parts (fun _ => State.landAccess_parts) (fun _ => by simp) h

@[simp] theorem State.landFault_parts (s : State) (x : Land) (pos : Nat) (e0 : Trap) :
    (s.landFault x pos e0).parts = s.parts := by
  unfold State.landFault
  dsimp only
  repeat' split
  all_goals simp

theorem execResultLand_parts {core wslot pos : Nat} {s : State} {t}
    (h : execResultLand core wslot pos s = .next t) : t.parts = s.parts := by
  grind [execResultLand, = State.dropPend_parts, = State.landDone_parts, → State.landKept_parts,
    → State.landAt_parts, = State.landFault_parts, = State.diverge_parts]

theorem State.storeAt_parts {s : State} {t : Task} {w : Wave} {l : Nat} {e : StoreEnt} {p : Phys} {s1}
    (h : s.storeAt t w l e p = .ok s1) : s1.parts = s.parts := by
  grind [State.storeAt, → State.logged_parts, → State.writePhys_parts, = State.recordWrite_parts]

theorem State.leaveStore_parts {s : State} {t : Task} {w : Wave} {l : Nat} {e : StoreEnt} {s1}
    (h : s.leaveStore t w l e = .ok s1) : s1.parts = s.parts := by
  grind [State.leaveStore, → State.writeAt_parts, = State.recordWrite_parts, → State.storeAt_parts]

theorem State.leave_parts {s : State} {r : ThreadRef} {pos : Nat} {t}
    (h : s.leave r pos = .next t) : t.parts = s.parts := by
  unfold State.leave at h
  split at h
  · cases h
  · split at h
    · split at h
      · cases h
      · dsimp only at h
        split at h
        · next hl =>
          have hl := State.leaveStore_parts hl
          cases h
          split <;> simpa using hl
        · cases h
        · cases h
          simp
        · cases h
          split <;> simp
    · cases h

/-! ## What settles after an act -/

@[simp] theorem State.scrambleShared_parts (s : State) (crew l : Nat) (cs : List Nat) :
    (s.scrambleShared crew l cs).parts = s.parts := by
  unfold State.scrambleShared
  split <;> simp

@[simp] theorem State.clearFlight_parts (s : State) (id l : Nat) :
    (s.clearFlight id l).parts = s.parts := by
  unfold State.clearFlight
  split <;> simp

@[simp] theorem State.refuseCmd_parts (s : State) (k : Crew) (t : Task) (c : Cmd) (e : Trap) :
    (s.refuseCmd k t c e).parts = s.parts := by
  unfold State.refuseCmd
  split
  · split <;> simp
  · simp

@[simp] theorem State.acceptAll_parts (s : State) (w : Wave) (l : Nat) :
    (s.acceptAll w l).parts = s.parts := by
  unfold State.acceptAll
  split
  · rfl
  · split
    · rfl
    · refine foldl_parts (fun u c => ?_) _ _
      split
      · rfl
      · split <;> simp

@[simp] theorem State.endLane_parts (s : State) (id l : Nat) : (s.endLane id l).parts = s.parts := by
  unfold State.endLane
  split <;> simp

@[simp] theorem State.leaveLane_parts (s : State) (w : Wave) (t : Task) (l : Nat) (y : Leaving) :
    (s.leaveLane w t l y).parts = s.parts := by
  unfold State.leaveLane
  dsimp only
  repeat' split
  all_goals simp

@[simp] theorem State.settleLane_parts (s : State) (id l : Nat) : (s.settleLane id l).parts = s.parts := by
  unfold State.settleLane
  dsimp only
  repeat' split
  all_goals simp

@[simp] theorem State.settleMarkers_parts (s : State) (id : Nat) :
    (s.settleMarkers id).parts = s.parts := by
  unfold State.settleMarkers
  dsimp only
  repeat' split
  all_goals simp [foldl_parts]

@[simp] theorem State.goOn_parts (s : State) (id l : Nat) (v : View) : (s.goOn id l v).parts = s.parts := by
  unfold State.goOn
  split <;> simp

@[simp] theorem State.settleWait_parts (s : State) (id l : Nat) : (s.settleWait id l).parts = s.parts := by
  unfold State.settleWait
  dsimp only
  repeat' split
  all_goals simp

@[simp] theorem State.exchange_parts (s : State) (id b slot : Nat) :
    (s.exchange id b slot).parts = s.parts := by
  unfold State.exchange
  dsimp only
  repeat' split
  all_goals simp [foldl_parts]

@[simp] theorem State.settleQuads_parts (s : State) (id : Nat) : (s.settleQuads id).parts = s.parts := by
  unfold State.settleQuads
  split
  · rfl
  · refine foldl_parts (fun u i => ?_) _ _
    split
    · rfl
    · split <;> simp

@[simp] theorem State.deliverReply_parts (s : State) (c : Call) (bs : List Byte) :
    (s.deliverReply c bs).parts = s.parts := by
  unfold State.deliverReply
  split
  · split <;> simp
  · split <;> simp

theorem State.landReply_parts {s : State} {ctx : Nat} {c : Call} {bs : List Byte} {t}
    (h : s.landReply ctx c bs = .ok t) : t.parts = s.parts := by
  grind [State.landReply, → State.logDone_parts, = State.deliverReply_parts, = State.setCtx_parts]

theorem State.readReply_parts {s : State} {ctx pa : Nat} {t}
    (h : s.readReply ctx pa = some t) : t.parts = s.parts := by
  unfold State.readReply at h
  dsimp only at h
  split at h
  · cases h
    simp
  · split at h
    · cases h
      simp
    · split at h
      · cases h
        simp
      · split at h
        · cases h
          simp
        · split at h
          · cases h
            simp
          · split at h <;> cases h
            · next hl => simpa using State.landReply_parts hl
            · simp

@[simp] theorem State.settleReplies_parts (s : State) (ctx : Nat) :
    (s.settleReplies ctx).parts = s.parts := by
  simp only [State.settleReplies]
  split
  · rfl
  · split
    · refine foldl_parts (fun u c => ?_) _ _
      split
      · next hu => exact State.landReply_parts hu
      · rfl
    · split
      · exact getD_parts fun _ => State.readReply_parts
      · rfl

@[simp] theorem State.exitCrew_parts (s : State) (k : Crew) : (s.exitCrew k).parts = s.parts := by
  unfold State.exitCrew
  dsimp only
  repeat' split
  all_goals simp

@[simp] theorem State.settleEnds_parts (s : State) : (s.settleEnds).parts = s.parts := by
  have hview : ∀ (u : State) (w : Wave), (match u.crew? w.crew with
      | some k => u.updTask k.task fun t => { t with view := t.view.join (w.passes w.all s.moment) }
      | none => u).parts = u.parts := fun u w => by split <;> simp
  simp only [State.settleEnds]
  rw [foldl_parts (by simp), foldl_parts]
  · simp
  · intro u w
    split <;> simp

@[simp] theorem State.spillLines_parts (s : State) (t : Task) (ls : List Nat) :
    (s.spillLines t ls).parts = s.parts := by
  unfold State.spillLines
  dsimp only
  repeat' split
  all_goals simp

@[simp] theorem State.settleVersions_parts (s : State) : (s.settleVersions).parts = s.parts := by
  exact foldl_parts (fun u t => by split <;> simp) _ _

@[simp] theorem State.settleOnce_parts (s : State) : (s.settleOnce).parts = s.parts := by
  simp only [State.settleOnce, State.settleVersions_parts, State.settleEnds_parts]
  iterate 3 rw [foldl_parts (by simp)]
  rw [foldl_parts]
  · simp [foldl_parts]
  · intro u i
    split <;> simp [foldl_parts]

@[simp] theorem State.settleFor_parts (s : State) (n : Nat) : (s.settleFor n).parts = s.parts := by
  induction n generalizing s with
  | zero => rfl
  | succ n ih =>
    simp only [State.settleFor]
    split <;> simp [ih]

@[simp] theorem State.settle_parts (s : State) : (s.settle).parts = s.parts := by
  simp [State.settle]

/-! ## Windows -/

theorem State.plainWrite_parts {s : State} {r : Reg} {reserved ro : List (Nat × Nat)} {v : Dword} {t}
    (h : s.plainWrite r reserved ro v = some t) : t.parts = s.parts := by
  unfold State.plainWrite at h
  split at h <;> cases h
  rfl

theorem State.enWrite_parts {s t : State} {r : Reg} {v : Dword} {rest : Option State}
    (hr : rest = some t → t.parts = s.parts) (h : s.enWrite r v rest = some t) : t.parts = s.parts := by
  grind [State.enWrite, = State.setReg_parts]

theorem State.indexWrite_parts {s : State} {r : Reg} {v : Dword} {checked : Bool} {occ size : Nat} {t}
    (h : s.indexWrite r v checked occ size = some t) : t.parts = s.parts := by
  unfold State.indexWrite at h
  split at h <;> cases h
  rfl

theorem State.written_parts {s t : State} {r : Reg} {x : Option State} {p : Parts} (hs : s.parts = p)
    (hx : ∀ u, x = some u → u.parts = p) (h : s.written r x = .next t) : t.parts = p := by
  cases h
  cases x with
  | none => simpa using hs
  | some u => exact hx u rfl

theorem absent_or_written_parts {s t : State} {p : Prop} [Decidable p] {r : Reg} {x : Option State}
    (hx : ∀ u, x = some u → u.parts = s.parts)
    (h : (if p then .fault .absent else s.written r x) = .next t) : t.parts = s.parts := by
  split at h
  · cases h
  · exact State.written_parts rfl hx h

/-! ## Queue packets -/

theorem State.writeSqtail_parts {s : State} {q : Nat} {v : Dword} {t}
    (h : s.writeSqtail q v = some t) : t.parts = s.parts := by
  unfold State.writeSqtail at h
  split at h <;> cases h
  rfl

theorem execSqtailDoorbell_parts {q : Nat} {v : Dword} {s : State} {t}
    (h : execSqtailDoorbell q v s = .next t) : t.parts = s.parts := by
  exact absent_or_written_parts (fun _ => State.writeSqtail_parts) h

theorem State.readPacket_parts {s : State} {q : Nat} {r}
    (h : s.readPacket q = .ok r) : r.2.parts = s.parts := by
  grind [State.readPacket, → State.gReadAll_parts]

theorem State.headPacket_parts {s : State} {q kind : Nat} {p : Packet} {t}
    (h : s.headPacket q kind p = some t) : t.parts = s.parts := by
  grind [State.headPacket, → State.readPacket_parts]

@[simp] theorem State.advance_parts (s : State) (q : Nat) : (s.advance q).parts = s.parts := by
  simp [State.advance]

@[simp] theorem State.refusePacket_parts (s : State) (q : Nat) (e : Trap) (pseq : Word) :
    (s.refusePacket q e pseq).parts = s.parts := by
  simp [State.refusePacket]

theorem State.packetTrap_parts {s : State} {q : Nat} {e : Trap} {pseq : Word} {t}
    (h : s.packetTrap q e pseq = some t) : t.parts = s.parts := by
  grind [State.packetTrap, = State.postResolve_parts, = State.refusePacket_parts]

@[simp] theorem State.settleQueue_parts (s : State) (q : Nat) : (s.settleQueue q).parts = s.parts := by
  unfold State.settleQueue
  split
  · rfl
  · split
    · rfl
    · exact getD_parts fun _ => State.packetTrap_parts

@[simp] theorem State.settleQueues_parts (s : State) : (s.settleQueues).parts = s.parts := by
  simp [State.settleQueues, foldl_parts]

theorem execNopPacket_parts {q : Nat} {p : Packet} {s : State} {t}
    (h : execNopPacket q p s = .next t) : t.parts = s.parts := by
  unfold execNopPacket at h
  split at h <;> cases h
  next hc => simpa using State.headPacket_parts hc

@[simp] theorem State.holdQueue_parts (s : State) (q : Nat) (n : Fin 4) (p : Packet) :
    (s.holdQueue q n p).parts = s.parts := by
  unfold State.holdQueue
  split <;> simp

theorem execSubmit_parts {q : Nat} {p : Packet} {s : State} {t}
    (h : execSubmit q p s = .next t) : t.parts = s.parts := by
  grind [execSubmit, → State.headPacket_parts, = State.holdQueue_parts, → State.submit_parts,
    = State.advance_parts, = State.diverge_parts, → State.packetTrap_parts]

@[simp] theorem State.takePacket_parts (s : State) (q kind : Nat) (p : Packet) :
    (s.takePacket q kind p).parts = s.parts := by
  simp [State.takePacket]

theorem execWait_parts {q : Nat} {p : Packet} {s : State} {t}
    (h : execWait q p s = .next t) : t.parts = s.parts := by
  unfold execWait at h
  split at h <;> cases h
  next hc => simpa using State.headPacket_parts hc

theorem execWaitSatisfied_parts {q : Nat} {s : State} {t}
    (h : execWaitSatisfied q s = .next t) : t.parts = s.parts := by
  unfold execWaitSatisfied at h
  dsimp only at h
  split at h
  · cases h
  · split at h
    · split at h <;> cases h
      next ht => exact State.packetTrap_parts ht
    · split at h
      · cases h
        simp
      · cases h
      · split at h
        · split at h <;> cases h
          next ht => exact State.packetTrap_parts ht
        · next hr =>
          split at h
          · cases h
          · split at h <;> cases h
            · simp
            · next hl => simpa using (State.logDone_parts hl).trans (State.gRead_parts hr)

theorem execSignal_parts {q : Nat} {p : Packet} {s : State} {t}
    (h : execSignal q p s = .next t) : t.parts = s.parts := by
  unfold execSignal at h
  split at h <;> cases h
  next hc => simpa using State.headPacket_parts hc

theorem execSignalPerform_parts {q : Nat} {s : State} {t}
    (h : execSignalPerform q s = .next t) : t.parts = s.parts := by
  grind [execSignalPerform, → State.gWrite_parts, → State.packetTrap_parts, = State.advance_parts,
    = State.raise_parts]

theorem execFencePacket_parts {q : Nat} {p : Packet} {s : State} {t}
    (h : execFencePacket q p s = .next t) : t.parts = s.parts := by
  grind [execFencePacket, → State.headPacket_parts, = State.advance_parts]

@[simp] theorem State.progress_parts (s : State) (task : Nat) : (s.progress task).parts = s.parts := by
  unfold State.progress
  split
  · rfl
  · split <;> simp

@[simp] theorem State.countStall_parts (s : State) : (s.countStall).parts = s.parts := by
  refine foldl_parts (fun u q => ?_) _ _
  dsimp only
  split
  · split <;> simp
  · split <;> simp

@[simp] theorem State.watchdogKill_parts (s0 : State) (q stall : Nat) :
    (s0.watchdogKill q stall).parts = s0.parts := by
  unfold State.watchdogKill
  dsimp only
  split <;> simp

@[simp] theorem State.beginPreempt_parts (s : State) (c : Nat) : (s.beginPreempt c).parts = s.parts := by
  simp [State.beginPreempt]

theorem execWatchdogExpiry_parts {q : Nat} {s : State} {t}
    (h : execWatchdogExpiry q s = .next t) : t.parts = s.parts := by
  simp only [execWatchdogExpiry] at h
  split at h
  · cases h
  · split at h
    · cases h
    · repeat' split at h
      all_goals cases h
      all_goals simp

/-! ## Links -/

theorem execMergeGroupClose_parts {n : Nat} {s : State} {t}
    (h : execMergeGroupClose n s = .next t) : t.parts = s.parts := by
  unfold execMergeGroupClose at h
  split at h
  · cases h
  · split at h <;> cases h
    simp

theorem State.writeMsinv_parts {s : State} {n : Nat} {v : Dword} {t}
    (h : s.writeMsinv n v = some t) : t.parts = s.parts := by
  unfold State.writeMsinv at h
  grind [→ State.plainWrite_parts, = State.parts_mk, = Parts.fold]

theorem execMsinvGo_parts {v : BitVec 64} {s : State} {t}
    (h : execMsinvGo v s = .next t) : t.parts = s.parts := by
  exact State.written_parts rfl (fun _ => State.writeMsinv_parts) h

@[simp] theorem State.evict_parts (s : State) (l : Line) : (s.evict l).parts = s.parts := by
  unfold State.evict
  dsimp only
  repeat' split
  all_goals simp

theorem execInvalidationDone_parts {s : State} {t}
    (h : execInvalidationDone s = .next t) : t.parts = s.parts := by
  simp only [execInvalidationDone] at h
  split at h <;> cases h
  simp [foldl_parts]

theorem State.writeRmsec_parts {s : State} {v : Dword} {t}
    (h : s.writeRmsec v = some t) : t.parts = s.parts := by
  unfold State.writeRmsec at h
  split at h <;> cases h
  next hc => simpa using State.plainWrite_parts hc

theorem execRmsecCommit_parts {v : BitVec 64} {s : State} {t}
    (h : execRmsecCommit v s = .next t) : t.parts = s.parts := by
  exact State.written_parts rfl (fun _ => State.writeRmsec_parts) h

theorem State.linkFail_parts {s : State} {core wslot pos : Nat} {late : Bool} {t}
    (h : s.linkFail core wslot pos late = .next t) : t.parts = s.parts := by
  unfold State.linkFail at h
  grind [= State.setMem_parts, = State.landFault_parts]

theorem execLinkDown_parts {port : Nat} {s : State} {t}
    (h : execLinkDown port s = .next t) : t.parts = s.parts := by
  unfold execLinkDown at h
  split at h
  · cases h
  · split at h <;> cases h
    simp

theorem execLinkTraining_parts {port : Nat} {s : State} {t}
    (h : execLinkTraining port s = .next t) : t.parts = s.parts := by
  unfold execLinkTraining at h
  split at h
  · cases h
  · split at h <;> cases h
    simp

theorem execHostRecall_parts {line : Nat} {s : State} {t}
    (h : execHostRecall line s = .next t) : t.parts = s.parts := by
  simp only [execHostRecall] at h
  split at h <;> cases h
  simp [foldl_parts]

theorem execPeerRequest_parts {ctx : Nat} {addr : BitVec 64} {op : PeerOp} {s : State} {t}
    (h : execPeerRequest ctx addr op s = .next t) : t.parts = s.parts := by
  unfold execPeerRequest at h
  dsimp only at h
  split at h
  · cases h
  · split at h
    · cases h
    · split at h
      · cases h
        rfl
      · split at h
        · split at h
          · cases h
            rfl
          · split at h <;> cases h
            · next hr =>
              obtain ⟨r, hg, rfl⟩ := except_map_ok hr
              exact State.gRead_parts hg
            · rfl
        · split at h
          · cases h
            rfl
          · split at h <;> cases h
            · next hr => exact State.gWrite_parts hr
            · rfl
        · split at h
          · cases h
            rfl
          · split at h
            · cases h
              rfl
            · split at h
              · split at h <;> cases h
                · next hr => exact State.upAdd_parts hr
                · rfl
              · split at h <;> cases h
                · next hl =>
                  refine State.logged_parts (fun r hr => ?_) hl
                  split at hr
                  · cases hr
                  · next hg =>
                    split at hr <;> cases hr
                    next hw => exact (State.gWrite_parts hw).trans (State.gRead_parts hg)
                · simp
                · rfl
        · split at h
          · cases h
            rfl
          · split at h <;> cases h
            · next hr => exact State.submit_parts hr
            · simp
            · rfl

/-! ## Contexts -/

@[simp] theorem State.owned_parts (s : State) (pa n : Nat) : (s.owned pa n).parts = s.parts := by
  simp [State.owned]

@[simp] theorem State.saveCrew_parts (s : State) (base : Nat) (x : Crew × Nat × Nat) :
    (s.saveCrew base x).parts = s.parts := by
  have hfold : ∀ (l : List Wave) (k : Crew) (p : State × Nat), (l.foldl (fun (p : State × Nat) w =>
      (p.1.putAt .dev p.2 (w.image k s.tick), p.2 + waveLen k.hdr)) p).1.parts = p.1.parts := by
    intro l k
    induction l with
    | nil => simp
    | cons w l ih => simp [ih]
  simp only [State.saveCrew, hfold]
  simp

@[simp] theorem State.spillBudget_parts (s : State) (c : Nat) : (s.spillBudget c).parts = s.parts := by
  have hfold : ∀ (l : List Task) (p : State × Nat), (l.foldl (fun (p : State × Nat) t =>
      (p.1.spillLines t (t.versionLines.take (min p.2 t.versionLines.length)),
        p.2 - min p.2 t.versionLines.length)) p).1.parts = p.1.parts := by
    intro l
    induction l with
    | nil => simp
    | cons t l ih => simp [ih]
  exact hfold _ _

@[simp] theorem State.stopMmacs_parts (s : State) (k : Crew) : (s.stopMmacs k).parts = s.parts := by
  refine foldl_parts (fun u c => ?_) _ _
  split
  · split <;> simp
  · rfl

@[simp] theorem State.saveContext_parts (s : State) (c : Nat) : (s.saveContext c).parts = s.parts := by
  unfold State.saveContext
  dsimp only
  repeat' split
  all_goals simp [foldl_parts]

@[simp] theorem State.settlePreempts_parts (s : State) : (s.settlePreempts).parts = s.parts := by
  refine foldl_parts (fun u c => ?_) _ _
  dsimp only
  split
  · split <;> simp
  · split <;> simp

@[simp] theorem State.logMove_parts (s : State) (t : Task) (k : Crew) (old new : Wave) :
    (s.logMove t k old new).parts = s.parts := by
  unfold State.logMove
  dsimp only
  repeat' split
  all_goals simp

@[simp] theorem State.placeWave_parts (s : State) (t : Task) (a b : Crew) (w : Wave) (set : Nat) :
    (s.placeWave t a b w set).parts = s.parts := by
  simp [State.placeWave]

theorem State.placeCrew_parts {s : State} {t : Task} {base : Nat} {x : SavedCrew} {core : Nat} {s1}
    (h : s.placeCrew t base x core = some s1) : s1.parts = s.parts := by
  simp only [State.placeCrew] at h
  split at h
  · cases h
  · next ha =>
    cases h
    rw [foldl_parts (by simp), foldl_parts]
    · simp [apply_ite State.parts, State.addCrew_parts ha]
    · intro u y
      split <;> simp

theorem State.placeSaved_parts {s : State} {t : Task} {base : Nat} {ks : List SavedCrew} {cs : List Nat}
    {s1} (h : s.placeSaved t base ks cs = some s1) : s1.parts = s.parts := by
  induction ks generalizing s cs with
  | nil => grind [State.placeSaved]
  | cons x l ih => cases cs <;> grind [State.placeSaved, → State.placeCrew_parts]

theorem State.placeFirst_parts {s : State} {t : Task} {base : Nat} {x : SavedCrew} {cores : List Nat} {s1}
    (h : s.placeFirst t base x cores = some s1) : s1.parts = s.parts := by
  exact findSome_parts (fun _ _ => State.placeCrew_parts) h

theorem State.placeConts_parts {s : State} {t : Task} {base clu : Nat} {ks : List SavedCrew} {s1}
    (h : s.placeConts t base clu ks = some s1) : s1.parts = s.parts := by
  induction ks generalizing s with
  | nil =>
    cases h
    rfl
  | cons x l ih => grind [State.placeConts, → State.placeFirst_parts]

theorem State.placeTask_parts {s : State} {c : Nat} {x : Saved} {t : Task} {s1}
    (h : s.placeTask c x t = some s1) : s1.parts = s.parts := by
  simp only [State.placeTask] at h
  refine findSome_parts (fun clu u hu => findSome_parts (fun cores v hv => ?_) hu) h
  grind [→ State.placeSaved_parts, → State.placeConts_parts, = State.setCluster_parts,
    = State.setTask_parts]

theorem State.placeTasks_parts {s : State} {c : Nat} {x : Saved} {ts : List Task} {t}
    (h : s.placeTasks c x ts = some t) : t.parts = s.parts := by
  induction ts generalizing s with
  | nil =>
    cases h
    rfl
  | cons x l ih => grind [State.placeTasks, → State.placeTask_parts]

theorem State.restoreWaves_parts {s : State} {k : Crew} {ws : List Nat} {pa : Nat} {t}
    (h : s.restoreWaves k ws pa = .ok t) : t.parts = s.parts := by
  induction ws generalizing s pa with
  | nil =>
    cases h
    rfl
  | cons id l ih =>
    unfold State.restoreWaves at h
    split at h
    · exact ih h
    · split at h
      · cases h
      · split at h
        · cases h
        · simpa using ih h

theorem State.restoreCrew_parts {s : State} {base : Nat} {x : SavedCrew} {t}
    (h : s.restoreCrew base x = .ok t) : t.parts = s.parts := by
  unfold State.restoreCrew at h
  grind [→ State.restoreWaves_parts, = State.setCrew_parts]

@[simp] theorem State.restoreCrews_parts (s : State) (base : Nat) (xs : List SavedCrew) :
    (s.restoreCrews base xs).parts = s.parts := by
  refine foldl_parts (fun u x => ?_) _ _
  split
  · next hu => exact State.restoreCrew_parts hu
  · simp

theorem execContextRestore_parts {c : Nat} {s : State} {t}
    (h : execContextRestore c s = .next t) : t.parts = s.parts := by
  simp only [execContextRestore] at h
  split at h
  · cases h
  · split at h
    · cases h
    · split at h
      · cases h
      · split at h
        · cases h
        · next hp =>
          cases h
          have hp := State.placeTasks_parts hp
          simp only [State.traceEvent_parts]
          split
          · simp [foldl_parts, hp]
          · simp [hp]

theorem State.writeCxsched_parts {s : State} {c : Nat} {v0 : Dword} {t}
    (h : s.writeCxsched c v0 = some t) : t.parts = s.parts := by
  grind [State.writeCxsched, = State.setCtx_parts, = State.setReg_parts]

theorem execContextResident_parts {c : Nat} {v : BitVec 64} {s : State} {t}
    (h : execContextResident c v s = .next t) : t.parts = s.parts := by
  exact absent_or_written_parts (fun _ => State.writeCxsched_parts) h

theorem execContextRelease_parts {c : Nat} {v : BitVec 64} {s : State} {t}
    (h : execContextRelease c v s = .next t) : t.parts = s.parts := by
  exact absent_or_written_parts (fun _ => State.writeCxsched_parts) h

theorem execTimeSliceExpiry_parts {c : Nat} {s : State} {t}
    (h : execTimeSliceExpiry c s = .next t) : t.parts = s.parts := by
  grind [execTimeSliceExpiry, → State.place_parts, = State.beginPreempt_parts]

theorem execClusterGate_parts {clu : Nat} {s : State} {t}
    (h : execClusterGate clu s = .next t) : t.parts = s.parts := by
  grind [execClusterGate, = State.traceEvent_parts, = State.setCluster_parts]

theorem State.writeFqtail_parts {s : State} {c : Nat} {v : Dword} {t}
    (h : s.writeFqtail c v = some t) : t.parts = s.parts := by
  unfold State.writeFqtail at h
  exact State.indexWrite_parts h

theorem execFqtailWrite_parts {c : Nat} {v : BitVec 64} {s : State} {t}
    (h : execFqtailWrite c v s = .next t) : t.parts = s.parts := by
  exact absent_or_written_parts (fun _ => State.writeFqtail_parts) h

theorem State.writeCqtail_parts {s : State} {c : Nat} {v : Dword} {t}
    (h : s.writeCqtail c v = some t) : t.parts = s.parts := by
  unfold State.writeCqtail at h
  exact State.indexWrite_parts h

theorem State.writeCqbase_parts {s : State} {c : Nat} {v : Dword} {t}
    (h : s.writeCqbase c v = some t) : t.parts = s.parts := by
  grind [State.writeCqbase, → State.plainWrite_parts, = State.setReg_parts]

theorem execCqtailWrite_parts {c : Nat} {base : Bool} {v : BitVec 64} {s : State} {t}
    (h : execCqtailWrite c base v s = .next t) : t.parts = s.parts := by
  unfold execCqtailWrite at h
  split at h
  · cases h
  · split at h
    · exact State.written_parts rfl (fun _ => State.writeCqbase_parts) h
    · exact State.written_parts rfl (fun _ => State.writeCqtail_parts) h

theorem State.writeCxrpl_parts {s : State} {c : Nat} {v : Dword} {t}
    (h : s.writeCxrpl c v = some t) : t.parts = s.parts := by
  grind [State.writeCxrpl, = State.setCtx_parts]

theorem execReplyDoorbell_parts {c : Nat} {v : BitVec 64} {s : State} {t}
    (h : execReplyDoorbell c v s = .next t) : t.parts = s.parts := by
  exact absent_or_written_parts (fun _ => State.writeCxrpl_parts) h

/-! ## Replay -/

@[simp] theorem State.setParked_parts (s : State) (c : Nat) : (s.setParked c).parts = s.parts := by
  unfold State.setParked
  dsimp only
  split <;> simp

@[simp] theorem State.setDone_parts (s : State) (c : Nat) : (s.setDone c).parts = s.parts := by
  simp [State.setDone]

@[simp] theorem State.endReplay_parts (s : State) (c : Nat) : (s.endReplay c).parts = s.parts := by
  simp [State.endReplay]

theorem State.writeFlctl_parts {s : State} {c : Nat} {v : Dword} {t}
    (h : s.writeFlctl c v = some t) : t.parts = s.parts := by
  grind [State.writeFlctl, = State.setReg_parts, = State.setCtx_parts, = State.setField_parts,
    = State.setDone_parts, = State.endReplay_parts]

theorem execFlctlEn_parts {c : Nat} {v : BitVec 64} {s : State} {t}
    (h : execFlctlEn c v s = .next t) : t.parts = s.parts := by
  exact absent_or_written_parts (fun _ => State.writeFlctl_parts) h

theorem execFlctlRpl_parts {c : Nat} {v : BitVec 64} {s : State} {t}
    (h : execFlctlRpl c v s = .next t) : t.parts = s.parts := by
  exact absent_or_written_parts (fun _ => State.writeFlctl_parts) h

theorem execFlctlEnd_parts {c : Nat} {v : BitVec 64} {s : State} {t}
    (h : execFlctlEnd c v s = .next t) : t.parts = s.parts := by
  exact absent_or_written_parts (fun _ => State.writeFlctl_parts) h

theorem State.writeFltail_parts {s : State} {c : Nat} {v : Dword} {t}
    (h : s.writeFltail c v = some t) : t.parts = s.parts := by
  unfold State.writeFltail at h
  split at h
  · cases h
  · split at h
    · cases h; rfl
    · exact map_some_parts (fun _ => State.indexWrite_parts) (fun _ => by simp) h

theorem execFltailWrite_parts {c : Nat} {v : BitVec 64} {s : State} {t}
    (h : execFltailWrite c v s = .next t) : t.parts = s.parts := by
  exact absent_or_written_parts (fun _ => State.writeFltail_parts) h

theorem State.writeFlhead_parts {s : State} {c : Nat} {v : Dword} {t}
    (h : s.writeFlhead c v = some t) : t.parts = s.parts := by
  unfold State.writeFlhead at h
  split at h
  · cases h
  · split at h
    · cases h; rfl
    · exact map_some_parts (fun _ => State.indexWrite_parts) (fun _ => by simp) h

theorem execFlheadWrite_parts {c : Nat} {v : BitVec 64} {s : State} {t}
    (h : execFlheadWrite c v s = .next t) : t.parts = s.parts := by
  exact absent_or_written_parts (fun _ => State.writeFlhead_parts) h

theorem State.writeFlbase_parts {s : State} {c : Nat} {v : Dword} {t}
    (h : s.writeFlbase c v = some t) : t.parts = s.parts := by
  unfold State.writeFlbase at h
  split at h
  · cases h
  · exact State.plainWrite_parts h

theorem State.writeFlmap_parts {s : State} {c : Nat} {v : Dword} {t}
    (h : s.writeFlmap c v = some t) : t.parts = s.parts := by
  unfold State.writeFlmap at h
  split at h
  · cases h
  · exact State.plainWrite_parts h

theorem State.writeFlhigh_parts {s : State} {c : Nat} {v : Dword} {t}
    (h : s.writeFlhigh c v = some t) : t.parts = s.parts := by
  unfold State.writeFlhigh at h
  split at h
  · cases h
  · exact map_some_parts (fun _ => State.plainWrite_parts) (fun _ => by simp) h

theorem execReplayDisc_parts {c : Nat} {s : State} {t}
    (h : execReplayDisc c s = .next t) : t.parts = s.parts := by
  grind [execReplayDisc, = State.diverge_parts, = State.discard_parts]

@[simp] theorem State.settleMove_parts (s : State) (c : Nat) : (s.settleMove c).parts = s.parts := by
  -- unfolded as a function: at s the kernel would search the whole log to compare the two bodies
  suffices h : ∀ f, f = State.settleMove → (f s c).parts = s.parts from h _ rfl
  intro f hf
  delta State.settleMove at hf
  subst hf
  beta_reduce
  generalize s.nextRec c _ = r
  split
  · split
    · rfl
    · split
      · rfl
      · simp
  · rfl

@[simp] theorem State.settleReplay_parts (s : State) (c : Nat) : (s.settleReplay c).parts = s.parts := by
  unfold State.settleReplay
  split
  · rfl
  · extract_lets i bad
    split
    · simp
    · split <;> simp

@[simp] theorem State.settleReplays_parts (s : State) : (s.settleReplays).parts = s.parts := by
  simp [State.settleReplays, foldl_parts]

/-! ## Raster jobs -/

theorem State.writeRqtail_parts {s : State} {clu : Nat} {v : Dword} {t}
    (h : s.writeRqtail clu v = some t) : t.parts = s.parts := by
  unfold State.writeRqtail at h
  split at h <;> cases h
  rfl

theorem execRqtailDoorbell_parts {clu : Nat} {v : BitVec 64} {s : State} {t}
    (h : execRqtailDoorbell clu v s = .next t) : t.parts = s.parts := by
  exact absent_or_written_parts (fun _ => State.writeRqtail_parts) h

theorem State.writeRqbase_parts {s : State} {clu : Nat} {v : Dword} {t}
    (h : s.writeRqbase clu v = some t) : t.parts = s.parts := by
  refine map_some_parts (fun u hu => State.enWrite_parts (fun hr => ?_) hu) (fun _ => by simp) h
  split at hr
  · cases hr
  · exact State.plainWrite_parts hr

theorem State.writeRqctl_parts {s : State} {clu : Nat} {v : Dword} {t}
    (h : s.writeRqctl clu v = some t) : t.parts = s.parts := by
  unfold State.writeRqctl at h
  split at h
  · cases h
  · exact State.plainWrite_parts h

theorem State.jobRead_parts {s : State} {ctx unit va n : Nat} {r}
    (h : s.jobRead ctx unit va n = .ok r) : r.2.parts = s.parts := by
  unfold State.jobRead at h
  split at h
  · cases h
  · exact State.gReadAll_parts h

theorem State.jobWrite_parts {s : State} {ctx unit va : Nat} {bs : List Byte} {t}
    (h : s.jobWrite ctx unit va bs = .ok t) : t.parts = s.parts := by
  unfold State.jobWrite at h
  split at h
  · cases h
  · exact State.gWriteAll_parts h

theorem State.triIndices_parts {s : State} {ctx : Nat} {j : RasterJob} {t : Nat} {r}
    (h : s.triIndices ctx j t = .ok r) : r.2.parts = s.parts := by
  grind [State.triIndices, → State.jobRead_parts]

theorem State.vertices_parts {s : State} {ctx : Nat} {j : RasterJob} {ids : List Nat} {r}
    (h : s.vertices ctx j ids = .ok r) : r.2.parts = s.parts := by
  induction ids generalizing s r with
  | nil =>
    cases h
    rfl
  | cons i l ih => grind [State.vertices, → State.jobRead_parts]

theorem State.triangle_parts {s : State} {ctx : Nat} {j : RasterJob} {t : Nat} {r}
    (h : s.triangle ctx j t = .ok r) : r.2.parts = s.parts := by
  grind [State.triangle, → State.triIndices_parts, → State.vertices_parts]

theorem State.rasterJob_parts {s : State} {ctx va : Nat} {r}
    (h : s.rasterJob ctx va = .ok r) : r.2.2.parts = s.parts := by
  unfold State.rasterJob at h
  grind [→ State.jobRead_parts]

@[simp] theorem State.rqAdvance_parts (s : State) (clu : Nat) : (s.rqAdvance clu).parts = s.parts := by
  simp [State.rqAdvance]

@[simp] theorem State.rasterEnds_parts (s : State) (clu : Nat) (e : Trap) :
    (s.rasterEnds clu e).parts = s.parts := by
  simp [State.rasterEnds]

/-- What a raster computation leaves, whether it ends or traps with the writes made before (R397). -/
def RasterM.HasParts {α : Type} (p : Parts) (view : α → State) : RasterM α → Prop
  | .ok a => (view a).parts = p
  | .error e => e.2.parts = p

section
variable {α β : Type} {p : Parts} {view : α → State}

theorem RasterM.HasParts.ok {x : RasterM α} {a : α} (hx : x.HasParts p view) (h : x = .ok a) :
    (view a).parts = p := by
  rwa [h] at hx

theorem RasterM.HasParts.error {x : RasterM α} {e : Trap × State} {view' : β → State} (hx : x.HasParts p view)
    (h : x = .error e) : RasterM.HasParts p view' (.error e) := by
  rwa [h] at hx

theorem withState_hasParts {s : State} {x : Except Trap α} (hs : s.parts = p)
    (hx : ∀ a, x = .ok a → (view a).parts = p) :
    (withState s x).HasParts p view := by
  cases x with
  | error e => exact hs
  | ok a => exact hx a rfl

theorem eachOf_hasParts {f : β → α → RasterM α} (hf : ∀ x a, (view a).parts = p → (f x a).HasParts p view)
    {a : α} (ha : (view a).parts = p) (l : List β) : RasterM.HasParts p view (eachOf f l a) := by
  induction l generalizing a with
  | nil => exact ha
  | cons x l ih =>
    unfold eachOf
    split
    · next h => exact (hf x a ha).error h
    · next h => exact ih ((hf x a ha).ok h)

theorem eachBelow_hasParts {f : Nat → α → RasterM α} (hf : ∀ i a, (view a).parts = p → (f i a).HasParts p view)
    {a : α} (ha : (view a).parts = p) (n : Nat) : RasterM.HasParts p view (eachBelow f n a) := by
  induction n with
  | zero => exact ha
  | succ n ih =>
    unfold eachBelow
    split
    · next h => exact ih.error h
    · next h => exact hf n _ (ih.ok h)
end

section
variable {r : Raster} {p : Parts}

theorem State.jobRead_hasParts {s s1 : State} (hs : s.parts = p) (h1 : s1.parts = p) (ctx unit va n : Nat) :
    (withState s (s1.jobRead ctx unit va n)).HasParts p (·.2) :=
  withState_hasParts hs fun _ h => (State.jobRead_parts h).trans h1

theorem State.jobWrite_hasParts {s s1 : State} (hs : s.parts = p) (h1 : s1.parts = p) (ctx unit va : Nat)
    (bs : List Byte) :
    (withState s (s1.jobWrite ctx unit va bs)).HasParts p id :=
  withState_hasParts hs fun _ h => (State.jobWrite_parts h).trans h1

theorem State.triangle_hasParts {s : State} (hs : s.parts = p) (ctx : Nat) (j : RasterJob) (n : Nat) :
    (withState s (s.triangle ctx j n)).HasParts p (·.2) :=
  withState_hasParts hs fun _ h => (State.triangle_parts h).trans hs

theorem Raster.sample_hasParts (hr : r.s.parts = p) (ctx : Nat) (d : Vbd) (id z x y n : Nat) :
    (r.sample ctx d id z x y n).HasParts p Raster.s := by
  unfold Raster.sample
  dsimp only
  split
  · next h => exact (State.jobRead_hasParts hr hr ..).error h
  · next s1 h =>
    have h1 : s1.parts = p := (State.jobRead_hasParts hr hr ..).ok h
    split
    · next h => exact (State.jobRead_hasParts hr h1 ..).error h
    · next s2 h =>
      have h2 : s2.parts = p := (State.jobRead_hasParts hr h1 ..).ok h
      split
      · split
        · next h => exact (State.jobWrite_hasParts hr h2 ..).error h
        · next s3 h =>
          have h3 : s3.parts = p := (State.jobWrite_hasParts hr h2 ..).ok h
          split
          · next h => exact (State.jobWrite_hasParts hr h3 ..).error h
          · next s4 h => exact (State.jobWrite_hasParts hr h3 ..).ok h
      · exact h2

theorem Raster.pixel_hasParts (hr : r.s.parts = p) (ctx : Nat) (d : Vbd) (t : RTri) (id x y : Nat) :
    (r.pixel ctx d t id x y).HasParts p Raster.s := by
  refine eachOf_hasParts (fun q r hr => ?_) hr _
  dsimp only
  split
  · exact hr
  · split
    · exact hr
    · exact Raster.sample_hasParts hr ..

theorem Raster.tri_hasParts (hr : r.s.parts = p) (ctx : Nat) (d : Vbd) (j : RasterJob) (n : Nat) :
    (r.tri ctx d j n).HasParts p Raster.s := by
  have ht := State.triangle_hasParts hr ctx j n
  unfold Raster.tri
  split
  · next h => exact ht.error h
  · next h => exact ht.ok h
  · next h => exact eachOf_hasParts (fun q _ hq => Raster.pixel_hasParts hq ..) (ht.ok h) _

theorem Raster.idents_hasParts (hr : r.s.parts = p) (ctx : Nat) (d : Vbd) (xq yq n k : Nat) :
    (r.idents ctx d xq yq n k).HasParts p (·.2.s) := by
  induction k with
  | zero => exact hr
  | succ k ih =>
    unfold Raster.idents
    split
    · next h => exact ih.error h
    · next r1 h =>
      have h1 : r1.s.parts = p := ih.ok h
      dsimp only
      split
      · exact h1
      · split
        · next h => exact (State.jobRead_hasParts h1 h1 ..).error h
        · next h => exact (State.jobRead_hasParts h1 h1 ..).ok h

theorem Raster.owners_hasParts (hr : r.s.parts = p) (ctx : Nat) (j : RasterJob) (l : List (Option Nat)) :
    (r.owners ctx j l).HasParts p (·.2.s) := by
  induction l generalizing r with
  | nil => exact hr
  | cons i l ih =>
    unfold Raster.owners
    dsimp only
    split
    · next e h =>
      split at h
      · cases h
      · exact (State.triangle_hasParts hr ..).error h
    · next t s1 h =>
      have h1 : s1.parts = p := by
        split at h
        · cases h
          exact hr
        · exact (State.triangle_hasParts hr ..).ok h
      have hl := ih (r := { r with s := s1 }) h1
      split
      · next h => exact hl.error h
      · next h => exact RasterM.HasParts.ok (view := (·.2.s)) hl h

theorem Raster.mergeQuad_hasParts (hr : r.s.parts = p) (ctx : Nat) (d : Vbd) (j : RasterJob) (xq yq n : Nat) :
    (r.mergeQuad ctx d j xq yq n).HasParts p Raster.s := by
  have hi := Raster.idents_hasParts hr ctx d xq yq n 4
  unfold Raster.mergeQuad
  split
  · next h => exact hi.error h
  · next ids r1 h =>
    have ho := Raster.owners_hasParts (hi.ok h) ctx j ids
    split
    · next h => exact ho.error h
    · next h =>
      refine eachOf_hasParts (fun q r hr => ?_) (ho.ok h) _
      dsimp only
      split
      · exact hr
      · split
        · next h => exact (State.jobWrite_hasParts hr hr ..).error h
        · next h => exact (State.jobWrite_hasParts hr hr ..).ok h

theorem Raster.merge_hasParts (hr : r.s.parts = p) (ctx : Nat) (d : Vbd) (j : RasterJob) :
    (r.merge ctx d j).HasParts p Raster.s :=
  eachOf_hasParts (fun _ _ hq => eachBelow_hasParts (fun _ _ hn => Raster.mergeQuad_hasParts hn ..) hq _) hr _

theorem State.runRaster_hasParts (s : State) (ctx va : Nat) : (s.runRaster ctx va).HasParts s.parts id := by
  have hj : (withState s (s.rasterJob ctx va)).HasParts s.parts (·.2.2) :=
    withState_hasParts rfl fun _ => State.rasterJob_parts
  unfold State.runRaster
  split
  · next h => exact hj.error h
  · next j d s1 h =>
    have ht := eachBelow_hasParts (view := Raster.s) (a := ⟨s1, []⟩)
      (fun n _ hn => Raster.tri_hasParts hn ctx d j n) (hj.ok h) j.ntri
    split
    · next h => exact ht.error h
    · next r h =>
      have hr : r.s.parts = s.parts := ht.ok h
      have hm : RasterM.HasParts s.parts Raster.s (if j.mrg then r.merge ctx d j else .ok r) := by
        split
        · exact Raster.merge_hasParts hr ..
        · exact hr
      split
      · next h => exact hm.error h
      · next r1 h =>
        have h1 : r1.s.parts = s.parts := hm.ok h
        split
        · exact h1
        · split
          · next h => exact (State.jobRead_hasParts h1 h1 ..).error h
          · next h => exact State.jobWrite_hasParts h1 ((State.jobRead_hasParts h1 h1 ..).ok h) ..
end

theorem execRasterJob_parts {clu : Nat} {s : State} {t}
    (h : execRasterJob clu s = .next t) : t.parts = s.parts := by
  unfold execRasterJob at h
  dsimp only at h
  split at h
  · cases h
  · split at h
    · cases h
    · have hr := State.runRaster_hasParts s (s.field (.rqctl clu) 0 6)
        (s.field (.rqbase clu) 12 44 * 2 ^ 12 + 64 * (s.field (.rqhead clu) 0 12 % s.rqSize clu))
      split at h
      · next hs =>
        cases h
        simpa using hr.ok hs
      · next hs =>
        split at h <;> cases h
        · simp
        · exact (State.rasterEnds_parts ..).trans (hr.error (view' := id) hs)

/-! ## Copy engines -/

@[simp] theorem State.setEngine_parts (s : State) (d e : Nat) (x : Engine) :
    (s.setEngine d e x).parts = s.parts := by
  simp [State.setEngine]

theorem State.writeCjtail_parts {s : State} {d : Nat} {v : Dword} {t}
    (h : s.writeCjtail d v = some t) : t.parts = s.parts := by
  unfold State.writeCjtail at h
  split at h <;> cases h
  rfl

theorem execCjtailDoorbell_parts {d : Nat} {v : BitVec 64} {s : State} {t}
    (h : execCjtailDoorbell d v s = .next t) : t.parts = s.parts := by
  exact absent_or_written_parts (fun _ => State.writeCjtail_parts) h

theorem State.writeCjbase_parts {s : State} {d : Nat} {v : Dword} {t}
    (h : s.writeCjbase d v = some t) : t.parts = s.parts := by
  grind [State.writeCjbase, → State.enWrite_parts, → State.plainWrite_parts]

theorem State.writeCjctl_parts {s : State} {d : Nat} {v : Dword} {t}
    (h : s.writeCjctl d v = some t) : t.parts = s.parts := by
  grind [State.writeCjctl, → State.plainWrite_parts]

@[simp] theorem State.endJob_parts (s : State) (d e : Nat) (t : Trap) :
    (s.endJob d e t).parts = s.parts := by
  unfold State.endJob
  dsimp only
  split <;> simp

theorem State.jobFault_parts {s : State} {d e ctx : Nat} {t : Trap} {s1}
    (h : s.jobFault d e ctx t = some s1) : s1.parts = s.parts := by
  grind [State.jobFault, = State.postResolve_parts, = State.endJob_parts]

theorem State.completeJob_parts {s : State} {d e : Nat} {t}
    (h : s.completeJob d e = some t) : t.parts = s.parts := by
  grind [State.completeJob, = State.setEngine_parts, → State.jobRead_parts, → State.jobWrite_parts,
    → State.jobFault_parts]

theorem State.completeJob_getD_parts (s : State) (d e : Nat) : ((s.completeJob d e).getD s).parts = s.parts :=
  getD_parts fun _ => State.completeJob_parts

@[simp] theorem State.cemove_parts (s : State) (d e : Nat) (v : Dword) :
    (s.cemove d e v).parts = s.parts := by
  unfold State.cemove
  dsimp only
  repeat' split
  all_goals simp

theorem State.moveGranule_parts {s : State} {d e : Nat} {j : CopyJob} {x : Xfer} {u : Nat} {hot : Bool}
    {k : Nat} {t} (h : s.moveGranule d e j x u hot k = .ok t) : t.parts = s.parts := by
  grind [State.moveGranule, = State.carryTo_parts, = State.noteRead_parts, = State.setEngine_parts]

theorem State.moveUnit_parts {s : State} {d e : Nat} {j : CopyJob} {x : Xfer} {u : Nat} {hot : Bool} {t}
    (h : s.moveUnit d e j x u hot = .ok t) : t.parts = s.parts := by
  simp only [State.moveUnit] at h
  split at h
  · cases h
  · exact eachBelow_parts (fun _ _ _ => State.moveGranule_parts) h

@[simp] theorem State.moveUnits_parts (s : State) (d e : Nat) (j : CopyJob) (x : Xfer) (hot : Bool)
    (n u : Nat) : (s.moveUnits d e j x hot n u).1.parts = s.parts := by
  induction n generalizing s u with
  | zero => rfl
  | succ n ih => grind [State.moveUnits, → State.moveUnit_parts]

theorem execTransferDone_parts {d e n : Nat} {s : State} {t}
    (h : execTransferDone d e n s = .next t) : t.parts = s.parts := by
  unfold execTransferDone at h
  split at h
  · cases h
  · simp only at h
    split at h
    · split at h
      · cases h
      · split at h
        · split at h
          · split at h <;> cases h
            next hc => exact State.completeJob_parts hc
          · cases h
        · split at h
          · split at h
            · rw [← Host.Outcome.next.inj h]
              simp [State.completeJob_getD_parts]
            · rw [← Host.Outcome.next.inj h]
              simp
          · split at h
            · rw [← Host.Outcome.next.inj h]
              simp
            · rw [← Host.Outcome.next.inj h]
              simp
    · cases h

@[simp] theorem State.cjAdvance_parts (s : State) (d : Nat) : (s.cjAdvance d).parts = s.parts := by
  simp [State.cjAdvance]

theorem execCopyJobStart_parts {d : Nat} {s : State} {t}
    (h : execCopyJobStart d s = .next t) : t.parts = s.parts := by
  unfold execCopyJobStart at h
  dsimp only at h
  split at h
  · cases h
  · split at h
    · cases h
    · split at h
      · cases h
      · split at h
        · split at h <;> cases h <;> simp
        · split at h
          · split at h <;> cases h <;> simp
          · split at h
            · cases h
              simp
            · split at h <;> cases h <;> simp

theorem execCopyJobTimeout_parts {d e : Nat} {s : State} {t}
    (h : execCopyJobTimeout d e s = .next t) : t.parts = s.parts := by
  grind [execCopyJobTimeout, = State.endJob_parts]

@[simp] theorem State.slotWritten_parts (s : State) (d slot : Nat) (v : Dword) (ok : Bool) :
    (s.slotWritten d slot v ok).parts = s.parts := by
  simp [State.slotWritten]

theorem State.writeRtslot_parts {s : State} {d slot : Nat} {v : Dword} {t}
    (h : s.writeRtslot d slot v = some t) : t.parts = s.parts := by
  simp only [State.writeRtslot] at h
  repeat' split at h
  all_goals cases h
  all_goals simp

theorem execRtslotLoad_parts {d slot : Nat} {v : BitVec 64} {s : State} {t}
    (h : execRtslotLoad d slot v s = .next t) : t.parts = s.parts := by
  grind [execRtslotLoad, → State.writeRtslot_parts, = State.cwRefuse_parts, = State.slotWritten_parts]

/-! ## Routines on the copy engines -/

theorem State.routineEnd_parts {s : State} {d e : Nat} {r : Rv} {t}
    (h : s.routineEnd d e r = some t) : t.parts = s.parts := by
  grind [State.routineEnd, = State.endJob_parts, → State.completeJob_parts]

@[simp] theorem State.routineBreak_parts (s : State) (d e : Nat) (r : Rv) :
    (s.routineBreak d e r).parts = s.parts := by
  simp [State.routineBreak]

theorem State.rvEffect_parts {s : State} {d e : Nat} {r : Rv} {o : RvOut} {t}
    (h : s.rvEffect d e r o = some t) : t.parts = s.parts := by
  unfold State.rvEffect at h
  grind [= State.setEngine_parts, = State.endJob_parts, → State.routineEnd_parts,
    = State.routineBreak_parts, = State.cemove_parts]

theorem State.rvRun_parts {s : State} {d e : Nat} {p : Rv → Nat → RvOut → Bool} {t}
    (h : s.rvRun d e p = .next t) : t.parts = s.parts := by
  grind [State.rvRun, = State.endJob_parts, → State.rvEffect_parts]

/-! ## Debug -/

@[simp] theorem State.abortOthers_parts (s : State) (c page : Nat) (e : Trap) :
    (s.abortOthers c page e).parts = s.parts := by
  refine (foldl_parts (fun u clu => ?_) _ _).trans ((foldl_parts (fun u p => ?_) _ _).trans
    ((foldl_parts (fun u q => ?_) _ _).trans ((foldl_parts (fun u t => ?_) _ _).trans
      (foldl_parts (fun u t => ?_) _ _))))
  · split <;> simp
  · dsimp only
    split
    · rfl
    · split
      · simp
      · split
        · split <;> simp
        · rfl
  · split
    · split <;> simp
    · rfl
  · split
    · next u' n x hr =>
      have hu : u'.parts = u.parts := by simpa [
        hr] using State.releaseSuccessors_parts u t (4096 - t.succPos) t.succPos
      split
      · simpa using hu
      · rfl
    · rfl
  · split
    · split <;> simp
    · rfl

@[simp] theorem State.dropWalks_parts (s : State) (asid page : Nat) :
    (s.dropWalks asid page).parts = s.parts := by
  grind [State.dropWalks, = State.parts_mk, = Parts.fold]

theorem State.writeFqack_parts {s : State} {c : Nat} {v : Dword} {t}
    (h : s.writeFqack c v = some t) : t.parts = s.parts := by
  unfold State.writeFqack at h
  split at h
  · cases h
  · split at h
    · cases h
    · simp only at h
      split at h
      · rw [← Option.some.inj h]
        simp [foldl_parts]
      · rw [← Option.some.inj h]
        simp

theorem execFqackResolve_parts {c : Nat} {n : BitVec 31} {s : State} {t}
    (h : execFqackResolve c n s = .next t) : t.parts = s.parts := by
  exact absent_or_written_parts (fun _ => State.writeFqack_parts) h

theorem execFqackAbort_parts {c : Nat} {n : BitVec 31} {s : State} {t}
    (h : execFqackAbort c n s = .next t) : t.parts = s.parts := by
  exact absent_or_written_parts (fun _ => State.writeFqack_parts) h

@[simp] theorem State.dbgOk_parts (s : State) (ok : Bool) : (s.dbgOk ok).parts = s.parts := by
  simp [State.dbgOk]

theorem State.dbgDone_parts {s : State} {r : Reg} {x : Option State}
    (hx : ∀ u, x = some u → u.parts = s.parts) :
    (s.dbgDone r x).parts = s.parts := by
  cases x with
  | none => simp [State.dbgDone]
  | some u => simpa [State.dbgDone] using hx u rfl

theorem State.windowAccess_parts {s : State} {write : Option Dword} {t}
    (h : s.windowAccess write = some t) : t.parts = s.parts := by
  unfold State.windowAccess at h
  grind [= State.setReg_parts, = State.parts_mk, = Parts.fold]

theorem execDebugWindowAccess_parts {write : Option (BitVec 64)} {s : State} {t}
    (h : execDebugWindowAccess write s = .next t) : t.parts = s.parts := by
  grind [execDebugWindowAccess, = State.dbgDone_parts, → State.windowAccess_parts]

theorem State.applyCrewEdit_parts {s : State} {crew : Nat} {e : Edit} {t}
    (h : s.applyCrewEdit crew e = .ok t) : t.parts = s.parts := by
  grind [State.applyCrewEdit, = State.setCrew_parts, = State.putAt_parts]

theorem State.headEdit_parts {s : State} {c : Nat} {e : Edit} {t}
    (h : s.headEdit c e = .ok t) : t.parts = s.parts := by
  unfold State.headEdit at h
  split at h <;> cases h
  rfl

theorem State.applyEdits_parts {s : State} {w : Wave} {k : Crew} {t}
    (h : s.applyEdits w k = .ok t) : t.parts = s.parts := by
  simp only [State.applyEdits] at h
  split at h
  · cases h
  · next h1 =>
    have h1 := eachOf_parts (fun _ _ _ => State.applyCrewEdit_parts) h1
    split at h
    · cases h
    · next h2 =>
      have h2 := eachOf_parts (fun _ _ _ => State.headEdit_parts) h2
      repeat' split at h
      all_goals cases h
      all_goals simp [h2, h1]

@[simp] theorem State.releaseWave_parts (s : State) (id : Nat) (step : Bool) :
    (s.releaseWave id step).parts = s.parts := by
  unfold State.releaseWave
  split
  · rfl
  · split
    · rfl
    · dsimp only
      split
      · simp
      · next ha =>
        have ha := State.applyEdits_parts ha
        split
        · exact ha
        · split
          · simpa using ha
          · split <;> simpa using ha

theorem State.cmdHalt_parts {s : State} {t} (h : s.cmdHalt = some t) : t.parts = s.parts := by
  unfold State.cmdHalt at h
  split at h
  · cases h
  · obtain ⟨w, -, rfl⟩ := Option.map_eq_some_iff.mp h
    split <;> simp

theorem State.cmdHaltctx_parts {s : State} {t} (h : s.cmdHaltctx = some t) : t.parts = s.parts := by
  unfold State.cmdHaltctx at h
  split at h <;> cases h
  simp

theorem State.cmdResume_parts {s : State} {t} (h : s.cmdResume = some t) : t.parts = s.parts := by
  unfold State.cmdResume at h
  split at h
  · cases h
  · obtain ⟨w, -, rfl⟩ := Option.map_eq_some_iff.mp h
    split <;> simp

theorem State.cmdResumectx_parts {s : State} {t} (h : s.cmdResumectx = some t) : t.parts = s.parts := by
  simp only [State.cmdResumectx] at h
  split at h <;> cases h
  simp [foldl_parts]

theorem State.cmdStep_parts {s : State} {complete : Bool} {t}
    (h : s.cmdStep complete = some t) : t.parts = s.parts := by
  grind [State.cmdStep, = State.releaseWave_parts, = State.setField_parts, = State.parts_mk, = Parts.fold]

@[simp] theorem State.stepOver_parts (s : State) : (s.stepOver).parts = s.parts := by
  grind [State.stepOver, = State.setWave_parts, = State.setField_parts, = State.parts_mk, = Parts.fold]

theorem State.writeDbgcmd_parts {s : State} {v : Dword} {t}
    (h : s.writeDbgcmd v = some t) : t.parts = s.parts := by
  grind [State.writeDbgcmd, → State.cmdHalt_parts, → State.cmdHaltctx_parts, → State.cmdResume_parts,
    → State.cmdResumectx_parts, → State.cmdStep_parts, = State.stepOver_parts]

theorem execHalt_parts {s : State} {t} (h : execHalt s = .next t) : t.parts = s.parts := by
  grind [execHalt, = State.dbgDone_parts, → State.writeDbgcmd_parts]

theorem execHaltctx_parts {s : State} {t} (h : execHaltctx s = .next t) : t.parts = s.parts := by
  grind [execHaltctx, = State.dbgDone_parts, → State.writeDbgcmd_parts]

theorem execResume_parts {s : State} {t} (h : execResume s = .next t) : t.parts = s.parts := by
  grind [execResume, = State.dbgDone_parts, → State.writeDbgcmd_parts]

theorem execResumectx_parts {s : State} {t} (h : execResumectx s = .next t) : t.parts = s.parts := by
  grind [execResumectx, = State.dbgDone_parts, → State.writeDbgcmd_parts]

theorem execStep_parts {s : State} {t} (h : execStep s = .next t) : t.parts = s.parts := by
  grind [execStep, = State.dbgDone_parts, → State.writeDbgcmd_parts]

theorem execStepc_parts {s : State} {t} (h : execStepc s = .next t) : t.parts = s.parts := by
  grind [execStepc, = State.dbgDone_parts, → State.writeDbgcmd_parts]

theorem execCancel_parts {s : State} {t} (h : execCancel s = .next t) : t.parts = s.parts := by
  grind [execCancel, = State.dbgDone_parts, → State.writeDbgcmd_parts]

@[simp] theorem State.noteStep_parts (s : State) (id : Nat) (lanes : BitVec 64) (issue : Nat)
    (seqs : List Nat) : (s.noteStep id lanes issue seqs).parts = s.parts := by
  unfold State.noteStep
  dsimp only
  repeat' split
  all_goals simp

@[simp] theorem State.settleDebug_parts (s : State) : (s.settleDebug).parts = s.parts := by
  grind [State.settleDebug, = State.stepOver_parts]

theorem State.writeCpbp_parts {s : State} {n : Fin 4} {v : Dword} {t}
    (h : s.writeCpbp n v = some t) : t.parts = s.parts := by
  unfold State.writeCpbp at h
  split at h
  · cases h
  · split at h <;> cases h <;> simp

theorem execCpbpGo_parts {n : Fin 4} {v : BitVec 64} {s : State} {t}
    (h : execCpbpGo n v s = .next t) : t.parts = s.parts := by
  exact State.written_parts rfl (fun _ => State.writeCpbp_parts) h

theorem execStopTick_parts {s : State} {t} (h : execStopTick s = .next t) : t.parts = s.parts := by
  grind [execStopTick, = State.parts_mk, = Parts.fold]

theorem State.writeSnapctl_parts {s : State} {v : Dword} {t}
    (h : s.writeSnapctl v = some t) : t.parts = s.parts := by
  grind [State.writeSnapctl, = State.setReg_parts, = State.trigger_parts, = State.parts_mk, = Parts.fold]

theorem execSnapctlSw_parts {v : BitVec 64} {s : State} {t}
    (h : execSnapctlSw v s = .next t) : t.parts = s.parts := by
  exact State.written_parts rfl (fun _ => State.writeSnapctl_parts) h

theorem execSnapshotLatch_parts {s : State} {t}
    (h : execSnapshotLatch s = .next t) : t.parts = s.parts := by
  simp only [execSnapshotLatch] at h
  split at h
  · cases h
  · split at h <;> cases h
    simp

theorem execTraceSample_parts {d : Nat} {s : State} {t}
    (h : execTraceSample d s = .next t) : t.parts = s.parts := by
  simp only [execTraceSample] at h
  split at h
  · cases h
  · split at h
    · cases h
    · cases h
      simp [foldl_parts]

theorem State.writeTrbase_parts {s : State} {d : Nat} {v : Dword} {t}
    (h : s.writeTrbase d v = some t) : t.parts = s.parts := by
  grind [State.writeTrbase, → State.enWrite_parts, → State.plainWrite_parts, = State.setReg_parts]

theorem State.writeTrtail_parts {s : State} {d : Nat} {v : Dword} {t}
    (h : s.writeTrtail d v = some t) : t.parts = s.parts := by
  unfold State.writeTrtail at h
  exact State.indexWrite_parts h

theorem State.writeTrctl_parts {s : State} {d : Nat} {v : Dword} {t}
    (h : s.writeTrctl d v = some t) : t.parts = s.parts := by
  unfold State.writeTrctl at h
  split at h
  · cases h
  · split at h
    · cases h
    · exact State.plainWrite_parts h

theorem State.writeCcinj_parts {s : State} {core : Nat} {v : Dword} {t}
    (h : s.writeCcinj core v = some t) : t.parts = s.parts := by
  grind [State.writeCcinj, = State.setReg_parts, = State.setMem_parts]

theorem execCcinjGo_parts {core : Nat} {v : BitVec 64} {s : State} {t}
    (h : execCcinjGo core v s = .next t) : t.parts = s.parts := by
  exact absent_or_written_parts (fun _ => State.writeCcinj_parts) h

/-! ## The package -/

@[simp] theorem State.extend_parts (s : State) (n : Nat) (value : List Byte) :
    (s.extend n value).parts = s.parts := by
  grind [State.extend, = State.parts_mk, = Parts.fold]

@[simp] theorem State.boot_parts (s : State) : (s.boot).parts = s.parts := by
  unfold State.boot
  dsimp only
  repeat' split
  all_goals simp

@[simp] theorem State.refreshT_parts (s : State) (d : Nat) : (s.refreshT d).parts = s.parts := by
  unfold State.refreshT
  dsimp only
  repeat' split
  all_goals simp

@[simp] theorem State.sampleDie_parts (s : State) (d hot : Nat) : (s.sampleDie d hot).parts = s.parts := by
  simp [State.sampleDie]

theorem execThrottleSample_parts {hot : List Nat} {avg : Nat} {s : State} {t}
    (h : execThrottleSample hot avg s = .next t) : t.parts = s.parts := by
  unfold execThrottleSample at h
  split at h
  · cases h
  · rw [← Host.Outcome.next.inj h]
    simp [foldl_parts]

theorem execThermalTrip_parts {d temp : Nat} {s : State} {t}
    (h : execThermalTrip d temp s = .next t) : t.parts = s.parts := by
  unfold execThermalTrip at h
  split at h
  · cases h
  · split at h <;> cases h
    simp

@[simp] theorem State.turnipWrite_parts (s : State) (pa : Nat) (bs : List Byte) :
    (s.turnipWrite pa bs).1.parts = s.parts := by
  unfold State.turnipWrite
  split <;> simp

@[simp] theorem State.doAttest_parts (s : State) : (s.doAttest).1.parts = s.parts := by
  unfold State.doAttest
  split <;> simp

@[simp] theorem State.doLoadslot_parts (s : State) : (s.doLoadslot).1.parts = s.parts := by
  unfold State.doLoadslot
  dsimp only
  repeat' split
  all_goals simp

@[simp] theorem State.doStagefw_parts (s : State) : (s.doStagefw).1.parts = s.parts := by
  unfold State.doStagefw
  dsimp only
  repeat' split
  all_goals simp

@[simp] theorem State.doSensors_parts (s : State) : (s.doSensors).1.parts = s.parts := by
  unfold State.doSensors
  split <;> simp

theorem State.startMailbox_parts {s : State} {cmd : Nat} {t}
    (h : s.startMailbox cmd = some t) : t.parts = s.parts := by
  unfold State.startMailbox at h
  grind [= State.doStagefw_parts, = State.doAttest_parts, = State.doLoadslot_parts, = State.doSensors_parts,
    = State.setReg_parts, = State.parts_mk, = Parts.fold]

theorem execAttest_parts {s : State} {t} (h : execAttest s = .next t) : t.parts = s.parts := by
  exact State.written_parts rfl (fun _ => State.startMailbox_parts) h

theorem execLoadslot_parts {s : State} {t} (h : execLoadslot s = .next t) : t.parts = s.parts := by
  exact State.written_parts rfl (fun _ => State.startMailbox_parts) h

theorem execStagefw_parts {s : State} {t} (h : execStagefw s = .next t) : t.parts = s.parts := by
  exact State.written_parts rfl (fun _ => State.startMailbox_parts) h

theorem execSensors_parts {s : State} {t} (h : execSensors s = .next t) : t.parts = s.parts := by
  exact State.written_parts rfl (fun _ => State.startMailbox_parts) h

theorem execMailboxComplete_parts {s : State} {t}
    (h : execMailboxComplete s = .next t) : t.parts = s.parts := by
  grind [execMailboxComplete, = State.raise_parts, = State.setReg_parts, = State.parts_mk, = Parts.fold]

theorem State.roWrite_parts {s : State} {r : Reg} {reserved : List (Nat × Nat)} {v : Dword} {t}
    (h : s.roWrite r reserved v = some t) : t.parts = s.parts := by
  unfold State.roWrite at h
  exact State.plainWrite_parts h

theorem State.writeCwerr_parts {s : State} {v : Dword} {t}
    (h : s.writeCwerr v = some t) : t.parts = s.parts := by
  unfold State.writeCwerr at h
  split at h <;> cases h
  rfl

theorem State.writeIntst_parts {s : State} {v : Dword} {t}
    (h : s.writeIntst v = some t) : t.parts = s.parts := by
  unfold State.writeIntst at h
  split at h <;> cases h
  rfl

theorem State.writeInten_parts {s : State} {v : Dword} {t}
    (h : s.writeInten v = some t) : t.parts = s.parts := by
  grind [State.writeInten, = State.setReg_parts, = State.hostWrite_parts]

theorem State.writePwrctl_parts {s : State} {v : Dword} {t}
    (h : s.writePwrctl v = some t) : t.parts = s.parts := by
  unfold State.writePwrctl at h
  split at h <;> cases h
  rfl

theorem State.writeMgwin_parts {s : State} {n : Nat} {v : Dword} {t}
    (h : s.writeMgwin n v = some t) : t.parts = s.parts := by
  simp only [State.writeMgwin] at h
  split at h
  · cases h
  · exact map_some_parts (fun _ => State.plainWrite_parts) (fun _ => by simp) h

theorem State.writeMbcmd_parts {s : State} {v : Dword} {t}
    (h : s.writeMbcmd v = some t) : t.parts = s.parts := by
  unfold State.writeMbcmd at h
  split at h
  · cases h
  · exact State.startMailbox_parts h

theorem State.writeAccspill_parts {s : State} {v : Dword} {t}
    (h : s.writeAccspill v = some t) : t.parts = s.parts := by
  unfold State.writeAccspill at h
  split at h
  · cases h
  · exact State.plainWrite_parts h

theorem State.writeDbgstat_parts {s : State} {v : Dword} {t}
    (h : s.writeDbgstat v = some t) : t.parts = s.parts := by
  unfold State.writeDbgstat at h
  split at h <;> cases h
  rfl

theorem State.writeThctl_parts {s : State} {d : Nat} {v : Dword} {t}
    (h : s.writeThctl d v = some t) : t.parts = s.parts := by
  simp only [State.writeThctl] at h
  split at h
  · cases h
  · exact map_some_parts (fun _ => State.plainWrite_parts) (fun _ => by simp) h

theorem State.writeLinkwin_parts {s : State} {n : Nat} {v : Dword} {t}
    (h : s.writeLinkwin n v = some t) : t.parts = s.parts := by
  grind [State.writeLinkwin, → State.plainWrite_parts]

theorem State.writeFqbase_parts {s : State} {c : Nat} {v : Dword} {t}
    (h : s.writeFqbase c v = some t) : t.parts = s.parts := by
  refine State.enWrite_parts (fun hr => ?_) h
  split at hr
  · cases hr
  · exact map_some_parts (fun _ => State.plainWrite_parts) (fun _ => by split <;> simp) hr

theorem State.writeCxsave_parts {s : State} {c : Nat} {v : Dword} {t}
    (h : s.writeCxsave c v = some t) : t.parts = s.parts := by
  unfold State.writeCxsave at h
  split at h
  · cases h
  · exact State.plainWrite_parts h

theorem State.writeCxasid_parts {s : State} {c : Nat} {v : Dword} {t}
    (h : s.writeCxasid c v = some t) : t.parts = s.parts := by
  unfold State.writeCxasid at h
  split at h
  · cases h
  · exact State.plainWrite_parts h

theorem State.writeSqbase_parts {s : State} {q : Nat} {v : Dword} {t}
    (h : s.writeSqbase q v = some t) : t.parts = s.parts := by
  refine map_some_parts (fun u hu => State.enWrite_parts (fun hr => ?_) hu) (fun _ => by simp) h
  split at hr
  · cases hr
  · exact State.plainWrite_parts hr

theorem State.writeSqctl_parts {s : State} {q : Nat} {v : Dword} {t}
    (h : s.writeSqctl q v = some t) : t.parts = s.parts := by
  unfold State.writeSqctl at h
  split at h
  · cases h
  · exact State.plainWrite_parts h

theorem State.writeDie_parts {s : State} {turnip : Bool} {d n : Nat} {v : Dword} {t}
    (h : s.writeDie turnip d n v = some t) : t.parts = s.parts := by
  unfold State.writeDie at h
  grind [→ State.writeThctl_parts, → State.roWrite_parts, → State.plainWrite_parts,
    → State.writeCjbase_parts, → State.writeCjtail_parts, → State.writeCjctl_parts,
    → State.writeTrbase_parts, → State.writeTrtail_parts, → State.writeTrctl_parts,
    → State.writeRtslot_parts]

theorem State.writeClu_parts {s : State} {c n : Nat} {v : Dword} {t}
    (h : s.writeClu c n v = some t) : t.parts = s.parts := by
  unfold State.writeClu at h
  grind [→ State.writeRqbase_parts, → State.writeRqctl_parts, → State.roWrite_parts,
    → State.writeRqtail_parts]

theorem State.writeCtx_parts {s : State} {c n : Nat} {v : Dword} {t}
    (h : s.writeCtx c n v = some t) : t.parts = s.parts := by
  unfold State.writeCtx at h
  grind [→ State.writeCxsched_parts, → State.plainWrite_parts, → State.writeFlctl_parts,
    → State.writeFlbase_parts, → State.writeFlhead_parts, → State.writeFltail_parts,
    → State.writeFlhigh_parts, → State.writeFlmap_parts, → State.writeFqbase_parts, → State.roWrite_parts,
    → State.writeFqtail_parts, → State.writeFqack_parts, → State.writeCxsave_parts,
    → State.writeCqbase_parts, → State.writeCqtail_parts, → State.writeCxrpl_parts,
    → State.writeCxasid_parts]

theorem State.writeQueue_parts {s : State} {q n : Nat} {v : Dword} {t}
    (h : s.writeQueue q n v = some t) : t.parts = s.parts := by
  unfold State.writeQueue at h
  grind [→ State.writeSqbase_parts, → State.writeSqctl_parts, → State.roWrite_parts,
    → State.writeSqtail_parts, → State.plainWrite_parts]

theorem State.writeBell_parts {s : State} {q n : Nat} {v : Dword} {t}
    (h : s.writeBell q n v = some t) : t.parts = s.parts := by
  unfold State.writeBell at h
  grind [→ State.writeSqtail_parts, → State.roWrite_parts, → State.writeCxrpl_parts]

/-! ## Issues -/

@[simp] theorem State.taint_parts (s : State) (p : Issue) (ms : List Member) :
    (s.taint p ms).parts = s.parts := by
  grind [State.taint, = State.setWave_parts, = State.setCrew_parts]

@[simp] theorem State.number_parts (s : State) (id : Nat) : (s.number id).parts = s.parts := by
  unfold State.number
  split <;> simp

theorem State.testLoops_parts {s : State} {p : Issue} {ms now : List Member} {t}
    (h : s.testLoops p ms now = .ok t) : t.parts = s.parts := by
  induction now generalizing s with
  | nil =>
    cases h
    rfl
  | cons m l ih => grind [State.testLoops, = State.setWave_parts, = State.testTargets_parts]

@[simp] theorem State.progressCrew_parts (s : State) (crew : Nat) :
    (s.progressCrew crew).parts = s.parts := by
  unfold State.progressCrew
  split <;> simp

@[simp] theorem State.endIssue_parts (s : State) (p : Issue) (ms now : List Member) (seq0 : Nat) :
    (s.endIssue p ms now seq0).parts = s.parts := by
  unfold State.endIssue
  dsimp only
  repeat' split
  all_goals simp

@[simp] theorem State.cutIssue_parts (s : State) (p : Issue) : (s.cutIssue p).parts = s.parts := by
  unfold State.cutIssue
  split
  · split <;> simp
  · split <;> simp

@[simp] theorem State.asideLanes_parts (s : State) (p : Issue) : (s.asideLanes p).parts = s.parts := by
  unfold State.asideLanes
  split <;> simp

@[simp] theorem State.combineLanes_parts (s : State) (p : Issue) (uc : Bool) :
    (s.combineLanes p uc).parts = s.parts := by
  unfold State.combineLanes
  split <;> simp

@[simp] theorem State.halfIssue_parts (s : State) (p : Issue) (m : Member) :
    (s.halfIssue p m).parts = s.parts := by
  unfold State.halfIssue
  split <;> simp

@[simp] theorem State.chosen_parts (s : State) (core quarter : Nat) (w : Wave) (t : Task) (g : Group)
    (over' : Bool) : (s.chosen core quarter w t g over').1.parts = s.parts := by
  simp [State.chosen]

@[simp] theorem State.countFair_parts (s : State) : (s.countFair).parts = s.parts := by
  grind [State.countFair, = State.parts_mk, = Parts.fold]

@[simp] theorem State.countHeld_parts (s : State) : (s.countHeld).parts = s.parts := by
  simp [State.countHeld]

@[simp] theorem State.passClock_parts (s : State) : (s.passClock).parts = s.parts := by
  unfold State.passClock
  split <;> simp

/-! ## Resets of the package and writes of its registers -/

@[simp] theorem State.packageReset_parts (s : State) (cause : Nat) : (s.packageReset cause).parts = .whole := by
  unfold State.packageReset
  dsimp only
  split <;> simpa using State.parts_reset

theorem State.writePkrst_whole {s t : State} {turnip : Bool} {v : Dword} (h : s.writePkrst turnip v = some t) :
    t.parts = .whole := by
  unfold State.writePkrst at h
  split at h <;> cases h
  simp

theorem State.writePkg_whole {s t : State} {turnip : Bool} {n : Nat} {v : Dword} (hs : s.parts = .whole)
    (h : s.writePkg turnip n v = some t) : t.parts = .whole := by
  unfold State.writePkg at h
  split at h
  case h_2 => exact State.writePkrst_whole h
  all_goals refine Eq.trans ?_ hs
  · exact State.writeCwerr_parts h
  · exact State.writeIntst_parts h
  · exact State.writeInten_parts h
  · exact State.plainWrite_parts h
  · exact State.writePwrctl_parts h
  · exact State.roWrite_parts h
  · split at h
    · cases h
    · exact State.roWrite_parts h
  · exact State.roWrite_parts h
  · split at h
    · cases h
    · exact State.plainWrite_parts h
  · split at h
    · cases h
    · exact State.writeMbcmd_parts h
  · split at h
    · cases h
    · exact State.writeMgwin_parts h
  · split at h
    · cases h
    · exact State.writeMgwin_parts h
  · split at h
    · cases h
    · exact State.writeMgwin_parts h
  · split at h
    · cases h
    · exact State.writeMgwin_parts h
  · exact State.plainWrite_parts h
  · exact State.writeMsinv_parts h
  · exact State.writeMsinv_parts h
  · exact State.writeMsinv_parts h
  · exact State.plainWrite_parts h
  · exact State.plainWrite_parts h
  · exact State.writeRmsec_parts h
  · exact State.plainWrite_parts h
  · exact State.writeAccspill_parts h
  · exact State.plainWrite_parts h
  · exact State.plainWrite_parts h
  · exact State.writeSnapctl_parts h
  · exact State.roWrite_parts h
  · exact State.plainWrite_parts h
  · cases h
    exact State.dbgDone_parts fun _ => State.writeDbgcmd_parts
  · exact State.writeDbgstat_parts h
  · exact State.plainWrite_parts h
  · cases h
    exact State.dbgDone_parts fun _ => State.windowAccess_parts
  · exact State.writeCpbp_parts h
  · exact State.writeCpbp_parts h
  · exact State.writeCpbp_parts h
  · exact State.writeCpbp_parts h
  · cases h

theorem State.writeReg_whole {s t : State} {by' : Agent} {r : Reg} {v : Dword} (hs : s.parts = .whole)
    (h : s.writeReg by' r v = some t) : t.parts = .whole := by
  unfold State.writeReg at h
  dsimp only at h
  split at h
  · exact (State.writeBell_parts h).trans hs
  · split at h
    · cases h
    · split at h
      · exact State.writePkg_whole hs h
      · exact (State.writeDie_parts h).trans hs
      · exact (State.writeClu_parts h).trans hs
      · split at h
        · cases h
        · exact (State.writeCcinj_parts h).trans hs
      · exact (State.writeLinkwin_parts h).trans hs
      · exact (State.writeCtx_parts h).trans hs
      · exact (State.writeQueue_parts h).trans hs
      · cases h

theorem execRegisterWrite_whole {s t : State} {by' : Agent} {off : Nat} {v : BitVec 64} (hs : s.parts = .whole)
    (h : execRegisterWrite by' off v s = .next t) : t.parts = .whole := by
  unfold execRegisterWrite at h
  split at h
  · cases h
    simpa using hs
  · next r _ =>
    split at h <;> cases h
    cases hw : s.writeReg by' r v with
    | none => simpa using hs
    | some u => exact State.writeReg_whole hs hw

theorem execPkrstWrite_whole {s t : State} {by' : Agent} {v : BitVec 64} (hs : s.parts = .whole)
    (h : execPkrstWrite by' v s = .next t) : t.parts = .whole := by
  refine State.written_parts hs (fun u hu => ?_) h
  split at hu
  · cases hu
  · exact State.writePkrst_whole hu

theorem execPowerOn_whole {s t : State} (h : execPowerOn s = .next t) : t.parts = .whole := by
  cases h
  simp

theorem execThermalShutdown_whole {s t : State} {d temp : Nat} (h : execThermalShutdown d temp s = .next t) :
    t.parts = .whole := by
  unfold execThermalShutdown at h
  split at h
  · cases h
  · split at h <;> cases h
    simp

/-! ## Instructions, issues and the step -/

theorem exec_whole {i : Instr} {s t : State} (hs : s.parts = .whole) (h : exec i s = .next t) :
    t.parts = .whole := by
  cases i
  case registerWrite => exact execRegisterWrite_whole hs h
  case pkrstWrite => exact execPkrstWrite_whole hs h
  case powerOn => exact execPowerOn_whole h
  case thermalShutdown => exact execThermalShutdown_whole h
  all_goals refine Eq.trans ?_ hs
  case nop hd => exact execNop_parts (_h := hd) h
  case br => exact execBr_parts h
  case bri => exact execBri_parts h
  case call => exact execCall_parts h
  case calli => exact execCalli_parts h
  case ret => exact execRet_parts h
  case loop => exact execLoop_parts h
  case loopPop => exact execLoopPop_parts h
  case exit => exact execExit_parts h
  case cont => exact execCont_parts h
  case yield => exact execYield_parts h
  case park => exact execPark_parts h
  case parkTimeout => exact execParkTimeout_parts h
  case sysc => exact execSysc_parts h
  case syscWait => exact execSyscWait_parts h
  case trap => exact execTrap_parts h
  case brk => exact execBrk_parts h
  case rdsr => exact execRdsr_parts h
  case wrsr => exact execWrsr_parts h
  case mode => exact execMode_parts h
  case join => exact execJoin_parts h
  case tenq => exact execTenq_parts h
  case sadd => unfold exec execSadd at h; exact uniInt_parts h
  case ssub => unfold exec execSsub at h; exact uniInt_parts h
  case smul => unfold exec execSmul at h; exact uniInt_parts h
  case smulh => unfold exec execSmulh at h; exact uniInt_parts h
  case sdiv => unfold exec execSdiv at h; exact uni2_parts h
  case srem => unfold exec execSrem at h; exact uniInt_parts h
  case sand => unfold exec execSand at h; exact uni2_parts h
  case sor => unfold exec execSor at h; exact uni2_parts h
  case sxor => unfold exec execSxor at h; exact uni2_parts h
  case sshl => unfold exec execSshl at h; exact uni2_parts h
  case sshr => unfold exec execSshr at h; exact uni2_parts h
  case ssra => unfold exec execSsra at h; exact uni2_parts h
  case smin => unfold exec execSmin at h; exact uniInt_parts h
  case smax => unfold exec execSmax at h; exact uniInt_parts h
  case smov => exact execSmov_parts h
  case sli => exact execSli_parts h
  case scmp => exact execScmp_parts h
  case ssel => exact execSsel_parts h
  case sbfe => exact execSbfe_parts h
  case spop => exact execSpop_parts h
  case sld => exact execSld_parts h
  case sst => exact execSst_parts h
  case add => unfold exec execAdd at h; exact vec2_parts h
  case sub => unfold exec execSub at h; exact vec2_parts h
  case mul => unfold exec execMul at h; exact vec2_parts h
  case mulh => unfold exec execMulh at h; exact vec2_parts h
  case mad => unfold exec execMad at h; exact vec3_parts h
  case div => unfold exec execDiv at h; exact vec2_parts h
  case rem => unfold exec execRem at h; exact vec2_parts h
  case addc => exact execAddc_parts h
  case subb => exact execSubb_parts h
  case and => unfold exec execAnd at h; exact vec2_parts h
  case or => unfold exec execOr at h; exact vec2_parts h
  case xor => unfold exec execXor at h; exact vec2_parts h
  case lop3 => exact execLop3_parts h
  case shl => unfold exec execShl at h; exact vec2_parts h
  case shr => unfold exec execShr at h; exact vec2_parts h
  case sra => unfold exec execSra at h; exact vec2_parts h
  case rot => unfold exec execRot at h; exact vec2_parts h
  case min => unfold exec execMin at h; exact vec2_parts h
  case max => unfold exec execMax at h; exact vec2_parts h
  case abs => unfold exec execAbs at h; exact vec1_parts h
  case popc => unfold exec execPopc at h; exact vec1_parts h
  case clz => unfold exec execClz at h; exact vec1_parts h
  case ctz => unfold exec execCtz at h; exact vec1_parts h
  case brev => unfold exec execBrev at h; exact vec1_parts h
  case bfe => unfold exec execBfe at h; exact vec2_parts h
  case bfi => unfold exec execBfi at h; exact vec3_parts h
  case sel => exact execSel_parts h
  case cmp => exact execCmp_parts h
  case mov => exact execMov_parts h
  case dot4 => unfold exec execDot4 at h; exact vec3_parts h
  case fadd => unfold exec execFadd at h; exact float2_parts h
  case fsub => unfold exec execFsub at h; exact float2_parts h
  case fmul => unfold exec execFmul at h; exact float2_parts h
  case fma => exact execFma_parts h
  case fmin => unfold exec execFmin at h; exact floatMinMax_parts h
  case fmax => unfold exec execFmax at h; exact floatMinMax_parts h
  case fcmp => exact execFcmp_parts h
  case fclass => exact execFclass_parts h
  case fdiv => exact execFdiv_parts h
  case fsqrt => exact execFsqrt_parts h
  case frcp => unfold exec execFrcp at h; exact special_parts h
  case frsq => unfold exec execFrsq at h; exact special_parts h
  case fex2 => unfold exec execFex2 at h; exact special_parts h
  case flg2 => unfold exec execFlg2 at h; exact special_parts h
  case fsin => unfold exec execFsin at h; exact special_parts h
  case fcos => unfold exec execFcos at h; exact special_parts h
  case frnd => exact execFrnd_parts h
  case fscl => exact execFscl_parts h
  case cvt => exact execCvt_parts h
  case fdot => exact execFdot_parts h
  case qswp => exact execQswp_parts h
  case shfl => exact execShfl_parts h
  case vote => exact execVote_parts h
  case kop => exact execKop_parts h
  case kcnt => exact execKcnt_parts h
  case kfst => exact execKfst_parts h
  case scan => exact execScan_parts h
  case wred => exact execWred_parts h
  case reord => exact execReord_parts h
  case kset => exact execKset_parts h
  case ld => exact execLd_parts h
  case st => exact execSt_parts h
  case stSy => exact execStSy_parts h
  case countedArrival => exact execCountedArrival_parts h
  case ldx => exact execLdx_parts h
  case stc => exact execStc_parts h
  case swp => exact execSwp_parts h
  case itx => exact execItx_parts h
  case itld => exact execItld_parts h
  case itst => exact execItst_parts h
  case atom => exact execAtom_parts h
  case red => exact execRed_parts h
  case redx => exact execRedx_parts h
  case fence => exact execFence_parts h
  case pref llc _ _ => exact execPref_parts (_llc := llc) h
  case sealRegion => exact execSealRegion_parts h
  case unsealRegion => exact execUnsealRegion_parts h
  case bar => exact execBar_parts h
  case cadd => exact execCadd_parts h
  case cwait => exact execCwait_parts h
  case cwaitSatisfied => exact execCwaitSatisfied_parts h
  case syarm => exact execSyarm_parts h
  case sywait => exact execSywait_parts h
  case chwait => exact execChwait_parts h
  case chtst => exact execChtst_parts h
  case qbind => exact execQbind_parts h
  case qfree => exact execQfree_parts h
  case qpoll => exact execQpoll_parts h
  case mfmt => exact execMfmt_parts h
  case mma => exact execMma_parts h
  case mmac => exact execMmac_parts h
  case mmacBlock => exact execMmacBlock_parts h
  case tld => exact execTld_parts h
  case tst => exact execTst_parts h
  case trow => exact execTrow_parts h
  case tzro => exact execTzro_parts h
  case wbld => exact execWbld_parts h
  case wbinv => exact execWbinv_parts h
  case mdrn => exact execMdrn_parts h
  case vmm => exact execVmm_parts h
  case mbst => exact execMbst_parts h
  case opfence => exact execOpfence_parts h
  case kmma => exact execKmma_parts h
  case engineCommandDone => exact execEngineCommandDone_parts h
  case enginePowerStep => exact execEnginePowerStep_parts h
  case smpl => exact execSmpl_parts h
  case smpg => exact execSmpg_parts h
  case smpq => exact execSmpq_parts h
  case latf => exact execLatf_parts h
  case wcpin => exact execWcpin_parts h
  case wcinv => exact execWcinv_parts h
  case trace => exact execTrace_parts h
  case rayWalkEnd => exact execRayWalkEnd_parts h
  case hitld => exact execHitld_parts h
  case vbld => exact execVbld_parts h
  case rng => exact execRng_parts h
  case rngset => exact execRngset_parts h
  case rngadv => exact execRngadv_parts h
  case rngget => exact execRngget_parts h
  case resultLand => exact execResultLand_parts h
  case sqtailDoorbell => exact execSqtailDoorbell_parts h
  case nopPacket => exact execNopPacket_parts h
  case submit => exact execSubmit_parts h
  case wait => exact execWait_parts h
  case waitSatisfied => exact execWaitSatisfied_parts h
  case signal => exact execSignal_parts h
  case signalPerform => exact execSignalPerform_parts h
  case fencePacket => exact execFencePacket_parts h
  case taskPlace => exact execTaskPlace_parts h
  case placementAgeLimit => exact execPlacementAgeLimit_parts h
  case balancerMove => exact execBalancerMove_parts h
  case copyInChunk => exact execCopyInChunk_parts h
  case taskRetire => exact execTaskRetire_parts h
  case regroupWaveLaunch => exact execRegroupWaveLaunch_parts h
  case regroupTimeout => exact execRegroupTimeout_parts h
  case timeSliceExpiry => exact execTimeSliceExpiry_parts h
  case contextRestore => exact execContextRestore_parts h
  case watchdogExpiry => exact execWatchdogExpiry_parts h
  case clusterGate => exact execClusterGate_parts h
  case mergeGroupClose => exact execMergeGroupClose_parts h
  case msinvGo => exact execMsinvGo_parts h
  case invalidationDone => exact execInvalidationDone_parts h
  case rmsecCommit => exact execRmsecCommit_parts h
  case linkTimeout => unfold exec execLinkTimeout at h; exact State.linkFail_parts h
  case linkDown => exact execLinkDown_parts h
  case linkErrorCompletion => unfold exec execLinkErrorCompletion at h; exact State.linkFail_parts h
  case hostRecall => exact execHostRecall_parts h
  case fqackResolve => exact execFqackResolve_parts h
  case fqackAbort => exact execFqackAbort_parts h
  case replyDoorbell => exact execReplyDoorbell_parts h
  case contextResident => exact execContextResident_parts h
  case contextRelease => exact execContextRelease_parts h
  case flctlEn => exact execFlctlEn_parts h
  case flctlRpl => exact execFlctlRpl_parts h
  case flctlEnd => exact execFlctlEnd_parts h
  case fltailWrite => exact execFltailWrite_parts h
  case flheadWrite => exact execFlheadWrite_parts h
  case replayDisc => exact execReplayDisc_parts h
  case halt => exact execHalt_parts h
  case haltctx => exact execHaltctx_parts h
  case resume => exact execResume_parts h
  case resumectx => exact execResumectx_parts h
  case step => exact execStep_parts h
  case stepc => exact execStepc_parts h
  case cancel => exact execCancel_parts h
  case debugWindowAccess => exact execDebugWindowAccess_parts h
  case cpbpGo => exact execCpbpGo_parts h
  case stopTick => exact execStopTick_parts h
  case snapctlSw => exact execSnapctlSw_parts h
  case snapshotLatch => exact execSnapshotLatch_parts h
  case traceSample => exact execTraceSample_parts h
  case ccinjGo => exact execCcinjGo_parts h
  case rqtailDoorbell => exact execRqtailDoorbell_parts h
  case rasterJob => exact execRasterJob_parts h
  case cjtailDoorbell => exact execCjtailDoorbell_parts h
  case copyJobStart => exact execCopyJobStart_parts h
  case cemove => unfold exec execCemove at h; exact State.rvRun_parts h
  case cesync => unfold exec execCesync at h; exact State.rvRun_parts h
  case transferDone => exact execTransferDone_parts h
  case ecall => unfold exec execEcall at h; exact State.rvRun_parts h
  case ebreak => unfold exec execEbreak at h; exact State.rvRun_parts h
  case copyJobTimeout => exact execCopyJobTimeout_parts h
  case rtslotLoad => exact execRtslotLoad_parts h
  case throttleSample => exact execThrottleSample_parts h
  case thermalTrip => exact execThermalTrip_parts h
  case attest => exact execAttest_parts h
  case loadslot => exact execLoadslot_parts h
  case stagefw => exact execStagefw_parts h
  case sensors => exact execSensors_parts h
  case mailboxComplete => exact execMailboxComplete_parts h
  case rv64gcInstruction => unfold exec execRv64gcInstruction at h; exact State.rvRun_parts h
  case fqtailWrite => exact execFqtailWrite_parts h
  case cqtailWrite => exact execCqtailWrite_parts h
  case linkTraining => exact execLinkTraining_parts h
  case peerRequest => exact execPeerRequest_parts h

theorem State.finish_parts {s s1 : State} {p : Parts} (hs : s.parts = p) (h1 : s1.parts = p) (x : Issue)
    (ms now : List Member)
    (seq0 : Nat) : (s.finish s1 x ms now seq0).parts = p := by
  unfold State.finish
  split
  · next h => simpa using (State.testLoops_parts h).trans h1
  · split <;> simpa using hs

theorem State.follow_parts (s s1 : State) (a : Act) : (s.follow a s1).parts = s1.parts := by
  unfold State.follow
  split <;> simp

theorem State.moved_parts (s s1 : State) (a : Act) (rest : List Act) :
    (s.moved a s1 rest).parts = s1.parts := by
  simpa [State.moved] using State.follow_parts s s1 a

section
variable {s t : State}

theorem State.runIssue_whole {p : Issue} {line : List Byte} {i : Instr} {j : Option Instr} {seq0 : Nat}
    (hs : s.parts = .whole)
    (h : s.runIssue p line i j seq0 = .next t) : t.parts = .whole := by
  unfold State.runIssue at h
  split at h
  · cases h
  · cases h
  · next s1 h1 =>
    have hw1 := exec_whole hs h1
    split at h
    · cases h
      simpa using hw1
    · split at h
      · cases h
        exact State.finish_parts hs hw1 ..
      · next p1 _ _ i2 =>
        have ha : State.parts { s1.asideLanes p with iss := some { p.second line with moved := p1.moved } } = .whole := by
          simpa using hw1
        dsimp only at h
        split at h
        · cases h
        · cases h
        · next s2 h2 =>
          have hw2 := exec_whole ha h2
          split at h
          · cases h
            exact State.finish_parts hs (by simpa using hw2) ..
          · split at h
            · cases h
            · cases h
            · next s3 h3 =>
              have hw3 := exec_whole (s := { s with iss := some (p.second line) }) hs h3
              cases h
              split
              · simpa using hw3
              · split
                · simpa using hw2
                · exact hs

theorem State.runSecond_whole {p : Issue} {line : List Byte} {i j : Instr} {seq0 : Nat} (hs : s.parts = .whole)
    (h : s.runSecond p line i j seq0 = .next t) : t.parts = .whole := by
  unfold State.runSecond at h
  dsimp only at h
  split at h
  · cases h
  · cases h
  · next s1 h1 =>
    have hw1 := exec_whole (s := { s with iss := some (p.second line) }) hs h1
    split at h <;> cases h
    · simpa using hw1
    · exact State.finish_parts hs hw1 ..

theorem State.issueGroup_whole {w : Wave} {k : Crew} {x : Task} {g : Group} (hs : s.parts = .whole)
    (h : s.issueGroup w k x g = .next t) : t.parts = .whole := by
  unfold State.issueGroup at h
  dsimp only at h
  split at h
  · cases h
    simpa using hs
  · split at h
    · cases h
      simpa using hs
    · next line s1 hr =>
      have h1 : s1.parts = .whole := (State.gRead_parts hr).trans hs
      split at h
      · cases h
        simpa using h1
      · split at h
        · exact State.runSecond_whole (by exact h1) h
        · exact State.runIssue_whole (by exact h1) h

theorem State.issue_whole {core quarter : Nat} (hs : s.parts = .whole) (h : s.issue core quarter = .next t) :
    t.parts = .whole := by
  unfold State.issue at h
  split at h
  · cases h
  · split at h
    · cases h
    · split at h
      · cases h
      · split at h
        · cases h
        · split at h
          · cases h
          · dsimp only at h
            split at h
            · cases h
            · exact State.issueGroup_whole (by simpa using hs) h

theorem State.doAct_whole {a : Act} (hs : s.parts = .whole) (h : s.doAct a = .next t) : t.parts = .whole := by
  cases a with
  | event i => exact exec_whole hs h
  | leave r pos => exact (State.leave_parts h).trans hs
  | issue core quarter => exact State.issue_whole hs h
  | clock =>
    cases h
    simpa using hs

theorem State.firstAct_whole {l : List Act} {x : Act × State} (hs : s.parts = .whole)
    (h : s.firstAct l = some x) :
    x.2.parts = .whole := by
  induction l with
  | nil => cases h
  | cons a l ih =>
    unfold State.firstAct at h
    split at h
    · next ha =>
      cases h
      exact State.doAct_whole hs ha
    · exact ih h

theorem State.pick_whole {n k : Nat} {x : Act × State} (hs : s.parts = .whole) (h : s.pick n k = some x) :
    x.2.parts = .whole := by
  induction n generalizing k with
  | zero => cases h
  | succ n ih =>
    unfold State.pick at h
    dsimp only at h
    split at h
    · next hf =>
      cases h
      exact State.firstAct_whole hs hf
    · exact ih h

theorem State.auto_whole (hs : s.parts = .whole) : s.auto.2.parts = .whole := by
  unfold State.auto
  split
  · simp
  · cases hp : s.pick kinds s.freeN with
    | none => simpa using hs
    | some x => exact State.pick_whole hs hp

theorem State.move_whole (hs : s.parts = .whole) (h : s.move = .next t) : t.parts = .whole := by
  unfold State.move at h
  split at h
  · split at h
    · cases h
    · split at h <;> cases h
      next ha => exact (State.moved_parts ..).trans (State.doAct_whole hs ha)
  · split at h <;> cases h
    exact (State.moved_parts ..).trans (State.auto_whole hs)
end

/-- Settles O56: a step leaves the numbers of parts as they are or, where it resets the package, gives those of R1. -/
theorem stepKeepsParts : Obligations.StepKeepsParts := by
  unfold Obligations.StepKeepsParts
  intro s t hs h
  rw [State.partsOk_iff] at hs ⊢
  exact State.move_whole hs h

end Sys2Proof.Machine
end

section
/-! How a computed result lands (RESULT_LAND). -/

namespace Sys2Proof.Machine

/-! ## Words in consecutive registers -/

/-- The words of a result in the registers of a thread from r on, as `Wave.putRow` writes them. -/
def Thread.setRow (th : Thread) (r : Nat) (ws : List (Word × Nat)) : Thread :=
  ws.foldl (fun th p => th.setV (r + p.2) false p.1.toNat) th

theorem Thread.setRow_rest (th : Thread) (r : Nat) (ws : List (Word × Nat)) :
    { th.setRow r ws with v := th.v } = th := by
  induction ws generalizing th with
  | nil => rfl
  | cons p ws ih => exact congrArg (fun u : Thread => { u with v := th.v }) (ih (th.setV (r + p.2) false p.1.toNat))

theorem Thread.setRow_v (th : Thread) (r k n : Nat) (ws : List Word) (h : r + k + ws.length ≤ th.v.length) :
    getAt (th.setRow r (ws.zipIdx k)).v n 0 =
      if r + k ≤ n ∧ n < r + k + ws.length then getAt ws (n - (r + k)) 0 else getAt th.v n 0 := by
  induction ws generalizing th k with
  | nil => simp [Thread.setRow, show ¬ (r + k ≤ n ∧ n < r + k) by omega]
  | cons w ws ih =>
    have hlen : (th.setV (r + k) false w.toNat).v.length = th.v.length := by simp [Thread.setV]
    simp only [List.length_cons] at h
    have hrest := ih (th.setV (r + k) false w.toNat) (k + 1) (by omega)
    have hfirst := Thread.setV_v th (r + k) false w.toNat n (by simp; omega)
    simp only [Thread.setRow, List.zipIdx_cons, List.foldl_cons, List.length_cons] at hrest ⊢
    rw [hrest, hfirst]
    obtain hn | rfl | hn : n < r + k ∨ n = r + k ∨ r + k < n := by omega
    · simp [show ¬ r + (k + 1) ≤ n by omega, show ¬ r + k ≤ n by omega, show n ≠ r + k by omega]
    · simp [getAt, show ¬ r + (k + 1) ≤ r + k by omega]
    · obtain ⟨m, rfl⟩ : ∃ m, n = r + k + 1 + m := ⟨n - (r + k + 1), by omega⟩
      have h1 : r + k + 1 + m - (r + (k + 1)) = m := by omega
      have h2 : r + k + 1 + m - (r + k) = m + 1 := by omega
      have h3 : (r + (k + 1) ≤ r + k + 1 + m ∧ r + k + 1 + m < r + (k + 1) + ws.length)
          ↔ (r + k ≤ r + k + 1 + m ∧ r + k + 1 + m < r + k + (ws.length + 1)) := by omega
      simp [h1, h2, h3, getAt, show r + k + 1 + m ≠ r + k by omega]

/-! ## One lane of a wave -/

theorem getLsbD_lane {l i : Nat} (hl : l < 64) : (1#64 <<< l).getLsbD i = decide (i = l) := by
  simp only [BitVec.getLsbD_shiftLeft, BitVec.getLsbD_one]
  by_cases h : i = l
  · subst h; simp [hl]
  · simp [h]; omega

theorem Wave.shape_width {w : Wave} {h : Header} (hs : w.shapeOk h = true) : w.width ≤ 64 := by
  simp only [Wave.shapeOk, Bool.and_eq_true, Bool.or_eq_true, beq_iff_eq] at hs
  omega

theorem Wave.shape_sp {w : Wave} {h : Header} (hs : w.shapeOk h = true) : w.sp.length = h.swp := by
  simp only [Wave.shapeOk, Bool.and_eq_true, beq_iff_eq] at hs
  exact hs.1.1.2

theorem Crew.shape_ss {k : Crew} (hs : k.shapeOk = true) : k.ss.length = k.hdr.scr := by
  simp only [Crew.shapeOk, Bool.and_eq_true, beq_iff_eq] at hs
  exact hs.1.1

theorem Wave.putRow_eq (w : Wave) (m : BitVec 64) (d : Opd) (f : Nat → List Word) :
    w.putRow m d f = match d with
      | .v n => w.each m fun l th => th.setRow n.val (f l).zipIdx
      | _ => w := by
  cases d <;> rfl

@[simp] theorem Wave.putRow_id (w : Wave) (m : BitVec 64) (d : Opd) (f : Nat → List Word) :
    (w.putRow m d f).id = w.id := by
  cases d <;> rfl

theorem Wave.putRow_th_rest (w : Wave) (m : BitVec 64) (d : Opd) (f : Nat → List Word) {l : Nat}
    (hl : l < w.threads.length) : { (w.putRow m d f).th l with v := (w.th l).v } = w.th l := by
  rw [Wave.putRow_eq]
  split
  · rw [Wave.each_th _ _ _ _ hl]
    split
    · exact Thread.setRow_rest ..
    · rfl
  · rfl

/-- The v registers of a thread after `putRow` for one lane. -/
theorem Wave.putRow_v (w : Wave) {lane : Nat} (hlane : lane < 64) (d : Opd) (ws : List Word) {l n : Nat}
    (hl : l < w.threads.length) (hd : ∀ r, d = .v r → r.val + ws.length ≤ (w.th l).v.length) :
    getAt ((w.putRow (1#64 <<< lane) d fun _ => ws).th l).v n 0 = match (generalizing := false) d with
      | .v r => if l = lane ∧ r.val ≤ n ∧ n < r.val + ws.length then getAt ws (n - r.val) 0
          else getAt (w.th l).v n 0
      | _ => getAt (w.th l).v n 0 := by
  rw [Wave.putRow_eq]
  cases d with
  | v r =>
    dsimp only
    rw [Wave.each_th _ _ _ _ hl, getLsbD_lane hlane]
    by_cases h : l = lane
    · simpa [h] using Thread.setRow_v (w.th l) r.val 0 n ws (by simpa using hd r rfl)
    · simp [h]
  | _ => rfl

theorem Wave.putRow_th_helper (w : Wave) (m : BitVec 64) (d : Opd) (f : Nat → List Word) {l : Nat}
    (hl : l < w.threads.length) : ((w.putRow m d f).th l).helper = (w.th l).helper := by
  rw [← Wave.putRow_th_rest w m d f hl]

theorem Wave.putRow_fflags (w : Wave) (m : BitVec 64) (d : Opd) (f : Nat → List Word) :
    (w.putRow m d f).fflags = w.fflags := by
  cases d <;> rfl

/-- The flags that one lane raises. -/
theorem orFlags_lane (w : Wave) {lane : Nat} (hlane : lane < 64) (fl : Dword) (b : Nat) :
    (w.orFlags (1#64 <<< lane) fun _ => fl).fflags.getLsbD b
      = (w.fflags.getLsbD b || (!(w.th lane).helper && fl.getLsbD b)) := by
  rw [orFlags_eq]
  congr 1
  rw [Bool.eq_iff_iff, List.any_eq_true]
  simp only [List.mem_range, getLsbD_lane hlane, Bool.and_eq_true, decide_eq_true_eq]
  constructor
  · rintro ⟨l, -, ⟨rfl, h⟩, hb⟩
    exact ⟨h, hb⟩
  · rintro ⟨h, hb⟩
    exact ⟨lane, hlane, ⟨rfl, h⟩, hb⟩

/-! ## The wave after a landing -/

/-- The wave of a landing result with its words in their registers, its flags raised and the result gone. -/
def Land.filled (x : Land) (pos : Nat) : Wave :=
  ((x.w.putRow (1#64 <<< x.p.lane) x.p.dst fun _ => x.p.ext).orFlags (1#64 <<< x.p.lane) fun _ => x.p.flags).drop pos

@[simp] theorem Land.filled_id (x : Land) (pos : Nat) : (x.filled pos).id = x.w.id :=
  Wave.putRow_id ..

theorem Land.filled_rest (x : Land) (pos : Nat) :
    { x.filled pos with
      threads := x.w.threads
      out := x.w.out
      fflags := x.w.fflags } = x.w := by
  unfold Land.filled
  cases x.p.dst <;> rfl

theorem Land.filled_out (x : Land) (pos : Nat) : (x.filled pos).out = x.w.out.eraseIdx pos := by
  unfold Land.filled
  cases x.p.dst <;> rfl

theorem Land.filled_k (x : Land) (pos : Nat) : (x.filled pos).k = x.w.k := by
  unfold Land.filled
  cases x.p.dst <;> rfl

theorem State.land?_crew {s : State} {core wslot pos : Nat} {x : Land} (h : s.land? core wslot pos = some x) :
    s.crew? x.w.crew = some x.k := by
  unfold State.land? at h
  split at h
  · cases h
  · split at h
    · next hk =>
      split at h <;> cases h
      exact hk
    · cases h

/-- A result that landed in v registers, or nowhere: everything that it does. -/
theorem landed_filled {s : State} {core wslot pos : Nat} {x : Land} (h : Landing s core wslot pos x)
    (hd : ∀ r, x.p.dst = .v r → r.val + x.p.ext.length ≤ x.k.hdr.vregs) :
    Landed s (s.setWave (x.filled pos)) x pos x.p.dst x.p.ext x.p.flags := by
  obtain ⟨-, hw, hshape, -, -, -, hlane⟩ := h
  have h64 : x.p.lane < 64 := Nat.lt_of_lt_of_le hlane (Wave.shape_width hshape)
  have hlen (l : Nat) (hl : l < x.w.width) : l < x.w.threads.length := by
    rw [Wave.shape_threads hshape]; exact hl
  refine ⟨x.filled_id pos ▸ sameBesideWave, x.filled pos, ?_, x.filled_rest pos, x.filled_out pos, ?_, fun l hl => ?_⟩
  · have := State.wave?_setWave (s := s) (w := x.filled pos) (x := x.w) (by rw [x.filled_id]; exact hw)
    rwa [x.filled_id] at this
  · intro b
    rw [← Wave.putRow_th_helper x.w (1#64 <<< x.p.lane) x.p.dst (fun _ => x.p.ext) (hlen _ hlane),
      ← Wave.putRow_fflags x.w (1#64 <<< x.p.lane) x.p.dst fun _ => x.p.ext]
    exact orFlags_lane _ h64 _ _
  · constructor
    · have := Wave.putRow_th_rest x.w (1#64 <<< x.p.lane) x.p.dst (fun _ => x.p.ext) (hlen l hl)
      exact congrArg (fun u : Thread => { u with ord := (x.w.th l).ord }) this
    · intro n
      exact Wave.putRow_v x.w h64 x.p.dst x.p.ext (hlen l hl) fun r hr => by
        rw [Wave.shape_v hshape hl]; exact hd r hr

/-! ## RESULT_LAND of a computed result -/

/-- A computed result that does not wait for its thread's marker lands at once. -/
theorem exec_resultLand_done {s : State} {core wslot pos : Nat} {x : Land} (h : Landing s core wslot pos x)
    (hdone : x.p.done = true) (hseg : segmented x.p.i = false) (hkept : samples x.p.i = true → x.p.c ≠ 3) :
    exec (.resultLand core wslot pos) s = .next ((s.landDone x).dropPend x.w.id pos) := by
  obtain ⟨hland, -, -, -, hheld, hpart, -⟩ := h
  show execResultLand core wslot pos s = _
  unfold execResultLand
  rw [hland]
  cases hs : samples x.p.i with
  | false => simp [hdone, hseg, hheld, hs]
  | true =>
    have h2 : ¬ x.p.c = 2 := hpart hs
    have h3 : ¬ x.p.c = 3 := hkept hs
    simp only [hdone, hseg, hheld, hs, h2, h3, decide_false, Bool.and_false, Bool.true_and, Bool.or_false,
      Bool.false_eq_true, if_false]
    rfl

theorem State.landDone_eq {s : State} {x : Land} {w : Wave}
    (hw : (s.result x.w.id x.p.lane x.p.dst x.p.ext).wave? x.w.id = some w)
    (hk : ∀ o y, x.p.i = .shfl o y → y.kout = 0) :
    s.landDone x = (s.result x.w.id x.p.lane x.p.dst x.p.ext).setWave
      (w.orFlags (1#64 <<< x.p.lane) fun _ => x.p.flags) := by
  unfold State.landDone
  simp only [hw]
  congr 1
  split
  · next o y hi => rw [if_pos (hk o y hi)]
  · rfl

theorem State.landDone_shfl {s : State} {x : Land} {w : Wave} {o : ShflOp} {y : Shfl}
    (hw : (s.result x.w.id x.p.lane x.p.dst x.p.ext).wave? x.w.id = some w) (hi : x.p.i = .shfl o y)
    (hk : y.kout ≠ 0) :
    s.landDone x = (s.result x.w.id x.p.lane x.p.dst x.p.ext).setWave
      ((w.orFlags (1#64 <<< x.p.lane) fun _ => x.p.flags).setK y.kout.val (1#64 <<< x.p.lane) 0
        (if x.p.c = 1 then BitVec.allOnes 64 else 0)) := by
  unfold State.landDone
  simp only [hw, hi, if_neg hk]

theorem State.dropPend_eq {s : State} {id pos : Nat} {w : Wave} (h : s.wave? id = some w) :
    s.dropPend id pos = s.setWave (w.drop pos) := by
  simp only [State.dropPend, h]

/-- A result in v registers, or nowhere, as it lands. -/
theorem State.result_eq {s : State} {id l : Nat} {d : Opd} {ws : List Word} {w : Wave} (hw : s.wave? id = some w)
    (hd : ∀ r, d ≠ .s r) : s.result id l d ws = s.setWave (w.putRow (1#64 <<< l) d fun _ => ws) := by
  unfold State.result
  rw [hw]
  cases d with
  | s r => exact absurd rfl (hd r)
  | _ => rfl

/-- Two replacements of a wave, and then its loss of a result, are one replacement. -/
theorem State.setWave_setWave_dropPend {s : State} {a b w0 : Wave} {pos : Nat} (hw : s.wave? b.id = some w0)
    (h : a.id = b.id) : ((s.setWave a).setWave b).dropPend b.id pos = s.setWave (b.drop pos) := by
  rw [State.setWave_setWave s a b h, State.dropPend_eq (State.wave?_setWave hw)]
  exact State.setWave_setWave s b (b.drop pos) rfl

/-- The landing of a result that is not in an s register: its wave, and of shfl its validity bits. -/
theorem landDone_filled {s : State} {core wslot pos : Nat} {x : Land} (h : Landing s core wslot pos x)
    (hd : ∀ r, x.p.dst ≠ .s r) :
    ((∀ o y, x.p.i = .shfl o y → y.kout = 0) →
      (s.landDone x).dropPend x.w.id pos = s.setWave (x.filled pos))
    ∧ ∀ o y, x.p.i = .shfl o y → y.kout ≠ 0 →
      (s.landDone x).dropPend x.w.id pos = s.setWave ((x.filled pos).setK y.kout.val (1#64 <<< x.p.lane) 0
        (if x.p.c = 1 then BitVec.allOnes 64 else 0)) := by
  obtain ⟨-, hw, -⟩ := h
  let w1 := x.w.putRow (1#64 <<< x.p.lane) x.p.dst fun _ => x.p.ext
  have hid : w1.id = x.w.id := Wave.putRow_id ..
  have hres := State.result_eq (l := x.p.lane) (ws := x.p.ext) hw hd
  have hw1 : (s.result x.w.id x.p.lane x.p.dst x.p.ext).wave? x.w.id = some w1 := by
    rw [hres, ← hid]
    exact State.wave?_setWave (by rw [hid]; exact hw)
  constructor
  · intro hk
    rw [State.landDone_eq hw1 hk, hres, ← hid]
    exact State.setWave_setWave_dropPend (b := w1.orFlags _ _) (by rw [← hid] at hw; exact hw) rfl
  · intro o y hi hk
    have hk' : y.kout.val ≠ 0 := fun h0 => hk (Fin.ext h0)
    rw [State.landDone_shfl hw1 hi hk, hres, ← hid]
    simp only [Wave.setK, if_neg hk']
    exact State.setWave_setWave_dropPend (by rw [← hid] at hw; exact hw) rfl

/-- The bits of a mask register that one lane writes. -/
theorem Wave.setK_lane {w : Wave} {n lane : Nat} (hlane : lane < 64) (hn : n ≠ 0) (hk : n - 1 < w.k.length)
    (bits : BitVec 64) {m l : Nat} (hm : 0 < m) (hl : l < 64) :
    (getAt (w.setK n (1#64 <<< lane) 0 bits).k (m - 1) 0).getLsbD l =
      if m = n ∧ l = lane then bits.getLsbD l else (getAt w.k (m - 1) 0).getLsbD l := by
  simp only [Wave.setK, if_neg hn, updAt]
  by_cases hmn : m = n
  · subst hmn
    simp only [getAt, List.getD, List.getElem?_modify, List.getElem?_eq_getElem hk, if_true, Option.map_eq_map,
      Option.map_some, Option.getD_some, BitVec.getLsbD_or, BitVec.getLsbD_and, BitVec.getLsbD_not, getLsbD_lane hlane]
    by_cases hll : l = lane <;> simp [hll, hl, hlane]
  · have h1 : ¬ n - 1 = m - 1 := by omega
    simp [getAt, List.getD, hmn, h1]

/-! ## Uniform results -/

/-- The uniform registers that a wave reads, from the wave and its crew. -/
theorem State.sreg_of {s : State} {id n : Nat} {w : Wave} {k : Crew} (hw : s.wave? id = some w)
    (hk : s.crew? w.crew = some k) :
    s.sreg id n = if n < 64 then getAt w.sp n 0 else getAt k.ss (n - 64) 0 := by
  simp only [State.sreg, hw, hk]

/-- A wave that keeps its uniform registers and its crew reads the same of them. -/
theorem State.sreg_setWave {s : State} {w w0 : Wave} (hw : s.wave? w.id = some w0) (hsp : w.sp = w0.sp)
    (hc : w.crew = w0.crew) (n : Nat) : (s.setWave w).sreg w.id n = s.sreg w.id n := by
  simp only [State.sreg, State.wave?_setWave hw, hw, hsp, hc, State.crew?_setWave]

theorem State.sreg_dropPend (s : State) (id pos n : Nat) : (s.dropPend id pos).sreg id n = s.sreg id n := by
  unfold State.dropPend
  split
  · next w hw =>
    have hid := State.wave?_id hw
    subst hid
    exact State.sreg_setWave (w := w.drop pos) hw rfl rfl n
  · rfl

/-- A uniform result: its register takes the value, and the others of the wave read as before. -/
theorem State.sreg_landS {s : State} {w : Wave} {k : Crew} (hw : s.wave? w.id = some w)
    (hk : s.crew? w.crew = some k) (hws : w.shapeOk k.hdr = true) (hks : k.shapeOk = true) {r : Fin 512}
    (hr : if r.val < 64 then r.val < k.hdr.swp else r.val - 64 < k.hdr.scr) (v : Dword) (n : Nat) :
    (s.landS w (.s r) v).sreg w.id n = if n = r.val then v else s.sreg w.id n := by
  rw [State.sreg_of hw hk]
  by_cases h64 : r.val < 64
  · simp only [State.landS, if_pos h64] at hr ⊢
    rw [State.sreg_of (w := { w with sp := w.sp.set r.val v }) (State.wave?_setWave hw) hk,
      getAt_set _ _ _ _ _ (by rw [Wave.shape_sp hws]; exact hr)]
    by_cases hn : n < 64 <;> simp [hn]
    omega
  · have hid := State.crew?_id hk
    simp only [State.landS, if_neg h64, hk] at hr ⊢
    have hk1 : ((s.setWave w).setCrew { k with ss := k.ss.set (r.val - 64) v }).crew? w.crew
        = some { k with ss := k.ss.set (r.val - 64) v } := by
      rw [← hid]
      exact State.crew?_setCrew (x := k) (by rw [← hid] at hk; exact hk)
    have hw1 : ((s.setWave w).setCrew { k with ss := k.ss.set (r.val - 64) v }).wave? w.id = some w :=
      State.wave?_setWave hw
    rw [State.sreg_of hw1 hk1,
      getAt_set _ _ _ _ _ (by rw [Crew.shape_ss hks]; exact hr)]
    by_cases hn : n < 64
    · simp [hn, show n ≠ r.val by omega]
    · simp [hn, show n - 64 = r.val - 64 ↔ n = r.val by omega]

theorem State.wave?_landS {s : State} {w : Wave} (hw : s.wave? w.id = some w) (d : Opd) (v : Dword) :
    ∃ w1, (s.landS w d v).wave? w.id = some w1 := by
  unfold State.landS
  split
  · split
    · exact ⟨_, State.wave?_setWave (w := { w with sp := _ }) hw⟩
    · split <;> exact ⟨w, State.wave?_setWave hw⟩
  · exact ⟨w, State.wave?_setWave hw⟩

/-- A result in an s register as it lands. -/
theorem sreg_landDone {s : State} {core wslot pos : Nat} {x : Land} (h : Landing s core wslot pos x)
    {r : Fin 512} {lo hi : Word} (hd : x.p.dst = .s r)
    (hr : if r.val < 64 then r.val < x.k.hdr.swp else r.val - 64 < x.k.hdr.scr) (he : x.p.ext = [lo, hi])
    (hk : ∀ o y, x.p.i ≠ .shfl o y) (n : Nat) :
    ((s.landDone x).dropPend x.w.id pos).sreg x.w.id n = if n = r.val then hi ++ lo else s.sreg x.w.id n := by
  obtain ⟨hland, hw, hws, hks, -⟩ := h
  have hres : s.result x.w.id x.p.lane x.p.dst x.p.ext = s.landS x.w (.s r) (hi ++ lo) := by
    simp only [State.result, hw, hd, he]
    rfl
  obtain ⟨w1, hw1⟩ := State.wave?_landS hw (.s r) (hi ++ lo)
  have hid := State.wave?_id hw1
  rw [State.sreg_dropPend, State.landDone_eq (w := w1) (by rw [hres]; exact hw1) (fun o y hi => absurd hi (hk o y)),
    hres, ← State.sreg_landS hw (State.land?_crew hland) hws hks hr, ← hid]
  rw [← hid] at hw1
  exact State.sreg_setWave (w := w1.orFlags _ _) hw1 rfl rfl n

/-- Settles O22: a computed result lands in the v registers of its lane, or in its s register, raises its flags, and
of shfl sets its validity bit; nothing else of its wave changes. -/
theorem landedResults : Obligations.LandedResults := by
  unfold Obligations.LandedResults
  intro s core wslot pos x h hdone hseg hkept
  have hexec := exec_resultLand_done h hdone hseg hkept
  have ⟨_, hw, hshape, _, _, _, hlane⟩ := h
  refine ⟨fun hk hs hv => ?_, fun o y hi hk hs hv => ?_, fun r lo hi hd hr he hk => ?_⟩
  · exact ⟨_, (landDone_filled h hs).1 hk ▸ hexec, landed_filled h hv⟩
  · let w := (x.filled pos).setK y.kout.val (1#64 <<< x.p.lane) 0 (if x.p.c = 1 then BitVec.allOnes 64 else 0)
    have hk0 : y.kout.val ≠ 0 := fun h0 => hk (Fin.ext h0)
    have hwk : { w with k := x.w.k } = x.filled pos := by
      simp only [w, Wave.setK, if_neg hk0, ← x.filled_k pos]
    have hwid : w.id = x.w.id := (congrArg Wave.id hwk).trans (x.filled_id pos)
    refine ⟨s.setWave w, w, (landDone_filled h hs).2 o y hi hk ▸ hexec, ?_, ?_, fun n l hn hl => ?_⟩
    · rw [← hwid]
      exact State.wave?_setWave (by rw [hwid]; exact hw)
    · rw [hwk, State.setWave_setWave s w (x.filled pos) (by rw [hwid, x.filled_id])]
      exact landed_filled h hv
    · have hlen : y.kout.val - 1 < (x.filled pos).k.length := by
        rw [x.filled_k, Wave.shape_k hshape]
        omega
      have hbit : (if x.p.c = 1 then BitVec.allOnes 64 else 0).getLsbD l = decide (x.p.c = 1) := by
        split
        · next hc => rw [BitVec.getLsbD_allOnes, decide_eq_true hl, decide_eq_true hc]
        · next hc => rw [decide_eq_false hc]; exact BitVec.getLsbD_zero
      rw [Wave.setK_lane (Nat.lt_of_lt_of_le hlane (Wave.shape_width hshape)) hk0 hlen _ hn hl, x.filled_k, hbit]
  · refine ⟨_, hexec, ?_, fun n hn => ?_⟩
    · rw [sreg_landDone h hd hr he hk, if_pos rfl]
    · rw [sreg_landDone h hd hr he hk, if_neg hn]

end Sys2Proof.Machine
end


section
/-! A long instruction whose progress lies beyond its segments, and the address of its next element: `stc` with
PROG = 2^28 stores 64-bit elements, of which the next is number 2^28, at 2^31 bytes from the base. -/

namespace Sys2Proof.Machine

/-! ## The first issue of a segment of stc -/

/-- Accesses entered one after the other. -/
theorem Wave.foldl_push_map {α : Type} (f : α → Pend) (ps : List α) (w : Wave) :
    ps.foldl (fun w p => w.push (f p)) w = { w with out := w.out ++ ps.map f } := by
  induction ps generalizing w with
  | nil => simp
  | cons p ps ih =>
    rw [List.foldl_cons, ih]
    simp [Wave.push]

/-- The accesses of a segment of ldx or stc, after those that the wave has. -/
theorem Env.expand_eq (e : Env) (s : State) (i : Instr) (x : Expand) (k : Nat) :
    e.expand s i x k = { e.w with
      out := e.w.out ++ (e.elems s x k).map fun p =>
        { access i e.p.slot p.1 (e.elemAddr s x p.2) (e.src s p.1 x.ty.wide (dataOpd x k)) 0 with
          dst := dataOpd x k } } :=
  Wave.foldl_push_map ..

/-- The first issue of a segment of stc that meets no fault: the accesses of the segment are entered (R167). -/
theorem execStc_first {s : State} {e : Env} {x : Expand} (he : s.env? = some e) (hm : e.real (e.guard x.h) ≠ 0)
    (hf : e.segFault = none) (hseg : e.lead1.seg = 0) (hskew : e.skewed s x true = none) :
    ∃ t w, exec (.stc x) s = .next t ∧ t.wave? e.w.id = some w
      ∧ w.out = e.w.out ++ (e.elems s x e.prog).map fun p =>
        { access (.stc x) e.p.slot p.1 (e.elemAddr s x p.2) (e.src s p.1 x.ty.wide (dataOpd x e.prog)) 0 with
          dst := dataOpd x e.prog } := by
  obtain ⟨-, hw, -⟩ := State.env?_eq he
  let w1 : Wave := (e.expand s (.stc x) x e.prog).each e.p.lanes fun _ th => { th with
    run := .hold .land
    seg := 1 }
  have hid : w1.id = e.w.id := by simp only [w1, Env.expand_eq, Wave.each]
  refine ⟨(s.setWave w1).stopIssue, w1, ?_, ?_, by simp only [w1, Env.expand_eq, Wave.each]⟩
  · show execStc x s = _
    exact onIssue_next he (by simp only [hm, if_false, hf, hseg, ne_eq, not_true_eq_false, hskew]; rfl)
  · rw [← hid]
    exact State.wave?_setWave (by rw [hid]; exact hw)

/-! ## A group far beyond the last segment -/

/-- stc.b64 of one segment: v0 and its predicate in v0, to the address in s0. -/
def farStc : Expand :=
  { h := ⟨false, 0, false⟩, ty := .b64, sp := .glob, r := .v 0, a := .s 0, c := .v 0, cnt := .s 1, n := 1 }

/-- A kernel header that declares k + 1 vector registers and two uniform ones. -/
def farHeader (k : Nat) : Header := { probeHeader with
  vregs := k + 1
  swp := 2
  scr := 0
  nbar := 0
  niter := 0 }

/-- A thread with INP = 1 and PROG = k, whose predicates are all set. -/
def farThread (k : Nat) : Thread := { Thread.absent with
  run := .ready
  v := List.replicate (k + 1) 1
  pix := pixAt k }

/-- The issue of lane 0 of a wave of such threads. -/
def farEnv (k : Nat) : Env where
  p := { wave := 2, lanes := 1, slot := 0, first := 0, next := 1, pair := false, word := 0, lineWord := 0, mode := 1,
         masks := List.replicate 16 (BitVec.allOnes 64), inp := true, moved := 0 }
  w := Wave.launch 2 1 0 0 0 0 (farHeader k) 1 (List.replicate 16 (farThread k))
  k := Crew.launch 1 0 0 0 false (farHeader k) [] 0 0
  t := probeTask 0

def farState (k : Nat) : State := { State.reset with
  waves := [(farEnv k).w]
  crews := [(farEnv k).k]
  tasks := [(farEnv k).t]
  iss := some (farEnv k).p }

theorem farState_env (k : Nat) : (farState k).env? = some (farEnv k) := rfl

theorem farEnv_issuing (k : Nat) : Issuing (farState k) (farEnv k) := by
  refine ⟨farState_env k, ?_, rfl, ?_⟩
  · show (farEnv k).w.shapeOk (farHeader k) = true
    simp [Wave.shapeOk, farEnv, Wave.launch, farHeader, probeHeader, farThread, Thread.absent]
  · apply BitVec.eq_of_getLsbD_eq
    intro i hi
    obtain rfl | h0 := Nat.eq_zero_or_pos i
    · have hall : (farEnv k).w.all.getLsbD 0 = true := maskOf_get _ 0 hi
      rw [BitVec.getLsbD_and, BitVec.getLsbD_not, hall]
      simp
    · have hlanes : (farEnv k).p.lanes.getLsbD i = false := by
        show (1#64).getLsbD i = false
        simp [BitVec.getLsbD_one, show i ≠ 0 by omega]
      rw [BitVec.getLsbD_and, hlanes]
      simp

theorem lowLane_one : lowLane 1 = 0 := by decide

theorem lanesOf_one : lanesOf 1 = [0] := by decide

/-- The thread that stands for the group. -/
theorem farEnv_lead (k : Nat) : (farEnv k).w.th (lowLane (farEnv k).p.lanes) = farThread k := by
  show (farEnv k).w.th (lowLane 1) = _
  rw [lowLane_one]
  rfl

/-- The issuing lane is lane 0. -/
theorem farEnv_lane {k l : Nat} (hl : (farEnv k).p.lanes.getLsbD l = true) : l = 0 := by
  have h1 : (1#64).getLsbD l = true := hl
  simpa [BitVec.getLsbD_one] using h1

theorem farEnv_noFault (k : Nat) : NoFaultMet (farEnv k) := by
  intro l f hl hf
  obtain rfl := farEnv_lane hl
  cases hf

theorem farEnv_guard (k : Nat) : (farEnv k).guard farStc.h = 1 := by
  show (1 : BitVec 64) &&& (BitVec.allOnes 64 ^^^ 0) = 1
  decide

/-- The lanes of the group that execute and are no helpers: lane 0. -/
theorem farEnv_real (k : Nat) : (1 : BitVec 64) &&& ~~~(farEnv k).w.helperMask = 1 := by
  apply BitVec.eq_of_getLsbD_eq
  intro i hi
  obtain rfl | h0 := Nat.eq_zero_or_pos i
  · simp [Wave.helperMask, farEnv, Wave.launch, farThread, Thread.absent]
  · simp [BitVec.getLsbD_one, show i ≠ 0 by omega]

theorem farEnv_prog {k : Nat} (hk : k < 2 ^ 32) : unitOf (farEnv k) = k := by
  have hpix : (farThread k).pix.toNat = 2 ^ 32 + k := by
    simp only [farThread, pixAt, BitVec.toNat_ofNat]
    omega
  have hinp : (farThread k).pix.getLsbD 32 = true := by
    rw [BitVec.getLsbD, hpix, Nat.testBit_two_pow_add_eq, Nat.testBit_lt_two_pow hk]
    rfl
  simp only [unitOf, farEnv_lead, hinp, if_true, hpix]
  omega

/-- Lane 0 is selected in every segment up to k. -/
theorem farEnv_chosen {k j : Nat} (hj : j ≤ k) : chosen (farState k) (farEnv k) farStc j = 1 := by
  show (farEnv k).guard farStc.h &&& ~~~(farEnv k).w.helperMask
    &&& maskOf (fun l => (farEnv k).v (farState k) l (0 + j) != 0) = 1
  rw [farEnv_guard, farEnv_real]
  apply BitVec.eq_of_getLsbD_eq
  intro i hi
  obtain rfl | h0 := Nat.eq_zero_or_pos i
  · have hv : (farEnv k).v (farState k) 0 (0 + j) = 1 := by
      show getAt (List.replicate (k + 1) 1) (0 + j) 0 = 1
      simp [getAt, List.getD, show j < k + 1 by omega]
    rw [BitVec.getLsbD_and, maskOf_get _ _ hi, hv]
    decide
  · simp [BitVec.getLsbD_one, show i ≠ 0 by omega]

/-- Each segment before k has one element, and so the one of segment k is number k. -/
theorem farEnv_before (k : Nat) :
    ((List.range k).map fun j => (lanesOf (chosen (farState k) (farEnv k) farStc j)).length).sum = k := by
  have h1 : ((List.range k).map fun j => (lanesOf (chosen (farState k) (farEnv k) farStc j)).length)
      = (List.range k).map fun _ => 1 := by
    apply List.map_congr_left
    intro j hj
    rw [farEnv_chosen (Nat.le_of_lt (List.mem_range.mp hj)), lanesOf_one]
    rfl
  rw [h1]
  simp

theorem farEnv_elementOf (k : Nat) : elementOf (farState k) (farEnv k) farStc k 0 = k := by
  unfold elementOf
  rw [farEnv_before, farEnv_chosen (Nat.le_refl k), lanesOf_one]
  rfl

theorem farEnv_elems (k : Nat) : (farEnv k).elems (farState k) farStc k = [(0, k)] := by
  have hsel : (farEnv k).selected (farState k) farStc.h farStc.c k = 1 := farEnv_chosen (Nat.le_refl k)
  have hbefore : (farEnv k).before (farState k) farStc.h farStc.c k = k := farEnv_before k
  simp only [Env.elems, hsel, hbefore, lanesOf_one]
  rfl

/-- The address that the model forms: the base and the element's offset, modulo 2^64. -/
theorem farEnv_elemAddr (k i : Nat) : (farEnv k).elemAddr (farState k) farStc i = i * 8 % 2 ^ 64 := by
  have hbase : (farEnv k).src (farState k) 0 true (.s 0) = 0 := rfl
  have haddr : (farEnv k).elemAddr (farState k) farStc i
      = addSigned ((farEnv k).src (farState k) (lowLane 1) true (.s 0)) ((i * 8 : Nat) : Int) := rfl
  rw [haddr, lowLane_one, hbase, addSigned]
  omega

/-- The address that `addressOf` forms of an offset of 32 bits, which is signed. -/
theorem farEnv_addressOf (k : Nat) (off : BitVec 32) :
    addressOf (farState k) (farEnv k) 0 .glob (.s 0) off = (off.signExtend 64).toNat := by
  show ((0 : BitVec 64) + off.signExtend 64).toNat = _
  rw [show (0 : BitVec 64) = 0#64 from rfl, BitVec.zero_add]

theorem farEnv_active (k : Nat) : (farEnv k).real ((farEnv k).guard farStc.h) ≠ 0 := by
  show (farEnv k).guard farStc.h &&& ~~~(farEnv k).w.helperMask ≠ 0
  rw [farEnv_guard, farEnv_real]
  decide

/-- The address at which the model makes the access of segment k. -/
theorem farStc_makes {k : Nat} (hk : k < 2 ^ 32) : ∃ t w, exec (.stc farStc) (farState k) = .next t
    ∧ t.wave? 2 = some w ∧ w.out.map Pend.a = [BitVec.ofNat 128 (k * 8 % 2 ^ 64)] := by
  have hfault : (farEnv k).segFault = none := by
    show (lanesOf 1).findSome? (fun l => ((farEnv k).w.th l).dfault.filter fun t => t.slot == (farEnv k).p.slot) = none
    rw [lanesOf_one]
    rfl
  have hskew : (farEnv k).skewed (farState k) farStc true = none := by
    rw [Env.skewed, farEnv_elemAddr, if_pos (by decide)]
  obtain ⟨t, w, hexec, hw, hout⟩ := execStc_first (farState_env k) (farEnv_active k) hfault
    (congrArg Thread.seg (farEnv_lead k)) hskew
  refine ⟨t, w, hexec, hw, ?_⟩
  have hprog : (farEnv k).prog = k := farEnv_prog hk
  rw [hout, hprog, farEnv_elems, ← farEnv_elemAddr k k]
  rfl

/-- The address that the statement gives it. -/
theorem farStc_said (h : Obligations.LoadExpandStoreCompact) {k : Nat} (hk : k < 2 ^ 32) :
    ∃ t w, exec (.stc farStc) (farState k) = .next t
      ∧ t.wave? 2 = some w ∧ w.out.map Pend.a = [BitVec.ofNat 128 ((BitVec.ofNat 32 (k * 8)).signExtend 64).toNat] := by
  unfold Obligations.LoadExpandStoreCompact at h
  obtain ⟨-, -, -, hfirst, -⟩ := h.1 (farState k) (farEnv k) (farEnv_issuing k) farStc
  have haligned : addressOf (farState k) (farEnv k) (lowLane 1) .glob (.s 0) (BitVec.ofNat 32 (0 * 8)) % 8 = 0 := by
    rw [lowLane_one, farEnv_addressOf]
    rfl
  obtain ⟨-, t, hexec, -, -, -, w, hw, hout, -⟩ := hfirst (farEnv_active k) (farEnv_noFault k)
    (congrArg Thread.seg (farEnv_lead k)) haligned
  refine ⟨t, w, hexec, hw, ?_⟩
  rw [hout, show (farEnv k).w.out = [] from rfl, List.nil_append, List.map_map]
  show (lanesOf (chosen (farState k) (farEnv k) farStc (unitOf (farEnv k)))).map (fun l => BitVec.ofNat 128
    (addressOf (farState k) (farEnv k) (lowLane 1) .glob (.s 0)
      (BitVec.ofNat 32 (elementOf (farState k) (farEnv k) farStc (unitOf (farEnv k)) l * 8)))) = _
  rw [farEnv_prog hk, farEnv_chosen (Nat.le_refl k), lanesOf_one, lowLane_one]
  simp only [List.map_cons, List.map_nil, farEnv_elementOf, farEnv_addressOf]

/-- Refutes O27: the statement gives an element's offset 32 signed bits, and bounds neither PROG nor the number of
vector registers. At PROG = 2^28, in a wave with 2^28 + 1 registers whose predicates are all set, the next 64-bit element
lies 2^31 bytes above the base, where the statement says 2^31 bytes below it. -/
theorem not_loadExpandStoreCompact : ¬ Obligations.LoadExpandStoreCompact := by
  intro h
  obtain ⟨k, hk⟩ : ∃ k : Nat, k = 2 ^ 28 := ⟨_, rfl⟩
  have hlt : k < 2 ^ 32 := by omega
  obtain ⟨t, w, hexec, hw, hmade⟩ := farStc_makes hlt
  obtain ⟨t', w', hexec', hw', hsaid⟩ := farStc_said h hlt
  have ht : t = t' := by
    rw [hexec] at hexec'
    exact Host.Outcome.next.inj hexec'
  have hw1 : w = w' := by
    rw [← ht, hw] at hw'
    exact Option.some.inj hw'
  rw [← hw1, hmade, hk] at hsaid
  exact absurd hsaid (by decide)

end Sys2Proof.Machine
end

section
/-! Taking a fault does not depend on the issue in the latch (the model's own field, notes/assumptions/4), and so the end
of an issue does not: a state with another issue latched goes to the same state, with that issue latched. Each operation on the way to `takeFault` has one
rule, `f_withIss`, in the model's order, and a rule about an operation cites the rules about those that it calls. -/

namespace Sys2Proof.Machine

/-- The state with another issue latched. -/
def State.withIss (s : State) (p : Option Issue) : State := { s with iss := p }

section
variable {s t : State} {p : Option Issue}

theorem ite_withIss {c : Prop} [Decidable c] {a b a' b' : State} (ha : a' = a.withIss p) (hb : b' = b.withIss p) :
    (if c then a' else b') = (if c then a else b).withIss p := by
  split
  · exact ha
  · exact hb

theorem foldl_withIss {α : Type} {f g : State → α → State} (l : List α)
    (hf : ∀ u a, f (u.withIss p) a = (g u a).withIss p) (h : t = s.withIss p) :
    l.foldl f t = (l.foldl g s).withIss p := by
  subst h
  induction l generalizing s with
  | nil => rfl
  | cons a l ih => rw [List.foldl_cons, List.foldl_cons, hf, ih]

/-! ## Memory and caches -/

theorem State.setMem_withIss (h : t = s.withIss p) (pl : Place) (m : Memory) :
    t.setMem pl m = (s.setMem pl m).withIss p := by
  subst h
  cases pl <;> rfl

theorem State.writeAt_withIss (h : t = s.withIss p) (pl : Place) (a : Nat) (bs : List Byte) :
    t.writeAt pl a bs = (s.writeAt pl a bs).map (·.withIss p) := by
  subst h
  unfold State.writeAt
  rw [show ((s.withIss p).mem pl).write ((s.withIss p).fill pl) a bs = (s.mem pl).write (s.fill pl) a bs from rfl]
  cases (s.mem pl).write (s.fill pl) a bs with
  | error e => rfl
  | ok m => exact congrArg Except.ok (State.setMem_withIss rfl pl m)

theorem State.putAt_withIss (h : t = s.withIss p) (pl : Place) (a : Nat) (bs : List Byte) :
    t.putAt pl a bs = (s.putAt pl a bs).withIss p := by
  unfold State.putAt
  rw [State.writeAt_withIss h, h]
  cases s.writeAt pl a bs <;> rfl

theorem State.endUp_withIss (h : t = s.withIss p) (u : UpLine) : t.endUp u = (s.endUp u).withIss p := by
  subst h
  exact foldl_withIss _ (fun _ _ => State.putAt_withIss rfl ..) rfl

theorem State.leaveUp_withIss (h : t = s.withIss p) (pl : Place) (pa : Nat) :
    t.leaveUp pl pa = (s.leaveUp pl pa).withIss p := by
  subst h
  unfold State.leaveUp
  rw [show (s.withIss p).upAt pl pa = s.upAt pl pa from rfl]
  cases s.upAt pl pa with
  | none => rfl
  | some u => exact State.endUp_withIss rfl u

theorem State.devWrite_withIss (h : t = s.withIss p) (pa : Nat) (bs : List Byte) :
    t.devWrite pa bs = (s.devWrite pa bs).withIss p :=
  State.putAt_withIss (State.leaveUp_withIss h ..) ..

theorem State.count_withIss (h : t = s.withIss p) (ph : Phys) (k : Nat) : t.count ph k = (s.count ph k).withIss p := by
  subst h
  exact ite_withIss rfl (State.putAt_withIss rfl ..)

theorem State.evictLine_withIss (h : t = s.withIss p) (l : Line) : t.evictLine l = (s.evictLine l).withIss p := by
  subst h
  exact ite_withIss (State.count_withIss (by rfl) ..) rfl

theorem State.sliceRoom_withIss (h : t = s.withIss p) (n : Nat) : t.sliceRoom n = (s.sliceRoom n).withIss p := by
  subst h
  refine ite_withIss rfl (ite_withIss rfl ?_)
  rw [show (s.withIss p).fresh (2 ^ 59 + n) = s.fresh (2 ^ 59 + n) from rfl, show (s.withIss p).lines = s.lines from rfl,
    show (fun l => (s.withIss p).writable l) = fun l => s.writable l from rfl]
  split
  · exact State.evictLine_withIss rfl _
  · rfl

theorem State.coreRoom_withIss (h : t = s.withIss p) (n : Nat) : t.coreRoom n = (s.coreRoom n).withIss p := by
  subst h
  refine ite_withIss rfl (ite_withIss rfl ?_)
  rw [show (s.withIss p).fresh (2 ^ 59 + 512 + n) = s.fresh (2 ^ 59 + 512 + n) from rfl,
    show (s.withIss p).coreLines = s.coreLines from rfl]
  split <;> rfl

theorem State.allocate_withIss (h : t = s.withIss p) (ph : Phys) (w : Bool) :
    t.allocate ph w = (s.allocate ph w).withIss p := by
  subst h
  unfold State.allocate
  cases hv : ph.via with
  | none => rfl
  | some c =>
    have hroom := State.coreRoom_withIss (p := p) (s := { s with
        coreLines := s.coreLines.filter fun k => !(k.core == c && k.asid == ph.asid && k.line == ph.va / 64) })
      (t := { s.withIss p with
        coreLines := (s.withIss p).coreLines.filter fun k =>
          !(k.core == c && k.asid == ph.asid && k.line == ph.va / 64) }) rfl c
    dsimp only
    rw [hroom]
    rfl

theorem State.mergeRead_withIss (h : t = s.withIss p) (ph : Phys) (miss : Bool) :
    t.mergeRead ph miss = (s.mergeRead ph miss).withIss p := by
  subst h
  exact ite_withIss rfl (ite_withIss rfl (ite_withIss rfl rfl))

theorem State.dropOld_withIss (h : t = s.withIss p) (ph : Phys) : t.dropOld ph = (s.dropOld ph).withIss p := by
  subst h
  unfold State.dropOld
  rw [show (s.withIss p).line? ph.asid (ph.va / 64) = s.line? ph.asid (ph.va / 64) from rfl]
  split
  · exact ite_withIss rfl (State.evictLine_withIss rfl _)
  · rfl

theorem State.fillLine_withIss (h : t = s.withIss p) (ph : Phys) : t.fillLine ph = (s.fillLine ph).withIss p := by
  subst h
  exact State.count_withIss (by rfl) ..

theorem State.own_withIss (h : t = s.withIss p) (ph : Phys) : t.own ph = (s.own ph).withIss p := by
  subst h
  rfl

theorem State.demote_withIss (h : t = s.withIss p) (a l : Nat) (c : Option Nat) :
    t.demote a l c = (s.demote a l c).withIss p := by
  subst h
  rfl

theorem State.atHome_withIss (h : t = s.withIss p) (ph : Phys) (w : Bool) : t.atHome ph w = (s.atHome ph w).withIss p := by
  have h0 := State.dropOld_withIss h ph
  unfold State.atHome
  rw [h0]
  have h1 : (if ((s.dropOld ph).line? ph.asid (ph.va / 64)).isNone
        then (((s.dropOld ph).withIss p).sliceRoom (homeOf ph.asid ph.va)).fillLine ph else (s.dropOld ph).withIss p)
      = (if ((s.dropOld ph).line? ph.asid (ph.va / 64)).isNone
        then ((s.dropOld ph).sliceRoom (homeOf ph.asid ph.va)).fillLine ph else s.dropOld ph).withIss p :=
    ite_withIss (State.fillLine_withIss (State.sliceRoom_withIss rfl _) _) rfl
  exact ite_withIss (State.own_withIss h1 _) (State.demote_withIss (State.mergeRead_withIss h1 ..) ..)

theorem State.touch_withIss (h : t = s.withIss p) (ph : Phys) (w : Bool) : t.touch ph w = (s.touch ph w).withIss p := by
  subst h
  unfold State.touch
  refine ite_withIss rfl ?_
  rw [show (s.withIss p).coreLine? ph.via ph.asid (ph.va / 64) = s.coreLine? ph.via ph.asid (ph.va / 64) from rfl]
  have hmiss := State.allocate_withIss (State.atHome_withIss (s := s) (p := p) rfl ph w) ph w
  split
  · exact hmiss
  · exact ite_withIss rfl (ite_withIss rfl hmiss)

theorem State.staleLayers_withIss (h : t = s.withIss p) (ph : Phys) :
    t.staleLayers ph = (s.staleLayers ph).withIss p := by
  subst h
  exact ite_withIss rfl rfl

theorem State.noteWrite_withIss (h : t = s.withIss p) (ph : Phys) : t.noteWrite ph = (s.noteWrite ph).withIss p :=
  State.staleLayers_withIss (State.touch_withIss (State.leaveUp_withIss h ..) ..) _

theorem State.dropRels_withIss (h : t = s.withIss p) (pl : Place) (a n : Nat) :
    t.dropRels pl a n = (s.dropRels pl a n).withIss p := by
  subst h
  exact ite_withIss rfl rfl

/-! ## Writes to global memory -/

theorem State.writePhys_withIss (h : t = s.withIss p) (v : Option Task) (esc : Bool) (ph : Phys) (bs : List Byte) :
    t.writePhys v esc ph bs = (s.writePhys v esc ph bs).map (·.withIss p) := by
  have hdirect := State.writeAt_withIss (State.dropRels_withIss (State.noteWrite_withIss h ph) ph.place ph.pa bs.length)
    ph.place ph.pa bs
  unfold State.writePhys
  cases v with
  | none => exact hdirect
  | some k =>
    dsimp only
    split
    · rw [show t.under k.version ph = s.under k.version ph by rw [h]; rfl]
      cases k.version.overlay (s.under k.version ph) ph.key bs with
      | error e => rfl
      | ok m =>
        dsimp only
        rw [State.staleLayers_withIss (State.touch_withIss h ph false) ph]
        rfl
    · exact hdirect

theorem State.gWrite_withIss (h : t = s.withIss p) (a : Acc) (v : Option Task) (esc : Bool) (unit va : Nat)
    (bs : List Byte) : t.gWrite a v esc unit va bs = (s.gWrite a v esc unit va bs).map (·.withIss p) := by
  unfold State.gWrite
  rw [show t.translate { a with write := true } va = s.translate { a with write := true } va by rw [h]; rfl]
  cases s.translate { a with write := true } va with
  | error e => rfl
  | ok ph =>
    dsimp only
    rw [State.writePhys_withIss h, show t.asid a.ctx = s.asid a.ctx by rw [h]; rfl]
    cases s.writePhys v esc ph bs <;> rfl

theorem State.gWriteLines_withIss (h : t = s.withIss p) (a : Acc) (v : Nat) (esc : Bool) (unit k va : Nat)
    (bs : List Byte) : t.gWriteLines a v esc unit k va bs = (s.gWriteLines a v esc unit k va bs).map (·.withIss p) := by
  induction k generalizing s t va bs with
  | zero =>
    subst h
    rfl
  | succ k ih =>
    unfold State.gWriteLines
    split
    · rw [h]
      rfl
    · dsimp only
      rw [State.gWrite_withIss h, show t.task? v = s.task? v by rw [h]; rfl]
      cases s.gWrite a (s.task? v) esc unit va (bs.take (64 - va % 64)) with
      | error e => rfl
      | ok u => exact ih rfl ..

theorem State.gWriteAll_withIss (h : t = s.withIss p) (a : Acc) (v : Nat) (esc : Bool) (unit va : Nat)
    (bs : List Byte) : t.gWriteAll a v esc unit va bs = (s.gWriteAll a v esc unit va bs).map (·.withIss p) :=
  State.gWriteLines_withIss h ..

/-! ## Trace, interrupts and the log -/

theorem State.setField_withIss (h : t = s.withIss p) (r : Reg) (lo n v : Nat) :
    t.setField r lo n v = (s.setField r lo n v).withIss p := by
  subst h
  rfl

theorem State.setReg_withIss (h : t = s.withIss p) (r : Reg) (v : Dword) : t.setReg r v = (s.setReg r v).withIss p := by
  subst h
  rfl

theorem State.setCtx_withIss (h : t = s.withIss p) (c : Nat) (x : Ctx) : t.setCtx c x = (s.setCtx c x).withIss p := by
  subst h
  rfl

theorem State.setWave_withIss (h : t = s.withIss p) (w : Wave) : t.setWave w = (s.setWave w).withIss p := by
  subst h
  rfl

theorem State.raise_withIss (h : t = s.withIss p) (b : Dword) : t.raise b = (s.raise b).withIss p := by
  subst h
  exact ite_withIss rfl rfl

theorem State.traceWrite_withIss (h : t = s.withIss p) (d k c src x y : Nat) :
    t.traceWrite d k c src x y = (s.traceWrite d k c src x y).withIss p := by
  subst h
  exact ite_withIss (State.setField_withIss (State.devWrite_withIss rfl ..) ..) rfl

theorem State.traceEvent_withIss (h : t = s.withIss p) (d k c src x y : Nat) :
    t.traceEvent d k c src x y = (s.traceEvent d k c src x y).withIss p := by
  subst h
  exact ite_withIss (State.traceWrite_withIss rfl ..) rfl

theorem State.trigger_withIss (h : t = s.withIss p) : t.trigger = s.trigger.withIss p := by
  subst h
  exact ite_withIss rfl rfl

theorem State.bumpHseq_withIss (h : t = s.withIss p) (c n : Nat) : t.bumpHseq c n = (s.bumpHseq c n).withIss p := by
  subst h
  rfl

theorem State.appendLog_withIss (h : t = s.withIss p) (c : Nat) (bs : List Byte) :
    t.appendLog c bs = (s.appendLog c bs).withIss p := by
  subst h
  exact State.setField_withIss (State.devWrite_withIss rfl ..) ..

theorem State.checkHigh_withIss (h : t = s.withIss p) (c : Nat) : t.checkHigh c = (s.checkHigh c).withIss p := by
  subst h
  exact ite_withIss rfl (ite_withIss (ite_withIss
    (ite_withIss (State.raise_withIss (State.setCtx_withIss rfl ..) _) rfl) rfl) rfl)

theorem State.dropConsumed_withIss (h : t = s.withIss p) (c n : Nat) :
    t.dropConsumed c n = (s.dropConsumed c n).withIss p := by
  induction n generalizing s t with
  | zero => exact h
  | succ n ih =>
    subst h
    exact ite_withIss (ih (State.setField_withIss (State.setCtx_withIss rfl ..) ..)) rfl

theorem State.flOccupancy_withIss (h : t = s.withIss p) (c : Nat) : t.flOccupancy c = s.flOccupancy c := by
  subst h
  rfl

theorem State.consume_withIss (h : t = s.withIss p) (c i n : Nat) : t.consume c i n = (s.consume c i n).withIss p := by
  subst h
  unfold State.consume
  dsimp only
  rw [show (s.withIss p).ctx c = s.ctx c from rfl, State.setCtx_withIss rfl, State.flOccupancy_withIss rfl,
    State.dropConsumed_withIss rfl, State.flOccupancy_withIss rfl]
  exact ite_withIss (State.raise_withIss (State.setField_withIss rfl ..) _) (State.setField_withIss rfl ..)

theorem State.findRec_withIss (c : Nat) (f : List Byte → Bool) (n i : Nat) :
    (s.withIss p).findRec c f n i = s.findRec c f n i := by
  induction n generalizing i with
  | zero => rfl
  | succ n ih =>
    unfold State.findRec
    rw [ih, show (s.withIss p).ctx c = s.ctx c from rfl, show (s.withIss p).logAt c i = s.logAt c i from rfl]

theorem State.logGate_withIss (h : t = s.withIss p) (c : Nat) (o : LogOp) (n : Nat) (f : List Byte → Bool) :
    t.logGate c o n f = s.logGate c o n f := by
  subst h
  have hnext : (s.withIss p).nextRec c f = s.nextRec c f := State.findRec_withIss ..
  unfold State.logGate
  rw [hnext, State.flOccupancy_withIss rfl, show (s.withIss p).flSize c = s.flSize c from rfl,
    show (s.withIss p).logging c = s.logging c from rfl, show (s.withIss p).replaying c = s.replaying c from rfl,
    show (s.withIss p).ctx c = s.ctx c from rfl, show (s.withIss p).hseqOf c o.home = s.hseqOf c o.home from rfl,
    show (s.withIss p).bytesAt = s.bytesAt from rfl, show (s.withIss p).flAddr c = s.flAddr c from rfl,
    show o.identity (s.withIss p) c = o.identity s c from rfl]

theorem State.logDone_withIss (h : t = s.withIss p) (c : Nat) (o : LogOp) (g : Option (Nat × List Byte)) :
    t.logDone c o g = (s.logDone c o g).map (·.withIss p) := by
  subst h
  unfold State.logDone
  rw [show (s.withIss p).logging c = s.logging c from rfl]
  by_cases hl : s.logging c = true
  · rw [if_pos hl, if_pos hl]
    exact congrArg Except.ok (State.checkHigh_withIss (foldl_withIss _ (fun _ _ => State.appendLog_withIss rfl ..)
      (State.appendLog_withIss (State.bumpHseq_withIss rfl ..) ..)) c)
  · rw [if_neg hl, if_neg hl]
    cases g with
    | none => rfl
    | some r =>
      dsimp only
      rw [show (s.withIss p).extPayload c r.1 = s.extPayload c r.1 from rfl]
      split
      · rfl
      · exact congrArg Except.ok (State.consume_withIss (State.bumpHseq_withIss rfl ..) ..)

theorem State.logAgent_withIss (h : t = s.withIss p) (c : Nat) (o : LogOp) :
    t.logAgent c o = (s.logAgent c o).withIss p := by
  unfold State.logAgent
  rw [State.logGate_withIss h]
  cases s.logGate c o o.extn fun bs => fieldOf bs 0 1 == o.kind && fieldOf bs 16 8 == o.addr with
  | stop x => exact h
  | go g =>
    dsimp only
    rw [State.logDone_withIss h]
    cases s.logDone c o g with
    | error e => exact h
    | ok u => rfl

/-! ## Fault records and halts -/

/-- An update of a context slot by what it holds. -/
theorem State.updCtx_withIss (h : t = s.withIss p) (c : Nat) (f : Ctx → Ctx) :
    t.setCtx c (f (t.ctx c)) = (s.setCtx c (f (s.ctx c))).withIss p := by
  subst h
  rfl

/-- The slot of a record that is written: head moved on, LOST cleared. -/
theorem State.fqHead_withIss (h : t = s.withIss p) (c n : Nat) :
    (t.setField (.fqhead c) 0 31 n).setCtx c { t.ctx c with lost := false }
      = ((s.setField (.fqhead c) 0 31 n).setCtx c { s.ctx c with lost := false }).withIss p := by
  subst h
  rfl

theorem State.fqPut_withIss (h : t = s.withIss p) (c : Nat) (r : FaultRec) : t.fqPut c r = (s.fqPut c r).withIss p := by
  have hhead (a : Nat) (bs : List Byte) (n : Nat) := State.fqHead_withIss (State.devWrite_withIss h a bs) c n
  subst h
  have hput (a : Nat) (bs : List Byte) (n : Nat) {c' : Prop} [Decidable c'] :=
    ite_withIss (c := c') (State.raise_withIss (hhead a bs n) 0x1) (hhead a bs n)
  exact ite_withIss (State.trigger_withIss (State.traceEvent_withIss (hput ..) ..))
    (State.traceEvent_withIss (hput ..) ..)

theorem State.faultRecord_withIss (h : t = s.withIss p) (c : Nat) (r : FaultRec) :
    t.faultRecord c r = (s.faultRecord c r).withIss p := by
  subst h
  exact ite_withIss (State.fqPut_withIss rfl ..) (State.setCtx_withIss (State.setField_withIss rfl ..) ..)

theorem State.haltWave_withIss (h : t = s.withIss p) (w : Wave) (c : Nat) :
    t.haltWave w c = (s.haltWave w c).withIss p :=
  State.traceEvent_withIss (State.raise_withIss (State.setField_withIss (State.setWave_withIss h _) ..) _) ..

theorem State.haltCtx_withIss (h : t = s.withIss p) (c : Nat) : t.haltCtx c = (s.haltCtx c).withIss p := by
  subst h
  exact foldl_withIss _ (fun _ _ => State.haltWave_withIss rfl ..) rfl

theorem State.diverge_withIss (h : t = s.withIss p) (c i : Nat) (due act : List Byte) :
    t.diverge c i due act = (s.diverge c i due act).withIss p := by
  have hput {u v : State} (hu : u = v.withIss p) (n : Nat) (bs : List Byte) :=
    foldl_withIss (f := fun s k => s.setReg (.fldiv c (n + k)) (BitVec.ofNat 64 (fieldOf bs (8 * k) 8)))
      (List.range 4) (fun _ _ => State.setReg_withIss rfl ..) hu
  have hend := State.faultRecord_withIss (State.haltCtx_withIss (State.updCtx_withIss
    (State.setField_withIss (hput (hput h 0 due) 4 act) (.flctl c) 3 1 1) c fun x => { x with divergent := true }) c) c
  subst h
  exact ite_withIss rfl (ite_withIss (State.trigger_withIss (hend _)) (hend _))

/-! ## The end of an attempt -/

theorem State.schedWrite_withIss (h : t = s.withIss p) (k : Task) (va : Nat) (bs : List Byte) :
    t.schedWrite k va bs = (s.schedWrite k va bs).withIss p := by
  unfold State.schedWrite
  rw [State.gWriteAll_withIss h]
  cases s.gWriteAll (schedAcc k.ctx) 0 true 9 va bs with
  | ok u => rfl
  | error e => exact State.faultRecord_withIss h ..

theorem State.writeState_withIss (h : t = s.withIss p) (k : Task) (v : Nat) :
    t.writeState k v = (s.writeState k v).withIss p :=
  State.schedWrite_withIss h ..

theorem State.writeStamp_withIss (h : t = s.withIss p) (k : Task) (v : Nat) :
    t.writeStamp k v = (s.writeStamp k v).withIss p := by
  subst h
  exact ite_withIss rfl (State.schedWrite_withIss rfl ..)

theorem State.stopTask_withIss (h : t = s.withIss p) (k : Nat) : t.stopTask k = (s.stopTask k).withIss p := by
  subst h
  rfl

/-- An update of the tasks by what they are. -/
theorem State.updTasks_withIss (h : t = s.withIss p) (f : List Task → List Task) :
    ({ t with tasks := f t.tasks } : State) = State.withIss { s with tasks := f s.tasks } p := by
  subst h
  rfl

theorem State.discard_withIss (h : t = s.withIss p) (k : Task) (e : Trap) (src slot : Nat) (no : Bool) :
    t.discard k e src slot no = (s.discard k e src slot no).withIss p := by
  have h1 := fun o => State.logAgent_withIss (State.writeStamp_withIss (State.stopTask_withIss h k.id) k e.cause.code) k.ctx o
  subst h
  exact State.faultRecord_withIss (ite_withIss (State.updTasks_withIss (State.writeState_withIss (h1 _) ..) _)
    (State.updTasks_withIss (State.writeState_withIss (h1 _) ..) _)) ..

theorem State.endAttempt_withIss (h : t = s.withIss p) (k : Nat) (e : Trap) (src slot : Nat) :
    t.endAttempt k e src slot = (s.endAttempt k e src slot).withIss p := by
  subst h
  unfold State.endAttempt
  rw [show (s.withIss p).task? k = s.task? k from rfl]
  cases s.task? k with
  | none => rfl
  | some x =>
    refine ite_withIss ?_ (State.discard_withIss rfl ..)
    dsimp only
    rw [State.logGate_withIss rfl, show x.disc (s.withIss p) = x.disc s from rfl]
    generalize s.logGate x.ctx _ 0 _ = g
    cases g with
    | go r => cases r <;> exact State.discard_withIss rfl ..
    | stop y => cases y <;> exact State.diverge_withIss rfl ..

theorem State.postResolve_withIss (h : t = s.withIss p) (c : Nat) (r : FaultRec) :
    t.postResolve c r = (s.postResolve c r).withIss p := by
  subst h
  refine ite_withIss rfl (ite_withIss ?_ rfl)
  exact State.updCtx_withIss (State.fqPut_withIss rfl ..) c fun x => { x with resolves := x.resolves ++ _ }

theorem State.deliver_withIss (h : t = s.withIss p) (w : Wave) (m : BitVec 64) (slot : Nat) (e : Trap) :
    t.deliver w m slot e = (s.deliver w m slot e).withIss p := by
  subst h
  exact ite_withIss (State.postResolve_withIss (State.setWave_withIss rfl _) ..) (ite_withIss
    (ite_withIss (State.haltCtx_withIss (State.haltWave_withIss rfl ..) _) (State.haltWave_withIss rfl ..))
    (ite_withIss (State.haltWave_withIss rfl ..) (State.endAttempt_withIss rfl ..)))

/-- Taking a fault reads nothing of the issue in the latch and leaves it there. -/
theorem State.takeFault_withIss (h : t = s.withIss p) (w : Wave) (m : BitVec 64) (slot : Nat) (e : Trap) :
    t.takeFault w m slot e = (s.takeFault w m slot e).withIss p := by
  subst h
  exact ite_withIss rfl (State.deliver_withIss rfl ..)

/-- The end of an issue does not depend on the issue in the latch as it began: it is what goes back to the start that
reads that state, and there the latch is cleared. -/
theorem State.finish_withIss (s s1 : State) (p : Option Issue) (x : Issue) (ms now : List Member) (n : Nat) :
    (s.withIss p).finish s1 x ms now n = s.finish s1 x ms now n := by
  unfold State.finish
  cases s1.testLoops x ms ms with
  | ok s2 => rfl
  | error e =>
    obtain ⟨slot, e⟩ := e
    dsimp only
    rw [show (s.withIss p).wave? x.wave = s.wave? x.wave from rfl]
    cases s.wave? x.wave with
    | none => rfl
    | some w =>
      dsimp only
      rw [State.takeFault_withIss rfl]
      rfl

end
end Sys2Proof.Machine
end

section
/-! The checks of an issue (spec/02 R45, R46, R51): what a word that passes them decodes to, and words that pass them. -/

namespace Sys2Proof

/-- What decodes is the instruction of its opcode's row, and is well formed. -/
theorem decodeFields_eq_ok {f : Fields} {i : Instr} (h : decodeFields f = .ok i) :
    (∃ x, parse f = some x ∧ x.instr = i) ∧ i.WellFormed = true := by
  unfold decodeFields at h
  split at h
  · cases h
  next x hx =>
    split at h
    · cases h
    next hfield =>
      split at h
      · cases h
      next hcode =>
        cases h
        refine ⟨⟨x, hx, rfl⟩, ?_⟩
        simp only [Bool.or_eq_true, not_or, Bool.not_eq_true', Bool.not_eq_false] at hfield hcode
        exact Bool.and_eq_true_iff.mpr ⟨hfield.2, hcode.2⟩

theorem decode_wellFormed {w : InstrWord} {i : Instr} (h : decode w = .ok i) : i.WellFormed = true :=
  (decodeFields_eq_ok h).2

/-- The row of loop (R104). -/
theorem parse_loop {f : Fields} (hop : f.op.toNat = 0x07) (hfn : f.fn = 0) :
    ∃ n raw, parse f = some ⟨.loop f.head n (f.tail.extractLsb' 0 20), raw, false⟩ := by
  unfold parse
  rw [hop]
  unfold parse0
  rw [hfn]
  exact ⟨_, _, rfl⟩

namespace Machine

/-! ## The line (R42, R45) -/

theorem leNat_lt (bs : List Byte) : leNat bs < 256 ^ bs.length := by
  induction bs with
  | nil => exact Nat.one_pos
  | cons b r ih =>
    have hb := b.isLt
    rw [leNat, List.length_cons, pow_succ]
    omega

theorem fieldOf_lt (bs : List Byte) (off n : Nat) : fieldOf bs off n < 256 ^ n :=
  (leNat_lt _).trans_le (Nat.pow_le_pow_right (by decide) (by simp [byteRange]))

theorem Issue.fetched_lineWord (s : State) (w : Wave) (m : BitVec 64) (pc : Nat) (line : List Byte) :
    (Issue.fetched s w m pc line).lineWord.toNat = lineWordOf line :=
  (BitVec.toNat_ofNat ..).trans (Nat.mod_eq_of_lt (fieldOf_lt line 60 4))

theorem Issue.fetched_next {s : State} {w : Wave} {m : BitVec 64} {pc : Nat} {line : List Byte}
    (h : (Issue.fetched s w m pc line).pair = false) : (Issue.fetched s w m pc line).next = pc + 1 := by
  unfold Issue.fetched at h ⊢
  dsimp only at h ⊢
  rw [h]
  rfl

/-! ## One member (R51 step 5) -/

/-- The end of a loop lies at its first body slot or after it, where its length is above zero. -/
theorem Issue.badLoop_eq_false {p : Issue} {i : Instr} (hdec : decode p.word = .ok i) (hnext : p.next = p.slot + 1)
    (hlen : ∀ h n len, i = .loop h n len → 0 < len.toNat) : p.badLoop = false := by
  rw [Bool.eq_false_iff]
  intro hbad
  simp only [Issue.badLoop, Bool.and_eq_true, decide_eq_true_eq, beq_iff_eq, hnext] at hbad
  obtain ⟨⟨hop, hfn⟩, hlt⟩ := hbad
  obtain ⟨n, raw, hrow⟩ := parse_loop (f := .unpack p.word) (by simpa [Fields.unpack] using hop) hfn
  obtain ⟨⟨x, hx, hi⟩, -⟩ := decodeFields_eq_ok hdec
  have hpos := hlen _ _ _ (hi.symm.trans (congrArg Parsed.instr (Option.some.inj (hx.symm.trans hrow))))
  have hbits : bitsOf p.word.toNat 64 20 = ((Fields.unpack p.word).tail.extractLsb' 0 20).toNat := by
    simp [bitsOf, Fields.unpack, BitVec.extractLsb'_toNat]
  omega

/-- A member that passes its checks is what its word decodes to. -/
theorem Issue.decode_of_decoded {p : Issue} {k : Crew} {prv : Bool} {i : Instr} (h : p.decoded k prv = .ok i) :
    decode p.word = .ok i := by
  unfold Issue.decoded at h
  split at h
  · cases h
  · split at h
    iterate 3 cases h
    next x hx =>
      split at h
      all_goals
        dsimp only at h
        split_ifs at h
        split at h
        · cases h
          exact hx
        all_goals cases h

/-- Words that pass: a trace on the first cores of a cluster only (R232), declared registers (R37), special registers
that the view may write (R25). -/
theorem Issue.decoded_of_decode {p : Issue} {k : Crew} {prv : Bool} {i : Instr} (hdec : decode p.word = .ok i)
    (hloop : p.badLoop = false) (hdecl : checkDecl k.hdr i = none) (htrace : p.word.toNat % 256 = 0xC6 → k.core % 8 < 2)
    (hsr : ∀ h r o, i = .wrsr h r o → srWritable prv r = true ∨ (prv = false ∧ srPriv r = true)) :
    p.decoded k prv = .ok i := by
  have hcore : ¬(p.word.toNat % 256 = 0xC6 && 2 ≤ k.core % 8) = true := by
    simp only [Bool.and_eq_true, decide_eq_true_eq, not_and, Nat.not_le]
    exact htrace
  unfold Issue.decoded
  rw [if_neg hcore, hdec]
  dsimp only
  rw [hloop, hdecl]
  cases i
  case wrsr h r o =>
    obtain hw | ⟨hp, hr⟩ := hsr h r o rfl
    · simp [hw]
    · simp [hp, hr]
  all_goals rfl

/-! ## The whole issue -/

/-- The members of an issue that passes the checks. -/
theorem Issue.decoded_of_checked {p : Issue} {k : Crew} {prv entry : Bool} {line : List Byte} {i : Instr}
    {j : Option Instr} (h : p.checked k prv line entry = .ok (i, j)) :
    p.decoded k prv = .ok i ∧ ∀ x, j = some x → (p.second line).decoded k prv = .ok x := by
  unfold Issue.checked at h
  dsimp only at h
  split at h
  · cases h
  · split at h
    · cases h
    · split at h
      · cases h
      next i' hi =>
        split at h
        · split at h
          · obtain ⟨rfl, rfl⟩ := Prod.mk.inj (Except.ok.inj h)
            exact ⟨hi, fun _ hx => nomatch hx⟩
          · cases h
        · split at h
          · cases h
          next j' hj =>
            split at h
            · cases h
            · split at h
              · obtain ⟨rfl, rfl⟩ := Prod.mk.inj (Except.ok.inj h)
                exact ⟨hi, fun _ hx => Option.some.inj hx ▸ hj⟩
              · cases h

/-- An issue of one slot that passes. -/
theorem Issue.checked_of_decoded {p : Issue} {k : Crew} {prv entry : Bool} {line : List Byte} {i : Instr}
    (hpair : p.pair = false) (hfmt : lineFormatOk p.lineWord.toNat = true)
    (hpar : slotParityOk line (p.first % 5) = true) (hdec : p.decoded k prv = .ok i)
    (hentry : entry = true → bitOf p.lineWord.toNat (p.first % 5) = true) :
    p.checked k prv line entry = .ok (i, none) := by
  have htarget : (!entry || bitOf p.lineWord.toNat (p.first % 5)) = true := by
    cases entry
    · rfl
    · exact hentry rfl
  unfold Issue.checked
  simp only [hpair, hfmt, hpar, hdec, htarget]
  rfl

end Machine
end Sys2Proof
end

section
/-! A step runs the decoded instruction (spec/01 R39 to R41, spec/02 R47, R51). What follows an act, the choice of a
group and the order of the members of a pair are the model's own (notes/assumptions/3, 4 and 34). -/

namespace Sys2Proof.Machine

/-- A step performs the first act of the agenda. -/
theorem step_of_agenda {s : State} {a : Act} {rest : List Act} (ha : s.agenda = a :: rest) (hs : s.stopped = false) :
    step s = match s.doAct a with
      | .next s1 => .next (s.moved a s1 rest)
      | .fault f => .fault f
      | .refused r => .refused r := by
  unfold step State.move
  rw [ha]
  dsimp only
  rw [hs]
  cases s.doAct a <;> rfl

theorem step_of_doAct_next {s s1 : State} {a : Act} {rest : List Act} (ha : s.agenda = a :: rest)
    (hs : s.stopped = false) (h : s.doAct a = .next s1) : step s = .next (s.moved a s1 rest) := by
  rw [step_of_agenda ha hs, h]

/-! ## The issue of a group (R40, R41) -/

theorem State.issue_eq {s : State} {core q : Nat} {w : Wave} {k : Crew} {t : Task} {g : Group} (hcore : core < 512)
    (hq : q < 4) (hthr : s.throttled core = false) (hturn : s.quarterTurn core q = true)
    (hw : s.nextWave core q = some w) (hk : s.crew? w.crew = some k) (ht : s.task? k.task = some t)
    (hg : (if w.overdue k (s.groups w) then oldestGroup (s.groups w) else lowestGroup (s.groups w)) = some g) :
    s.issue core q = (s.chosen core q w t g (w.overdue k (s.groups w))).1.issueGroup
      (s.chosen core q w t g (w.overdue k (s.groups w))).2 k t g := by
  unfold State.issue
  rw [if_neg (by simp [Nat.not_le.mpr hcore, Nat.not_le.mpr hq]), if_neg (by simp [hthr, hturn]), hw]
  dsimp only
  rw [hk]
  dsimp only
  rw [ht]
  dsimp only
  rw [hg]

section
variable {s s1 : State} {w : Wave} {k : Crew} {t : Task} {g : Group} {line : List Byte}

/-- The issue that a group makes of a line. -/
def State.groupIssue (s : State) (w : Wave) (g : Group) (line : List Byte) : Issue :=
  .fetched s w g.lanes g.pc line

/-- Whether threads of a group come from outside to the slot (R49). -/
def Group.entered (g : Group) (w : Wave) : Bool := (lanesOf g.lanes).any fun l => (w.th l).entry

variable (hpc : g.pc < k.hdr.slots)
  (hread : s.gRead (fetchAcc t) none 1 (k.hdr.lineVa (g.pc / 5)) 64 = .ok (line, s1))
include hpc hread

theorem State.issueGroup_error {sl : Nat} {e : Trap}
    (hc : (s.groupIssue w g line).checked k t.prv line (g.entered w) = .error (sl, e)) :
    s.issueGroup w k t g = .next (s1.takeFault w g.lanes sl (e.atUnit 1)) := by
  unfold State.issueGroup
  rw [if_neg (Nat.not_le.mpr hpc), hread]
  dsimp only
  rw [show (Issue.fetched s w g.lanes g.pc line).checked k t.prv line ((lanesOf g.lanes).any fun l => (w.th l).entry)
    = .error (sl, e) from hc]

theorem State.issueGroup_run {i : Instr} {j : Option Instr}
    (hc : (s.groupIssue w g line).checked k t.prv line (g.entered w) = .ok (i, j)) (hj : g.half = false ∨ j = none) :
    s.issueGroup w k t g = ({ s1 with iss := some (s.groupIssue w g line) } : State).runIssue (s.groupIssue w g line)
      line i j k.eseq := by
  unfold State.issueGroup
  rw [if_neg (Nat.not_le.mpr hpc), hread]
  dsimp only
  rw [show (Issue.fetched s w g.lanes g.pc line).checked k t.prv line ((lanesOf g.lanes).any fun l => (w.th l).entry)
    = .ok (i, j) from hc]
  obtain hh | rfl := hj
  · rw [hh]
    rfl
  · cases g.half <;> rfl

theorem State.issueGroup_second {i j : Instr}
    (hc : (s.groupIssue w g line).checked k t.prv line (g.entered w) = .ok (i, some j)) (hh : g.half = true) :
    s.issueGroup w k t g = ({ s1 with iss := some (s.groupIssue w g line) } : State).runSecond (s.groupIssue w g line)
      line i j k.eseq := by
  unfold State.issueGroup
  rw [if_neg (Nat.not_le.mpr hpc), hread]
  dsimp only
  rw [show (Issue.fetched s w g.lanes g.pc line).checked k t.prv line ((lanesOf g.lanes).any fun l => (w.th l).entry)
    = .ok (i, some j) from hc, hh]
  rfl
end

/-! ## The members of an issue, in slot order (R47) -/

section
variable {s s2 s3 : State} {p p1 p2 : Issue} {line : List Byte} {i j : Instr} {n : Nat}

theorem State.runIssue_single (s : State) (p : Issue) (line : List Byte) (i : Instr) (n : Nat) :
    s.runIssue p line i none n = match exec i s with
      | .next s2 => .next (match s2.iss with
        | none => s2.cutIssue p
        | some p1 => s.finish s2 p1 [⟨p.slot, p.word, i⟩] [⟨p.slot, p.word, i⟩] n)
      | .fault f => .fault f
      | .refused r => .refused r := by
  unfold State.runIssue
  cases exec i s with
  | fault f => rfl
  | refused r => rfl
  | next s2 => cases h : s2.iss <;> simp only [h]

theorem State.runIssue_pair (hi : exec i s = .next s2) (h2 : s2.iss = some p1)
    (hj : exec j { s2.asideLanes p with iss := some { p.second line with moved := p1.moved } } = .next s3)
    (h3 : s3.iss = some p2) :
    s.runIssue p line i (some j) n = .next (s.finish (s3.combineLanes p (isUC (p.word.toNat % 256))) p2
      [⟨p.slot, p.word, i⟩, ⟨(p.second line).slot, (p.second line).word, j⟩]
      [⟨p.slot, p.word, i⟩, ⟨(p.second line).slot, (p.second line).word, j⟩] n) := by
  unfold State.runIssue
  rw [hi]
  dsimp only
  rw [h2]
  dsimp only
  rw [hj]
  dsimp only
  rw [h3]

/-- The second member runs alone where the first has taken effect. -/
theorem State.runSecond_next (hj : exec j { s with iss := some (p.second line) } = .next s2) (h2 : s2.iss = some p1) :
    s.runSecond p line i j n = .next (({ s with iss := some (p.second line) } : State).finish s2 p1
      [⟨p.slot, p.word, i⟩, ⟨(p.second line).slot, (p.second line).word, j⟩]
      [⟨(p.second line).slot, (p.second line).word, j⟩] n) := by
  unfold State.runSecond
  dsimp only
  rw [hj]
  dsimp only
  rw [h2]
  exact congrArg Host.Outcome.next (State.finish_withIss s s2 (some (p.second line)) p1 _ _ n).symm
end

/-! ## The checks of the issue of a group -/

theorem State.groupIssue_word (s : State) (w : Wave) (g : Group) (line : List Byte) :
    (s.groupIssue w g line).word = slotWord line (g.pc % 5) := rfl

theorem State.groupIssue_second_word (s : State) (w : Wave) (g : Group) (line : List Byte) :
    ((s.groupIssue w g line).second line).word = slotWord line ((g.pc + 1) % 5) := rfl

/-- The words of a group's issue that passes the checks. -/
theorem State.decode_of_groupIssue {s : State} {w : Wave} {g : Group} {line : List Byte} {k : Crew} {prv entry : Bool}
    {i : Instr} {j : Option Instr} (h : (s.groupIssue w g line).checked k prv line entry = .ok (i, j)) :
    decode (slotWord line (g.pc % 5)) = .ok i ∧ ∀ x, j = some x → decode (slotWord line ((g.pc + 1) % 5)) = .ok x := by
  obtain ⟨hi, hj⟩ := Issue.decoded_of_checked h
  rw [← State.groupIssue_word s w, ← State.groupIssue_second_word s w]
  exact ⟨Issue.decode_of_decoded hi, fun x hx => Issue.decode_of_decoded (hj x hx)⟩

/-- The issue of one slot whose line, word and target are right passes the checks. -/
theorem State.groupIssue_checked {s : State} {w : Wave} {g : Group} {line : List Byte} {k : Crew} {prv entry : Bool}
    {i : Instr} (hfmt : lineFormatOk (lineWordOf line) = true) (hpar : slotParityOk line (g.pc % 5) = true)
    (hpair : (s.groupIssue w g line).pair = false) (hdec : decode (slotWord line (g.pc % 5)) = .ok i)
    (hdecl : checkDecl k.hdr i = none)
    (htrace : (s.groupIssue w g line).word.toNat % 256 = 0xC6 → k.core % 8 < 2)
    (hloop : ∀ h n len, i = .loop h n len → g.pc < g.pc + len.toNat)
    (hsr : ∀ h r o, i = .wrsr h r o → srWritable prv r = true ∨ (prv = false ∧ srPriv r = true))
    (hentry : entry = true → bitOf (lineWordOf line) (g.pc % 5) = true) :
    (s.groupIssue w g line).checked k prv line entry = .ok (i, none) := by
  rw [← State.groupIssue_word s w] at hdec
  have hline : (s.groupIssue w g line).lineWord.toNat = lineWordOf line := Issue.fetched_lineWord ..
  have hbad : (s.groupIssue w g line).badLoop = false :=
    Issue.badLoop_eq_false hdec (Issue.fetched_next hpair) fun h n len hi => by
      have := hloop h n len hi
      omega
  exact Issue.checked_of_decoded hpair (hline ▸ hfmt) hpar (Issue.decoded_of_decode hdec hbad hdecl htrace hsr)
    (hline ▸ hentry)

/-- Settles O60, by the equations of the issue of a group: one slot, a pair, the second member of a pair, and a line
that fails. -/
theorem stepRuns : Obligations.StepRuns := by
  unfold Obligations.StepRuns
  intro s a rest ha hs
  refine ⟨?_, ?_⟩
  · rintro i rfl
    rw [step_of_agenda ha hs]
    rfl
  rintro core q w k t g line s1 rfl hcore hq hthr hturn hw hk ht hg hpc
  intro c p at' one first other entry hread
  have hissue : s.doAct (.issue core q) = c.1.issueGroup c.2 k t g := State.issue_eq hcore hq hthr hturn hw hk ht hg
  have hnext {s2 : State} (h : c.1.issueGroup c.2 k t g = .next s2) := step_of_doAct_next ha hs (hissue.trans h)
  refine ⟨fun i hc => ?_, fun i hfmt hpar hpair hdec hdecl htrace hloop hsr hentry => ?_, fun i j hc => ?_,
    fun sl e hc => ?_⟩
  · obtain ⟨hdec, -⟩ := State.decode_of_groupIssue hc
    refine ⟨hdec, decode_wellFormed hdec, ?_⟩
    have hrun : s.doAct (.issue core q) = at'.runIssue p line i none k.eseq :=
      hissue.trans (State.issueGroup_run hpc hread hc (.inr rfl))
    rw [step_of_agenda ha hs, hrun, State.runIssue_single]
    cases exec i at' <;> rfl
  · exact State.groupIssue_checked hfmt hpar hpair hdec hdecl htrace hloop hsr hentry
  · obtain ⟨hdec, hsecond⟩ := State.decode_of_groupIssue hc
    refine ⟨hdec, hsecond j rfl, fun hh s2 p1 s3 p2 hi h2 hj h3 => ?_, fun hh s2 p1 hj h2 => ?_⟩
    · exact hnext ((State.issueGroup_run hpc hread hc (.inl hh)).trans (State.runIssue_pair hi h2 hj h3))
    · exact hnext ((State.issueGroup_second hpc hread hc hh).trans (State.runSecond_next hj h2))
  · exact hnext (State.issueGroup_error hpc hread hc)

end Sys2Proof.Machine
end

section
/-! Words of examples (spec/02 R54), and a form that has a word which does not decode (spec/06 R183). -/

namespace Sys2Proof

/-- sywait with FN[0] set, which names no form of it (R183): the field `flag` is NOTIFY of syarm and ANY of chwait. -/
def flaggedSywait : Instr := .sywait ⟨⟨false, 0, false⟩, true, .s 0, .reg (.s 0)⟩

theorem flaggedSywait_wellFormed : flaggedSywait.WellFormed = true := by decide

theorem decode_encode_flaggedSywait : (encode flaggedSywait).map decode = some (.error .field) := by decide

/-- Refutes O51: no check of `Instr.fieldsOk` names the flag of sywait, so the flagged form counts as well formed and has a
word; the decoder refuses that word, whose FN[0] is reserved. -/
theorem not_decodeEncode : ¬ Obligations.DecodeEncode := by
  unfold Obligations.DecodeEncode
  intro h
  obtain ⟨w, hw, hdec⟩ := Option.map_eq_some_iff.mp decode_encode_flaggedSywait
  have hback := h _ w flaggedSywait_wellFormed hw
  rw [hdec] at hback
  cases hback

/-- Settles O53, by running the decoder on each word. -/
theorem decodeWords : Obligations.DecodeWords := by
  unfold Obligations.DecodeWords
  decide +kernel

end Sys2Proof
end

section
/-! Floating results of variable latency (spec/02 R63, spec/03 R91). -/

namespace Sys2Proof.Machine

theorem regsOf_eq (t : Ty) : regsOf t = if t.wide then 2 else 1 := by
  simp only [regsOf, Ty.wide, beq_iff_eq]

/-- A floating result of variable latency, by its type (R63, R91). -/
theorem putFV_result {s : State} {e : Env} (h : Issuing s e) (i : Instr) (hd : Head) (m : Option Modifier) (d : Opd)
    (t : Ty) (rounds : Bool) (val : Nat → Res) :
    Outstanding s (e.putFV s i hd m d t.wide rounds val) e i (e.exec hd m) (e.zeroed hd m) d (regsOf t)
      (rounds && draws e m) fun l => (wordsOf (t.bits == 64) (val l).1, (val l).2) := by
  rw [regsOf_eq]
  exact pushV_result h ..

/-- Settles O15: each instruction enters the results of its executing threads, as `Env.putFV` does for all of them. -/
theorem floatOutstanding : Obligations.FloatOutstanding := by
  unfold Obligations.FloatOutstanding
  intro s e h
  refine ⟨fun x => ⟨_, (onIssue_next h.1 rfl : execFdiv x s = _), putFV_result h ..⟩,
    fun x => ⟨_, (onIssue_next h.1 rfl : execFsqrt x s = _), putFV_result h ..⟩, fun x p hp => ?_⟩
  have hspecial (o : SFn) (i : Instr) := (onIssue_next h.1 rfl : special o i x s = _)
  simp only [List.mem_cons, List.not_mem_nil, or_false] at hp
  obtain rfl | rfl | rfl | rfl | rfl | rfl := hp
  all_goals exact ⟨_, hspecial _ _, putFV_result h ..⟩

end Sys2Proof.Machine
end

section
/-! Words and their instructions (spec/02 R53 to R61, R68): a word that decodes is the word of its instruction.
The fields of a row are read by `parse` and written by `encodeFields`; each lemma below says that what the first reads
the second writes, for a code, a part of a field, a shape, and then each row of the opcode map. -/

namespace Sys2Proof

/-! ## Codes read back (R24, R55, R59, R61, and the FN tables) -/

theorem opd_bits {c : BitVec 10} (h : (Opd.ofCode? c.toNat).isSome = true) : (opd c).bits = c := by
  revert c; decide +kernel

theorem tyOf_bits6 {c : BitVec 6} (h : (Ty.ofCode? c.toNat).isSome = true) : (tyOf c).bits6 = c := by
  revert c; decide

theorem Rm.ofNat_code {x : BitVec 3} (h : x.toNat ≠ 7) : BitVec.ofNat 3 ((Rm.ofCode x.toNat).getD .dyn).code = x := by
  revert x; decide

theorem Scope.code_ofCode {x : BitVec 3} (h : (Scope.ofCode x.toNat).isSome = true) :
    ((Scope.ofCode x.toNat).getD .wave).code = x.toNat := by
  revert x; decide

theorem SliOp.ofNat_code {x : BitVec 6} (h : (SliOp.ofCode x.toNat).isSome = true) :
    BitVec.ofNat 6 ((SliOp.ofCode x.toNat).getD .sx).code = x := by
  revert x; decide

theorem SpopOp.ofNat_code {x : BitVec 6} (h : (SpopOp.ofCode x.toNat).isSome = true) :
    BitVec.ofNat 6 ((SpopOp.ofCode x.toNat).getD .popc).code = x := by
  revert x; decide

theorem CmpOp.ofNat_code {x : BitVec 6} (h : (CmpOp.ofCode x.toNat).isSome = true) :
    BitVec.ofNat 6 ((CmpOp.ofCode x.toNat).getD .eq).code = x := by
  revert x; decide

theorem FcmpOp.ofNat_code {x : BitVec 6} (h : (FcmpOp.ofCode x.toNat).isSome = true) :
    BitVec.ofNat 6 ((FcmpOp.ofCode x.toNat).getD .eq).code = x := by
  revert x; decide

theorem ShflOp.ofNat_code {x : BitVec 6} (h : (ShflOp.ofCode x.toNat).isSome = true) :
    BitVec.ofNat 6 ((ShflOp.ofCode x.toNat).getD .idx).code = x := by
  revert x; decide

theorem VoteOp.ofNat_code {x : BitVec 6} (h : (VoteOp.ofCode x.toNat).isSome = true) :
    BitVec.ofNat 6 ((VoteOp.ofCode x.toNat).getD .any).code = x := by
  revert x; decide

theorem KopOp.ofNat_code {x : BitVec 6} (h : (KopOp.ofCode x.toNat).isSome = true) :
    BitVec.ofNat 6 ((KopOp.ofCode x.toNat).getD .and).code = x := by
  revert x; decide

theorem KsetOp.ofNat_code {x : BitVec 6} (h : (KsetOp.ofCode x.toNat).isSome = true) :
    BitVec.ofNat 6 ((KsetOp.ofCode x.toNat).getD .nz).code = x := by
  revert x; decide

theorem SwpOp.ofNat_code {x : BitVec 6} (h : (SwpOp.ofCode x.toNat).isSome = true) :
    BitVec.ofNat 6 ((SwpOp.ofCode x.toNat).getD .copy).code = x := by
  revert x; decide

theorem FenceKind.ofNat_code {x : BitVec 6} (h : (FenceKind.ofCode x.toNat).isSome = true) :
    BitVec.ofNat 6 ((FenceKind.ofCode x.toNat).getD .ar).code = x := by
  revert x; decide

theorem QKind.ofNat_code {x : BitVec 6} (h : (QKind.ofCode x.toNat).isSome = true) :
    BitVec.ofNat 6 ((QKind.ofCode x.toNat).getD .spad).code = x := by
  revert x; decide

theorem HitField.ofNat_code {x : BitVec 6} (h : (HitField.ofCode x.toNat).isSome = true) :
    BitVec.ofNat 6 ((HitField.ofCode x.toNat).getD .kind).code = x := by
  revert x; decide

theorem VbField.ofNat_code {x : BitVec 6} (h : (VbField.ofCode x.toNat).isSome = true) :
    BitVec.ofNat 6 ((VbField.ofCode x.toNat).getD .id).code = x := by
  revert x; decide

theorem RngSet.ofNat_code {x : BitVec 6} (h : (RngSet.ofCode x.toNat).isSome = true) :
    BitVec.ofNat 6 ((RngSet.ofCode x.toNat).getD .key).code = x := by
  revert x; decide

theorem ScanOp.ofNat_code {x : BitVec 6} (h : (ScanOp.ofCode (x.extractLsb' 0 3).toNat).isSome = true)
    (h4 : x.extractLsb' 4 2 = 0) :
    BitVec.ofNat 6 (((ScanOp.ofCode (x.extractLsb' 0 3).toNat).getD .add).code + 8 * (x.getLsbD 3).toNat) = x := by
  revert x; decide

theorem BarKind.ofNat_code {x : BitVec 6} (h : (BarKind.ofCode (x.extractLsb' 0 2).toNat).isSome = true)
    (h2 : x.extractLsb' 2 3 = 0) :
    BitVec.ofNat 6 (((BarKind.ofCode (x.extractLsb' 0 2).toNat).getD .arrive).code + 32 * (x.getLsbD 5).toNat) = x := by
  revert x; decide

theorem AtomOp.ofNat_code {x : BitVec 6} (h : (AtomOp.ofCode (x.extractLsb' 0 4).toNat).isSome = true) :
    BitVec.ofNat 6 (((AtomOp.ofCode (x.extractLsb' 0 4).toNat).getD .add).code + 16 * (x.extractLsb' 4 2).toNat) = x := by
  revert x; decide

theorem Filt.ofNat_code {x : BitVec 6} (h : (Filt.ofCode (x.extractLsb' 0 2).toNat).isSome = true)
    (h4 : x.extractLsb' 4 2 = 0) :
    BitVec.ofNat 6 (((Filt.ofCode (x.extractLsb' 0 2).toNat).getD .lin).code + 4 * (x.extractLsb' 2 2).toNat) = x := by
  revert x; decide

theorem mdrnFn_eq {x : BitVec 6} (h : (Rm.ofCode (x.extractLsb' 2 3).toNat).isSome = true) :
    BitVec.ofNat 6 ((x.getLsbD 0).toNat + 2 * (x.getLsbD 1).toNat
      + 4 * ((Rm.ofCode (x.extractLsb' 2 3).toNat).getD .dyn).code + 32 * (x.getLsbD 5).toNat) = x := by
  revert x; decide

theorem axOf_space {x : BitVec 6} (h : (Space.ofCode (x.extractLsb' 0 3).toNat).isSome = true) :
    axOf ((Space.ofCode (x.extractLsb' 0 3).toNat).getD .glob) (x.extractLsb' 3 3).toNat = x := by
  revert x; decide

/-! ## Parts of a field -/

theorem ofBool_getLsbD {n : Nat} (x : BitVec n) (k : Nat) : BitVec.ofBool (x.getLsbD k) = x.extractLsb' k 1 := by
  apply BitVec.eq_of_getLsbD_eq
  intro i hi
  obtain rfl : i = 0 := by omega
  simp

/-- Parts of a word that lie side by side. -/
theorem extract_append_extract {n : Nat} (x : BitVec n) {k l m j : Nat} (h : j = k + l) :
    x.extractLsb' j m ++ x.extractLsb' k l = x.extractLsb' k (m + l) := by
  subst h
  rw [BitVec.extractLsb'_append_extractLsb'_eq_extractLsb' rfl]

/-- A part widened over zero bits. -/
theorem setWidth_extract {n : Nat} {x : BitVec n} {k l m : Nat} (h : x.extractLsb' (k + l) m = 0) :
    (x.extractLsb' k l).setWidth (m + l) = x.extractLsb' k (m + l) := by
  apply BitVec.eq_of_getLsbD_eq
  intro i hi
  simp only [BitVec.getLsbD_setWidth, BitVec.getLsbD_extractLsb', hi, decide_true, Bool.true_and]
  by_cases hl : i < l
  · simp [hl]
  · have hbit : (x.extractLsb' (k + l) m).getLsbD (i - l) = false := by rw [h]; exact BitVec.getLsbD_zero
    rw [BitVec.getLsbD_extractLsb', show k + l + (i - l) = k + i by omega, decide_eq_true (by omega), Bool.true_and] at hbit
    simp [hl, hbit]

/-- A field whose high bits are zero, from its low ones. -/
theorem setWidth_low {l m : Nat} {x : BitVec (m + l)} (h : x.extractLsb' l m = 0) :
    (x.extractLsb' 0 l).setWidth (m + l) = x :=
  (setWidth_extract (by rwa [Nat.zero_add])).trans BitVec.extractLsb'_eq_self

theorem ofNat_toFin {n : Nat} (x : BitVec n) : BitVec.ofNat n x.toFin.val = x := by
  rw [BitVec.val_toFin, BitVec.ofNat_toNat, BitVec.setWidth_eq]

theorem boolBits_bit0 {x : BitVec 6} (h : x.extractLsb' 1 5 = 0) : boolBits 6 (x.getLsbD 0) = x := by
  revert x; decide

theorem bits01_eq {x : BitVec 6} (h : x.extractLsb' 2 4 = 0) :
    BitVec.ofNat 6 ((x.getLsbD 0).toNat + 2 * (x.getLsbD 1).toNat) = x := by
  revert x; decide

namespace Fields

theorem ext_iff {f g : Fields} : f = g ↔ f.op = g.op ∧ f.sw = g.sw ∧ f.xm = g.xm ∧ f.g = g.g ∧ f.gn = g.gn
    ∧ f.rsv = g.rsv ∧ f.d = g.d ∧ f.a = g.a ∧ f.b = g.b ∧ f.fn = g.fn ∧ f.ty = g.ty ∧ f.ax = g.ax ∧ f.tail = g.tail := by
  cases f; cases g; simp

@[simp] theorem base_head (f : Fields) (op : BitVec 8) : base op f.head =
    ⟨op, f.sw, false, f.g, f.gn, false, 0, 0, 0, 0, 0, 0, 0⟩ := by
  simp [base, head]

@[simp] theorem zeroD_iff {f : Fields} : f.zeroD = true ↔ f.d = 0 := by simp [zeroD]
@[simp] theorem zeroA_iff {f : Fields} : f.zeroA = true ↔ f.a = 0 := by simp [zeroA]
@[simp] theorem zeroB_iff {f : Fields} : f.zeroB = true ↔ f.b = 0 := by simp [zeroB]

theorem mod_eq_none {f : Fields} : f.mod = none ↔ f.xm = false := by
  cases h : f.xm <;> simp [mod, h]

/-- The modifier word is the TAIL of its fields (R55). -/
theorem tail_of_mod {f : Fields} (hx : f.xm = true) (hm : f.modRaw = true) {m : Modifier} (h : f.mod = some m) :
    (0 : BitVec 13) ++ BitVec.ofBool m.sat ++ f.c ++ BitVec.ofNat 3 m.rm.code ++ BitVec.ofBool m.mz ++ BitVec.ofNat 4 m.msk
      = f.tail := by
  simp only [modRaw, hx, Bool.not_true, Bool.false_or, Bool.and_eq_true, beq_iff_eq, bne_iff_ne] at hm
  simp only [mod, hx, if_true, Option.some.injEq] at h
  subst h
  simp only [c, hx, if_true, Rm.ofNat_code hm.2, ofBool_getLsbD, ofNat_toFin]
  rw [← hm.1]
  simp only [extract_append_extract, BitVec.extractLsb'_eq_self]

/-- A word written with the modifier that a word has (R55). -/
theorem withMod_mod {f g : Fields} {c : BitVec 10} (hm : f.xm = true → c = f.c ∧ f.modRaw = true)
    (h0 : f.xm = false → g = f) (h1 : f.xm = true → { g with xm := true, tail := f.tail } = f) :
    g.withMod f.mod c = f := by
  cases hx : f.xm with
  | false => rw [mod_eq_none.mpr hx]; exact h0 hx
  | true =>
    obtain ⟨m, h⟩ : ∃ m, f.mod = some m := by simp [mod, hx]
    rw [h, withMod, (hm hx).1, tail_of_mod hx (hm hx).2 h]
    exact h1 hx

/-- TAIL of a form without a third source. -/
theorem tail2_cases {f : Fields} {imm : Bool} (h : f.tail2 imm = true) :
    (f.xm = true → 0 = f.c ∧ f.modRaw = true) ∧ (f.xm = false → imm = false → f.tail = 0) := by
  unfold tail2 at h
  cases hx : f.xm <;> cases imm <;> simp_all

/-- TAIL of a form with a third source. -/
theorem tail3_cases {f : Fields} {imm : Bool} (h : f.tail3 imm = true) :
    (f.xm = true → f.modRaw = true) ∧ (f.xm = false → imm = false → f.tail.extractLsb' 10 22 = 0) := by
  unfold tail3 at h
  cases hx : f.xm <;> cases imm <;> simp_all

/-- TAIL as an immediate of 22 bits and operand code C (R54). -/
theorem tail_of_c {f : Fields} (hx : f.xm = false) : f.tail.extractLsb' 10 22 ++ f.c = f.tail := by
  simp only [c, hx, Bool.false_eq_true, if_false]
  exact (extract_append_extract (m := 22) f.tail rfl).trans BitVec.extractLsb'_eq_self

theorem ax_of_ibit {f : Fields} (h : (f.ax == 0 || f.ax == 0x10) = true) : f.ax = if f.ibit then 0x10 else 0 := by
  unfold ibit
  generalize f.ax = x at *
  revert x; decide

/-- An immediate shares TAIL with no modifier word (R128). -/
theorem xm_of_modOk {f : Fields} {rounds sats imm : Bool} (h : modOk rounds sats imm f.mod = true) (hi : imm = true) :
    f.xm = false := by
  subst hi
  rw [← mod_eq_none]
  cases hm : f.mod with
  | none => rfl
  | some m => simp [modOk, hm] at h

/-- What a word that decodes has shown of its fields (R51 step 5). -/
structure Reads (f : Fields) (p : Parsed) : Prop where
  rsv : f.rsv = false
  xm : f.xm = true → acceptsXm f.op.toNat = true
  raw : p.raw = true
  fieldsOk : p.instr.fieldsOk = true
  operandsOk : p.instr.operandsOk = true
  d : (opd f.d).bits = f.d
  a : (opd f.a).bits = f.a
  b : (opd f.b).bits = f.b
  c : p.hasC = true → (opd f.c).bits = f.c

theorem decodeFields_reads {f : Fields} {i : Instr} (h : decodeFields f = .ok i) :
    ∃ p, parse f = some p ∧ f.Reads p ∧ p.instr = i := by
  unfold decodeFields at h
  split at h
  · cases h
  next p hp =>
    split_ifs at h with hfield hcode
    cases h
    simp only [Bool.or_eq_true, Bool.and_eq_true, Bool.not_eq_true', not_or, not_and, Bool.not_eq_true,
      Bool.not_eq_false] at hfield hcode
    obtain ⟨⟨⟨hrsv, hxm⟩, hraw⟩, hfok⟩ := hfield
    obtain ⟨hcodes, hoper⟩ := hcode
    simp only [codesOk, Bool.and_eq_true, Bool.or_eq_true, Bool.not_eq_true'] at hcodes
    obtain ⟨⟨⟨hd, ha⟩, hb⟩, hc⟩ := hcodes
    exact ⟨p, hp, ⟨hrsv, hxm, hraw, hfok, hoper, opd_bits hd, opd_bits ha, opd_bits hb,
      fun h1 => opd_bits (hc.resolve_left (by simp [h1]))⟩, rfl⟩

end Fields
theorem kout_eq {x : BitVec 6} (h : x.extractLsb' 4 2 = 0) : BitVec.ofNat 6 (x.extractLsb' 0 4).toFin.val = x := by
  revert x; decide

theorem memFn_eq {x : BitVec 6} (h1 : x.getLsbD 1 = false) (h4 : x.extractLsb' 4 2 = 0) :
    BitVec.ofNat 6 ((x.getLsbD 0).toNat + 4 * (x.getLsbD 2).toNat + 8 * (x.getLsbD 3).toNat) = x := by
  revert x; decide

/-! ## Qualifiers of accesses and of the sampler (R163, R176, R231) -/

theorem memOrd_isSome (f : Fields) : (memOrd f).isSome = f.fn.getLsbD 0 := by
  unfold memOrd
  split <;> simp_all

theorem noScope_iff {f : Fields} : noScope f = true ↔ f.ax.extractLsb' 3 3 = 0 := by simp [noScope]

theorem ordScope_memOrd {f : Fields} (h : memOrdRaw f = true) : ordScope (memOrd f) = (f.ax.extractLsb' 3 3).toNat := by
  simp only [memOrdRaw, Bool.and_eq_true] at h
  obtain ⟨-, h⟩ := h
  unfold memOrd
  split at h
  next h0 => rw [if_pos h0]; exact Scope.code_ofCode h
  next h0 => rw [if_neg h0, noScope_iff.mp h]; rfl

/-- The values of a code of two bits. -/
theorem code2_cases (x : BitVec 2) : x.toNat = 0 ∨ x.toNat = 1 ∨ x.toNat = 2 ∨ x.toNat = 3 := by
  have := x.isLt
  omega

theorem ordOf_code (f : Fields) : (ordOf f).code = (f.fn.extractLsb' 4 2).toNat := by
  obtain h | h | h | h := code2_cases (f.fn.extractLsb' 4 2) <;> simp only [ordOf, h] <;> rfl

theorem ordOf_scope {f : Fields} (h : ordRaw f = true) : (ordOf f).scope = (f.ax.extractLsb' 3 3).toNat := by
  unfold ordRaw at h
  split at h
  next h0 =>
    rw [beq_iff_eq] at h0
    simp only [ordOf, h0, noScope_iff.mp h]
    rfl
  next h0 =>
    have hne : (f.fn.extractLsb' 4 2).toNat ≠ 0 := fun hz => h0 (beq_iff_eq.mpr (BitVec.eq_of_toNat_eq hz))
    obtain h1 | h1 | h1 | h1 := code2_cases (f.fn.extractLsb' 4 2)
    · exact absurd h1 hne
    all_goals
      simp only [ordOf, h1]
      exact Scope.code_ofCode h

theorem lodOf_code {f : Fields} (h : lodRaw f = true) : (lodOf f).code = (f.fn.extractLsb' 2 2).toNat := by
  simp only [lodRaw, Bool.and_eq_true, bne_iff_ne] at h
  obtain h1 | h1 | h1 | h1 := code2_cases (f.fn.extractLsb' 2 2)
  case inr.inr.inr => exact absurd (BitVec.eq_of_toNat_eq h1) h.1
  all_goals
    simp only [lodOf, h1]
    rfl

theorem lodOf_bits {f : Fields} (h : lodRaw f = true) (hc : (opd f.c).bits = f.c) : (lodOf f).bits = f.c := by
  simp only [lodRaw, Bool.and_eq_true, Bool.or_eq_true, bne_iff_ne, beq_iff_eq] at h
  obtain h1 | h1 | h1 | h1 := code2_cases (f.fn.extractLsb' 2 2)
  · have h0 : f.fn.extractLsb' 2 2 = 0 := BitVec.eq_of_toNat_eq h1
    simp only [lodOf, h1]
    exact (h.2.resolve_left fun hn => hn h0).symm
  · simp only [lodOf, h1]
    exact hc
  · simp only [lodOf, h1]
    exact hc
  · exact absurd (BitVec.eq_of_toNat_eq h1) h.1

theorem tail_of_wbinv {x : BitVec 32} (h : x.extractLsb' 13 7 = 0) :
    x.extractLsb' 20 12 ++ (0 : BitVec 7) ++ x.extractLsb' 0 13 = x := by
  rw [← h]
  simp only [extract_append_extract, BitVec.extractLsb'_eq_self]

/-! ## Words put back together, by shape -/

section
variable {f : Fields} {op : BitVec 8} (hop : f.op = op) (hrsv : f.rsv = false) (hd : (opd f.d).bits = f.d)
  (ha : (opd f.a).bits = f.a) (hb : (opd f.b).bits = f.b)
include hop hrsv hd ha hb

theorem encVBin_vbin {fn : BitVec 6} (hfn : f.fn = fn) (hraw : vbinRaw f = true)
    {rounds sats : Bool} (hmod : modOk rounds sats (vbin f).b.isImm (vbin f).mod = true) : encVBin op fn (vbin f) = f := by
  simp only [vbinRaw, tyRaw, Fields.immB, Bool.and_eq_true] at hraw
  obtain ⟨⟨⟨hty, hax⟩, hB⟩, htail⟩ := hraw
  have hax := Fields.ax_of_ibit hax
  obtain ⟨htx, ht⟩ := Fields.tail2_cases htail
  cases hi : f.ibit with
  | true =>
    have hx := Fields.xm_of_modOk hmod (by simp [vbin, Fields.src32, hi, Src32.isImm])
    simp_all [encVBin, vbin, Fields.src32, Fields.ext_iff, tyOf_bits6, Fields.imm32]
  | false =>
    simp only [encVBin, vbin, Fields.src32, hi, Bool.false_eq_true, if_false]
    refine Fields.withMod_mod htx (fun hx => ?_) fun hx => ?_
    all_goals simp_all [Fields.ext_iff, tyOf_bits6]

theorem encVTer_vter {fn : BitVec 6} (hfn : f.fn = fn) (hc : (opd f.c).bits = f.c) (hraw : vterRaw f = true)
    {rounds sats : Bool} (hmod : modOk rounds sats (vter f).b.isImm (vter f).mod = true) : encVTer op fn (vter f) = f := by
  simp only [vterRaw, tyRaw, Fields.immB, Bool.and_eq_true] at hraw
  obtain ⟨⟨⟨hty, hax⟩, hB⟩, htail⟩ := hraw
  have hax := Fields.ax_of_ibit hax
  obtain ⟨htx, ht⟩ := Fields.tail3_cases htail
  cases hi : f.ibit with
  | true =>
    have hx := Fields.xm_of_modOk hmod (by simp [vter, Fields.src22, hi, Src22.isImm])
    have htail := Fields.tail_of_c hx
    simp_all [encVTer, vter, Fields.src22, Fields.ext_iff, tyOf_bits6, Fields.imm22, Fields.withC]
  | false =>
    simp only [encVTer, vter, Fields.src22, hi, Bool.false_eq_true, if_false, hc]
    refine Fields.withMod_mod (fun hx => ⟨rfl, htx hx⟩) (fun hx => ?_) fun hx => ?_
    · have htail := Fields.tail_of_c hx
      simp_all [Fields.ext_iff, tyOf_bits6, Fields.withC]
    · simp_all [Fields.ext_iff, tyOf_bits6, Fields.withC]

theorem encVTri_vtri {fn ax : BitVec 6} (hfn : f.fn = fn) (hax : f.ax = ax) (hc : (opd f.c).bits = f.c)
    (hty : tyRaw f = true) (htail : f.tail3 false = true) : encVTri op fn ax (vtri f) = f := by
  obtain ⟨htx, ht⟩ := Fields.tail3_cases htail
  simp only [tyRaw] at hty
  simp only [encVTri, vtri, hc]
  refine Fields.withMod_mod (fun hx => ⟨rfl, htx hx⟩) (fun hx => ?_) fun hx => ?_
  · have htail := Fields.tail_of_c hx
    simp_all [Fields.ext_iff, tyOf_bits6, Fields.withC]
  · simp_all [Fields.ext_iff, tyOf_bits6, Fields.withC]

omit hb in
theorem encVUn_vun {fn ax : BitVec 6} (hfn : f.fn = fn) (hax : f.ax = ax) (hraw : vunRaw f = true) :
    encVUn op fn ax (vun f) = f := by
  simp only [vunRaw, tyRaw, Bool.and_eq_true] at hraw
  obtain ⟨⟨hty, hB⟩, htail⟩ := hraw
  obtain ⟨htx, ht⟩ := Fields.tail2_cases htail
  refine Fields.withMod_mod htx (fun hx => ?_) fun hx => ?_
  all_goals simp_all [vun, Fields.ext_iff, tyOf_bits6]

theorem encVCarry_vcarry (hfn : f.fn = 0) (hax : f.ax.extractLsb' 4 2 = 0) (hc : (opd f.c).bits = f.c)
    (hty : tyRaw f = true) (htail : f.tail3 false = true) : encVCarry op (vcarry f) = f := by
  obtain ⟨htx, ht⟩ := Fields.tail3_cases htail
  have hk := kout_eq hax
  simp only [tyRaw] at hty
  simp only [encVCarry, vcarry, hc]
  refine Fields.withMod_mod (fun hx => ⟨rfl, htx hx⟩) (fun hx => ?_) fun hx => ?_
  · have htail := Fields.tail_of_c hx
    simp_all [Fields.ext_iff, tyOf_bits6, Fields.withC]
  · simp_all [Fields.ext_iff, tyOf_bits6, Fields.withC]

theorem encUBin_ubin {fn : BitVec 6} (hfn : f.fn = fn) (hx : f.xm = false) (hraw : ubinRaw f = true) :
    encUBin op fn (ubin f) = f := by
  simp only [ubinRaw, tyRaw, Fields.immB, Bool.and_eq_true, beq_iff_eq] at hraw
  obtain ⟨⟨⟨hty, hax⟩, hB⟩, htail⟩ := hraw
  have hax := boolBits_bit0 hax
  cases hi : f.ax.getLsbD 0 <;> simp_all [encUBin, ubin, Fields.ext_iff, tyOf_bits6, boolBits]

theorem encMma_mma (hx : f.xm = false) (hraw : mmaRaw f = true) : encMma op (mmaOf f) = f := by
  simp only [mmaRaw, Bool.and_eq_true, beq_iff_eq] at hraw
  obtain ⟨⟨hfn, hty⟩, hax⟩ := hraw
  have hax := boolBits_bit0 hax
  have htail : f.tail.extractLsb' 20 12 ++ f.tail.extractLsb' 12 8 ++ f.tail.extractLsb' 6 6 ++ f.tail.extractLsb' 0 6
      = f.tail := by
    simp only [extract_append_extract, BitVec.extractLsb'_eq_self]
  simp_all [encMma, mmaOf, Fields.ext_iff]

omit hb in
theorem encTile_tile (hx : f.xm = false) (hraw : tileRaw f = true) : encTile op (tileOf f) = f := by
  simp only [tileRaw, Bool.and_eq_true, beq_iff_eq] at hraw
  obtain ⟨⟨⟨⟨hfn, hty⟩, hax⟩, hB⟩, htail⟩ := hraw
  have hax := boolBits_bit0 hax
  have htail := tail_of_wbinv htail
  simp_all [encTile, tileOf, Fields.ext_iff]

omit hop hrsv hd hb in
theorem encMem_memOf {r : Opd} {d b : BitVec 10} (hop : f.op = op) (hrsv : f.rsv = false) (hd : d = f.d) (hb : b = f.b)
    (hty : tyRaw f = true) (hsp : spaceRaw f = true) (hord : memOrdRaw f = true) (h3 : f.fn.getLsbD 3 = false)
    (h4 : f.fn.extractLsb' 4 2 = 0) (htail : f.tail2 true = true) : encMem op (memOf f r) d b = f := by
  obtain ⟨htx, -⟩ := Fields.tail2_cases htail
  have hfn := memFn_eq (x := f.fn) (by simp only [memOrdRaw, Bool.and_eq_true, Bool.not_eq_true'] at hord; exact hord.1) h4
  rw [h3, Bool.toNat_false, Nat.mul_zero, Nat.add_zero, ← memOrd_isSome] at hfn
  have hax := axOf_space hsp
  rw [← ordScope_memOrd hord] at hax
  simp only [tyRaw] at hty
  simp only [encMem, memOf, spaceOf]
  refine Fields.withMod_mod htx (fun hx => ?_) fun hx => ?_
  all_goals simp_all [Fields.ext_iff, tyOf_bits6, Fields.imm32]

theorem encAtom_atom (hx : f.xm = false) (hc : (opd f.c).bits = f.c) (hraw : atomRaw f = true) :
    encAtom op (atomOpOf f) (atomOf f) = f := by
  simp only [atomRaw, tyRaw, Bool.and_eq_true] at hraw
  obtain ⟨⟨⟨hty, hsp⟩, ho⟩, hord⟩ := hraw
  have hax := axOf_space hsp
  rw [← ordOf_scope hord] at hax
  have hfn := AtomOp.ofNat_code ho
  rw [← ordOf_code] at hfn
  have htail := Fields.tail_of_c hx
  simp_all [encAtom, atomOf, atomOpOf, spaceOf, Fields.ext_iff, tyOf_bits6, Fields.withC]

theorem encSmpl_smpl {n : BitVec 4} {ncrd : BitVec 2} {m : Nat} {ax : BitVec 6} (hx : f.xm = false)
    (hc : (opd f.c).bits = f.c) (hraw : smplRaw f = true) (hax : ax = f.ax)
    (hfn : BitVec.ofNat 6 (m + 4 * (f.fn.extractLsb' 2 2).toNat) = f.fn) :
    encSmpl op m ax (smplOf f n ncrd) = f := by
  simp only [smplRaw, tyRaw, Bool.and_eq_true, beq_iff_eq] at hraw
  obtain ⟨⟨⟨hty, hlod⟩, -⟩, h0⟩ := hraw
  have htail : (0 : BitVec 14) ++ f.tail.extractLsb' 14 4 ++ f.tail.extractLsb' 10 4 ++ f.c = f.tail := by
    rw [← h0]
    simp only [Fields.c, hx, Bool.false_eq_true, if_false, extract_append_extract, BitVec.extractLsb'_eq_self]
  rw [← lodOf_code hlod] at hfn
  have hbits := lodOf_bits hlod hc
  simp_all [encSmpl, smplOf, Fields.ext_iff, tyOf_bits6]

omit hd ha in
theorem encSync_syncB {g : Fields} (hraw : syncBRaw f = true) (hg : { g with b := f.b, fn := f.fn, tail := f.tail } = f)
    (hgb : g.b = 0) (hgt : g.tail = 0) (hfn : (if f.fn.getLsbD 5 then g.fn ||| 0x20 else g.fn) = f.fn) :
    encSync g (syncB f) = f := by
  simp only [syncBRaw, Fields.immB, Bool.and_eq_true] at hraw
  rw [Fields.ext_iff] at hg
  cases hi : f.fn.getLsbD 5 <;> simp_all [encSync, syncB, Fields.ext_iff]

end
/-! ## Rows of the shapes -/

section
variable {f : Fields} {i : Instr} {op : BitVec 8} (hop : f.op = op)
include hop

theorem encodes_vbin {z : Bool} (r : f.Reads ⟨i, vbinRaw f && z, false⟩) {fn : BitVec 6}
    (hi : encodeFields i = some (encVBin op fn (vbin f))) (hfn : z = true → f.fn = fn) {rounds sats : Bool}
    (hok : i.fieldsOk = true → modOk rounds sats (vbin f).b.isImm (vbin f).mod = true) : encodeFields i = some f := by
  obtain ⟨hraw, hz⟩ := Bool.and_eq_true_iff.mp r.raw
  exact hi.trans (congrArg some (encVBin_vbin hop r.rsv r.d r.a r.b (hfn hz) hraw (hok r.fieldsOk)))

theorem encodes_vter {z : Bool} (r : f.Reads ⟨i, vterRaw f && z, true⟩) {fn : BitVec 6}
    (hi : encodeFields i = some (encVTer op fn (vter f))) (hfn : z = true → f.fn = fn) {rounds sats : Bool}
    (hok : i.fieldsOk = true → modOk rounds sats (vter f).b.isImm (vter f).mod = true) : encodeFields i = some f := by
  obtain ⟨hraw, hz⟩ := Bool.and_eq_true_iff.mp r.raw
  exact hi.trans (congrArg some (encVTer_vter hop r.rsv r.d r.a r.b (hfn hz) (r.c rfl) hraw (hok r.fieldsOk)))

theorem encodes_vun (r : f.Reads ⟨i, vunRaw f && f.fn == 0 && f.ax == 0, false⟩)
    (hi : encodeFields i = some (encVUn op 0 0 (vun f))) : encodeFields i = some f := by
  have hraw := r.raw
  simp only [Bool.and_eq_true, beq_iff_eq] at hraw
  obtain ⟨⟨hraw, hfn⟩, hax⟩ := hraw
  exact hi.trans (congrArg some (encVUn_vun hop r.rsv r.d r.a hfn hax hraw))

theorem encodes_ubin {z : Bool} (hx : f.xm = false) (r : f.Reads ⟨i, ubinRaw f && z, false⟩) {fn : BitVec 6}
    (hi : encodeFields i = some (encUBin op fn (ubin f))) (hfn : z = true → f.fn = fn) : encodeFields i = some f := by
  obtain ⟨hraw, hz⟩ := Bool.and_eq_true_iff.mp r.raw
  exact hi.trans (congrArg some (encUBin_ubin hop r.rsv r.d r.a r.b (hfn hz) hx hraw))

end

/-! ## Rows, by the first digit of the opcode (R68) -/

/-- The opcodes of a block that take no modifier word (R56). -/
theorem Fields.Reads.noMod {f : Fields} {p : Parsed} {op : Nat} (r : f.Reads p) (hop : f.op = BitVec.ofNat 8 op)
    (hop2 : acceptsXm (op % 256) = false) : f.xm = false := by
  have h := r.xm
  rw [hop, BitVec.toNat_ofNat, hop2] at h
  simpa using h

theorem and_right {a b : Bool} (h : (a && b) = true) : b = true := (Bool.and_eq_true_iff.mp h).2

theorem and_left_right {a b c : Bool} (h : (a && b && c) = true) : b = true := by
  simp_all

theorem ofNat_of_toNat {n k : Nat} {x : BitVec n} (h : x.toNat = k) : x = BitVec.ofNat n k := by
  rw [← h, BitVec.ofNat_toNat, BitVec.setWidth_eq]

/-- TAIL of loop (R104): the count over the end. -/
theorem tail_of_loop (x : BitVec 32) : x.extractLsb' 20 12 ++ x.extractLsb' 0 20 = x := by
  simp only [extract_append_extract, BitVec.extractLsb'_eq_self]

/-- TAIL of sysc (R114). -/
theorem tail_of_sysc {x : BitVec 32} (h : x.extractLsb' 6 26 = 0) :
    (0 : BitVec 26) ++ x.extractLsb' 4 2 ++ x.extractLsb' 0 4 = x := by
  rw [← h]
  simp only [extract_append_extract, BitVec.extractLsb'_eq_self]

/-- TAIL of mode (R121). -/
theorem tail_of_mode {f : Fields} (h : modeRaw f = true) : (0 : BitVec 22)
    ++ BitVec.ofBool (modeOf f).z64.isSome ++ BitVec.ofBool (modeOf f).z32.isSome ++ BitVec.ofBool (modeOf f).z16.isSome
    ++ BitVec.ofBool (modeOf f).rm.isSome ++ optBit (modeOf f).z64 ++ optBit (modeOf f).z32 ++ optBit (modeOf f).z16
    ++ (modeOf f).rm.getD 0 = f.tail := by
  simp only [modeRaw, Bool.and_eq_true, Bool.or_eq_true, Bool.not_eq_true', beq_iff_eq] at h
  obtain ⟨⟨⟨⟨h0, hrm⟩, h16⟩, h32⟩, h64⟩ := h
  have hopt {c b : Bool} (hb : c = true ∨ b = false) : optBit (if c then some b else none) = BitVec.ofBool b := by
    cases c <;> simp_all [optBit]
  have hsome {α : Type} {c : Bool} {x : α} : (if c then some x else none).isSome = c := by cases c <;> rfl
  have hmode : (if f.tail.getLsbD 6 then some (f.tail.extractLsb' 0 3) else none).getD 0 = f.tail.extractLsb' 0 3 := by
    cases h6 : f.tail.getLsbD 6 <;> simp_all
  simp only [modeOf, hopt h16, hopt h32, hopt h64, hsome, hmode, ofBool_getLsbD]
  rw [← h0]
  simp only [extract_append_extract, BitVec.extractLsb'_eq_self]

theorem parse0_encodes {f : Fields} {lo : Nat} {p : Parsed} (hop : f.op = BitVec.ofNat 8 lo)
    (h : parse0 f lo = some p) (r : f.Reads p) : encodeFields p.instr = some f := by
  unfold parse0 at h
  split at h
  case h_2 => -- br
    have hx := r.noMod hop rfl
    split at h
    all_goals
      cases h
      obtain ⟨hrsv, -, hraw, -, -, hd, ha, hb, -⟩ := r
    · next hfn => simp_all [encodeFields, Fields.ext_iff, ofNat_of_toNat hfn]
    · next hfn => simp_all [encodeFields, Fields.ext_iff, ofNat_of_toNat hfn]
    · next hfn => simp_all [encodeFields, Fields.ext_iff, ofNat_of_toNat hfn]
    · cases hraw
  case h_7 => -- loop, loop.pop
    have hx := r.noMod hop rfl
    split at h
    all_goals
      cases h
      obtain ⟨hrsv, -, hraw, -, -, hd, ha, hb, -⟩ := r
    · next hfn =>
      have htail := tail_of_loop f.tail
      have hax := boolBits_bit0 (x := f.ax) (by simp_all)
      cases hi : f.ax.getLsbD 0 <;> simp_all [encodeFields, Fields.ext_iff, ofNat_of_toNat hfn, boolBits]
    · next hfn => simp_all [encodeFields, Fields.ext_iff, ofNat_of_toNat hfn]
    · cases hraw
  case h_11 => -- park
    have hx := r.noMod hop rfl
    cases h
    obtain ⟨hrsv, -, hraw, -, -, hd, ha, hb, -⟩ := r
    have hax := boolBits_bit0 (x := f.ax) (by simp_all)
    cases hi : f.ax.getLsbD 0 <;> simp_all [encodeFields, Fields.ext_iff, boolBits]
  case h_12 => -- sysc, sysc.wait
    have hx := r.noMod hop rfl
    split at h
    all_goals
      cases h
      obtain ⟨hrsv, -, hraw, -, -, hd, ha, hb, -⟩ := r
    · next hfn =>
      have htail := tail_of_sysc (x := f.tail) (by simp_all)
      simp_all [encodeFields, Fields.ext_iff, ofNat_of_toNat hfn]
    · next hfn =>
      have htail := tail_of_sysc (x := f.tail) (by simp_all)
      simp_all [encodeFields, Fields.ext_iff, ofNat_of_toNat hfn]
    · cases hraw
  case h_15 => -- rdsr
    have hx := r.noMod hop rfl
    split at h
    all_goals
      cases h
      obtain ⟨hrsv, -, hraw, -, hoper, hd, ha, hb, -⟩ := r
    · next hsr => simp_all [encodeFields, Fields.ext_iff, plain]
    · cases hoper
  all_goals
    cases h
  all_goals
    have hx := r.noMod hop rfl
    obtain ⟨hrsv, -, hraw, -, -, hd, ha, hb, -⟩ := r
    simp_all [encodeFields, Fields.ext_iff, plain]

theorem parse1_encodes {f : Fields} {lo : Nat} {p : Parsed} (hop : f.op = BitVec.ofNat 8 (0x10 + lo))
    (h : parse1 f lo = some p) (r : f.Reads p) : encodeFields p.instr = some f := by
  unfold parse1 at h
  split at h
  case h_1 => -- wrsr
    have hx := r.noMod hop rfl
    split at h
    all_goals
      cases h
      obtain ⟨hrsv, -, hraw, -, hoper, hd, ha, hb, -⟩ := r
    · next hsr => simp_all [encodeFields, Fields.ext_iff, plain]
    · cases hoper
  all_goals cases h
  all_goals
    have hx := r.noMod hop rfl
    obtain ⟨hrsv, -, hraw, -, -, hd, ha, hb, -⟩ := r
  · have htail := tail_of_mode (f := f) (by simp_all)
    simp_all [encodeFields, Fields.ext_iff] -- mode
  · simp_all [encodeFields, Fields.ext_iff, plain] -- join
  · simp_all [encodeFields, Fields.ext_iff, plain] -- tenq

theorem parse2_encodes {f : Fields} {lo : Nat} {p : Parsed} (hop : f.op = BitVec.ofNat 8 (0x20 + lo))
    (h : parse2 f lo = some p) (r : f.Reads p) : encodeFields p.instr = some f := by
  unfold parse2 at h
  split at h
  case h_15 => -- smov
    have hx := r.noMod hop rfl
    cases h
    obtain ⟨hrsv, -, hraw, -, -, hd, ha, hb, -⟩ := r
    simp_all [encodeFields, Fields.ext_iff]
  case h_16 => -- sli
    have hx := r.noMod hop rfl
    cases h
    obtain ⟨hrsv, -, hraw, -, -, hd, ha, hb, -⟩ := r
    have hfn := SliOp.ofNat_code (x := f.fn) (by simp_all)
    simp_all [encodeFields, Fields.ext_iff]
  all_goals cases h
  all_goals exact encodes_ubin hop (r.noMod hop rfl) r rfl eq_of_beq

/-- TAIL of sbfe (R124). -/
theorem tail_of_sbfe {x : BitVec 32} (h : x.extractLsb' 13 19 = 0) :
    (0 : BitVec 19) ++ x.extractLsb' 6 7 ++ x.extractLsb' 0 6 = x := by
  rw [← h]
  simp only [extract_append_extract, BitVec.extractLsb'_eq_self]

/-- AX of a space without a scope. -/
theorem axOf_noScope {f : Fields} (hsp : spaceRaw f = true) (h : noScope f = true) : axOf (spaceOf f) 0 = f.ax := by
  have hax := axOf_space hsp
  rwa [noScope_iff.mp h] at hax

theorem parse3_encodes {f : Fields} {lo : Nat} {p : Parsed} (hop : f.op = BitVec.ofNat 8 (0x30 + lo))
    (h : parse3 f lo = some p) (r : f.Reads p) : encodeFields p.instr = some f := by
  unfold parse3 at h
  split at h
  all_goals cases h
  all_goals have hx := r.noMod hop rfl
  · exact encodes_ubin hop hx r rfl fun h => (CmpOp.ofNat_code h).symm
  · obtain ⟨hrsv, -, hraw, -, -, hd, ha, hb, hc⟩ := r
    have htail := Fields.tail_of_c hx
    simp_all [encodeFields, Fields.ext_iff, Fields.withC]
  · obtain ⟨hrsv, -, hraw, -, -, hd, ha, hb, -⟩ := r
    have htail := tail_of_sbfe (x := f.tail) (by simp_all)
    simp_all [encodeFields, Fields.ext_iff, tyRaw, tyOf_bits6]
  · obtain ⟨hrsv, -, hraw, -, -, hd, ha, hb, -⟩ := r
    have hfn := SpopOp.ofNat_code (x := f.fn) (by simp_all)
    simp_all [encodeFields, Fields.ext_iff, tyRaw, tyOf_bits6]
  · obtain ⟨hrsv, -, hraw, -, -, hd, ha, hb, -⟩ := r
    have hax := axOf_noScope (f := f) (by simp_all) (by simp_all)
    simp_all [encodeFields, umemOf, Fields.ext_iff, tyRaw, tyOf_bits6]
  · obtain ⟨hrsv, -, hraw, -, -, hd, ha, hb, -⟩ := r
    have hax := axOf_noScope (f := f) (by simp_all) (by simp_all)
    simp_all [encodeFields, umemOf, Fields.ext_iff, tyRaw, tyOf_bits6]
theorem encodes_vcarry {f : Fields} {i : Instr} {op : BitVec 8} (hop : f.op = op)
    (r : f.Reads ⟨i, tyRaw f && f.fn == 0 && f.ax.extractLsb' 4 2 == 0 && f.tail3 false, true⟩)
    (hi : encodeFields i = some (encVCarry op (vcarry f))) : encodeFields i = some f := by
  have hraw := r.raw
  simp only [Bool.and_eq_true, beq_iff_eq] at hraw
  obtain ⟨⟨⟨hty, hfn⟩, hax⟩, htail⟩ := hraw
  exact hi.trans (congrArg some (encVCarry_vcarry hop r.rsv r.d r.a r.b hfn hax (r.c rfl) hty htail))

/-- The low and the high part of a field that two fields hold, the high one in the low bits of AX. -/
theorem low_of_append {n : Nat} (x : BitVec n) (y : BitVec 6) : (x ++ y).extractLsb' 0 6 = y := by
  apply BitVec.eq_of_getLsbD_eq
  intro i hi
  simp [BitVec.getLsbD_append, hi]

theorem high_of_append {n : Nat} (x : BitVec n) (y : BitVec 6) : (x ++ y).extractLsb' 6 n = x := by
  apply BitVec.eq_of_getLsbD_eq
  intro i hi
  simp [BitVec.getLsbD_append, hi]

theorem parse4_encodes {f : Fields} {lo : Nat} {p : Parsed} (hop : f.op = BitVec.ofNat 8 (0x40 + lo))
    (h : parse4 f lo = some p) (r : f.Reads p) : encodeFields p.instr = some f := by
  unfold parse4 at h
  split at h
  all_goals cases h
  case h_5 => exact encodes_vter hop r rfl eq_of_beq and_right -- mad
  case h_8 => exact encodes_vcarry hop r rfl -- addc
  case h_9 => exact encodes_vcarry hop r rfl -- subb
  case h_13 => -- lop3
    have hraw := r.raw
    simp only [Bool.and_eq_true, beq_iff_eq] at hraw
    obtain ⟨⟨hty, hax⟩, htail⟩ := hraw
    have hlow := low_of_append (f.ax.extractLsb' 0 2) f.fn
    have hhigh := congrArg (BitVec.setWidth 6) (high_of_append (f.ax.extractLsb' 0 2) f.fn)
    exact congrArg some (encVTri_vtri hop r.rsv r.d r.a r.b hlow.symm
      (hhigh.trans (setWidth_low (m := 4) hax)).symm (r.c rfl) hty htail)
  all_goals exact encodes_vbin hop r rfl eq_of_beq and_right

theorem parse5_encodes {f : Fields} {lo : Nat} {p : Parsed} (hop : f.op = BitVec.ofNat 8 (0x50 + lo))
    (h : parse5 f lo = some p) (r : f.Reads p) : encodeFields p.instr = some f := by
  have hbit : (f.fn.extractLsb' 1 5 == 0) = true → f.fn = boolBits 6 (f.fn.getLsbD 0) :=
    fun h => (boolBits_bit0 (eq_of_beq h)).symm
  unfold parse5 at h
  split at h
  all_goals cases h
  · exact encodes_vbin hop r rfl hbit and_right -- rot
  · exact encodes_vbin hop r rfl eq_of_beq and_right -- min
  · exact encodes_vbin hop r rfl eq_of_beq and_right -- max
  · exact encodes_vun hop r rfl -- abs
  · exact encodes_vun hop r rfl -- popc
  · exact encodes_vun hop r rfl -- clz
  · exact encodes_vun hop r rfl -- ctz
  · exact encodes_vun hop r rfl -- brev
  · exact encodes_vbin hop r rfl eq_of_beq and_right -- bfe
  · exact encodes_vter hop r rfl eq_of_beq and_right -- bfi
  · exact encodes_vter hop r rfl eq_of_beq and_right -- sel
  · exact encodes_vbin hop r rfl (fun h => (CmpOp.ofNat_code h).symm) and_right -- cmp
  · -- mov
    obtain ⟨hrsv, -, hraw, hfok, -, hd, ha, hb, -⟩ := r
    simp only [Bool.and_eq_true, beq_iff_eq, tyRaw] at hraw
    obtain ⟨⟨⟨⟨⟨hty, hfn⟩, hax⟩, hB⟩, hA⟩, htail⟩ := hraw
    have hax := Fields.ax_of_ibit hax
    obtain ⟨htx, ht⟩ := Fields.tail2_cases htail
    have hmod := and_right hfok
    cases hi : f.ibit with
    | true =>
      have hx := Fields.xm_of_modOk hmod (by simp [hi, Src32.isImm])
      simp_all [encodeFields, Fields.ext_iff, tyOf_bits6, Fields.imm32]
    | false =>
      simp only [encodeFields, Bool.false_eq_true, if_false, Option.some.injEq]
      refine Fields.withMod_mod htx (fun hx => ?_) fun hx => ?_
      all_goals simp_all [Fields.ext_iff, tyOf_bits6]
  · exact encodes_vter hop r rfl hbit and_right -- dot4

theorem fmaFn_eq {x : BitVec 6} (h : x.extractLsb' 2 4 = 0) :
    BitVec.ofNat 6 (2 * (x.getLsbD 1).toNat + (x.getLsbD 0).toNat) = x := by
  revert x; decide

theorem parse6_encodes {f : Fields} {lo : Nat} {p : Parsed} (hop : f.op = BitVec.ofNat 8 (0x60 + lo))
    (h : parse6 f lo = some p) (r : f.Reads p) : encodeFields p.instr = some f := by
  have hbit : (f.fn.extractLsb' 1 5 == 0) = true → f.fn = boolBits 6 (f.fn.getLsbD 0) :=
    fun h => (boolBits_bit0 (eq_of_beq h)).symm
  unfold parse6 at h
  split at h
  all_goals cases h
  · exact encodes_vbin hop r rfl eq_of_beq and_left_right -- fadd
  · exact encodes_vbin hop r rfl eq_of_beq and_left_right -- fsub
  · exact encodes_vbin hop r rfl eq_of_beq and_left_right -- fmul
  · exact encodes_vter hop r rfl (fun h => (fmaFn_eq (eq_of_beq h)).symm) and_left_right -- fma
  · exact encodes_vbin hop r rfl hbit and_left_right -- fmin
  · exact encodes_vbin hop r rfl hbit and_left_right -- fmax
  · exact encodes_vbin hop r rfl (fun h => (FcmpOp.ofNat_code h).symm) and_left_right -- fcmp
  · -- fclass
    have hraw := r.raw
    simp only [Bool.and_eq_true, beq_iff_eq] at hraw
    have hlow := low_of_append (f.ax.extractLsb' 0 4) f.fn
    have hhigh := congrArg (BitVec.setWidth 6) (high_of_append (f.ax.extractLsb' 0 4) f.fn)
    exact congrArg some (encVUn_vun hop r.rsv r.d r.a hlow.symm
      (hhigh.trans (setWidth_low (m := 2) hraw.2)).symm hraw.1)
  · exact encodes_vbin hop r rfl eq_of_beq and_left_right -- fdiv
  · exact encodes_vun hop r rfl -- fsqrt
  · exact encodes_vun hop r rfl -- frcp
  · exact encodes_vun hop r rfl -- frsq
  · exact encodes_vun hop r rfl -- fex2
  · exact encodes_vun hop r rfl -- flg2
  · exact encodes_vun hop r rfl -- fsin
  · exact encodes_vun hop r rfl -- fcos

/-- What the form of cvt leaves in B and AX (R141). -/
theorem cvtForm_fields {f : Fields} {d s : Ty} (h : (cvtForm f d s).2 = true) (hb : (opd f.b).bits = f.b) :
    (match (cvtForm f d s).1 with
      | .scalar | .repack => (0, 0)
      | .pair b => (b.bits, 0)
      | .half hi b => (b.bits, boolBits 6 hi)
      | .unpack i => (0, BitVec.ofNat 6 i)) = (f.b, f.ax) := by
  have hax1 := @boolBits_bit0 f.ax
  have hax2 (x : BitVec 6) (h : x.extractLsb' 2 4 = 0) : BitVec.ofNat 6 (x.extractLsb' 0 2).toFin.val = x := by
    revert x; decide
  unfold cvtForm at h ⊢
  split_ifs at h ⊢
  all_goals
    simp only [Bool.and_eq_true, beq_iff_eq, Fields.zeroB_iff] at h
    simp_all

theorem parse7_encodes {f : Fields} {lo : Nat} {p : Parsed} (hop : f.op = BitVec.ofNat 8 (0x70 + lo))
    (h : parse7 f lo = some p) (r : f.Reads p) : encodeFields p.instr = some f := by
  unfold parse7 at h
  split at h
  all_goals cases h
  · exact encodes_vun hop r rfl -- frnd
  · exact encodes_vbin hop r rfl eq_of_beq and_right -- fscl
  · -- cvt
    obtain ⟨hrsv, -, hraw, -, -, hd, ha, hb, -⟩ := r
    simp only [Bool.and_eq_true, tyRaw] at hraw
    obtain ⟨⟨⟨hty, hfn⟩, hform⟩, htail⟩ := hraw
    have hform := cvtForm_fields hform hb
    obtain ⟨htx, ht⟩ := Fields.tail2_cases htail
    simp only [encodeFields, Option.some.injEq]
    refine Fields.withMod_mod htx (fun hx => ?_) fun hx => ?_
    all_goals
      cases hc : (cvtForm f (tyOf f.ty) (tyOf f.fn)).1 <;> simp_all [Fields.ext_iff, tyOf_bits6]
  · -- fdot
    have hraw := r.raw
    simp only [Bool.and_eq_true, beq_iff_eq] at hraw
    obtain ⟨⟨⟨hty, hfn⟩, hax⟩, htail⟩ := hraw
    exact congrArg some (encVTri_vtri hop r.rsv r.d r.a r.b (boolBits_bit0 hfn).symm hax (r.c rfl) hty htail)
theorem qswpAx_eq {x : BitVec 6} (h : x.extractLsb' 2 4 = 0) : BitVec.ofNat 6 (x.extractLsb' 0 2).toFin.val = x := by
  revert x; decide

/-- FN and AX of qswp, from its partner (R145). -/
theorem encodes_qswp {f : Fields} {op : BitVec 8} (hop : f.op = op) (h80 : op = 0x80)
    (r : f.Reads ⟨.qswp (qdirOf f) (vun f), vunRaw f && f.fn.toNat ≤ 3 && f.ax.extractLsb' 2 4 == 0
      && (f.fn == 3 || f.ax == 0), false⟩) : encodeFields (.qswp (qdirOf f) (vun f)) = some f := by
  subst h80
  have hraw := r.raw
  simp only [Bool.and_eq_true, Bool.or_eq_true, decide_eq_true_eq, beq_iff_eq] at hraw
  obtain ⟨⟨⟨hraw, hle⟩, hax⟩, hor⟩ := hraw
  have henc {fn ax : BitVec 6} (h1 : f.fn = fn) (h2 : f.ax = ax) : encVUn 0x80 fn ax (vun f) = f :=
    encVUn_vun hop r.rsv r.d r.a h1 h2 hraw
  have hzero (hne : f.fn ≠ 3) : f.ax = 0 := hor.resolve_left hne
  obtain hfn | hfn | hfn | hfn : f.fn = 0 ∨ f.fn = 1 ∨ f.fn = 2 ∨ f.fn = 3 := by
    revert hle
    generalize f.fn = x
    revert x; decide
  · simpa [encodeFields, qdirOf, hfn] using henc hfn (hzero (by simp [hfn]))
  · simpa [encodeFields, qdirOf, hfn] using henc hfn (hzero (by simp [hfn]))
  · simpa [encodeFields, qdirOf, hfn] using henc hfn (hzero (by simp [hfn]))
  · have hb := henc hfn (qswpAx_eq hax).symm
    simpa [encodeFields, qdirOf, hfn] using hb

/-- AX of shfl: the mask register, and the immediate bit (R146). -/
theorem shflAx_eq {x : BitVec 6} (h : x.getLsbD 5 = false) :
    BitVec.ofNat 6 (x.extractLsb' 0 4).toFin.val ||| (if x.getLsbD 4 then 0x10 else 0) = x := by
  revert x; decide

theorem scanFn_of_wred {x : BitVec 6} (h : (ScanOp.ofCode (x.extractLsb' 0 3).toNat).isSome = true)
    (h3 : x.extractLsb' 3 3 = 0) : BitVec.ofNat 6 ((ScanOp.ofCode (x.extractLsb' 0 3).toNat).getD .add).code = x := by
  revert x; decide

/-- The mask instructions, whose TY and AX are zero (R151 to R154). -/
theorem withMod_mask {f : Fields} {d a b : BitVec 10} {fn : BitVec 6} {op : BitVec 8} (hop : f.op = op) (hrsv : f.rsv = false)
    (hd : d = f.d) (ha : a = f.a) (hb : b = f.b) (hfn : fn = f.fn) (hty : f.ty = 0) (hax : f.ax = 0)
    (htail : f.tail2 false = true) :
    ({ Fields.base op f.head with d := d, a := a, b := b, fn := fn } : Fields).withMod f.mod 0 = f := by
  obtain ⟨htx, ht⟩ := Fields.tail2_cases htail
  refine Fields.withMod_mod htx (fun hx => ?_) fun hx => ?_
  all_goals simp_all [Fields.ext_iff]

theorem parse8_encodes {f : Fields} {lo : Nat} {p : Parsed} (hop : f.op = BitVec.ofNat 8 (0x80 + lo))
    (h : parse8 f lo = some p) (r : f.Reads p) : encodeFields p.instr = some f := by
  unfold parse8 at h
  split at h
  all_goals cases h
  · exact encodes_qswp hop rfl r
  · -- shfl
    obtain ⟨hrsv, -, hraw, hfok, -, hd, ha, hb, -⟩ := r
    simp only [Bool.and_eq_true, Bool.not_eq_true', tyRaw, Fields.immB] at hraw
    obtain ⟨⟨⟨⟨hty, hfn⟩, h5⟩, hB⟩, htail⟩ := hraw
    have hfn := ShflOp.ofNat_code hfn
    have hax := shflAx_eq h5
    obtain ⟨htx, ht⟩ := Fields.tail2_cases htail
    have hmod := and_right hfok
    cases hi : f.ibit with
    | true =>
      have hx := Fields.xm_of_modOk hmod (by simp [Fields.src32, hi, Src32.isImm])
      simp_all [encodeFields, Fields.ext_iff, tyOf_bits6, Fields.imm32, Fields.src32, Fields.ibit]
    | false =>
      simp only [encodeFields, Fields.src32, hi, Bool.false_eq_true, if_false, Option.some.injEq]
      refine Fields.withMod_mod htx (fun hx => ?_) fun hx => ?_
      all_goals simp_all [Fields.ext_iff, tyOf_bits6, Fields.ibit]
  · -- vote
    have hraw := r.raw
    simp only [Bool.and_eq_true, beq_iff_eq] at hraw
    obtain ⟨⟨hraw, hfn⟩, hax⟩ := hraw
    exact congrArg some (encVUn_vun hop r.rsv r.d r.a (VoteOp.ofNat_code hfn).symm hax hraw)
  · -- kop
    have hraw := r.raw
    simp only [Bool.and_eq_true, beq_iff_eq] at hraw
    obtain ⟨hfn, ⟨hty, hax⟩, htail⟩ := hraw
    exact congrArg some (withMod_mask hop r.rsv r.d r.a r.b (KopOp.ofNat_code hfn) hty hax htail)
  · -- kcnt
    have hraw := r.raw
    simp only [Bool.and_eq_true, beq_iff_eq, Fields.zeroB_iff] at hraw
    obtain ⟨⟨hfn, ⟨hty, hax⟩, htail⟩, hB⟩ := hraw
    exact congrArg some (withMod_mask hop r.rsv r.d r.a hB.symm (boolBits_bit0 hfn) hty hax htail)
  · -- kfst
    have hraw := r.raw
    simp only [Bool.and_eq_true, beq_iff_eq, Fields.zeroB_iff] at hraw
    obtain ⟨⟨hfn, ⟨hty, hax⟩, htail⟩, hB⟩ := hraw
    exact congrArg some (withMod_mask hop r.rsv r.d r.a hB.symm (boolBits_bit0 hfn) hty hax htail)
  · -- scan
    have hraw := r.raw
    simp only [Bool.and_eq_true, beq_iff_eq] at hraw
    obtain ⟨⟨⟨hraw, hop3⟩, h4⟩, hax⟩ := hraw
    exact congrArg some (encVUn_vun hop r.rsv r.d r.a (ScanOp.ofNat_code hop3 h4).symm hax hraw)
  · -- wred
    have hraw := r.raw
    simp only [Bool.and_eq_true, beq_iff_eq] at hraw
    obtain ⟨⟨⟨hraw, hop3⟩, h3⟩, hax⟩ := hraw
    exact congrArg some (encVUn_vun hop r.rsv r.d r.a (scanFn_of_wred hop3 h3).symm hax hraw)
  · -- reord
    obtain ⟨hrsv, -, hraw, -, -, hd, ha, hb, -⟩ := r
    simp only [Bool.and_eq_true, beq_iff_eq, tyRaw] at hraw
    obtain ⟨⟨⟨hty, hfn⟩, hax⟩, htail⟩ := hraw
    have hfn := boolBits_bit0 hfn
    obtain ⟨htx, ht⟩ := Fields.tail2_cases htail
    simp only [encodeFields, Option.some.injEq]
    refine Fields.withMod_mod htx (fun hx => ?_) fun hx => ?_
    all_goals simp_all [vtri, Fields.ext_iff, tyOf_bits6]
  · -- kset
    have hraw := r.raw
    simp only [Bool.and_eq_true, beq_iff_eq, Fields.zeroB_iff] at hraw
    obtain ⟨⟨hfn, ⟨hty, hax⟩, htail⟩, hB⟩ := hraw
    exact congrArg some (withMod_mask hop r.rsv r.d r.a hB.symm (KsetOp.ofNat_code hfn) hty hax htail)

/-! ### Memory (R163 to R182) -/

theorem fn3_of_ld {x : BitVec 6} (h : x.extractLsb' 3 3 = 0) : x.getLsbD 3 = false ∧ x.extractLsb' 4 2 = 0 := by
  revert x; decide

theorem encodes_stSy {f : Fields} (hop : f.op = 0x91) (h3 : f.fn.getLsbD 3 = true) {x : MemSy}
    (hxs : x = { h := f.head, mod := f.mod, ty := tyOf f.ty, sp := spaceOf f, ord := memOrd f, nt := f.fn.getLsbD 2,
                 r := opd f.b, a := opd f.a, c := opd f.c, off := f.imm22 })
    (r : f.Reads ⟨.stSy x, tyRaw f && spaceRaw f && memOrdRaw f && f.fn.extractLsb' 4 2 == 0 && f.zeroD && f.tail3 true, true⟩) :
    encodeFields (.stSy x) = some f := by
  subst hxs
  obtain ⟨hrsv, -, hraw, -, -, hd, ha, hb, hc⟩ := r
  simp only [Bool.and_eq_true, beq_iff_eq, tyRaw] at hraw
  obtain ⟨⟨⟨⟨⟨hty, hsp⟩, hord⟩, h4⟩, hD⟩, htail⟩ := hraw
  obtain ⟨htx, -⟩ := Fields.tail3_cases htail
  have hfn := memFn_eq (x := f.fn) (by simp only [memOrdRaw, Bool.and_eq_true, Bool.not_eq_true'] at hord; exact hord.1) h4
  rw [h3, Bool.toNat_true, Nat.mul_one, ← memOrd_isSome] at hfn
  have hax := axOf_space hsp
  rw [← ordScope_memOrd hord] at hax
  simp only [encodeFields, hc rfl, spaceOf, Option.some.injEq]
  refine Fields.withMod_mod (fun hx => ⟨rfl, htx hx⟩) (fun hx => ?_) fun hx => ?_
  · have htail := Fields.tail_of_c hx
    simp_all [Fields.ext_iff, tyOf_bits6, Fields.withC, Fields.imm22]
  · simp_all [Fields.ext_iff, tyOf_bits6, Fields.withC]

/-- TAIL of ldx and stc: the count over operand code C (R167). -/
theorem tail_of_expand {f : Fields} (hx : f.xm = false) (h : f.tail.extractLsb' 17 15 = 0) :
    (f.tail.extractLsb' 10 7).setWidth 22 ++ f.c = f.tail := by
  rw [setWidth_extract (m := 15) (l := 7) h]
  exact Fields.tail_of_c hx

theorem fenceAx_eq {x : BitVec 6} (h : x.extractLsb' 0 3 = 0) :
    BitVec.ofNat 6 (8 * (x.extractLsb' 3 3).toNat) = x := by
  revert x; decide

theorem parse9_encodes {f : Fields} {lo : Nat} {p : Parsed} (hop : f.op = BitVec.ofNat 8 (0x90 + lo))
    (h : parse9 f lo = some p) (r : f.Reads p) : encodeFields p.instr = some f := by
  unfold parse9 at h
  split at h
  case h_1 => -- ld
    cases h
    have hraw := r.raw
    simp only [Bool.and_eq_true, beq_iff_eq, Fields.zeroB_iff] at hraw
    obtain ⟨⟨⟨⟨⟨hty, hsp⟩, hord⟩, h3⟩, hB⟩, htail⟩ := hraw
    obtain ⟨h3, h4⟩ := fn3_of_ld h3
    exact congrArg some (encMem_memOf r.a hop r.rsv r.d hB.symm hty hsp hord h3 h4 htail)
  case h_2 => -- st, st.sy
    split at h
    all_goals cases h
    · next h3 => exact encodes_stSy hop h3 rfl r
    · next h3 =>
      have hraw := r.raw
      simp only [Bool.and_eq_true, beq_iff_eq, Fields.zeroD_iff] at hraw
      obtain ⟨⟨⟨⟨⟨hty, hsp⟩, hord⟩, h4⟩, hD⟩, htail⟩ := hraw
      exact congrArg some (encMem_memOf r.a hop r.rsv hD.symm r.b hty hsp hord (Bool.eq_false_iff.mpr h3) h4 htail)
  all_goals cases h
  all_goals have hx := r.noMod hop rfl
  case h_3 => -- ldx
    obtain ⟨hrsv, -, hraw, -, -, hd, ha, hb, hc⟩ := r
    simp only [expandRaw, Bool.and_eq_true, beq_iff_eq, tyRaw] at hraw
    obtain ⟨⟨⟨⟨⟨hty, hfn⟩, hsp⟩, hsc⟩, ht⟩, hB⟩ := hraw
    have hax := axOf_noScope hsp hsc
    have htail := tail_of_expand hx ht
    simp_all [encodeFields, expandOf, Fields.ext_iff, Fields.withC, tyOf_bits6]
  case h_4 => -- stc
    obtain ⟨hrsv, -, hraw, -, -, hd, ha, hb, hc⟩ := r
    simp only [expandRaw, Bool.and_eq_true, beq_iff_eq, tyRaw] at hraw
    obtain ⟨⟨⟨⟨hty, hfn⟩, hsp⟩, hsc⟩, ht⟩ := hraw
    have hax := axOf_noScope hsp hsc
    have htail := tail_of_expand hx ht
    simp_all [encodeFields, expandOf, Fields.ext_iff, Fields.withC, tyOf_bits6]
  case h_9 => exact congrArg some (encAtom_atom hop r.rsv r.d r.a r.b hx (r.c rfl) r.raw) -- atom
  case h_11 => exact congrArg some (encAtom_atom hop r.rsv r.d r.a r.b hx (r.c rfl) r.raw) -- redx
  all_goals obtain ⟨hrsv, -, hraw, -, -, hd, ha, hb, -⟩ := r
  all_goals simp only [Bool.and_eq_true, beq_iff_eq, tyRaw] at hraw
  · -- swp
    obtain ⟨⟨⟨hfn, hty⟩, hax⟩, ht⟩ := hraw
    have hfn := SwpOp.ofNat_code hfn
    have htail := setWidth_low (l := 12) (m := 20) ht
    simp_all [encodeFields, Fields.ext_iff, tyOf_bits6]
  · -- itx
    obtain ⟨⟨⟨hfn, hty⟩, hax⟩, ht⟩ := hraw
    have hfn := SwpOp.ofNat_code hfn
    simp_all [encodeFields, Fields.ext_iff, tyOf_bits6]
  · -- itld
    have hax := axOf_noScope hraw.1.2 hraw.2
    simp_all [encodeFields, Fields.ext_iff]
  · -- itst
    have hax := axOf_noScope hraw.1.2 hraw.2
    simp_all [encodeFields, Fields.ext_iff]
  · -- red
    simp only [atomRaw, Bool.and_eq_true, tyRaw] at hraw
    obtain ⟨⟨⟨⟨hty, hsp⟩, ho⟩, hord⟩, hD⟩ := hraw
    have hax := axOf_space hsp
    rw [← ordOf_scope hord] at hax
    have hfn := AtomOp.ofNat_code ho
    rw [← ordOf_code] at hfn
    simp_all [encodeFields, atomOpOf, spaceOf, Fields.ext_iff, tyOf_bits6]
  · -- fence
    obtain ⟨⟨⟨⟨⟨⟨⟨hfn, hD⟩, hA⟩, hB⟩, hty⟩, h0⟩, hsc⟩, ht⟩ := hraw
    have hfn := FenceKind.ofNat_code hfn
    have hax := fenceAx_eq h0
    rw [← Scope.code_ofCode hsc] at hax
    simp_all [encodeFields, scopeOf, Fields.ext_iff]
  · -- pref
    have hfn := boolBits_bit0 (x := f.fn) hraw.1.1.2
    simp_all [encodeFields, Fields.ext_iff]
  · simp_all [encodeFields, Fields.ext_iff, plain] -- seal
  · simp_all [encodeFields, Fields.ext_iff, plain] -- unseal
/-! ### Synchronisation (R183) -/

/-- TAIL of bar with an immediate (R183). -/
theorem tail_of_bar {x : BitVec 32} (h : x.extractLsb' 16 16 = 0) :
    (0 : BitVec 16) ++ x.extractLsb' 5 11 ++ x.extractLsb' 0 5 = x := by
  rw [← h]
  simp only [extract_append_extract, BitVec.extractLsb'_eq_self]

theorem encodes_bar {f : Fields} (hop : f.op = 0xA0) (hx : f.xm = false) {i : Instr}
    (r : f.Reads ⟨i, (BarKind.ofCode (f.fn.extractLsb' 0 2).toNat).isSome && f.fn.extractLsb' 2 3 == 0 && f.zeroD
      && f.ty == 0 && f.ax == 0
      && (if f.fn.getLsbD 5 then f.zeroA && f.zeroB && f.tail.extractLsb' 16 16 == 0 else f.tail == 0), false⟩)
    (hi : i = .bar f.head ((BarKind.ofCode (f.fn.extractLsb' 0 2).toNat).getD .arrive)
      (if f.fn.getLsbD 5 then .imm (f.tail.extractLsb' 0 5) (f.tail.extractLsb' 5 11) else .reg (opd f.a) (opd f.b))) :
    encodeFields i = some f := by
  obtain ⟨hrsv, -, hraw, -, -, hd, ha, hb, -⟩ := r
  subst hi
  simp only [Bool.and_eq_true, beq_iff_eq] at hraw
  obtain ⟨⟨⟨⟨⟨hk, h2⟩, hD⟩, hty⟩, hax⟩, hif⟩ := hraw
  have hfn := BarKind.ofNat_code hk h2
  cases h5 : f.fn.getLsbD 5 with
  | true =>
    have htail := tail_of_bar (x := f.tail) (by simp_all)
    simp_all [encodeFields, Fields.ext_iff]
  | false => simp_all [encodeFields, Fields.ext_iff]

theorem ctrAx_eq {x : BitVec 6} (h : x.extractLsb' 1 2 = 0) :
    BitVec.ofNat 6 ((x.getLsbD 0).toNat + 8 * (x.extractLsb' 3 3).toNat) = x := by
  revert x; decide

theorem ctrFn_eq {x : BitVec 6} (h : x.extractLsb' 0 5 = 0) : (if x.getLsbD 5 then 0 ||| 0x20 else 0) = x := by
  revert x; decide

theorem syncFn_eq {x : BitVec 6} (h : x.extractLsb' 1 4 = 0) :
    (if x.getLsbD 5 then boolBits 6 (x.getLsbD 0) ||| 0x20 else boolBits 6 (x.getLsbD 0)) = x := by
  revert x; decide

theorem encSync_ctr {f : Fields} {op : BitVec 8} (hop : f.op = op) (hrsv : f.rsv = false) (hx : f.xm = false)
    (ha : (opd f.a).bits = f.a) (hb : (opd f.b).bits = f.b) (hraw : ctrRaw f = true) :
    encSync { Fields.base op (ctrOf f).h with
      a := (ctrOf f).a.bits, ax := BitVec.ofNat 6 ((ctrOf f).crew.toNat + 8 * (ctrOf f).scope.code) } (ctrOf f).b = f := by
  simp only [ctrRaw, Bool.and_eq_true, beq_iff_eq, Fields.zeroD_iff] at hraw
  obtain ⟨⟨⟨⟨⟨hD, hfn⟩, hty⟩, h1⟩, hsc⟩, hB⟩ := hraw
  have hax := ctrAx_eq h1
  rw [← Scope.code_ofCode hsc] at hax
  refine encSync_syncB hop hrsv hb hB ?_ ?_ ?_ ?_
  · simp_all [ctrOf, scopeOf, Fields.ext_iff]
  · simp [ctrOf]
  · simp [ctrOf]
  · simpa [ctrOf] using ctrFn_eq hfn

/-- syarm, sywait, chwait and chtst (R183), which differ in D. -/
theorem encSync_sync {f : Fields} {op : BitVec 8} (hop : f.op = op) (hrsv : f.rsv = false) (hx : f.xm = false)
    {d : BitVec 10} (hd : d = f.d) (ha : (opd f.a).bits = f.a) (hb : (opd f.b).bits = f.b) (hraw : syncRaw f = true) :
    encSync { Fields.base op (syncOf f).h with
      d := d, a := (syncOf f).a.bits, fn := boolBits 6 (syncOf f).flag } (syncOf f).b = f := by
  simp only [syncRaw, Bool.and_eq_true, beq_iff_eq] at hraw
  obtain ⟨⟨⟨hfn, hty⟩, hax⟩, hB⟩ := hraw
  refine encSync_syncB hop hrsv hb hB ?_ ?_ ?_ ?_
  · simp_all [syncOf, Fields.ext_iff]
  · simp [syncOf]
  · simp [syncOf]
  · simpa [syncOf] using syncFn_eq hfn

theorem parseA_encodes {f : Fields} {lo : Nat} {p : Parsed} (hop : f.op = BitVec.ofNat 8 (0xA0 + lo))
    (h : parseA f lo = some p) (r : f.Reads p) : encodeFields p.instr = some f := by
  unfold parseA at h
  split at h
  all_goals cases h
  all_goals have hx := r.noMod hop rfl
  case h_1 => exact encodes_bar hop hx r rfl
  case h_2 => exact congrArg some (encSync_ctr hop r.rsv hx r.a r.b r.raw) -- cadd
  case h_3 => exact congrArg some (encSync_ctr hop r.rsv hx r.a r.b r.raw) -- cwait
  case h_7 => exact congrArg some (encSync_sync hop r.rsv hx r.d r.a r.b r.raw) -- chtst
  all_goals obtain ⟨hrsv, -, hraw, -, -, hd, ha, hb, -⟩ := r
  all_goals simp only [Bool.and_eq_true, beq_iff_eq, Fields.zeroD_iff] at hraw
  · exact congrArg some (encSync_sync hop hrsv hx hraw.2.symm ha hb hraw.1) -- syarm
  · exact congrArg some (encSync_sync hop hrsv hx hraw.1.2.symm ha hb hraw.1.1) -- sywait
  · exact congrArg some (encSync_sync hop hrsv hx hraw.2.symm ha hb hraw.1) -- chwait
  · -- qbind
    have hfn := QKind.ofNat_code hraw.1.1.1.1
    simp_all [encodeFields, Fields.ext_iff]
  · simp_all [encodeFields, Fields.ext_iff, plain] -- qfree
  · -- qpoll
    have hfn := boolBits_bit0 (x := f.fn) hraw.1.1.1.2
    simp_all [encodeFields, Fields.ext_iff]

/-! ### Matrix (R196) -/

theorem tail_of_wbld {x : BitVec 32} (h : x.extractLsb' 0 20 = 0) : x.extractLsb' 20 12 ++ (0 : BitVec 20) = x := by
  rw [← h]
  simp only [extract_append_extract, BitVec.extractLsb'_eq_self]

theorem tail_of_mdrn {x : BitVec 32} (h : x.extractLsb' 12 8 = 0) :
    x.extractLsb' 20 12 ++ (0 : BitVec 8) ++ x.extractLsb' 6 6 ++ x.extractLsb' 0 6 = x := by
  rw [← h]
  simp only [extract_append_extract, BitVec.extractLsb'_eq_self]

theorem tail_of_vmm {x : BitVec 32} (h : x.extractLsb' 14 18 = 0) :
    (0 : BitVec 18) ++ x.extractLsb' 7 7 ++ x.extractLsb' 0 7 = x := by
  rw [← h]
  simp only [extract_append_extract, BitVec.extractLsb'_eq_self]

theorem parseB_encodes {f : Fields} {lo : Nat} {p : Parsed} (hop : f.op = BitVec.ofNat 8 (0xB0 + lo))
    (h : parseB f lo = some p) (r : f.Reads p) : encodeFields p.instr = some f := by
  unfold parseB at h
  split at h
  all_goals cases h
  all_goals have hx := r.noMod hop rfl
  case h_2 => exact congrArg some (encMma_mma hop r.rsv r.d r.a r.b hx r.raw) -- mma
  case h_3 => exact congrArg some (encMma_mma hop r.rsv r.d r.a r.b hx r.raw) -- mmac
  case h_4 => exact congrArg some (encTile_tile hop r.rsv r.d r.a hx r.raw) -- tld
  case h_5 => exact congrArg some (encTile_tile hop r.rsv r.d r.a hx r.raw) -- tst
  case h_7 => exact congrArg some (encTile_tile hop r.rsv r.d r.a hx r.raw) -- tzro
  all_goals obtain ⟨hrsv, -, hraw, -, -, hd, ha, hb, -⟩ := r
  all_goals simp only [Bool.and_eq_true, beq_iff_eq, tyRaw] at hraw
  · -- mfmt
    have hax := boolBits_bit0 (x := f.ax) (by simp_all)
    cases hi : f.ax.getLsbD 0 with
    | true =>
      have htail := setWidth_low (l := 22) (m := 10) (x := f.tail) (by simp_all)
      simp_all [encodeFields, Fields.ext_iff, boolBits]
    | false => simp_all [encodeFields, Fields.ext_iff, boolBits]
  · -- trow
    obtain ⟨⟨⟨⟨hfn, hty⟩, hax⟩, ht⟩, hif⟩ := hraw
    have hfn := boolBits_bit0 hfn
    have htail := setWidth_low (l := 7) (m := 25) ht
    cases hi : f.fn.getLsbD 0 <;> simp_all [encodeFields, Fields.ext_iff]
  · -- wbld
    obtain ⟨⟨⟨⟨hB, hfn⟩, hty⟩, hax⟩, ht⟩ := hraw
    have hax := bits01_eq hax
    have htail := tail_of_wbld ht
    simp_all [encodeFields, Fields.ext_iff]
  · -- wbinv
    obtain ⟨⟨⟨⟨⟨⟨hD, hB⟩, hfn⟩, hty⟩, hax⟩, ht⟩, hall⟩ := hraw
    have hfn := boolBits_bit0 hfn
    have hax := boolBits_bit0 hax
    have htail := tail_of_wbinv ht
    cases hi : f.fn.getLsbD 0 with
    | true =>
      have h0 : f.tail.extractLsb' 0 20 = 0 := by
        rw [hi, Bool.not_true, Bool.false_or, Bool.and_eq_true, beq_iff_eq] at hall
        rw [← extract_append_extract (k := 0) (l := 13) (m := 7) f.tail rfl, ht, hall.2]
        rfl
      have htail := tail_of_wbld h0
      simp_all [encodeFields, Fields.ext_iff, boolBits]
    | false => simp_all [encodeFields, Fields.ext_iff, boolBits]
  · -- mdrn
    obtain ⟨⟨⟨hty, hrm⟩, hax⟩, ht⟩ := hraw
    have hfn := mdrnFn_eq hrm
    have hax := bits01_eq hax
    have htail := tail_of_mdrn ht
    simp_all [encodeFields, Fields.ext_iff, tyOf_bits6]
  · -- vmm
    obtain ⟨⟨⟨hty, hfn⟩, hax⟩, ht⟩ := hraw
    have hfn := boolBits_bit0 hfn
    have htail := tail_of_vmm ht
    simp_all [encodeFields, Fields.ext_iff, tyOf_bits6]
  · -- mbst
    have htail := setWidth_low (l := 12) (m := 20) (x := f.tail) hraw.2
    simp_all [encodeFields, Fields.ext_iff]
  · simp_all [encodeFields, Fields.ext_iff, plain] -- opfence
  · -- kmma
    have hfn := boolBits_bit0 (x := f.fn) hraw.1.1.1
    simp_all [encodeFields, Fields.ext_iff]

/-! ### Sampling, tracing, random numbers (R231) -/

theorem smplAx_eq {x : BitVec 6} (h : x.getLsbD 5 = false) :
    BitVec.ofNat 6 ((0#1 ++ x.extractLsb' 0 3).toNat + 8 * (x.extractLsb' 3 2).toNat) = x := by
  revert x; decide

theorem axCrd_eq {x : BitVec 6} (h0 : x.extractLsb' 0 3 = 0) (h5 : x.getLsbD 5 = false) : axCrd (x.extractLsb' 3 2) = x := by
  revert x; decide

theorem smpgFn_eq {x : BitVec 6} (h : x.extractLsb' 4 2 = 0) :
    BitVec.ofNat 6 ((x.extractLsb' 0 2).toFin.val + 4 * (x.extractLsb' 2 2).toNat) = x := by
  revert x; decide

theorem fn4_of_smpl {f : Fields} (h : smplRaw f = true) : f.fn.extractLsb' 4 2 = 0 := by
  simp only [smplRaw, Bool.and_eq_true, beq_iff_eq] at h
  exact h.1.2

theorem parseC_encodes {f : Fields} {lo : Nat} {p : Parsed} (hop : f.op = BitVec.ofNat 8 (0xC0 + lo))
    (h : parseC f lo = some p) (r : f.Reads p) : encodeFields p.instr = some f := by
  unfold parseC at h
  split at h
  all_goals cases h
  all_goals have hx := r.noMod hop rfl
  all_goals obtain ⟨hrsv, -, hraw, -, -, hd, ha, hb, hc⟩ := r
  all_goals simp only [Bool.and_eq_true, beq_iff_eq, Bool.not_eq_true'] at hraw
  · -- smpl
    obtain ⟨⟨hraw, hfilt⟩, h5⟩ := hraw
    exact congrArg some (encSmpl_smpl hop hrsv hd ha hb hx (hc rfl) hraw (smplAx_eq h5)
      (Filt.ofNat_code hfilt (fn4_of_smpl hraw)))
  · -- smpg
    obtain ⟨⟨hraw, h0⟩, h5⟩ := hraw
    exact congrArg some (encSmpl_smpl hop hrsv hd ha hb hx (hc rfl) hraw (axCrd_eq h0 h5) (smpgFn_eq (fn4_of_smpl hraw)))
  · -- smpq
    obtain ⟨⟨⟨⟨hfn, hty⟩, ht⟩, h0⟩, h5⟩ := hraw
    have hfn := boolBits_bit0 hfn
    have hax := axCrd_eq h0 h5
    simp_all [encodeFields, Fields.ext_iff]
  · -- latf
    obtain ⟨⟨hraw, hfilt⟩, h4⟩ := hraw
    exact congrArg some (encSmpl_smpl hop hrsv hd ha hb hx (hc rfl) hraw (setWidth_low (l := 4) (m := 2) h4)
      (Filt.ofNat_code hfilt (fn4_of_smpl hraw)))
  · -- wcpin
    have hfn := boolBits_bit0 (x := f.fn) hraw.1.1.1.2
    simp_all [encodeFields, Fields.ext_iff]
  · -- wcinv
    obtain ⟨⟨⟨⟨⟨⟨hD, hB⟩, hfn⟩, hty⟩, hax⟩, ht⟩, hall⟩ := hraw
    have hfn := boolBits_bit0 hfn
    cases hi : f.fn.getLsbD 0 <;> simp_all [encodeFields, Fields.ext_iff, boolBits]
  · -- trace
    have hfn := bits01_eq (x := f.fn) hraw.1.1.2
    simp_all [encodeFields, Fields.ext_iff]
  · -- hitld
    have hfn := HitField.ofNat_code (x := f.fn) (by simp_all)
    simp_all [encodeFields, Fields.ext_iff]
  · -- vbld
    obtain ⟨⟨⟨hfn, hty⟩, hax⟩, ht⟩ := hraw
    have hfn := VbField.ofNat_code hfn
    have hax := setWidth_low (l := 3) (m := 3) hax
    simp_all [encodeFields, Fields.ext_iff]
  · -- rng
    obtain ⟨⟨⟨⟨⟨hfn, hA⟩, hB⟩, hty⟩, hax⟩, ht⟩ := hraw
    have hfn := boolBits_bit0 hfn
    have hax := setWidth_low (l := 2) (m := 4) hax
    simp_all [encodeFields, Fields.ext_iff]
  · -- rngset
    have hfn := RngSet.ofNat_code (x := f.fn) (by simp_all)
    simp_all [encodeFields, Fields.ext_iff]
  · -- rngadv
    have hax := boolBits_bit0 (x := f.ax) (by simp_all)
    cases hi : f.ax.getLsbD 0 <;> simp_all [encodeFields, Fields.ext_iff, boolBits]
  · -- rngget
    have hfn := boolBits_bit0 (x := f.fn) (by simp_all)
    simp_all [encodeFields, Fields.ext_iff]
/-! ## All rows -/

theorem op_of_block {x : BitVec 8} {k : Nat} (h : x.toNat / 16 = k) : x = BitVec.ofNat 8 (16 * k + x.toNat % 16) :=
  ofNat_of_toNat (by omega)

theorem parse_encodes {f : Fields} {p : Parsed} (h : parse f = some p) (r : f.Reads p) : encodeFields p.instr = some f := by
  unfold parse at h
  dsimp only at h
  split at h
  next hk => exact parse0_encodes (by simpa using op_of_block hk) h r
  next hk => exact parse1_encodes (op_of_block hk) h r
  next hk => exact parse2_encodes (op_of_block hk) h r
  next hk => exact parse3_encodes (op_of_block hk) h r
  next hk => exact parse4_encodes (op_of_block hk) h r
  next hk => exact parse5_encodes (op_of_block hk) h r
  next hk => exact parse6_encodes (op_of_block hk) h r
  next hk => exact parse7_encodes (op_of_block hk) h r
  next hk => exact parse8_encodes (op_of_block hk) h r
  next hk => exact parse9_encodes (op_of_block hk) h r
  next hk => exact parseA_encodes (op_of_block hk) h r
  next hk => exact parseB_encodes (op_of_block hk) h r
  next hk => exact parseC_encodes (op_of_block hk) h r
  next => cases h

theorem Fields.pack_unpack (w : InstrWord) : (Fields.unpack w).pack = w := by
  simp only [pack, unpack, ofBool_getLsbD, extract_append_extract, BitVec.extractLsb'_eq_self]

/-- A word that decodes is the word of its instruction. -/
theorem encode_of_decode {w : InstrWord} {i : Instr} (h : decode w = .ok i) : encode i = some w := by
  obtain ⟨p, hp, r, rfl⟩ := Fields.decodeFields_reads h
  rw [encode, parse_encodes hp r, Option.map_some, Fields.pack_unpack]

/-! ## Opcodes that R68 does not assign -/

theorem decodeFields_opcode {f : Fields} : decodeFields f = .error .opcode ↔ parse f = none := by
  unfold decodeFields
  split
  next h => simp [h]
  next p h =>
    simp only [h, reduceCtorEq, iff_false]
    split_ifs <;> simp

theorem parse0_eq_none {f : Fields} {lo : Nat} : parse0 f lo = none ↔ ¬(1 ≤ lo ∧ lo ≤ 15) := by
  unfold parse0
  split
  case h_16 =>
    simp only [imp_false] at *
    simp
    omega
  all_goals try split
  all_goals simp

theorem parse1_eq_none {f : Fields} {lo : Nat} : parse1 f lo = none ↔ ¬(lo ≤ 3) := by
  unfold parse1
  split
  case h_5 =>
    simp only [imp_false] at *
    simp
    omega
  all_goals try split
  all_goals simp

theorem parse2_eq_none {f : Fields} {lo : Nat} : parse2 f lo = none ↔ ¬(lo ≤ 15) := by
  unfold parse2
  split
  case h_17 =>
    simp only [imp_false] at *
    simp
    omega
  all_goals simp

theorem parse3_eq_none {f : Fields} {lo : Nat} : parse3 f lo = none ↔ ¬(lo ≤ 5) := by
  unfold parse3
  split
  case h_7 =>
    simp only [imp_false] at *
    simp
    omega
  all_goals simp

theorem parse4_eq_none {f : Fields} {lo : Nat} : parse4 f lo = none ↔ ¬(lo ≤ 15) := by
  unfold parse4
  split
  case h_17 =>
    simp only [imp_false] at *
    simp
    omega
  all_goals simp

theorem parse5_eq_none {f : Fields} {lo : Nat} : parse5 f lo = none ↔ ¬(lo ≤ 13) := by
  unfold parse5
  split
  case h_15 =>
    simp only [imp_false] at *
    simp
    omega
  all_goals simp

theorem parse6_eq_none {f : Fields} {lo : Nat} : parse6 f lo = none ↔ ¬(lo ≤ 15) := by
  unfold parse6
  split
  case h_17 =>
    simp only [imp_false] at *
    simp
    omega
  all_goals simp

theorem parse7_eq_none {f : Fields} {lo : Nat} : parse7 f lo = none ↔ ¬(lo ≤ 3) := by
  unfold parse7
  split
  case h_5 =>
    simp only [imp_false] at *
    simp
    omega
  all_goals simp

theorem parse8_eq_none {f : Fields} {lo : Nat} : parse8 f lo = none ↔ ¬(lo ≤ 9) := by
  unfold parse8
  split
  case h_11 =>
    simp only [imp_false] at *
    simp
    omega
  all_goals simp

theorem parse9_eq_none {f : Fields} {lo : Nat} : parse9 f lo = none ↔ ¬(lo ≤ 14) := by
  unfold parse9
  split
  case h_16 =>
    simp only [imp_false] at *
    simp
    omega
  all_goals try split
  all_goals simp

theorem parseA_eq_none {f : Fields} {lo : Nat} : parseA f lo = none ↔ ¬(lo ≤ 9) := by
  unfold parseA
  split
  case h_11 =>
    simp only [imp_false] at *
    simp
    omega
  all_goals simp

theorem parseB_eq_none {f : Fields} {lo : Nat} : parseB f lo = none ↔ ¬(lo ≤ 13) := by
  unfold parseB
  split
  case h_15 =>
    simp only [imp_false] at *
    simp
    omega
  all_goals simp

theorem parseC_eq_none {f : Fields} {lo : Nat} : parseC f lo = none ↔ ¬(lo ≤ 12) := by
  unfold parseC
  split
  case h_14 =>
    simp only [imp_false] at *
    simp
    omega
  all_goals simp

theorem parse_eq_none {f : Fields} :
    parse f = none ↔ isUC f.op.toNat = false ∧ Machine.isVME f.op.toNat = false := by
  have hlt := f.op.isLt
  simp only [isUC, Machine.isVME, Bool.or_eq_false_iff, Bool.and_eq_false_iff, decide_eq_false_iff_not]
  unfold parse
  dsimp only
  split
  · rw [parse0_eq_none]; omega
  · rw [parse1_eq_none]; omega
  · rw [parse2_eq_none]; omega
  · rw [parse3_eq_none]; omega
  · rw [parse4_eq_none]; omega
  · rw [parse5_eq_none]; omega
  · rw [parse6_eq_none]; omega
  · rw [parse7_eq_none]; omega
  · rw [parse8_eq_none]; omega
  · rw [parse9_eq_none]; omega
  · rw [parseA_eq_none]; omega
  · rw [parseB_eq_none]; omega
  · rw [parseC_eq_none]; omega
  · simp only [imp_false] at *
    simp only [true_iff]
    omega

theorem op_unpack (w : InstrWord) : (Fields.unpack w).op.toNat = w.toNat % 256 := by
  simp [Fields.unpack, BitVec.extractLsb'_toNat]

/-- Settles O52, by the rows of the opcode map: the fields of a word that decodes are those that the encoder writes for its
instruction, and the word is made of its fields. -/
theorem encodeDecode : Obligations.EncodeDecode := by
  unfold Obligations.EncodeDecode
  refine ⟨fun i w => encode_of_decode, fun w => ?_⟩
  rw [decode, decodeFields_opcode, parse_eq_none, op_unpack]

end Sys2Proof
end

section
/-! Memory instructions as they issue (spec/06 R157 to R185): addresses and operands of lanes, the accesses that
enter, and those of a group. -/

namespace Sys2Proof.Machine

/-! ## Addresses and operands of a lane -/

theorem addSigned_toInt (base : Nat) (off : BitVec 32) :
    addSigned base off.toInt = (BitVec.ofNat 64 base + off.signExtend 64).toNat := by
  rw [BitVec.signExtend, ← BitVec.ofInt_natCast, ← BitVec.ofInt_add, BitVec.toNat_ofInt]
  rfl

theorem offset_toInt (base : Nat) (off : BitVec 32) :
    (((base : Int) + off.toInt) % 2 ^ 32).toNat = (BitVec.ofNat 32 base + off).toNat := by
  conv_rhs => rw [← BitVec.ofInt_toInt (x := off), ← BitVec.ofInt_natCast, ← BitVec.ofInt_add, BitVec.toNat_ofInt]
  rfl

/-- The address of a lane is the one that R157 gives. -/
theorem Env.addr_eq (e : Env) (s : State) (l : Nat) (sp : Space) (a : Opd) (off : BitVec 32) :
    e.addr s l sp a off.toInt = addressOf s e l sp a off := by
  cases sp with
  | glob | bcast => simpa [Env.addr, addressOf] using addSigned_toInt _ _
  | crew | cluster => simpa [Env.addr, addressOf] using offset_toInt _ _

/-- So does the address of a short offset, as one of 32 bits (R158). -/
theorem Env.addr_short (e : Env) (s : State) (l : Nat) (sp : Space) (a : Opd) {n : Nat} (hn : n ≤ 32)
    (off : BitVec n) : e.addr s l sp a off.toInt = addressOf s e l sp a (off.signExtend 32) := by
  rw [← Env.addr_eq, BitVec.toInt_signExtend_of_le hn]

theorem of4_toNat (a b c d : Word) :
    (of4 a b c d).toNat = a.toNat + 2 ^ 32 * b.toNat + 2 ^ 64 * c.toNat + 2 ^ 96 * d.toNat := by
  have ha := a.isLt
  have hb := b.isLt
  have hc := c.isLt
  simp only [of4, BitVec.toNat_append, Nat.shiftLeft_eq]
  rw [Nat.mul_comm _ (2 ^ 32), Nat.mul_comm _ (2 ^ 32), Nat.mul_comm _ (2 ^ 32),
    ← Nat.two_pow_add_eq_or_of_lt hc, ← Nat.two_pow_add_eq_or_of_lt hb, ← Nat.two_pow_add_eq_or_of_lt ha]
  omega

theorem Env.wideSrc_eq (e : Env) (s : State) (l : Nat) (o : AtomOp) (t : Ty) (r : Opd) :
    e.wideSrc s l o t r = atomicSource s e l o t r := by
  unfold Env.wideSrc atomicSource
  by_cases ho : o = .cas128
  · simp only [ho, beq_self_eq_true, if_true]
    cases r with
    | v n | s n => simp only [of4_toNat, BitVec.toNat_setWidth, Nat.add_zero]
    | _ => rfl
  · simp only [beq_iff_eq, ho, if_false]
    rfl

/-! ## The accesses that enter -/

theorem Wave.pushEach_eq (w : Wave) (m : BitVec 64) (f : Nat → Pend) :
    w.pushEach m f = { w with out := w.out ++ (lanesOf m).map f } := Wave.foldl_push ..

theorem Env.pushEach_access (e : Env) (w : Wave) (i : Instr) (m : BitVec 64) (a b c : Nat → Nat) :
    (w.pushEach m fun l => access i e.p.slot l (a l) (b l) (c l))
      = { w with out := w.out ++ waitingEach e i m a b c } := Wave.pushEach_eq ..

theorem Env.pushZero_eq (e : Env) (w : Wave) (i : Instr) (m : BitVec 64) (d : Opd) (n : Nat) :
    w.pushZero i e.p.slot m d n = { w with out := w.out ++ zeroResults e i m d n } := Wave.pushEach_eq ..

/-! ## No lane at fault -/

theorem badLanes_eq_nil {m : BitVec 64} {f : Nat → Except Trap Target}
    (h : ∀ l, m.getLsbD l = true → ∃ tg, f l = .ok tg) : badLanes m f = [] := by
  rw [badLanes, List.filterMap_eq_nil_iff]
  intro l hl
  obtain ⟨tg, htg⟩ := h l (List.mem_filter.mp hl).2
  rw [htg]

theorem Wave.endHelpers_zero (w : Wave) : w.endHelpers 0 = w := by
  have : (w.threads.mapIdx fun _ th => th) = w.threads := List.ext_getElem? fun i => by simp
  simp [Wave.endHelpers, this]

theorem and_not_zero (m : BitVec 64) : m &&& ~~~0 = m := BitVec.and_allOnes

theorem Ty.regs_eq (t : Ty) : t.regs = regsOf t := by
  simp only [Ty.regs, regsOf_eq]

/-- ld, where every executing lane's address may be accessed. -/
theorem execLd_enters {s : State} {e : Env} (he : s.env? = some e) (x : Mem)
    (hr : ∀ l, (e.exec x.h x.mod).getLsbD l = true →
      Reaches s e x.sp false (x.ty.bits / 8) (addressOf s e l x.sp x.a x.off)) :
    Enters s e (.ld x) (zeroResults e (.ld x) (e.zeroed x.h x.mod) x.r (regsOf x.ty)
      ++ if x.sp = .bcast then
          if e.exec x.h x.mod = 0 then [] else
            [waiting e (.ld x) (e.exec x.h x.mod) (e.leader (e.exec x.h x.mod))
              (addressOf s e (e.leader (e.exec x.h x.mod)) x.sp x.a x.off) 0 0 []]
        else waitingEach e (.ld x) (e.exec x.h x.mod) (fun l => addressOf s e l x.sp x.a x.off) (fun _ => 0)
          fun _ => 0) := by
  refine (onIssue_next he ?_ : execLd x s = _)
  have hbad : badLanes (e.exec x.h x.mod) (fun l => s.target e.k e.t x.sp false (memBytes x.ty)
      (addressOf s e l x.sp x.a x.off)) = [] := badLanes_eq_nil hr
  simp only [Env.addr_eq, hbad, Env.blame_nil, Wave.endHelpers_zero, and_not_zero, Env.pushZero_eq,
    Env.pushEach_access, beq_iff_eq, Ty.regs_eq]
  by_cases hsp : x.sp = .bcast
  · by_cases hm : e.exec x.h x.mod = 0
    · simp only [hsp, hm, if_true, List.append_nil]
    · simp only [hsp, hm, if_true, if_false, Wave.push, List.append_assoc]
      rfl
  · simp only [hsp, if_false, List.append_assoc]

/-- The accesses of ld, st, st.sy, atom, red, redx and fence. -/
theorem memoryIssue_lanes : memoryIssueHolds := by
  intro s e h
  have he := h.1
  refine ⟨fun x hr => ⟨fun hsp => ?_, fun hsp => ?_⟩, fun x => (onIssue_next he ?_ : execSt x s = _),
    fun x => (onIssue_next he ?_ : execStSy x s = _), fun o x => ⟨(onIssue_next he ?_ : execAtom o x s = _),
    (onIssue_next he ?_ : execRedx o x s = _)⟩, fun o x => (onIssue_next he ?_ : execRed o x s = _),
    fun hd k c => (onIssue_next he ?_ : execFence hd k c s = _)⟩
  case refine_1 => simpa only [hsp, if_false] using execLd_enters he x hr
  case refine_2 =>
    have hld := execLd_enters he x hr
    rw [if_pos hsp] at hld
    exact hld
  all_goals
    simp only [Env.addr_eq, Env.addr_short _ _ _ _ _ (by decide : 22 ≤ 32), Env.wideSrc_eq, Env.pushZero_eq,
      Env.pushEach_access, Ty.regs_eq, Ty.wide, Env.real, beq_iff_eq, List.append_assoc]

/-! ## The accesses of a group -/

/-- One access for all threads of a group. -/
theorem push_access (e : Env) (w : Wave) (i : Instr) (m : BitVec 64) (l a b : Nat) :
    w.push { access i e.p.slot l a b 0 with lanes := m } = { w with out := w.out ++ [waiting e i m l a b 0 []] } := rfl

theorem Env.real_real (e : Env) (m : BitVec 64) : e.real (e.real m) = e.real m := by
  simp only [Env.real, BitVec.and_assoc, BitVec.and_self]

/-- A wave without the lane's thread has no such thread after a change of threads either. -/
theorem Wave.each_th_ge (w : Wave) (m : BitVec 64) (f : Nat → Thread → Thread) {l : Nat} (hl : w.threads.length ≤ l) :
    (w.each m f).th l = w.th l := by
  simp [Wave.each, Wave.th, getAt, List.getD, hl]

/-- Noting a record access changes the note alone. -/
theorem Wave.mixOthers_same (w : Wave) (m : BitVec 64) (os : List Opd) (l : Nat) :
    { (w.mixOthers m os).th l with mixed := (w.th l).mixed } = w.th l := by
  by_cases hl : l < w.threads.length
  · rw [Wave.mixOthers, Wave.each_th _ _ _ _ hl]
    split
    · split <;> rfl
    · rfl
  · rw [Wave.mixOthers, Wave.each_th_ge _ _ _ (by omega)]

/-- A record access is noted in the threads of other groups that name its record (R174). -/
theorem Wave.mixOthers_mixed (w : Wave) (m : BitVec 64) (n : Fin 8) {l : Nat} (hl : l < w.threads.length)
    (h64 : l < 64) : ((w.mixOthers m [.j n]).th l).mixed
      = ((w.th l).mixed || (!m.getLsbD l && (w.th l).named.contains n.val)) := by
  rw [Wave.mixOthers, Wave.each_th _ _ _ _ hl, BitVec.getLsbD_not]
  cases hm : m.getLsbD l with
  | true => simp
  | false =>
    simp only [h64, decide_true, Bool.not_false, Bool.and_self, if_true, List.any_cons, List.any_nil, Bool.or_false,
      List.contains_eq_any_beq, Bool.true_and]
    cases (w.th l).named.any fun k => n.val == k <;> simp

/-- What a record access of a group leaves of its wave. -/
def Noted (e : Env) (r : Opd) (p : Pend) (w : Wave) : Prop :=
  { w with
    threads := e.w.threads
    out := e.w.out } = e.w
  ∧ w.out = e.w.out ++ [p] ∧ (∀ l, { w.th l with mixed := (e.w.th l).mixed } = e.w.th l)
  ∧ ∀ n l, r = .j n → l < e.w.width →
    (w.th l).mixed = ((e.w.th l).mixed || (!e.p.lanes.getLsbD l && (e.w.th l).named.contains n.val))

theorem noted_mixOthers {s : State} {e : Env} (h : Issuing s e) (r : Opd) (p : Pend) :
    Noted e r p ((e.w.mixOthers e.p.lanes [r]).push p) := by
  obtain ⟨-, hs, -, -⟩ := h
  refine ⟨rfl, rfl, fun l => e.w.mixOthers_same e.p.lanes [r] l, fun n l hr hl => ?_⟩
  have h64 := Wave.shape_width hs
  subst hr
  exact e.w.mixOthers_mixed e.p.lanes n (Wave.shape_threads hs ▸ hl) (by omega)

/-- An iterator record that no issuing thread has in flight is the wave's (R65). -/
theorem Env.iter_landed (e : Env) (s : State) (n : Fin 8)
    (hf : ∀ l, e.p.lanes.getLsbD l = true → (0x320 + n.val) ∉ (e.w.th l).fly) :
    e.iter s (.j n) = getAt e.w.iters n.val 0 := by
  have : ¬((lanesOf e.p.lanes).any fun l => (e.w.th l).fly.contains (0x320 + n.val)) = true := by
    simp only [List.any_eq_true, List.contains_iff_mem, not_exists, not_and]
    exact fun l hl => hf l (List.mem_filter.mp hl).2
  rw [Env.iter, if_neg this]

/-- sld and sst, as one access of their group. -/
theorem groupAccess_uniform {s : State} {e : Env} (he : s.env? = some e) (x : UMem) :
    let m := e.guard x.h
    let real := e.real m
    let l := e.leader m
    (m = 0 → exec (.sld x) s = .next s)
    ∧ (m ≠ 0 → Reaches s e x.sp false (x.ty.bits / 8) (addressOf s e l x.sp x.a x.off) →
      Enters s e (.sld x) [waiting e (.sld x) e.p.lanes l (addressOf s e l x.sp x.a x.off) 0 0 []])
    ∧ (real = 0 → exec (.sst x) s = .next s)
    ∧ (real ≠ 0 → Enters s e (.sst x) [waiting e (.sst x) e.p.lanes (lowLane real)
      (addressOf s e (lowLane real) x.sp x.a x.off) (e.usrc s real x.r).toNat 0 []]) := by
  refine ⟨fun h0 => (onIssue_next he ?_ : execSld x s = _), fun h0 ⟨tg, htg⟩ => (onIssue_next he ?_ : execSld x s = _),
    fun h0 => (onIssue_next he ?_ : execSst x s = _), fun h0 => (onIssue_next he ?_ : execSst x s = _)⟩
  · rw [if_pos h0]
  · have htarget : s.target e.k e.t x.sp false (memBytes x.ty) _ = .ok tg := htg
    simp only [if_neg h0, Env.addr_eq, htarget, push_access]
  · simp only [if_pos h0]
  · simp only [if_neg h0, Env.addr_eq, push_access]

/-- itld and itst, as one access of their group. -/
theorem groupAccess_iterator {s : State} {e : Env} (h : Issuing s e) (x : ItMem) :
    let m := e.guard x.h
    let real := e.real m
    let l := e.leader m
    (m = 0 → exec (.itld x) s = .next s)
    ∧ (m ≠ 0 → Reaches s e x.sp false 64 (addressOf s e l x.sp x.a x.off) →
      ∃ w, exec (.itld x) s = .next (s.setWave w)
        ∧ Noted e x.r (waiting e (.itld x) e.p.lanes l (addressOf s e l x.sp x.a x.off) 0 0 []) w)
    ∧ (real = 0 → exec (.itst x) s = .next s)
    ∧ (real ≠ 0 → ∃ w, exec (.itst x) s = .next (s.setWave w)
      ∧ Noted e x.r (waiting e (.itst x) e.p.lanes (lowLane real) (addressOf s e (lowLane real) x.sp x.a x.off) 0 0
        (words512 (e.iter s x.r))) w) := by
  have he := h.1
  refine ⟨fun h0 => (onIssue_next he ?_ : execItld x s = _),
    fun h0 ⟨tg, htg⟩ => ⟨_, (onIssue_next he ?_ : execItld x s = _), noted_mixOthers h x.r _⟩,
    fun h0 => (onIssue_next he ?_ : execItst x s = _),
    fun h0 => ⟨_, (onIssue_next he ?_ : execItst x s = _), noted_mixOthers h x.r _⟩⟩
  · rw [if_pos h0]
  · simp only [if_neg h0, Env.addr_eq, htg]
    rfl
  · simp only [if_pos h0]
  · simp only [if_neg h0, Env.addr_eq]
    rfl

theorem Env.syncA_eq (e : Env) (s : State) (sp : Space) (o : Opd) :
    e.syncA s sp o = addressOf s e (lowLane e.p.lanes) sp o 0 := e.addr_eq s (lowLane e.p.lanes) sp o 0

/-- cadd, as one release of its group. -/
theorem groupAccess_counter {s : State} {e : Env} (he : s.env? = some e) (x : Ctr) :
    let real := e.real (e.guard x.h)
    let a := addressOf s e (lowLane e.p.lanes) (ctrSpace x.crew) x.a 0
    (real = 0 → exec (.cadd x) s = .next s)
    ∧ (real ≠ 0 → Reaches s e (ctrSpace x.crew) true 8 a →
      Enters s e (.cadd x) [waiting e (.cadd x) real (lowLane real) a (e.syncB s x.b) 0 []]) := by
  refine ⟨fun h0 => (onIssue_next he ?_ : execCadd x s = _),
    fun h0 ⟨tg, htg⟩ => (onIssue_next he ?_ : execCadd x s = _)⟩
  · simp only [if_pos h0]
  · simp only [if_neg h0, Env.syncA_eq, htg, push_access]

/-- A fault of threads that are no helpers is charged to the lowest. -/
theorem Env.charge_real (e : Env) (s : State) {m : BitVec 64} (hm : e.real m = m) (h0 : m ≠ 0) (tr : Trap) :
    e.charge s m tr = .error (.trap { tr with lane := some (lowLane m) }) := by
  simp only [Env.charge, hm, bne_iff_ne, ne_eq, h0, not_false_eq_true, if_true]

/-- The fault that an ill-formed region is charged with. -/
def regionTrap (s : State) (e : Env) (c : Cause) (va l : Nat) : Trap :=
  { accTrap c (taskAcc e.t true) (s.asid e.t.ctx) va 0 none 0 with lane := some l }

/-- seal and unseal, as one access of their group, or as their fault. -/
theorem Env.region_cases (e : Env) (s : State) (i : Instr) (h : Head) (a b : Opd) :
    let real := e.real (e.guard h)
    let base := (e.usrc s real a).toNat
    let len := (e.usrc s real b).toNat
    (real = 0 → e.region s i h a b = .ok s)
    ∧ (real ≠ 0 → base % 2 ^ 16 = 0 → len % 2 ^ 16 = 0 → len ≤ 2 ^ 40 → e.region s i h a b =
      .ok (s.setWave { e.w with out := e.w.out ++ [waiting e i e.p.lanes (lowLane real) base len 0 []] }))
    ∧ (real ≠ 0 → base % 2 ^ 16 ≠ 0 ∨ len % 2 ^ 16 ≠ 0 →
      e.region s i h a b = .error (.trap (regionTrap s e .misaligned base (lowLane real))))
    ∧ (real ≠ 0 → base % 2 ^ 16 = 0 → len % 2 ^ 16 = 0 → 2 ^ 40 < len →
      e.region s i h a b = .error (.trap (regionTrap s e .bounds base (lowLane real)))) := by
  have hcharge := e.charge_real s (e.real_real (e.guard h))
  refine ⟨fun h0 => if_pos h0, fun h0 hb hl hn => ?_, fun h0 hmis => ?_, fun h0 hb hl hn => ?_⟩
  · simp only [Env.region, if_neg h0, hb, hl, not_lt.mpr hn, push_access, if_false, ne_eq, not_true_eq_false,
      decide_false, Bool.or_self, Bool.false_eq_true]
  · simp only [Env.region, if_neg h0, hcharge h0, Bool.or_eq_true, decide_eq_true_eq, if_pos hmis, regionTrap]
  · simp only [Env.region, if_neg h0, hcharge h0, hb, hl, hn, if_true, if_false, ne_eq, not_true_eq_false,
      decide_false, Bool.or_self, Bool.false_eq_true, regionTrap]

/-- seal and unseal with a region that is misaligned, or else too long. -/
theorem Env.region_fault (e : Env) (s : State) (i : Instr) (h : Head) (a b : Opd) {c : Cause}
    (h0 : e.real (e.guard h) ≠ 0) :
    let base := (e.usrc s (e.real (e.guard h)) a).toNat
    let len := (e.usrc s (e.real (e.guard h)) b).toNat
    c = (if base % 2 ^ 16 ≠ 0 ∨ len % 2 ^ 16 ≠ 0 then Cause.misaligned else .bounds) →
    (base % 2 ^ 16 ≠ 0 ∨ len % 2 ^ 16 ≠ 0 ∨ 2 ^ 40 < len) →
    e.region s i h a b = .error (.trap (regionTrap s e c base (lowLane (e.real (e.guard h))))) := by
  intro base len hc hbad
  obtain ⟨-, -, hmisaligned, hlong⟩ := e.region_cases s i h a b
  by_cases hmis : base % 2 ^ 16 ≠ 0 ∨ len % 2 ^ 16 ≠ 0
  · rw [hc, if_pos hmis]
    exact hmisaligned h0 hmis
  · rw [hc, if_neg hmis]
    have hlen : base % 2 ^ 16 = 0 ∧ len % 2 ^ 16 = 0 ∧ 2 ^ 40 < len := by omega
    exact hlong h0 hlen.1 hlen.2.1 hlen.2.2

/-- seal and unseal. -/
theorem groupAccess_region {s : State} {e : Env} (he : s.env? = some e) (hd : Head) (a b : Opd) (i : Instr)
    (hexec : exec i s = onIssue s fun e => e.region s i hd a b) :
    let real := e.real (e.guard hd)
    let base := (e.usrc s real a).toNat
    let len := (e.usrc s real b).toNat
    (real = 0 → exec i s = .next s)
    ∧ (real ≠ 0 → base % 2 ^ 16 = 0 → len % 2 ^ 16 = 0 → len ≤ 2 ^ 40 →
      Enters s e i [waiting e i e.p.lanes (lowLane real) base len 0 []])
    ∧ ∀ c, real ≠ 0 → c = (if base % 2 ^ 16 ≠ 0 ∨ len % 2 ^ 16 ≠ 0 then Cause.misaligned else .bounds) →
      (base % 2 ^ 16 ≠ 0 ∨ len % 2 ^ 16 ≠ 0 ∨ 2 ^ 40 < len) → ∃ tr : Trap, tr.cause = c
        ∧ tr.addr = BitVec.ofNat 64 base ∧ tr.lane = some (lowLane real)
        ∧ exec i s = .next (s.takeFault e.w e.p.lanes e.p.slot tr).stopIssue := by
  obtain ⟨hnone, hok, -, -⟩ := e.region_cases s i hd a b
  refine ⟨fun h0 => hexec.trans (onIssue_next he (hnone h0)),
    fun h0 hb hl hn => hexec.trans (onIssue_next he (hok h0 hb hl hn)),
    fun c h0 hc hf => ⟨regionTrap s e c _ _, rfl, rfl, rfl, ?_⟩⟩
  rw [hexec, onIssue_stop he (e.region_fault s i hd a b h0 hc hf)]
  rfl

/-- sld, sst, itld, itst, cadd, seal and unseal. -/
theorem memoryIssue_groups : groupAccessesHolds := by
  intro s e h m real hreal
  have he := h.1
  subst hreal
  refine ⟨fun x hm => ?_, fun x hm => ?_, fun x hm => ?_, fun hd a b hm i hi => ?_⟩ <;> subst hm
  · exact groupAccess_uniform he x
  · obtain ⟨hld0, hld, hst0, hst⟩ := groupAccess_iterator h x
    exact ⟨hld0, hld, hst0, hst, fun n hn hf => hn ▸ e.iter_landed s n hf⟩
  · exact groupAccess_counter he x
  · refine groupAccess_region he hd a b i ?_
    simp only [List.mem_cons, List.not_mem_nil, or_false] at hi
    obtain rfl | rfl := hi <;> rfl

/-- Settles O21, for the accesses of lanes and for those of groups. -/
theorem memoryIssue : Obligations.MemoryIssue := by
  unfold Obligations.MemoryIssue
  exact ⟨memoryIssue_lanes, memoryIssue_groups⟩

end Sys2Proof.Machine
end

section
/-! A group's load of a byte (spec/04 R125): sld of type i8, which is no type of sld, zero-extends what it reads. -/

namespace Sys2Proof.Machine

/-- sld.i8 of offset 0 of the crew's scratchpad into s0: a term that is not well formed. -/
def byteSld : UMem := { h := ⟨false, 0, false⟩, ty := .i8, sp := .crew, r := .s 0, a := .s 0, off := 0 }

theorem byteSld_illFormed : (Instr.sld byteSld).WellFormed = false := by decide

/-- Its access, made for lane 0 alone. -/
def byteLoad : Pend :=
  { lanes := 1, lane := 0, slot := 0, issue := 1, i := .sld byteSld, a := 0, b := 0, c := 0, ext := [], dst := .zero,
    done := false, flags := 0, taint := false, wait := none, toks := [], since := 0 }

/-- A store of the byte 0x80 to the same place, in the queue of lane 0. -/
def byteStore : StoreEnt :=
  { slot := 0, issue := 0, place := .spad 0, addr := 0, va := 0, own := 0, asid := 0, leaf := .pad, space := 1,
    bytes := [0x80], rel := false, barrier := 0, msgs := [] }

/-- The wave in which the load is outstanding, in a versioned task, so that its reads are exact. -/
def byteLand : Land where
  w := { (probeWave 2 1).each 1 fun _ th => { th with storeQ := [byteStore] } with out := [byteLoad] }
  k := Crew.launch 1 0 0 0 false probeHeader [] 0 0
  t := { probeTask 0 with flags := 1 }
  p := byteLoad

def byteState : State := { State.reset with
  waves := [byteLand.w]
  crews := [byteLand.k]
  tasks := [byteLand.t] }

theorem byteLand_landing : Landing byteState 0 0 0 byteLand :=
  ⟨rfl, rfl, by decide +kernel, by decide +kernel, by decide +kernel, by decide, by decide⟩

/-- The bytes that the load reads: its thread's queued store. -/
theorem byteState_reads : byteState.readTgt byteLand.t 0 (byteLand.w.th 0).storeQ (.pad 0 0 0) 1 (some 0)
    = .ok ([0x80], byteState) := rfl

/-- A scratchpad is no strongly ordered page. -/
theorem byteState_route : ¬ ∀ p, byteState.route byteLand.t false (.pad 0 0 0) (some 0) = .ok p → kindOf p = .so := by
  intro h
  exact absurd (h none rfl) (by decide)

/-- The value of s0 after a step. -/
def firstUniform : Host.Outcome State Fault Refusal → Option Dword
  | .next t => some (t.sreg 2 0)
  | _ => none

/-- The model zero-extends the byte. -/
theorem byteState_lands : firstUniform (exec (.resultLand 0 0 0) byteState) = some 0x80 := by decide +kernel

/-- Refutes O23: the clause about sld does not ask that the type be one of sld's (R125). A landing sld.i8, which is not
well formed (`byteSld_illFormed`), zero-extends the byte 0x80 into s0, where the statement says that it sign-extends it. -/
theorem not_loads : ¬ Obligations.Loads := by
  unfold Obligations.Loads
  intro ⟨hlands, _⟩
  obtain ⟨-, hsld⟩ := hlands byteState 0 0 0 byteLand (.pad 0 0 0) [0x80] byteState byteLand_landing rfl
    (by decide +kernel) (by decide +kernel)
  obtain ⟨t, hexec, hs0, -⟩ := hsld byteSld 0 rfl rfl rfl (by decide) rfl (by decide +kernel)
    (fun h => absurd h byteState_route) byteState_reads rfl
  have hmodel := byteState_lands
  rw [hexec] at hmodel
  have hvalue : t.sreg 2 0 = 0x80 := Option.some.inj hmodel
  rw [show t.sreg 2 0 = _ from hs0] at hvalue
  exact absurd hvalue (by decide)

end Sys2Proof.Machine
end

section
/-! Control instructions (spec/04 R101 to R122): the states of threads, transfers and their links, requests of
system calls, and traps. -/

namespace Sys2Proof.Machine

/-! ## States of threads and of the wave -/

/-- Threads that leave where every target is a branch target (R49, R108). -/
theorem Env.leave_ok {e : Env} {s s1 : State} {h : Head} {disp : BitVec 32} (f : Nat → Thread → Leaving)
    (ht : s.testTargets e (fun _ => e.dispTarget disp) (lanesOf (e.guard h)) = (s1, [])) :
    e.leave s h disp f = .ok (s1.setWave (e.w.each (e.guard h) fun l th =>
      { th with run := .leaving (if th.helper then .exit else f l th) })) := by
  simp only [Env.leave, ht, Env.blame_nil, Wave.endHelpers_zero, and_not_zero]

theorem Thread.release_eq (th : Thread) (tick : Nat) : th.release tick = if th.after = .ready then
      { th with
        run := if th.swAfter then .marker else .ready
        swAfter := false
        pc := th.next
        since := tick }
    else { th with
      run := th.after
      after := .ready } := by
  simp only [Thread.release, beq_iff_eq]

theorem exec_parkTimeout {s : State} {r : ThreadRef} {w : Wave} {due : Nat} (hw : s.waveAt? r.core r.wslot = some w)
    (hhalt : w.halted = false) (hrun : (w.th r.lane).run = .wait (.park (some due))) :
    exec (.parkTimeout r) s = if due ≤ s.tick then
      .next (s.setWave (w.each (1#64 <<< r.lane) fun _ th => th.release s.tick)) else .fault .notEnabled := by
  show execParkTimeout r s = _
  simp only [execParkTimeout, hw, hrun, hhalt, Bool.not_false, Bool.and_true, decide_eq_true_eq]

theorem leavingAndTimeout_holds : leavingAndTimeoutHolds := by
  refine ⟨fun s e h hd disp s1 ht => onIssue_next h.1 (Env.leave_ok _ ht), fun s r w due hw hhalt hrun => ?_,
    Thread.release_eq⟩
  rw [exec_parkTimeout hw hhalt hrun]
  exact ⟨fun hdue => if_pos hdue, fun hdue => if_neg (by omega)⟩

/-! ## %mode (R121) -/

/-- A replaced field is the new value; the bits outside are as they were. -/
theorem testBit_replaceBits (x lo n v i : Nat) : (replaceBits x lo n v).testBit i =
    if lo ≤ i ∧ i < lo + n then v.testBit (i - lo) else x.testBit i := by
  have hsplit : x = 2 ^ lo * (2 ^ n * (x / 2 ^ lo / 2 ^ n) + x / 2 ^ lo % 2 ^ n) + x % 2 ^ lo := by
    rw [Nat.div_add_mod, Nat.div_add_mod]
  have hparts : replaceBits x lo n v = 2 ^ lo * (2 ^ n * (x / 2 ^ lo / 2 ^ n) + v % 2 ^ n) + x % 2 ^ lo := by
    rw [replaceBits, bitsOf, Nat.shiftRight_eq_div_pow]
    conv_lhs => arg 1; arg 1; rw [hsplit]
    simp only [Nat.mul_add, Nat.mul_comm _ (2 ^ lo)]
    omega
  rw [hparts, Nat.testBit_two_pow_mul_add _ (Nat.mod_lt _ (by positivity)),
    Nat.testBit_two_pow_mul_add _ (Nat.mod_lt _ (by positivity)), Nat.testBit_mod_two_pow, Nat.testBit_mod_two_pow,
    Nat.testBit_div_two_pow, Nat.testBit_div_two_pow]
  by_cases hlo : i < lo
  · simp [hlo, Nat.not_le.mpr hlo]
  · by_cases hn : i - lo < n
    · simp [hlo, hn, (by omega : lo ≤ i ∧ i < lo + n)]
    · have hout : ¬(lo ≤ i ∧ i < lo + n) := by omega
      simp only [if_neg hlo, if_neg hn, if_neg hout, (by omega : i - lo - n + n + lo = i)]

/-- A field replaced where its write is enabled. -/
def replaceIf (x lo n : Nat) : Option Nat → Nat
  | none => x
  | some v => replaceBits x lo n v

theorem testBit_replaceIf (x lo n : Nat) (v : Option Nat) (i : Nat) : (replaceIf x lo n v).testBit i =
    if lo ≤ i ∧ i < lo + n then (v.map fun v => v.testBit (i - lo)).getD (x.testBit i) else x.testBit i := by
  cases v with
  | none => simp [replaceIf]
  | some v => simp [replaceIf, testBit_replaceBits]

/-- The value of a flag's field. -/
def flagField (x : Option Bool) : Option Nat := x.map fun v => if v then 1 else 0

theorem applyMode_eq (f : ModeFields) (m : Nat) : applyMode f m =
    replaceIf (replaceIf (replaceIf (replaceIf m 0 3 (f.rm.map (·.toNat))) 3 1 (flagField f.z16)) 4 1
      (flagField f.z32)) 5 1 (flagField f.z64) := rfl

theorem flagField_testBit (x : Option Bool) (old : Bool) :
    ((flagField x).map fun v => v.testBit 0).getD old = x.getD old := by
  cases x with
  | none => rfl
  | some v => cases v <;> rfl

theorem testBit_applyMode (f : ModeFields) (m i : Nat) : (applyMode f m).testBit i =
    if i < 3 then (f.rm.map fun v => v.getLsbD i).getD (m.testBit i)
    else if i = 3 then f.z16.getD (m.testBit 3)
    else if i = 4 then f.z32.getD (m.testBit 4)
    else if i = 5 then f.z64.getD (m.testBit 5) else m.testBit i := by
  rw [applyMode_eq]
  simp only [testBit_replaceIf]
  by_cases hrm : i < 3
  · rw [if_neg (by omega), if_neg (by omega), if_neg (by omega), if_pos (by omega), if_pos hrm, Option.map_map]
    rfl
  · by_cases h3 : i = 3
    · subst h3
      simp [flagField_testBit, -Nat.testBit_zero]
    · by_cases h4 : i = 4
      · subst h4
        simp [flagField_testBit, -Nat.testBit_zero]
      · by_cases h5 : i = 5
        · subst h5
          simp [flagField_testBit, -Nat.testBit_zero]
        · rw [if_neg (by omega), if_neg (by omega), if_neg (by omega), if_neg (by omega)]
          simp [hrm, h3, h4, h5]

theorem applyMode_lt {m : Nat} (hm : m < 64) (f : ModeFields) : applyMode f m < 64 := by
  refine Nat.lt_pow_two_of_testBit (n := 6) _ fun i hi => ?_
  rw [testBit_applyMode]
  rw [if_neg (by omega), if_neg (by omega), if_neg (by omega), if_neg (by omega)]
  exact Nat.testBit_lt_two_pow (hm.trans_le (Nat.pow_le_pow_right (by decide) hi : 2 ^ 6 ≤ 2 ^ i))

theorem applyMode_rm (f : ModeFields) (m : Nat) : applyMode f m % 8 = (f.rm.map (·.toNat)).getD (m % 8) := by
  apply Nat.eq_of_testBit_eq
  intro i
  rw [Nat.testBit_mod_two_pow (j := 3), testBit_applyMode]
  by_cases hi : i < 3
  · cases f.rm with
    | none => simp [hi, Nat.testBit_mod_two_pow (j := 3)]
    | some v => simp [hi, BitVec.testBit_toNat]
  · cases f.rm with
    | none => simp [hi, Nat.testBit_mod_two_pow (j := 3)]
    | some v => simp [hi, BitVec.testBit_toNat, BitVec.getLsbD_of_ge v i (by omega)]

/-- What mode leaves in a legal %mode (R26, R121). -/
theorem applyMode_spec (f : ModeFields) {m : Dword} (hm : modeOk m = true) :
    let u : Dword := BitVec.ofNat 64 (applyMode f m.toNat)
    u.toNat % 8 = (f.rm.map (·.toNat)).getD (m.toNat % 8) ∧ u.getLsbD 3 = f.z16.getD (m.getLsbD 3)
      ∧ u.getLsbD 4 = f.z32.getD (m.getLsbD 4) ∧ u.getLsbD 5 = f.z64.getD (m.getLsbD 5) ∧ u.toNat < 64 := by
  simp only [modeOk, Bool.and_eq_true, decide_eq_true_eq] at hm
  have hlt : applyMode f m.toNat < 64 := applyMode_lt hm.1.1 f
  have hnat : (BitVec.ofNat 64 (applyMode f m.toNat)).toNat = applyMode f m.toNat := by
    rw [BitVec.toNat_ofNat, Nat.mod_eq_of_lt (by omega)]
  have hbit (i : Nat) : (BitVec.ofNat 64 (applyMode f m.toNat)).getLsbD i = (applyMode f m.toNat).testBit i := by
    rw [BitVec.getLsbD, hnat]
  simp only [hnat, hbit, applyMode_rm, testBit_applyMode]
  exact ⟨trivial, rfl, rfl, rfl, hlt⟩

/-! ## ControlStates -/

theorem controlStates_hold : controlStatesHolds := by
  intro s e h hd
  have he := h.1
  refine ⟨(onIssue_next he rfl : execNop hd s = _),
    ⟨_, (onIssue_next he rfl : execExit hd s = _), each_result h _ _⟩,
    ⟨_, (onIssue_next he rfl : execLoopPop hd s = _), each_result h _ _⟩,
    fun n => ⟨_, (onIssue_next he rfl : execPark hd (.imm n) s = _), each_result h _ _⟩,
    fun a => ⟨_, (onIssue_next he rfl : execPark hd (.reg a) s = _), each_result h _ _⟩,
    fun k => ⟨_, (onIssue_next he rfl : execJoin hd (.k k) s = _), each_result h _ _⟩,
    (onIssue_next he (apply_ite ..).symm : execYield hd s = _),
    fun f => ⟨_, (onIssue_next he (apply_ite ..).symm : execMode hd f s = _), applyMode_spec f⟩,
    fun code hoff => (onIssue_next he ?_ : execBrk hd code s = _)⟩
  simp only [hoff, Bool.not_false, Bool.or_true, if_true]

/-- Settles O1: each instruction changes the threads that its guard names, or the wave's field, and nothing else. -/
theorem controlStates : Obligations.ControlStates := ⟨controlStates_hold, leavingAndTimeout_holds⟩

end Sys2Proof.Machine
end

section
/-! Transfers of control (spec/04 R101 to R103): where the threads go, and the link of a call. -/

namespace Sys2Proof.Machine

/-! ## Branches and returns (R101, R102) -/

theorem branches_hold : branchesHolds := by
  intro s e h
  refine ⟨fun i hd tgt s1 hb ht => ?_, fun hd c disp hb => ?_⟩
  · have hgo := Env.transfer_ok (w := e.w) ht
    unfold branchOf at hb
    split at hb
    · cases hb
      exact onIssue_next h.1 hgo
    · next a disp =>
      split at hb
      · cases hb
      · next hu =>
        cases hb
        refine (onIssue_next h.1 ?_ : execBr hd (.nz a) disp s = _)
        rw [if_pos (bne_iff_ne.mpr hu)]
        exact hgo
    · next a disp =>
      split at hb
      · next hu =>
        cases hb
        refine (onIssue_next h.1 ?_ : execBr hd (.z a) disp s = _)
        rw [if_pos (beq_iff_eq.mpr hu)]
        exact hgo
      · cases hb
    · cases hb
      exact onIssue_next h.1 hgo
    · cases hb
      exact onIssue_next h.1 hgo
    · cases hb
  · cases c with
    | always => cases hb
    | nz a =>
      have hu : e.usrc s e.p.lanes a = 0 := by
        by_contra hu
        rw [branchOf, if_neg hu] at hb
        cases hb
      refine (onIssue_next h.1 ?_ : execBr hd (.nz a) disp s = _)
      rw [if_neg (by simp [hu])]
    | z a =>
      have hu : e.usrc s e.p.lanes a ≠ 0 := by
        intro hu
        rw [branchOf, if_pos hu] at hb
        cases hb
      refine (onIssue_next h.1 ?_ : execBr hd (.z a) disp s = _)
      rw [if_neg (by simpa using hu)]

/-! ## Calls (R103) -/

/-- The state after a transfer of the threads `x`, with `w` for the wave. -/
def Env.transferred (e : Env) (s : State) (x : BitVec 64) (w : Wave) : State :=
  { s.setWave w with iss := some { e.p with moved := e.p.moved ||| x } }

theorem Env.transferred_wave {e : Env} {s : State} {x : BitVec 64} {w w0 : Wave} (hid : w.id = e.w.id)
    (hw : s.wave? e.w.id = some w0) : (e.transferred s x w).wave? e.w.id = some w := by
  rw [← hid]
  exact State.wave?_setWave (by rw [hid]; exact hw)

/-- The wave after the threads `x` have gone to their targets. -/
def Wave.goTo (w : Wave) (x : BitVec 64) (tgt : Nat → Nat) : Wave := w.each x fun l th => { th with pc := tgt l }

/-- The state in which a call tests its targets: an s register has its link (notes/assumptions/20). -/
def Env.linked (e : Env) (s : State) : Opd → State
  | .s r => s.putS e.w e.p.lanes (.s r) (BitVec.ofNat 64 e.p.next)
  | _ => s

/-- A call whose targets are all branch targets. -/
theorem Env.callTo_ok {e : Env} {s s1 : State} {hd : Head} {d : Opd} {tgt : Nat → Nat} {w : Wave}
    (hx : e.guard hd ≠ 0) (hw : (e.linked s d).wave? e.w.id = some w)
    (ht : (e.linked s d).testTargets e tgt (lanesOf (e.guard hd)) = (s1, [])) :
    e.callTo s hd d tgt = .ok (e.transferred s1 (e.guard hd)
      ((w.goTo (e.guard hd) tgt).putV (e.guard hd) 0 d false fun _ => e.p.next)) := by
  have hid : w.id = e.w.id := State.wave?_id hw
  have hquiet := State.testTargets_quiet (e.linked s d) e tgt (lanesOf (e.guard hd))
  rw [ht] at hquiet
  have hmoved : (e.transferred s1 (e.guard hd) (w.goTo (e.guard hd) tgt)).wave? e.w.id
      = some (w.goTo (e.guard hd) tgt) := Env.transferred_wave hid ((hquiet.wave? _).trans hw)
  have htransfer : e.transfer (e.linked s d) w (e.guard hd) tgt
      = .ok (e.transferred s1 (e.guard hd) (w.goTo (e.guard hd) tgt)) := Env.transfer_ok ht
  have hcall : e.callTo s hd d tgt = match e.transfer (e.linked s d) (((e.linked s d).wave? e.w.id).getD e.w)
      (e.guard hd) tgt with
    | .error y => .error y
    | .ok s2 => .ok (s2.setWave (((s2.wave? e.w.id).getD e.w).putV (e.guard hd) 0 d false fun _ => e.p.next)) := by
    cases d with
    | s r => simp only [Env.callTo, if_neg hx, Env.linked] <;> rfl
    | _ => rfl
  rw [hcall, hw, Option.getD_some, htransfer]
  simp only [hmoved, Option.getD_some]
  have hset := State.setWave_setWave s1 (w.goTo (e.guard hd) tgt)
    ((w.goTo (e.guard hd) tgt).putV (e.guard hd) 0 d false fun _ => e.p.next) (Wave.putV_id ..).symm
  exact congrArg (fun u : State => Except.ok { u with iss := some { e.p with moved := e.p.moved ||| e.guard hd } }) hset

/-- Where the threads of a call go, and their links in v registers. -/
theorem Wave.goTo_putV_th (w : Wave) (x : BitVec 64) (tgt : Nat → Nat) (r : Fin 256) (link : Nat) {l : Nat}
    (hl : l < w.threads.length) : ((w.goTo x tgt).putV x 0 (.v r) false fun _ => link).th l =
      if x.getLsbD l then { (w.th l).setV r.val false link with pc := tgt l } else w.th l := by
  have hl' : l < (w.goTo x tgt).threads.length := by rw [Wave.goTo, Wave.each_length]; exact hl
  show ((w.goTo x tgt).each (x ||| 0#64) fun l th => th.setV r.val false (if x.getLsbD l then link else 0)).th l = _
  rw [BitVec.or_zero, Wave.each_th _ _ _ _ hl', Wave.goTo, Wave.each_th _ _ _ _ hl]
  cases x.getLsbD l <;> rfl

theorem SameBesideMemory.sreg {s t : State} (h : SameBesideMemory s t) (id n : Nat) : t.sreg id n = s.sreg id n := by
  simp only [State.sreg, h.wave?, h.crew?]

/-- A call with its link in a v register. -/
theorem callTo_v {s s1 : State} {e : Env} (h : Issuing s e) {hd : Head} {r : Fin 256} {tgt : Nat → Nat}
    (hx : e.guard hd ≠ 0) (ht : s.testTargets e tgt (lanesOf (e.guard hd)) = (s1, [])) :
    ∃ t w, e.callTo s hd (.v r) tgt = .ok t ∧ SameBesideWave { s1 with iss := t.iss } t e.w.id
      ∧ t.iss = some { e.p with moved := e.p.moved ||| e.guard hd }
      ∧ t.wave? e.w.id = some w ∧ { w with threads := e.w.threads } = e.w
      ∧ ∀ l, l < e.w.width → w.th l = if (e.guard hd).getLsbD l
          then { (e.w.th l).setV r.val false e.p.next with pc := tgt l } else e.w.th l := by
  obtain ⟨he, hshape, -, -⟩ := h
  obtain ⟨-, hw, -, -, -⟩ := State.env?_eq he
  have hquiet := State.testTargets_quiet s e tgt (lanesOf (e.guard hd))
  rw [ht] at hquiet
  refine ⟨_, _, Env.callTo_ok (d := .v r) hx hw ht, ⟨rfl, fun _ hj => State.wave?_setWave_other hj⟩, rfl,
    Env.transferred_wave (w0 := e.w) rfl ((hquiet.wave? _).trans hw), rfl, fun l hl => ?_⟩
  exact Wave.goTo_putV_th _ _ _ _ _ (by rw [Wave.shape_threads hshape]; exact hl)

/-- A call with its link in an s register. -/
theorem callTo_s {s s1 : State} {e : Env} (h : Issuing s e) {hd : Head} {r : Fin 512} {tgt : Nat → Nat}
    (hx : e.guard hd ≠ 0) (hr : SDeclared e (.s r))
    (ht : (s.putS e.w e.p.lanes (.s r) (BitVec.ofNat 64 e.p.next)).testTargets e tgt (lanesOf (e.guard hd))
      = (s1, [])) :
    ∃ t, e.callTo s hd (.s r) tgt = .ok t ∧ t.sreg e.w.id r.val = BitVec.ofNat 64 e.p.next
      ∧ t.iss = some { e.p with moved := e.p.moved ||| e.guard hd }
      ∧ ∃ w, t.wave? e.w.id = some w ∧ ∀ l, l < e.w.width →
          w.th l = if (e.guard hd).getLsbD l then { e.w.th l with pc := tgt l } else e.w.th l := by
  obtain ⟨-, -, -, ⟨w, hw, hrest⟩, -, hsreg⟩ := putS_result h (.s r) (BitVec.ofNat 64 e.p.next) hr
  have hquiet := State.testTargets_quiet (s.putS e.w e.p.lanes (.s r) (BitVec.ofNat 64 e.p.next)) e tgt
    (lanesOf (e.guard hd))
  rw [ht] at hquiet
  have hthreads : w.threads = e.w.threads := (congrArg Wave.threads hrest :)
  have hid : w.id = e.w.id := State.wave?_id hw
  have hw1 : s1.wave? e.w.id = some w := (hquiet.wave? _).trans hw
  refine ⟨_, Env.callTo_ok (d := .s r) hx hw ht, ?_, rfl, _, Env.transferred_wave (w0 := w) hid hw1, fun l hl => ?_⟩
  · calc (s1.setWave (w.goTo (e.guard hd) tgt)).sreg e.w.id r.val
      _ = s1.sreg e.w.id r.val := by
        rw [← hid]
        exact State.sreg_setWave (w := w.goTo ..) (w0 := w) (hid ▸ hw1) rfl rfl _
      _ = BitVec.ofNat 64 e.p.next := by
        rw [hquiet.sreg, hsreg]
        simp
  · have hlen : l < w.threads.length := by rw [hthreads, Wave.shape_threads h.2.1]; exact hl
    have hth : w.th l = e.w.th l := by rw [Wave.th, hthreads, Wave.th]
    rw [← hth]
    exact Wave.each_th _ _ _ _ hlen

theorem calls_hold : callsHolds := by
  intro s e h hd d disp a p hp hx
  have hrun {t : State} (ht : e.callTo s hd d p.2 = .ok t) : exec p.1 s = .next t := by
    simp only [List.mem_cons, List.not_mem_nil, or_false] at hp
    obtain rfl | rfl := hp
    · exact onIssue_next h.1 ht
    · exact onIssue_next h.1 ht
  refine ⟨?_, ?_⟩
  · rintro r s1 rfl - ht
    obtain ⟨t, w, hcall, hresult⟩ := callTo_v h hx ht
    exact ⟨t, w, hrun hcall, hresult⟩
  · rintro r s1 rfl hr ht
    obtain ⟨t, hcall, hresult⟩ := callTo_s h hx hr ht
    exact ⟨t, hrun hcall, hresult⟩

/-- Settles O2: a transfer whose targets pass their tests sets the pc of each thread, and a call writes the link beside
it. -/
theorem controlTransfers : Obligations.ControlTransfers := ⟨branches_hold, calls_hold⟩

end Sys2Proof.Machine
end

section
/-! Hardware loops (spec/04 R104, R106): the level that loop takes, and the check at the end slot. -/

namespace Sys2Proof.Machine

/-! ## loop (R104) -/

/-- No thread that takes a level lacks one. -/
theorem noLaneFull {e : Env} {m : BitVec 64} (hfree : ∀ l, m.getLsbD l = true → (e.w.th l).depth < 4) :
    (lanesOf m).filter (fun l => (e.w.th l).depth == 4) = [] := by
  rw [List.filter_eq_nil_iff]
  intro l hl
  have hdepth := hfree l (List.mem_filter.mp hl).2
  simpa using hdepth.ne

/-- loop, where its end lies in the kernel and every thread that takes a level has a free one. -/
theorem execLoop_run {s t : State} {e : Env} (he : s.env? = some e) {hd : Head} {c : LoopCount} {n : BitVec 20}
    {skip : BitVec 64} (hskip : skip = maskOf fun l => (e.guard hd).getLsbD l && e.loopN s l c == 0)
    (hfin : e.p.slot + n.toNat < e.k.hdr.slots)
    (hfree : ∀ l, (e.guard hd &&& ~~~skip).getLsbD l = true → (e.w.th l).depth < 4)
    (ht : (let w := e.w.each (e.guard hd &&& ~~~skip) fun l th =>
        th.pushLevel th.depth (e.loopN s l c - 1) (e.p.slot + n.toNat - e.p.next) (e.p.slot + n.toNat)
      if skip = 0 then .ok (s.setWave w) else e.transfer s w skip fun _ => e.p.slot + n.toNat + 1) = .ok t) :
    exec (.loop hd c n) s = .next t := by
  subst hskip
  refine (onIssue_next he ?_ : execLoop hd c n s = _)
  simp only [if_neg (Nat.not_le.mpr hfin), noLaneFull hfree, List.map_nil, Env.blame_nil, Wave.endHelpers_zero,
    and_not_zero]
  exact ht

theorem loops_hold : loopsHolds := by
  rintro s e h hd c n x skip rfl hskip hfin hfree w1
  have hfree' (l : Nat) (hl : (e.guard hd &&& ~~~skip).getLsbD l = true) : (e.w.th l).depth < 4 := by
    have hlt : l < 64 := BitVec.lt_of_getLsbD hl
    simp only [BitVec.getLsbD_and, BitVec.getLsbD_not, hlt, decide_true, Bool.true_and, Bool.and_eq_true,
      Bool.not_eq_true'] at hl
    exact hfree l hl.1 hl.2
  refine ⟨fun h0 => execLoop_run h.1 hskip hfin hfree' (if_pos h0), fun s1 h0 ht => ?_⟩
  exact execLoop_run h.1 hskip hfin hfree' ((if_neg h0).trans (Env.transfer_ok ht))

/-! ## Levels of a thread -/

theorem Thread.loopLen_eq (th : Thread) (n : Nat) : th.loopLen n = (getAt th.loops n 0).toNat / 2 ^ 32 % 2 ^ 20 := by
  rw [Thread.loopLen, bitsOf, Nat.shiftRight_eq_div_pow]

theorem Thread.depth_of_none {th : Thread} (h : ∀ n, n < 4 → th.active n = false) : th.depth = 0 := by
  simp [Thread.depth, h 0, h 1, h 2, h 3]

theorem Thread.depth_of_highest {th : Thread} {n : Nat} (hn : n < 4) (hact : th.active n = true)
    (habove : ∀ m, n < m → m < 4 → th.active m = false) : th.depth = n + 1 := by
  unfold Thread.depth
  match n with
  | 3 => simp [hact]
  | 2 => simp [hact, habove 3]
  | 1 => simp [hact, habove 2, habove 3]
  | 0 => simp [hact, habove 1, habove 2, habove 3]

/-- An active level is one of the thread's registers. -/
theorem Thread.lt_loops {th : Thread} {n : Nat} (hact : th.active n = true) : n < th.loops.length := by
  by_contra hn
  simp [Thread.active, getAt, List.getD, Nat.le_of_not_lt hn] at hact

theorem getAt_updAt {α : Type} (l : List α) (i j : Nat) (f : α → α) (d : α) (hi : i < l.length) :
    getAt (updAt l i f) j d = if j = i then f (getAt l j d) else getAt l j d := by
  by_cases h : j = i
  · subst h
    simp [getAt, updAt, List.getD, hi]
  · simp [getAt, updAt, List.getD, h, Ne.symm h]

theorem updAt_eq_set {α : Type} (l : List α) (i : Nat) (f : α → α) (d : α) (hi : i < l.length) :
    updAt l i f = l.set i (f (getAt l i d)) := by
  rw [updAt, @List.modify_eq_set α ⟨d⟩]
  simp [getAt, List.getD, hi]

theorem Thread.popLevel_active {th : Thread} {n m : Nat} (hact : th.active n = true) (hne : m ≠ n) :
    (th.popLevel n).active m = th.active m := by
  rw [Thread.active, Thread.popLevel, getAt_updAt _ _ _ _ _ (Thread.lt_loops hact), if_neg hne, Thread.active]

/-- A count above zero goes down by one, and the rest of its level stays. -/
theorem replaceBits_count (x : Dword) (h : x.toNat % 2 ^ 32 ≠ 0) :
    BitVec.ofNat 64 (replaceBits x.toNat 0 32 (x.toNat % 2 ^ 32 - 1)) = x - 1 := by
  apply BitVec.eq_of_toNat_eq
  have hx := x.isLt
  rw [replaceBits, bitsOf, Nat.shiftRight_zero, BitVec.toNat_ofNat, BitVec.toNat_sub,
    show (1 : Dword).toNat = 1 from rfl]
  omega

/-! ## The end-slot check (R106) -/

section
variable {th : Thread} {slots : List Nat} {n : Nat}

theorem Thread.endCheck_away (taken : Option Nat) (h : th.active n = false ∨ th.loopEnd n ∉ slots) :
    th.endCheck slots taken (n + 1) = (th, none) := by
  have hcond : (th.active n && slots.contains (th.loopEnd n)) = false := by
    rcases h with h | h <;> simp [h]
  rw [Thread.endCheck, hcond]
  rfl

/-- A transfer within the body. -/
theorem Thread.endCheck_within {t : Nat} (hact : th.active n = true) (hend : th.loopEnd n ∈ slots)
    (hfirst : th.loopEnd n - th.loopLen n ≤ t) (hlast : t ≤ th.loopEnd n) :
    th.endCheck slots (some t) (n + 1) = (th, none) := by
  simp [Thread.endCheck, hact, hend, hfirst, hlast]

/-- The next pass through the body. -/
theorem Thread.endCheck_again (hact : th.active n = true) (hend : th.loopEnd n ∈ slots)
    (hcount : th.loopCount n ≠ 0) :
    th.endCheck slots none (n + 1) = (th.setCount n (th.loopCount n - 1), some (th.loopEnd n - th.loopLen n)) := by
  simp [Thread.endCheck, hact, hend, hcount]

/-- The end of a level: by a transfer out of the body, or with no count left. -/
theorem Thread.endCheck_ends {taken : Option Nat} (hact : th.active n = true) (hend : th.loopEnd n ∈ slots)
    (hout : (∃ t, taken = some t ∧ ¬(th.loopEnd n - th.loopLen n ≤ t ∧ t ≤ th.loopEnd n))
      ∨ taken = none ∧ th.loopCount n = 0) :
    th.endCheck slots taken (n + 1) = (th.popLevel n).endCheck slots taken n := by
  have hcond : (th.active n && slots.contains (th.loopEnd n)) = true := by simp [hact, hend]
  obtain ⟨t, rfl, ht⟩ | ⟨rfl, hcount⟩ := hout
  · rw [Thread.endCheck, if_pos hcond]
    exact if_neg (by simpa using ht)
  · simp only [Thread.endCheck, if_pos hcond, if_pos hcount]

end

/-- The check changes the levels alone. -/
theorem Thread.endCheck_rest (th : Thread) (slots : List Nat) (taken : Option Nat) (n : Nat) :
    { (th.endCheck slots taken n).1 with loops := th.loops } = th := by
  induction n generalizing th with
  | zero => rfl
  | succ n ih =>
    have hpop : { ((th.popLevel n).endCheck slots taken n).1 with loops := th.loops } = th := by
      have h := congrArg (fun u : Thread => { u with loops := th.loops }) (ih (th.popLevel n))
      exact h
    unfold Thread.endCheck
    split
    · split
      · dsimp only
        split
        · rfl
        · exact hpop
      · split
        · exact hpop
        · rfl
    · rfl

/-! ## Where a thread goes on (R106) -/

/-- Where a thread that runs goes on: what the check leaves of its levels, and the slot it names. -/
theorem Thread.goNext_ready {th : Thread} (hrun : th.run = .ready) (p : Issue) (slots : List Nat)
    (sw keep moved taken : Bool) (tick : Nat) {x : Thread} {back : Option Nat}
    (hcheck : th.endCheck slots (if taken then some th.pc else none) th.depth = (x, back)) :
    (th.goNext p slots sw keep moved taken tick).pc = back.getD (if moved then th.pc else p.next)
      ∧ (th.goNext p slots sw keep moved taken tick).loops = x.loops := by
  simp only [Thread.goNext, hrun, hcheck, and_self]

theorem Thread.goNext_rest {th : Thread} (hrun : th.run = .ready) (p : Issue) (slots : List Nat)
    (sw keep moved taken : Bool) (tick : Nat) : let u := th.goNext p slots sw keep moved taken tick
    u.run = (if sw then .marker else .ready) ∧ u.since = tick + 1 ∧ u.v = th.v ∧ u.lends = th.lends := by
  have hrest := th.endCheck_rest slots (if taken then some th.pc else none) th.depth
  simp only [Thread.goNext, hrun, true_and]
  exact ⟨(congrArg Thread.v hrest :), (congrArg Thread.lends hrest :)⟩

theorem loopEnds_hold : loopEnds := by
  intro th p slots sw long moved taken tick hrun hmoved u on live last len
  have hnext {x : Thread} {back : Option Nat}
      (h : th.endCheck slots (if taken then some th.pc else none) th.depth = (x, back)) :
      u.pc = back.getD on ∧ u.loops = x.loops := Thread.goNext_ready hrun p slots sw long moved taken tick h
  obtain ⟨hurun, husince, huv, hulends⟩ := Thread.goNext_rest hrun p slots sw long moved taken tick
  refine ⟨hurun, husince, huv, hulends, fun hnone => ?_, fun n hn hlive habove => ?_⟩
  · rw [Thread.depth_of_none hnone] at hnext
    exact hnext rfl
  · have hact : th.active n = true := hlive
    have hlen : len n = th.loopLen n := (th.loopLen_eq n).symm
    rw [Thread.depth_of_highest hn hact habove] at hnext
    rw [hlen]
    refine ⟨fun haway => hnext (Thread.endCheck_away _ (.inr haway)), fun hend htaken hfirst hlast => ?_,
      fun hend htaken hcount => ?_, fun hend hout hbelow => ?_⟩
    · rw [htaken] at hnext
      obtain ⟨hpc, hloops⟩ := hnext (Thread.endCheck_within hact hend hfirst hlast)
      exact ⟨hpc.trans (if_pos (hmoved htaken)), hloops⟩
    · rw [htaken] at hnext
      obtain ⟨hpc, hloops⟩ := hnext (Thread.endCheck_again hact hend hcount)
      have hget (m : Nat) : getAt u.loops m 0 = if m = n then getAt th.loops m 0 - 1 else getAt th.loops m 0 := by
        rw [hloops, Thread.setCount, getAt_updAt _ _ _ _ _ (Thread.lt_loops hact)]
        split
        · next hm =>
          subst hm
          exact replaceBits_count _ hcount
        · rfl
      exact ⟨hpc, by rw [hget, if_pos rfl], fun m hm => by rw [hget, if_neg hm]⟩
    · have hpop : th.endCheck slots (if taken then some th.pc else none) (n + 1) = (th.popLevel n, none) := by
        rw [Thread.endCheck_ends hact hend ?_]
        · cases n with
          | zero => rfl
          | succ m =>
            refine Thread.endCheck_away _ ?_
            rw [Thread.popLevel_active hact (by omega)]
            obtain h0 | hoff | hlast := hbelow
            · cases h0
            · exact .inl hoff
            · exact .inr hlast
        · obtain ⟨ht, hleft⟩ | ⟨ht, hcount⟩ := hout
          · exact .inl ⟨th.pc, by rw [ht, if_pos rfl], hleft⟩
          · exact .inr ⟨by rw [ht]; rfl, hcount⟩
      obtain ⟨hpc, hloops⟩ := hnext hpop
      exact ⟨hpc, hloops.trans (updAt_eq_set _ _ _ _ (Thread.lt_loops hact))⟩

/-- Settles O3: loop by its equation, and the end-slot check by the four things it can do with the highest level. That a
level below it counts only where its own V is 1 is the model's choice (notes/assumptions/20). -/
theorem loops : Obligations.Loops := ⟨loops_hold, loopEnds_hold⟩

end Sys2Proof.Machine
end

section
/-! System calls, task records and traps (spec/04 R114, R117, R118, R122). -/

namespace Sys2Proof.Machine

/-! ## Requests of system calls (R114) -/

theorem calls4_hold : calls4Holds := by
  intro s e h x
  have he := h.1
  refine ⟨fun hm => ⟨(onIssue_next he (if_pos hm) : execSysc x s = _),
    (onIssue_next he (if_pos hm) : execSyscWait x s = _)⟩, fun hm hroom => ?_⟩
  have hcall : ¬(!s.callRoom e.t.ctx) = true := by rw [hroom]; decide
  obtain ⟨g, d, a, b, narg, nrep⟩ := x
  refine ⟨?_, ?_⟩
  · rintro n rfl hkind hfree
    have hbound : ¬((e.k.q n.val).kind != 4) = true := by rw [hkind]; decide
    exact onIssue_next he ((if_neg hm).trans ((if_neg hbound).trans ((if_neg (Nat.not_lt.mpr hfree)).trans
      (if_neg hcall))))
  · rintro n rfl
    let x : Sysc := ⟨g, .v n, a, b, narg, nrep⟩
    let result (l : Nat) : Pend := { doneResult (.syscWait x) e.p.slot l (.v n) [] 0 with
      done := false
      c := BitVec.ofNat 128 s.callToken }
    refine ⟨_, onIssue_next he ((if_neg hm).trans (if_neg hcall)), ?_⟩
    rw [Wave.foldl_push _ _ result]
    exact ⟨rfl, List.append_assoc ..⟩

/-! ## Task records (R122) -/

/-- The lanes whose task records tenq submits: an s register names one record for all of them. -/
def Env.recordLanes (e : Env) (h : Head) (a : Opd) : List Nat :=
  match a with
  | .s _ => (lanesOf (e.real (e.guard h))).take 1
  | _ => lanesOf (e.real (e.guard h))

/-- The access to the record of lane `l`. -/
def Env.recordAccess (e : Env) (s : State) (h : Head) (a : Opd) (l : Nat) : Pend :=
  { doneResult (.tenq h a) e.p.slot l .zero [] 0 with
    lanes := if a.isS then e.real (e.guard h) else 1#64 <<< l
    done := false
    a := BitVec.ofNat 128 (e.src s l true a) }

/-- tenq over the lanes `ls`. -/
def Env.submit (e : Env) (s : State) (h : Head) (a : Opd) (ls : List Nat) : Except Stop State :=
  match ls.find? fun l => e.src s l true a % 128 != 0 with
  | some l => .error (.trap { cause := .misaligned, lane := some l, addr := BitVec.ofNat 64 (e.src s l true a) })
  | none => .ok (s.setWave (ls.foldl (fun w l => w.push (e.recordAccess s h a l)) e.w))

theorem execTenq_eq (h : Head) (a : Opd) (s : State) :
    execTenq h a s = onIssue s fun e => e.submit s h a (e.recordLanes h a) := by
  cases a <;> rfl

theorem enqueue_holds : enqueueHolds := by
  intro s e h hd a ls hls
  have hlanes : ls = e.recordLanes hd a := by
    rw [hls]
    cases a <;> rfl
  have hrun : exec (.tenq hd a) s = onIssue s fun e => e.submit s hd a (e.recordLanes hd a) := execTenq_eq hd a s
  refine ⟨fun halign => ⟨{ e.w with out := e.w.out ++ ls.map (e.recordAccess s hd a) }, ?_, rfl, rfl⟩,
    fun l hl => ?_⟩
  · have hnone : (ls.find? fun l => e.src s l true a % 128 != 0) = none := by
      rw [List.find?_eq_none]
      intro l hl
      simp [halign l hl]
    rw [hrun]
    refine onIssue_next h.1 ?_
    rw [← hlanes, Env.submit, hnone, ← Wave.foldl_push]
  · rw [hrun]
    refine onIssue_stop h.1 (x := .trap _) ?_
    rw [← hlanes, Env.submit, hl]

/-- Settles O4: the requests of R114, and the records of R122, enter as outstanding accesses. -/
theorem systemCalls : Obligations.SystemCalls := ⟨calls4_hold, enqueue_holds⟩

/-! ## Traps (R117, R118) -/

/-- Settles O5: with a thread that counts, trap stops with its code, and brk does so unless the wave is resumed here. -/
theorem traps : Obligations.Traps := by
  intro s e h hd code
  have he := h.1
  refine ⟨fun hm => ⟨(onIssue_next he (if_pos hm) : execTrap hd code s = _),
      (onIssue_next he ?_ : execBrk hd code s = _)⟩,
    fun hm => (onIssue_stop he (if_neg hm) : execTrap hd code s = _), fun hm hdebug => ?_⟩
  · simp only [hm, decide_true, Bool.true_or, if_true]
  · have hon : ¬((decide (e.real (e.guard hd) = 0) || !s.flag (.dbgctl e.t.ctx) 0) = true) := by
      rw [decide_eq_false hm, hdebug]
      decide
    exact ⟨fun hpass => (onIssue_next he ((if_neg hon).trans (if_pos hpass)) : execBrk hd code s = _),
      fun hpass => (onIssue_stop he ((if_neg hon).trans (if_neg hpass)) : execBrk hd code s = _)⟩

end Sys2Proof.Machine
end

section
/-! Uniform instructions (spec/04 R123, R124, R126): the result of each, as an integer of its type, and its one write
of the destination register. -/

namespace Sys2Proof.Machine

/-! ## Integers of a type (spec/03 R76) -/

theorem ofSigned_cast (n : Nat) (v : Int) : (ofSigned n v : Int) = v % 2 ^ n := by
  have hpos : ((2 ^ n : Nat) : Int) ≠ 0 := by positivity
  rw [ofSigned, Int.toNat_of_nonneg (Int.emod_nonneg v hpos)]
  push_cast
  rfl

theorem toSigned_eq_toInt {n x : Nat} (hn : 1 ≤ n) (hx : x < 2 ^ n) : toSigned n x = (BitVec.ofNat n x).toInt := by
  obtain ⟨m, rfl⟩ := Nat.exists_eq_add_of_le' hn
  rw [toSigned, BitVec.toInt_eq_toNat_cond, BitVec.toNat_ofNat, Nat.mod_eq_of_lt hx, Nat.add_sub_cancel]
  have hdouble : 2 ^ (m + 1) = 2 * 2 ^ m := by rw [Nat.pow_succ, Nat.mul_comm]
  by_cases h : x < 2 ^ m
  · rw [if_pos h, if_pos (by omega)]
  · rw [if_neg h, if_neg (by omega)]
    push_cast
    rfl

theorem intOf_low {t : Ty} (ht : 1 ≤ t.bits) (x : Nat) : intOf t (low t x) = valueIn t x := by
  have hx : x % 2 ^ t.bits < 2 ^ t.bits := Nat.mod_lt _ (by positivity)
  simp only [intOf, low, valueIn, Nat.mod_mod, toSigned_eq_toInt ht hx, BitVec.toNat_ofNat]
  rw [show BitVec.ofNat t.bits (x % 2 ^ t.bits) = BitVec.ofNat t.bits x from
    BitVec.eq_of_toNat_eq (by simp)]

theorem valueIn_bounds (t : Ty) (x : Nat) :
    -(2 ^ t.bits : Int) ≤ valueIn t x ∧ valueIn t x < 2 ^ t.bits := by
  have hlt : ((BitVec.ofNat t.bits x).toNat : Int) < 2 ^ t.bits := by exact_mod_cast (BitVec.ofNat t.bits x).isLt
  unfold valueIn
  split
  · rw [BitVec.toInt_eq_toNat_cond]
    split <;> push_cast <;> omega
  · omega

/-! ## Uniform results (R124) -/

theorem uniRes_eq (t : Ty) (x : Nat) : uniRes t x = uniformInt t x := by
  simp only [uniRes, uniformInt, Ty.wide, beq_iff_eq, BitVec.ofInt_natCast]

theorem uniformInt_congr {t : Ty} (ht : t.bits = 32 ∨ t.bits = 64) {v u : Int} (h : v % 2 ^ t.bits = u % 2 ^ t.bits) :
    uniformInt t v = uniformInt t u := by
  have hof : BitVec.ofInt t.bits v = BitVec.ofInt t.bits u := by
    apply BitVec.eq_of_toNat_eq
    rw [BitVec.toNat_ofInt, BitVec.toNat_ofInt]
    push_cast
    rw [h]
  unfold uniformInt
  obtain ht | ht := ht <;> rw [ht] at hof ⊢ <;> simp [hof]

theorem uniRes_ofSigned {t : Ty} (ht : t.bits = 32 ∨ t.bits = 64) (v : Int) :
    uniRes t (ofSigned t.bits v) = uniformInt t v := by
  rw [uniRes_eq]
  exact uniformInt_congr ht (by rw [ofSigned_cast, Int.emod_emod_of_dvd _ dvd_rfl])

theorem place_eq_mod {t : Ty} (ht : t.bits = 32 ∨ t.bits = 64) (x : Nat) : place t x = x % 2 ^ t.bits := by
  unfold place
  split
  · simp [Ty.bits] at ht
  · simp [Ty.bits] at ht
  · obtain ht | ht := ht <;> simp [ht]

/-- Low bits of both sources give the low bits of a bitwise operation. -/
theorem uniRes_bitwise {t : Ty} (ht : t.bits = 32 ∨ t.bits = 64) {x y : Nat} (h : x = y % 2 ^ t.bits) :
    uniRes t x = uniformInt t y := by
  rw [uniRes_eq, h]
  exact uniformInt_congr ht (by push_cast; rw [Int.emod_emod_of_dvd _ dvd_rfl])

theorem uniRes_divRes {t : Ty} (ht : t.bits = 32 ∨ t.bits = 64) (a b : Int) :
    uniRes t (divRes t false a b) = uniformInt t (if b = 0 then -1 else a.tdiv b) := by
  have hmod (x : Nat) : uniRes t (place t x) = uniformInt t x := uniRes_bitwise ht (place_eq_mod ht x)
  unfold divRes
  split
  · rw [hmod]
    apply uniformInt_congr ht
    rw [Nat.cast_sub Nat.one_le_two_pow, Nat.cast_pow, Nat.cast_ofNat, sub_eq_add_neg, Int.add_emod_left]
    rfl
  · rw [intRes, hmod, ← uniRes_eq]
    exact uniRes_ofSigned ht _

/-- The shift count is the low 8 bits of source B (R130). -/
theorem low_mod_256 {t : Ty} (ht : t.bits = 32 ∨ t.bits = 64) (b : Nat) : low t b % 256 = b % 256 := by
  unfold low
  obtain ht | ht := ht <;> rw [ht] <;> omega

theorem uniRes_shlNat {t : Ty} (ht : t.bits = 32 ∨ t.bits = 64) (a b : Nat) :
    uniRes t (shlNat t.bits (low t a) (low t b)) = uniformInt t ((a * 2 ^ (b % 256) : Nat) : Int) := by
  apply uniRes_bitwise ht
  rw [shlNat, low_mod_256 ht]
  split
  · rw [low, Nat.mod_mul_mod]
  · next h => rw [Nat.mod_eq_zero_of_dvd (Dvd.dvd.mul_left (Nat.pow_dvd_pow 2 (by omega)) a)]

theorem shrNat_low {t : Ty} (ht : t.bits = 32 ∨ t.bits = 64) (a b : Nat) :
    shrNat t.bits (low t a) (low t b) = a % 2 ^ t.bits / 2 ^ (b % 256) := by
  rw [shrNat, low_mod_256 ht]
  split
  · rfl
  · next h =>
    have hpow : 2 ^ t.bits ≤ 2 ^ (b % 256) := Nat.pow_le_pow_right (by decide) (by omega)
    exact (Nat.div_eq_of_lt ((Nat.mod_lt a (by positivity)).trans_le hpow)).symm

theorem ediv_two_pow_of_ge {v : Int} {w n : Nat} (hlow : -(2 ^ w : Int) ≤ v) (hhigh : v < 2 ^ w) (h : w ≤ n) :
    v / 2 ^ n = v / 2 ^ w := by
  have hpow : (2 : Int) ^ w ≤ 2 ^ n := by gcongr; decide
  have hpos : (0 : Int) < 2 ^ w := by positivity
  by_cases hv : 0 ≤ v
  · rw [Int.ediv_eq_zero_of_lt hv (by omega), Int.ediv_eq_zero_of_lt hv hhigh]
  · rw [Int.ediv_eq_neg_one_of_neg_of_le (by omega) (by omega), Int.ediv_eq_neg_one_of_neg_of_le (by omega) (by omega)]

theorem sraInt_low {t : Ty} (ht : t.bits = 32 ∨ t.bits = 64) (a b : Nat) :
    sraInt t.bits (valueIn t a) (low t b) = valueIn t a / 2 ^ (b % 256) := by
  obtain ⟨hlow, hhigh⟩ := valueIn_bounds t a
  rw [sraInt, low_mod_256 ht]
  push_cast
  rcases Nat.le_total (b % 256) t.bits with h | h
  · rw [Nat.min_eq_left h]
  · rw [Nat.min_eq_right h, ediv_two_pow_of_ge hlow hhigh h]

/-! ## Instructions of two sources -/

theorem Env.ub_toNat (e : Env) (s : State) (b : Src32) : (e.ub s b).toNat = match b with
    | .reg o => (e.usrc s e.p.lanes o).toNat
    | .imm i => (i.signExtend 64).toNat := by
  cases b <;> rfl

/-- The uniform instruction `i` writes the integer `g` of its two sources, once per issue (R97, R123, R124). -/
def UniformForm (i : UBin → Instr) (g : Ty → Nat → Nat → Int) : Prop :=
  ∀ s e, s.env? = some e → ∀ x : UBin, (x.ty.bits = 32 ∨ x.ty.bits = 64) →
    exec (i x) s = .next (e.uput s x.h x.d (uniformInt x.ty
      (g x.ty (e.usrc s e.p.lanes x.a).toNat (e.ub s x.b).toNat)))

theorem UniformForm.ofLow {i : UBin → Instr} {g : Ty → Nat → Nat → Int} (f : Ty → Nat → Nat → Nat)
    (hi : ∀ x s, exec (i x) s = uni2 x (f x.ty) s)
    (hg : ∀ {t : Ty}, (t.bits = 32 ∨ t.bits = 64) → ∀ a b,
      uniRes t (f t (low t a) (low t b)) = uniformInt t (g t a b)) :
    UniformForm i g := by
  intro s e he x ht
  rw [hi, ← hg ht]
  exact onIssue_next he rfl

theorem UniformForm.ofInt {i : UBin → Instr} (f : Ty → Int → Int → Int)
    (hi : ∀ x s, exec (i x) s = uniInt x (f x.ty) s) :
    UniformForm i fun t a b => f t (valueIn t a) (valueIn t b) :=
  .ofLow (fun t a b => ofSigned t.bits (f t (intOf t a) (intOf t b))) hi fun ht a b => by
    rw [uniRes_ofSigned ht, intOf_low (by omega), intOf_low (by omega)]

theorem uniformForm_smulh :
    UniformForm .smulh fun t a b => valueIn t a * valueIn t b / 2 ^ t.bits := by
  have h := UniformForm.ofInt (i := .smulh) (fun t a b => a * b / (2 ^ t.bits : Nat)) fun _ _ => rfl
  simpa only [Nat.cast_pow, Nat.cast_ofNat] using h

theorem uniformForm_sdiv :
    UniformForm .sdiv fun t a b => if valueIn t b = 0 then -1 else (valueIn t a).tdiv (valueIn t b) :=
  .ofLow (fun t a b => divRes t false (intOf t a) (intOf t b)) (fun _ _ => rfl) fun ht a b => by
    rw [uniRes_divRes ht, intOf_low (by omega), intOf_low (by omega)]

theorem uniformForm_ssra : UniformForm .ssra fun t a b => valueIn t a / 2 ^ (b % 256) :=
  .ofLow (fun t a b => ofSigned t.bits (sraInt t.bits (intOf t a) b)) (fun _ _ => rfl) fun ht a b => by
    rw [uniRes_ofSigned ht, intOf_low (by omega), sraInt_low ht]

/-- Every instruction of R124 with two sources. -/
theorem uniformForms : ∀ p ∈ uniformBinary, UniformForm p.1 p.2 := by
  simp only [uniformBinary, List.forall_mem_cons, List.not_mem_nil, false_imp_iff, implies_true, and_true]
  refine ⟨.ofInt (fun _ => (· + ·)) fun _ _ => rfl, .ofInt (fun _ => (· - ·)) fun _ _ => rfl,
    .ofInt (fun _ => (· * ·)) fun _ _ => rfl, uniformForm_smulh, uniformForm_sdiv,
    .ofInt (fun _ => remInt) fun _ _ => rfl,
    .ofLow (fun _ => (· &&& ·)) (fun _ _ => rfl) fun ht _ _ => uniRes_bitwise ht Nat.and_mod_two_pow.symm,
    .ofLow (fun _ => (· ||| ·)) (fun _ _ => rfl) fun ht _ _ => uniRes_bitwise ht Nat.or_mod_two_pow.symm,
    .ofLow (fun _ => (· ^^^ ·)) (fun _ _ => rfl) fun ht _ _ => uniRes_bitwise ht Nat.xor_mod_two_pow.symm,
    .ofLow (fun t => shlNat t.bits) (fun _ _ => rfl) uniRes_shlNat,
    .ofLow (fun t => shrNat t.bits) (fun _ _ => rfl) fun ht a b => by rw [shrNat_low ht, uniRes_eq],
    uniformForm_ssra, .ofInt (fun _ => min) fun _ _ => rfl, .ofInt (fun _ => max) fun _ _ => rfl⟩

/-- Settles O8: each form computes its integer, and `Env.uput` writes it. -/
theorem uniformArithmetic : Obligations.UniformArithmetic := by
  intro s e h p hp x ht hd
  refine ⟨_, uniformForms p hp s e h.1 x ht, ?_⟩
  rw [Env.ub_toNat]
  exact uput_result h x.h x.d _ hd

/-! ## Moves, fields and counts -/

theorem sliOf_eq (o : SliOp) (old : Dword) (i : BitVec 32) : sliOf o old i = match o with
    | .sx => i.signExtend 64
    | .zx => i.setWidth 64
    | .hi => i ++ old.setWidth 32 := by
  cases o with
  | sx | zx => rfl
  | hi =>
    apply BitVec.eq_of_toNat_eq
    have hi := i.isLt
    rw [BitVec.toNat_append, ← Nat.shiftLeft_add_eq_or_of_lt (BitVec.isLt _), Nat.shiftLeft_eq]
    simp only [sliOf, BitVec.toNat_ofNat, BitVec.toNat_setWidth]
    omega

theorem ofNat_sbfeOf (t : Ty) (x : Dword) (start : Nat) {len : Nat} (hlen : 1 ≤ len) :
    BitVec.ofNat 64 (sbfeOf t x.toNat start len) =
      if t.signed then ((x >>> start).setWidth len).signExtend 64 else ((x >>> start).setWidth len).setWidth 64 := by
  have hfield : BitVec.ofNat len (bitsOf x.toNat start len) = (x >>> start).setWidth len :=
    BitVec.eq_of_toNat_eq (by simp [bitsOf])
  have hlt : bitsOf x.toNat start len < 2 ^ len := Nat.mod_lt _ (by positivity)
  unfold sbfeOf
  dsimp only
  split
  · rw [toSigned_eq_toInt hlen hlt, hfield, ← BitVec.ofInt_natCast, ofSigned_cast]
    apply BitVec.eq_of_toNat_eq
    rw [BitVec.signExtend, BitVec.toNat_ofInt, BitVec.toNat_ofInt, Nat.cast_pow, Nat.cast_ofNat,
      Int.emod_emod_of_dvd _ dvd_rfl]
  · rw [← hfield]
    exact BitVec.eq_of_toNat_eq (by simp [Nat.mod_eq_of_lt hlt])

theorem popcNat_low (w x : Nat) : popcNat w (x % 2 ^ w) = ((List.range w).filter fun i => x.testBit i).length := by
  rw [popcNat]
  congr 1
  apply List.filter_congr
  intro i hi
  simp [List.mem_range.mp hi]

theorem popcNat_le (w x : Nat) : popcNat w x ≤ w := by
  simpa [popcNat] using List.length_filter_le (fun i => x.testBit i) (List.range w)

/-- The bits above the highest one are zero; those are what clz counts. -/
theorem clzNat_spec {w x : Nat} (hx : x < 2 ^ w) : clzNat w x ≤ w
    ∧ (∀ i, i < clzNat w x → x.testBit (w - 1 - i) = false)
    ∧ (clzNat w x < w → x.testBit (w - 1 - clzNat w x) = true) := by
  unfold clzNat
  split
  · next h => simp [h]
  · next h =>
    have hlog : x.log2 < w := (Nat.log2_lt h).mpr hx
    refine ⟨by omega, fun i hi => ?_, fun _ => ?_⟩
    · exact Nat.testBit_lt_two_pow (Nat.lt_log2_self.trans_le (Nat.pow_le_pow_right (by decide) (by omega)))
    · rw [show w - 1 - (w - 1 - x.log2) = x.log2 by omega]
      exact Nat.testBit_log2 h

/-- ctz is the place of the lowest one. -/
theorem ctzNat_spec (w x : Nat) : ctzNat w x ≤ w ∧ (∀ i, i < ctzNat w x → x.testBit i = false)
    ∧ (ctzNat w x < w → x.testBit (ctzNat w x) = true) := by
  unfold ctzNat
  cases h : (List.range w).find? fun i => x.testBit i with
  | none => simpa using h
  | some r =>
    obtain ⟨hr, hmem, hbelow⟩ := List.find?_range_eq_some.mp h
    exact ⟨(List.mem_range.mp hmem).le, fun i hi => by simpa using hbelow i hi, fun _ => hr⟩

/-- What spop counts of a source (R124), bit by bit. -/
theorem spopOf_spec (o : SpopOp) (w : Nat) (x : Dword) :
    spopOf o w (x.toNat % 2 ^ w) ≤ w ∧ match o with
      | .popc => spopOf o w (x.toNat % 2 ^ w) = ((List.range w).filter fun i => x.getLsbD i).length
      | .clz => (∀ i, i < spopOf o w (x.toNat % 2 ^ w) → x.getLsbD (w - 1 - i) = false)
        ∧ (spopOf o w (x.toNat % 2 ^ w) < w → x.getLsbD (w - 1 - spopOf o w (x.toNat % 2 ^ w)) = true)
      | .ctz => (∀ i, i < spopOf o w (x.toNat % 2 ^ w) → x.getLsbD i = false)
        ∧ (spopOf o w (x.toNat % 2 ^ w) < w → x.getLsbD (spopOf o w (x.toNat % 2 ^ w)) = true) := by
  have hbit {i : Nat} (hi : i < w) : (x.toNat % 2 ^ w).testBit i = x.getLsbD i := by
    simp [hi, BitVec.getLsbD]
  cases o with
  | popc => exact ⟨popcNat_le _ _, popcNat_low _ _⟩
  | clz =>
    obtain ⟨hle, hzero, hone⟩ := clzNat_spec (Nat.mod_lt x.toNat (by positivity : 0 < 2 ^ w))
    refine ⟨hle, fun i (hi : i < clzNat _ _) => ?_, fun hr => ?_⟩
    · rw [← hbit (by omega)]
      exact hzero i hi
    · rw [← hbit (by omega)]
      exact hone hr
  | ctz =>
    obtain ⟨hle, hzero, hone⟩ := ctzNat_spec w (x.toNat % 2 ^ w)
    refine ⟨hle, fun i (hi : i < ctzNat _ _) => ?_, fun hr => ?_⟩
    · rw [← hbit (by omega)]
      exact hzero i hi
    · rw [← hbit hr]
      exact hone hr

theorem uniRes_small {t : Ty} (ht : t = .b32 ∨ t = .b64) {r : Nat} (hr : r ≤ t.bits) :
    uniRes t r = BitVec.ofNat 64 r := by
  obtain rfl | rfl := ht
  · have h32 : r ≤ 32 := hr
    show (BitVec.ofNat 32 r).setWidth 64 = BitVec.ofNat 64 r
    exact BitVec.setWidth_ofNat_of_le_of_lt (by decide) (by omega)
  · rfl

theorem cmpInt_eq_holds (o : CmpOp) (a b : Int) : cmpInt o a b = holds o a b := by
  cases o <;> simp [cmpInt, holds, beq_eq_decide, bne]

theorem cmpInt_low {t : Ty} (ht : t.bits = 32 ∨ t.bits = 64) (o : CmpOp) (a b : Nat) :
    cmpInt o (intOf t (low t a)) (intOf t (low t b)) = holds o (valueIn t a) (valueIn t b) := by
  rw [cmpInt_eq_holds, intOf_low (by omega), intOf_low (by omega)]

/-- Settles O9, one instruction at a time: the value of each is the one stated, and `Env.uput` or `Env.putK` writes
it. -/
theorem uniformMoves : Obligations.UniformMoves := by
  intro s e h hd u
  have he := h.1
  refine ⟨fun n a hn => ⟨_, (onIssue_next he rfl : execSmov hd (.s n) a s = _), uput_result h hd _ _ hn⟩,
    fun n a => ⟨_, (onIssue_next he rfl : execSmov hd (.k n) a s = _), Env.putK_result h hd none _ _⟩,
    fun n i hn o => ⟨_, (onIssue_next he rfl : execSli hd o (.s n) i s = _), ?_⟩,
    fun n a b c hn => ⟨_, (onIssue_next he rfl : execSsel hd (.s n) a b c s = _), ?_⟩,
    fun n ty a start len hn hlen _ => ⟨_, (onIssue_next he rfl : execSbfe hd ty (.s n) a start len s = _), ?_⟩,
    fun n ty a hn hty o => ?_, fun o x hx ht => ?_⟩
  case refine_1 =>
    rw [sliOf_eq]
    exact uput_result h hd _ _ hn
  case refine_2 =>
    have hsel : (if u c != 0 then u a else u b) = if u c = 0 then u b else u a := by
      by_cases hc : u c = 0 <;> simp [hc]
    rw [hsel]
    exact uput_result h hd _ _ hn
  case refine_3 =>
    rw [ofNat_sbfeOf ty _ _ hlen]
    exact uput_result h hd _ _ hn
  case refine_4 =>
    obtain ⟨hle, hspec⟩ := spopOf_spec o ty.bits (u a)
    refine ⟨_, _, (onIssue_next he rfl : execSpop hd o ty (.s n) a s = _), ?_, hle, hspec⟩
    rw [← uniRes_small hty hle]
    exact uput_result h hd _ _ hn
  case refine_5 =>
    obtain ⟨g, ty, d, a, b⟩ := x
    obtain rfl : g = hd := hx
    intro c
    have hc : cmpInt o (intOf ty (low ty (u a).toNat)) (intOf ty (low ty (e.ub s b).toNat)) = c :=
      (cmpInt_low ht o _ _).trans (congrArg (fun y => holds o _ (valueIn ty y)) (Env.ub_toNat e s b))
    rw [← hc]
    refine ⟨?_, ?_⟩
    · rintro n rfl
      exact ⟨_, (onIssue_next he rfl : execScmp o ⟨g, ty, .k n, a, b⟩ s = _), Env.putK_result h g none _ _⟩
    · rintro n rfl hn
      exact ⟨_, (onIssue_next he rfl : execScmp o ⟨g, ty, .s n, a, b⟩ s = _), uput_result h g _ _ hn⟩

end Sys2Proof.Machine
end

section
/-! Vector integer instructions (spec/05 R127 to R134): the integers and bits of their elements, and the registers that
take them. -/

namespace Sys2Proof.Machine

/-! ## Elements (spec/02 R61, R62; spec/03 R76, R77) -/

theorem satOf_eq_saturates (m : Option Modifier) : satOf m = saturates m := by
  cases m <;> rfl

theorem intOf_eq_valueIn {t : Ty} (ht : 1 ≤ t.bits) (x : Nat) : intOf t x = valueIn t x := by
  rw [← intOf_low ht]
  simp only [intOf, low, Nat.mod_mod]

theorem clampTo_eq (t : Ty) (v : Int) : clampTo t v = max (lowest t) (min (highest t) v) := by
  unfold clampTo intRange lowest highest
  split <;> push_cast <;> rfl

theorem resultBits_eq (t : Ty) (sat : Bool) (v : Int) :
    resultBits t sat v = ofSigned t.bits (if sat then clampTo t v else v) := by
  rw [resultBits, clampTo_eq, BitVec.toNat_ofInt, ofSigned]

theorem resultBits_lt (t : Ty) (sat : Bool) (v : Int) : resultBits t sat v < 2 ^ t.bits := BitVec.isLt _

theorem ofSigned_toSigned {n : Nat} (hn : 1 ≤ n) (m x : Nat) :
    ofSigned m (toSigned n (x % 2 ^ n)) = ((BitVec.ofNat n x).signExtend m).toNat := by
  rw [toSigned_eq_toInt hn (Nat.mod_lt _ (by positivity)), BitVec.signExtend, BitVec.toNat_ofInt, ofSigned,
    show BitVec.ofNat n (x % 2 ^ n) = BitVec.ofNat n x from BitVec.eq_of_toNat_eq (by simp)]

theorem scalarInt_bits {t : Ty} (ht : scalarInt t) : 1 ≤ t.bits := by
  simp only [scalarInt, List.mem_cons, List.not_mem_nil, or_false] at ht
  obtain rfl | rfl | rfl | rfl | rfl | rfl | rfl | rfl | rfl | rfl := ht <;> decide

theorem scalarInt_elemOf {t : Ty} (ht : scalarInt t) : elemOf t = (t, 1) := by
  simp only [scalarInt, List.mem_cons, List.not_mem_nil, or_false] at ht
  obtain rfl | rfl | rfl | rfl | rfl | rfl | rfl | rfl | rfl | rfl := ht <;> rfl

/-- A result of a scalar integer type goes to its register as R62 says. -/
theorem place_eq_inRegister {t : Ty} (ht : scalarInt t) {x : Nat} (hx : x < 2 ^ t.bits) :
    place t x = inRegister t x := by
  simp only [scalarInt, List.mem_cons, List.not_mem_nil, or_false] at ht
  obtain rfl | rfl | ht := ht
  · exact ofSigned_toSigned (by decide) 32 x
  · exact ofSigned_toSigned (by decide) 32 x
  · obtain rfl | rfl | rfl | rfl | rfl | rfl | rfl | rfl := ht <;> exact Nat.mod_eq_of_lt hx

theorem intRes_eq_inRegister {t : Ty} (ht : scalarInt t) (sat : Bool) (v : Int) :
    intRes t sat v = inRegister t (resultBits t sat v) := by
  rw [← place_eq_inRegister ht (resultBits_lt t sat v), resultBits_eq, intRes]

/-- A result of 32 or 64 bits is its register's, or its pair's. -/
theorem inRegister_word {t : Ty} (ht : t.bits = 32 ∨ t.bits = 64) (x : Nat) : inRegister t x = x := by
  have h8 : t ≠ .i8 := by rintro rfl; simp [Ty.bits] at ht
  have h16 : t ≠ .i16 := by rintro rfl; simp [Ty.bits] at ht
  rw [inRegister, if_neg h8, if_neg h16]

theorem intRes_word {t : Ty} (ht : t.bits = 32 ∨ t.bits = 64) (sat : Bool) (v : Int) :
    intRes t sat v = resultBits t sat v := by
  rw [intRes, ← resultBits_eq, place_eq_mod ht, Nat.mod_eq_of_lt (resultBits_lt t sat v)]

/-! ## Sources and results (R57, R127, R128) -/

theorem immInt_eq (t : Ty) (i : BitVec 32) : immInt t i = if t.bits = 64 then (i.signExtend 64).toNat else i.toNat := by
  simp only [immInt, Ty.wide, beq_iff_eq]

theorem Env.b32_eq (e : Env) (s : State) (l : Nat) (t : Ty) (b : Src32) : e.b32 s l t t.wide b = secondOf s e l t b := by
  cases b with
  | reg o => rfl
  | imm i => exact immInt_eq t i

theorem signExtend_signExtend_22 (i : BitVec 22) : (i.signExtend 32).signExtend 64 = i.signExtend 64 :=
  BitVec.eq_of_toInt_eq (by rw [BitVec.toInt_signExtend_of_le (by decide), BitVec.toInt_signExtend_of_le (by decide),
    BitVec.toInt_signExtend_of_le (by decide)])

theorem Env.b22_eq (e : Env) (s : State) (l : Nat) (t : Ty) (b : Src22) : e.b22 s l t b = secondOf22 s e l t b := by
  cases b with
  | reg o => rfl
  | imm i => rw [Env.b22, imm22Int, immInt_eq, signExtend_signExtend_22, secondOf22]

/-- A result of a type in v registers. -/
theorem Env.putV_typed {s : State} {e : Env} (h : Issuing s e) (hd : Head) (m : Option Modifier) (d : Opd) (t : Ty)
    (val : Nat → Nat) (hv : VDeclared e d (regsOf t)) :
    VResult s (e.putV s hd m d t.wide val) e (e.exec hd m) (e.zeroed hd m) d (t.bits == 64) val :=
  Env.putV_result h hd m d t.wide val (regsOf_eq t ▸ hv)

/-- The results of the threads that execute, by the instruction's modifiers. -/
abbrev VWrites (s : State) (e : Env) (i : Instr) (h : Head) (m : Option Modifier) (d : Opd) (wide : Bool)
    (val : Nat → Nat) : Prop :=
  ∃ t, exec i s = .next t ∧ VResult s t e (e.exec h m) (e.zeroed h m) d wide val

theorem vec2_writes {s : State} {e : Env} (h : Issuing s e) {i : Instr} {x : VBin} {f g : Nat → Nat → Nat}
    (hi : exec i s = vec2 x f s) (hd : VDeclared e x.d (regsOf x.ty))
    (hfg : ∀ a b, eachSub x.ty (fun _ v => f (v.getD 0 0) (v.getD 1 0)) [a, b] = g a b) :
    VWrites s e i x.h x.mod x.d (x.ty.bits == 64) fun l =>
      g (e.src s l (x.ty.bits == 64) x.a) (secondOf s e l x.ty x.b) := by
  refine ⟨_, hi.trans (onIssue_next h.1 rfl), ?_⟩
  simp only [hfg, Env.b32_eq]
  exact Env.putV_typed h x.h x.mod x.d x.ty _ hd

theorem vec1_writes {s : State} {e : Env} (h : Issuing s e) {i : Instr} {x : VUn} {wide : Bool} {f g : Nat → Nat}
    (hi : exec i s = vec1 x wide f s) (hd : VDeclared e x.d (if wide then 2 else 1)) (ht : (elemOf x.ty).2 = 1)
    (hfg : ∀ l, f (e.src s l (x.ty.bits == 64) x.a) = g l) :
    VWrites s e i x.h x.mod x.d wide g := by
  refine ⟨_, hi.trans (onIssue_next h.1 rfl), ?_⟩
  simp only [eachSub, ht, if_true, List.getD_cons_zero]
  rw [← funext hfg]
  exact Env.putV_result h x.h x.mod x.d wide _ hd

theorem vec3_writes {s : State} {e : Env} (h : Issuing s e) {i : Instr} {x : VTer} {f : Nat → Nat → Nat → Nat}
    {g : Nat → Nat} (hi : exec i s = vec3 x f s) (hd : VDeclared e x.d (regsOf x.ty))
    (hfg : ∀ l, f (e.src s l (x.ty.bits == 64) x.a) (secondOf22 s e l x.ty x.b) (e.src s l (x.ty.bits == 64) x.c) = g l) :
    VWrites s e i x.h x.mod x.d (x.ty.bits == 64) g := by
  refine ⟨_, hi.trans (onIssue_next h.1 rfl), ?_⟩
  simp only [Env.b22_eq]
  rw [← funext hfg]
  exact Env.putV_typed h x.h x.mod x.d x.ty _ hd

/-! ## Two sources (R130) -/

/-- Each instruction with packed forms computes an integer `v` of two elements, clamped where SAT counts for it. -/
theorem integerPacked_form : ∀ p ∈ integerPacked, ∃ (clamps : Bool → Bool) (v : Int → Int → Int),
    (∀ t sat a b, p.2 t sat a b = resultBits t (clamps sat) (v (valueIn t a) (valueIn t b)))
    ∧ ∀ x s, exec (p.1 x) s = vec2 x (fun a b => intRes (elemOf x.ty).1 (clamps (satOf x.mod))
        (v (intOf (elemOf x.ty).1 a) (intOf (elemOf x.ty).1 b))) s := by
  simp only [integerPacked, List.forall_mem_cons, List.not_mem_nil, false_imp_iff, implies_true, and_true]
  exact ⟨⟨id, (· + ·), fun _ _ _ _ => rfl, fun _ _ => rfl⟩, ⟨id, (· - ·), fun _ _ _ _ => rfl, fun _ _ => rfl⟩,
    ⟨id, (· * ·), fun _ _ _ _ => rfl, fun _ _ => rfl⟩, ⟨fun _ => false, min, fun _ _ _ _ => rfl, fun _ _ => rfl⟩,
    ⟨fun _ => false, max, fun _ _ _ _ => rfl, fun _ _ => rfl⟩⟩

theorem divRes_word {t : Ty} (ht : t.bits = 32 ∨ t.bits = 64) (sat : Bool) (a b : Int) :
    divRes t sat a b = if b = 0 then 2 ^ t.bits - 1 else resultBits t sat (a.tdiv b) := by
  have hones : 2 ^ t.bits - 1 < 2 ^ t.bits := Nat.sub_lt (by positivity) (by decide)
  rw [divRes, intRes_word ht, place_eq_mod ht, Nat.mod_eq_of_lt hones]

theorem shlNat_eq (w a b : Nat) : shlNat w (a % 2 ^ w) b = a * 2 ^ (b % 256) % 2 ^ w := by
  unfold shlNat
  split
  · rw [Nat.mod_mul_mod]
  · rw [Nat.mod_eq_zero_of_dvd (Dvd.dvd.mul_left (Nat.pow_dvd_pow 2 (by omega)) a)]

theorem shrNat_eq (w a b : Nat) : shrNat w (a % 2 ^ w) b = a % 2 ^ w / 2 ^ (b % 256) := by
  unfold shrNat
  split
  · rfl
  · have hpow : 2 ^ w ≤ 2 ^ (b % 256) := Nat.pow_le_pow_right (by decide) (by omega)
    exact (Nat.div_eq_of_lt ((Nat.mod_lt a (by positivity)).trans_le hpow)).symm

theorem sraInt_eq (t : Ty) (a b : Nat) : sraInt t.bits (valueIn t a) b = valueIn t a / 2 ^ (b % 256) := by
  obtain ⟨hlow, hhigh⟩ := valueIn_bounds t a
  rw [sraInt]
  push_cast
  rcases Nat.le_total (b % 256) t.bits with h | h
  · rw [Nat.min_eq_left h]
  · rw [Nat.min_eq_right h, ediv_two_pow_of_ge hlow hhigh h]

/-- The low part of a rotation lies below its high part. -/
theorem rotNat_eq_or {w a n : Nat} (ha : a < 2 ^ w) (hn : n ≤ w) :
    rotNat w a n = a <<< n % 2 ^ w ||| a >>> (w - n) := by
  have hsplit : 2 ^ w = 2 ^ (w - n) * 2 ^ n := by rw [← Nat.pow_add, Nat.sub_add_cancel hn]
  have hlow : a >>> (w - n) < 2 ^ n := by
    rw [Nat.shiftRight_eq_div_pow, Nat.div_lt_iff_lt_mul (by positivity), Nat.mul_comm, ← hsplit]
    exact ha
  have hhigh : a <<< n % 2 ^ w = (a % 2 ^ (w - n)) <<< n := by
    rw [Nat.shiftLeft_eq, Nat.shiftLeft_eq, hsplit, Nat.mul_mod_mul_right]
  have hlt : (a % 2 ^ (w - n)) <<< n + a >>> (w - n) < 2 ^ w := by
    have hm : a % 2 ^ (w - n) + 1 ≤ 2 ^ (w - n) := Nat.mod_lt _ (by positivity)
    rw [Nat.shiftLeft_eq, hsplit]
    calc _ < a % 2 ^ (w - n) * 2 ^ n + 2 ^ n := by omega
      _ = (a % 2 ^ (w - n) + 1) * 2 ^ n := by ring
      _ ≤ 2 ^ (w - n) * 2 ^ n := Nat.mul_le_mul_right _ hm
  rw [hhigh, ← Nat.shiftLeft_add_eq_or_of_lt hlow, rotNat, ← Nat.mod_eq_of_lt hlt, ← hhigh, Nat.mod_add_mod,
    Nat.shiftLeft_eq, Nat.shiftRight_eq_div_pow]

theorem rotNat_left {w : Nat} (hw : 0 < w) (a b : Nat) :
    rotNat w (a % 2 ^ w) (b % w) = ((BitVec.ofNat w a).rotateLeft b).toNat := by
  rw [rotNat_eq_or (Nat.mod_lt _ (by positivity)) (Nat.mod_lt _ hw).le, BitVec.toNat_rotateLeft, BitVec.toNat_ofNat]

theorem rotNat_right {w : Nat} (hw : 0 < w) (a b : Nat) :
    rotNat w (a % 2 ^ w) ((w - b % w) % w) = ((BitVec.ofNat w a).rotateRight b).toNat := by
  have ha : a % 2 ^ w < 2 ^ w := Nat.mod_lt _ (by positivity)
  have hlt := Nat.mod_lt b hw
  rw [rotNat_eq_or ha (Nat.mod_lt _ hw).le, BitVec.toNat_rotateRight, BitVec.toNat_ofNat]
  by_cases h0 : b % w = 0
  · rw [h0, Nat.sub_zero, Nat.mod_self, Nat.or_comm, Nat.sub_zero, Nat.shiftLeft_zero, Nat.mod_mod,
      Nat.shiftRight_eq_div_pow, Nat.div_eq_of_lt ha, Nat.shiftLeft_eq, Nat.mul_mod_left, Nat.shiftRight_zero,
      Nat.or_comm]
  · rw [Nat.mod_eq_of_lt (by omega : w - b % w < w), Nat.or_comm, show w - (w - b % w) = b % w by omega]

/-- Each instruction without packed forms computes its bits, in the types of 32 and 64 bits. -/
theorem integerScalar_form : ∀ p ∈ integerScalar, ∃ f : Ty → Bool → Nat → Nat → Nat,
    (∀ x s, exec (p.1 x) s = vec2 x (f x.ty (satOf x.mod)) s)
    ∧ ∀ {t : Ty}, (t.bits = 32 ∨ t.bits = 64) → ∀ sat a b, f t sat a b = p.2 t sat a b := by
  have hv {t : Ty} (ht : t.bits = 32 ∨ t.bits = 64) (x : Nat) : intOf t x = valueIn t x :=
    intOf_eq_valueIn (by omega) x
  have hpos {t : Ty} (ht : t.bits = 32 ∨ t.bits = 64) : 0 < t.bits := by omega
  simp only [integerScalar, List.forall_mem_cons, List.not_mem_nil, false_imp_iff, implies_true, and_true]
  refine ⟨⟨fun t _ a b => intRes t false (intOf t a * intOf t b / (2 ^ t.bits : Nat)), fun _ _ => rfl,
      fun ht _ a b => ?mulh⟩,
    ⟨fun t sat a b => divRes t sat (intOf t a) (intOf t b), fun _ _ => rfl, fun ht _ a b => ?div⟩,
    ⟨fun t _ a b => intRes t false (remInt (intOf t a) (intOf t b)), fun _ _ => rfl, fun ht _ a b => ?rem⟩,
    ⟨fun t _ a b => low t (a &&& b), fun _ _ => rfl, fun _ _ _ _ => rfl⟩,
    ⟨fun t _ a b => low t (a ||| b), fun _ _ => rfl, fun _ _ _ _ => rfl⟩,
    ⟨fun t _ a b => low t (a ^^^ b), fun _ _ => rfl, fun _ _ _ _ => rfl⟩,
    ⟨fun t _ a b => shlNat t.bits (low t a) b, fun _ _ => rfl, fun _ _ a b => shlNat_eq _ a b⟩,
    ⟨fun t _ a b => shrNat t.bits (low t a) b, fun _ _ => rfl, fun _ _ a b => shrNat_eq _ a b⟩,
    ⟨fun t _ a b => intRes t false (sraInt t.bits (intOf t a) b), fun _ _ => rfl, fun ht _ a b => ?sra⟩,
    ⟨fun t _ a b => rotNat t.bits (low t a) (b % 256 % t.bits), fun _ _ => rfl,
      fun ht _ a b => rotNat_left (hpos ht) a (b % 256)⟩,
    ⟨fun t _ a b => rotNat t.bits (low t a) ((t.bits - b % 256 % t.bits) % t.bits), fun _ _ => rfl,
      fun ht _ a b => rotNat_right (hpos ht) a (b % 256)⟩⟩
  case mulh => simp only [intRes_word ht, hv ht, Nat.cast_pow, Nat.cast_ofNat]
  case div => simp only [divRes_word ht, hv ht]
  case rem => simp only [intRes_word ht, hv ht, remInt]
  case sra => simp only [intRes_word ht, hv ht, sraInt_eq]

theorem integerScalars_hold : integerScalarsHolds := by
  intro s e h p x ht hp hd
  have hone := scalarInt_elemOf ht
  rw [← satOf_eq_saturates]
  obtain hp | ⟨hp, hbits⟩ := hp
  · obtain ⟨clamps, v, hg, hrun⟩ := integerPacked_form p hp
    refine vec2_writes h (g := fun a b => inRegister x.ty (p.2 x.ty (satOf x.mod) a b)) (hrun x s) hd fun a b => ?_
    have hval := intOf_eq_valueIn (scalarInt_bits ht)
    simp only [eachSub, hone, if_true, List.getD_cons_zero, List.getD_cons_succ, hval, hg, intRes_eq_inRegister ht]
  · obtain ⟨f, hrun, hf⟩ := integerScalar_form p hp
    refine vec2_writes h (g := fun a b => inRegister x.ty (p.2 x.ty (satOf x.mod) a b)) (hrun x s) hd fun a b => ?_
    simp only [eachSub, hone, if_true, List.getD_cons_zero, List.getD_cons_succ, hf hbits, inRegister_word hbits]

/-! ## Packed integers (R62, R129) -/

theorem joinSubs_four (a b c d : Nat) : joinSubs 8 [a, b, c, d] =
    a % 256 + 2 ^ 8 * (b % 256) + 2 ^ 16 * (c % 256) + 2 ^ 24 * (d % 256) := by
  simp only [joinSubs, Nat.reducePow]
  omega

/-- A narrow result keeps its bits below its sign extension. -/
theorem intRes_byte {t : Ty} (ht : t = .i8 ∨ t = .n8) (sat : Bool) (v : Int) :
    intRes t sat v % 256 = resultBits t sat v := by
  have hlt := resultBits_lt t sat v
  have hplace : ∀ x, x < 2 ^ t.bits → place t x % 256 = x := by
    intro x hx
    obtain rfl | rfl := ht
    · have hx8 : x < 256 := hx
      show ofSigned 32 (toSigned 8 (x % 256)) % 256 = x
      unfold ofSigned toSigned
      split <;> omega
    · have hx8 : x < 256 := hx
      show x % 2 ^ 8 % 256 = x
      omega
  rw [intRes, ← resultBits_eq, hplace _ hlt]

theorem eachSub_packed {t u : Ty} (ht : (t, u) ∈ [(Ty.i8x4, Ty.i8), (.n8x4, .n8)]) (f : Nat → List Nat → Nat)
    (xs : List Nat) : eachSub t f xs = joinSubs 8 [f 0 (xs.map (· / 2 ^ (8 * 0) % 256)), f 1 (xs.map (· / 2 ^ (8 * 1) % 256)),
      f 2 (xs.map (· / 2 ^ (8 * 2) % 256)), f 3 (xs.map (· / 2 ^ (8 * 3) % 256))] := by
  simp only [List.mem_cons, Prod.mk.injEq, List.not_mem_nil, or_false] at ht
  obtain ⟨rfl, rfl⟩ | ⟨rfl, rfl⟩ := ht <;>
    simp [eachSub, elemOf, Ty.bits, bitsOf, List.range_succ, Nat.shiftRight_eq_div_pow]

theorem integerPacked_holds : integerPackedHolds := by
  intro s e h p hp x t ht hx hd
  obtain ⟨clamps, v, hg, hrun⟩ := integerPacked_form p hp
  have hty : x.ty.bits = 32 ∧ (elemOf x.ty).1 = t.2 ∧ (t.2 = .i8 ∨ t.2 = .n8) := by
    rw [hx]
    simp only [List.mem_cons, List.not_mem_nil, or_false] at ht
    obtain rfl | rfl := ht <;> decide
  obtain ⟨hbits, helem, hbyte⟩ := hty
  have hwide : (x.ty.bits == 64) = false := by rw [hbits]; rfl
  have hregs : regsOf x.ty = 1 := by rw [regsOf, hbits]; rfl
  have hval (y : Nat) : intOf t.2 y = valueIn t.2 y := by
    obtain h8 | h8 := hbyte <;> rw [h8] <;> exact intOf_eq_valueIn (by decide) y
  let r (a b i : Nat) : Nat := p.2 t.2 (saturates x.mod) (a / 2 ^ (8 * i) % 256) (b / 2 ^ (8 * i) % 256)
  have hrun' := vec2_writes h (g := fun a b => r a b 0 + 2 ^ 8 * r a b 1 + 2 ^ 16 * r a b 2 + 2 ^ 24 * r a b 3)
    (hrun x s) (hregs ▸ hd) fun a b => by
      have hmem : (x.ty, t.2) ∈ [(Ty.i8x4, Ty.i8), (.n8x4, .n8)] := by rw [hx]; exact ht
      simp only [eachSub_packed hmem, joinSubs_four, helem, List.map_cons, List.map_nil, List.getD_cons_zero,
        List.getD_cons_succ, intRes_byte hbyte, hval, r, hg, satOf_eq_saturates]
  rw [hwide] at hrun'
  exact hrun'

/-- Settles O10: each form computes its elements, and `Env.putV` writes them. That a b64 immediate is sign-extended is
the model's choice (notes/assumptions/20 on R128). -/
theorem integerBinary : Obligations.IntegerBinary := ⟨integerScalars_hold, integerPacked_holds⟩

end Sys2Proof.Machine
end

section
/-! Vector integer instructions of one source and comparisons (spec/05 R130, R133). -/

namespace Sys2Proof.Machine

/-- Bits put together, bit 0 lowest. -/
theorem joinSubs_testBit (f : Nat → Nat) (w i : Nat) :
    (joinSubs 1 ((List.range w).map f)).testBit i = (decide (i < w) && (f i).testBit 0) := by
  induction w generalizing f i with
  | zero => simp [joinSubs]
  | succ w ih =>
    have hlt : f 0 % 2 ^ 1 < 2 ^ 1 := Nat.mod_lt _ (by decide)
    rw [List.range_succ_eq_map, List.map_cons, List.map_map, joinSubs, Nat.add_comm,
      Nat.testBit_two_pow_mul_add _ hlt, ih]
    obtain _ | j := i
    · simp
    · simp

theorem bitsOf_one_testBit (x i : Nat) : (bitsOf x i 1).testBit 0 = x.testBit i := by
  simp [bitsOf]

theorem brevNat_testBit (w x i : Nat) :
    (brevNat w x).testBit i = (decide (i < w) && x.testBit (w - 1 - i)) := by
  rw [brevNat, joinSubs_testBit, bitsOf_one_testBit]

/-- Bits of a type's width are those of the source. -/
theorem testBit_low {t : Ty} {i : Nat} (hi : i < t.bits) (x : Nat) : (low t x).testBit i = x.testBit i := by
  simp [low, Nat.testBit_mod_two_pow, hi]

/-- What clz counts of a source, bit by bit. -/
theorem clzNat_low_spec (t : Ty) (x : Nat) : clzNat t.bits (low t x) ≤ t.bits
    ∧ (∀ i, i < clzNat t.bits (low t x) → x.testBit (t.bits - 1 - i) = false)
    ∧ (clzNat t.bits (low t x) < t.bits → x.testBit (t.bits - 1 - clzNat t.bits (low t x)) = true) := by
  obtain ⟨hle, hzero, hone⟩ := clzNat_spec (Nat.mod_lt x (by positivity : 0 < 2 ^ t.bits))
  refine ⟨hle, fun i (hi : i < clzNat _ (x % _)) => ?_, fun hlt => ?_⟩
  · rw [← testBit_low (t := t) (by omega)]
    exact hzero i hi
  · rw [← testBit_low (t := t) (by omega)]
    exact hone hlt

theorem integerUnary_holds : integerUnaryHolds := by
  intro s e h x
  refine ⟨fun ht hd => ?_, fun ht => ?_⟩
  · have hs : scalarInt x.ty := List.mem_append_left [Ty.n8, .n16, .n32, .n64, .b32, .b64] ht
    have hone := scalarInt_elemOf hs
    refine vec1_writes h (f := fun a => intRes (elemOf x.ty).1 (satOf x.mod) (intOf (elemOf x.ty).1 a).natAbs)
      (wide := x.ty.wide) rfl (regsOf_eq x.ty ▸ hd) (by rw [hone]) fun l => ?_
    simp only [hone]
    rw [intRes_eq_inRegister hs, intOf_eq_valueIn (scalarInt_bits hs), satOf_eq_saturates]
  · have hone : (elemOf x.ty).2 = 1 := by obtain ht | ht := ht <;> rw [ht] <;> rfl
    refine ⟨fun hd => ⟨vec1_writes h (f := popcNat x.ty.bits) rfl hd hone fun _ => rfl,
      ⟨_, vec1_writes h (f := fun a => clzNat x.ty.bits (low x.ty a)) rfl hd hone fun _ => rfl,
        fun l => clzNat_low_spec x.ty _⟩,
      ⟨_, vec1_writes h (f := ctzNat x.ty.bits) rfl hd hone fun _ => rfl, fun l => ctzNat_spec _ _⟩⟩,
      fun hd => ⟨_, vec1_writes h (f := brevNat x.ty.bits) (wide := x.ty.wide) rfl (regsOf_eq x.ty ▸ hd) hone
        fun _ => rfl, fun l i _ => brevNat_testBit _ _ i⟩⟩

theorem comparisons_hold : comparisonsHolds := by
  intro s e h o x ht
  refine ⟨_, (onIssue_next h.1 rfl : execCmp o x s = _), ?_⟩
  simp only [cmpInt_eq_holds, intOf_eq_valueIn (scalarInt_bits ht), Env.b32_eq]
  exact Env.putK_result h x.h x.mod x.d _

/-- Settles O11: abs by its integer, the counts and brev bit by bit, and cmp by its comparison of integers. -/
theorem integerUnary : Obligations.IntegerUnary := ⟨integerUnary_holds, comparisons_hold⟩

end Sys2Proof.Machine
end

section
/-! Vector integer instructions of three sources: mad, lop3, sel, the carry chains, bit fields and dot products (spec/05
R130 to R134). -/

namespace Sys2Proof.Machine

theorem bitsOf_one (x i : Nat) : bitsOf x i 1 = (x.testBit i).toNat := by
  rw [Nat.toNat_testBit, bitsOf, Nat.shiftRight_eq_div_pow, Nat.pow_one]

theorem wordType_bits {t : Ty} (ht : t ∈ [Ty.i32, .i64, .n32, .n64]) : t.bits = 32 ∨ t.bits = 64 := by
  simp only [List.mem_cons, List.not_mem_nil, or_false] at ht
  obtain rfl | rfl | rfl | rfl := ht <;> decide

/-! ## mad, lop3 and sel (R130) -/

theorem mad_writes {s : State} {e : Env} (h : Issuing s e) {x : VTer} (ht : x.ty ∈ [Ty.i32, .i64, .n32, .n64])
    (hd : VDeclared e x.d (regsOf x.ty)) :
    VWrites s e (.mad x) x.h x.mod x.d (x.ty.bits == 64) fun l =>
      resultBits x.ty (saturates x.mod) (valueIn x.ty (e.src s l (x.ty.bits == 64) x.a)
        * valueIn x.ty (secondOf22 s e l x.ty x.b) + valueIn x.ty (e.src s l (x.ty.bits == 64) x.c)) := by
  have hbits := wordType_bits ht
  have hval := intOf_eq_valueIn (by omega : 1 ≤ x.ty.bits)
  refine vec3_writes h (f := fun a b c => intRes x.ty (satOf x.mod) (intOf x.ty a * intOf x.ty b + intOf x.ty c))
    rfl hd fun l => ?_
  rw [intRes_word hbits, hval, hval, hval, satOf_eq_saturates]

theorem lop3Nat_testBit {w i : Nat} (hi : i < w) (lut : BitVec 8) (a b c : Nat) :
    (lop3Nat w lut a b c).testBit i =
      lut.getLsbD (4 * (a.testBit i).toNat + 2 * (b.testBit i).toNat + (c.testBit i).toNat) := by
  rw [lop3Nat, joinSubs_testBit, bitsOf_one, bitsOf_one, bitsOf_one, decide_eq_true hi, Bool.true_and]
  cases lut.getLsbD _ <;> rfl

theorem bne_zero_eq (n : Nat) : (n != 0) = decide (n ≠ 0) := by
  rw [Bool.eq_iff_iff, bne_iff_ne, decide_eq_true_iff]

theorem sel_writes {s : State} {e : Env} (h : Issuing s e) {x : VTer} (hd : VDeclared e x.d (regsOf x.ty)) :
    VWrites s e (.sel x) x.h x.mod x.d (x.ty.bits == 64) fun l =>
      if (match x.c with
        | .k n => (e.kreg s n.val).getLsbD l
        | o => decide (e.src s l false o ≠ 0)) then e.src s l (x.ty.bits == 64) x.a else secondOf22 s e l x.ty x.b := by
  refine ⟨_, (onIssue_next h.1 rfl : execSel x s = _), ?_⟩
  simp only [Env.b22_eq, bne_zero_eq]
  exact Env.putV_typed h x.h x.mod x.d x.ty _ hd

/-! ## Carry chains (R131) -/

theorem Wave.each_shape {w : Wave} {hdr : Header} (hs : w.shapeOk hdr = true) (m : BitVec 64) (f : Nat → Thread → Thread)
    (hf : ∀ l th, (f l th).v.length = th.v.length ∧ (f l th).loops = th.loops ∧ (f l th).lends = th.lends) :
    (w.each m f).shapeOk hdr = true := by
  simp only [Wave.shapeOk, Bool.and_eq_true, List.all_eq_true] at hs ⊢
  obtain ⟨⟨⟨⟨⟨⟨hwidth, hsize⟩, hlen⟩, hk⟩, hsp⟩, hiters⟩, hth⟩ := hs
  refine ⟨⟨⟨⟨⟨⟨hwidth, hsize⟩, by rw [Wave.each_length]; exact hlen⟩, hk⟩, hsp⟩, hiters⟩, fun u hu => ?_⟩
  obtain ⟨i, hi, rfl⟩ := List.mem_mapIdx.mp hu
  have hold := hth _ (List.getElem_mem hi)
  split
  · obtain ⟨hv, hloops, hlends⟩ := hf i w.threads[i]
    rw [hv, hloops, hlends]
    exact hold
  · exact hold

theorem Wave.putV_shape {w : Wave} {hdr : Header} (hs : w.shapeOk hdr = true) (x z : BitVec 64) (d : Opd) (wide : Bool)
    (val : Nat → Nat) : (w.putV x z d wide val).shapeOk hdr = true := by
  cases d with
  | v n =>
    refine Wave.each_shape hs _ _ fun l th => ⟨?_, rfl, rfl⟩
    cases wide <;> simp [Thread.setV]
  | _ => exact hs

theorem Wave.putV_rest (w : Wave) (x z : BitVec 64) (d : Opd) (wide : Bool) (val : Nat → Nat) :
    { w.putV x z d wide val with threads := w.threads } = w := by
  cases d <;> rfl

/-- An issue goes on with its wave replaced. -/
theorem Issuing.setWave {s : State} {e : Env} (h : Issuing s e) {w : Wave} (hw : { w with threads := e.w.threads } = e.w)
    (hs : w.shapeOk e.k.hdr = true) : Issuing (s.setWave w) { e with w := w } := by
  obtain ⟨he, -, hk, hl⟩ := h
  obtain ⟨hiss, hwave, hcrew, htask, hid⟩ := State.env?_eq he
  have hwid : w.id = e.w.id := by rw [← hw]
  have hwcrew : w.crew = e.w.crew := by rw [← hw]
  have hwidth : w.width = e.w.width := by rw [← hw]
  have hset : (s.setWave w).wave? e.p.wave = some w := by
    rw [hid, ← hwid]
    exact State.wave?_setWave (by rw [hwid]; exact hwave)
  refine ⟨?_, hs, hk, ?_⟩
  · have hiss' : (s.setWave w).iss = some e.p := hiss
    have hcrew' : (s.setWave w).crew? w.crew = some e.k := by rw [hwcrew]; exact hcrew
    have htask' : (s.setWave w).task? e.k.task = some e.t := htask
    simp only [State.env?, hiss', hset, hcrew', htask']
  · rw [show w.all = e.w.all by simp only [Wave.all, hwidth]]
    exact hl

/-- A result in v registers and the bits of a mask register: both as they were written, one after the other. -/
theorem carry_result {s : State} {e : Env} (h : Issuing s e) {i : Instr} {x z : BitVec 64} {d : Opd} {t : Ty}
    {kout : Fin 16} {val : Nat → Nat} {bits : Nat → Bool} (hd : VDeclared e d (regsOf t))
    (hi : exec i s = .next (s.setWave ((e.w.putV x z d t.wide val).setK kout.val x z (maskOf bits)))) :
    ∃ u v, exec i s = .next u ∧ VResult s v e x z d (t.bits == 64) val
      ∧ ∃ w, v.wave? e.w.id = some w ∧ KResult v u { e with w := w } x z (.k kout) bits := by
  let w := e.w.putV x z d t.wide val
  have hw : { w with threads := e.w.threads } = e.w := Wave.putV_rest ..
  have hid : w.id = e.w.id := Wave.putV_id ..
  have hnext := h.setWave hw (Wave.putV_shape h.2.1 x z d t.wide val)
  have htwice : (s.setWave w).setWave (w.putK x z (.k kout) (maskOf bits)) = s.setWave (w.setK kout.val x z (maskOf bits)) := by
    refine State.setWave_setWave s w _ ?_
    simp only [Wave.putK, Wave.setK]
    split <;> rfl
  refine ⟨_, s.setWave w, hi, putV_result h x z d t.wide val (regsOf_eq t ▸ hd), w, ?_, ?_⟩
  · rw [← hid]
    exact State.wave?_setWave (by rw [hid]; exact (State.env?_eq h.1).2.1)
  · rw [← htwice]
    exact putK_result hnext x z (.k kout) bits

theorem testBit_of_lt_double {x n : Nat} (hx : x < 2 * 2 ^ n) : x.testBit n = decide (2 ^ n ≤ x) := by
  rw [Nat.testBit_eq_decide_div_mod_eq]
  by_cases h : 2 ^ n ≤ x
  · have hdiv : x / 2 ^ n = 1 := Nat.div_eq_of_lt_le (by omega) (by omega)
    simp [hdiv, h]
  · simp [Nat.div_eq_of_lt (Nat.lt_of_not_le h), h]

theorem ofSigned_sub (w a b : Nat) : ofSigned w ((a : Int) - b) = (a + 2 ^ w - b % 2 ^ w) % 2 ^ w := by
  have hle : b % 2 ^ w ≤ a + 2 ^ w := (Nat.mod_lt b (by positivity)).le.trans (Nat.le_add_left _ _)
  have hsplit : ((a + 2 ^ w - b % 2 ^ w : Nat) : Int) = (a - b : Int) + 2 ^ w * (1 + b / 2 ^ w) := by
    have hdiv := Int.emod_add_mul_ediv b (2 ^ w)
    rw [Nat.cast_sub hle]
    push_cast
    linarith
  apply Int.ofNat_inj.mp
  rw [ofSigned_cast, Int.natCast_mod, hsplit]
  push_cast
  rw [Int.add_mul_emod_self_left]

theorem Env.cin_eq (e : Env) (s : State) (l : Nat) (c : Opd) : e.cin s l c = match c with
    | .k n => ((e.kreg s n.val).getLsbD l).toNat
    | _ => 0 := by
  cases c with
  | k n => simp only [Env.cin, Bool.toNat, Bool.cond_eq_ite]
  | _ => rfl

theorem Env.cin_le (e : Env) (s : State) (l : Nat) (c : Opd) : e.cin s l c ≤ 1 := by
  cases c with
  | k n => simp only [Env.cin]; split <;> omega
  | _ => exact Nat.zero_le 1

theorem addc_exec {s : State} {e : Env} (h : Issuing s e) (x : VCarry) :
    let sum (l : Nat) : Nat := e.src s l (x.ty.bits == 64) x.a % 2 ^ x.ty.bits
      + e.src s l (x.ty.bits == 64) x.b % 2 ^ x.ty.bits + e.cin s l x.c
    exec (.addc x) s = .next (s.setWave ((e.w.putV (e.exec x.h x.mod) (e.zeroed x.h x.mod) x.d x.ty.wide
      fun l => sum l % 2 ^ x.ty.bits).setK x.kout.val (e.exec x.h x.mod) (e.zeroed x.h x.mod)
        (maskOf fun l => decide (2 ^ x.ty.bits ≤ sum l)))) := by
  intro sum
  have hcarry : (fun l => decide (2 ^ x.ty.bits ≤ sum l)) = fun l => (sum l).testBit x.ty.bits := by
    funext l
    have ha := Nat.mod_lt (e.src s l (x.ty.bits == 64) x.a) (by positivity : 0 < 2 ^ x.ty.bits)
    have hb := Nat.mod_lt (e.src s l (x.ty.bits == 64) x.b) (by positivity : 0 < 2 ^ x.ty.bits)
    have hc := e.cin_le s l x.c
    exact (testBit_of_lt_double (by simp only [sum]; omega)).symm
  rw [hcarry]
  exact (onIssue_next h.1 rfl : execAddc x s = _)

theorem subb_exec {s : State} {e : Env} (h : Issuing s e) (x : VCarry) :
    let a (l : Nat) : Nat := e.src s l (x.ty.bits == 64) x.a % 2 ^ x.ty.bits
    let b (l : Nat) : Nat := e.src s l (x.ty.bits == 64) x.b % 2 ^ x.ty.bits + e.cin s l x.c
    exec (.subb x) s = .next (s.setWave ((e.w.putV (e.exec x.h x.mod) (e.zeroed x.h x.mod) x.d x.ty.wide
      fun l => (a l + 2 ^ x.ty.bits - b l % 2 ^ x.ty.bits) % 2 ^ x.ty.bits).setK x.kout.val (e.exec x.h x.mod)
        (e.zeroed x.h x.mod) (maskOf fun l => decide (a l < b l)))) := by
  intro a b
  simp only [← ofSigned_sub]
  exact (onIssue_next h.1 rfl : execSubb x s = _)

/-- Settles O12: mad, lop3 and sel by their value in a lane, addc and subb by their two writes. That a b64 immediate is
sign-extended is the model's choice (notes/assumptions/20 on R128). -/
theorem integerTernary : Obligations.IntegerTernary := by
  intro s e h wide words
  refine ⟨fun x ht hd => mad_writes h ht hd, fun lut x ht hd => ?_, fun x _ hd => sel_writes h hd,
    fun x _ hd => ?_⟩
  · exact ⟨_, _, (onIssue_next h.1 rfl : execLop3 lut x s = _), Env.putV_typed h x.h x.mod x.d x.ty _ hd,
      fun l i hi => lop3Nat_testBit hi lut _ _ _⟩
  · intro a b cin
    have hcin : cin = fun l => e.cin s l x.c := by
      funext l
      exact (e.cin_eq s l x.c).symm
    rw [hcin]
    simp only [List.forall_mem_cons, List.not_mem_nil, false_imp_iff, implies_true, and_true]
    exact ⟨carry_result h hd (addc_exec h x), carry_result h hd (subb_exec h x)⟩

/-! ## Bit fields (R132) -/

theorem testBit_bitsOf (x lo n i : Nat) : (bitsOf x lo n).testBit i = (decide (i < n) && x.testBit (lo + i)) := by
  rw [bitsOf, Nat.testBit_mod_two_pow, Nat.testBit_shiftRight]

/-- A field of n bits, at least one, sign-extended: its last bit fills what lies above. -/
theorem testBit_signedField {w n i : Nat} (hn : 1 ≤ n) (hi : i < w) (x lo : Nat) :
    (ofSigned w (toSigned n (bitsOf x lo n))).testBit i = if i < n then x.testBit (lo + i) else x.testBit (lo + n - 1) := by
  have hmod : bitsOf x lo n = bitsOf x lo n % 2 ^ n := by rw [bitsOf, Nat.mod_mod]
  rw [hmod, ofSigned_toSigned hn, BitVec.testBit_toNat, BitVec.getLsbD_signExtend, decide_eq_true hi, Bool.true_and]
  split
  · next hlt => rw [BitVec.getLsbD_ofNat, testBit_bitsOf, decide_eq_true hlt, Bool.true_and, Bool.true_and]
  · rw [BitVec.msb_eq_getLsbD_last, BitVec.getLsbD_ofNat, testBit_bitsOf, decide_eq_true (by omega : n - 1 < n),
      Bool.true_and, Bool.true_and, show lo + (n - 1) = lo + n - 1 by omega]

theorem bfeNat_testBit {t : Ty} {i : Nat} (hi : i < t.bits) (a b : Nat) :
    (bfeNat t a b).testBit i =
      if i < min (b / 256 % 256) t.bits then decide (b % 256 + i < t.bits) && a.testBit (b % 256 + i)
      else t.signed && decide (0 < min (b / 256 % 256) t.bits) && decide (b % 256 + min (b / 256 % 256) t.bits ≤ t.bits)
        && a.testBit (b % 256 + min (b / 256 % 256) t.bits - 1) := by
  unfold bfeNat
  generalize min (b / 256 % 256) t.bits = n
  generalize b % 256 = o
  have hlow (j : Nat) : (low t a).testBit j = (decide (j < t.bits) && a.testBit j) := Nat.testBit_mod_two_pow ..
  dsimp only
  by_cases h0 : n = 0
  · simp [h0]
  · rw [if_neg h0, decide_eq_true (Nat.pos_of_ne_zero h0), Bool.and_true]
    cases t.signed with
    | true =>
      have hlast : decide (o + n - 1 < t.bits) = decide (o + n ≤ t.bits) := by
        rw [decide_eq_decide]
        omega
      rw [if_pos rfl, testBit_signedField (by omega) hi, hlow, hlow, hlast, Bool.true_and]
    | false =>
      rw [if_neg Bool.false_ne_true, testBit_bitsOf, hlow, Bool.false_and, Bool.false_and]
      by_cases hin : i < n <;> simp [hin]

theorem bfiNat_testBit {t : Ty} {i : Nat} (hi : i < t.bits) (a b c : Nat) :
    (bfiNat t a b c).testBit i =
      if b % 256 ≤ i ∧ i < b % 256 + min (b / 256 % 256) t.bits then a.testBit (i - b % 256) else c.testBit i := by
  unfold bfiNat
  generalize min (b / 256 % 256) t.bits = n
  generalize b % 256 = o
  dsimp only
  by_cases hout : n = 0 ∨ t.bits ≤ o
  · rw [if_pos (by simpa using hout), testBit_low hi, if_neg (by omega)]
  · rw [if_neg (by simpa using hout), testBit_low hi, testBit_replaceBits, testBit_low hi]

theorem bitFields_hold : bitFieldsHolds := by
  intro s e h
  refine ⟨fun x ht hd => ?_, fun x ht hd => ?_⟩
  · have hone : (elemOf x.ty).2 = 1 := by
      simp only [List.mem_cons, List.not_mem_nil, or_false] at ht
      obtain ht | ht | ht | ht := ht <;> rw [ht] <;> rfl
    obtain ⟨t, hrun, hres⟩ := vec2_writes h (f := bfeNat x.ty) (g := bfeNat x.ty) (i := .bfe x) rfl hd fun a b => by
      simp only [eachSub, hone, if_true, List.getD_cons_zero, List.getD_cons_succ]
    exact ⟨t, _, hrun, hres, fun l i hi => bfeNat_testBit hi _ _⟩
  · obtain ⟨t, hrun, hres⟩ := vec3_writes h (f := bfiNat x.ty) (i := .bfi x) rfl hd fun _ => rfl
    exact ⟨t, _, hrun, hres, fun l i hi => bfiNat_testBit hi _ _ _⟩

/-! ## dot4 (R134) -/

theorem intOf_bitsOf_byte {t : Ty} (ht : t = .i8 ∨ t = .n8) (x lo : Nat) :
    intOf t (bitsOf x lo 8) = valueIn t (x / 2 ^ lo) := by
  rw [bitsOf, Nat.shiftRight_eq_div_pow]
  obtain rfl | rfl := ht <;> exact intOf_low (by decide) _

theorem intRes_i32 (sat : Bool) (v : Int) :
    intRes .i32 sat v = (BitVec.ofInt 32 (if sat then max (-(2 ^ 31)) (min (2 ^ 31 - 1) v) else v)).toNat :=
  intRes_word (.inl rfl) sat v

theorem dot4Nat_eq (t : Ty) (mix sat : Bool) (a b c : Nat) (ta tb : Ty) (ha : ta = .i8 ∨ ta = .n8) (hb : tb = .i8 ∨ tb = .n8)
    (hta : (elemOf t).1 = ta) (htb : (if mix then (if ta == .i8 then Ty.n8 else .i8) else ta) = tb) :
    let prod (i : Nat) : Int := valueIn ta (a / 2 ^ (8 * i)) * valueIn tb (b / 2 ^ (8 * i))
    dot4Nat t mix sat a b c =
      intRes .i32 sat ((BitVec.ofNat 32 c).toInt + prod 0 + prod 1 + prod 2 + prod 3) := by
  intro prod
  have hc : intOf .i32 c = (BitVec.ofNat 32 c).toInt := intOf_eq_valueIn (by decide) c
  unfold dot4Nat
  simp only [hta, htb, intOf_bitsOf_byte ha, intOf_bitsOf_byte hb, hc]
  rfl

theorem dotProduct_holds : dotProductHolds := by
  intro s e h mix x p hp hx hd
  have hbits : x.ty.bits = 32 := by
    rw [hx]
    simp only [List.mem_cons, List.not_mem_nil, or_false] at hp
    obtain rfl | rfl := hp <;> rfl
  have hwide : (x.ty.bits == 64) = false := by rw [hbits]; rfl
  have hregs : regsOf x.ty = 1 := by rw [regsOf, hbits]; rfl
  have htypes : (p.2.1 = .i8 ∨ p.2.1 = .n8) ∧ (p.2.2 = .i8 ∨ p.2.2 = .n8) ∧ (elemOf x.ty).1 = p.2.1
      ∧ (if p.2.1 == .i8 then Ty.n8 else .i8) = p.2.2 := by
    rw [hx]
    simp only [List.mem_cons, List.not_mem_nil, or_false] at hp
    obtain rfl | rfl := hp <;> decide
  obtain ⟨ha, hb, helem, hother⟩ := htypes
  have htb : (if mix then p.2.2 else p.2.1) = .i8 ∨ (if mix then p.2.2 else p.2.1) = .n8 := by
    cases mix with
    | true => exact hb
    | false => exact ha
  have hrun := vec3_writes h (i := .dot4 mix x) (f := dot4Nat x.ty mix (satOf x.mod)) rfl (hregs ▸ hd) fun l =>
    (dot4Nat_eq x.ty mix (satOf x.mod) _ _ _ p.2.1 _ ha htb helem (by rw [hother])).trans (intRes_i32 _ _)
  rw [hwide, satOf_eq_saturates] at hrun
  exact hrun

/-- Settles O13: bfe and bfi bit by bit, dot4 by its exact sum. -/
theorem bitFieldsAndDots : Obligations.BitFieldsAndDots := ⟨bitFields_hold, dotProduct_holds⟩

end Sys2Proof.Machine
end

section
/-! Floating instructions of fixed latency (spec/05 R135 to R142), and small formats decoded and rounded again (spec/03
R78, R80). -/

namespace Sys2Proof.Machine

/-! ## Results and flags (R135 to R142) -/

/-- A floating result of fixed latency, by its type (R87, R91). -/
theorem putF_typed {s : State} {e : Env} (h : Issuing s e) (hd : Head) (m : Option Modifier) (d : Opd) (t : Ty)
    (rounds : Bool) (val : Nat → Res) (hv : VDeclared e d (regsOf t)) :
    FResult s (e.putF s hd m d t.wide rounds val) e (e.exec hd m) (e.zeroed hd m) d (t.bits == 64)
      (rounds && draws e m) val :=
  putF_result h hd m d t.wide rounds val (regsOf_eq t ▸ hv)

/-- Settles O14: each instruction gives its results to `Env.putF`, which writes them, raises their flags and takes their
draws. That a conversion of a type to itself takes no draw is the model's choice (notes/assumptions/20 on R141). -/
theorem floatResults : Obligations.FloatResults := by
  intro s e h out
  have he := h.1
  refine ⟨fun x => ⟨fun hd => ⟨_, (onIssue_next he rfl : float2 x (addOf false) s = _), putF_typed h _ _ _ _ _ _ hd⟩,
      fun hd => ⟨_, (onIssue_next he rfl : float2 x (addOf true) s = _), putF_typed h _ _ _ _ _ _ hd⟩,
      fun hd => ⟨_, (onIssue_next he rfl : float2 x mulOf s = _), putF_typed h _ _ _ _ _ _ hd⟩, fun nan => ?minmax,
      fun hd => ⟨_, (onIssue_next he rfl : execFscl x s = _), putF_typed h _ _ _ _ _ _ hd⟩⟩,
    fun neg sub x hd => ⟨_, (onIssue_next he rfl : execFma neg sub x s = _), putF_typed h _ _ _ _ _ _ hd⟩,
    fun x hd => ⟨_, (onIssue_next he rfl : execFrnd x s = _), putF_typed h _ _ _ _ _ _ hd⟩,
    fun x hd => ⟨_, (onIssue_next he rfl : execCvt x s = _), putF_typed h _ _ _ _ _ _ hd⟩,
    fun mix x hd => ⟨_, (onIssue_next he rfl : execFdot mix x s = _), ?dot⟩⟩
  case minmax =>
    simp only [List.forall_mem_cons, List.not_mem_nil, false_imp_iff, implies_true, and_true]
    exact ⟨fun hd => ⟨_, (onIssue_next he rfl : floatMinMax false nan x s = _), putF_typed h _ _ _ _ _ _ hd⟩,
      fun hd => ⟨_, (onIssue_next he rfl : floatMinMax true nan x s = _), putF_typed h _ _ _ _ _ _ hd⟩⟩
  case dot =>
    simp only [beq_iff_eq]
    exact putF_typed h _ _ _ .f32 _ _ hd

/-! ## fcmp and fclass (R138, R139) -/

theorem Wave.putK_rest (w : Wave) (x z : BitVec 64) (d : Opd) (bits : BitVec 64) :
    { w.putK x z d bits with k := w.k } = w := by
  cases d with
  | k n => simp only [Wave.putK, Wave.setK]; split <;> rfl
  | _ => rfl

/-- A comparison's bits and its flags: the flags apart, it is a result in a mask register. -/
theorem putFK_result {s : State} {e : Env} (h : Issuing s e) (hd : Head) (m : Option Modifier) (d : Opd)
    (val : Nat → Bool × Dword) : ∃ w, (e.putFK s hd m d val).wave? e.w.id = some w
      ∧ (∀ b, w.fflags.getLsbD b = (e.w.fflags.getLsbD b || (List.range 64).any fun l =>
        (e.exec hd m).getLsbD l && !(e.w.th l).helper && (val l).2.getLsbD b))
      ∧ KResult s ((e.putFK s hd m d val).setWave { w with fflags := e.w.fflags }) e (e.exec hd m) (e.zeroed hd m) d
        fun l => (val l).1 := by
  let w := e.w.putK (e.exec hd m) (e.zeroed hd m) d (maskOf fun l => (val l).1)
  have hw : { w with k := e.w.k } = e.w := Wave.putK_rest ..
  have hid : w.id = e.w.id := by rw [← hw]
  have hflags : w.fflags = e.w.fflags := by rw [← hw]
  have hth (l : Nat) : w.th l = e.w.th l := by rw [← hw]; rfl
  let u := w.orFlags (e.exec hd m) fun l => (val l).2
  have hget : (s.setWave u).wave? e.w.id = some u := by
    rw [← show u.id = e.w.id from hid]
    exact State.wave?_setWave (w := u) (by rw [show u.id = e.w.id from hid]; exact (State.env?_eq h.1).2.1)
  refine ⟨u, hget, fun b => ?_, ?_⟩
  · rw [orFlags_eq, hflags]
    simp only [hth]
  · have hback : { u with fflags := e.w.fflags } = w := by rw [← hflags]; rfl
    rw [hback]
    show KResult s ((s.setWave u).setWave w) e _ _ d _
    rw [State.setWave_setWave s u w rfl]
    exact putK_result h _ _ d _

theorem floatTests_hold : floatTestsHolds := by
  intro s e h
  refine ⟨fun mask x => ⟨_, (onIssue_next h.1 rfl : execFclass mask x s = _), Env.putK_result h ..⟩, fun o x => ?_⟩
  intro r
  obtain ⟨w, hw, hflags, hbits⟩ := putFK_result h x.h x.mod x.d r
  exact ⟨_, w, (onIssue_next h.1 rfl : execFcmp o x s = _), hw, hflags, hbits⟩

/-! ## Powers of two and the binary logarithm -/

theorem pow2_eq_zpow (n : Int) : pow2 n = (2 : Rat) ^ n := by
  unfold pow2
  split
  · next h =>
    obtain ⟨k, rfl⟩ := Int.eq_ofNat_of_zero_le h
    simp
  · next h =>
    obtain ⟨k, rfl⟩ : ∃ k : Nat, n = -k := ⟨(-n).toNat, by omega⟩
    rw [Rat.mkRat_eq_div, neg_neg, Int.toNat_natCast, zpow_neg, zpow_natCast]
    simp

theorem zpow_log2_le {n : Nat} (hn : n ≠ 0) : (2 : Rat) ^ (n.log2 : Int) ≤ n := by
  rw [zpow_natCast]
  exact_mod_cast Nat.log2_self_le hn

theorem lt_zpow_log2 (n : Nat) : (n : Rat) < 2 ^ ((n.log2 : Int) + 1) := by
  have h : n < 2 ^ (n.log2 + 1) := Nat.lt_log2_self
  rw [show (n.log2 : Int) + 1 = ((n.log2 + 1 : Nat) : Int) by push_cast; rfl, zpow_natCast]
  exact_mod_cast h

/-- `ilog2` is the floor of the binary logarithm. -/
theorem ilog2_spec {x : Rat} (hx : 0 < x) : 2 ^ ilog2 x ≤ x ∧ x < 2 ^ (ilog2 x + 1) := by
  have hnum : x.num.toNat ≠ 0 := by have := Rat.num_pos.mpr hx; omega
  have hfrac : x * x.den = x.num.toNat := by
    have hcast : ((x.num.toNat : Int) : Rat) = x.num := by rw [Int.toNat_of_nonneg (Rat.num_pos.mpr hx).le]
    rw [Rat.mul_den_eq_num, ← hcast, Int.cast_natCast]
  have hden : (0 : Rat) < x.den := by exact_mod_cast x.den_pos
  have hnlo := zpow_log2_le hnum
  have hnhi := lt_zpow_log2 x.num.toNat
  have hdlo := zpow_log2_le x.den_nz
  have hdhi := lt_zpow_log2 x.den
  rw [← hfrac] at hnlo hnhi
  have hlow : (2 : Rat) ^ ((x.num.toNat.log2 : Int) - x.den.log2 - 1) ≤ x := by
    refine le_of_mul_le_mul_right (le_trans ?_ hnlo) hden
    calc (2 : Rat) ^ ((x.num.toNat.log2 : Int) - x.den.log2 - 1) * x.den
        ≤ 2 ^ ((x.num.toNat.log2 : Int) - x.den.log2 - 1) * 2 ^ ((x.den.log2 : Int) + 1) := by gcongr
      _ = 2 ^ (x.num.toNat.log2 : Int) := by rw [← zpow_add₀ (by norm_num)]; congr 1; ring
  have hhigh : x < 2 ^ ((x.num.toNat.log2 : Int) - x.den.log2 + 1) := by
    refine lt_of_mul_lt_mul_right (lt_of_lt_of_le hnhi ?_) hden.le
    calc (2 : Rat) ^ ((x.num.toNat.log2 : Int) + 1)
        = 2 ^ ((x.num.toNat.log2 : Int) - x.den.log2 + 1) * 2 ^ (x.den.log2 : Int) := by
          rw [← zpow_add₀ (by norm_num)]; congr 1; ring
      _ ≤ 2 ^ ((x.num.toNat.log2 : Int) - x.den.log2 + 1) * x.den := by gcongr
  unfold ilog2
  dsimp only
  rw [pow2_eq_zpow]
  split
  · next h => exact ⟨hlow, by rw [Int.sub_add_cancel]; exact h⟩
  · next h => exact ⟨not_lt.mp h, hhigh⟩

theorem lt_ilog2_iff {x : Rat} (hx : 0 < x) (n : Int) : ilog2 x < n ↔ x < 2 ^ n := by
  obtain ⟨hlow, hhigh⟩ := ilog2_spec hx
  constructor
  · intro h
    exact hhigh.trans_le (zpow_le_zpow_right₀ (by norm_num) (by omega))
  · intro h
    exact (zpow_lt_zpow_iff_right₀ (by norm_num : (1 : Rat) < 2)).mp (hlow.trans_lt h)

theorem ilog2_eq {x : Rat} {n : Int} (hlow : 2 ^ n ≤ x) (hhigh : x < 2 ^ (n + 1)) : ilog2 x = n := by
  have hx : 0 < x := lt_of_lt_of_le (by positivity) hlow
  have h1 := (lt_ilog2_iff hx (n + 1)).mpr hhigh
  have h2 : ¬ ilog2 x < n := fun h => not_lt.mpr hlow ((lt_ilog2_iff hx n).mp h)
  omega

/-! ## Rounding of what is representable (R80, R85) -/

/-- A whole number of units splits exactly. -/
theorem Split.ofRat_whole (n : Nat) (u : Int) : Split.ofRat (n * 2 ^ u) u = ⟨256 * n, false⟩ := by
  have hq : (n * 2 ^ u : Rat) * pow2 (8 - u) = ((256 * n : Nat) : Rat) := by
    rw [pow2_eq_zpow, mul_assoc, ← zpow_add₀ (by norm_num), show u + (8 - u) = 8 by ring]
    push_cast
    ring
  have hfloor : ((256 * n : Nat) : Rat).floor = (256 * n : Nat) := Rat.floor_intCast (256 * n : Nat)
  simp only [Split.ofRat, hq, hfloor, Int.toNat_natCast, Rat.den_natCast, bne_self_eq_false]

theorem Split.inexact_whole (n : Nat) : (⟨256 * n, false⟩ : Split).inexact = false := by
  simp [Split.inexact]

/-- A whole number of units rounds to itself in every mode. -/
theorem Split.round_whole (n : Nat) (rm : Rm) (neg : Bool) (r8 : Nat) :
    (⟨256 * n, false⟩ : Split).round rm neg r8 = n := by
  have hup : (⟨256 * n, false⟩ : Split).up rm neg r8 = false := by
    simp only [Split.up, Nat.mul_mod_right, Split.inexact_whole]
    cases rm <;> simp
  simp [Split.round, hup, Split.n]

/-- A magnitude whose units are whole is its own rounding, and raises no flag. -/
theorem roundSplit_whole {f : Fmt} {k : Finish} (hfz : k.fz = false) (neg : Bool) {e : Int} {n b : Nat}
    (hb : ((max e f.emin - f.m) - (f.emin - f.m)).toNat * 2 ^ f.m + n = b) (hmax : b ≤ f.maxBits) :
    roundSplit f k neg e (Split.ofRat (n * 2 ^ (max e f.emin - f.m))) =
      ((if neg then f.signBit else 0) + b, 0) := by
  have hn : (⟨256 * n, false⟩ : Split).n = n := by simp [Split.n]
  unfold roundSplit
  simp only [Split.ofRat_whole, Split.round_whole, Split.inexact_whole, hn, hb, hfz, Nat.not_lt.mpr hmax,
    decide_false, Bool.and_false, Bool.or_self, Bool.false_and, Bool.false_eq_true, if_false]
  rfl

/-! ## Finite encodings (R78) -/

/-- A finite encoding is a whole number of units of its exponent, and its exponent and units are its fields. -/
theorem magOf_whole (f : Fmt) {b : Nat} (hb : b ≠ 0) : ∃ n : Nat, 0 < f.magOf b
    ∧ f.magOf b = n * 2 ^ (max (ilog2 (f.magOf b)) f.emin - f.m)
    ∧ ((max (ilog2 (f.magOf b)) f.emin - f.m) - (f.emin - f.m)).toNat * 2 ^ f.m + n = b := by
  have hfields := Nat.div_add_mod' b (2 ^ f.m)
  have hfr : b % 2 ^ f.m < 2 ^ f.m := Nat.mod_lt _ (by positivity)
  have hscale (u : Int) : ((2 ^ f.m : Nat) : Rat) * 2 ^ (u - f.m) = 2 ^ u := by
    push_cast
    rw [← zpow_natCast, ← zpow_add₀ (by norm_num)]
    congr 1
    ring
  by_cases hsub : b / 2 ^ f.m = 0
  · have hmag : f.magOf b = (b % 2 ^ f.m : Nat) * 2 ^ (f.emin - f.m) := by
      simp only [Fmt.magOf, hsub, if_true, pow2_eq_zpow]
    rw [hsub, Nat.zero_mul, Nat.zero_add] at hfields
    have hpos : 0 < f.magOf b := by
      rw [hmag, hfields]
      have : (0 : Rat) < b := by exact_mod_cast Nat.pos_of_ne_zero hb
      positivity
    have hlt : f.magOf b < 2 ^ f.emin := by
      rw [hmag, ← hscale f.emin]
      have : ((b % 2 ^ f.m : Nat) : Rat) < (2 ^ f.m : Nat) := by exact_mod_cast hfr
      gcongr
    have hmax : max (ilog2 (f.magOf b)) f.emin = f.emin := max_eq_right ((lt_ilog2_iff hpos _).mpr hlt).le
    rw [hmax, sub_self, Int.toNat_zero, Nat.zero_mul]
    exact ⟨b % 2 ^ f.m, hpos, hmag, by omega⟩
  · obtain ⟨k, hk⟩ := Nat.exists_eq_succ_of_ne_zero hsub
    let n := 2 ^ f.m + b % 2 ^ f.m
    let q : Int := (k.succ : Nat) - f.bias
    have hmag : f.magOf b = n * 2 ^ (q - f.m) := by
      simp only [Fmt.magOf, hk, Nat.succ_ne_zero, if_false, pow2_eq_zpow, n, q]
    have hlow : (2 : Rat) ^ q ≤ f.magOf b := by
      rw [hmag, ← hscale q]
      have : ((2 ^ f.m : Nat) : Rat) ≤ n := by exact_mod_cast Nat.le_add_right _ _
      gcongr
    have hhigh : f.magOf b < 2 ^ (q + 1) := by
      rw [hmag, zpow_add_one₀ (by norm_num), ← hscale q, mul_right_comm]
      have : (n : Rat) < (2 ^ f.m : Nat) * 2 := by exact_mod_cast (show n < 2 ^ f.m * 2 by simp only [n]; omega)
      gcongr
    have hlog := ilog2_eq hlow hhigh
    have hmax : max (ilog2 (f.magOf b)) f.emin = q := by
      rw [hlog]
      refine max_eq_left ?_
      simp only [q, Fmt.emin]
      omega
    rw [hmax]
    refine ⟨n, lt_of_lt_of_le (by positivity) hlow, hmag, ?_⟩
    have hsteps : (q - f.m - (f.emin - f.m)).toNat = k := by
      simp only [q, Fmt.emin]
      omega
    rw [hk, Nat.succ_mul] at hfields
    rw [hsteps]
    simp only [n]
    omega

/-- A finite encoding that is decoded and rounded again gives itself and no flag, in any format and any mode. -/
theorem finish_magOf {f : Fmt} {k : Finish} (hfz : k.fz = false) (neg : Bool) {b : Nat} (hb : b ≤ f.maxBits) :
    finish f k (.fin neg (f.magOf b)) = ((if neg then f.signBit else 0) + b, 0) := by
  by_cases h0 : b = 0
  · subst h0
    have hzero : f.magOf 0 = 0 := by simp [Fmt.magOf]
    simp only [finish, hzero, if_true, Nat.add_zero]
  · obtain ⟨n, hpos, hmag, hunits⟩ := magOf_whole f h0
    have hround := roundSplit_whole hfz neg hunits hb
    rw [← hmag] at hround
    rw [finish, if_neg hpos.ne', hround]

theorem sign_add_magnitude (f : Fmt) {x : Nat} (hx : x < 2 ^ f.width) :
    (if x.testBit (f.e + f.m) then f.signBit else 0) + x % 2 ^ (f.e + f.m) = x := by
  have hlt : x < 2 * 2 ^ (f.e + f.m) := by rwa [Fmt.width, Nat.add_assoc, Nat.add_comm, Nat.pow_succ'] at hx
  rw [testBit_of_lt_double hlt, Fmt.signBit]
  by_cases h : 2 ^ (f.e + f.m) ≤ x
  · rw [decide_eq_true h, if_pos rfl, Nat.mod_eq_sub_mod h, Nat.mod_eq_of_lt (by omega)]
    omega
  · simp [h, Nat.mod_eq_of_lt (Nat.lt_of_not_le h)]

/-- What the formats of 8 bits and less decode to, where it is no NaN (R78). -/
theorem decode_small {f : Fmt} (hf : f ∈ [Fmt.e5m2, Fmt.e4m3, Fmt.e2m1]) {x : Nat}
    (hnan : (f.decode false x).isNan = false) :
    (f.decode false x = .inf (x.testBit (f.e + f.m)) ∧ x % 2 ^ (f.e + f.m) = f.infBits)
    ∨ (f.decode false x = .fin (x.testBit (f.e + f.m)) (f.magOf (x % 2 ^ (f.e + f.m)))
      ∧ x % 2 ^ (f.e + f.m) ≤ f.maxBits) := by
  have hlt : x % 2 ^ (f.e + f.m) < 2 ^ (f.e + f.m) := Nat.mod_lt _ (by positivity)
  simp only [List.mem_cons, List.not_mem_nil, or_false] at hf
  obtain rfl | rfl | rfl := hf
  · by_cases hexp : x % 128 / 4 = 31
    · by_cases hfr : x % 4 = 0
      · have hdec : Fmt.e5m2.decode false x = .inf (x.testBit 7) := by simp [Fmt.decode, Fmt.e5m2, hexp, hfr]
        refine .inl ⟨hdec, ?_⟩
        show x % 2 ^ 7 = 124
        omega
      · have hdec : Fmt.e5m2.decode false x = .nan false := by simp [Fmt.decode, Fmt.e5m2, hexp, hfr]
        rw [hdec] at hnan
        cases hnan
    · have hdec : Fmt.e5m2.decode false x = .fin (x.testBit 7) (Fmt.e5m2.magOf (x % 2 ^ 7)) := by
        simp [Fmt.decode, Fmt.e5m2, hexp]
      refine .inr ⟨hdec, ?_⟩
      show x % 2 ^ 7 ≤ 123
      omega
  · by_cases hb : x % 128 = 127
    · have hdec : Fmt.e4m3.decode false x = .nan false := by simp [Fmt.decode, Fmt.e4m3, hb]
      rw [hdec] at hnan
      cases hnan
    · have hdec : Fmt.e4m3.decode false x = .fin (x.testBit 7) (Fmt.e4m3.magOf (x % 2 ^ 7)) := by
        simp [Fmt.decode, Fmt.e4m3, hb]
      refine .inr ⟨hdec, ?_⟩
      show x % 2 ^ 7 ≤ 126
      omega
  · refine .inr ⟨rfl, ?_⟩
    show x % 2 ^ 3 ≤ 7
    omega

theorem roundTripSmall_holds : roundTripSmallHolds := by
  intro f hf x hx hnan rm _
  have hx' := sign_add_magnitude f hx
  obtain ⟨hdec, hinf⟩ | ⟨hdec, hmax⟩ := decode_small hf hnan
  · rw [hdec, finish, ← hinf, hx']
  · rw [hdec, finish_magOf rfl _ hmax, hx']

/-- Settles O16: the tests write bits of a mask register, and small formats are decoded and rounded again without loss. -/
theorem floatTests : Obligations.FloatTests := ⟨floatTests_hold, roundTripSmall_holds⟩

end Sys2Proof.Machine
end

section
/-! Votes and the instructions of mask registers (spec/05 R147, R151 to R154). -/

namespace Sys2Proof.Machine

/-- A result of a group, in the destination that its class gives (R147, R151 to R153). -/
theorem Env.putAny_result {s : State} {e : Env} (h : Issuing s e) (hd : Head) (m : Option Modifier) (d : Opd) (wide : Bool)
    (bits : Nat → Bool) (once : Nat) (per : Nat → Nat) (hv : VDeclared e d (if wide then 2 else 1)) (hs : SDeclared e d) :
    GroupResult s (e.putAny s hd m d wide bits once per) e hd m d wide bits once per := by
  cases d with
  | k n => exact Env.putK_result h ..
  | s n =>
    by_cases hx : e.exec hd m = 0
    · have hoff : (e.exec hd m != 0) = false := by rw [hx]; rfl
      simp only [Env.putAny, GroupResult, if_pos hx, hoff]
      exact keepS_result h ..
    · have hon : (e.exec hd m != 0) = true := by simpa using hx
      simp only [Env.putAny, GroupResult, if_neg hx, hon]
      exact putS_result h _ _ hs
  | _ => exact Env.putV_result h _ _ _ _ _ hv

/-! ## Masks as sets of lanes -/

theorem mask_eq_zero_iff (m : BitVec 64) : m = 0 ↔ ∀ l, l < 64 → m.getLsbD l = false := by
  refine ⟨fun h => by simp [h], fun h => BitVec.eq_of_getLsbD_eq fun l hl => ?_⟩
  rw [h l hl]
  simp

/-- The lowest lane is one of the mask, which has one. -/
theorem lowLane_mem {m : BitVec 64} {l : Nat} (h : l ∈ lanesOf m) : lowLane m ∈ lanesOf m := by
  obtain ⟨hl, hm⟩ := List.mem_filter.mp h
  unfold lowLane
  cases hf : (List.range 64).find? fun l => m.getLsbD l with
  | none => exact absurd hm (List.find?_eq_none.mp hf l hl)
  | some n => exact List.mem_filter.mpr ⟨List.mem_of_find?_eq_some hf, List.find?_some (p := fun l => m.getLsbD l) hf⟩

/-! ## Votes (R147) -/

/-- The contributors of a vote whose predicate holds. -/
def Env.voters (e : Env) (s : State) (x : VUn) : BitVec 64 :=
  match x.a with
  | .k n => e.kreg s n.val &&& e.contributors x.h x.mod
  | _ => maskOf fun l => (e.contributors x.h x.mod).getLsbD l && e.src s l false x.a != 0

/-- What a vote gives. -/
def Env.voteOf (e : Env) (s : State) (o : VoteOp) (x : VUn) : Nat :=
  match o with
  | .any => if e.voters s x = 0 then 0 else 1
  | .all => if e.voters s x = e.contributors x.h x.mod then 1 else 0
  | .ballot => (e.voters s x).toNat
  | .eq => if (lanesOf (e.contributors x.h x.mod)).all fun l =>
      e.src s l false x.a == e.src s (lowLane (e.contributors x.h x.mod)) false x.a then 1 else 0

theorem execVote_eq (o : VoteOp) (x : VUn) (s : State) : execVote o x s = onIssue s fun e =>
    .ok (e.putAny s x.h x.mod x.d (o == .ballot) (fun _ => e.voteOf s o x != 0) (e.voteOf s o x)
      fun _ => e.voteOf s o x) := rfl

theorem Env.voters_get (e : Env) (s : State) (x : VUn) {l : Nat} (hl : l < 64) : (e.voters s x).getLsbD l =
    ((e.contributors x.h x.mod).getLsbD l && match x.a with
      | .k n => (e.kreg s n.val).getLsbD l
      | a => decide (e.src s l false a ≠ 0)) := by
  obtain ⟨g, m, t, d, a⟩ := x
  cases a with
  | k n => simp only [Env.voters, BitVec.getLsbD_and, Bool.and_comm]
  | _ => simp only [Env.voters, maskOf_get _ l hl, bne_zero_eq]

/-- The contributors all agree with the lowest of them where any two of them agree. -/
theorem all_eq_lowest (m : BitVec 64) (f : Nat → Nat) :
    ((lanesOf m).all fun l => f l == f (lowLane m)) = (lanesOf m).all fun l => (lanesOf m).all fun n => f l == f n := by
  rw [Bool.eq_iff_iff]
  simp only [List.all_eq_true, beq_iff_eq]
  exact ⟨fun h l hl n hn => (h l hl).trans (h n hn).symm, fun h l hl => h l hl _ (lowLane_mem hl)⟩

theorem any_voter {v : BitVec 64} {pred : Nat → Bool} (hp : ∀ l, l < 64 → v.getLsbD l = pred l) :
    (if v = 0 then 0 else 1) = if (List.range 64).any pred then 1 else 0 := by
  have hiff : v = 0 ↔ ¬(List.range 64).any pred = true := by
    simp only [mask_eq_zero_iff, List.any_eq_true, List.mem_range, not_exists, not_and, Bool.not_eq_true]
    exact forall₂_congr fun l hl => by rw [hp l hl]
  by_cases hv : v = 0
  · rw [if_pos hv, if_neg (hiff.mp hv)]
  · rw [if_neg hv, if_pos (not_not.mp (mt hiff.mpr hv))]

theorem all_voters {v con : BitVec 64} {pred : Nat → Bool} (hp : ∀ l, l < 64 → v.getLsbD l = pred l)
    (hsub : ∀ l, pred l = true → con.getLsbD l = true) :
    (if v = con then 1 else 0) = if (List.range 64).all (fun l => !con.getLsbD l || pred l) then 1 else 0 := by
  have hiff : v = con ↔ (List.range 64).all (fun l => !con.getLsbD l || pred l) = true := by
    simp only [List.all_eq_true, List.mem_range, Bool.or_eq_true, Bool.not_eq_true']
    constructor
    · intro hv l hl
      rw [← hp l hl, hv]
      cases con.getLsbD l <;> simp
    · refine fun hall => BitVec.eq_of_getLsbD_eq fun l hl => ?_
      rw [hp l hl]
      cases hpl : pred l with
      | true => exact (hsub l hpl).symm
      | false => exact ((hall l hl).resolve_right (by simp [hpl])).symm
  simp only [hiff]

theorem votes_hold : votesHolds := by
  intro s e h o x hd hs con pred
  have hpred : ∀ l, l < 64 → (e.voters s x).getLsbD l = pred l := fun l hl => e.voters_get s x hl
  have hv : VDeclared e x.d (if (o == .ballot) = true then 2 else 1) := by simpa only [beq_iff_eq] using hd
  refine ⟨_, e.voteOf s o x, (execVote_eq o x s).trans (onIssue_next h.1 rfl), ?_, ?_⟩
  · rw [bne_zero_eq]
    exact Env.putAny_result h _ _ _ _ _ _ _ hv hs
  cases o with
  | any => exact any_voter hpred
  | all => exact all_voters hpred fun l hl => (Bool.and_eq_true_iff.mp hl).1
  | ballot => exact ⟨(e.voters s x).isLt, hpred⟩
  | eq =>
    show (if _ then 1 else 0) = _
    rw [all_eq_lowest _ fun l => e.src s l false x.a]
    rfl

/-! ## Mask registers (R151 to R154) -/

/-- The highest lane of a mask. -/
theorem log2_highest {m : Nat} (h : m ≠ 0) : m.testBit m.log2 = true ∧ ∀ i, m.testBit i = true → i ≤ m.log2 :=
  ⟨Nat.testBit_log2 h, fun _ hi => (Nat.le_log2 h).mpr (Nat.ge_two_pow_of_testBit hi)⟩

/-- The lowest lane of a mask. -/
theorem ctzNat_lowest {w m : Nat} (hm : m < 2 ^ w) (h : m ≠ 0) :
    m.testBit (ctzNat w m) = true ∧ ∀ i, m.testBit i = true → ctzNat w m ≤ i := by
  obtain ⟨hle, hzero, hone⟩ := ctzNat_spec w m
  have hbelow : ∀ i, m.testBit i = true → ctzNat w m ≤ i := fun i hi =>
    Nat.le_of_not_lt fun hlt => by simp [hzero i hlt] at hi
  refine ⟨hone (Nat.lt_of_le_of_ne hle fun hw => ?_), hbelow⟩
  obtain ⟨i, hi⟩ := Nat.exists_testBit_of_ne_zero h
  have hiw : i < w := Nat.lt_of_not_le fun hge => by
    simp [Nat.testBit_lt_two_pow (hm.trans_le (Nat.pow_le_pow_right (by decide) hge))] at hi
  have := hbelow i hi
  omega

/-- The lane that kfst gives (R153). -/
def firstOf (hi : Bool) (width m : Nat) : Nat := if m = 0 then width else if hi then m.log2 else ctzNat 64 m

theorem firstOf_spec (hi : Bool) (width : Nat) (v : BitVec 64) :
    if v = 0 then firstOf hi width v.toNat = width else v.getLsbD (firstOf hi width v.toNat) = true
      ∧ ∀ i, v.getLsbD i = true → if hi then i ≤ firstOf hi width v.toNat else firstOf hi width v.toNat ≤ i := by
  by_cases h : v = 0
  · rw [if_pos h, firstOf, if_pos (by rw [h]; rfl)]
  · have hne : v.toNat ≠ 0 := fun h0 => h (BitVec.eq_of_toNat_eq h0)
    rw [if_neg h, firstOf, if_neg hne]
    cases hi with
    | true => exact log2_highest hne
    | false => exact ctzNat_lowest v.isLt hne

theorem maskInstructions_hold : maskInstructionsHolds := by
  intro s e h val
  have he := h.1
  refine ⟨fun o x hd hs => ⟨_, (onIssue_next he rfl : execKop o x s = _), ?kop⟩,
    fun total x hd hs => fun _ => ⟨_, (onIssue_next he rfl : execKcnt total x s = _), ?kcnt⟩,
    fun hi x hd hs _ => ⟨_, firstOf hi e.w.width (val x.a).toNat, (onIssue_next he rfl : execKfst hi x s = _), ?kfst,
      firstOf_spec hi e.w.width (val x.a)⟩,
    fun o x => ⟨_, (onIssue_next he rfl : execKset o x s = _), ?kset⟩⟩
  case kop => cases o <;> exact Env.putAny_result h _ _ _ true _ _ _ hd hs
  case kcnt => exact Env.putAny_result h _ _ _ false _ _ _ hd hs
  case kfst => exact Env.putAny_result h _ _ _ false _ _ _ hd hs
  case kset =>
    simp only [bne_zero_eq]
    exact Env.putK_result h ..

/-- Settles O17: the votes by the set of lanes that hold, the mask instructions by their masks. -/
theorem maskInstructions : Obligations.MaskInstructions := ⟨maskInstructions_hold, votes_hold⟩

end Sys2Proof.Machine
end

section
/-! Instructions across lanes: shuffles, quad exchanges, scans, reductions and sorting (spec/05 R145, R146, R148 to
R150). -/

namespace Sys2Proof.Machine

/-! ## Shuffles (R146) -/

/-- The lane that a shuffle names, which need not be one. -/
def namedLane (o : ShflOp) (l b : Nat) : Int :=
  match o with
  | .idx => b
  | .up => (l : Int) - b
  | .down => l + b
  | .xor => (l ^^^ b : Nat)

/-- Whether the named lane is in the wave and in the issue. -/
def Env.holdsLane (e : Env) (n : Int) : Bool :=
  decide (0 ≤ n) && decide (n < e.w.width) && e.p.lanes.getLsbD n.toNat

theorem Env.shflFrom_of_nat {e : Env} {o : ShflOp} {l b n : Nat} (hlane : shflLane o l b = some n)
    (hnamed : namedLane o l b = n) :
    e.shflFrom o l b = if e.holdsLane (namedLane o l b) then some (namedLane o l b).toNat else none := by
  have hnonneg : (0 : Int) ≤ n := Int.natCast_nonneg n
  simp only [Env.shflFrom, hlane, hnamed, Env.holdsLane, hnonneg, Int.toNat_natCast, Nat.cast_lt, decide_true,
    Bool.true_and]

/-- The lane that a shuffle takes its value from. -/
theorem Env.shflFrom_eq (e : Env) (o : ShflOp) (l b : Nat) :
    e.shflFrom o l b = if e.holdsLane (namedLane o l b) then some (namedLane o l b).toNat else none := by
  cases o with
  | idx => exact Env.shflFrom_of_nat rfl rfl
  | down => exact Env.shflFrom_of_nat rfl (by simp [namedLane])
  | xor => exact Env.shflFrom_of_nat rfl rfl
  | up =>
    by_cases hb : b ≤ l
    · exact Env.shflFrom_of_nat (if_pos hb) (Nat.cast_sub hb).symm
    · have hlane : shflLane .up l b = none := if_neg hb
      have hneg : ¬(0 : Int) ≤ namedLane .up l b := by simp only [namedLane]; omega
      simp [Env.shflFrom, hlane, Env.holdsLane, hneg]

/-- Source B of a shuffle in a lane. -/
def Env.shflB (e : Env) (s : State) (x : Shfl) (l : Nat) : Nat :=
  match x.b with
  | .reg r => e.src s l false r
  | .imm i => i.toNat

/-- The result of a shuffle for a lane whose source B is `b`, with its validity bit in `c`. -/
def Env.shuffled (e : Env) (s : State) (o : ShflOp) (x : Shfl) (l b : Nat) : Pend :=
  let n := namedLane o l b
  let act := (e.exec x.h x.mod).getLsbD l
  { doneResult (.shfl o x) e.p.slot l x.d
      (wordsOf x.ty.wide (if act then e.src s (if e.holdsLane n then n.toNat else l) x.ty.wide x.a else 0)) 0 with
    c := if act && e.holdsLane n then 1 else 0 }

theorem Env.shuffled_eq (e : Env) (s : State) (o : ShflOp) (x : Shfl) (w : Wave) (l b : Nat) :
    (if (e.exec x.h x.mod).getLsbD l then
        w.push { doneResult (.shfl o x) e.p.slot l x.d
            (wordsOf x.ty.wide (e.src s ((e.shflFrom o l b).getD l) x.ty.wide x.a)) 0 with
          c := if (e.shflFrom o l b).isSome then 1 else 0 }
      else w.push (doneResult (.shfl o x) e.p.slot l x.d (wordsOf x.ty.wide 0) 0)) = w.push (e.shuffled s o x l b) := by
  simp only [Env.shflFrom_eq, Env.shuffled]
  cases (e.exec x.h x.mod).getLsbD l with
  | true => cases e.holdsLane (namedLane o l b) <;> rfl
  | false => rfl

theorem exec_shfl {s : State} {e : Env} (he : s.env? = some e) (o : ShflOp) (x : Shfl) :
    let ls := lanesOf (e.exec x.h x.mod ||| e.zeroed x.h x.mod)
    exec (.shfl o x) s =
      .next (s.setWave { e.w with out := e.w.out ++ ls.map fun l => e.shuffled s o x l (e.shflB s x l) }) := by
  intro ls
  refine (onIssue_next he ?_ : execShfl o x s = _)
  rw [← Wave.foldl_push]
  dsimp only
  congr 3
  funext w l
  exact e.shuffled_eq s o x w l (e.shflB s x l)

theorem shuffles_hold : shufflesHolds := by
  intro s e h o x b lane ok
  exact ⟨_, exec_shfl h.1 o x, rfl, rfl⟩

/-! ## Quad exchanges (R145) -/

theorem quadSwaps_hold : quadSwapsHolds := by
  intro s e h o x
  let w := e.w.each e.p.lanes fun _ th => { th with run := .quad }
  let pend (l : Nat) : Pend := quadPend (.qswp o x) e.p.slot l x.d (e.exec x.h x.mod) (e.zeroed x.h x.mod)
  let u : Wave := { w with out := e.w.out ++ (lanesOf e.p.lanes).map pend }
  have hwait : e.waitQuad (.qswp o x) x.d (e.exec x.h x.mod) (e.zeroed x.h x.mod) = u := Wave.foldl_push w _ pend
  have hrun : exec (.qswp o x) s = .next (s.setWave u) := by
    rw [← hwait]
    exact (onIssue_next h.1 rfl : execQswp o x s = _)
  refine ⟨_, u, hrun, sameBesideWave (w := u), State.wave?_setWave (w := u) (State.env?_eq h.1).2.1, rfl, fun l hl => ?_,
    rfl⟩
  exact e.w.each_th _ _ l (by rw [Wave.shape_threads h.2.1]; exact hl)

/-- Settles O18: shfl by the lane that it names, qswp by the states and exchanges that it leaves. -/
theorem exchanges : Obligations.Exchanges := ⟨shuffles_hold, quadSwaps_hold⟩

/-! ## Scans and reductions (R148, R149) -/

theorem scan_outstanding {s : State} {e : Env} (h : Issuing s e) (o : ScanOp) (ex : Bool) (x : VUn) :
    let con := e.exec x.h x.mod &&& ~~~e.w.helperMask
    let red (lead : Nat) (ls : List Nat) : Res := reduce o x.ty (e.scanFin s o x.ty x.mod lead)
      (flushes e.p.mode (fmtFor x.ty)) (ls.map fun n => e.src s n (x.ty.bits == 64) x.a)
    ∃ t, exec (.scan o ex x) s = .next t
      ∧ Outstanding s t e (.scan o ex x) (e.exec x.h x.mod) (e.zeroed x.h x.mod) x.d (regsOf x.ty)
        (scanRounds o x.ty && draws e x.mod) fun l =>
        let r := red l ((lanesOf con).filter fun n => if ex then n < l else n ≤ l)
        (wordsOf (x.ty.bits == 64) r.1, r.2) := by
  intro con red
  have hbefore (l n : Nat) : (decide (n < l) || (!ex && n == l)) = if ex then decide (n < l) else decide (n ≤ l) := by
    rw [Bool.eq_iff_iff]
    cases ex with
    | true => simp
    | false => simp [Nat.le_iff_lt_or_eq]
  refine ⟨_, (onIssue_next h.1 rfl : execScan o ex x s = _), ?_⟩
  simp only [hbefore]
  exact putFV_result h ..

/-- The result that wred leaves for an s register. -/
def Env.reduced (e : Env) (o : ScanOp) (x : VUn) (r : Res) : Pend :=
  let con := e.contributors x.h x.mod
  { doneResult (.wred o x) e.p.slot (lowLane (if con = 0 then e.exec x.h x.mod else con)) x.d (wordsOf true r.1)
      (if con = 0 then 0 else r.2) with
    lanes := e.p.lanes }

/-- A draw changes nothing of a wave but the counters of its threads. -/
theorem Env.drawn_rest (e : Env) (h : Head) (m : Option Modifier) (rounds : Bool) (w : Wave) :
    { e.drawn h m rounds w with threads := w.threads } = w := by
  unfold Env.drawn
  split <;> rfl

theorem wred_uniform {s : State} {e : Env} (h : Issuing s e) (o : ScanOp) {x : VUn} {n : Fin 512} (hd : x.d = .s n) :
    let con := e.exec x.h x.mod &&& ~~~e.w.helperMask
    let r := reduce o x.ty (e.scanFin s o x.ty x.mod (lowLane con)) (flushes e.p.mode (fmtFor x.ty))
      ((lanesOf con).map fun n => e.src s n (x.ty.bits == 64) x.a)
    (e.exec x.h x.mod = 0 → exec (.wred o x) s = .next s)
    ∧ (e.exec x.h x.mod ≠ 0 → ∃ t w, exec (.wred o x) s = .next t ∧ t.wave? e.w.id = some w
      ∧ w.out = e.w.out ++ [e.reduced o x r]) := by
  obtain ⟨g, m, ty, d, a⟩ := x
  subst hd
  intro con r
  refine ⟨fun h0 => (onIssue_next h.1 (if_pos h0) : execWred o ⟨g, m, ty, .s n, a⟩ s = _), fun h0 => ?_⟩
  let u := e.w.push (e.reduced o ⟨g, m, ty, .s n, a⟩ r)
  let w := e.drawn g m (scanRounds o ty) u
  have hrest : { w with threads := u.threads } = u := e.drawn_rest g m _ u
  have hid : w.id = e.w.id := by
    have : w.id = u.id := by rw [← hrest]
    exact this
  have hout : w.out = u.out := by rw [← hrest]
  refine ⟨s.setWave w, w, (onIssue_next h.1 (if_neg h0) : execWred o ⟨g, m, ty, .s n, a⟩ s = _), ?_, hout⟩
  rw [← hid]
  exact State.wave?_setWave (by rw [hid]; exact (State.env?_eq h.1).2.1)

/-! ## reord (R150) -/

/-- Whether a key comes before another, ascending or descending. -/
def keyLess (desc : Bool) (a b : Int) : Bool := if desc then decide (b < a) else decide (a < b)

/-- Insertion of a lane by its key, before the first lane whose key comes after. -/
def insertLane (desc : Bool) (key : Nat → Int) (n : Nat) : List Nat → List Nat
  | [] => [n]
  | q :: r => if keyLess desc (key n) (key q) then n :: q :: r else q :: insertLane desc key n r

/-- Lanes sorted by key, as `sortKeys` sorts their values. -/
def sortLanes (desc : Bool) (key : Nat → Int) (ls : List Nat) : List Nat :=
  ls.foldl (fun a n => insertLane desc key n a) []

/-- What comes first in the order of R150: the key, and for equal keys the lane. -/
def KeyBefore (desc : Bool) (key : Nat → Int) (m n : Nat) : Prop :=
  keyLess desc (key m) (key n) = true ∨ (key m = key n ∧ m < n)

theorem keyLess_iff (desc : Bool) (a b : Int) : keyLess desc a b = true ↔ if desc then b < a else a < b := by
  cases desc <;> simp [keyLess]

theorem insertKey_cons (desc : Bool) (p q : Int × Nat) (r : List (Int × Nat)) : insertKey desc p (q :: r) =
    if keyLess desc p.1 q.1 then p :: q :: r else q :: insertKey desc p r := by
  simp only [insertKey, keyLess_iff]

theorem insertKey_map (desc : Bool) (key : Nat → Int) (val : Nat → Nat) (n : Nat) (ls : List Nat) :
    insertKey desc (key n, val n) (ls.map fun l => (key l, val l)) =
      (insertLane desc key n ls).map fun l => (key l, val l) := by
  induction ls with
  | nil => rfl
  | cons q r ih =>
    rw [List.map_cons, insertKey_cons, insertLane]
    split
    · rfl
    · rw [ih, List.map_cons]

theorem sortKeys_map (desc : Bool) (key : Nat → Int) (val : Nat → Nat) (ls : List Nat) :
    sortKeys desc (ls.map fun l => (key l, val l)) = (sortLanes desc key ls).map fun l => (key l, val l) := by
  have hfold : ∀ a : List Nat, (ls.map fun l => (key l, val l)).foldl (fun a p => insertKey desc p a)
      (a.map fun l => (key l, val l)) = (ls.foldl (fun a n => insertLane desc key n a) a).map fun l => (key l, val l) := by
    induction ls with
    | nil => exact fun _ => rfl
    | cons n r ih =>
      intro a
      rw [List.map_cons, List.foldl_cons, List.foldl_cons, insertKey_map, ih]
  exact hfold []

theorem insertLane_perm (desc : Bool) (key : Nat → Int) (n : Nat) (ls : List Nat) :
    (insertLane desc key n ls).Perm (n :: ls) := by
  induction ls with
  | nil => exact .refl _
  | cons q r ih =>
    rw [insertLane]
    split
    · exact .refl _
    · exact (ih.cons q).trans (.swap n q r)

/-- A lane that comes after every lane of a sorted list takes its place by its key. -/
theorem insertLane_sorted {desc : Bool} {key : Nat → Int} {n : Nat} {ls : List Nat} (h : ls.Pairwise (KeyBefore desc key))
    (hn : ∀ l ∈ ls, l < n) : (insertLane desc key n ls).Pairwise (KeyBefore desc key) := by
  induction ls with
  | nil => exact List.pairwise_singleton ..
  | cons q r ih =>
    obtain ⟨hq, hr⟩ := List.pairwise_cons.mp h
    rw [insertLane]
    split
    · next hkey =>
      refine List.pairwise_cons.mpr ⟨fun l hl => .inl ?_, h⟩
      obtain rfl | hl := List.mem_cons.mp hl
      · exact hkey
      · have hql := hq l hl
        unfold KeyBefore at hql
        rw [keyLess_iff] at hkey hql ⊢
        cases desc <;> simp only [if_true, Bool.false_eq_true, if_false] at hkey hql ⊢ <;> omega
    · next hkey =>
      refine List.pairwise_cons.mpr ⟨fun l hl => ?_, ih hr fun l hl => hn l (List.mem_cons_of_mem _ hl)⟩
      obtain rfl | hl := List.mem_cons.mp ((insertLane_perm desc key n r).mem_iff.mp hl)
      · have hlt := hn q List.mem_cons_self
        unfold KeyBefore
        rw [keyLess_iff] at hkey ⊢
        cases desc <;> simp only [if_true, Bool.false_eq_true, if_false] at hkey ⊢ <;> omega
      · exact hq l hl

/-- Sorting keeps the lanes, and puts ascending lanes into the order of R150. -/
theorem sortLanes_spec (desc : Bool) (key : Nat → Int) {ls : List Nat} (hls : ls.Pairwise (· < ·)) :
    (sortLanes desc key ls).Perm ls ∧ (sortLanes desc key ls).Pairwise (KeyBefore desc key) := by
  have hfold : ∀ a : List Nat, a.Pairwise (KeyBefore desc key) → (∀ m ∈ a, ∀ n ∈ ls, m < n) →
      (ls.foldl (fun a n => insertLane desc key n a) a).Perm (a ++ ls)
      ∧ (ls.foldl (fun a n => insertLane desc key n a) a).Pairwise (KeyBefore desc key) := by
    induction ls with
    | nil => exact fun a ha _ => ⟨by simp, ha⟩
    | cons n r ih =>
      intro a ha hlt
      obtain ⟨hn, hr⟩ := List.pairwise_cons.mp hls
      have hperm := insertLane_perm desc key n a
      obtain ⟨hp, hsorted⟩ := ih hr (insertLane desc key n a)
        (insertLane_sorted ha fun l hl => hlt l hl n List.mem_cons_self) fun m hm k hk => by
          obtain rfl | hm := List.mem_cons.mp (hperm.mem_iff.mp hm)
          · exact hn k hk
          · exact hlt m hm k (List.mem_cons_of_mem _ hk)
      exact ⟨hp.trans ((hperm.append_right r).trans List.perm_middle.symm), hsorted⟩
  exact hfold [] .nil (by simp)

theorem lanesOf_ascending (m : BitVec 64) : (lanesOf m).Pairwise (· < ·) :=
  List.Pairwise.filter _ List.pairwise_lt_range

/-- The value that reord gives a lane: of the lane whose key has its rank. -/
def Env.reordered (e : Env) (s : State) (desc : Bool) (x : VTri) (l : Nat) : Nat :=
  let con := lanesOf (e.contributors x.h x.mod)
  match con.findIdx? (· == l) with
  | some i => e.src s ((sortLanes desc (fun l => intOf x.ty (e.src s l false x.a)) con).getD i 0) false x.b
  | none => e.src s l false x.b

theorem execReord_eq (desc : Bool) (x : VTri) (s : State) : execReord desc x s = onIssue s fun e =>
    .ok (e.putFV s (.reord desc x) x.h x.mod x.d false false fun l => (e.reordered s desc x l, 0)) := by
  unfold execReord
  congr 1
  funext e
  have hundrawn (w : Wave) : e.drawn x.h x.mod false w = w := by simp [Env.drawn]
  dsimp only [Env.putFV]
  rw [hundrawn]
  congr 4
  funext l
  let con := lanesOf (e.contributors x.h x.mod)
  unfold Env.reordered
  dsimp only
  cases hi : con.findIdx? (· == l) with
  | none => rfl
  | some i =>
    have hlen := (sortLanes_spec desc (fun l => intOf x.ty (e.src s l false x.a)) (lanesOf_ascending
      (e.contributors x.h x.mod))).1.length_eq
    have hlt := (List.findIdx?_eq_some_iff_getElem.mp hi).1
    rw [← hlen] at hlt
    dsimp only
    rw [sortKeys_map]
    simp [List.getD, hlt]

/-- Settles O19: scan and wred by the values that they reduce, reord by a stable sort of the lanes. That an s destination
takes zeros above a 32-bit result is the model's choice (notes/assumptions/20 on R149). -/
theorem reductions : Obligations.Reductions := by
  intro s e h
  refine ⟨fun o ex x => ?_, fun desc x => ?_⟩
  · intro con red rounds
    refine ⟨scan_outstanding h o ex x, fun n hd => ?_, fun n hd => ?_⟩
    · obtain ⟨g, m, ty, d, a⟩ := x
      subst hd
      exact ⟨_, (onIssue_next h.1 rfl : execWred o ⟨g, m, ty, .v n, a⟩ s = _), putFV_result h ..⟩
    · obtain ⟨hnone, hsome⟩ := wred_uniform h o hd
      refine ⟨hnone, fun h0 => ?_⟩
      obtain ⟨t, w, hrun, hw, hout⟩ := hsome h0
      exact ⟨t, w, _, hrun, hw, hout, rfl, rfl, rfl, rfl, rfl⟩
  · have hrun := (execReord_eq desc x s).trans (onIssue_next h.1 rfl)
    obtain ⟨hperm, hsorted⟩ := sortLanes_spec desc (fun l => intOf x.ty (e.src s l false x.a))
      (lanesOf_ascending (e.exec x.h x.mod &&& ~~~e.w.helperMask))
    exact ⟨_, _, hrun, pushV_result h .., hperm, hsorted.imp (Or.imp_left (keyLess_iff desc _ _).mp)⟩

end Sys2Proof.Machine
end

section
/-! Bytes written to a memory with check codes and read again (spec/11 R313, R314, R316). -/

namespace Sys2Proof.Machine

/-! ## Lists of bytes -/

theorem leBytes_length (n x : Nat) : (leBytes n x).length = n := by
  induction n generalizing x with
  | zero => rfl
  | succ n ih => rw [leBytes, List.length_cons, ih]

theorem leBytes_getD {n i : Nat} (hi : i < n) (x : Nat) : (leBytes n x).getD i 0 = BitVec.ofNat 8 (x / 2 ^ (8 * i)) := by
  induction n generalizing x i with
  | zero => omega
  | succ n ih =>
    obtain _ | j := i
    · simp [leBytes]
    · rw [leBytes, List.getD_cons_succ, ih (by omega), Nat.div_div_eq_div_mul, show 256 = 2 ^ 8 by rfl, ← Nat.pow_add,
        show 8 + 8 * j = 8 * (j + 1) by ring]

/-- An element of lists of one length, put one after the other. -/
theorem flatMap_range_getD {α : Type} {f : Nat → List α} {n : Nat} (hf : ∀ l, (f l).length = n) (d : α) {w i : Nat}
    (hi : i < w * n) : ((List.range w).flatMap f).getD i d = (f (i / n)).getD (i % n) d := by
  have hlen (w : Nat) : ((List.range w).flatMap f).length = w * n := by simp [List.length_flatMap, hf]
  induction w with
  | zero => omega
  | succ w ih =>
    rw [List.range_succ, List.flatMap_append, List.flatMap_singleton]
    by_cases hlt : i < w * n
    · rw [List.getD_append _ _ _ _ (by rw [hlen]; exact hlt), ih hlt]
    · rw [Nat.succ_mul] at hi
      have hdiv : i / n = w := Nat.div_eq_of_lt_le (Nat.le_of_not_lt hlt) (by rw [Nat.succ_mul]; exact hi)
      have hmod := Nat.div_add_mod' i n
      rw [hdiv] at hmod
      rw [List.getD_append_right _ _ _ _ (by rw [hlen]; omega), hlen, hdiv, show i - w * n = i % n by omega]

/-! ## One byte (R314) -/

theorem Memory.read_one (f : Fill) (m : Memory) (b : Nat) : m.read f b 1 = match m.check f (b / 8) with
    | some y => .error y
    | none => .ok [m.byte f b] := by
  have hrange : m.checkRange f b 1 = m.check f (b / 8) := by
    rw [Memory.checkRange, if_neg Nat.one_ne_zero, Nat.add_sub_cancel, Nat.sub_self]
    simp only [Memory.checkFrom]
    cases m.check f (b / 8) <;> rfl
  rw [Memory.read, hrange]
  rfl

theorem Memory.read_one_isOk (f : Fill) (m : Memory) (b : Nat) :
    (m.read f b 1).isOk = true ↔ m.check f (b / 8) = none := by
  rw [Memory.read_one]
  cases m.check f (b / 8) <;> simp [Except.isOk, Except.toBool]

theorem Memory.bytes_congr {f : Fill} {m m' : Memory} {n a : Nat} (h : ∀ i, i < n → m'.byte f (a + i) = m.byte f (a + i)) :
    m'.bytes f a n = m.bytes f a n := by
  induction n generalizing a with
  | zero => rfl
  | succ n ih =>
    rw [Memory.bytes, Memory.bytes, ih fun i hi => by
      rw [Nat.add_assoc, Nat.add_comm 1]
      exact h (i + 1) (by omega)]
    exact congrArg (· :: _) (h 0 (by omega))

theorem Memory.bytes_length (f : Fill) (m : Memory) (a n : Nat) : (m.bytes f a n).length = n := by
  induction n generalizing a with
  | zero => rfl
  | succ n ih => rw [Memory.bytes, List.length_cons, ih]

theorem Memory.bytes_getD (f : Fill) (m : Memory) {a n i : Nat} (hi : i < n) :
    (m.bytes f a n).getD i 0 = m.byte f (a + i) := by
  induction n generalizing a i with
  | zero => omega
  | succ n ih =>
    obtain _ | j := i
    · rfl
    · rw [Memory.bytes, List.getD_cons_succ, ih (by omega), Nat.add_assoc, Nat.add_comm 1]

/-! ## Writes (R313, R316) -/

/-- A memory whose codes, where it lists none, are those of its bytes: a scratchpad (R323). -/
def Fill.plain (f : Fill) : Prop := f.coded = true ∧ f.code = none

/-- What a write of bytes from an address on leaves: the bytes there and the others as before, and the codes of the
granules written right, those of the others as before. -/
structure Wrote (f : Fill) (m m' : Memory) (a : Nat) (bs : List Byte) : Prop where
  wf : m'.wf = true
  inside : ∀ i, i < bs.length → m'.byte f (a + i) = bs.getD i 0
  outside : ∀ x, (x < a ∨ a + bs.length ≤ x) → m'.byte f x = m.byte f x
  touched : ∀ i, i < bs.length → m'.check f ((a + i) / 8) = none
  untouched : ∀ g, (∀ i, i < bs.length → (a + i) / 8 ≠ g) → m'.check f g = m.check f g

theorem Wrote.nil {f : Fill} {m : Memory} (h : m.wf = true) (a : Nat) : Wrote f m m a [] :=
  ⟨h, fun _ hi => absurd hi (Nat.not_lt_zero _), fun _ _ => rfl, fun _ hi => absurd hi (Nat.not_lt_zero _), fun _ _ => rfl⟩

/-- Whether a granule is right after a write does not get worse. -/
theorem Wrote.check_none {f : Fill} {m m' : Memory} {a : Nat} {bs : List Byte} (h : Wrote f m m' a bs) {g : Nat}
    (hg : m.check f g = none) : m'.check f g = none := by
  by_cases ht : ∃ i, i < bs.length ∧ (a + i) / 8 = g
  · obtain ⟨i, hi, rfl⟩ := ht
    exact h.touched i hi
  · rw [h.untouched g fun i hi he => ht ⟨i, hi, he⟩, hg]

/-- Two writes of adjoining bytes are one. -/
theorem Wrote.append {f : Fill} {m m1 m2 : Memory} {a : Nat} {bs cs : List Byte} (h1 : Wrote f m m1 a bs)
    (h2 : Wrote f m1 m2 (a + bs.length) cs) : Wrote f m m2 a (bs ++ cs) := by
  refine ⟨h2.wf, fun i hi => ?_, fun x hx => ?_, fun i hi => ?_, fun g hg => ?_⟩
  all_goals rw [List.length_append] at *
  · by_cases hb : i < bs.length
    · rw [h2.outside _ (.inl (by omega)), h1.inside i hb, List.getD_append _ _ _ _ hb]
    · have hin := h2.inside (i - bs.length) (by omega)
      rw [Nat.add_assoc, Nat.add_sub_cancel' (by omega)] at hin
      rw [hin, List.getD_append_right _ _ _ _ (by omega)]
  · rw [h2.outside x (by omega), h1.outside x (by omega)]
  · by_cases hb : i < bs.length
    · exact h2.check_none (h1.touched i hb)
    · have ht := h2.touched (i - bs.length) (by omega)
      rwa [Nat.add_assoc, Nat.add_sub_cancel' (by omega)] at ht
  · rw [h2.untouched g fun i hi => by rw [Nat.add_assoc]; exact hg _ (by omega), h1.untouched g fun i hi => hg i (by omega)]

theorem Memory.check_plain {f : Fill} (hf : f.plain) (m : Memory) (g : Nat) :
    m.check f g = match getKey m.codes g with
      | some c => if c = checkCode (m.granule f g) then none
          else some { addr := 8 * g, stored := c, computed := checkCode (m.granule f g) }
      | none => none := by
  obtain ⟨hcoded, hcode⟩ := hf
  unfold Memory.check
  rw [hcoded, hcode]
  cases getKey m.codes g <;> rfl

theorem Memory.byte_put {f : Fill} {m : Memory} (h : m.wf = true) (a : Nat) (bs : List Byte) (x : Nat) :
    (m.put a bs).byte f x = if a ≤ x ∧ x < a + bs.length then bs.getD (x - a) 0 else m.byte f x := by
  simp only [Memory.byte, Memory.put_get? _ _ _ h]
  by_cases hx : a ≤ x ∧ x < a + bs.length
  · have hlt : x - a < bs.length := by omega
    simp [hx, List.getD, hlt]
  · by_cases ha : a ≤ x
    · have hx2 : ¬x < a + bs.length := fun h => hx ⟨ha, h⟩
      simp [ha, hx2]
    · simp [ha]

/-- The 8 bytes of a granule, written with their code (R313). -/
theorem Memory.putGranule_wrote {f : Fill} (hf : f.plain) {m : Memory} (h : m.wf = true) (g : Nat) {bs : List Byte}
    (hlen : bs.length = 8) : Wrote f m (m.putGranule g bs) (8 * g) bs := by
  have hbyte (x : Nat) : (m.putGranule g bs).byte f x = (m.put (8 * g) bs).byte f x := rfl
  have hcodes (j : Nat) : getKey (m.putGranule g bs).codes j = if j = g then none else getKey m.codes j := by
    have hrise := ((Memory.wf_iff _).mp (Memory.put_wf m (8 * g) bs h)).2
    rw [Memory.putGranule, getKey_delKey _ _ _ hrise, Memory.put_codes]
  refine ⟨Memory.putGranule_wf m g bs h, fun i hi => ?_, fun x hx => ?_, fun i hi => ?_, fun j hj => ?_⟩
  · rw [hbyte, Memory.byte_put h, if_pos (by omega), Nat.add_sub_cancel_left]
  · rw [hbyte, Memory.byte_put h, if_neg (by omega)]
  · rw [Memory.check_plain hf, hcodes, if_pos (by omega)]
  · have hne : j ≠ g := fun hjg => hj 0 (by omega) (by omega)
    have hgranule : (m.putGranule g bs).granule f j = m.granule f j := by
      rw [Memory.granule, Memory.granule, Memory.bytes_congr fun i hi => ?_]
      rw [hbyte, Memory.byte_put h, if_neg (by omega)]
    rw [Memory.check_plain hf, Memory.check_plain hf, hcodes, if_neg hne, hgranule]

theorem patch_length {old bs : List Byte} {o : Nat} (hold : old.length = 8) (hb : o + bs.length ≤ 8) :
    (Memory.patch old o bs).length = 8 := by
  simp only [Memory.patch, List.length_append, List.length_take, List.length_drop, hold]
  omega

theorem patch_getD {old bs : List Byte} {o i : Nat} (hold : old.length = 8) (hb : o + bs.length ≤ 8) (d : Byte) :
    (Memory.patch old o bs).getD i d = if o ≤ i ∧ i < o + bs.length then bs.getD (i - o) d else old.getD i d := by
  have htake : (old.take o).length = o := by rw [List.length_take, hold]; omega
  rw [Memory.patch, List.append_assoc]
  by_cases h1 : i < o
  · rw [List.getD_append _ _ _ _ (by omega), if_neg (by omega), List.getD, List.getD, List.getElem?_take_of_lt h1]
  · rw [List.getD_append_right _ _ _ _ (by omega), htake]
    by_cases h2 : i < o + bs.length
    · rw [List.getD_append _ _ _ _ (by omega), if_pos (by omega)]
    · rw [List.getD_append_right _ _ _ _ (by omega), if_neg (by omega), List.getD, List.getD, List.getElem?_drop,
        show o + bs.length + (i - o - bs.length) = i by omega]

/-- A write of part or all of a granule whose code is right (R316). -/
theorem Memory.mergeGranule_wrote {f : Fill} (hf : f.plain) {m : Memory} (h : m.wf = true) {g o : Nat} {bs : List Byte}
    (hb : o + bs.length ≤ 8) (hg : m.check f g = none) (hne : bs ≠ []) :
    ∃ m', m.mergeGranule f g o bs = .ok m' ∧ Wrote f m m' (8 * g + o) bs := by
  have hpos : 0 < bs.length := List.length_pos_iff.mpr hne
  unfold Memory.mergeGranule
  by_cases hfull : bs.length = 8
  · obtain rfl : o = 0 := by omega
    rw [if_pos hfull]
    exact ⟨_, rfl, Memory.putGranule_wrote hf h g hfull⟩
  · have hold := m.bytes_length f (8 * g) 8
    have hput := Memory.putGranule_wrote hf h g (patch_length hold hb)
    have hlen := patch_length hold hb
    have hin (i : Nat) (hi : i < 8) := (hput.inside i (by omega)).trans (patch_getD hold hb 0)
    rw [if_neg hfull, hg]
    refine ⟨_, rfl, hput.wf, fun i hi => ?_, fun x hx => ?_, fun i hi => ?_, fun j hj => hput.untouched j fun i hi he =>
      hj 0 hpos (by omega)⟩
    · rw [Nat.add_assoc, hin (o + i) (by omega), if_pos (by omega), Nat.add_sub_cancel_left]
    · by_cases hx8 : 8 * g ≤ x ∧ x < 8 * g + 8
      · obtain ⟨i, rfl⟩ := Nat.exists_eq_add_of_le hx8.1
        rw [hin i (by omega), if_neg (by omega), Memory.bytes_getD f m (by omega)]
      · exact hput.outside x (by omega)
    · have ht := hput.touched 0 (by omega)
      rwa [show (8 * g + o + i) / 8 = (8 * g + 0) / 8 by omega]

/-- A write whose granules' codes are right succeeds. -/
theorem Memory.writeFrom_wrote {f : Fill} (hf : f.plain) (n : Nat) {m : Memory} (h : m.wf = true) {a : Nat} {bs : List Byte}
    (hn : a % 8 + bs.length ≤ 8 * n) (hg : ∀ i, i < bs.length → m.check f ((a + i) / 8) = none) :
    ∃ m', m.writeFrom f a bs n = .ok m' ∧ Wrote f m m' a bs := by
  induction n generalizing m a bs with
  | zero =>
    obtain rfl : bs = [] := List.length_eq_zero_iff.mp (by omega)
    exact ⟨m, rfl, .nil h a⟩
  | succ n ih =>
    unfold Memory.writeFrom
    cases bs with
    | nil => exact ⟨m, rfl, .nil h a⟩
    | cons b r =>
      have hlen : ((b :: r).take (8 - a % 8)).length = min (8 - a % 8) (b :: r).length := List.length_take
      have hpos : 0 < (b :: r).length := Nat.succ_pos _
      have ha : 8 * (a / 8) + a % 8 = a := Nat.div_add_mod a 8
      obtain ⟨m1, hm1, hw1⟩ := Memory.mergeGranule_wrote hf h (g := a / 8) (o := a % 8) (bs := (b :: r).take (8 - a % 8))
        (by omega) (hg 0 hpos) fun hnil => by rw [hnil, List.length_nil] at hlen; omega
      rw [ha] at hw1
      simp only [List.isEmpty_cons, Bool.false_eq_true, if_false, hm1]
      have hdrop : ((b :: r).drop (8 - a % 8)).length = (b :: r).length - (8 - a % 8) := List.length_drop
      obtain ⟨m2, hm2, hw2⟩ := ih hw1.wf (a := a + (8 - a % 8)) (bs := (b :: r).drop (8 - a % 8)) (by omega) fun i hi =>
        hw1.check_none (by rw [Nat.add_assoc]; exact hg _ (by omega))
      refine ⟨m2, hm2, ?_⟩
      by_cases hshort : (b :: r).length ≤ 8 - a % 8
      · rw [List.drop_eq_nil_of_le hshort] at hm2
        rw [List.take_of_length_le hshort] at hw1
        have hsame : m1 = m2 := by
          cases n <;> simpa [Memory.writeFrom] using hm2
        exact hsame ▸ hw1
      · rw [show 8 - a % 8 = ((b :: r).take (8 - a % 8)).length by omega] at hw2
        have hall := hw1.append hw2
        rw [← hlen.trans (by omega : min (8 - a % 8) (b :: r).length = 8 - a % 8)] at hall
        simpa using hall

/-! ## Scratchpads -/

theorem State.fill_spad_plain (s : State) (c : Nat) : (s.fill (.spad c)).plain := ⟨rfl, rfl⟩

theorem State.memOk_spad {s : State} (h : s.memOk = true) {c : Nat} (hc : c < s.cores.length) :
    (s.core c).spad.wf = true := by
  simp only [State.memOk, Bool.and_eq_true, List.all_eq_true] at h
  obtain ⟨⟨⟨-, hcores⟩, -⟩, -⟩ := h
  have hmem : s.core c ∈ s.cores := by
    simp only [State.core, getAt, List.getD, List.getElem?_eq_getElem hc, Option.getD_some]
    exact List.getElem_mem hc
  exact (hcores _ hmem).1.1

theorem State.setMem_spad_other (s : State) {c : Nat} {m : Memory} {p : Place} (hp : p ≠ .spad c) :
    (s.setMem (.spad c) m).mem p = s.mem p := by
  have hcore (n : Nat) : (s.setMem (.spad c) m).core n = if c = n ∧ n < s.cores.length
      then { s.core c with spad := m } else s.core n := by
    simp only [State.setMem, State.setCore, State.core, getAt, List.getD, List.getElem?_set]
    by_cases hn : c = n
    · subst hn
      by_cases hlt : c < s.cores.length <;> simp [hlt]
    · simp [hn]
  cases p with
  | dev | host | peer => rfl
  | spad n =>
    have hn : ¬(c = n ∧ n < s.cores.length) := fun h => hp (h.1 ▸ rfl)
    simp only [State.mem, hcore, if_neg hn]
  | tile n | wbuf n =>
    simp only [State.mem, hcore]
    split
    · next h => rw [h.1]
    · rfl

/-- Two states whose memories read the same. -/
def SameBytes (s t : State) : Prop := ∀ p, t.mem p = s.mem p ∧ t.fill p = s.fill p

theorem SameBytes.readAt {s t : State} (h : SameBytes s t) (p : Place) (a n : Nat) : t.readAt p a n = s.readAt p a n := by
  obtain ⟨hm, hf⟩ := h p
  rw [State.readAt, State.readAt, hm, hf]

theorem SameBytes.trans {s t u : State} (h : SameBytes s t) (k : SameBytes t u) : SameBytes s u := fun p =>
  ⟨(k p).1.trans (h p).1, (k p).2.trans (h p).2⟩

/-- A write to a scratchpad whose granules read right (R276, R316). -/
theorem State.writeAt_spad {s : State} {c a : Nat} {bs : List Byte} (hwf : (s.core c).spad.wf = true)
    (hc : c < s.cores.length) (hok : ∀ i, i < bs.length → (s.readAt (.spad c) (a + i) 1).isOk = true) :
    ∃ t, s.writeAt (.spad c) a bs = .ok t ∧ OtherBytes s t (.spad c) a bs.length
      ∧ ∀ i, i < bs.length → t.readAt (.spad c) (a + i) 1 = .ok [bs.getD i 0] := by
  have hplain := s.fill_spad_plain c
  obtain ⟨m, hm, hw⟩ := Memory.writeFrom_wrote hplain (bs.length / 8 + 2) (m := s.mem (.spad c)) hwf (a := a) (bs := bs)
    (by omega) fun i hi => (Memory.read_one_isOk _ _ _).mp (hok i hi)
  have hwrite : (s.mem (.spad c)).write (s.fill (.spad c)) a bs = .ok m := by
    rw [Memory.write, hplain.1, if_pos rfl, hm]
  have hmem : (s.setMem (.spad c) m).mem (.spad c) = m := State.setMem_mem s (.spad c) m hc
  have hfill (p : Place) : (s.setMem (.spad c) m).fill p = s.fill p := by cases p <;> rfl
  have hread (p : Place) (b : Nat) : (s.setMem (.spad c) m).readAt p b 1 =
      ((s.setMem (.spad c) m).mem p).read (s.fill p) b 1 := by rw [State.readAt, hfill]
  refine ⟨s.setMem (.spad c) m, by rw [State.writeAt, hwrite], fun p b hb => ?_, fun i hi => ?_⟩
  · rw [hread]
    by_cases hp : p = .spad c
    · subst hp
      have hout : b < a ∨ a + bs.length ≤ b := hb.resolve_left fun hne => hne rfl
      have hcheck : m.check (s.fill (.spad c)) (b / 8) = (s.mem (.spad c)).check (s.fill (.spad c)) (b / 8) := by
        by_cases ht : ∃ i, i < bs.length ∧ (a + i) / 8 = b / 8
        · obtain ⟨i, hi, he⟩ := ht
          rw [← he, hw.touched i hi, (Memory.read_one_isOk _ _ _).mp (hok i hi)]
        · exact hw.untouched _ fun i hi he => ht ⟨i, hi, he⟩
      rw [hmem, State.readAt, Memory.read_one, Memory.read_one, hcheck, hw.outside b hout]
    · rw [State.setMem_spad_other s hp, State.readAt]
  · rw [hread, hmem, Memory.read_one, hw.touched i hi]
    exact congrArg (fun x => Except.ok [x]) (hw.inside i hi)

end Sys2Proof.Machine
end

section
/-! mov, and the pushes and pops of queue registers (spec/05 R127, R128; spec/06 R191). -/

namespace Sys2Proof.Machine

/-! ## Faults of a group -/

/-- A meaning that charges a group with a fault. -/
theorem charged_of_charge {s : State} {e : Env} (he : s.env? = some e) {i : Instr} {f : Env → Except Stop State}
    {m : BitVec 64} {tr : Trap} (hi : exec i s = onIssue s f) (hf : f e = e.charge s m tr) : Charged s e i m tr := by
  rw [Charged]
  have hreal : e.real m = m &&& ~~~e.w.helperMask := rfl
  have hlanes : e.real e.p.lanes = e.p.lanes &&& ~~~e.w.helperMask := rfl
  rw [← hreal, ← hlanes, hi]
  by_cases h0 : e.real m = 0
  · by_cases hall : e.real e.p.lanes = 0
    · refine ⟨fun _ => ?_, fun _ hne => absurd hall hne⟩
      rw [if_pos h0]
      refine onIssue_stop he (x := .trap _) (hf.trans ?_)
      rw [Env.charge, h0, hall]
      rfl
    · refine ⟨fun h => absurd (h.resolve_left fun hne => hne h0) hall, fun _ _ => onIssue_next he (hf.trans ?_)⟩
      rw [Env.charge, h0, if_neg (by decide), if_neg hall]
  · refine ⟨fun _ => ?_, fun hzero => absurd hzero h0⟩
    rw [if_neg h0]
    refine onIssue_stop he (x := .trap _) (hf.trans ?_)
    rw [Env.charge, if_pos (by simpa using h0)]

/-! ## Changes of the order of a group's accesses -/

/-- The issuing wave has learnt what a pop brings, or nothing; the state is otherwise as it was. -/
def Learnt (e : Env) (s t : State) : Prop := t = s ∨ ∃ f, t = s.setWave (e.w.orders e.p.lanes f)

theorem Wave.orders_th (w : Wave) (m : BitVec 64) (f : Nat → Order → Order) (l : Nat) :
    { (w.orders m f).th l with ord := (w.th l).ord } = w.th l := by
  by_cases hl : l < w.threads.length
  · rw [Wave.orders, Wave.each_th _ _ _ _ hl]
    split <;> rfl
  · rw [Wave.orders, Wave.each_th_ge _ _ _ (Nat.le_of_not_lt hl)]

theorem Learnt.wave {e : Env} {s t : State} (h : Learnt e s t) (hw : s.wave? e.w.id = some e.w) :
    ∃ w, t.wave? e.w.id = some w ∧ { w with threads := e.w.threads } = e.w
      ∧ ∀ l, { w.th l with ord := (e.w.th l).ord } = e.w.th l := by
  obtain rfl | ⟨f, rfl⟩ := h
  · exact ⟨e.w, hw, rfl, fun _ => rfl⟩
  · exact ⟨_, State.wave?_setWave (w := e.w.orders e.p.lanes f) hw, rfl, fun l => e.w.orders_th e.p.lanes f l⟩

theorem Learnt.crew? {e : Env} {s t : State} (h : Learnt e s t) (j : Nat) : t.crew? j = s.crew? j := by
  obtain rfl | ⟨f, rfl⟩ := h <;> rfl

theorem Learnt.rest {e : Env} {s t : State} (h : Learnt e s t) : { t with waves := s.waves } = s := by
  obtain rfl | ⟨f, rfl⟩ := h <;> rfl

theorem State.orders_learnt {e : Env} {s : State} (hw : s.wave? e.w.id = some e.w) (f : Nat → Order → Order) :
    Learnt e s (s.orders e.w.id e.p.lanes f) := by
  refine .inr ⟨f, ?_⟩
  simp only [State.orders, hw]

/-! ## Pops (R191, R193) -/

/-- The crew with a queue register replaced. -/
theorem Crew.q_setQ {k : Crew} (hk : k.shapeOk = true) (n : Fin 16) (q : QReg) : (k.setQ n.val q).q n.val = q := by
  have hlen : k.qs.length = 16 := by
    simp only [Crew.shapeOk, Bool.and_eq_true, beq_iff_eq] at hk
    exact hk.1.2
  rw [Crew.q, Crew.setQ, getAt_set _ _ _ _ _ (by omega), if_pos rfl]

theorem Crew.q_setQ_other {k : Crew} {n m : Nat} (h : n ≠ m) (q : QReg) : (k.setQ m q).q n = k.q n := by
  simp [Crew.q, Crew.setQ, getAt, List.getD, Ne.symm h]

theorem Env.popQ_empty (e : Env) (s : State) (m : BitVec 64) {n : Nat} (h : (e.k.q n).avail = 0) :
    e.popQ s m n = .ok none := by
  simp only [Env.popQ, h, decide_true, Bool.true_or, if_true]

/-- An operation where neither logging nor replay is on. -/
theorem State.logged_off {α : Type} {s s1 : State} {c : Nat} {o : Option LogOp} {x : Nat}
    {f : State → Except Stop (α × Nat × List Byte × State)} {a : α} {v : Nat} {bs : List Byte} (hf : f s = .ok (a, v, bs, s1))
    (hoff : o ≠ none → s.logging c = false ∧ s.replaying c = false ∧ s1.logging c = false) :
    s.logged c o x f = .ok (a, s1) := by
  cases o with
  | none => simp only [State.logged, hf]
  | some o =>
    obtain ⟨hlog, hrep, hlog1⟩ := hoff (by simp)
    simp only [State.logged, State.logGate, State.logDone, hlog, hrep, hf, hlog1, Bool.false_eq_true, if_false]

/-- A pop of a scratchpad queue. -/
theorem Env.popQ_spad {s : State} {e : Env} (h : Issuing s e) (m : BitVec 64) {n : Nat} {bs : List Byte}
    (hkind : (e.k.q n).kind = 1) (hheld : (e.k.q n).head < (e.k.q n).tail)
    (hmp : (e.k.q n).mp = true → s.unsettled e.w e.p.lanes = false ∧ s.logging e.t.ctx = false ∧ s.replaying e.t.ctx = false)
    (hread : s.readAt (.spad e.k.core) (e.k.elemAddr (e.k.q n) (e.k.q n).head) (e.k.q n).esz = .ok bs) :
    ∃ s1, e.popQ s m n = .ok (some (bs, s1)) ∧ Learnt e (s.setCrew (e.k.setQ n { e.k.q n with
      head := (e.k.q n).head + 1
      pushers := (e.k.q n).pushers.drop 1 })) s1 := by
  have havail : (e.k.q n).avail ≠ 0 := by rw [QReg.avail, if_pos hkind]; omega
  have hgo : (decide ((e.k.q n).avail = 0) || (decide ((e.k.q n).kind = 1) && (e.k.q n).mp && s.unsettled e.w e.p.lanes))
      = false := by
    rw [decide_eq_false havail, decide_eq_true hkind]
    cases hm : (e.k.q n).mp with
    | true => simp [(hmp hm).1]
    | false => rfl
  let s0 := s.setCrew (e.k.setQ n { e.k.q n with
    head := (e.k.q n).head + 1
    pushers := (e.k.q n).pushers.drop 1 })
  let s1 := s0.orders e.w.id e.p.lanes fun _ o => o.learns ((e.k.q n).pushers.headD (0, .start)).2
  have hlearnt : Learnt e s0 s1 := State.orders_learnt (s := s0) (State.env?_eq h.1).2.1 _
  have hsame : s1.logging e.t.ctx = s.logging e.t.ctx := by
    have hctl : s1.ctl = s.ctl := by rw [← show ({ s1 with waves := s0.waves } : State).ctl = s.ctl by rw [hlearnt.rest]; rfl]
    simp only [State.logging, State.flag, State.reg, hctl]
  refine ⟨s1, ?_, hlearnt⟩
  have hpop : e.popSpad s m n = .ok (bs, s1) := by
    unfold Env.popSpad
    refine State.logged_off (a := bs) (v := ((e.k.q n).pushers.headD (0, .start)).1 + foldWords bs * 2 ^ 32) (bs := []) ?_
      fun ho => ?_
    · rw [hread]
    · have hm : (e.k.q n).mp = true := by
        by_contra hm
        exact ho (if_neg hm)
      obtain ⟨-, hlog, hrep⟩ := hmp hm
      exact ⟨hlog, hrep, hsame.trans hlog⟩
  unfold Env.popQ
  dsimp only
  rw [hgo, if_neg Bool.false_ne_true, if_pos hkind, hpop]

/-- A pop of a port. -/
theorem Env.popQ_port {s : State} {e : Env} (h : Issuing s e) (m : BitVec 64) {n seq : Nat} {ws : List Word}
    {rest : List (Nat × Option (List Word))} (hkind : (e.k.q n).kind ≠ 1)
    (helems : (e.k.q n).elems = (seq, some ws) :: rest) :
    ∃ s1, e.popQ s m n = .ok (some (ws.flatMap fun v => leBytes 4 v.toNat, s1))
      ∧ Learnt e (s.setCrew (e.k.setQ n { e.k.q n with elems := rest })) s1 := by
  have havail : (e.k.q n).avail ≠ 0 := by simp [QReg.avail, hkind, helems]
  have hgo : (decide ((e.k.q n).avail = 0) || (decide ((e.k.q n).kind = 1) && (e.k.q n).mp && s.unsettled e.w e.p.lanes))
      = false := by
    rw [decide_eq_false havail, decide_eq_false hkind]
    rfl
  have hw := (State.env?_eq h.1).2.1
  have hlearnt (f : Nat → Order → Order) := State.orders_learnt (e := e)
    (s := s.setCrew (e.k.setQ n { e.k.q n with elems := rest })) hw f
  unfold Env.popQ
  dsimp only
  rw [hgo, if_neg Bool.false_ne_true, if_neg hkind, helems]
  refine ⟨_, rfl, ?_⟩
  split
  · exact hlearnt _
  · split
    · exact hlearnt _
    · exact .inl rfl

/-- A pop takes the element, and the queue register and the order of the group's accesses are all that changes. -/
theorem Env.popQ_popped {s : State} {e : Env} (h : Issuing s e) (m : BitVec 64) {n : Fin 16} {bs : List Byte} {q' : QReg}
    (hp : Popped s e n bs q') : (e.k.q n.val).kind ≠ 0
      ∧ ∃ s1, e.popQ s m n.val = .ok (some (bs, s1)) ∧ Learnt e (s.setCrew (e.k.setQ n.val q')) s1 := by
  obtain ⟨seq, ws, rest, hkind, helems, rfl, rfl⟩ | ⟨hkind, hheld, hmp, hread, rfl⟩ := hp
  · simp only [List.mem_cons, List.not_mem_nil, or_false] at hkind
    exact ⟨by omega, Env.popQ_port h m (by omega) helems⟩
  · exact ⟨by omega, Env.popQ_spad h m hkind hheld hmp hread⟩

/-! ## Pushes (R191) -/

/-- Bytes of an element: those of the lanes' values, and zeros beyond them. -/
theorem Env.element_getD (e : Env) (m : BitVec 64) {w size : Nat} (hw : 0 < w) (val : Nat → Nat) {i : Nat} (hi : i < size) :
    (e.element m w size val).getD i 0 = if i / w < e.w.width && m.getLsbD (i / w)
      then BitVec.ofNat 8 (val (i / w) / 2 ^ (8 * (i % w))) else 0 := by
  let f (l : Nat) : List Byte := leBytes w (if m.getLsbD l then val l else 0)
  have hf (l : Nat) : (f l).length = w := leBytes_length ..
  have hlen : ((List.range e.w.width).flatMap f).length = e.w.width * w := by simp [List.length_flatMap, hf]
  have htake : (((List.range e.w.width).flatMap f).take size).length = min size (e.w.width * w) := by
    rw [List.length_take, hlen]
  have hdef : e.element m w size val = ((List.range e.w.width).flatMap f).take size
      ++ List.replicate (size - (((List.range e.w.width).flatMap f).take size).length) 0 := rfl
  rw [hdef]
  by_cases hin : i < e.w.width * w
  · have hl : i / w < e.w.width := (Nat.div_lt_iff_lt_mul hw).mpr hin
    rw [List.getD_append _ _ _ _ (by omega), List.getD, List.getElem?_take_of_lt hi, ← List.getD,
      flatMap_range_getD hf 0 hin, leBytes_getD (Nat.mod_lt i hw), decide_eq_true hl, Bool.true_and]
    cases m.getLsbD (i / w) <;> simp
  · have hl : ¬i / w < e.w.width := fun h => hin ((Nat.div_lt_iff_lt_mul hw).mp h)
    rw [List.getD_append_right _ _ _ _ (by omega), decide_eq_false hl, Bool.false_and, if_neg Bool.false_ne_true]
    simp [List.getD]

theorem Env.element_length (e : Env) (m : BitVec 64) (w size : Nat) (val : Nat → Nat) :
    (e.element m w size val).length = size := by
  simp only [Env.element, List.length_append, List.length_replicate, List.length_take]
  omega

/-- Marks beside an engine change no byte of memory. -/
theorem State.threadWrote_keeps (s : State) (x : Actor) (sp : Span) (uo : Bool) :
    SameBytes s (s.threadWrote x sp uo) ∧ (s.threadWrote x sp uo).iss = s.iss := by
  unfold State.threadWrote State.orders
  split
  · exact ⟨fun p => ⟨rfl, rfl⟩, rfl⟩
  · dsimp only
    split <;> exact ⟨fun p => ⟨by cases p <;> rfl, by cases p <;> rfl⟩, rfl⟩

/-- The record of a write changes no byte of memory. -/
theorem State.recordWrite_keeps (s0 s : State) (me : ThreadAt) (p : Place) (a n : Nat) (msgs : List Msg) (rmw logged : Bool) :
    SameBytes s (s0.recordWrite s me p a n msgs rmw logged) ∧ (s0.recordWrite s me p a n msgs rmw logged).iss = s.iss
      ∧ (s0.recordWrite s me p a n msgs rmw logged).crews = s.crews := by
  unfold State.recordWrite State.dropRels
  dsimp only
  split <;> exact ⟨fun p => ⟨by cases p <;> rfl, by cases p <;> rfl⟩, rfl, rfl⟩

theorem State.wakeCrew_keeps (s : State) (k : Crew) :
    SameBytes s ((s.setCrew k).wakeCrew k.id) ∧ ((s.setCrew k).wakeCrew k.id).iss = s.iss := by
  exact ⟨fun p => ⟨by cases p <;> rfl, by cases p <;> rfl⟩, rfl⟩

/-- A write beside its engine leaves a crew's queue registers as they were. -/
theorem State.threadWrote_crew {s : State} {id : Nat} {k : Crew} (hk : s.crew? id = some k) (x : Actor) (sp : Span)
    (uo : Bool) : ∃ k', (s.threadWrote x sp uo).crew? id = some k' ∧ k'.qs = k.qs ∧ k'.id = id := by
  have hid := State.crew?_id hk
  by_cases hnone : (!(s.crews.any fun k => k.reachedBy x.w.crew sp)) = true
  · exact ⟨k, by rw [State.threadWrote, if_pos hnone, hk], rfl, hid⟩
  · let mark (k : Crew) : Crew := if k.reachedBy x.w.crew sp then k.marked ⟨s.nextId, sp, x.w.id, x.l⟩ x else k
    have hmark (k : Crew) : (mark k).id = k.id ∧ (mark k).qs = k.qs := by
      simp only [mark]
      split <;> exact ⟨rfl, rfl⟩
    have hcrews : (s.threadWrote x sp uo).crews = s.crews.map mark := by
      rw [State.threadWrote, if_neg hnone]
      unfold State.orders
      dsimp only
      split <;> rfl
    have hfind : (s.threadWrote x sp uo).crew? id = (s.crew? id).map mark := by
      rw [State.crew?, hcrews, List.find?_map]
      congr 2
      funext k
      simp only [Function.comp, (hmark k).1]
    exact ⟨mark k, by rw [hfind, hk, Option.map_some], (hmark k).2, by rw [(hmark k).1, hid]⟩

/-- What a push needs of the state before it: the crew of the issue, its scratchpad, and no reason to wait. -/
structure PushReady (s : State) (e : Env) (n : Fin 16) : Prop where
  crew : s.crew? e.k.id = some e.k
  shape : e.k.shapeOk = true
  kind : (e.k.q n.val).kind = 1
  room : (e.k.q n.val).tail - (e.k.q n.val).head < (e.k.q n.val).depth
  settled : s.unsettled e.w e.p.lanes = false
  live : s.replaying e.t.ctx = false
  pad : (s.core e.k.core).spad.wf = true
  core : e.k.core < s.cores.length
  readable : ∀ i, i < (e.k.q n.val).esz →
    (s.readAt (.spad e.k.core) (e.k.elemAddr (e.k.q n.val) (e.k.q n.val).tail + i) 1).isOk = true

/-- A push writes the group's element at the tail, and the queue register holds one element more. -/
theorem Env.pushQ_ready {s : State} {e : Env} {n : Fin 16} (h : PushReady s e n) (m : BitVec 64) {w : Nat} (hw : 0 < w)
    (val : Nat → Nat) :
    let q := e.k.q n.val
    let a := e.k.elemAddr q q.tail
    ∃ t k v, e.pushQ s n.val m w val = .ok (some t) ∧ t.iss = s.iss ∧ t.crew? e.k.id = some k
      ∧ k.q n.val = { q with
          tail := q.tail + 1
          pushers := q.pushers ++ [(e.w.wslot, v)] }
      ∧ OtherBytes s t (.spad e.k.core) a q.esz
      ∧ ∀ i, i < q.esz → t.readAt (.spad e.k.core) (a + i) 1 = .ok [
        if i / w < e.w.width && (e.real m).getLsbD (i / w) then BitVec.ofNat 8 (val (i / w) / 2 ^ (8 * (i % w))) else 0] := by
  intro q a
  obtain ⟨hcrew, hshape, hkind, hroom, hsettled, hlive, hpad, hcore, hread⟩ := h
  have hspace : ¬q.space = 0 := by
    have hroom' : q.tail - q.head < q.depth := hroom
    rw [QReg.space, if_pos hkind]
    omega
  have hturn : s.pushTurn e.t.ctx e.w q = true := by simp [State.pushTurn, hlive]
  have hgo : (decide (q.space = 0) || s.unsettled e.w e.p.lanes || !s.pushTurn e.t.ctx e.w q) = false := by
    rw [decide_eq_false hspace, hsettled, hturn]
    rfl
  have hlen := e.element_length (e.real m) w q.esz val
  obtain ⟨s1, hwrite, hother, hbytes⟩ := State.writeAt_spad (bs := e.element (e.real m) w q.esz val) hpad hcore (a := a)
    fun i hi => hread i (by rwa [hlen] at hi)
  rw [hlen] at hother hbytes
  have hquiet := State.writeAt_quiet hwrite
  let s2 := s1.threadWrote (e.groupActor s m) ⟨1, e.k.core * 2 ^ 20 + a, q.esz⟩ false
  obtain ⟨k2, hk2, hqs, hid⟩ : ∃ k', s2.crew? e.k.id = some k' ∧ k'.qs = e.k.qs ∧ k'.id = e.k.id :=
    State.threadWrote_crew ((hquiet.crew? e.k.id).trans hcrew) _ _ _
  let s3 := s.recordWrite s2 (e.w.agent (lowLane m)) (.spad e.k.core) a q.esz [] false false
  have hkeep2 := s1.threadWrote_keeps (e.groupActor s m) ⟨1, e.k.core * 2 ^ 20 + a, q.esz⟩ false
  obtain ⟨hbytes3, hiss3, hcrews3⟩ := s.recordWrite_keeps s2 (e.w.agent (lowLane m)) (.spad e.k.core) a q.esz [] false false
  have hk3 : s3.crew? e.k.id = some k2 := by rw [State.crew?, hcrews3]; exact hk2
  let v : View := ((s3.wave? e.w.id).getD e.w).passes e.p.lanes s3.moment
  let k4 := k2.setQ n.val { q with
    tail := q.tail + 1
    pushers := q.pushers ++ [(e.w.wslot, v)] }
  have hk4id : k4.id = e.k.id := hid
  have hkeep4 := s3.wakeCrew_keeps k4
  rw [hk4id] at hkeep4
  have hsame : SameBytes s1 ((s3.setCrew k4).wakeCrew e.k.id) := hkeep2.1.trans (hbytes3.trans hkeep4.1)
  refine ⟨(s3.setCrew k4).wakeCrew e.k.id, k4, v, ?_, ?_, ?_, ?_, fun p b hb => ?_, fun i hi => ?_⟩
  · unfold Env.pushQ
    dsimp only
    rw [hgo, if_neg Bool.false_ne_true, hwrite]
    show Except.ok (some ((s3.setCrew (((s3.crew? e.k.id).getD e.k).setQ n.val _)).wakeCrew e.k.id)) = _
    rw [hk3]
    rfl
  · rw [hkeep4.2, hiss3, hkeep2.2, ← hquiet]
  · show (s3.setCrew k4).crew? e.k.id = some k4
    rw [← hk4id]
    exact State.crew?_setCrew (by rw [hk4id]; exact hk3)
  · have hset : k4.q n.val = (e.k.setQ n.val { q with
        tail := q.tail + 1
        pushers := q.pushers ++ [(e.w.wslot, v)] }).q n.val := by
      simp only [k4, Crew.q, Crew.setQ, hqs]
    rw [hset, Crew.q_setQ hshape n]
  · rw [hsame.readAt]
    exact hother p b hb
  · rw [hsame.readAt, hbytes i hi, e.element_getD _ hw val hi]

end Sys2Proof.Machine
end

section
/-! mov (spec/05 R127, R128; spec/06 R191): its sources and its destinations, and how a pop goes on to a push. -/

namespace Sys2Proof.Machine

/-! ## Destinations -/

theorem Env.movTo_register (e : Env) (s : State) {x : VMov} (hd : ∀ q, x.d ≠ .q q) (pend : Bool) (val : Nat → Nat) :
    e.movTo s x pend val = if pend then
        .ok (s.setWave (e.pushV (.mov x) x.h x.mod x.d x.ty.wide (fun l => (val l, 0)) ((s.wave? e.w.id).getD e.w)))
      else .ok (e.putV s x.h x.mod x.d x.ty.wide val) := by
  unfold Env.movTo
  split
  · next n hn => exact absurd hn (hd n)
  · rfl

theorem Env.movTo_queue (e : Env) (s : State) {x : VMov} {n : Fin 16} (hd : x.d = .q n) (hg : e.guard x.h ≠ 0)
    (pend : Bool) (val : Nat → Nat) : e.movTo s x pend val =
      if (e.k.q n.val).kind ≠ 1 then e.charge s (e.guard x.h) (queueTrap 0 n.val)
      else if e.real (e.guard x.h) = 0 then .ok s
      else match e.pushQ s n.val (e.exec x.h x.mod) (memBytes x.ty) val with
        | .error y => .error y
        | .ok none => e.hold s (e.pushWhy s n.val)
        | .ok (some t) => .ok t := by
  obtain ⟨g, m, ty, d, a⟩ := x
  subst hd
  exact if_neg hg

theorem Env.movTo_pushed {e : Env} {s t : State} {x : VMov} {n : Fin 16} {val : Nat → Nat} (hd : x.d = .q n)
    (hg : e.guard x.h ≠ 0) (hkind : (e.k.q n.val).kind = 1) (hreal : e.real (e.guard x.h) ≠ 0)
    (ht : e.pushQ s n.val (e.exec x.h x.mod) (memBytes x.ty) val = .ok (some t)) (pend : Bool) :
    e.movTo s x pend val = .ok t := by
  rw [Env.movTo_queue e s hd hg, if_neg (not_not.mpr hkind), if_neg hreal, ht]

/-! ## Sources -/

/-- A source of mov that is no queue register, with its value in each lane (R127, R128). -/
def PlainSource (s : State) (e : Env) (x : VMov) (val : Nat → Nat) : Prop :=
  (∃ i, x.a = .imm i ∧ val = fun _ => if x.ty.bits = 64 then (i.signExtend 64).toNat else i.toNat)
  ∨ ∃ o, x.a = .reg o ∧ (∀ q, o ≠ .q q) ∧ val = fun l => e.src s l (x.ty.bits == 64) o

/-- A mov of a plain source goes to its destination at once. -/
theorem exec_mov_plain {s : State} {e : Env} {x : VMov} {val : Nat → Nat} (h : PlainSource s e x val) :
    ∃ f, exec (.mov x) s = onIssue s f ∧ f e = e.movTo s x false val := by
  obtain ⟨g, m, ty, d, a⟩ := x
  obtain ⟨i, ha, rfl⟩ | ⟨o, ha, ho, rfl⟩ := h
  · obtain rfl : a = .imm i := ha
    refine ⟨_, (rfl : execMov ⟨g, m, ty, d, .imm i⟩ s = _), ?_⟩
    simp only [immInt_eq]
  · obtain rfl : a = .reg o := ha
    refine ⟨_, (rfl : execMov ⟨g, m, ty, d, .reg o⟩ s = _), ?_⟩
    cases o with
    | q n => exact absurd rfl (ho n)
    | _ => rfl

theorem exec_mov_plain_next {s t : State} {e : Env} (he : s.env? = some e) {x : VMov} {val : Nat → Nat}
    (h : PlainSource s e x val) (ht : e.movTo s x false val = .ok t) : exec (.mov x) s = .next t := by
  obtain ⟨f, hrun, hf⟩ := exec_mov_plain h
  exact hrun.trans (onIssue_next he (hf.trans ht))

/-- A plain source moved to v registers, or nowhere. -/
theorem mov_register {s : State} {e : Env} (h : Issuing s e) {x : VMov} (hd : ∀ q, x.d ≠ .q q)
    (hv : VDeclared e x.d (regsOf x.ty)) {val : Nat → Nat} (hs : PlainSource s e x val) :
    VWrites s e (.mov x) x.h x.mod x.d (x.ty.bits == 64) val :=
  ⟨_, exec_mov_plain_next h.1 hs (by rw [Env.movTo_register e s hd, if_neg Bool.false_ne_true]),
    Env.putV_typed h x.h x.mod x.d x.ty val hv⟩

/-! ## Pops (R191) -/

theorem charged_unbound {s : State} {e : Env} (he : s.env? = some e) {x : VMov} {n : Fin 16} (ha : x.a = .reg (.q n))
    (hg : e.guard x.h ≠ 0) (hkind : (e.k.q n.val).kind = 0) :
    Charged s e (.mov x) (e.guard x.h) (queueTrap 0 n.val) := by
  obtain ⟨g, m, ty, d, a⟩ := x
  obtain rfl : a = .reg (.q n) := ha
  exact charged_of_charge he (rfl : execMov ⟨g, m, ty, d, .reg (.q n)⟩ s = _) ((if_neg hg).trans (if_pos hkind))

/-- A pop of an empty queue waits for an element. -/
theorem exec_mov_empty {s : State} {e : Env} (he : s.env? = some e) {x : VMov} {n : Fin 16} (ha : x.a = .reg (.q n))
    (hg : e.guard x.h ≠ 0) (hkind : (e.k.q n.val).kind ≠ 0) (havail : (e.k.q n.val).avail = 0) :
    exec (.mov x) s = .next (s.setWave (e.w.each e.p.lanes fun _ th => { th with run := .hold (.empty n.val) })).stopIssue := by
  obtain ⟨g, m, ty, d, a⟩ := x
  obtain rfl : a = .reg (.q n) := ha
  refine (onIssue_next he ?_ : execMov ⟨g, m, ty, d, .reg (.q n)⟩ s = _)
  dsimp only
  rw [if_neg hg, if_neg hkind, Env.popQ_empty e s _ havail]
  dsimp only
  rw [Env.popWhy, if_pos havail]
  rfl

/-- A pop whose element goes on to its destination. -/
theorem exec_mov_popped {s s1 t : State} {e : Env} (he : s.env? = some e) {x : VMov} {n : Fin 16} {bs : List Byte} {k : Crew}
    (ha : x.a = .reg (.q n)) (hg : e.guard x.h ≠ 0) (hkind : (e.k.q n.val).kind ≠ 0)
    (hpop : e.popQ s (e.guard x.h) n.val = .ok (some (bs, s1))) (hk : s1.crew? e.k.id = some k)
    (ht : { e with k := k }.movTo s1 x true (fun l => fieldOf bs (memBytes x.ty * l) (memBytes x.ty)) = .ok t)
    (hiss : t.iss.isSome = true) : exec (.mov x) s = .next t := by
  obtain ⟨g, m, ty, d, a⟩ := x
  obtain rfl : a = .reg (.q n) := ha
  refine (onIssue_next he ?_ : execMov ⟨g, m, ty, d, .reg (.q n)⟩ s = _)
  dsimp only
  rw [if_neg hg, if_neg hkind, hpop]
  dsimp only
  rw [hk, Option.getD_some, ht]
  exact if_pos hiss

/-- What a pop leaves as it was. -/
theorem Learnt.popped {e : Env} {s s1 : State} {k : Crew} (h : Learnt e (s.setCrew k) s1) :
    SameBytes s s1 ∧ s1.arrivals = s.arrivals ∧ s1.ctl = s.ctl ∧ s1.cores = s.cores ∧ s1.iss = s.iss := by
  obtain rfl | ⟨f, rfl⟩ := h <;> exact ⟨fun p => ⟨by cases p <;> rfl, by cases p <;> rfl⟩, rfl, rfl, rfl, rfl⟩

theorem Learnt.popped_crew {s s1 : State} {e : Env} (h : Issuing s e) {n : Nat} {q : QReg}
    (hl : Learnt e (s.setCrew (e.k.setQ n q)) s1) : s1.crew? e.k.id = some (e.k.setQ n q) := by
  obtain ⟨-, -, hcrew, -, -⟩ := State.env?_eq h.1
  have hid := State.crew?_id hcrew
  rw [hl.crew?]
  exact State.crew?_setCrew (k := e.k.setQ n q) (x := e.k) (by rw [show (e.k.setQ n q).id = e.k.id from rfl, hid]; exact hcrew)

/-- The results that a pop leaves for the executing threads. -/
theorem Env.pushV_popped (e : Env) (x : VMov) (val : Nat → Nat) (w : Wave) :
    e.pushV (.mov x) x.h x.mod x.d x.ty.wide (fun l => (val l, 0)) w =
      { w with out := w.out ++ (lanesOf (e.exec x.h x.mod ||| e.zeroed x.h x.mod)).map fun l =>
        { waiting e (.mov x) (1#64 <<< l) l 0 0 0
            (wordsOf (x.ty.bits == 64) (if (e.exec x.h x.mod).getLsbD l then val l else 0)) with
          dst := x.d
          done := true } } := by
  rw [← Wave.foldl_push]
  unfold Env.pushV
  dsimp only
  congr 1
  funext w l
  cases (e.exec x.h x.mod).getLsbD l with
  | true => simp only [if_true, ite_self]; rfl
  | false => rfl

/-- A pop to registers: the queue register loses its element, and its parts are outstanding results. -/
theorem mov_popped {s : State} {e : Env} (h : Issuing s e) {x : VMov} (hd : ∀ q, x.d ≠ .q q) {n : Fin 16} {bs : List Byte}
    {q' : QReg} (ha : x.a = .reg (.q n)) (hg : e.guard x.h ≠ 0) (hp : Popped s e n bs q') :
    ∃ t w k, exec (.mov x) s = .next t ∧ t.wave? e.w.id = some w ∧ t.crew? e.k.id = some k
      ∧ { t with
          waves := s.waves
          crews := s.crews } = s
      ∧ k.q n.val = q' ∧ { k with qs := e.k.qs } = e.k
      ∧ { w with
          out := e.w.out
          threads := e.w.threads } = e.w
      ∧ (∀ l, l < e.w.width → { w.th l with ord := (e.w.th l).ord } = e.w.th l)
      ∧ w.out = e.w.out ++ (lanesOf (e.exec x.h x.mod ||| e.zeroed x.h x.mod)).map fun l =>
        { waiting e (.mov x) (1#64 <<< l) l 0 0 0 (wordsOf (x.ty.bits == 64) (if (e.exec x.h x.mod).getLsbD l
            then fieldOf bs (memBytes x.ty * l) (memBytes x.ty) else 0)) with
          dst := x.d
          done := true } := by
  obtain ⟨hkind, s1, hpop, hl⟩ := Env.popQ_popped h (e.guard x.h) hp
  have hk := Learnt.popped_crew h hl
  obtain ⟨hiss, hw, -, -, -⟩ := State.env?_eq h.1
  obtain ⟨w, hw1, hrest, hord⟩ := hl.wave hw
  obtain ⟨-, -, -, -, hiss1⟩ := hl.popped
  have hid : w.id = e.w.id := by rw [← hrest]
  have hout : w.out = e.w.out := by rw [← hrest]
  let u : Wave := e.pushV (.mov x) x.h x.mod x.d x.ty.wide (fun l => (fieldOf bs (memBytes x.ty * l) (memBytes x.ty), 0)) w
  have hu := e.pushV_popped x (fun l => fieldOf bs (memBytes x.ty * l) (memBytes x.ty)) w
  have huid : u.id = e.w.id := by
    rw [show u = _ from hu]
    exact hid
  refine ⟨s1.setWave u, u, e.k.setQ n.val q', exec_mov_popped h.1 ha hg hkind hpop hk ?_ ?_, ?_, hk, ?_,
    Crew.q_setQ h.2.2.1 n q', rfl, ?_, fun l _ => ?_, ?_⟩
  · rw [Env.movTo_register _ _ hd, if_pos rfl, hw1]
    rfl
  · rw [show (s1.setWave u).iss = s.iss from hiss1, hiss]
    rfl
  · rw [← huid]
    exact State.wave?_setWave (by rw [huid]; exact hw1)
  · have hs1 := hl.rest
    rw [show s = { s1 with waves := s.waves, crews := s.crews } by
      rw [← show ({ s.setCrew (e.k.setQ n.val q') with crews := s.crews } : State) = s from rfl, ← hs1]]
    rfl
  · rw [show u = _ from hu, ← hrest]
  · rw [show u = _ from hu]
    exact hord l
  · rw [show u = _ from hu, hout]

/-! ## Pushes (R191) -/

theorem State.unsettled_congr {s t : State} (h : t.arrivals = s.arrivals) (w : Wave) (m : BitVec 64) :
    t.unsettled w m = s.unsettled w m := by
  simp only [State.unsettled, State.sending, h]

/-- A push is as ready after a pop of another queue register as before it. -/
theorem PushReady.popped {s s1 : State} {e : Env} (h : Issuing s e) {n m : Fin 16} (hp : PushReady s e n) (hne : m ≠ n)
    {q : QReg} (hl : Learnt e (s.setCrew (e.k.setQ m.val q)) s1) : PushReady s1 { e with k := e.k.setQ m.val q } n := by
  obtain ⟨hbytes, harrivals, hctl, hcores, -⟩ := hl.popped
  have hq : (e.k.setQ m.val q).q n.val = e.k.q n.val := Crew.q_setQ_other (fun he => hne (Fin.ext he.symm)) q
  have haddr : (e.k.setQ m.val q).elemAddr = e.k.elemAddr := rfl
  refine ⟨Learnt.popped_crew h hl, ?_, ?_, ?_, ?_, ?_, ?_, ?_, ?_⟩
  · have hshape := hp.shape
    simp only [Crew.shapeOk, Crew.setQ, List.length_set] at hshape ⊢
    exact hshape
  · rw [hq]
    exact hp.kind
  · rw [hq]
    exact hp.room
  · exact (State.unsettled_congr harrivals e.w e.p.lanes).trans hp.settled
  · have hlive := hp.live
    simp only [State.replaying, State.flag, State.reg, hctl] at hlive ⊢
    exact hlive
  · show (s1.core e.k.core).spad.wf = true
    rw [State.core, hcores]
    exact hp.pad
  · rw [hcores]
    exact hp.core
  · simp only [hq, haddr]
    intro i hi
    rw [hbytes.readAt]
    exact hp.readable i hi

/-- A push to a queue register, of a plain source or of an element that another queue register gives. -/
theorem mov_pushed {s : State} {e : Env} (h : Issuing s e) {x : VMov} {n : Fin 16} {val : Nat → Nat} (hd : x.d = .q n)
    (hg : e.guard x.h ≠ 0) (hreal : e.real (e.guard x.h) ≠ 0) (hw : 0 < memBytes x.ty) (hp : PushReady s e n)
    (hsrc : PlainSource s e x val ∨ ∃ m bs q', x.a = .reg (.q m) ∧ m ≠ n ∧ Popped s e m bs q'
      ∧ val = fun l => fieldOf bs (memBytes x.ty * l) (memBytes x.ty)) :
    let q := e.k.q n.val
    let a := e.k.elemAddr q q.tail
    ∃ t k v, exec (.mov x) s = .next t ∧ t.crew? e.k.id = some k
      ∧ k.q n.val = { q with
          tail := q.tail + 1
          pushers := q.pushers ++ [(e.w.wslot, v)] }
      ∧ OtherBytes s t (.spad e.k.core) a q.esz
      ∧ ∀ i, i < q.esz → t.readAt (.spad e.k.core) (a + i) 1 = .ok [
        if i / memBytes x.ty < e.w.width && (e.real (e.exec x.h x.mod)).getLsbD (i / memBytes x.ty)
        then BitVec.ofNat 8 (val (i / memBytes x.ty) / 2 ^ (8 * (i % memBytes x.ty))) else 0] := by
  intro q a
  obtain hplain | ⟨m, bs, q', ha, hne, hpopped, rfl⟩ := hsrc
  · obtain ⟨t, k, v, hpush, -, hk, hq, hother, hbytes⟩ := Env.pushQ_ready hp (e.exec x.h x.mod) hw val
    exact ⟨t, k, v, exec_mov_plain_next h.1 hplain (Env.movTo_pushed hd hg hp.kind hreal hpush false), hk, hq, hother, hbytes⟩
  · obtain ⟨hkind, s1, hpop, hl⟩ := Env.popQ_popped h (e.guard x.h) hpopped
    have hp1 := hp.popped h hne hl
    obtain ⟨hsame, -, -, -, hiss1⟩ := hl.popped
    have hq1 : (e.k.setQ m.val q').q n.val = q := Crew.q_setQ_other (fun he => hne (Fin.ext he.symm)) q'
    obtain ⟨t, k, v, hpush, hiss, hk, hq, hother, hbytes⟩ := Env.pushQ_ready hp1 (e.exec x.h x.mod) hw
      fun l => fieldOf bs (memBytes x.ty * l) (memBytes x.ty)
    simp only [hq1] at hq hother hbytes
    have hrun : exec (.mov x) s = .next t :=
      exec_mov_popped h.1 ha hg hkind hpop (Learnt.popped_crew h hl)
        (Env.movTo_pushed (e := { e with k := e.k.setQ m.val q' }) hd hg hp1.kind hreal hpush true) (by rw [hiss, hiss1, (State.env?_eq h.1).1]; rfl)
    exact ⟨t, k, v, hrun, hk, hq, fun p b hb => (hother p b hb).trans (hsame.readAt p b 1), hbytes⟩

/-- A push to a queue with no room waits for one. -/
theorem exec_mov_full {s : State} {e : Env} (he : s.env? = some e) {x : VMov} {n : Fin 16} {val : Nat → Nat} (hd : x.d = .q n)
    (hg : e.guard x.h ≠ 0) (hkind : (e.k.q n.val).kind = 1) (hreal : e.real (e.guard x.h) ≠ 0)
    (hfull : (e.k.q n.val).depth ≤ (e.k.q n.val).tail - (e.k.q n.val).head) (hs : PlainSource s e x val) :
    exec (.mov x) s =
      .next (s.setWave (e.w.each e.p.lanes fun _ th => { th with run := .hold (.room n.val 1) })).stopIssue := by
  have hspace : (e.k.q n.val).space = 0 := by
    rw [QReg.space, if_pos hkind]
    omega
  refine exec_mov_plain_next he hs ?_
  rw [Env.movTo_queue e s hd hg, if_neg (not_not.mpr hkind), if_neg hreal]
  simp only [Env.pushQ, hspace, decide_true, Bool.true_or, if_true, Env.pushWhy]
  rfl

/-- A push where the queue register is no scratchpad queue. -/
theorem charged_no_queue {s : State} {e : Env} (he : s.env? = some e) {x : VMov} {n : Fin 16} {val : Nat → Nat}
    (hd : x.d = .q n) (hg : e.guard x.h ≠ 0) (hkind : (e.k.q n.val).kind ≠ 1) (hs : PlainSource s e x val) :
    Charged s e (.mov x) (e.guard x.h) (queueTrap 0 n.val) := by
  obtain ⟨f, hrun, hf⟩ := exec_mov_plain hs
  exact charged_of_charge he hrun (hf.trans (by rw [Env.movTo_queue e s hd hg, if_pos hkind]))

/-- Settles O32: by its source a mov reads registers, an immediate or an element, and by its destination it writes
registers, or an element. That a b64 immediate is sign-extended and that the lowest lane that is no helper takes the
fault are the model's choices (notes/assumptions/20 on R128; notes/assumptions/14). -/
theorem moves : Obligations.Moves := by
  intro s e h x wide n part waits misuse
  have he := h.1
  refine ⟨fun hd hv => ⟨fun o ha ho => mov_register h hd hv (.inr ⟨o, ha, ho, rfl⟩),
      fun i ha => mov_register h hd hv (.inl ⟨i, ha, rfl⟩), fun q bs q' ha hg hp => mov_popped h hd ha hg hp⟩,
    fun q ha hg => ⟨fun hkind => charged_unbound he ha hg hkind, fun hkind havail => exec_mov_empty he ha hg hkind havail⟩,
    fun q0 val hd hg hsrc => ?_⟩
  intro q adr real
  have hplain (hno : ∀ q1, x.a ≠ .reg (.q q1)) : PlainSource s e x val := by
    obtain himm | hreg | ⟨q1, bs, q', ha, -⟩ := hsrc
    · exact .inl himm
    · exact .inr hreg
    · exact absurd ha (hno q1)
  refine ⟨fun hkind hno => charged_no_queue he hd hg hkind (hplain hno), fun hkind hreal hno => ?_,
    fun hkind hreal hroom hsettled hlive hmem hcore hn hread => ?_,
    fun hkind hreal hfull hno => exec_mov_full he hd hg hkind hreal hfull (hplain hno)⟩
  · have hreal' : e.real (e.guard x.h) = 0 := hreal
    refine exec_mov_plain_next he (hplain hno) ?_
    rw [Env.movTo_queue e s hd hg, if_neg (not_not.mpr hkind), if_pos hreal']
  · have hready : PushReady s e q0 := by
      obtain ⟨-, hw, hcrew, -, -⟩ := State.env?_eq he
      exact ⟨by rw [State.crew?_id hcrew]; exact hcrew, h.2.2.1, hkind, hroom, hsettled, hlive, State.memOk_spad hmem hcore,
        hcore, hread⟩
    refine mov_pushed h hd hg hreal hn hready ?_
    obtain himm | hreg | ⟨q1, bs, q', ha, hne, -, hp, hval⟩ := hsrc
    · exact .inl (.inl himm)
    · exact .inl (.inr hreg)
    · exact .inr ⟨q1, bs, q', ha, hne, hp, hval⟩

end Sys2Proof.Machine
end

section
/-! A range of bytes reads as its bytes read one by one (spec/08 R314, R316). -/

namespace Sys2Proof.Machine

theorem Memory.checkFrom_none_iff (f : Fill) (m : Memory) (g n : Nat) :
    m.checkFrom f g n = none ↔ ∀ i, i < n → m.check f (g + i) = none := by
  induction n generalizing g with
  | zero => simp [Memory.checkFrom]
  | succ n ih =>
    rw [Nat.forall_lt_succ_left, Memory.checkFrom, Nat.add_zero]
    cases hg : m.check f g with
    | some y => simp
    | none => simpa [Nat.add_assoc, Nat.add_comm 1] using ih (g + 1)

theorem Memory.checkRange_none_iff (f : Fill) (m : Memory) (a n : Nat) :
    m.checkRange f a n = none ↔ ∀ i, i < n → m.check f ((a + i) / 8) = none := by
  unfold Memory.checkRange
  split
  · next h => simp [h]
  · next h =>
    rw [Memory.checkFrom_none_iff]
    refine ⟨fun hall i hi => ?_, fun hall i hi => ?_⟩
    · have := hall ((a + i) / 8 - a / 8) (by omega)
      rwa [show a / 8 + ((a + i) / 8 - a / 8) = (a + i) / 8 by omega] at this
    · by_cases h0 : i = 0
      · subst h0
        exact hall 0 (by omega)
      · have := hall (8 * (a / 8 + i) - a) (by omega)
        rwa [show (a + (8 * (a / 8 + i) - a)) / 8 = a / 8 + i by omega] at this

theorem Memory.read_eq_ok_iff {f : Fill} {m : Memory} {a n : Nat} {bs : List Byte} : m.read f a n = .ok bs ↔
    (∀ i, i < n → m.check f ((a + i) / 8) = none) ∧ bs = m.bytes f a n := by
  rw [← Memory.checkRange_none_iff, Memory.read]
  cases m.checkRange f a n <;> simp [eq_comm]

/-- A range that reads, byte by byte. -/
theorem State.readAt_eq_ok_iff {s : State} {p : Place} {a n : Nat} {bs : List Byte} : s.readAt p a n = .ok bs ↔
    bs.length = n ∧ ∀ i, i < n → s.readAt p (a + i) 1 = .ok [bs.getD i 0] := by
  have hone (i : Nat) (b : Byte) : s.readAt p (a + i) 1 = .ok [b] ↔
      (s.mem p).check (s.fill p) ((a + i) / 8) = none ∧ b = (s.mem p).byte (s.fill p) (a + i) := by
    rw [State.readAt, Memory.read_one]
    cases (s.mem p).check (s.fill p) ((a + i) / 8) <;> simp [eq_comm]
  simp only [hone]
  rw [State.readAt, Memory.read_eq_ok_iff]
  constructor
  · rintro ⟨hcheck, rfl⟩
    exact ⟨Memory.bytes_length .., fun i hi => ⟨hcheck i hi, Memory.bytes_getD _ _ hi⟩⟩
  · rintro ⟨rfl, hall⟩
    refine ⟨fun i hi => (hall i hi).1, List.ext_getElem (Memory.bytes_length ..).symm fun i hi hi' => ?_⟩
    have := (hall i hi).2
    rw [← Memory.bytes_getD _ _ hi] at this
    simpa [List.getD, hi, hi'] using this

/-- A write to a scratchpad over a range that reads: the bytes stand there, and the others are as before (R276, R316). -/
theorem State.writeAt_spad_read {s : State} (hmem : s.memOk = true) {c a : Nat} {old bs : List Byte}
    (hc : c < s.cores.length) (hold : s.readAt (.spad c) a bs.length = .ok old) :
    ∃ t, s.writeAt (.spad c) a bs = .ok t ∧ OtherBytes s t (.spad c) a bs.length
      ∧ t.readAt (.spad c) a bs.length = .ok bs := by
  obtain ⟨-, hbytes⟩ := State.readAt_eq_ok_iff.mp hold
  obtain ⟨t, hwrite, hother, hread⟩ := State.writeAt_spad (State.memOk_spad hmem hc) hc fun i hi => by
    rw [hbytes i hi]
    rfl
  exact ⟨t, hwrite, hother, State.readAt_eq_ok_iff.mpr ⟨rfl, hread⟩⟩

/-- Steps that change no byte of memory leave what reads beside a write as it was. -/
theorem OtherBytes.trans_same {s t u : State} {p : Place} {a n : Nat} (h : OtherBytes s t p a n) (k : SameBytes t u) :
    OtherBytes s u p a n := fun q b hb => (k.readAt q b 1).trans (h q b hb)

end Sys2Proof.Machine
end

section
/-! Queue registers (spec/06 R192, R193): qbind, qfree and qpoll. -/

namespace Sys2Proof.Machine

theorem bitsOf_toNat (v : Dword) (lo n : Nat) : bitsOf v.toNat lo n = (v.extractLsb' lo n).toNat := by
  rw [BitVec.extractLsb'_toNat, bitsOf]

/-- The fields of a scratchpad queue that keep R192. -/
theorem Env.bindBad_none {e : Env} (s : State) {v : Dword} (h18 : v.extractLsb' 18 6 = 0) (h31 : v.getLsbD 31 = false)
    (h48 : v.extractLsb' 48 16 = 0) (hsize : v.extractLsb' 24 6 ≠ 0) (hdepth : v.extractLsb' 32 16 ≠ 0)
    (halign : (v.extractLsb' 0 18).toNat % 4 = 0)
    (hfits : (v.extractLsb' 0 18).toNat + 4 * (v.extractLsb' 24 6).toNat * (v.extractLsb' 32 16).toNat
      ≤ e.k.hdr.spad * 256) : e.bindBad s v = none := by
  have hbit : bitsOf v.toNat 31 1 = 0 := by
    rw [bitsOf_one, show v.toNat.testBit 31 = false from h31]
    rfl
  have hne {n : Nat} {b : BitVec n} (hb : b ≠ 0) : b.toNat ≠ 0 := fun h0 => hb (BitVec.eq_of_toNat_eq h0)
  have hsize' := hne hsize
  have hdepth' := hne hdepth
  simp only [Env.bindBad, QReg.region, QReg.esz, QReg.depth, hbit, bitsOf_toNat, h18, h48, halign, Crew.window,
    not_lt.mpr hfits, mul_eq_zero, hsize', hdepth', or_self, OfNat.ofNat_ne_zero, if_false]
  rfl

/-- A binding of a register that is bound, or that the header gives another kind. -/
theorem qbind_misuse {s : State} {e : Env} (he : s.env? = some e) {h : Head} (hm : e.guard h ≠ 0) (k : QKind) (n : Fin 16)
    (a : Opd) (hbad : (e.k.q n.val).kind ≠ 0 ∨ getAt e.k.hdr.qkind n.val 0 ≠ k.code) :
    Charged s e (.qbind h k (.q n) a) (e.guard h) (queueTrap 0 n.val) :=
  charged_of_charge he (rfl : execQbind h k (.q n) a s = _)
    ((if_neg hm).trans (if_pos (by rwa [Bool.or_eq_true, decide_eq_true_eq, decide_eq_true_eq])))

/-- A binding that the header allows, of a port or of a scratchpad queue whose fields are well formed. -/
theorem exec_qbind {s : State} {e : Env} (he : s.env? = some e) {h : Head} (hm : e.guard h ≠ 0) (k : QKind) (n : Fin 16)
    (a : Opd) (hfree : (e.k.q n.val).kind = 0) (hkind : getAt e.k.hdr.qkind n.val 0 = k.code) (v : Dword)
    (hv : v = if k = .spad then e.usrc s (e.guard h) a else 0) (hok : k = .spad → e.bindBad s v = none) :
    exec (.qbind h k (.q n) a) s = .next (s.setCrew (e.k.setQ n.val ⟨k.code, v, 0, 0, [], []⟩)) := by
  refine (onIssue_next he ?_ : execQbind h k (.q n) a s = _)
  by_cases hk : k = .spad
  · subst hk
    rw [if_pos rfl] at hv
    subst hv
    simp only [if_neg hm, qNum, hfree, hkind, hok rfl, beq_self_eq_true, if_true, ne_eq, not_true_eq_false, decide_false,
      Bool.or_self, Bool.false_eq_true, if_false]
  · rw [if_neg hk] at hv
    subst hv
    simp only [if_neg hm, qNum, hfree, hkind, beq_iff_eq, hk, if_false, ne_eq, not_true_eq_false, decide_false,
      Bool.or_self, Bool.false_eq_true]

/-- qfree, by what stands in the register. -/
theorem exec_qfree {s : State} {e : Env} (he : s.env? = some e) {h : Head} (hm : e.guard h ≠ 0) (n : Fin 16) :
    ((e.k.q n.val).kind = 0 ∨ (e.k.q n.val).held ≠ 0 → Charged s e (.qfree h (.q n)) (e.guard h) (queueTrap 0 n.val))
    ∧ ((e.k.q n.val).kind ≠ 0 → (e.k.q n.val).held = 0 →
      exec (.qfree h (.q n)) s = .next (s.setCrew (e.k.setQ n.val .unbound))) := by
  refine ⟨fun hbad => charged_of_charge he (rfl : execQfree h (.q n) s = _)
      ((if_neg hm).trans (if_pos (by rwa [Bool.or_eq_true, decide_eq_true_eq, decide_eq_true_eq]))),
    fun hkind hheld => (onIssue_next he ?_ : execQfree h (.q n) s = _)⟩
  simp only [if_neg hm, qNum, hkind, hheld, ne_eq, not_true_eq_false, decide_false, Bool.or_self, Bool.false_eq_true,
    if_false]

/-- qpoll, of a register that is unbound and of one that is bound. -/
theorem exec_qpoll {s : State} {e : Env} (h : Issuing s e) {hd : Head} (hm : e.guard hd ≠ 0) (space : Bool) (d : Opd)
    (n : Fin 16) :
    ((e.k.q n.val).kind = 0 → Charged s e (.qpoll hd space d (.q n)) (e.guard hd) (queueTrap 0 n.val))
    ∧ ((e.k.q n.val).kind ≠ 0 → VDeclared e d 1 → SDeclared e d →
      let c := if space then (e.k.q n.val).space else (e.k.q n.val).avail
      ∃ t, exec (.qpoll hd space d (.q n)) s = .next t
        ∧ GroupResult s t e hd none d false (fun _ => false) c fun _ => c) := by
  refine ⟨fun hkind => charged_of_charge h.1 (rfl : execQpoll hd space d (.q n) s = _)
      ((if_neg hm).trans (if_pos hkind)),
    fun hkind hv hs => ⟨_, (onIssue_next h.1 ((if_neg hm).trans (if_neg hkind)) : execQpoll hd space d (.q n) s = _),
      Env.putAny_result h hd none d false _ _ _ hv hs⟩⟩

/-- Settles O31. That the lowest lane that is no helper takes the fault is the model's choice (notes/assumptions/14). -/
theorem queueRegisters : Obligations.QueueRegisters := by
  intro s e h hd n m hm hm0 q misuse sets
  subst hm
  have he := h.1
  refine ⟨fun k a => ⟨qbind_misuse he hm0 k n a, fun hfree hkind => ⟨fun hk => ?_, fun v hk hv => ?_⟩⟩,
    (exec_qfree he hm0 n).1, (exec_qfree he hm0 n).2, fun space d => ⟨(exec_qpoll h hm0 space d n).1,
      fun hkind hv hs _ => (exec_qpoll h hm0 space d n).2 hkind hv hs⟩⟩
  · exact exec_qbind he hm0 k n a hfree hkind 0 (if_neg hk).symm fun hspad => absurd hspad hk
  · subst hk
    intro h18 h31 h48 hsize hdepth halign hfits
    exact exec_qbind he hm0 .spad n a hfree hkind v (by rw [if_pos rfl, hv]) fun _ =>
      Env.bindBad_none s h18 h31 h48 hsize hdepth halign hfits

end Sys2Proof.Machine
end

section
/-! Named barriers (spec/06 R184), and what wakes a parked thread (spec/04 R112). -/

namespace Sys2Proof.Machine

/-! ## Waking -/

/-- A wave in whose crew something has happened that park waits for. -/
def Wave.roused (w : Wave) (tick : Nat) : Wave := { w with threads := w.threads.map (woken true tick) }

theorem State.wakeCrew_eq (s : State) (crew : Nat) :
    s.wakeCrew crew = { s with waves := s.waves.map fun w => if w.crew == crew then w.roused s.tick else w } := by
  refine congrArg (fun f => { s with waves := s.waves.map f }) (funext fun w => ?_)
  refine congrArg (fun x => if w.crew == crew then x else w) ?_
  refine congrArg (fun f => { w with threads := w.threads.map f }) (funext fun th => ?_)
  have hrelease : released th s.tick = th.release s.tick := by
    rw [Thread.release_eq]
    rfl
  unfold woken
  rw [Bool.not_true, if_neg Bool.false_ne_true, hrelease]
  split
  next hrun => rw [hrun]
  next hrun =>
    split
    next hafter => rw [hafter]; split <;> simp_all
    next hafter => split <;> simp_all

theorem State.wave?_wakeCrew (s : State) (crew id : Nat) :
    (s.wakeCrew crew).wave? id = (s.wave? id).map fun w => if w.crew == crew then w.roused s.tick else w := by
  rw [State.wakeCrew_eq, State.wave?, List.find?_map, State.wave?]
  congr 2
  funext w
  simp only [Function.comp]
  split <;> rfl

theorem woken_off (tick : Nat) (th : Thread) : woken false tick th = th := rfl

theorem Wave.roused_th (w : Wave) (tick : Nat) {l : Nat} (hl : l < w.threads.length) :
    (w.roused tick).th l = woken true tick (w.th l) := by
  simp [Wave.roused, Wave.th, getAt, List.getD, hl]

/-! ## Arrivals (R184) -/

/-- Arrivals that R184 forbids. -/
def Bar.Misused (b : Bar) (count a most : Nat) : Prop :=
  count = 0 ∨ most < count ∨ (b.arrivals ≠ 0 ∧ b.e ≠ count) ∨ count < b.arrivals + a

theorem Bar.arrive_misused {b : Bar} {count a most : Nat} (h : b.Misused count a most) (v : View) :
    b.arrive count a most v = none := by
  unfold Bar.arrive
  simp only [Bool.or_eq_true, Bool.and_eq_true, decide_eq_true_eq]
  obtain h | h | h | h := h
  · rw [if_pos (.inl h)]
  · rw [if_pos (.inr h)]
  · rw [if_pos h, ite_self]
  · rw [if_pos h, ite_self, ite_self]

theorem Bar.arrive_counted {b : Bar} {count a most : Nat} (h : ¬b.Misused count a most) (v : View) :
    ∃ b1, b.arrive count a most v = some b1 ∧ b1.e = count ∧ (b1.arrivals, b1.phase) =
      if b.arrivals + a = count then (0, b.phase + 1) else (b.arrivals + a, b.phase) := by
  simp only [Bar.Misused, not_or] at h
  obtain ⟨h0, hmost, hcount, harrive⟩ := h
  unfold Bar.arrive
  simp only [Bool.or_eq_true, Bool.and_eq_true, decide_eq_true_eq, if_neg (not_or.mpr ⟨h0, hmost⟩), if_neg hcount,
    if_neg harrive]
  split <;> exact ⟨_, rfl, rfl, rfl⟩

/-! ## bar -/

/-- The barrier that a bar names. -/
def Env.barId (e : Env) (s : State) : BarSrc → Nat
  | .reg a _ => (e.usrc s e.p.lanes a).toNat
  | .imm id _ => id.toNat

/-- The count that a bar of arrivals names. -/
def Env.barCount (e : Env) (s : State) : BarSrc → Nat
  | .reg _ c => (e.usrc s e.p.lanes c).toNat
  | .imm _ c => c.toNat

theorem Env.barArgs_eq (e : Env) (s : State) (k : BarKind) (x : BarSrc) :
    (e.barArgs s k x).1 = e.barId s x ∧ (k ≠ .wait → (e.barArgs s k x).2 = e.barCount s x) := by
  cases x with
  | imm id n => exact ⟨rfl, fun _ => rfl⟩
  | reg a c => exact ⟨rfl, fun hk => by simp only [Env.barArgs, beq_iff_eq, if_neg hk, Env.barCount]⟩

section
variable {s : State} {e : Env} {h : Head} {x : BarSrc}

theorem bar_misused {k : BarKind} (he : s.env? = some e) (hm : e.guard h ≠ 0)
    (hbad : e.k.hdr.nbar ≤ e.barId s x ∨ (k ≠ .wait ∧ (getAt e.k.bars (e.barId s x) .idle).Misused (e.barCount s x)
      (lanesOf (e.guard h)).length (e.k.hdr.waves * e.w.width))) :
    Charged s e (.bar h k x) (e.guard h) (barTrap 0 (e.barId s x)) := by
  obtain ⟨hid, hcount⟩ := e.barArgs_eq s k x
  refine charged_of_charge he (rfl : execBar h k x s = _) ?_
  simp only [if_neg hm, hid]
  by_cases hn : e.k.hdr.nbar ≤ e.barId s x
  · rw [if_pos hn]
  · obtain ⟨hk, hbad⟩ := hbad.resolve_left hn
    simp only [if_neg hn, beq_iff_eq, if_neg hk, hcount hk, countLanes, Bar.arrive_misused hbad]

theorem exec_bar_wait (hi : Issuing s e) (hm : e.guard h ≠ 0) (hn : e.barId s x < e.k.hdr.nbar) :
    ∃ t, exec (.bar h .wait x) s = .next t ∧ ThreadsResult s t e (e.guard h) fun _ th =>
      { th with run := .wait (.bar (e.barId s x) (getAt e.k.bars (e.barId s x) .idle).phase false) } := by
  refine ⟨_, (onIssue_next hi.1 ?_ : execBar h .wait x s = _), each_result hi (e.guard h) _⟩
  simp only [if_neg hm, (e.barArgs_eq s .wait x).1, if_neg (not_le.mpr hn), beq_self_eq_true, if_true]

/-- The wave after the arrivals of a bar: of sync its threads wait for the phase. -/
def Env.barWave (e : Env) (m : BitVec 64) (k : BarKind) (id phase : Nat) : Wave :=
  if k == .sync then e.w.each m fun _ th => { th with run := .wait (.bar id phase true) } else e.w

theorem Env.barWave_th (hi : Issuing s e) (m : BitVec 64) (k : BarKind) (id phase : Nat) {l : Nat} (hl : l < e.w.width) :
    l < (e.barWave m k id phase).threads.length ∧ (e.barWave m k id phase).th l =
      if k = .sync ∧ m.getLsbD l = true then { e.w.th l with run := .wait (.bar id phase true) } else e.w.th l := by
  have hlen : l < e.w.threads.length := by rw [Wave.shape_threads hi.2.1]; exact hl
  unfold Env.barWave
  by_cases hk : k = .sync
  · simp only [hk, beq_self_eq_true, if_true, true_and, Wave.each_length, Wave.each_th _ _ _ _ hlen, and_true]
    exact hlen
  · simp only [beq_iff_eq, hk, if_false, false_and, and_true]
    exact hlen

theorem exec_bar_arrive {k : BarKind} (hi : Issuing s e) (hm : e.guard h ≠ 0) (hn : e.barId s x < e.k.hdr.nbar)
    (hk : k ≠ .wait) (hok : ¬(getAt e.k.bars (e.barId s x) .idle).Misused (e.barCount s x)
      (lanesOf (e.guard h)).length (e.k.hdr.waves * e.w.width)) (hsettled : s.unsettled e.w (e.guard h) = false) :
    let b := getAt e.k.bars (e.barId s x) .idle
    let n := b.arrivals + (lanesOf (e.guard h)).length
    ∃ b1, b1.e = e.barCount s x
      ∧ (b1.arrivals, b1.phase) = (if n = e.barCount s x then (0, b.phase + 1) else (n, b.phase))
      ∧ let s1 := (s.setWave (e.barWave (e.guard h) k (e.barId s x) b.phase)).setCrew
          { e.k with bars := e.k.bars.set (e.barId s x) b1 }
        exec (.bar h k x) s = .next (if n = e.barCount s x then s1.wakeCrew e.k.id else s1) := by
  intro b n
  obtain ⟨b1, harrive, hcount, hnow⟩ := Bar.arrive_counted hok (e.w.passes (e.guard h) s.moment)
  refine ⟨b1, hcount, hnow, (onIssue_next hi.1 ?_ : execBar h k x s = _)⟩
  obtain ⟨hid, hargs⟩ := e.barArgs_eq s k x
  have hphase : (b1.phase = b.phase) ↔ ¬n = e.barCount s x := by
    have := congrArg Prod.snd hnow
    dsimp only at this
    split at this <;> simp_all [n, b]
  simp only [if_neg hm, hid, if_neg (not_le.mpr hn), beq_iff_eq, hk, if_false, hargs hk, countLanes, harrive, hsettled,
    Bool.false_eq_true, Env.barWave]
  by_cases hfull : n = e.barCount s x
  · rw [if_neg (fun hp => hphase.mp hp hfull), if_pos hfull]
  · rw [if_pos (hphase.mpr hfull), if_neg hfull]

end

/-- The wave and the crew after the arrivals of a bar, by whether they end the phase. -/
theorem barState_parts {s : State} {e : Env} (hi : Issuing s e) (ends : Bool) (w1 : Wave) (bars : List Bar)
    (hw1 : { w1 with threads := e.w.threads } = e.w) :
    let s1 := (s.setWave w1).setCrew { e.k with bars := bars }
    let t := if ends then s1.wakeCrew e.k.id else s1
    t.crew? e.k.id = some { e.k with bars := bars } ∧ { t with waves := s.waves, crews := s.crews } = s
      ∧ t.wave? e.w.id = some (if ends then w1.roused s.tick else w1) := by
  intro s1 t
  obtain ⟨-, hw, hk, -, -⟩ := State.env?_eq hi.1
  have hcrew := State.crew?_id hk
  have hid : w1.id = e.w.id := by rw [← hw1]
  have hwc : w1.crew = e.k.id := by rw [hcrew, ← hw1]
  have hk1 : s1.crew? e.k.id = some { e.k with bars := bars } :=
    State.crew?_setCrew (k := { e.k with bars := bars }) (x := e.k) (by rw [← hcrew] at hk; exact hk)
  have hw2 : s1.wave? e.w.id = some w1 := by
    rw [← hid]
    exact State.wave?_setWave (by rw [hid]; exact hw)
  cases ends with
  | false => exact ⟨hk1, rfl, hw2⟩
  | true =>
    refine ⟨hk1, rfl, ?_⟩
    show (s1.wakeCrew e.k.id).wave? e.w.id = _
    rw [State.wave?_wakeCrew, hw2, Option.map_some, hwc, if_pos (beq_self_eq_true _)]
    rfl

/-- Settles O29. That the lowest lane that is no helper takes the fault is the model's choice (notes/assumptions/14). -/
theorem barriers : Obligations.Barriers := by
  intro s e hi h k x id count b m arrive hm hm0 hid hcount hb harrive bad
  obtain rfl : id = e.barId s x := by rw [hid]; cases x <;> rfl
  obtain rfl : count = e.barCount s x := by rw [hcount]; cases x <;> rfl
  subst hm hb harrive
  refine ⟨fun hbad => bar_misused hi.1 hm0 hbad, fun hn hk => hk ▸ exec_bar_wait hi hm0 hn, fun hn hk hok hsettled => ?_⟩
  obtain ⟨b1, hb1, hnow, hexec⟩ := exec_bar_arrive hi hm0 hn hk hok hsettled
  let n := (getAt e.k.bars (e.barId s x) .idle).arrivals + (lanesOf (e.guard h)).length
  let w1 := e.barWave (e.guard h) k (e.barId s x) (getAt e.k.bars (e.barId s x) .idle).phase
  have hw1 : { w1 with threads := e.w.threads } = e.w := by
    simp only [w1, Env.barWave]
    split <;> rfl
  obtain ⟨hcrew, hrest, hwave⟩ := barState_parts hi (n == e.barCount s x) w1 (e.k.bars.set (e.barId s x) b1) hw1
  simp only [beq_iff_eq] at hcrew hrest hwave
  refine ⟨_, _, _, b1, hexec, hwave, hcrew, hrest, rfl, rfl, hb1, hnow, fun l hl => ?_⟩
  obtain ⟨hlen, hth⟩ := Env.barWave_th hi (e.guard h) k (e.barId s x) (getAt e.k.bars (e.barId s x) .idle).phase hl
  rw [← hth]
  by_cases hends : n = e.barCount s x
  · rw [if_pos hends, beq_iff_eq.mpr hends]
    exact Wave.roused_th w1 s.tick hlen
  · rw [if_neg hends, beq_eq_false_iff_ne.mpr hends]
    rfl

end Sys2Proof.Machine
end

section
/-! Counters, sync words and chunk bitmaps (spec/06 R185 to R190): cwait and CWAIT_SATISFIED, syarm, sywait, chwait and
chtst. -/

namespace Sys2Proof.Machine

/-! ## Waves whose orders change -/

/-- A wave of which only what its accesses are ordered after has changed. -/
def Reordered (w w' : Wave) : Prop :=
  { w' with threads := w.threads } = w ∧ w'.threads.length = w.threads.length
    ∧ ∀ l, { w'.th l with ord := (w.th l).ord } = w.th l

theorem Reordered.refl (w : Wave) : Reordered w w := ⟨rfl, rfl, fun _ => rfl⟩

theorem Reordered.trans {w w1 w2 : Wave} (h : Reordered w w1) (k : Reordered w1 w2) : Reordered w w2 := by
  obtain ⟨hw, hlen, hth⟩ := h
  obtain ⟨kw, klen, kth⟩ := k
  refine ⟨?_, klen.trans hlen, fun l => ?_⟩
  · rw [← kw] at hw
    exact hw
  · have := kth l
    rw [← hth l, ← this]

theorem Reordered.id {w w' : Wave} (h : Reordered w w') : w'.id = w.id := by
  rw [← h.1]

theorem Wave.orders_reordered (w : Wave) (m : BitVec 64) (f : Nat → Order → Order) : Reordered w (w.orders m f) :=
  ⟨rfl, Wave.each_length .., w.orders_th m f⟩

/-- What threads learn changes nothing but their orders. -/
theorem State.orders_reordered {s : State} {id : Nat} {w : Wave} (hw : s.wave? id = some w) (m : BitVec 64)
    (f : Nat → Order → Order) : SameBesideWave s (s.orders id m f) id
      ∧ ∃ w', (s.orders id m f).wave? id = some w' ∧ Reordered w w' := by
  obtain rfl := State.wave?_id hw
  simp only [State.orders, hw]
  exact ⟨sameBesideWave (w := w.orders m f), _, State.wave?_setWave (w := w.orders m f) hw, w.orders_reordered m f⟩

theorem State.hasRead_reordered {s : State} {w : Wave} (hw : s.wave? w.id = some w) (m : BitVec 64)
    (loc : Option (Place × Nat)) (n tm : Nat) (acq : Option Scope) : SameBesideWave s (s.hasRead w m loc n tm acq) w.id
      ∧ ∃ w', (s.hasRead w m loc n tm acq).wave? w.id = some w' ∧ Reordered w w' := by
  unfold State.hasRead
  split
  · exact ⟨⟨rfl, fun _ _ => rfl⟩, w, hw, .refl w⟩
  · exact State.orders_reordered hw m _

theorem SameBesideWave.trans {s t u : State} {id : Nat} (h : SameBesideWave s t id) (k : SameBesideWave t u id) :
    SameBesideWave s u id := by
  obtain ⟨hs, hw⟩ := h
  obtain ⟨ks, kw⟩ := k
  refine ⟨?_, fun j hj => (kw j hj).trans (hw j hj)⟩
  rw [← ks] at hs
  exact hs

/-! ## cwait (R185) -/

theorem getLsbD_one_shiftLeft (l i : Nat) : (1#64 <<< l).getLsbD i = decide (i = l ∧ i < 64) := by
  simp only [BitVec.getLsbD_shiftLeft, BitVec.getLsbD_one]
  by_cases h : i = l
  · simp [h]
  · simp [h]
    omega

theorem exec_cwait {s : State} {e : Env} (h : Issuing s e) {x : Ctr} (hm : e.guard x.h ≠ 0)
    (hreach : Reaches s e (ctrSpace x.crew) false 8 (addressOf s e (lowLane e.p.lanes) (ctrSpace x.crew) x.a 0)) :
    ∃ t, exec (.cwait x) s = .next t ∧ ThreadsResult s t e (e.guard x.h) fun _ th =>
      { th with run := .wait (.counter x.crew (addressOf s e (lowLane e.p.lanes) (ctrSpace x.crew) x.a 0) (e.syncB s x.b)
        x.scope e.p.slot) } := by
  obtain ⟨tg, htg⟩ := hreach
  refine ⟨_, (onIssue_next h.1 ?_ : execCwait x s = _), each_result h (e.guard x.h) _⟩
  simp only [if_neg hm, Env.syncA_eq, htg]

/-- A read changes no register and no control register. -/
theorem State.readTgt_quiet {s s1 : State} {t : Task} {unit : Nat} {q : List StoreEnt} {tg : Target} {n : Nat}
    {bs : List Byte} (h : s.readTgt t unit q tg n = .ok (bs, s1)) : SameBesideMemory s s1 := by
  unfold State.readTgt State.readVia at h
  split at h
  · split at h
    · cases h
      exact .refl s
    · split at h
      · cases h
      · cases h
        exact .refl s
  · split at h
    · cases h
    · cases h
      exact .refl s
    · dsimp only at h
      split at h
      · cases h
        exact State.noteRead_quiet _ _
      · split at h
        · cases h
        · cases h
          exact State.noteRead_quiet _ _

theorem State.logging_congr {s t : State} (h : t.ctl = s.ctl) (c : Nat) : t.logging c = s.logging c := by
  simp only [State.logging, State.flag, State.reg, h]

theorem SameBesideMemory.ctl {s t : State} (h : SameBesideMemory s t) : t.ctl = s.ctl := by
  unfold SameBesideMemory at h
  rw [← h]

theorem SameBesideWave.ctl {s t : State} {id : Nat} (h : SameBesideWave s t id) : t.ctl = s.ctl := by
  rw [← h.1]

/-- An operation that stops where neither logging nor replay is on. -/
theorem State.logged_off_stop {α : Type} {s : State} {c : Nat} {o : Option LogOp} {x : Nat}
    {f : State → Except Stop (α × Nat × List Byte × State)} {y : Stop} (hf : f s = .error y)
    (hlog : s.logging c = false) (hrep : s.replaying c = false) : s.logged c o x f = .error y := by
  cases o with
  | none => simp only [State.logged, hf]
  | some o => simp only [State.logged, State.logGate, hlog, hrep, hf, Bool.false_eq_true, if_false]

section
variable {s s1 : State} {k : Crew} {t : Task} {w : Wave} {l a target : Nat} {crew : Bool} {sc : Scope} {tg : Target}
  {bs : List Byte} (htg : s.target k t (ctrSpace crew) false 8 a = .ok tg) (hread : s.readTgt t 0 [] tg 8 = .ok (bs, s1))
  (hlog : s.logging t.ctx = false) (hrep : s.replaying t.ctx = false)
include htg hread hlog hrep

/-- A counter that has reached the target: the thread acquires it. -/
theorem State.observe_reached (hw : s.wave? w.id = some w) (hge : target ≤ leNat bs) :
    ∃ s2 w2, s.observe k t w l crew a target sc = .ok s2 ∧ SameBesideWave s1 s2 w.id ∧ s2.wave? w.id = some w2
      ∧ Reordered w w2 := by
  have hquiet := State.readTgt_quiet hread
  have hw1 : s1.wave? w.id = some w := (hquiet.wave? w.id).trans hw
  obtain ⟨hrest, w2, hw2, hsame⟩ := State.hasRead_reordered hw1 (1#64 <<< l) (tg.loc (s.physOf t false tg)) 8 s1.moment
    (effScope (kindOf (s.physOf t false tg)) (some sc))
  refine ⟨_, w2, ?_, hrest, hw2, hsame⟩
  unfold State.observe
  simp only [htg]
  rw [State.logged_off (a := ()) (v := leNat bs) (bs := []) (by simp only [hread, if_pos hge]; rfl) fun _ => ⟨hlog, hrep, ?_⟩]
  rw [State.logging_congr (hrest.ctl.trans hquiet.ctl), hlog]

/-- A counter that has not reached the target: the thread waits on. -/
theorem State.observe_short (hlt : leNat bs < target) : s.observe k t w l crew a target sc = .error .park := by
  unfold State.observe
  simp only [htg]
  rw [State.logged_off_stop (y := .park) (by simp only [hread, if_neg (not_le.mpr hlt)]) hlog hrep]

end

theorem Wave.releaseLane_reordered {w w2 : Wave} (h : Reordered w w2) (r tick : Nat) {l : Nat} (hl : l < w.threads.length) :
    { (w2.releaseLane r tick).th l with ord := (w.th l).ord } =
      if l = r ∧ l < 64 then released (w.th l) tick else w.th l := by
  obtain ⟨-, hlen, hth⟩ := h
  rw [Wave.releaseLane, Wave.each_th _ _ _ _ (hlen ▸ hl), getLsbD_one_shiftLeft]
  by_cases hlane : l = r ∧ l < 64
  · rw [if_pos hlane, decide_eq_true hlane, if_pos rfl]
    rw [← hth l, Thread.release_eq, released]
    dsimp only
    split <;> rfl
  · rw [if_neg hlane, decide_eq_false hlane, if_neg Bool.false_ne_true]
    exact hth l

section
variable {s : State} {r : ThreadRef} {w : Wave} {k : Crew} {t : Task} {crew : Bool} {a target slot : Nat} {sc : Scope}
  (hat : s.waveAt? r.core r.wslot = some w) (hrun : (w.th r.lane).run = .wait (.counter crew a target sc slot))
  (hk : s.crew? w.crew = some k) (ht : s.task? k.task = some t) (hhalt : w.halted = false)
  (hsettled : s.unsettled w (1#64 <<< r.lane) = false)
include hat hrun hk ht hhalt hsettled

theorem exec_cwaitSatisfied_reached {s2 : State} {w2 : Wave} (hobs : s.observe k t w r.lane crew a target sc = .ok s2)
    (hw2 : s2.wave? w.id = some w2) :
    exec (.cwaitSatisfied r) s = .next (s2.setWave (w2.releaseLane r.lane s.tick)) := by
  show execCwaitSatisfied r s = _
  simp only [execCwaitSatisfied, hat, hrun, hk, ht, hhalt, hsettled, hobs, hw2, Option.getD_some, Bool.or_self,
    Bool.false_eq_true, if_false]

theorem exec_cwaitSatisfied_short (hobs : s.observe k t w r.lane crew a target sc = .error .park) :
    exec (.cwaitSatisfied r) s = .fault .notEnabled := by
  show execCwaitSatisfied r s = _
  simp only [execCwaitSatisfied, hat, hrun, hk, ht, hhalt, hsettled, hobs, Bool.or_self, Bool.false_eq_true, if_false]

end

/-- cwait, and its threads that go on. -/
theorem counterWaits : counterWaitsHolds := by
  refine ⟨fun s e h x a m hm hm0 ha hreach => ?_, fun s r w k t0 crew a target sc slot tg bs s1 hat hw hlen hrun hk ht hhalt
    hsettled hlog hrep htg hread => ⟨fun hge => ?_, fun hlt => ?_⟩⟩
  · subst hm ha
    exact exec_cwait h hm0 hreach
  · obtain ⟨s2, w2, hobs, hrest, hw2, hsame⟩ := State.observe_reached (l := r.lane) (sc := sc) htg hread hlog hrep hw hge
    have hid : (w2.releaseLane r.lane s.tick).id = w.id := hsame.id
    refine ⟨_, w2.releaseLane r.lane s.tick, exec_cwaitSatisfied_reached hat hrun hk ht hhalt hsettled hobs hw2,
      hrest.trans ?_, ?_, hsame.1, fun l hl => Wave.releaseLane_reordered hsame r.lane s.tick (hlen ▸ hl)⟩
    · rw [← hid]
      exact sameBesideWave
    · rw [← hid]
      exact State.wave?_setWave (by rw [hid]; exact hw2)
  · exact exec_cwaitSatisfied_short hat hrun hk ht hhalt hsettled (State.observe_short htg hread hlog hrep hlt)

/-! ## Sync words and bitmaps (R186 to R190) -/

theorem Env.syncTgt_ok (e : Env) (s : State) {n a : Nat} (wr : Bool) (hn : 0 < n) (ha : a % n = 0)
    (hw : a + n ≤ e.k.hdr.spad * 256) : e.syncTgt s n wr a = .ok (e.k.spadBase + a) := by
  have hin : a < e.k.window := by
    show a < e.k.hdr.spad * 256
    omega
  have htg : s.target e.k e.t .crew wr n a = .ok (.pad e.k.core (e.k.spadBase + a) a) := by
    simp only [State.target, ha, State.padAt, if_pos hin, ne_eq, not_true_eq_false, if_false]
  rw [Env.syncTgt, htg]
  exact if_pos hw

/-- The accesses of some of a group's threads are performed where all of the group's are. -/
theorem State.unsettled_mono {s : State} {w : Wave} {m m' : BitVec 64} (h : ∀ l, m'.getLsbD l = true → m.getLsbD l = true)
    (hm : s.unsettled w m = false) : s.unsettled w m' = false := by
  simp only [State.unsettled, Bool.or_eq_false_iff, List.any_eq_false, Bool.and_eq_true, bne_iff_ne, ne_eq, and_imp, not_and,
    lanesOf, List.mem_filter, Bool.not_eq_true', Bool.not_eq_true] at hm ⊢
  obtain ⟨hout, hthreads⟩ := hm
  refine ⟨fun p hp hne => hout p hp fun h0 => hne (BitVec.eq_of_getLsbD_eq fun i hi => ?_), fun l hr hl =>
    hthreads l hr (h l hl)⟩
  have hbit := congrArg (fun b => BitVec.getLsbD b i) h0
  simp only [BitVec.getLsbD_and] at hbit ⊢
  cases hm' : m'.getLsbD i with
  | false => simp
  | true => simpa [h i hm'] using hbit

theorem Env.unsettled_real {e : Env} {s : State} {m : BitVec 64} (h : s.unsettled e.w m = false) :
    s.unsettled e.w (e.real m) = false :=
  State.unsettled_mono (fun l hl => by
    rw [Env.real, BitVec.getLsbD_and, Bool.and_eq_true] at hl
    exact hl.1) h

theorem syncAdvance_eq (tgt cnt gen : Nat) :
    ((syncAdvance tgt cnt gen).1, (syncAdvance tgt cnt gen).2.1) = advanced tgt cnt gen := by
  unfold syncAdvance advanced
  simp only [Bool.and_eq_true, decide_eq_true_eq, ne_eq]
  split <;> rfl

/-- A state whose crews and waves alone have changed holds the same bytes. -/
theorem sameBytes_of_rest {s t : State} (h : { t with
    waves := s.waves
    crews := s.crews } = s) : SameBytes s t := fun p => by
  rw [← h]
  exact ⟨by cases p <;> rfl, by cases p <;> rfl⟩

theorem State.wakeCrew_sameBytes (s : State) (crew : Nat) : SameBytes s (s.wakeCrew crew) := sameBytes_of_rest rfl

/-- The rewriting of a sync word whose bytes read right. -/
theorem State.syncWord_ok {s : State} (hmem : s.memOk = true) {crew core a srcCore : Nat} {v : View}
    {f : Nat × Nat × Nat → Nat × Nat × Nat} {w4 : List Byte} (hc : core < s.cores.length)
    (hread : s.readAt (.spad core) a 16 = .ok w4) :
    let x := f (fieldOf w4 0 4, fieldOf w4 4 4, fieldOf w4 12 4)
    let y := advanced x.1 (x.2.1 % 2 ^ 32) (fieldOf w4 8 4)
    ∃ t, s.syncWord crew core a srcCore v f = .ok t ∧ OtherBytes s t (.spad core) a 16
      ∧ t.readAt (.spad core) a 16 = .ok (pack [(4, x.1), (4, y.1), (4, y.2), (4, x.2.2)]) := by
  intro x y
  have hlen : (pack [(4, x.1), (4, y.1), (4, y.2), (4, x.2.2)]).length = 16 := by simp [pack, leBytes_length]
  obtain ⟨s0, hwrite, hother, hbytes⟩ := State.writeAt_spad_read (bs := pack [(4, x.1), (4, y.1), (4, y.2), (4, x.2.2)])
    hmem hc (hlen.symm ▸ hread)
  rw [hlen] at hother hbytes
  suffices h : ∃ t, s.syncWord crew core a srcCore v f = .ok t ∧ SameBytes s0 t by
    obtain ⟨t, ht, hsame⟩ := h
    exact ⟨t, ht, OtherBytes.trans_same hother hsame, (hsame.readAt ..).trans hbytes⟩
  have hy : y = ((syncAdvance x.1 (x.2.1 % 2 ^ 32) (fieldOf w4 8 4)).1, (syncAdvance x.1 (x.2.1 % 2 ^ 32) (fieldOf w4 8 4)).2.1) :=
    (syncAdvance_eq ..).symm
  rw [hy] at hwrite
  simp only [State.syncWord, hread]
  rw [hwrite]
  dsimp only
  split
  · refine ⟨_, rfl, .trans ?_ (State.wakeCrew_sameBytes _ crew)⟩
    repeat' split
    all_goals exact sameBytes_of_rest rfl
  · refine ⟨_, rfl, ?_⟩
    split <;> exact sameBytes_of_rest rfl

theorem chunkTest_iff (any : Bool) (x : Nat) (mask : Dword) : chunkTest any x mask = true ↔
    if any then BitVec.ofNat 64 x &&& mask ≠ 0 else BitVec.ofNat 64 x &&& mask = mask := by
  cases any <;> simp [chunkTest]

section
variable {s : State} {e : Env} (h : Issuing s e) {x : SyncOp} (hm : e.guard x.h ≠ 0)
  (hsettled : s.unsettled e.w (e.guard x.h) = false)
include h hsettled

/-- syarm: TARGET and FLAGS, and the advance. -/
theorem exec_syarm (hmem : s.memOk = true) (ha : e.syncA s .crew x.a % 16 = 0)
    (hin : e.syncA s .crew x.a + 16 ≤ e.k.hdr.spad * 256) {w4 : List Byte} (hreal : e.real (e.guard x.h) ≠ 0)
    (hread : s.readAt (.spad e.k.core) (e.k.spadBase + e.syncA s .crew x.a) 16 = .ok w4) (hc : e.k.core < s.cores.length) :
    let y := advanced (e.syncB s x.b % 2 ^ 32) (fieldOf w4 4 4) (fieldOf w4 8 4)
    ∃ t, exec (.syarm x) s = .next t ∧ OtherBytes s t (.spad e.k.core) (e.k.spadBase + e.syncA s .crew x.a) 16
      ∧ t.readAt (.spad e.k.core) (e.k.spadBase + e.syncA s .crew x.a) 16 = .ok (leBytes 4 (e.syncB s x.b % 2 ^ 32)
        ++ leBytes 4 y.1 ++ leBytes 4 y.2 ++ leBytes 4 (if x.flag then 1 else 0)) := by
  obtain ⟨t, ht, hother, hbytes⟩ := State.syncWord_ok hmem (crew := e.k.id) (srcCore := e.k.core % 8) (v := .start)
    (f := fun y => (e.syncB s x.b % 2 ^ 32, y.2.1, if x.flag then 1 else 0)) hc hread
  refine ⟨t, (onIssue_next h.1 ?_ : execSyarm x s = _), hother, ?_⟩
  · simp only [if_neg hreal, e.syncTgt_ok s true (Nat.succ_pos 15) ha hin, Env.unsettled_real hsettled, ht,
      Bool.false_eq_true, if_false]
  · have hcount : fieldOf w4 4 4 % 2 ^ 32 = fieldOf w4 4 4 := Nat.mod_eq_of_lt (fieldOf_lt w4 4 4)
    simpa only [pack, List.flatMap_cons, List.flatMap_nil, List.append_nil, List.append_assoc, hcount] using hbytes

include hm

theorem exec_sywait (ha : e.syncA s .crew x.a % 16 = 0) (hin : e.syncA s .crew x.a + 16 ≤ e.k.hdr.spad * 256) :
    ∃ t, exec (.sywait x) s = .next t ∧ ThreadsResult s t e (e.guard x.h) fun _ th =>
      { th with run := .wait (.gen (e.k.spadBase + e.syncA s .crew x.a) (e.syncB s x.b % 2 ^ 32)) } := by
  refine ⟨_, (onIssue_next h.1 ?_ : execSywait x s = _), each_result h (e.guard x.h) _⟩
  simp only [if_neg hm, e.syncTgt_ok s false (Nat.succ_pos 15) ha hin, hsettled, Bool.false_eq_true, if_false]

theorem exec_chwait (ha : e.syncA s .crew x.a % 8 = 0) (hin : e.syncA s .crew x.a + 8 ≤ e.k.hdr.spad * 256) :
    ∃ t, exec (.chwait x) s = .next t ∧ ThreadsResult s t e (e.guard x.h) fun _ th =>
      { th with run := .wait (.chunk (e.k.spadBase + e.syncA s .crew x.a) (BitVec.ofNat 64 (e.syncB s x.b)) x.flag) } := by
  refine ⟨_, (onIssue_next h.1 ?_ : execChwait x s = _), each_result h (e.guard x.h) _⟩
  simp only [if_neg hm, e.syncTgt_ok s false (Nat.succ_pos 7) ha hin, hsettled, Bool.false_eq_true, if_false]

/-- chtst: the result of the test, and what the read learns. -/
theorem exec_chtst (ha : e.syncA s .crew x.a % 8 = 0) (hin : e.syncA s .crew x.a + 8 ≤ e.k.hdr.spad * 256) {bs : List Byte}
    (hread : s.readAt (.spad e.k.core) (e.k.spadBase + e.syncA s .crew x.a) 8 = .ok bs) (d : Opd) :
    let r := chunkTest x.flag (leNat bs) (BitVec.ofNat 64 (e.syncB s x.b))
    let after (t : State) : State := t.orders e.w.id (e.guard x.h) fun _ o => o.learns (.upTo s.moment)
    (∀ n, d = .k n → ∃ t, exec (.chtst d x) s = .next (after t) ∧ KResult s t e (e.guard x.h) 0 d fun _ => r)
    ∧ ∀ n, d = .s n → SDeclared e d → ∃ t, exec (.chtst d x) s = .next (after t)
      ∧ SResult s t e true d (if r then 1 else 0) := by
  have htgt := e.syncTgt_ok s false (Nat.succ_pos 7) ha hin
  refine ⟨?_, ?_⟩
  · rintro n rfl
    refine ⟨e.putK s x.h none (.k n) _, (onIssue_next h.1 ?_ : execChtst (.k n) x s = _), Env.putK_result h x.h none _ _⟩
    simp only [if_neg hm, htgt, hsettled, hread, Bool.false_eq_true, if_false]
  · rintro n rfl hd
    have hres := uput_result h x.h (.s n)
      (if chunkTest x.flag (leNat bs) (BitVec.ofNat 64 (e.syncB s x.b)) then 1 else 0) hd
    rw [bne_iff_ne.mpr hm] at hres
    refine ⟨_, (onIssue_next h.1 ?_ : execChtst (.s n) x s = _), hres⟩
    simp only [if_neg hm, htgt, hsettled, hread, Bool.false_eq_true, if_false]

end

/-- syarm, sywait, chwait and chtst. -/
theorem syncWords : syncWordsHolds := by
  intro s e h hmem x a b m hm hm0 hsettled ha hb pad
  obtain rfl : a = e.syncA s .crew x.a := by rw [ha, Env.syncA_eq]
  obtain rfl : b = e.syncB s x.b := hb
  subst hm
  refine ⟨fun hal hin => ⟨exec_sywait h hm0 hsettled hal hin, fun h0 => (onIssue_next h.1 (if_pos h0) : execSyarm x s = _),
    fun w4 hreal hread hc => exec_syarm h hsettled hmem hal hin hreal hread hc⟩,
    fun hal hin => ⟨exec_chwait h hm0 hsettled hal hin, fun bs d hread => ?_⟩⟩
  intro hit after
  obtain ⟨hk, hs⟩ := exec_chtst h hm0 hsettled hal hin hread d
  have hhit := chunkTest_iff x.flag (leNat bs) (BitVec.ofNat 64 (e.syncB s x.b))
  refine ⟨fun n hn => ?_, fun n hn hd => ?_⟩
  · have hdec : decide hit = chunkTest x.flag (leNat bs) (BitVec.ofNat 64 (e.syncB s x.b)) := by
      rw [Bool.eq_iff_iff, decide_eq_true_iff]
      exact hhit.symm
    rw [hdec]
    exact hk n hn
  · obtain ⟨t, ht, hres⟩ := hs n hn hd
    refine ⟨t, ht, ?_⟩
    rwa [if_congr hhit rfl rfl] at hres

/-- Settles O30, for the counters and for the words and bitmaps of a crew's scratchpad. -/
theorem waits : Obligations.Waits := ⟨counterWaits, syncWords⟩

end Sys2Proof.Machine
end

section
/-! Atomic updates of a scratchpad as they are performed (spec/06 R176 to R178, R185): atom, red and cadd. -/

namespace Sys2Proof.Machine

/-! ## New values (R176) -/

theorem atomicTypes_bits {o : AtomOp} {t : Ty} (ht : t ∈ atomicTypes o) : t.bits = 16 ∨ t.bits = 32 ∨ t.bits = 64 := by
  unfold atomicTypes at ht
  split at ht <;> fin_cases ht <;> decide

/-- The update of an element of a type that its operation has. -/
theorem atomNew_eq {o : AtomOp} {t : Ty} (ht : t ∈ atomicTypes o) (old b c : Nat) :
    atomNew o t old b c = atomicValue o t old b c := by
  have hbits := atomicTypes_bits ht
  have hint : ∀ x, intOf t x = valueIn t x := intOf_eq_valueIn (by omega)
  unfold atomNew atomicValue
  simp only [hint]
  cases o
  case add | min | max => fin_cases ht <;> simp [fmtOf, addOf, rne]
  all_goals fin_cases ht <;> simp [fmtOf]

/-! ## The words that an update returns -/

/-- An element of 16 bits that is no integer stands in its register as it is. -/
theorem place_short {o : AtomOp} {t : Ty} (ht : t ∈ atomicTypes o) (hb : t.bits = 16) {v : Nat} (hv : v < 2 ^ 16) :
    place t v = v := by
  unfold atomicTypes at ht
  split at ht <;> fin_cases ht <;> simp [Ty.bits] at hb <;> exact Nat.mod_eq_of_lt hv

theorem wordsOf_spec (wide : Bool) (v : Nat) : (wordsOf wide v).length = (if wide then 2 else 1)
    ∧ ∀ i, i < (if wide then 2 else 1) → (getAt (wordsOf wide v) i 0).toNat = v / 2 ^ (32 * i) % 2 ^ 32 := by
  cases wide with
  | false =>
    refine ⟨rfl, fun i hi => ?_⟩
    obtain rfl : i = 0 := Nat.lt_one_iff.mp hi
    simp [wordsOf, getAt]
  | true =>
    refine ⟨rfl, fun i hi => ?_⟩
    obtain rfl | rfl : i = 0 ∨ i = 1 := by
      have : i < 2 := hi
      omega
    all_goals simp [wordsOf, getAt]

/-- The old value as the words of a result: consecutive words of it, one at least. -/
def oldWords (o : AtomOp) (t : Ty) (v : Nat) : List Word :=
  if o == .cas128 then (List.range 4).map fun i => BitVec.ofNat 32 (v / 2 ^ (32 * i)) else wordsOf t.wide (place t v)

theorem oldWords_spec {o : AtomOp} {t : Ty} (ht : t ∈ atomicTypes o) {n v : Nat} (hn : n = AtomOp.size o t)
    (hv : v < 256 ^ n) : (oldWords o t v).length = max 1 (n / 4)
      ∧ ∀ i, i < max 1 (n / 4) → (getAt (oldWords o t v) i 0).toNat = v / 2 ^ (32 * i) % 2 ^ 32 := by
  subst hn
  unfold oldWords AtomOp.size at *
  by_cases ho : o = .cas128
  · subst ho
    simp only [beq_self_eq_true, if_true]
    refine ⟨rfl, fun i hi => ?_⟩
    have hi' : i < 4 := hi
    simp [getAt, hi']
  · have hb : (o == .cas128) = false := beq_eq_false_iff_ne.mpr ho
    simp only [hb, Bool.false_eq_true, if_false] at hv ⊢
    have hplace : place t v = v := by
      obtain hb | hb | hb := atomicTypes_bits ht <;> rw [hb] at hv
      · exact place_short ht hb hv
      · exact (place_eq_mod (.inl hb) v).trans (Nat.mod_eq_of_lt (by rw [hb]; exact hv))
      · exact (place_eq_mod (.inr hb) v).trans (Nat.mod_eq_of_lt (by rw [hb]; exact hv))
    have hcount : max 1 (t.bits / 8 / 4) = if t.wide then 2 else 1 := by
      obtain hb | hb | hb := atomicTypes_bits ht <;> rw [Ty.wide, hb] <;> rfl
    rw [hplace, hcount]
    exact wordsOf_spec t.wide v

theorem leBytes_mod (n x : Nat) : leBytes n (x % 256 ^ n) = leBytes n x := by
  induction n generalizing x with
  | zero => rfl
  | succ n ih =>
    have hlow : BitVec.ofNat 8 (x % 256 ^ (n + 1)) = BitVec.ofNat 8 x := by
      apply BitVec.eq_of_toNat_eq
      simp only [BitVec.toNat_ofNat]
      exact Nat.mod_mod_of_dvd x (Dvd.intro_left (256 ^ n) rfl)
    rw [leBytes, leBytes, hlow, Nat.pow_succ', Nat.mod_mul_right_div_self, ih]

/-! ## Updates of a scratchpad (R177) -/

theorem State.rmwTgt_pad {s : State} {t : Task} {link : Bool} {c a off n : Nat} {f : List Byte → List Byte}
    {old : List Byte} (hmem : s.memOk = true) (hc : c < s.cores.length) (hread : s.readAt (.spad c) a n = .ok old)
    (hlen : (f old).length = n) : ∃ s1, s.rmwTgt t link (.pad c a off) n f = .ok (old, s1)
      ∧ OtherBytes s s1 (.spad c) a n ∧ s1.readAt (.spad c) a n = .ok (f old) ∧ SameBesideMemory s s1 := by
  obtain ⟨s1, hwrite, hother, hbytes⟩ := State.writeAt_spad_read (bs := f old) hmem hc (hlen.symm ▸ hread)
  rw [hlen] at hother hbytes
  refine ⟨s1, ?_, hother, hbytes, State.writeAt_quiet hwrite⟩
  simp only [State.rmwTgt, hread, hwrite]

theorem State.recordWrite_frame (s0 s : State) (me : ThreadAt) (p : Place) (a n : Nat) (msgs : List Msg) (rmw logged : Bool) :
    (s0.recordWrite s me p a n msgs rmw logged).waves = s.waves ∧ (s0.recordWrite s me p a n msgs rmw logged).ctl = s.ctl := by
  unfold State.recordWrite State.dropRels
  dsimp only
  split <;> exact ⟨rfl, rfl⟩

theorem SameBesideWave.sameBytes {s t : State} {id : Nat} (h : SameBesideWave s t id) : SameBytes s t := fun p => by
  rw [← h.1]
  exact ⟨by cases p <;> rfl, by cases p <;> rfl⟩

/-- The mark of a write beside an engine changes nothing of a wave but the orders of its threads. -/
theorem State.threadWrote_reordered {s : State} {x : Actor} {w : Wave} (hw : s.wave? x.w.id = some w) (sp : Span) (uo : Bool) :
    ∃ w', (s.threadWrote x sp uo).wave? x.w.id = some w' ∧ Reordered w w' := by
  unfold State.threadWrote
  split
  · exact ⟨w, hw, .refl w⟩
  · exact (State.orders_reordered (s := { s with
      nextId := s.nextId + 1
      crews := s.crews.map fun (k : Crew) => if k.reachedBy x.w.crew sp then
        k.marked ⟨s.nextId, sp, x.w.id, x.l⟩ x else k }) hw _ _).2

/-- The record of a write, and what its thread reads with it, change nothing of a wave but the orders of its threads. -/
theorem State.written_reordered {s s1 : State} {w : Wave} {id : Nat} (hw : s1.wave? id = some w) (me : ThreadAt) (p : Place)
    (a n : Nat) (msgs : List Msg) (rmw logged : Bool) (m : BitVec 64) (f : Nat → Order → Order) :
    let s2 := (s.threadWritten s1 me (some (p, a)) n msgs rmw logged).orders id m f
    SameBytes s1 s2 ∧ s2.ctl = s1.ctl ∧ ∃ w2, s2.wave? id = some w2 ∧ Reordered w w2 := by
  obtain ⟨hbytes, -, -⟩ := State.recordWrite_keeps s s1 me p a n msgs rmw logged
  obtain ⟨hwaves, hctl⟩ := State.recordWrite_frame s s1 me p a n msgs rmw logged
  have hw' : (s.recordWrite s1 me p a n msgs rmw logged).wave? id = some w := by
    rw [State.wave?, hwaves]
    exact hw
  obtain ⟨hrest, hwave⟩ := State.orders_reordered hw' m f
  exact ⟨hbytes.trans hrest.sameBytes, hrest.ctl.trans hctl, hwave⟩

/-- A thread's access to a scratchpad, of which nothing else is on its way. -/
structure Alone (s : State) (x : Land) (c a off n : Nat) : Prop where
  wave : s.wave? x.w.id = some x.w
  taint : x.p.taint = false
  queue : x.queue = []
  arriving : s.arriving x.w x.lanes (.pad c a off) n = false
  conflicts : x.actor.conflicts s ((Target.pad c a off).span n) = false
  sending : ∀ l ∈ x.lanes, s.sending x.w l = false

theorem State.sendingRed_false {s : State} {w : Wave} {l : Nat} (h : s.sending w l = false) : s.sendingRed w l = false := by
  simp only [State.sending, State.sendingRed, List.any_eq_false, Bool.and_eq_true, not_and] at h ⊢
  exact fun y hy hsrc _ => h y hy hsrc.1 hsrc.2

/-- A read-modify-write of a scratchpad, in one step: what it answers, the bytes that it leaves, and the wave. -/
theorem State.landRmw_pad {s : State} {x : Land} {c a off n : Nat} (h : Alone s x c a off n) {old : List Byte}
    (hmem : s.memOk = true) (hc : c < s.cores.length) (hread : s.readAt (.spad c) a n = .ok old)
    {f : List Byte → List Byte} (hlen : (f old).length = n) (link : Bool) (o : Option LogOp) (extn : Nat)
    (acq rel : Option Scope) (value : List Byte → List Byte → Nat × List Byte)
    (hlog : s.logging x.t.ctx = false) (hrep : s.replaying x.t.ctx = false) :
    ∃ s1 w, s.landRmw x link (.pad c a off) none n o extn acq rel f value = .ok (old, s1)
      ∧ OtherBytes s s1 (.spad c) a n ∧ s1.readAt (.spad c) a n = .ok (f old)
      ∧ s1.wave? x.w.id = some w ∧ Reordered x.w w := by
  have hopen : x.isOpen s (.pad c a off) n = false := by
    rw [Land.isOpen, h.taint, h.conflicts, Bool.or_self]
  have hsent (g : Bool) (b : Bool) : (g && x.lanes.any (s.sending x.w)) = false ∧ (b && x.lanes.any (s.sendingRed x.w)) = false := by
    refine ⟨?_, ?_⟩ <;> rw [Bool.and_eq_false_iff] <;> refine .inr (List.any_eq_false.mpr fun l hl => ?_)
    · rw [h.sending l hl]; exact Bool.false_ne_true
    · rw [State.sendingRed_false (h.sending l hl)]; exact Bool.false_ne_true
  obtain ⟨s1, hrmw, hother, hbytes, hquiet⟩ := State.rmwTgt_pad (t := x.t) (link := link) (off := off) hmem hc hread hlen
  have hwait : (!x.queue.isEmpty || s.arriving x.w x.lanes (.pad c a off) n
      || ((rel.isSome || kindOf none == .so) && x.lanes.any (s.sending x.w))
      || (o.isSome && x.lanes.any (s.sendingRed x.w))) = false := by
    rw [h.queue, h.arriving, (hsent _ true).1, (hsent true _).2]
    rfl
  unfold State.landRmw
  simp only [hwait, hopen, Bool.false_eq_true, if_false]
  obtain ⟨hsame, hctl, w2, hw2, hord2⟩ := State.written_reordered (s := s) ((hquiet.wave? x.w.id).trans h.wave)
    (x.w.agent x.p.lane) (.spad c) a n ((x.w.th x.p.lane).ord.releases (x.w.agent x.p.lane) s.moment
      (effScope (kindOf none) rel)) true o.isSome x.p.lanes
    fun l d => d.reads s (x.w.agent l) (.spad c) a n s.moment (effScope (kindOf none) acq)
  rw [State.logged_off (a := old) (v := (value old (f old)).1) (bs := (value old (f old)).2) (by simp only [hrmw]; rfl)
    fun _ => ⟨hlog, hrep, (State.logging_congr (hctl.trans hquiet.ctl) _).trans hlog⟩]
  obtain ⟨w3, hw3, hord3⟩ := State.threadWrote_reordered (x := x.actor) hw2 ((Target.pad c a off).span n) (kindOf none == .uo)
  have hall := hsame.trans (State.threadWrote_keeps _ x.actor ((Target.pad c a off).span n) (kindOf none == .uo)).1
  exact ⟨_, w3, rfl, OtherBytes.trans_same hother hall, (hall.readAt ..).trans hbytes, hw3, hord2.trans hord3⟩

/-! ## The landing of an update -/

/-- An access that its wave makes now, and that needs no marker. -/
theorem exec_resultLand_made {s s1 : State} {core wslot pos : Nat} {x : Land} (h : Landing s core wslot pos x)
    (hdone : x.p.done = false) (hland : s.landAt x pos = .ok s1) : exec (.resultLand core wslot pos) s = .next s1 := by
  obtain ⟨hx, -, -, -, hheld, hpart, -⟩ := h
  have hparts : (samples x.p.i && decide (x.p.c = 2)) = false := by
    cases hs : samples x.p.i with
    | false => rfl
    | true => simpa [hs] using hpart hs
  show execResultLand core wslot pos s = _
  simp only [execResultLand, hx, hdone, hheld, hparts, hland, Bool.false_and, Bool.or_self, Bool.false_eq_true, if_false]

/-- An access that is performed leaves its wave. -/
theorem State.landAt_access {s s1 : State} {x : Land} {pos : Nat} (hseg : segmented x.p.i = false)
    (hsamples : samples x.p.i = false) (h : s.landAccess x pos = .ok s1) :
    s.landAt x pos = .ok (s1.dropPend x.w.id pos) := by
  unfold State.landAt
  split
  · next hi => rw [hi] at hseg; cases hseg
  · next hi => rw [hi] at hseg; cases hseg
  · next hi => rw [hi] at hseg; cases hseg
  · rw [hsamples, if_neg Bool.false_ne_true, h]
    rfl

theorem State.dropPend_wave {s : State} {id : Nat} {w : Wave} (hw : s.wave? id = some w) (pos : Nat) :
    SameBytes s (s.dropPend id pos) ∧ (s.dropPend id pos).wave? id = some (w.drop pos) := by
  obtain rfl := State.wave?_id hw
  rw [State.dropPend_eq hw]
  exact ⟨sameBytes_of_rest rfl, State.wave?_setWave (w := w.drop pos) hw⟩

/-- A result that is written leaves memory and the list of results alone. -/
theorem State.result_out {s : State} {id : Nat} {w : Wave} (hw : s.wave? id = some w) (l : Nat) (d : Opd) (ws : List Word) :
    SameBytes s (s.result id l d ws) ∧ ∃ w', (s.result id l d ws).wave? id = some w' ∧ w'.out = w.out := by
  obtain rfl := State.wave?_id hw
  cases d with
  | s n =>
    simp only [State.result, hw, State.landS]
    split
    · exact ⟨sameBytes_of_rest rfl, _, State.wave?_setWave (w := { w with sp := _ }) hw, rfl⟩
    · split <;> exact ⟨sameBytes_of_rest rfl, w, State.wave?_setWave hw, rfl⟩
  | _ =>
    rw [State.result_eq hw (by rintro r ⟨⟩)]
    exact ⟨sameBytes_of_rest rfl, _, State.wave?_setWave (w := w.putRow _ _ _) hw, rfl⟩

section
variable {s : State} {core wslot pos : Nat} {x : Land} {c a off n : Nat} {old : List Byte}

/-- The bytes after an update, and the list of results. -/
def Updated (s : State) (core wslot pos : Nat) (x : Land) (c a n v : Nat) (t : State) : Prop :=
  exec (.resultLand core wslot pos) s = .next t ∧ t.readAt (.spad c) a n = .ok (leBytes n v) ∧ OtherBytes s t (.spad c) a n
    ∧ ∃ w, t.wave? x.w.id = some w ∧ w.out = x.w.out.eraseIdx pos

/-- An update whose access has been made. -/
theorem updated_of_access {s1 s2 : State} {w : Wave} {v : Nat} (h : Landing s core wslot pos x) (hdone : x.p.done = false)
    (hseg : segmented x.p.i = false) (hsamples : samples x.p.i = false) (hland : s.landAccess x pos = .ok s2)
    (hother : OtherBytes s s1 (.spad c) a n) (hbytes : s1.readAt (.spad c) a n = .ok (leBytes n v))
    (hsame : SameBytes s1 s2) (hw : s2.wave? x.w.id = some w) (hout : w.out = x.w.out) :
    Updated s core wslot pos x c a n v (s2.dropPend x.w.id pos) := by
  obtain ⟨hdrop, hwave⟩ := State.dropPend_wave hw pos
  have hall := hsame.trans hdrop
  exact ⟨exec_resultLand_made h hdone (State.landAt_access hseg hsamples hland), (hall.readAt ..).trans hbytes,
    OtherBytes.trans_same hother hall, _, hwave, by rw [Wave.drop, hout]⟩

theorem Reordered.out {w w' : Wave} (h : Reordered w w') : w'.out = w.out := by
  rw [← h.1]

variable (h : Landing s core wslot pos x) (hdone : x.p.done = false) (halone : Alone s x c a off n)
  (hmem : s.memOk = true) (hc : c < s.cores.length) (hread : s.readAt (.spad c) a n = .ok old)
  (hlog : s.logging x.t.ctx = false) (hrep : s.replaying x.t.ctx = false)
include h hdone halone hmem hc hread hlog hrep

/-- atom: the update, and the old value in its register. -/
theorem landed_atom {o : AtomOp} {y : Atom} (hi : x.p.i = .atom o y) (ht : y.ty ∈ atomicTypes o) (hn : n = AtomOp.size o y.ty)
    (htg : s.target x.k x.t y.sp true n x.p.a.toNat = .ok (.pad c a off)) :
    ∃ t, Updated s core wslot pos x c a n (atomicValue o y.ty (leNat old) x.p.b.toNat x.p.c.toNat) t
      ∧ ∀ r, y.d = .v r → r.val + max 1 (n / 4) ≤ x.k.hdr.vregs → ∃ w, t.wave? x.w.id = some w
        ∧ ∀ i, i < max 1 (n / 4) →
          (getAt (w.th x.p.lane).v (r.val + i) 0).toNat = leNat old / 2 ^ (32 * i) % 2 ^ 32 := by
  subst hn
  obtain ⟨s1, w1, hrmw, hother, hbytes, hw1, hsame⟩ := State.landRmw_pad halone hmem hc hread
    (f := fun old => leBytes (AtomOp.size o y.ty) (atomNew o y.ty (leNat old) x.bv x.cv)) (leBytes_length ..)
    (linkNative o y.ty) (some (accessOp 3 (recFlags (.pad c a off) none (ordAcq y.ord) (ordRel y.ord) true true)
      (sizeCode (AtomOp.size o y.ty) + o.code * 8) x.src (.pad c a off) none)) (if o == .cas128 then 1 else 0)
    (acqScope y.ord) (relScope y.ord) (fun old _ => (leNat (old.take 8), old.drop 8)) hlog hrep
  have hland : s.landAccess x pos = .ok (s1.result x.w.id x.p.lane y.d (oldWords o y.ty (leNat old))) := by
    have htgt : x.tgt s y.sp true (AtomOp.size o y.ty) = .ok (.pad c a off) := by
      rw [Land.tgt, Land.av, htg]
      rfl
    have hphys : s.physOf x.t true (.pad c a off) = none := rfl
    unfold State.landAccess
    simp only [hi, State.landAtom, htgt, hphys, hrmw]
    rfl
  obtain ⟨hres, w2, hw2, hout⟩ := State.result_out hw1 x.p.lane y.d (oldWords o y.ty (leNat old))
  rw [atomNew_eq ht] at hbytes
  have hupd := updated_of_access h hdone (by rw [hi]; rfl) (by rw [hi]; rfl) hland hother hbytes hres hw2
    (hout.trans hsame.out)
  refine ⟨_, hupd, fun r hr hin => ?_⟩
  obtain ⟨-, hw, hshape, -, -, -, hlane⟩ := h
  obtain ⟨hwords, hword⟩ := oldWords_spec ht rfl (v := leNat old) (by
    have := leNat_lt old
    rwa [(State.readAt_eq_ok_iff.mp hread).1] at this)
  have hres' := State.result_eq (l := x.p.lane) (d := y.d) (ws := oldWords o y.ty (leNat old)) hw1 (by rw [hr]; rintro q ⟨⟩)
  have hl1 : x.p.lane < w1.threads.length := by
    rw [hsame.2.1, Wave.shape_threads hshape]
    exact hlane
  have hregs : (w1.th x.p.lane).v.length = x.k.hdr.vregs := by
    rw [← Wave.shape_v hshape hlane, ← hsame.2.2 x.p.lane]
  let w3 := w1.putRow (1#64 <<< x.p.lane) y.d fun _ => oldWords o y.ty (leNat old)
  have hw3 : (s1.setWave w3).wave? x.w.id = some w3 := by
    have hid : w3.id = x.w.id := (Wave.putRow_id ..).trans (State.wave?_id hw1)
    rw [← hid]
    exact State.wave?_setWave (by rw [hid]; exact hw1)
  refine ⟨_, (State.dropPend_wave (hres' ▸ hw3) pos).2, fun i hi => ?_⟩
  have hv := Wave.putRow_v w1 (Nat.lt_of_lt_of_le hlane (Wave.shape_width hshape)) y.d (oldWords o y.ty (leNat old))
    (n := r.val + i) hl1 fun q hq => by
      obtain rfl : r = q := Opd.v.inj (hr.symm.trans hq)
      rw [hwords, hregs]
      exact hin
  rw [hr] at hv
  simp only [hwords, true_and, Nat.le_add_right, Nat.add_lt_add_iff_left, hi, if_true, Nat.add_sub_cancel_left] at hv
  rw [← hword i hi, ← hv, ← hr]
  rfl

/-- An update of which nothing returns. -/
theorem landed_update {i : Instr} (hi : x.p.i = i) (hseg : segmented i = false) (hsamples : samples i = false)
    {f : List Byte → List Byte} {v : Nat} (hf : f old = leBytes n v) {link : Bool} {rel : Option Scope}
    (hland : ∀ s1, s.landRmw x link (.pad c a off) none n none 0 none rel f (fun _ new => (leNat new, [])) = .ok (old, s1) →
      s.landAccess x pos = .ok s1) : ∃ t, Updated s core wslot pos x c a n v t := by
  obtain ⟨s1, w1, hrmw, hother, hbytes, hw1, hsame⟩ := State.landRmw_pad halone hmem hc hread (f := f)
    (by rw [hf, leBytes_length]) link none 0 none rel (fun _ new => (leNat new, [])) hlog hrep
  rw [hf] at hbytes
  exact ⟨_, updated_of_access h hdone (by rw [hi, hseg]) (by rw [hi, hsamples]) (hland s1 hrmw) hother hbytes
    (sameBytes_of_rest rfl) hw1 hsame.out⟩

/-- red. -/
theorem landed_red {o : AtomOp} {y : Red} (hi : x.p.i = .red o y) (ht : y.ty ∈ atomicTypes o) (hn : n = AtomOp.size o y.ty)
    (htg : s.target x.k x.t y.sp true n x.p.a.toNat = .ok (.pad c a off)) :
    ∃ t, Updated s core wslot pos x c a n (atomicValue o y.ty (leNat old) x.p.b.toNat 0) t := by
  subst hn
  refine landed_update h hdone halone hmem hc hread hlog hrep hi rfl rfl
    (f := fun old => leBytes (AtomOp.size o y.ty) (atomNew o y.ty (leNat old) x.bv 0)) (by rw [atomNew_eq ht]; rfl)
    (link := linkNative o y.ty) (rel := relScope y.ord) fun s1 hrmw => ?_
  have htgt : x.tgt s y.sp true (AtomOp.size o y.ty) = .ok (.pad c a off) := by
    rw [Land.tgt, Land.av, htg]
    rfl
  unfold State.landAccess
  simp only [hi, State.landRed, htgt, hrmw]

/-- cadd on a counter of the crew. -/
theorem landed_cadd {y : Ctr} (hi : x.p.i = .cadd y) (hcrew : y.crew = true) (hn : n = 8)
    (htg : s.target x.k x.t .crew true 8 x.p.a.toNat = .ok (.pad c a off)) :
    ∃ t, Updated s core wslot pos x c a n ((leNat old + x.p.b.toNat) % 2 ^ 64) t := by
  subst hn
  refine landed_update h hdone halone hmem hc hread hlog hrep hi rfl rfl
    (f := fun old => leBytes 8 (leNat old + x.bv)) (leBytes_mod ..).symm
    (link := true) (rel := some y.scope) fun s1 hrmw => ?_
  have htgt : x.tgt s (ctrSpace y.crew) true 8 = .ok (.pad c a off) := by
    rw [hcrew, Land.tgt, Land.av]
    exact congrArg orTrap htg
  have hphys : s.physOf x.t true (.pad c a off) = none := rfl
  unfold State.landAccess
  simp only [hi, State.landCadd, htgt, hphys]
  rw [if_neg (by decide), hrmw]

end

/-- Settles O25, from the one step in which a scratchpad's bytes are read and written. -/
theorem atomics : Obligations.Atomics := by
  intro s core wslot pos x c a off old n h hdone htaint hqueue harriving hconflicts hlog hrep hread hc hmem hsending done
  have halone : Alone s x c a off n := ⟨h.2.1, htaint, hqueue, harriving, hconflicts, hsending⟩
  have hfinish {v : Nat} : (∃ t, Updated s core wslot pos x c a n v t) → done v := fun ⟨t, hexec, hbytes, hother, hw⟩ =>
    ⟨t, hexec, hbytes, hother, hw⟩
  have hsize {o : AtomOp} {t : Ty} (hn : n = if o = .cas128 then 16 else t.bits / 8) : n = AtomOp.size o t := by
    simpa only [AtomOp.size, beq_iff_eq] using hn
  refine ⟨fun o y hi ht hn htg hin => ?_, fun o y hi ht ho hn htg => hfinish ?_, fun y hi hcrew hn htg => hfinish ?_⟩
  · obtain ⟨t, hupd, hreg⟩ := landed_atom h hdone halone hmem hc hread hlog hrep hi ht (hsize hn) htg
    refine ⟨hfinish ⟨t, hupd⟩, fun r i hr hlt => ?_⟩
    obtain ⟨w, hw, hword⟩ := hreg r hr (hin r hr)
    exact ⟨t, w, hupd.1, hw, hword i hlt⟩
  · exact landed_red h hdone halone hmem hc hread hlog hrep hi ht (hsize (by rw [if_neg ho, hn])) htg
  · exact landed_cadd h hdone halone hmem hc hread hlog hrep hi hcrew hn htg

end Sys2Proof.Machine
end

section
/-! Counted arrivals of a type that their operation does not have (spec/06 R176, R179). -/

namespace Sys2Proof.Machine

/-- An arrival of and.f32 with the bits 1; R176 gives and the types of bits. -/
def floatArrival : Arrival :=
  { crew := 0, core := 0, addr := 0, off := 0, bytes := [1, 0, 0, 0], ty := .f32, op := some .and, sync := 16, srcCore := 0,
    ctx := 0, wslot := 0, lane := 0, slot := 0, issue := 0, agent := ⟨0, 0, 0, 0⟩, mark := [], msgs := [] }

/-- No well-formed redx sends such an arrival. -/
theorem redx_float_illFormed (y : Atom) (hy : y.ty = .f32) : (Instr.redx .and y).WellFormed = false := by
  simp [Instr.WellFormed, Instr.fieldsOk, AtomOp.redTakes, Ty.isB, hy]

/-- The state in which it is on its way, to a scratchpad whose first 32 bytes are 0. -/
def floatState : State := { State.reset with
  cores := [{ Core.reset with spad := ⟨(List.range 32).map fun a => (a, 0), []⟩ }]
  arrivals := [floatArrival] }

/-- The bytes at the arrival's address after a step. -/
def arrivedBytes : Host.Outcome State Fault Refusal → Option (Except Mismatch (List Byte))
  | .next t => some (t.readAt (.spad 0) 0 4)
  | _ => none

/-- The model writes what arrives. -/
theorem floatState_arrives : arrivedBytes (exec (.countedArrival 0) floatState) = some (.ok [1, 0, 0, 0]) := by
  decide +kernel

/-- Refutes O26: the clause about arrivals does not ask that the type be one of the operation's (R176). Of and.f32, which no
well-formed redx sends (`redx_float_illFormed`), the model writes the new bits 1, where the statement has 0 and 1, that is 0. -/
theorem not_countedStores : ¬ Obligations.CountedStores := by
  unfold Obligations.CountedStores
  rintro ⟨harrives, -⟩
  obtain ⟨t, hexec, -, hread, -⟩ := harrives floatState 0 floatArrival (List.replicate 4 0) (List.replicate 16 0) rfl
    (fun _ hb => absurd hb List.not_mem_nil) (by decide +kernel) (by decide) (fun _ => ⟨by decide +kernel, by decide +kernel⟩)
    (by decide +kernel) (by decide +kernel) (by decide)
  have hmodel := floatState_arrives
  rw [hexec] at hmodel
  have hbytes : t.readAt (.spad 0) 0 4 = .ok [1, 0, 0, 0] := Option.some.inj hmodel
  have hclaim : t.readAt (.spad 0) 0 4 = .ok (leBytes 4 (atomicValue .and .f32 0 1 0)) := hread
  rw [hbytes] at hclaim
  exact absurd (Except.ok.inj hclaim) (by decide)

end Sys2Proof.Machine
end

section
/-! A store that leaves the queue of a lane that no wave has (spec/01 R26, spec/09 R276). -/

namespace Sys2Proof.Machine

/-- A wave of 65 threads, of which the last has a store on its way to a scratchpad. -/
def wideWave : Wave := { byteLand.w with
  width := 65
  threads := List.replicate 64 (byteLand.w.th 1) ++ [byteLand.w.th 0]
  out := [] }

/-- No header gives a wave this width (R26). -/
theorem wideWave_misshapen (h : Header) : wideWave.shapeOk h = false := by
  cases hs : wideWave.shapeOk h with
  | false => rfl
  | true => exact absurd (Wave.shape_width hs) (by simp [wideWave])

def wideState : State := { byteState with waves := [wideWave] }

/-- The stores on their way of lane 64 after a step. -/
def lastQueue : Host.Outcome State Fault Refusal → Option (Option (List StoreEnt))
  | .next t => some ((t.wave? 2).map fun w => (w.th 64).storeQ)
  | _ => none

/-- The model erases the store from the threads of a mask of 64 lanes, which lane 64 is not in. -/
theorem wideState_leaves : lastQueue (wideState.leave ⟨0, 0, 64⟩ 0) = some (some [byteStore]) := by decide +kernel

/-- Refutes O24: the clause about stores that leave their queue bounds the lane by the wave's width alone, and does not ask
that the wave have the shape of its header. Of a wave of 65 threads (`wideWave_misshapen`), the store of lane 64 reaches the
scratchpad and stays in its queue. -/
theorem not_stores : ¬ Obligations.Stores := by
  unfold Obligations.Stores
  rintro ⟨-, hleaves⟩
  have hreads (i : Nat) : (wideState.readAt (.spad 0) (byteStore.addr + i) 1).isOk = true :=
    (Memory.read_one_isOk _ _ _).mpr (Memory.check_plain (State.fill_spad_plain ..) _ _)
  obtain ⟨t, w1, hleave, -, -, hw1, hqueue, -⟩ := hleaves wideState ⟨0, 0, 64⟩ 0 wideWave byteLand.k byteLand.t byteStore 0 rfl
    rfl rfl rfl (by simp [wideWave]) (by simp [wideWave]) (by decide +kernel) rfl (by decide +kernel)
    (fun h => absurd h (by decide)) (by decide +kernel) (by decide +kernel) fun i _ => hreads i
  have hmodel := wideState_leaves
  rw [hleave] at hmodel
  have hid : wideWave.id = 2 := rfl
  rw [hid] at hw1
  simp only [lastQueue, hw1, Option.map_some, Option.some.injEq] at hmodel
  rw [hmodel] at hqueue
  exact absurd hqueue (by decide +kernel)

end Sys2Proof.Machine
end

section
/-! Sweeps (spec/06 R170, R171): the segments of swp and itx, their results, and their ends. -/

namespace Sys2Proof.Machine

/-! ## Results of elements (R170) -/

/-- The types of sweeps: the formats of single floats, and integers and bits of a register or two. -/
theorem SwpOp.takes_cases {o : SwpOp} {t : Ty} (ht : o.takes t = true) :
    (t.isFS = true ∧ fmtOf t = some (fmtFor t) ∨ t.isFS = false ∧ fmtOf t = none)
      ∧ (t.bits = 16 ∨ t.bits = 32 ∨ t.bits = 64) := by
  have hclass : (t.isW4 || t.isFS || t.isB) = true := by
    cases o <;> simp only [SwpOp.takes, Bool.or_eq_true] at ht ⊢ <;> simp [ht]
  cases t <;> simp [Ty.isW4, Ty.isFS, Ty.isB, fmtOf, fmtFor, Ty.bits] at hclass ⊢

theorem swpRes_value {o : SwpOp} {t : Ty} (ht : o.takes t = true) (k : Finish) (a b d : Nat) :
    (swpRes o t k a b d).1 = elementResult o t k a b d := by
  obtain ⟨⟨hfs, hfmt⟩ | ⟨hfs, hfmt⟩, hbits⟩ := SwpOp.takes_cases ht
  · cases o <;> simp [swpRes, elementResult, hfs, hfmt, addOf, mulOf, addFlags]
  · have hint (x : Nat) : intOf t x = valueIn t x := intOf_eq_valueIn (by omega) x
    cases o <;> simp [swpRes, elementResult, hfs, hfmt, hint, resultBits_eq]

/-! ## The wave that a segment starts from -/

/-- The issuing wave but for its records, and for the records that threads name or have lost (R174). -/
def Kept (e : Env) (w : Wave) : Prop :=
  { w with
    threads := e.w.threads
    iters := e.w.iters } = e.w ∧ w.threads.length = e.w.threads.length
    ∧ ∀ l, { w.th l with
        mixed := (e.w.th l).mixed
        named := (e.w.th l).named } = e.w.th l
      ∧ (e.p.lanes.getLsbD l = true → (w.th l).mixed = (e.w.th l).mixed)

theorem Kept.refl (e : Env) : Kept e e.w := ⟨rfl, rfl, fun _ => ⟨rfl, fun _ => rfl⟩⟩

/-- The issue with another wave. -/
def Env.withWave (e : Env) (w : Wave) : Env := { e with w := w }

section
variable {e : Env} {w : Wave} (h : Kept e w)
include h

theorem Kept.id : w.id = e.w.id := by rw [← h.1]

theorem Kept.out : w.out = e.w.out := by rw [← h.1]

theorem Kept.fflags : w.fflags = e.w.fflags := by rw [← h.1]

theorem Kept.registers : w.sp = e.w.sp ∧ w.k = e.w.k := by rw [← h.1]; exact ⟨rfl, rfl⟩

theorem Kept.th (l : Nat) : { w.th l with
    mixed := (e.w.th l).mixed
    named := (e.w.th l).named } = e.w.th l := (h.2.2 l).1

theorem Kept.fin (s : State) (l i : Nat) (m : Option Modifier) (f : Fmt) :
    (e.withWave w).fin s l i m f = e.fin s l i m f := by
  have hdraw : (e.withWave w).draw s l = e.draw s l := by
    unfold Env.draw
    rw [← h.th l]
    rfl
  unfold Env.fin
  rw [hdraw]
  rfl

theorem Kept.swept (i : Instr) (slot l operand : Nat) : w.swept i slot l operand = e.w.swept i slot l operand := by
  rw [Wave.swept, Wave.swept, h.out]

theorem Kept.unsettled (s : State) (m : BitVec 64) : s.unsettled w m = s.unsettled e.w m := by
  have hqueue (l : Nat) : (w.th l).storeQ = (e.w.th l).storeQ := by rw [← h.th l]
  have hsend (l : Nat) : s.sending w l = s.sending e.w l := by
    rw [← h.1]
    rfl
  simp only [State.unsettled, h.out, hqueue, hsend]

theorem Kept.lead (l : Nat) : (w.th l).seg = (e.w.th l).seg := by rw [← h.th l]

theorem Kept.segFault (hf : NoFaultMet e) : (e.withWave w).segFault = none := by
  have hfault (l : Nat) : (w.th l).dfault = (e.w.th l).dfault := by rw [← h.th l]
  rw [Env.segFault, List.findSome?_eq_none_iff]
  intro l hl
  rw [Option.filter_eq_none_iff]
  intro t ht
  rw [beq_iff_eq]
  exact hf l t (List.mem_filter.mp hl).2 ((hfault l).symm.trans ht)

end

/-! ## The accesses of a segment -/

theorem foldl_push_some {α : Type} (g : α → Option (Space × Nat)) (q : α → Space × Nat → Pend) (xs : List α) (w : Wave) :
    xs.foldl (fun w x => match g x with
      | some a => w.push (q x a)
      | none => w) w = { w with out := w.out ++ xs.filterMap fun x => (g x).map (q x) } := by
  induction xs generalizing w with
  | nil => simp
  | cons x xs ih =>
    rw [List.foldl_cons, ih]
    cases hx : g x <;> simp [Wave.push, hx]

theorem foldl_push_lists {α : Type} (f : Wave → α → Wave) (ps : α → List Pend)
    (hf : ∀ w x, f w x = { w with out := w.out ++ ps x }) (xs : List α) (w : Wave) :
    xs.foldl f w = { w with out := w.out ++ xs.flatMap ps } := by
  induction xs generalizing w with
  | nil => simp
  | cons x xs ih =>
    rw [List.foldl_cons, ih, hf]
    simp

theorem sweepReads_eq (e : Env) (i : Instr) (o : SwpOp) (xs : List Elem) (w : Wave) :
    sweepReads i e.p.slot (o != .copy) (o == .fma) xs w = { w with out := w.out ++ segmentReads e i o xs } := by
  have hb (y : Elem) : (if o != .copy then y.b else none) = if o = .copy then none else y.b := by
    by_cases ho : o = .copy <;> simp [ho]
  refine foldl_push_lists _ _ (fun w y => ?_) xs w
  rw [hb]
  simp only [beq_iff_eq]
  exact foldl_push_some (fun p : Nat × Option (Space × Nat) => p.2)
    (fun p a => waiting e i (1#64 <<< y.lane) y.lane a.2 0 (p.1 + 256 * a.1.code) []) _ w

/-! ## The parts of a segment -/

/-- A wave whose threads keep their registers and progress. -/
def SameProgress (e : Env) (w : Wave) : Prop :=
  w.id = e.w.id ∧ w.threads.length = e.w.threads.length ∧ w.sp = e.w.sp ∧ w.k = e.w.k
    ∧ ∀ l, (w.th l).v = (e.w.th l).v ∧ (w.th l).pix = (e.w.th l).pix

theorem Kept.sameProgress {e : Env} {w : Wave} (h : Kept e w) : SameProgress e w :=
  ⟨h.id, h.2.1, h.registers.1, h.registers.2, fun l => by rw [← h.th l]; exact ⟨rfl, rfl⟩⟩

/-- A part of a segment that ends with the group waiting at its slot. -/
theorem Env.midway_waits {s : State} {e : Env} (h : Issuing s e) {w : Wave} (hw : SameProgress e w) (seg : Nat) (y : Why) :
    ∃ t w', e.midway s w seg y = .ok t ∧ Midway s t e seg w.out ∧ t.wave? e.w.id = some w' ∧ w'.out = w.out
      ∧ w'.fflags = w.fflags ∧ w'.iters = w.iters
      ∧ ∀ l, l < e.w.width → (w'.th l).v = (e.w.th l).v ∧ (e.p.lanes.getLsbD l = true → (w'.th l).seg = seg) := by
  obtain ⟨hid, hlen, hsp, hk, hth⟩ := hw
  obtain ⟨-, hwave, -, -, -⟩ := State.env?_eq h.1
  let w2 := w.each e.p.lanes fun _ th => { th with
    run := .hold y
    seg := seg }
  have hw2 : w2.id = e.w.id := hid
  have hwave2 : (s.setWave w2).stopIssue.wave? e.w.id = some w2 := by
    rw [← hw2]
    exact State.wave?_setWave (s := s) (by rw [hw2]; exact hwave)
  have hth2 (l : Nat) (hl : l < e.w.width) : (w2.th l).v = (e.w.th l).v ∧ (e.p.lanes.getLsbD l = true →
      (w2.th l).seg = seg ∧ (w2.th l).pix = (e.w.th l).pix ∧ ∃ y, (w2.th l).run = .hold y) := by
    rw [Wave.each_th _ _ _ _ (by rw [hlen, Wave.shape_threads h.2.1]; exact hl)]
    split
    · exact ⟨(hth l).1, fun _ => ⟨rfl, (hth l).2, _, rfl⟩⟩
    · next hoff => exact ⟨(hth l).1, fun hon => absurd hon hoff⟩
  refine ⟨_, w2, rfl, ⟨rfl, rfl, fun j hj => ?_, w2, hwave2, rfl, hsp, hk, hth2⟩, hwave2, rfl, rfl, rfl,
    fun l hl => ⟨(hth2 l hl).1, fun hon => ((hth2 l hl).2 hon).1⟩⟩
  exact State.wave?_setWave_other (s := s) (w := w2) (by rw [hw2]; exact hj)

/-- The end of a unit: the next one is due, or the instruction is complete. -/
theorem Env.boundary_done {s : State} {e : Env} (h : Issuing s e) {w : Wave} (hid : w.id = e.w.id)
    (hlen : w.threads.length = e.w.threads.length) (k n : Nat) :
    ∃ t w', e.boundary s w (k + 1) n = .ok t ∧ UnitDone e t k n ∧ t.wave? e.w.id = some w' ∧ w'.iters = w.iters
      ∧ ∀ l, l < e.w.width → (w'.th l).v = (w.th l).v ∧ (w'.th l).rngc = (w.th l).rngc := by
  obtain ⟨hiss, hwave, -, -, -⟩ := State.env?_eq h.1
  have hset (x : Dword) : ((s.setWave (e.setPix w x)).wave? e.w.id = some (e.setPix w x)) := by
    rw [← hid]
    exact State.wave?_setWave (w := e.setPix w x) (by rw [show (e.setPix w x).id = e.w.id from hid]; exact hwave)
  have hth (x : Dword) (l : Nat) (hl : l < e.w.width) : ((e.setPix w x).th l).v = (w.th l).v
      ∧ ((e.setPix w x).th l).rngc = (w.th l).rngc
      ∧ (e.p.lanes.getLsbD l = true → ((e.setPix w x).th l).pix = x) := by
    rw [Env.setPix, Wave.each_th _ _ _ _ (by rw [hlen, Wave.shape_threads h.2.1]; exact hl)]
    split
    · exact ⟨rfl, rfl, fun _ => rfl⟩
    · next hoff => exact ⟨rfl, rfl, fun hon => absurd hon hoff⟩
  unfold Env.boundary
  by_cases hlt : k + 1 < n
  · refine ⟨_, e.setPix w (pixAt (k + 1)), if_pos hlt, ⟨by rw [if_pos hlt]; rfl, _, hset _, fun l hl hon => ?_⟩, hset _, rfl,
      fun l hl => ⟨(hth _ l hl).1, (hth _ l hl).2.1⟩⟩
    rw [(hth _ l hl).2.2 hon, if_pos hlt, pixAt]
  · refine ⟨_, e.setPix w 0, if_neg hlt, ⟨by rw [if_neg hlt]; exact hiss, _, hset _, fun l hl hon => ?_⟩, hset _, rfl,
      fun l hl => ⟨(hth _ l hl).1, (hth _ l hl).2.1⟩⟩
    rw [(hth _ l hl).2.2 hon, if_neg hlt]

/-! ## The results of a segment (R171) -/

/-- A thread of a group that executes and is no helper. -/
theorem Env.real_lane {e : Env} {hd : Head} {l : Nat} (h : (e.real (e.guard hd)).getLsbD l = true) :
    e.p.lanes.getLsbD l = true ∧ l < 64 ∧ (e.w.th l).helper = false := by
  have h64 : l < 64 := BitVec.lt_of_getLsbD h
  have hhelper : e.w.helperMask.getLsbD l = (e.w.th l).helper := by
    simp only [Wave.helperMask, BitVec.getLsbD_ofFnLE, h64, dite_true, Wave.th, getAt, List.getD]
    cases e.w.threads[l]? <;> rfl
  rw [Env.real, BitVec.getLsbD_and, BitVec.getLsbD_not, Env.guard, BitVec.getLsbD_and, hhelper] at h
  simp only [Bool.and_eq_true, h64, decide_true, true_and, Bool.not_eq_true'] at h
  exact ⟨h.1.1, h64, h.2⟩

/-- The result of an element: UNDEFINED where another group took its record, or where an interrupted fma reads D again that
it shares with a source (R171, R174). -/
def Env.sweptResult (e : Env) (s : State) (i : Instr) (o : SwpOp) (t : Ty) (xs : List Elem) (x : Elem) : Res :=
  let v (operand : Nat) : Nat := e.w.swept i e.p.slot x.lane operand
  let r := swpRes o t (e.fin s x.lane 0 none (fmtFor t)) (v 0) (v 1) (v 2)
  let th := e.w.th x.lane
  if th.mixed || (th.again && o == .fma && overlaps (memBytes t) xs x) then
    ((s.fresh (e.tag x.lane 0xC0)).toNat % 2 ^ t.bits, r.2)
  else r

theorem Env.sweepRes_eq (e : Env) (s : State) (i : Instr) (o : SwpOp) (t : Ty) (xs : List Elem) :
    e.sweepRes s i o t xs = xs.map fun x => (x, e.sweptResult s i o t xs x) := by
  refine List.map_congr_left fun x _ => ?_
  unfold Env.sweptResult
  dsimp only
  split <;> rfl

/-- The flags of an element are its result's, whatever its value. -/
theorem Env.sweptResult_flags (e : Env) (s : State) (i : Instr) (o : SwpOp) (t : Ty) (xs : List Elem) (x : Elem) :
    (e.sweptResult s i o t xs x).2 = (swpRes o t (e.fin s x.lane 0 none (fmtFor t)) (e.w.swept i e.p.slot x.lane 0)
      (e.w.swept i e.p.slot x.lane 1) (e.w.swept i e.p.slot x.lane 2)).2 := by
  unfold Env.sweptResult
  dsimp only
  split <;> rfl

theorem Env.sweptResult_value (e : Env) (s : State) (i : Instr) {o : SwpOp} {t : Ty} (ht : o.takes t = true)
    (xs : List Elem) {x : Elem} (hmixed : (e.w.th x.lane).mixed = false) (hagain : (e.w.th x.lane).again = false ∨ o ≠ .fma) :
    (e.sweptResult s i o t xs x).1 = elementResult o t (e.fin s x.lane 0 none (fmtFor t)) (e.w.swept i e.p.slot x.lane 0)
      (e.w.swept i e.p.slot x.lane 1) (e.w.swept i e.p.slot x.lane 2) := by
  have hdefined : ((e.w.th x.lane).mixed || ((e.w.th x.lane).again && o == .fma && overlaps (memBytes t) xs x)) = false := by
    obtain hagain | hagain := hagain <;> simp [hmixed, hagain]
  unfold Env.sweptResult
  dsimp only
  rw [hdefined, if_neg Bool.false_ne_true, swpRes_value ht]

/-- The writes of a segment: its accesses, and its flags. -/
theorem Env.sweepWrites_eq (e : Env) (s : State) (i : Instr) (o : SwpOp) (t : Ty) (xs : List Elem) :
    let val (y : Elem) : Nat := (e.sweptResult s i o t xs y).1
    e.sweepWrites s i o t xs = { (e.w.orFlags (maskOf fun l => xs.any fun x => x.lane == l) fun l =>
        match (e.sweepRes s i o t xs).find? fun p => p.1.lane == l with
        | some p => p.2.2
        | none => 0) with
      out := (e.w.out.filter fun p => !(p.done && p.slot == e.p.slot && p.i == i && p.lanes &&& e.p.lanes != 0))
        ++ xs.filterMap fun y => y.d.map fun a => waiting e i (1#64 <<< y.lane) y.lane a.2 (val y) (3 + 256 * a.1.code) [] } := by
  intro val
  refine (foldl_push_some (fun p : Elem × Res => p.1.d)
    (fun p a => waiting e i (1#64 <<< p.1.lane) p.1.lane a.2 p.2.1 (3 + 256 * a.1.code) []) _ _).trans ?_
  rw [Env.sweepRes_eq, List.filterMap_map]
  rfl

theorem Env.sweepWrites_flags (e : Env) (s : State) (i : Instr) (o : SwpOp) (t : Ty) {xs : List Elem}
    (hxs : ∀ y ∈ xs, y.lane < 64 ∧ (e.w.th y.lane).helper = false) (b : Nat) :
    (e.sweepWrites s i o t xs).fflags.getLsbD b = (e.w.fflags.getLsbD b || xs.any fun y =>
      (swpRes o t (e.fin s y.lane 0 none (fmtFor t)) (e.w.swept i e.p.slot y.lane 0) (e.w.swept i e.p.slot y.lane 1)
        (e.w.swept i e.p.slot y.lane 2)).2.getLsbD b) := by
  let flags (l : Nat) : Dword := (swpRes o t (e.fin s l 0 none (fmtFor t)) (e.w.swept i e.p.slot l 0)
    (e.w.swept i e.p.slot l 1) (e.w.swept i e.p.slot l 2)).2
  have hfind {y : Elem} (hy : y ∈ xs) : (match (e.sweepRes s i o t xs).find? fun p => p.1.lane == y.lane with
      | some p => p.2.2
      | none => 0) = flags y.lane := by
    rw [Env.sweepRes_eq, List.find?_map]
    cases hf : xs.find? ((fun p : Elem × Res => p.1.lane == y.lane) ∘ fun x => (x, e.sweptResult s i o t xs x)) with
    | none => exact absurd (beq_self_eq_true y.lane) (List.find?_eq_none.mp hf y hy)
    | some z =>
      have hz : z.lane = y.lane := by simpa using List.find?_some hf
      show (e.sweptResult s i o t xs z).2 = _
      rw [Env.sweptResult_flags, hz]
  rw [Env.sweepWrites_eq]
  refine (orFlags_eq ..).trans (congrArg (e.w.fflags.getLsbD b || ·) ?_)
  rw [Bool.eq_iff_iff, List.any_eq_true, List.any_eq_true]
  constructor
  · rintro ⟨l, hl, hb⟩
    simp only [Bool.and_eq_true, maskOf_get _ _ (List.mem_range.mp hl), List.any_eq_true, beq_iff_eq] at hb
    obtain ⟨⟨⟨y, hy, rfl⟩, -⟩, hbit⟩ := hb
    rw [hfind hy] at hbit
    exact ⟨y, hy, hbit⟩
  · rintro ⟨y, hy, hbit⟩
    obtain ⟨h64, hhelper⟩ := hxs y hy
    have hany : (xs.any fun x => x.lane == y.lane) = true := List.any_eq_true.mpr ⟨y, hy, beq_self_eq_true _⟩
    refine ⟨y.lane, List.mem_range.mpr h64, ?_⟩
    rw [hfind hy, maskOf_get _ _ h64, hhelper, hany]
    exact hbit

/-! ## One issue of a sweep -/

theorem swpRounds_iff {o : SwpOp} {t : Ty} (ht : o.takes t = true) :
    swpRounds o t = true ↔ t.isFS = true ∧ o ∈ [SwpOp.add, .sub, .mul, .fma] := by
  obtain ⟨⟨hfs, hfmt⟩ | ⟨hfs, hfmt⟩, -⟩ := SwpOp.takes_cases ht
  · simp [swpRounds, hfs, hfmt, or_assoc]
  · simp [swpRounds, hfs, hfmt]

section
variable {s : State} {e : Env} {w : Wave} {i : Instr} {o : SwpOp} {ty : Ty} {hd : Head} {xs : List Elem} {k n : Nat}
  (h : Issuing s e) (hk : Kept e w) (hf : NoFaultMet e)
include h hk hf

/-- The reads of a segment. -/
theorem Env.sweep_reads (act : BitVec 64) (fin : Wave → Wave) (hseg : (e.w.th (lowLane e.p.lanes)).seg = 0) :
    ∃ t w', (e.withWave w).sweep s i o ty act (.ok xs) k n fin = .ok t
      ∧ Midway s t e 1 (e.w.out ++ segmentReads e i o xs) ∧ t.wave? e.w.id = some w' ∧ w'.iters = w.iters := by
  have hlead : (e.withWave w).lead1.seg = 0 := (hk.lead _).trans hseg
  obtain ⟨t, w', ht, hmid, hw', -, -, hit, -⟩ := Env.midway_waits h
    (w := { w with out := w.out ++ segmentReads e i o xs }) hk.sameProgress 1 .land
  refine ⟨t, w', ?_, hk.out ▸ hmid, hw', hit⟩
  rw [← ht]
  unfold Env.sweep
  rw [hk.segFault hf]
  simp only [hlead, OfNat.zero_ne_ofNat, if_false, if_true]
  exact congrArg (fun u => e.midway s u 1 .land) (sweepReads_eq e i o xs w)

/-- The results of a segment. -/
theorem Env.sweep_writes (ht : o.takes ty = true) (act : BitVec 64) (fin : Wave → Wave)
    (hseg : (e.w.th (lowLane e.p.lanes)).seg = 1) (hxs : ∀ y ∈ xs, (e.real (e.guard hd)).getLsbD y.lane = true) :
    ∃ t, (e.withWave w).sweep s i o ty act (.ok xs) k n fin = .ok t ∧ SegmentWrites s t e i o ty xs := by
  have hlead : (e.withWave w).lead1.seg = 1 := (hk.lead _).trans hseg
  have heq := (e.withWave w).sweepWrites_eq s i o ty xs
  have hflags := (e.withWave w).sweepWrites_flags s i o ty (xs := xs) fun y hy => by
    obtain ⟨-, h64, hhelper⟩ := Env.real_lane (hxs y hy)
    refine ⟨h64, ?_⟩
    rw [← hhelper, ← hk.th y.lane]
    rfl
  have hsame : SameProgress e ((e.withWave w).sweepWrites s i o ty xs) := by
    rw [heq]
    exact hk.sameProgress
  obtain ⟨t, w', hnext, hmid, hw', hout, hfl, -, hth⟩ := Env.midway_waits h hsame 2 .drain
  refine ⟨t, ?_, fun y => ((e.withWave w).sweptResult s i o ty xs y).1, w', hmid.1, hw', fun y hy hmixed hagain => ?_, ?_,
    fun b => ?_, hth⟩
  · rw [← hnext]
    unfold Env.sweep
    rw [hk.segFault hf]
    simp only [hlead]
    rfl
  · obtain ⟨hlane, -⟩ := Env.real_lane (hxs y hy)
    have hmixed' : ((e.withWave w).w.th y.lane).mixed = false := ((hk.2.2 y.lane).2 hlane).trans hmixed
    have hagain' : ((e.withWave w).w.th y.lane).again = (e.w.th y.lane).again := by
      rw [← hk.th y.lane]
      rfl
    refine ((e.withWave w).sweptResult_value s i ht xs hmixed' (by rw [hagain']; exact hagain)).trans ?_
    rw [hk.fin]
    simp only [Env.withWave, hk.swept]
  · rw [hout, heq, ← hk.out]
    rfl
  · rw [hfl, hflags]
    simp only [hk.fin]
    simp only [Env.withWave, hk.swept, hk.fflags]

omit h hf in
/-- A thread that executes takes its draw where the operation rounds with RSR (R171; spec/03 R87). -/
theorem Env.drawn_th (ht : o.takes ty = true) {l : Nat} (hl : l < w.threads.length) :
    (if swpRounds o ty && e.rm none = .rsr then w.advance (e.real (e.guard hd)) else w).th l = if ty.isFS = true
      ∧ o ∈ [SwpOp.add, .sub, .mul, .fma] ∧ e.rm none = .rsr ∧ (e.real (e.guard hd)).getLsbD l = true
      then { w.th l with rngc := (w.th l).rngc + 1 } else w.th l := by
  by_cases hrounds : swpRounds o ty = true ∧ e.rm none = .rsr
  · obtain ⟨hround, hrm⟩ := hrounds
    obtain ⟨hfs, ho⟩ := (swpRounds_iff ht).mp hround
    rw [if_pos (by simp [hround, hrm]), Wave.advance, Wave.each_th _ _ _ _ hl]
    by_cases hreal : (e.real (e.guard hd)).getLsbD l = true
    · have hhelper : (w.th l).helper = false := by
        rw [← (Env.real_lane hreal).2.2, ← hk.th l]
      rw [if_pos hreal, if_neg (by rw [hhelper]; exact Bool.false_ne_true), if_pos ⟨hfs, ho, hrm, hreal⟩]
    · rw [if_neg hreal, if_neg fun hall => hreal hall.2.2.2]
  · rw [if_neg (by simpa using hrounds), if_neg fun hall => hrounds ⟨(swpRounds_iff ht).mpr ⟨hall.1, hall.2.1⟩, hall.2.2.1⟩]

/-- The end of a segment. -/
theorem Env.sweep_ends (ht : o.takes ty = true) (r : Except Trap (List Elem)) {fin : Wave → Wave}
    (hfin : ∀ u, (fin u).id = u.id ∧ (fin u).threads = u.threads) (hseg : (e.w.th (lowLane e.p.lanes)).seg = 2)
    (hsettled : s.unsettled e.w e.p.lanes = false) :
    ∃ t u w', (e.withWave w).sweep s i o ty (e.real (e.guard hd)) r k n fin = .ok t
      ∧ SegmentEnds e t o ty (e.real (e.guard hd)) k n ∧ u.iters = w.iters ∧ t.wave? e.w.id = some w'
      ∧ w'.iters = (fin u).iters := by
  have hlead : (e.withWave w).lead1.seg = 2 := (hk.lead _).trans hseg
  let u := if swpRounds o ty && e.rm none = .rsr then w.advance (e.real (e.guard hd)) else w
  have hu : u.id = e.w.id ∧ u.threads.length = e.w.threads.length ∧ u.iters = w.iters := by
    have hlen := hk.2.1
    simp only [u]
    split
    · exact ⟨hk.id, (Wave.each_length ..).trans hlen, rfl⟩
    · exact ⟨hk.id, hlen, rfl⟩
  obtain ⟨hfinid, hfinth⟩ := hfin u
  obtain ⟨t, w', hnext, hdone, hw', hit, hth⟩ := Env.boundary_done h (hfinid.trans hu.1)
    ((congrArg List.length hfinth).trans hu.2.1) k n
  refine ⟨t, u, w', ?_, ⟨hdone, w', hw', fun l hl => ?_⟩, hu.2.2, hw', hit⟩
  · rw [← hnext]
    unfold Env.sweep
    rw [hk.segFault hf]
    have hsettled' : s.unsettled (e.withWave w).w (e.withWave w).p.lanes = false := (hk.unsettled ..).trans hsettled
    simp only [hlead, hsettled', Bool.false_eq_true, if_false, if_true]
    rfl
  · have hul : (fin u).th l = u.th l := by rw [Wave.th, hfinth, Wave.th]
    obtain ⟨hv, hrngc⟩ := hth l hl
    have hl' : l < w.threads.length := by
      rw [hk.2.1, Wave.shape_threads h.2.1]
      exact hl
    rw [hv, hrngc, hul, Env.drawn_th hk ht hl', ← hk.th l]
    split <;> exact ⟨rfl, rfl⟩

end

/-- A long instruction that has nothing to do. -/
theorem Env.setPix_nothingLeft {s : State} {e : Env} (h : Issuing s e) : NothingLeft s (s.setWave (e.setPix e.w 0)) e := by
  obtain ⟨-, hwave, -, -, -⟩ := State.env?_eq h.1
  refine ⟨sameBesideWave (w := e.setPix e.w 0), _, State.wave?_setWave (w := e.setPix e.w 0) hwave, rfl, fun l hl => ?_⟩
  rw [Env.setPix, Wave.each_th _ _ _ _ (by rw [Wave.shape_threads h.2.1]; exact hl)]
  split
  · exact ⟨rfl, rfl, rfl, fun _ => rfl⟩
  · next hoff => exact ⟨rfl, rfl, rfl, fun hon => absurd hon hoff⟩

end Sys2Proof.Machine
end

section
/-! swp (spec/06 R170): the places of its elements, and its segments. -/

namespace Sys2Proof.Machine

/-! ## The places of elements -/

/-- The address of lane l in segment k of an operand, as words. -/
theorem swpAddr_eq (x : Dword) (n k l : Nat) : swpAddr x n k l =
    (x.setWidth 32 + BitVec.ofNat 32 k * x.extractLsb' 32 32 + BitVec.ofNat 32 (l * n)).toNat := by
  have hbase : ((x.setWidth 32).toNat : Int) = ((swpBase x).1 : Int) := by simp [swpBase]
  have hint : (x.setWidth 32 + BitVec.ofNat 32 k * x.extractLsb' 32 32 + BitVec.ofNat 32 (l * n))
      = BitVec.ofInt 32 (((swpBase x).1 : Int) + k * (swpBase x).2 + l * n) := by
    rw [BitVec.ofInt_add, BitVec.ofInt_add, BitVec.ofInt_mul, ← hbase, BitVec.ofInt_natCast, BitVec.ofInt_natCast,
      BitVec.ofNat_toNat, BitVec.setWidth_eq, swpBase, BitVec.ofInt_toInt, ← Nat.cast_mul, BitVec.ofInt_natCast]
  rw [hint, BitVec.toNat_ofInt]
  rfl

theorem swpSkewed_iff (x : Dword) (n : Nat) : swpSkewed x n = true ↔
    (x.setWidth 32).toNat % n ≠ 0 ∨ (x.extractLsb' 32 32).toInt % n ≠ 0 := by
  simp [swpSkewed, swpBase]

/-- Elements at multiples of their size stand at multiples of it. -/
theorem swpAddr_aligned {x : Dword} {n : Nat} (hn : n ∣ 2 ^ 32) (hx : swpSkewed x n = false) (k l : Nat) :
    swpAddr x n k l % n = 0 := by
  simp only [swpSkewed, Bool.or_eq_false_iff, bne_eq_false_iff_eq] at hx
  obtain ⟨hbase, hstep⟩ := hx
  have hsum : ((n : Nat) : Int) ∣ ((swpBase x).1 : Int) + k * (swpBase x).2 + l * n :=
    Int.dvd_add (Int.dvd_add (by exact_mod_cast Nat.dvd_of_mod_eq_zero hbase) (Dvd.dvd.mul_left (Int.dvd_of_emod_eq_zero hstep) _))
      (Dvd.intro_left _ rfl)
  have hcast : (swpAddr x n k l : Int) = (((swpBase x).1 : Int) + k * (swpBase x).2 + l * n) % 2 ^ 32 :=
    Int.toNat_of_nonneg (Int.emod_nonneg _ (by norm_num))
  apply Nat.mod_eq_zero_of_dvd
  rw [← Int.natCast_dvd_natCast, hcast]
  apply Int.dvd_of_emod_eq_zero
  rw [Int.emod_emod_of_dvd _ (by exact_mod_cast hn)]
  exact Int.emod_eq_zero_of_dvd hsum

theorem collect_eq_map {f : Nat → Except Trap Elem} {g : Nat → Elem} {ls : List Nat} (h : ∀ l ∈ ls, f l = .ok (g l)) :
    collect f ls = .ok (ls.map g) := by
  induction ls with
  | nil => rfl
  | cons l ls ih =>
    rw [List.forall_mem_cons] at h
    simp only [collect, h.1, ih h.2, List.map_cons]

theorem State.target_crew (s : State) (k : Crew) (t : Task) (wr : Bool) {n a : Nat} (ha : a % n = 0)
    (hin : a < k.hdr.spad * 256) : s.target k t .crew wr n a = .ok (.pad k.core (k.spadBase + a) a) := by
  have hwindow : a < k.window := hin
  simp only [State.target, ha, State.padAt, if_pos hwindow, ne_eq, not_true_eq_false, if_false]

theorem Opd.isZero_iff (p : Opd) : p.isZero = true ↔ p = .zero := by
  cases p <;> simp [Opd.isZero]

theorem sweepOpds_eq (o : SwpOp) (x : Sweep) : sweepOpds o x = if o = .copy then [x.a, x.d] else [x.a, x.b, x.d] := by
  simp only [sweepOpds, beq_iff_eq]

/-- The place of an operand of swp in lane l of segment k. -/
def Env.swpPlace (e : Env) (s : State) (x : Sweep) (k l : Nat) (p : Opd) : Option (Space × Nat) :=
  if p.isZero then none else some (.crew, swpAddr (e.usrc s e.p.lanes p) (memBytes x.ty) k l)

section
variable {s : State} {e : Env} {o : SwpOp} {x : Sweep} (hn : memBytes x.ty ∣ 2 ^ 32)
  (heven : ∀ p ∈ sweepOpds o x, p ≠ .zero → swpSkewed (e.usrc s e.p.lanes p) (memBytes x.ty) = false)
include hn heven

theorem Env.elemAt_swpPlace {k l : Nat} {p : Opd} (hp : p ∈ sweepOpds o x)
    (hin : p ≠ .zero → swpAddr (e.usrc s e.p.lanes p) (memBytes x.ty) k l < e.k.hdr.spad * 256) (wr : Bool) :
    e.elemAt s (memBytes x.ty) l wr (e.swpPlace s x k l p) = .ok (e.swpPlace s x k l p) := by
  unfold Env.swpPlace
  by_cases hz : p.isZero = true
  · rw [if_pos hz]
    rfl
  · have hne : p ≠ .zero := fun h => hz ((Opd.isZero_iff p).mpr h)
    rw [if_neg hz, Env.elemAt, State.target_crew s e.k e.t wr (swpAddr_aligned hn (heven p hp hne) k l) (hin hne)]

/-- The element of a lane of swp, whose places are in the crew's scratchpad. -/
theorem Env.swpElem_ok {k l : Nat} (hin : ∀ p ∈ sweepOpds o x, p ≠ .zero →
      swpAddr (e.usrc s e.p.lanes p) (memBytes x.ty) k l < e.k.hdr.spad * 256) :
    e.swpElem s x (o != .copy) k l = .ok ⟨l, e.swpPlace s x k l x.a, if o = .copy then none else e.swpPlace s x k l x.b,
      e.swpPlace s x k l x.d⟩ := by
  have hat {p : Opd} (hp : p ∈ sweepOpds o x) (wr : Bool) :=
    Env.elemAt_swpPlace hn heven hp (hin p hp) wr
  have hb : e.elemAt s (memBytes x.ty) l false (if o != .copy then e.swpPlace s x k l x.b else none)
      = .ok (if o = .copy then none else e.swpPlace s x k l x.b) := by
    by_cases ho : o = .copy
    · simp only [ho, bne_self_eq_false, Bool.false_eq_true, if_false, if_true]
      rfl
    · rw [if_pos (bne_iff_ne.mpr ho), if_neg ho]
      exact hat (by simp [sweepOpds_eq, ho]) false
  show e.element1 s x (o != .copy) l (e.swpPlace s x k l) = _
  rw [Env.element1, hat (by rw [sweepOpds_eq]; split <;> simp) false]
  simp only [hb, hat (p := x.d) (by rw [sweepOpds_eq]; split <;> simp) true]

end

/-! ## swp -/

section
variable {s : State} {e : Env} (h : Issuing s e) {o : SwpOp} {x : Sweep}
include h

theorem exec_swp_nothing (hnone : x.n = 0 ∨ e.real (e.guard x.h) = 0) :
    ∃ t, exec (.swp o x) s = .next t ∧ NothingLeft s t e := by
  refine ⟨_, (onIssue_next h.1 (if_pos ?_) : execSwp o x s = _), Env.setPix_nothingLeft h⟩
  simpa only [Bool.or_eq_true, decide_eq_true_eq] using hnone

/-- swp with a base or step that is no multiple of the element's size. -/
theorem exec_swp_skewed (hx : x.n ≠ 0) (hreal : e.real (e.guard x.h) ≠ 0) {p : Opd}
    (hp : (sweepOpds o x).find? (fun p => !p.isZero && swpSkewed (e.usrc s e.p.lanes p) (memBytes x.ty)) = some p) :
    ∃ tr : Trap, tr.cause = .misaligned ∧ tr.addr = BitVec.ofNat 64 ((e.usrc s e.p.lanes p).setWidth 32).toNat
      ∧ tr.lane = some (lowLane (e.real (e.guard x.h)))
      ∧ exec (.swp o x) s = .next (s.takeFault e.w e.p.lanes e.p.slot tr).stopIssue := by
  let tr : Trap := { accTrap .misaligned (taskAcc e.t true) (s.asid e.t.ctx) (swpBase (e.usrc s e.p.lanes p)).1 1 none 0 with
    lane := some (lowLane (e.real (e.guard x.h))) }
  refine ⟨tr, rfl, ?_, rfl, (onIssue_stop (x := .trap tr) h.1 ?_ : execSwp o x s = _)⟩
  · show BitVec.ofNat 64 _ = BitVec.ofNat 64 _
    rw [swpBase, BitVec.toNat_setWidth]
  · simp only [hx, hreal, hp, decide_false, Bool.or_self, Bool.false_eq_true, if_false]
    exact Env.charge_real _ _ (Env.real_real ..) hreal _

/-- swp of a group with something to do is one issue of its sweep. -/
theorem exec_swp_sweep (hx : x.n ≠ 0) (hreal : e.real (e.guard x.h) ≠ 0)
    (heven : ∀ p ∈ sweepOpds o x, p ≠ .zero → swpSkewed (e.usrc s e.p.lanes p) (memBytes x.ty) = false) {t : State}
    (ht : e.sweep s (.swp o x) o x.ty (e.real (e.guard x.h)) (collect (e.swpElem s x (o != .copy) e.prog)
      (lanesOf (e.real (e.guard x.h)))) e.prog x.n.toNat id = .ok t) : exec (.swp o x) s = .next t := by
  have hnone : (sweepOpds o x).find? (fun p => !p.isZero && swpSkewed (e.usrc s e.p.lanes p) (memBytes x.ty)) = none := by
    refine List.find?_eq_none.mpr fun p hp hbad => ?_
    simp only [Bool.and_eq_true, Bool.not_eq_true', Bool.eq_false_iff, ne_eq, Opd.isZero_iff] at hbad
    rw [heven p hp hbad.1] at hbad
    exact Bool.false_ne_true hbad.2
  refine (onIssue_next h.1 ?_ : execSwp o x s = _)
  simp only [hx, hreal, hnone, decide_false, Bool.or_self, Bool.false_eq_true, if_false]
  exact ht

end

/-- swp, from the parts of its segments. -/
theorem swpSegments {s : State} {e : Env} (h : Issuing s e) {o : SwpOp} {x : Sweep} (ht : o.takes x.ty = true)
    (hx : x.n ≠ 0) (hreal : e.real (e.guard x.h) ≠ 0) (hf : NoFaultMet e)
    (heven : ∀ p ∈ sweepOpds o x, p ≠ .zero → swpSkewed (e.usrc s e.p.lanes p) (memBytes x.ty) = false)
    (hin : ∀ p ∈ sweepOpds o x, p ≠ .zero → ∀ l, (e.real (e.guard x.h)).getLsbD l = true →
      swpAddr (e.usrc s e.p.lanes p) (memBytes x.ty) e.prog l < e.k.hdr.spad * 256) :
    let part := (e.w.th (lowLane e.p.lanes)).seg
    let xs : List Elem := (lanesOf (e.real (e.guard x.h))).map fun l =>
      ⟨l, e.swpPlace s x e.prog l x.a, if o = .copy then none else e.swpPlace s x e.prog l x.b, e.swpPlace s x e.prog l x.d⟩
    (part = 0 → ∃ t, exec (.swp o x) s = .next t ∧ Midway s t e 1 (e.w.out ++ segmentReads e (.swp o x) o xs))
    ∧ (part = 1 → ∃ t, exec (.swp o x) s = .next t ∧ SegmentWrites s t e (.swp o x) o x.ty xs)
    ∧ (part = 2 → s.unsettled e.w e.p.lanes = false →
      ∃ t, exec (.swp o x) s = .next t ∧ SegmentEnds e t o x.ty (e.real (e.guard x.h)) e.prog x.n.toNat) := by
  intro part xs
  have hn : memBytes x.ty ∣ 2 ^ 32 := by
    obtain ⟨-, hb | hb | hb⟩ := SwpOp.takes_cases ht <;> rw [memBytes, hb] <;> decide
  have hxs : collect (e.swpElem s x (o != .copy) e.prog) (lanesOf (e.real (e.guard x.h))) = .ok xs :=
    collect_eq_map fun l hl => Env.swpElem_ok hn heven fun p hp hz => hin p hp hz l (List.mem_filter.mp hl).2
  have hlanes : ∀ y ∈ xs, (e.real (e.guard x.h)).getLsbD y.lane = true := by
    intro y hy
    obtain ⟨l, hl, rfl⟩ := List.mem_map.mp hy
    exact (List.mem_filter.mp hl).2
  refine ⟨fun hpart => ?_, fun hpart => ?_, fun hpart hsettled => ?_⟩
  · obtain ⟨t, -, hsweep, hmid, -⟩ := Env.sweep_reads (i := .swp o x) (o := o) (ty := x.ty) (xs := xs) (k := e.prog)
      (n := x.n.toNat) h (.refl e) hf (e.real (e.guard x.h)) id hpart
    exact ⟨t, exec_swp_sweep h hx hreal heven (by rw [hxs]; exact hsweep), hmid⟩
  · obtain ⟨t, hsweep, hwrites⟩ := Env.sweep_writes (i := .swp o x) (k := e.prog) (n := x.n.toNat) h (.refl e) hf ht
      (e.real (e.guard x.h)) id hpart hlanes
    exact ⟨t, exec_swp_sweep h hx hreal heven (by rw [hxs]; exact hsweep), hwrites⟩
  · obtain ⟨t, -, -, hsweep, hends, -⟩ := Env.sweep_ends (i := .swp o x) (hd := x.h) (k := e.prog) (n := x.n.toNat) h (.refl e)
      hf ht (collect (e.swpElem s x (o != .copy) e.prog) (lanesOf (e.real (e.guard x.h)))) (fin := id) (fun u => ⟨rfl, rfl⟩)
      hpart hsettled
    exact ⟨t, exec_swp_sweep h hx hreal heven hsweep, hends⟩

end Sys2Proof.Machine
end

section
/-! The accesses of elements as they are made (spec/06 R170; spec/09 R276). -/

namespace Sys2Proof.Machine

theorem lanesOf_shiftLeft {l : Nat} (hl : l < 64) : lanesOf (1#64 <<< l) = [l] := by
  have hone : (List.range 64).count l = 1 := List.count_eq_one_of_mem List.nodup_range (List.mem_range.mpr hl)
  simp only [lanesOf, getLsbD_lane hl, List.filter_eq, hone, List.replicate_one]

theorem Reordered.storeQ {w w' : Wave} (h : Reordered w w') (l : Nat) : (w'.th l).storeQ = (w.th l).storeQ := by
  rw [← h.2.2 l]

/-- A thread's access to a scratchpad that nothing holds up. -/
structure Unhindered (s : State) (x : Land) (c a off n : Nat) : Prop where
  wave : s.wave? x.w.id = some x.w
  lane : x.p.lane < x.w.threads.length
  lanes : x.lanes = [x.p.lane]
  mask : x.p.lanes = 1#64 <<< x.p.lane
  arriving : s.arriving x.w [x.p.lane] (.pad c a off) n = false
  conflicts : x.actor.conflicts s ((Target.pad c a off).span n) = false

/-- A write joins its thread's queue, and no byte of memory changes. -/
theorem State.landBytes_pad {s : State} {x : Land} {sp : Space} {c a off n adr : Nat} {bs : List Byte}
    (h : Unhindered s x c a off n) (hlane : x.p.lane < 64) (hlen : bs.length = n)
    (htg : s.target x.k x.t sp true n adr = .ok (.pad c a off)) :
    ∃ s1 w ent, s.landBytes x sp none adr bs = .ok s1 ∧ SameBytes s s1 ∧ s1.wave? x.w.id = some w ∧ w.out = x.w.out
      ∧ (w.th x.p.lane).storeQ = (x.w.th x.p.lane).storeQ ++ [ent] ∧ ent.place = .spad c ∧ ent.addr = a ∧ ent.bytes = bs := by
  subst hlen
  let ent : StoreEnt := ⟨x.p.slot, x.p.issue, .spad c, a, off, off, 0, .pad, sp.code, bs, false, (x.w.th x.p.lane).fences,
    (x.w.th x.p.lane).ord.releases (x.w.agent x.p.lane) s.moment (effScope .rc none)⟩
  let w1 := x.w.each (1#64 <<< x.p.lane) fun _ th => { th with storeQ := (x.w.th x.p.lane).storeQ ++ [ent] }
  have hw1 : (s.setWave w1).wave? x.w.id = some w1 := State.wave?_setWave (w := w1) h.wave
  obtain ⟨w, hw, hord⟩ := State.threadWrote_reordered (x := x.actor) hw1 ((Target.pad c a off).span bs.length)
    (((x.w.th x.p.lane).storeQ ++ [ent]).any fun e => e.va == adr && e.leaf.kind == .uo)
  refine ⟨_, w, ent, ?_, (sameBytes_of_rest rfl).trans (State.threadWrote_keeps (s.setWave w1) x.actor _ _).1, hw, hord.out, ?_,
    rfl, rfl, rfl⟩
  · have harriving : s.arriving x.w x.lanes (.pad c a off) bs.length = false := by
      rw [h.lanes]
      exact h.arriving
    have hconflicts : Actor.conflicts { x.actor with w := x.w } s ((Target.pad c a off).span bs.length) = false := h.conflicts
    simp only [State.landBytes, h.wave, htg, orTrap, harriving, State.store, hconflicts, Bool.false_eq_true, if_false]
    rfl
  · rw [hord.storeQ, Wave.each_th _ _ _ _ h.lane, getLsbD_lane hlane, decide_eq_true rfl, if_pos rfl]

theorem State.threadRead_exact {s : State} {t : Task} (h : s.relaxed t = false) (x : Actor) (q : List StoreEnt) (p : Place)
    (a : Nat) (bs : List Byte) (logged : Bool) (acq : Option Scope) : s.threadRead t x q (some (p, a)) bs logged acq =
      (bs, s.hasRead x.w x.group (some (p, a)) bs.length s.moment acq) := by
  simp only [State.threadRead, h, Bool.and_false, Bool.false_eq_true, if_false, if_true]

/-- A read of a scratchpad leaves the state as it is. -/
theorem State.readVia_pad {s s1 : State} {t : Task} {unit : Nat} {q : List StoreEnt} {c a off n : Nat}
    {r : Except Trap (Option Phys)} {bs : List Byte} (h : s.readVia t unit q (.pad c a off) r n = .ok (bs, s1)) : s1 = s := by
  simp only [State.readVia] at h
  split at h
  · cases h
    rfl
  · split at h <;> cases h
    rfl

/-- A read that sees what its thread's queue and the scratchpad hold (R276). -/
theorem State.landLoad_pad {s s1 : State} {x : Land} {sp : Space} {c a off n : Nat} {bs : List Byte}
    (h : Unhindered s x c a off n) (hrelaxed : s.relaxed x.t = false)
    (htg : s.target x.k x.t sp false n x.p.a.toNat = .ok (.pad c a off))
    (hread : s.readTgt x.t 0 (x.w.th x.p.lane).storeQ (.pad c a off) n = .ok (bs, s1)) :
    ∃ s2 w, s.landLoad x sp n none [x.p.lane] = .ok (bs, s2) ∧ SameBytes s s2 ∧ s2.wave? x.w.id = some w
      ∧ Reordered x.w w := by
  have hqueue : x.queue = (x.w.th x.p.lane).storeQ := by
    rw [Land.queue, h.lanes, List.flatMap_singleton]
  obtain ⟨hrest, w, hw, hord⟩ := State.hasRead_reordered h.wave x.actor.group (some (.spad c, a)) bs.length s.moment
    (effScope (kindOf none) none)
  refine ⟨_, w, ?_, hrest.sameBytes, hw, hord⟩
  have htgt : x.tgt s sp false n = .ok (.pad c a off) := by
    rw [Land.tgt, Land.av, htg]
    rfl
  have harriving : s.arriving x.w x.lanes (.pad c a off) n = false := by
    rw [h.lanes]
    exact h.arriving
  have hload : s.load x.t x.queue (.pad c a off) n none (x.src? x.p.lane) x.actor = .ok (bs, s.hasRead x.w x.actor.group
      (some (.spad c, a)) bs.length s.moment (effScope (kindOf none) none)) := by
    have hroute (core : Option Nat) : s.route x.t false (.pad c a off) core = .ok none := rfl
    have hkind : (kindOf none == PKind.so) = false := rfl
    simp only [State.readTgt, hroute, ← hqueue] at hread
    obtain rfl := State.readVia_pad hread
    have hloc : (Target.pad c a off).loc none = some (.spad c, a) := rfl
    unfold State.load
    simp only [hroute, hkind, Option.isSome_none, Bool.false_and, Bool.or_self, Bool.false_eq_true, if_false, hloc]
    cases x.src? x.p.lane <;>
      simp only [State.logged, hread, h.conflicts, State.threadRead_exact hrelaxed, Bool.false_eq_true, if_false] <;> rfl
  have hone : (x.lanes.length ≠ 1) = False := by
    rw [h.lanes]
    simp
  simp only [State.landLoad, htgt, harriving, hone, decide_false, Bool.false_and, Bool.false_eq_true, if_false, State.loadEach]
  exact hload

theorem State.setPend_wave {s : State} {id : Nat} {w : Wave} (hw : s.wave? id = some w) (pos : Nat) (p : Pend) :
    SameBytes s (s.setPend id pos p) ∧ (s.setPend id pos p).wave? id = some { w with out := w.out.set pos p } := by
  obtain rfl := State.wave?_id hw
  simp only [State.setPend, hw]
  exact ⟨sameBytes_of_rest rfl, State.wave?_setWave (w := { w with out := w.out.set pos p }) hw⟩

section
variable {s : State} {core wslot pos : Nat} {x : Land} {c a off : Nat} {o : SwpOp} {y : Sweep} {sp : Space}
  (h : Landing s core wslot pos x) (hdone : x.p.done = false) (hi : x.p.i = .swp o y ∨ x.p.i = .itx o y)
  (hsp : Space.ofCode (x.p.c.toNat / 256) = some sp) (hfree : Unhindered s x c a off (memBytes y.ty))
include h hdone hi hsp hfree

omit hsp hfree in
theorem exec_resultLand_sweep {s1 : State} (hland : s.landSweep x pos y.ty = .ok s1) :
    exec (.resultLand core wslot pos) s = .next s1 := by
  refine exec_resultLand_made h hdone ?_
  obtain hi | hi := hi <;> simp only [State.landAt, hi, hland]

/-- A read of an element keeps its value for the segment. -/
theorem landed_elementRead (hc : x.p.c.toNat % 256 ≠ 3) (hrelaxed : s.relaxed x.t = false)
    (htg : s.target x.k x.t sp false (memBytes y.ty) x.p.a.toNat = .ok (.pad c a off)) {bs : List Byte} {s1 : State}
    (hread : s.readTgt x.t 0 (x.w.th x.p.lane).storeQ (.pad c a off) (memBytes y.ty) = .ok (bs, s1)) :
    ∃ t w, exec (.resultLand core wslot pos) s = .next t ∧ t.wave? x.w.id = some w
      ∧ w.out = x.w.out.set pos { x.p with
        done := true
        ext := [BitVec.ofNat 32 (leNat bs), BitVec.ofNat 32 (leNat bs / 2 ^ 32)] }
      ∧ ∀ q b, t.readAt q b 1 = s.readAt q b 1 := by
  obtain ⟨s2, w, hload, hsame, hw, hord⟩ := State.landLoad_pad hfree hrelaxed htg hread
  obtain ⟨hset, hw'⟩ := State.setPend_wave hw pos { x.p with
    done := true
    ext := wordsOf true (leNat bs) }
  refine ⟨_, _, exec_resultLand_sweep h hdone hi ?_, hw', by rw [hord.out]; rfl, fun q b => (hsame.trans hset).readAt q b 1⟩
  have hspace : Space.ofCode (x.cv / 256) = some sp := hsp
  have hread' : ¬x.cv % 256 = 3 := hc
  simp only [State.landSweep, hspace, Option.getD_some, if_neg hread', hload]

/-- A write of an element joins its thread's queue. -/
theorem landed_elementWrite (hc : x.p.c.toNat % 256 = 3)
    (htg : s.target x.k x.t sp true (memBytes y.ty) x.p.a.toNat = .ok (.pad c a off)) :
    ∃ t w ent, exec (.resultLand core wslot pos) s = .next t ∧ t.wave? x.w.id = some w
      ∧ w.out = x.w.out.eraseIdx pos ∧ (w.th x.p.lane).storeQ = (x.w.th x.p.lane).storeQ ++ [ent]
      ∧ ent.place = .spad c ∧ ent.addr = a ∧ ent.bytes = leBytes (memBytes y.ty) x.p.b.toNat
      ∧ ∀ q b, t.readAt q b 1 = s.readAt q b 1 := by
  obtain ⟨-, -, hshape, -, -, -, hlane⟩ := id h
  obtain ⟨s1, w, ent, hland, hsame, hw, hout, hqueue, hplace, haddr, hbytes⟩ := State.landBytes_pad
    (bs := leBytes (memBytes y.ty) x.p.b.toNat) hfree (Nat.lt_of_lt_of_le hlane (Wave.shape_width hshape)) (leBytes_length ..) htg
  obtain ⟨hdrop, hw'⟩ := State.dropPend_wave hw pos
  refine ⟨_, _, ent, exec_resultLand_sweep h hdone hi ?_, hw', by rw [Wave.drop, hout], hqueue, hplace, haddr, hbytes,
    fun q b => (hsame.trans hdrop).readAt q b 1⟩
  have hspace : Space.ofCode (x.cv / 256) = some sp := hsp
  have hwrite : x.cv % 256 = 3 := hc
  have hbytes' : s.landBytes x sp none x.av (leBytes (memBytes y.ty) x.bv) = .ok s1 := hland
  simp only [State.landSweep, hspace, Option.getD_some, if_pos hwrite, hbytes']
  rfl

end

/-- swp, and the accesses of the elements of swp and itx. -/
theorem sweeps : sweepsHolds := by
  refine ⟨fun s e h o x ht => ?_, fun s core wslot pos x c a off o y i sp h hdone hmem hi hsp htg hmask harriving hconflicts => ?_⟩
  · intro n k real part opds base step adr here xs even
    have hopds : sweepOpds o x = opds := sweepOpds_eq o x
    have hbad (p : Opd) : (!p.isZero && swpSkewed (e.usrc s e.p.lanes p) n) =
        decide (p ≠ .zero ∧ ((base p).toNat % n ≠ 0 ∨ (step p).toInt % n ≠ 0)) := by
      rw [Bool.eq_iff_iff, Bool.and_eq_true, swpSkewed_iff, decide_eq_true_iff, Bool.not_eq_true', Bool.eq_false_iff, ne_eq,
        Opd.isZero_iff]
    refine ⟨exec_swp_nothing h, fun p hx hreal hp => ?_, fun hx hreal hf hev hin => ?_⟩
    · refine exec_swp_skewed h hx hreal ?_
      rw [hopds, ← hp]
      exact congrArg (fun f => List.find? f opds) (funext hbad)
    · have heven : ∀ p ∈ sweepOpds o x, p ≠ .zero → swpSkewed (e.usrc s e.p.lanes p) (memBytes x.ty) = false := by
        intro p hp hz
        rw [Bool.eq_false_iff, ne_eq, swpSkewed_iff]
        obtain ⟨hb, hs⟩ := (hev p (hopds ▸ hp)).resolve_left hz
        exact not_or.mpr ⟨not_not.mpr hb, not_not.mpr hs⟩
      have hadr (p : Opd) (l : Nat) : swpAddr (e.usrc s e.p.lanes p) (memBytes x.ty) e.prog l = adr p l := swpAddr_eq ..
      have hplace (l : Nat) (p : Opd) : e.swpPlace s x e.prog l p = here p l := by
        rw [Env.swpPlace, hadr]
        exact if_congr (Opd.isZero_iff p) rfl rfl
      have hsegments := swpSegments h ht hx hreal hf heven fun p hp hz l hl => by
        rw [hadr]
        exact hin p (hopds ▸ hp) hz l hl
      simp only [hplace] at hsegments
      exact hsegments
  · have ⟨_, hw, hshape, _, _, _, hlane⟩ := h
    have hi' : x.p.i = .swp o y ∨ x.p.i = .itx o y := by
      simp only [List.mem_cons, List.not_mem_nil, or_false] at hmem
      exact hmem.imp hi.trans hi.trans
    have hfree : Unhindered s x c a off (memBytes y.ty) := ⟨hw, by rw [Wave.shape_threads hshape]; exact hlane,
      by rw [Land.lanes, hmask, lanesOf_shiftLeft (Nat.lt_of_lt_of_le hlane (Wave.shape_width hshape))], hmask, harriving,
      hconflicts⟩
    refine ⟨fun bs s1 hc hrelaxed hread _ => landed_elementRead h hdone hi' hsp hfree hc hrelaxed ?_ hread,
      fun hc => landed_elementWrite h hdone hi' hsp hfree hc ?_⟩
    · rw [beq_false_of_ne hc] at htg
      exact htg
    · rw [hc] at htg
      exact htg

end Sys2Proof.Machine
end

section
/-! Iterator records (spec/06 R172): their tiles, and what writing IDX changes of them. -/

namespace Sys2Proof.Machine

/-! ## Tiles -/

theorem itIndex_eq_tileIndex (r : BitVec 512) (i d : Nat) : itIndex r i d = tileIndex (itExt r) i d := by
  cases d with
  | zero => simp [itIndex, tileIndex]
  | succ d => rw [itIndex, tileIndex, List.prod_eq_foldl]

theorem itAddr_eq {sh r : BitVec 512} (i : Nat) (hspace : recField r 10 1 ≠ 0) : (itAddr sh r i : Int) =
    ((recField r 0 8 : Int) + ((List.range (itRank r)).map fun d =>
      if itBcast r d then 0 else (tileIndex (itExt sh) i d : Int) * itStride r d).sum) % 2 ^ 32 := by
  simp only [itAddr, if_neg hspace, itIndex_eq_tileIndex]
  exact Int.toNat_of_nonneg (Int.emod_nonneg _ (by norm_num))

theorem itExt_lt (r : BitVec 512) (d : Nat) : itExt r d < 2 ^ 16 := Nat.mod_lt _ (by norm_num)

theorem itIndex_lt {r : BitVec 512} {d : Nat} (hd : 0 < itExt r d) (n : Nat) : itIndex r n d < 2 ^ 16 :=
  (Nat.mod_lt _ hd).trans (itExt_lt r d)

/-! ## IDX -/

theorem bitsOf_congr {x y lo lo' n : Nat} (h : ∀ i, i < n → x.testBit (lo + i) = y.testBit (lo' + i)) :
    bitsOf x lo n = bitsOf y lo' n := by
  apply Nat.eq_of_testBit_eq
  intro i
  rw [testBit_bitsOf, testBit_bitsOf]
  by_cases hi : i < n
  · rw [h i hi]
  · rw [decide_eq_false hi, Bool.false_and, Bool.false_and]

/-- The value of IDX for element n of a tile, or zero. -/
def idxValue (sh : BitVec 512) (n : Option Nat) : Nat :=
  match n with
  | none => 0
  | some n => ((List.range (itRank sh)).map fun d => itIndex sh n d * 2 ^ (16 * d)).sum

theorem itSetIdx_testBit (sh r : BitVec 512) (n : Option Nat) {i : Nat} (hi : i < 512) :
    (itSetIdx sh r n).toNat.testBit i = if 320 ≤ i ∧ i < 384 then (idxValue sh n).testBit (i - 320) else r.toNat.testBit i := by
  have hval : itSetIdx sh r n = BitVec.ofNat 512 (replaceBits r.toNat (8 * 0x28) 64 (idxValue sh n)) := by
    cases n <;> rfl
  rw [hval, BitVec.testBit_toNat, BitVec.getLsbD_ofNat, decide_eq_true hi, Bool.true_and, testBit_replaceBits]

/-- Writing IDX a second time changes nothing. -/
theorem itSetIdx_itSetIdx (sh r : BitVec 512) (n : Option Nat) : itSetIdx sh (itSetIdx sh r n) n = itSetIdx sh r n := by
  apply BitVec.eq_of_getLsbD_eq
  intro i hi
  show (itSetIdx sh (itSetIdx sh r n) n).toNat.testBit i = (itSetIdx sh r n).toNat.testBit i
  rw [itSetIdx_testBit _ _ _ hi, itSetIdx_testBit _ _ _ hi]
  split <;> rfl

/-- Two records that agree below IDX: in base, type, rank, space, extents and strides. -/
def SameTile (r r' : BitVec 512) : Prop := ∀ o n, o + n ≤ 0x28 → recField r' o n = recField r o n

theorem SameTile.refl (r : BitVec 512) : SameTile r r := fun _ _ _ => rfl

theorem itSetIdx_sameTile (sh r : BitVec 512) (n : Option Nat) : SameTile r (itSetIdx sh r n) := fun o m hm =>
  bitsOf_congr fun i hi => by rw [itSetIdx_testBit _ _ _ (by omega), if_neg (by omega)]

/-- A digit of a number that is given by its digits. -/
theorem digit_sum {b n i : Nat} {f : Nat → Nat} (hi : i < n) (hf : ∀ d, d < n → f d < b) :
    ((List.range n).map fun d => f d * b ^ d).sum / b ^ i % b = f i := by
  induction i generalizing n f with
  | zero =>
    obtain ⟨m, rfl⟩ := Nat.exists_eq_succ_of_ne_zero (Nat.ne_of_gt hi)
    simp only [List.range_succ_eq_map, List.map_cons, List.map_map, List.sum_cons, Function.comp_def, Nat.pow_succ, pow_zero,
      mul_one, Nat.div_one, ← mul_assoc, List.sum_map_mul_right, Nat.add_mul_mod_self_right]
    exact Nat.mod_eq_of_lt (hf 0 hi)
  | succ i ih =>
    obtain ⟨m, rfl⟩ := Nat.exists_eq_succ_of_ne_zero (Nat.ne_of_gt (Nat.zero_lt_of_lt hi))
    have hpos : 0 < b := Nat.zero_lt_of_lt (hf _ hi)
    have hrest := ih (n := m) (f := fun d => f (d + 1)) (by omega) fun d hd => hf (d + 1) (by omega)
    rw [← hrest, pow_succ', ← Nat.div_div_eq_div_mul]
    simp only [List.range_succ_eq_map, List.map_cons, List.map_map, List.sum_cons, Function.comp_def, Nat.pow_succ, pow_zero,
      mul_one, ← mul_assoc, List.sum_map_mul_right, Nat.add_mul_div_right _ _ hpos, Nat.div_eq_of_lt (hf 0 (by omega)), zero_add,
      Nat.succ_eq_add_one]

theorem itIdx_itSetIdx {sh : BitVec 512} (r : BitVec 512) (n : Option Nat) {i : Nat} (hi : i < itRank sh) (hrank : itRank sh ≤ 4)
    (hext : n ≠ none → ∀ d, d < itRank sh → 0 < itExt sh d) :
    itIdx (itSetIdx sh r n) i = n.elim 0 fun n => itIndex sh n i := by
  have hidx : itIdx (itSetIdx sh r n) i = bitsOf (idxValue sh n) (16 * i) 16 :=
    bitsOf_congr fun j hj => by
      rw [itSetIdx_testBit _ _ _ (by omega), if_pos (by omega), show 8 * (0x28 + 2 * i) + j - 320 = 16 * i + j by omega]
  rw [hidx]
  cases n with
  | none => simp [idxValue, bitsOf]
  | some n =>
    have hdigit := digit_sum hi fun d hd => itIndex_lt (hext (by simp) d hd) n
    simpa only [idxValue, bitsOf, Nat.shiftRight_eq_div_pow, pow_mul, Option.elim_some] using hdigit

theorem mem_itNames {os : List Opd} {m : Nat} : m ∈ itNames os ↔ ∃ j : Fin 8, Opd.j j ∈ os ∧ j.val = m := by
  simp only [itNames, List.mem_filterMap]
  constructor
  · rintro ⟨p, hp, hm⟩
    cases p with
    | j n => exact ⟨n, hp, Option.some.inj hm⟩
    | _ => cases hm
  · rintro ⟨n, hn, rfl⟩
    exact ⟨.j n, hn, rfl⟩

theorem Wave.setIdx_cons (w : Wave) (sh : BitVec 512) (n : Option Nat) (p : Opd) (os : List Opd) :
    w.setIdx sh n (p :: os) = (w.setIdx sh n [p]).setIdx sh n os := rfl

theorem Wave.setIdx_length (w : Wave) (sh : BitVec 512) (n : Option Nat) (os : List Opd) :
    (w.setIdx sh n os).iters.length = w.iters.length := by
  induction os generalizing w with
  | nil => rfl
  | cons p os ih =>
    rw [Wave.setIdx_cons, ih]
    cases p <;> simp [Wave.setIdx, updAt]

/-- One record after IDX of one has been written. -/
theorem Wave.setIdx_one (w : Wave) (sh : BitVec 512) (n : Option Nat) (k : Fin 8) {m : Nat} (hm : m < w.iters.length) :
    getAt (w.setIdx sh n [.j k]).iters m 0 =
      if k.val = m then itSetIdx sh (getAt w.iters m 0) n else getAt w.iters m 0 := by
  show getAt (updAt w.iters k.val fun r => itSetIdx sh r n) m 0 = _
  by_cases hk : k.val = m
  · rw [getAt_updAt _ _ _ _ _ (hk ▸ hm), if_pos hk.symm, if_pos hk]
  · simp only [getAt, List.getD, updAt, List.getElem?_modify, hk, if_false, id_map']

/-- The records after IDX of those that operands name has been written. -/
theorem Wave.setIdx_iters (w : Wave) (sh : BitVec 512) (n : Option Nat) (os : List Opd) {m : Nat} (hm : m < w.iters.length) :
    getAt (w.setIdx sh n os).iters m 0 =
      if m ∈ itNames os then itSetIdx sh (getAt w.iters m 0) n else getAt w.iters m 0 := by
  induction os generalizing w with
  | nil => rfl
  | cons p os ih =>
    rw [Wave.setIdx_cons, ih _ (by rw [Wave.setIdx_length]; exact hm)]
    cases p with
    | j k =>
      have hnames : m ∈ itNames (.j k :: os) ↔ k.val = m ∨ m ∈ itNames os := by
        simp [itNames, eq_comm]
      rw [Wave.setIdx_one _ _ _ _ hm]
      by_cases hk : k.val = m
      · rw [if_pos hk, if_pos (hnames.mpr (.inl hk)), itSetIdx_itSetIdx, ite_self]
      · rw [if_neg hk]
        exact if_congr (by rw [hnames, or_iff_right hk]) rfl rfl
    | _ => rfl

/-- IDX of the records that operands name, once it has been written. -/
theorem Wave.setIdx_indices {w w' : Wave} {sh : BitVec 512} {n : Option Nat} {os : List Opd}
    (hw : w'.iters = (w.setIdx sh n os).iters) (hrank : itRank sh ≤ 4)
    (hext : n ≠ none → ∀ d, d < itRank sh → 0 < itExt sh d) (m : Fin 8) (hm : m.val < w.iters.length) (hname : .j m ∈ os) (i : Nat)
    (hi : i < itRank sh) : itIdx (getAt w'.iters m.val 0) i = n.elim 0 fun n => itIndex sh n i := by
  rw [hw, Wave.setIdx_iters _ _ _ _ hm, if_pos (mem_itNames.mpr ⟨m, hname, rfl⟩)]
  exact itIdx_itSetIdx _ _ hi hrank hext

/-- Writing IDX changes no record below it. -/
theorem Wave.setIdx_sameTile (w : Wave) (sh : BitVec 512) (n : Option Nat) (os : List Opd) (m : Nat) :
    SameTile (getAt w.iters m 0) (getAt (w.setIdx sh n os).iters m 0) := by
  by_cases hm : m < w.iters.length
  · rw [Wave.setIdx_iters w sh n os hm]
    by_cases hname : m ∈ itNames os
    · rw [if_pos hname]
      exact itSetIdx_sameTile sh _ n
    · rw [if_neg hname]
      exact .refl _
  · have hout : (w.setIdx sh n os).iters.length ≤ m := by rw [Wave.setIdx_length]; omega
    rw [getAt, getAt, List.getD_eq_default _ _ hout, List.getD_eq_default _ _ (by omega)]
    exact .refl 0

/-! ## Elements of a tile (R173) -/

section
variable {sh sh' r r' : BitVec 512} (hsh : SameTile sh sh') (hr : SameTile r r') (hrank : itRank r ≤ 4)
include hr

theorem SameTile.rank : itRank r' = itRank r := hr 9 1 (by omega)

theorem SameTile.space : itSpace r' = itSpace r := by rw [itSpace, itSpace, hr 10 1 (by omega)]

include hsh hrank

/-- The address of an element depends on the tile alone. -/
theorem SameTile.itAddr (n : Nat) : itAddr sh' r' n = itAddr sh r n := by
  have hext (d : Nat) (hd : d < 4) : itExt sh' d = itExt sh d := hsh _ _ (by omega)
  have hindex (d : Nat) (hd : d < itRank r) : itIndex sh' n d = itIndex sh n d := by
    rw [itIndex, itIndex, hext d (by omega), List.map_congr_left fun i hi => hext i (by
      have := List.mem_range.mp hi
      omega)]
  have hterm (d : Nat) (hd : d < itRank r) : (if itBcast r' d then (0 : Int) else (itIndex sh' n d : Int) * itStride r' d)
      = if itBcast r d then 0 else (itIndex sh n d : Int) * itStride r d := by
    rw [itBcast, itBcast, hr 11 1 (by omega), hindex d hd, itStride, itStride, hr _ 4 (by omega)]
  simp only [Machine.itAddr, hr.rank, hr 10 1 (by omega), hr 0 8 (by omega)]
  rw [List.map_congr_left fun d hd => hterm d (List.mem_range.mp hd)]

end

theorem itBad_rank {r : BitVec 512} (h : itBad r = none) : itRank r ≤ 4 := by
  by_contra hrank
  unfold itBad at h
  split at h
  · cases h
  · split at h
    · cases h
    · rw [if_pos (by simp; omega)] at h
      cases h

/-- Records that keep the rules have a rank of four at most. -/
theorem itxBad_rank {ty : Ty} {w : Nat} {d : BitVec 512} {srcs : List (BitVec 512)} (h : itxBad ty w d srcs = none) :
    ∀ r ∈ d :: srcs, itRank r ≤ 4 := by
  intro r hr
  unfold itxBad at h
  split at h
  · cases h
  · next hnone => exact itBad_rank (List.findSome?_eq_none_iff.mp hnone r hr)

end Sys2Proof.Machine
end

section
/-! itx (spec/06 R173, R174): its records through an issue, and its segments. -/

namespace Sys2Proof.Machine

/-! ## The wave of an issue of itx (R174) -/

/-- The wave of an issue of itx: the records that its threads name, those that other threads lose, and IDX at the start. -/
def Env.itxWave (e : Env) (s : State) (o : SwpOp) (x : Sweep) : Wave :=
  let w0 := (e.w.mixOthers e.p.lanes (sweepOpds o x)).each e.p.lanes fun _ th => { th with named := itNames (sweepOpds o x) }
  if e.p.inp || e.lead1.seg ≠ 0 then w0 else w0.setIdx (e.iter s x.d) none (sweepOpds o x)

theorem Kept.setIdx {e : Env} {w : Wave} (h : Kept e w) (sh : BitVec 512) (n : Option Nat) (os : List Opd) :
    Kept e (w.setIdx sh n os) := h

/-- The notes that an issue of itx makes in threads. -/
theorem Env.noted_kept (e : Env) (os : List Opd) (ns : List Nat) :
    Kept e ((e.w.mixOthers e.p.lanes os).each e.p.lanes fun _ th => { th with named := ns }) := by
  refine ⟨rfl, (Wave.each_length ..).trans (Wave.each_length ..), fun l => ?_⟩
  by_cases hl : l < e.w.threads.length
  · have hmix : ((e.w.mixOthers e.p.lanes os).threads.length) = e.w.threads.length := Wave.each_length ..
    have hsame := e.w.mixOthers_same e.p.lanes os l
    rw [Wave.each_th _ _ _ _ (hmix ▸ hl)]
    refine ⟨?_, fun hon => ?_⟩
    · have hnamed := congrArg (fun u : Thread => { u with named := (e.w.th l).named }) hsame
      split <;> exact hnamed
    · have hkeep : (e.w.mixOthers e.p.lanes os).th l = e.w.th l := by
        rw [Wave.mixOthers, Wave.each_th _ _ _ _ hl, BitVec.getLsbD_not, hon, Bool.not_true, Bool.and_false,
          if_neg Bool.false_ne_true]
      rw [if_pos hon, hkeep]
  · rw [Wave.each_th_ge _ _ _ (by rw [Wave.mixOthers, Wave.each_length]; omega), Wave.mixOthers, Wave.each_th_ge _ _ _ (by omega)]
    exact ⟨rfl, fun _ => rfl⟩

theorem Env.itxWave_kept (e : Env) (s : State) (o : SwpOp) (x : Sweep) : Kept e (e.itxWave s o x) := by
  have h := e.noted_kept (sweepOpds o x) (itNames (sweepOpds o x))
  unfold Env.itxWave
  dsimp only
  split
  · exact h
  · exact h.setIdx ..

/-- The records of the wave of an issue are those that it had, but for IDX at the start. -/
theorem Env.itxWave_iters (e : Env) (s : State) (o : SwpOp) (x : Sweep) (h : e.p.inp = true ∨ e.lead1.seg ≠ 0) :
    (e.itxWave s o x).iters = e.w.iters := by
  unfold Env.itxWave
  dsimp only
  rw [if_pos (by simpa only [Bool.or_eq_true, decide_eq_true_eq] using h)]
  rfl

theorem Env.itxWave_start (e : Env) (s : State) (o : SwpOp) (x : Sweep) (hinp : e.p.inp = false) (hseg : e.lead1.seg = 0) :
    (e.itxWave s o x).iters = (e.w.setIdx (e.iter s x.d) none (sweepOpds o x)).iters := by
  unfold Env.itxWave
  dsimp only
  rw [hinp, hseg, if_neg (by simp)]
  rfl

/-- A record that an operand names, in the issuing wave and in one that threads keep. -/
theorem Kept.iter_rel {e : Env} {w : Wave} (h : Kept e w) (s : State) {R : BitVec 512 → BitVec 512 → Prop} (hrefl : ∀ r, R r r)
    (hiters : ∀ n : Fin 8, R (getAt e.w.iters n.val 0) (getAt w.iters n.val 0)) (p : Opd) :
    R (e.iter s p) ((e.withWave w).iter s p) := by
  have hfly (l : Nat) : (w.th l).fly = (e.w.th l).fly := by rw [← h.th l]
  cases p with
  | j n =>
    simp only [Env.iter, Env.withWave, hfly]
    split
    · exact hrefl _
    · exact hiters n
  | _ => exact hrefl _

/-- The operands of an element are placed where the records that it uses say. -/
theorem Env.element1_congr (e : Env) (w : Wave) (s : State) {o : SwpOp} {x : Sweep} {f g : Opd → Option (Space × Nat)} (l : Nat)
    (h : ∀ p ∈ sweepOpds o x, f p = g p) :
    (e.withWave w).element1 s x (o != .copy) l f = e.element1 s x (o != .copy) l g := by
  have ha := h x.a (by rw [sweepOpds_eq]; split <;> simp)
  have hd := h x.d (by rw [sweepOpds_eq]; split <;> simp)
  have hb : (if o != .copy then f x.b else none) = if o != .copy then g x.b else none := by
    by_cases ho : o = .copy
    · rw [ho]
      rfl
    · rw [h x.b (by rw [sweepOpds_eq, if_neg ho]; simp)]
  simp only [Env.element1, ha, hb, hd]
  rfl

/-- The elements are those of the records as they stood: IDX is no part of a tile. -/
theorem Env.itxWave_element (e : Env) (s : State) {o : SwpOp} {x : Sweep} (n l : Nat)
    (hrank : e.p.inp = false → e.lead1.seg = 0 → ∀ p ∈ sweepOpds o x, itRank (e.iter s p) ≤ 4) :
    (e.withWave (e.itxWave s o x)).itElem s x (o != .copy) n l = e.itElem s x (o != .copy) n l := by
  have hkept := e.itxWave_kept s o x
  refine e.element1_congr _ s l fun p hp => ?_
  by_cases hstart : e.p.inp = true ∨ e.lead1.seg ≠ 0
  · have hsame := hkept.iter_rel s (R := Eq) (fun _ => rfl) fun m => by rw [Env.itxWave_iters e s o x hstart]
    rw [hsame p, hsame x.d]
  · simp only [not_or, Bool.not_eq_true, not_not] at hstart
    obtain ⟨hinp, hseg⟩ := hstart
    have htile := hkept.iter_rel s (R := SameTile) .refl fun m => by
      rw [Env.itxWave_start e s o x hinp hseg]
      exact Wave.setIdx_sameTile _ _ _ _ _
    rw [(htile p).space, SameTile.itAddr (htile x.d) (htile p) (hrank hinp hseg p hp)]

theorem Env.element1_lane {e : Env} {s : State} {x : Sweep} {needB : Bool} {l : Nat} {f : Opd → Option (Space × Nat)} {y : Elem}
    (h : e.element1 s x needB l f = .ok y) : y.lane = l := by
  unfold Env.element1 at h
  dsimp only at h
  split at h
  · cases h
  · split at h
    · cases h
    · split at h <;> cases h
      rfl

theorem mem_collect {f : Nat → Except Trap Elem} {ls : List Nat} {xs : List Elem} (h : collect f ls = .ok xs) {y : Elem}
    (hy : y ∈ xs) : ∃ l ∈ ls, f l = .ok y := by
  induction ls generalizing xs with
  | nil =>
    cases h
    cases hy
  | cons l ls ih =>
    unfold collect at h
    split at h
    · cases h
    · next z hz =>
      split at h <;> cases h
      next zs hzs =>
      obtain rfl | hy := List.mem_cons.mp hy
      · exact ⟨l, List.mem_cons_self .., hz⟩
      · obtain ⟨m, hm, hf⟩ := ih hzs hy
        exact ⟨m, List.mem_cons_of_mem _ hm, hf⟩

/-- No page that the segment writes is absent. -/
theorem Env.writable_none {e : Env} {s : State} {xs : List Elem}
    (h : ∀ y ∈ xs, ∀ a, y.d = some (.glob, a) → (s.translate (taskAcc e.t true) a).isOk = true) : e.writable s xs = none := by
  rw [Env.writable, List.findSome?_eq_none_iff]
  intro y hy
  split
  · next sp a hd =>
    by_cases hsp : sp = .glob
    · subst hsp
      have hok := h y hy a hd
      rw [if_pos (beq_self_eq_true _)]
      split
      · rfl
      · next tr htr =>
        rw [htr] at hok
        cases hok
    · rw [if_neg (mt beq_iff_eq.mp hsp)]
  · rfl

/-! ## itx (R173, R174) -/

/-- The records of the sources of itx. -/
def Env.itxSources (e : Env) (s : State) (o : SwpOp) (x : Sweep) : List (BitVec 512) :=
  (if o = .copy ∨ x.b = .zero then [x.a] else [x.a, x.b]).map (e.iter s)

theorem Env.itxSources_eq (e : Env) (s : State) (o : SwpOp) (x : Sweep) :
    (if o == .copy || x.b.isZero then [x.a] else [x.a, x.b]).map (e.iter s) = e.itxSources s o x :=
  congrArg (List.map (e.iter s)) (if_congr (by rw [Bool.or_eq_true, beq_iff_eq, Opd.isZero_iff]) rfl rfl)

/-- The first byte at which the records of an issue break the rules (R173). -/
def Env.itxFault (e : Env) (s : State) (o : SwpOp) (x : Sweep) : Option Nat :=
  itxBad x.ty e.w.width (e.iter s x.d) (e.itxSources s o x)

/-- Records that keep the rules have a rank of four at most, and so has the operand that names none. -/
theorem Env.itxFault_rank {e : Env} {s : State} {o : SwpOp} {x : Sweep} (h : e.itxFault s o x = none) :
    ∀ p ∈ sweepOpds o x, itRank (e.iter s p) ≤ 4 := by
  have hrank := itxBad_rank h
  have hzero : itRank (e.iter s .zero) ≤ 4 := by
    rw [show e.iter s .zero = 0#512 from rfl, itRank, recField, BitVec.toNat_zero]
    decide
  intro p hp
  by_cases hz : p = .zero
  · rw [hz]
    exact hzero
  · refine hrank _ ?_
    rw [sweepOpds_eq] at hp
    by_cases ho : o = .copy
    · simp only [ho, if_true, List.mem_cons, List.not_mem_nil, or_false] at hp
      obtain rfl | rfl := hp <;> simp [Env.itxSources, ho]
    · simp only [ho, if_false, List.mem_cons, List.not_mem_nil, or_false] at hp
      obtain rfl | rfl | rfl := hp <;> simp [Env.itxSources, ho, hz]
      split <;> simp

/-- IDX of the progress of an issue, in dimension i. -/
def Env.itxIndex (e : Env) (s : State) (x : Sweep) (i : Nat) : Nat :=
  if e.prog * e.w.width < itCount (e.iter s x.d) then itIndex (e.iter s x.d) (e.prog * e.w.width) i else 0

/-- The wave after a segment of itx: IDX of the records named goes on, or to zero. -/
def Env.itxEnd (e : Env) (s : State) (o : SwpOp) (x : Sweep) (w : Wave) : Wave :=
  w.setIdx (e.iter s x.d) (if e.prog + 1 < ceilDiv (itCount (e.iter s x.d)) e.w.width then some ((e.prog + 1) * e.w.width) else none)
    (sweepOpds o x)

/-- The lanes of a segment that have an element. -/
def Env.itxLanes (e : Env) (s : State) (x : Sweep) : List Nat :=
  (lanesOf (e.real (e.guard x.h))).filter fun l => e.prog * e.w.width + l < itCount (e.iter s x.d)

/-- The elements of a segment. -/
def Env.itxElems (e : Env) (s : State) (o : SwpOp) (x : Sweep) : Except Trap (List Elem) :=
  collect (fun l => e.itElem s x (o != .copy) (e.prog * e.w.width + l) l) (e.itxLanes s x)

theorem Env.charge_format (e : Env) (s : State) {m : BitVec 64} (hm : e.real m ≠ 0) (b : Nat) :
    e.charge s m (itTrap b) = .error (.trap { itTrap b with lane := some (lowLane (e.real m)) }) := by
  rw [Env.charge, if_pos (bne_iff_ne.mpr hm)]

theorem Env.guard_of_real {e : Env} {hd : Head} (hreal : e.real (e.guard hd) ≠ 0) : e.guard hd ≠ 0 := by
  intro hg
  rw [hg] at hreal
  exact hreal (by simp [Env.real])

theorem Env.itxIndex_all {s : State} {e : Env} {x : Sweep} :
    (((List.range (itRank (e.iter s x.d))).all fun i => itIdx (e.iter s x.d) i == e.itxIndex s x i) = true)
    ↔ ∀ i, i < itRank (e.iter s x.d) → itIdx (e.iter s x.d) i = e.itxIndex s x i := by
  simp only [List.all_eq_true, List.mem_range, beq_iff_eq]

section
variable {s : State} {e : Env} (h : Issuing s e) {o : SwpOp} {x : Sweep}
include h

theorem exec_itx_nothing (hnone : e.guard x.h = 0) : ∃ t, exec (.itx o x) s = .next t ∧ NothingLeft s t e :=
  ⟨_, (onIssue_next h.1 (if_pos hnone) : execItx o x s = _), Env.setPix_nothingLeft h⟩

/-- itx with records that break the rules. -/
theorem exec_itx_bad (hreal : e.real (e.guard x.h) ≠ 0) (hseg : e.lead1.seg ≠ 2) {b : Nat} (hb : e.itxFault s o x = some b) :
    exec (.itx o x) s = .next (s.takeFault e.w e.p.lanes e.p.slot
      { itTrap b with lane := some (lowLane (e.real (e.guard x.h))) }).stopIssue := by
  refine (onIssue_stop (x := .trap _) h.1 ?_ : execItx o x s = _)
  rw [if_neg (Env.guard_of_real hreal), Env.itxSources_eq, if_neg hseg]
  unfold Env.itxFault at hb
  rw [hb]
  exact Env.charge_format e s hreal b

/-- itx that resumes with an IDX that does not meet its progress. -/
theorem exec_itx_astray (hreal : e.real (e.guard x.h) ≠ 0) (hseg : e.lead1.seg = 0) (hnone : e.itxFault s o x = none)
    (hinp : e.p.inp = true) (hidx : ∃ i, i < itRank (e.iter s x.d) ∧ itIdx (e.iter s x.d) i ≠ e.itxIndex s x i) :
    exec (.itx o x) s = .next (s.takeFault e.w e.p.lanes e.p.slot
      { itTrap 0x28 with lane := some (lowLane (e.real (e.guard x.h))) }).stopIssue := by
  have hsame : ((List.range (itRank (e.iter s x.d))).all fun i => itIdx (e.iter s x.d) i == e.itxIndex s x i) = false := by
    obtain ⟨i, hi, hne⟩ := hidx
    exact Bool.eq_false_iff.mpr fun hall => hne (Env.itxIndex_all.mp hall i hi)
  refine (onIssue_stop (x := .trap _) h.1 ?_ : execItx o x s = _)
  rw [if_neg (Env.guard_of_real hreal), Env.itxSources_eq]
  unfold Env.itxFault at hnone
  unfold Env.itxIndex at hsame
  rw [hnone, ite_self]
  simp only [hsame, hinp, hseg]
  exact Env.charge_format e s hreal 0x28

/-- itx with records that keep the rules is one issue of its sweep. -/
theorem exec_itx_sweep (hg : e.guard x.h ≠ 0) (hrec : e.lead1.seg = 2 ∨ e.itxFault s o x = none)
    (hidx : e.lead1.seg = 0 → e.p.inp = true → ∀ i, i < itRank (e.iter s x.d) → itIdx (e.iter s x.d) i = e.itxIndex s x i)
    {xs : List Elem} (hxs : e.itxElems s o x = .ok xs)
    (hwr : e.lead1.seg = 1 → ∀ y ∈ xs, ∀ a, y.d = some (.glob, a) → (s.translate (taskAcc e.t true) a).isOk = true) {t : State}
    (ht : (e.withWave (e.itxWave s o x)).sweep s (.itx o x) o x.ty (e.real (e.guard x.h)) (.ok xs) e.prog
      (ceilDiv (itCount (e.iter s x.d)) e.w.width) (e.itxEnd s o x) = .ok t) : exec (.itx o x) s = .next t := by
  have hgood : (if e.lead1.seg = 2 then none else itxBad x.ty e.w.width (e.iter s x.d) (e.itxSources s o x)) = none := by
    obtain hseg | hnone := hrec
    · rw [if_pos hseg]
    · exact (if_congr Iff.rfl rfl hnone).trans (ite_self _)
  have hmeets : (e.p.inp && decide (e.lead1.seg = 0) && !(List.range (itRank (e.iter s x.d))).all fun i =>
      itIdx (e.iter s x.d) i == e.itxIndex s x i) = false := by
    by_cases hstart : e.lead1.seg = 0 ∧ e.p.inp = true
    · rw [Env.itxIndex_all.mpr (hidx hstart.1 hstart.2), Bool.not_true, Bool.and_false]
    · rw [Bool.and_eq_false_iff]
      exact .inl (by simpa [and_comm] using hstart)
  have hcollect : collect (fun l => (e.withWave (e.itxWave s o x)).itElem s x (o != .copy) (e.prog * e.w.width + l) l)
      (e.itxLanes s x) = .ok xs := by
    rw [← hxs, Env.itxElems]
    refine congrArg (fun f => collect f (e.itxLanes s x)) (funext fun l => Env.itxWave_element e s _ l fun _ hseg => ?_)
    exact Env.itxFault_rank (hrec.resolve_left (by rw [hseg]; decide))
  have hwritable : (if e.lead1.seg = 1 then (e.withWave (e.itxWave s o x)).writable s xs else none) = none := by
    by_cases hseg : e.lead1.seg = 1
    · rw [if_pos hseg]
      exact Env.writable_none (hwr hseg)
    · rw [if_neg hseg]
  refine (onIssue_next h.1 ?_ : execItx o x s = _)
  rw [if_neg hg, Env.itxSources_eq]
  unfold Env.itxIndex at hmeets
  simp only [hgood, hmeets, Bool.false_eq_true, if_false]
  refine Eq.trans ?_ ht
  refine congrArg (fun r => (e.withWave (e.itxWave s o x)).sweep s (.itx o x) o x.ty (e.real (e.guard x.h)) r e.prog
    (ceilDiv (itCount (e.iter s x.d)) e.w.width) (e.itxEnd s o x)) ?_
  split
  · next tr hbad => cases hcollect.symm.trans hbad
  · next ys hys =>
    obtain rfl := Except.ok.inj (hcollect.symm.trans hys)
    split
    · next tr hbad => cases hwritable.symm.trans hbad
    · rfl

section
variable (ht : o.takes x.ty = true) (hg : e.guard x.h ≠ 0) (hf : NoFaultMet e)
  (hrec : e.lead1.seg = 2 ∨ e.itxFault s o x = none)
  (hidx : e.lead1.seg = 0 → e.p.inp = true → ∀ i, i < itRank (e.iter s x.d) → itIdx (e.iter s x.d) i = e.itxIndex s x i)
  {xs : List Elem} (hxs : e.itxElems s o x = .ok xs)
include hg hf hrec hidx hxs

/-- The reads of a segment of itx; IDX starts at zero. -/
theorem exec_itx_reads (hseg : e.lead1.seg = 0) : ∃ t, exec (.itx o x) s = .next t
    ∧ Midway s t e 1 (e.w.out ++ segmentReads e (.itx o x) o xs)
    ∧ (e.p.inp = false → ∃ w, t.wave? e.w.id = some w ∧ ∀ m : Fin 8, m.val < e.w.iters.length → .j m ∈ sweepOpds o x →
      ∀ i, i < itRank (e.iter s x.d) → itIdx (getAt w.iters m.val 0) i = 0) := by
  obtain ⟨t, w, hsweep, hmid, hw, hiters⟩ := Env.sweep_reads (i := .itx o x) (o := o) (ty := x.ty) (xs := xs) (k := e.prog)
    (n := ceilDiv (itCount (e.iter s x.d)) e.w.width) h (e.itxWave_kept s o x) hf (e.real (e.guard x.h)) (e.itxEnd s o x) hseg
  refine ⟨t, exec_itx_sweep h hg hrec hidx hxs (fun h1 => ?_) hsweep, hmid, fun hinp => ⟨w, hw, fun m hm hname i hi => ?_⟩⟩
  · rw [hseg] at h1
    cases h1
  · have hrank : itRank (e.iter s x.d) ≤ 4 :=
      Env.itxFault_rank (hrec.resolve_left (by rw [hseg]; decide)) x.d (by rw [sweepOpds_eq]; split <;> simp)
    exact Wave.setIdx_indices (n := none) (hiters.trans (e.itxWave_start s o x hinp hseg)) hrank (fun hne => absurd rfl hne) m hm
      hname i hi

include ht

/-- The results of a segment of itx. -/
theorem exec_itx_writes (hseg : e.lead1.seg = 1)
    (hwr : ∀ y ∈ xs, ∀ a, y.d = some (.glob, a) → (s.translate (taskAcc e.t true) a).isOk = true) :
    ∃ t, exec (.itx o x) s = .next t ∧ SegmentWrites s t e (.itx o x) o x.ty xs := by
  have hlanes : ∀ y ∈ xs, (e.real (e.guard x.h)).getLsbD y.lane = true := by
    intro y hy
    obtain ⟨l, hl, hy'⟩ := mem_collect hxs hy
    rw [Env.element1_lane hy']
    exact (List.mem_filter.mp (List.mem_filter.mp hl).1).2
  obtain ⟨t, hsweep, hwrites⟩ := Env.sweep_writes (i := .itx o x) (k := e.prog)
    (n := ceilDiv (itCount (e.iter s x.d)) e.w.width) h (e.itxWave_kept s o x) hf ht (e.real (e.guard x.h)) (e.itxEnd s o x) hseg
    hlanes
  exact ⟨t, exec_itx_sweep h hg hrec hidx hxs (fun _ => hwr) hsweep, hwrites⟩

/-- The end of a segment of itx: IDX goes on to the next segment's first element, or to zero. -/
theorem exec_itx_ends (hseg : e.lead1.seg = 2) (hsettled : s.unsettled e.w e.p.lanes = false) :
    ∃ t, exec (.itx o x) s = .next t ∧ SegmentEnds e t o x.ty (e.real (e.guard x.h)) e.prog
        (ceilDiv (itCount (e.iter s x.d)) e.w.width)
      ∧ (itRank (e.iter s x.d) ≤ 4 → (∀ i, i < itRank (e.iter s x.d) → 0 < itExt (e.iter s x.d) i) →
        ∃ w, t.wave? e.w.id = some w ∧ ∀ m : Fin 8, m.val < e.w.iters.length → .j m ∈ sweepOpds o x →
          ∀ i, i < itRank (e.iter s x.d) → itIdx (getAt w.iters m.val 0) i =
            if e.prog + 1 < ceilDiv (itCount (e.iter s x.d)) e.w.width
              then itIndex (e.iter s x.d) ((e.prog + 1) * e.w.width) i else 0) := by
  obtain ⟨t, u, w, hsweep, hends, hu, hw, hiters⟩ := Env.sweep_ends (i := .itx o x) (hd := x.h) (k := e.prog)
    (n := ceilDiv (itCount (e.iter s x.d)) e.w.width) h (e.itxWave_kept s o x) hf ht (.ok xs) (fin := e.itxEnd s o x)
    (fun u => ⟨rfl, rfl⟩) hseg hsettled
  refine ⟨t, exec_itx_sweep h hg hrec hidx hxs (fun h1 => ?_) hsweep, hends,
    fun hrank hext => ⟨w, hw, fun m hm hname i hi => ?_⟩⟩
  · rw [hseg] at h1
    cases h1
  · have hu' : u.iters = e.w.iters := hu.trans (e.itxWave_iters s o x (.inr (by rw [hseg]; decide)))
    rw [Wave.setIdx_indices hiters hrank (fun _ => hext) m (by rw [hu']; exact hm) hname i hi]
    split <;> rfl

end

end

theorem iterators : iteratorsHolds := by
  refine ⟨fun s e h o x ht => ?_, fun r i dd _ => itIndex_eq_tileIndex r i dd, fun r sh i hsp _ => itAddr_eq i hsp⟩
  intro k real part inp opds d srcs total units lanes index indices bad
  have hopds : sweepOpds o x = opds := sweepOpds_eq o x
  refine ⟨exec_itx_nothing h, fun b hreal hpart hb => ⟨_, rfl, rfl, rfl, exec_itx_bad h hreal hpart hb⟩,
    fun hreal hpart hnone hinp hidx => ⟨_, rfl, rfl, rfl, exec_itx_astray h hreal hpart hnone hinp hidx⟩,
    fun xs hg hf hrec hidx hxs => ⟨fun hpart => ?_, fun hpart hwr => exec_itx_writes h ht hg hf hrec hidx hxs hpart hwr,
      fun hpart hsettled => ?_⟩⟩
  · have hreads := exec_itx_reads h hg hf hrec hidx hxs hpart
    rw [hopds] at hreads
    exact hreads
  · have hends := exec_itx_ends h ht hg hf hrec hidx hxs hpart hsettled
    rw [hopds] at hends
    exact hends

/-- Settles O28, from the parts of a segment that swp and itx share: its reads, its results and its end. -/
theorem sweepsAndIterators : Obligations.SweepsAndIterators := ⟨sweeps, iterators⟩

end Sys2Proof.Machine
end

section
/-! The memories of a core (spec/07 R206, R216, R218; spec/11 R313 to R316): tile stores and weight buffers, like
scratchpads, keep the codes of their bytes. A memory after writes is described as the old one with bytes laid over it. -/

namespace Sys2Proof.Machine

/-! ## Places of a core -/

/-- The memories of a core. -/
def Place.ofCore (c : Nat) (p : Place) : Prop := p = .spad c ∨ p = .tile c ∨ p = .wbuf c

theorem Place.ofCore.plain {c : Nat} {p : Place} (hp : p.ofCore c) (s : State) : (s.fill p).plain := by
  obtain rfl | rfl | rfl := hp <;> exact ⟨rfl, rfl⟩

theorem State.memOk_ofCore {s : State} (h : s.memOk = true) {c : Nat} (hc : c < s.cores.length) {p : Place}
    (hp : p.ofCore c) : (s.mem p).wf = true := by
  simp only [State.memOk, Bool.and_eq_true, List.all_eq_true] at h
  obtain ⟨⟨⟨-, hcores⟩, -⟩, -⟩ := h
  have hmem : s.core c ∈ s.cores := by
    simp only [State.core, getAt, List.getD, List.getElem?_eq_getElem hc, Option.getD_some]
    exact List.getElem_mem hc
  obtain ⟨⟨hspad, htile⟩, hwbuf⟩ := hcores _ hmem
  obtain rfl | rfl | rfl := hp
  · exact hspad
  · exact htile
  · exact hwbuf

theorem State.core_setCore {s : State} {c : Nat} (x : Core) (hc : c < s.cores.length) (n : Nat) :
    (s.setCore c x).core n = if n = c then x else s.core n := by
  rw [State.core, State.setCore, getAt_set _ _ _ _ _ hc, State.core]

theorem State.core_setMem {s : State} {c : Nat} {p : Place} (hp : p.ofCore c) (hc : c < s.cores.length) (m : Memory) :
    (s.setMem p m).core c = match p with
      | .spad _ => { s.core c with spad := m }
      | .tile _ => { s.core c with tile := m }
      | _ => { s.core c with wbuf := m } := by
  obtain rfl | rfl | rfl := hp <;> simp only [State.setMem, State.core_setCore _ hc, if_true]

theorem State.setMem_other {s : State} {c : Nat} {p q : Place} (hp : p.ofCore c) (hc : c < s.cores.length) (m : Memory)
    (hq : q ≠ p) : (s.setMem p m).mem q = s.mem q := by
  cases q with
  | dev | host | peer => obtain rfl | rfl | rfl := hp <;> rfl
  | spad n | tile n | wbuf n =>
    by_cases hn : n = c
    · subst hn
      obtain rfl | rfl | rfl := hp <;> simp_all [State.mem, State.setMem, State.core_setCore _ hc]
    · obtain rfl | rfl | rfl := hp <;> simp [State.mem, State.setMem, State.core_setCore _ hc, hn]

theorem State.setMem_ofCore {s : State} {c : Nat} {p : Place} (hp : p.ofCore c) (hc : c < s.cores.length) (m : Memory) :
    (s.setMem p m).mem p = m := by
  obtain rfl | rfl | rfl := hp <;> exact State.setMem_mem s _ m hc

@[simp] theorem State.fill_setMem (s : State) (p q : Place) (m : Memory) : (s.setMem p m).fill q = s.fill q := by
  cases p <;> cases q <;> rfl

theorem State.setMem_coreCount {c : Nat} {p : Place} (hp : p.ofCore c) (s : State) (m : Memory) :
    (s.setMem p m).cores.length = s.cores.length := by
  obtain rfl | rfl | rfl := hp <;> exact List.length_set ..

/-- A write of bytes leaves the resident images of the cores (R219). -/
theorem State.setMem_images {s : State} {c : Nat} {p : Place} (hp : p.ofCore c) (hc : c < s.cores.length) (m : Memory)
    (n : Nat) : ((s.setMem p m).core n).images = (s.core n).images := by
  obtain rfl | rfl | rfl := hp <;> simp only [State.setMem, State.core_setCore _ hc] <;> split <;> simp_all

/-! ## Bytes laid over a memory -/

/-- Bytes laid from an address on over others. -/
def laid (f : Nat → Option Byte) (a : Nat) (bs : List Byte) (b : Nat) : Option Byte :=
  if a ≤ b ∧ b < a + bs.length then some (bs.getD (b - a) 0) else f b

theorem laid_append (f : Nat → Option Byte) (a : Nat) (bs cs : List Byte) :
    laid (laid f a bs) (a + bs.length) cs = laid f a (bs ++ cs) := by
  funext b
  unfold laid
  simp only [List.length_append]
  by_cases h1 : a + bs.length ≤ b ∧ b < a + bs.length + cs.length
  · rw [if_pos h1, if_pos (by omega), List.getD_append_right _ _ _ _ (by omega), Nat.sub_sub]
  · rw [if_neg h1]
    by_cases h2 : a ≤ b ∧ b < a + bs.length
    · rw [if_pos h2, if_pos (by omega), List.getD_append _ _ _ _ (by omega)]
    · rw [if_neg h2, if_neg (by omega)]

/-- Of the rows from `base` on, `pitch` bytes apart and `len` bytes long, those below n that have data. -/
def rowsOver (base pitch len : Nat) (data : Nat → Option (List Byte)) (n b : Nat) : Option Byte :=
  if base ≤ b ∧ (b - base) / pitch < n ∧ (b - base) % pitch < len
  then (data ((b - base) / pitch)).map (·.getD ((b - base) % pitch) 0) else none

section
variable {base pitch len : Nat} {data : Nat → Option (List Byte)}

theorem rowsOver_zero : rowsOver base pitch len data 0 = fun _ => none := by
  funext b
  rw [rowsOver, if_neg fun h => absurd h.2.1 (Nat.not_lt_zero _)]

theorem rowsOver_skip {n : Nat} (hn : data n = none) : rowsOver base pitch len data (n + 1) = rowsOver base pitch len data n := by
  funext b
  unfold rowsOver
  by_cases hb : (b - base) / pitch = n
  · simp [hb, hn]
  · have hlt : (b - base) / pitch < n + 1 ↔ (b - base) / pitch < n := by omega
    simp only [hlt]

theorem rowsOver_at (hlen : len ≤ pitch) {i j : Nat} (hj : j < len) (n : Nat) :
    rowsOver base pitch len data n (base + i * pitch + j) = if i < n then (data i).map (·.getD j 0) else none := by
  have hsub : base + i * pitch + j - base = j + i * pitch := by omega
  have hdiv : (j + i * pitch) / pitch = i := by
    rw [Nat.add_mul_div_right _ _ (by omega), Nat.div_eq_of_lt (by omega), Nat.zero_add]
  have hmod : (j + i * pitch) % pitch = j := by
    rw [Nat.add_mul_mod_self_right, Nat.mod_eq_of_lt (by omega)]
  rw [rowsOver, hsub, hdiv, hmod]
  have hle : base ≤ base + i * pitch + j := by omega
  simp only [hle, hj, true_and, and_true]

theorem rowsOver_outside {n b : Nat} (hb : ∀ i, i < n → data i ≠ none → b < base + i * pitch ∨ base + i * pitch + len ≤ b) :
    rowsOver base pitch len data n b = none := by
  unfold rowsOver
  split
  · next h =>
    obtain ⟨hle, hn, hmod⟩ := h
    have hdm := Nat.div_add_mod' (b - base) pitch
    cases hd : data ((b - base) / pitch) with
    | none => rfl
    | some bs =>
      have := hb _ hn (by rw [hd]; exact Option.some_ne_none _)
      omega
  · rfl

/-- The next row. -/
theorem rowsOver_succ {n : Nat} {bs : List Byte} (hn : data n = some bs) (hbs : bs.length = len) (hlen : len ≤ pitch) :
    laid (rowsOver base pitch len data n) (base + n * pitch) bs = rowsOver base pitch len data (n + 1) := by
  funext b
  unfold laid
  by_cases hb : base + n * pitch ≤ b ∧ b < base + n * pitch + bs.length
  · obtain ⟨j, rfl⟩ := Nat.exists_eq_add_of_le hb.1
    rw [if_pos hb, rowsOver_at hlen (by omega), if_pos (Nat.lt_succ_self n), hn, Option.map_some, Nat.add_sub_cancel_left]
  · rw [if_neg hb]
    unfold rowsOver
    have hdm := Nat.div_add_mod' (b - base) pitch
    by_cases hin : base ≤ b ∧ (b - base) % pitch < len
    · have hne : (b - base) / pitch ≠ n := fun he => by
        rw [he] at hdm
        omega
      have hlt : (b - base) / pitch < n + 1 ↔ (b - base) / pitch < n := by omega
      simp only [hlt]
    · have h0 (k : Nat) : ¬(base ≤ b ∧ (b - base) / pitch < k ∧ (b - base) % pitch < len) := fun h => hin ⟨h.1, h.2.2⟩
      rw [if_neg (h0 n), if_neg (h0 (n + 1))]

end

/-- The state t has the memories of s, with the bytes of f laid over those of one of a core's (R313 to R316). -/
structure Overlaid (s t : State) (p : Place) (f : Nat → Option Byte) : Prop where
  wf : (t.mem p).wf = true
  count : t.cores.length = s.cores.length
  images : ∀ n, (t.core n).images = (s.core n).images
  other : ∀ q a n, q ≠ p → t.readAt q a n = s.readAt q a n
  byte : ∀ b, t.readAt p b 1 = match f b with
    | some x => .ok [x]
    | none => s.readAt p b 1

namespace Overlaid

variable {s t : State} {c : Nat} {p : Place} {f : Nat → Option Byte}

theorem refl (h : (s.mem p).wf = true) : Overlaid s s p fun _ => none :=
  ⟨h, rfl, fun _ => rfl, fun _ _ _ _ => rfl, fun _ => rfl⟩

/-- Steps that leave the memories of cores as they are. -/
theorem keep {u : State} (h : Overlaid s t p f) (hbytes : SameBytes t u) (hcores : u.cores = t.cores) : Overlaid s u p f := by
  refine ⟨?_, by rw [hcores, h.count], fun n => ?_, fun q a n hq => ?_, fun b => ?_⟩
  · rw [(hbytes p).1, h.wf]
  · rw [← h.images n, State.core, hcores, State.core]
  · rw [hbytes.readAt, h.other q a n hq]
  · rw [hbytes.readAt, h.byte b]

/-- What reads right goes on to do so. -/
theorem isOk (h : Overlaid s t p f) {b : Nat} (hb : (s.readAt p b 1).isOk = true) : (t.readAt p b 1).isOk = true := by
  rw [h.byte b]
  cases f b
  · exact hb
  · rfl

/-- A range that nothing is laid over reads as before. -/
theorem untouched (h : Overlaid s t p f) {a n : Nat} {bs : List Byte} (hf : ∀ i, i < n → f (a + i) = none)
    (hs : s.readAt p a n = .ok bs) : t.readAt p a n = .ok bs := by
  obtain ⟨hlen, hall⟩ := State.readAt_eq_ok_iff.mp hs
  refine State.readAt_eq_ok_iff.mpr ⟨hlen, fun i hi => ?_⟩
  rw [h.byte, hf i hi, hall i hi]

/-- A range that bytes are laid over reads as them. -/
theorem reads (h : Overlaid s t p f) {a : Nat} {bs : List Byte} (hf : ∀ i, i < bs.length → f (a + i) = some (bs.getD i 0)) :
    t.readAt p a bs.length = .ok bs := by
  refine State.readAt_eq_ok_iff.mpr ⟨rfl, fun i hi => ?_⟩
  rw [h.byte, hf i hi]

theorem elsewhere (h : Overlaid s t p f) {q : Place} {b : Nat} (hb : q = p → f b = none) :
    t.readAt q b 1 = s.readAt q b 1 := by
  by_cases hq : q = p
  · rw [hq, h.byte, hb hq]
  · exact h.other q b 1 hq

/-- Bytes laid over one range. -/
theorem single {a : Nat} {bs : List Byte} (h : Overlaid s t p (laid (fun _ => none) a bs)) :
    t.readAt p a bs.length = .ok bs ∧ OtherBytes s t p a bs.length := by
  refine ⟨h.reads fun i hi => ?_, fun q b hb => h.elsewhere fun hq => ?_⟩
  · rw [laid, if_pos (by omega), Nat.add_sub_cancel_left]
  · rw [laid, if_neg]
    obtain hne | hlt | hge := hb
    · exact absurd hq hne
    · omega
    · omega

variable (hp : p.ofCore c) (hc : c < s.cores.length)
include hp hc

/-- A write of bytes whose granules read right, or of whole granules. -/
theorem setMem (h : Overlaid s t p f) {m : Memory} {a : Nat} {bs : List Byte} (hw : Wrote (t.fill p) (t.mem p) m a bs)
    (hside : (∀ i, i < bs.length → (t.readAt p (a + i) 1).isOk = true) ∨ a % 8 = 0 ∧ bs.length % 8 = 0) :
    Overlaid s (t.setMem p m) p (laid f a bs) := by
  have hct : c < t.cores.length := by rw [h.count]; exact hc
  have hmem := State.setMem_ofCore hp hct m
  refine ⟨by rw [hmem, hw.wf], by rw [State.setMem_coreCount hp, h.count], fun n => ?_, fun q b n hq => ?_, fun b => ?_⟩
  · rw [State.setMem_images hp hct, h.images]
  · rw [← h.other q b n hq, State.readAt, State.setMem_other hp hct m hq, State.fill_setMem, State.readAt]
  · rw [State.readAt, hmem, State.fill_setMem, Memory.read_one, laid]
    by_cases hb : a ≤ b ∧ b < a + bs.length
    · obtain ⟨i, rfl⟩ := Nat.exists_eq_add_of_le hb.1
      have hi : i < bs.length := by omega
      rw [if_pos hb, hw.touched i hi, hw.inside i hi, Nat.add_sub_cancel_left]
    · have hcheck : m.check (t.fill p) (b / 8) = (t.mem p).check (t.fill p) (b / 8) := by
        by_cases ht : ∃ i, i < bs.length ∧ (a + i) / 8 = b / 8
        · obtain ⟨i, hi, he⟩ := ht
          obtain hok | haligned := hside
          · rw [← he, hw.touched i hi, (Memory.read_one_isOk _ _ _).mp (hok i hi)]
          · omega
        · exact hw.untouched _ fun i hi he => ht ⟨i, hi, he⟩
      rw [if_neg hb, hcheck, hw.outside b (by omega), ← Memory.read_one]
      exact h.byte b

/-- A write over a range that reads right (R316). -/
theorem write (h : Overlaid s t p f) {a : Nat} {bs : List Byte}
    (hok : ∀ i, i < bs.length → (t.readAt p (a + i) 1).isOk = true) :
    ∃ u, t.writeAt p a bs = .ok u ∧ Overlaid s u p (laid f a bs) := by
  have hplain := hp.plain t
  obtain ⟨m, hm, hw⟩ := Memory.writeFrom_wrote hplain (bs.length / 8 + 2) h.wf (a := a) (bs := bs) (by omega)
    fun i hi => (Memory.read_one_isOk _ _ _).mp (hok i hi)
  refine ⟨t.setMem p m, ?_, h.setMem hp hc hw (.inl hok)⟩
  rw [State.writeAt, Memory.write, hplain.1, if_pos rfl, hm]

/-- A write of a whole granule, which does not read it (R313). -/
theorem putGranule (h : Overlaid s t p f) {a : Nat} {bs : List Byte} (ha : a % 8 = 0) (hlen : bs.length = 8) :
    Overlaid s (t.putAt p a bs) p (laid f a bs) := by
  have hplain := hp.plain t
  have hw := Memory.putGranule_wrote hplain h.wf (a / 8) hlen
  rw [Nat.mul_div_cancel' (Nat.dvd_of_mod_eq_zero ha)] at hw
  have hput : t.putAt p a bs = t.setMem p ((t.mem p).putGranule (a / 8) bs) := by
    have htake : bs.take 8 = bs := List.take_of_length_le (by omega)
    have hdrop : bs.drop 8 = [] := List.drop_eq_nil_of_le (by omega)
    have hne : bs.isEmpty = false := by cases bs <;> simp_all
    simp [State.putAt, State.writeAt, Memory.write, hplain.1, hlen, Memory.writeFrom, hne, ha, Memory.mergeGranule, htake,
      hdrop]
  rw [hput]
  exact h.setMem hp hc hw (.inr ⟨ha, by omega⟩)

end Overlaid

/-! ## Copies (R315) -/

theorem delKey_of_none {α : Type} {l : List (Nat × α)} {k : Nat} (h : getKey l k = none) : delKey l k = l := by
  induction l with
  | nil => rfl
  | cons x r ih =>
    obtain ⟨j, y⟩ := x
    rw [getKey] at h
    rw [delKey]
    by_cases hk : k = j
    · rw [if_pos hk] at h
      cases h
    · rw [if_neg hk] at h ⊢
      by_cases hlt : k < j
      · rw [if_pos hlt]
      · rw [if_neg hlt] at h ⊢
        rw [ih h]

/-- The code stored with a granule that reads right is that of its bytes. -/
theorem Memory.stored_of_check {f : Fill} (hf : f.plain) {m : Memory} {g : Nat} (h : m.check f g = none) :
    m.stored f g = checkCode (m.granule f g) := by
  rw [Memory.check_plain hf] at h
  rw [Memory.stored, hf.2]
  cases hk : getKey m.codes g with
  | none => rfl
  | some x =>
    rw [hk] at h
    by_cases hx : x = checkCode (m.granule f g)
    · exact hx
    · simp [hx] at h

/-- A granule that reads right, carried with its code, is written as its bytes. -/
theorem Memory.carry_take {f f' : Fill} (hf : f.plain) (hf' : f'.plain) {src dst : Memory} (hwf : dst.wf = true) {g : Nat}
    (hg : src.check f g = none) (g' : Nat) :
    dst.carry f' g' (src.take f g) = dst.putGranule g' (src.bytes f (8 * g) 8) := by
  have hlen := src.bytes_length f (8 * g) 8
  have hw := Memory.putGranule_wrote hf' hwf g' hlen
  have hgranule : (dst.putGranule g' (src.bytes f (8 * g) 8)).granule f' g' = src.granule f g := by
    rw [Memory.granule, Memory.granule]
    congr 1
    refine List.ext_getElem (by rw [Memory.bytes_length, hlen]) fun i hi hi' => ?_
    rw [Memory.bytes_length] at hi
    have hin := hw.inside i (by omega)
    rw [← Memory.bytes_getD f' _ hi] at hin
    simpa [List.getD, hi, hlen, Memory.bytes_length] using hin
  rw [Memory.carry, hf'.1, if_pos rfl, Memory.take, Memory.setCode, hgranule, Memory.stored_of_check hf hg, if_pos rfl]
  have hnone : getKey (dst.putGranule g' (src.bytes f (8 * g) 8)).codes g' = none := by
    have hrise := ((Memory.wf_iff _).mp (Memory.put_wf dst (8 * g') (src.bytes f (8 * g) 8) hwf)).2
    rw [Memory.putGranule, getKey_delKey _ _ _ hrise, if_pos rfl]
  rw [delKey_of_none hnone]

theorem Memory.bytes_add (f : Fill) (m : Memory) (a n k : Nat) : m.bytes f a (n + k) = m.bytes f a n ++ m.bytes f (a + n) k := by
  induction n generalizing a with
  | zero => simp [Memory.bytes]
  | succ n ih =>
    rw [show n + 1 + k = n + k + 1 by omega, Memory.bytes, Memory.bytes, ih, List.cons_append,
      show a + 1 + n = a + (n + 1) by omega]

/-- Granules that read right, copied with their codes, are written as their bytes. -/
theorem Memory.copyGranules_wrote {f f' : Fill} (hf : f.plain) (hf' : f'.plain) {src : Memory} {n g : Nat}
    (hsrc : ∀ i, i < n → src.check f (g + i) = none) {dst : Memory} (hwf : dst.wf = true) (g' : Nat) :
    Wrote f' dst (src.copyGranules f g f' dst g' n) (8 * g') (src.bytes f (8 * g) (8 * n)) := by
  induction n generalizing g g' dst with
  | zero => exact .nil hwf _
  | succ n ih =>
    have h0 : src.check f g = none := hsrc 0 (by omega)
    rw [Memory.copyGranules, Memory.carry_take hf hf' hwf h0 g']
    have hlen := src.bytes_length f (8 * g) 8
    have h1 := Memory.putGranule_wrote hf' hwf g' hlen
    have h2 := ih (g := g + 1) (fun i hi => by rw [Nat.add_assoc, Nat.add_comm 1]; exact hsrc (i + 1) (by omega)) h1.wf (g' + 1)
    rw [show 8 * (g' + 1) = 8 * g' + (src.bytes f (8 * g) 8).length by omega] at h2
    have hall := h1.append h2
    rwa [show 8 * (g + 1) = 8 * g + 8 by omega, ← Memory.bytes_add, show 8 + 8 * n = 8 * (n + 1) by omega] at hall

/-- Granules of one memory of a core laid over another. -/
theorem State.copyGranules_overlaid {s : State} {c : Nat} {p q : Place} (hp : p.ofCore c) (hq : q.ofCore c)
    (hc : c < s.cores.length) (hmem : s.memOk = true) {a d n : Nat} (ha : a % 8 = 0) (hd : d % 8 = 0) {bs : List Byte}
    (hread : s.readAt p a (8 * n) = .ok bs) :
    Overlaid s (s.setMem q ((s.mem p).copyGranules (s.fill p) (a / 8) (s.fill q) (s.mem q) (d / 8) n)) q
      (laid (fun _ => none) d bs) := by
  obtain ⟨hcheck, rfl⟩ := Memory.read_eq_ok_iff.mp hread
  have hwf := State.memOk_ofCore hmem hc hq
  have hw := Memory.copyGranules_wrote (hp.plain s) (hq.plain s) (src := s.mem p) (n := n) (g := a / 8) (fun i hi => by
    have := hcheck (8 * i) (by omega)
    rwa [show (a + 8 * i) / 8 = a / 8 + i by omega] at this) hwf (d / 8)
  rw [show 8 * (d / 8) = d by omega, show 8 * (a / 8) = a by omega] at hw
  exact (Overlaid.refl hwf).setMem hq hc hw (.inr ⟨hd, by rw [Memory.bytes_length]; omega⟩)

end Sys2Proof.Machine
end

section
/-! mfmt, mbst and opfence (spec/07 R202, R204, R205, R229). -/

namespace Sys2Proof.Machine

theorem bitsOf_eq (x lo n : Nat) : bitsOf x lo n = x / 2 ^ lo % 2 ^ n := by rw [bitsOf, Nat.shiftRight_eq_div_pow]

/-! ## Format modes (R204, R205) -/

theorem getD_beq_iff (o : Option Ty) {t : Ty} (ht : t ≠ .none) : (o.getD .none == t) = true ↔ o = some t := by
  cases o <;> simp [Ne.symm ht]

theorem bitOf_iff (x i : Nat) : bitOf x i = true ↔ x / 2 ^ i % 2 = 1 := by
  rw [bitOf, Nat.testBit_eq_decide_div_mod_eq, decide_eq_true_eq]

theorem beq_bool_iff (a b : Bool) : (a == b) = true ↔ (a = true ↔ b = true) := by
  cases a <;> cases b <;> decide

theorem isMX_getD_iff (o : Option Ty) : isMX (o.getD .none) = true ↔ o ∈ [some Ty.mx8e4, some .mx8e5, some .mx4] := by
  simp only [isMX, Bool.or_eq_true, getD_beq_iff _ (show Ty.mx8e4 ≠ .none by decide),
    getD_beq_iff _ (show Ty.mx8e5 ≠ .none by decide), getD_beq_iff _ (show Ty.mx4 ≠ .none by decide), List.mem_cons,
    List.not_mem_nil, or_false, or_assoc]

/-- The types of A, B and C that R205 lists. -/
def typesOk (a b c : Ty) : Bool :=
  let eight (t : Ty) : Bool := t == .e4m3 || t == .e5m2 || t == .mx8e4 || t == .mx8e5
  let four (t : Ty) : Bool := t == .e2m1 || t == .mx4
  (a == .f64 && b == .f64 && c == .f64) || (a == .f32 && b == .f32 && c == .f32)
    || (a == .f16 && b == .f16 && c == .f32) || (a == .bf16 && b == .bf16 && c == .f32)
    || ((a == .i8 || a == .n8) && (b == .i8 || b == .n8) && c == .i32)
    || ((eight a || four a) && (eight b || four b) && c == .f32)

theorem mfmtOk_eq (v : Nat) : mfmtOk v = (typesOk (matMode v).aty (matMode v).bty (matMode v).cty
    && decide ((matMode v).bcmp ≤ 1) && bitOf (matMode v).scl 0 == isMX (matMode v).aty
    && bitOf (matMode v).scl 1 == isMX (matMode v).bty) := rfl

theorem typesOk_iff (a b c : Option Ty) : typesOk (a.getD .none) (b.getD .none) (c.getD .none) = true ↔
    (a = some .f64 ∧ b = some .f64 ∧ c = some .f64)
    ∨ (c = some .f32 ∧ a = b ∧ a ∈ [some Ty.f32, some .f16, some .bf16])
    ∨ (c = some .i32 ∧ a ∈ [some Ty.i8, some .n8] ∧ b ∈ [some Ty.i8, some .n8])
    ∨ (c = some .f32 ∧ a ∈ [some Ty.e4m3, some .e5m2, some .e2m1, some .mx8e4, some .mx8e5, some .mx4]
      ∧ b ∈ [some Ty.e4m3, some .e5m2, some .e2m1, some .mx8e4, some .mx8e5, some .mx4]) := by
  have hfloat : (a = some .f32 ∧ b = some .f32 ∧ c = some .f32) ∨ (a = some .f16 ∧ b = some .f16 ∧ c = some .f32)
      ∨ (a = some .bf16 ∧ b = some .bf16 ∧ c = some .f32)
      ↔ c = some .f32 ∧ a = b ∧ a ∈ [some Ty.f32, some .f16, some .bf16] := by
    simp only [List.mem_cons, List.not_mem_nil, or_false]
    constructor
    · rintro (⟨ha, hb, hc⟩ | ⟨ha, hb, hc⟩ | ⟨ha, hb, hc⟩) <;> simp [ha, hb, hc]
    · rintro ⟨hc, rfl, ha | ha | ha⟩ <;> simp [ha, hc]
  have hne (t : Ty) (ht : t ≠ .none) (o : Option Ty) := getD_beq_iff o ht
  have hsmall (o : Option Ty) : ((((o = some .e4m3 ∨ o = some .e5m2) ∨ o = some .mx8e4) ∨ o = some .mx8e5)
      ∨ o = some .e2m1 ∨ o = some .mx4
      ↔ o ∈ [some Ty.e4m3, some .e5m2, some .e2m1, some .mx8e4, some .mx8e5, some .mx4]) := by
    simp only [List.mem_cons, List.not_mem_nil, or_false, or_assoc]
    constructor <;> rintro (h | h | h | h | h | h) <;> simp [h]
  simp only [typesOk, Bool.or_eq_true, Bool.and_eq_true, hne .f64 (by decide), hne .f32 (by decide), hne .f16 (by decide),
    hne .bf16 (by decide), hne .i8 (by decide), hne .n8 (by decide), hne .i32 (by decide), hne .e4m3 (by decide),
    hne .e5m2 (by decide), hne .e2m1 (by decide), hne .mx8e4 (by decide), hne .mx8e5 (by decide), hne .mx4 (by decide), hsmall]
  rw [← hfloat]
  simp only [List.mem_cons, List.not_mem_nil, or_false, or_assoc, and_assoc, and_comm (a := c = _)]

/-- The combinations of R205. -/
theorem formatModes_hold : formatModesHolds := by
  intro v _
  have hscl (i : Nat) (hi : i < 2) : bitOf (matMode v).scl i = true ↔ v / 2 ^ (20 + i) % 2 = 1 := by
    show bitOf (bitsOf v 20 2) i = true ↔ _
    rw [← bitOf_iff, bitOf, bitOf, testBit_bitsOf, decide_eq_true hi, Bool.true_and]
  have hcode (lo : Nat) : Ty.ofCode? (bitsOf v lo 6) = Ty.ofCode? (v / 2 ^ lo % 64) :=
    congrArg Ty.ofCode? (bitsOf_eq v lo 6)
  have hlow : v / 2 ^ 0 % 64 = v % 64 := by rw [Nat.pow_zero, Nat.div_one]
  have hbcmp : (matMode v).bcmp = v / 2 ^ 12 % 4 := bitsOf_eq ..
  rw [mfmtOk_eq]
  simp only [Bool.and_eq_true, beq_bool_iff, decide_eq_true_eq, hbcmp, hscl 0 (by decide), hscl 1 (by decide)]
  simp only [matMode, hcode, typesOk_iff, isMX_getD_iff, hlow, and_assoc]

/-! ## mfmt (R204) -/

/-- The value that mfmt writes. -/
def Env.mfmtValue (e : Env) (s : State) (x : MfmtSrc) : Nat :=
  match x with
  | .reg a => (e.usrc s e.p.lanes a).toNat
  | .imm i => i.toNat

theorem execMfmt_eq (h : Head) (x : MfmtSrc) (s : State) : exec (.mfmt h x) s = onIssue s fun e =>
    if e.guard h = 0 then .ok s
    else if 2 ^ 22 ≤ e.mfmtValue s x then e.charge s (e.guard h) (codeTrap e.p .illegalField 0 none)
    else if !mfmtOk (e.mfmtValue s x) then e.charge s (e.guard h) (laneTrap .format 0)
    else .ok (s.setCrew { e.k with mfmt := BitVec.ofNat 64 (e.mfmtValue s x) }) := rfl

section
variable {s : State} {e : Env} (he : s.env? = some e) {h : Head} (hm : e.guard h ≠ 0) (x : MfmtSrc)
include he hm

theorem exec_mfmt_reserved (hge : 2 ^ 22 ≤ e.mfmtValue s x) :
    Charged s e (.mfmt h x) (e.guard h) (codeTrap e.p .illegalField 0 none) :=
  charged_of_charge he (execMfmt_eq h x s) ((if_neg hm).trans (if_pos hge))

theorem exec_mfmt_unlisted (hlt : e.mfmtValue s x < 2 ^ 22) (hbad : mfmtOk (e.mfmtValue s x) = false) :
    Charged s e (.mfmt h x) (e.guard h) (laneTrap .format 0) :=
  charged_of_charge he (execMfmt_eq h x s)
    ((if_neg hm).trans ((if_neg (Nat.not_le.mpr hlt)).trans (if_pos (by rw [hbad]; rfl))))

theorem exec_mfmt (hlt : e.mfmtValue s x < 2 ^ 22) (hok : mfmtOk (e.mfmtValue s x) = true) :
    exec (.mfmt h x) s = .next (s.setCrew { e.k with mfmt := BitVec.ofNat 64 (e.mfmtValue s x) }) := by
  rw [execMfmt_eq]
  exact onIssue_next he ((if_neg hm).trans ((if_neg (Nat.not_le.mpr hlt)).trans (if_neg (by rw [hok]; decide))))

end

/-! ## mbst (R229) -/

theorem exec_mbst {s : State} {e : Env} (he : s.env? = some e) {h : Head} (hm : e.guard h ≠ 0) (n : BitVec 12) :
    exec (.mbst h n) s = .next (s.setCore e.k.core { s.core e.k.core with hold := 16 * n.toNat }) :=
  (onIssue_next he (if_neg hm) : execMbst h n s = _)

/-! ## opfence (R202) -/

/-- The writes that happen before the events of some lanes are those that a lane of them knows. -/
theorem Wave.known_contains (w : Wave) (m : BitVec 64) (n : Nat) : (!(w.known m).contains n) = (lanesOf m).all fun l =>
    let o := (w.th l).ord
    !(o.view.marks.contains n || o.own.contains n || o.loose.contains n) := by
  rw [Bool.eq_iff_iff]
  simp [Wave.known, List.all_eq_true, not_or, and_assoc]

/-- The crew after an opfence: writes that the group knows are ordered, and the accesses before it that are still to be
performed are noted. -/
def Env.fenced (e : Env) (s : State) (m : BitVec 64) : Crew := { e.k with
  dirty := e.k.dirty.filter fun d => !(e.w.known m).contains d.id
  fence := ⟨e.w.id, m, s.tick + (if e.p.slot = e.p.first then 0 else 1)⟩ :: e.k.fence.filter fun x => !s.performed x }

theorem exec_opfence {s : State} {e : Env} (he : s.env? = some e) {h : Head} (hm : e.guard h ≠ 0) :
    ∃ f, exec (.opfence h) s = .next ((s.setCrew (e.fenced s (e.guard h))).orders e.w.id e.w.all f) :=
  ⟨_, (onIssue_next he (if_neg hm) : execOpfence h s = _)⟩

theorem matrixModes_hold : matrixModesHolds := by
  rintro s e h hd m rfl hm
  obtain ⟨he, -, -, -⟩ := h
  obtain ⟨-, hw, hk, -, -⟩ := State.env?_eq he
  have hid := State.crew?_id hk
  refine ⟨fun x v hv => ?_, fun n hc => ⟨_, exec_mbst he hm n, rfl, fun c hne => ?_, ?_⟩, ?_⟩
  · obtain rfl : v = e.mfmtValue s x := hv
    exact ⟨exec_mfmt he hm x, exec_mfmt_unlisted he hm x, fun hge => ⟨_, rfl, exec_mfmt_reserved he hm x hge⟩⟩
  · rw [State.core_setCore _ hc, if_neg hne]
  · rw [State.core_setCore _ hc, if_pos rfl]
  · obtain ⟨f, hexec⟩ := exec_opfence he hm
    have hwave : (s.setCrew (e.fenced s (e.guard hd))).wave? e.w.id = some e.w := hw
    obtain ⟨hrest, w, hw', hreordered⟩ := State.orders_reordered hwave e.w.all f
    have hcrew : (s.setCrew (e.fenced s (e.guard hd))).crew? e.k.id = some (e.fenced s (e.guard hd)) :=
      State.crew?_setCrew (k := e.fenced s (e.guard hd)) (by rw [← hid] at hk; exact hk)
    refine ⟨_, e.fenced s (e.guard hd), w, _, _, hexec, ?_, hw', ?_, rfl, ?_, rfl, rfl, rfl, fun y hy =>
      (List.mem_filter.mp hy).1, fun l _ => hreordered.2.2 l⟩
    · rw [State.crew?, show _ = _ from congrArg State.crews hrest.1]
      exact hcrew
    · exact congrArg (fun u : State => { u with
        waves := s.waves
        crews := s.crews }) hrest.1
    · exact List.filter_congr fun d _ => e.w.known_contains (e.guard hd) d.id

/-- Settles O33. Which thread of a group is charged with a fault is the model's choice (notes/assumptions/14). -/
theorem matrixModes : Obligations.MatrixModes := ⟨matrixModes_hold, formatModes_hold⟩

end Sys2Proof.Machine
end

section
/-! Matrix engine commands as they are entered (spec/07 R198 to R200, R204, R215, R224). -/

namespace Sys2Proof.Machine

/-! ## A command in its crew's queue (R198 to R200) -/

/-- The command that an instruction enters. -/
def Env.newCmd (e : Env) (s : State) (i : Instr) (h : Head) (d a b : Opd) : Cmd :=
  let l := lowLane (e.real (e.guard h))
  { i := i, slot := e.p.slot, wave := e.w.id, lane := l, d := e.usrc s e.p.lanes d, a := e.usrc s e.p.lanes a,
    b := e.usrc s e.p.lanes b, mfmt := e.k.mfmt, mode := e.p.mode, seq := e.k.eseq, rngk := (e.w.th l).rngk,
    rngc := (e.w.th l).rngc, lanes := e.p.lanes, prog := if e.p.inp then e.prog else 0, flags := 0, accepted := false,
    begun := false, image := none, taint := false, issued := s.tick + 1, hot := e.k.dirty.map fun x => (x.span, false),
    behind := e.k.fence.filter fun x => !s.performed x, wait := none }

/-- The crew's first queue register that is bound to MEC (R200). -/
def Crew.tokenQueue (k : Crew) : Option Nat := k.qs.findIdx? fun q => q.kind == 2

/-- The crew with a command more, and with its reserved element. -/
def Crew.entered (k : Crew) (c : Cmd) : Crew := { k with
  cmds := k.cmds ++ [c]
  eseq := (k.eseq + 1) % 2 ^ 32
  fence := c.behind
  wset := (cmdWrites k c).map (fun sp => ⟨c.seq, c.issued, sp⟩) ++ k.wset
  qs := if cmdTok c.i then k.qs.set (k.tokenQueue.getD 0)
    { k.q (k.tokenQueue.getD 0) with elems := (k.q (k.tokenQueue.getD 0)).elems ++ [(c.seq, none)] } else k.qs }

/-- What an instruction that enters a command does, with a format mode where it needs one. -/
def Env.enters (e : Env) (s : State) (fmt : Bool) (w : Wave) (i : Instr) (h : Head) (d a b : Opd) : Except Stop State :=
  if fmt then e.matCommand s w i h d a b else e.command s w i h d a b

section
variable {e : Env} {s : State} {fmt : Bool} {w : Wave} {i : Instr} {h : Head} {d a b : Opd}

theorem Env.enters_nothing (hm : e.real (e.guard h) = 0) : e.enters s fmt w i h d a b = .ok s := by
  cases fmt <;> simp [Env.enters, Env.matCommand, Env.command, hm]

variable (hm : e.real (e.guard h) ≠ 0)
include hm

theorem Env.enters_format (hfmt : fmt = true) (hmode : e.k.mfmt = 0) :
    e.enters s fmt w i h d a b = .error (.trap (laneTrap .format (lowLane (e.real (e.guard h))))) := by
  have hne : (e.real (e.guard h) ≠ 0 && e.k.mfmt = 0) = true := by simp only [hm, hmode, ne_eq, not_false_eq_true, decide_true, Bool.and_self]
  rw [Env.enters, if_pos hfmt, Env.matCommand, if_pos hne]

variable (hmode : fmt = true → e.k.mfmt ≠ 0)
include hmode

omit hm in
theorem Env.enters_command : e.enters s fmt w i h d a b = e.command s w i h d a b := by
  cases fmt with
  | false => rfl
  | true => simp only [Env.enters, Env.matCommand, hmode rfl, decide_false, Bool.and_false, Bool.false_eq_true, if_false, if_true]

theorem Env.enters_full (htok : cmdTok i = false) (hfull : 32 ≤ e.k.cmds.length) :
    e.enters s fmt w i h d a b = e.hold s .command := by
  rw [Env.enters_command hmode, Env.command]
  simp only [hm, htok, hfull, if_false, if_true, Bool.false_and, Bool.false_eq_true]

theorem Env.enters_queue (hroom : e.k.cmds.length < 32)
    (htok : cmdTok i = true → ∃ q, e.k.tokenQueue = some q ∧ 0 < (e.k.q q).free) :
    e.enters s fmt w i h d a b = .ok ((s.setWave w).setCrew (e.k.entered (e.newCmd s i h d a b))) := by
  rw [Env.enters_command hmode, Env.command]
  have hfull : ¬32 ≤ e.k.cmds.length := Nat.not_le.mpr hroom
  have hi : (e.newCmd s i h d a b).i = i := rfl
  cases hc : cmdTok i with
  | false =>
    simp only [hm, hc, hfull, Bool.false_and, Bool.false_eq_true, if_false, Crew.entered, hi]
    rfl
  | true =>
    obtain ⟨q, hq, hfree⟩ := htok hc
    rw [Crew.tokenQueue] at hq
    simp only [hm, hc, hfull, hq, Option.isNone_some, Option.getD_some, hfree.ne', Bool.and_false, Bool.false_eq_true, if_false,
      if_true, Crew.entered, Crew.tokenQueue, hi, decide_false]
    rfl

end

/-! ## The instructions -/

/-- The wave as a command enters: a drain under RSR advances the counter of the drawing thread (R224). -/
def Env.commandWave (e : Env) (i : Instr) : Wave :=
  match i with
  | .mdrn x => if drainRm x e.p.mode = .rsr && e.real (e.guard x.h) ≠ 0 then
      e.w.each (1#64 <<< lowLane (e.real (e.guard x.h))) fun _ th =>
        { th with rngc := th.rngc + BitVec.ofNat 128 (ceilDiv (shapeM x.m * shapeN x.n) 16) }
    else e.w
  | _ => e.w

theorem commandOf_tok {i : Instr} {h : Head} {tok fmt : Bool} {d a b : Opd} (hi : commandOf i = some (h, tok, fmt, d, a, b)) :
    cmdTok i = tok := by
  unfold commandOf at hi
  split at hi <;> cases hi <;> rfl

/-- A command other than mmac. -/
theorem exec_command {s : State} {i : Instr} {h : Head} {tok fmt : Bool} {d a b : Opd}
    (hi : commandOf i = some (h, tok, fmt, d, a, b)) (hother : ∀ x, i ≠ .mmac x) :
    exec i s = onIssue s fun e => e.enters s fmt (e.commandWave i) i h d a b := by
  unfold commandOf at hi
  split at hi
  case h_2 x => exact absurd rfl (hother x)
  case h_7 x =>
    cases hi
    obtain ⟨h, tok, range, tag⟩ := x
    cases range <;> rfl
  case h_9 => cases hi
  all_goals
    cases hi
    rfl

theorem drainRm_rsr_iff (x : Mdrn) (mode : Dword) :
    drainRm x mode = .rsr ↔ x.rm = .rsr ∨ x.rm = .dyn ∧ mode.toNat % 8 = 6 := by
  have hcode : ∀ n < 8, (Rm.ofCode n).getD .rne = .rsr ↔ n = 6 := by decide
  rw [drainRm, ← hcode _ (Nat.mod_lt _ (by decide))]
  by_cases hdyn : x.rm = .dyn <;> simp [hdyn]

theorem Env.commandWave_th (e : Env) {i : Instr} {l : Nat} (hl : l < e.w.threads.length) :
    (e.commandWave i).th l = { e.w.th l with rngc := ((e.commandWave i).th l).rngc } := by
  unfold Env.commandWave
  split
  · split
    · rw [Wave.each_th _ _ _ _ hl]
      split <;> rfl
    · rfl
  · rfl

/-- What a drain draws (R224). -/
theorem Env.commandWave_mdrn (e : Env) {x : Mdrn} (hm : e.real (e.guard x.h) ≠ 0) {l : Nat} (hl : l < e.w.threads.length)
    (h64 : l < 64) : ((e.commandWave (.mdrn x)).th l).rngc =
      if l = lowLane (e.real (e.guard x.h)) ∧ (x.rm = .rsr ∨ x.rm = .dyn ∧ e.p.mode.toNat % 8 = 6)
      then (e.w.th l).rngc + BitVec.ofNat 128 (((x.m.toNat + 1) * (16 * (x.n.toNat + 1)) + 15) / 16)
      else (e.w.th l).rngc := by
  simp only [← drainRm_rsr_iff]
  by_cases hrm : drainRm x e.p.mode = .rsr
  · simp only [Env.commandWave, hrm, hm, ne_eq, not_false_eq_true, decide_true, Bool.and_self, if_true, and_true]
    rw [Wave.each_th _ _ _ _ hl, getLsbD_one_shiftLeft]
    simp only [h64, and_true, decide_eq_true_eq]
    split <;> rfl
  · simp only [Env.commandWave, hrm, decide_false, Bool.false_and, Bool.false_eq_true, if_false, and_false]

theorem Env.commandWave_other (e : Env) {i : Instr} (hi : ∀ x, i ≠ .mdrn x) : e.commandWave i = e.w := by
  unfold Env.commandWave
  split
  · next x => exact absurd rfl (hi x)
  · rfl

theorem Env.commandWave_id (e : Env) (i : Instr) : (e.commandWave i).id = e.w.id := by
  unfold Env.commandWave
  split
  · split <;> rfl
  · rfl

/-! ## mmac (R215) -/

/-- The issuing threads after an mmac has entered its command, or waits for room (R215). -/
def Env.mmacHeld (e : Env) (s1 : State) : State :=
  if s1.iss.isNone then s1
  else (s1.setWave (((s1.wave? e.w.id).getD e.w).each e.p.lanes fun _ th => { th with run := .hold .mmac })).stopIssue

/-- The wave once its operation is done. -/
def Env.mmacPassed (e : Env) : Wave := e.setPix (e.w.each e.p.lanes fun _ th => { th with exch := false }) 0

theorem Env.mmacPassed_th (e : Env) {l : Nat} (hl : l < e.w.threads.length) : e.mmacPassed.th l =
    if e.p.lanes.getLsbD l then { e.w.th l with
      exch := false
      pix := 0
      seg := 0
      mixed := false
      named := []
      again := false } else e.w.th l := by
  rw [Env.mmacPassed, Env.setPix, Wave.each_th _ _ _ _ (by rw [Wave.each_length]; exact hl), Wave.each_th _ _ _ _ hl]
  split
  · simp
  · rfl

section
variable {s : State} {e : Env} (he : s.env? = some e) {x : Mma}
include he

theorem exec_mmac_nothing (hm : e.real (e.guard x.h) = 0) : exec (.mmac x) s = .next s :=
  (onIssue_next he (if_pos hm) : execMmac x s = _)

variable (hm : e.real (e.guard x.h) ≠ 0) (hnone : e.k.mmacOf e.w.id e.p.slot (e.real (e.guard x.h)) = none)
include hm hnone

/-- The operation is done: the threads go on. -/
theorem exec_mmac_done (hdone : (e.w.th (lowLane (e.real (e.guard x.h)))).exch = true) :
    exec (.mmac x) s = .next (s.setWave e.mmacPassed) := by
  refine (onIssue_next he ?_ : execMmac x s = _)
  simp only [hm, hnone, hdone, if_false, if_true, Env.mmacPassed]

variable (hfirst : (e.w.th (lowLane (e.real (e.guard x.h)))).exch = false)
include hfirst

/-- The threads are held once the command is in the queue. -/
theorem exec_mmac_enters : exec (.mmac x) s = onIssue s fun _ =>
    (e.enters s true e.w (.mmac x) x.h x.d x.a x.b).map e.mmacHeld := by
  show execMmac x s = _
  have henters : e.enters s true e.w (.mmac x) x.h x.d x.a x.b = e.matCommand s e.w (.mmac x) x.h x.d x.a x.b := rfl
  rw [execMmac, onIssue_eq he, onIssue_eq he, henters]
  simp only [hm, hnone, hfirst, if_false, Bool.false_eq_true]
  cases e.matCommand s e.w (.mmac x) x.h x.d x.a x.b with
  | error y => rfl
  | ok s1 =>
    simp only [Except.map, Env.mmacHeld]
    cases s1.iss.isNone <;> rfl

end

/-! ## What a command leaves -/

theorem State.held_rest (s : State) (w w' : Wave) (k : Crew) :
    { (((s.setWave w).setCrew k).setWave w').stopIssue with
      waves := s.waves
      crews := s.crews
      iss := s.iss } = s := by
  simp only [State.stopIssue, State.setWave, State.setCrew]

section
variable {s : State} {e : Env} (he : s.env? = some e)
include he

/-- The state with a command more: the crew, the wave, and everything else as before. -/
theorem State.enters_frame {w : Wave} (hw : w.id = e.w.id) (c : Cmd) :
    ((s.setWave w).setCrew (e.k.entered c)).crew? e.k.id = some (e.k.entered c)
    ∧ ((s.setWave w).setCrew (e.k.entered c)).wave? e.w.id = some w := by
  obtain ⟨-, hwave, hcrew, -, -⟩ := State.env?_eq he
  rw [← State.crew?_id hcrew] at hcrew
  exact ⟨State.crew?_setCrew (k := e.k.entered c) (s := s.setWave w) hcrew, by
    rw [State.wave?_setCrew, ← hw]
    exact State.wave?_setWave (by rw [hw]; exact hwave)⟩

/-- An mmac whose command is in the queue holds its threads. -/
theorem Env.mmacHeld_entered (c : Cmd) : e.mmacHeld ((s.setWave e.w).setCrew (e.k.entered c)) =
    (((s.setWave e.w).setCrew (e.k.entered c)).setWave
      (e.w.each e.p.lanes fun _ th => { th with run := .hold .mmac })).stopIssue := by
  obtain ⟨hiss, -, -, -, -⟩ := State.env?_eq he
  have hsome : ((s.setWave e.w).setCrew (e.k.entered c)).iss.isNone = false := by
    show s.iss.isNone = false
    rw [hiss]
    rfl
  rw [Env.mmacHeld, hsome, (State.enters_frame he rfl c).2]
  rfl

end

theorem Crew.entered_queues (k : Crew) (c : Cmd) :
    (cmdTok c.i = false → (k.entered c).qs = k.qs)
    ∧ ∀ q, cmdTok c.i = true → k.tokenQueue = some q →
      (k.entered c).qs = k.qs.set q { k.q q with elems := (k.q q).elems ++ [(c.seq, none)] } := by
  refine ⟨fun htok => ?_, fun q htok hq => ?_⟩
  · rw [Crew.entered, htok]
    rfl
  · rw [Crew.entered, htok, hq]
    rfl

/-- An mmac, before its operation is done (R215). -/
theorem mmac_enters {s : State} {e : Env} (hi : Issuing s e) {x : Mma} (hm : e.real (e.guard x.h) ≠ 0)
    (hnone : e.k.mmacOf e.w.id e.p.slot (e.real (e.guard x.h)) = none)
    (hfirst : (e.w.th (lowLane (e.real (e.guard x.h)))).exch = false) :
    (e.k.mfmt = 0 → exec (.mmac x) s = .next (s.takeFault e.w e.p.lanes e.p.slot
      (laneTrap .format (lowLane (e.real (e.guard x.h))))).stopIssue)
    ∧ (e.k.mfmt ≠ 0 → x.tok = false → 32 ≤ e.k.cmds.length →
      exec (.mmac x) s = .next (s.setWave (e.w.each e.p.lanes fun _ th => { th with run := .hold .command })).stopIssue)
    ∧ (e.k.mfmt ≠ 0 → e.k.cmds.length < 32 → (x.tok = true → ∃ q, e.k.tokenQueue = some q ∧ 0 < (e.k.q q).free) →
      let c := e.newCmd s (.mmac x) x.h x.d x.a x.b
      ∃ t w, exec (.mmac x) s = .next t ∧ t.crew? e.k.id = some (e.k.entered c) ∧ t.wave? e.w.id = some w
        ∧ { t with
            waves := s.waves
            crews := s.crews
            iss := s.iss } = s
        ∧ t.iss = none ∧ ∀ l, l < e.w.width →
          w.th l = if e.p.lanes.getLsbD l then { e.w.th l with run := .hold .mmac } else e.w.th l) := by
  obtain ⟨he, hshape, -, -⟩ := hi
  have hexec := exec_mmac_enters he hm hnone hfirst
  refine ⟨fun hmode => ?_, fun hmode htok hfull => ?_, fun hmode hroom htok => ?_⟩
  · rw [Env.enters_format hm rfl hmode] at hexec
    exact hexec.trans (onIssue_stop he (x := .trap _) rfl)
  · rw [Env.enters_full (i := .mmac x) hm (fun _ => hmode) htok hfull] at hexec
    exact hexec.trans (onIssue_next he rfl)
  · rw [Env.enters_queue (i := .mmac x) hm (fun _ => hmode) hroom htok] at hexec
    intro c
    obtain ⟨hcrew, hwave⟩ := State.enters_frame he (w := e.w) rfl c
    have hwave' := State.wave?_setWave (w := e.w.each e.p.lanes fun _ th => { th with run := .hold .mmac }) hwave
    rw [Except.map, Env.mmacHeld_entered he] at hexec
    exact ⟨_, _, hexec.trans (onIssue_next he rfl), hcrew, hwave', State.held_rest .., rfl,
      fun l hl => Wave.each_th _ _ _ _ (by rw [Wave.shape_threads hshape]; exact hl)⟩

/-- A command other than mmac. -/
theorem command_enters {s : State} {e : Env} (hi : Issuing s e) {i : Instr} {h : Head} {tok fmt : Bool} {d a b : Opd}
    (hcmd : commandOf i = some (h, tok, fmt, d, a, b)) (hother : ∀ x, i ≠ .mmac x) (hm : e.real (e.guard h) ≠ 0) :
    (fmt = true → e.k.mfmt = 0 → exec i s = .next (s.takeFault e.w e.p.lanes e.p.slot
      (laneTrap .format (lowLane (e.real (e.guard h))))).stopIssue)
    ∧ ((fmt = true → e.k.mfmt ≠ 0) → tok = false → 32 ≤ e.k.cmds.length →
      exec i s = .next (s.setWave (e.w.each e.p.lanes fun _ th => { th with run := .hold .command })).stopIssue)
    ∧ ((fmt = true → e.k.mfmt ≠ 0) → e.k.cmds.length < 32 →
      (tok = true → ∃ q, e.k.tokenQueue = some q ∧ 0 < (e.k.q q).free) →
      let c := e.newCmd s i h d a b
      ∃ t, exec i s = .next t ∧ t.crew? e.k.id = some (e.k.entered c) ∧ t.wave? e.w.id = some (e.commandWave i)
        ∧ { t with
            waves := s.waves
            crews := s.crews
            iss := s.iss } = s ∧ t.iss = s.iss) := by
  obtain ⟨he, -, -, -⟩ := hi
  obtain rfl := commandOf_tok hcmd
  have hexec := exec_command (s := s) hcmd hother
  refine ⟨fun hfmt hmode => ?_, fun hmode htok hfull => ?_, fun hmode hroom htok => ?_⟩
  · exact hexec.trans (onIssue_stop he (x := .trap _) (Env.enters_format hm hfmt hmode))
  · exact hexec.trans (onIssue_next he (Env.enters_full hm hmode htok hfull))
  · obtain ⟨hcrew, hwave⟩ := State.enters_frame he (e.commandWave_id i) (e.newCmd s i h d a b)
    exact ⟨_, hexec.trans (onIssue_next he (Env.enters_queue hm hmode hroom htok)), hcrew, hwave, rfl, rfl⟩

/-- Settles O34, for mmac and for the other commands. -/
theorem engineCommands : Obligations.EngineCommands := by
  intro s e hiss i h tok fmt d a b m hcmd hm
  obtain rfl : m = e.real (e.guard h) := hm
  have he := hiss.1
  have hlen := Wave.shape_threads hiss.2.1
  have h64 := Wave.shape_width hiss.2.1
  have hqs := e.k.entered_queues (e.newCmd s i h d a b)
  by_cases hmm : ∃ x, i = .mmac x
  · obtain ⟨x, rfl⟩ := hmm
    cases hcmd
    refine ⟨exec_mmac_nothing he, fun hm hfree => ?_, fun y hy hm hnone hdone => ?_⟩
    · obtain ⟨hnone, hfirst⟩ := hfree x rfl
      obtain ⟨hformat, hfull, henter⟩ := mmac_enters hiss hm hnone hfirst
      refine ⟨fun _ => hformat, fun hmode => hfull (hmode rfl), fun hmode hroom htok => ?_⟩
      obtain ⟨t, w, hexec, hcrew, hwave, hrest, hstop, hth⟩ := henter (hmode rfl) hroom htok
      refine ⟨t, _, w, _, hexec, hcrew, hwave, hrest, rfl, rfl, rfl, rfl, rfl, rfl, rfl, rfl, rfl, rfl, rfl, rfl, rfl, rfl,
        rfl, hqs.1, hqs.2, fun hno => absurd rfl (hno x), fun _ _ => ⟨hstop, hth⟩, fun l hl => ?_⟩
      rw [hth l hl]
      split <;> rfl
    · obtain rfl : x = y := Instr.mmac.inj hy
      refine ⟨_, exec_mmac_done he hm hnone hdone, rfl, e.mmacPassed, ?_, rfl, fun l hl => ?_⟩
      · obtain ⟨-, hwave, -, -, -⟩ := State.env?_eq he
        exact State.wave?_setWave (w := e.mmacPassed) hwave
      · rw [e.mmacPassed_th (by rw [hlen]; exact hl)]
        split
        · exact ⟨rfl, rfl, fun _ => ⟨rfl, rfl⟩⟩
        · next hoff => exact ⟨rfl, rfl, fun hon => absurd hon hoff⟩
  · have hother (x : Mma) (hx : i = .mmac x) : False := hmm ⟨x, hx⟩
    refine ⟨fun hm => ?_, fun hm _ => ?_, fun x hx => absurd hx (hother x)⟩
    · rw [exec_command hcmd hother]
      exact onIssue_next he (Env.enters_nothing hm)
    · obtain ⟨hformat, hfull, henter⟩ := command_enters hiss hcmd hother hm
      refine ⟨hformat, hfull, fun hmode hroom htok => ?_⟩
      obtain ⟨t, hexec, hcrew, hwave, hrest, hstop⟩ := henter hmode hroom htok
      rw [← commandOf_tok hcmd]
      refine ⟨t, _, _, _, hexec, hcrew, hwave, hrest, rfl, rfl, rfl, rfl, rfl, rfl, rfl, rfl, rfl, rfl, rfl, rfl, rfl, rfl,
        rfl, hqs.1, hqs.2, fun _ => ⟨hstop, fun l hl => e.commandWave_th (by rw [hlen]; exact hl)⟩,
        fun x hx => absurd hx (hother x), fun l hl => ?_⟩
      by_cases hdrain : ∃ x, i = .mdrn x
      · obtain ⟨x, rfl⟩ := hdrain
        cases hcmd
        exact e.commandWave_mdrn hm (by rw [hlen]; exact hl) (by omega)
      · rw [e.commandWave_other fun x hx => hdrain ⟨x, hx⟩]
        split
        · exact absurd ⟨_, rfl⟩ hdrain
        · rfl

end Sys2Proof.Machine
end

section
/-! How an engine goes on with the oldest command of a crew (spec/07 R198, R199, R230). -/

namespace Sys2Proof.Machine

/-! ## Advancing a command -/

/-- The command after n of the units that are left of it: it leaves the queue, or stays at its head. -/
def State.advanceCmd (s : State) (k : Crew) (c : Cmd) (n : Nat) (fl : Dword) : State :=
  if n = c.units - c.prog then s.finishCmd k.id c fl
  else s.setHead k.id { c with
    accepted := true
    prog := c.prog + n }

theorem State.unitsNow_le (s : State) (tag rest : Nat) : s.unitsNow tag rest ≤ rest := Nat.sub_le ..

theorem State.unitsNow_pos (s : State) (tag : Nat) {rest : Nat} (h : 0 < rest) : 0 < s.unitsNow tag rest :=
  Nat.sub_pos_of_lt (Nat.mod_lt _ h)

/-- The state t is s but for its waves and crews. -/
def SameBesideCrews (s t : State) : Prop := { t with
  waves := s.waves
  crews := s.crews } = s

theorem SameBesideCrews.refl (s : State) : SameBesideCrews s s := rfl

theorem SameBesideCrews.trans {s t u : State} (h : SameBesideCrews s t) (k : SameBesideCrews t u) : SameBesideCrews s u := by
  unfold SameBesideCrews at *
  rw [← k] at h
  exact h

theorem SameBesideCrews.cores {s t : State} (h : SameBesideCrews s t) : t.cores = s.cores := by rw [← h]

theorem SameBesideCrews.bytes {s t : State} (h : SameBesideCrews s t) : SameBytes s t := sameBytes_of_rest h

theorem State.setHead_crew {s : State} {k0 k : Crew} (hk : s.crew? k0.id = some k) (c : Cmd) :
    (s.setHead k0.id c).crew? k0.id = some { k with cmds := c :: k.cmds.drop 1 }
    ∧ SameBesideCrews s (s.setHead k0.id c) := by
  have hid := State.crew?_id hk
  rw [State.setHead, hk]
  refine ⟨?_, rfl⟩
  rw [← hid] at hk ⊢
  exact State.crew?_setCrew (k := { k with cmds := c :: k.cmds.drop 1 }) hk

theorem State.finishCmd_crew {s : State} {id : Nat} {k : Crew} (hk : s.crew? id = some k) (c : Cmd) (fl : Dword) :
    (∃ k', (s.finishCmd id c fl).crew? id = some k' ∧ k'.cmds = k.cmds.drop 1)
    ∧ SameBesideCrews s (s.finishCmd id c fl) := by
  have hid := State.crew?_id hk
  subst hid
  have hset (s1 : State) (h1 : s1.crews = s.crews) (k' : Crew) (hk' : k'.id = k.id) :
      (s1.setCrew k').crew? k.id = some k' := by
    rw [← hk']
    refine State.crew?_setCrew (x := k) ?_
    rw [hk', ← hk, State.crew?, h1, State.crew?]
  rw [State.finishCmd, hk]
  dsimp only
  split <;> split
  · exact ⟨⟨_, hset _ rfl _ rfl, rfl⟩, rfl⟩
  · exact ⟨⟨_, hset _ rfl _ rfl, rfl⟩, rfl⟩
  · exact ⟨⟨_, hset _ rfl _ rfl, rfl⟩, rfl⟩
  · exact ⟨⟨_, hset _ rfl _ rfl, rfl⟩, rfl⟩

/-- What goes on leaves the crew's queue as it should, and no other part of the state but crews and waves. -/
theorem State.advanceCmd_advances {s : State} {k : Crew} {c : Cmd} {n : Nat} (hk : s.crew? k.id = some k)
    (hle : n ≤ c.units - c.prog) (hpos : 0 < c.units - c.prog → 0 < n) (fl : Dword) :
    Advances (s.advanceCmd k c n fl) k.id k c n (c.units - c.prog) ∧ SameBesideCrews s (s.advanceCmd k c n fl) := by
  unfold State.advanceCmd
  split
  · next hn =>
    obtain ⟨⟨k', hk', hcmds⟩, hrest⟩ := State.finishCmd_crew hk c fl
    exact ⟨⟨hle, hpos, k', hk', by rw [if_pos hn, hcmds]⟩, hrest⟩
  · next hn =>
    obtain ⟨hk', hrest⟩ := State.setHead_crew (k0 := k) hk { c with
      accepted := true
      prog := c.prog + n }
    exact ⟨⟨hle, hpos, _, hk', by rw [if_neg hn]⟩, hrest⟩

/-! ## Commands that nothing holds back -/

/-- A command whose turn has come: its checks, and then its work. -/
theorem exec_engineCommandDone_turn {s : State} {crew : Nat} {k : Crew} {t : Task} {c : Cmd} {r : List Cmd}
    (hk : s.crew? crew = some k) (ht : s.task? k.task = some t) (hr : k.cmds = c :: r) (hstuck : k.stuck = false)
    (hwait : c.wait = none) (hmmac : ∀ x, c.i ≠ .mmac x) (hvmm : vmmOrdered c.i = true → s.vmmBefore k c = false)
    (hbehind : ∀ b ∈ c.behind, s.performed b = true) {y : Option Trap}
    (hacc : (if c.accepted then none else s.acceptCmd k t c) = y) :
    exec (.engineCommandDone crew) s = .next (y.elim (s.perform k t c) fun tr => s.stopCmd k t c (.trap tr)) := by
  have hv : (vmmOrdered c.i && s.vmmBefore k c) = false := by
    cases hb : vmmOrdered c.i with
    | false => rfl
    | true => rw [hvmm hb]; rfl
  have hb : (c.behind.any fun x => !s.performed x) = false := by
    rw [List.any_eq_false]
    intro b hb
    rw [hbehind b hb]
    decide
  show execEngineCommandDone crew s = _
  simp only [execEngineCommandDone, hk, hr, ht, hstuck, hwait, hv, hb, hacc, Option.isSome_none, Bool.or_self,
    Bool.false_eq_true, if_false]
  cases y <;> rfl

section
variable {s : State} {crew : Nat} {k : Crew} {t : Task} {c : Cmd} (h : Performing s crew k t c)
include h

theorem performing_crew : crew = k.id := (State.crew?_id h.1).symm

/-- The engine goes on with the command. -/
theorem exec_engineCommandDone (hmmac : ∀ x, c.i ≠ .mmac x) :
    exec (.engineCommandDone crew) s = .next (s.perform k t c) := by
  obtain ⟨hk, ht, ⟨r, hr⟩, hstuck, hwait, -, -, hacc, -, -, -, hbehind, hvmm⟩ := h
  refine exec_engineCommandDone_turn hk ht hr hstuck hwait hmmac hvmm hbehind (y := none) ?_
  obtain ha | ha := hacc
  · rw [if_pos ha]
  · rw [ha, ite_self]

theorem performing_cold (sp : Span) : c.isHot sp = false ∧ c.isLate sp = false := by
  obtain ⟨-, -, -, -, -, hhot, htaint, -⟩ := h
  simp [Cmd.isHot, Cmd.isLate, hhot, htaint]

theorem performing_spoil (u : State) (src dst : Span) (pl : Place) (a : Nat) : u.spoil c src dst pl a = u := by
  obtain ⟨-, -, -, -, -, hhot, htaint, -⟩ := h
  simp [State.spoil, hhot, htaint]

end

end Sys2Proof.Machine
end

section
/-! Tile moves, weight loads and wbinv as they are performed (spec/07 R199, R216, R219, R220, R230). -/

namespace Sys2Proof.Machine

/-! ## Steps of a command -/

/-- Units that a command does together. -/
def State.unitsOf (s : State) (c : Cmd) : Nat := s.unitsNow (2 ^ 59 + c.seq) (c.units - c.prog)

section
variable {s : State} {k : Crew} {t : Task} {c : Cmd}

theorem State.perform_tld {x : TileMove} (hi : c.i = .tld x) :
    s.perform k t c = (s.doTld k c (s.unitsOf c)).advanceCmd k c (s.unitsOf c) c.flags := by
  cases c
  cases hi
  rfl

theorem State.perform_tst {x : TileMove} (hi : c.i = .tst x) :
    s.perform k t c = (s.doTst k c (s.unitsOf c)).advanceCmd k c (s.unitsOf c) c.flags := by
  cases c
  cases hi
  rfl

theorem State.perform_tzro {x : TileMove} (hi : c.i = .tzro x) :
    s.perform k t c = (s.doTzro k c (s.unitsOf c)).advanceCmd k c (s.unitsOf c) c.flags := by
  cases c
  cases hi
  rfl

theorem State.perform_wbinv {x : Wbinv} (hi : c.i = .wbinv x) :
    s.perform k t c = (s.doWbinv k c x).advanceCmd k c (s.unitsOf c) c.flags := by
  cases c
  cases hi
  rfl

/-- What follows some units of a command that may fault. -/
def State.endUnits (s : State) (k : Crew) (t : Task) (c : Cmd) (r : Except Stop State) : State :=
  match r with
  | .ok s1 => s1.advanceCmd k c (s.unitsOf c) c.flags
  | .error x => s.stopCmd k t c x

/-- wbld goes on with the image whose header it has checked. -/
theorem State.perform_wbld {x : Wbld} (hi : c.i = .wbld x) {im : Image} (him : c.image = some im) :
    s.perform k t c = s.endUnits k t c ((s.doWbld k t c x (s.unitsOf c)).map fun s1 =>
      if s.unitsOf c = c.units - c.prog then s1.endWbld k.core im else s1) := by
  cases c
  cases hi
  cases him
  rfl

/-- wbld begins with its header. -/
theorem State.perform_wbld_begin {x : Wbld} (hi : c.i = .wbld x) (him : c.image = none) {im : Image} {s1 : State}
    (h : s.beginWbld k t c x = .ok (im, s1)) :
    s.perform k t c = s1.setHead k.id { c with
      accepted := true
      begun := true
      image := some im } := by
  cases c
  cases hi
  cases him
  simp only [State.perform, h]

end

/-! ## The memories -/

/-- A state of the engine's crew and core, in which a command of it has written memory alone. -/
structure Wrought (s u : State) (k : Crew) (p : Place) (f : Nat → Option Byte) : Prop where
  crew : u.crew? k.id = some k
  laid : Overlaid s u p f

section
variable {s : State} {crew : Nat} {k : Crew} {t : Task} {c : Cmd} (h : Performing s crew k t c)
include h

theorem performing_self : s.crew? k.id = some k := by
  rw [← performing_crew h]
  exact h.1

theorem performing_core : k.core < s.cores.length := by
  obtain ⟨-, -, -, -, -, -, -, -, hc, -⟩ := h
  exact hc

theorem performing_memOk : s.memOk = true := by
  obtain ⟨-, -, -, -, -, -, -, -, -, hmem, -⟩ := h
  exact hmem

/-- What follows a command's work. -/
theorem performing_goes {u : State} (hu : u.crew? k.id = some k) :
    Advances (u.advanceCmd k c (s.unitsOf c) c.flags) crew k c (s.unitsOf c) (c.units - c.prog)
    ∧ SameBesideCrews u (u.advanceCmd k c (s.unitsOf c) c.flags) := by
  rw [performing_crew h]
  exact State.advanceCmd_advances hu (s.unitsNow_le ..) (s.unitsNow_pos _) c.flags

/-- Granules moved between two memories of the crew's core. -/
theorem performing_moved {p q : Place} (hp : p.ofCore k.core) (hq : q.ofCore k.core) {a d n : Nat} (ha : a % 8 = 0)
    (hd : d % 8 = 0) {bs : List Byte} (hread : s.readAt p a (8 * n) = .ok bs) (ss ds : Span) :
    Wrought s (s.moveGranules c p a ss q d ds n) k q (laid (fun _ => none) d bs) := by
  rw [State.moveGranules, performing_spoil h]
  refine ⟨?_, State.copyGranules_overlaid hp hq (performing_core h) (performing_memOk h) ha hd hread⟩
  rw [(State.setMem_quiet ..).crew?, performing_self h]

end

/-- The bytes of the units that a command does, of a range that reads right. -/
theorem State.reads_unitsOf {s : State} {p : Place} {a : Nat} {c : Cmd}
    (h : (s.readAt p a (8 * (c.units - c.prog))).isOk = true) : ∃ bs, s.readAt p a (8 * s.unitsOf c) = .ok bs := by
  have hle : s.unitsOf c ≤ c.units - c.prog := s.unitsNow_le ..
  cases hm : s.readAt p a (8 * (c.units - c.prog)) with
  | error y => rw [hm] at h; cases h
  | ok bs =>
    obtain ⟨hcheck, -⟩ := Memory.read_eq_ok_iff.mp hm
    exact ⟨_, Memory.read_eq_ok_iff.mpr ⟨fun i hi => hcheck i (by omega), rfl⟩⟩

/-! ## Granules that are copied (R216, R220) -/

/-- Records of releases are no bytes. -/
theorem Wrought.dropRels {s u : State} {k : Crew} {p : Place} {f : Nat → Option Byte} (h : Wrought s u k p f) (q : Place)
    (a n : Nat) : Wrought s (u.dropRels q a n) k p f := by
  unfold State.dropRels
  split
  · exact h
  · exact ⟨h.crew, h.laid.keep (fun r => ⟨by cases r <;> rfl, by cases r <;> rfl⟩) rfl⟩

section
variable {s : State} {crew : Nat} {k : Crew} {t : Task} {c : Cmd} (h : Performing s crew k t c)
include h

/-- The command after granules that it has copied. -/
theorem performing_copied {p q : Place} {a d : Nat} {bs : List Byte} (hread : s.readAt p a (8 * s.unitsOf c) = .ok bs)
    {v u : State} (hv : Wrought s v k q (laid (fun _ => none) d bs)) (hbytes : SameBytes v u) (hcrews : u.crews = v.crews) :
    Advances (u.advanceCmd k c (s.unitsOf c) c.flags) crew k c (s.unitsOf c) (c.units - c.prog)
    ∧ (u.advanceCmd k c (s.unitsOf c) c.flags).readAt q d (8 * s.unitsOf c) = s.readAt p a (8 * s.unitsOf c)
    ∧ OtherBytes s (u.advanceCmd k c (s.unitsOf c) c.flags) q d (8 * s.unitsOf c) := by
  obtain ⟨hadv, hrest⟩ := performing_goes h (u := u) (by rw [State.crew?, hcrews, ← State.crew?, hv.crew])
  obtain ⟨hlen, -⟩ := State.readAt_eq_ok_iff.mp hread
  obtain ⟨hin, hout⟩ := hv.laid.single
  rw [hlen] at hin hout
  have hall := hbytes.trans hrest.bytes
  exact ⟨hadv, by rw [hall.readAt, hin, hread], fun q b hb => by rw [hall.readAt, hout q b hb]⟩

end

/-! ## tld, tst and tzro (R216) -/

section
variable {s : State} {crew : Nat} {k : Crew} {t : Task} {c : Cmd} (h : Performing s crew k t c)
include h

theorem performing_tld {x : TileMove} (hi : c.i = .tld x) {a d : Nat} (ha : k.spadBase + c.a.toNat + 8 * c.prog = a)
    (hd : k.tileBase + c.d.toNat + 8 * c.prog = d) (ha8 : a % 8 = 0) (hd8 : d % 8 = 0)
    (hread : (s.readAt (.spad k.core) a (8 * (c.units - c.prog))).isOk = true) :
    ∃ u n, exec (.engineCommandDone crew) s = .next u ∧ Advances u crew k c n (c.units - c.prog)
      ∧ u.readAt (.tile k.core) d (8 * n) = s.readAt (.spad k.core) a (8 * n) ∧ OtherBytes s u (.tile k.core) d (8 * n) := by
  obtain ⟨bs, hbs⟩ := State.reads_unitsOf hread
  refine ⟨_, s.unitsOf c, by rw [exec_engineCommandDone h (by simp [hi]), State.perform_tld hi], ?_⟩
  refine performing_copied h hbs ?_ (fun _ => ⟨rfl, rfl⟩) rfl
  rw [State.doTld, ← Nat.add_assoc, ← Nat.add_assoc, ha, hd]
  exact performing_moved h (.inl rfl) (.inr (.inl rfl)) ha8 hd8 hbs _ _

theorem performing_tst {x : TileMove} (hi : c.i = .tst x) {a d : Nat} (ha : k.tileBase + c.a.toNat + 8 * c.prog = a)
    (hd : k.spadBase + c.d.toNat + 8 * c.prog = d) (ha8 : a % 8 = 0) (hd8 : d % 8 = 0)
    (hread : (s.readAt (.tile k.core) a (8 * (c.units - c.prog))).isOk = true) :
    ∃ u n, exec (.engineCommandDone crew) s = .next u ∧ Advances u crew k c n (c.units - c.prog)
      ∧ u.readAt (.spad k.core) d (8 * n) = s.readAt (.tile k.core) a (8 * n) ∧ OtherBytes s u (.spad k.core) d (8 * n) := by
  obtain ⟨bs, hbs⟩ := State.reads_unitsOf hread
  refine ⟨_, s.unitsOf c, by rw [exec_engineCommandDone h (by simp [hi]), State.perform_tst hi], ?_⟩
  refine performing_copied h hbs ?_ (fun _ => ⟨rfl, rfl⟩) rfl
  rw [State.doTst, ← Nat.add_assoc, ← Nat.add_assoc, ha, hd]
  exact (performing_moved h (.inr (.inl rfl)) (.inl rfl) ha8 hd8 hbs _ _).dropRels ..

/-- Granules of zeros, put one after the other. -/
def State.zeroes (s : State) (p : Place) (d n : Nat) : State :=
  (List.range n).foldl (fun (s : State) i => s.putAt p (d + 8 * i) (List.replicate 8 0)) s

omit h in
theorem State.zeroes_quiet (s : State) (p : Place) (d n : Nat) : SameBesideMemory s (s.zeroes p d n) :=
  foldl_quiet _ (fun _ _ => State.putAt_quiet ..) _ s

omit h in
theorem State.zeroes_overlaid {core : Nat} {p : Place} (hp : p.ofCore core) (hcore : core < s.cores.length)
    (hmem : s.memOk = true) {d : Nat} (hd : d % 8 = 0) (n : Nat) :
    Overlaid s (s.zeroes p d n) p (laid (fun _ => none) d (List.replicate (8 * n) 0)) := by
  induction n with
  | zero =>
    have hnone : laid (fun _ => none) d (List.replicate (8 * 0) (0 : Byte)) = fun _ => none := by
      funext b
      rw [laid, if_neg]
      simp
    rw [hnone]
    exact .refl (State.memOk_ofCore hmem hcore hp)
  | succ n ih =>
    have hput := ih.putGranule hp hcore (a := d + 8 * n) (bs := List.replicate 8 0) (by omega) rfl
    have hlaid := laid_append (fun _ => none) d (List.replicate (8 * n) 0) (List.replicate 8 0)
    rw [List.length_replicate, List.replicate_append_replicate] at hlaid
    rw [hlaid] at hput
    rwa [State.zeroes, List.range_succ, List.foldl_append]

theorem performing_tzro {x : TileMove} (hi : c.i = .tzro x) {d : Nat} (hd : k.tileBase + c.d.toNat + 8 * c.prog = d) :
    ∃ u n, exec (.engineCommandDone crew) s = .next u ∧ Advances u crew k c n (c.units - c.prog)
      ∧ (d % 8 = 0 → u.readAt (.tile k.core) d (8 * n) = .ok (List.replicate (8 * n) 0))
      ∧ (d % 8 = 0 → OtherBytes s u (.tile k.core) d (8 * n)) := by
  let n := s.unitsOf c
  have hdo : s.doTzro k c n = s.zeroes (.tile k.core) d n := by
    rw [State.doTzro, performing_spoil h, ← Nat.add_assoc, hd, State.zeroes]
  have hcrew : (s.zeroes (.tile k.core) d n).crew? k.id = some k := by
    rw [(s.zeroes_quiet ..).crew?, performing_self h]
  obtain ⟨hadv, hrest⟩ := performing_goes h hcrew
  have hbytes (hd8 : d % 8 = 0) := (State.zeroes_overlaid (.inr (.inl rfl)) (performing_core h) (performing_memOk h) hd8 n
    |>.keep hrest.bytes hrest.cores).single
  simp only [List.length_replicate] at hbytes
  refine ⟨_, n, ?_, hadv, fun hd8 => (hbytes hd8).1, fun hd8 => (hbytes hd8).2⟩
  rw [exec_engineCommandDone h (by simp [hi]), State.perform_tzro hi, hdo]

end

/-! ## Images (R219, R220) -/

/-- A core's record changed but for its memories. -/
theorem State.setCore_bytes {s : State} {c : Nat} (hc : c < s.cores.length) {x : Core} (hspad : x.spad = (s.core c).spad)
    (htile : x.tile = (s.core c).tile) (hwbuf : x.wbuf = (s.core c).wbuf) : SameBytes s (s.setCore c x) := fun p => by
  refine ⟨?_, by cases p <;> rfl⟩
  cases p with
  | dev | host | peer => rfl
  | spad n | tile n | wbuf n =>
    simp only [State.mem, State.core_setCore x hc]
    split
    · next hn => simp only [hn, hspad, htile, hwbuf]
    · rfl

theorem Core.mem_evict {x : Core} {off n : Nat} {im : Image} :
    im ∈ (x.evict off n).images ↔ im ∈ x.images ∧ (off + n ≤ im.off ∨ im.off + 64 + im.len ≤ off) := by
  simp only [Core.evict, List.mem_filter, Bool.not_eq_true', Bool.and_eq_false_iff, decide_eq_false_iff_not, Nat.not_lt]

/-- An image that is loaded becomes resident, and those that it overwrites are so no longer. -/
theorem State.endWbld_bytes {s : State} {c : Nat} (hc : c < s.cores.length) (im : Image) :
    SameBytes s (s.endWbld c im) := State.setCore_bytes hc rfl rfl rfl

theorem State.mem_endWbld {s : State} {c : Nat} (hc : c < s.cores.length) {im j : Image} :
    j ∈ ((s.endWbld c im).core c).images
    ↔ j = im ∨ j ∈ (s.core c).images ∧ (im.off + 64 + im.len ≤ j.off ∨ j.off + 64 + j.len ≤ im.off) := by
  rw [State.endWbld, State.core_setCore _ hc, if_pos rfl]
  show j ∈ im :: ((s.core c).evict im.off (64 + im.len)).images ↔ _
  rw [List.mem_cons, Core.mem_evict, Nat.add_assoc im.off]

/-- The images that a wbinv leaves. -/
theorem State.doWbinv_spec {s : State} {k : Crew} (hc : k.core < s.cores.length) (c : Cmd) (x : Wbinv) :
    SameBytes s (s.doWbinv k c x) ∧ (s.doWbinv k c x).crews = s.crews
    ∧ ∀ im, im ∈ ((s.doWbinv k c x).core k.core).images ↔ im ∈ (s.core k.core).images ∧ match x.range with
      | none => False
      | some (_, n) => c.a.toNat % 2 ^ 18 + 64 * n.toNat ≤ im.off ∨ im.off + 64 + im.len ≤ c.a.toNat % 2 ^ 18 := by
  unfold State.doWbinv
  cases hx : x.range with
  | none =>
    refine ⟨State.setCore_bytes hc rfl rfl rfl, rfl, fun im => ?_⟩
    rw [State.core_setCore _ hc, if_pos rfl]
    simp
  | some r =>
    refine ⟨State.setCore_bytes hc rfl rfl rfl, rfl, fun im => ?_⟩
    rw [State.core_setCore _ hc, if_pos rfl, Core.mem_evict, bitsOf_eq, Nat.pow_zero, Nat.div_one]

section
variable {s : State} {crew : Nat} {k : Crew} {t : Task} {c : Cmd} (h : Performing s crew k t c)
include h

theorem performing_wbinv {x : Wbinv} (hi : c.i = .wbinv x) :
    ∃ u k', exec (.engineCommandDone crew) s = .next u ∧ u.crew? crew = some k' ∧ k'.cmds = k.cmds.drop 1
      ∧ (∀ q b, u.readAt q b 1 = s.readAt q b 1)
      ∧ ∀ im, im ∈ (u.core k.core).images ↔ im ∈ (s.core k.core).images ∧ match x.range with
        | none => False
        | some (_, n) => c.a.toNat % 2 ^ 18 + 64 * n.toNat ≤ im.off ∨ im.off + 64 + im.len ≤ c.a.toNat % 2 ^ 18 := by
  obtain ⟨hbytes, hcrews, himages⟩ := State.doWbinv_spec (performing_core h) c x
  have hcrew : (s.doWbinv k c x).crew? k.id = some k := by
    rw [State.crew?, hcrews, ← State.crew?, performing_self h]
  obtain ⟨⟨hle, -, k', hk', hcmds⟩, hrest⟩ := performing_goes h hcrew
  have hunits : c.units = 0 := by simp only [Cmd.units, hi]
  refine ⟨_, k', by rw [exec_engineCommandDone h (by simp [hi]), State.perform_wbinv hi],
    hk', by rw [hcmds, if_pos (by omega)], fun q b => ?_, fun im => ?_⟩
  · rw [hrest.bytes.readAt, hbytes.readAt]
  · rw [← himages im, State.core, State.core, hrest.cores]

theorem performing_wbld {x : Wbld} (hi : c.i = .wbld x) (hx : x.crew = true) {im : Image} (him : c.image = some im)
    {a d : Nat} (ha : k.spadBase + c.a.toNat + 8 * c.prog = a) (hd : c.d.toNat + 8 * c.prog = d) (ha8 : a % 8 = 0)
    (hd8 : d % 8 = 0) (hread : (s.readAt (.spad k.core) a (8 * (c.units - c.prog))).isOk = true) :
    ∃ u n, exec (.engineCommandDone crew) s = .next u ∧ Advances u crew k c n (c.units - c.prog)
      ∧ u.readAt (.wbuf k.core) d (8 * n) = s.readAt (.spad k.core) a (8 * n) ∧ OtherBytes s u (.wbuf k.core) d (8 * n)
      ∧ (n = c.units - c.prog → ∀ j, j ∈ (u.core k.core).images ↔ j = im ∨ j ∈ (s.core k.core).images
        ∧ (im.off + 64 + im.len ≤ j.off ∨ j.off + 64 + j.len ≤ im.off)) := by
  obtain ⟨bs, hbs⟩ := State.reads_unitsOf hread
  let n := s.unitsOf c
  let v := s.moveGranules c (.spad k.core) a (k.padSpan (c.a.toNat + 8 * c.prog) (8 * n)) (.wbuf k.core) d ⟨3, 0, 8 * n⟩ n
  have hv : Wrought s v k (.wbuf k.core) _ := performing_moved h (.inl rfl) (.inr (.inr rfl)) ha8 hd8 hbs _ _
  have hdo : s.doWbld k t c x n = .ok v := by
    simp only [State.doWbld, hx, if_true, ← Nat.add_assoc, ha, hd]
    rfl
  have hexec : exec (.engineCommandDone crew) s = .next ((if n = c.units - c.prog then v.endWbld k.core im else v).advanceCmd
      k c n c.flags) := by
    rw [exec_engineCommandDone h (by simp [hi]), State.perform_wbld hi him, hdo]
    rfl
  by_cases hn : n = c.units - c.prog
  · have hcore : k.core < v.cores.length := by rw [hv.laid.count]; exact performing_core h
    obtain ⟨hadv, hsame, hother⟩ := performing_copied h hbs hv (State.endWbld_bytes hcore im) rfl
    have hrest := (performing_goes h (u := v.endWbld k.core im) hv.crew).2
    refine ⟨_, n, by rw [hexec, if_pos hn], hadv, hsame, hother, fun _ j => ?_⟩
    rw [State.core, hrest.cores, ← State.core, State.mem_endWbld hcore, hv.laid.images]
  · obtain ⟨hadv, hsame, hother⟩ := performing_copied h hbs hv (fun _ => ⟨rfl, rfl⟩) rfl
    exact ⟨_, n, by rw [hexec, if_neg hn], hadv, hsame, hother, fun he => absurd he hn⟩

theorem performing_wbld_begin {x : Wbld} (hi : c.i = .wbld x) (hx : x.crew = true) (him : c.image = none) {bs : List Byte}
    {im : Image} (hbs : s.readAt (.spad k.core) (k.spadBase + c.a.toNat) 64 = .ok bs)
    (hheader : imageHeader c.d.toNat bs = .ok im) (hlen : im.lenOk = true) (hfits : c.d.toNat + 64 + im.len ≤ 2 ^ 18)
    (hwindow : c.a.toNat + 64 + im.len ≤ k.hdr.spad * 256) :
    ∃ u k' c', exec (.engineCommandDone crew) s = .next u ∧ u.crew? crew = some k' ∧ k'.cmds = c' :: k.cmds.drop 1
      ∧ c'.i = c.i ∧ c'.image = some im ∧ c'.begun = true ∧ c'.prog = c.prog ∧ ∀ q b, u.readAt q b 1 = s.readAt q b 1 := by
  obtain rfl := performing_crew h
  have hspoilt : s.spoilt c (k.padSpan c.a.toNat 64) bs = bs := by
    rw [State.spoilt, (performing_cold h _).1]
    rfl
  let v := s.setCore k.core ((s.core k.core).evict c.d.toNat (64 + im.len))
  have hv : SameBytes s v := State.setCore_bytes (performing_core h) rfl rfl rfl
  have hcrew : v.crew? k.id = some k := by rw [State.crew?, State.setCore_crews, ← State.crew?, performing_self h]
  have hbegin : s.beginWbld k t c x = .ok (im, v) := by
    have hfits' : ¬ 262144 < c.d.toNat + 64 + im.len := by omega
    have hwindow' : ¬ k.window < c.a.toNat + 64 + im.len := by rw [Crew.window]; omega
    simp only [State.beginWbld, State.headerAt, hx, hbs, hspoilt, hheader, hlen, hfits', hwindow', if_true, if_false,
      Bool.not_true, Bool.false_eq_true, decide_false, Bool.and_false, v]
  obtain ⟨hk', hrest⟩ := State.setHead_crew hcrew { c with
    accepted := true
    begun := true
    image := some im }
  refine ⟨_, _, _, by rw [exec_engineCommandDone h (by simp [hi]), State.perform_wbld_begin hi him hbegin], hk', rfl, rfl, rfl, rfl, rfl, fun q b => ?_⟩
  rw [hrest.bytes.readAt, hv.readAt]

end

/-! ## Commands that fail their checks (R199) -/

/-- A command that a crew's engine does not run, and none after it. -/
theorem State.stopCmd_stuck {s : State} {k : Crew} {t : Task} {c : Cmd} {tr : Trap} {w : Wave} (hk : s.crew? k.id = some k)
    (hcause : tr.cause ≠ .pageNotPresent) (hw : s.wave? c.wave = some w) (hrun : (w.th c.lane).run ≠ .ended) :
    (s.stopCmd k t c (.trap tr)).crew? k.id = some { k with
      cmds := k.cmds.drop 1
      stuck := true } := by
  have hne : (tr.cause == .pageNotPresent) = false := beq_false_of_ne hcause
  have hset : (s.setCrew { k with
      cmds := k.cmds.drop 1
      stuck := true }).crew? k.id = some _ := State.crew?_setCrew (k := { k with
        cmds := k.cmds.drop 1
        stuck := true }) hk
  have hwave : (s.setCrew { k with
      cmds := k.cmds.drop 1
      stuck := true }).wave? c.wave = some w := hw
  simp only [State.stopCmd, hne, Bool.false_eq_true, if_false, hk, Option.getD_some, State.deferFault, hwave,
    beq_false_of_ne hrun]
  exact hset

/-- The engine of a crew that is stuck does nothing. -/
theorem exec_engineCommandDone_stuck {s : State} {crew : Nat} {k : Crew} (hk : s.crew? crew = some k) (hstuck : k.stuck = true) :
    exec (.engineCommandDone crew) s = .fault .notEnabled := by
  show execEngineCommandDone crew s = _
  simp only [execEngineCommandDone, hk, hstuck, Bool.true_or, if_true]
  split <;> rfl

/-- Settles O36: a command that may go on does so by one of its units or more, each a granule copied or cleared; how many
units are done together, and the beginning of a wbld with its header as a step of its own, are the model's choices
(notes/assumptions/22), which no rule gives. -/
theorem engineMoves : Obligations.EngineMoves := by
  intro s crew k t c
  refine ⟨fun h => ⟨fun x hi ha hd hread => ?_, fun x hi ha hd hread => ?_, fun x hi => ?_,
    fun x im hi hx him ha hd hread => ?_, fun x bs im hi hx him hbs hheader hlen hfits hwindow => ?_, fun x hi => ?_⟩, ?_⟩
  · have hunits : c.units = 8 * x.len.toNat := by simp only [Cmd.units, hi]
    rw [← hunits] at hread ⊢
    obtain ⟨u, n, hu, hadv, hsame, hother⟩ := performing_tld h hi rfl rfl ha hd hread
    exact ⟨u, n, hu, hadv, hsame, hother, fun _ => trivial⟩
  · have hunits : c.units = 8 * x.len.toNat := by simp only [Cmd.units, hi]
    rw [← hunits] at hread ⊢
    obtain ⟨u, n, hu, hadv, hsame, hother⟩ := performing_tst h hi rfl rfl ha hd hread
    exact ⟨u, n, hu, hadv, hsame, hother, fun _ => trivial⟩
  · have hunits : c.units = 8 * x.len.toNat := by simp only [Cmd.units, hi]
    rw [← hunits]
    exact performing_tzro h hi rfl
  · have hunits : c.units = (64 + im.len) / 8 := by simp only [Cmd.units, hi, him, Option.map_some, Option.getD_some]
    rw [← hunits] at hread ⊢
    exact performing_wbld h hi hx him rfl rfl ha hd hread
  · exact performing_wbld_begin h hi hx him hbs hheader hlen hfits hwindow
  · exact performing_wbinv h hi
  · intro tr r w hk ht hr hstuck hwait hacc hmmac hvmm hbehind htr hcause hw hrun
    obtain rfl := State.crew?_id hk
    have hu := State.stopCmd_stuck (t := t) hk hcause hw hrun
    have hturn := exec_engineCommandDone_turn hk ht hr hstuck hwait hmmac hvmm hbehind (y := some tr) (by simp [hacc, htr])
    exact ⟨_, _, hturn, hu, by rw [hr, List.drop_succ_cons, List.drop_zero], rfl, exec_engineCommandDone_stuck hu rfl⟩

end Sys2Proof.Machine
end

section
/-! Sums of products, block by block (spec/03 R94; spec/07 R211), and ranges of a memory that read right. -/

namespace Sys2Proof.Machine

/-! ## Blocks of an accumulator element (R94, R211) -/

theorem ofSigned_eq (n : Nat) (x : Int) : ofSigned n x = (BitVec.ofInt n x).toNat := by
  rw [ofSigned, BitVec.toNat_ofInt]

theorem ofInt_toSigned (x : Nat) : BitVec.ofInt 32 (toSigned 32 (x % 2 ^ 32)) = BitVec.ofNat 32 x := by
  refine BitVec.eq_of_toNat_eq ?_
  rw [BitVec.toNat_ofInt, BitVec.toNat_ofNat, toSigned]
  split <;> omega

/-- Integers wrap. -/
theorem accBlock_eq_blockResult (cty : Ty) (acc : Nat) (ps : List ((FVal × FVal) × (FVal × FVal))) :
    accBlock cty acc ps = blockResult cty acc ps := by
  unfold accBlock blockResult
  cases fmtOf cty with
  | some f => rfl
  | none => simp only [ofSigned_eq, BitVec.ofInt_add, ofInt_toSigned]

/-- The blocks of one element, in ascending order. -/
theorem accBlocks_eq_foldl (cty : Ty) (p : Nat) (g : Nat → (FVal × FVal) × (FVal × FVal)) (n acc : Nat) :
    accBlocks cty p acc ((List.range (n * p)).map g) n
    = (List.range n).foldl (fun v i => blockResult cty v ((List.range p).map fun q => g (i * p + q))) acc := by
  induction n generalizing g acc with
  | zero => rfl
  | succ n ih =>
    have hsplit : (List.range ((n + 1) * p)).map g = (List.range p).map g ++ (List.range (n * p)).map fun q => g (p + q) := by
      rw [show (n + 1) * p = p + n * p by ring, List.range_add, List.map_append, List.map_map]
      rfl
    rw [accBlocks, hsplit, List.take_left' (by simp), List.drop_left' (by simp), ih, List.range_succ_eq_map, List.foldl_cons,
      List.foldl_map, accBlock_eq_blockResult]
    have hnext (i q : Nat) : p + (i * p + q) = (i + 1) * p + q := by ring
    simp only [hnext, Nat.zero_mul, Nat.zero_add, Nat.succ_eq_add_one]

theorem zip_map_range {α β : Type} (f : Nat → α) (g : Nat → β) {lo n k : Nat} (h : lo + n ≤ k) :
    ((((List.range k).map f).drop lo).take n).zip ((List.range n).map g) = (List.range n).map fun q => (f (lo + q), g q) := by
  refine List.ext_getElem (by simp; omega) fun i _ _ => ?_
  simp

/-- Steps for each number below a bound, with what holds between them. -/
theorem eachBelow_ok {σ ε : Type} {f : Nat → σ → Except ε σ} {P : Nat → σ → Prop} {s : σ} (h0 : P 0 s) {n : Nat}
    (hstep : ∀ i u, i < n → P i u → ∃ v, f i u = .ok v ∧ P (i + 1) v) : ∃ v, eachBelow f n s = .ok v ∧ P n v := by
  induction n with
  | zero => exact ⟨s, rfl, h0⟩
  | succ n ih =>
    obtain ⟨u, hu, hp⟩ := ih fun i u hi => hstep i u (Nat.lt_succ_of_lt hi)
    obtain ⟨v, hv, hp'⟩ := hstep n u (Nat.lt_succ_self n) hp
    exact ⟨v, by rw [eachBelow, hu, ← hv], hp'⟩

/-! ## Ranges that read right -/

section
variable {s : State} {p : Place} {a n : Nat}

theorem State.readAt_of_isOk (h : (s.readAt p a n).isOk = true) : s.readAt p a n = .ok (s.bytesAt p a n) := by
  cases hr : s.readAt p a n with
  | error y => rw [hr] at h; cases h
  | ok bs => rw [(Memory.read_eq_ok_iff.mp hr).2, State.bytesAt]

theorem State.bytesAt_length : (s.bytesAt p a n).length = n := Memory.bytes_length ..

theorem State.byteRange_bytesAt {i k : Nat} (h : i + k ≤ n) : byteRange (s.bytesAt p a n) i k = s.bytesAt p (a + i) k := by
  obtain ⟨r, rfl⟩ := Nat.exists_eq_add_of_le h
  rw [State.bytesAt, State.bytesAt, byteRange, Nat.add_assoc, Memory.bytes_add, Memory.bytes_add,
    List.drop_left' (Memory.bytes_length ..), List.take_left' (Memory.bytes_length ..)]

theorem State.readAt_isOk_byte (h : (s.readAt p a n).isOk = true) {i : Nat} (hi : i < n) :
    (s.readAt p (a + i) 1).isOk = true := by
  rw [(State.readAt_eq_ok_iff.mp (State.readAt_of_isOk h)).2 i hi]
  rfl

end

end Sys2Proof.Machine
end

section
/-! mma (spec/07 R206 to R212). -/

namespace Sys2Proof.Machine

/-! ## What an mma reads and writes -/

/-- Row i of the accumulators in tile store (R207). -/
def Crew.accRow (k : Crew) (c : Cmd) (i : Nat) : Nat := k.tileBase + accBase c.d + i * accPitch c.d

/-- Row i of A in tile store, and its scales (R208). -/
def Crew.aRow (k : Crew) (c : Cmd) (i : Nat) : Nat := k.tileBase + (aDesc c.a).base + i * (aDesc c.a).pitch

def Crew.scaleRow (k : Crew) (c : Cmd) (i : Nat) : Nat := k.tileBase + (aDesc c.a).sbase + i * (aDesc c.a).spitch

/-- Element q of row i of A, with its scale. -/
def State.aElem (s : State) (k : Crew) (c : Cmd) (f : MatMode) (kk i q : Nat) : FVal × FVal :=
  (matValue f.aty (bitsOf (leNat (s.bytesAt (.tile k.core) (k.aRow c i) (kk * matBits f.aty / 8))) (q * matBits f.aty)
    (matBits f.aty)),
    if bitOf f.scl 0 then scaleValue (leNat (s.bytesAt (.tile k.core) (k.scaleRow c i + q / 32) 1)) else scaleOne)

/-- Element j of row i of the accumulators before some blocks. -/
def State.accElem (s : State) (k : Crew) (c : Cmd) (f : MatMode) (first : Bool) (i j : Nat) : Nat :=
  if first then 0
  else leNat (s.bytesAt (.tile k.core) (k.accRow c i + j * accBytes f.cty) (accBytes f.cty))

/-- An element after blocks q0 to q0 + n - 1. -/
def State.accAfter (s : State) (k : Crew) (c : Cmd) (f : MatMode) (kk : Nat) (first : Bool) (b : Nat → Nat → FVal × FVal)
    (q0 n i j : Nat) : Nat :=
  (List.range n).foldl (fun v g => blockResult f.cty v ((List.range (blockLen f.aty)).map fun q =>
    (s.aElem k c f kk i ((q0 + g) * blockLen f.aty + q), b ((q0 + g) * blockLen f.aty + q) j))) (s.accElem k c f first i j)

/-- A row of the accumulators after them. -/
def State.rowAfter (s : State) (k : Crew) (c : Cmd) (f : MatMode) (nn kk : Nat) (first : Bool)
    (b : Nat → Nat → FVal × FVal) (q0 n i : Nat) : List Byte :=
  (List.range nn).flatMap fun j => leBytes (accBytes f.cty) (s.accAfter k c f kk first b q0 n i j)

/-- The rows of an mma read right, and it reads none of A that it writes (R210). -/
structure MmaReads (s : State) (k : Crew) (c : Cmd) (f : MatMode) (nn kk m : Nat) : Prop where
  row : ∀ i, i < m → (s.readAt (.tile k.core) (k.aRow c i) (kk * matBits f.aty / 8)).isOk = true
  scales : bitOf f.scl 0 = true → ∀ i, i < m → (s.readAt (.tile k.core) (k.scaleRow c i) (kk / 32)).isOk = true
  acc : ∀ i, i < m → (s.readAt (.tile k.core) (k.accRow c i) (nn * accBytes f.cty)).isOk = true
  apart : rowsMeet m (accBase c.d) (accPitch c.d) (nn * accBytes f.cty) (aDesc c.a).base (aDesc c.a).pitch
    (kk * matBits f.aty / 8) = false
  scalesApart : bitOf f.scl 0 = true → rowsMeet m (accBase c.d) (accPitch c.d) (nn * accBytes f.cty) (aDesc c.a).sbase
    (aDesc c.a).spitch (kk / 32) = false
  fits : nn * accBytes f.cty ≤ accPitch c.d
  whole : 32 ∣ kk

theorem rowsMeet_eq_false {m b1 p1 n1 b2 p2 n2 : Nat} (h : rowsMeet m b1 p1 n1 b2 p2 n2 = false) {i j : Nat} (hi : i < m)
    (hj : j < m) : b2 + j * p2 + n2 ≤ b1 + i * p1 ∨ b1 + i * p1 + n1 ≤ b2 + j * p2 := by
  simp only [rowsMeet, List.any_eq_false, List.mem_range] at h
  have hij := h i hi
  simp only [List.any_eq_true, List.mem_range, Bool.and_eq_true, decide_eq_true_eq, not_exists, not_and] at hij
  have := hij j hj
  omega

/-- Rows apart from those that are written read as before. -/
theorem Overlaid.apart {s u : State} {p : Place} {base pitch len : Nat} {data : Nat → Option (List Byte)} {r : Nat}
    (h : Overlaid s u p (rowsOver base pitch len data r)) {a n : Nat}
    (hapart : ∀ i, i < r → a + n ≤ base + i * pitch ∨ base + i * pitch + len ≤ a)
    (hs : (s.readAt p a n).isOk = true) : u.readAt p a n = .ok (s.bytesAt p a n) := by
  refine h.untouched (fun o ho => rowsOver_outside fun i hi _ => ?_) (State.readAt_of_isOk hs)
  have := hapart i hi
  omega

section
variable {s u : State} {k : Crew} {c : Cmd} {f : MatMode} {nn kk m r i : Nat} {data : Nat → Option (List Byte)}
  (hr : MmaReads s k c f nn kk m) (hcold : ∀ sp, c.isHot sp = false ∧ c.isLate sp = false)
  (hu : Overlaid s u (.tile k.core) (rowsOver (k.tileBase + accBase c.d) (accPitch c.d) (nn * accBytes f.cty) data r))
  (hi : i < m)

theorem tileRead_of_readAt {t n : Nat} {bs : List Byte} (h : u.readAt (.tile k.core) (k.tileBase + t) n = .ok bs) :
    u.tileRead k c t n = .ok bs := by
  rw [State.tileRead, h]

include hr hu hi

/-- The accumulators of a row that is not yet written are those of before. -/
theorem accRow_unchanged (hir : r ≤ i) (first : Bool) :
    ∃ cs, (if first then .ok [] else u.tileRead k c (accBase c.d + i * accPitch c.d) (nn * accBytes f.cty)) = Except.ok cs
    ∧ ∀ j, j < nn → fieldOf cs (j * accBytes f.cty) (accBytes f.cty) = s.accElem k c f first i j := by
  cases first with
  | true => exact ⟨[], rfl, fun j _ => by simp [fieldOf, byteRange, leNat, State.accElem]⟩
  | false =>
    refine ⟨s.bytesAt (.tile k.core) (k.accRow c i) (nn * accBytes f.cty), ?_, fun j hj => ?_⟩
    · rw [if_neg Bool.false_ne_true]
      refine tileRead_of_readAt ?_
      rw [← Nat.add_assoc]
      refine hu.apart (fun j hj => ?_) (hr.acc i hi)
      have hmul : (j + 1) * accPitch c.d ≤ i * accPitch c.d := Nat.mul_le_mul_right _ (by omega)
      have hfits := hr.fits
      rw [Nat.add_mul, Nat.one_mul] at hmul
      omega
    · have hfit : j * accBytes f.cty + accBytes f.cty ≤ nn * accBytes f.cty := by
        rw [← Nat.succ_mul]
        exact Nat.mul_le_mul_right _ hj
      rw [fieldOf, State.byteRange_bytesAt hfit, State.accElem, if_neg Bool.false_ne_true]

include hcold

/-- A row of A is read as it was before the mma's steps. -/
theorem aRow_unchanged (hrm : r ≤ m) : u.aRow k c f kk i = .ok ((List.range kk).map (s.aElem k c f kk i), false) := by
  have hA : u.tileRead k c ((aDesc c.a).base + i * (aDesc c.a).pitch) (kk * matBits f.aty / 8) = .ok _ :=
    tileRead_of_readAt (by
      rw [← Nat.add_assoc]
      refine hu.apart (fun j hj => ?_) (hr.row i hi)
      have := rowsMeet_eq_false hr.apart (Nat.lt_of_lt_of_le hj hrm) hi
      omega)
  have hS (hscl : bitOf f.scl 0 = true) : u.tileRead k c ((aDesc c.a).sbase + i * (aDesc c.a).spitch) (kk / 32) = .ok _ :=
    tileRead_of_readAt (by
      rw [← Nat.add_assoc]
      refine hu.apart (fun j hj => ?_) (hr.scales hscl i hi)
      have := rowsMeet_eq_false (hr.scalesApart hscl) (Nat.lt_of_lt_of_le hj hrm) hi
      omega)
  unfold State.aRow
  simp only [hA, (hcold _).1, Bool.and_false, Bool.or_false]
  cases hscl : bitOf f.scl 0 with
  | false =>
    simp only [Bool.false_eq_true, if_false]
    congr 2
    refine List.map_congr_left fun q _ => ?_
    rw [State.aElem, hscl, if_neg Bool.false_ne_true]
    rfl
  | true =>
    simp only [if_true, hS hscl]
    congr 2
    refine List.map_congr_left fun q hq => ?_
    have hq' : q / 32 + 1 ≤ kk / 32 := by
      have := List.mem_range.mp hq
      have := hr.whole
      omega
    rw [State.aElem, if_pos hscl, fieldOf, State.byteRange_bytesAt hq']
    rfl

omit hr hu hi hcold in
/-- The blocks of one element. -/
theorem accBlocks_accAfter {q0 n : Nat} (hblocks : (q0 + n) * blockLen f.aty ≤ kk) {first : Bool} (b : Nat → Nat → FVal × FVal)
    {j acc : Nat} (hacc : acc = s.accElem k c f first i j) :
    accBlocks f.cty (blockLen f.aty) acc
      (((((List.range kk).map (s.aElem k c f kk i)).drop (q0 * blockLen f.aty)).take (n * blockLen f.aty)).zip
        ((List.range (n * blockLen f.aty)).map fun q => b (q0 * blockLen f.aty + q) j)) n
    = s.accAfter k c f kk first b q0 n i j := by
  have hat (g q : Nat) : q0 * blockLen f.aty + (g * blockLen f.aty + q) = (q0 + g) * blockLen f.aty + q := by ring
  rw [zip_map_range _ _ (by rw [← Nat.add_mul]; exact hblocks), accBlocks_eq_foldl, hacc, State.accAfter]
  simp only [hat]

/-- One row of the accumulators. -/
theorem mmaRow_overlaid (hir : r = i) {q0 n : Nat} (hblocks : (q0 + n) * blockLen f.aty ≤ kk) (hk : u.crew? k.id = some k)
    (hcore : k.core < s.cores.length) (first : Bool) (b : Nat → Nat → FVal × FVal) :
    ∃ v, u.mmaRow k c f nn kk first b q0 n i = .ok v
    ∧ Wrought s v k (.tile k.core) (laid (rowsOver (k.tileBase + accBase c.d) (accPitch c.d) (nn * accBytes f.cty) data r)
      (k.accRow c i) (s.rowAfter k c f nn kk first b q0 n i)) := by
  obtain ⟨cs, hcs, hold⟩ := accRow_unchanged hr hu hi (Nat.le_of_eq hir) first
  have hA := aRow_unchanged hr hcold hu hi (Nat.le_of_lt (hir ▸ hi))
  have hcnt : min (n * blockLen f.aty) (kk - q0 * blockLen f.aty) = n * blockLen f.aty := by
    rw [Nat.add_mul] at hblocks
    omega
  have hlen : (s.rowAfter k c f nn kk first b q0 n i).length = nn * accBytes f.cty := by
    simp [State.rowAfter, List.length_flatMap, leBytes_length]
  obtain ⟨v, hv, hlaid⟩ := hu.write (.inr (.inl rfl)) hcore (a := k.accRow c i)
    (bs := s.rowAfter k c f nn kk first b q0 n i) fun o ho =>
      hu.isOk (State.readAt_isOk_byte (hr.acc i hi) (by rw [← hlen]; exact ho))
  refine ⟨v, ?_, ?_, hlaid⟩
  · rw [Crew.accRow, Nat.add_assoc] at hv
    have hrow := List.flatMap_congr (l := List.range nn) fun j hj =>
      congrArg (leBytes (accBytes f.cty)) (accBlocks_accAfter hblocks b (hold j (List.mem_range.mp hj)))
    unfold State.mmaRow
    simp only [hcs, hA, hcnt, (hcold _).1, (hcold _).2, Bool.and_false, Bool.or_self, Bool.false_eq_true, if_false, hrow]
    rw [State.tileWrite, ← State.rowAfter, hv]
  · rw [(State.writeAt_quiet hv).crew?, hk]

omit hu hi

/-- All rows. -/
theorem mmaRows_overlaid {q0 n : Nat} (hblocks : (q0 + n) * blockLen f.aty ≤ kk) (hk : s.crew? k.id = some k)
    (hcore : k.core < s.cores.length) (hmem : s.memOk = true) (first : Bool) (b : Nat → Nat → FVal × FVal) :
    ∃ v, s.mmaRows k c f nn kk first b q0 n m = .ok v
    ∧ Wrought s v k (.tile k.core) (rowsOver (k.tileBase + accBase c.d) (accPitch c.d) (nn * accBytes f.cty)
      (fun i => some (s.rowAfter k c f nn kk first b q0 n i)) m) := by
  refine eachBelow_ok (P := fun i v => Wrought s v k (.tile k.core) (rowsOver (k.tileBase + accBase c.d) (accPitch c.d)
    (nn * accBytes f.cty) (fun i => some (s.rowAfter k c f nn kk first b q0 n i)) i)) ⟨hk, ?_⟩ fun i u hi hu => ?_
  · rw [rowsOver_zero]
    exact .refl (State.memOk_ofCore hmem hcore (.inr (.inl rfl)))
  · obtain ⟨v, hv, hlaid⟩ := mmaRow_overlaid hr hcold hu.laid hi rfl hblocks hu.crew hcore first b
    have hlen : (s.rowAfter k c f nn kk first b q0 n i).length = nn * accBytes f.cty := by
      simp [State.rowAfter, List.length_flatMap, leBytes_length]
    rw [Crew.accRow, rowsOver_succ rfl hlen hr.fits] at hlaid
    exact ⟨v, hv, hlaid⟩

end

/-! ## Steps of an mma (R210, R211) -/

section
variable {s : State} {k : Crew} {t : Task} {c : Cmd} {x : Mma} (hi : c.i = .mma x)
include hi

theorem State.perform_mma {im : Image} (him : c.image = some im) :
    s.perform k t c = s.endUnits k t c ((s.doMma k c x im (s.unitsOf c)).map fun s1 => s1.stat k.task 2 (s.unitsOf c)) := by
  cases c
  cases hi
  cases him
  rfl

theorem State.perform_mma_begin (him : c.image = none) {im : Image}
    (h : mmaImage (s.core k.core) c (matMode c.mfmt.toNat) (shapeN x.n) (shapeK x.k) = some im) :
    s.perform k t c = (s.spin k.core).setHead k.id { c with
      accepted := true
      begun := true
      image := some im } := by
  cases c
  cases hi
  cases him
  simp only [State.perform, h]

end

theorem State.spin_bytes {s : State} {c : Nat} (hc : c < s.cores.length) : SameBytes s (s.spin c) := by
  unfold State.spin
  split
  · exact State.setCore_bytes hc rfl rfl rfl
  · exact fun _ => ⟨rfl, rfl⟩

theorem State.spin_crews (s : State) (c : Nat) : (s.spin c).crews = s.crews := by
  unfold State.spin
  split <;> rfl

theorem State.stat_cores (s : State) (task i n : Nat) : (s.stat task i n).cores = s.cores := by
  unfold State.stat
  split <;> rfl

/-- A task's counts are no bytes and no crew's. -/
theorem State.stat_bytes (s : State) (task i n : Nat) : SameBytes s (s.stat task i n) ∧ (s.stat task i n).crews = s.crews := by
  unfold State.stat
  split
  · exact ⟨fun _ => ⟨rfl, rfl⟩, rfl⟩
  · exact ⟨fun p => ⟨by cases p <;> rfl, by cases p <;> rfl⟩, rfl⟩

/-- Each element of the accumulators after the mma's blocks. -/
theorem Overlaid.accElem {s u : State} {k : Crew} {c : Cmd} {f : MatMode} {nn kk m q0 n : Nat} {first : Bool}
    {b : Nat → Nat → FVal × FVal} (hfits : nn * accBytes f.cty ≤ accPitch c.d)
    (h : Overlaid s u (.tile k.core) (rowsOver (k.tileBase + accBase c.d) (accPitch c.d) (nn * accBytes f.cty)
      (fun i => some (s.rowAfter k c f nn kk first b q0 n i)) m)) {i j : Nat} (hi : i < m) (hj : j < nn) :
    u.readAt (.tile k.core) (k.accRow c i + j * accBytes f.cty) (accBytes f.cty)
    = .ok (leBytes (accBytes f.cty) (s.accAfter k c f kk first b q0 n i j)) := by
  refine State.readAt_eq_ok_iff.mpr ⟨leBytes_length .., fun o ho => ?_⟩
  have hin : j * accBytes f.cty + o < nn * accBytes f.cty := by
    have := Nat.mul_le_mul_right (accBytes f.cty) hj
    rw [Nat.succ_mul] at this
    omega
  have hdiv : (j * accBytes f.cty + o) / accBytes f.cty = j := by
    rw [Nat.add_comm, Nat.add_mul_div_right _ _ (by omega), Nat.div_eq_of_lt ho, Nat.zero_add]
  have hmod : (j * accBytes f.cty + o) % accBytes f.cty = o := by
    rw [Nat.add_comm, Nat.add_mul_mod_self_right, Nat.mod_eq_of_lt ho]
  rw [h.byte, Crew.accRow, Nat.add_assoc _ _ o, rowsOver_at hfits hin, if_pos hi, Option.map_some, State.rowAfter,
    flatMap_range_getD (fun _ => leBytes_length ..) _ hin, hdiv, hmod]

section
variable {s : State} {crew : Nat} {k : Crew} {t : Task} {c : Cmd} (h : Performing s crew k t c) {x : Mma} (hi : c.i = .mma x)
include h hi

/-- An mma begins with its image. -/
theorem performing_mma_begin (him : c.image = none) {im : Image}
    (hres : mmaImage (s.core k.core) c (matMode c.mfmt.toNat) (shapeN x.n) (shapeK x.k) = some im) :
    ∃ u k', exec (.engineCommandDone crew) s = .next u ∧ u.crew? crew = some k' ∧ k'.cmds = { c with
        accepted := true
        begun := true
        image := some im } :: k.cmds.drop 1
      ∧ ∀ q b, u.readAt q b 1 = s.readAt q b 1 := by
  obtain rfl := performing_crew h
  have hcrew : (s.spin k.core).crew? k.id = some k := by
    rw [State.crew?, State.spin_crews, ← State.crew?, performing_self h]
  obtain ⟨hk', hrest⟩ := State.setHead_crew hcrew { c with
    accepted := true
    begun := true
    image := some im }
  refine ⟨_, _, by rw [exec_engineCommandDone h (by simp [hi]), State.perform_mma_begin hi him hres], hk', rfl, fun q b => ?_⟩
  rw [hrest.bytes.readAt, (State.spin_bytes (performing_core h)).readAt]

/-- Blocks of an mma. -/
theorem performing_mma {im : Image} (him : c.image = some im) {f : MatMode} (hf : matMode c.mfmt.toNat = f)
    (hr : MmaReads s k c f (shapeN x.n) (shapeK x.k) (shapeM x.m)) {bs : List Byte}
    (hprog : c.prog < c.units) {k0 j0 : Nat} (hk0 : bitsOf c.b.toNat 18 14 = k0) (hj0 : bitsOf c.b.toNat 32 10 = j0)
    (hbs : s.imageData k.core im (cmdFormat c im.off 8 0) (k0 + c.prog * blockLen f.aty)
      (min (s.unitsOf c * blockLen f.aty) (shapeK x.k - c.prog * blockLen f.aty)) j0 (shapeN x.n) = .ok bs) :
    ∃ u, exec (.engineCommandDone crew) s = .next u ∧ Advances u crew k c (s.unitsOf c) (c.units - c.prog)
      ∧ Overlaid s u (.tile k.core) (rowsOver (k.tileBase + accBase c.d) (accPitch c.d) (shapeN x.n * accBytes f.cty)
        (fun i => some (s.rowAfter k c f (shapeN x.n) (shapeK x.k) (accZero c.d && c.prog == 0)
          (fun q j => imageElem im.ty im.kb bs (k0 + q) (j0 + j)) c.prog (s.unitsOf c) i)) (shapeM x.m)) := by
  subst hf
  have hblocks : (c.prog + s.unitsOf c) * blockLen (matMode c.mfmt.toNat).aty ≤ shapeK x.k := by
    have hle : c.prog + s.unitsOf c ≤ c.units := by
      have : s.unitsOf c ≤ c.units - c.prog := s.unitsNow_le ..
      omega
    have hunits : c.units = ceilDiv (shapeK x.k) (blockLen (matMode c.mfmt.toNat).aty) := by simp only [Cmd.units, hi]
    refine (Nat.mul_le_mul_right _ hle).trans ?_
    rw [hunits, ceilDiv, blockLen]
    unfold shapeK
    split <;> omega
  obtain ⟨v, hv, hlaid⟩ := mmaRows_overlaid hr (performing_cold h) hblocks (performing_self h) (performing_core h)
    (performing_memOk h) (accZero c.d && c.prog == 0) fun q j => imageElem im.ty im.kb bs (k0 + q) (j0 + j)
  have hdo : s.doMma k c x im (s.unitsOf c) = .ok v := by
    simp only [State.doMma, State.mmaBlocks, hk0, hj0, hbs, hv]
  obtain ⟨hbytes, hcrews⟩ := v.stat_bytes k.task 2 (s.unitsOf c)
  obtain ⟨hadv, hrest⟩ := performing_goes h (u := v.stat k.task 2 (s.unitsOf c))
    (by rw [State.crew?, hcrews, ← State.crew?, hlaid.crew])
  refine ⟨_, ?_, hadv, hlaid.laid.keep (hbytes.trans hrest.bytes) (hrest.cores.trans (v.stat_cores ..))⟩
  rw [exec_engineCommandDone h (by simp [hi]), State.perform_mma hi him, hdo]
  rfl

end

/-! ## The descriptors' fields (R207, R208) -/

theorem blockLen_eq (t : Ty) : blockLen t = if t = .f64 then 4 else 32 := by
  simp only [blockLen, beq_iff_eq]

theorem accBytes_eq (t : Ty) : accBytes t = if t = .f64 then 8 else 4 := by
  simp only [accBytes, beq_iff_eq]

theorem scaled_iff (f : MatMode) : bitOf f.scl 0 = true ↔ f.scl % 2 = 1 := by
  rw [bitOf_iff, Nat.pow_zero, Nat.div_one]

section
variable (k : Crew) (c : Cmd) (i : Nat)

theorem Crew.aRow_eq : k.aRow c i = k.tileBase + c.a.toNat % 2 ^ 20 + i * (16 * (c.a.toNat / 2 ^ 40 % 2 ^ 12)) := by
  simp only [Crew.aRow, aDesc, bitsOf_eq, Nat.pow_zero, Nat.div_one]

theorem Crew.scaleRow_eq :
    k.scaleRow c i = k.tileBase + c.a.toNat / 2 ^ 20 % 2 ^ 20 + i * (c.a.toNat / 2 ^ 52 % 2 ^ 12) := by
  simp only [Crew.scaleRow, aDesc, bitsOf_eq]

theorem Crew.accRow_eq : k.accRow c i = k.tileBase + c.d.toNat % 2 ^ 20 + i * (64 * (c.d.toNat / 2 ^ 20 % 2 ^ 12)) := by
  simp only [Crew.accRow, accBase, accPitch, bitsOf_eq, Nat.pow_zero, Nat.div_one]

theorem State.aElem_eq (s : State) (f : MatMode) (kk q : Nat) : s.aElem k c f kk i q =
    (matValue f.aty (leNat (s.bytesAt (.tile k.core) (k.aRow c i) (kk * matBits f.aty / 8)) / 2 ^ (q * matBits f.aty)
      % 2 ^ matBits f.aty),
      if f.scl % 2 = 1 then scaleValue (leNat (s.bytesAt (.tile k.core) (k.scaleRow c i + q / 32) 1)) else scaleOne) := by
  simp only [State.aElem, scaled_iff, bitsOf_eq]

theorem State.accElem_eq (s : State) (f : MatMode) (j : Nat) :
    s.accElem k c f (accZero c.d && c.prog == 0) i j = if c.d.getLsbD 32 = true ∧ c.prog = 0 then 0
      else leNat (s.bytesAt (.tile k.core) (k.accRow c i + j * accBytes f.cty) (accBytes f.cty)) := by
  simp only [State.accElem, Bool.and_eq_true, beq_iff_eq, accZero]

end

/-- Settles O37: the rows of an mma are those of its descriptors, and each element of them is folded over the blocks that
it does. That it begins in a step of its own, and how many blocks it does together, are the model's choices
(notes/assumptions/22). -/
theorem multiplication : Obligations.Multiplication := by
  intro s crew k t c x im h hi f m n kk z p bits row srow acc k0 j0
  refine ⟨fun him hres => performing_mma_begin h hi him hres, ?_⟩
  intro bs him hprog hdata hreads hapart hsapart hfits a b value
  have hz : accBytes f.cty = z := accBytes_eq _
  have hp : blockLen f.aty = p := blockLen_eq _
  have hunits : c.units = (kk + p - 1) / p := by
    rw [← hp]
    simp only [Cmd.units, hi]
    rfl
  have hacc (i j : Nat) : k.accRow c i + j * z = acc i j := by rw [Crew.accRow_eq]
  have hacc0 (i : Nat) : k.accRow c i = acc i 0 := by rw [← hacc, Nat.zero_mul, Nat.add_zero]
  have hr : MmaReads s k c f n kk m := by
    refine ⟨fun i hi => ?_, fun hb i hi => ?_, fun i hi => ?_, ?_, fun hb => ?_, ?_, ⟨_, rfl⟩⟩
    · obtain ⟨hA, -, -⟩ := hreads i hi
      rwa [Crew.aRow_eq]
    · obtain ⟨-, hS, -⟩ := hreads i hi
      rw [Crew.scaleRow_eq]
      exact hS ((scaled_iff f).mp hb)
    · obtain ⟨-, -, hC⟩ := hreads i hi
      rwa [hz, hacc0]
    · simpa only [hz, aDesc, bitsOf_eq, Nat.pow_zero, Nat.div_one] using hapart
    · simpa only [hz, aDesc, bitsOf_eq] using hsapart ((scaled_iff f).mp hb)
    · rwa [hz]
  have hn : s.unitsOf c ≤ (kk + p - 1) / p - c.prog := hunits ▸ s.unitsNow_le ..
  obtain ⟨u, hu, hadv, hlaid⟩ := performing_mma h hi him (f := f) rfl hr (hunits ▸ hprog) (bitsOf_eq ..) (bitsOf_eq ..)
    (hp ▸ hdata _ hn)
  rw [hunits] at hadv
  refine ⟨u, s.unitsOf c, hu, hadv, fun i j him hjn => ?_, fun q adr hout => ?_⟩
  · have hread := hlaid.accElem hr.fits him hjn
    rw [State.accAfter, State.accElem_eq, hz, hp, hacc] at hread
    simp only [State.aElem_eq, Crew.aRow_eq, Crew.scaleRow_eq] at hread
    exact hread
  · refine hlaid.elsewhere fun hq => rowsOver_outside fun i him _ => ?_
    have hrow := hout i him
    rw [← hacc0, Crew.accRow] at hrow
    rw [hz]
    exact hrow.resolve_left fun hne => hne hq

end Sys2Proof.Machine
end

section
/-! vmm, kmma and trow at issue (spec/07 R203, R217, R225, R227). -/

namespace Sys2Proof.Machine

/-! ## Inputs taken at issue -/

theorem vmm_enters {s : State} {e : Env} (he : s.env? = some e) (x : Vmm) :
    Enters s e (.vmm x) ((lanesOf (e.guard x.h)).map fun l =>
      { waiting e (.vmm x) (1#64 <<< l) l 0 (e.src s l false x.b) e.k.eseq
          (e.vregs s l x.a (vmmIn x) ++ e.vregs s l x.d x.n.toNat) with dst := x.d }) := by
  show execVmm x s = _
  rw [execVmm, onIssue_next he rfl, Wave.pushEach_eq]
  rfl

theorem kmma_enters {s : State} {e : Env} (he : s.env? = some e) (h : Head) (b4 : Bool) (d a b : Opd) :
    Enters s e (.kmma h b4 d a b) ((lanesOf (e.guard h)).map fun l =>
      { waiting e (.kmma h b4 d a b) (1#64 <<< l) l ((e.usrc s e.p.lanes b).toNat % 2 ^ 32) 0 0
          (e.vregs s l a 8 ++ e.vregs s l d 16) with dst := d }) := by
  show execKmma h b4 d a b s = _
  rw [execKmma, onIssue_next he rfl, Wave.pushEach_eq]
  rfl

/-! ## trow: the tile store's columns (R217) -/

/-- The address of row j of lane l's column, from an offset in the crew's tile store on. -/
def Env.cell (e : Env) (off j l : Nat) : Nat := e.k.tileBase + off + 4 * (j * e.w.width + l)

section
variable {s : State} {e : Env} {off n : Nat}
  (hfree : ∀ j l, (e.actor s l).conflicts s (e.k.tileSpan (off + 4 * (j * e.w.width + l)) 4) = false)
include hfree

/-- The words of a lane whose column reads right. -/
theorem Env.trowFrom_eq {l : Nat} (hread : ∀ j, j < n → (s.readAt (.tile e.k.core) (e.cell off j l) 4).isOk = true) :
    e.trowFrom s off n l = .ok ((List.range n).map fun j =>
      BitVec.ofNat 32 (leNat (s.bytesAt (.tile e.k.core) (e.cell off j l) 4))) := by
  unfold Env.trowFrom
  dsimp only
  split
  · next y hy =>
    obtain ⟨j, hj, hj'⟩ := List.exists_of_findSome?_eq_some hy
    rw [← Nat.add_assoc, ← Env.cell, State.readAt_of_isOk (hread j (List.mem_range.mp hj))] at hj'
    cases hj'
  · simp only [hfree, Bool.false_eq_true, if_false, ← Nat.add_assoc, Env.cell]

end

theorem Env.off_fits {e : Env} {off n : Nat} (h : off + 4 * n * e.w.width ≤ e.k.hdr.trows * 1024) :
    ¬ e.k.tileLen < off + 4 * n * e.w.width := by
  rw [Crew.tileLen]
  omega

theorem trow_reads {s : State} {e : Env} (he : s.env? = some e) {h : Head} {t r : Opd} {n : BitVec 7} {off : Nat}
    (hoff : off = (e.usrc s e.p.lanes t).toNat) (halign : off % (4 * e.w.width) = 0)
    (hfits : off + 4 * n.toNat * e.w.width ≤ e.k.hdr.trows * 1024)
    (hfree : ∀ j l, (e.actor s l).conflicts s (e.k.tileSpan (off + 4 * (j * e.w.width + l)) 4) = false)
    (hm : e.guard h ≠ 0) (hread : ∀ j l, j < n.toNat → (e.guard h).getLsbD l = true →
      (s.readAt (.tile e.k.core) (e.cell off j l) 4).isOk = true) :
    Enters s e (.trow h true t r n) ((lanesOf (e.guard h)).map fun l =>
      { waiting e (.trow h true t r n) (1#64 <<< l) l 0 0 0 ((List.range n.toNat).map fun j =>
          BitVec.ofNat 32 (leNat (s.bytesAt (.tile e.k.core) (e.cell off j l) 4))) with
        dst := r
        done := true }) := by
  subst hoff
  have hfold := List.foldl_ext (l := lanesOf (e.guard h)) (a := e.w) (f := fun w l =>
    match e.trowFrom s (e.usrc s e.p.lanes t).toNat n.toNat l with
    | .ok ws => w.push (doneResult (.trow h true t r n) e.p.slot l r ws 0)
    | .error y => w.each (1#64 <<< l) fun _ th => { th with dfault := some (th.dfault.getD y) })
    (g := fun w l => w.push (doneResult (.trow h true t r n) e.p.slot l r ((List.range n.toNat).map fun j =>
      BitVec.ofNat 32 (leNat (s.bytesAt (.tile e.k.core) (e.cell (e.usrc s e.p.lanes t).toNat j l) 4))) 0))
    fun w l hl => by
      have hlane : (e.guard h).getLsbD l = true := (List.mem_filter.mp hl).2
      rw [Env.trowFrom_eq hfree fun j hj => hread j l hj hlane]
  rw [Wave.foldl_push] at hfold
  show execTrow h true t r n s = _
  refine onIssue_next he ?_
  simp only [if_true, if_neg hm, halign, ne_eq, not_true_eq_false, if_false, Env.off_fits hfits]
  exact congrArg (fun w => Except.ok (s.setWave w)) hfold

/-! ## trow: registers to the tile store (R217; spec/06 R161) -/

/-- What a trow leaves beside the memories: its wave but for orders, free values, the clock, and what commands write. -/
structure TrowBeside (s u : State) (w : Wave) : Prop where
  wave : ∃ w', u.wave? w.id = some w' ∧ Reordered w w'
  freeN : u.freeN = s.freeN
  tick : u.tick = s.tick
  wsets : (u.crews.map fun k => (k.id, k.wset)) = s.crews.map fun k => (k.id, k.wset)

theorem State.threadWrote_frame (s : State) (x : Actor) (sp : Span) (uo : Bool) :
    (s.threadWrote x sp uo).freeN = s.freeN ∧ (s.threadWrote x sp uo).tick = s.tick ∧ (s.threadWrote x sp uo).cores = s.cores
    ∧ ((s.threadWrote x sp uo).crews.map fun k => (k.id, k.wset)) = s.crews.map fun k => (k.id, k.wset) := by
  unfold State.threadWrote State.orders
  split
  · exact ⟨rfl, rfl, rfl, rfl⟩
  · have hmark : ((s.crews.map fun (k : Crew) => if k.reachedBy x.w.crew sp then k.marked ⟨s.nextId, sp, x.w.id, x.l⟩ x
        else k).map fun k => (k.id, k.wset)) = s.crews.map fun k => (k.id, k.wset) := by
      rw [List.map_map]
      refine List.map_congr_left fun k _ => ?_
      simp only [Function.comp]
      split <;> rfl
    dsimp only
    split <;> exact ⟨rfl, rfl, rfl, hmark⟩

namespace TrowBeside

variable {s u : State} {w : Wave}

theorem quiet {v : State} (h : TrowBeside s u w) (hq : SameBesideMemory u v) : TrowBeside s v w := by
  obtain ⟨w', hw', hord⟩ := h.wave
  refine ⟨⟨w', by rw [hq.wave?, hw'], hord⟩, ?_, ?_, by rw [hq.crews, h.wsets]⟩
  · rw [← h.freeN, ← hq]
  · rw [← h.tick, ← hq]

/-- Beside an engine, a write marks what is written; it adds nothing to what commands write. -/
theorem threadWrote (h : TrowBeside s u w) {x : Actor} (hx : x.w = w) (sp : Span) (uo : Bool) :
    TrowBeside s (u.threadWrote x sp uo) w := by
  subst hx
  obtain ⟨w', hw', hord⟩ := h.wave
  obtain ⟨w2, hw2, hord2⟩ := State.threadWrote_reordered hw' sp uo
  obtain ⟨hfree, htick, -, hwsets⟩ := u.threadWrote_frame x sp uo
  exact ⟨⟨w2, hw2, hord.trans hord2⟩, hfree.trans h.freeN, htick.trans h.tick, hwsets.trans h.wsets⟩

/-- What commands write is known by the crews' records of it. -/
theorem conflicts (h : TrowBeside s u w) (e : Env) (l : Nat) (sp : Span) :
    (e.actor u l).conflicts u sp = (e.actor s l).conflicts s sp := by
  have hany (v : State) (toks : List (Nat × Nat)) (issue : Nat) : v.engineWrites toks issue sp
      = (v.crews.map fun k => (k.id, k.wset)).any fun p => p.2.any fun x => x.span.meets sp && decide (x.issued < issue)
        && !(toks.any fun t => t.1 == p.1 && laterSeq x.seq t.2 == t.2) := by
    rw [List.any_map]
    rfl
  rw [Actor.conflicts, Actor.conflicts, hany, hany, h.wsets, Env.actor, Env.actor, h.tick]

end TrowBeside

/-- The bytes of a trow by their place in the tile store: place q is of row q / W and of lane q % W. -/
def Env.trowData (e : Env) (s : State) (v : Nat) (m : BitVec 64) (q : Nat) : Option (List Byte) :=
  if m.getLsbD (q % e.w.width) then some (leBytes 4 (e.v s (q % e.w.width) (v + q / e.w.width)).toNat) else none

theorem Env.trowData_at (e : Env) (s : State) (v : Nat) (m : BitVec 64) {j l : Nat} (hl : l < e.w.width) :
    e.trowData s v m (j * e.w.width + l)
    = if m.getLsbD l then some (leBytes 4 (e.v s l (v + j)).toNat) else none := by
  have hdiv : (j * e.w.width + l) / e.w.width = j := by
    rw [Nat.add_comm, Nat.add_mul_div_right _ _ (by omega), Nat.div_eq_of_lt hl, Nat.zero_add]
  have hmod : (j * e.w.width + l) % e.w.width = l := by
    rw [Nat.add_comm, Nat.add_mul_mod_self_right, Nat.mod_eq_of_lt hl]
  rw [Env.trowData, hdiv, hmod]

/-- The state after the first N places of a trow. -/
structure TrowDone (s u : State) (e : Env) (off v : Nat) (m : BitVec 64) (N : Nat) : Prop where
  memory : Overlaid s u (.tile e.k.core) (rowsOver (e.k.tileBase + off) 4 4 (e.trowData s v m) N)
  beside : TrowBeside s u e.w

section
variable {s u : State} {e : Env} {off v n : Nat} {m : BitVec 64}
  (hfree : ∀ j l, (e.actor s l).conflicts s (e.k.tileSpan (off + 4 * (j * e.w.width + l)) 4) = false)
  (hread : ∀ j l, j < n → m.getLsbD l = true → (s.readAt (.tile e.k.core) (e.cell off j l) 4).isOk = true)
  (hcore : e.k.core < s.cores.length)

include hfree in
theorem TrowBeside.bytes (h : TrowBeside s u e.w) (j l : Nat) :
    e.trowBytes u (off + 4 * (j * e.w.width + l)) v j l = leBytes 4 (e.v s l (v + j)).toNat := by
  have hv (i : Nat) : e.v u l i = e.v s l i := by
    simp only [Env.v, State.fresh32, State.fresh, h.freeN]
  rw [Env.trowBytes, h.conflicts, hfree, if_neg Bool.false_ne_true, hv]

/-- Marks after the write of some lanes. -/
def Env.wrote (e : Env) (u : State) (off j : Nat) (ls : List Nat) : State :=
  ls.foldl (fun s l => s.threadWrote (e.actor s l) (e.k.tileSpan (off + 4 * (j * e.w.width + l)) 4) false) u

theorem Env.wrote_beside (h : TrowBeside s u e.w) (off j : Nat) (ls : List Nat) :
    TrowBeside s (e.wrote u off j ls) e.w ∧ SameBytes u (e.wrote u off j ls) ∧ (e.wrote u off j ls).cores = u.cores := by
  induction ls generalizing u with
  | nil => exact ⟨h, fun _ => ⟨rfl, rfl⟩, rfl⟩
  | cons l r ih =>
    obtain ⟨hb, hs, hc⟩ := ih (h.threadWrote (x := e.actor u l) rfl (e.k.tileSpan (off + 4 * (j * e.w.width + l)) 4) false)
    obtain ⟨hbytes, -⟩ := u.threadWrote_keeps (e.actor u l) (e.k.tileSpan (off + 4 * (j * e.w.width + l)) 4) false
    obtain ⟨-, -, hcores, -⟩ := u.threadWrote_frame (e.actor u l) (e.k.tileSpan (off + 4 * (j * e.w.width + l)) 4) false
    exact ⟨hb, hbytes.trans hs, hc.trans hcores⟩

theorem Env.cell_eq (e : Env) (off j l : Nat) : e.cell off j l = e.k.tileBase + off + (j * e.w.width + l) * 4 := by
  rw [Env.cell, Nat.mul_comm 4]

/-- A lane that writes nothing, and one that writes its register. -/
theorem Env.trowData_skip {j l N : Nat} (hl : l < e.w.width) (hN : N = j * e.w.width + l) (hm : m.getLsbD l = false) :
    rowsOver (e.k.tileBase + off) 4 4 (e.trowData s v m) (N + 1) = rowsOver (e.k.tileBase + off) 4 4 (e.trowData s v m) N :=
  rowsOver_skip (by rw [hN, e.trowData_at s v m hl, hm, if_neg Bool.false_ne_true])

theorem Env.trowData_laid {j l N : Nat} (hl : l < e.w.width) (hN : N = j * e.w.width + l) (hm : m.getLsbD l = true) :
    laid (rowsOver (e.k.tileBase + off) 4 4 (e.trowData s v m) N) (e.cell off j l) (leBytes 4 (e.v s l (v + j)).toNat)
    = rowsOver (e.k.tileBase + off) 4 4 (e.trowData s v m) (N + 1) := by
  rw [Env.cell_eq, ← hN]
  exact rowsOver_succ (by rw [hN, e.trowData_at s v m hl, hm, if_pos rfl]) (leBytes_length ..) (Nat.le_refl 4)

include hcore in
theorem TrowDone.write {N N' a : Nat} {bs : List Byte} (hu : TrowDone s u e off v m N)
    (hok : ∀ i, i < bs.length → (s.readAt (.tile e.k.core) (a + i) 1).isOk = true)
    (hlaid : laid (rowsOver (e.k.tileBase + off) 4 4 (e.trowData s v m) N) a bs
      = rowsOver (e.k.tileBase + off) 4 4 (e.trowData s v m) N') :
    ∃ t, u.writeAt (.tile e.k.core) a bs = .ok t ∧ ∀ j ls, TrowDone s (e.wrote t off j ls) e off v m N' := by
  obtain ⟨t, ht, hl⟩ := hu.memory.write (.inr (.inl rfl)) hcore fun i hi => hu.memory.isOk (hok i hi)
  rw [hlaid] at hl
  refine ⟨t, ht, fun j ls => ?_⟩
  obtain ⟨hbeside, hbytes, hcores⟩ := Env.wrote_beside (hu.beside.quiet (State.writeAt_quiet ht)) off j ls
  exact ⟨hl.keep hbytes hcores, hbeside⟩

/-- A granule of a trow: the lanes of a pair that write. -/
def Env.trowGranule (e : Env) (off v : Nat) (m : BitVec 64) (j g : Nat) (s : State) : Except Stop State :=
  let ls := [2 * g, 2 * g + 1].filter fun l => m.getLsbD l
  let l := ls.headD 0
  if ls.isEmpty then .ok s
  else match s.writeAt (.tile e.k.core) (e.k.tileBase + (off + 4 * (j * e.w.width + l)))
      (ls.flatMap fun l => e.trowBytes s (off + 4 * (j * e.w.width + l)) v j l) with
    | .ok t => .ok (e.wrote t off j ls)
    | .error y => .error (.trap { mismatchTrap y 13 (y.addr - e.k.tileBase) (s.asid e.t.ctx) Config.tileSpace.toNat 0 with
        lane := some l })

theorem Env.trowTo_eq (e : Env) (s : State) (off v n : Nat) (m : BitVec 64) : e.trowTo s off v n m
    = eachBelow (fun j => eachBelow (e.trowGranule off v m j) ((e.w.width + 1) / 2)) n s := rfl

theorem Env.trowGranule_wrote {j g l : Nat} {r : List Nat} {t : State}
    (hls : ([2 * g, 2 * g + 1].filter fun l => m.getLsbD l) = l :: r)
    (ht : u.writeAt (.tile e.k.core) (e.cell off j l)
      ((l :: r).flatMap fun l => e.trowBytes u (off + 4 * (j * e.w.width + l)) v j l) = .ok t) :
    e.trowGranule off v m j g u = .ok (e.wrote t off j (l :: r)) := by
  rw [Env.cell, Nat.add_assoc] at ht
  simp only [Env.trowGranule, hls, List.headD_cons, List.isEmpty_cons, Bool.false_eq_true, if_false, ht]

include hfree hread hcore in
theorem TrowDone.granule {j g : Nat} (hj : j < n) (hg : 2 * g + 1 < e.w.width)
    (hu : TrowDone s u e off v m (j * e.w.width + 2 * g)) :
    ∃ t, e.trowGranule off v m j g u = .ok t ∧ TrowDone s t e off v m (j * e.w.width + 2 * (g + 1)) := by
  have hok {l : Nat} (hm : m.getLsbD l = true) {i : Nat} (hi : i < 4) :
      (s.readAt (.tile e.k.core) (e.cell off j l + i) 1).isOk = true := State.readAt_isOk_byte (hread j l hj hm) hi
  have hbytes := hu.beside.bytes (v := v) hfree j
  have h0 : 2 * g < e.w.width := by omega
  have hN := Nat.add_assoc (j * e.w.width) (2 * g) 1
  rw [show j * e.w.width + 2 * (g + 1) = j * e.w.width + 2 * g + 1 + 1 by ring]
  cases hm0 : m.getLsbD (2 * g) <;> cases hm1 : m.getLsbD (2 * g + 1)
  case false.false =>
    refine ⟨u, by simp [Env.trowGranule, hm0, hm1], ?_, hu.beside⟩
    rw [Env.trowData_skip hg hN hm1, Env.trowData_skip h0 rfl hm0]
    exact hu.memory
  case false.true =>
    have hlaid := Env.trowData_laid (s := s) (off := off) (v := v) hg hN hm1
    rw [Env.trowData_skip h0 rfl hm0] at hlaid
    obtain ⟨t, ht, hdone⟩ := hu.write hcore (fun i hi => hok hm1 (by rwa [leBytes_length] at hi)) hlaid
    refine ⟨_, Env.trowGranule_wrote (l := 2 * g + 1) (r := []) (by simp [hm0, hm1]) ?_, hdone j _⟩
    rw [List.flatMap_singleton, hbytes]
    exact ht
  case true.false =>
    have hlaid := Env.trowData_laid (s := s) (off := off) (v := v) (j := j) h0 rfl hm0
    rw [← Env.trowData_skip hg hN hm1] at hlaid
    obtain ⟨t, ht, hdone⟩ := hu.write hcore (fun i hi => hok hm0 (by rwa [leBytes_length] at hi)) hlaid
    refine ⟨_, Env.trowGranule_wrote (l := 2 * g) (r := []) (by simp [hm0, hm1]) ?_, hdone j _⟩
    rw [List.flatMap_singleton, hbytes]
    exact ht
  case true.true =>
    have hcell : e.cell off j (2 * g + 1) = e.cell off j (2 * g) + 4 := by
      rw [Env.cell, Env.cell]
      ring
    have hlaid := Env.trowData_laid (s := s) (off := off) (v := v) hg hN hm1
    have happend : e.cell off j (2 * g + 1) = e.cell off j (2 * g) + (leBytes 4 (e.v s (2 * g) (v + j)).toNat).length := by
      rw [leBytes_length, hcell]
    rw [← Env.trowData_laid h0 rfl hm0, happend, laid_append] at hlaid
    have hreads (i : Nat) (hi : i < (leBytes 4 (e.v s (2 * g) (v + j)).toNat
        ++ leBytes 4 (e.v s (2 * g + 1) (v + j)).toNat).length) :
        (s.readAt (.tile e.k.core) (e.cell off j (2 * g) + i) 1).isOk = true := by
      rw [List.length_append, leBytes_length, leBytes_length] at hi
      by_cases h4 : i < 4
      · exact hok hm0 h4
      · have hhigh := hok hm1 (i := i - 4) (by omega)
        rwa [hcell, Nat.add_assoc, Nat.add_sub_cancel' (by omega)] at hhigh
    obtain ⟨t, ht, hdone⟩ := hu.write hcore hreads hlaid
    refine ⟨_, Env.trowGranule_wrote (l := 2 * g) (r := [2 * g + 1]) (by simp [hm0, hm1]) ?_, hdone j _⟩
    rw [List.flatMap_cons, List.flatMap_singleton, hbytes, hbytes]
    exact ht

include hfree hread hcore in
/-- All rows of a trow. -/
theorem TrowDone.rows (heven : e.w.width % 2 = 0) (hu : TrowDone s u e off v m 0) :
    ∃ t, e.trowTo u off v n m = .ok t ∧ TrowDone s t e off v m (n * e.w.width) := by
  rw [Env.trowTo_eq]
  refine eachBelow_ok (P := fun j t => TrowDone s t e off v m (j * e.w.width)) (by rwa [Nat.zero_mul]) fun j t hj ht => ?_
  obtain ⟨t', ht', hdone⟩ := eachBelow_ok (f := e.trowGranule off v m j) (n := (e.w.width + 1) / 2)
    (P := fun g t => TrowDone s t e off v m (j * e.w.width + 2 * g)) ht
    fun g t hg ht => ht.granule hfree hread hcore hj (by omega)
  have hwidth : j * e.w.width + 2 * ((e.w.width + 1) / 2) = (j + 1) * e.w.width := by
    rw [Nat.add_mul]
    omega
  exact ⟨t', ht', hwidth ▸ hdone⟩

/-- What is read after it. -/
theorem TrowDone.read (hu : TrowDone s u e off v m (n * e.w.width)) {j l : Nat} (hj : j < n) (hl : l < e.w.width)
    (hm : m.getLsbD l = true) :
    u.readAt (.tile e.k.core) (e.cell off j l) 4 = .ok (leBytes 4 (e.v s l (v + j)).toNat) := by
  have hin : j * e.w.width + l < n * e.w.width := by
    have := Nat.mul_le_mul_right e.w.width hj
    rw [Nat.succ_mul] at this
    omega
  refine State.readAt_eq_ok_iff.mpr ⟨leBytes_length .., fun i hi => ?_⟩
  rw [hu.memory.byte, Env.cell_eq, rowsOver_at (Nat.le_refl 4) hi, if_pos hin, e.trowData_at s v m hl, hm, if_pos rfl,
    Option.map_some]

theorem TrowDone.elsewhere (hu : TrowDone s u e off v m (n * e.w.width)) {q : Place} {b : Nat}
    (hb : ∀ j l, j < n → m.getLsbD l = true → q ≠ .tile e.k.core ∨ b < e.cell off j l ∨ e.cell off j l + 4 ≤ b) :
    u.readAt q b 1 = s.readAt q b 1 := by
  refine hu.memory.elsewhere fun hq => rowsOver_outside fun i hi hne => ?_
  have hm : m.getLsbD (i % e.w.width) = true := by
    by_contra hm
    exact hne (by rw [Env.trowData, if_neg hm])
  have hcell := hb (i / e.w.width) (i % e.w.width) (Nat.div_lt_of_lt_mul (by rwa [Nat.mul_comm])) hm
  rw [Env.cell_eq, Nat.div_add_mod'] at hcell
  exact hcell.resolve_left fun h => h hq

end

/-- The issuing threads are lanes of the wave. -/
theorem issuing_lanes {s : State} {e : Env} (h : Issuing s e) {l : Nat} (hl : e.p.lanes.getLsbD l = true) : l < e.w.width := by
  obtain ⟨-, -, -, hall⟩ := h
  have h64 : l < 64 := BitVec.lt_of_getLsbD hl
  have hbit : (e.p.lanes &&& ~~~e.w.all).getLsbD l = false := by simp [hall]
  rw [BitVec.getLsbD_and, BitVec.getLsbD_not, hl, Wave.all, maskOf_get _ l h64] at hbit
  simpa [h64] using hbit

theorem issuing_even {s : State} {e : Env} (h : Issuing s e) : e.w.width % 2 = 0 := by
  obtain ⟨-, hshape, -⟩ := h
  simp only [Wave.shapeOk, Bool.and_eq_true, Bool.or_eq_true, beq_iff_eq] at hshape
  omega

theorem trow_writes {s : State} {e : Env} (hi : Issuing s e) {h : Head} {t r : Opd} {n : BitVec 7} {off : Nat} {v : Fin 256}
    (hr : r = .v v) (hoff : off = (e.usrc s e.p.lanes t).toNat) (halign : off % (4 * e.w.width) = 0)
    (hfits : off + 4 * n.toNat * e.w.width ≤ e.k.hdr.trows * 1024)
    (hfree : ∀ j l, (e.actor s l).conflicts s (e.k.tileSpan (off + 4 * (j * e.w.width + l)) 4) = false)
    (hmem : s.memOk = true) (hcore : e.k.core < s.cores.length) {m : BitVec 64} (hm : m = e.real (e.guard h))
    (hread : ∀ j l, j < n.toNat → m.getLsbD l = true → (s.readAt (.tile e.k.core) (e.cell off j l) 4).isOk = true) :
    ∃ u, exec (.trow h false t r n) s = .next u ∧ TrowDone s u e off v.val m (n.toNat * e.w.width) := by
  have he := hi.1
  obtain ⟨-, hwave, -⟩ := State.env?_eq he
  have hstart : TrowDone s s e off v.val m 0 := by
    refine ⟨?_, ⟨e.w, hwave, .refl e.w⟩, rfl, rfl, rfl⟩
    rw [rowsOver_zero]
    exact .refl (State.memOk_ofCore hmem hcore (.inr (.inl rfl)))
  by_cases h0 : m = 0
  · have hnothing : rowsOver (e.k.tileBase + off) 4 4 (e.trowData s v.val m) (n.toNat * e.w.width) = fun _ => none :=
      funext fun b => rowsOver_outside fun i _ hne => absurd (by simp [Env.trowData, h0]) hne
    refine ⟨s, ?_, ?_, hstart.beside⟩
    · show execTrow h false t r n s = _
      exact onIssue_next he (if_pos (hm ▸ h0))
    · rw [hnothing, ← rowsOver_zero]
      exact hstart.memory
  · obtain ⟨u, hu, hdone⟩ := hstart.rows hfree hread hcore (issuing_even hi)
    refine ⟨u, ?_, hdone⟩
    show execTrow h false t r n s = _
    subst hr hoff hm
    refine onIssue_next he ?_
    simp only [Bool.false_eq_true, if_false, if_neg h0, halign, ne_eq, not_true_eq_false, Env.off_fits hfits, hu]

/-- Settles O35: the inputs of vmm and kmma are those of the model's record, a trow from the tile store reads a column for
each lane, and one to it is followed row by row and granule by granule. -/
theorem rowsAndVectors : Obligations.RowsAndVectors := by
  intro s e hi words
  have he := hi.1
  refine ⟨vmm_enters he, kmma_enters he, ?_⟩
  intro h t r n off hoff halign hfits adr hfree
  refine ⟨fun hm hread => ?_, ?_⟩
  · exact trow_reads he hoff halign hfits hfree hm hread
  · intro v hr hmem hcore hread
    obtain ⟨u, hu, hdone⟩ := trow_writes hi hr hoff halign hfits hfree hmem hcore rfl hread
    obtain ⟨w, hw, -, -, hth⟩ := hdone.beside.wave
    exact ⟨u, w, hu, hw, fun l _ => hth l,
      fun j l hj hl => hdone.read hj (issuing_lanes hi (Env.real_lane hl).1) hl, fun q b hb => hdone.elsewhere hb⟩

end Sys2Proof.Machine
end
